-- ==== Sys2Proof/Word.lean ====
section
/-! DEFINITION. The plain words of the FJ-4128: octets, 36-bit words, 32-bit set-up words, and the sparse
map that holds sparse state as plain data. -/

namespace Sys2Proof

/-- An octet of packet, HBM, host or window data (00 Table 00-2). -/
abbrev Octet := BitVec 8

/-- A 36-bit word of a core register, CLM, CSM or instruction store (08 Table 08-2, Table 08-3). -/
abbrev W36 := BitVec 36

/-- A 32-bit set-up register word (20 R403). -/
abbrev W32 := BitVec 32

/-- Sparse plain data: pairs of a key and a value, keys strictly rising. What an unlisted key reads as is said
where a map is read. -/
abbrev Map (α : Type) := List (Nat × α)

/-- A host memory or device memory address and the like: a plain number. -/
abbrev Addr := Nat

/-- A thread: cluster * 128 + logical core * 16 + thread (00 R4: bits [13:3] of its agent ID). -/
abbrev Thr := BitVec 11

/-- The guard of a syllable: bit 3 is N, bits 2-0 are G (09 Table 09-1). -/
abbrev Gd := BitVec 4

/-- Where a context stands: on a thread, or in a save slot (logical core * 16 + slot). -/
structure CtxRef where
  saved : Bool
  idx : BitVec 11
  deriving DecidableEq, Repr

/-- The descriptor a host command came from: its partition, ring, TAG and slot (14 Table 14-5, Table 14-9). -/
structure CmdRef where
  part : BitVec 3
  ring : BitVec 12
  tag : BitVec 16
  slot : BitVec 16
  deriving DecidableEq, Repr

/-- Who asks for an operation that threads, hosts and blocks of the part share: a thread through a helper tag with
its rd field, a host command, a partition's set-up request block (06 R125), or an internal agent of the part
(17 Table 17-1). -/
inductive Issuer where
  | thread (t : Thr) (tag : BitVec 2) (rd : BitVec 5)
  | host (c : CmdRef)
  | setup (part : BitVec 3)
  | internal (number : BitVec 14)
  deriving DecidableEq, Repr

/-- What the check bits of a stored word report: the physical event a memory step brings from outside. -/
inductive MemError where
  | clean | correctable | uncorrectable
  deriving DecidableEq, Repr

/-- What a read of memory meets: in the word itself, or in the on-die `tag` of its buffer. DESIGN CHOICE, log entry 112. -/
structure MemFind where
  tag : Bool
  err : MemError
  deriving DecidableEq, Repr

/-- What the search array's scrubber meets in a row (05 R105); `missed` is an uncorrectable AD error that comes up behind
its visit, which the next search of the row meets. DESIGN CHOICE, log entry 42. -/
inductive ScrubFind where
  | clean | correctable | uncorrectable | missed
  deriving DecidableEq, Repr

/-- The path of a register access (20 R402, 14 Table 14-2): a function's partition window, its BAR2 with the nudge
register and the MSI-X table, the controls of its configuration space, or the supervisor's device window. -/
inductive RegPath where
  | part (p : BitVec 3)
  | bar2 (p : BitVec 3)
  | config (p : BitVec 3)
  | device
  deriving DecidableEq, Repr

/-- A read of host memory that gets no completion (14 R314): a far access, the reads of a command, the doorbell
lines of a partition, or the descriptors of a ring. -/
inductive HostRead where
  | far (ctx : CtxRef) (tag : BitVec 2)
  | command (c : CmdRef)
  | doorbell (part : BitVec 3)
  | descriptors (ring : BitVec 12)
  deriving DecidableEq, Repr

end Sys2Proof
end

