-- ==== Sys2Proof/Syntax.lean ====
section
/-! DEFINITION. The commands of the block: one constructor per row of the table of operations and events. A syllable
row carries the thread, the guard (N, G) and the fields of its format (09 Table 09-2); a host row carries the
descriptor it came from and its operands; an event row carries what the event brings from outside. -/

namespace Sys2Proof

/-- The commands (95_what_each_step_holds.md names the rule of each). -/
inductive Instr where
  /-- NOP (R184). -/
  | nop (t : Thr) (g : Gd)
  /-- BUNDLE_ISSUE (R183). -/
  | bundleIssue (t : Thr)
  /-- ADD (R187). -/
  | add (t : Thr) (g : Gd) (rd ra rb : BitVec 5) (md : BitVec 8)
  /-- SUB (R187). -/
  | sub (t : Thr) (g : Gd) (rd ra rb : BitVec 5) (md : BitVec 8)
  /-- AND (R187). -/
  | and_ (t : Thr) (g : Gd) (rd ra rb : BitVec 5) (md : BitVec 8)
  /-- OR (R187). -/
  | or_ (t : Thr) (g : Gd) (rd ra rb : BitVec 5) (md : BitVec 8)
  /-- XOR (R187). -/
  | xor_ (t : Thr) (g : Gd) (rd ra rb : BitVec 5) (md : BitVec 8)
  /-- ANDN (R187). -/
  | andn (t : Thr) (g : Gd) (rd ra rb : BitVec 5) (md : BitVec 8)
  /-- SHL (R187). -/
  | shl (t : Thr) (g : Gd) (rd ra rb : BitVec 5) (md : BitVec 8)
  /-- SHR (R187). -/
  | shr (t : Thr) (g : Gd) (rd ra rb : BitVec 5) (md : BitVec 8)
  /-- SAR (R187). -/
  | sar (t : Thr) (g : Gd) (rd ra rb : BitVec 5) (md : BitVec 8)
  /-- ROL (R187). -/
  | rol (t : Thr) (g : Gd) (rd ra rb : BitVec 5) (md : BitVec 8)
  /-- SEL (R189). -/
  | sel (t : Thr) (g : Gd) (rd ra rb : BitVec 5) (md : BitVec 8)
  /-- CMP (R186). -/
  | cmp (t : Thr) (g : Gd) (rd ra rb : BitVec 5) (md : BitVec 8)
  /-- PLOG (R189). -/
  | plog (t : Thr) (g : Gd) (rd ra rb : BitVec 5) (md : BitVec 8)
  /-- PRD (R189). -/
  | prd (t : Thr) (g : Gd) (rd ra rb : BitVec 5) (md : BitVec 8)
  /-- PWR (R189). -/
  | pwr (t : Thr) (g : Gd) (rd ra rb : BitVec 5) (md : BitVec 8)
  /-- PAR (R189). -/
  | par (t : Thr) (g : Gd) (rd ra rb : BitVec 5) (md : BitVec 8)
  /-- BREV (R189). -/
  | brev (t : Thr) (g : Gd) (rd ra rb : BitVec 5) (md : BitVec 8)
  /-- OREV (R189). -/
  | orev (t : Thr) (g : Gd) (rd ra rb : BitVec 5) (md : BitVec 8)
  /-- BCNT (R189). -/
  | bcnt (t : Thr) (g : Gd) (rd ra rb : BitVec 5) (md : BitVec 8)
  /-- ADDI (R189). -/
  | addi (t : Thr) (g : Gd) (rd ra : BitVec 5) (imm : BitVec 13)
  /-- ANDI (R189). -/
  | andi (t : Thr) (g : Gd) (rd ra : BitVec 5) (imm : BitVec 13)
  /-- ORI (R189). -/
  | ori (t : Thr) (g : Gd) (rd ra : BitVec 5) (imm : BitVec 13)
  /-- XORI (R189). -/
  | xori (t : Thr) (g : Gd) (rd ra : BitVec 5) (imm : BitVec 13)
  /-- SHLI (R189). -/
  | shli (t : Thr) (g : Gd) (rd ra : BitVec 5) (imm : BitVec 13)
  /-- SHRI (R189). -/
  | shri (t : Thr) (g : Gd) (rd ra : BitVec 5) (imm : BitVec 13)
  /-- SARI (R189). -/
  | sari (t : Thr) (g : Gd) (rd ra : BitVec 5) (imm : BitVec 13)
  /-- ROLI (R189). -/
  | roli (t : Thr) (g : Gd) (rd ra : BitVec 5) (imm : BitVec 13)
  /-- EXTI (R189). -/
  | exti (t : Thr) (g : Gd) (rd ra : BitVec 5) (imm : BitVec 13)
  /-- DEPI (R189). -/
  | depi (t : Thr) (g : Gd) (rd ra : BitVec 5) (imm : BitVec 13)
  /-- CMPEQI (R189). -/
  | cmpeqi (t : Thr) (g : Gd) (rd ra : BitVec 5) (imm : BitVec 13)
  /-- CMPNEI (R189). -/
  | cmpnei (t : Thr) (g : Gd) (rd ra : BitVec 5) (imm : BitVec 13)
  /-- CMPLTI (R189). -/
  | cmplti (t : Thr) (g : Gd) (rd ra : BitVec 5) (imm : BitVec 13)
  /-- CMPLTUI (R189). -/
  | cmpltui (t : Thr) (g : Gd) (rd ra : BitVec 5) (imm : BitVec 13)
  /-- LIL (R189). -/
  | lil (t : Thr) (g : Gd) (rd : BitVec 5) (imm : BitVec 18)
  /-- LIH (R189). -/
  | lih (t : Thr) (g : Gd) (rd : BitVec 5) (imm : BitVec 18)
  /-- DADD (R190). -/
  | dadd (t : Thr) (g : Gd) (rd ra rb : BitVec 5) (md : BitVec 8)
  /-- DSUB (R190). -/
  | dsub (t : Thr) (g : Gd) (rd ra rb : BitVec 5) (md : BitVec 8)
  /-- DCMP (R190). -/
  | dcmp (t : Thr) (g : Gd) (rd ra rb : BitVec 5) (md : BitVec 8)
  /-- DCHK (R189). -/
  | dchk (t : Thr) (g : Gd) (rd ra rb : BitVec 5) (md : BitVec 8)
  /-- CVBD (R189). -/
  | cvbd (t : Thr) (g : Gd) (rd ra rb : BitVec 5) (md : BitVec 8)
  /-- CVDB (R190). -/
  | cvdb (t : Thr) (g : Gd) (rd ra rb : BitVec 5) (md : BitVec 8)
  /-- LUHN (R191). -/
  | luhn (t : Thr) (g : Gd) (rd ra rb : BitVec 5) (md : BitVec 8)
  /-- LD (R192). -/
  | ld (t : Thr) (g : Gd) (rd ra : BitVec 5) (imm : BitVec 13)
  /-- ST (R192). -/
  | st (t : Thr) (g : Gd) (rd ra : BitVec 5) (imm : BitVec 13)
  /-- LDO1 (R192). -/
  | ldo1 (t : Thr) (g : Gd) (rd ra : BitVec 5) (imm : BitVec 13)
  /-- LDO2 (R192). -/
  | ldo2 (t : Thr) (g : Gd) (rd ra : BitVec 5) (imm : BitVec 13)
  /-- LDO4 (R192). -/
  | ldo4 (t : Thr) (g : Gd) (rd ra : BitVec 5) (imm : BitVec 13)
  /-- STO1 (R192). -/
  | sto1 (t : Thr) (g : Gd) (rd ra : BitVec 5) (imm : BitVec 13)
  /-- STO2 (R192). -/
  | sto2 (t : Thr) (g : Gd) (rd ra : BitVec 5) (imm : BitVec 13)
  /-- STO4 (R192). -/
  | sto4 (t : Thr) (g : Gd) (rd ra : BitVec 5) (imm : BitVec 13)
  /-- LDD (R193). -/
  | ldd (t : Thr) (g : Gd) (rd ra : BitVec 5) (imm : BitVec 13)
  /-- FLD (R171). -/
  | fld (t : Thr) (g : Gd) (rd ra rb : BitVec 5) (md : BitVec 8)
  /-- FST (R171). -/
  | fst (t : Thr) (g : Gd) (rd ra rb : BitVec 5) (md : BitVec 8)
  /-- FMOV (R171). -/
  | fmov (t : Thr) (g : Gd) (rd ra rb : BitVec 5) (md : BitVec 8)
  /-- FAR_ACCESS_COMPLETE (R172). -/
  | farAccessComplete (ctx : CtxRef) (tag : BitVec 2) (pcieError : Bool)
  /-- LOCKW (R238). -/
  | lockw (t : Thr) (g : Gd) (rd ra rb : BitVec 5) (md : BitVec 8)
  /-- UNLOCKW (R238). -/
  | unlockw (t : Thr) (g : Gd) (rd ra rb : BitVec 5) (md : BitVec 8)
  /-- XLAT (R194). -/
  | xlat (t : Thr) (g : Gd) (rd ra rb : BitVec 5) (md : BitVec 8)
  /-- BMWALK (R195). -/
  | bmwalk (t : Thr) (g : Gd) (rd ra rb : BitVec 5) (md : BitVec 8)
  /-- TLVNEXT (R196). -/
  | tlvnext (t : Thr) (g : Gd) (rd ra rb : BitVec 5) (md : BitVec 8)
  /-- HELPER_COMPLETION (R172). -/
  | helperCompletion (ctx : CtxRef) (tag : BitVec 2)
  /-- DONE (R138). -/
  | doneTicket (t : Thr) (g : Gd) (rd ra rb : BitVec 5) (md : BitVec 8)
  /-- HOST (R138). -/
  | hostDone (t : Thr) (g : Gd) (rd ra rb : BitVec 5) (md : BitVec 8)
  /-- DROP (R137). -/
  | dropTicket (t : Thr) (g : Gd) (rd ra rb : BitVec 5) (md : BitVec 8)
  /-- MOVE (R140). -/
  | moveTicket (t : Thr) (g : Gd) (rd ra rb : BitVec 5) (md : BitVec 8)
  /-- SPLIT (R143). -/
  | splitTicket (t : Thr) (g : Gd) (rd ra rb : BitVec 5) (md : BitVec 8)
  /-- DEFER (R152). -/
  | deferTask (t : Thr) (g : Gd) (rd ra rb : BitVec 5) (md : BitVec 8)
  /-- POST (R197). -/
  | postTask (t : Thr) (g : Gd) (rd ra rb : BitVec 5) (md : BitVec 8)
  /-- GETWORK (R142). -/
  | getwork (t : Thr) (g : Gd) (rd ra rb : BitVec 5) (md : BitVec 8)
  /-- TIMER (R152). -/
  | timerArm (t : Thr) (g : Gd) (rd ra rb : BitVec 5) (md : BitVec 8)
  /-- LOCK (R228). -/
  | lockReq (t : Thr) (g : Gd) (rd ra rb : BitVec 5) (md : BitVec 8)
  /-- UNLOCK (R230). -/
  | unlockReq (t : Thr) (g : Gd) (rd ra rb : BitVec 5) (md : BitVec 8)
  /-- CHOPEN (R239). -/
  | chopen (t : Thr) (g : Gd) (rd ra rb : BitVec 5) (md : BitVec 8)
  /-- CHW (R240). -/
  | chw (t : Thr) (g : Gd) (rd ra rb : BitVec 5) (md : BitVec 8)
  /-- CHPOST (R240). -/
  | chpost (t : Thr) (g : Gd) (rd ra rb : BitVec 5) (md : BitVec 8)
  /-- CHRD (R241). -/
  | chrd (t : Thr) (g : Gd) (rd ra rb : BitVec 5) (md : BitVec 8)
  /-- CHNEXT (R241). -/
  | chnext (t : Thr) (g : Gd) (rd ra rb : BitVec 5) (md : BitVec 8)
  /-- SIGNAL (R245). -/
  | signalEv (t : Thr) (g : Gd) (rd ra rb : BitVec 5) (md : BitVec 8)
  /-- WAITEV (R198). -/
  | waitev (t : Thr) (g : Gd) (rd ra rb : BitVec 5) (md : BitVec 8)
  /-- B (R180). -/
  | branch (t : Thr) (g : Gd) (target : BitVec 16)
  /-- BL (R180). -/
  | bl (t : Thr) (g : Gd) (target : BitVec 16)
  /-- BR (R180). -/
  | br (t : Thr) (g : Gd) (rd ra rb : BitVec 5) (md : BitVec 8)
  /-- MUL (R200). -/
  | mul (t : Thr) (g : Gd) (rd ra rb : BitVec 5) (md : BitVec 8)
  /-- CRC (R201). -/
  | crc (t : Thr) (g : Gd) (rd ra rb : BitVec 5) (md : BitVec 8)
  /-- MFSR (R189). -/
  | mfsr (t : Thr) (g : Gd) (rd ra rb : BitVec 5) (md : BitVec 8)
  /-- MTSR (R189). -/
  | mtsr (t : Thr) (g : Gd) (rd ra rb : BitVec 5) (md : BitVec 8)
  /-- TIME (R189). -/
  | readTime (t : Thr) (g : Gd) (rd ra rb : BitVec 5) (md : BitVec 8)
  /-- BMOVE (R203). -/
  | bmove (t : Thr) (g : Gd) (rd ra rb : BitVec 5) (md : BitVec 8)
  /-- BFILL (R203). -/
  | bfill (t : Thr) (g : Gd) (rd ra rb : BitVec 5) (md : BitVec 8)
  /-- CRCB (R203). -/
  | crcb (t : Thr) (g : Gd) (rd ra rb : BitVec 5) (md : BitVec 8)
  /-- XLATB (R203). -/
  | xlatb (t : Thr) (g : Gd) (rd ra rb : BitVec 5) (md : BitVec 8)
  /-- LUHNX (R203). -/
  | luhnx (t : Thr) (g : Gd) (rd ra rb : BitVec 5) (md : BitVec 8)
  /-- ASYNC_FAULT (R174). -/
  | asyncFault (t : Thr)
  /-- NOP_COMMAND (R306). -/
  | nopCommand (c : CmdRef)
  /-- TBL_EXEC (R125). -/
  | tblExec (c : CmdRef) (addr : BitVec 64)
  /-- INSERT (R126). -/
  | insertEntry (w : Issuer) (blk : BitVec 64)
  /-- UPDATE (R126). -/
  | updateEntry (w : Issuer) (blk : BitVec 64)
  /-- DELETE (R126). -/
  | deleteEntry (w : Issuer) (blk : BitVec 64)
  /-- LOOKUP (R126). -/
  | lookupEntry (w : Issuer) (blk : BitVec 64)
  /-- INSERT_OR_UPDATE (R126). -/
  | insertOrUpdate (w : Issuer) (blk : BitVec 64)
  /-- DELETE_IF_DATA (R126). -/
  | deleteIfData (w : Issuer) (blk : BitVec 64)
  /-- DMA_COPY (R307). -/
  | dmaCopy (c : CmdRef) (mode : BitVec 8) (sel : BitVec 16) (doff : BitVec 40) (addr : BitVec 64) (len : BitVec 32)
  /-- DMA_CHUNK (R313). -/
  | dmaChunk
  /-- ABSENT_TIMEOUT (R314). -/
  | absentTimeout (c : CmdRef)
  /-- SRC_INSERT (R92). -/
  | srcInsert (c : CmdRef) (bank : BitVec 8) (addr : BitVec 64)
  /-- SRC_DELETE (R101). -/
  | srcDelete (c : CmdRef) (handle : BitVec 32)
  /-- SRC_SETAD (R102). -/
  | srcSetad (w : Issuer) (handle : BitVec 32) (ad : BitVec 128) (raddr : BitVec 64)
  /-- SRC_READ (R103). -/
  | srcRead (c : CmdRef) (handle : BitVec 32) (addr : BitVec 64)
  /-- SRC_SEARCH (R97). -/
  | srcSearch (w : Issuer) (profile : BitVec 8) (kaddr raddr : BitVec 64)
  /-- SRC_FLUSH (R102). -/
  | srcFlush (c : CmdRef) (bank : BitVec 8)
  /-- REBALANCE (R94). -/
  | rebalance (bank : BitVec 6)
  /-- SEARCH_SCRUB (R105). -/
  | searchScrub (bank : BitVec 6) (slot : BitVec 12) (found : ScrubFind)
  /-- BANK_SUBSTITUTION (R106). -/
  | bankSubstitution (bank : BitVec 6)
  /-- STF_OPEN (R75). -/
  | stfOpen (c : CmdRef) (stix : BitVec 32) (service flags : BitVec 8) (d0 d1 : BitVec 128)
  /-- STF_RESYNC (R76). -/
  | stfResync (c : CmdRef) (stix : BitVec 32) (flags : BitVec 8) (d0 d1 : BitVec 128)
  /-- STF_QUERY (R75). -/
  | stfQuery (c : CmdRef) (stix : BitVec 32) (addr : BitVec 64)
  /-- STF_CLOSE (R76). -/
  | stfClose (c : CmdRef) (stix : BitVec 32)
  /-- SCH_POST (R157). -/
  | schPost (c : CmdRef) (dom : BitVec 16) (prio flags : BitVec 8) (entry : BitVec 16) (delay : BitVec 32) (buf : BitVec 40) (len : BitVec 16) (arg : BitVec 40)
  /-- HLT_FDROP (R157). -/
  | hltFdrop (c : CmdRef) (ticket : BitVec 40)
  /-- HLT_QUERY (R157). -/
  | hltQuery (c : CmdRef) (dom : BitVec 16) (addr : BitVec 64)
  /-- SEG_WRITE (R170). -/
  | segWrite (c : CmdRef) (part : BitVec 8) (index : BitVec 16) (desc : BitVec 128)
  /-- SEG_PRESENT (R176). -/
  | segPresent (c : CmdRef) (part : BitVec 8) (index : BitVec 16) (p : BitVec 8)
  /-- SEG_READ (R176). -/
  | segRead (c : CmdRef) (part : BitVec 8) (index : BitVec 16) (addr : BitVec 64)
  /-- TASK_RESUME (R177). -/
  | taskResume (c : CmdRef) (fid : BitVec 16)
  /-- TASK_RETRY (R176). -/
  | taskRetry (c : CmdRef) (fid : BitVec 16)
  /-- TASK_KILL (R176). -/
  | taskKill (c : CmdRef) (fid : BitVec 16)
  /-- TASK_RECALL (R176). -/
  | taskRecall (c : CmdRef) (agent : BitVec 16)
  /-- HSP_ACQUIRE (R235). -/
  | hspAcquire (c : CmdRef) (lock : BitVec 16) (prio flags : BitVec 8) (timeout : BitVec 32)
  /-- ACQUIRE_TIMEOUT (R235). -/
  | acquireTimeout (c : CmdRef)
  /-- HSP_RELEASE (R235). -/
  | hspRelease (c : CmdRef) (lock : BitVec 16) (flags : BitVec 8)
  /-- HSP_QUERY (R235). -/
  | hspQuery (c : CmdRef) (lock : BitVec 16) (addr : BitVec 64)
  /-- LOCK_WATCHDOG (R237). -/
  | lockWatchdog (lock : BitVec 15)
  /-- SLOT_HOLD_EXPIRY (R242). -/
  | slotHoldExpiry (channel : BitVec 12) (slot : BitVec 4)
  /-- BUF_ALLOC (R255). -/
  | bufAlloc (w : Issuer) (pool : BitVec 8) (prio : BitVec 8) (flags : BitVec 8)
  /-- BUF_SHARE (R251). -/
  | bufShare (w : Issuer) (ptr : BitVec 40)
  /-- BUF_DROP (R252). -/
  | bufDrop (w : Issuer) (ptr : BitVec 40)
  /-- BUF_GIVE (R251). -/
  | bufGive (w : Issuer) (ptr : BitVec 40) (agent : BitVec 16)
  /-- BUF_FREE (R251). -/
  | bufFree (w : Issuer) (ptr : BitVec 40)
  /-- BUF_RECLAIM (R260). -/
  | bufReclaim (c : CmdRef) (ptr : BitVec 40)
  /-- BUF_QUERY (R260). -/
  | bufQuery (c : CmdRef) (ptr : BitVec 40) (addr : BitVec 64)
  /-- KEY_LOAD (R281). -/
  | keyLoad (c : CmdRef) (slot : BitVec 16) (flags : BitVec 8) (len : BitVec 16) (addr : BitVec 64)
  /-- KEY_DELETE (R283). -/
  | keyDelete (c : CmdRef) (slot : BitVec 16)
  /-- KEY_QUERY (R283). -/
  | keyQuery (c : CmdRef) (slot : BitVec 16) (addr : BitVec 64)
  /-- KEY_KEKSET (R282). -/
  | keyKekset (c : CmdRef) (part : BitVec 8) (addr : BitVec 64)
  /-- JNL_SEAL (R290). -/
  | jnlSeal (c : CmdRef)
  /-- JNL_CERT (R289). -/
  | jnlCert (c : CmdRef) (addr : BitVec 64) (len : BitVec 32)
  /-- PRG_WRITE (R307). -/
  | prgWrite (c : CmdRef) (cluster space : BitVec 8) (woff : BitVec 24) (count : BitVec 16) (addr : BitVec 64)
  /-- PRG_READ (R307). -/
  | prgRead (c : CmdRef) (cluster space : BitVec 8) (woff : BitVec 24) (count : BitVec 16) (addr : BitVec 64)
  /-- MCS_LOAD (R223). -/
  | mcsLoad (c : CmdRef) (addr : BitVec 64) (len : BitVec 32)
  /-- MOD_READ (R38). -/
  | modRead (c : CmdRef) (cage page off len : BitVec 8) (addr : BitVec 64) (answer : Option (List Octet))
  /-- MOD_WRITE (R38). -/
  | modWrite (c : CmdRef) (cage page off len : BitVec 8) (addr : BitVec 64) (answered : Bool)
  /-- SERVICE_NOP (R306). -/
  | serviceNop (c : CmdRef)
  /-- FAR_TEST (R353). -/
  | farTest (c : CmdRef) (res : BitVec 32) (kind : BitVec 8) (failStep : BitVec 32)
  /-- FAR_QUIESCE (R352). -/
  | farQuiesce (c : CmdRef) (res : BitVec 32) (q : BitVec 8)
  /-- FAR_SWAP (R352). -/
  | farSwap (c : CmdRef) (res : BitVec 32)
  /-- FAR_REPORT (R352). -/
  | farReport (c : CmdRef) (addr : BitVec 64)
  /-- AUDIT_SET (R371). -/
  | auditSet (c : CmdRef) (confirm : BitVec 32)
  /-- DBG_UNLOCK (R372). -/
  | dbgUnlock (c : CmdRef) (addr : BitVec 64)
  /-- DEBUG_UNLOCK_EXPIRY (R372). -/
  | debugUnlockExpiry
  /-- SHA256 (R276). -/
  | sha256 (t : Thr) (tag : BitVec 2) (blk : BitVec 36) (opw : BitVec 36)
  /-- HMAC_GEN (R276). -/
  | hmacGen (t : Thr) (tag : BitVec 2) (blk : BitVec 36) (opw : BitVec 36)
  /-- HMAC_VER (R276). -/
  | hmacVer (t : Thr) (tag : BitVec 2) (blk : BitVec 36) (opw : BitVec 36)
  /-- CMAC_GEN (R276). -/
  | cmacGen (t : Thr) (tag : BitVec 2) (blk : BitVec 36) (opw : BitVec 36)
  /-- CMAC_VER (R276). -/
  | cmacVer (t : Thr) (tag : BitVec 2) (blk : BitVec 36) (opw : BitVec 36)
  /-- GCM_ENC (R276). -/
  | gcmEnc (t : Thr) (tag : BitVec 2) (blk : BitVec 36) (opw : BitVec 36)
  /-- GCM_DEC (R276). -/
  | gcmDec (t : Thr) (tag : BitVec 2) (blk : BitVec 36) (opw : BitVec 36)
  /-- TDES_ENC (R276). -/
  | tdesEnc (t : Thr) (tag : BitVec 2) (blk : BitVec 36) (opw : BitVec 36)
  /-- TDES_DEC (R276). -/
  | tdesDec (t : Thr) (tag : BitVec 2) (blk : BitVec 36) (opw : BitVec 36)
  /-- MAC3_GEN (R276). -/
  | mac3Gen (t : Thr) (tag : BitVec 2) (blk : BitVec 36) (opw : BitVec 36)
  /-- MAC3_VER (R276). -/
  | mac3Ver (t : Thr) (tag : BitVec 2) (blk : BitVec 36) (opw : BitVec 36)
  /-- KWRAP (R277). -/
  | kwrap (t : Thr) (tag : BitVec 2) (blk : BitVec 36) (opw : BitVec 36)
  /-- KUNWRAP (R277). -/
  | kunwrap (t : Thr) (tag : BitVec 2) (blk : BitVec 36) (opw : BitVec 36)
  /-- ECDSA_VER (R276). -/
  | ecdsaVer (t : Thr) (tag : BitVec 2) (blk : BitVec 36) (opw : BitVec 36)
  /-- ECDSA_SIGN (R276). -/
  | ecdsaSign (t : Thr) (tag : BitVec 2) (blk : BitVec 36) (opw : BitVec 36)
  /-- ED25519_VER (R276). -/
  | ed25519Ver (t : Thr) (tag : BitVec 2) (blk : BitVec 36) (opw : BitVec 36)
  /-- RSA_VER (R276). -/
  | rsaVer (t : Thr) (tag : BitVec 2) (blk : BitVec 36) (opw : BitVec 36)
  /-- RSA_SIGN (R276). -/
  | rsaSign (t : Thr) (tag : BitVec 2) (blk : BitVec 36) (opw : BitVec 36)
  /-- RANDOM (R278). -/
  | random (t : Thr) (tag : BitVec 2) (blk : BitVec 36) (opw : BitVec 36)
  /-- ENGINE_REQUEST_COMPLETE (R274). -/
  | engineRequestComplete (pk : Bool) (checkFails : BitVec 2)
  /-- RBG_RESEED (R278). -/
  | rbgReseed
  /-- RBG_HEALTH_FAILURE (R278). -/
  | rbgHealthFailure
  /-- RBG_STARTUP_PASS (R278). -/
  | rbgStartupPass
  /-- TRANSMIT (R308). -/
  | transmit (c : CmdRef) (dev tsReq : Bool) (addr : BitVec 64) (sel : BitVec 16) (doff : BitVec 40) (len eq eflags : BitVec 16)
  /-- FRAME_RECEIVE (R30). -/
  | frameReceive (port : BitVec 7) (octets : List Octet) (fcsOk : Bool)
  /-- PAUSE_REPEAT (R31). -/
  | pauseRepeat (port : BitVec 7)
  /-- PAUSE_RECEIVE (R32). -/
  | pauseReceive (port : BitVec 7) (octets : List Octet)
  /-- HOBBLE_HOLD_TIMEOUT (R42). -/
  | hobbleHoldTimeout (unit_ : BitVec 8)
  /-- LINK_UP (R41). -/
  | linkUp (port : BitVec 7) (mode : BitVec 4)
  /-- LINK_DOWN (R34). -/
  | linkDown (port : BitVec 7)
  /-- MODULE_PRESENCE_CHANGE (R39). -/
  | modulePresenceChange (cage : BitVec 5) (present : Bool)
  /-- MODULE_INTERRUPT (R39). -/
  | moduleInterrupt (cage : BitVec 5)
  /-- PARSE_FRAME (R46). -/
  | parseFrame (port : BitVec 7) (found : MemError)
  /-- GRAPH_WALK (R53). -/
  | graphWalk (lane : BitVec 4) (found : MemError)
  /-- PARSE_RECORD_RELEASE (R48). -/
  | parseRecordRelease (port : BitVec 7)
  /-- SLOW_BUCKET_REFILL (R60). -/
  | slowBucketRefill
  /-- SEGMENT_FRAMING (R69). -/
  | segmentFraming
  /-- CLASSIFY (R122). -/
  | classify
  /-- LEARN (R115). -/
  | learn
  /-- LEARN_AGE_FLUSH (R311). -/
  | learnAgeFlush (ring : BitVec 12)
  /-- SWEEPER_VISIT (R128). -/
  | sweeperVisit (l2 : Bool) (bucket : BitVec 32)
  /-- TICKET_ISSUE (R133). -/
  | ticketIssue (part : BitVec 3)
  /-- DISPATCH (R148). -/
  | dispatch (part : BitVec 3)
  /-- TICKET_RELEASE (R135). -/
  | ticketRelease (dom : BitVec 12)
  /-- LATENESS_CHECK (R145). -/
  | latenessCheck (dom : BitVec 12)
  /-- DEADLINE_KILL (R147). -/
  | deadlineKill (ticket : BitVec 14)
  /-- DELAY_ENTRY_DUE (R151). -/
  | delayEntryDue (part : BitVec 3)
  /-- TIMER_EXPIRY (R152). -/
  | timerExpiry (t : Thr)
  /-- PREEMPTION (R153). -/
  | preemption (part : BitVec 3)
  /-- PARTITION_STALL (R156). -/
  | partitionStall (part : BitVec 3)
  /-- EGRESS_PROCESS (R265). -/
  | egressProcess
  /-- FRAME_TRANSMIT (R262). -/
  | frameTransmit (port : BitVec 7)
  /-- TRANSMIT_END (R252). -/
  | transmitEnd (port : BitVec 7)
  /-- EGRESS_TOKEN_REFILL (R263). -/
  | egressTokenRefill
  /-- HOST_DELIVERY (R311). -/
  | hostDelivery (ring : BitVec 12)
  /-- COMPLETION_WRITE (R309). -/
  | completionWrite (ring : BitVec 12)
  /-- STATUS_BLOCK_WRITE (R304). -/
  | statusBlockWrite (ring : BitVec 12)
  /-- MSIX_MESSAGE (R310). -/
  | msixMessage (ring : BitVec 12)
  /-- GPL_NUDGE (R305). -/
  | gplNudge (part : BitVec 3) (written : List (BitVec 64 × Octet))
  /-- DOORBELL_POLL (R304). -/
  | doorbellPoll (part : BitVec 3) (written : List (BitVec 64 × Octet))
  /-- DOORBELL_FETCH (R304). -/
  | doorbellFetch (part : BitVec 3)
  /-- DESCRIPTOR_ARRIVAL (R306). -/
  | descriptorArrival (ring : BitVec 12)
  /-- SERVICE_EVENT (R315). -/
  | serviceEvent
  /-- JOURNAL_RECORD_ENTRY (R286). -/
  | journalRecordEntry
  /-- SEAL_TIMER (R290). -/
  | sealTimer
  /-- BLOCK_EXPORT (R293). -/
  | blockExport
  /-- HEARTBEAT (R292). -/
  | heartbeat
  /-- HBM_READ (R323). -/
  | hbmRead (addr : BitVec 36) (found : MemFind)
  /-- REFRESH (R328). -/
  | refresh (pch : BitVec 5) (idle : Bool)
  /-- TEMPERATURE_READING (R329). -/
  | temperatureReading (deg : BitVec 8)
  /-- CA_PARITY_ERROR (R326). -/
  | caParityError (ch : BitVec 4) (addr : BitVec 34) (retrainOk : Bool)
  /-- RETRAIN_STEP (R330). -/
  | retrainStep (pch : BitVec 5) (drift : BitVec 8)
  /-- FULL_RETRAIN (R330). -/
  | fullRetrain (ch : BitVec 4) (badLanes : BitVec 8)
  /-- POWER_DOWN_ENTRY (R331). -/
  | powerDownEntry (ch : BitVec 4)
  /-- SELF_REFRESH_ENTRY (R331). -/
  | selfRefreshEntry
  /-- SELF_REFRESH_EXIT (R331). -/
  | selfRefreshExit
  /-- PATROL_SCRUB (R324). -/
  | patrolScrub (addr : BitVec 34) (found : MemError)
  /-- RANK_RETIREMENT (R332). -/
  | rankRetirement (ch : BitVec 4) (sid : BitVec 2)
  /-- MIGRATION_UNIT_COPY (R332). -/
  | migrationUnitCopy (found : MemError)
  /-- RANK_SWITCHOVER (R332). -/
  | rankSwitchover
  /-- DOUBT_SOURCE (R338). -/
  | doubtSource (code : BitVec 8) (part : Option (BitVec 3)) (res : BitVec 32)
  /-- SEAL_RECOMPUTATION (R339). -/
  | sealRecomputation (upset : BitVec 32)
  /-- FORCE_BOLT_INPUT (R340). -/
  | forceBoltInput
  /-- SUPPLY_WARNING (R346). -/
  | supplyWarning (rail : BitVec 4) (millivolt : BitVec 16)
  /-- REIN_EXIT (R348). -/
  | reinExit
  /-- REIN_LIMIT (R348). -/
  | reinLimit
  /-- SUPPLY_RESET_LEVEL (R346). -/
  | supplyResetLevel (rail : BitVec 4)
  /-- WEAR_SENSOR_READ (R349). -/
  | wearSensorRead (cls : BitVec 8) (index : BitVec 24) (value : BitVec 32)
  /-- CORE_SWAP (R350). -/
  | coreSwap (core : BitVec 7)
  /-- BIST_ROTATION (R351). -/
  | bistRotation (cluster : BitVec 4)
  /-- BIST_COMPLETE (R351). -/
  | bistComplete (cluster : BitVec 4) (pass : Bool)
  /-- CLOCK_GENERATOR_SWITCH (R349). -/
  | clockGeneratorSwitch (island : BitVec 6)
  /-- POWER_ON_RESET (R383). -/
  | powerOnReset
  /-- SYS_RST_N (R383). -/
  | sysRstN
  /-- WARM (R384). -/
  | warmReset
  /-- PRESET (R384). -/
  | presetPart (part : BitVec 3)
  /-- PARTITION_RESET (R316). -/
  | partitionReset (part : BitVec 3)
  /-- PCIE_LINK_READY (R388). -/
  | pcieLinkReady (port : BitVec 2)
  /-- FORCE (R338). -/
  | forceBolt (part : Option (BitVec 3))
  /-- CLEAR (R344). -/
  | clearBolt (part : BitVec 3)
  /-- SWAP (R62). -/
  | parSwap
  /-- HOBBLE_ARM (R44). -/
  | hobbleArm (unit_ : BitVec 8) (value : BitVec 32)
  /-- QUAD_RECONFIGURE (R41). -/
  | quadReconfigure (quad : BitVec 5) (value : BitVec 32)
  /-- RING_KIND_CHANGE (R409). -/
  | ringKindChange (part : BitVec 3) (value : BitVec 32)
  /-- GAIT_ENABLE (R360). -/
  | gaitEnable (mon : BitVec 8) (value : BitVec 32)
  /-- SNAP (R364). -/
  | gaitSnap (part : BitVec 3)
  /-- PSNAP (R364). -/
  | gaitPsnap (part : BitVec 3)
  /-- GAIT_WINDOW_END (R364). -/
  | gaitWindowEnd (mon : BitVec 8)
  /-- GAIT_SAMPLE (R363). -/
  | gaitSample (mon : BitVec 8) (value : BitVec 32)
  /-- HALT (R367). -/
  | dbgHalt
  /-- RUN (R368). -/
  | dbgRun
  /-- STEP (R368). -/
  | dbgStep
  /-- DBG_TREG_WRITE (R369). -/
  | dbgTregWrite (value : BitVec 32)
  /-- DBGACC (R370). -/
  | dbgacc (write : Bool) (offset : BitVec 20) (value : BitVec 32)
  /-- JOURNAL_ENABLE (R289). -/
  | journalEnable (value : BitVec 32)
  /-- CLK_TSET_WRITE (R382). -/
  | clkTsetWrite (value : BitVec 32)
  /-- CLK_TADJ_WRITE (R382). -/
  | clkTadjWrite (value : BitVec 32)
  /-- CLUSTER_CLOCK_CHANGE (R379). -/
  | clusterClockChange (cluster : BitVec 4) (value : BitVec 32)
  /-- PPS_IN_EDGE (R381). -/
  | ppsInEdge
  /-- CLK10_LOSS (R381). -/
  | clk10Loss
  /-- TIME_SLEW_DONE (R382). -/
  | timeSlewDone
  /-- PPS_OUT (R382). -/
  | ppsOut
  /-- FIRMWARE_UPDATE (R387). -/
  | firmwareUpdate (value : BitVec 32)
  /-- CONFIGURATION_SAVE (R412). -/
  | configurationSave (value : BitVec 32)
  /-- SMBUS_BINDING_WRITE (R387). -/
  | smbusBindingWrite (cmd : BitVec 8) (data : List Octet)
  /-- SMBUS_REGISTER_READ (R413). -/
  | smbusRegisterRead (offset : BitVec 32)
  /-- SMBUS_ALERT_RESPONSE (R396). -/
  | smbusAlertResponse
  /-- REGISTER_WRITE (R403). -/
  | registerWrite (path : RegPath) (offset : BitVec 20) (ben : BitVec 4) (value : BitVec 32)
  /-- PAUSE_TIMER_EXPIRY (R32). -/
  | pauseTimerExpiry (port : BitVec 7) (cls : Option (BitVec 3))
  /-- IN_FLIGHT_TIMEOUT (R76). -/
  | inFlightTimeout (c : CmdRef)
  /-- IN_USE_TIMEOUT (R176). -/
  | inUseTimeout (c : CmdRef)
  /-- PCIE_COMPLETION_TIMEOUT (R314). -/
  | pcieCompletionTimeout (read : HostRead)
  /-- PPS_IN_LOSS (R390). -/
  | ppsInLoss
  /-- CLK10_IN_RETURN (R381). -/
  | clk10InReturn
  /-- VAUX_LOSS (R395). -/
  | vauxLoss
  /-- VIN_VALID (R374). -/
  | vinValid
  /-- ON_DIE_SENSOR_READING (R396). -/
  | onDieSensorReading (sensor : BitVec 8) (deg : BitVec 8)
  /-- FLASH_WRITE_END (R387). -/
  | flashWriteEnd (ok : Bool)
  /-- PERST_N_RELEASE (R388). -/
  | perstNRelease (port : BitVec 2)
  deriving DecidableEq, Repr

end Sys2Proof
end

