-- ==== Sys2Proof/Config.lean ====
section
/-! DEFINITION. What an implementation of the part fixes and the values the spec leaves open. An opaque constant
has no body: no statement can rest on its value. -/

namespace Sys2Proof

/-- A fresh free value: applied to the free-value counter of the state. DESIGN CHOICE, log entry 2. -/
opaque Config.freeNat : Nat → Nat

/-- The choice generator of a Hobble unit (02 R42): seed and draw number give a number; a probability 2^-K event
happens when its low K bits are zero. The algorithm is not in the spec. DESIGN CHOICE, log entry 3. -/
opaque Config.hobbleGen : BitVec 32 → Nat → Nat

/-- Device serial number DEVSER (13 Table 13-13, 19 R400). DESIGN CHOICE, log entry 4. -/
opaque Config.devSer : BitVec 64

/-- The ROM microwords of the micro-store by micro-address (10 R205): fixed for stepping A1, their contents are not in the
spec. DESIGN CHOICE, log entry 108. -/
opaque Config.microRom : Nat → BitVec 112

/-- The fixed ROM entry point of the routine of opcodes 16 to 20 (10 R208): the spec gives no address. DESIGN CHOICE, log
entry 108. -/
opaque Config.microEntry : Nat → Nat

/-- Does a sequencer condition COND hold (10 Table 10-1): a free-value count and the condition; what the conditions are
computed from is private to the ROM. DESIGN CHOICE, log entry 108. -/
opaque Config.microCond : Nat → Nat → Bool

/-- The patch image that a firmware image holds, empty for none (10 R222): the layout of a firmware image is not in the
spec. DESIGN CHOICE, log entry 98. -/
opaque Config.imagePatch : List Octet → List Octet

/-- ROM revision of the micro-store is 1 at stepping A1 (10 R206). -/
def Config.romRev : Nat := 1

/-- Private scalar of the device identity key (13 R289). DESIGN CHOICE, log entry 4. -/
opaque Config.identityKey : Nat

/-- DER X.509 certificate chain of the device identity key (13 Table 13-7). DESIGN CHOICE, log entry 4. -/
opaque Config.certChain : List Octet

/-- Ehrad patch verification key, x then y (10 R221). DESIGN CHOICE, log entry 4. -/
opaque Config.patchKey : List Octet

/-- Ehrad debug verification key (17 R372). DESIGN CHOICE, log entry 4. -/
opaque Config.debugKey : List Octet

/-- Ehrad firmware verification key (18 R385). DESIGN CHOICE, log entry 4. -/
opaque Config.firmwareKey : List Octet

/-- The 200-odd octets of wear data of FAR_REPORT after FAR_STAT (16 Table 16-7), whose layout and values the
spec does not give. DESIGN CHOICE, log entry 5. -/
opaque Config.wearReport : Nat → Octet

/-- Redundant lanes of a channel of the fitted stack (15 R330, Table 15-7 LANES). DESIGN CHOICE, log entry 6. -/
opaque Config.hbmLanes : Nat → Nat

/-- Audit class of a search profile as the default profile of a port (03 R58): the spec gives no register that holds
it. DESIGN CHOICE, log entry 19. -/
opaque Config.profileClass : Nat → BitVec 8

end Sys2Proof
end

