-- ==== Sys2Proof/Machine/StateParts.lean ====
section
/-! DEFINITION. The parts of the machine's state, block by block, as plain data. Each structure's docstring
names the chapter of the spec that gives it. -/

namespace Sys2Proof.Machine

/-- A result that becomes readable after a number of the thread's own turns (08 R161, 07 R137, 09 R200). -/
inductive LateTarget where
  | reg (rd : Nat) (v : W36)
  | tk (v : W36)
  | mq (v : BitVec 72)
  deriving DecidableEq, Repr

/-- A pending late write: turns still to pass before it lands. -/
structure LateWrite where
  turns : Nat
  what : LateTarget
  deriving DecidableEq, Repr

/-- Helper and far-access kinds in flight on a tag (08 R172, 17 Table 17-2 PARAM). -/
inductive HelperKind where
  | tbl | srch | crypt | buf | far
  deriving DecidableEq, Repr

/-- One outstanding far access or helper request of a tag (08 R172). -/
structure Tag where
  kind : HelperKind
  ready : Bool := true
  rd : Option (Nat × W36) := none
  win : List (Nat × List Octet) := []
  fault : Nat := 0
  hostMem : Bool := false
  segs : List (Nat × Nat) := []
  issued : Nat := 0
  search : Option (Nat × Nat) := none
  deriving DecidableEq, Repr

/-- A microcoded routine in progress between commit points (10 R211, R213). -/
structure Micro where
  poly : Nat := 0
  width : Nat := 32
  refl : Bool := true
  deriving DecidableEq, Repr

/-- A routine under way on a thread (10 R207-R209): the micro-address its next chunk begins at and the micro-stack, at
most 4 deep; `down` when its chunks are taken from the high end. `deferred` says that an asynchronous event waits for the routine's end under BOUNDARY and has been
counted. -/
structure MicroRun where
  upc : Nat
  stack : List Nat := []
  down : Bool := false
  deferred : Bool := false
  deriving DecidableEq, Repr

/-- A thread's context: the state of Table 08-2 and the packet window (08 R162). DESIGN CHOICE, log entry 7. -/
structure Ctx where
  regs : Map W36 := []
  preds : BitVec 8 := 1
  pc : BitVec 16 := 0
  sels : Map (BitVec 12) := []
  mq : BitVec 72 := 0
  macc : BitVec 72 := 0
  ca : BitVec 32 := 0
  ev : BitVec 36 := 0
  pg : BitVec 36 := 0
  tk : W36 := 0
  win : Map Octet := []
  late : List LateWrite := []
  tags : Map Tag := []
  micro : Option Micro := none
  task : Option Nat := none
  deriving DecidableEq, Repr

/-- What a thread is doing (08 R160, 07 R142, R152, 08 R175). -/
inductive TMode where
  | getwork
  | drainGetwork
  | drainDefer (ticket : W36) (delay : Nat)
  | run
  | held
  deriving DecidableEq, Repr

/-- The thread's one timer (07 R152): the tick it is due and the task that armed it. -/
structure Timer where
  due : Nat
  task : Option Nat
  deriving DecidableEq, Repr

/-- A hardware thread (08, 17 R367). -/
structure Thread where
  ctx : Ctx := {}
  mode : TMode := .getwork
  mask : BitVec 16 := 0
  inWait : Bool := false
  fetchStop : Bool := false
  timer : Option Timer := none
  async : List (Nat × Nat) := []
  haltReq : Bool := false
  halted : Bool := false
  why : BitVec 2 := 0
  bphit : BitVec 2 := 0
  routine : Option MicroRun := none
  skipBp : Bool := false
  stepping : Bool := false
  deriving DecidableEq, Repr

/-- A fault taken by a task (08 R174, Table 08-10). -/
structure FaultRec where
  kind : Nat
  flags : Nat
  sel : Nat
  offset : Nat
  time : Nat
  deriving DecidableEq, Repr

/-- An occupied save slot (07 R154, 08 R175): a preempted task (no fault) or a faulted one. -/
structure Saved where
  ctx : Ctx
  agent : Nat
  fault : Option FaultRec := none
  async : List (Nat × Nat) := []
  deriving DecidableEq, Repr

/-- Where a task is. -/
inductive TaskLoc where
  | thread (t : Nat)
  | slot (k : Nat)
  | deferred
  deriving DecidableEq, Repr

/-- A task from its first dispatch to its end: what belongs to the task and not to its thread
(07 R150, R155; 11 R227, R243; 12 R253). -/
structure TaskSt where
  part : Nat
  prio : Nat
  eprio : Nat
  tkw : W36
  entry : Nat
  recG : List W36 := []
  recWin : List Octet := []
  loc : TaskLoc
  agent : Nat := 0
  preempt : Bool := false
  deferred : Bool := false
  hold : List Nat := []
  lockPend : Option (Nat × Nat) := none
  lost : List Nat := []
  armData : Option Nat := none
  armSpace : Option Nat := none
  seg : Option (Nat × Nat) := none
  segOk : Bool := true
  dispSeq : Nat := 0
  fault : Option FaultRec := none
  pend : List (Nat × Nat) := []
  deriving DecidableEq, Repr

/-- A segment descriptor, its four words (08 Table 08-8). -/
structure Seg where
  w0 : W32 := 0
  w1 : W32 := 0
  w2 : W32 := 0
  w3 : W32 := 0
  deriving DecidableEq, Repr

/-- The memories (08 Table 08-3): CLM by core * 16,384 + word, CSM by cluster * 262,144 + word, instruction store
by cluster * 65,536 + word, device octets by 36-bit device address, host octets by partition * 2^64 + address,
segment descriptors by partition * 1,024 + index, and the poisoned 32-octet halves (address div 32). -/
structure Mems where
  clm : Map W36 := []
  csm : Map W36 := []
  ist : Map W36 := []
  dev : Map Octet := []
  host : Map Octet := []
  segs : Map Seg := []
  poison : List Nat := []
  clmBad : List Nat := []
  csmBad : List Nat := []
  deriving DecidableEq, Repr

/-- The set-up registers as stored words and their 64-bit counters, keyed by word offset (20 Tables 20-1, 20-3). -/
structure Regs where
  dev : Map W32 := []
  part : Map W32 := []
  rcfg : Map W32 := []
  gcfg : Map W32 := []
  parActive : Map W32 := []
  cnt : Map (BitVec 64) := []
  pcnt : Map (BitVec 64) := []
  noService : Map (BitVec 64) := []
  latch : Map W32 := []
  deriving DecidableEq, Repr

/-- How a ticket ends (07 Table 07-2). -/
inductive Disp where
  | egress | host | drop
  deriving DecidableEq, Repr

/-- A completed result (07 R138). -/
structure Result where
  disp : Disp
  buf : Nat := 0
  len : Nat := 0
  dest : Nat := 0
  eflags : Nat := 0
  deriving DecidableEq, Repr

/-- A sub-result of a split ticket (07 R143), with the times of the latency points it has reached (17 R362). -/
structure SubRes where
  res : Option Result := none
  out : Bool := false
  pts : Map Nat := []
  deriving DecidableEq, Repr

/-- A work item: a packet, message, ACK or posted task (07 Tables 07-5 to 07-7, 04 R71). `digest` holds the octets its
input digest covers, which is complete at `digAt` (13 R285); `tEnd` is latency point 0 (17 R362). -/
structure Item where
  kind : Nat := 0
  part : Nat := 0
  prio : Nat := 0
  entry : Nat := 0
  preempt : Bool := false
  dom : Nat := 0
  buf : Nat := 0
  len : Nat := 0
  arg : W36 := 0
  t0 : Nat := 0
  precd : List Octet := []
  cls : List Octet := []
  flow : Nat := 0
  audit : Nat := 0
  hobble : Bool := false
  port : Nat := 0
  digest : List Octet := []
  stix : Nat := 0
  dir : Nat := 0
  oseq : BitVec 32 := 0
  olen : Nat := 0
  hdr : List Octet := []
  arr : Nat := 0
  digAt : Nat := 0
  tEnd : Nat := 0
  deriving DecidableEq, Repr

/-- A ticket index of the Halter's pool (07 R132-R147), with the times of the latency points it has reached (17 R362). -/
structure Ticket where
  inUse : Bool := false
  gen : BitVec 4 := 0
  dom : Nat := 0
  part : Nat := 0
  passed : Bool := false
  passPolicy : Nat := 0
  res : Option Result := none
  subs : List SubRes := []
  deadline : Nat := 0
  killed : Bool := false
  dispatched : Bool := false
  heldQ : Bool := false
  item : Item := {}
  task : Option Nat := none
  seq : Option (BitVec 32) := none
  digWaited : Bool := false
  pts : Map Nat := []
  deriving DecidableEq, Repr

/-- What stands on a ready list (07 R148). -/
inductive ReadyWhat where
  | fresh (tkw : W36) (item : Item) (deadline : Nat)
  | redispatch (task : Nat) (deferred : Bool)
  | saved (slot : Nat)
  deriving DecidableEq, Repr

/-- An entry of a ready list: partition, level and, within a level, list order. -/
structure ReadyEnt where
  part : Nat
  level : Nat
  what : ReadyWhat
  deriving DecidableEq, Repr

/-- A delay-list entry (07 R151): a deferred task or a posted one with DELAY. -/
structure DelayEnt where
  part : Nat
  due : Nat
  what : ReadyWhat
  deriving DecidableEq, Repr

/-- The latency points that a task or a sub-result has reached, with their times, and the domain that counts
(17 R362). -/
structure Lat where
  part : Nat := 0
  dom : Nat := 0
  pts : Map Nat := []
  deriving DecidableEq, Repr

/-- A released result on its way to egress (07 R135, 12 R265). `place`: its order domain, and its place among the
dispositions of order domains (13 R286). -/
structure Released where
  item : Item
  res : Result
  ticket : W36
  seq : BitVec 32 := 0
  last : Bool := true
  released : Nat := 0
  tls : Bool := false
  place : Nat × Nat := (0, 0)
  lat : Lat := {}
  deriving DecidableEq, Repr

/-- The Halter and the task scheduler (07). The tick counter (R151) stood at `ticks` at time `ticksAt`, when the tick
last changed. -/
structure Halter where
  tickets : Map Ticket := []
  order : Map (List Nat) := []
  issueQ : Map (List Item) := []
  holdQ : Map (List Item) := []
  ready : List ReadyEnt := []
  waiters : List Nat := []
  delays : List DelayEnt := []
  ticks : Nat := 0
  ticksAt : Nat := 0
  stallSince : Map Nat := []
  egressIn : List Released := []
  deriving DecidableEq, Repr

/-- Threads, save slots and tasks (08). -/
structure Threads where
  threads : Map Thread := []
  slots : Map Saved := []
  tasks : Map TaskSt := []
  deriving DecidableEq, Repr

/-- A lock's holder (11 R227). -/
inductive Holder where
  | free
  | task (id : Nat)
  | host (part : Nat)
  deriving DecidableEq, Repr

/-- Who waits for a lock (11 R229). -/
inductive LockWho where
  | task (id : Nat)
  | host (cmd : CmdRef)
  deriving DecidableEq, Repr

/-- A queued lock request (11 R229): its priority, the value it signalled to the holder (R232), and the time a host
request with TIMEOUT is withdrawn. -/
structure LockWaiter where
  who : LockWho
  prio : Nat
  gave : Option Nat := none
  deadline : Option Nat := none
  deriving DecidableEq, Repr

/-- A lock record (11 R226-R237); key 0-16,383, recovery lock r at 16,384 + r. -/
structure Lock where
  holder : Holder := .free
  orphan : Bool := false
  forced : Bool := false
  waiters : List LockWaiter := []
  since : Nat := 0
  reported : Bool := false
  deriving DecidableEq, Repr

/-- State of a channel slot (11 R239). -/
inductive SlotSt where
  | free
  | reserved (task : Nat) (since : Nat)
  | posted (order : Nat)
  deriving DecidableEq, Repr

/-- A channel slot: state, reservation generation and 8 words (11 R239). Key channel * 16 + slot. -/
structure ChSlot where
  st : SlotSt := .free
  gen : BitVec 4 := 0
  words : Map W36 := []
  deriving DecidableEq, Repr

/-- Locks and channels (11); by partition, the locks that another agent released from its host, whose later release of
them is stale (R230, R233). -/
structure Hasp where
  locks : Map Lock := []
  slots : Map ChSlot := []
  hostLost : Map (List Nat) := []
  deriving DecidableEq, Repr

/-- A buffer's tag (12 Table 12-1), with the ingress port and class its cells count against (02 R31). -/
structure BufTag where
  owner : Nat := 0
  shares : Nat := 0
  run : Nat := 1
  alloc : Bool := false
  quar : Bool := false
  origin : Option (Nat × Nat) := none
  deriving DecidableEq, Repr

/-- The buffer manager (12): tags by buffer address, last ALLOC winner per pool (R256), and the packet SRAM buffers whose
tag, held on die, has an uncorrectable error (R250). -/
structure Bufs where
  tags : Map BufTag := []
  winner : Map Nat := []
  badTags : List Nat := []
  deriving DecidableEq, Repr

/-- A frame on an egress queue: octets made by egress, then octets read from its buffer (12 R265); `poison` when egress
read poison while it made them (12 R268). -/
structure QFrame where
  part : Nat
  pre : List Octet := []
  addr : Nat := 0
  plen : Nat := 0
  buf : Option Nat := none
  resultEnd : Bool := true
  tx : Option CmdRef := none
  tsReq : Bool := false
  ingressTs : Nat := 0
  t0 : Nat := 0
  dom : Nat := 0
  kind : Nat := 0
  poison : Bool := false
  lat : Option Lat := none
  deriving DecidableEq, Repr

/-- Deficit round-robin state of a group of queues (12 R262). -/
structure Dwrr where
  ptr : Nat := 0
  deficit : Map Nat := []
  fresh : Bool := true
  deriving DecidableEq, Repr

/-- A frame a Hobble unit sees (02 R42). -/
structure HobFrame where
  octets : List Octet
  fcsOk : Bool := true
  buf : Nat := 0
  ts : Nat := 0
  flag : Bool := false
  queue : Nat := 0
  q : Option QFrame := none
  deriving DecidableEq, Repr

/-- A Hobble unit (02 R42, R43); `seed` is what its generator was seeded with when it was armed. -/
structure HobUnit where
  count : Nat := 0
  burst : Nat := 0
  draws : Nat := 0
  held : Option HobFrame := none
  passed : Nat := 0
  heldAt : Nat := 0
  seed : W32 := 0
  deriving DecidableEq, Repr

/-- The frame a port is sending (12 R262, 02 R35), looped back when LOOP stood at its start (02 R415). -/
structure TxFrame where
  octets : List Octet
  queue : Nat
  q : QFrame
  ts : Nat
  fcsOk : Bool := true
  loop : Bool := false
  deriving DecidableEq, Repr

/-- An Ethernet port (02). -/
structure Port where
  linkUp : Bool := false
  fecLock : Bool := false
  negMode : Nat := 0
  pauseUntil : Option Nat := none
  pfcUntil : Map Nat := []
  xoff : Map Bool := []
  lastPause : Map Nat := []
  tx : Option TxFrame := none
  deriving DecidableEq, Repr

/-- The egress queues (12 R261-R264): frames by queue, deficit round robin by port * 4 + group, and the token
buckets of queues and ports. -/
structure Egress where
  queues : Map (List QFrame) := []
  groups : Map Dwrr := []
  qTokens : Map Int := []
  pTokens : Map Int := []
  deriving DecidableEq, Repr

/-- Ports, cages and Hobble units (02). Hobble unit 2p is ingress, 2p + 1 egress of port p. -/
structure Ports where
  ports : Map Port := []
  hob : Map HobUnit := []
  modules : Map Bool := []
  deriving DecidableEq, Repr

/-- A received frame in packet SRAM (03 R46). -/
structure RxFrame where
  port : Nat
  buf : Nat
  len : Nat
  ts : Nat
  hobble : Bool := false
  deriving DecidableEq, Repr

/-- A frame in a parser lane, in its port's arrival order (03 R48): its record once parsed, and whether it holds a place
of the port's release queue. -/
structure LaneEnt where
  frame : RxFrame
  precd : Option (List Octet) := none
  placed : Bool := false
  deriving DecidableEq, Repr

/-- A frame whose parse record has left the lane on the fast path. -/
structure Parsed where
  frame : RxFrame
  precd : List Octet
  deriving DecidableEq, Repr

/-- A task before classification: a packet, or a message or ACK task of the framer (04 R71, R72). -/
structure PreTask where
  item : Item
  deriving DecidableEq, Repr

/-- Slow-path buckets of a partition (03 R60). -/
structure Bucket where
  pkt : Nat
  bit : Nat
  deriving DecidableEq, Repr

/-- The parser (03): per port the frames ready and those in the lane; per lane the walk queue (of ports); when the last
SWAP was written (R62). -/
structure Parser where
  rx : Map (List RxFrame) := []
  lane : Map (List LaneEnt) := []
  walks : Map (List Nat) := []
  parsed : List Parsed := []
  toClassify : List PreTask := []
  buckets : Map Bucket := []
  badStore : Bool := false
  swapAt : Option Nat := none
  deriving DecidableEq, Repr

/-- One direction of a framed connection (04 Table 04-1). -/
structure StfDir where
  expSeq : BitVec 32 := 0
  delta : BitVec 32 := 0
  rack : BitVec 32 := 0
  rwin : Nat := 0
  mss : Nat := 0
  asm : Option Nat := none
  asmLen : Nat := 0
  need : Nat := 0
  odom : Nat := 0
  infl : Nat := 0
  eq : Nat := 0
  inRec : Bool := false
  recLeft : Nat := 0
  recHdr : List Octet := []
  recCt : List Octet := []
  rxKey : Nat := 0
  txKey : Nat := 0
  rxSeq : BitVec 64 := 0
  txSeq : BitVec 64 := 0
  disp : Bool := false
  spanStart : BitVec 32 := 0
  recPt : Nat := 0
  ghash : List Octet := []
  hobbled : Bool := false
  deriving DecidableEq, Repr

/-- A rewrite record (04 Table 04-7). -/
structure Rewrite where
  oseq : BitVec 32
  dbefore : BitVec 32
  olen : Nat
  dir : Nat
  nlen : Nat
  buf : Nat
  deriving DecidableEq, Repr

/-- A framed connection's state record (04 Table 04-1); rewrite records newest first. -/
structure Conn where
  state : Nat := 0
  tls : Bool := false
  service : Nat := 0
  slowRsn : Nat := 0
  slowDir : Nat := 0
  part : Nat := 0
  d0 : StfDir := {}
  d1 : StfDir := {}
  rwHead : Nat := 0
  rws : List Rewrite := []
  deriving DecidableEq, Repr

/-- The stream framer (04): connections by STIX. -/
structure Framer where
  conns : Map Conn := []
  deriving DecidableEq, Repr

/-- A ternary entry of the search array (05 R89). -/
structure SEntry where
  v : Nat
  m : Nat
  prio : Nat
  ad : Nat
  index : Nat
  bad : Bool := false
  deriving DecidableEq, Repr

/-- The search array (05): entries by logical bank * 4,096 + slot, handle generations by index, banks whose
rebalance is due (R94), the last substituted bank. -/
structure Search where
  ents : Map SEntry := []
  gens : Map (BitVec 4) := []
  rebal : List Nat := []
  lastSub : Nat := 0
  spares : Nat := 4
  deriving DecidableEq, Repr

/-- A flow entry (06 Table 06-2), by flow index. -/
structure FlowEnt where
  key : List Octet
  part : Nat
  data : List Octet
  h : Bool
  a : Bool
  static : Bool
  deriving DecidableEq, Repr

/-- An L2 entry (06 Table 06-3), by 4 * bucket + slot. -/
structure L2Ent where
  part : Nat
  vid : Nat
  mac : Nat
  port : Nat
  h : Bool
  a : Bool
  static : Bool
  hd : Bool
  ltime : Nat
  deriving DecidableEq, Repr

/-- A prefix entry (06 Table 06-5), by 4 * bucket + slot or 0x1000000 + overflow slot; decimal entries apart. -/
structure PfxEnt where
  own : Nat
  dec : Bool
  len : Nat
  pfx : List Octet
  data : List Octet
  deriving DecidableEq, Repr

/-- A queued learn (06 R115). -/
structure LearnReq where
  part : Nat
  vid : Nat
  mac : Nat
  port : Nat
  deriving DecidableEq, Repr

/-- The lookup tables (06). DESIGN CHOICE, log entry 26. -/
structure Tables where
  flow : Map FlowEnt := []
  l2 : Map L2Ent := []
  pfx : Map PfxEnt := []
  dpfx : Map PfxEnt := []
  povf : Map PfxEnt := []
  rts : List (Nat × Nat × Nat × List Octet) := []
  dshort : Map (Nat × List Octet) := []
  learnQ : List LearnReq := []
  busy : List Nat := []
  sweepPos : Map Nat := []
  sweepAt : Map Nat := []
  deriving DecidableEq, Repr

/-- A key of the key store (13 Table 13-6, Table 13-8), by first slot. -/
structure KeyEnt where
  part : Nat
  usage : Nat
  alg : Nat
  span : Nat
  ver : List Octet
  kcv : List Octet
  loaded : Nat
  mat : List Octet
  iv : List Octet := []
  exportability : Octet := 0
  deriving DecidableEq, Repr

/-- A request queued at an engine class (13 R272, R275): who asked, its operation word and block, the data and
signature octets its references reached at issue and whether they read as poison, and where its output goes. -/
structure EngReq where
  pk : Bool
  prio : Nat
  task : Option Nat
  thread : Nat
  tag : Nat
  op : Nat
  part : Nat
  block : List Octet
  blockOff : Nat
  data : List Octet
  sig : List Octet
  poison : Bool
  outAddr : Nat
  outWin : Bool
  deriving DecidableEq, Repr

/-- Engines, key store and random bit generator (13). `engErr` counts the failed self-checks of engine `n` of a class at
32 * class + n (class 0 symmetric, 1 public-key); `badSlots` are the keys whose slots had an uncorrectable error, by first
slot (R280); `rootKey` is the device root key of this boot. -/
structure Crypto where
  queue : List EngReq := []
  keys : Map KeyEnt := []
  kbpk : Map (List Octet) := []
  kgen : Map Nat := []
  symRetired : List Nat := []
  pkRetired : List Nat := []
  engErr : Map Nat := []
  badSlots : List Nat := []
  rootKey : BitVec 256 := 0
  rbgRun : Bool := false
  rbgCount : Nat := 0
  rbgSince : Nat := 0
  deriving DecidableEq, Repr

/-- A sealed journal block: number, header octets and records (13 R288). -/
structure JBlock where
  no : Nat
  header : List Octet
  recs : List (List Octet)
  deriving DecidableEq, Repr

/-- A complete record in the journal's intake: its octets, the order domain of its disposition and the place that had
among those of the domains (13 R286), and whether it is a BOLT record, whose entry seals its block (R294). -/
structure JPend where
  octets : List Octet
  place : Option (Nat × Nat) := none
  bolt : Bool := false
  lat : Option Lat := none
  deriving DecidableEq, Repr

/-- The audit journal (13 R284-R294). `placeNo` dispositions of order domains have been made. -/
structure Journal where
  intake : List JPend := []
  placeNo : Nat := 0
  opened : List (List Octet) := []
  firstAt : Nat := 0
  topen : Nat := 0
  blockNo : Nat := 0
  prev : List Octet := []
  lost : Nat := 0
  sealed : List JBlock := []
  lastEntry : Nat := 0
  key : Nat := 0
  inExport : Nat := 0
  deriving DecidableEq, Repr

/-- A supplied buffer of a delivery ring (14 Table 14-7). -/
structure Supply where
  addr : Nat
  blen : Nat
  tag : Nat
  slot : Nat
  deriving DecidableEq, Repr

/-- A completion entry waiting for its reserved slot (14 Table 14-9). -/
structure Compl where
  status : Nat
  kind : Nat
  ring : Nat
  more : Bool := false
  tag : Nat := 0
  slot : Nat := 0
  result : Nat := 0
  len : Nat := 0
  detail : List Octet := []
  reserved : Bool := true
  deriving DecidableEq, Repr

/-- A descriptor fetched and not yet started (14 R306). -/
structure Desc where
  slot : Nat
  octets : List Octet
  deriving DecidableEq, Repr

/-- Kinds of delivery to supply rings (14 R311). -/
inductive DelivKind where
  | rx | late | exception | fault | learnAge | journal
  deriving DecidableEq, Repr

/-- A delivery waiting for its ring (14 R311, R312). -/
structure Deliv where
  kind : DelivKind
  part : Nat
  ring : Nat
  octets : List Octet
  result : Nat := 0
  detail : List Octet := []
  buf : Option Nat := none
  jitem : Option Item := none
  reason : Nat := 0
  done : Nat := 0
  deriving DecidableEq, Repr

/-- The part's state of a ring (14 R301). -/
structure Ring where
  pidx : Nat := 0
  hidx : Nat := 0
  supply : List Supply := []
  resv : Nat := 0
  compl : List Compl := []
  msiCount : Nat := 0
  msiFirst : Option Nat := none
  fetched : List Desc := []
  outst : List Nat := []
  inflight : Option (Nat × Nat) := none
  fetchAt : Nat := 0
  la : List Octet := []
  laFirst : Nat := 0
  sbDirty : Bool := false
  sbAt : Option Nat := none
  deriving DecidableEq, Repr

/-- A DMA_COPY in progress (14 R313, R314): the read of its next chunk went out at `readAt`. -/
structure Dma where
  cmd : CmdRef
  mode : Nat
  raw : Bool
  sel : Nat
  doff : Nat
  addr : Nat
  len : Nat
  moved : Nat := 0
  paused : Option Nat := none
  readAt : Nat := 0
  deriving DecidableEq, Repr

/-- A service event (14 Table 14-11). -/
structure SvcEvent where
  code : Nat
  result : Nat := 0
  detail : List Octet := []
  lost : Nat := 0
  deriving DecidableEq, Repr

/-- A host command that waits (14 R306, R317); `outside` for one that an answer from outside the part ends, with the cage
a module access names. -/
inductive WaitWhat where
  | stfResync (stix : Nat) (ops : List Octet)
  | stfClose (stix : Nat)
  | segPresent (part index : Nat)
  | srcInsert (bank : Nat) (image : List Octet)
  | srcFlush (bank : Nat)
  | quiesce (ch sid : Nat)
  | tx (octets : List Octet) (eq eflags : Nat) (tsReq : Bool)
  | txDev (sel doff len eq eflags : Nat) (tsReq : Bool)
  | outside (opc : Nat) (cage : Option Nat)
  deriving DecidableEq, Repr

/-- A waiting host command with the time it began to wait. -/
structure Waiting where
  cmd : CmdRef
  since : Nat
  what : WaitWhat
  deriving DecidableEq, Repr

/-- An entry of a function's MSI-X table (14 Table 14-2). -/
structure MsixEnt where
  addr : Nat := 0
  data : W32 := 0
  masked : Bool := true
  pend : Bool := false
  deriving DecidableEq, Repr

/-- What a host sets in the configuration space of its function (14 R297): the codes of Max Payload Size and Max Read
Request Size, and the completion timeout value of Device Control 2 (Table 14-13); and the errors that its AER has
recorded. PRESUMED reset values, log entry 114. -/
structure PcieFn where
  mps : BitVec 3 := 0
  mrrs : BitVec 3 := 2
  timeout : BitVec 4 := 0
  errors : Nat := 0
  deriving DecidableEq, Repr

/-- Host interface (14). A doorbell fetch of a partition under way began at `fetchAt`; `fns` is by partition. -/
structure Gopol where
  rings : Map Ring := []
  fetching : List Nat := []
  fetchMore : List Nat := []
  polledAt : Map Nat := []
  deliv : List Deliv := []
  svcq : List SvcEvent := []
  svcLost : Nat := 0
  dma : List Dma := []
  dmaLast : Map Nat := []
  waiting : List Waiting := []
  msix : Map MsixEnt := []
  links : Map Nat := []
  fetchAt : Map Nat := []
  fns : Map PcieFn := []
  deriving DecidableEq, Repr

/-- A migration of a rank to its channel's spare (15 R332): the next 64-octet unit to copy, and why it is retired
(16 Table 16-9; 0 for a quiesce). -/
structure Migration where
  ch : Nat
  sid : Nat
  why : Nat := 0
  next : Nat := 0
  deriving DecidableEq, Repr

/-- HBM controller (15). Keys: pseudo-channel = channel * 2 + index; `quiesced` has channel * 4 + SID and whether its
last test passed; `regained` the channels whose quiesced rank has become the spare; `lanes` redundant lanes used;
`parity` the address of a command that had a parity error. -/
structure Hbm where
  owed : Map Nat := []
  refiAt : Nat := 3900
  temp : Nat := 0
  doubled : Bool := false
  normalAtNext : Bool := false
  pdown : List Nat := []
  selfRef : Bool := false
  heldReq : Bool := false
  lastReq : Nat := 0
  migr : Option Migration := none
  migQ : List Migration := []
  retired : List (Nat × Nat) := []
  quiesced : List (Nat × Bool) := []
  regained : List Nat := []
  lanes : Map Nat := []
  parity : Map Nat := []
  lastStep : Nat := 0
  deriving DecidableEq, Repr

/-- A doubt source met by a partition: its code, its resource, and whether its cause has gone (16 R338, R345). -/
structure Doubt where
  code : Nat := 0
  res : Nat := 0
  gone : Bool := false
  deriving DecidableEq, Repr

/-- A partition's Bolt record (16 Table 16-14): the recorded cause, and causes met later (16 R345). -/
structure PBolt where
  on : Bool := false
  cause : Doubt := {}
  later : List Doubt := []
  deriving DecidableEq, Repr

/-- Rein in force (16 R347, R348): its entry, the minimum VIN seen, the last reading below the recovery threshold. -/
structure Rein where
  since : Nat
  minVin : Nat
  lowAt : Nat
  deriving DecidableEq, Repr

/-- Housekeeping: Bolt, Rein, resets and boot (16, 18). `booted` is false from the loss of a supply to the end of boot;
`smbOnly` after a boot that found no good image; `updBusy` the kind of flash write in progress (2 for a binding over
SMBus);
`raised` the doubt sources (code, partition, resource) that a running thread or a search has met and its command hands
on; `rbgBad` and `hbmBad` what the start-up tests of the next boot find. -/
structure Hkc where
  dbolt : Bool := false
  cause : Nat := 0
  pbolt : Map PBolt := []
  rein : Option Rein := none
  vin : Nat := 12000
  inReset : List Nat := []
  booted : Bool := true
  imageB : Bool := false
  fellBack : Bool := false
  failStep : Nat := 0
  smbOnly : Bool := false
  forcePend : Bool := false
  updBusy : Option Nat := none
  updStatus : Nat := 0
  warmPend : Bool := false
  rbgBad : Bool := false
  hbmBad : Bool := false
  hotSensors : List Nat := []
  raised : List (Nat × Option Nat × Nat) := []
  deriving DecidableEq, Repr

/-- The writable part of a physical core's micro-store (10 R205): its patch level, the enabled match registers from
the lowest-numbered up (ROM address, patch address), the words of the patch RAM, and the correctable errors counted. -/
structure Patch where
  id : Nat := 0
  pgrev : Nat := 0
  mregs : List (Nat × Nat) := []
  ram : Map (BitVec 112) := []
  deriving DecidableEq, Repr

/-- Why a logical core is swapped: what happens to the freed core, and the command that waits for the swap's end. -/
inductive SwapWhy where
  | worn
  | rotate
  | command (c : CmdRef)
  | test (c : CmdRef) (failStep : Nat)
  deriving DecidableEq, Repr

/-- A live microcode load in progress (10 R223): its command, the patch it writes, and of each cluster the logical cores
that carry it already. -/
structure McsLoad where
  cmd : CmdRef
  patch : Patch
  done : Map Nat := []
  deriving DecidableEq, Repr

/-- The Farrier (16): core map, spares and wear. Physical cores are cluster * 9 + n. `sramCe` counts the correctable
errors of each packet SRAM row since it was last remapped (12 R414). `draining` holds the swaps whose
logical core still runs a routine that BOUNDARY lets end (16 Table 16-6 step 3), `load` the live microcode load, and
`loadDrain` the cores it drains in place. -/
structure Farrier where
  phys : Map Nat := []
  spare : Map (Option Nat) := []
  retiredCores : List Nat := []
  bist : Map Nat := []
  patches : Map Patch := []
  pgrev : Nat := 0
  rotIdx : Map Nat := []
  sramRows : Map Nat := []
  sramCe : Map Nat := []
  phases : Map Nat := []
  clkGens : Map Nat := []
  islandLost : Map Nat := []
  draining : List (Nat × SwapWhy) := []
  load : Option McsLoad := none
  loadDrain : List Nat := []
  deriving DecidableEq, Repr

/-- Live or snapshot statistics of a Gait monitor (17 R363, R364). -/
structure GStats where
  min : Nat := 0xFFFFFFFF
  max : Nat := 0
  count : Nat := 0
  sum : Nat := 0
  bins : Map Nat := []
  tstart : Nat := 0
  tsnap : Nat := 0
  deriving DecidableEq, Repr

/-- A Gait monitor (17 R360-R364): the samples that events have yielded and it has not yet taken, oldest first, and the
time of its last level or rate-limited sample. -/
structure Monitor where
  live : GStats := {}
  snap : GStats := {}
  seq : W32 := 0
  due : List Nat := []
  levelAt : Nat := 0
  deriving DecidableEq, Repr

/-- A first-violation record (17 Table 17-6). -/
structure VioFirst where
  valid : Bool := false
  kind : Nat := 0
  agent : Nat := 0
  res : Nat := 0
  offset : Nat := 0
  time : Nat := 0
  deriving DecidableEq, Repr

/-- Monitors, violation log and debug (17). -/
structure Debug where
  gait : Map Monitor := []
  vioFirst : Map VioFirst := []
  locked : Bool := false
  unlockUntil : Option Nat := none
  nonce : W32 := 0
  jtagOut : W32 := 0
  deriving DecidableEq, Repr

/-- The time base (18 R380-R382): TAI time, slewing and discipline. -/
structure TimeBase where
  tai : Nat := 0
  slewLeft : Int := 0
  slewPhase : Nat := 0
  freqAcc : Int := 0
  ppsCap : Nat := 0
  lastPps : Nat := 0
  clk10Lost : Bool := false
  slewing : Bool := false
  deriving DecidableEq, Repr

/-- One sealed configuration copy in the flash (18 R385, 20 R412). -/
structure SealedCopy where
  valid : Bool := false
  age : Nat := 0
  words : Map W32 := []
  deriving DecidableEq, Repr

/-- The in-package flash (18 R385-R387, 17 R371). -/
structure Flash where
  copyA : SealedCopy := {}
  copyB : SealedCopy := {}
  imgA : Bool := true
  imgB : Bool := true
  preferB : Bool := false
  image : List Octet := []
  patchA : List Octet := []
  patchB : List Octet := []
  audit : Bool := false
  bootNo : Nat := 1
  bindFunc : Option Nat := none
  bifur : Nat := 0
  deriving DecidableEq, Repr

/-- The balls the model drives or reads (19 Table 19-2). -/
structure Pins where
  boltN : Bool := true
  alertN : Bool := true
  smbAlertN : Bool := true
  ppsOut : Bool := false
  flashWpN : Bool := true
  vaux : Bool := true
  vinOk : Bool := true
  driven : Bool := true
  smbOut : W32 := 0
  deriving DecidableEq, Repr

/-- What leaves the part on a wire: kept as a list so that statements can speak of it. `modSel` is a cage's MODSEL_N
asserted or released, `i2cRead` and `i2cWrite` a transaction on the cage's bus, at 400 kHz when `fast` (02 R38). -/
inductive OutEvent where
  | frame (port : Nat) (octets : List Octet) (fcsOk : Bool)
  | pause (port : Nat) (cls : Option Nat) (quanta : Nat)
  | msix (part vec : Nat)
  | modSel (cage : Nat) (on : Bool)
  | i2cRead (fast : Bool) (cage page off len : Nat)
  | i2cWrite (fast : Bool) (cage page off : Nat) (octets : List Octet)
  deriving DecidableEq, Repr

end Sys2Proof.Machine
end

