-- ==== Sys2Proof/Machine/State.lean ====
section
/-! DEFINITION. The machine's state as plain data, its reasons to stop, and the state after reset. -/

namespace Sys2Proof.Machine

/-- Why the machine stops. -/
inductive Fault where
  /-- The command names a physical unit that the part does not have. Raised by the event rows that carry a unit
  number wider than the part's count of units. Safe: no such event can arise on the part. -/
  | noSuchUnit
  deriving DecidableEq, Repr

/-- Why the machine refuses a command. -/
inductive Refusal where
  /-- The command has no meaning in this model yet. Raised by the arms of exec only. Safe. -/
  | notModelled (mnemonic : String)
  deriving DecidableEq, Repr

/-- The whole state of the FJ-4128 and the queue of commands that wait, first in, first out. -/
structure State where
  pending : List Instr := []
  fresh : Nat := 0
  seq : Nat := 1
  now : Nat := 0
  regs : Regs := {}
  mem : Mems := {}
  thr : Threads := {}
  hlt : Halter := {}
  hsp : Hasp := {}
  buf : Bufs := {}
  egr : Egress := {}
  prt : Ports := {}
  par : Parser := {}
  stf : Framer := {}
  src : Search := {}
  tbl : Tables := {}
  cry : Crypto := {}
  jnl : Journal := {}
  gpl : Gopol := {}
  hbm : Hbm := {}
  hkc : Hkc := {}
  far : Farrier := {}
  dbg : Debug := {}
  tb : TimeBase := {}
  flash : Flash := {}
  pins : Pins := {}
  out : List OutEvent := []
  deriving DecidableEq, Repr

/-- The state after reset: every field at the value the spec gives for reset with a blank flash, and where the spec
gives none at the value the assumption log names (log entries 7 to 9). DESIGN CHOICE, log entry 9. -/
def State.reset : State := {}

end Sys2Proof.Machine
end

