-- ==== Sys2Proof/Machine/Sparse.lean ====
section
/-! DEFINITION. Sparse maps as plain data in one canonical form: keys strictly rising, and no pair whose value is
what an unlisted key reads as. -/

namespace Sys2Proof.Machine

/-- The value at a key: `d` when the key is not listed. -/
def mget {α : Type} (d : α) : Map α → Nat → α
  | [], _ => d
  | (k', v) :: m, k => if k = k' then v else mget d m k

/-- The pair at a key, if listed. -/
def mfind {α : Type} : Map α → Nat → Option α
  | [], _ => none
  | (k', v) :: m, k => if k = k' then some v else mfind m k

/-- Remove a key. -/
def mdel {α : Type} : Map α → Nat → Map α
  | [], _ => []
  | (k', v) :: m, k => if k = k' then mdel m k else (k', v) :: mdel m k

/-- List a pair at its place in key order, replacing what the key held. -/
def mput {α : Type} : Map α → Nat → α → Map α
  | [], k, v => [(k, v)]
  | (k', v') :: m, k, v =>
    if k < k' then (k, v) :: (k', v') :: m
    else if k = k' then (k, v) :: m
    else (k', v') :: mput m k v

/-- Write a value: writing what an unlisted key reads as removes the pair. -/
def mset {α : Type} [DecidableEq α] (d : α) (m : Map α) (k : Nat) (v : α) : Map α :=
  if v = d then mdel m k else mput m k v

/-- Change the value at a key. -/
def mupd {α : Type} [DecidableEq α] (d : α) (m : Map α) (k : Nat) (f : α → α) : Map α :=
  mset d m k (f (mget d m k))

/-- Keep the pairs that satisfy a test. -/
def mkeep {α : Type} (p : Nat → α → Bool) (m : Map α) : Map α := m.filter (fun kv => p kv.1 kv.2)

/-- Keys strictly rising. -/
def mrising {α : Type} : Map α → Bool
  | [] => true
  | [_] => true
  | (k, _) :: (k', v') :: m => decide (k < k') && mrising ((k', v') :: m)

/-- The canonical form: keys strictly rising and no pair at the default. -/
def mwf {α : Type} [DecidableEq α] (d : α) (m : Map α) : Bool :=
  mrising m && m.all (fun kv => decide (kv.2 ≠ d))

/-- The lowest key from 0 up, below `n`, that satisfies a test. -/
def lowest (n : Nat) (p : Nat → Bool) : Option Nat := (List.range n).find? p

end Sys2Proof.Machine
end

