-- ==== Sys2Proof/Machine/Bits.lean ====
section
/-! DEFINITION. Bit fields, octet strings and byte orders (00 Table 00-2), as plain number arithmetic. -/

namespace Sys2Proof.Machine

/-- Bits [hi:lo] of a number. -/
def bitsOf (v hi lo : Nat) : Nat := v / 2 ^ lo % 2 ^ (hi + 1 - lo)

/-- One bit of a number. -/
def bitOf (v i : Nat) : Bool := v / 2 ^ i % 2 == 1

/-- 0 or 1. -/
def b2n (b : Bool) : Nat := if b then 1 else 0

/-- `v` with bits [hi:lo] replaced by `x`. -/
def setBits (v hi lo x : Nat) : Nat :=
  v - bitsOf v hi lo * 2 ^ lo + x % 2 ^ (hi + 1 - lo) * 2 ^ lo

/-- `v` with bit `i` set to `b`. -/
def setBit (v i : Nat) (b : Bool) : Nat := setBits v i i (b2n b)

/-- The low `n` octets of a number, most significant first. -/
def beOctets : Nat → Nat → List Octet
  | 0, _ => []
  | n + 1, v => BitVec.ofNat 8 (v / 256 ^ n) :: beOctets n v

/-- The low `n` octets of a number, least significant first. -/
def leOctets : Nat → Nat → List Octet
  | 0, _ => []
  | n + 1, v => BitVec.ofNat 8 v :: leOctets n (v / 256)

/-- The number octets spell, most significant first. -/
def beNat (l : List Octet) : Nat := l.foldl (fun a o => a * 256 + o.toNat) 0

/-- The number octets spell, least significant first. -/
def leNat (l : List Octet) : Nat := l.foldr (fun o a => a * 256 + o.toNat) 0

/-- `n` zero octets. -/
def zeros (n : Nat) : List Octet := List.replicate n 0

/-- Octets [off, off + n) of a string, zero past its end. -/
def octs (l : List Octet) (off n : Nat) : List Octet :=
  let t := (l.drop off).take n
  t ++ zeros (n - t.length)

/-- One octet of a string, zero past its end, as a number. -/
def oct (l : List Octet) (i : Nat) : Nat := (l.getD i 0).toNat

/-- A big-endian field of a string. -/
def fieldBe (l : List Octet) (off n : Nat) : Nat := beNat (octs l off n)

/-- A string with octets from `off` replaced; octets past its end are dropped. -/
def overlay (l : List Octet) (off : Nat) (x : List Octet) : List Octet :=
  let y := x.take (l.length - off)
  l.take off ++ y ++ l.drop (off + y.length)

/-- A string cut or filled with zeros to `n` octets. -/
def fit (n : Nat) (l : List Octet) : List Octet := octs l 0 n

/-- The bits of the low `n` octets of a number, for comparing octet strings bit by bit. -/
def xorOctets (a b : List Octet) : List Octet := List.zipWith (· ^^^ ·) a b

/-- Count of set bits. -/
def popcount : Nat → Nat → Nat
  | 0, _ => 0
  | n + 1, v => v % 2 + popcount n (v / 2)

/-- The low `n` bits reversed. -/
def bitReverse : Nat → Nat → Nat
  | 0, _ => 0
  | n + 1, v => v % 2 * 2 ^ n + bitReverse n (v / 2)

/-- One octet of a reflected CRC with reversed polynomial `q` (09 R201, 06 R108). -/
def crcReflOctet (q : Nat) (ca : Nat) (o : Octet) : Nat :=
  (List.range 8).foldl (fun c _ => if c % 2 = 1 then (c / 2) ^^^ q else c / 2) (ca ^^^ o.toNat)

/-- One octet of a non-reflected CRC of width `w` with polynomial `p` (09 R201). -/
def crcFwdOctet (w p : Nat) (ca : Nat) (o : Octet) : Nat :=
  (List.range 8).foldl
    (fun c _ => if bitOf c (w - 1) then ((c * 2) ^^^ p) % 2 ^ w else c * 2 % 2 ^ w)
    (ca ^^^ (o.toNat * 2 ^ (w - 8)))

/-- CRC-32C with initial and final all-ones (06 R108). -/
def crc32c (l : List Octet) : Nat :=
  (l.foldl (crcReflOctet 0x82F63B78) 0xFFFFFFFF) ^^^ 0xFFFFFFFF

/-- CRC-32 of IEEE 802.3 with initial and final all-ones. -/
def crc32 (l : List Octet) : Nat :=
  (l.foldl (crcReflOctet 0xEDB88320) 0xFFFFFFFF) ^^^ 0xFFFFFFFF

/-- One's complement sum of 16-bit words, an odd last octet padded with zero. -/
def onesSum : List Octet → Nat → Nat
  | [], acc => acc
  | [a], acc => let t := acc + a.toNat * 256; t % 65536 + t / 65536
  | a :: b :: l, acc =>
    let t := acc + a.toNat * 256 + b.toNat
    onesSum l (t % 65536 + t / 65536)

/-- The Internet checksum of a string: complement of the one's complement sum. -/
def inetSum (l : List Octet) : Nat :=
  let t := onesSum l 0
  65535 - (t % 65536 + t / 65536) % 65536

/-- Ceiling of a division. -/
def cdiv (a b : Nat) : Nat := (a + b - 1) / b

/-- Insert into a list in rising order of a key, after its equals. -/
def insertBy {α : Type} (key : α → Nat) (x : α) : List α → List α
  | [] => [x]
  | y :: l => if key x < key y then x :: y :: l else y :: insertBy key x l

/-- Sort stably by a rising key. -/
def sortBy {α : Type} (key : α → Nat) (l : List α) : List α := l.foldl (fun acc x => insertBy key x acc) []

/-- The first element whose test holds, with the list without it. -/
def pickFirst {α : Type} (p : α → Bool) : List α → Option (α × List α)
  | [] => none
  | x :: l => if p x then some (x, l) else (pickFirst p l).map (fun r => (r.1, x :: r.2))

/-- Two's complement reading of the low `w` bits. -/
def signedOf (w v : Nat) : Int :=
  let m := v % 2 ^ w
  if bitOf m (w - 1) then (m : Int) - 2 ^ w else m

/-- The low `w` bits of an integer. -/
def wrapInt (w : Nat) (v : Int) : Nat := (v % (2 ^ w : Int)).toNat

end Sys2Proof.Machine
end

