-- ==== Sys2Proof/Machine/RegMap.lean ====
section
/-! DEFINITION. The set-up register map (20 R408, R410): where each register of the device window stands, its reset
value and its RW bits; stored words and their fields; who owns what (01 R15). -/

namespace Sys2Proof.Machine

/-- The registers of the device window, by the names of 20 Table 20-3. -/
inductive Reg where
  | hkcBolt
  | hkcBoot
  | hkcBind
  | hkcSeal
  | hkcUpd
  | hkcPbolt
  | rstCtl
  | pwrRein
  | clkTb
  | clkTfreq
  | clkTadj
  | clkTset
  | clkTnow
  | clkPpscap
  | clkClus
  | farCfg
  | farStat
  | farThr
  | farCnt
  | prtQcfg
  | prtI2c
  | prtCfg
  | prtAdm
  | prtFc
  | prtPcpmap
  | prtTslat
  | prtStat
  | prtCnt
  | hobCfg
  | hobDrop
  | hobCorpos
  | hobCork
  | hobCormask
  | hobReo
  | hobSeed
  | hobCnt
  | parCtl
  | parSlowp
  | parSlowb
  | parPort
  | parSig
  | parSlowcnt
  | parRsncnt
  | parExt
  | parNode
  | parTrn
  | stfCfg
  | stfStbase
  | stfRwbase
  | stfSvc
  | stfCnt
  | srcCtl
  | srcStat
  | srcBank
  | srcCecnt
  | srcCnt
  | srcProf
  | tblFlow
  | tblL2
  | tblL2hold
  | tblLpm
  | tblFlowbase
  | tblL2base
  | tblPfxbase
  | tblDecbase
  | tblDecsbase
  | tblRt
  | tblRtsbase
  | tblQuota
  | tblCnt
  | tblCls
  | schCfg
  | hltStat
  | hltPart
  | schPart
  | schStall
  | hltCnt
  | schCnt
  | hltDom
  | mcsInfo
  | coreCluster
  | coreCfg
  | coreCrcpoly
  | coreCrcw
  | mcsStat
  | coreCnt
  | mcsCnt
  | coreMemrng
  | chnCfg
  | hspPart
  | hspCnt
  | chnCnt
  | hspGrp
  | chnCh
  | bufTagbase
  | bufFree
  | bufIpool
  | bufPool
  | bufCnt
  | egrQ
  | egrQshp
  | egrDepth
  | egrPshp
  | egrPort
  | egrCnt
  | jnlCfg
  | jnlBase
  | jnlStat
  | cryStat
  | jnlClass
  | jnlDigsrc
  | keyStat
  | keyRng
  | jnlCnt
  | cryCnt
  | gplCfg
  | gplPort
  | gplPlim
  | gplRassign
  | hbmCfg
  | hbmStat
  | hbmTrain
  | hbmMigbw
  | hbmUelog
  | hbmRank
  | hbmCecnt
  | hbmCnt
  | dbgTsel
  | dbgTctl
  | dbgAudit
  | dbgNonce
  | dbgTreg
  | vioFirst
  | gaitAssign
  | vioCnt
  | dbgBp
  deriving DecidableEq, Repr

/-- A row of the device window: `n1` blocks of `s1` octets, each of `n2` places of `s2` octets, of `words` words;
the reset value and the RW bits of each word. -/
structure RegDef where
  reg : Reg
  base : Nat
  n1 : Nat
  s1 : Nat
  n2 : Nat
  s2 : Nat
  words : Nat
  resets : List Nat
  rw : List Nat

/-- 20 Table 20-3, part 1. -/
def devMap1 : List RegDef :=
  [⟨.hkcBolt, 0, 1, 4, 1, 4, 1, [0], [0]⟩,
   ⟨.hkcBoot, 4, 1, 4, 1, 4, 1, [0], [0]⟩,
   ⟨.hkcBind, 8, 1, 4, 1, 4, 1, [0], [0xff]⟩,
   ⟨.hkcSeal, 0xc, 1, 4, 1, 4, 1, [0], [0]⟩,
   ⟨.hkcUpd, 0x10, 1, 0x10, 1, 4, 4, [0, 0, 0, 0], [0xffffffff, 0xffffffff, 0xffffff, 2]⟩,
   ⟨.hkcPbolt, 0x20, 8, 4, 1, 4, 1, [0], [0x1000]⟩,
   ⟨.rstCtl, 0x40, 1, 4, 1, 4, 1, [0], [0]⟩,
   ⟨.pwrRein, 0x44, 1, 4, 1, 4, 1, [0x14], [0x7f]⟩,
   ⟨.clkTb, 0x80, 1, 4, 1, 4, 1, [0], [7]⟩,
   ⟨.clkTfreq, 0x84, 1, 4, 1, 4, 1, [0], [0xffffffff]⟩,
   ⟨.clkTadj, 0x88, 1, 4, 1, 4, 1, [0], [0]⟩,
   ⟨.clkTset, 0x90, 1, 8, 1, 4, 2, [0, 0], [0xffffffff, 0xffffffff]⟩,
   ⟨.clkTnow, 0x98, 1, 8, 1, 4, 2, [0, 0], [0, 0]⟩,
   ⟨.clkPpscap, 0xa0, 1, 8, 1, 4, 2, [0, 0], [0, 0]⟩,
   ⟨.clkClus, 0xc0, 16, 4, 1, 4, 1, [0], [3]⟩,
   ⟨.farCfg, 0x100, 1, 4, 1, 4, 1, [0x698], [0x7ff]⟩,
   ⟨.farStat, 0x104, 1, 4, 1, 4, 1, [0x1ab210], [0]⟩,
   ⟨.farThr, 0x108, 1, 4, 1, 4, 1, [0x50100], [0xffffff]⟩,
   ⟨.farCnt, 0x140, 1, 0x48, 9, 8, 2, [0, 0], [0, 0]⟩,
   ⟨.prtQcfg, 0x10000, 32, 4, 1, 4, 1, [0], [0xff]⟩,
   ⟨.prtI2c, 0x10080, 1, 4, 1, 4, 1, [0], [1]⟩,
   ⟨.prtCfg, 0x18000, 128, 0x100, 1, 4, 1, [0x17d8], [0x7ffff]⟩,
   ⟨.prtAdm, 0x18004, 128, 0x100, 1, 4, 1, [0x100], [0xfffff]⟩,
   ⟨.prtFc, 0x18008, 128, 0x100, 1, 4, 1, [0x8000c0], [0xffffffff]⟩,
   ⟨.prtPcpmap, 0x1800c, 128, 0x100, 1, 4, 1, [0xfac688], [0x7ffffff]⟩,
   ⟨.prtTslat, 0x18010, 128, 0x100, 1, 4, 1, [0], [0xffffffff]⟩,
   ⟨.prtStat, 0x18014, 128, 0x100, 1, 4, 1, [0], [0]⟩,
   ⟨.prtCnt, 0x18080, 128, 0x100, 16, 8, 2, [0, 0], [0, 0]⟩,
   ⟨.hobCfg, 0x20000, 256, 0x80, 1, 4, 1, [0], [0x7f]⟩,
   ⟨.hobDrop, 0x20004, 256, 0x80, 1, 4, 1, [0], [0xffffffff]⟩]

/-- 20 Table 20-3, part 2. -/
def devMap2 : List RegDef :=
  [⟨.hobCorpos, 0x20008, 256, 0x80, 1, 4, 1, [0], [0x3fffffff]⟩,
   ⟨.hobCork, 0x2000c, 256, 0x80, 1, 4, 1, [0], [0x1f]⟩,
   ⟨.hobCormask, 0x20010, 256, 0x80, 1, 4, 1, [0], [0xffffffff]⟩,
   ⟨.hobReo, 0x20014, 256, 0x80, 1, 4, 1, [0], [0xffffff]⟩,
   ⟨.hobSeed, 0x20018, 256, 0x80, 1, 4, 1, [0], [0xffffffff]⟩,
   ⟨.hobCnt, 0x20040, 256, 0x80, 7, 8, 2, [0, 0], [0, 0]⟩,
   ⟨.parCtl, 0x30000, 1, 4, 1, 4, 1, [0], [0]⟩,
   ⟨.parSlowp, 0x30100, 8, 4, 1, 4, 1, [0x400064], [0xffffffff]⟩,
   ⟨.parSlowb, 0x30120, 8, 4, 1, 4, 1, [0x4003e8], [0xffffffff]⟩,
   ⟨.parPort, 0x30200, 128, 4, 1, 4, 1, [0], [0x1ffff]⟩,
   ⟨.parSig, 0x30400, 64, 0x10, 1, 0x10, 3, [0, 0, 0], [0xffffffff, 0xffffffff, 1]⟩,
   ⟨.parSlowcnt, 0x30800, 8, 0x20, 4, 8, 2, [0, 0], [0, 0]⟩,
   ⟨.parRsncnt, 0x30c00, 128, 8, 1, 8, 2, [0, 0], [0, 0]⟩,
   ⟨.parExt, 0x31000, 64, 0x40, 16, 4, 1, [0], [0xfffffff]⟩,
   ⟨.parNode, 0x32000, 256, 0x20, 1, 0x20, 6, [0, 0, 0, 0, 0, 0], [0xffffffff, 0x7fffff, 0xfffffff, 0xfffffff, 0xfffffff, 0xfffffff]⟩,
   ⟨.parTrn, 0x34000, 4096, 0xc, 1, 0xc, 3, [0, 0, 0], [0xffffffff, 0xffffffff, 0x3ff]⟩,
   ⟨.stfCfg, 0x40000, 1, 4, 1, 4, 1, [0], [0x7fffff]⟩,
   ⟨.stfStbase, 0x40004, 1, 4, 1, 4, 1, [0], [0xfffffff]⟩,
   ⟨.stfRwbase, 0x40008, 1, 4, 1, 4, 1, [0], [0xfffffff]⟩,
   ⟨.stfSvc, 0x40100, 64, 0x10, 1, 0x10, 3, [0, 0, 0], [0x7ffffef, 0x3f7fffff, 0x7fff7fff]⟩,
   ⟨.stfCnt, 0x40800, 8, 0x40, 8, 8, 2, [0, 0], [0, 0]⟩,
   ⟨.srcCtl, 0x41000, 1, 4, 1, 4, 1, [0], [0xf]⟩,
   ⟨.srcStat, 0x41004, 1, 4, 1, 4, 1, [4], [0]⟩,
   ⟨.srcBank, 0x41100, 64, 4, 1, 4, 1, [0x10], [0x3ff]⟩,
   ⟨.srcCecnt, 0x41200, 64, 4, 1, 4, 1, [0], [0]⟩,
   ⟨.srcCnt, 0x41400, 8, 0x30, 6, 8, 2, [0, 0], [0, 0]⟩,
   ⟨.srcProf, 0x44000, 256, 0x40, 1, 0x40, 11, [0, 0, 0, 0, 0, 0, 0, 0, 0, 0, 0], [0x7f, 0xffffffff, 0xffffffff, 0x1fffffff, 0x1fffffff, 0x1fffffff, 0x1fffffff, 0x1fffffff, 0x1fffffff, 0x1fffffff, 0x1fffffff]⟩,
   ⟨.tblFlow, 0x50000, 1, 4, 1, 4, 1, [0x4b14], [0x7ffff]⟩,
   ⟨.tblL2, 0x50004, 1, 4, 1, 4, 1, [0x4b14], [0x7ffff]⟩,
   ⟨.tblL2hold, 0x50008, 1, 4, 1, 4, 1, [0x3e8], [0xffff]⟩]

/-- 20 Table 20-3, part 3. -/
def devMap3 : List RegDef :=
  [⟨.tblLpm, 0x5000c, 1, 4, 1, 4, 1, [4], [0xf]⟩,
   ⟨.tblFlowbase, 0x50010, 1, 4, 1, 4, 1, [0], [0xfffffff]⟩,
   ⟨.tblL2base, 0x50014, 1, 4, 1, 4, 1, [0], [0xfffffff]⟩,
   ⟨.tblPfxbase, 0x50018, 1, 4, 1, 4, 1, [0], [0xfffffff]⟩,
   ⟨.tblDecbase, 0x5001c, 1, 4, 1, 4, 1, [0], [0xfffffff]⟩,
   ⟨.tblDecsbase, 0x50020, 1, 4, 1, 4, 1, [0], [0xfffffff]⟩,
   ⟨.tblRt, 0x50040, 4, 4, 1, 4, 1, [0], [0x3f]⟩,
   ⟨.tblRtsbase, 0x50050, 4, 4, 1, 4, 1, [0], [0xfffffff]⟩,
   ⟨.tblQuota, 0x50080, 8, 0x10, 3, 4, 1, [0], [0x1ffffff]⟩,
   ⟨.tblCnt, 0x50400, 8, 0x80, 9, 8, 2, [0, 0], [0, 0]⟩,
   ⟨.tblCls, 0x51000, 128, 0x20, 1, 0x20, 8, [0, 0, 0, 0, 0, 0, 0, 0], [0x7ffff, 0x1ffffff, 0x1ffffff, 0x1ffffff, 0x1ffffff, 0x7fff, 0xffffffff, 0xffffffff]⟩,
   ⟨.schCfg, 0x60000, 1, 4, 1, 4, 1, [0xa], [0x3fff]⟩,
   ⟨.hltStat, 0x60004, 1, 4, 1, 4, 1, [0x4000], [0]⟩,
   ⟨.hltPart, 0x60020, 8, 4, 1, 4, 1, [0], [0xfffffff]⟩,
   ⟨.schPart, 0x60040, 8, 4, 1, 4, 1, [0x1029], [0x1fff]⟩,
   ⟨.schStall, 0x60060, 8, 4, 1, 4, 1, [0], [0]⟩,
   ⟨.hltCnt, 0x60400, 8, 0x40, 8, 8, 2, [0, 0], [0, 0]⟩,
   ⟨.schCnt, 0x60600, 8, 0x40, 8, 8, 2, [0, 0], [0, 0]⟩,
   ⟨.hltDom, 0x68000, 4096, 8, 1, 8, 2, [0, 0], [0x7fffffff, 0xfff]⟩,
   ⟨.mcsInfo, 0x70000, 1, 4, 1, 4, 1, [0], [0]⟩,
   ⟨.coreCluster, 0x70040, 16, 4, 1, 4, 1, [0], [0x1f]⟩,
   ⟨.coreCfg, 0x70200, 128, 4, 1, 4, 1, [0], [1]⟩,
   ⟨.coreCrcpoly, 0x70400, 128, 4, 1, 4, 1, [0x4c11db7], [0xffffffff]⟩,
   ⟨.coreCrcw, 0x70600, 128, 4, 1, 4, 1, [0x3f], [0x3f]⟩,
   ⟨.mcsStat, 0x70800, 128, 4, 1, 4, 1, [0], [0]⟩,
   ⟨.coreCnt, 0x70a00, 8, 0x40, 8, 8, 2, [0, 0], [0, 0]⟩,
   ⟨.mcsCnt, 0x70c00, 8, 0x40, 6, 8, 2, [0, 0], [0, 0]⟩,
   ⟨.coreMemrng, 0x71000, 8, 0x80, 16, 8, 2, [0, 0], [0x8fffffff, 0xfffffff]⟩,
   ⟨.chnCfg, 0x80000, 1, 4, 1, 4, 1, [0xa], [0x3ff]⟩,
   ⟨.hspPart, 0x80040, 8, 4, 1, 4, 1, [0], [1]⟩]

/-- 20 Table 20-3, part 4. -/
def devMap4 : List RegDef :=
  [⟨.hspCnt, 0x80400, 8, 0x40, 8, 8, 2, [0, 0], [0, 0]⟩,
   ⟨.chnCnt, 0x80600, 8, 0x40, 6, 8, 2, [0, 0], [0, 0]⟩,
   ⟨.hspGrp, 0x80800, 64, 0x20, 1, 0x20, 5, [0, 0, 0, 0, 0x2710], [0x1f, 0xffffff, 0xffffff, 0xffffff, 0xfffff]⟩,
   ⟨.chnCh, 0x84000, 4096, 4, 1, 4, 1, [0], [0x1f]⟩,
   ⟨.bufTagbase, 0x90000, 1, 4, 1, 4, 1, [0], [0xfffffff]⟩,
   ⟨.bufFree, 0x90100, 64, 4, 1, 4, 1, [0], [0]⟩,
   ⟨.bufIpool, 0x90200, 128, 4, 1, 4, 1, [0], [0x3f]⟩,
   ⟨.bufPool, 0x90400, 64, 0x10, 1, 0x10, 3, [0, 0x4000000, 0], [0xfffffff, 0xfffffff, 0xfffffff]⟩,
   ⟨.bufCnt, 0x90800, 8, 0x40, 8, 8, 2, [0, 0], [0, 0]⟩,
   ⟨.egrQ, 0xa0000, 4096, 8, 1, 8, 2, [0x10000, 0x600], [0xfffff, 0x3fff]⟩,
   ⟨.egrQshp, 0xa8000, 4096, 4, 1, 4, 1, [0], [0xffffffff]⟩,
   ⟨.egrDepth, 0xac000, 4096, 4, 1, 4, 1, [0], [0]⟩,
   ⟨.egrPshp, 0xb0000, 128, 4, 1, 4, 1, [0], [0xffffffff]⟩,
   ⟨.egrPort, 0xb0200, 128, 4, 1, 4, 1, [1], [1]⟩,
   ⟨.egrCnt, 0xb1000, 128, 0x20, 4, 8, 2, [0, 0], [0, 0]⟩,
   ⟨.jnlCfg, 0xc0000, 1, 4, 1, 4, 1, [0x1428], [0x7ffff]⟩,
   ⟨.jnlBase, 0xc0004, 1, 4, 1, 4, 1, [0], [0x3f]⟩,
   ⟨.jnlStat, 0xc0008, 1, 4, 1, 4, 1, [0], [0]⟩,
   ⟨.cryStat, 0xc000c, 1, 4, 1, 4, 1, [0x2710], [0]⟩,
   ⟨.jnlClass, 0xc0020, 8, 4, 1, 4, 1, [0], [0xffffffff]⟩,
   ⟨.jnlDigsrc, 0xc0040, 8, 4, 1, 4, 1, [0], [0xffffffff]⟩,
   ⟨.keyStat, 0xc0060, 8, 4, 1, 4, 1, [0], [0]⟩,
   ⟨.keyRng, 0xc0080, 8, 8, 1, 8, 2, [0, 0], [0x1ffff, 0x1ffff]⟩,
   ⟨.jnlCnt, 0xc0100, 1, 0x40, 8, 8, 2, [0, 0], [0, 0]⟩,
   ⟨.cryCnt, 0xc0400, 8, 0x40, 8, 8, 2, [0, 0], [0, 0]⟩,
   ⟨.gplCfg, 0xd0000, 1, 4, 1, 4, 1, [0xa], [0x7f]⟩,
   ⟨.gplPort, 0xd0010, 4, 4, 1, 4, 1, [0], [0]⟩,
   ⟨.gplPlim, 0xd0020, 8, 4, 1, 4, 1, [0x800], [0x7fff]⟩,
   ⟨.gplRassign, 0xd4000, 4096, 4, 1, 4, 1, [0], [0xf]⟩,
   ⟨.hbmCfg, 0xd8000, 1, 4, 1, 4, 1, [0x600a0a14], [0x7fffffff]⟩]

/-- 20 Table 20-3, part 5. -/
def devMap5 : List RegDef :=
  [⟨.hbmStat, 0xd8004, 1, 4, 1, 4, 1, [0], [0]⟩,
   ⟨.hbmTrain, 0xd8008, 1, 4, 1, 4, 1, [8], [0xff]⟩,
   ⟨.hbmMigbw, 0xd800c, 1, 4, 1, 4, 1, [0x14], [0xff]⟩,
   ⟨.hbmUelog, 0xd8010, 1, 8, 1, 8, 2, [0, 0], [0, 0]⟩,
   ⟨.hbmRank, 0xd8040, 16, 4, 1, 4, 1, [0], [0]⟩,
   ⟨.hbmCecnt, 0xd8080, 16, 8, 2, 4, 1, [0], [0]⟩,
   ⟨.hbmCnt, 0xd8100, 1, 0x40, 8, 8, 2, [0, 0], [0, 0]⟩,
   ⟨.dbgTsel, 0xe0000, 1, 4, 1, 4, 1, [0], [0xffff]⟩,
   ⟨.dbgTctl, 0xe0004, 1, 4, 1, 4, 1, [0], [0]⟩,
   ⟨.dbgAudit, 0xe0008, 1, 4, 1, 4, 1, [0], [0]⟩,
   ⟨.dbgNonce, 0xe000c, 1, 4, 1, 4, 1, [0], [0]⟩,
   ⟨.dbgTreg, 0xe0010, 1, 0xc, 1, 0xc, 3, [0, 0, 0], [0x3ff, 0xffffffff, 0xf]⟩,
   ⟨.vioFirst, 0xe0100, 8, 0x10, 1, 0x10, 4, [0, 0, 0, 0], [0, 0, 0, 0]⟩,
   ⟨.gaitAssign, 0xe0400, 256, 4, 1, 4, 1, [0], [0xf]⟩,
   ⟨.vioCnt, 0xe0800, 8, 0x80, 16, 8, 2, [0, 0], [0, 0]⟩,
   ⟨.dbgBp, 0xe1000, 128, 0x10, 4, 4, 1, [0], [0xffffffff]⟩]

/-- 20 Table 20-3 whole (R410), in ascending base. -/
def devMap : List RegDef := devMap1 ++ devMap2 ++ devMap3 ++ devMap4 ++ devMap5

/-- A place in the device window: its row, outer index, inner index and word. -/
structure RegAt where
  d : RegDef
  i : Nat
  j : Nat
  w : Nat

/-- Does the row hold offset `o`, and where. -/
def RegDef.locate (d : RegDef) (o : Nat) : Option RegAt :=
  if o < d.base then none
  else
    let x := o - d.base
    let i := x / d.s1
    let r := x % d.s1
    let j := if d.n2 = 1 then 0 else r / d.s2
    let q := if d.n2 = 1 then r else r % d.s2
    if i < d.n1 ∧ j < d.n2 ∧ q % 4 = 0 ∧ q / 4 < d.words then some ⟨d, i, j, q / 4⟩ else none

/-- The register at a device-window offset; none for a reserved offset (R405, R410). -/
def regFind (o : Nat) : Option RegAt := devMap.findSome? (fun d => d.locate o)

/-- The reset value of the word at a device-window offset (20 Table 20-3). -/
def devReset (o : Nat) : W32 :=
  match regFind o with
  | some a => BitVec.ofNat 32 (a.d.resets.getD a.w 0)
  | none => 0

/-- The RW bits of the word at a device-window offset. -/
def devMask (o : Nat) : Nat :=
  match regFind o with
  | some a => a.d.rw.getD a.w 0
  | none => 0

/-- The stored word at a device-window offset. DESIGN CHOICE, log entry 36. -/
def rdDev (s : State) (o : Nat) : Nat := (mget (devReset o) s.regs.dev o).toNat

/-- Store a word at a device-window offset. -/
def wrDev (s : State) (o v : Nat) : State :=
  { s with regs := { s.regs with dev := mset (devReset o) s.regs.dev o (BitVec.ofNat 32 v) } }

/-- A field of a stored word. -/
def fld (s : State) (o hi lo : Nat) : Nat := bitsOf (rdDev s o) hi lo

/-- One bit of a stored word. -/
def flag (s : State) (o i : Nat) : Bool := bitOf (rdDev s o) i

/-- Set bit `i` of a stored word. -/
def wrFlag (s : State) (o i : Nat) (b : Bool) : State := wrDev s o (setBit (rdDev s o) i b)

/-- The word of an active parse register (03 R62): the bank the lanes use. -/
def rdPar (s : State) (o : Nat) : Nat := (mget (devReset o) s.regs.parActive o).toNat

/-- A field of an active parse register. -/
def parFld (s : State) (o hi lo : Nat) : Nat := bitsOf (rdPar s o) hi lo

/-- The reset value of a partition-window word (20 Table 20-1); rings and monitors apart. -/
def partReset (o : Nat) : W32 := if o = 4 then 0x15 else 0

/-- The stored word at a partition-window offset. -/
def rdPart (s : State) (p o : Nat) : Nat := (mget (partReset o) s.regs.part (p * 65536 + o)).toNat

/-- Store a word at a partition-window offset. -/
def wrPart (s : State) (p o v : Nat) : State :=
  { s with regs := { s.regs with part := mset (partReset o) s.regs.part (p * 65536 + o) (BitVec.ofNat 32 v) } }

/-- The stored word of GPL_RCFG of a ring (14 Table 14-16). -/
def rdRing (s : State) (r w : Nat) : Nat := (mget 0 s.regs.rcfg (r * 8 + w)).toNat

/-- Store a word of GPL_RCFG. -/
def wrRing (s : State) (r w v : Nat) : State :=
  { s with regs := { s.regs with rcfg := mset 0 s.regs.rcfg (r * 8 + w) (BitVec.ofNat 32 v) } }

/-- The stored word of GAIT_CFG of a monitor (17 Table 17-3). -/
def rdGait (s : State) (m w : Nat) : Nat := (mget 0 s.regs.gcfg (m * 4 + w)).toNat

/-- Store a word of GAIT_CFG. -/
def wrGait (s : State) (m w v : Nat) : State :=
  { s with regs := { s.regs with gcfg := mset 0 s.regs.gcfg (m * 4 + w) (BitVec.ofNat 32 v) } }

/-- A 64-bit counter, by the device-window offset of its low word (20 R403). -/
def rdCnt (s : State) (o : Nat) : BitVec 64 := mget 0 s.regs.cnt o

/-- Add to a wrapping 64-bit counter. -/
def cntAdd (s : State) (o n : Nat) : State :=
  { s with regs := { s.regs with cnt := mset 0 s.regs.cnt o (rdCnt s o + BitVec.ofNat 64 n) } }

/-- Add to counter `k` of a per-partition array of stride `st`. -/
def pcnt (s : State) (base st p k n : Nat) : State := cntAdd s (base + p * st + k * 8) n

/-- Add to counter `k` of GPL_CNT of a partition (14 Table 14-18). -/
def gplCnt (s : State) (p k n : Nat) : State :=
  { s with regs := { s.regs with
      pcnt := mset 0 s.regs.pcnt (p * 16 + k) (mget 0 s.regs.pcnt (p * 16 + k) + BitVec.ofNat 64 n) } }

/-- The owner named by a word with ASSIGNED and OWNER bits, when assigned. -/
def ownerOf (v assigned lo : Nat) : Option Nat := if bitOf v assigned then some (bitsOf v (lo + 2) lo) else none

/-- Owner of a cluster (08 Table 08-14). -/
def clusterOwner (s : State) (c : Nat) : Option Nat := ownerOf (rdDev s (0x70040 + 4 * c)) 1 2

/-- A cluster is enabled. -/
def clusterEn (s : State) (c : Nat) : Bool := flag s (0x70040 + 4 * c) 0

/-- HLT_DOM W0 of a domain (07 Table 07-11). -/
def hltDom (s : State) (d : Nat) : Nat := rdDev s (0x68000 + 8 * d)

/-- Owner of an order domain. -/
def domOwner (s : State) (d : Nat) : Option Nat := ownerOf (hltDom s d) 1 2

/-- Owner of an egress queue (12 Table 12-9). -/
def queueOwner (s : State) (q : Nat) : Option Nat := ownerOf (rdDev s (0xA0000 + 8 * q)) 1 2

/-- An egress queue is enabled. -/
def queueEn (s : State) (q : Nat) : Bool := flag s (0xA0000 + 8 * q) 0

/-- Owner of a ring (14 R300). -/
def ringOwner (s : State) (r : Nat) : Option Nat := ownerOf (rdDev s (0xD4000 + 4 * r)) 0 1

/-- Kind of a ring (14 Table 14-3). -/
def ringKind (s : State) (r : Nat) : Nat := bitsOf (rdRing s r 2) 7 4

/-- A ring is enabled. -/
def ringEn (s : State) (r : Nat) : Bool := bitOf (rdRing s r 2) 8

/-- Owner of a pool (12 Table 12-8). -/
def poolOwner (s : State) (k : Nat) : Option Nat := ownerOf (rdDev s (0x90408 + 16 * k)) 1 2

/-- A pool is enabled. -/
def poolEn (s : State) (k : Nat) : Bool := flag s (0x90408 + 16 * k) 0

/-- Owner of a channel (11 Table 11-11). -/
def chanOwner (s : State) (c : Nat) : Option Nat := ownerOf (rdDev s (0x84000 + 4 * c)) 1 2

/-- Owner of a lock group (11 Table 11-9). -/
def grpOwner (s : State) (g : Nat) : Option Nat := ownerOf (rdDev s (0x80800 + 32 * g)) 1 2

/-- Owner of a search bank (05 Table 05-7). -/
def bankOwner (s : State) (b : Nat) : Option Nat := ownerOf (rdDev s (0x41100 + 4 * b)) 9 6

/-- Owner of a search profile (05 Table 05-8). -/
def profOwner (s : State) (k : Nat) : Option Nat := ownerOf (rdDev s (0x44000 + 64 * k)) 6 3

/-- Owner of a Gait monitor (17 Table 17-4). -/
def monOwner (s : State) (m : Nat) : Option Nat := ownerOf (rdDev s (0xE0400 + 4 * m)) 0 1

/-- Partition number of a thread: the owner of its cluster (01 R8). -/
def thrPart (s : State) (t : Nat) : Option Nat := clusterOwner s (t / 128)

/-- Agent ID of a thread (00 R4). -/
def thrAgent (t : Nat) : Nat := t * 8

/-- Agent ID of a partition's host (00 R4). -/
def hostAgent (p : Nat) : Nat := 0x4000 + p

/-- Agent ID of an internal agent (17 R359). -/
def intAgent (n : Nat) : Nat := 0x8000 + n

end Sys2Proof.Machine
end

