-- ==== Sys2Proof/Machine/Sha.lean ====
section
/-! DEFINITION. The hash functions the engines and the journal use (13 R276, R285, R288): SHA-256, SHA-512 (inside
Ed25519), HMAC-SHA-256, HKDF-SHA-256 and the Merkle tree hash of RFC 6962. The algorithms and their constants are those
of the standards the spec names (FIPS 180-4, RFC 2104, RFC 5869, RFC 6962); PRESUMED, log entry 10. -/

namespace Sys2Proof.Machine

/-- The `n` words of `w` bits that a number strings together, the first word in its highest bits. -/
def wordsOf (w n x : Nat) : List Nat := (List.range n).map (fun i => (x >>> (w * (n - 1 - i))) % 2 ^ w)

/-- The fractions of the cube roots of the first 80 primes, 64 bits each, four strung together. -/
def cubeRoots : List Nat :=
  [0x428a2f98d728ae227137449123ef65cdb5c0fbcfec4d3b2fe9b5dba58189dbbc,
   0x3956c25bf348b53859f111f1b605d019923f82a4af194f9bab1c5ed5da6d8118,
   0xd807aa98a303024212835b0145706fbe243185be4ee4b28c550c7dc3d5ffb4e2,
   0x72be5d74f27b896f80deb1fe3b1696b19bdc06a725c71235c19bf174cf692694,
   0xe49b69c19ef14ad2efbe4786384f25e30fc19dc68b8cd5b5240ca1cc77ac9c65,
   0x2de92c6f592b02754a7484aa6ea6e4835cb0a9dcbd41fbd476f988da831153b5,
   0x983e5152ee66dfaba831c66d2db43210b00327c898fb213fbf597fc7beef0ee4,
   0xc6e00bf33da88fc2d5a79147930aa72506ca6351e003826f142929670a0e6e70,
   0x27b70a8546d22ffc2e1b21385c26c9264d2c6dfc5ac42aed53380d139d95b3df,
   0x650a73548baf63de766a0abb3c77b2a881c2c92e47edaee692722c851482353b,
   0xa2bfe8a14cf10364a81a664bbc423001c24b8b70d0f89791c76c51a30654be30,
   0xd192e819d6ef5218d69906245565a910f40e35855771202a106aa07032bbd1b8,
   0x19a4c116b8d2d0c81e376c085141ab532748774cdf8eeb9934b0bcb5e19b48a8,
   0x391c0cb3c5c95a634ed8aa4ae3418acb5b9cca4f7763e373682e6ff3d6b2b8a3,
   0x748f82ee5defb2fc78a5636f43172f6084c87814a1f0ab728cc702081a6439ec,
   0x90befffa23631e28a4506cebde82bde9bef9a3f7b2c67915c67178f2e372532b,
   0xca273eceea26619cd186b8c721c0c207eada7dd6cde0eb1ef57d4f7fee6ed178,
   0x06f067aa72176fba0a637dc5a2c898a6113f9804bef90dae1b710b35131c471b,
   0x28db77f523047d8432caab7b40c724933c9ebe0a15c9bebc431d67c49c100d4c,
   0x4cc5d4becb3e42b6597f299cfc657e2a5fcb6fab3ad6faec6c44198c4a475817]

/-- The fractions of the square roots of the first 8 primes, 64 bits each, four strung together. -/
def squareRoots : List Nat :=
  [0x6a09e667f3bcc908bb67ae8584caa73b3c6ef372fe94f82ba54ff53a5f1d36f1,
   0x510e527fade682d19b05688c2b3e6c1f1f83d9abfb41bd6b5be0cd19137e2179]

/-- Round constants of SHA-512. -/
def sha512K : List Nat := cubeRoots.flatMap (wordsOf 64 4)

/-- Initial hash value of SHA-512. -/
def sha512H : List Nat := squareRoots.flatMap (wordsOf 64 4)

/-- Round constants of SHA-256: the first 32 bits of the same fractions, of 64 primes. -/
def sha256K : List Nat := (sha512K.take 64).map (· >>> 32)

/-- Initial hash value of SHA-256. -/
def sha256H : List Nat := sha512H.map (· >>> 32)

/-- Rotate a `w`-bit number right. -/
def rotr (w x n : Nat) : Nat := (x >>> n) ||| ((x <<< (w - n)) % 2 ^ w)

/-- What fixes a member of the SHA-2 family: word width, rounds, block octets, rotation amounts and constants. -/
structure Sha2 where
  w : Nat
  rounds : Nat
  block : Nat
  lenOctets : Nat
  s0 : List Nat
  s1 : List Nat
  e0 : List Nat
  e1 : List Nat
  k : List Nat
  h : List Nat

/-- SHA-256. -/
def sha256Alg : Sha2 := ⟨32, 64, 64, 8, [7, 18, 3], [17, 19, 10], [2, 13, 22], [6, 11, 25], sha256K, sha256H⟩

/-- SHA-512. -/
def sha512Alg : Sha2 := ⟨64, 80, 128, 16, [1, 8, 7], [19, 61, 6], [28, 34, 39], [14, 18, 41], sha512K, sha512H⟩

/-- The small sigma: two rotations and a shift. -/
def Sha2.small (a : Sha2) (r : List Nat) (x : Nat) : Nat :=
  rotr a.w x (r.getD 0 0) ^^^ rotr a.w x (r.getD 1 0) ^^^ (x >>> r.getD 2 0)

/-- The big sigma: three rotations. -/
def Sha2.big (a : Sha2) (r : List Nat) (x : Nat) : Nat :=
  rotr a.w x (r.getD 0 0) ^^^ rotr a.w x (r.getD 1 0) ^^^ rotr a.w x (r.getD 2 0)

/-- The message schedule, newest word first, grown by `n` words. -/
def Sha2.schedule (a : Sha2) : Nat → List Nat → List Nat
  | 0, ws => ws
  | n + 1, ws =>
    let v := (a.small a.s1 (ws.getD 1 0) + ws.getD 6 0 + a.small a.s0 (ws.getD 14 0) + ws.getD 15 0) % 2 ^ a.w
    a.schedule n (v :: ws)

/-- One round on the working variables a to h. -/
def Sha2.round (a : Sha2) (v : List Nat) (kw : Nat × Nat) : List Nat :=
  match v with
  | [x0, x1, x2, x3, x4, x5, x6, x7] =>
    let m := 2 ^ a.w
    let t1 := (x7 + a.big a.e1 x4 + ((x4 &&& x5) ^^^ ((m - 1 - x4) &&& x6)) + kw.1 + kw.2) % m
    let t2 := a.big a.e0 x0 + ((x0 &&& x1) ^^^ (x0 &&& x2) ^^^ (x1 &&& x2))
    [(t1 + t2) % m, x0, x1, x2, (x3 + t1) % m, x4, x5, x6]
  | v => v

/-- The words of a block, in order. -/
def Sha2.words (a : Sha2) : Nat → List Octet → List Nat
  | 0, _ => []
  | n + 1, l => beNat (l.take (a.w / 8)) :: a.words n (l.drop (a.w / 8))

/-- Compress one block. -/
def Sha2.compress (a : Sha2) (h : List Nat) (blk : List Octet) : List Nat :=
  let ws := (a.schedule (a.rounds - 16) (a.words 16 blk).reverse).reverse
  List.zipWith (fun x y => (x + y) % 2 ^ a.w) h ((List.zip a.k ws).foldl a.round h)

/-- Run over `n` blocks. -/
def Sha2.blocks (a : Sha2) : Nat → List Octet → List Nat → List Nat
  | 0, _, h => h
  | n + 1, l, h => a.blocks n (l.drop a.block) (a.compress h (l.take a.block))

/-- The digest of a message. -/
def Sha2.hash (a : Sha2) (m : List Octet) : List Octet :=
  let n := m.length
  let z := (2 * a.block - (n + 1 + a.lenOctets) % a.block) % a.block
  let p := m ++ [0x80] ++ zeros z ++ beOctets a.lenOctets (8 * n)
  (a.blocks (p.length / a.block) p a.h).flatMap (beOctets (a.w / 8))

/-- SHA-256 of a message, 32 octets. -/
def sha256 (m : List Octet) : List Octet := sha256Alg.hash m

/-- SHA-512 of a message, 64 octets. -/
def sha512 (m : List Octet) : List Octet := sha512Alg.hash m

/-- HMAC-SHA-256 (RFC 2104). -/
def hmac (key m : List Octet) : List Octet :=
  let k := fit 64 (if key.length > 64 then sha256 key else key)
  sha256 (k.map (· ^^^ 0x5C) ++ sha256 (k.map (· ^^^ 0x36) ++ m))

/-- HKDF-SHA-256 for 32 octets (RFC 5869), with a salt of zeros. -/
def hkdf32 (ikm info : List Octet) : List Octet := hmac (hmac (zeros 32) ikm) (info ++ [1])

/-- The largest power of two below `n`, for `n` above 1. -/
def splitPoint (n : Nat) : Nat := 2 ^ Nat.log2 (n - 1)

/-- The Merkle tree hash of RFC 6962 over records; `fuel` bounds the depth. -/
def merkle : Nat → List (List Octet) → List Octet
  | 0, _ => sha256 []
  | _, [] => sha256 []
  | _, [r] => sha256 (0 :: r)
  | fuel + 1, l =>
    let k := splitPoint l.length
    sha256 (1 :: (merkle fuel (l.take k) ++ merkle fuel (l.drop k)))

/-- Text as ASCII octets. -/
def ascii (t : String) : List Octet := t.toList.map (fun c => BitVec.ofNat 8 c.toNat)

end Sys2Proof.Machine
end

