-- ==== Sys2Proof/Machine/Ops.lean ====
section
/-! DEFINITION. The named operations every block shares: time, free values, the supervisor, service events, the
violation log, device and host memory, and the journal's intake. -/

namespace Sys2Proof.Machine

/-- Device TAI time in ns (18 R380). -/
def tai (s : State) : Nat := s.tb.tai

/-- Draw the next free value (DESIGN CHOICE, log entry 2): a number below `n` that the spec leaves open, and the advanced state. -/
def drawFree (s : State) (n : Nat) : Nat × State := (Config.freeNat s.fresh % n, { s with fresh := s.fresh + 1 })

/-- An internal request of the random bit generator for a number below `n`: a free value, counted toward the reseed
(13 R278). -/
def rbgDraw (s : State) (n : Nat) : Nat × State :=
  let (x, s) := drawFree s n
  (x, { s with cry := { s.cry with rbgCount := s.cry.rbgCount + 1 } })

/-- Does PCIe function `k` exist: function 2p always, function 2p + 1 when port p is bifurcated (14 R298). -/
def funcExists (s : State) (k : Nat) : Bool := decide (k % 2 = 0) || bitOf s.flash.bifur (k / 2)

/-- The function that serves a partition (14 R298). -/
def funcOf (s : State) (p : Nat) : Nat := p ^^^ s.flash.bindFunc.getD 0

/-- A partition has a host when its function exists (14 R298). -/
def hasHost (s : State) (p : Nat) : Bool := funcExists s (funcOf s p)

/-- A binding is sealed and names a function that exists: partition 0 is the supervisor (00 R5). -/
def supBound (s : State) : Bool :=
  match s.flash.bindFunc with
  | some b => funcExists s b
  | none => false

/-- Is the partition the supervisor (00 R5). -/
def isSup (s : State) (p : Nat) : Bool := supBound s && decide (p = 0)

/-- Is the audit lock set (17 R371). -/
def auditLocked (s : State) : Bool := s.dbg.locked

/-- Is the partition in Bolt, by itself or with the device (16 R341, R343). -/
def inBolt (s : State) (p : Nat) : Bool := s.hkc.dbolt || (mget {} s.hkc.pbolt p).on

/-- Is the partition held in reset (14 R316); every one is while the part is not booted, or has no good image (18 R385,
R386). -/
def inReset (s : State) (p : Nat) : Bool := s.hkc.inReset.contains p || !s.hkc.booted || s.hkc.smbOnly

/-- Clusters a partition owns. -/
def clustersOf (s : State) (p : Nat) : List Nat := (List.range 16).filter (fun c => clusterOwner s c == some p)

/-- A partition that takes no frames: in Bolt, in reset or without a cluster (01 R13). -/
def noService (s : State) (p : Nat) : Bool := inBolt s p || inReset s p || (clustersOf s p).isEmpty

/-- Send a service event to the supervisor's service ring queue of 4,096 (14 R315). DEDUCED, log entry 83. -/
def sendEvent (s : State) (code result : Nat) (detail : List Octet) : State :=
  if s.gpl.svcq.length < 4096 then
    { s with gpl := { s.gpl with
        svcq := s.gpl.svcq ++ [{ code := code, result := result, detail := fit 12 detail, lost := s.gpl.svcLost }],
        svcLost := 0 } }
  else { s with gpl := { s.gpl with svcLost := s.gpl.svcLost + 1 } }

/-- Count a violation of a partition's agent, and capture the first one after re-arming (17 R365, R366). -/
def violate (s : State) (p kind agent res offset : Nat) : State :=
  let s := cntAdd s (0xE0800 + p * 0x80 + 8 * kind) 1
  if (mget {} s.dbg.vioFirst p).valid then s
  else
    let v : VioFirst := ⟨true, kind, agent, res % 65536, offset % 2 ^ 36, tai s / 2 ^ 28 % 2 ^ 28⟩
    let s := { s with dbg := { s.dbg with vioFirst := mset {} s.dbg.vioFirst p v } }
    sendEvent s 0x28 0 (beOctets 1 p ++ beOctets 1 kind)



/-- A violation by a thread, against the owner of its cluster. -/
def thrViolate (s : State) (t kind res offset : Nat) : State :=
  match thrPart s t with
  | some p => violate s p kind (thrAgent t) res offset
  | none => s

/-- A violation by a partition's host. -/
def hostViolate (s : State) (p kind res : Nat) : State := violate s p kind (hostAgent p) res 0

/-- Is the device address in packet SRAM (08 Table 08-4). -/
def isSram (a : Nat) : Bool := decide (0x800000000 ≤ a ∧ a < 0x808000000)

/-- Is the device address in the HBM in service (08 Table 08-4). -/
def isHbm (a : Nat) : Bool := decide (a < 0x400000000)

/-- Does a range of device octets lie wholly in HBM or wholly in packet SRAM (08 R163). -/
def devMapped (a n : Nat) : Bool :=
  decide (a + n ≤ 0x400000000) || decide (0x800000000 ≤ a ∧ a + n ≤ 0x808000000)

/-- One octet of packet SRAM or HBM; an octet nothing has written reads zero (DESIGN CHOICE, log entry 8). -/
def devOct (s : State) (a : Nat) : Octet := mget 0 s.mem.dev a

/-- Octets of packet SRAM or HBM. -/
def devRead (s : State) (a n : Nat) : List Octet := (List.range n).map (fun i => devOct s (a + i))

/-- Does a range of device octets touch a poisoned half (15 R325, 12 R414). -/
def devPoisoned (s : State) (a n : Nat) : Bool :=
  decide (0 < n) && s.mem.poison.any (fun h => decide (a / 32 ≤ h ∧ h ≤ (a + n - 1) / 32))

/-- Is the 64-octet unit of octet `x` covered whole by a write of `n` octets at `a`. -/
def covers (a n x : Nat) : Bool := decide (a ≤ x / 64 * 64 ∧ x / 64 * 64 + 64 ≤ a + n)

/-- Put octets at rising addresses of a memory map, skipping addresses where `skip` holds. -/
def putOctets (skip : Nat → Bool) : Map Octet → Nat → List Octet → Map Octet
  | m, _, [] => m
  | m, a, o :: l => putOctets skip (if skip a then m else mset 0 m a o) (a + 1) l

/-- Write octets of packet SRAM or HBM: a write of both halves of a unit clears their poison; octets of a narrower
write to a poisoned half are lost, and counted for HBM (15 R325, 12 R414). -/
def devWrite (s : State) (a : Nat) (l : List Octet) : State :=
  let n := l.length
  let lost := fun x => s.mem.poison.contains (x / 32) && !covers a n x
  let s' := { s with mem := { s.mem with
    dev := putOctets lost s.mem.dev a l,
    poison := s.mem.poison.filter (fun h => !covers a n (h * 32)) } }
  if isHbm a && (List.range n).any (fun i => lost (a + i)) then cntAdd s' 0xD8110 1 else s'

/-- Poison the 32-octet half of a device address. -/
def poisonHalf (s : State) (a : Nat) : State :=
  { s with mem := { s.mem with poison := a / 32 :: s.mem.poison.filter (· ≠ a / 32) } }

/-- Octets of a partition's host memory; an octet nothing has written reads zero (DESIGN CHOICE, log entry 8). -/
def hostRead (s : State) (p a n : Nat) : List Octet :=
  (List.range n).map (fun i => mget 0 s.mem.host (p * 2 ^ 64 + (a + i) % 2 ^ 64))

/-- Put octets at wrapping addresses of a partition's host memory. -/
def putHost (p : Nat) : Map Octet → Nat → List Octet → Map Octet
  | m, _, [] => m
  | m, a, o :: l => putHost p (mset 0 m (p * 2 ^ 64 + a % 2 ^ 64) o) (a + 1) l

/-- Write octets of a partition's host memory. No write goes to the function of a partition in reset (14 R316). -/
def hostWrite (s : State) (p a : Nat) (l : List Octet) : State :=
  if inReset s p || !hasHost s p then s
  else { s with mem := { s.mem with host := putHost p s.mem.host a l } }

/-- A CLM word of a logical core (08 Table 08-3). -/
def clmWord (s : State) (core w : Nat) : W36 := mget 0 s.mem.clm (core * 16384 + w)
/-- A CSM word of a cluster. -/
def csmWord (s : State) (c w : Nat) : W36 := mget 0 s.mem.csm (c * 262144 + w)
/-- An instruction-store word of a cluster. -/
def istWord (s : State) (c w : Nat) : W36 := mget 0 s.mem.ist (c * 65536 + w)
/-- Write a CLM word. -/
def setClm (s : State) (core w : Nat) (v : W36) : State :=
  { s with mem := { s.mem with
      clm := mset 0 s.mem.clm (core * 16384 + w) v, clmBad := s.mem.clmBad.filter (· ≠ core * 16384 + w) } }
/-- Write a CSM word. -/
def setCsm (s : State) (c w : Nat) (v : W36) : State :=
  { s with mem := { s.mem with
      csm := mset 0 s.mem.csm (c * 262144 + w) v, csmBad := s.mem.csmBad.filter (· ≠ c * 262144 + w) } }
/-- Write an instruction-store word. -/
def setIst (s : State) (c w : Nat) (v : W36) : State :=
  { s with mem := { s.mem with ist := mset 0 s.mem.ist (c * 65536 + w) v } }

/-- The monitors that are enabled, with W0 of their GAIT_CFG (17 Table 17-3). -/
def gaitOn (s : State) : List (Nat × Nat) :=
  (s.regs.gcfg.filter (fun kv => decide (kv.1 % 4 = 0) && bitOf kv.2.toNat 28)).map (fun kv => (kv.1 / 4, kv.2.toNat))

/-- Give a monitor a sample to take. -/
def gaitQueue (s : State) (m v : Nat) : State :=
  let x := mget {} s.dbg.gait m
  { s with dbg := { s.dbg with gait := mset {} s.dbg.gait m { x with due := x.due ++ [v] } } }

/-- Give a monitor of partition `p`, with its W0, the sample that an event has for it. -/
def gaitGive (p : Nat) (val : Nat → Option Nat) (s : State) (mw : Nat × Nat) : State :=
  match val mw.2 with
  | some v => if monOwner s mw.1 = some p then gaitQueue s mw.1 v else s
  | none => s

/-- An event of partition `p` yields the sample `val w0` to each of its enabled monitors that has one (17 R361). -/
def gaitYield (s : State) (p : Nat) (val : Nat → Option Nat) : State := (gaitOn s).foldl (gaitGive p val) s

/-- The sample of a latency monitor whose end point is reached: from PA to PB, in its domain or in all (17 R361, R362). -/
def latSample (x : Lat) (k t w0 : Nat) : Option Nat :=
  if bitsOf w0 3 0 = 1 ∧ bitsOf w0 9 7 = k ∧ bitsOf w0 6 4 < k ∧ (bitOf w0 22 ∨ bitsOf w0 21 10 = x.dom) then
    (mfind x.pts (bitsOf w0 6 4)).map (fun a => t - a)
  else none

/-- Latency point `k` is reached at time `t` (17 R362). DEDUCED, log entry 91. -/
def latReach (s : State) (x : Lat) (k t : Nat) : State := gaitYield s x.part (latSample x k t)

/-- Is the journal enabled (13 Table 13-15). -/
def jnlEn (s : State) : Bool := flag s 0xC0000 0

/-- Is an audit class recorded: its JNL_CLASS bit, class 0 never (13 R284). -/
def audited (s : State) (cls : Nat) : Bool :=
  jnlEn s && decide (cls ≠ 0) && bitOf (rdDev s (0xC0020 + 4 * (cls / 32))) (cls % 32)

/-- Does the class digest the result (13 R285). -/
def digestsResult (s : State) (cls : Nat) : Bool := bitOf (rdDev s (0xC0040 + 4 * (cls / 32))) (cls % 32)

/-- The fields of a journal record (13 Table 13-11), with its order domain and place (R286), and whether it is a BOLT
record; `lat` are the latency points of its task. -/
structure JRec where
  time : Option Nat := none
  place : Option (Nat × Nat) := none
  bolt : Bool := false
  lat : Option Lat := none
  part : Nat := 0
  disp : Nat := 0
  flags : Nat := 0
  reason : Nat := 0
  cls : Nat := 0
  port : Nat := 0xFF
  dest : Nat := 0
  len : Nat := 0
  ticket : Nat := 0xFFFFFFFFF
  flow : Nat := 0
  tail : List Octet := []

/-- The 64 octets of a journal record (13 Table 13-11). -/
def JRec.octets (r : JRec) : List Octet :=
  beOctets 8 (r.time.getD 0) ++ beOctets 1 r.part ++ beOctets 1 r.disp ++ beOctets 1 r.flags ++ beOctets 1 r.reason ++
    beOctets 1 r.cls ++ beOctets 1 r.port ++ beOctets 2 r.dest ++ beOctets 2 r.len ++ beOctets 5 r.ticket ++
    zeros 1 ++ beOctets 4 r.flow ++ zeros 4 ++ fit 32 r.tail

/-- Take a complete record into the journal's intake (13 R284, R286); the one that fills it begins a hold, which is counted
(R291). Event records, and those of what a reset discards, stand behind a full intake. DEDUCED, log entry 113. -/
def jnlPut (s : State) (r : JRec) : State :=
  if jnlEn s then
    let x : JPend := ⟨({ r with time := some (r.time.getD (tai s)) } : JRec).octets, r.place, r.bolt, r.lat⟩
    let l := s.jnl.intake ++ [x]
    let s := { s with jnl := { s.jnl with intake := l } }
    if l.length = 65536 then cntAdd s 0xC0128 1 else s
  else s

/-- An event record (13 R287): zero TICKET and FLOW. -/
def jnlEvent (s : State) (disp part flags : Nat) (port : Nat) (detail : List Octet) : State :=
  jnlPut s { disp := disp, part := part, flags := flags, port := port, ticket := 0, tail := detail }

/-- Does the next block lack a slot: all 16,320 hold blocks not yet exported (13 R292, R293). -/
def jnlNoSlot (s : State) : Bool := s.jnl.opened.isEmpty && decide (16320 ≤ s.jnl.sealed.length)

/-- Does a full region discard its oldest block: FULL = 1, which acts as 0 under the audit lock (13 R293). -/
def jnlOverwrites (s : State) : Bool := flag s 0xC0000 1 && !auditLocked s

/-- Is an audited disposition held: the intake is full, or stopped for want of a slot (13 R291, R293). -/
def jnlFull (s : State) : Bool :=
  jnlEn s && (decide (65536 ≤ s.jnl.intake.length) || (jnlNoSlot s && !jnlOverwrites s))

/-- The time a hash lane needs beyond what the dispatch of a task hides, in ns (13 R285). -/
def digestTime (n : Nat) : Nat := (16 * (n - 1024) + 99) / 100

/-- First octet of the journal region (13 R292, Table 13-17). DESIGN CHOICE on BASE above 15, log entry 113. -/
def jnlBase (s : State) : Nat := fld s 0xC0004 3 0 * 2 ^ 30

/-- The journal record of a final disposition of an item, when its class is audited (01 R12); `time` is the time of the
disposition when it is not now, `place` its order domain and place, `lat` its latency points. The digest is of the
input, or of the result (13 R285). -/
def jnlItemAt (s : State) (time : Option Nat) (place : Option (Nat × Nat)) (lat : Option Lat) (it : Item) (disp dest ticket : Nat)
    (slow : Bool) (reason : Nat) (result : Option (List Octet)) : State :=
  if audited s it.audit then
    let useRes := digestsResult s it.audit && result.isSome
    let body := if useRes then result.getD [] else it.digest
    jnlPut s {
      time := time, place := place, lat := lat, part := it.part, disp := disp, reason := reason, cls := it.audit,
      flags := b2n it.hobble + 2 * b2n slow + 4 * b2n useRes,
      port := if it.kind = 3 then 0xFF else it.port, dest := dest,
      len := if useRes then body.length else it.len,
      ticket := ticket, flow := it.flow, tail := sha256 body }
  else s

/-- A journal record of a disposition made now. -/
def jnlItem (s : State) (it : Item) (disp dest ticket : Nat) (slow : Bool) (reason : Nat)
    (result : Option (List Octet)) : State := jnlItemAt s none none none it disp dest ticket slow reason result

/-- The next place among the dispositions of order domains, and the state (13 R286). -/
def nextPlace (s : State) (d : Nat) : (Nat × Nat) × State :=
  ((d, s.jnl.placeNo), { s with jnl := { s.jnl with placeNo := s.jnl.placeNo + 1 } })

end Sys2Proof.Machine
end

