-- ==== Sys2Proof/Machine/Complete.lean ====
section
/-! DEFINITION. Rings as the part sees them, and the completion of a host command (14 R300-R302, R306, R309). -/

namespace Sys2Proof.Machine

/-- The part's state of a ring. -/
def ringSt (s : State) (r : Nat) : Ring := mget {} s.gpl.rings r

/-- Store the part's state of a ring. -/
def setRing (s : State) (r : Nat) (x : Ring) : State := { s with gpl := { s.gpl with rings := mset {} s.gpl.rings r x } }

/-- SIZE of a ring (14 R300). -/
def ringSize (s : State) (r : Nat) : Nat := 2 ^ (6 + min 10 (bitsOf (rdRing s r 2) 3 0))

/-- Host base address of a ring. -/
def ringBase (s : State) (r : Nat) : Nat := rdRing s r 0 / 256 * 256 + rdRing s r 1 * 2 ^ 32

/-- The completion ring a ring names. -/
def ringCq (s : State) (r : Nat) : Nat := bitsOf (rdRing s r 2) 22 11

/-- DMA priority of a ring (14 R313). -/
def ringPrio (s : State) (r : Nat) : Nat := bitsOf (rdRing s r 2) 10 9

/-- Does the ring name an enabled completion ring of its own partition (14 R300). -/
def cqUsable (s : State) (r : Nat) : Bool :=
  let q := ringCq s r
  ringEn s q && decide (ringKind s q = 9) && decide (ringOwner s q = ringOwner s r) && (ringOwner s q).isSome

/-- Free entries of a completion ring that no reservation holds (14 R301, R306). -/
def cqFree (s : State) (q : Nat) : Nat :=
  let x := ringSt s q
  let size := ringSize s q
  let used := (x.pidx + 2 * size - x.hidx) % (2 * size)
  size - used - x.resv

/-- Reserve an entry of the completion ring of `r`. -/
def cqReserve (s : State) (r : Nat) : State :=
  let q := ringCq s r
  setRing s q { ringSt s q with resv := (ringSt s q).resv + 1 }

/-- Queue a completion entry on the completion ring of `r` (14 R309). -/
def cqPush (s : State) (r : Nat) (e : Compl) : State :=
  let q := ringCq s r
  setRing s q { ringSt s q with compl := (ringSt s q).compl ++ [e] }

/-- Complete a host command: queue its entry in the place reserved for it. Completions of a partition in reset are
discarded (14 R316). -/
def complete (s : State) (c : CmdRef) (status kind result len : Nat) (detail : List Octet) : State :=
  let r := c.ring.toNat
  if inReset s c.part.toNat then s
  else cqPush s r {
    status := status, kind := kind, ring := r, tag := c.tag.toNat, slot := c.slot.toNat, result := result,
    len := len, detail := fit 12 detail, reserved := (ringSt s r).outst.contains c.slot.toNat }

/-- Complete a command of a COMMAND or SERVICE ring (14 Table 14-10). -/
def finish (s : State) (c : CmdRef) (opc status result len : Nat) : State :=
  complete s c status (if ringKind s c.ring.toNat = 3 then 0x09 else 0x01) result len (beOctets 1 opc)

/-- A ring of the required kind, enabled and owned by the partition (14 R312). -/
def ringUsable (s : State) (p r kind : Nat) : Bool :=
  ringEn s r && decide (ringKind s r = kind) && decide (ringOwner s r = some p)

end Sys2Proof.Machine
end

