-- ==== Sys2Proof/Machine/Buffers.lean ====
section
/-! DEFINITION. Buffer pools, tags and the buffer operations (12 R248-R260), and the flow control that follows ingress
usage (02 R31). -/

namespace Sys2Proof.Machine

/-- The null pointer (12 R249). -/
def nullPtr : Nat := 0xFFFFFFFFF

/-- Agent ID of the pool agent (17 Table 17-1). -/
def poolAgent : Nat := 0x8002
/-- Agent ID of the Halter. -/
def halterAgent : Nat := 0x8003
/-- Agent ID of the stream framer. -/
def framerAgent : Nat := 0x8004
/-- Agent ID of egress. -/
def egressAgent : Nat := 0x8006
/-- Agent ID of a port. -/
def portAgent (p : Nat) : Nat := 0x8100 + p
/-- Agent ID of the DMA engine that serves a partition: that of its host port (17 Table 17-1). -/
def dmaAgent (s : State) (p : Nat) : Nat := 0x8010 + funcOf s p / 2

/-- Is the agent an internal agent (00 Table 00-4). -/
def isInternal (a : Nat) : Bool := decide (a / 16384 = 2)

/-- The partition of an agent: the owner of a thread's cluster, or a host's partition; none for an internal agent. -/
def agentPart (s : State) (a : Nat) : Option Nat :=
  match a / 16384 with
  | 0 => clusterOwner s (a / 1024 % 16)
  | 1 => some (a % 8)
  | _ => none

/-- Internal agent numbers of 17 Table 17-1 that a GIVE may name: every one but the pool agent (R252). -/
def givable (a : Nat) : Bool :=
  let n := a % 16384
  isInternal a && (decide (n ≤ 8 ∧ n ≠ 2) || decide (0x10 ≤ n ∧ n ≤ 0x13) || decide (0x20 ≤ n ∧ n ≤ 0x30) ||
    decide (0x40 ≤ n ∧ n ≤ 0x59) || decide (0x100 ≤ n ∧ n ≤ 0x17F))

/-- Is the agent ID that of a thread or a host, with its reserved bits zero (00 Table 00-4). -/
def isAgentId (a : Nat) : Bool :=
  (decide (a / 16384 = 0) && decide (a % 8 = 0)) || (decide (a / 16384 = 1) && decide (a % 16384 < 8)) || givable a

/-- COUNT of a pool. -/
def poolCount (s : State) (k : Nat) : Nat := fld s (0x90404 + 16 * k) 22 0
/-- Buffer size of a pool: 2^LOG2SIZE, 8 to 14. -/
def poolSize (s : State) (k : Nat) : Nat := 2 ^ max 8 (min 14 (fld s (0x90404 + 16 * k) 26 23))
/-- Is the pool a run pool (R258). -/
def poolRun (s : State) (k : Nat) : Bool := flag s (0x90404 + 16 * k) 27
/-- First octet of a pool. -/
def poolBase (s : State) (k : Nat) : Nat := fld s (0x90400 + 16 * k) 27 0 * 256
/-- Recovery reserve of a pool. -/
def poolReserve (s : State) (k : Nat) : Nat := fld s (0x90408 + 16 * k) 27 5
/-- An enabled pool with a COUNT (R248: COUNT 0 acts as disabled). -/
def poolLive (s : State) (k : Nat) : Bool := poolEn s k && decide (poolCount s k ≠ 0)

/-- The enabled pool an address lies in. -/
def poolAt (s : State) (a : Nat) : Option Nat :=
  lowest 64 (fun k => poolLive s k && decide (poolBase s k ≤ a ∧ a < poolBase s k + poolCount s k * poolSize s k))

/-- The tag of a buffer (12 Table 12-1). -/
def bufTag (s : State) (a : Nat) : BufTag := mget {} s.buf.tags a

/-- Store a tag. -/
def setTag (s : State) (a : Nat) (t : BufTag) : State := { s with buf := { s.buf with tags := mset {} s.buf.tags a t } }

/-- Is an address inside an allocated run, past its first cell (R249). -/
def insideRun (s : State) (k a : Nat) : Bool :=
  poolRun s k && (List.range 35).any (fun j =>
    let b := a - 256 * (j + 1)
    decide (poolBase s k + 256 * (j + 1) ≤ a) && (bufTag s b).alloc && decide (j + 1 < (bufTag s b).run))

/-- Ordinal of a buffer across the HBM pools in pool order (R250). -/
def hbmOrdinal (s : State) (k a : Nat) : Nat :=
  ((List.range k).filter (fun j => poolLive s j && isHbm (poolBase s j))).foldl (fun n j => n + poolCount s j)
    ((a - poolBase s k) / poolSize s k)

/-- Does the stored tag of a buffer fail correction (R250): the octets of an HBM buffer's at BUF_TAGBASE are poisoned, or
a packet SRAM buffer's on die is in error. -/
def tagBad (s : State) (k a : Nat) : Bool :=
  s.buf.badTags.contains a ||
    (isHbm (poolBase s k) && devPoisoned s (fld s 0x90000 27 0 * 256 + 8 * hbmOrdinal s k a) 8)

/-- Is buffer or cell `a` of pool `k` free: not allocated, not quarantined, not inside a run. -/
def bufFree (s : State) (k a : Nat) : Bool :=
  !(bufTag s a).alloc && !(bufTag s a).quar && !insideRun s k a

/-- Buffers of a pool that are allocated or quarantined, by the tags listed. -/
def poolTaken (s : State) (k : Nat) : Nat :=
  let b := poolBase s k
  let e := b + poolCount s k * poolSize s k
  s.buf.tags.foldl (fun n at_ =>
    if b ≤ at_.1 ∧ at_.1 < e then
      n + (if at_.2.alloc then (if poolRun s k then at_.2.run else 1) else if at_.2.quar then 1 else 0)
    else n) 0

/-- Free buffers of a pool, BUF_FREE. -/
def poolFree (s : State) (k : Nat) : Nat := if poolLive s k then poolCount s k - poolTaken s k else 0

/-- The lowest-addressed run of `n` free cells within one group of 64 (R255, R259). -/
def findRun (s : State) (k n : Nat) : Option Nat :=
  (lowest (min (poolCount s k) (64 * (poolTaken s k + 1)))
    (fun i => decide (i % 64 + n ≤ 64 ∧ i + n ≤ poolCount s k) &&
      (List.range n).all (fun j => bufFree s k (poolBase s k + (i + j) * poolSize s k)))).map
    (fun i => poolBase s k + i * poolSize s k)

/-- The lowest-addressed free buffer of a pool. -/
def findBuf (s : State) (k : Nat) : Option Nat :=
  (lowest (min (poolCount s k) (poolTaken s k + 1)) (fun i => bufFree s k (poolBase s k + i * poolSize s k))).map
    (fun i => poolBase s k + i * poolSize s k)

/-- Quarantine a buffer (R250). -/
def quarantine (s : State) (a : Nat) : State := setTag s a { bufTag s a with quar := true }

/-- What the check of a pointer answers (R249, R250): its pool, a pointer that fails, or one that fails only because
its buffer is quarantined. -/
inductive PtrCheck where
  | ok (pool : Nat)
  | bad
  | quarantined (pool : Nat)
  deriving DecidableEq, Repr

/-- Check a buffer pointer, finding a tag error on the way (R249, R250). -/
def ptrCheck (s : State) (a : Nat) : PtrCheck × State :=
  match poolAt s a with
  | none => (.bad, s)
  | some k =>
    if (a - poolBase s k) % poolSize s k ≠ 0 then (.bad, s)
    else if insideRun s k a then (.bad, s)
    else if (bufTag s a).quar then (.quarantined k, s)
    else if tagBad s k a then (.quarantined k, quarantine s a)
    else (.ok k, s)

/-- Is a pointer valid (R249). -/
def ptrValid (s : State) (a : Nat) : Bool :=
  match (ptrCheck s a).1 with
  | .ok _ => true
  | _ => false

/-- Octets of the buffer a pointer names: its pool's size, or its run (R258). -/
def bufSize (s : State) (a : Nat) : Nat :=
  match poolAt s a with
  | some k => if poolRun s k then (bufTag s a).run * 256 else poolSize s k
  | none => 0

/-- Count in BUF_CNT of a partition (12 Table 12-10). -/
def bufCnt (s : State) (p k : Nat) : State := pcnt s 0x90800 0x40 p k 1

/-- Count in BUF_CNT against the agent's partition, if it has one. -/
def bufCntAgent (s : State) (agent k : Nat) : State :=
  match agentPart s agent with
  | some p => bufCnt s p k
  | none => s

/-- Count in BUF_CNT against the agent's partition, or the pool owner's for an internal agent (R250). -/
def bufCntPool (s : State) (agent pool k : Nat) : State :=
  match agentPart s agent with
  | some p => bufCnt s p k
  | none => match poolOwner s pool with
    | some p => bufCnt s p k
    | none => s

/-- Log a violation against the agent's partition. -/
def agentViolate (s : State) (agent kind res : Nat) : State :=
  match agentPart s agent with
  | some p => violate s p kind agent res 0
  | none => s

/-- PRT_CFG of a port (02 Table 02-5). -/
def prtCfg (s : State) (p : Nat) : Nat := rdDev s (0x18000 + 0x100 * p)
/-- MAXLEN of a port in force: 64 to 9,216. -/
def maxLen (s : State) (p : Nat) : Nat := max 64 (min 9216 (bitsOf (prtCfg s p) 15 2))
/-- A port's state. -/
def portSt (s : State) (p : Nat) : Port := mget {} s.prt.ports p
/-- Store a port's state. -/
def setPort (s : State) (p : Nat) (x : Port) : State := { s with prt := { s.prt with ports := mset {} s.prt.ports p x } }
/-- Add to a port counter (02 Table 02-7). -/
def portCnt (s : State) (p k n : Nat) : State := cntAdd s (0x18080 + 0x100 * p + 8 * k) n

/-- Ingress cells in use of a port, of one class or of all (02 R30, R31). -/
def ingressUse (s : State) (p : Nat) (cls : Option Nat) : Nat :=
  s.buf.tags.foldl (fun n at_ =>
    match at_.2.origin with
    | some (q, c) => if at_.2.alloc ∧ q = p ∧ (cls = none ∨ cls = some c) then n + at_.2.run else n
    | none => n) 0

/-- The mode of a port's quad (02 Table 02-1). -/
def quadMode (s : State) (p : Nat) : Nat := fld s (0x10000 + 4 * (p / 4)) 1 0

/-- Is the port in near-end loopback (02 R415). -/
def portLoop (s : State) (p : Nat) : Bool := bitOf (prtCfg s p) 1

/-- Nanoseconds of a pause time at the port's rate: a quantum is 512 bit times. -/
def pauseNs (s : State) (p quanta : Nat) : Nat :=
  let u := match quadMode s p with
    | 1 => 51200
    | 2 => 5120
    | _ => 2048
  cdiv (quanta * u) 100

/-- A received pause time of the port, or of a PFC class, takes effect; quanta 0 ends it (02 R32). -/
def pauseAct (s : State) (p : Nat) (cls : Option Nat) (quanta : Nat) : State :=
  let x := portSt s p
  let until_ := s.now + pauseNs s p quanta
  setPort s p (match cls with
    | none => { x with pauseUntil := if quanta = 0 then none else some until_ }
    | some c => { x with pfcUntil := if quanta = 0 then mdel x.pfcUntil c else mput x.pfcUntil c until_ })

/-- Send PAUSE (`key` 8) or PFC of class `key` with a pause time (02 R31): to the link partner, or in loopback to the
port's own receive path, which counts it (02 R415). -/
def pauseSend (s : State) (p key quanta : Nat) : State :=
  let cls := if key = 8 then none else some key
  let x := portSt s p
  let s := setPort s p { x with
    xoff := mset false x.xoff key (decide (quanta ≠ 0)), lastPause := mset 0 x.lastPause key s.now }
  let s := portCnt s p 10 1
  if portLoop s p then portCnt (pauseAct s p cls quanta) p 9 1
  else { s with out := s.out ++ [.pause p cls quanta] }

/-- Does PRT_CFG.FC call for flow control by `key`: 8 for PAUSE, a class for PFC (02 R31, Table 02-5). -/
def pauseInUse (s : State) (p key : Nat) : Bool :=
  match bitsOf (prtCfg s p) 17 16 with
  | 1 => decide (key = 8)
  | 2 => decide (key < 8)
  | _ => false

/-- Assert or release flow control of one class (or of the port, `key` 8) as its usage stands (02 R31). -/
def pauseKey (s : State) (p key : Nat) : State :=
  let use := ingressUse s p (if key = 8 then none else some key)
  let fc := rdDev s (0x18008 + 0x100 * p)
  if mget false (portSt s p).xoff key then
    if use < bitsOf fc 31 16 then pauseSend s p key 0 else s
  else if bitsOf fc 15 0 ≤ use then pauseSend s p key 0xFFFF else s

/-- Flow control of a port after its ingress usage changed (02 R31); none in device Bolt (16 R343). -/
def pauseCheck (s : State) (p : Nat) : State :=
  if s.hkc.dbolt || !(portSt s p).linkUp then s
  else match bitsOf (prtCfg s p) 17 16 with
    | 1 => pauseKey s p 8
    | 2 => (List.range 8).foldl (fun s c => pauseKey s p c) s
    | _ => s

/-- Return a buffer to the bitmap, all cells of a run with it (R255, R258). -/
def freeBuf (s : State) (a : Nat) : State :=
  let t := bufTag s a
  let s := setTag s a { quar := t.quar }
  match t.origin with
  | some (p, _) => pauseCheck s p
  | none => s

/-- Drop a share: the last one frees a buffer the pool agent owns (R251, R252). -/
def dropShareOf (s : State) (a : Nat) : State :=
  let t := bufTag s a
  let s' := setTag s a { t with shares := t.shares - 1 }
  if t.shares = 1 ∧ t.owner = poolAgent then freeBuf s' a else s'

/-- An operation of an internal agent on an allocated buffer, when `may` holds of its tag; refused, or on a pointer that
fails R249, it changes nothing and is counted in BUF_CNT `k` of the pool's owner (R250, R251). An internal agent has no
partition whose violation log could count it (17 R365). DEDUCED, log entry 111. -/
def intBufOp (s : State) (agent a k : Nat) (may : BufTag → Bool) (op : State → State) : State :=
  match ptrCheck s a with
  | (.ok j, s) => if (bufTag s a).alloc && may (bufTag s a) then op s else bufCntPool s agent j k
  | (.quarantined j, s) => bufCntPool s agent j 4
  | (.bad, s) => match poolAt s a with
    | some j => bufCntPool s agent j k
    | none => s

/-- An internal agent ends its use of a buffer it owns: freed when no share is left, else handed to the pool agent
(R252); a buffer reclaimed meanwhile is left alone (R269). -/
def endUse (s : State) (agent a : Nat) : State :=
  intBufOp s agent a 3 (fun t => decide (t.owner = agent)) (fun s =>
    if (bufTag s a).shares = 0 then freeBuf s a else setTag s a { bufTag s a with owner := poolAgent })

/-- An internal agent hands a buffer it owns to another (R251). -/
def passBuf (s : State) (a from_ to_ : Nat) : State :=
  intBufOp s from_ a 4 (fun t => decide (t.owner = from_)) (fun s => setTag s a { bufTag s a with owner := to_ })

/-- An internal agent takes a share of a buffer (R251). -/
def shareInt (s : State) (a : Nat) : State :=
  intBufOp s framerAgent a 4 (fun t => decide (t.shares < 4095)) (fun s =>
    setTag s a { bufTag s a with shares := (bufTag s a).shares + 1 })

/-- An internal agent drops a share of a buffer (R251, R252). -/
def dropShare (s : State) (a : Nat) : State :=
  intBufOp s framerAgent a 4 (fun t => decide (t.shares ≠ 0)) (fun s => dropShareOf s a)

/-- Try to take the lowest free buffer, quarantining each whose tag fails (R250): `fuel` tries. -/
def takeBuf (agent : Nat) : Nat → State → Nat → Option Nat × State
  | 0, s, _ => (none, s)
  | fuel + 1, s, k =>
    match findBuf s k with
    | none => (none, s)
    | some a =>
      if tagBad s k a then takeBuf agent fuel (quarantine s a) k
      else (some a, setTag s a { owner := agent, alloc := true })

/-- ALLOC (12 Table 12-2, R255-R257): status, pointer and state. `holdFull` says that a thread's hold list is full;
`recov` that a supervisor drew on the reserve. -/
def bufAlloc (s : State) (agent pool : Nat) (holdFull recov : Bool) : Nat × Nat × State :=
  let mine := isInternal agent || (decide (agentPart s agent = poolOwner s pool) && (poolOwner s pool).isSome)
  if !(decide (pool < 64) && poolLive s pool && mine) then
    let s := bufCntAgent s agent 4
    let foreign := decide (pool < 64) && (poolOwner s pool).isSome && !mine
    (0xA6, nullPtr, if foreign then agentViolate s agent 6 pool else s)
  else if holdFull then (0xA9, nullPtr, bufCntAgent s agent 4)
  else
    let low := decide (poolFree s pool < poolReserve s pool + 1)
    if low && !recov then (0xA0, nullPtr, bufCntAgent s agent 1)
    else match takeBuf agent (8 * s.mem.poison.length + 1) s pool with
      | (none, s) => (0xA0, nullPtr, bufCntAgent s agent 1)
      | (some a, s) =>
        let s := { s with buf := { s.buf with winner := mset 0 s.buf.winner pool agent } }
        let s := bufCntAgent s agent 0
        (0, a, if low then bufCntAgent s agent 2 else s)

/-- An operation whose pointer failed R249: counted, and logged unless only quarantine failed it (R250, R251). -/
def badPointer (s : State) (agent : Nat) (chk : PtrCheck) (free : Bool) : Nat × State :=
  match chk with
  | .quarantined k => (0xA1, bufCntPool s agent k 4)
  | _ => (0xA1, agentViolate (bufCntAgent s agent (if free then 3 else 4)) agent 8 0)

/-- May the agent SHARE or DROP the buffer (12 Table 12-2). -/
def mayShare (s : State) (agent k a : Nat) : Bool :=
  isInternal agent || decide (agent = (bufTag s a).owner) ||
    ((agentPart s agent).isSome &&
      (decide (agentPart s agent = poolOwner s k) || decide (agentPart s agent = agentPart s (bufTag s a).owner)))

/-- Refuse for want of ownership: counted, and logged as FOREIGN when the agent's partition owns neither the pool nor
the buffer (R251, 01 R17). -/
def notOwner (s : State) (agent k a : Nat) : Nat × State :=
  let s' := bufCntAgent s agent 4
  (0xA2, if mayShare s agent k a then s' else agentViolate s' agent 6 k)

/-- SHARE (12 Table 12-2): status and state. -/
def bufShare (s : State) (agent a : Nat) : Nat × State :=
  match ptrCheck s a with
  | (.ok k, s) =>
    let t := bufTag s a
    if !t.alloc then (0xA4, bufCntAgent s agent 4)
    else if !mayShare s agent k a then notOwner s agent k a
    else if t.shares = 4095 then (0xA7, bufCntAgent s agent 4)
    else (0, setTag s a { t with shares := t.shares + 1 })
  | (c, s) => badPointer s agent c false

/-- DROP (12 Table 12-2): status and state. -/
def bufDrop (s : State) (agent a : Nat) : Nat × State :=
  match ptrCheck s a with
  | (.ok k, s) =>
    let t := bufTag s a
    if !t.alloc then (0xA4, bufCntAgent s agent 4)
    else if !mayShare s agent k a then notOwner s agent k a
    else if t.shares = 0 then (0xA5, bufCntAgent s agent 4)
    else (0, dropShareOf s a)
  | (c, s) => badPointer s agent c false

/-- May the owner GIVE the buffer to the target (12 Table 12-2). -/
def mayGive (s : State) (agent k target : Nat) : Bool :=
  if isInternal target then (if isInternal agent then decide (target = poolAgent) || givable target else givable target)
  else isAgentId target && (agentPart s target).isSome &&
    (decide (agentPart s target = poolOwner s k) || decide (agentPart s target = agentPart s agent))

/-- GIVE (12 Table 12-2): status and state. `targetFull` says that the target task's hold list is full. -/
def bufGive (s : State) (agent a target : Nat) (targetFull : Bool) : Nat × State :=
  match ptrCheck s a with
  | (.ok k, s) =>
    let t := bufTag s a
    if !t.alloc then (0xA4, bufCntAgent s agent 4)
    else if agent ≠ t.owner then notOwner s agent k a
    else if !mayGive s agent k target then (0xA8, bufCntAgent s agent 4)
    else if targetFull then (0xA9, bufCntAgent s agent 4)
    else (0, setTag s a { t with owner := target })
  | (c, s) => badPointer s agent c false

/-- FREE (12 Table 12-2): status and state. -/
def bufFreeOp (s : State) (agent a : Nat) : Nat × State :=
  match ptrCheck s a with
  | (.ok _, s) =>
    let t := bufTag s a
    let ignored := agentViolate (bufCntAgent s agent 3) agent 8 0
    if !t.alloc then (0xA4, ignored)
    else if agent ≠ t.owner then (0xA2, ignored)
    else if t.shares ≠ 0 then (0xA3, ignored)
    else (0, freeBuf s a)
  | (c, s) => badPointer s agent c true

/-- The 8 octets of a tag (12 Table 12-1). -/
def tagOctets (t : BufTag) : List Octet :=
  beOctets 8 (t.owner + t.shares * 2 ^ 16 + t.run * 2 ^ 28 + b2n t.alloc * 2 ^ 34 + b2n t.quar * 2 ^ 35)

end Sys2Proof.Machine
end

