-- ==== Sys2Proof/Machine/Tasks.lean ====
section
/-! DEFINITION. Threads, contexts, save slots and tasks: how they are read and changed, and the effective priority
that inheritance gives a task (08 R162, R175; 07 R155; 11 R232). -/

namespace Sys2Proof.Machine

/-- A thread. -/
def thr (s : State) (t : Nat) : Thread := mget {} s.thr.threads t

/-- Store a thread. -/
def setThr (s : State) (t : Nat) (x : Thread) : State :=
  { s with thr := { s.thr with threads := mset {} s.thr.threads t x } }

/-- Change a thread. -/
def updThr (s : State) (t : Nat) (f : Thread → Thread) : State := setThr s t (f (thr s t))

/-- The save slot with a number: logical core * 16 + slot. -/
def slotSt (s : State) (k : Nat) : Option Saved := mfind s.thr.slots k

/-- Fill a save slot. -/
def putSlot (s : State) (k : Nat) (x : Saved) : State := { s with thr := { s.thr with slots := mput s.thr.slots k x } }

/-- Empty a save slot. -/
def delSlot (s : State) (k : Nat) : State := { s with thr := { s.thr with slots := mdel s.thr.slots k } }

/-- A task. -/
def taskSt (s : State) (id : Nat) : Option TaskSt := mfind s.thr.tasks id

/-- Store a task. -/
def putTask (s : State) (id : Nat) (x : TaskSt) : State := { s with thr := { s.thr with tasks := mput s.thr.tasks id x } }

/-- Change a task, when it exists. -/
def updTask (s : State) (id : Nat) (f : TaskSt → TaskSt) : State :=
  match taskSt s id with
  | some x => putTask s id (f x)
  | none => s

/-- A G register: G0 reads zero (08 Table 08-2). -/
def Ctx.g (c : Ctx) (i : Nat) : W36 := if i = 0 then 0 else mget 0 c.regs i

/-- A context with a G register written; a write of G0 is discarded (09 R184). -/
def Ctx.setG (c : Ctx) (i : Nat) (v : W36) : Ctx := if i = 0 then c else { c with regs := mset 0 c.regs i v }

/-- A predicate: P0 is always true. -/
def Ctx.pd (c : Ctx) (i : Nat) : Bool := i = 0 || c.preds.toNat / 2 ^ i % 2 == 1

/-- A context with a predicate written; a write of P0 is discarded (09 R186). -/
def Ctx.setP (c : Ctx) (i : Nat) (b : Bool) : Ctx :=
  if i = 0 then c else { c with preds := BitVec.ofNat 8 (setBit c.preds.toNat i b) }

/-- Octets of a context's packet window. -/
def Ctx.winRead (c : Ctx) (off n : Nat) : List Octet := (List.range n).map (fun i => mget 0 c.win (off + i))

/-- A context with octets of the window written; octets past 511 are dropped. -/
def Ctx.winWrite (c : Ctx) (off : Nat) (l : List Octet) : Ctx :=
  { c with win := putOctets (fun a => decide (512 ≤ a)) c.win off l }

/-- What a late result writes. -/
def Ctx.landOne (c : Ctx) (l : LateTarget) : Ctx :=
  match l with
  | .reg rd v => c.setG rd v
  | .tk v => { c with tk := v }
  | .mq v => { c with mq := v }

/-- One turn of the thread passes: late results whose turn has come become readable (08 R161). -/
def Ctx.turn (c : Ctx) : Ctx :=
  let c' := (c.late.filter (fun l => decide (l.turns ≤ 1))).foldl (fun c l => c.landOne l.what) c
  { c' with late := (c.late.filter (fun l => decide (1 < l.turns))).map (fun l => { l with turns := l.turns - 1 }) }

/-- Every late result lands: the thread has had its turns. -/
def Ctx.landAll (c : Ctx) : Ctx := { c.late.foldl (fun c l => c.landOne l.what) c with late := [] }

/-- A result readable only `n` turns after issue. -/
def Ctx.addLate (c : Ctx) (n : Nat) (l : LateTarget) : Ctx := { c with late := c.late ++ [⟨n, l⟩] }

/-- A context with event bits set. -/
def Ctx.setEv (c : Ctx) (m : Nat) : Ctx := { c with ev := c.ev ||| BitVec.ofNat 36 m }

/-- A context with event bits cleared. -/
def Ctx.clrEv (c : Ctx) (m : Nat) : Ctx := { c with ev := c.ev &&& ~~~(BitVec.ofNat 36 m) }

/-- The physical core of a logical core: cluster * 9 + n, the ninth being the spare (16 R350). -/
def physOf (s : State) (l : Nat) : Nat := mget (l / 8 * 9 + l % 8) s.far.phys l

/-- IMODE of a thread's logical core (08 Table 08-15). -/
def imode (s : State) (t : Nat) : Bool := flag s (0x70200 + 4 * (t / 16)) 0

/-- Is a routine under way on a thread that no asynchronous event may interrupt: BOUNDARY (10 R216). -/
def inBoundary (s : State) (t : Nat) : Bool := (thr s t).routine.isSome && !imode s t

/-- The context at a place; a save slot that is empty reads as a blank context. -/
def ctxAt (s : State) (r : CtxRef) : Ctx :=
  if r.saved then ((slotSt s r.idx.toNat).map (·.ctx)).getD {} else (thr s r.idx.toNat).ctx

/-- Change the context at a place; an empty save slot stays empty. -/
def updCtxAt (s : State) (r : CtxRef) (f : Ctx → Ctx) : State :=
  if r.saved then
    match slotSt s r.idx.toNat with
    | some x => putSlot s r.idx.toNat { x with ctx := f x.ctx }
    | none => s
  else updThr s r.idx.toNat (fun x => { x with ctx := f x.ctx })

/-- Change the context of the task on a thread. -/
def updCtx (s : State) (t : Nat) (f : Ctx → Ctx) : State := updThr s t (fun x => { x with ctx := f x.ctx })

/-- Change a task's context, on its thread or in its save slot; a deferred task has none (DEDUCED, log entry 16). -/
def updTaskCtx (s : State) (id : Nat) (f : Ctx → Ctx) : State :=
  match taskSt s id with
  | some x =>
    match x.loc with
    | .thread t => updCtx s t f
    | .slot k =>
      match slotSt s k with
      | some sv => putSlot s k { sv with ctx := f sv.ctx }
      | none => s
    | .deferred => s
  | none => s

/-- Set event bits of a task, on its thread or in its slot (11 R244). -/
def taskEv (s : State) (id m : Nat) : State := updTaskCtx s id (fun c => c.setEv m)

/-- The task on a thread. -/
def thrTask (s : State) (t : Nat) : Option Nat := (thr s t).ctx.task

/-- The lowest free save slot of a logical core. -/
def freeSlot (s : State) (core : Nat) : Option Nat :=
  (lowest 16 (fun k => (slotSt s (core * 16 + k)).isNone)).map (fun k => core * 16 + k)

/-- Does the thread's cluster run tasks: enabled and assigned (08 Table 08-14). -/
def thrLive (s : State) (t : Nat) : Bool := clusterEn s (t / 128) && (clusterOwner s (t / 128)).isSome

/-- HSP_CNT of a partition (11 Table 11-12). -/
def hspCnt (s : State) (p k : Nat) : State := pcnt s 0x80400 0x40 p k 1
/-- CHN_CNT of a partition. -/
def chnCnt (s : State) (p k : Nat) : State := pcnt s 0x80600 0x40 p k 1
/-- HLT_CNT of a partition (07 Table 07-14). -/
def hltCnt (s : State) (p k : Nat) : State := pcnt s 0x60400 0x40 p k 1
/-- SCH_CNT of a partition. -/
def schCnt (s : State) (p k : Nat) : State := pcnt s 0x60600 0x40 p k 1
/-- CORE_CNT of a partition (08 Table 08-16). -/
def coreCnt (s : State) (p k : Nat) : State := pcnt s 0x70A00 0x40 p k 1
/-- MCS_CNT of a partition (10 Table 10-8). -/
def mcsCnt (s : State) (p k : Nat) : State := pcnt s 0x70C00 0x40 p k 1

/-- Count in MCS_CNT against the partition of a thread. -/
def mcsThr (s : State) (t k : Nat) : State :=
  match thrPart s t with
  | some p => mcsCnt s p k
  | none => s

/-- An asynchronous event ends the routine a thread runs: it keeps what is committed, and counts (10 R217). -/
def abandonRoutine (s : State) (t : Nat) : State :=
  if (thr s t).routine.isSome then mcsThr (updThr s t (fun x => { x with routine := none })) t 1 else s

/-- The threads of a logical core. -/
def coreThreads (l : Nat) : List Nat := (List.range 16).map (fun i => l * 16 + i)

/-- Is a logical core stopped for a swap or a patch write while the routines it still runs end (16 Table 16-6, 10 R223). -/
def coreHeld (s : State) (l : Nat) : Bool := s.far.draining.any (fun x => decide (x.1 = l)) || s.far.loadDrain.contains l

/-- Has every routine of a logical core ended that BOUNDARY lets end (10 R216, Table 10-4). -/
def coreDrained (s : State) (l : Nat) : Bool := (coreThreads l).all (fun t => !inBoundary s t)

/-- Every thread of a drained core stops under IMODE: RESTART routines are abandoned at their last commit (10 R217). -/
def coreStop (s : State) (l : Nat) : State := (coreThreads l).foldl abandonRoutine s

/-- An asynchronous event becomes pending for a thread: it is deferred, and counted once for a routine, while one runs
under BOUNDARY (10 R216, Table 10-8). -/
def noteDeferral (s : State) (t : Nat) : State :=
  match (thr s t).routine with
  | some r =>
    if !imode s t && !r.deferred then mcsThr (updThr s t (fun x => { x with routine := some { r with deferred := true } })) t 5
    else s
  | none => s

/-- A lock record. -/
def lock (s : State) (k : Nat) : Lock := mget {} s.hsp.locks k

/-- Store a lock record. -/
def setLock (s : State) (k : Nat) (l : Lock) : State := { s with hsp := { s.hsp with locks := mset {} s.hsp.locks k l } }

/-- Values signalled to a holder task by the waiters of the locks it holds (11 R232). -/
def signalled (s : State) (id : Nat) : List Nat :=
  s.hsp.locks.flatMap (fun kl => if kl.2.holder = .task id then kl.2.waiters.filterMap (·.gave) else [])

/-- The effective priority of a task of own priority `p`: the smallest value signalled, or its own (07 R155). -/
def effPrio (s : State) (id p : Nat) : Nat := (signalled s id).foldl min p

/-- The task a ready-list entry stands for. -/
def readyTask (s : State) (e : ReadyEnt) : Option Nat :=
  match e.what with
  | .fresh _ _ _ => none
  | .redispatch id _ => some id
  | .saved k => (slotSt s k).bind (·.ctx.task)

/-- A condition of the partition's stall breaks: the count restarts (07 R156). -/
def unstall (s : State) (p : Nat) : State := { s with hlt := { s.hlt with stallSince := mdel s.hlt.stallSince p } }

/-- Give a task a new effective priority: an entry it has on a ready list moves to the tail of its new level
(07 R155). -/
def setEff (s : State) (id e : Nat) : State :=
  let s := updTask s id (fun x => { x with eprio := e })
  let mine := s.hlt.ready.filter (fun r => readyTask s r == some id)
  let rest := s.hlt.ready.filter (fun r => !(readyTask s r == some id))
  { s with hlt := { s.hlt with ready := rest ++ mine.map (fun r => { r with level := e }) } }

/-- Put a waiter in a lock's queue, behind its equals (11 R229). -/
def enqueue (l : Lock) (w : LockWaiter) : Lock := { l with waiters := insertBy (·.prio) w l.waiters }

/-- A lock without the waiter `who`. -/
def Lock.without (l : Lock) (who : LockWho) : Lock := { l with waiters := l.waiters.filter (fun w => decide (w.who ≠ who)) }

/-- Partition of a waiter. -/
def whoPart (s : State) (w : LockWho) : Option Nat :=
  match w with
  | .task id => (taskSt s id).map (·.part)
  | .host c => some c.part.toNat

/-- Count a truncated inheritance link against a waiter's partition (11 R247). -/
def truncated (s : State) (w : LockWho) : State :=
  match whoPart s w with
  | some p => hspCnt s p 7
  | none => s

/-- What a waiter of priority `q` signals to the holder of the lock `k`, from which it is now absent: its value when it
is numerically smaller than the holder's effective priority without it (11 R232). DEDUCED, log entry 62. -/
def wouldGive (s : State) (k q : Nat) : Option Nat :=
  match (lock s k).holder with
  | .task h =>
    match taskSt s h with
    | some x => if q < effPrio s h x.prio then some q else none
    | none => none
  | _ => none

/-- Bring a task's effective priority up to date and pass the change along the chain of holders, over at most `fuel`
more links (11 R232). -/
def propagate : Nat → State → Nat → State
  | 0, s, id =>
    match taskSt s id with
    | none => s
    | some x => let e := effPrio s id x.prio
                if e = x.eprio then s else setEff s id e
  | fuel + 1, s, id =>
    match taskSt s id with
    | none => s
    | some x =>
      let e := effPrio s id x.prio
      if e = x.eprio then s
      else
        let s := setEff s id e
        match x.lockPend with
        | none => s
        | some (k, _) =>
          match (lock s k).waiters.find? (fun w => decide (w.who = .task id)) with
          | none => s
          | some w =>
            let bare := setLock s k ((lock s k).without w.who)
            let gave := wouldGive bare k e
            if gave = w.gave then setLock bare k (enqueue (lock bare k) { w with prio := e })
            else if fuel = 0 then
              truncated (setLock bare k (enqueue (lock bare k) { w with prio := e })) w.who
            else
              let s := setLock bare k (enqueue (lock bare k) { w with prio := e, gave := gave })
              match (lock s k).holder with
              | .task h => propagate fuel s h
              | _ => s

/-- Queue a lock request, signalling its priority to a holder task (11 R229, R232). -/
def queueWaiter (s : State) (k : Nat) (w : LockWaiter) : State :=
  let gave := wouldGive s k w.prio
  let s := setLock s k (enqueue (lock s k) { w with gave := gave })
  match (lock s k).holder, gave with
  | .task h, some _ => propagate 8 s h
  | _, _ => s

/-- Take a request out of a lock's queue, withdrawing what it signalled (11 R231, R232). -/
def withdraw (s : State) (k : Nat) (who : LockWho) : State :=
  let s := setLock s k ((lock s k).without who)
  let s := match who with
    | .task id => updTask s id (fun x => { x with lockPend := none })
    | .host _ => s
  match (lock s k).holder with
  | .task h => propagate 8 s h
  | _ => s

end Sys2Proof.Machine
end

