-- ==== Sys2Proof/Machine/Hasp.lean ====
section
/-! DEFINITION. Locks, channels and events (11 R226-R247): what LOCK, UNLOCK, the host lock commands, the channel
operations, SIGNAL and the two watchdogs do. -/

namespace Sys2Proof.Machine

/-- Word `w` of HSP_GRP of a lock's group (11 Table 11-9). -/
def grpWord (s : State) (k w : Nat) : Nat := rdDev s (0x80800 + 32 * (k / 256) + 4 * w)

/-- Is the lock's group enabled and assigned. -/
def grpUsable (s : State) (k : Nat) : Bool := bitOf (grpWord s k 0) 0 && bitOf (grpWord s k 0) 1

/-- Does the agent hold right `w` (1 acquire, 2 release, 3 force) on the lock: threads by cluster, hosts by partition
(11 R226); a recovery lock is the supervisor's (R236). -/
def lockRight (s : State) (k agent w : Nat) : Bool :=
  if 16384 ≤ k then isSup s (agent % 8)
  else grpUsable s k && bitOf (grpWord s k w) (if agent / 16384 = 1 then 16 + agent % 8 else agent / 1024 % 16)

/-- Is the lock's group owned by another partition. -/
def lockForeign (s : State) (k p : Nat) : Bool :=
  decide (k < 16384) && (match grpOwner s (k / 256) with
    | some o => decide (o ≠ p)
    | none => false)

/-- A lock operation without its right: FOREIGN when the group is another partition's, else REFUSED (11 R228, R230).
DEDUCED, log entry 61. -/
def lockViolate (s : State) (p agent k : Nat) : State :=
  violate s p (if lockForeign s k p then 6 else 0x0B) agent k 0

/-- Agent ID of a waiter or holder: the thread last running the task, or the host. -/
def whoAgent (s : State) (w : LockWho) : Nat :=
  match w with
  | .task id => ((taskSt s id).map (·.agent)).getD 0
  | .host c => hostAgent c.part.toNat

/-- Agent ID of a lock's holder, zero when it is free. -/
def holderAgent (s : State) (l : Lock) : Nat :=
  match l.holder with
  | .free => 0
  | .task id => whoAgent s (.task id)
  | .host p => hostAgent p

/-- Partition of a lock's holder. -/
def holderPart (s : State) (l : Lock) : Option Nat :=
  match l.holder with
  | .free => none
  | .task id => (taskSt s id).map (·.part)
  | .host p => some p

/-- Count in HSP_CNT of a partition, when there is one. -/
def hspCntOpt (s : State) (p : Option Nat) (k : Nat) : State :=
  match p with
  | some p => hspCnt s p k
  | none => s

/-- Tell a waiter its grant status word: rd and then EV[4] of a task, or the completion of a host command
(11 R228, R235; 09 R199). DESIGN CHOICE, log entry 64. -/
def tellGrant (s : State) (who : LockWho) (word : Nat) : State :=
  match who with
  | .task id =>
    match (taskSt s id).bind (·.lockPend) with
    | some (_, rd) =>
      let s := updTaskCtx s id (fun c => (c.setG rd (BitVec.ofNat 36 word)).setEv 0x10)
      updTask s id (fun x => { x with lockPend := none })
    | none => s
  | .host c => finish s c 0x50 0 word 0

/-- The holder a waiter becomes. -/
def LockWho.holder (w : LockWho) : Holder :=
  match w with
  | .task id => .task id
  | .host c => .host c.part.toNat

/-- Each waiter still queued whose priority is numerically smaller than the new holder's effective priority signals it
(11 R232). -/
def resignal (s : State) (k : Nat) : State :=
  match (lock s k).holder with
  | .task h =>
    let e := ((taskSt s h).map (·.eprio)).getD 0
    let l := lock s k
    let s := setLock s k { l with
      waiters := l.waiters.map (fun w => { w with gave := if w.prio < e then some w.prio else none }) }
    propagate 8 s h
  | _ =>
    let l := lock s k
    setLock s k { l with waiters := l.waiters.map (fun w => { w with gave := none }) }

/-- Note that a holder lost a lock to another agent's release, or (`gone` false) forget that it had (11 R230). -/
def noteLost (s : State) (k : Nat) (h : Holder) (gone : Bool) : State :=
  let f := fun (l : List Nat) => (if gone then [k] else []) ++ l.filter (· ≠ k)
  match h with
  | .free => s
  | .task id => updTask s id (fun x => { x with lost := f x.lost })
  | .host p => { s with hsp := { s.hsp with hostLost := mset [] s.hsp.hostLost p (f (mget [] s.hsp.hostLost p)) } }

/-- Grant a lock: the pending flags are delivered and cleared (11 R227), the grant is counted, and the waiters left
signal the new holder. -/
def grantLock (s : State) (k : Nat) (who : LockWho) (contended : Bool) : State :=
  let l := lock s k
  let word := 1 + 2 * b2n l.orphan + 4 * b2n l.forced
  let s := setLock s k { l with
    holder := who.holder, orphan := false, forced := false, since := tai s, reported := false }
  let s := hspCntOpt s (whoPart s who) 0
  let s := if contended then hspCntOpt s (whoPart s who) 1 else s
  let s := noteLost s k who.holder false
  resignal (tellGrant s who word) k

/-- How a lock is released (11 R230, R233, R234). -/
inductive RelMode where
  | plain | taken | forced | orphan
  deriving DecidableEq, Repr

/-- Release a held lock and hand it to its head waiter, with no barging (11 R229, R233, R234). -/
def releaseLock (s : State) (k : Nat) (mode : RelMode) : State :=
  let l := lock s k
  let formerAgent := holderAgent s l
  let part := holderPart s l
  let s := setLock s k { l with
    holder := .free, orphan := l.orphan || mode = .orphan, forced := l.forced || mode = .forced,
    waiters := l.waiters.map (fun w => { w with gave := none }) }
  let s := match l.holder with
    | .task h => propagate 8 s h
    | _ => s
  let s := match mode, l.holder with
    | .forced, .task h => taskEv s h 0x200
    | _, _ => s
  let s := if mode = .forced ∨ mode = .taken then noteLost s k l.holder true else s
  let s := match mode with
    | .forced => hspCntOpt s part 3
    | .orphan => hspCntOpt s part 2
    | _ => s
  let s := match (lock s k).waiters with
    | [] => s
    | w :: rest => grantLock (setLock s k { lock s k with waiters := rest }) k w.who true
  if mode = .orphan then
    sendEvent s 0x03 0 (beOctets 2 (k % 16384) ++ beOctets 2 formerAgent ++ beOctets 2 (holderAgent s (lock s k)))
  else s

/-- A LOCK of a thread's task (11 R228); `rd` receives the grant status word. -/
def lockOp (s : State) (t id rd k : Nat) : State :=
  match taskSt s id with
  | none => s
  | some x =>
    let s := updTask s id (fun x => { x with lockPend := some (k, rd) })
    if !lockRight s k (thrAgent t) 1 then
      tellGrant (lockViolate s x.part (thrAgent t) k) (.task id) (2 ^ 36 - 1)
    else
      match (lock s k).holder with
      | .free => grantLock s k (.task id) false
      | .task h =>
        if h = id then tellGrant s (.task id) 9 else queueWaiter s k { who := .task id, prio := x.eprio }
      | .host _ => queueWaiter s k { who := .task id, prio := x.eprio }

/-- An UNLOCK of a thread's task: `arg` is ra (11 R230). -/
def unlockOp (s : State) (t id arg : Nat) : State :=
  let k := arg % 16384
  let force := bitOf arg 14
  match taskSt s id with
  | none => s
  | some x =>
    if (lock s k).holder = .task id then releaseLock s k .plain
    else if x.lost.contains k then
      hspCnt (noteLost s k (.task id) false) x.part 4
    else if (lock s k).holder = .free then hspCnt s x.part 4
    else if lockRight s k (thrAgent t) (if force then 3 else 2) then
      releaseLock s k (if force then .forced else .taken)
    else lockViolate s x.part (thrAgent t) k

/-- Waiter records in use by hosts (11 R236). -/
def hostWaiters (s : State) : Nat :=
  s.hsp.locks.foldl (fun n kl => n + (kl.2.waiters.filter (fun w => match w.who with
    | .host _ => true
    | .task _ => false)).length) 0

/-- The lock a host command names, or the status that refuses it (11 R236). -/
def hostLock (s : State) (c : CmdRef) (num : Nat) (recov : Bool) : Nat ⊕ Nat :=
  if recov then
    if !isSup s c.part.toNat then .inr 0x94
    else if 15 < num then .inr 0xC1
    else .inl (16384 + num)
  else if 16383 < num then .inr 0xC1
  else .inl num

/-- Refuse a host lock command for want of a right; a foreign group is also counted (11 Table 11-3). -/
def noLockRight (s : State) (c : CmdRef) (opc k : Nat) : State :=
  let s := if lockForeign s k c.part.toNat then violate s c.part.toNat 6 (hostAgent c.part.toNat) k 0 else s
  finish s c opc 0x90 0 0

/-- HSP_ACQUIRE (11 R235). -/
def hspAcquire (s : State) (c : CmdRef) (num prio flags timeout : Nat) : State :=
  match hostLock s c num (bitOf flags 1) with
  | .inr st => finish s c 0x50 st 0 0
  | .inl k =>
    if !lockRight s k (hostAgent c.part.toNat) 1 then noLockRight s c 0x50 k
    else if (lock s k).holder = .host c.part.toNat then finish s c 0x50 0 9 0
    else if (lock s k).holder = .free then grantLock s k (.host c) false
    else if bitOf flags 0 then finish s c 0x50 0x92 0 0
    else if 2048 ≤ hostWaiters s then finish s c 0x50 0x95 0 0
    else queueWaiter s k {
      who := .host c, prio := prio % 16, deadline := if timeout = 0 then none else some (s.now + 1000 * timeout) }

/-- The lock a host command waits on. -/
def hostWaitsOn (s : State) (c : CmdRef) : Option (Nat × LockWaiter) :=
  s.hsp.locks.findSome? (fun kl => (kl.2.waiters.find? (fun w => decide (w.who = .host c))).map (fun w => (kl.1, w)))

/-- HSP_ACQUIRE's TIMEOUT expires: the request is withdrawn and completes TIMEOUT (11 R235). -/
def acquireTimeout (s : State) (c : CmdRef) : State :=
  match hostWaitsOn s c with
  | some (k, w) =>
    match w.deadline with
    | some d => if d ≤ s.now then finish (withdraw s k (.host c)) c 0x50 0x93 0 0 else s
    | none => s
  | none => s

/-- Has a host any right on the lock, or its partition the group (11 R235). -/
def hostMayQuery (s : State) (k p : Nat) : Bool :=
  isSup s p || decide (grpOwner s (k / 256) = some p) ||
    [1, 2, 3].any (fun w => lockRight s k (hostAgent p) w)

/-- HSP_RELEASE (11 R235), as UNLOCK of the host agent: a lock that another agent has released from it is stale, with the
status of a free lock. DEDUCED, log entry 61. -/
def hspRelease (s : State) (c : CmdRef) (num flags : Nat) : State :=
  match hostLock s c num (bitOf flags 1) with
  | .inr st => finish s c 0x51 st 0 0
  | .inl k =>
    let p := c.part.toNat
    let force := bitOf flags 0
    if (lock s k).holder = .host p then finish (releaseLock s k .plain) c 0x51 0 0 0
    else if (mget [] s.hsp.hostLost p).contains k then finish (hspCnt (noteLost s k (.host p) false) p 4) c 0x51 0x91 0 0
    else if k < 16384 && !(grpUsable s k && hostMayQuery s k c.part.toNat) then noLockRight s c 0x51 k
    else if (lock s k).holder = .free then finish (hspCnt s c.part.toNat 4) c 0x51 0x91 0 0
    else if lockRight s k (hostAgent c.part.toNat) (if force then 3 else 2) then
      finish (releaseLock s k (if force then .forced else .taken)) c 0x51 0 0 0
    else noLockRight s c 0x51 k

/-- The 16 octets of a lock record (11 Table 11-4). -/
def lockRecord (s : State) (k : Nat) : List Octet :=
  let l := lock s k
  let held := decide (l.holder ≠ .free)
  let hprio := match l.holder with
    | .task id => ((taskSt s id).map (·.eprio)).getD 0xFF
    | _ => 0xFF
  beOctets 1 (b2n held + 2 * b2n l.orphan + 4 * b2n l.forced) ++ beOctets 1 hprio ++
    beOctets 2 (holderAgent s l) ++ beOctets 2 l.waiters.length ++
    beOctets 2 ((l.waiters.head?.map (fun w => whoAgent s w.who)).getD 0) ++
    beOctets 8 (if held then l.since else 0)

/-- HSP_QUERY (11 R235). -/
def hspQuery (s : State) (c : CmdRef) (k addr : Nat) : State :=
  if 16383 < k then finish s c 0x52 0xC1 0 0
  else if !hostMayQuery s k c.part.toNat then noLockRight s c 0x52 k
  else finish (hostWrite s c.part.toNat addr (lockRecord s k)) c 0x52 0 0 16

/-- The hold watchdog of a lock: one report for each grant (11 R237). -/
def lockWatchdog (s : State) (k : Nat) : State :=
  let l := lock s k
  let hold := bitsOf (grpWord s k 4) 19 0
  if k < 16384 ∧ l.holder ≠ .free ∧ l.reported = false ∧ hold ≠ 0 ∧ l.since + 1000 * hold < tai s then
    let s := hspCntOpt s (grpOwner s (k / 256)) 6
    let r := lockRecord s k
    let s := setLock s k { l with reported := true }
    sendEvent s 0x04 (beNat (r.take 8)) (r.drop 8 ++ beOctets 2 k)
  else s

/-- A channel slot, by channel * 16 + slot. -/
def chSlot (s : State) (i : Nat) : ChSlot := mget {} s.hsp.slots i

/-- Store a channel slot. -/
def setChSlot (s : State) (i : Nat) (x : ChSlot) : State := { s with hsp := { s.hsp with slots := mset {} s.hsp.slots i x } }

/-- Set an event bit in every task armed for a channel, and disarm it (11 R243). -/
def wakeArmed (s : State) (ch : Nat) (data : Bool) : State :=
  s.thr.tasks.foldl (fun s kx =>
    if (if data then kx.2.armData else kx.2.armSpace) = some ch then
      updTask (taskEv s kx.1 (if data then 0x20 else 0x40)) kx.1
        (fun x => if data then { x with armData := none } else { x with armSpace := none })
    else s) s

/-- Free a slot, waking tasks armed for space (11 R243). -/
def freeChSlot (s : State) (i : Nat) : State :=
  wakeArmed (setChSlot s i { gen := (chSlot s i).gen }) (i / 16) false

/-- Is the channel another partition's. -/
def chanForeign (s : State) (ch p : Nat) : Bool :=
  match chanOwner s ch with
  | some o => decide (o ≠ p)
  | none => false

/-- Log an access to another partition's channel. -/
def chanViolate (s : State) (t ch : Nat) : State := thrViolate s t 6 ch 0

/-- CHOPEN (11 R239): the handle or the null, and the state. -/
def chOpen (s : State) (t id ch : Nat) : W36 × State :=
  match taskSt s id with
  | none => (BitVec.allOnes 36, s)
  | some x =>
    let refuse := fun s => (BitVec.allOnes 36, updTask (chnCnt s x.part 2) id (fun x => { x with armSpace := some ch }))
    if chanForeign s ch x.part then refuse (chanViolate s t ch)
    else if !(flag s (0x84000 + 4 * ch) 0 && (chanOwner s ch).isSome) then refuse s
    else match lowest 16 (fun k => decide ((chSlot s (ch * 16 + k)).st = .free)) with
      | none => refuse s
      | some k =>
        let i := ch * 16 + k
        let gen := (chSlot s i).gen + 1
        (BitVec.ofNat 36 (ch + k * 4096 + gen.toNat * 65536),
          setChSlot s i { st := .reserved id s.now, gen := gen })

/-- Does a handle name a live reservation of the task (11 R240). -/
def liveHandle (s : State) (id h : Nat) : Bool :=
  let x := chSlot s (h % 4096 * 16 + h / 4096 % 16)
  (match x.st with
    | .reserved o _ => decide (o = id)
    | _ => false) && decide (x.gen.toNat = h / 65536 % 16)

/-- CHW: write one word of a reserved slot. -/
def chWrite (s : State) (h w : Nat) (v : W36) : State :=
  let i := h % 4096 * 16 + h / 4096 % 16
  setChSlot s i { chSlot s i with words := mset 0 (chSlot s i).words w v }

/-- CHPOST: the slot is posted (11 R240, R243). -/
def chPost (s : State) (t h : Nat) : State :=
  let i := h % 4096 * 16 + h / 4096 % 16
  let s := setChSlot s i { chSlot s i with st := .posted s.seq }
  let s := { s with seq := s.seq + 1 }
  let s := match thrPart s t with
    | some p => chnCnt s p 0
    | none => s
  wakeArmed s (h % 4096) true

/-- The oldest posted slot of a channel (11 R241). -/
def oldestPost (s : State) (ch : Nat) : Option Nat :=
  (List.range 16).foldl (fun best k =>
    let i := ch * 16 + k
    match (chSlot s i).st, best with
    | .posted o, some (o', _) => if o < o' then some (o, i) else best
    | .posted o, none => some (o, i)
    | _, _ => best) (none : Option (Nat × Nat)) |>.map (·.2)

/-- CHRD (11 R241, R243): the word or the null; another partition's channel reads zero (01 R17). DEDUCED, log entry 63. -/
def chRead (s : State) (t id ch w : Nat) : W36 × State :=
  if (match thrPart s t with
      | some p => chanForeign s ch p
      | none => false) then (0, chanViolate s t ch)
  else match oldestPost s ch with
    | some i => (mget 0 (chSlot s i).words w, s)
    | none => (BitVec.allOnes 36, updTask s id (fun x => { x with armData := some ch }))

/-- CHNEXT (11 R241). -/
def chNext (s : State) (t ch : Nat) : State :=
  match thrPart s t with
  | none => s
  | some p =>
    if chanForeign s ch p then chanViolate s t ch
    else match oldestPost s ch with
      | some i => freeChSlot (chnCnt s p 1) i
      | none => s

/-- The hold limit of a reservation passes: the slot is voided and its task told by EV[9] (11 R242). -/
def slotHoldExpiry (s : State) (ch k : Nat) : State :=
  let i := ch * 16 + k
  match (chSlot s i).st with
  | .reserved id since =>
    let hold := max 1 (min 1000 (fld s 0x80000 9 0))
    if since + hold * 1000000 ≤ s.now then
      let s := match taskSt s id with
        | some x => taskEv (chnCnt s x.part 3) id 0x200
        | none => s
      freeChSlot s i
    else s
  | _ => s

/-- SIGNAL (11 R245). -/
def signalOp (s : State) (t agent bits : Nat) : State :=
  let u := agent / 8
  if agent / 16384 ≠ 0 ∨ agent % 8 ≠ 0 then s
  else if thrPart s u = thrPart s t ∧ (thrPart s t).isSome then
    updCtx s u (fun c => c.setEv (bits % 2 ^ 20 * 2 ^ 16 + 0x100))
  else if (thrPart s u).isSome then thrViolate s t 6 (agent % 65536) 0
  else s

/-- Locks a task holds, in rising order. -/
def heldBy (s : State) (h : Holder) : List Nat :=
  (s.hsp.locks.filter (fun kl => decide (kl.2.holder = h))).map (·.1)

/-- Release every lock of an ended holder as an orphan (11 R234). -/
def orphanAll (s : State) (h : Holder) : State := (heldBy s h).foldl (fun s k => releaseLock s k .orphan) s

/-- Slots a task has reserved and not posted. -/
def reservedBy (s : State) (id : Nat) : List Nat :=
  (s.hsp.slots.filter (fun ix => match ix.2.st with
    | .reserved o _ => decide (o = id)
    | _ => false)).map (·.1)

/-- The Hasp unit's side of a task's end: its pending request is withdrawn, its locks are released as orphans, its
reservations are voided (11 R231, R242). -/
def haspTaskEnd (s : State) (id : Nat) (getwork : Bool) : State :=
  match taskSt s id with
  | none => s
  | some x =>
    let s := match x.lockPend with
      | some (k, _) => withdraw s k (.task id)
      | none => s
    let s := if getwork then (heldBy s (.task id)).foldl (fun s _ => hspCnt s x.part 5) s else s
    let s := orphanAll s (.task id)
    (reservedBy s id).foldl (fun s i => freeChSlot (chnCnt s x.part 4) i) s

end Sys2Proof.Machine
end

