-- ==== Sys2Proof/Machine/Splice.lean ====
section
/-! DEFINITION. Framed connections as the release of a message sees them: sequence splicing and rewrite records
(04 R79-R84). -/

namespace Sys2Proof.Machine

/-- The connection of a STIX. -/
def conn (s : State) (i : Nat) : Conn := mget {} s.stf.conns i

/-- Store a connection. -/
def setConn (s : State) (i : Nat) (c : Conn) : State := { s with stf := { s.stf with conns := mset {} s.stf.conns i c } }

/-- One direction of a connection. -/
def Conn.dir (c : Conn) (d : Nat) : StfDir := if d = 0 then c.d0 else c.d1

/-- A connection with one direction replaced. -/
def Conn.setDir (c : Conn) (d : Nat) (x : StfDir) : Conn := if d = 0 then { c with d0 := x } else { c with d1 := x }

/-- STF_CNT of a partition (04 Table 04-12). -/
def stfCnt (s : State) (p k n : Nat) : State := pcnt s 0x40800 0x40 p k n

/-- Word `w` of STF_SVC (04 Table 04-11). -/
def svcWord (s : State) (v w : Nat) : Nat := rdDev s (0x40100 + 16 * v + 4 * w)

/-- TLSMAX of a service: 1 to 16,384, 0 acting as 16,384. -/
def tlsMax (s : State) (v : Nat) : Nat :=
  let m := bitsOf (svcWord s v 2) 30 16
  if m = 0 then 16384 else min m 16384

/-- Octets of the TLS records that carry `n` plaintext octets: each adds a 5-octet header, the inner content type and a
16-octet tag (04 R79). -/
def tlsWire (s : State) (v n : Nat) : Nat := n + 22 * cdiv n (tlsMax s v)

/-- Is `a` at or past `b` in TCP serial-number order (04 R69). -/
def seqGe (a b : BitVec 32) : Bool := decide ((a - b).toNat < 2 ^ 31)

/-- First sequence number of a rewritten span (04 Table 04-7). -/
def Rewrite.newStart (r : Rewrite) : BitVec 32 := r.oseq + r.dbefore
/-- End of a rewritten span. -/
def Rewrite.newEnd (r : Rewrite) : BitVec 32 := r.oseq + r.dbefore + BitVec.ofNat 32 r.nlen
/-- DELTA after the release of a rewritten span. -/
def Rewrite.dAfter (r : Rewrite) : BitVec 32 := r.dbefore + BitVec.ofNat 32 r.nlen - BitVec.ofNat 32 r.olen

/-- Translate an acknowledgment received in direction `r` (04 R84); the records of the other direction stand newest
first. -/
def translateAck (c : Conn) (r : Nat) (a : BitVec 32) : BitVec 32 :=
  let f := 1 - r
  let xs := c.rws.filter (fun x => decide (x.dir = f))
  match xs.findSome? (fun x =>
      if seqGe a x.newEnd then some (a - x.dAfter)
      else if seqGe a x.newStart && decide (a ≠ x.newStart) then some x.oseq else none), xs.getLast? with
  | some b, _ => b
  | none, none => a - (c.dir f).delta
  | none, some old => if (c.dir f).disp then (c.dir r).rack else a - old.dbefore

/-- Release the share a rewrite record holds. -/
def dropRewrite (s : State) (r : Rewrite) : State :=
  if r.buf = nullPtr then s else dropShare s r.buf

/-- Make a rewrite record, displacing the oldest of 32 (04 R83); the records are listed newest first.
DEDUCED, log entry 40. -/
def addRewrite (s : State) (i : Nat) (r : Rewrite) : State :=
  let c := conn s i
  let s := match c.rws[31]? with
    | some old =>
      let c' := { c with rws := c.rws.take 31 }
      dropRewrite (setConn s i (c'.setDir old.dir { c'.dir old.dir with disp := true })) old
    | none => s
  let c := conn s i
  let s := setConn s i { c with rws := r :: c.rws, rwHead := if c.rws = [] then c.rwHead else (c.rwHead + 1) % 32 }
  if r.buf = nullPtr then s else shareInt s r.buf

/-- The framer's step when the Halter releases a message, or passes it (04 R81, Table 04-6): `parts` are the buffers
and lengths of its released results in sub-result order. Answers the sequence number of the result's first octet. -/
def framerRelease (s : State) (it : Item) (parts : List (Nat × Nat)) : BitVec 32 × State :=
  let c := conn s it.stix
  let x := c.dir it.dir
  let seq := it.oseq + x.delta
  let nlen := if c.tls then (parts.map (fun p => tlsWire s c.service p.2)).sum else (parts.map (·.2)).sum
  let buf := match parts with
    | p :: _ => p.1
    | [] => nullPtr
  let rewrite := decide (nlen ≠ it.olen) || c.tls || (decide (parts ≠ []) && decide (buf ≠ it.buf))
  let s := setConn s it.stix (c.setDir it.dir { x with
    delta := x.delta + BitVec.ofNat 32 nlen - BitVec.ofNat 32 it.olen, infl := x.infl - 1 })
  let s := if rewrite then
      addRewrite s it.stix { oseq := it.oseq, dbefore := x.delta, olen := it.olen, dir := it.dir, nlen := nlen, buf := buf }
    else s
  (seq, s)

end Sys2Proof.Machine
end

