-- ==== Sys2Proof/Machine/Images.lean ====
section
/-! DEFINITION. The records that the lookup tables and the stream framer keep in HBM, as octets at the places the spec
gives them: flow, L2 and prefix entries and the short tables (06 R111, R114, R116, R117), connection state records and
rewrite records (04 R67, R82). The model holds the entries as data; a thread, routine or DMA engine that reads their
places reads these octets. -/

namespace Sys2Proof.Machine

/-! ### Octets of an entry -/

/-- A flow entry (06 Table 06-2). -/
def FlowEnt.image (e : FlowEnt) : List Octet :=
  fit 40 e.key ++ fit 20 e.data ++
    beOctets 4 (2 ^ 31 + b2n e.h * 2 ^ 30 + b2n e.a * 2 ^ 29 + b2n e.static * 2 ^ 28 + e.part % 8 * 2 ^ 25)

/-- An L2 entry (06 Table 06-3). -/
def L2Ent.image (e : L2Ent) : List Octet :=
  beOctets 6 e.mac ++ beOctets 2 (e.vid % 4096) ++ beOctets 1 (e.port % 128) ++
    beOctets 1 (128 + b2n e.h * 64 + b2n e.a * 32 + b2n e.static * 16 + b2n e.hd * 8 + e.part % 8) ++ beOctets 6 e.ltime

/-- A prefix entry (06 Table 06-5). -/
def PfxEnt.image (e : PfxEnt) : List Octet :=
  fit 16 e.pfx ++ beOctets 1 e.len ++ beOctets 1 (128 + b2n e.dec * 64 + e.own % 8) ++ zeros 2 ++ fit 12 e.data

/-- An entry of a short table: DATA, LEN and VALID (06 R117). -/
def shortImage (len : Nat) (data : List Octet) : List Octet := fit 12 data ++ beOctets 1 len ++ beOctets 1 128 ++ zeros 2

/-- Header of a TLS record: outer type 23, version 0x0303 and its length (04 R77). -/
def recHeader (n : Nat) : List Octet := beOctets 1 23 ++ beOctets 2 0x0303 ++ beOctets 2 n

/-- One direction of the state record: 96 octets. -/
def StfDir.image (x : StfDir) : List Octet :=
  fit 96 (beOctets 4 x.expSeq.toNat ++ beOctets 4 x.delta.toNat ++ beOctets 4 x.rack.toNat ++ beOctets 2 x.rwin ++
    beOctets 2 x.mss ++ beOctets 5 (x.asm.getD 0) ++ beOctets 1 (b2n x.asm.isSome + 2 * b2n x.inRec + 4 * b2n x.disp) ++
    beOctets 2 (x.asmLen + x.recPt) ++ beOctets 2 x.need ++ beOctets 2 x.odom ++ beOctets 2 x.infl ++ beOctets 2 x.eq ++
    beOctets 2 x.recLeft ++ fit 5 x.recHdr ++ zeros 1 ++ beOctets 2 x.rxKey ++ beOctets 2 x.txKey ++
    beOctets 8 x.rxSeq.toNat ++ beOctets 8 x.txSeq.toNat ++ fit 16 x.ghash ++ beOctets 2 x.recPt)

/-- The 256-octet state record (04 Table 04-1). -/
def Conn.image (c : Conn) : List Octet :=
  beOctets 1 (c.state + 4 * b2n c.tls) ++ beOctets 1 c.service ++ beOctets 1 c.rwHead ++ beOctets 1 c.rws.length ++
    beOctets 1 c.slowRsn ++ beOctets 1 c.slowDir ++ beOctets 1 c.part ++ zeros 57 ++ c.d0.image ++ c.d1.image

/-- A rewrite record (04 Table 04-7). -/
def Rewrite.image (r : Rewrite) : List Octet :=
  beOctets 4 r.oseq.toNat ++ beOctets 4 r.dbefore.toNat ++
    beOctets 4 (r.olen % 2 ^ 15 + r.dir * 2 ^ 15 + r.nlen % 2 ^ 15 * 2 ^ 16 + 2 ^ 31) ++ beOctets 4 (r.buf / 256)

/-! ### Places -/

/-- Base of a table: HBM address bits [35:8] of a register. -/
def hbmBase (s : State) (o : Nat) : Nat := fld s o 27 0 * 256

/-- Address of a connection's state record (04 R67). -/
def stateAddr (s : State) (i : Nat) : Nat := hbmBase s 0x40004 + 256 * i

/-- Octet `a` of a store of `n` records of `size` octets at `base`, when a record stands there. -/
def recordOct (base size n : Nat) (rec : Nat → Option (List Octet)) (a : Nat) : Option Octet :=
  if base ≤ a ∧ a < base + size * n then
    (rec ((a - base) / size)).map (fun l => l.getD ((a - base) % size) 0)
  else none

/-- The short entry `i` of a route table: the longest prefix of length 0 to 16 that covers it (06 R117). -/
def shortEntry (s : State) (rt i : Nat) : Option (List Octet) :=
  (List.range 17).reverse.findSome? (fun len =>
    (s.tbl.rts.find? (fun e => decide (e.1 = rt ∧ e.2.1 = len ∧ e.2.2.1 = i / 2 ^ (16 - len)))).map
      (fun e => shortImage len e.2.2.2))

/-- The rewrite record in slot `k` of a connection's ring: RWHEAD names the newest's (04 R82). -/
def ringRecord (s : State) (k : Nat) : Option (List Octet) :=
  let c := conn s (k / 32)
  (c.rws[(c.rwHead + 32 - k % 32) % 32]?).map Rewrite.image

/-- The octet of a record that stands at an HBM address. -/
def recordAt (s : State) (a : Nat) : Option Octet :=
  [(!s.tbl.flow.isEmpty, recordOct (hbmBase s 0x50010) 64 0x1000000 (fun i => (mfind s.tbl.flow i).map FlowEnt.image) a),
   (!s.tbl.l2.isEmpty, recordOct (hbmBase s 0x50014) 16 0x100000 (fun i => (mfind s.tbl.l2 i).map L2Ent.image) a),
   (!s.tbl.pfx.isEmpty, recordOct (hbmBase s 0x50018) 32 0x400000 (fun i => (mfind s.tbl.pfx i).map PfxEnt.image) a),
   (!s.tbl.dpfx.isEmpty, recordOct (hbmBase s 0x5001C) 32 0x800000 (fun i => (mfind s.tbl.dpfx i).map PfxEnt.image) a),
   (!s.tbl.dshort.isEmpty, recordOct (hbmBase s 0x50020) 16 88880
      (fun i => (mfind s.tbl.dshort i).map (fun e => shortImage e.1 e.2)) a),
   (!s.tbl.rts.isEmpty, (List.range 4).findSome? (fun rt => recordOct (hbmBase s (0x50050 + 4 * rt)) 16 65536 (shortEntry s rt) a)),
   (!s.stf.conns.isEmpty, recordOct (hbmBase s 0x40004) 256 0x400000 (fun i => (mfind s.stf.conns i).map Conn.image) a),
   (!s.stf.conns.isEmpty, recordOct (hbmBase s 0x40008) 16 0x8000000 (ringRecord s) a)].findSome?
    (fun x => if x.1 then x.2 else none)

/-- What a thread, a routine or a DMA engine reads at a device address: the octet of a record that stands there, or else
what was written. DESIGN CHOICE, log entry 26. -/
def viewOct (s : State) (a : Nat) : Octet := (if isHbm a then recordAt s a else none).getD (devOct s a)

/-- Octets of packet SRAM or HBM as a thread, a routine or a DMA engine reads them. -/
def viewRead (s : State) (a n : Nat) : List Octet := (List.range n).map (fun i => viewOct s (a + i))

end Sys2Proof.Machine
end

