-- ==== Sys2Proof/Machine/Halter.lean ====
section
/-! DEFINITION. The Halter: tickets, their operations, release and lateness (07 R132-R147), and what a release hands
to egress and to the host. -/

namespace Sys2Proof.Machine

/-- A ticket index. -/
def ticket (s : State) (i : Nat) : Ticket := mget {} s.hlt.tickets i

/-- Store a ticket index. -/
def setTicket (s : State) (i : Nat) (t : Ticket) : State :=
  { s with hlt := { s.hlt with tickets := mset {} s.hlt.tickets i t } }

/-- The ticket word of an index in use (07 Table 07-1). -/
def ticketWord (s : State) (i : Nat) : W36 :=
  let t := ticket s i
  BitVec.ofNat 36 (i + t.gen.toNat * 2 ^ 14 + t.dom * 2 ^ 22)

/-- The ticket word of sub-result `k`. -/
def subWord (w : W36) (k : Nat) : W36 := w ||| BitVec.ofNat 36 (k * 2 ^ 18 + 2 ^ 21)

/-- The null ticket. -/
def nullTicket : W36 := BitVec.allOnes 36

/-- Unreleased tickets of a domain, in order of issue; passed ones stand in it until their index frees. -/
def domOrder (s : State) (d : Nat) : List Nat := mget [] s.hlt.order d

/-- Store a domain's list. -/
def setOrder (s : State) (d : Nat) (l : List Nat) : State :=
  { s with hlt := { s.hlt with order := mset [] s.hlt.order d l } }

/-- Tickets in use: of the device, or of one partition. -/
def ticketsInUse (s : State) (p : Option Nat) : Nat :=
  (s.hlt.tickets.filter (fun kt => kt.2.inUse && (match p with
    | some p => decide (kt.2.part = p)
    | none => true))).length

/-- HLT_PART.QUOTA in force: 0 acts as 16,384 (07 R133). -/
def quota (s : State) (p : Nat) : Nat :=
  let q := fld s (0x60020 + 4 * p) 27 13
  if q = 0 then 16384 else q

/-- May a ticket be drawn for a partition: an index is free and the partition is below its quota (07 R133). -/
def canIssue (s : State) (p : Nat) : Bool :=
  decide (ticketsInUse s none < 16384) && decide (ticketsInUse s (some p) < quota s p)

/-- The first free index at or after `i`, wrapping. -/
def freeIndexFrom (s : State) (i : Nat) : Nat :=
  ((List.range 16384).find? (fun j => !(ticket s ((i + j) % 16384)).inUse)).map (fun j => (i + j) % 16384) |>.getD 0

/-- Draw a free index: which one the spec leaves open (DESIGN CHOICE, log entry 2). -/
def drawIndex (s : State) : Nat × State :=
  let (i, s) := drawFree s 16384
  (freeIndexFrom s i, s)

/-- Deadline of a task of a domain (07 R144). -/
def deadlineOf (s : State) (dom t0 : Nat) : Nat :=
  let d := bitsOf (hltDom s dom) 22 7
  if d = 0 then 2 ^ 64 - 1 else t0 + 1000 * d

/-- Issue a ticket at the tail of a domain (07 R133). -/
def issueTicket (s : State) (dom p : Nat) (it : Item) (deadline : Nat) : Nat × State :=
  let (i, s) := drawIndex s
  let t := ticket s i
  let s := setTicket { s with seq := s.seq + 1 } i {
    inUse := true, gen := t.gen, dom := dom, part := p, deadline := deadline, item := { it with arr := s.seq },
    pts := [(0, it.tEnd)] }
  (i, hltCnt (setOrder s dom (domOrder s dom ++ [i])) p 0)

/-- Free an index: its GEN advances (07 R135). -/
def freeTicket (s : State) (i : Nat) : State :=
  let t := ticket s i
  setOrder (setTicket s i { gen := t.gen + 1 }) t.dom ((domOrder s t.dom).filter (· ≠ i))

/-- Is a ticket complete: all its sub-results, when it is split (07 R135, R143). -/
def Ticket.complete (t : Ticket) : Bool :=
  if t.subs = [] then t.res.isSome else t.subs.all (fun x => x.res.isSome)

/-- The latency points of a ticket, or of a sub-result of it (17 R362). -/
def ticketLat (t : Ticket) (sub : Option Nat) : Lat :=
  { part := t.part, dom := t.dom, pts := t.pts ++ (match sub with
    | some k => (t.subs.getD k {}).pts
    | none => []) }

/-- A ticket, or a sub-result of it, reaches a latency point now (17 R362). -/
def ticketReach (s : State) (i : Nat) (sub : Option Nat) (k : Nat) : State :=
  let t := ticket s i
  let s := latReach s (ticketLat t sub) k (tai s)
  setTicket s i (match sub with
    | some j => { t with subs := t.subs.set j { (t.subs.getD j {}) with pts := mput (t.subs.getD j {}).pts k (tai s) } }
    | none => { t with pts := mput t.pts k (tai s) })

/-- What a ticket word names: an index, and the sub-result of a split ticket. -/
structure TkName where
  idx : Nat
  sub : Option Nat

/-- The ticket or sub-result a word names, when it is in use with the same GEN and DOM (07 R136). -/
def ticketNamed (s : State) (w : W36) : Option TkName :=
  let v := w.toNat
  let i := v % 16384
  let t := ticket s i
  if bitsOf v 35 34 ≠ 0 ∨ !t.inUse ∨ bitsOf v 17 14 ≠ t.gen.toNat ∨ bitsOf v 33 22 ≠ t.dom then none
  else if bitOf v 21 then (if bitsOf v 20 18 < t.subs.length then some ⟨i, some (bitsOf v 20 18)⟩ else none)
  else some ⟨i, none⟩

/-- Is the named ticket or sub-result still to be completed; a split ticket itself is named no more. -/
def stillOpen (s : State) (n : TkName) : Bool :=
  let t := ticket s n.idx
  match n.sub with
  | some k => ((t.subs[k]?).map (fun x => x.res.isNone)).getD false
  | none => t.subs = [] && t.res.isNone

/-- What checking a ticket operation answers (07 R136). -/
inductive TkCheck where
  | ok (n : TkName)
  | foreign
  | stale

/-- Check a ticket word for an operation of partition `p` (07 R136). -/
def ticketCheck (s : State) (p : Nat) (w : W36) : TkCheck :=
  match ticketNamed s w with
  | none => .stale
  | some n =>
    if domOwner s (ticket s n.idx).dom ≠ some p then
      (if (domOwner s (ticket s n.idx).dom).isSome then .foreign else .stale)
    else if stillOpen s n then .ok n else .stale

/-- An operation that R136 refuses: a foreign ticket is a violation, any other is counted as stale. -/
def refuseTicket (s : State) (t p : Nat) (w : W36) (c : TkCheck) : State :=
  match c with
  | .foreign => violate s p 6 (thrAgent t) (bitsOf w.toNat 33 22) 0
  | _ => hltCnt s p 7

/-- Queue a delivery to a host ring (14 R311). -/
def queueDeliv (s : State) (d : Deliv) : State := { s with gpl := { s.gpl with deliv := s.gpl.deliv ++ [d] } }

/-- Deliveries of results that already wait for a ring. -/
def delivWaiting (s : State) (r : Nat) : Nat :=
  (s.gpl.deliv.filter (fun d => decide (d.ring = r) && (decide (d.kind = .rx) || decide (d.kind = .late)))).length

/-- Has a result ring space for one more delivery (14 R312). -/
def ringSpace (s : State) (r : Nat) : Bool :=
  cqUsable s r && decide (delivWaiting s r < (ringSt s r).supply.length) &&
    decide (delivWaiting s r < cqFree s (ringCq s r))

/-- DETAIL of a HOST or late result (14 Table 14-10). -/
def resultDetail (it : Item) (late : Bool) : List Octet :=
  beOctets 4 it.flow ++ beOctets 1 (if it.kind = 3 then 0xFF else it.port) ++ beOctets 1 it.audit ++
    beOctets 1 it.kind ++ beOctets 1 (b2n late)

/-- Octets of a result, read from its buffer. -/
def resultOctets (s : State) (r : Result) : List Octet := devRead s r.buf r.len

/-- The Halter ends its use of a result's buffer (07 R139). -/
def discardResult (s : State) (r : Result) : State :=
  if r.disp = .drop then s else endUse s halterAgent r.buf

/-- DEST of a journal record: the ring or queue with the sub-result (13 Table 13-11). -/
def jnlDest (dest : Nat) (sub : Option Nat) : Nat :=
  match sub with
  | some k => dest % 4096 + k * 4096 + 0x8000
  | none => dest % 4096

/-- The journal record of a ticketed item's final disposition (01 R12). -/
def jnlTicket (s : State) (i : Nat) (sub : Option Nat) (disp dest : Nat) (result : Option (List Octet)) : State :=
  let w := ticketWord s i
  let (pl, s) := nextPlace s (ticket s i).dom
  jnlItemAt s none (some pl) (some (ticketLat (ticket s i) sub)) (ticket s i).item disp (jnlDest dest sub)
    (match sub with
      | some k => subWord w k
      | none => w).toNat false 0 result

/-- Does the audited disposition of an item wait for the journal (13 R291). -/
def jnlHolds (s : State) (it : Item) : Bool := audited s it.audit && jnlFull s

/-- Deal with the completion of a passed ticket or sub-result (07 Table 07-4, R146). DEDUCED, log entry 51. -/
def lateResult (s : State) (i : Nat) (sub : Option Nat) (r : Result) : State :=
  let t := ticket s i
  let p := t.part
  let w := (match sub with
      | some k => subWord (ticketWord s i) k
      | none => ticketWord s i)
  match r.disp with
  | .drop => jnlTicket s i sub 0x03 0 none
  | _ =>
    if t.passPolicy = 2 then discardResult (hltCnt (jnlTicket s i sub 0x05 r.dest none) p 6) r
    else
      let v := rdDev s (0x60020 + 4 * p)
      let ring := bitsOf v 11 0
      if bitOf v 12 && ringUsable s p ring 6 && ringSpace s ring then
        let l := resultOctets s r
        let s := jnlTicket s i sub 0x04 ring (some l)
        queueDeliv s { kind := .late, part := p, ring := ring, octets := l, result := w.toNat,
                       detail := resultDetail t.item true, buf := some r.buf }
      else discardResult (hltCnt (jnlTicket s i sub 0x06 r.dest none) p 6) r

/-- Mark a sub-result dealt with. -/
def subOut (t : Ticket) (k : Nat) : Ticket :=
  { t with subs := t.subs.set k { (t.subs.getD k {}) with out := true }, heldQ := false }

/-- The next sub-result not yet released. -/
def nextSub (t : Ticket) : Option (Nat × SubRes) :=
  (t.subs.zipIdx.find? (fun xi => !xi.1.out)).map (fun xi => (xi.2, xi.1))

/-- Deal with what a passed ticket has completed: sub-results in order, and the index frees with the last (07 R143).
At most `fuel` sub-results. -/
def settlePassed : Nat → State → Nat → State
  | 0, s, _ => s
  | fuel + 1, s, i =>
    let t := ticket s i
    if !t.passed || jnlHolds s t.item then s
    else if t.subs = [] then
      match t.res with
      | some r => freeTicket (lateResult s i none r) i
      | none => s
    else match nextSub t with
      | none => freeTicket s i
      | some (k, x) =>
        match x.res with
        | none => s
        | some r =>
          let s := lateResult s i (some k) r
          settlePassed fuel (setTicket s i (subOut (ticket s i) k)) i

/-- Complete a ticket or a sub-result with a result (07 R137, R143). -/
def completeTicket (s : State) (n : TkName) (r : Result) : State :=
  let t := ticket s n.idx
  let s := if r.disp = .drop then hltCnt s t.part 2 else s
  let s := match n.sub with
    | some k => setTicket s n.idx { t with subs := t.subs.set k { (t.subs.getD k {}) with res := some r } }
    | none => setTicket s n.idx { t with res := some r }
  settlePassed 9 (ticketReach s n.idx n.sub 3) n.idx

/-- Complete a ticket, or each incomplete sub-result of a split one, as DROP (07 R157, 08 Table 08-11). -/
def dropTicketAll (s : State) (i : Nat) : State :=
  let t := ticket s i
  if t.subs = [] then (if t.res.isNone then completeTicket s ⟨i, none⟩ { disp := .drop } else s)
  else (List.range t.subs.length).foldl
    (fun s k => if stillOpen s ⟨i, some k⟩ then completeTicket s ⟨i, some k⟩ { disp := .drop } else s) s

/-- Results on an egress queue, with those on their way to it (12 R264). -/
def queueDepth (s : State) (q : Nat) : Nat :=
  ((mget [] s.egr.queues q).filter (·.resultEnd)).length

/-- The egress queue a released result goes to: a message's is its direction's (12 R265). -/
def releaseQueue (s : State) (it : Item) (r : Result) : Nat :=
  if it.kind = 1 then ((conn s it.stix).dir it.dir).eq else r.dest

/-- Results released and not yet processed by egress, for one queue. -/
def egressPending (s : State) (q : Nat) : Nat :=
  (s.hlt.egressIn.filter (fun x => decide (releaseQueue s x.item x.res = q))).length

/-- MAXDEPTH of an egress queue; 0 acts as 1 (12 Table 12-9). DEDUCED, log entry 68. -/
def maxDepth (s : State) (q : Nat) : Nat := max 1 (bitsOf (rdDev s (0xA0000 + 8 * q)) 19 8)

/-- Is there room for a released result (12 R264, 14 Table 14-14). -/
def releaseRoom (s : State) (it : Item) (r : Result) : Bool :=
  match r.disp with
  | .drop => true
  | .egress => let q := releaseQueue s it r
               decide (queueDepth s q + egressPending s q < maxDepth s q)
  | .host => if ringUsable s it.part r.dest 4 then ringSpace s r.dest else true

/-- Release one result: to egress, to a host ring, or nowhere (07 R135, R138). `seq` is a message's first sequence
number. -/
def releaseResult (s : State) (i : Nat) (sub : Option Nat) (r : Result) (seq : BitVec 32) (last : Bool) : State :=
  let s := ticketReach s i sub 4
  let t := ticket s i
  let w := (match sub with
      | some k => subWord (ticketWord s i) k
      | none => ticketWord s i)
  match r.disp with
  | .drop => jnlTicket s i sub 0x03 0 none
  | .egress =>
    let (pl, s) := nextPlace s t.dom
    { s with hlt := { s.hlt with egressIn := s.hlt.egressIn ++
        [{ item := t.item, res := r, ticket := w, seq := seq, last := last, released := tai s, place := pl,
           lat := ticketLat t sub,
           tls := decide (t.item.kind = 1) && (conn s t.item.stix).tls }] } }
  | .host =>
    if ringUsable s t.part r.dest 4 then
      let l := resultOctets s r
      let s := jnlTicket s i sub 0x02 r.dest (some l)
      queueDeliv s { kind := .rx, part := t.part, ring := r.dest, octets := l, result := w.toNat,
                     detail := resultDetail t.item t.passed, buf := some r.buf }
    else discardResult (gplCnt (jnlTicket s i sub 0x03 0 none) t.part 6 1) r

/-- The buffer and length a result puts on the wire, for R81. -/
def wirePart (r : Result) : List (Nat × Nat) := if r.disp = .egress then [(r.buf, r.len)] else []

/-- Octets a result of a message takes in its stream. -/
def partWire (s : State) (it : Item) (r : Result) : Nat :=
  let c := conn s it.stix
  if r.disp = .egress then (if c.tls then tlsWire s c.service r.len else r.len) else 0

/-- The results of a complete ticket in release order; those already released apart. -/
def ticketResults (t : Ticket) : List (Option Nat × Result) :=
  if t.subs = [] then (t.res.map (fun r => (none, r))).toList
  else t.subs.zipIdx.filterMap (fun xi => if xi.1.out then none else xi.1.res.map (fun r => (some xi.2, r)))

/-- Release the next result of a complete message. With the first, the framer takes its step for all of them (04 R81);
each is sent at the sequence number after the one before it. -/
def releaseMessage (s : State) (i : Nat) (k : Option Nat) (r : Result) (rs : List (Option Nat × Result)) : State :=
  let t := ticket s i
  let (seq, s) := match t.seq with
    | some q => (q, s)
    | none => framerRelease s t.item (((k, r) :: rs).flatMap (fun kr => wirePart kr.2))
  let s := releaseResult s i k r seq rs.isEmpty
  let t := ticket s i
  setTicket s i { (match k with
    | some k => subOut t k
    | none => t) with seq := some (seq + BitVec.ofNat 32 (partWire s t.item r)) }

/-- The oldest unpassed ticket of a domain. -/
def domHead (s : State) (d : Nat) : Option Nat := (domOrder s d).find? (fun i => !(ticket s i).passed)

/-- Has the ticket at the head of its domain something to release: it is complete, or its next sub-result is
(07 R135, R143). -/
def releaseDue (t : Ticket) : Bool :=
  if t.item.kind = 1 ∨ t.subs = [] then t.complete
  else match nextSub t with
    | some (_, x) => x.res.isSome
    | none => true

/-- A release is held for want of room: one held on a full egress queue is counted once in EGR_CNT (12 R264). -/
def holdRelease (s : State) (i : Nat) (rs : List Result) : State :=
  let t := ticket s i
  match rs.find? (fun r => decide (r.disp = .egress) && !releaseRoom s t.item r) with
  | some r =>
    if t.heldQ then s
    else cntAdd (setTicket s i { t with heldQ := true }) (0xB1010 + 0x20 * (releaseQueue s t.item r / 32)) 1
  | none => s

/-- One release of a domain (07 R135): completions of passed tickets that waited for the journal first, then the head
ticket or its next sub-result. A release held for want of room or of journal intake changes nothing. -/
def ticketRelease (s : State) (d : Nat) : State :=
  match domOwner s d with
  | none => s
  | some p =>
    if inBolt s p then s
    else
      let s := (domOrder s d).foldl (fun s i => settlePassed 9 s i) s
      match domHead s d with
      | none => s
      | some i =>
        let t := ticket s i
        let it := t.item
        if !releaseDue t || jnlHolds s it then s
        else if it.kind = 1 then
          match ticketResults t with
          | (k, r) :: rs =>
            if releaseRoom s it r then
              let s := releaseMessage s i k r rs
              if rs.isEmpty then freeTicket (hltCnt s p 1) i else s
            else holdRelease s i [r]
          | [] => freeTicket (hltCnt s p 1) i
        else if t.subs = [] then
          match t.res with
          | some r => if releaseRoom s it r then freeTicket (hltCnt (releaseResult s i none r 0 true) p 1) i
                      else holdRelease s i [r]
          | none => s
        else match nextSub t with
          | some (k, x) =>
            match x.res with
            | some r =>
              if releaseRoom s it r then
                let s := releaseResult s i (some k) r 0 true
                let s := setTicket s i (subOut (ticket s i) k)
                if (nextSub (ticket s i)).isNone then freeTicket (hltCnt s p 1) i else s
              else holdRelease s i [r]
            | none => s
          | none => s

/-- POLICY of a domain: 11 is treated as 00 (07 Table 07-11). -/
def domPolicy (s : State) (d : Nat) : Nat :=
  let v := bitsOf (hltDom s d) 6 5
  if v = 3 then 0 else v

/-- The ticket, or the sub-results of a split one that have not been released, which a pass finds. -/
def passedSubs (t : Ticket) : List (Option Nat) :=
  if t.subs = [] then [none] else t.subs.zipIdx.filterMap (fun xi => if xi.1.out then none else some (some xi.2))

/-- Pass a ticket under a lateness policy (07 R145): a message has its R81 release at that moment, with NLEN 0. -/
def passTicket (s : State) (i pol : Nat) : State :=
  let t := ticket s i
  let s := setTicket s i { t with passed := true, passPolicy := pol }
  let s := (passedSubs t).foldl (fun s k => ticketReach s i k 4) s
  let s := hltCnt s t.part 5
  let s := if t.item.kind = 1 then (framerRelease s t.item []).2 else s
  settlePassed 9 s i

/-- Take a buffer out of every hold list (12 R253). -/
def unholdAll (s : State) (a : Nat) : State :=
  s.thr.tasks.foldl (fun s kx =>
    if kx.2.hold.contains a then updTask s kx.1 (fun x => { x with hold := x.hold.filter (· ≠ a) }) else s) s

/-- Free the input buffer of a task that is discarded: one that an internal agent or an agent of the task's partition
owns (07 R145, R158). -/
def freeInput (s : State) (p a : Nat) : State :=
  let o := (bufTag s a).owner
  if ptrValid s a && (bufTag s a).alloc && (isInternal o || decide (agentPart s o = some p)) then
    endUse (unholdAll s a) o a
  else s

/-- Completed sub-results of a split ticket that have not been released, in sub-result order. -/
def lateSubs (t : Ticket) : List (Nat × Result) :=
  t.subs.zipIdx.filterMap (fun xi => if xi.1.out then none else xi.1.res.map (fun r => (xi.2, r)))

/-- The lateness check of a domain (07 R145). An undispatched task under DROP_LATE is removed, its input buffer and
its index freed; what sub-results it has completed are dealt with under Table 07-4. -/
def latenessCheck (s : State) (d : Nat) : State :=
  match domOwner s d, domHead s d with
  | some p, some i =>
    let t := ticket s i
    let pol := domPolicy s d
    if inBolt s p ∨ tai s < t.deadline ∨ t.complete ∨ pol = 0 then s
    else if pol = 2 ∧ !t.dispatched then
      if jnlHolds s t.item then s
      else
        let w := ticketWord s i
        let mine := fun (x : ReadyWhat) => match x with
          | .fresh tk _ _ => decide (tk = w)
          | _ => false
        let s := { s with hlt := { s.hlt with
          ready := s.hlt.ready.filter (fun e => !mine e.what), delays := s.hlt.delays.filter (fun e => !mine e.what) } }
        let s := hltCnt s p 5
        let s := if t.item.kind = 1 then (framerRelease s t.item []).2 else s
        let s := (lateSubs t).foldl (fun s kr => lateResult s i (some kr.1) kr.2) (setTicket s i { t with passPolicy := 2 })
        let s := if t.subs = [] then jnlTicket s i none 0x05 0 none else s
        freeTicket (freeInput s p t.item.buf) i
    else passTicket s i pol
  | _, _ => s

/-- Give a result's buffer to the Halter, as by GIVE of the thread (07 R139): whether it passed, and the state. -/
def giveHalter (s : State) (t a : Nat) : Bool × State :=
  let (st, s) := bufGive s (thrAgent t) a halterAgent false
  (st = 0, s)

/-- Remove a buffer from a task's hold list (12 R253). -/
def unhold (s : State) (id : Option Nat) (a : Nat) : State :=
  match id with
  | some id => updTask s id (fun x => { x with hold := x.hold.filter (· ≠ a) })
  | none => s

/-- When the task's G3 buffer passes from the thread, its task descriptor loses R, W and H (08 R167). -/
def loseSeg (s : State) (id : Option Nat) (a : Nat) : State :=
  match id with
  | some id => updTask s id (fun x => match x.seg with
      | some (b, _) => if b = a then { x with segOk := false } else x
      | none => x)
  | none => s

/-- Complete a named ticket with a result of a thread (07 R137-R139). A DEST that is not the partition's, and a buffer
that cannot pass, make it act as DROP. DESIGN CHOICE, log entry 41. -/
def finishResult (s : State) (t p : Nat) (n : TkName) (host : Bool) (a len dest eflags : Nat) : State :=
  let it := (ticket s n.idx).item
  let own := if host then ringOwner s dest else queueOwner s dest
  let destOk := decide (own = some p) || (!host && decide (it.kind = 1))
  let s := if destOk then s else violate s p 6 (thrAgent t) dest 0
  let id := thrTask s t
  let (passed, s) := giveHalter s t a
  let s := if passed then loseSeg (unhold s id a) id a else s
  if destOk && passed then
    completeTicket s n { disp := if host then .host else .egress, buf := a, len := len, dest := dest, eflags := eflags }
  else
    let s := if passed then endUse s halterAgent a else s
    completeTicket s n { disp := .drop }

/-- DONE and HOST (07 R137-R139): `w` the ticket, `a` the buffer, `rw` the result word. -/
def endTicket (s : State) (t p : Nat) (host : Bool) (w : W36) (a rw : Nat) : State :=
  match ticketCheck s p w with
  | .ok n => finishResult s t p n host a (bitsOf rw 14 0) (bitsOf rw 26 15) (bitsOf rw 35 27)
  | c => refuseTicket s t p w c

/-- DROP (07 Table 07-2). -/
def dropOp (s : State) (t p : Nat) (w : W36) : State :=
  match ticketCheck s p w with
  | .ok n => completeTicket s n { disp := .drop }
  | c => refuseTicket s t p w c

/-- MOVE (07 R136, R140, R146): the word for rd and TK, and the state; a message's is executed as HOST of its task
record's buffer and length. DEDUCED, log entry 53. -/
def moveOp (s : State) (t p : Nat) (w : W36) (dom : Nat) : W36 × State :=
  match ticketCheck s p w with
  | .ok n =>
    let tk := ticket s n.idx
    if n.sub.isSome then (nullTicket, hltCnt s p 7)
    else if tk.passed then (nullTicket, s)
    else if !(flag s (0x68000 + 8 * dom) 0) ∨ domOwner s dom ≠ some p then
      (nullTicket,
        if (domOwner s dom).isSome ∧ domOwner s dom ≠ some p then violate s p 6 (thrAgent t) dom 0 else s)
    else if tk.item.kind = 1 then
      (nullTicket, finishResult (stfCnt s p 7 1) t p n true tk.item.buf tk.item.len
        (bitsOf (rdDev s (0x68004 + 8 * tk.dom)) 11 0) 0)
    else
      let task := tk.task
      let s := freeTicket s n.idx
      let (i, s) := issueTicket s dom p tk.item tk.deadline
      let s := setTicket s i { ticket s i with dispatched := true, task := task, killed := tk.killed, pts := tk.pts }
      let nw := ticketWord s i
      let s := match task with
        | some id => updTask s id (fun x => { x with tkw := nw, recG := x.recG.set 1 nw })
        | none => s
      (nw, hltCnt s p 3)
  | c => (nullTicket, refuseTicket s t p w c)

/-- SPLIT (07 R143): the word for rd and the state. -/
def splitOp (s : State) (t p : Nat) (w : W36) (n : Nat) : W36 × State :=
  match ticketCheck s p w with
  | .ok k =>
    if k.sub.isSome ∨ n < 2 ∨ 8 < n then (nullTicket, hltCnt s p 7)
    else
      let s := setTicket s k.idx { ticket s k.idx with subs := List.replicate n {} }
      (subWord (ticketWord s k.idx) 0, hltCnt s p 4)
  | c => (nullTicket, refuseTicket s t p w c)

/-- Store a direction. -/
def setStfDir (s : State) (i d : Nat) (x : StfDir) : State := setConn s i ((conn s i).setDir d x)

/-- Change a direction. -/
def updStfDir (s : State) (i d : Nat) (f : StfDir → StfDir) : State := setStfDir s i d (f ((conn s i).dir d))

/-- A message gets its ticket: INFL of its direction counts it (04 Table 04-1). -/
def messageTicketed (s : State) (it : Item) : State :=
  if it.kind = 1 then updStfDir s it.stix it.dir (fun x => { x with infl := x.infl + 1 }) else s

/-- Heads of the issue queues of the partitions that may draw a ticket, Bolt and reset apart, with their arrival
(07 R134). A task of an order domain that is not the partition's waits until it is (01 R15; DESIGN CHOICE, log entry
49). -/
def issueHeads (s : State) : List (Nat × Item) :=
  (List.range 8).filterMap (fun p =>
    if inBolt s p || inReset s p || !canIssue s p then none
    else ((mget [] s.hlt.issueQ p).head?.filter (fun it => decide (domOwner s it.dom = some p))).map (fun it => (p, it)))

/-- Free indices of the pool. -/
def freeTickets (s : State) : Nat := 16384 - ticketsInUse s none

/-- Tasks of a partition below its quota that reached the Halter before `arr` and take an index before one that
arrived then. -/
def olderTasks (s : State) (p arr : Nat) : Nat :=
  min (quota s p - ticketsInUse s (some p))
    ((mget [] s.hlt.issueQ p ++ mget [] s.hlt.holdQ p).filter (fun it => decide (it.arr < arr))).length

/-- Indices that the tasks of other partitions take before one of partition `p` that arrived at `arr`: an index that
frees goes to the earliest of the heads, again and again (07 R134). -/
def olderClaims (s : State) (p arr : Nat) : Nat :=
  ((issueHeads s).map (fun x => if x.1 = p then 0 else olderTasks s x.1 arr)).sum

/-- Fill the issue queue of 512 from the hold list, in arrival order (07 R134). -/
def refillIssue (s : State) (p : Nat) : State :=
  let q := mget [] s.hlt.issueQ p
  let h := mget [] s.hlt.holdQ p
  let n := 512 - q.length
  { s with hlt := { s.hlt with
      issueQ := mset [] s.hlt.issueQ p (q ++ h.take n), holdQ := mset [] s.hlt.holdQ p (h.drop n) } }

/-- Put an entry at the tail of its level (07 R148). -/
def pushReady (s : State) (p level : Nat) (x : ReadyWhat) : State :=
  unstall { s with hlt := { s.hlt with ready := s.hlt.ready ++ [{ part := p, level := level, what := x }] } } p

/-- A ticket for the head of a partition's issue queue, when earlier tasks of other partitions leave it an index; its
task joins the ready list (07 R133, R134, R144). -/
def ticketIssueNow (s : State) (p : Nat) : State :=
  match (issueHeads s).find? (fun x => decide (x.1 = p)) with
  | none => s
  | some (_, it) =>
    if freeTickets s ≤ olderClaims s p it.arr then s
    else
      let s := { s with hlt := { s.hlt with issueQ := mset [] s.hlt.issueQ p ((mget [] s.hlt.issueQ p).drop 1) } }
      let s := refillIssue s p
      let dl := deadlineOf s it.dom it.t0
      let (i, s) := issueTicket (messageTicketed s it) it.dom p it dl
      let s := ticketReach s i none 1
      pushReady s p it.prio (.fresh (ticketWord s i) it dl)

/-- Tickets for the tasks that have reached the Halter, the earliest head first, at most `fuel` of them: a post draws its
ticket behind them (07 R133, R134). -/
def issueWaiting : Nat → State → State
  | 0, s => s
  | fuel + 1, s =>
    match (sortBy (fun (x : Nat × Item) => x.2.arr) (issueHeads s)).head? with
    | none => s
    | some (p, _) => issueWaiting fuel (ticketIssueNow s p)

/-- Tasks that wait for a ticket. -/
def tasksWaiting (s : State) : Nat :=
  ((s.hlt.issueQ ++ s.hlt.holdQ).map (fun kx => kx.2.length)).sum

/-- The tick of delay lists in ns (07 R151). -/
def tickNs (s : State) : Nat := 100 * max 1 (min 10000 (fld s 0x60000 13 0))

/-- The tick counter (07 R151): it advances every tick, and goes on from its count when SCH_CFG.TICK is rewritten. -/
def tickNow (s : State) : Nat := s.hlt.ticks + (s.now - s.hlt.ticksAt) / tickNs s

/-- The tick an entry armed now with `d` ticks falls due on (07 R151). -/
def dueAt (s : State) (d : Nat) : Nat := tickNow s + max 1 (min d (2 ^ 24))

/-- A write of SCH_CFG: the tick counter keeps its count, and its new tick begins. -/
def schCfgWrite (s : State) (v : Nat) : State :=
  let n := tickNow s
  wrDev { s with hlt := { s.hlt with ticks := n, ticksAt := s.now } } 0x60000 v

/-- Put an entry on a delay list. -/
def pushDelay (s : State) (p due : Nat) (x : ReadyWhat) : State :=
  unstall { s with hlt := { s.hlt with delays := s.hlt.delays ++ [{ part := p, due := due, what := x }] } } p

/-- Post a task (07 Table 07-2, Table 07-8): status, ticket word and state. -/
def postTask (s : State) (p agent dom prio entry : Nat) (preempt : Bool) (buf len : Nat) (arg : W36) (delay : Nat) :
    Nat × W36 × State :=
  if !(decide (dom < 4096) && flag s (0x68000 + 8 * dom) 0) ∨ domOwner s dom ≠ some p then
    (0x61, nullTicket,
      if dom < 4096 ∧ (domOwner s dom).isSome ∧ domOwner s dom ≠ some p then violate s p 6 agent dom 0 else s)
  else
    let s := issueWaiting (tasksWaiting s) s
    if !canIssue s p then (0x60, nullTicket, s)
    else
      let it : Item := { kind := 3, part := p, prio := prio % 16, entry := entry, preempt := preempt, dom := dom,
                         buf := buf, len := len, arg := arg, t0 := tai s, tEnd := tai s, flow := 0x1FFFFFF, port := 0xFF }
      let dl := deadlineOf s dom (tai s)
      let (i, s) := issueTicket s dom p it dl
      let s := ticketReach s i none 1
      let w := ticketWord s i
      let x := ReadyWhat.fresh w it dl
      (0, w, if delay = 0 then pushReady s p (prio % 16) x else pushDelay s p (dueAt s delay) x)

/-- May the supervisor's command, or the domain's owner, query it: an enabled domain with an owner (07 R157,
Table 07-9). -/
def mayQueryDom (s : State) (p dom : Nat) : Bool :=
  decide (dom < 4096) && flag s (0x68000 + 8 * dom) 0 && (domOwner s dom).isSome &&
    (isSup s p || decide (domOwner s dom = some p))

/-- The 16 octets of HLT_QUERY (07 Table 07-8). -/
def domQuery (s : State) (d : Nat) : List Octet :=
  let l := domOrder s d
  let oldest := (l.head?.map (fun i => ticketWord s i)).getD nullTicket
  beOctets 5 oldest.toNat ++ beOctets 2 l.length ++
    beOctets 2 (l.filter (fun i => (ticket s i).complete && !(ticket s i).passed)).length ++
    beOctets 2 (l.filter (fun i => (ticket s i).passed && !(ticket s i).complete)).length ++
    beOctets 1 (bitsOf (hltDom s d) 6 5) ++ zeros 4

end Sys2Proof.Machine
end

