-- ==== Sys2Proof/Machine/Slow.lean ====
section
/-! DEFINITION. The slow path that parser, framer and classifier divert frames to: its reasons, its buckets and the
exception queue (03 R57-R61, 01 R10, R13; 14 R311, R312). -/

namespace Sys2Proof.Machine

/-- The partition that owns the default profile of a port, as the lanes see it (03 R58). -/
def defaultPart (s : State) (port : Nat) : Option Nat := profOwner s (parFld s (0x30200 + 4 * port) 7 0)

/-- Audit class of the default profile of a port (DESIGN CHOICE, log entry 19). -/
def defaultClass (s : State) (port : Nat) : Nat := (Config.profileClass (parFld s (0x30200 + 4 * port) 7 0)).toNat

/-- A full bucket pair at the reset values of PAR_SLOWP and PAR_SLOWB (03 R61). -/
def bucketReset : Bucket := ⟨64000, 524288⟩

/-- The buckets of a partition. -/
def bucket (s : State) (p : Nat) : Bucket := mget bucketReset s.par.buckets p

/-- Store the buckets of a partition. -/
def setBucket (s : State) (p : Nat) (b : Bucket) : State :=
  { s with par := { s.par with buckets := mset bucketReset s.par.buckets p b } }

/-- Largest content of the packet bucket, in 1/1,000 packet. -/
def pktBurst (s : State) (p : Nat) : Nat := 1000 * fld s (0x30100 + 4 * p) 31 16
/-- Largest content of the bit bucket: a BURST below 9 KiB acts as 9 KiB (03 R61). -/
def bitBurst (s : State) (p : Nat) : Nat := 8192 * max 9 (fld s (0x30120 + 4 * p) 31 16)

/-- One refill of a partition's buckets (03 R60). -/
def refillBucket (s : State) (p : Nat) : State :=
  let b := bucket s p
  setBucket s p ⟨min (pktBurst s p) (b.pkt + fld s (0x30100 + 4 * p) 15 0),
    min (bitBurst s p) (b.bit + fld s (0x30120 + 4 * p) 15 0)⟩

/-- A write of BURST cuts a bucket that holds more (03 R61). -/
def cutBucket (s : State) (p : Nat) : State :=
  let b := bucket s p
  setBucket s p ⟨min (pktBurst s p) b.pkt, min (bitBurst s p) b.bit⟩

/-- Fill the buckets of a partition, as device reset does (03 R61). -/
def fillBucket (s : State) (p : Nat) : State := setBucket s p ⟨pktBurst s p, bitBurst s p⟩

/-- Count in PAR_SLOWCNT of a partition. -/
def slowCnt (s : State) (p k n : Nat) : State := pcnt s 0x30800 0x20 p k n

/-- Drop a frame of a partition that takes none (01 R13); `reason` when the slow path diverted it. -/
def noServiceDrop (s : State) (it : Item) (agent reason : Nat) : State :=
  let s := { s with regs := { s.regs with
    noService := mset 0 s.regs.noService it.part (mget 0 s.regs.noService it.part + 1) } }
  endUse (jnlItem s it 0x09 0 0xFFFFFFFFF false reason none) agent it.buf

/-- Drop a frame of the slow path (03 R60, 14 R312). -/
def slowDrop (s : State) (it : Item) (agent reason : Nat) : State :=
  endUse (jnlItem s it 0x08 0 0xFFFFFFFFF false reason none) agent it.buf

/-- Exception frames of a partition that wait for its ring. -/
def excWaiting (s : State) (p : Nat) : Nat :=
  (s.gpl.deliv.filter (fun d => decide (d.kind = .exception) && decide (d.part = p))).length

/-- A frame joins the exception queue of 256 of its partition (14 R311, R312): the parse record, the frame without its
FCS, then `aux`. DEDUCED, log entry 50. -/
def toException (s : State) (it : Item) (agent reason : Nat) (aux : List Octet) : State :=
  if 256 ≤ excWaiting s it.part then slowDrop (gplCnt s it.part 5 1) it agent reason
  else
    let s := passBuf s it.buf agent (dmaAgent s it.part)
    queueDeliv s {
      kind := .exception, part := it.part, ring := 0, octets := fit 64 it.precd ++ devRead s it.buf it.len ++ aux,
      result := fieldBe it.precd 8 8,
      detail := beOctets 4 it.flow ++ beOctets 1 reason ++ beOctets 1 it.port ++ beOctets 2 aux.length,
      buf := some it.buf, jitem := some it, reason := reason }

/-- The item as the slow path takes it: in the partition chosen for it or that of its port's default profile, with
REASON in its record (01 R10, 03 R56, R58). -/
def slowItem (s : State) (it : Item) (reason : Nat) (part : Option Nat) (p : Nat) : Item :=
  { it with part := p, precd := (fit 64 it.precd).set 1 (BitVec.ofNat 8 reason),
            audit := if part.isSome then it.audit else defaultClass s it.port }

/-- Divert a frame to the slow path (03 R57-R60). A frame for a partition that takes none is dropped (01 R13); of the
partition of a port's default profile only Bolt and reset are tested (03 R58). `it.len` is the frame's length without FCS; `part` the partition
chosen for it, if one was. -/
def slowPath (s : State) (it : Item) (agent reason : Nat) (part : Option Nat) (aux : List Octet) : State :=
  let s := cntAdd s (0x30C00 + 8 * reason) 1
  match part.orElse (fun _ => defaultPart s it.port) with
  | none => endUse (cntAdd s 0x30C00 1) agent it.buf
  | some p =>
    let it := slowItem s it reason part p
    if (if part.isSome then noService s p else inBolt s p || inReset s p) then noServiceDrop s it agent reason
    else
      let b := bucket s p
      let len := fieldBe it.precd 6 2
      if 1000 ≤ b.pkt ∧ 8 * len ≤ b.bit then
        let s := slowCnt (slowCnt (setBucket s p ⟨b.pkt - 1000, b.bit - 8 * len⟩) p 0 1) p 1 len
        toException s it agent reason aux
      else slowDrop (slowCnt s p (if b.pkt < 1000 then 2 else 3) 1) it agent reason

/-- Does a diversion wait for the journal's intake (13 R291). -/
def slowHolds (s : State) (it : Item) (part : Option Nat) : Bool :=
  audited s (if part.isSome then it.audit else defaultClass s it.port) && jnlFull s

end Sys2Proof.Machine
end

