-- ==== Sys2Proof/Machine/Cipher.lean ====
section
/-! DEFINITION. The block ciphers of the engines (13 R276): AES with CMAC, GCM, key wrap and CBC, and TDES with CBC
and ISO 9797-1 MAC algorithm 3, and the ANSI X9.143 version D key block (13 R281). The algorithms and their tables
are those of the standards the spec names; PRESUMED, log entry 10. -/

namespace Sys2Proof.Machine

/-- The AES S-box, entry 0 in the lowest octet. -/
def aesSbox : Nat :=
  0x16bb54b00f2d99416842e6bf0d89a18cdf2855cee9871e9b948ed9691198f8e19e1dc186b95735610ef6034866b53e708a8bbd4b1f74dde8c6b4a61c2e2578ba08ae7a65eaf4566ca94ed58d6d37c8e779e4959162acd3c25c2406490a3a32e0db0b5ede14b8ee4688902a22dc4f816073195d643d7ea7c41744975fec130ccdd2f3ff1021dab6bcf5389d928f40a351a89f3c507f02f94585334d43fbaaefd0cf584c4a39becb6a5bb1fc20ed00d153842fe329b3d63b52a05a6e1b1a2c830975b227ebe28012079a059618c323c7041531d871f1e5a534ccf73f362693fdb7c072a49cafa2d4adf04759fa7dc982ca76abd7fe2b670130c56f6bf27b777c63

/-- The inverse S-box. -/
def aesInvSbox : Nat :=
  0x7d0c2155631469e126d677ba7e042b17619953833cbbebc8b0f52aae4d3be0a0ef9cc9939f7ae52d0d4ab519a97f51605fec8027591012b131c7078833a8dd1ff45acd78fec0db9a2079d2c64b3e56fc1bbe18aa0e62b76f89c5291d711af1476edf751ce837f9e28535ade72274ac9673e6b4f0cecff297eadc674f4111913a6b8a130103bdafc1020f3fca8f1e2cd00645b3b80558e4f70ad3bc8c00abd890849d8da75746155edab9edfd5048706c92b6655dcc5ca4d41698688664f6f87225d18b6d49a25b76b224d92866a12e084ec3fa420b954cee3d23c2a632947b54cbe9dec444438e3487ff2f9b8239e37cfbd7f3819ea340bf38a53630d56a0952

/-- An entry of a packed octet table. -/
def tabOct (t i : Nat) : Nat := (t >>> (8 * i)) % 256

/-- Multiply by x in the AES field. -/
def xtime (a : Nat) : Nat := if a < 128 then 2 * a else (2 * a - 256) ^^^ 0x1B

/-- Multiply in the AES field by a small constant. -/
def gfMul (c a : Nat) : Nat :=
  let a2 := xtime a
  let a4 := xtime a2
  let a8 := xtime a4
  (if bitOf c 0 then a else 0) ^^^ (if bitOf c 1 then a2 else 0) ^^^ (if bitOf c 2 then a4 else 0) ^^^
    (if bitOf c 3 then a8 else 0)

/-- Octets as numbers. -/
def toNats (l : List Octet) : List Nat := l.map (·.toNat)

/-- Numbers as octets. -/
def toOctets (l : List Nat) : List Octet := l.map (BitVec.ofNat 8)

/-- One AES column times a circulant row of constants. -/
def mixColumn (c : List Nat) (col : List Nat) : List Nat :=
  (List.range 4).map (fun r =>
    (List.range 4).foldl (fun acc k => acc ^^^ gfMul (c.getD ((k + 4 - r) % 4) 0) (col.getD k 0)) 0)

/-- Mix all four columns. -/
def mixColumns (c : List Nat) (st : List Nat) : List Nat :=
  (List.range 4).flatMap (fun k => mixColumn c ((st.drop (4 * k)).take 4))

/-- Shift the rows of the state (column order) by `d` times the row number. -/
def shiftRows (d : Nat) (st : List Nat) : List Nat :=
  (List.range 16).map (fun i => st.getD ((i + 4 * d * (i % 4)) % 16) 0)

/-- Key expansion, 4-octet words newest first, grown by `n` words; `nk` words of key. -/
def aesExpand (nk : Nat) : Nat → Nat → Nat → List (List Nat) → List (List Nat)
  | 0, _, _, ws => ws
  | n + 1, i, rc, ws =>
    let t := ws.getD 0 []
    let sub := fun (w : List Nat) => w.map (tabOct aesSbox)
    let t' :=
      if i % nk = 0 then List.zipWith (· ^^^ ·) (sub (t.drop 1 ++ t.take 1)) [rc, 0, 0, 0]
      else if nk > 6 ∧ i % nk = 4 then sub t
      else t
    let w := List.zipWith (· ^^^ ·) t' (ws.getD (nk - 1) [])
    aesExpand nk n (i + 1) (if i % nk = 0 then xtime rc else rc) (w :: ws)

/-- The words of a key, in order. -/
def keyWords : Nat → List Nat → List (List Nat)
  | 0, _ => []
  | n + 1, l => l.take 4 :: keyWords n (l.drop 4)

/-- Round keys of an AES key of 16, 24 or 32 octets, 16 numbers each. -/
def aesKeys (key : List Octet) : List (List Nat) :=
  let nk := key.length / 4
  let ws := (aesExpand nk (3 * nk + 28) nk 1 (keyWords nk (toNats key)).reverse).reverse
  (List.range (nk + 7)).map (fun r => ((ws.drop (4 * r)).take 4).flatten)

/-- Add a round key. -/
def addKey (k st : List Nat) : List Nat := List.zipWith (· ^^^ ·) st k

/-- AES encryption of one block with round keys. -/
def aesEncK (ks : List (List Nat)) (b : List Octet) : List Octet :=
  let n := ks.length - 1
  let st := (List.range (n - 1)).foldl
    (fun st r => addKey (ks.getD (r + 1) []) (mixColumns [2, 3, 1, 1] (shiftRows 1 (st.map (tabOct aesSbox)))))
    (addKey (ks.getD 0 []) (toNats b))
  toOctets (addKey (ks.getD n []) (shiftRows 1 (st.map (tabOct aesSbox))))

/-- AES decryption of one block with round keys. -/
def aesDecK (ks : List (List Nat)) (b : List Octet) : List Octet :=
  let n := ks.length - 1
  let st := (List.range (n - 1)).foldl
    (fun st r => mixColumns [14, 11, 13, 9] (addKey (ks.getD (n - 1 - r) []) ((shiftRows 3 st).map (tabOct aesInvSbox))))
    (addKey (ks.getD n []) (toNats b))
  toOctets (addKey (ks.getD 0 []) ((shiftRows 3 st).map (tabOct aesInvSbox)))

/-- Double a 16-octet block in the CMAC field. -/
def cmacDouble (b : List Octet) : List Octet :=
  let v := beNat b
  beOctets 16 (if v < 2 ^ 127 then 2 * v else (2 * v - 2 ^ 128) ^^^ 0x87)

/-- CBC chaining of full blocks: `n` blocks of `bs` octets. -/
def cbcMacRun (bs : Nat) (enc : List Octet → List Octet) : Nat → List Octet → List Octet → List Octet
  | 0, _, c => c
  | n + 1, m, c => cbcMacRun bs enc n (m.drop bs) (enc (xorOctets (m.take bs) c))

/-- AES-CMAC, 16 octets (SP 800-38B). -/
def aesCmac (key m : List Octet) : List Octet :=
  let ks := aesKeys key
  let k1 := cmacDouble (aesEncK ks (zeros 16))
  let k2 := cmacDouble k1
  let n := if m.length = 0 then 1 else cdiv m.length 16
  let last := m.drop (16 * (n - 1))
  let lastB := if last.length = 16 then xorOctets last k1 else xorOctets (fit 16 (last ++ [0x80])) k2
  cbcMacRun 16 (aesEncK ks) n (m.take (16 * (n - 1)) ++ lastB) (zeros 16)

/-- CBC encryption of `n` blocks. -/
def cbcEnc (bs : Nat) (enc : List Octet → List Octet) : Nat → List Octet → List Octet → List Octet
  | 0, _, _ => []
  | n + 1, m, iv => let c := enc (xorOctets (m.take bs) iv); c ++ cbcEnc bs enc n (m.drop bs) c

/-- CBC decryption of `n` blocks. -/
def cbcDec (bs : Nat) (dec : List Octet → List Octet) : Nat → List Octet → List Octet → List Octet
  | 0, _, _ => []
  | n + 1, m, iv => xorOctets (dec (m.take bs)) iv ++ cbcDec bs dec n (m.drop bs) (m.take bs)

/-- Counter-mode key stream of `n` blocks from a 16-octet counter block whose last 4 octets count. -/
def ctrStream (enc : List Octet → List Octet) : Nat → List Octet → Nat → List Octet
  | 0, _, _ => []
  | n + 1, nonce, c => enc (nonce ++ beOctets 4 c) ++ ctrStream enc n nonce (c + 1)

/-- Multiply in the GHASH field, bits counted from the most significant. -/
def ghashMul (x h : Nat) : Nat :=
  ((List.range 128).foldl (fun (zv : Nat × Nat) i =>
    let z := if bitOf x (127 - i) then zv.1 ^^^ zv.2 else zv.1
    (z, if zv.2 % 2 = 1 then (zv.2 / 2) ^^^ (0xE1 <<< 120) else zv.2 / 2)) (0, h)).1

/-- GHASH over full 16-octet blocks. -/
def ghash (h : Nat) : Nat → List Octet → Nat → Nat
  | 0, _, y => y
  | n + 1, l, y => ghash h n (l.drop 16) (ghashMul (y ^^^ beNat (l.take 16)) h)

/-- Fill with zeros to a multiple of 16 octets. -/
def pad16 (l : List Octet) : List Octet := fit (16 * cdiv l.length 16) l

/-- The GCM tag of additional data and ciphertext under a 12-octet nonce (SP 800-38D). -/
def gcmTag (key nonce aad ct : List Octet) : List Octet :=
  let ks := aesKeys key
  let h := beNat (aesEncK ks (zeros 16))
  let l := pad16 aad ++ pad16 ct ++ beOctets 8 (8 * aad.length) ++ beOctets 8 (8 * ct.length)
  xorOctets (beOctets 16 (ghash h (l.length / 16) l 0)) (aesEncK ks (nonce ++ beOctets 4 1))

/-- GCM counter mode: encrypts and decrypts. -/
def gcmCrypt (key nonce m : List Octet) : List Octet :=
  xorOctets m (ctrStream (aesEncK (aesKeys key)) (cdiv m.length 16) nonce 2)

/-- One step of key wrap: A, the list of 8-octet halves and the step number (RFC 3394). -/
def kwStep (ks : List (List Nat)) (n : Nat) (s : List Octet × List (List Octet)) (t : Nat) : List Octet × List (List Octet) :=
  let i := (t - 1) % n
  let b := aesEncK ks (s.1 ++ s.2.getD i [])
  (xorOctets (b.take 8) (beOctets 8 t), s.2.set i (b.drop 8))

/-- One step of key unwrap. -/
def kwUnstep (ks : List (List Nat)) (n : Nat) (s : List Octet × List (List Octet)) (t : Nat) : List Octet × List (List Octet) :=
  let i := (t - 1) % n
  let b := aesDecK ks (xorOctets s.1 (beOctets 8 t) ++ s.2.getD i [])
  (b.take 8, s.2.set i (b.drop 8))

/-- Cut into pieces of `k` octets. -/
def pieces (k : Nat) : Nat → List Octet → List (List Octet)
  | 0, _ => []
  | n + 1, l => l.take k :: pieces k n (l.drop k)

/-- AES key wrap (RFC 3394). -/
def kwrap (key p : List Octet) : List Octet :=
  let n := p.length / 8
  let r := (List.range (6 * n)).foldl (fun s t => kwStep (aesKeys key) n s (t + 1))
    (List.replicate 8 0xA6, pieces 8 n p)
  r.1 ++ r.2.flatten

/-- AES key unwrap: none when the integrity check fails. -/
def kunwrap (key c : List Octet) : Option (List Octet) :=
  let n := c.length / 8 - 1
  let r := (List.range (6 * n)).foldl (fun s t => kwUnstep (aesKeys key) n s (6 * n - t))
    (c.take 8, pieces 8 n (c.drop 8))
  if r.1 = List.replicate 8 0xA6 then some r.2.flatten else none

/-- Initial permutation of DES. -/
def desIp : List Nat :=
  [58, 50, 42, 34, 26, 18, 10, 2, 60, 52, 44, 36, 28, 20, 12, 4, 62, 54, 46, 38, 30, 22, 14, 6, 64, 56, 48, 40,
   32, 24, 16, 8, 57, 49, 41, 33, 25, 17, 9, 1, 59, 51, 43, 35, 27, 19, 11, 3, 61, 53, 45, 37, 29, 21, 13, 5,
   63, 55, 47, 39, 31, 23, 15, 7]

/-- Final permutation. -/
def desFp : List Nat :=
  [40, 8, 48, 16, 56, 24, 64, 32, 39, 7, 47, 15, 55, 23, 63, 31, 38, 6, 46, 14, 54, 22, 62, 30, 37, 5, 45, 13,
   53, 21, 61, 29, 36, 4, 44, 12, 52, 20, 60, 28, 35, 3, 43, 11, 51, 19, 59, 27, 34, 2, 42, 10, 50, 18, 58, 26,
   33, 1, 41, 9, 49, 17, 57, 25]

/-- Expansion. -/
def desE : List Nat :=
  [32, 1, 2, 3, 4, 5, 4, 5, 6, 7, 8, 9, 8, 9, 10, 11, 12, 13, 12, 13, 14, 15, 16, 17, 16, 17, 18, 19, 20, 21, 20,
   21, 22, 23, 24, 25, 24, 25, 26, 27, 28, 29, 28, 29, 30, 31, 32, 1]

/-- Permutation after the S-boxes. -/
def desP : List Nat :=
  [16, 7, 20, 21, 29, 12, 28, 17, 1, 15, 23, 26, 5, 18, 31, 10, 2, 8, 24, 14, 32, 27, 3, 9, 19, 13, 30, 6, 22,
   11, 4, 25]

/-- Key choice 1. -/
def desPc1 : List Nat :=
  [57, 49, 41, 33, 25, 17, 9, 1, 58, 50, 42, 34, 26, 18, 10, 2, 59, 51, 43, 35, 27, 19, 11, 3, 60, 52, 44, 36,
   63, 55, 47, 39, 31, 23, 15, 7, 62, 54, 46, 38, 30, 22, 14, 6, 61, 53, 45, 37, 29, 21, 13, 5, 28, 20, 12, 4]

/-- Key choice 2. -/
def desPc2 : List Nat :=
  [14, 17, 11, 24, 1, 5, 3, 28, 15, 6, 21, 10, 23, 19, 12, 4, 26, 8, 16, 7, 27, 20, 13, 2, 41, 52, 31, 37, 47,
   55, 30, 40, 51, 45, 33, 48, 44, 49, 39, 56, 34, 53, 46, 42, 50, 36, 29, 32]

/-- The eight DES S-boxes, entry row * 16 + column in nibbles from the lowest. -/
def desS : List Nat :=
  [0xd60ae3b5719428cf05a379cfb26d8e148359bc6a1d2e47f07095c6a38bf21d4e,
   0x9e50c76b24f31a8df2396c851d4ab7e05b96a10ce82f74d3a50cd27943b6e81f,
   0xc25b3ef478960da17ea5c21b03f8946d1fbce582a643907d824b7cd15f36e90a,
   0xe27cb5498d1a60f34825e31fd7bc096a9ea1c27430f65b8df4cb5821a9603ed7,
   0x354a90f6d2e17c8be0365c9f87dab1246893af051d74c2be9e0df3586ba714c2,
   0xd80671ebaf59c2346bd1a4073c825fe983b0ed1659c724fab57e43d08629fa1c,
   0xc32ef0597a418db6295086fae73cdb4168f2c53ea1947b0d16a579c3d80fe2b4,
   0xb65309cfd8a47e12853fda602ec914b729e0b65c473a8df17c05e39a1bf6482d]

/-- Left shifts of the DES key schedule. -/
def desShifts : List Nat := [1, 1, 2, 2, 2, 2, 2, 2, 1, 2, 2, 2, 2, 2, 2, 1]

/-- Choose bits of a `w`-bit number by a table that counts from 1 at the most significant bit. -/
def permute (w : Nat) (t : List Nat) (v : Nat) : Nat := t.foldl (fun a p => a * 2 + v / 2 ^ (w - p) % 2) 0

/-- The 16 round keys of a DES key. -/
def desKeys (key : Nat) : List Nat :=
  let k := permute 64 desPc1 key
  let rot := fun (x n : Nat) => (x <<< n) % 2 ^ 28 ||| (x >>> (28 - n))
  ((desShifts.foldl (fun (acc : List Nat × Nat × Nat) n =>
      let c := rot acc.2.1 n
      let d := rot acc.2.2 n
      (permute 56 desPc2 (c * 2 ^ 28 + d) :: acc.1, c, d)) ([], k / 2 ^ 28, k % 2 ^ 28)).1).reverse

/-- The DES round function. -/
def desF (r k : Nat) : Nat :=
  let x := permute 32 desE r ^^^ k
  permute 32 desP ((List.range 8).foldl (fun a i =>
    let b := x / 2 ^ (42 - 6 * i) % 64
    a * 16 + (desS.getD i 0 >>> (4 * ((b / 32 * 2 + b % 2) * 16 + b / 2 % 16))) % 16) 0)

/-- DES on one 64-bit block with round keys in order of use. -/
def desBlock (ks : List Nat) (b : Nat) : Nat :=
  let v := permute 64 desIp b
  let lr := ks.foldl (fun (p : Nat × Nat) k => (p.2, p.1 ^^^ desF p.2 k)) (v / 2 ^ 32, v % 2 ^ 32)
  permute 64 desFp (lr.2 * 2 ^ 32 + lr.1)

/-- DES encryption or decryption of 8 octets. -/
def des (decrypt : Bool) (key b : List Octet) : List Octet :=
  let ks := desKeys (beNat key)
  beOctets 8 (desBlock (if decrypt then ks.reverse else ks) (beNat b))

/-- TDES encryption with a 16- or 24-octet key. -/
def tdesEnc (key b : List Octet) : List Octet :=
  let k1 := key.take 8
  des false (if key.length = 24 then key.drop 16 else k1) (des true (octs key 8 8) (des false k1 b))

/-- TDES decryption. -/
def tdesDec (key b : List Octet) : List Octet :=
  let k1 := key.take 8
  des true k1 (des false (octs key 8 8) (des true (if key.length = 24 then key.drop 16 else k1) b))

/-- ISO 9797-1 MAC algorithm 3 with padding method 1, or 2 when `pad2`; 8 octets. -/
def mac3 (pad2 : Bool) (key m : List Octet) : List Octet :=
  let p := if pad2 then m ++ [0x80] else m
  let n := if p.length = 0 then 1 else cdiv p.length 8
  let k1 := key.take 8
  let c := cbcMacRun 8 (des false k1) n (fit (8 * n) p) (zeros 8)
  des false (if key.length = 24 then key.drop 16 else k1) (des true (octs key 8 8) c)

/-- A key derived from a 32-octet KBPK for version D key blocks: `use` 0 encryption, 1 authentication (X9.143). -/
def x9Derive (kbpk : List Octet) (use_ : Nat) : List Octet :=
  let d := fun (c : Nat) => toOctets [c, 0, use_, 0, 0, 4, 1, 0]
  aesCmac kbpk (d 1) ++ aesCmac kbpk (d 2)

end Sys2Proof.Machine
end

