-- ==== Sys2Proof/Machine/Curve.lean ====
section
/-! DEFINITION. The public-key operations of the engines (13 R276): ECDSA over P-256 with nonces of RFC 6979, Ed25519
verification (RFC 8032), and RSA-2048 with PKCS#1 v1.5 and PSS (RFC 8017). The algorithms and domain parameters are
those of the standards the spec names; PRESUMED, log entry 10. -/

namespace Sys2Proof.Machine

/-- Modular power over the low `n` bits of the exponent. -/
def powModN (m : Nat) : Nat → Nat → Nat → Nat → Nat
  | 0, _, _, acc => acc
  | n + 1, b, e, acc => powModN m n (b * b % m) (e / 2) (if e % 2 = 1 then acc * b % m else acc)

/-- Modular power. -/
def powMod (m b e : Nat) : Nat := powModN m (Nat.log2 e + 1) (b % m) e (1 % m)

/-- Inverse modulo a prime. -/
def invMod (p a : Nat) : Nat := powMod p a (p - 2)

/-- Subtraction modulo `p`. -/
def subMod (p a b : Nat) : Nat := (a % p + p - b % p) % p

/-- The prime of P-256. -/
def p256P : Nat := 0xffffffff00000001000000000000000000000000ffffffffffffffffffffffff
/-- The order of P-256. -/
def p256N : Nat := 0xffffffff00000000ffffffffffffffffbce6faada7179e84f3b9cac2fc632551
/-- The coefficient b of P-256; a is -3. -/
def p256B : Nat := 0x5ac635d8aa3a93e7b3ebbd55769886bc651d06b0cc53b0f63bce3c3e27d2604b
/-- The base point of P-256. -/
def p256G : Nat × Nat :=
  (0x6b17d1f2e12c4247f8bce6e563a440f277037d812deb33a0f4a13945d898c296,
   0x4fe342e2fe1a7f9b8ee7eb4a7c0f9e162bce33576b315ececbb6406837bf51f5)

/-- Is the pair a point of the curve. -/
def p256On (q : Nat × Nat) : Bool :=
  decide (q.1 < p256P) && decide (q.2 < p256P) &&
    decide (q.2 * q.2 % p256P = (q.1 * q.1 % p256P * q.1 + 3 * (p256P - q.1) + p256B) % p256P)

/-- Point addition; none is the point at infinity. -/
def p256Add : Option (Nat × Nat) → Option (Nat × Nat) → Option (Nat × Nat)
  | none, q => q
  | q, none => q
  | some (x1, y1), some (x2, y2) =>
    if x1 = x2 ∧ (y1 + y2) % p256P = 0 then none
    else
      let l := if x1 = x2 then (3 * x1 * x1 + p256P - 3) % p256P * invMod p256P (2 * y1) % p256P
        else subMod p256P y2 y1 * invMod p256P (subMod p256P x2 x1) % p256P
      let x3 := subMod p256P (l * l) (x1 + x2)
      some (x3, subMod p256P (l * subMod p256P x1 x3) y1)

/-- Multiply a point by the low `n` bits of a number. -/
def p256MulN : Nat → Nat → Option (Nat × Nat) → Option (Nat × Nat) → Option (Nat × Nat)
  | 0, _, _, acc => acc
  | n + 1, k, q, acc => p256MulN n (k / 2) (p256Add q q) (if k % 2 = 1 then p256Add acc q else acc)

/-- Scalar multiplication. -/
def p256Mul (k : Nat) (q : Nat × Nat) : Option (Nat × Nat) := p256MulN 256 k (some q) none

/-- The public key of a private scalar, x then y, 64 octets; zeros at infinity. -/
def p256Public (d : Nat) : List Octet :=
  match p256Mul d p256G with
  | some q => beOctets 32 q.1 ++ beOctets 32 q.2
  | none => zeros 64

/-- A public key read from 64 octets, when it is a point of the curve. -/
def p256Read (k : List Octet) : Option (Nat × Nat) :=
  let q := (fieldBe k 0 32, fieldBe k 32 32)
  if p256On q then some q else none

/-- ECDSA verification of a digest (FIPS 186-5). -/
def ecdsaVerify (key digest sig : List Octet) : Bool :=
  let r := fieldBe sig 0 32
  let v := fieldBe sig 32 32
  match p256Read key with
  | none => false
  | some q =>
    if r = 0 ∨ v = 0 ∨ p256N ≤ r ∨ p256N ≤ v then false
    else
      let w := invMod p256N v
      match p256Add (p256Mul (beNat digest * w % p256N) p256G) (p256Mul (r * w % p256N) q) with
      | none => false
      | some x => decide (x.1 % p256N = r)

/-- The state K, V of RFC 6979 and the search for a nonce in range: `fuel` tries. -/
def rfc6979Try : Nat → List Octet → List Octet → Nat
  | 0, _, _ => 1
  | fuel + 1, k, v =>
    let v1 := hmac k v
    let c := beNat v1
    if 1 ≤ c ∧ c < p256N then c
    else
      let k2 := hmac k (v1 ++ [0])
      rfc6979Try fuel k2 (hmac k2 v1)

/-- The nonce of RFC 6979 for a private scalar and a digest. -/
def rfc6979 (d : Nat) (digest : List Octet) : Nat :=
  let x := beOctets 32 d ++ beOctets 32 (beNat digest % p256N)
  let v0 := List.replicate 32 (1 : Octet)
  let k1 := hmac (zeros 32) (v0 ++ [0] ++ x)
  let v1 := hmac k1 v0
  let k2 := hmac k1 (v1 ++ [1] ++ x)
  rfc6979Try 64 k2 (hmac k2 v1)

/-- ECDSA signature of a digest, r then s, 64 octets. -/
def ecdsaSign (d : Nat) (digest : List Octet) : List Octet :=
  let k := rfc6979 d digest
  let r := ((p256Mul k p256G).getD (0, 0)).1 % p256N
  beOctets 32 r ++ beOctets 32 (invMod p256N k * (beNat digest + r * d) % p256N)

/-- The prime of Ed25519. -/
def edP : Nat := 2 ^ 255 - 19
/-- The group order of Ed25519. -/
def edL : Nat := 2 ^ 252 + 27742317777372353535851937790883648493
/-- The curve constant d of Ed25519. -/
def edD : Nat := edP - 121665 * invMod edP 121666 % edP
/-- The base point of Ed25519. -/
def edG : Nat × Nat :=
  (15112221349535400772501151409588531511454012693041857206046113283949847762202,
   46316835694926478169428394003475163141307993866256225615783033603165251855960)

/-- Point addition on the twisted Edwards curve. -/
def edAdd (a b : Nat × Nat) : Nat × Nat :=
  let t := edD * (a.1 * b.1 % edP) % edP * (a.2 * b.2 % edP) % edP
  ((a.1 * b.2 + a.2 * b.1) % edP * invMod edP (1 + t) % edP,
   (a.2 * b.2 + a.1 * b.1) % edP * invMod edP (1 + edP - t) % edP)

/-- Multiply a point by the low `n` bits of a number. -/
def edMulN : Nat → Nat → Nat × Nat → Nat × Nat → Nat × Nat
  | 0, _, _, acc => acc
  | n + 1, k, q, acc => edMulN n (k / 2) (edAdd q q) (if k % 2 = 1 then edAdd acc q else acc)

/-- Scalar multiplication. -/
def edMul (k : Nat) (q : Nat × Nat) : Nat × Nat := edMulN 256 k q (0, 1)

/-- A point decoded from 32 octets; none for a non-canonical encoding or no point. -/
def edDecode (e : List Octet) : Option (Nat × Nat) :=
  let v := leNat e
  let y := v % 2 ^ 255
  let sign := v / 2 ^ 255
  if edP ≤ y then none
  else
    let u := subMod edP (y * y) 1
    let w := (edD * (y * y % edP) + 1) % edP
    let x2 := u * invMod edP w % edP
    let x := powMod edP x2 ((edP + 3) / 8)
    let x := if x * x % edP = x2 then x else x * powMod edP 2 ((edP - 1) / 4) % edP
    if x * x % edP ≠ x2 then none
    else if x = 0 ∧ sign = 1 then none
    else some (if x % 2 = sign then x else (edP - x) % edP, y)

/-- Ed25519 verification, cofactored (RFC 8032), with S below the group order. -/
def ed25519Verify (key m sig : List Octet) : Bool :=
  let sv := leNat (octs sig 32 32)
  match edDecode key, edDecode (octs sig 0 32) with
  | some a, some r =>
    if edL ≤ sv then false
    else
      let k := leNat (sha512 (octs sig 0 32 ++ key ++ m)) % edL
      decide (edMul 8 (edMul sv edG) = edMul 8 (edAdd r (edMul k a)))
  | _, _ => false

/-- The public key of an Ed25519 seed, 32 octets. -/
def ed25519Public (seed : List Octet) : List Octet :=
  let h := leNat ((sha512 seed).take 32)
  let k := h % 2 ^ 254 / 8 * 8 + 2 ^ 254
  let q := edMul k edG
  leOctets 32 (q.2 + q.1 % 2 * 2 ^ 255)

/-- The DigestInfo of a SHA-256 digest in PKCS#1 v1.5 (RFC 8017). -/
def digestInfo (digest : List Octet) : List Octet :=
  toOctets [0x30, 0x31, 0x30, 0x0d, 0x06, 0x09, 0x60, 0x86, 0x48, 0x01, 0x65, 0x03, 0x04, 0x02, 0x01, 0x05, 0x00,
    0x04, 0x20] ++ digest

/-- The 256-octet encoded message of PKCS#1 v1.5. -/
def pkcs1Encode (digest : List Octet) : List Octet :=
  [0, 1] ++ List.replicate 202 0xFF ++ [0] ++ digestInfo digest

/-- MGF1 with SHA-256: `n` hash outputs. -/
def mgf1 (seed : List Octet) (n : Nat) : List Octet :=
  (List.range n).flatMap (fun i => sha256 (seed ++ beOctets 4 i))

/-- The PSS encoding of a digest with a 32-octet salt for a 2,048-bit modulus (emBits 2,047). -/
def pssEncode (digest salt : List Octet) : List Octet :=
  let h := sha256 (zeros 8 ++ digest ++ salt)
  let db := zeros 190 ++ [1] ++ salt
  let masked := xorOctets db (mgf1 h 7)
  ((masked.headD 0) &&& 0x7F) :: masked.drop 1 ++ h ++ [0xBC]

/-- PSS verification of an encoded message. -/
def pssCheck (digest em : List Octet) : Bool :=
  let masked := em.take 223
  let h := octs em 223 32
  let db0 := xorOctets masked (mgf1 h 7)
  let db := ((db0.headD 0) &&& 0x7F) :: db0.drop 1
  decide (em.getD 255 0 = 0xBC) && decide ((em.headD 0) &&& 0x80 = 0) &&
    decide (db.take 190 = zeros 190) && decide (db.getD 190 0 = 1) &&
    decide (h = sha256 (zeros 8 ++ digest ++ db.drop 191))

/-- RSA-2048 verification: modulus and exponent as numbers. -/
def rsaVerify (pss : Bool) (n e : Nat) (digest sig : List Octet) : Bool :=
  let sv := beNat sig
  if n ≤ sv then false
  else
    let em := beOctets 256 (powMod n sv e)
    if pss then pssCheck digest em else decide (em = pkcs1Encode digest)

/-- RSA-2048 signature through the primes. -/
def rsaSign (p q dp dq qinv : Nat) (em : List Octet) : List Octet :=
  let m := beNat em
  let m1 := powMod p m dp
  let m2 := powMod q m dq
  let h := qinv * subMod p m1 m2 % p
  beOctets 256 (m2 + h * q)

end Sys2Proof.Machine
end

