-- ==== Sys2Proof/Machine/Sched.lean ====
section
/-! DEFINITION. The task scheduler and the faults of tasks: waiters, dispatch and resumption, delays and timers,
preemption, the end of a task, and taking a fault (07 R142, R148-R154; 08 R164, R167, R174-R177). -/

namespace Sys2Proof.Machine

/-- Does a thread wait for work: in GETWORK, not halted, on a cluster that runs tasks of the partition and a core that is
not stopped (16 Table 16-6 step 1). -/
def waitsFor (s : State) (p t : Nat) : Bool :=
  thrLive s t && decide (thrPart s t = some p) && decide ((thr s t).mode = .getwork) && !(thr s t).halted &&
    !coreHeld s (t / 16)

/-- The waiters of a partition, longest waiting first: threads that have waited since reset, in thread order, and then
those that joined the queue. -/
def waitersOf (s : State) (p : Nat) : List Nat :=
  ((clustersOf s p).flatMap (fun c => (List.range 128).map (fun i => c * 128 + i))).filter
      (fun t => waitsFor s p t && !s.hlt.waiters.contains t) ++
    s.hlt.waiters.filter (fun t => waitsFor s p t)

/-- A thread joins the tail of its waiter queue. -/
def joinWaiters (s : State) (t : Nat) : State :=
  { s with hlt := { s.hlt with waiters := s.hlt.waiters.filter (· ≠ t) ++ [t] } }

/-- A thread leaves the waiter queue. -/
def leaveWaiters (s : State) (t : Nat) : State :=
  { s with hlt := { s.hlt with waiters := s.hlt.waiters.filter (· ≠ t) } }

/-- A thread returns to GETWORK with its last acceptance mask; its registers stay (08 Table 08-2). -/
def enterGetwork (s : State) (t : Nat) : State :=
  joinWaiters (updThr s t (fun x => { x with
    mode := .getwork, inWait := false, fetchStop := false, stepping := false, async := [], haltReq := false, routine := none,
    ctx := { x.ctx.landAll with task := none, tags := [], micro := none } })) t

/-- Deal with each buffer left on a task's hold list (12 R253); `keep` stays for a redispatch. -/
def releaseHold (s : State) (id : Nat) (keep : Option Nat) : State :=
  match taskSt s id with
  | none => s
  | some x =>
    let s := x.hold.foldl (fun s a =>
      if keep = some a then s
      else
        let s := bufCnt s x.part 5
        if agentPart s (bufTag s a).owner = some x.part then endUse s (bufTag s a).owner a else s) s
    updTask s id (fun x => { x with hold := x.hold.filter (fun a => decide (keep = some a)) })

/-- End a task: its locks, its request, its channel slots and its buffers are dealt with, and it is gone
(11 R231, 12 R253). -/
def endTask (s : State) (id : Nat) (getwork : Bool) : State :=
  let s := releaseHold (haspTaskEnd s id getwork) id none
  { s with thr := { s.thr with tasks := mdel s.thr.tasks id } }

/-- Has a thread no helper operation or far access outstanding. -/
def tagsIdle (x : Thread) : Bool := x.ctx.tags.isEmpty

/-- GETWORK takes effect: the task ends and the thread joins the waiter queue (07 R142). -/
def getworkNow (s : State) (t : Nat) : State :=
  let s := match thrTask s t with
    | some id => endTask s id true
    | none => s
  enterGetwork s t

/-- TIMER (07 R152). -/
def timerOp (s : State) (t delay : Nat) : State :=
  updThr (unstall s ((thrPart s t).getD 8)) t (fun x => { x with
    timer := if delay = 0 then none else some { due := dueAt s delay, task := x.ctx.task } })

/-- Has the ticket of a task been passed. -/
def taskPassed (s : State) (w : W36) : Bool :=
  match ticketNamed s w with
  | some n => (ticket s n.idx).passed
  | none => false

/-- Set G1.LATE (07 Table 07-6). -/
def withLate (v : W36) (late : Bool) : W36 := if late then v ||| 0x2000 else v

/-- Octets 128-511 of the packet window: the first 384 octets of the buffer, zero past the length (08 R164). -/
def windowBody (s : State) (a len : Nat) : List Octet := fit 384 (devRead s a (min len 384))

/-- Window content as a map. -/
def windowMap (l : List Octet) : Map Octet := putOctets (fun _ => false) [] 0 (l.take 512)

/-- The registers a new task is loaded with: G1 to G8 (07 Table 07-5). -/
def dispatchRegs (s : State) (w : W36) (it : Item) (deadline : Nat) : List W36 :=
  let posted := decide (it.kind = 3)
  let word := fun (n : Nat) => BitVec.ofNat 36 n
  [withLate (word (it.kind + it.part * 16 + it.prio * 128 + b2n it.preempt * 2048)) (taskPassed s w),
   w, word it.buf, word it.len, it.arg,
   word (if posted then 0x1FFFFFF else it.flow), word deadline,
   if posted then 0 else word (it.port + oct it.precd 0 * 128 + fieldBe it.precd 2 2 * 32768)]

/-- The task descriptor: base and limit, none when G3 names no valid pool buffer (08 R167). -/
def taskSeg (s : State) (a : Nat) : Option (Nat × Nat) :=
  if ptrValid s a then some (a, bufSize s a - 1) else none

/-- May the buffer of G3 pass to a dispatched thread, as by GIVE: it is allocated, and owned by an internal agent or by an
agent of the task's partition (07 R139, 12 Table 12-2). DEDUCED, log entry 53. -/
def takesBuffer (s : State) (p a : Nat) : Bool :=
  (bufTag s a).alloc &&
    (isInternal (bufTag s a).owner || decide (agentPart s (bufTag s a).owner = some p))

/-- A context at the dispatch of a task onto a thread (08 Table 08-2, 07 Table 07-5). -/
def dispatchCtx (c : Ctx) (id : Nat) (g : List W36) (entry : Nat) (w : W36) (win : List Octet) : Ctx :=
  let c := g.zipIdx.foldl (fun (c : Ctx) vi => c.setG (vi.2 + 1) vi.1) c
  { c with
    pc := BitVec.ofNat 16 entry, sels := mset 0 (mset 0 c.sels 6 0x800) 7 0x801, ev := c.ev &&& 0x80, pg := 0, tk := w,
    win := windowMap win, late := [], tags := [], micro := none, task := some id }

/-- A thread runs a task it has been given. -/
def startThread (s : State) (t : Nat) (f : Ctx → Ctx) : State :=
  leaveWaiters (updThr s t (fun x => { x with
    ctx := f x.ctx, mode := .run, inWait := false, fetchStop := false, stepping := false, skipBp := false, async := [],
    routine := none })) t

/-- Buffers a task may hold (12 R253). -/
def holdMax : Nat := 8

/-- Enter the buffer of G3, when it is valid, in the hold list of a dispatched task, and give it to the task's thread; as
a GIVE, it changes nothing when the list is full (12 R253, 07 R139). -/
def takeG3 (s : State) (t id p a : Nat) : State :=
  if !ptrValid s a || ((taskSt s id).map (fun x => decide (holdMax ≤ x.hold.length))).getD false then s
  else
    let s := if takesBuffer s p a then setTag (unholdAll s a) a { bufTag s a with owner := thrAgent t } else s
    updTask s id (fun x => { x with hold := x.hold ++ [a] })

/-- Dispatch a new task (07 R149). -/
def dispatchFresh (s : State) (t : Nat) (w : W36) (it : Item) (deadline : Nat) : State :=
  let id := s.seq
  let g := dispatchRegs s w it deadline
  let body := if it.kind = 3 ∧ !ptrValid s it.buf then zeros 384 else windowBody s it.buf it.len
  let front := if it.kind = 3 then zeros 128 else fit 64 it.precd ++ fit 64 it.cls
  let x : TaskSt := {
    part := it.part, prio := it.prio, eprio := it.prio, tkw := w, entry := it.entry, recG := g, recWin := front,
    loc := .thread t, agent := thrAgent t, preempt := it.preempt, seg := taskSeg s it.buf, dispSeq := id }
  let s := putTask { s with seq := id + 1 } id x
  let s := takeG3 s t id it.part it.buf
  let s := match ticketNamed s w with
    | some n => setTicket s n.idx { ticket s n.idx with dispatched := true, task := some id }
    | none => s
  schCnt (startThread (unstall s it.part) t (fun c => dispatchCtx c id g it.entry w (front ++ body))) it.part 0

/-- Make a thread the owner of the buffers a task holds (12 R253). -/
def rehold (s : State) (t : Nat) (x : TaskSt) : State :=
  x.hold.foldl (fun s a =>
    if (bufTag s a).alloc && decide ((bufTag s a).owner = x.agent) then setTag s a { bufTag s a with owner := thrAgent t }
    else s) s

/-- Dispatch a deferred or retried task again, from its task record (07 R150, 08 R176). -/
def dispatchAgain (s : State) (t id : Nat) (deferred : Bool) : State :=
  match taskSt s id with
  | none => s
  | some x =>
    let late := taskPassed s x.tkw
    let g1 := withLate (BitVec.ofNat 36 (setBit (setBit (x.recG.getD 0 0).toNat 12 deferred) 13 false)) late
    let g := x.recG.set 0 g1
    let a := (g.getD 2 0).toNat
    let len := (g.getD 3 0).toNat
    let body := if (g1.toNat % 16 = 3 ∧ !ptrValid s a) then zeros 384 else windowBody s a len
    let s := rehold s t x
    let s := updTask s id (fun y => { y with
      loc := .thread t, agent := thrAgent t, deferred := false, pend := [], dispSeq := s.seq, seg := taskSeg s a,
      segOk := true })
    let s := { s with seq := s.seq + 1 }
    let s := if x.hold.contains a then s else takeG3 s t id x.part a
    let s := startThread (unstall s x.part) t (fun c => dispatchCtx c id g x.entry x.tkw (x.recWin ++ body))
    schCnt (updThr s t (fun y => { y with async := x.pend })) x.part 0

/-- Rebuild a task's descriptor at a resumption from G3 of its context (08 R167). Rights lost with a buffer that passed
from the thread stay lost while G3 names that buffer (DEDUCED, log entry 109). -/
def rebuildSeg (s : State) (id : Nat) (g3 : W36) : State :=
  let a := g3.toNat
  updTask s id (fun y => { y with
    seg := taskSeg s a, segOk := y.segOk || decide (y.seg.map (·.1) ≠ some a) })

/-- Resume a saved task on a thread of its core (07 R154, 08 R177). -/
def dispatchSaved (s : State) (t k : Nat) : State :=
  match slotSt s k with
  | none => s
  | some sv =>
    match sv.ctx.task.bind (taskSt s) with
    | none => delSlot s k
    | some x =>
      let id := sv.ctx.task.getD 0
      let c := sv.ctx.setG 1 (withLate (sv.ctx.g 1) (taskPassed s x.tkw))
      let s := rehold (delSlot s k) t x
      let s := updTask (rebuildSeg s id (sv.ctx.g 3)) id (fun y => { y with
        loc := .thread t, agent := thrAgent t, dispSeq := s.seq })
      let s := { s with seq := s.seq + 1 }
      let s := startThread (unstall s x.part) t (fun _ => c)
      let s := updThr s t (fun y => { y with async := sv.async })
      schCnt s x.part 2

/-- Does a thread accept a ready entry (07 R148): by its mask, and a saved task only on its own core. -/
def accepts (s : State) (t : Nat) (e : ReadyEnt) : Bool :=
  let m := (thr s t).mask.toNat
  (decide (m = 0) || bitOf m e.level) && (match e.what with
    | .saved k => decide (k / 16 = t / 16)
    | _ => true)

/-- Does the dispatch of a ready entry wait for the input digest of its audited task (13 R285). -/
def digestDue (s : State) (e : ReadyEnt) : Bool :=
  match e.what with
  | .fresh _ it _ => audited s it.audit && decide (s.now < it.digAt)
  | _ => false

/-- Ready entries of a partition, highest level first and in list order within a level. -/
def readyAll (s : State) (p : Nat) : List ReadyEnt :=
  sortBy (·.level) (s.hlt.ready.filter (fun e => decide (e.part = p)))

/-- Those of them that can be dispatched. One that waits for its digest lets the others pass. DESIGN CHOICE, log entry
113. -/
def readyOf (s : State) (p : Nat) : List ReadyEnt := (readyAll s p).filter (fun e => !digestDue s e)

/-- A dispatch that waits for the input digest of a task is counted, once for the task (13 Table 13-17). -/
def noteDigest (s : State) (p : Nat) : State :=
  match (readyAll s p).find? (fun e => (waitersOf s p).any (fun t => accepts s t e)) with
  | some ⟨_, _, .fresh w it dl⟩ =>
    let i := w.toNat % 16384
    let t := ticket s i
    if digestDue s ⟨p, 0, .fresh w it dl⟩ && !t.digWaited then cntAdd (setTicket s i { t with digWaited := true }) 0xC0130 1
    else s
  | _ => s

/-- One dispatch of a partition (07 R148): the highest level with an acceptable task, its earliest such task, the
longest-waiting thread that accepts it. -/
def dispatchOne (s : State) (p : Nat) : State :=
  if inBolt s p || inReset s p then s
  else
    let s := noteDigest s p
    let ws := waitersOf s p
    match (readyOf s p).findSome? (fun e => (ws.find? (fun t => accepts s t e)).map (fun t => (e, t))) with
    | none => s
    | some (e, t) =>
      let s := { s with hlt := { s.hlt with ready := s.hlt.ready.erase e } }
      match e.what with
      | .fresh w it dl => dispatchFresh s t w it dl
      | .redispatch id d => dispatchAgain s t id d
      | .saved k => dispatchSaved s t k

/-- The earliest delay entry of a partition that is due (07 R151). -/
def dueEntry (s : State) (p : Nat) : Option DelayEnt :=
  (sortBy (·.due) (s.hlt.delays.filter (fun e => decide (e.part = p ∧ e.due ≤ tickNow s)))).head?

/-- A delay entry falls due: its task joins the tail of the list of its effective priority (07 R152). -/
def delayDue (s : State) (p : Nat) : State :=
  if inReset s p then s
  else match dueEntry s p with
    | none => s
    | some e =>
      let s := { s with hlt := { s.hlt with delays := s.hlt.delays.erase e } }
      let level := match e.what with
        | .fresh _ it _ => it.prio
        | .redispatch id _ => ((taskSt s id).map (·.eprio)).getD 0
        | .saved _ => 0
      pushReady s p level e.what

/-- The timer of a thread falls due: EV[7] of the saved task that armed it, else of the context on the thread
(07 R152). -/
def timerDue (s : State) (t : Nat) : State :=
  match (thr s t).timer with
  | none => s
  | some tm =>
    if tickNow s < tm.due then s
    else
      let s := updThr s t (fun x => { x with timer := none })
      let s := match thrPart s t with
        | some p => schCnt s p 5
        | none => s
      let saved := match tm.task.bind (taskSt s) with
        | some x => (match x.loc with
          | .slot _ => true
          | _ => false)
        | none => false
      if saved then taskEv s (tm.task.getD 0) 0x80 else updCtx s t (fun c => c.setEv 0x80)

/-- Save the context of a thread's task in a slot in 4 turns, in which its late results land: the thread goes back to
GETWORK (07 R154, 08 R161, R175). -/
def saveCtx (s : State) (t k : Nat) (fault : Option FaultRec) : State :=
  let x := thr s t
  let s := putSlot s k { ctx := x.ctx.landAll, agent := thrAgent t, fault := fault, async := x.async }
  let s := match x.ctx.task with
    | some id => updTask s id (fun y => { y with loc := .slot k, fault := fault })
    | none => s
  enterGetwork s t

/-- Is the running task of a thread a candidate for preemption by entry `e`, its free save slot apart (07 R153). -/
def candidate (s : State) (p t : Nat) (e : ReadyEnt) : Bool :=
  let x := thr s t
  decide (x.mode = .run) && !x.halted && !x.haltReq && x.async.isEmpty && decide (thrPart s t = some p) &&
    (match x.ctx.task.bind (taskSt s) with
      | some y => y.preempt && decide (e.level < y.eprio)
      | none => false) && accepts s t e && tagsIdle x

/-- The candidate of the numerically greatest effective priority, the latest dispatched among equals (07 R153). -/
def pickCandidate (s : State) (ts : List Nat) : Option Nat :=
  let key := fun t => match (thr s t).ctx.task.bind (taskSt s) with
    | some y => (y.eprio, y.dispSeq)
    | none => (0, 0)
  ts.foldl (fun best t => match best with
    | none => some t
    | some b => if (key b).1 < (key t).1 ∨ ((key b).1 = (key t).1 ∧ (key b).2 < (key t).2) then some t else some b) none

/-- Threads of a partition's clusters. -/
def threadsOf (s : State) (p : Nat) : List Nat :=
  s.thr.threads.map (·.1) |>.filter (fun t => decide (thrPart s t = some p))

/-- One preemption of a partition (07 R153, R154). A chosen thread that runs a routine under BOUNDARY keeps it to its end
(10 R216). -/
def preemptOne (s : State) (p : Nat) : State :=
  if inBolt s p || inReset s p || !flag s (0x60040 + 4 * p) 12 then s
  else
    let ws := waitersOf s p
    let es := (readyOf s p).filter (fun e => !ws.any (fun t => accepts s t e))
    let cands := fun e => (threadsOf s p).filter (fun t => candidate s p t e)
    match es.findSome? (fun e => pickCandidate s ((cands e).filter (fun t => (freeSlot s (t / 16)).isSome))) with
    | none => if es.any (fun e => !(cands e).isEmpty) then schCnt s p 3 else s
    | some t =>
      match freeSlot s (t / 16) with
      | none => s
      | some k =>
        if inBoundary s t then noteDeferral s t
        else
          let prio := (((thr s t).ctx.task.bind (taskSt s)).map (·.eprio)).getD 0
          schCnt (pushReady (saveCtx (abandonRoutine s t) t k none) p prio (.saved k)) p 1

/-- The fault ID of a slot or of a held thread (08 R175). -/
def faultId (held : Bool) (i : Nat) : Nat := i / 16 * 32 + b2n held * 16 + i % 16

/-- The 64 octets of a fault report (08 Table 08-10). -/
def faultReport (x : TaskSt) (c : Ctx) (f : FaultRec) (agent fid : Nat) : List Octet :=
  beOctets 1 f.kind ++ beOctets 1 f.flags ++ beOctets 2 agent ++ beOctets 2 fid ++ beOctets 2 f.sel ++
    beOctets 5 c.tk.toNat ++ beOctets 1 x.prio ++ beOctets 2 c.pc.toNat ++ beOctets 5 f.offset ++
    beOctets 5 c.pg.toNat ++ beOctets 5 (c.g 1).toNat ++ zeros 1 ++ beOctets 8 f.time ++ zeros 24

/-- A fault report goes to the partition's exception ring (08 R175). -/
def reportFault (s : State) (x : TaskSt) (c : Ctx) (f : FaultRec) (agent fid : Nat) : State :=
  queueDeliv s { kind := .fault, part := x.part, ring := 0, octets := faultReport x c f agent fid,
                 detail := beOctets 1 f.kind }

/-- A task takes a fault on its thread (08 R174, R175): its context goes to a free save slot, or is held. -/
def takeFault (s : State) (t kind flags sel offset : Nat) : State :=
  match thrTask s t with
  | none => s
  | some id =>
    match taskSt s id with
    | none => s
    | some x =>
      let c := (thr s t).ctx
      let s := coreCnt (unstall s x.part) x.part (kind - 1)
      match freeSlot s (t / 16) with
      | some k =>
        let f : FaultRec := ⟨kind, flags, sel, offset, tai s⟩
        reportFault (saveCtx s t k (some f)) x c f (thrAgent t) (faultId false k)
      | none =>
        let f : FaultRec := ⟨kind, flags + 16, sel, offset, tai s⟩
        let s := updTask (coreCnt s x.part 6) id (fun y => { y with fault := some f })
        let s := updThr s t (fun y => { y with
          mode := .held, inWait := false, stepping := false, routine := none, ctx := y.ctx.landAll })
        reportFault s x c f (thrAgent t) (faultId true t)

/-- Make an asynchronous fault pending for the task on a thread. -/
def pendFault (s : State) (t kind tag : Nat) : State :=
  noteDeferral (updThr s t (fun x => { x with async := insertBy (·.1) (kind, tag) x.async })) t

/-- Make an asynchronous fault pending for the context at a place (08 R173, R174). -/
def pendFaultAt (s : State) (r : CtxRef) (kind tag : Nat) : State :=
  if r.saved then
    match slotSt s r.idx.toNat with
    | some x => putSlot s r.idx.toNat { x with async := insertBy (·.1) (kind, tag) x.async }
    | none => s
  else pendFault s r.idx.toNat kind tag

/-- FLAGS of an asynchronous fault: MICRO when a routine is in progress, and the tag of a completion fault. -/
def asyncFlags (c : Ctx) (tag : Nat) : Nat := b2n (bitOf c.pg.toNat 15) + 4 * tag

/-- Does a thread's cluster run no tasks: disabled, unassigned, or of a partition in reset. -/
def thrOff (s : State) (t : Nat) : Bool :=
  !thrLive s t || (match thrPart s t with
    | some p => inReset s p
    | none => true)

/-- Is a thread stopped by Bolt or a partition reset (16 R341). -/
def thrStopped (s : State) (t : Nat) : Bool :=
  thrOff s t || (match thrPart s t with
    | some p => inBolt s p
    | none => true)

/-- A pending asynchronous event is taken at the thread's next boundary: a debug halt first, then faults in ascending
kind (08 R174). Under BOUNDARY a routine ends first, under RESTART it is abandoned at its last commit (10 R216, R217). -/
def asyncTake (s : State) (t : Nat) : State :=
  let x := thr s t
  if x.halted || thrStopped s t || inBoundary s t then s
  else if x.haltReq then
    leaveWaiters (updThr (abandonRoutine s t) t (fun x => { x with
      halted := true, haltReq := false, why := 1, stepping := false, ctx := x.ctx.landAll })) t
  else if decide (x.mode ≠ .run) then s
  else match x.async with
    | [] => s
    | (kind, tag) :: rest =>
      let s := updThr s t (fun x => { x with async := rest })
      if (thrTask s t).isNone then s
      else
        let c := (thr s t).ctx
        takeFault (abandonRoutine s t) t kind (asyncFlags c tag) 0 0

/-- The save slot for a deferred task that goes to the fault list: of the core it left, else the lowest free one of its
partition's clusters. DESIGN CHOICE, log entry 55. -/
def partSlot (s : State) (x : TaskSt) : Option Nat :=
  ((x.agent / 128 :: (clustersOf s x.part).flatMap (fun c => (List.range 8).map (fun i => c * 8 + i))).findSome? (freeSlot s))

/-- The task record of a deferred task, dealt with the event `kind`, goes directly to the fault list (07 R147); `rest`
stays pending. Without a free slot in its partition it stays deferred. -/
def faultDeferred (s : State) (id : Nat) (x : TaskSt) (kind : Nat) (rest : List (Nat × Nat)) : State :=
  match partSlot s x with
  | none => s
  | some k =>
    let f : FaultRec := ⟨kind, 0, 0, 0, tai s⟩
    let c := dispatchCtx {} id x.recG x.entry x.tkw (x.recWin ++
      windowBody s (x.recG.getD 2 0).toNat (x.recG.getD 3 0).toNat)
    let s := putSlot s k { ctx := c, agent := x.agent, fault := some f, async := rest }
    let s := updTask s id (fun y => { y with loc := .slot k, fault := some f })
    let gone := fun (w : ReadyWhat) => match w with
      | .redispatch j _ => decide (j = id)
      | _ => false
    let s := { s with hlt := { s.hlt with
      ready := s.hlt.ready.filter (fun e => !gone e.what), delays := s.hlt.delays.filter (fun e => !gone e.what) } }
    reportFault (coreCnt s x.part (kind - 1)) x c f x.agent (faultId false k)

/-- The deadline kill of a ticket (07 R147). -/
def deadlineKill (s : State) (i : Nat) : State :=
  let t := ticket s i
  let kill := bitsOf (hltDom s t.dom) 30 23
  if !t.inUse || t.killed || t.complete || decide (kill = 0) || decide (tai s < t.deadline + 1000 * kill) then s
  else match t.task with
    | none => s
    | some id =>
      match taskSt s id with
      | none => s
      | some x =>
        let mark := fun s => setTicket s i { ticket s i with killed := true }
        match x.loc with
        | .thread th => if x.fault.isSome then s else mark (pendFault s th 4 0)
        | .slot k =>
          match slotSt s k with
          | none => s
          | some sv =>
            if sv.fault.isSome then s
            else
              let f : FaultRec := ⟨4, asyncFlags sv.ctx 0, 0, 0, tai s⟩
              let s := putSlot (mark s) k { sv with fault := some f }
              let s := updTask s id (fun y => { y with fault := some f })
              let s := { s with hlt := { s.hlt with ready := s.hlt.ready.filter (fun e => decide (e.what ≠ .saved k)) } }
              reportFault (coreCnt s x.part 3) x sv.ctx f sv.agent (faultId false k)
        | .deferred =>
          if (partSlot s x).isSome then faultDeferred (mark s) id x 4 [] else s

/-- DEFER takes effect: the task leaves the thread and waits on the delay list (07 R152); the thread goes on without a
task (DEDUCED, log entry 17). A fault that became pending for the task meanwhile takes it to the fault list (07 R147). -/
def deferNow (s : State) (t : Nat) (delay : Nat) : State :=
  match thrTask s t with
  | none => updThr s t (fun x => { x with mode := .run })
  | some id =>
    match taskSt s id with
    | none => updThr s t (fun x => { x with mode := .run })
    | some x =>
      let pend := (thr s t).async
      let s := updTask s id (fun x => { x with loc := .deferred, deferred := true, pend := pend })
      let s := updThr s t (fun y => { y with mode := .run, async := [], ctx := { y.ctx with task := none } })
      let s := schCnt (pushDelay s x.part (dueAt s delay) (.redispatch id true)) x.part 4
      match pend with
      | [] => s
      | (kind, _) :: rest =>
        if (partSlot s x).isSome then faultDeferred (updTask s id (fun x => { x with pend := [] })) id x kind rest else s

/-- Let a thread that waits for its helpers in GETWORK or DEFER go on, once they have completed. -/
def drainDone (s : State) (t : Nat) : State :=
  if tagsIdle (thr s t) then
    match (thr s t).mode with
    | .drainGetwork => getworkNow s t
    | .drainDefer _ d => deferNow s t d
    | _ => s
  else s

/-- GETWORK (07 Table 07-2): `mask` accepts priorities, 0 all of them. -/
def getworkOp (s : State) (t mask : Nat) : State :=
  drainDone (updThr s t (fun x => { x with mode := .drainGetwork, mask := BitVec.ofNat 16 mask })) t

/-- DEFER (07 Table 07-2). -/
def deferOp (s : State) (t p : Nat) (w : W36) (delay : Nat) : State :=
  match ticketCheck s p w with
  | .ok n =>
    if n.sub.isSome ∨ (ticket s n.idx).subs ≠ [] then hltCnt s p 7
    else drainDone (updThr s t (fun x => { x with mode := .drainDefer w delay })) t
  | c => refuseTicket s t p w c

/-- A faulted task of a partition, by FID: its place and its task (08 R176). -/
def faulted (s : State) (p fid : Nat) : Option (TaskLoc × Nat) :=
  let i := fid / 32 % 128 * 16 + fid % 16
  if 4096 ≤ fid then none
  else if bitOf fid 4 then
    match thrTask s i with
    | some id =>
      match taskSt s id with
      | some x => if (thr s i).mode = .held ∧ x.part = p ∧ x.fault.isSome then some (.thread i, id) else none
      | none => none
    | none => none
  else
    match slotSt s i with
    | some sv =>
      match sv.ctx.task with
      | some id =>
        match taskSt s id with
        | some x => if sv.fault.isSome ∧ x.part = p then some (.slot i, id) else none
        | none => none
      | none => none
    | none => none

/-- TASK_RESUME (08 R176, R177): a saved context joins the tail of its list, a held one goes on. -/
def taskResume (s : State) (loc : TaskLoc) (id : Nat) : State :=
  match taskSt s id with
  | none => s
  | some x =>
    let s := updTask s id (fun y => { y with fault := none })
    match loc with
    | .slot k =>
      match slotSt s k with
      | some sv => pushReady (putSlot s k { sv with fault := none }) x.part x.eprio (.saved k)
      | none => s
    | .thread t =>
      updThr (rebuildSeg s id ((thr s t).ctx.g 3)) t (fun y => { y with
        mode := .run, fetchStop := false, ctx := y.ctx.setG 1 (withLate (y.ctx.g 1) (taskPassed s x.tkw)) })
    | .deferred => s

/-- Discard the context of a faulted task: the slot empties, or the held thread returns to GETWORK (08 R176). -/
def discardCtx (s : State) (loc : TaskLoc) : State :=
  match loc with
  | .slot k => delSlot s k
  | .thread t => enterGetwork s t
  | .deferred => s

/-- TASK_RETRY (08 R176): the task is redispatched from its task record; its locks are orphaned, its G3 buffer kept. -/
def taskRetry (s : State) (loc : TaskLoc) (id : Nat) : State :=
  match taskSt s id with
  | none => s
  | some x =>
    let s := haspTaskEnd (discardCtx s loc) id false
    let s := releaseHold s id (some (x.recG.getD 2 0).toNat)
    let s := updTask s id (fun y => { y with
      loc := .deferred, fault := none, deferred := false, lockPend := none, armData := none, armSpace := none,
      lost := [], eprio := y.prio, pend := [] })
    pushReady s x.part x.prio (.redispatch id false)

/-- TASK_KILL (08 R176): an incomplete ticket is dropped, buffers freed, locks orphaned. -/
def taskKill (s : State) (loc : TaskLoc) (id : Nat) : State :=
  match taskSt s id with
  | none => s
  | some x =>
    let s := discardCtx s loc
    let s := match ticketNamed s x.tkw with
      | some n => dropTicketAll s n.idx
      | none => s
    endTask s id false

/-- Has a partition stalled (07 R156), the time apart. -/
def stallNow (s : State) (p : Nat) : Bool :=
  let ts := threadsOf s p
  let entOf := fun (e : DelayEnt) => decide (e.part = p)
  ts.all (fun t => let x := thr s t
    decide (x.mode = .getwork) || (decide (x.mode = .run) && x.inWait)) &&
  decide (0 < ticketsInUse s (some p)) &&
  ts.all (fun t => (thr s t).timer.isNone) && !s.hlt.delays.any entOf &&
  (s.hlt.ready.all (fun e => decide (e.part ≠ p))) &&
  decide (mget [] s.hlt.issueQ p = []) && decide (mget [] s.hlt.holdQ p = []) &&
  s.thr.tasks.all (fun kx => decide (kx.2.part ≠ p) || kx.2.fault.isNone) &&
  ts.all (fun t => tagsIdle (thr s t)) &&
  s.thr.slots.all (fun kx => match kx.2.ctx.task.bind (taskSt s) with
    | some y => decide (y.part ≠ p) || kx.2.ctx.tags.isEmpty
    | none => true)

end Sys2Proof.Machine
end

