-- ==== Sys2Proof/Machine/Operands.lean ====
section
/-! DEFINITION. Operand forms: immediates, width modes, selectors and segment descriptors, and the checked access to a
segment (09 R184, R187, R188; 08 R165-R169). -/

namespace Sys2Proof.Machine

/-- IMM13 sign-extended to 36 bits (09 R184). -/
def simm13 (imm : BitVec 13) : W36 := imm.signExtend 36
/-- IMM13 zero-extended. -/
def zimm13 (imm : BitVec 13) : W36 := imm.zeroExtend 36
/-- The signed offset IMM13 [9:0] of a near operand (09 R188). -/
def nearOff (imm : BitVec 13) : W36 := (imm.truncate 10 : BitVec 10).signExtend 36
/-- The selector register of a near operand: IMM13 [12:10]. -/
def nearSel (imm : BitVec 13) : Nat := imm.toNat / 1024

/-- A selector register S0-S7 (08 Table 08-2). -/
def Ctx.sel (c : Ctx) (k : Nat) : Nat := (mget 0 c.sels k).toNat

/-- Spaces (08 Table 08-3). -/
def spClm : Nat := 0
def spCsm : Nat := 1
def spIst : Nat := 2
def spSram : Nat := 3
def spHbm : Nat := 4
def spHost : Nat := 5
def spWin : Nat := 6

/-- A descriptor as an access sees it. -/
structure SegView where
  valid : Bool := false
  space : Nat := 0
  base : Nat := 0
  limit : Nat := 0
  p : Bool := false
  r : Bool := false
  w : Bool := false
  x : Bool := false
  h : Bool := false
  table : Option (Nat × Nat) := none

/-- The view of a segment-table descriptor (08 Table 08-8). -/
def Seg.view (g : Seg) (part index : Nat) : SegView :=
  let v := g.w3.toNat
  { valid := bitOf v 15, space := bitsOf v 6 4, base := g.w0.toNat + g.w1.toNat * 2 ^ 32,
    limit := g.w2.toNat + bitsOf v 3 0 * 2 ^ 32, p := bitOf v 7, r := bitOf v 8, w := bitOf v 9, x := bitOf v 10,
    h := bitOf v 11, table := some (part, index) }

/-- A descriptor of a partition's segment table. -/
def segEnt (s : State) (part index : Nat) : Seg := mget {} s.mem.segs (part * 1024 + index)

/-- The window descriptor (08 R167). -/
def winView : SegView := { valid := true, space := 6, limit := 511, p := true, r := true, w := true, h := true }

/-- The descriptor a selector names for a thread (08 R165, R167). -/
def segOf (s : State) (t sel : Nat) : SegView :=
  let i := sel % 1024
  if bitOf sel 11 then
    if i = 0 then winView
    else if i = 1 then
      match (thrTask s t).bind (taskSt s) with
      | some x =>
        match x.seg with
        | some (b, l) =>
          { valid := true, space := if isSram b then 3 else 4, base := b, limit := l, p := true, r := x.segOk,
            w := x.segOk, h := x.segOk }
        | none => {}
      | none => {}
    else {}
  else match thrPart s t with
    | some p => (segEnt s p i).view p i
    | none => {}

/-- Rights an access needs (08 R168). -/
structure Need where
  r : Bool := false
  w : Bool := false
  x : Bool := false
  h : Bool := false

/-- What checking an access answers: its address, a violation kind, or an absent segment. -/
inductive Chk where
  | ok (space addr : Nat)
  | bad (kind : Nat)
  | absent
  deriving DecidableEq, Repr

/-- Units of a space that is a whole memory of its own (08 Table 08-3). -/
def spaceSize (space : Nat) : Nat :=
  match space with
  | 0 => 16384
  | 1 => 262144
  | 2 => 65536
  | 6 => 512
  | _ => 2 ^ 64

/-- Check an access of `size` units at `off` against a descriptor whose space must be one of `spaces` (08 R168,
09 R188). Units past the end of a core memory are past the limit (DEDUCED, log entry 18). -/
def segCheck (v : SegView) (spaces : List Nat) (n : Need) (off size : Nat) : Chk :=
  if !v.valid then .bad 1
  else if !spaces.contains v.space then .bad 2
  else if (n.r && !v.r) || (n.w && !v.w) || (n.x && !v.x) || (n.h && !v.h) then .bad 2
  else if v.limit < off + size - 1 then .bad 3
  else if v.space < 3 ∧ spaceSize v.space < v.base + off + size then .bad 3
  else if !v.p then .absent
  else .ok v.space (v.base + off)

/-- The check of a thread's access through selector register `k`: the selector and what the check answers. -/
def accessCheck (s : State) (t k : Nat) (spaces : List Nat) (n : Need) (off size : Nat) : Nat × Chk :=
  let sel := (thr s t).ctx.sel k
  (sel, segCheck (segOf s t sel) spaces n off size)

/-- A word of CLM, CSM or instruction store for a thread. -/
def readWord (s : State) (t space a : Nat) : W36 :=
  match space with
  | 0 => clmWord s (t / 16) a
  | 1 => csmWord s (t / 128) a
  | _ => istWord s (t / 128) a

/-- Does a word read carry an uncorrectable error (08 Table 08-9). -/
def wordBad (s : State) (t space a : Nat) : Bool :=
  match space with
  | 0 => s.mem.clmBad.contains (t / 16 * 16384 + a)
  | 1 => s.mem.csmBad.contains (t / 128 * 262144 + a)
  | _ => false

/-- Write a word of CLM or CSM for a thread. -/
def writeWord (s : State) (t space a : Nat) (v : W36) : State :=
  match space with
  | 0 => setClm s (t / 16) a v
  | _ => setCsm s (t / 128) a v

/-- Octets of packet SRAM, HBM or host memory, or of the window, for a thread. -/
def readOcts (s : State) (t space a n : Nat) : List Octet :=
  if space = 5 then hostRead s ((thrPart s t).getD 0) a n
  else if space = 6 then (thr s t).ctx.winRead a n
  else viewRead s a n

/-- Write octets of packet SRAM, HBM or host memory, or of the window, for a thread. -/
def writeOcts (s : State) (t space a : Nat) (l : List Octet) : State :=
  if space = 5 then hostWrite s ((thrPart s t).getD 0) a l
  else if space = 6 then updCtx s t (fun c => c.winWrite a l)
  else devWrite s a l

/-- Does an octet read meet poison. -/
def octsBad (s : State) (space a n : Nat) : Bool := (space = 3 || space = 4) && devPoisoned s a n

end Sys2Proof.Machine
end

