-- ==== Sys2Proof/Machine/Flags.lean ====
section
/-! DEFINITION. Guards, predicates and the values an arithmetic operation computes: carries and borrows, compares,
shifts, packed decimal, Luhn and CRC steps (09 R185-R191, R200, R201). -/

namespace Sys2Proof.Machine

/-- Does a guard let its syllable execute: P[G] XOR N = 1 (09 R185). -/
def guardOn (c : Ctx) (g : Gd) : Bool := c.pd (g.toNat % 8) != bitOf g.toNat 3

/-- Width of an operation: 36 bits, or 32 in width mode 01 (09 R187). -/
def wmWidth (md : BitVec 8) : Nat := if md.toNat % 4 = 1 then 32 else 36

/-- The low `w` bits of a word. -/
def lowBits (w : Nat) (v : W36) : Nat := v.toNat % 2 ^ w

/-- A result of the operation's width, with bits above it copied from ra (09 R187). -/
def wmResult (w : Nat) (ra : W36) (v : Nat) : W36 :=
  BitVec.ofNat 36 (v % 2 ^ w + ra.toNat / 2 ^ w * 2 ^ w)

/-- Sum and carry at a width. -/
def addW (w : Nat) (a b : W36) : Nat × Bool :=
  let v := lowBits w a + lowBits w b
  (v % 2 ^ w, decide (2 ^ w ≤ v))

/-- Difference and borrow at a width. -/
def subW (w : Nat) (a b : W36) : Nat × Bool :=
  ((lowBits w a + 2 ^ w - lowBits w b) % 2 ^ w, decide (lowBits w a < lowBits w b))

/-- Shift left: 0 when the amount reaches the width (09 R187). -/
def shlW (w : Nat) (a : W36) (n : Nat) : Nat := if w ≤ n then 0 else lowBits w a * 2 ^ n % 2 ^ w
/-- Shift right with zero fill. -/
def shrW (w : Nat) (a : W36) (n : Nat) : Nat := if w ≤ n then 0 else lowBits w a / 2 ^ n
/-- Shift right with sign fill. -/
def sarW (w : Nat) (a : W36) (n : Nat) : Nat := wrapInt w (signedOf w a.toNat / 2 ^ (min n w))
/-- Rotate left by the amount modulo the width. -/
def rolW (w : Nat) (a : W36) (n : Nat) : Nat :=
  let k := n % w
  (lowBits w a * 2 ^ k) % 2 ^ w + lowBits w a / 2 ^ (w - k)

/-- The outcome of CMP (09 Table 09-3); none for the undefined condition. -/
def cmpW (cond w : Nat) (a b : W36) : Option Bool :=
  let x := lowBits w a
  let y := lowBits w b
  match cond with
  | 0 => some (decide (x = y))
  | 1 => some (decide (x ≠ y))
  | 2 => some (decide (signedOf w x < signedOf w y))
  | 3 => some (decide (signedOf w x ≤ signedOf w y))
  | 4 => some (decide (x < y))
  | 5 => some (decide (x ≤ y))
  | 6 => some (decide (x &&& y ≠ 0))
  | _ => none

/-- Write a compare's outcome: P[PD], and its complement to P[PD + 1] when C = 1 and PD is not 7 (09 R186). -/
def setSpec (c : Ctx) (spec : Nat) (b comp : Bool) : Ctx :=
  let pd := spec % 8
  let c := c.setP pd b
  if bitOf spec 3 ∧ pd ≠ 7 then c.setP (pd + 1) comp else c

/-- Nibble `i` of a word. -/
def nib (v : W36) (i : Nat) : Nat := v.toNat / 16 ^ i % 16

/-- Are all nine nibbles decimal digits (09 Table 09-4). -/
def bcdOk (v : W36) : Bool := (List.range 9).all (fun i => decide (nib v i ≤ 9))

/-- The value of packed decimal digits. -/
def decOf (v : W36) : Nat := (List.range 9).foldl (fun n i => n + nib v i * 10 ^ i) 0

/-- Packed decimal digits of a number, the low `n` of them. -/
def bcdN (n v : Nat) : Nat := (List.range n).foldl (fun a i => a + v / 10 ^ i % 10 * 16 ^ i) 0

/-- Nine packed digits. -/
def bcdOf (v : Nat) : W36 := BitVec.ofNat 36 (bcdN 9 v)

/-- One digit of the Luhn fold: sum, parity, invalid (09 R191). -/
def luhnDigit (st : Nat × Bool × Bool) (d : Nat) : Nat × Bool × Bool :=
  let inv := st.2.2 || decide (9 < d)
  let d := if 9 < d then 0 else d
  let d := if st.2.1 then (if 9 < 2 * d then 2 * d - 9 else 2 * d) else d
  ((st.1 + d) % 10, !st.2.1, inv)

/-- Fold digits, first digit first, from a Luhn state word. -/
def luhnFold (state : Nat) (ds : List Nat) : Nat × Bool × Bool :=
  let s := state % 16
  ds.foldl luhnDigit (if 9 < s then 0 else s, bitOf state 4, bitOf state 5 || decide (9 < s))

/-- A Luhn state word. -/
def luhnWord (st : Nat × Bool × Bool) : W36 := BitVec.ofNat 36 (b2n st.2.2 * 32 + b2n st.2.1 * 16 + st.1)

/-- A CRC form of a logical core: width, reflected, constant (09 Table 09-9). -/
structure CrcForm where
  w : Nat
  refl : Bool
  k : Nat

/-- The polynomial a CRC step uses (09 R201, R202). -/
def crcForm (s : State) (core poly : Nat) : CrcForm :=
  match poly with
  | 0 => ⟨32, true, 0xEDB88320⟩
  | 1 => ⟨32, true, 0x82F63B78⟩
  | 2 => ⟨16, false, 0x1021⟩
  | _ =>
    let v := rdDev s (0x70600 + 4 * core)
    let w := max 7 (bitsOf v 4 0) + 1
    let p := rdDev s (0x70400 + 4 * core) % 2 ^ w
    if bitOf v 5 then ⟨w, true, bitReverse w p⟩ else ⟨w, false, p⟩

/-- CRC steps over octets (09 R201); CA[31:w] reads zero. -/
def crcSteps (f : CrcForm) (ca : Nat) (l : List Octet) : Nat :=
  l.foldl (fun c o => if f.refl then crcReflOctet f.k c o % 2 ^ f.w else crcFwdOctet f.w f.k c o) (ca % 2 ^ f.w)

/-- Are the low `n` nibbles of a number decimal digits. -/
def bcdNOk (n v : Nat) : Bool := (List.range n).all (fun i => decide (v / 16 ^ i % 16 ≤ 9))

/-- The value of the low `n` packed digits. -/
def decN (n v : Nat) : Nat := (List.range n).foldl (fun a i => a + v / 16 ^ i % 16 * 10 ^ i) 0

/-- The product of MUL, added to `acc` when given (09 R200); mode 2 is decimal. -/
def mulValue (mode : Nat) (a b : W36) (acc : Option (BitVec 72)) : BitVec 72 :=
  match mode with
  | 0 => BitVec.ofNat 72 (a.toNat * b.toNat) + acc.getD 0
  | 1 => BitVec.ofInt 72 (a.toInt * b.toInt) + acc.getD 0
  | _ =>
    if bcdOk a && bcdOk b && (match acc with
      | some m => bcdNOk 18 m.toNat
      | none => true) then
      BitVec.ofNat 72 (bcdN 18 ((decOf a * decOf b + (match acc with
        | some m => decN 18 m.toNat
        | none => 0)) % 10 ^ 18))
    else BitVec.allOnes 72

end Sys2Proof.Machine
end

