-- ==== Sys2Proof/Machine/Issue.lean ====
section
/-! DEFINITION. The issue of a bundle (09 R180-R183; 08 R160, R161, R169, R174): what every syllable goes through. A
syllable reads the context as it stands at issue, before any syllable of its bundle writes. -/

namespace Sys2Proof.Machine

/-- What a syllable answers when it is evaluated: that its bundle cannot issue yet (`stall`; `wait` for a WAITEV), a
synchronous fault (kind, selector, offset), or its effect. What `pre` does comes before the effect of every syllable of
the bundle: MTSR clears EV bits there, so that an event of the same clk leaves its bit set (09 Table 09-8). -/
structure Fx where
  stall : Bool := false
  wait : Bool := false
  fault : Option (Nat × Nat × Nat) := none
  pre : State → State := id
  run : State → State := id

/-- A decoded syllable: its unit, its guard, whether its encoding is undefined, and what it does when it executes. -/
structure Syl where
  unit : Nat
  guard : Gd
  undef : Bool := false
  micro : Bool := false
  fx : State → Fx

/-- An undefined syllable executes as no operation, and counts (09 R181). -/
def undefFx (t : Nat) : Fx := { run := fun s => thrViolate s t 5 0 0 }

/-- What a syllable answers at issue: undefined encodings are detected whatever the guard holds (09 R181, R185). -/
def Syl.eval (x : Syl) (s : State) (t : Nat) : Fx :=
  if x.undef then undefFx t
  else if guardOn (thr s t).ctx x.guard then x.fx s
  else {}

/-- May a thread issue: it runs on a core that is not stopped, and nothing asynchronous is pending; what is pending, and
the stop of the core, wait for the end of a routine under BOUNDARY (08 R160, R174; 10 R216, Table 10-4; 16 R341). -/
def canIssueBundle (s : State) (t : Nat) : Bool :=
  let x := thr s t
  decide (x.mode = .run) && !x.halted && ((!x.haltReq && x.async.isEmpty && !coreHeld s (t / 16)) || inBoundary s t) && !x.fetchStop &&
    (!thrStopped s t || (inBoundary s t && !thrOff s t))

/-- The breakpoint that halts a thread at its PC, before a bundle issues and not between the chunks of a routine
(17 R367). -/
def breakpoint (s : State) (t : Nat) : Option Nat :=
  if (thr s t).skipBp || (thr s t).routine.isSome then none
  else lowest 4 (fun k =>
    let v := rdDev s (0xE1000 + 16 * (t / 16) + 4 * k)
    bitOf v (16 + t % 16) && decide (v % 65536 = (thr s t).ctx.pc.toNat))

/-- Halt a thread (17 R367, R368): its late results land in turns that pass, and a routine it runs is left at its last
commit. -/
def haltThread (s : State) (t why bp : Nat) : State :=
  leaveWaiters (updThr s t (fun x => { x with
    halted := true, why := BitVec.ofNat 2 why, bphit := BitVec.ofNat 2 bp, stepping := false, haltReq := false,
    routine := none, ctx := x.ctx.landAll })) t

/-- The first bundle of the first dispatch of a task issues: latency point 2 of its ticket (17 R362). -/
def firstBundle (s : State) (t : Nat) : State :=
  match thrTask s t with
  | some id =>
    match taskSt s id with
    | some x =>
      let i := x.tkw.toNat % 16384
      if (ticket s i).task = some id ∧ mfind (ticket s i).pts 2 = none then ticketReach s i none 2 else s
    | none => s
  | none => s

/-- Issue syllables that occupy `n` words at PC: all execute, or none. A fault changes nothing else and PC keeps the
bundle's address (08 R174). -/
def issueSyls (s : State) (t n : Nat) (syls : List Syl) : State :=
  let fxs := syls.map (fun x => x.eval s t)
  if fxs.any (·.stall) then updThr s t (fun x => { x with inWait := fxs.any (·.wait) })
  else match fxs.findSome? (·.fault) with
    | some (k, sel, off) =>
      let s := if k = 6 then (match thrPart s t with
        | some p => chnCnt s p 5
        | none => s) else s
      takeFault s t k 2 sel off
    | none =>
      let stepping := (thr s t).stepping
      let s := firstBundle s t
      let s := updThr s t (fun x => { x with
        inWait := false, skipBp := false, routine := none, ctx := { x.ctx with pc := x.ctx.pc + BitVec.ofNat 16 n } })
      let s := if (thr s t).inWait then s else unstall s ((thrPart s t).getD 8)
      let s := fxs.foldl (fun s f => f.run s) (fxs.foldl (fun s f => f.pre s) s)
      if stepping && !inBoundary s t then haltThread s t 3 (thr s t).bphit.toNat else s

/-- One turn of a thread with a bundle given by `fetch`, when it may issue: late results land, and a breakpoint halts
it first (08 R161, 17 R367). -/
def turnWith (s : State) (t : Nat) (fetch : State → State) : State :=
  if !canIssueBundle s t then s
  else
    let s := updCtx s t (fun c => c.turn)
    match breakpoint s t with
    | some k => sendEvent (haltThread s t 2 k) 0x29 (thrAgent t) []
    | none => fetch s

/-- A thread issues a bundle of one syllable at its PC. DEDUCED, log entry 15. -/
def issueOne (s : State) (t : Thr) (x : Syl) : State := turnWith s t.toNat (fun s => issueSyls s t.toNat 1 [x])

/-- A syllable that computes on its thread's context alone: `f` reads the context at issue and writes the one that
stands. -/
def ctxSyl (t : Thr) (unit : Nat) (g : Gd) (undef : Bool) (f : Ctx → Ctx → Ctx) : Syl :=
  { unit := unit, guard := g, undef := undef,
    fx := fun s => let c0 := (thr s t.toNat).ctx
                   { run := fun s => updCtx s t.toNat (f c0) } }

end Sys2Proof.Machine
end

