-- ==== Sys2Proof/Machine/Alu.lean ====
section
/-! DEFINITION. The A-unit operations (09 Tables 09-3 and 09-4) and the syllables that carry them. -/

namespace Sys2Proof.Machine

/-- A G register of a context, by field. -/
def rg (c : Ctx) (r : BitVec 5) : W36 := c.g r.toNat

/-- Write a G register, by field. -/
def wg (c : Ctx) (r : BitVec 5) (v : W36) : Ctx := c.setG r.toNat v

/-- Is the width mode of an R-format A operation undefined (09 R187). -/
def badWm (md : BitVec 8) : Bool := decide (2 ≤ md.toNat % 4)

/-- CP: the predicate that receives a carry or borrow. -/
def cpOf (md : BitVec 8) : Nat := bitsOf md.toNat 4 2

/-- NOP, in every unit. -/
def sylNop (unit : Nat) (g : Gd) : Syl := { unit := unit, guard := g, fx := fun _ => {} }

/-- ADD. -/
def sylAdd (t : Thr) (u : Nat) (g : Gd) (rd ra rb : BitVec 5) (md : BitVec 8) : Syl :=
  ctxSyl t u g (badWm md) (fun c0 c =>
    let w := wmWidth md
    let (v, cy) := addW w (rg c0 ra) (rg c0 rb)
    (wg c rd (wmResult w (rg c0 ra) v)).setP (cpOf md) cy)

/-- SUB. -/
def sylSub (t : Thr) (u : Nat) (g : Gd) (rd ra rb : BitVec 5) (md : BitVec 8) : Syl :=
  ctxSyl t u g (badWm md) (fun c0 c =>
    let w := wmWidth md
    let (v, bw) := subW w (rg c0 ra) (rg c0 rb)
    (wg c rd (wmResult w (rg c0 ra) v)).setP (cpOf md) bw)

/-- A bitwise or shift operation of the width mode. -/
def sylWide (t : Thr) (u : Nat) (g : Gd) (rd ra rb : BitVec 5) (md : BitVec 8) (f : Nat → W36 → W36 → Nat) : Syl :=
  ctxSyl t u g (badWm md) (fun c0 c =>
    let w := wmWidth md
    wg c rd (wmResult w (rg c0 ra) (f w (rg c0 ra) (rg c0 rb))))

/-- AND. -/
def sylAnd (t : Thr) (u : Nat) (g : Gd) (rd ra rb : BitVec 5) (md : BitVec 8) : Syl :=
  sylWide t u g rd ra rb md (fun _ a b => (a &&& b).toNat)
/-- OR. -/
def sylOr (t : Thr) (u : Nat) (g : Gd) (rd ra rb : BitVec 5) (md : BitVec 8) : Syl :=
  sylWide t u g rd ra rb md (fun _ a b => (a ||| b).toNat)
/-- XOR. -/
def sylXor (t : Thr) (u : Nat) (g : Gd) (rd ra rb : BitVec 5) (md : BitVec 8) : Syl :=
  sylWide t u g rd ra rb md (fun _ a b => (a ^^^ b).toNat)
/-- ANDN. -/
def sylAndn (t : Thr) (u : Nat) (g : Gd) (rd ra rb : BitVec 5) (md : BitVec 8) : Syl :=
  sylWide t u g rd ra rb md (fun _ a b => (a &&& ~~~b).toNat)
/-- SHL. -/
def sylShl (t : Thr) (u : Nat) (g : Gd) (rd ra rb : BitVec 5) (md : BitVec 8) : Syl :=
  sylWide t u g rd ra rb md (fun w a b => shlW w a (b.toNat % 64))
/-- SHR. -/
def sylShr (t : Thr) (u : Nat) (g : Gd) (rd ra rb : BitVec 5) (md : BitVec 8) : Syl :=
  sylWide t u g rd ra rb md (fun w a b => shrW w a (b.toNat % 64))
/-- SAR. -/
def sylSar (t : Thr) (u : Nat) (g : Gd) (rd ra rb : BitVec 5) (md : BitVec 8) : Syl :=
  sylWide t u g rd ra rb md (fun w a b => sarW w a (b.toNat % 64))
/-- ROL. -/
def sylRol (t : Thr) (u : Nat) (g : Gd) (rd ra rb : BitVec 5) (md : BitVec 8) : Syl :=
  sylWide t u g rd ra rb md (fun w a b => rolW w a (b.toNat % 64))

/-- SEL. -/
def sylSel (t : Thr) (u : Nat) (g : Gd) (rd ra rb : BitVec 5) (md : BitVec 8) : Syl :=
  ctxSyl t u g false (fun c0 c => wg c rd (if c0.pd (md.toNat % 8) then rg c0 ra else rg c0 rb))

/-- CMP: condition 111 and width modes 10 and 11 are undefined. -/
def sylCmp (t : Thr) (u : Nat) (g : Gd) (rd ra rb : BitVec 5) (md : BitVec 8) : Syl :=
  let wm := bitsOf md.toNat 4 3
  ctxSyl t u g (decide (md.toNat % 8 = 7) || decide (2 ≤ wm)) (fun c0 c =>
    match cmpW (md.toNat % 8) (if wm = 1 then 32 else 36) (rg c0 ra) (rg c0 rb) with
    | some b => setSpec c rd.toNat b (!b)
    | none => c)

/-- PLOG. -/
def sylPlog (t : Thr) (u : Nat) (g : Gd) (rd ra rb : BitVec 5) (md : BitVec 8) : Syl :=
  ctxSyl t u g false (fun c0 c =>
    let a := c0.pd (ra.toNat % 8)
    let b := c0.pd (rb.toNat % 8)
    let v := match md.toNat % 4 with
      | 0 => a && b
      | 1 => a || b
      | 2 => a != b
      | _ => a && !b
    setSpec c rd.toNat v (!v))

/-- PRD. -/
def sylPrd (t : Thr) (u : Nat) (g : Gd) (rd _ra _rb : BitVec 5) (_md : BitVec 8) : Syl :=
  ctxSyl t u g false (fun c0 c => wg c rd (BitVec.ofNat 36 (c0.preds.toNat / 2 * 2 + 1)))

/-- PWR. -/
def sylPwr (t : Thr) (u : Nat) (g : Gd) (_rd ra rb : BitVec 5) (_md : BitVec 8) : Syl :=
  ctxSyl t u g false (fun c0 c =>
    [1, 2, 3, 4, 5, 6, 7].foldl (fun (c : Ctx) i =>
      if bitOf (rg c0 rb).toNat i then c.setP i (bitOf (rg c0 ra).toNat i) else c) c)

/-- PAR: parity of the word, or the odd-parity bit of each octet. -/
def parOf (v : W36) (octets : Bool) : W36 :=
  if octets then
    BitVec.ofNat 36 ((List.range 4).foldl (fun n k => n + (1 - popcount 8 (v.toNat / 256 ^ k) % 2) * 2 ^ k) 0)
  else BitVec.ofNat 36 (popcount 36 v.toNat % 2)

/-- PAR. -/
def sylPar (t : Thr) (u : Nat) (g : Gd) (rd ra _rb : BitVec 5) (md : BitVec 8) : Syl :=
  ctxSyl t u g false (fun c0 c => wg c rd (parOf (rg c0 ra) (bitOf md.toNat 0)))

/-- BREV. -/
def sylBrev (t : Thr) (u : Nat) (g : Gd) (rd ra _rb : BitVec 5) (md : BitVec 8) : Syl :=
  let w := match md.toNat % 4 with
    | 0 => 8
    | 1 => 16
    | 2 => 32
    | _ => 36
  ctxSyl t u g false (fun c0 c => wg c rd (BitVec.ofNat 36 (bitReverse w (rg c0 ra).toNat)))

/-- OREV: the four octets reversed, or swapped within each half. -/
def orevOf (v : W36) (halves : Bool) : W36 :=
  let o := beOctets 4 v.toNat
  let p := if halves then [o.getD 1 0, o.getD 0 0, o.getD 3 0, o.getD 2 0] else o.reverse
  BitVec.ofNat 36 (beNat p)

/-- OREV. -/
def sylOrev (t : Thr) (u : Nat) (g : Gd) (rd ra _rb : BitVec 5) (md : BitVec 8) : Syl :=
  ctxSyl t u g false (fun c0 c => wg c rd (orevOf (rg c0 ra) (bitOf md.toNat 0)))

/-- Leading zeros of a 36-bit word. -/
def leadZeros (v : W36) : Nat := 36 - (if v.toNat = 0 then 0 else Nat.log2 v.toNat + 1)

/-- BCNT. -/
def sylBcnt (t : Thr) (u : Nat) (g : Gd) (rd ra _rb : BitVec 5) (md : BitVec 8) : Syl :=
  ctxSyl t u g false (fun c0 c =>
    wg c rd (BitVec.ofNat 36 (if bitOf md.toNat 0 then popcount 36 (rg c0 ra).toNat else leadZeros (rg c0 ra))))

/-- An I-format operation that writes rd. -/
def sylImm (t : Thr) (u : Nat) (g : Gd) (rd ra : BitVec 5) (f : W36 → W36) : Syl :=
  ctxSyl t u g false (fun c0 c => wg c rd (f (rg c0 ra)))

/-- ADDI. -/
def sylAddi (t : Thr) (u : Nat) (g : Gd) (rd ra : BitVec 5) (imm : BitVec 13) : Syl :=
  sylImm t u g rd ra (fun a => a + simm13 imm)
/-- ANDI. -/
def sylAndi (t : Thr) (u : Nat) (g : Gd) (rd ra : BitVec 5) (imm : BitVec 13) : Syl :=
  sylImm t u g rd ra (fun a => a &&& zimm13 imm)
/-- ORI. -/
def sylOri (t : Thr) (u : Nat) (g : Gd) (rd ra : BitVec 5) (imm : BitVec 13) : Syl :=
  sylImm t u g rd ra (fun a => a ||| zimm13 imm)
/-- XORI. -/
def sylXori (t : Thr) (u : Nat) (g : Gd) (rd ra : BitVec 5) (imm : BitVec 13) : Syl :=
  sylImm t u g rd ra (fun a => a ^^^ zimm13 imm)
/-- SHLI. -/
def sylShli (t : Thr) (u : Nat) (g : Gd) (rd ra : BitVec 5) (imm : BitVec 13) : Syl :=
  sylImm t u g rd ra (fun a => BitVec.ofNat 36 (shlW 36 a (imm.toNat % 64)))
/-- SHRI. -/
def sylShri (t : Thr) (u : Nat) (g : Gd) (rd ra : BitVec 5) (imm : BitVec 13) : Syl :=
  sylImm t u g rd ra (fun a => BitVec.ofNat 36 (shrW 36 a (imm.toNat % 64)))
/-- SARI. -/
def sylSari (t : Thr) (u : Nat) (g : Gd) (rd ra : BitVec 5) (imm : BitVec 13) : Syl :=
  sylImm t u g rd ra (fun a => BitVec.ofNat 36 (sarW 36 a (imm.toNat % 64)))
/-- ROLI. -/
def sylRoli (t : Thr) (u : Nat) (g : Gd) (rd ra : BitVec 5) (imm : BitVec 13) : Syl :=
  sylImm t u g rd ra (fun a => BitVec.ofNat 36 (rolW 36 a (imm.toNat % 64)))

/-- EXTI: a field of ra, zero- or sign-extended; bits past 35 read as zero. -/
def extOf (v : W36) (pos w : Nat) (sign : Bool) : W36 :=
  let f := v.toNat / 2 ^ pos % 2 ^ w
  if sign && bitOf f (w - 1) then BitVec.ofInt 36 (signedOf w f) else BitVec.ofNat 36 f

/-- EXTI. -/
def sylExti (t : Thr) (u : Nat) (g : Gd) (rd ra : BitVec 5) (imm : BitVec 13) : Syl :=
  sylImm t u g rd ra (fun a => extOf a (imm.toNat % 64) (bitsOf imm.toNat 11 6 + 1) (bitOf imm.toNat 12))

/-- DEPI: a field of rd replaced by the low bits of ra; bits past 35 are dropped. -/
def depOf (d a : W36) (pos w : Nat) : W36 :=
  let m := BitVec.ofNat 36 ((2 ^ w - 1) * 2 ^ pos)
  (d &&& ~~~m) ||| (BitVec.ofNat 36 (a.toNat % 2 ^ w * 2 ^ pos) &&& m)

/-- DEPI. -/
def sylDepi (t : Thr) (u : Nat) (g : Gd) (rd ra : BitVec 5) (imm : BitVec 13) : Syl :=
  ctxSyl t u g false (fun c0 c =>
    wg c rd (depOf (rg c0 rd) (rg c0 ra) (imm.toNat % 64) (bitsOf imm.toNat 11 6 + 1)))

/-- A compare with the sign-extended immediate. -/
def sylCmpi (t : Thr) (u : Nat) (g : Gd) (rd ra : BitVec 5) (imm : BitVec 13) (cond : Nat) : Syl :=
  ctxSyl t u g false (fun c0 c =>
    match cmpW cond 36 (rg c0 ra) (simm13 imm) with
    | some b => setSpec c rd.toNat b (!b)
    | none => c)

/-- CMPEQI. -/
def sylCmpeqi (t : Thr) (u : Nat) (g : Gd) (rd ra : BitVec 5) (imm : BitVec 13) : Syl := sylCmpi t u g rd ra imm 0
/-- CMPNEI. -/
def sylCmpnei (t : Thr) (u : Nat) (g : Gd) (rd ra : BitVec 5) (imm : BitVec 13) : Syl := sylCmpi t u g rd ra imm 1
/-- CMPLTI. -/
def sylCmplti (t : Thr) (u : Nat) (g : Gd) (rd ra : BitVec 5) (imm : BitVec 13) : Syl := sylCmpi t u g rd ra imm 2
/-- CMPLTUI. -/
def sylCmpltui (t : Thr) (u : Nat) (g : Gd) (rd ra : BitVec 5) (imm : BitVec 13) : Syl := sylCmpi t u g rd ra imm 4

/-- LIL. -/
def sylLil (t : Thr) (u : Nat) (g : Gd) (rd : BitVec 5) (imm : BitVec 18) : Syl :=
  ctxSyl t u g false (fun _ c => wg c rd (imm.zeroExtend 36))
/-- LIH. -/
def sylLih (t : Thr) (u : Nat) (g : Gd) (rd : BitVec 5) (imm : BitVec 18) : Syl :=
  ctxSyl t u g false (fun c0 c => wg c rd (BitVec.ofNat 36 (imm.toNat * 2 ^ 18 + (rg c0 rd).toNat % 2 ^ 18)))

/-- DADD (09 R190). -/
def sylDadd (t : Thr) (u : Nat) (g : Gd) (rd ra rb : BitVec 5) (md : BitVec 8) : Syl :=
  ctxSyl t u g false (fun c0 c =>
    let a := rg c0 ra
    let b := rg c0 rb
    if bcdOk a && bcdOk b then
      (wg c rd (bcdOf (decOf a + decOf b))).setP (cpOf md) (decide (10 ^ 9 ≤ decOf a + decOf b))
    else (wg c rd (BitVec.allOnes 36)).setP (cpOf md) true)

/-- DSUB. -/
def sylDsub (t : Thr) (u : Nat) (g : Gd) (rd ra rb : BitVec 5) (md : BitVec 8) : Syl :=
  ctxSyl t u g false (fun c0 c =>
    let a := rg c0 ra
    let b := rg c0 rb
    if bcdOk a && bcdOk b then
      (wg c rd (bcdOf (decOf a + 10 ^ 9 - decOf b))).setP (cpOf md) (decide (decOf a < decOf b))
    else (wg c rd (BitVec.allOnes 36)).setP (cpOf md) true)

/-- DCMP: an invalid digit reports neither outcome (09 R190). -/
def sylDcmp (t : Thr) (u : Nat) (g : Gd) (rd ra rb : BitVec 5) (md : BitVec 8) : Syl :=
  let cond := md.toNat % 8
  ctxSyl t u g (decide (cond ≠ 0 ∧ cond ≠ 2 ∧ cond ≠ 3)) (fun c0 c =>
    let a := rg c0 ra
    let b := rg c0 rb
    if bcdOk a && bcdOk b then
      let v := if cond = 0 then decide (decOf a = decOf b)
        else if cond = 2 then decide (decOf a < decOf b) else decide (decOf a ≤ decOf b)
      setSpec c rd.toNat v (!v)
    else setSpec c rd.toNat false false)

/-- DCHK. -/
def sylDchk (t : Thr) (u : Nat) (g : Gd) (rd ra _rb : BitVec 5) (_md : BitVec 8) : Syl :=
  ctxSyl t u g false (fun c0 c => setSpec c rd.toNat (bcdOk (rg c0 ra)) (!bcdOk (rg c0 ra)))

/-- CVBD. -/
def sylCvbd (t : Thr) (u : Nat) (g : Gd) (rd ra _rb : BitVec 5) (md : BitVec 8) : Syl :=
  ctxSyl t u g (badWm md) (fun c0 c =>
    let v := lowBits (wmWidth md) (rg c0 ra)
    (wg c rd (bcdOf v)).setP (cpOf md) (decide (10 ^ 9 ≤ v)))

/-- CVDB. -/
def sylCvdb (t : Thr) (u : Nat) (g : Gd) (rd ra _rb : BitVec 5) (md : BitVec 8) : Syl :=
  ctxSyl t u g false (fun c0 c =>
    let a := rg c0 ra
    if bcdOk a then (wg c rd (BitVec.ofNat 36 (decOf a))).setP (cpOf md) false
    else (wg c rd (BitVec.allOnes 36)).setP (cpOf md) true)

/-- LUHN (09 R191). -/
def sylLuhn (t : Thr) (u : Nat) (g : Gd) (rd ra rb : BitVec 5) (md : BitVec 8) : Syl :=
  ctxSyl t u g false (fun c0 c =>
    let n := md.toNat % 16
    let n := if n = 0 ∨ 9 < n then 9 else n
    let st := luhnFold (rg c0 rb).toNat ((List.range n).map (fun i => nib (rg c0 ra) i))
    (wg c rd (luhnWord st)).setP (bitsOf md.toNat 6 4) (decide (st.1 = 0) && !st.2.2))

end Sys2Proof.Machine
end

