-- ==== Sys2Proof/Machine/Memu.lean ====
section
/-! DEFINITION. The M-unit memory and window operations (09 Table 09-5, R192-R196) and far accesses (08 R171, R172). -/

namespace Sys2Proof.Machine

/-- The outcome of a checked near access: its effect, a violation that writes zeros, or an absent segment. -/
def nearFx (t : Thr) (sel off : Nat) (chk : Chk) (zero : Ctx → Ctx) (ok : Nat → Nat → Fx) : Fx :=
  match chk with
  | .ok sp a => ok sp a
  | .bad k => { run := fun s => updCtx (thrViolate s t.toNat k sel off) t.toNat zero }
  | .absent => { fault := some (1, sel, off) }

/-- A near access of `size` units at ra + the offset field. -/
def nearSyl (t : Thr) (g : Gd) (ra : BitVec 5) (imm : BitVec 13) (spaces : List Nat) (n : Need) (size : Nat)
    (zero : Ctx → Ctx) (ok : State → Nat → Nat → Nat → Nat → Fx) : Syl :=
  { unit := 2, guard := g,
    fx := fun s =>
      let c0 := (thr s t.toNat).ctx
      let off := (rg c0 ra + nearOff imm).toNat
      let (sel, chk) := accessCheck s t.toNat (nearSel imm) spaces n off size
      nearFx t sel off chk zero (ok s sel off) }

/-- LD: an uncorrectable word is a synchronous ECC fault (08 Table 08-9). -/
def sylLd (t : Thr) (g : Gd) (rd ra : BitVec 5) (imm : BitVec 13) : Syl :=
  nearSyl t g ra imm [spClm, spCsm, spIst] { r := true } 1 (fun c => wg c rd 0) (fun s sel off sp a =>
    if wordBad s t.toNat sp a then { fault := some (2, sel, off) }
    else
      let v := readWord s t.toNat sp a
      { run := fun s => updCtx s t.toNat (fun c => wg c rd v) })

/-- ST. -/
def sylSt (t : Thr) (g : Gd) (rd ra : BitVec 5) (imm : BitVec 13) : Syl :=
  nearSyl t g ra imm [spClm, spCsm] { w := true } 1 id (fun s _ _ sp a =>
    let v := rg (thr s t.toNat).ctx rd
    { run := fun s => writeWord s t.toNat sp a v })

/-- LDO1, LDO2, LDO4: octets of the window, most significant first. -/
def sylLdo (t : Thr) (g : Gd) (rd ra : BitVec 5) (imm : BitVec 13) (n : Nat) : Syl :=
  nearSyl t g ra imm [spWin] { r := true } n (fun c => wg c rd 0) (fun s _ _ _ a =>
    let v := BitVec.ofNat 36 (beNat ((thr s t.toNat).ctx.winRead a n))
    { run := fun s => updCtx s t.toNat (fun c => wg c rd v) })

/-- STO1, STO2, STO4. -/
def sylSto (t : Thr) (g : Gd) (rd ra : BitVec 5) (imm : BitVec 13) (n : Nat) : Syl :=
  nearSyl t g ra imm [spWin] { w := true } n id (fun s _ _ _ a =>
    let l := beOctets n (rg (thr s t.toNat).ctx rd).toNat
    { run := fun s => updCtx s t.toNat (fun c => c.winWrite a l) })

/-- Nibble `a` of the window: the high nibble of its octet when `a` is even (09 R193). -/
def winNib (c : Ctx) (a : Nat) : Nat :=
  let o := (mget 0 c.win (a / 2)).toNat
  if a % 2 = 0 then o / 16 else o % 16

/-- LDD: nine nibbles from a nibble address (09 R193). -/
def sylLdd (t : Thr) (g : Gd) (rd ra : BitVec 5) (imm : BitVec 13) : Syl :=
  { unit := 2, guard := g,
    fx := fun s =>
      let c0 := (thr s t.toNat).ctx
      let a := (rg c0 ra + nearOff imm).toNat
      let (sel, chk) := accessCheck s t.toNat (nearSel imm) [spWin] { r := true } (a / 2) ((a + 8) / 2 - a / 2 + 1)
      nearFx t sel (a / 2) chk (fun c => wg c rd 0) (fun _ _ =>
        let v := (List.range 9).foldl (fun n i => n * 16 + winNib c0 (a + i)) 0
        { run := fun s => updCtx s t.toNat (fun c => wg c rd (BitVec.ofNat 36 v)) }) }

/-- Is a tag of a thread busy (08 R172). -/
def tagBusy (s : State) (t tag : Nat) : Bool := (mfind (thr s t).ctx.tags tag).isSome

/-- Start an operation on a tag: EV[tag] is cleared (08 R172). DESIGN CHOICE, log entry 24. -/
def startTag (s : State) (t tag : Nat) (x : Tag) : State :=
  updCtx s t (fun c => { c.clrEv (2 ^ tag) with tags := mput c.tags tag { x with issued := s.now } })

/-- A far access: waits on a busy tag; a violation does not start it and its tag completes with zeros (08 R169). -/
def farSyl (t : Thr) (g : Gd) (undef : Bool) (tag sel : Nat) (spaces : List Nat) (n : Need)
    (offOf : Ctx → Nat) (size : Ctx → Nat) (zero : Ctx → Tag) (ok : State → Nat → Nat → Option (Nat × Nat) → State → State) :
    Syl :=
  { unit := 2, guard := g, undef := undef,
    fx := fun s =>
      let c0 := (thr s t.toNat).ctx
      if tagBusy s t.toNat tag then { stall := true }
      else
        let off := offOf c0
        let sv := c0.sel sel
        let v := segOf s t.toNat sv
        match segCheck v spaces n off (size c0) with
        | .ok sp a => { run := ok s sp a v.table }
        | .bad k => { run := fun s => startTag (thrViolate s t.toNat k sv off) t.toNat tag (zero c0) }
        | .absent => { fault := some (1, sv, off) } }

/-- Size of FLD and FST: MOD [4:3] (09 R188). -/
def farSize (md : BitVec 8) : Nat := 2 ^ bitsOf md.toNat 4 3
/-- Tag of a far or helper syllable: MOD [6:5]. -/
def tagOf (md : BitVec 8) : Nat := bitsOf md.toNat 6 5

/-- Octets a far read delivers, and whether they meet poison: data with an uncorrectable error is open (DESIGN CHOICE, log entry 2). -/
def farData (s : State) (t sp a n : Nat) : List Octet × Bool × State :=
  if octsBad s sp a n then
    let (v, s) := drawFree s (256 ^ n)
    (beOctets n v, true, s)
  else (readOcts s t sp a n, false, s)

/-- FLD (08 R171). -/
def sylFld (t : Thr) (g : Gd) (rd ra rb : BitVec 5) (md : BitVec 8) : Syl :=
  let n := farSize md
  farSyl t g (decide (bitsOf md.toNat 4 3 = 3)) (tagOf md) (md.toNat % 8) [spSram, spHbm, spHost] { r := true }
    (fun c => (rg c ra + rg c rb).toNat) (fun _ => n) (fun _ => { kind := .far, rd := some (rd.toNat, 0) })
    (fun _ sp a tab s =>
      let (l, bad, s) := farData s t.toNat sp a n
      startTag s t.toNat (tagOf md) {
        kind := .far, rd := some (rd.toNat, BitVec.ofNat 36 (beNat l)), fault := if bad then 2 else 0,
        hostMem := sp = 5, segs := tab.toList, issued := s.now })

/-- FST (08 R171): takes effect at issue, in issue order. -/
def sylFst (t : Thr) (g : Gd) (rd ra rb : BitVec 5) (md : BitVec 8) : Syl :=
  let n := farSize md
  farSyl t g (decide (bitsOf md.toNat 4 3 = 3)) (tagOf md) (md.toNat % 8) [spSram, spHbm, spHost] { w := true }
    (fun c => (rg c ra + rg c rb).toNat) (fun _ => n) (fun _ => { kind := .far })
    (fun s0 sp a tab s =>
      let l := beOctets n (rg (thr s0 t.toNat).ctx rd).toNat
      startTag (writeOcts s t.toNat sp a l) t.toNat (tagOf md)
        { kind := .far, hostMem := sp = 5, segs := tab.toList, issued := s.now })

/-- Length of FMOV: rb[5:0], 0 meaning 64 (09 Table 09-5). -/
def fmovLen (c : Ctx) (rb : BitVec 5) : Nat := let n := (rg c rb).toNat % 64; if n = 0 then 64 else n

/-- FMOV: far to window, or window to far; the window range is checked against the window descriptor. -/
def sylFmov (t : Thr) (g : Gd) (rd ra rb : BitVec 5) (md : BitVec 8) : Syl :=
  let out := bitOf md.toNat 7
  let tag := tagOf md
  farSyl t g false tag (md.toNat % 8) [spSram, spHbm, spHost] { r := !out, w := out }
    (fun c => (rg c ra).toNat) (fun c => fmovLen c rb)
    (fun c => { kind := .far, win := if out then [] else [((rg c rd).toNat, zeros (fmovLen c rb))] })
    (fun s0 sp a tab s =>
      let c0 := (thr s0 t.toNat).ctx
      let n := fmovLen c0 rb
      let woff := (rg c0 rd).toNat
      match segCheck winView [spWin] { r := out, w := !out } woff n with
      | .bad k =>
        startTag (thrViolate s t.toNat k 0x800 woff) t.toNat tag
          { kind := .far, win := if out then [] else [(woff, zeros n)] }
      | _ =>
        if out then
          startTag (writeOcts s t.toNat sp a (c0.winRead woff n)) t.toNat tag
            { kind := .far, hostMem := sp = 5, segs := tab.toList, issued := s.now }
        else
          let (l, bad, s) := farData s t.toNat sp a n
          startTag s t.toNat tag {
            kind := .far, win := [(woff, l)], fault := if bad then 2 else 0, hostMem := sp = 5, segs := tab.toList,
            issued := s.now })

/-- PARAM of the helper latency of a kind of operation (17 Table 17-2). -/
def HelperKind.param (k : HelperKind) : Nat :=
  match k with
  | .tbl => 0
  | .srch => 1
  | .crypt => 2
  | .buf => 3
  | .far => 4

/-- A completed operation yields its latency to the monitors of the partition of its thread (17 Table 17-2). -/
def helperSample (s : State) (r : CtxRef) (x : Tag) : State :=
  match clusterOwner s (r.idx.toNat / 128) with
  | some p => gaitYield s p (fun w0 =>
      if bitsOf w0 3 0 = 4 ∧ bitsOf w0 21 10 = x.kind.param then some (s.now - x.issued) else none)
  | none => s

/-- A far access or helper of the context at a place completes: registers and window octets are written first, then
EV[tag] is set, and a fault it found becomes pending (08 R172-R174). -/
def completeTag (s : State) (r : CtxRef) (tag : Nat) (fault : Nat) : State :=
  match mfind (ctxAt s r).tags tag with
  | none => s
  | some x =>
    let s := updCtxAt (helperSample s r x) r (fun c =>
      let c := match x.rd with
        | some (rd, v) => c.setG rd v
        | none => c
      let c := x.win.foldl (fun (c : Ctx) ol => c.winWrite ol.1 ol.2) c
      { c.setEv (2 ^ tag) with tags := mdel c.tags tag })
    let s := if fault ≠ 0 then pendFaultAt s r fault tag else s
    if r.saved then s else drainDone s r.idx.toNat

/-- A failed read of host memory is counted, and AER records it (14 R297, R314). -/
def readFailed (s : State) (p : Nat) : State :=
  let x := mget {} s.gpl.fns p
  gplCnt { s with gpl := { s.gpl with fns := mset {} s.gpl.fns p { x with errors := x.errors + 1 } } } p 7 1

/-- A far access completes (08 R172); `pcie` says that host memory answered with an error. -/
def farComplete (s : State) (r : CtxRef) (tag : Nat) (pcie : Bool) : State :=
  match mfind (ctxAt s r).tags tag with
  | none => s
  | some x =>
    if x.kind ≠ .far then s
    else if pcie && x.hostMem then
      let s := match (ctxAt s r).task.bind (taskSt s) with
        | some y => readFailed s y.part
        | none => s
      completeTag (updCtxAt s r (fun c => { c with tags := mput c.tags tag { x with rd := none, win := [] } })) r tag 3
    else completeTag s r tag x.fault

/-- Is word-lock mode on for a thread's partition (11 R238). -/
def wlockOn (s : State) (t : Nat) : Bool :=
  match thrPart s t with
  | some p => flag s (0x80040 + 4 * p) 0
  | none => false

/-- A word-lock operation on a CSM word or an aligned 8-octet word (09 Table 09-5): `f` maps the word to its new value
and the result for rd. -/
def wordLockSyl (t : Thr) (g : Gd) (ra : BitVec 5) (md : BitVec 8) (n : Need) (rd : Option Nat)
    (f : Ctx → Nat → Nat × Nat) : Syl :=
  let tag := tagOf md
  { unit := 2, guard := g,
    fx := fun s =>
      let c0 := (thr s t.toNat).ctx
      if !wlockOn s t.toNat then undefFx t.toNat
      else if tagBusy s t.toNat tag then { stall := true }
      else
        let off := (rg c0 ra).toNat
        let sv := c0.sel (md.toNat % 8)
        let v := segOf s t.toNat sv
        let zero : Tag := { kind := .far, rd := rd.map (fun r => (r, 0)) }
        match segCheck v [spCsm, spSram, spHbm] n off (if v.space = 1 then 1 else 8) with
        | .bad k => { run := fun s => startTag (thrViolate s t.toNat k sv off) t.toNat tag zero }
        | .absent => { fault := some (1, sv, off) }
        | .ok sp a =>
          if sp = 1 then
            { run := fun s =>
                let (m, r) := f c0 (csmWord s (t.toNat / 128) a).toNat
                startTag (setCsm s (t.toNat / 128) a (BitVec.ofNat 36 m)) t.toNat tag
                  { kind := .far, rd := rd.map (fun d => (d, BitVec.ofNat 36 r)), segs := v.table.toList, issued := s.now } }
          else if a % 8 ≠ 0 then { run := fun s => startTag (thrViolate s t.toNat 3 sv off) t.toNat tag zero }
          else
            { run := fun s =>
                if octsBad s sp a 8 then
                  let (x, s) := drawFree s (2 ^ 36)
                  startTag s t.toNat tag
                    { kind := .far, rd := rd.map (fun d => (d, BitVec.ofNat 36 x)), fault := 2, segs := v.table.toList }
                else
                  let (m, r) := f c0 (beNat (viewRead s a 8))
                  startTag (devWrite s a (beOctets 8 m)) t.toNat tag
                    { kind := .far, rd := rd.map (fun d => (d, BitVec.ofNat 36 r)), segs := v.table.toList, issued := s.now } } }

/-- LOCKW. -/
def sylLockw (t : Thr) (g : Gd) (rd ra rb : BitVec 5) (md : BitVec 8) : Syl :=
  wordLockSyl t g ra md { r := true, w := true } (some rd.toNat)
    (fun c m => if m = 0 then (max 1 (rg c rb).toNat, 0) else (m, 1))

/-- UNLOCKW. -/
def sylUnlockw (t : Thr) (g : Gd) (_rd ra _rb : BitVec 5) (md : BitVec 8) : Syl :=
  wordLockSyl t g ra md { w := true } none (fun _ _ => (0, 0))

/-- Entry `i` of a translation table of 64 words at word `base` (09 R194). -/
def xlatEntry (s : State) (t sp base i : Nat) : Nat := (readWord s t sp (base + i / 4)).toNat / 256 ^ (3 - i % 4) % 256

/-- XLAT (09 R194). -/
def sylXlat (t : Thr) (g : Gd) (rd ra rb : BitVec 5) (md : BitVec 8) : Syl :=
  { unit := 2, guard := g,
    fx := fun s =>
      let c0 := (thr s t.toNat).ctx
      let off := (rg c0 rb).toNat
      let (sel, chk) := accessCheck s t.toNat (md.toNat % 8) [spClm, spCsm] { r := true } off 64
      nearFx t sel off chk (fun c => wg c rd 0) (fun sp a =>
        let idx := fun k => (rg c0 ra).toNat / 256 ^ k % 256
        if (List.range 4).any (fun k => wordBad s t.toNat sp (a + idx k / 4)) then { fault := some (2, sel, off) }
        else
          let v := (List.range 4).foldl (fun n k => n + xlatEntry s t.toNat sp a (idx k) * 256 ^ k) 0
          { run := fun s => updCtx s t.toNat (fun c => wg c rd (BitVec.ofNat 36 v)) }) }

/-- Field `f` of a bitmap in octets (09 R195). -/
def bmBit (l : List Octet) (f : Nat) : Bool := bitOf (oct l ((f - 1) / 8)) (7 - (f - 1) % 8)

/-- The next field present after `from_`; 0 when there is none (09 R195). -/
def bmNext (l : List Octet) (last from_ : Nat) : Nat :=
  ((List.range 128).find? (fun f => decide (from_ ≤ f + 1 ∧ f + 1 ≤ last) && bmBit l (f + 1))).map (· + 1) |>.getD 0

/-- BMWALK (09 R195). -/
def sylBmwalk (t : Thr) (g : Gd) (rd ra rb : BitVec 5) (md : BitVec 8) : Syl :=
  { unit := 2, guard := g,
    fx := fun s =>
      let c0 := (thr s t.toNat).ctx
      let off := (rg c0 rb).toNat
      let k := bitsOf md.toNat 5 3
      let (sel, chk) := accessCheck s t.toNat k [spWin] { r := true } off 8
      nearFx t sel off chk (fun c => wg c rd 0) (fun _ a =>
        let second := bmBit (c0.winRead a 1) 1
        let (_, chk2) := accessCheck s t.toNat k [spWin] { r := true } off (if second then 16 else 8)
        nearFx t sel off chk2 (fun c => wg c rd 0) (fun _ a =>
          let f := bmNext (c0.winRead a 16) (if second then 128 else 64) (max (rg c0 ra).toNat 1 + 1)
          { run := fun s => updCtx s t.toNat (fun c =>
              (wg c rd (BitVec.ofNat 36 f)).setP (md.toNat % 8) (decide (f ≠ 0))) })) }

/-- Octets of a BER tag at the head of a list: none when it runs past three octets or past the end (09 R196). -/
def tlvTag (l : List Octet) : Option (List Octet) :=
  match l with
  | [] => none
  | a :: r =>
    if a.toNat % 32 ≠ 31 then some [a]
    else match r with
      | [] => none
      | b :: r =>
        if b.toNat < 128 then some [a, b]
        else match r with
          | [] => none
          | c :: _ => if c.toNat < 128 then some [a, b, c] else none

/-- A BER length at the head of a list: its value and how many octets it takes. -/
def tlvLen (l : List Octet) : Option (Nat × Nat) :=
  match l with
  | [] => none
  | a :: r =>
    if a.toNat < 128 then some (a.toNat, 1)
    else if a.toNat = 0x81 then (match r with
      | b :: _ => some (b.toNat, 2)
      | [] => none)
    else if a.toNat = 0x82 then (match r with
      | b :: c :: _ => some (b.toNat * 256 + c.toNat, 3)
      | _ => none)
    else none

/-- What TLVNEXT writes to rd, to rd + 1 and to P[pd], from the octets up to the segment limit (09 R196). -/
def tlvResult (off : Nat) (l : List Octet) : Nat × Nat × Bool :=
  let z := (l.takeWhile (· = 0)).length
  let r := l.drop z
  if r = [] then (0, 2 ^ 34, false)
  else match tlvTag r with
    | none => (0, 2 ^ 35, false)
    | some tag =>
      match tlvLen (r.drop tag.length) with
      | none => (0, 2 ^ 35, false)
      | some (len, n) =>
        (beNat tag + (tag.length - 1) * 2 ^ 24 + b2n (bitOf (oct tag 0) 5) * 2 ^ 26,
          len + (off + z + tag.length + n) * 2 ^ 16, true)

/-- TLVNEXT (09 R196): undefined with rd 31; running past the limit is no violation. -/
def sylTlvnext (t : Thr) (g : Gd) (rd ra _rb : BitVec 5) (md : BitVec 8) : Syl :=
  { unit := 2, guard := g, undef := decide (rd.toNat = 31),
    fx := fun s =>
      let c0 := (thr s t.toNat).ctx
      let off := (rg c0 ra).toNat
      let k := bitsOf md.toNat 5 3
      let sel := c0.sel k
      let v := segOf s t.toNat sel
      nearFx t sel off (segCheck v [spWin] { r := true } 0 1)
        (fun c => (wg c rd 0).setG (rd.toNat + 1) 0) (fun _ _ =>
        let (x, y, ok) := tlvResult off (if v.limit < off then [] else c0.winRead off (v.limit + 1 - off))
        { run := fun s => updCtx s t.toNat (fun c =>
            ((wg c rd (BitVec.ofNat 36 x)).setG (rd.toNat + 1) (BitVec.ofNat 36 y)).setP (md.toNat % 8) ok) }) }

end Sys2Proof.Machine
end

