-- ==== Sys2Proof/Machine/Xunit.lean ====
section
/-! DEFINITION. The X-unit operations: branches, multiply, CRC, special registers and time (09 R180, R189, R200,
R201, Tables 09-7 and 09-8). -/

namespace Sys2Proof.Machine

/-- B: the target issues at the next turn. -/
def sylB (t : Thr) (g : Gd) (target : BitVec 16) : Syl :=
  ctxSyl t 3 g false (fun _ c => { c with pc := target })

/-- BL: G31 receives the address of the next bundle, which `len` syllables separate from this one. -/
def sylBl (t : Thr) (g : Gd) (target : BitVec 16) (len : Nat) : Syl :=
  ctxSyl t 3 g false (fun c0 c =>
    { c.setG 31 ((c0.pc + BitVec.ofNat 16 len).zeroExtend 36) with pc := target })

/-- BR. -/
def sylBr (t : Thr) (g : Gd) (_rd ra _rb : BitVec 5) (_md : BitVec 8) : Syl :=
  ctxSyl t 3 g false (fun c0 c => { c with pc := (rg c0 ra).truncate 16 })

/-- MUL: the product is readable at the second turn; the addend of ACC is the result of the preceding multiply or of a
later MTSR (09 R200). -/
def sylMul (t : Thr) (g : Gd) (_rd ra rb : BitVec 5) (md : BitVec 8) : Syl :=
  let mode := md.toNat % 4
  ctxSyl t 3 g (decide (mode = 3)) (fun c0 c =>
    let v := mulValue mode (rg c0 ra) (rg c0 rb) (if bitOf md.toNat 2 then some c0.macc else none)
    { c.addLate 2 (.mq v) with macc := v })

/-- CRC: the low octets of ra[31:0], most significant first (09 R201). -/
def sylCrc (t : Thr) (g : Gd) (_rd ra _rb : BitVec 5) (md : BitVec 8) : Syl :=
  { unit := 3, guard := g, undef := decide (md.toNat % 4 = 3),
    fx := fun s =>
      let c0 := (thr s t.toNat).ctx
      let ca := crcSteps (crcForm s (t.toNat / 16) (bitsOf md.toNat 3 2)) c0.ca.toNat
        (beOctets (2 ^ (md.toNat % 4)) (rg c0 ra).toNat)
      { run := fun s => updCtx s t.toNat (fun c => { c with ca := BitVec.ofNat 32 ca }) } }

/-- Effective priority of the task on a thread: PRI (08 Table 08-2). -/
def thrPri (s : State) (t : Nat) : Nat := (((thrTask s t).bind (taskSt s)).map (·.eprio)).getD 0

/-- What MFSR reads (09 Table 09-8). -/
def specialReg (s : State) (t n : Nat) : W36 :=
  let c := (thr s t).ctx
  if n = 0 then c.mq.truncate 36
  else if n = 1 then (c.mq >>> 36).truncate 36
  else if n = 2 then c.ca.zeroExtend 36
  else if n = 3 then c.ev
  else if n = 4 then c.pg
  else if n = 5 then c.tk
  else if n = 6 then BitVec.ofNat 36 (thrPri s t)
  else if n = 7 then BitVec.ofNat 36 (thrAgent t)
  else if 8 ≤ n ∧ n < 16 then BitVec.ofNat 36 (c.sel (n - 8))
  else 0

/-- MFSR. -/
def sylMfsr (t : Thr) (g : Gd) (rd _ra _rb : BitVec 5) (md : BitVec 8) : Syl :=
  { unit := 3, guard := g,
    fx := fun s =>
      let v := specialReg s t.toNat (md.toNat % 32)
      { run := fun s => updCtx s t.toNat (fun c => wg c rd v) } }

/-- A context with a special register written (09 Table 09-8); PG, TK, PRI and AGENT ignore writes. The addend of a later
ACC multiply takes the half that is written and keeps the other (09 R200). -/
def Ctx.mtsr (c : Ctx) (n : Nat) (v : W36) : Ctx :=
  if n = 0 then
    let put := fun (m : BitVec 72) => BitVec.ofNat 72 (m.toNat / 2 ^ 36 * 2 ^ 36 + v.toNat)
    { c with mq := put c.mq, macc := put c.macc }
  else if n = 1 then
    let put := fun (m : BitVec 72) => BitVec.ofNat 72 (v.toNat * 2 ^ 36 + m.toNat % 2 ^ 36)
    { c with mq := put c.mq, macc := put c.macc }
  else if n = 2 then { c with ca := v.truncate 32 }
  else if n = 3 then c.clrEv (v.toNat / 16 * 16)
  else if 8 ≤ n ∧ n < 16 then { c with sels := mset 0 c.sels (n - 8) (v.truncate 12) }
  else c

/-- MTSR: EV bits are cleared before any syllable of the bundle sets one. -/
def sylMtsr (t : Thr) (g : Gd) (_rd ra _rb : BitVec 5) (md : BitVec 8) : Syl :=
  { unit := 3, guard := g,
    fx := fun s =>
      let f := fun (s' : State) => updCtx s' t.toNat (fun c => c.mtsr (md.toNat % 32) (rg (thr s t.toNat).ctx ra))
      if md.toNat % 32 = 3 then { pre := f } else { run := f } }

/-- TIME writes device TAI time within 10 ns of the turn: where in that span the spec leaves open (DESIGN CHOICE, log entry 2). -/
def timeRead (t rd : Nat) (s : State) : State :=
  let (k, s) := drawFree s 21
  updCtx s t (fun c => c.setG rd (BitVec.ofInt 36 ((tai s : Int) + k - 10)))

/-- TIME. -/
def sylTime (t : Thr) (g : Gd) (rd _ra _rb : BitVec 5) (_md : BitVec 8) : Syl :=
  { unit := 3, guard := g, fx := fun _ => { run := timeRead t.toNat rd.toNat } }

end Sys2Proof.Machine
end

