-- ==== Sys2Proof/Machine/Microcode.lean ====
section
/-! DEFINITION. The micro-store and its sequencer (10 R205-R210) and the microcoded instructions (09 R203; 10 R211-R218):
chunks, commit points, PG, interruption and restarts. A command that issues a routine's bundle runs one chunk of it. -/

namespace Sys2Proof.Machine

/-- An access of a routine over units [lo, lo + n) of its length. -/
structure MicroAcc where
  sel : Nat
  spaces : List Nat
  need : Need
  off : Nat → Nat → Nat
  size : Nat → Nat → Nat

/-- A routine: its length, its accesses and what a chunk commits, given the addresses of the accesses (space and first
unit). `bad` says that what the chunk reads carries an uncorrectable error. -/
structure MicroPlan where
  len : Nat
  accs : List MicroAcc
  down : List (Nat × Nat) → Bool
  bad : State → List (Nat × Nat) → Nat → Bool
  commit : State → List (Nat × Nat) → Nat → State

/-- What checking every access answers. -/
inductive MicroChk where
  | ok (l : List (Nat × Nat))
  | bad (kind sel off : Nat)
  | absent (sel off : Nat)

/-- Check the accesses over [lo, lo + n), in order (08 R168). -/
def microCheck (s : State) (t lo n : Nat) : List MicroAcc → MicroChk
  | [] => .ok []
  | a :: l =>
    let off := a.off lo n
    match accessCheck s t a.sel a.spaces a.need off (a.size lo n) with
    | (sel, .bad k) => .bad k sel off
    | (sel, .absent) => .absent sel off
    | (_, .ok sp ad) =>
      match microCheck s t lo n l with
      | .ok r => .ok ((sp, ad) :: r)
      | e => e

/-- PG during a routine (10 Table 10-2). -/
def pgWord (done : Nat) (pc : BitVec 16) : BitVec 36 := BitVec.ofNat 36 (done + 2 ^ 15 + pc.toNat * 2 ^ 16)

/-! ### The sequencer -/

/-- The micro-store a thread's routine runs from: that of the physical core of its logical core (10 R205). -/
def microStore (s : State) (t : Nat) : Patch := mget {} s.far.patches (physOf s (t / 16))

/-- The microword at an address as it is stored; none where nothing is ever fetched (10 R205). -/
def Patch.word (x : Patch) (a : Nat) : Option (BitVec 112) :=
  if a < 0x2000 then some (Config.microRom a) else if a < 0x2200 then some (mget 0 x.ram (a - 0x2000)) else none

/-- The address a fetch reads: a ROM address is compared with every enabled match register, and the lowest-numbered match
gives its patch address; patch RAM addresses are never compared (10 R208). -/
def Patch.redirect (x : Patch) (a : Nat) : Nat :=
  if a < 0x2000 then ((x.mregs.find? (fun m => decide (m.1 = a))).map (·.2)).getD a else a

/-- How the microwords of a chunk end. -/
inductive MicroEnd where
  | commit (upc : Nat) (stack : List Nat)
  | complete
  | error

/-- The fields of a microword (10 Table 10-1). -/
def mwSeq (w : BitVec 112) : Nat := bitsOf w.toNat 109 107
def mwCommit (w : BitVec 112) : Bool := bitOf w.toNat 106
def mwTarget (w : BitVec 112) : Nat := bitsOf w.toNat 105 92
def mwCond (w : BitVec 112) : Nat := bitsOf w.toNat 91 88

/-- Where sequencing goes from a microword fetched at `a`: the next address and the micro-stack, of at most 4 return
addresses; none is a sequencing error, `draw` the free value of a condition (10 R209). DEDUCED, log entry 108. -/
def microNext (w : BitVec 112) (a draw : Nat) (stack : List Nat) : Option (Nat × List Nat) :=
  match mwSeq w with
  | 0 => some (a + 1, stack)
  | 1 => some (mwTarget w, stack)
  | 2 => some (if Config.microCond draw (mwCond w) then mwTarget w else a + 1, stack)
  | 3 => if 4 ≤ stack.length then none else some (mwTarget w, (a + 1) :: stack)
  | 4 => match stack with
    | r :: l => some (r, l)
    | [] => none
  | 5 => some (a, stack)
  | _ => none

/-- Run microwords from `upc` to the end of the chunk's commit microword, or to the completing one; at most `fuel`, the
bound of R219 (10 R207-R211). -/
def microWalk (x : Patch) : Nat → Nat → Nat → List Nat → MicroEnd
  | 0, _, upc, stack => .commit upc stack
  | fuel + 1, draw, upc, stack =>
    let a := x.redirect upc
    match x.word a with
    | none => .error
    | some w =>
      if mwSeq w = 5 then .complete
      else match microNext w a draw stack with
        | none => .error
        | some (n, st) => if mwCommit w then .commit n st else microWalk x fuel (draw + 1) n st

/-- The chunk of a routine as its microwords sequence it: where the next one begins, none on a sequencing error. ROM
sequences without error (10 R219), so that a core with no match register enabled has none. -/
def microSeq (s : State) (t : Nat) (r : MicroRun) : Option MicroRun :=
  let x := microStore s t
  match microWalk x 1024 s.fresh r.upc r.stack with
  | .commit upc stack => some { r with upc := upc, stack := stack }
  | .complete => some r
  | .error => if x.mregs = [] then some r else none

/-- A correctable error may be met in a fetch: it is corrected, and counted in MCS_STAT.CECNT (10 R210). Whether one is
met the spec leaves open (DESIGN CHOICE, log entry 2). -/
def microFetched (s : State) (t : Nat) : State :=
  let (n, s) := drawFree s 2
  let o := 0x70800 + 4 * (t / 16)
  wrDev s o (setBits (rdDev s o) 30 23 (min 255 (fld s o 30 23 + n)))

/-- A doubt source found by a running thread: the command that issued it hands it to Bolt (16 R338). -/
def raiseDoubt (s : State) (code : Nat) (p : Option Nat) (res : Nat) : State :=
  { s with hkc := { s.hkc with raised := s.hkc.raised ++ [(code, p, res)] } }

/-- A sequencing error: a doubt source in control storage of the core's owner; the routine goes no further (10 R209). -/
def seqError (s : State) (t : Nat) (pc : BitVec 16) : State :=
  raiseDoubt (updThr s t (fun x => { x with routine := none, ctx := { x.ctx with pc := pc } })) 0x02 (thrPart s t) (t / 16)

/-! ### Routines -/

/-- The routine completes: PG := 0 (10 R211). -/
def microDone (s : State) (t : Nat) : State :=
  mcsThr (updThr s t (fun x => { x with routine := none, ctx := { x.ctx with pg := 0, micro := none } })) t 0

/-- A synchronous fault inside a routine, taken at the bundle's address (10 R218). -/
def microFault (s : State) (t : Nat) (pc : BitVec 16) (kind sel off : Nat) : State :=
  takeFault (mcsThr (updCtx s t (fun c => { c with pc := pc })) t 2) t kind 3 sel off

/-- Run one chunk, of at most 512 units from `done` (10 R211, R214, R215); PC stays at the bundle until the last.
DESIGN CHOICE, log entry 25. -/
def microChunk (p : MicroPlan) (t : Nat) (pc : BitVec 16) (r : MicroRun) (done : Nat) (s : State) : State :=
  let s := microFetched s t
  match microSeq s t r with
  | none => seqError s t pc
  | some r =>
    let n := min 512 (p.len - done)
    let lo := if r.down then p.len - done - n else done
    match microCheck s t lo n p.accs with
    | .bad k sel off =>
      mcsThr (updCtx (thrViolate s t k sel off) t (fun c => { c with pg := 0, micro := none })) t 4
    | .absent sel off => microFault s t pc 1 sel off
    | .ok l =>
      if p.bad s l n then microFault s t pc 2 0 0
      else
        let s := p.commit s l n
        if p.len ≤ done + n then microDone s t
        else updThr s t (fun x => { x with
          routine := some r, ctx := { x.ctx with pg := pgWord (done + n) pc, pc := pc } })

/-- Issue a routine, or its next chunk when it is under way: from DONE when PG names this bundle, else from 0, after
checking its whole range (09 R203, 10 R213). -/
def microSyl (t : Thr) (g : Gd) (op : Nat) (plan : State → Bool → MicroPlan) (begin_ : State → Ctx → Ctx) : Syl :=
  { unit := 3, guard := g, micro := true,
    fx := fun s0 =>
      let c0 := (thr s0 t.toNat).ctx
      let again := bitOf c0.pg.toNat 15 && decide (bitsOf c0.pg.toNat 31 16 = c0.pc.toNat)
      let p := plan s0 again
      let done := if again then c0.pg.toNat % 32768 else 0
      if p.len = 0 then {}
      else if 16384 < p.len then { run := fun s => thrViolate s t.toNat 3 0 p.len }
      else match (thr s0 t.toNat).routine with
        | some r => { run := microChunk p t.toNat c0.pc r done }
        | none =>
          match microCheck s0 t.toNat 0 p.len p.accs with
          | .bad k sel off => { run := fun s => thrViolate s t.toNat k sel off }
          | .absent sel off => { run := fun s => microFault s t.toNat c0.pc 1 sel off }
          | .ok l =>
            { run := fun s => microChunk p t.toNat c0.pc { upc := Config.microEntry op, down := p.down l } done
                (if again then mcsThr s t.toNat 3 else updCtx s t.toNat (begin_ s0)) } }

/-- Octets spaces of a routine: window, packet SRAM and HBM (09 R203). -/
def microSpaces : List Nat := [spWin, spSram, spHbm]

/-- An access to octets from a register's value. -/
def octAcc (sel : Nat) (need : Need) (base : Nat) : MicroAcc :=
  { sel := sel, spaces := microSpaces, need := need, off := fun lo _ => base + lo, size := fun _ n => n }

/-- BMOVE: a copy with a result as if through a temporary buffer. -/
def sylBmove (t : Thr) (g : Gd) (rd ra rb : BitVec 5) (md : BitVec 8) : Syl :=
  microSyl t g 16 (fun s _ =>
    let c := (thr s t.toNat).ctx
    let len := (rg c rd).toNat
    { len := len,
      accs := [octAcc (md.toNat % 8) { w := true } (rg c ra).toNat,
               octAcc (bitsOf md.toNat 5 3) { r := true } (rg c rb).toNat],
      down := fun l => match l with
        | [d, r] => decide ((d.1 = 6 ↔ r.1 = 6) ∧ r.2 < d.2 ∧ d.2 < r.2 + len)
        | _ => false,
      bad := fun s l n => match l with
        | [_, r] => octsBad s r.1 r.2 n
        | _ => false,
      commit := fun s l n => match l with
        | [d, r] => writeOcts s t.toNat d.1 d.2 (readOcts s t.toNat r.1 r.2 n)
        | _ => s }) (fun _ c => c)

/-- BFILL. -/
def sylBfill (t : Thr) (g : Gd) (rd ra rb : BitVec 5) (md : BitVec 8) : Syl :=
  microSyl t g 17 (fun s _ =>
    let c := (thr s t.toNat).ctx
    { len := (rg c rd).toNat, accs := [octAcc (md.toNat % 8) { w := true } (rg c ra).toNat], down := fun _ => false,
      bad := fun _ _ _ => false,
      commit := fun s l n => match l with
        | [d] => writeOcts s t.toNat d.1 d.2 (List.replicate n ((rg c rb).truncate 8))
        | _ => s }) (fun _ c => c)

/-- CRCB: keeps the polynomial it began with (09 R202). -/
def sylCrcb (t : Thr) (g : Gd) (rd ra _rb : BitVec 5) (md : BitVec 8) : Syl :=
  let form := fun (s : State) => crcForm s (t.toNat / 16) (bitsOf md.toNat 4 3)
  microSyl t g 18 (fun s again =>
    let c := (thr s t.toNat).ctx
    let f := match again, c.micro with
      | true, some m => ⟨m.width, m.refl, m.poly⟩
      | _, _ => form s
    { len := (rg c rd).toNat, accs := [octAcc (md.toNat % 8) { r := true } (rg c ra).toNat], down := fun _ => false,
      bad := fun s l n => match l with
        | [d] => octsBad s d.1 d.2 n
        | _ => false,
      commit := fun s l n => match l with
        | [d] =>
          let o := readOcts s t.toNat d.1 d.2 n
          updCtx s t.toNat (fun c => { c with ca := BitVec.ofNat 32 (crcSteps f c.ca.toNat o) })
        | _ => s })
    (fun s c => let f := form s
                { c with micro := some { poly := f.k, width := f.w, refl := f.refl } })

/-- XLATB: octets translated in place through a table in CLM or CSM (09 R194, R203). -/
def sylXlatb (t : Thr) (g : Gd) (rd ra rb : BitVec 5) (md : BitVec 8) : Syl :=
  microSyl t g 19 (fun s _ =>
    let c := (thr s t.toNat).ctx
    { len := (rg c rd).toNat,
      accs := [octAcc (md.toNat % 8) { r := true, w := true } (rg c ra).toNat,
               { sel := bitsOf md.toNat 5 3, spaces := [spClm, spCsm], need := { r := true },
                 off := fun _ _ => (rg c rb).toNat, size := fun _ _ => 64 }],
      down := fun _ => false,
      bad := fun s l n => match l with
        | [d, r] => octsBad s d.1 d.2 n ||
            (readOcts s t.toNat d.1 d.2 n).any (fun o => wordBad s t.toNat r.1 (r.2 + o.toNat / 4))
        | _ => false,
      commit := fun s l n => match l with
        | [d, r] => writeOcts s t.toNat d.1 d.2 ((readOcts s t.toNat d.1 d.2 n).map (fun o =>
            BitVec.ofNat 8 (xlatEntry s t.toNat r.1 r.2 o.toNat)))
        | _ => s }) (fun _ c => c)

/-- The digits of LUHNX, first digit first: ASCII, or packed BCD from the high nibble; an invalid one reads above 9.
DEDUCED, log entry 103. -/
def luhnxDigits (l : List Octet) (n : Nat) (bcd : Bool) : List Nat :=
  if bcd then (List.range n).map (fun i => if i % 2 = 0 then oct l (i / 2) / 16 else oct l (i / 2) % 16)
  else l.map (fun o => if 0x30 ≤ o.toNat ∧ o.toNat ≤ 0x39 then o.toNat - 0x30 else 15)

/-- LUHNX: the Luhn fold over 1 to 19 digits, last digit first; another count returns INV without reading. -/
def sylLuhnx (t : Thr) (g : Gd) (rd ra rb : BitVec 5) (md : BitVec 8) : Syl :=
  { unit := 3, guard := g, micro := true,
    fx := fun s =>
      let c0 := (thr s t.toNat).ctx
      let n := (rg c0 rb).toNat
      let pd := bitsOf md.toNat 6 4
      let bcd := bitOf md.toNat 3
      let size := if bcd then (n + 1) / 2 else n
      let off := (rg c0 ra).toNat
      let finish_ := fun (st : Nat × Bool × Bool) (s : State) =>
        let s := microFetched s t.toNat
        match microSeq s t.toNat { upc := Config.microEntry 20 } with
        | none => seqError s t.toNat c0.pc
        | some _ =>
          microDone (updCtx s t.toNat (fun c => (wg c rd (luhnWord st)).setP pd (decide (st.1 = 0) && !st.2.2))) t.toNat
      if n = 0 ∨ 19 < n then { run := finish_ (0, false, true) }
      else
        let (sel, chk) := accessCheck s t.toNat (md.toNat % 8) microSpaces { r := true } off size
        match chk with
        | .bad k => { run := fun s => thrViolate s t.toNat k sel off }
        | .absent => { run := fun s => microFault s t.toNat c0.pc 1 sel off }
        | .ok sp a =>
          if octsBad s sp a size then { run := fun s => microFault s t.toNat c0.pc 2 sel off }
          else { run := finish_ (luhnFold 0 (luhnxDigits (readOcts s t.toNat sp a size) n bcd).reverse) } }

end Sys2Proof.Machine
end

