-- ==== Sys2Proof/Machine/Mops.lean ====
section
/-! DEFINITION. The M-unit ticket, task, lock, channel and event operations (09 Table 09-6, R197-R199; 07 R137; 11). -/

namespace Sys2Proof.Machine

/-- The partition a thread runs for; 8, which owns nothing, when its cluster is unassigned. -/
def thrP (s : State) (t : Nat) : Nat := (thrPart s t).getD 8

/-- The task number on a thread; 0, which is no task's, when it runs none. -/
def thrId (s : State) (t : Nat) : Nat := (thrTask s t).getD 0

/-- A syllable of the M unit without a result that is always able to issue. -/
def mSyl (t : Thr) (g : Gd) (run : Ctx → State → State) : Syl :=
  { unit := 2, guard := g,
    fx := fun s => let c0 := (thr s t.toNat).ctx
                   { run := run c0 } }

/-- A syllable whose result is readable at the third turn (07 R137). -/
def lateSyl (t : Thr) (g : Gd) (undef : Bool) (rd : BitVec 5) (run : Ctx → State → W36 × State) : Syl :=
  { unit := 2, guard := g, undef := undef,
    fx := fun s =>
      let c0 := (thr s t.toNat).ctx
      { run := fun s =>
          let r := run c0 s
          updCtx r.2 t.toNat (fun c => c.addLate 3 (.reg rd.toNat r.1)) } }

/-- DONE and HOST: rd holds the result word. -/
def sylDone (host : Bool) (t : Thr) (g : Gd) (rd ra rb : BitVec 5) (_md : BitVec 8) : Syl :=
  mSyl t g (fun c s => endTicket s t.toNat (thrP s t.toNat) host (rg c ra) (rg c rb).toNat (rg c rd).toNat)

/-- DROP. -/
def sylDrop (t : Thr) (g : Gd) (_rd ra _rb : BitVec 5) (_md : BitVec 8) : Syl :=
  mSyl t g (fun c s => dropOp s t.toNat (thrP s t.toNat) (rg c ra))

/-- Run a MOVE: rd and TK are written late with the new ticket, or with the null (07 R136, R140). -/
def moveRun (t rd : Nat) (w : W36) (dom : Nat) (s : State) : State :=
  let r := moveOp s t (thrP s t) w dom
  updCtx r.2 t (fun c =>
    (c.addLate 3 (.reg rd r.1)).addLate 3 (.tk r.1))

/-- MOVE. -/
def sylMove (t : Thr) (g : Gd) (rd ra rb : BitVec 5) (_md : BitVec 8) : Syl :=
  mSyl t g (fun c s => moveRun t.toNat rd.toNat (rg c ra) ((rg c rb).toNat % 4096) s)

/-- SPLIT. -/
def sylSplit (t : Thr) (g : Gd) (rd ra rb : BitVec 5) (_md : BitVec 8) : Syl :=
  lateSyl t g false rd (fun c s => splitOp s t.toNat (thrP s t.toNat) (rg c ra) (rg c rb).toNat)

/-- DEFER. -/
def sylDefer (t : Thr) (g : Gd) (_rd ra rb : BitVec 5) (_md : BitVec 8) : Syl :=
  mSyl t g (fun c s => deferOp s t.toNat (thrP s t.toNat) (rg c ra) (rg c rb).toNat)

/-- Run a POST from the four registers ra to ra + 3 (09 R197). -/
def postRun (t : Nat) (c : Ctx) (ra : Nat) (s : State) : W36 × State :=
  let w := (c.g ra).toNat
  let r := postTask s (thrP s t) (thrAgent t) (w % 4096) (bitsOf w 15 12) (bitsOf w 31 16) (bitOf w 32)
    (c.g (ra + 1)).toNat (c.g (ra + 2)).toNat (c.g (ra + 3)) 0
  (r.2.1, r.2.2)

/-- POST: undefined with ra above 28. -/
def sylPost (t : Thr) (g : Gd) (rd ra _rb : BitVec 5) (_md : BitVec 8) : Syl :=
  lateSyl t g (decide (28 < ra.toNat)) rd (fun c s => postRun t.toNat c ra.toNat s)

/-- GETWORK. -/
def sylGetwork (t : Thr) (g : Gd) (_rd ra _rb : BitVec 5) (_md : BitVec 8) : Syl :=
  mSyl t g (fun c s => getworkOp s t.toNat ((rg c ra).toNat % 65536))

/-- TIMER. -/
def sylTimer (t : Thr) (g : Gd) (_rd ra _rb : BitVec 5) (_md : BitVec 8) : Syl :=
  mSyl t g (fun c s => timerOp s t.toNat ((rg c ra).toNat % 2 ^ 25))

/-- LOCK: a second LOCK waits for the first (09 R199). -/
def sylLock (t : Thr) (g : Gd) (rd ra _rb : BitVec 5) (_md : BitVec 8) : Syl :=
  { unit := 2, guard := g,
    fx := fun s =>
      let c0 := (thr s t.toNat).ctx
      let busy := match (thrTask s t.toNat).bind (taskSt s) with
        | some x => x.lockPend.isSome
        | none => false
      if busy then { stall := true }
      else { run := fun s => lockOp s t.toNat (thrId s t.toNat) rd.toNat ((rg c0 ra).toNat % 16384) } }

/-- UNLOCK: ra [14] asks for a forced release (11 R233). -/
def sylUnlock (t : Thr) (g : Gd) (_rd ra _rb : BitVec 5) (_md : BitVec 8) : Syl :=
  mSyl t g (fun c s => unlockOp s t.toNat (thrId s t.toNat) (rg c ra).toNat)

/-- CHOPEN. -/
def sylChopen (t : Thr) (g : Gd) (rd ra _rb : BitVec 5) (_md : BitVec 8) : Syl :=
  lateSyl t g false rd (fun c s => chOpen s t.toNat (thrId s t.toNat) ((rg c ra).toNat % 4096))

/-- CHW and CHPOST on a handle: SLOT_REVOKED when it is not live (11 R240). -/
def slotSyl (t : Thr) (g : Gd) (ra : BitVec 5) (run : Ctx → Nat → State → State) : Syl :=
  { unit := 2, guard := g,
    fx := fun s =>
      let c0 := (thr s t.toNat).ctx
      let h := (rg c0 ra).toNat
      if liveHandle s (thrId s t.toNat) h then { run := run c0 h } else { fault := some (6, 0, 0) } }

/-- CHW. -/
def sylChw (t : Thr) (g : Gd) (_rd ra rb : BitVec 5) (md : BitVec 8) : Syl :=
  slotSyl t g ra (fun c h s => chWrite s h (md.toNat % 8) (rg c rb))

/-- CHPOST. -/
def sylChpost (t : Thr) (g : Gd) (_rd ra _rb : BitVec 5) (_md : BitVec 8) : Syl :=
  slotSyl t g ra (fun _ h s => chPost s t.toNat h)

/-- CHRD. -/
def sylChrd (t : Thr) (g : Gd) (rd ra _rb : BitVec 5) (md : BitVec 8) : Syl :=
  lateSyl t g false rd (fun c s => chRead s t.toNat (thrId s t.toNat) ((rg c ra).toNat % 4096) (md.toNat % 8))

/-- CHNEXT. -/
def sylChnext (t : Thr) (g : Gd) (_rd ra _rb : BitVec 5) (_md : BitVec 8) : Syl :=
  mSyl t g (fun c s => chNext s t.toNat ((rg c ra).toNat % 4096))

/-- SIGNAL. -/
def sylSignal (t : Thr) (g : Gd) (_rd ra rb : BitVec 5) (_md : BitVec 8) : Syl :=
  mSyl t g (fun c s => signalOp s t.toNat ((rg c ra).toNat % 65536) ((rg c rb).toNat % 2 ^ 20))

/-- WAITEV (09 R198): completes when an event of the mask is set, or at once with a mask of 0. -/
def sylWaitev (t : Thr) (g : Gd) (rd ra _rb : BitVec 5) (_md : BitVec 8) : Syl :=
  { unit := 2, guard := g,
    fx := fun s =>
      let c0 := (thr s t.toNat).ctx
      let v := c0.ev &&& rg c0 ra
      if rg c0 ra ≠ 0 ∧ v = 0 then { stall := true, wait := true }
      else { run := fun s => updCtx s t.toNat (fun c => (wg c rd v).clrEv (v.toNat / 16 * 16)) } }

end Sys2Proof.Machine
end

