-- ==== Sys2Proof/Machine/HostCmd.lean ====
section
/-! DEFINITION. What every command of a COMMAND or SERVICE ring goes through before it acts (14 R306, R316, R317), and
what every helper request of a thread goes through (08 R168, R169, R172). -/

namespace Sys2Proof.Machine

/-- Does the ring refuse an opcode: 0xC0-0xEF belong to SERVICE rings, every other opcode to COMMAND rings (14 R306). A
service command is the supervisor's alone (00 R5); MCS_LOAD answers another's with a status of its own (10 R224). -/
def opcRefused (s : State) (c : CmdRef) (opc : Nat) : Bool :=
  let k := ringKind s c.ring.toNat
  let service := decide (0xC0 ≤ opc ∧ opc ≤ 0xEF)
  (service && (decide (k = 2) || (!isSup s c.part.toNat && decide (opc ≠ 0xC0)))) || (decide (k = 3) && !service)

/-- Run a host command: in a partition in reset it is discarded, in Bolt it completes BOLTED without effect, and on a
ring of the wrong kind it completes BAD_OPCODE. -/
def hostCmd (s : State) (c : CmdRef) (opc : Nat) (run : State → State) : State :=
  let p := c.part.toNat
  if inReset s p then s
  else if inBolt s p then finish s c opc 0xC4 0 0
  else if opcRefused s c opc then finish s c opc 0xC0 0 0
  else run s

/-- A window range a helper request reads or writes. -/
structure WinArg where
  off : Nat
  size : Nat
  write : Bool := false

/-- Check the window ranges of a helper request in order: the kind and offset of the first that fails (08 R168). -/
def winCheck : List WinArg → Option (Nat × Nat)
  | [] => none
  | a :: l =>
    match segCheck winView [spWin] { r := !a.write, w := a.write, h := true } a.off a.size with
    | .bad k => some (k, a.off)
    | _ => winCheck l

/-- A helper syllable: it waits on a busy tag; an operand that fails its check is a violation, the helper is not
started and its tag completes (08 R169); else `run` starts it. -/
def helperSyl (t : Thr) (g : Gd) (undef : Bool) (tag : Nat) (kind : HelperKind) (args : State → Ctx → List WinArg)
    (run : Ctx → State → State) : Syl :=
  { unit := 2, guard := g, undef := undef,
    fx := fun s =>
      let c0 := (thr s t.toNat).ctx
      if tagBusy s t.toNat tag then { stall := true }
      else match winCheck (args s c0) with
        | some (k, off) =>
          { run := fun s => startTag (thrViolate s t.toNat k 0x800 off) t.toNat tag { kind := kind } }
        | none => { run := run c0 } }

/-- The agent ID of an issuer. -/
def issuerAgent (w : Issuer) : Nat :=
  match w with
  | .thread t _ _ => thrAgent t.toNat
  | .host c => hostAgent c.part.toNat
  | .setup p => hostAgent p.toNat
  | .internal n => intAgent n.toNat

/-- The partition of an issuer. -/
def issuerPart (s : State) (w : Issuer) : Option Nat := agentPart s (issuerAgent w)

end Sys2Proof.Machine
end

