-- ==== Sys2Proof/Machine/Journal.lean ====
section
/-! DEFINITION. The audit journal's chain: entry of records, sealing, genesis, heartbeat (13 R286-R294). -/

namespace Sys2Proof.Machine

/-- Add to JNL_CNT (13 Table 13-17). -/
def jnlCnt (s : State) (k n : Nat) : State := cntAdd s (0xC0100 + 8 * k) n

/-- The journal private key of this boot, generated at device reset: a free value (13 R289, DESIGN CHOICE, log entry 4). -/
def journalKey (s : State) : Nat := 1 + Config.freeNat (2 ^ 64 + s.jnl.key) % (p256N - 1)

/-- The fields of a block header (13 Table 13-13). -/
structure JHead where
  kind : Nat := 0
  count : Nat := 0
  no : Nat := 0
  topen : Nat := 0
  prev : List Octet := zeros 32
  root : List Octet := zeros 32
  reason : Nat := 0
  lost : Nat := 0
  pub : List Octet := zeros 64

/-- Octets 0-191 of a block header. -/
def jHeadBody (s : State) (h : JHead) : List Octet :=
  beOctets 4 0x4A4E4C42 ++ beOctets 1 1 ++ beOctets 1 h.kind ++ beOctets 2 h.count ++ beOctets 8 h.no ++
    beOctets 8 s.flash.bootNo ++ beOctets 8 Config.devSer.toNat ++ beOctets 8 h.topen ++ beOctets 8 (tai s) ++
    fit 32 h.prev ++ fit 32 h.root ++ beOctets 1 h.reason ++ zeros 3 ++ beOctets 4 h.lost ++ zeros 8 ++ fit 64 h.pub

/-- A header with its signature. -/
def jHeadSigned (s : State) (key : Nat) (h : JHead) : List Octet :=
  let b := jHeadBody s h
  b ++ ecdsaSign key (sha256 b)

/-- Header slot of a block in the region (13 R292). -/
def headerSlot (s : State) (n : Nat) : Nat := jnlBase s + 256 * (n % 16320)

/-- Record slot of a block in the region (13 R292). -/
def recordSlot (s : State) (n : Nat) : Nat := jnlBase s + 0x400000 + 65536 * (n % 16320)

/-- Write the genesis block, signed under the device identity key (13 R289). -/
def jnlGenesis (s : State) : State :=
  let h := jHeadSigned s Config.identityKey
    { kind := 1, topen := tai s, reason := 5, pub := p256Public (journalKey s) }
  let s := devWrite s (headerSlot s 0) h
  { s with jnl := { s.jnl with
      sealed := s.jnl.sealed ++ [{ no := 0, header := h, recs := [] }], blockNo := 0, prev := sha256 h,
      lastEntry := s.now } }

/-- Seal the open block: its header takes its slot of the region. A block without a record is never sealed
(13 R288, R290, R292). -/
def sealBlock (s : State) (reason : Nat) : State :=
  let recs := s.jnl.opened
  if recs = [] then s
  else
    let no := s.jnl.blockNo + 1
    let h := jHeadSigned s (journalKey s) {
      count := recs.length, no := no, topen := s.jnl.topen, prev := s.jnl.prev, root := merkle 16 recs,
      reason := reason, lost := s.jnl.lost }
    let s := devWrite s (headerSlot s no) h
    jnlCnt { s with jnl := { s.jnl with
      opened := [], sealed := s.jnl.sealed ++ [{ no := no, header := h, recs := recs }], blockNo := no,
      prev := sha256 h, lost := 0 } } 1 1

/-- Discard the oldest block not being exported, counting its records as lost. -/
def jnlDiscard (s : State) : State :=
  match s.jnl.sealed.drop s.jnl.inExport with
  | b :: rest =>
    jnlCnt { s with jnl := { s.jnl with
      sealed := s.jnl.sealed.take s.jnl.inExport ++ rest, lost := s.jnl.lost + b.recs.length } } 4 b.recs.length
  | [] => s

/-- Append a record to the open block and its record slot, when a slot can be had: whether it entered, and the state. -/
def jnlAppend (s : State) (r : List Octet) : Bool × State :=
  if jnlNoSlot s && !jnlOverwrites s then (false, s)
  else
    let s := if jnlNoSlot s then jnlDiscard s else s
    let first := s.jnl.opened.isEmpty
    let s := devWrite s (recordSlot s (s.jnl.blockNo + 1) + 64 * s.jnl.opened.length) r
    (true, jnlCnt { s with jnl := { s.jnl with
      opened := s.jnl.opened ++ [r], lastEntry := s.now,
      firstAt := if first then s.now else s.jnl.firstAt,
      topen := if first then fieldBe r 0 8 else s.jnl.topen } } 0 1)

/-- Is a disposition of domain `d` and place `n` still to enter the chain: a record in the intake, or an audited result
released and not yet processed by egress (13 R286). -/
def placeAhead (s : State) (d n : Nat) : Bool :=
  s.jnl.intake.any (fun x => match x.place with
    | some (e, k) => decide (e = d ∧ k < n)
    | none => false) ||
  s.hlt.egressIn.any (fun x => audited s x.item.audit && decide (x.place.1 = d ∧ x.place.2 < n))

/-- May a complete record enter the chain: every record released earlier in its order domain has (13 R286). -/
def entryFree (s : State) (x : JPend) : Bool :=
  match x.place with
  | some (d, n) => !placeAhead s d n
  | none => true

/-- The oldest complete record that may enters the chain (13 R286). A BOLT record seals its block, and the 1,024th of a
block does (R290, R294). It is latency point 6 of its task (17 R362). -/
def journalEntry (s : State) : State :=
  match s.jnl.intake.find? (entryFree s) with
  | none => s
  | some x =>
    if !jnlEn s then s
    else
      let (ok, s) := jnlAppend s x.octets
      if !ok then s
      else
        let s := { s with jnl := { s.jnl with intake := s.jnl.intake.erase x } }
        let s := match x.lat with
          | some l => latReach s l 6 (tai s)
          | none => s
        if x.bolt then jnlCnt (sealBlock s 3) 7 1
        else if s.jnl.opened.length = 1024 then sealBlock s 1 else s

/-- Every record that may enters the chain, at most `fuel` of them. -/
def journalDrain : Nat → State → State
  | 0, s => s
  | fuel + 1, s => journalDrain fuel (journalEntry s)

/-- SEALT in force, in ns. -/
def sealTime (s : State) : Nat := 1000000 * max 1 (min 100 (fld s 0xC0000 8 2))

/-- The seal timer expires (13 R290). -/
def sealTimer (s : State) : State :=
  if jnlEn s && decide (s.jnl.opened ≠ []) && decide (s.jnl.firstAt + sealTime s ≤ s.now) then sealBlock s 2 else s

/-- HBEAT in force, in ns. -/
def heartTime (s : State) : Nat := 100000000 * max 1 (min 1000 (fld s 0xC0000 18 9))

/-- No record has entered for HBEAT: a HEARTBEAT record (13 R292). -/
def heartbeat (s : State) : State :=
  if jnlEn s && s.jnl.intake.isEmpty && decide (s.jnl.lastEntry + heartTime s ≤ s.now) then
    jnlCnt (jnlEvent s 0x24 0 8 0xFF []) 3 1
  else s

/-- A BOLT record is appended to the open block, which is sealed (13 R294); records complete before it enter first (R286).
DEDUCED, log entry 113. -/
def jnlBolt (s : State) (part : Option Nat) (code : Nat) : State :=
  if !jnlEn s then s
  else
    let r : JRec := { time := some (tai s), disp := 0x22, part := part.getD 0, flags := if part.isNone then 8 else 0, ticket := 0,
                      bolt := true, tail := beOctets 1 code }
    let s := jnlPut s r
    journalDrain s.jnl.intake.length s

/-- JNL_SEAL (13 Table 13-7). -/
def jnlSeal (s : State) (c : CmdRef) : State :=
  if !isSup s c.part.toNat then finish s c 0x74 0xBB 0 0
  else if !jnlEn s then finish s c 0x74 0xBE 0 0
  else finish (sealBlock s 4) c 0x74 0 0 0

/-- JNL_CERT: the chain, up to LEN octets; the completion carries its length. -/
def jnlCert (s : State) (c : CmdRef) (addr len : Nat) : State :=
  let l := Config.certChain.take len
  finish (hostWrite s c.part.toNat addr l) c 0x75 0 Config.certChain.length l.length

/-- JOURNAL_RECORD_ENTRY. -/
def execJournalRecordEntry (s : State) : Host.Outcome State Fault Refusal := .next (journalEntry s)

/-- SEAL_TIMER. -/
def execSealTimer (s : State) : Host.Outcome State Fault Refusal := .next (sealTimer s)

/-- HEARTBEAT. -/
def execHeartbeat (s : State) : Host.Outcome State Fault Refusal := .next (heartbeat s)

/-- JNL_SEAL. -/
def execJnlSeal (c : CmdRef) (s : State) : Host.Outcome State Fault Refusal :=
  .next (hostCmd s c 0x74 (fun s => jnlSeal s c))

/-- JNL_CERT. -/
def execJnlCert (c : CmdRef) (addr : BitVec 64) (len : BitVec 32) (s : State) : Host.Outcome State Fault Refusal :=
  .next (hostCmd s c 0x75 (fun s => jnlCert s c addr.toNat len.toNat))

end Sys2Proof.Machine
end

