-- ==== Sys2Proof/Machine/Parser.lean ====
section
/-! DEFINITION. The parser lanes (03 R46-R63): signature, fixed profiles, the parse graph, the checks and the parse
record. -/

namespace Sys2Proof.Machine

/-- Bits of a frame from bit `pos`, `w` of them, most significant first; bits past the end read zero. -/
def frameBits (d : List Octet) (pos w : Nat) : Nat :=
  let lo := pos / 8
  let n := (pos + w + 7) / 8 - lo
  beNat (octs d lo n) / 2 ^ (8 * (lo + n) - (pos + w)) % 2 ^ w

/-- Leading tags of TPID 0x8100 or 0x88A8, at most three (03 Table 03-1). -/
def tagCount (d : List Octet) : Nat :=
  let isTag := fun (k : Nat) => decide (fieldBe d (12 + 4 * k) 2 = 0x8100) || decide (fieldBe d (12 + 4 * k) 2 = 0x88A8)
  if !isTag 0 then 0 else if !isTag 1 then 1 else if !isTag 2 then 2 else 3

/-- What the signature of a frame says of it (03 R49, R51). -/
structure Sig where
  tags : Nat
  stag : Bool
  etype : Nat
  l3 : Nat
  v4 : Bool
  v6 : Bool
  ihl5 : Bool
  proto : Nat

/-- The signature of a frame. -/
def sigOf (d : List Octet) : Sig :=
  let tags := tagCount d
  let off := 12 + 4 * tags
  let etype := fieldBe d off 2
  let l3 := off + 2
  let ver := oct d l3 / 16
  let v4 := decide (etype = 0x0800) && decide (ver = 4)
  let v6 := decide (etype = 0x86DD) && decide (ver = 6)
  { tags := tags, stag := decide (0 < tags) && decide (fieldBe d 12 2 = 0x88A8), etype := etype, l3 := l3, v4 := v4, v6 := v6,
    ihl5 := v4 && decide (oct d l3 % 16 = 5),
    proto := if v4 then oct d (l3 + 9) else if v6 then oct d (l3 + 6) else 0 }

/-- The 32 bits of a signature (03 Table 03-1). -/
def Sig.bits (g : Sig) : Nat :=
  g.tags + b2n g.stag * 4 + g.etype * 8 + b2n (g.v4 || g.v6) * 2 ^ 19 + b2n g.ihl5 * 2 ^ 20 + g.proto * 2 ^ 21

/-- L4OFF by R51, 0 when the frame is not IP. -/
def Sig.l4 (g : Sig) : Nat := if g.v4 then g.l3 + 20 else if g.v6 then g.l3 + 40 else 0

/-- End of the IP packet by its length field. -/
def ipEnd (d : List Octet) (l3 : Nat) (v4 : Bool) : Nat :=
  if v4 then l3 + fieldBe d (l3 + 2) 2 else l3 + 40 + fieldBe d (l3 + 4) 2

/-- What a parse knows of a frame: FLAGS, the marked headers, the payload mark and FIELDS. -/
structure PSt where
  flags : Nat := 0
  l3 : Option (Nat × Bool) := none
  l4 : Option (Nat × Bool) := none
  pay : Option Nat := none
  fields : List Octet := zeros 40

/-- Set bit `i` of FLAGS. -/
def PSt.flag (x : PSt) (i : Nat) : PSt := { x with flags := setBit x.flags i true }

/-- An extraction (03 R52): `n` octets from `src` to FIELDS octet `dst`, the first ANDed with `mask`. An octet past the
frame end that would fall beyond FIELDS octet 39 is not copied and sets no SHORT. DESIGN CHOICE, log entry 110. -/
def PSt.extract (d : List Octet) (x : PSt) (src n dst mask : Nat) : PSt :=
  (List.range n).foldl (fun (x : PSt) k =>
    if 39 < dst + k then x
    else
      let v := oct d (src + k)
      let x := if d.length ≤ src + k then x.flag 10 else x
      { x with fields := x.fields.set (dst + k) (BitVec.ofNat 8 (if k = 0 then v &&& mask else v)) }) x

/-- An extraction register of a fixed profile (03 Table 03-6). -/
def extractReg (d : List Octet) (x : PSt) (w : Nat) : PSt :=
  if bitOf w 27 then x.extract d (bitsOf w 8 0) (bitsOf w 12 9 + 1) (bitsOf w 18 13) (bitsOf w 26 19) else x

/-- A node action at `pos` (03 R53, Table 03-7). -/
def nodeAction (d : List Octet) (pos : Nat) (x : PSt) (a : Nat) : PSt :=
  match bitsOf a 1 0 with
  | 1 => x.extract d (pos + bitsOf a 9 2) (bitsOf a 13 10 + 1) (bitsOf a 19 14) (bitsOf a 27 20)
  | 2 =>
    match bitsOf a 4 2 with
    | 0 => { x.flag 0 with l3 := some (pos, true) }
    | 1 => { x.flag 1 with l3 := some (pos, false) }
    | 2 => { x.flag 2 with l4 := some (pos, true) }
    | 3 => { x.flag 3 with l4 := some (pos, false) }
    | 4 => { x with pay := some pos }
    | _ => x
  | 3 => x.flag (12 + bitsOf a 3 2)
  | _ => x

/-- How a walk ends: a reason (0 when it accepts), its steps, the parse class, `pos` and what was parsed. -/
structure WalkEnd where
  reason : Nat
  steps : Nat
  pclass : Nat := 0xFF
  pos : Nat
  st : PSt

/-- The first transition of a node that matches `v` (03 R53); entries past 4,095 and those of KIND 11 never match. -/
def walkTrn (s : State) (v tbase tcnt : Nat) : Option Nat :=
  (List.range (tcnt + 1)).map (fun k => tbase + k) |>.find? (fun i =>
    decide (i ≤ 4095) && decide (parFld s (0x34008 + 12 * i) 1 0 ≠ 3) &&
      decide (v &&& rdPar s (0x34004 + 12 * i) = rdPar s (0x34000 + 12 * i) &&& rdPar s (0x34004 + 12 * i)))

/-- The walk (03 R53), with `fuel` steps left of 24. -/
def walk (s : State) (d : List Octet) : Nat → Nat → Nat → PSt → WalkEnd
  | 0, _, pos, x => { reason := 4, steps := 24, pos := pos, st := x }
  | fuel + 1, node, pos, x =>
    let steps := 24 - fuel
    let a := 0x32000 + 32 * node
    let w0 := rdPar s a
    let w1 := rdPar s (a + 4)
    let bad := fun (r : Nat) (x : PSt) (pos : Nat) => ({ reason := r, steps := steps, pos := pos, st := x } : WalkEnd)
    let seloff := bitsOf w0 8 0
    let selw := bitsOf w0 13 9 + 1
    let selEnd := pos * 8 + seloff + selw
    if !bitOf w0 31 then bad 2 x pos
    else if 4096 < selEnd then bad 3 x pos
    else if d.length * 8 < selEnd then bad 5 x pos
    else
      let v := frameBits d (pos * 8 + seloff) selw
      let x := [2, 3, 4, 5].foldl (fun x k => nodeAction d pos x (rdPar s (a + 4 * k))) x
      match walkTrn s v (bitsOf w0 25 14) (bitsOf w0 29 26) with
      | none => bad (if bitOf w0 30 then 0x0B else 2) x pos
      | some t =>
        let adv := bitsOf w1 7 0 + (if bitOf w1 8 then
          frameBits d (pos * 8 + bitsOf w1 17 9) (bitsOf w1 20 18 + 1) * 2 ^ bitsOf w1 22 21 else 0)
        let pos := pos + adv
        let w2 := rdPar s (0x34008 + 12 * t)
        let tgt := bitsOf w2 9 2
        if 512 < pos then bad 3 x pos
        else match bitsOf w2 1 0 with
          | 0 => walk s d fuel tgt pos x
          | 1 => { reason := 0, steps := steps, pclass := 64 + tgt % 64, pos := pos, st := x }
          | _ => bad (if 0x40 ≤ tgt ∧ tgt ≤ 0x7F then tgt else 0x40) x pos

/-- Octets of the marked L4 header. -/
def l4Len (d : List Octet) (off : Nat) (tcp : Bool) : Nat := if tcp then 4 * (oct d (off + 12) / 16) else 8

/-- The TCP option kinds between `i` and `e`; none when an option has length 0 or 1 or runs past the header
(03 Table 03-2 check 2). At most `fuel` options. -/
def tcpOptions (d : List Octet) : Nat → Nat → Nat → Option (List Nat)
  | 0, _, _ => some []
  | fuel + 1, i, e =>
    if e ≤ i then some []
    else
      let k := oct d i
      if k = 0 then some []
      else if k = 1 then tcpOptions d fuel (i + 1) e
      else
        let l := oct d (i + 1)
        if e ≤ i + 1 ∨ l < 2 ∨ e < i + l then none
        else (tcpOptions d fuel (i + l) e).map (fun ks => k :: ks)

/-- Octets of the pseudo-header of a segment of `n` octets. -/
def pseudoHeader (d : List Octet) (l3 : Nat) (v4 : Bool) (proto n : Nat) : List Octet :=
  if v4 then octs d (l3 + 12) 8 ++ beOctets 2 proto ++ beOctets 2 n
  else octs d (l3 + 8) 32 ++ beOctets 4 n ++ beOctets 4 proto

/-- Does the checksum of the marked segment hold (03 Table 03-2 check 7). The length in the pseudo-header is the segment's
by the IP length field, for UDP too. DESIGN CHOICE, log entry 110. -/
def l4SumOk (d : List Octet) (l3 : Nat) (v4 : Bool) (l4 : Nat) (tcp : Bool) : Bool :=
  let seg := (d.take (ipEnd d l3 v4)).drop l4
  decide (inetSum (pseudoHeader d l3 v4 (if tcp then 6 else 17) seg.length ++ seg) = 0)

/-- Checks 1 and 2 of Table 03-2: the reason of the first that fails, and the TCP option kinds. -/
def checkHeaders (d : List Octet) (l3 l4 : Option (Nat × Bool)) : Nat × List Nat :=
  let h3 := l3.map (fun x => x.1 + (if x.2 then 4 * max 5 (oct d x.1 % 16) else 40))
  let h4 := l4.map (fun x => x.1 + max (if x.2 then 20 else 8) (l4Len d x.1 x.2))
  let past := fun (n : Nat) => decide (n < h3.getD 0) || decide (n < h4.getD 0)
  let iend := (l3.map (fun x => ipEnd d x.1 x.2)).getD 0
  if past 512 then (3, [])
  else if past d.length ∨ d.length < iend then (5, [])
  else
    let bad3 : Bool := match l3 with
      | some (o, true) => decide (oct d o % 16 < 5) || decide (fieldBe d (o + 2) 2 < 4 * (oct d o % 16))
      | some (o, false) => (match l4 with
        | some (p, tcp) => decide (fieldBe d (o + 4) 2 < l4Len d p tcp)
        | none => false)
      | none => false
    match l4 with
    | some (p, true) =>
      let e := p + l4Len d p true
      if bad3 ∨ e < p + 20 then (6, [])
      else match tcpOptions d 40 (p + 20) e with
        | none => (6, [])
        | some ks => (0, ks)
    | _ => if bad3 then (6, []) else (0, [])

/-- The checks of Table 03-2 in order: the reason of the first that fails, 0 when none does, and L3OK and L4OK. -/
def checks (d : List Octet) (l3 l4 : Option (Nat × Bool)) : Nat × Bool × Bool :=
  let (r, ks) := checkHeaders d l3 l4
  if r ≠ 0 then (r, false, false)
  else
    let v4 : Bool := match l3 with
      | some (_, b) => b
      | none => false
    let o := (l3.map (·.1)).getD 0
    let ihl := oct d o % 16
    if v4 ∧ inetSum (octs d o (4 * ihl)) ≠ 0 then (7, false, false)
    else if v4 ∧ fieldBe d (o + 6) 2 % 0x4000 ≠ 0 then (9, false, false)
    else if v4 ∧ 5 < ihl then (0x0A, false, false)
    else if ks.any (fun k => !([0, 1, 2, 3, 4, 8].contains k)) then (0x0C, l3.isSome, false)
    else match l3, l4 with
      | some (_, _), some (p, tcp) =>
        if v4 ∧ !tcp ∧ fieldBe d (p + 6) 2 = 0 then (0, true, false)
        else if l4SumOk d o v4 p tcp then (0, true, true)
        else (8, true, false)
      | _, _ => (0, l3.isSome, false)

/-- The 64 octets of a parse record (03 Table 03-3). -/
def parseRecord (f : RxFrame) (pclass reason tags steps : Nat) (l3 l4 pay paylen : Nat) (x : PSt) : List Octet :=
  beOctets 1 pclass ++ beOctets 1 reason ++ beOctets 2 (x.flags + b2n f.hobble * 64) ++ beOctets 1 f.port ++
    beOctets 1 (tags + 4 * steps) ++ beOctets 2 f.len ++ beOctets 8 f.ts ++ beOctets 2 l3 ++ beOctets 2 l4 ++
    beOctets 2 pay ++ beOctets 2 (min paylen 65535) ++ x.fields

/-- What is known of a frame before any profile or node: STAG, MCAST and BCAST. -/
def baseFlags (d : List Octet) (g : Sig) : PSt :=
  let x : PSt := {}
  let x := if g.stag then x.flag 11 else x
  if octs d 0 6 = List.replicate 6 0xFF then x.flag 8 else if oct d 0 % 2 = 1 then x.flag 7 else x

/-- FLAGS with L3OK and L4OK. -/
def withOk (x : PSt) (l3ok l4ok : Bool) : PSt :=
  let x := if l3ok then x.flag 4 else x
  if l4ok then x.flag 5 else x

/-- The lowest fixed profile that matches (03 R50). -/
def fixedProfile (s : State) (g : Sig) : Option Nat :=
  if g.tags = 3 then none
  else lowest 64 (fun p =>
    let a := 0x30400 + 16 * p
    bitOf (rdPar s (a + 8)) 0 && decide (g.bits &&& rdPar s (a + 4) = rdPar s a &&& rdPar s (a + 4)))

/-- Parse on the fixed path (03 R51, R52, R54). -/
def parseFixed (s : State) (f : RxFrame) (d : List Octet) (g : Sig) (p : Nat) : List Octet :=
  let x := baseFlags d g
  let x := if g.v4 then { x.flag 0 with l3 := some (g.l3, true) } else if g.v6 then { x.flag 1 with l3 := some (g.l3, false) } else x
  let ip := g.v4 || g.v6
  let x := if ip && decide (g.proto = 6) then { x.flag 2 with l4 := some (g.l4, true) }
    else if ip && decide (g.proto = 17) then { x.flag 3 with l4 := some (g.l4, false) } else x
  let x := (List.range 16).foldl (fun x k => extractReg d x (rdPar s (0x31000 + 64 * p + 4 * k))) x
  let pay := if ip then g.l4 + (if g.proto = 6 then 4 * (oct d (g.l4 + 12) / 16) else if g.proto = 17 then 8 else 0) else g.l3
  let paylen := if ip then ipEnd d g.l3 g.v4 - pay else 0
  let (r, ok3, ok4) := checks d x.l3 x.l4
  parseRecord f p r g.tags 0 g.l3 g.l4 pay paylen (withOk x ok3 ok4)

/-- Parse by the graph (03 R53, R54). DESIGN CHOICE, log entry 35. -/
def parseGraph (s : State) (f : RxFrame) (d : List Octet) (g : Sig) : List Octet :=
  let e := walk s d 24 (parFld s (0x30200 + 4 * f.port) 15 8) 0 ((baseFlags d g).flag 9)
  let x := e.st
  let l3 := (x.l3.map (·.1)).getD 0
  let l4 := (x.l4.map (·.1)).getD 0
  if e.reason ≠ 0 then parseRecord f 0xFF e.reason g.tags e.steps l3 l4 (x.pay.getD 0) 0 x
  else
    let pay := x.pay.getD e.pos
    let stop := match x.l3 with
      | some (o, v4) => ipEnd d o v4
      | none => d.length
    let (r, ok3, ok4) := checks d x.l3 x.l4
    parseRecord f e.pclass r g.tags e.steps l3 l4 pay (stop - pay) (withOk x ok3 ok4)

/-- A record of a frame that no profile and no graph took, or whose parse store failed (03 R50, R63). -/
def parseNone (f : RxFrame) (d : List Octet) (reason : Nat) : List Octet :=
  let g := sigOf d
  parseRecord f 0xFF reason g.tags 0 0 0 0 0 (baseFlags d g)

/-- The frame in its buffer, without its FCS. -/
def rxOctets (s : State) (f : RxFrame) : List Octet := devRead s f.buf (f.len - 4)

/-- Frames of a port in its lane, in arrival order. -/
def laneOf (s : State) (p : Nat) : List LaneEnt := mget [] s.par.lane p

/-- Are all 8 places of the port's release queue held (03 R48). -/
def laneFull (l : List LaneEnt) : Bool := decide (8 ≤ (l.filter (·.placed)).length)

/-- Store the frames of a port in its lane. -/
def setLane (s : State) (p : Nat) (l : List LaneEnt) : State :=
  { s with par := { s.par with lane := mset [] s.par.lane p l } }

/-- What a read of the parse stores does by what it meets (03 R63): a corrected error is counted in PAR_CTL.CECNT, which
the model saturates; after an uncorrectable one the next seal check fails. DESIGN CHOICE, log entry 36. -/
def storeRead (s : State) (found : MemError) : State :=
  match found with
  | .clean => s
  | .correctable => wrDev s 0x30000 (setBits (rdDev s 0x30000) 15 8 (min 255 (fld s 0x30000 15 8 + 1)))
  | .uncorrectable => { s with par := { s.par with badStore := true } }

/-- The lane takes the oldest frame of a port (03 R46-R50, R63). -/
def parseFrame (s : State) (p : Nat) (found : MemError) : State :=
  match mget [] s.par.rx p with
  | [] => s
  | f :: rest =>
    if laneFull (laneOf s p) then s
    else
      let s := storeRead { s with par := { s.par with rx := mset [] s.par.rx p rest } } found
      let d := rxOctets s f
      let g := sigOf d
      let placed := (laneOf s p).any (fun e => e.precd.isNone)
      let put := fun s (r : Option (List Octet)) =>
        setLane s p (laneOf s p ++ [{ frame := f, precd := r, placed := placed }])
      if found = .uncorrectable then put s (some (parseNone f d 0x0D))
      else match fixedProfile s g with
        | some k => put s (some (parseFixed s f d g k))
        | none =>
          if bitOf (rdPar s (0x30200 + 4 * p)) 16 then
            let s := put s none
            { s with par := { s.par with walks := mset [] s.par.walks (p / 8) (mget [] s.par.walks (p / 8) ++ [p]) } }
          else put s (some (parseNone f d 1))

/-- Give the first unfinished walk of a list its record. -/
def finishWalk (r : LaneEnt → List Octet) : List LaneEnt → List LaneEnt
  | [] => []
  | e :: l => if e.precd.isNone then { e with precd := some (r e) } :: l else e :: finishWalk r l

/-- The walker of a lane walks the frame that has waited longest (03 R47, R53, R63). A walk that meets an uncorrectable
error leaves the record of a frame that no node has seen: GRAPH 0, no steps, every offset 0. DESIGN CHOICE, log entry
35. -/
def graphWalk (s : State) (lane : Nat) (found : MemError) : State :=
  match mget [] s.par.walks lane with
  | [] => s
  | p :: rest =>
    let s := { s with par := { s.par with walks := mset [] s.par.walks lane rest } }
    let rec_ := fun (e : LaneEnt) =>
      let d := rxOctets s e.frame
      if found = .uncorrectable then parseNone e.frame d 0x0D else parseGraph s e.frame d (sigOf d)
    storeRead (setLane s p (finishWalk rec_ (laneOf s p))) found

/-- From the ingress timestamp of a frame of `n` octets to its ingress end time: n - 1 octet times at the port's rate
(01 R22). -/
def ingressSpan (s : State) (p n : Nat) : Nat :=
  match quadMode s p with
  | 1 => (n - 1) * 8
  | 2 => (n - 1) * 8 / 10
  | _ => (n - 1) * 32 / 100

/-- The item of a frame whose record is complete. -/
def parsedItem (s : State) (f : RxFrame) (r : List Octet) : Item :=
  let d := rxOctets s f
  { kind := 0, buf := f.buf, len := f.len - 4, t0 := f.ts, precd := r, flow := 0x1FFFFFF, hobble := f.hobble, port := f.port,
    digest := d, digAt := s.now + digestTime d.length,
    tEnd := f.ts + ingressSpan s f.port f.len }

/-- The oldest record of a port leaves the lane, when it is complete: to the framer, or to the slow path
(03 R48, R59). -/
def recordRelease (s : State) (p : Nat) : State :=
  match laneOf s p with
  | ⟨f, some r, _⟩ :: rest =>
    let it := parsedItem s f r
    let reason := oct r 1
    if decide (reason ≠ 0) && slowHolds s it none then s
    else
      let s := setLane s p rest
      if reason ≠ 0 then slowPath s it (portAgent p) reason none []
      else { s with par := { s.par with parsed := s.par.parsed ++ [{ frame := f, precd := r }] } }
  | _ => s

/-- The parse registers: offsets of the device window that stand in two banks (03 R62). -/
def isParseReg (o : Nat) : Bool :=
  decide (0x30200 ≤ o ∧ o < 0x30800) || decide (0x31000 ≤ o ∧ o < 0x40000)

/-- Does SWAP read 1: for the 200 ns after it is written (03 R62). DESIGN CHOICE, log entry 36: the spec says at most. -/
def parSwapping (s : State) : Bool :=
  match s.par.swapAt with
  | some t => decide (s.now < t + 200)
  | none => false

/-- PAR_CTL.SWAP (03 R62): walks begun under the old bank finish under it, then the shadow bank becomes active; written
again while it reads 1, it does nothing. -/
def parSwapNow (s : State) : State :=
  if parSwapping s then s
  else
    let s := (List.range 16).foldl (fun s l => (mget [] s.par.walks l).foldl (fun s _ => graphWalk s l .clean) s) s
    { s with
      regs := { s.regs with parActive := s.regs.dev.filter (fun kv => isParseReg kv.1) }
      par := { s.par with swapAt := some s.now } }

/-- PARSE_FRAME. -/
def execParseFrame (port : BitVec 7) (found : MemError) (s : State) : Host.Outcome State Fault Refusal :=
  .next (parseFrame s port.toNat found)

/-- GRAPH_WALK. -/
def execGraphWalk (lane : BitVec 4) (found : MemError) (s : State) : Host.Outcome State Fault Refusal :=
  .next (graphWalk s lane.toNat found)

/-- PARSE_RECORD_RELEASE. -/
def execParseRecordRelease (port : BitVec 7) (s : State) : Host.Outcome State Fault Refusal :=
  .next (recordRelease s port.toNat)

/-- SLOW_BUCKET_REFILL. -/
def execSlowBucketRefill (s : State) : Host.Outcome State Fault Refusal :=
  .next ((List.range 8).foldl refillBucket s)

end Sys2Proof.Machine
end

