-- ==== Sys2Proof/Machine/Egress.lean ====
section
/-! DEFINITION. Egress processing (12 R264-R267, 04 R79, R81, R84, R85): edits of packet results, acknowledgment
translation, re-segmentation and re-encryption of messages, and the queues. -/

namespace Sys2Proof.Machine

/-- Frames of an egress queue. -/
def queueOf (s : State) (q : Nat) : List QFrame := mget [] s.egr.queues q

/-- Put a frame at the tail of an egress queue. -/
def pushQueue (s : State) (q : Nat) (f : QFrame) : State :=
  { s with egr := { s.egr with queues := mset [] s.egr.queues q (queueOf s q ++ [f]) } }

/-- The headers egress finds in a result by the rule of R51 (12 R265): L3 offset and family, and L4 offset and whether
it is TCP. -/
structure Hdrs where
  sig : Sig
  ip : Option (Nat × Bool)
  l4 : Option (Nat × Bool)

/-- Locate the headers of a result; one with any part past the result's end is not found. -/
def findHdrs (d : List Octet) : Hdrs :=
  let g := sigOf d
  let len3 := if g.v4 then 4 * max 5 (oct d g.l3 % 16) else 40
  let ip := if g.tags < 3 ∧ (g.v4 ∨ g.v6) ∧ g.l3 + len3 ≤ d.length then some (g.l3, g.v4) else none
  let tcp := decide (g.proto = 6)
  let len4 := max (if tcp then 20 else 8) (l4Len d g.l4 tcp)
  { sig := g, ip := ip,
    l4 := if ip.isSome ∧ (tcp ∨ g.proto = 17) ∧ g.l4 + len4 ≤ d.length then some (g.l4, tcp) else none }

/-- An edit: octets to write at an offset. -/
abbrev Edit := Nat × List Octet

/-- Apply edits to a string. -/
def applyEdits (d : List Octet) (es : List Edit) : List Octet := es.foldl (fun d e => overlay d e.1 e.2) d

/-- Write edits into a result buffer (12 R266). -/
def writeEdits (s : State) (a : Nat) (es : List Edit) : State := es.foldl (fun s e => devWrite s (a + e.1) e.2) s

/-- The IPv4 header checksum, recomputed; none for IPv6. -/
def editL3 (d : List Octet) (ip : Nat × Bool) : List Edit :=
  if ip.2 then
    let h := overlay (octs d ip.1 (4 * max 5 (oct d ip.1 % 16))) 10 (zeros 2)
    [(ip.1 + 10, beOctets 2 (inetSum h))]
  else []

/-- The TCP checksum, or a non-zero UDP checksum, recomputed over the whole segment. -/
def editL4 (d : List Octet) (ip l4 : Nat × Bool) : List Edit :=
  let at_ := l4.1 + (if l4.2 then 16 else 6)
  if !l4.2 && decide (fieldBe d at_ 2 = 0) then []
  else
    let seg := ((overlay d at_ (zeros 2)).take (ipEnd d ip.1 ip.2)).drop l4.1
    let c := inetSum (pseudoHeader d ip.1 ip.2 (if l4.2 then 6 else 17) seg.length ++ seg)
    [(at_, beOctets 2 (if !l4.2 && decide (c = 0) then 65535 else c))]

/-- What EFLAGS make of a packet result (12 R266). -/
inductive EditPlan where
  | edits (es : List Edit)
  | missing
  | expired
  deriving DecidableEq, Repr

/-- The edits of EFLAGS in the order TTLDEC, PCPSET, L3CK, L4CK (12 R265, R266). -/
def planEdits (d : List Octet) (ef : Nat) : EditPlan :=
  let h := findHdrs d
  let l3ck := bitOf ef 0
  let l4ck := bitOf ef 1
  let ttl := bitOf ef 2
  let pcp := bitOf ef 3
  if ((l3ck || ttl || l4ck) && h.ip.isNone) || (l4ck && h.l4.isNone) then .missing
  else
    let ip := h.ip.getD (0, false)
    let t := ip.1 + (if ip.2 then 8 else 7)
    if ttl && decide (oct d t ≤ 1) then .expired
    else
      let e1 : List Edit := if ttl then [(t, beOctets 1 (oct d t - 1))] else []
      let e2 : List Edit := if pcp && decide (0 < h.sig.tags) then
        [(14, beOctets 1 (bitsOf ef 6 4 * 32 + oct d 14 % 32))] else []
      let d := applyEdits d (e1 ++ e2)
      let e3 := if l3ck then editL3 d ip else []
      let d := applyEdits d e3
      let e4 := if l4ck then editL4 d ip (h.l4.getD (0, true)) else []
      .edits (e1 ++ e2 ++ e3 ++ e4)

/-- Is the egress Hobble unit of a queue's port armed (02 R44). -/
def egressArmed (s : State) (q : Nat) : Bool := flag s (0x20000 + 0x80 * (2 * (q / 32) + 1)) 0

/-- The item of a released result as its record shows it: with the Hobble flag when the port's egress unit is armed. -/
def egressItem (s : State) (it : Item) (q : Nat) : Item := { it with hobble := it.hobble || egressArmed s q }

/-- DEST of the record of a result of a ticket word. -/
def wordDest (w : W36) (q : Nat) : Nat :=
  jnlDest q (if bitOf w.toNat 21 then some (bitsOf w.toNat 20 18) else none)

/-- Journal a result that egress queues, or discards for its TTL (01 R12). -/
def egressJournal (s : State) (x : Released) (q disp : Nat) (d : List Octet) : State :=
  jnlItemAt s (some x.released) (some x.place) (some x.lat)
    (egressItem s x.item q) disp (wordDest x.ticket q) x.ticket.toNat false 0 (some d)

/-- The edits of an ACK result: the translated acknowledgment and the checksums (12 R265, 04 R84). -/
def planAck (s : State) (it : Item) (d : List Octet) : EditPlan :=
  let h := findHdrs d
  match h.ip, h.l4 with
  | some ip, some (p, true) =>
    let a := translateAck (conn s it.stix) it.dir (BitVec.ofNat 32 (fieldBe d (p + 8) 4))
    let e1 : List Edit := [(p + 8, beOctets 4 a.toNat)]
    let d := applyEdits d e1
    .edits (e1 ++ editL3 d ip ++ editL4 d ip (p, true))
  | _, _ => .missing

/-- A whole-frame result on queue `q`: edited, journalled and queued (12 Table 12-5). -/
def egressFrame (s : State) (x : Released) (q : Nat) (plan : EditPlan) (d : List Octet) : State :=
  let a := x.res.buf
  match plan with
  | .expired => endUse (portCnt (egressJournal s x q 0x0B d) (q / 32) 15 1) egressAgent a
  | .missing => putOn (bufCnt s x.item.part 7) a d
  | .edits es => putOn (writeEdits s a es) a (applyEdits d es)
where
  /-- Journal the result and put it on its queue. -/
  putOn (s : State) (a : Nat) (d : List Octet) : State :=
    pushQueue (egressJournal s x q 0x01 d) q {
      part := x.item.part, addr := a, plen := x.res.len, buf := some a, ingressTs := x.item.t0, t0 := x.item.t0,
      dom := x.item.dom, kind := x.item.kind, lat := some x.lat }

/-- Octets that nothing in the spec fixes (DESIGN CHOICE, log entry 2). -/
def freeOctets (s : State) (n : Nat) : List Octet × State :=
  (beOctets n (Config.freeNat s.fresh), { s with fresh := s.fresh + 1 })

/-- Nonce of a TLS record: the slot's IV XOR the record sequence number (04 R77, R79). -/
def tlsNonce (iv : List Octet) (seq : BitVec 64) : List Octet := xorOctets (fit 12 iv) (beOctets 12 seq.toNat)

/-- Seal one record of plaintext under a slot (04 R79); with no key in the slot its content is free (DESIGN CHOICE, log entry 20). -/
def tlsSeal (s : State) (slot : Nat) (seq : BitVec 64) (m : List Octet) : List Octet × State :=
  let h := beOctets 1 23 ++ beOctets 2 0x0303 ++ beOctets 2 (m.length + 17)
  match mfind s.cry.keys slot with
  | some k =>
    let n := tlsNonce k.iv seq
    let ct := gcmCrypt k.mat n (m ++ [23])
    (h ++ ct ++ gcmTag k.mat n h ct, s)
  | none => let (r, s) := freeOctets s (m.length + 17); (h ++ r, s)

/-- Seal a result as records of at most TLSMAX octets, advancing TXSEQ (04 R79). -/
def tlsSealAll (s : State) (stix dir slot : Nat) (ms : List (List Octet)) : List Octet × State :=
  ms.foldl (fun (acc : List Octet × State) m =>
    let c := conn acc.2 stix
    let x := c.dir dir
    let (r, s) := tlsSeal acc.2 slot x.txSeq m
    (acc.1 ++ r, setConn s stix ((conn s stix).setDir dir { x with txSeq := x.txSeq + 1 }))) ([], s)

/-- Pieces of at most `k` octets of a string. -/
def cutAt (k : Nat) (l : List Octet) : List (List Octet) := pieces k (cdiv l.length k) l

/-- The header of the segment a message's segments follow: its octets and the offsets of its parse record. -/
structure SegHdr where
  octets : List Octet
  l3 : Nat
  l4 : Nat
  v4 : Bool

/-- The L2 to L4 header of an item's completing segment. -/
def segHdrOf (it : Item) : SegHdr :=
  { octets := it.hdr, l3 := fieldBe it.precd 16 2, l4 := fieldBe it.precd 18 2, v4 := bitOf (fieldBe it.precd 2 2) 0 }

/-- Header of one segment of `body`: SEQ, ACK, PSH, IP length and ID, checksums (12 Table 12-5). -/
def segHeader (h : SegHdr) (seq ack : BitVec 32) (psh : Bool) (id : Nat) (body : List Octet) : List Octet :=
  let d := h.octets
  let n := d.length - h.l3 + body.length
  let d := applyEdits d [(h.l4 + 4, beOctets 4 seq.toNat), (h.l4 + 8, beOctets 4 ack.toNat),
    (h.l4 + 13, beOctets 1 (setBit (oct d (h.l4 + 13)) 3 psh))]
  let d := if h.v4 then applyEdits d [(h.l3 + 2, beOctets 2 n), (h.l3 + 4, beOctets 2 id)]
    else applyEdits d [(h.l3 + 4, beOctets 2 (n - 40))]
  let d := applyEdits d (editL3 d (h.l3, h.v4))
  let e := editL4 (d ++ body) (h.l3, h.v4) (h.l4, true)
  applyEdits d e

/-- Where the octets of a message result come from: the buffer, or sealed records. -/
structure WireSrc where
  octets : List Octet
  sealed : Bool := false
  buf : Nat
  kind : Nat := 1
  poison : Bool := false
  lat : Option Lat := none

/-- Queue the segments of a message result (12 Table 12-5): at most MSS octets each, the buffer ending with the last.
The ID of each IPv4 header is free (DESIGN CHOICE, log entry 21). DESIGN CHOICE, log entry 67. -/
def queueSegments (s : State) (q : Nat) (h : SegHdr) (w : WireSrc) (seq ack : BitVec 32) (mss : Nat) (last : Bool)
    (it : Item) : State :=
  let k := max 1 mss
  let ps := cutAt k w.octets
  let n := ps.length
  ps.zipIdx.foldl (fun s pi =>
    let body := pi.1
    let i := pi.2
    let final := decide (i + 1 = n)
    let (id, s) := drawFree s 65536
    let hd := segHeader h (seq + BitVec.ofNat 32 (i * k)) ack (last && final) id body
    pushQueue s q {
      part := it.part, pre := if w.sealed then hd ++ body else hd,
      addr := if w.sealed then 0 else w.buf + i * k, plen := if w.sealed then 0 else body.length, buf := some w.buf,
      resultEnd := final, ingressTs := it.t0, t0 := it.t0, dom := it.dom, kind := w.kind, poison := w.poison,
      lat := if i = 0 then w.lat else none }) s

/-- A message result: sealed on what was a TLS direction at its release, cut into segments, queued on the direction's EQ (12 Table 12-5). -/
def egressMessage (s : State) (x : Released) : State :=
  let it := x.item
  let c := conn s it.stix
  let dir := c.dir it.dir
  let q := dir.eq
  let m := devRead s x.res.buf x.res.len
  let s := egressJournal s x q 0x01 m
  if m = [] then endUse s egressAgent x.res.buf
  else
    let (l, s) := if x.tls then tlsSealAll s it.stix it.dir dir.txKey (cutAt (tlsMax s c.service) m) else (m, s)
    let w : WireSrc := {
      octets := l, sealed := x.tls, buf := x.res.buf, poison := x.tls && devPoisoned s x.res.buf x.res.len,
      lat := some x.lat }
    queueSegments s q (segHdrOf it) w x.seq dir.rack dir.mss x.last it

/-- Egress takes the oldest released result (12 R265); it waits while the journal cannot take its record (13 R291). -/
def egressProcess (s : State) : State :=
  match s.hlt.egressIn with
  | [] => s
  | x :: rest =>
    if jnlHolds s x.item then s
    else
      let s := { s with hlt := { s.hlt with egressIn := rest } }
      let s := passBuf s x.res.buf halterAgent egressAgent
      let d := devRead s x.res.buf x.res.len
      if x.item.kind = 1 then egressMessage s x
      else if x.item.kind = 2 then egressFrame s x x.res.dest (planAck s x.item d) d
      else egressFrame s x x.res.dest (planEdits d x.res.eflags) d

/-- EGRESS_PROCESS. -/
def execEgressProcess (s : State) : Host.Outcome State Fault Refusal := .next (egressProcess s)

end Sys2Proof.Machine
end

