-- ==== Sys2Proof/Machine/Ports.lean ====
section
/-! DEFINITION. Ethernet ports (02): reception and admission, flow control, Hobble, selection and transmission of
frames (12 R262-R264, R268), links and cages. -/

namespace Sys2Proof.Machine

/-- Is the port enabled. -/
def portEn (s : State) (p : Nat) : Bool := bitOf (prtCfg s p) 0

/-- Enabled egress queues of a port. -/
def portQueues (s : State) (p : Nat) : List Nat := ((List.range 32).map (fun i => 32 * p + i)).filter (queueEn s)

/-- Is a queue stopped by its partition's Bolt (16 R341). -/
def queueBolted (s : State) (q : Nat) : Bool :=
  match queueOwner s q with
  | some o => inBolt s o
  | none => s.hkc.dbolt

/-- IDLECODE of the owner of a queue. -/
def queueIdleCode (s : State) (q : Nat) : Bool :=
  match queueOwner s q with
  | some o => flag s (0x20 + 4 * o) 12
  | none => false

/-- Does Bolt apply to a port: device Bolt, or every one of its enabled queues belongs to a partition in Bolt
(16 R342, 02 R43). -/
def portBolted (s : State) (p : Nat) : Bool :=
  let qs := portQueues s p
  s.hkc.dbolt || (!qs.isEmpty && qs.all (queueBolted s))

/-- Is the port in electrical idle for Bolt (16 R342). -/
def portIdle (s : State) (p : Nat) : Bool :=
  s.hkc.dbolt || (portBolted s p && !(portQueues s p).all (queueIdleCode s))

/-- Is the transmit side of a port up: enabled, link up and not idle (02 R34, 16 R342). -/
def txUp (s : State) (p : Nat) : Bool := portEn s p && (portSt s p).linkUp && !portIdle s p

/-- Time corrected by a signed 16-bit ns value (02 R35). -/
def tslat (s : State) (p hi lo : Nat) : Nat :=
  ((tai s : Int) + signedOf 16 (fld s (0x18010 + 0x100 * p) hi lo)).toNat

/-! ### Hobble -/

/-- A Hobble unit. -/
def hobUnit (s : State) (u : Nat) : HobUnit := mget {} s.prt.hob u

/-- Store a Hobble unit. -/
def setHob (s : State) (u : Nat) (x : HobUnit) : State := { s with prt := { s.prt with hob := mset {} s.prt.hob u x } }

/-- Word of a Hobble register. -/
def hobReg (s : State) (u o : Nat) : Nat := rdDev s (0x20000 + 0x80 * u + o)

/-- Count in HOB_CNT. -/
def hobCnt (s : State) (u k : Nat) : State := cntAdd s (0x20040 + 0x80 * u + 8 * k) 1

/-- Is a unit armed. -/
def hobArmed (s : State) (u : Nat) : Bool := bitOf (hobReg s u 0) 0

/-- N of a Hobble field: below 2 acts as 2. -/
def hobN (v : Nat) : Nat := max 2 v

/-- One probability choice of a unit (02 R42): true with probability 2^-K. The generator goes by the seed of the arming:
a later write of HOB_SEED does not reach it. -/
def hobChance (s : State) (u k : Nat) : Bool × State :=
  let x := hobUnit s u
  let k := max 1 (min 24 k)
  (decide (Config.hobbleGen x.seed x.draws % 2 ^ k = 0), setHob s u { x with draws := x.draws + 1 })

/-- Does the drop mechanism take the frame of number `n` (02 R42): a BURST of N or more takes every frame. A BURST of 0,
which the spec's nearest-limit sentence does not name, acts as 1. DESIGN CHOICE, log entry 29. -/
def hobDrop (s : State) (u n : Nat) : Bool × State :=
  let v := hobReg s u 4
  let nth := decide (n % hobN (bitsOf v 15 0) = 0)
  match bitsOf (hobReg s u 0) 2 1 with
  | 1 => (nth, s)
  | 2 => hobChance s u (bitsOf v 20 16)
  | 3 =>
    let x := hobUnit s u
    let burst := max 1 (bitsOf v 31 21)
    let run := if nth then burst else x.burst
    (decide (0 < run) || decide (hobN (bitsOf v 15 0) ≤ burst), setHob s u { x with burst := run - 1 })
  | _ => (false, s)

/-- Does the corrupt mechanism take the frame of number `n`. -/
def hobCorrupt (s : State) (u n : Nat) : Bool × State :=
  match bitsOf (hobReg s u 0) 4 3 with
  | 1 => (decide (n % hobN (bitsOf (hobReg s u 8) 29 14) = 0), s)
  | 2 => hobChance s u (bitsOf (hobReg s u 0xC) 4 0)
  | _ => (false, s)

/-- What a unit makes of an offered frame (02 R42, R43). -/
inductive HobOut where
  | dropped
  | pass (f : HobFrame) (corrupted : Bool)
  | held (f : HobFrame)

/-- Offer a frame to an armed unit: drop, corrupt, reorder. `f.octets` are the frame without its FCS.
DESIGN CHOICE, log entry 29. -/
def hobOffer (s : State) (u : Nat) (f : HobFrame) : HobOut × State :=
  let n := (hobUnit s u).count + 1
  let s := hobCnt (setHob s u { hobUnit s u with count := n }) u 0
  let (drop, s) := hobDrop s u n
  if drop then (.dropped, hobCnt s u 1)
  else
    let (sel, s) := hobCorrupt s u n
    let off := bitsOf (hobReg s u 8) 13 0
    let fits := decide (off + 4 ≤ f.octets.length)
    let mask := hobReg s u 0x10
    let keep := bitOf (hobReg s u 0) 5
    let s := if sel then hobCnt s u (if fits then 2 else 3) else s
    let bad := sel && fits
    let f := if bad then
        { f with octets := overlay f.octets off (xorOctets (octs f.octets off 4) (beOctets 4 mask)),
                 fcsOk := f.fcsOk && (keep || (decide (mask = 0) && decide (u % 2 = 1))), flag := f.flag || keep }
      else f
    if bitOf (hobReg s u 0) 6 && decide (n % hobN (bitsOf (hobReg s u 0x14) 23 8) = 0) then
      if (hobUnit s u).held.isSome then (.pass f bad, hobCnt s u 5)
      else
        let f := { f with flag := true }
        (.held f, hobCnt (setHob s u { hobUnit s u with held := some f, passed := 0, heldAt := s.now }) u 4)
    else (.pass f bad, s)

/-- A frame passes a unit that may hold another. -/
def hobPassed (s : State) (u : Nat) : State :=
  let x := hobUnit s u
  if x.held.isSome then setHob s u { x with passed := x.passed + 1 } else s

/-- Is a held frame to be released: M later frames have passed, 1 ms has passed, or the unit was disarmed. -/
def hobDue (s : State) (u : Nat) : Bool :=
  let x := hobUnit s u
  x.held.isSome && (decide (max 1 (bitsOf (hobReg s u 0x14) 7 0) ≤ x.passed) || decide (x.heldAt + 1000000 ≤ s.now) ||
    !hobArmed s u)

/-- Take the held frame out of a unit. -/
def hobTake (s : State) (u : Nat) : State := setHob s u { hobUnit s u with held := none }

/-! ### Completion of frames -/

/-- Complete the transmit command of a frame (14 R308). -/
def txDone (s : State) (f : QFrame) (status ts len : Nat) (q : Nat) : State :=
  match f.tx with
  | some c => complete s c status 0x02 (if f.tsReq then ts else 0) len (beOctets 2 q)
  | none => s

/-- End a frame's use of its buffer, with the last frame of its result (12 R252, 04 R85). -/
def frameEnd (s : State) (f : QFrame) : State :=
  match f.buf with
  | some a => if f.resultEnd then (if f.kind = 4 then dropShare s a else endUse s egressAgent a) else s
  | none => s

/-- Discard a queued frame with a transmit status. -/
def frameDiscard (s : State) (q : Nat) (f : QFrame) (status : Nat) : State := frameEnd (txDone s f status 0 f.plen q) f

/-- Discard the held frame of a unit and count it (02 R43). -/
def hobDiscard (s : State) (u : Nat) : State :=
  match (hobUnit s u).held with
  | none => s
  | some f =>
    let s := hobCnt (hobTake s u) u 6
    match f.q with
    | some q => frameDiscard s f.queue q 0xC7
    | none => endUse s (portAgent (u / 2)) f.buf

/-- A write of HOB_CFG (02 R42-R44): arming restarts the numbering and seeds the generator, arming and disarming are
journalled. A seed of 0 is drawn from the random bit generator; while that does not run, HOB_SEED stays 0 and the unit is
armed with seed 0. DESIGN CHOICE, log entry 29. -/
def hobCfgWrite (s : State) (u v : Nat) : State :=
  let was := hobArmed s u
  let s := wrDev s (0x20000 + 0x80 * u) (v % 128)
  let now := hobArmed s u
  if was = now then s
  else
    let s := jnlEvent s 0x20 0 8 (u / 2) (beOctets 1 (u % 2) ++ beOctets 4 (v % 128))
    if now then
      let (seed, s) := if hobReg s u 0x18 = 0 ∧ s.cry.rbgRun then
          let (x, s) := rbgDraw s (2 ^ 32)
          (x, wrDev s (0x20018 + 0x80 * u) x)
        else (hobReg s u 0x18, s)
      setHob s u { hobUnit s u with count := 0, burst := 0, draws := 0, seed := BitVec.ofNat 32 seed }
    else setHob s u { hobUnit s u with passed := 256 }

/-! ### Reception -/

/-- A frame leaves the ingress side for the parser: its octets stand in its buffer. One that the ingress unit left with
a bad FCS is dropped here (02 R29, R44). -/
def rxDeliver (s : State) (p : Nat) (f : HobFrame) : State :=
  if !f.fcsOk then endUse s (portAgent p) f.buf
  else
    let s := devWrite s f.buf f.octets
    let x : RxFrame := { port := p, buf := f.buf, len := f.octets.length + 4, ts := f.ts, hobble := f.flag }
    { s with par := { s.par with rx := mset [] s.par.rx p (mget [] s.par.rx p ++ [x]) } }

/-- Release the held ingress frame when it is due. -/
def rxRelease (s : State) (p : Nat) : State :=
  if hobDue s (2 * p) then
    match (hobUnit s (2 * p)).held with
    | some f => rxDeliver (hobTake s (2 * p)) p f
    | none => s
  else s

/-- A frame received good goes through the ingress unit (02 R42, R44). One corrupted with FCSOK = 0 counts as an FCS error
and not as received good; dropped for that, it does not count as passed toward M. DESIGN CHOICE, log entry 29. -/
def rxHobble (s : State) (p : Nat) (f : HobFrame) : State :=
  let u := 2 * p
  let seen := fun (s : State) (ok : Bool) => if ok then portCnt (portCnt s p 0 1) p 1 (f.octets.length + 4) else portCnt s p 4 1
  let s := rxRelease s p
  if !hobArmed s u then rxDeliver (seen s true) p f
  else
    match hobOffer s u f with
    | (.dropped, s) => endUse (seen s true) (portAgent p) f.buf
    | (.held g, s) => seen s g.fcsOk
    | (.pass g _, s) =>
      let s := rxDeliver (seen s g.fcsOk) p g
      if g.fcsOk then rxRelease (hobPassed s u) p else s

/-- Is a frame a PAUSE or PFC frame: a MAC control frame of either opcode. PRESUMED, log entry 30. -/
def isMacControl (d : List Octet) : Bool :=
  decide (fieldBe d 12 2 = 0x8808) && decide (fieldBe d 14 2 = 0x0001 ∨ fieldBe d 14 2 = 0x0101)

/-- A received PAUSE or PFC frame (02 R32): the port's pause timers, and counter 9. -/
def pauseReceive (s : State) (p : Nat) (d : List Octet) : State :=
  let s := match fieldBe d 14 2 with
    | 0x0001 => pauseAct s p none (fieldBe d 16 2)
    | _ => (List.range 8).foldl (fun s c =>
        if bitOf (fieldBe d 16 2) c then pauseAct s p (some c) (fieldBe d (18 + 2 * c) 2) else s) s
  portCnt s p 9 1

/-- The PFC class of a frame (02 R31). -/
def frameClass (s : State) (p : Nat) (d : List Octet) : Nat :=
  let m := rdDev s (0x1800C + 0x100 * p)
  if tagCount d = 0 then bitsOf m 26 24 else bitsOf m (3 * (oct d 14 / 32) + 2) (3 * (oct d 14 / 32))

/-- Cells a frame needs at admission (12 R258). -/
def admitCells (s : State) (p : Nat) : Nat := cdiv (maxLen s p) 256

/-- What admission answers (02 R30, 12 R257-R259). -/
inductive Admit where
  | run (a : Nat)
  | refused (fragmented : Bool)
  deriving DecidableEq, Repr

/-- Admission of a frame at a port. -/
def admitRun (s : State) (p : Nat) : Admit :=
  let k := fld s (0x90200 + 4 * p) 5 0
  let n := admitCells s p
  let quota := fld s (0x18004 + 0x100 * p) 19 0
  if !(poolLive s k && poolRun s k) || decide (quota ≤ ingressUse s p none) then .refused false
  else if poolFree s k < poolReserve s k + n then .refused false
  else match findRun s k n with
    | some a => .run a
    | none => .refused true

/-- A frame arrives at a port's receive path (02 R29, R30, R35, 12 R258): `d` is the frame without its FCS. One that is
not admitted and fails a test of R29 is counted under both rules. DEDUCED, log entry 30. -/
def rxFrame (s : State) (p : Nat) (d : List Octet) (fcsOk : Bool) : State :=
  let len := d.length + 4
  let r29 := if len < 64 then some 5 else if maxLen s p < len then some 6 else if !fcsOk then some 4 else none
  if r29.isNone && isMacControl d then pauseReceive s p d
  else if s.hkc.dbolt then portCnt s p (r29.getD 7) 1
  else match admitRun s p with
    | .refused frag =>
      let s := match r29 with
        | some k => portCnt s p k 1
        | none => s
      let s := portCnt s p 7 1
      if frag then portCnt s p 14 1 else s
    | .run a =>
      let t : BufTag := { owner := portAgent p, run := admitCells s p, alloc := true, origin := some (p, frameClass s p d) }
      let s := pauseCheck (setTag s a t) p
      match r29 with
      | some k => portCnt (freeBuf s a) p k 1
      | none =>
        let s := pauseCheck (setTag s a { t with run := cdiv len 256 }) p
        rxHobble s p { octets := d, buf := a, ts := tslat s p 15 0 }

/-- A write of PRT_CFG.FC that changes it ends the flow control that stood asserted, sending nothing: the link partner's
pause runs out. DESIGN CHOICE, log entry 30. -/
def flowChanged (s : State) (p : Nat) : State := setPort s p { portSt s p with xoff := [] }

/-- A write of HOB_CFG and, when it disarms an ingress unit that holds a frame, that frame's release (02 R43). -/
def hobbleWrite (s : State) (u v : Nat) : State :=
  let s := hobCfgWrite s u v
  if u % 2 = 0 then rxRelease s (u / 2) else s

/-- FRAME_RECEIVE: a frame from the link partner. A port that is down, disabled or in loopback takes none (02 R415). -/
def frameReceive (s : State) (p : Nat) (d : List Octet) (fcsOk : Bool) : State :=
  if portEn s p && (portSt s p).linkUp && !portLoop s p then rxFrame s p d fcsOk else s

/-- PAUSE_RECEIVE: a PAUSE or PFC frame from the link partner. -/
def pauseFrame (s : State) (p : Nat) (d : List Octet) : State :=
  if portEn s p && (portSt s p).linkUp && !portLoop s p && isMacControl d then pauseReceive s p d else s

/-- PAUSE_TIMER_EXPIRY: a pause time that has passed ends. -/
def pauseExpire (s : State) (p : Nat) (cls : Option Nat) : State :=
  let x := portSt s p
  match cls with
  | none =>
    match x.pauseUntil with
    | some t => if t ≤ s.now then setPort s p { x with pauseUntil := none } else s
    | none => s
  | some c =>
    match mfind x.pfcUntil c with
    | some t => if t ≤ s.now then setPort s p { x with pfcUntil := mdel x.pfcUntil c } else s
    | none => s

/-- PAUSE_REPEAT: every 0x7FFF quanta while usage stays at or above XON (02 R31). -/
def pauseRepeat (s : State) (p : Nat) : State :=
  if s.hkc.dbolt || !(portSt s p).linkUp then s
  else
    (portSt s p).xoff.foldl (fun s kv =>
      if kv.2 && pauseInUse s p kv.1 && decide (mget 0 (portSt s p).lastPause kv.1 + pauseNs s p 0x7FFF ≤ s.now) then pauseSend s p kv.1 0xFFFF else s) s

/-! ### Transmission -/

/-- Octets of a frame without its FCS, padded to 60 (12 Table 12-5). -/
def frameOctets (s : State) (f : QFrame) : List Octet :=
  let d := f.pre ++ devRead s f.addr f.plen
  d ++ zeros (60 - d.length)

/-- Length of a queued frame, FCS included. -/
def frameLen (f : QFrame) : Nat := max 60 (f.pre.length + f.plen) + 4

/-- Tokens of a queue's bucket, in bits. DESIGN CHOICE, log entry 32. -/
def qTokens (s : State) (q : Nat) : Int := mget 0 s.egr.qTokens q
/-- Tokens of a port's bucket. -/
def pTokens (s : State) (p : Nat) : Int := mget 0 s.egr.pTokens p
/-- RATE of a queue's shaper. -/
def qRate (s : State) (q : Nat) : Nat := fld s (0xA8000 + 4 * q) 15 0
/-- RATE of a port's shaper. -/
def pRate (s : State) (p : Nat) : Nat := fld s (0xB0000 + 4 * p) 15 0

/-- Is the port paused by a received PAUSE. -/
def portPaused (s : State) (p : Nat) : Bool :=
  match (portSt s p).pauseUntil with
  | some t => decide (s.now < t)
  | none => false

/-- Is a class paused by a received PFC. -/
def classPaused (s : State) (p c : Nat) : Bool :=
  match mfind (portSt s p).pfcUntil c with
  | some t => decide (s.now < t)
  | none => false

/-- Is the class that a queue is mapped to paused (02 R32). -/
def queuePaused (s : State) (q : Nat) : Bool := classPaused s (q / 32) (bitsOf (rdDev s (0xA0000 + 8 * q)) 7 5)

/-- May a queue be selected (12 R262 step 1). -/
def queueEligible (s : State) (q : Nat) : Bool :=
  !(queueOf s q).isEmpty && queueEn s q && !queueBolted s q && (decide (qRate s q = 0) || decide (0 ≤ qTokens s q)) &&
    !queuePaused s q

/-- Deficit round-robin state of a group, by port * 4 + group. -/
def groupSt (s : State) (g : Nat) : Dwrr := mget {} s.egr.groups g

/-- Store the deficit round-robin state of a group. -/
def setGroup (s : State) (g : Nat) (x : Dwrr) : State := { s with egr := { s.egr with groups := mset {} s.egr.groups g x } }

/-- QUANT of a queue, raised to the port's MAXLEN (12 R262). -/
def quantOf (s : State) (q : Nat) : Nat := max (maxLen s (q / 32)) (fld s (0xA0004 + 8 * q) 13 0)

/-- The next eligible queue of a group after `i`, in round-robin order, `i` itself last. -/
def nextEligible (s : State) (g i : Nat) : Nat :=
  ((List.range 8).map (fun k => (i + k + 1) % 8)).find? (fun j => queueEligible s (8 * g + j)) |>.getD i

/-- Take the head of a queue. -/
def popQueue (s : State) (q : Nat) : State := { s with egr := { s.egr with queues := mset [] s.egr.queues q (queueOf s q).tail } }

/-- A queue that is to be dequeued discards the heads that are longer than the port's MAXLEN (12 R268), at most `fuel` of
them. -/
def dropOversize : Nat → State → Nat → State
  | 0, s, _ => s
  | fuel + 1, s, q =>
    match queueOf s q with
    | f :: _ =>
      if maxLen s (q / 32) < frameLen f then
        dropOversize fuel (frameDiscard (bufCnt (popQueue s q) f.part 6) q f 0xC8) q
      else s
    | [] => s

/-- DWRR within a group (12 R262): the queue whose head is sent, if one is, in at most `fuel` visits. -/
def dwrrPick : Nat → State → Nat → Option Nat × State
  | 0, s, _ => (none, s)
  | fuel + 1, s, g =>
    let x := groupSt s g
    let q := 8 * g + x.ptr
    let s := if queueEligible s q then dropOversize 4096 s q else s
    let len := ((queueOf s q).head?.map frameLen).getD 0
    let elig := queueEligible s q
    let x := if elig && x.fresh then
        { x with deficit := mset 0 x.deficit x.ptr (mget 0 x.deficit x.ptr + quantOf s q), fresh := false } else x
    if elig && decide (len ≤ mget 0 x.deficit x.ptr) then
      (some q, setGroup s g { x with deficit := mset 0 x.deficit x.ptr (mget 0 x.deficit x.ptr - len) })
    else
      let x := if (queueOf s q).isEmpty then { x with deficit := mset 0 x.deficit x.ptr 0 } else x
      dwrrPick fuel (setGroup s g { x with ptr := nextEligible s g x.ptr, fresh := true }) g

/-- The strongest group of a port with an eligible queue (12 R262 step 2). -/
def strongestGroup (s : State) (p : Nat) : Option Nat :=
  ([0, 1, 2, 3].find? (fun i => (List.range 8).any (fun j => queueEligible s (32 * p + 8 * i + j)))).map (fun i => 4 * p + i)

/-- Discard every frame of a queue with a transmit status, counting each in a port counter (02 R34). -/
def drainQueue (s : State) (q cnt status : Nat) : State :=
  let fs := queueOf s q
  let s := { s with egr := { s.egr with queues := mdel s.egr.queues q } }
  fs.foldl (fun s f => frameDiscard (portCnt s (q / 32) cnt 1) q f status) s

/-- Queues of a port that hold frames. -/
def busyQueues (s : State) (p : Nat) : List Nat := (s.egr.queues.map (·.1)).filter (fun q => decide (q / 32 = p))

/-- Is the octet string a PTP event message with twoStepFlag clear, and where its header and, with a UDP checksum present,
its UDP header stand (02 R36). -/
def ptpAt (d : List Octet) : Option (Nat × Option Nat) :=
  let g := sigOf d
  let ok := fun (o : Nat) => decide (oct d o % 16 < 4) && !bitOf (oct d (o + 6)) 1 && decide (o + 34 ≤ d.length)
  if 2 < g.tags then none
  else if g.etype = 0x88F7 then (if ok g.l3 then some (g.l3, none) else none)
  else
    let udp := if g.v4 then g.l3 + 4 * (oct d g.l3 % 16) else g.l4
    if (g.v4 || g.v6) && decide (g.proto = 17) && decide (fieldBe d (udp + 2) 2 = 319) && ok (udp + 8) then
      some (udp + 8, if fieldBe d (udp + 6) 2 = 0 then none else some udp)
    else none

/-- The one-step update of an event message (02 R36): originTimestamp of a Sync, residence time in correctionField, and
the UDP checksum. -/
def oneStep (d : List Octet) (ts residence : Nat) : List Octet :=
  match ptpAt d with
  | none => d
  | some (o, udp) =>
    let d1 := if oct d o % 16 = 0 ∧ o + 44 ≤ d.length then
      overlay d (o + 34) (beOctets 6 (ts / 1000000000) ++ beOctets 4 (ts % 1000000000)) else d
    let d2 := overlay d1 (o + 8) (beOctets 8 (fieldBe d1 (o + 8) 8 + residence * 65536))
    match udp with
    | none => d2
    | some u =>
      let g := sigOf d2
      applyEdits d2 (editL4 d2 (g.l3, g.v4) (u, false))

/-- Does egress read poison from the buffer of a frame, now or when it sealed its record (12 R268). -/
def framePoisoned (s : State) (f : QFrame) : Bool := f.poison || (f.buf.isSome && devPoisoned s f.addr f.plen)

/-- Begin to send a frame that has passed the egress unit: latency point 5 of its result (17 R362). -/
def txBegin (s : State) (p : Nat) (f : HobFrame) (q : QFrame) : State :=
  let x : TxFrame := {
    octets := f.octets, queue := f.queue, q := q, ts := f.ts, fcsOk := f.fcsOk, loop := portLoop s p }
  let s := match q.lat with
    | some l => latReach s l 5 f.ts
    | none => s
  setPort s p { portSt s p with tx := some x }

/-- Offer the head of queue `q` to the egress unit and begin to send it, debiting the buckets (12 R263). Whether a frame
began. -/
def txOffer (s : State) (p q : Nat) (f : QFrame) : Bool × State :=
  let s := popQueue s q
  let bits := 8 * (frameLen f + (if flag s (0xB0200 + 4 * p) 0 then 20 else 0))
  let s := if qRate s q = 0 then s
    else { s with egr := { s.egr with qTokens := mset 0 s.egr.qTokens q (qTokens s q - bits) } }
  let s := if pRate s p = 0 then s
    else { s with egr := { s.egr with pTokens := mset 0 s.egr.pTokens p (pTokens s p - bits) } }
  let ts := tslat s p 31 16
  let d := frameOctets s f
  let d := if bitOf (prtCfg s p) 18 then oneStep d ts (if f.ingressTs = 0 then 0 else ts - f.ingressTs) else d
  let h : HobFrame := { octets := d, ts := ts, fcsOk := !framePoisoned s f, queue := q, q := some f }
  if !hobArmed s (2 * p + 1) then (true, txBegin s p h f)
  else match hobOffer s (2 * p + 1) h with
    | (.dropped, s) => (false, frameEnd (txDone s f 0 0 f.plen q) f)
    | (.held _, s) => (false, s)
    | (.pass g _, s) => (true, txBegin s p g f)

/-- Select frames until one begins to be sent, in at most `fuel` selections, each while the port's bucket allows it
(12 R262, R263). -/
def txSelect : Nat → State → Nat → State
  | 0, s, _ => s
  | fuel + 1, s, p =>
    if pRate s p ≠ 0 ∧ pTokens s p < 0 then s
    else match strongestGroup s p with
    | none => s
    | some g =>
      match dwrrPick 20 s g with
      | (none, s) => if strongestGroup s p = some g then s else txSelect fuel s p
      | (some q, s) =>
        match queueOf s q with
        | [] => s
        | f :: _ =>
          let (began, s) := txOffer s p q f
          if began then s else txSelect fuel s p

/-- Give waiting transmit frames their buffer and queue place (14 R308, 12 R264). -/
def txPlace (s : State) (c : CmdRef) (d : List Octet) (q : Nat) (ef : Nat) (tsReq : Bool) : Option State :=
  let p := c.part.toNat
  if maxDepth s q ≤ queueDepth s q + egressPending s q then none
  else
    let pool := bitsOf (rdRing s c.ring.toNat 3) 5 0
    match bufAlloc s (dmaAgent s p) pool false false with
    | (0, a, s) =>
      let s := devWrite s a d
      let s := passBuf s a (dmaAgent s p) egressAgent
      let f : QFrame := { part := p, addr := a, plen := d.length, buf := some a, tx := some c, tsReq := tsReq }
      some (match planEdits d ef with
        | .expired => endUse (txDone (portCnt s (q / 32) 15 1) f 0 0 d.length q) egressAgent a
        | .missing => pushQueue (bufCnt s p 7) q f
        | .edits es => pushQueue (writeEdits s a es) q f)
    | _ => none

/-- Transmit commands that wait for a buffer or a queue place try again, in order; of one ring only while none of its
earlier ones waits (14 R308). -/
def txRetry (s : State) : State :=
  (s.gpl.waiting.foldl (fun (acc : List Nat × State) w =>
    match w.what with
    | .tx d eq ef ts =>
      if acc.1.contains w.cmd.ring.toNat then acc
      else match txPlace acc.2 w.cmd d eq ef ts with
        | some s' => (acc.1, { s' with gpl := { s'.gpl with waiting := s'.gpl.waiting.filter (· ≠ w) } })
        | none => (w.cmd.ring.toNat :: acc.1, acc.2)
    | .txDev _ _ _ _ _ _ => (w.cmd.ring.toNat :: acc.1, acc.2)
    | _ => acc) ([], s)).2

/-- The frame that the egress unit of a port holds, when it is due and no PFC pauses its queue's class (02 R32, R42). -/
def heldReady (s : State) (p : Nat) : Option (HobFrame × QFrame) :=
  match (hobUnit s (2 * p + 1)).held with
  | some f =>
    match f.q with
    | some q => if hobDue s (2 * p + 1) && !queuePaused s f.queue then some (f, q) else none
    | none => none
  | none => none

/-- FRAME_TRANSMIT: the port starts a frame if it can (12 R262; 02 R32, R34, R43; 16 R341, R342, R347). -/
def frameTransmit (s : State) (p : Nat) : State :=
  let s := txRetry s
  if !txUp s p then (busyQueues s p).foldl (fun s q => drainQueue s q 8 0xC7) s
  else if s.hkc.rein.isSome || (portSt s p).tx.isSome || portPaused s p then s
  else match heldReady s p with
    | some (f, q) => txBegin (hobTake s (2 * p + 1)) p { f with ts := tslat s p 31 16 } q
    | none => txSelect 4096 s p

/-- TRANSMIT_END: the last octet of the frame in transmission leaves (02 R415, 12 R252, R268, 14 R308). -/
def transmitEnd (s : State) (p : Nat) : State :=
  match (portSt s p).tx with
  | none => s
  | some t =>
    let s := setPort s p { portSt s p with tx := none }
    let len := t.octets.length + 4
    let poisoned := framePoisoned s t.q
    let s := portCnt (portCnt s p 2 1) p 3 len
    let s := cntAdd (cntAdd s (0xB1000 + 0x20 * p) 1) (0xB1008 + 0x20 * p) len
    let s := if poisoned then cntAdd s (0xB1018 + 0x20 * p) 1 else s
    let s := hobPassed s (2 * p + 1)
    let s := if t.loop then s else { s with out := s.out ++ [.frame p t.octets (t.fcsOk && !poisoned)] }
    let s := frameEnd (txDone s t.q (if poisoned then 0xCB else 0) t.ts t.q.plen t.queue) t.q
    let s := if t.loop then rxFrame s p t.octets (t.fcsOk && !poisoned) else s
    txRetry s

/-- End the frame in transmission of a port with an invalid FCS (16 R341). -/
def txAbort (s : State) (p status : Nat) : State :=
  match (portSt s p).tx with
  | none => s
  | some t =>
    let s := portCnt (setPort s p { portSt s p with tx := none }) p 13 1
    let s := if t.loop then s else { s with out := s.out ++ [.frame p t.octets false] }
    frameEnd (txDone s t.q status 0 t.q.plen t.queue) t.q

/-- Words of the device window that hold a value and lie in a range. -/
def wordsIn (s : State) (lo hi : Nat) : List (Nat × W32) := s.regs.dev.filter (fun kv => decide (lo ≤ kv.1 ∧ kv.1 < hi))

/-- A bucket refilled by RATE bits up to BURST units of 256 octets (12 R263). -/
def refillTokens (w : W32) (t : Int) : Int :=
  min (bitsOf w.toNat 31 16 * 2048 : Nat) (t + (bitsOf w.toNat 15 0 : Nat))

/-- EGRESS_TOKEN_REFILL: every shaped queue and port (12 R263). -/
def tokenRefill (s : State) : State :=
  let s := (wordsIn s 0xA8000 0xAC000).foldl (fun (s : State) kv =>
    let q := (kv.1 - 0xA8000) / 4
    if bitsOf kv.2.toNat 15 0 = 0 then s
    else { s with egr := { s.egr with qTokens := mset 0 s.egr.qTokens q (refillTokens kv.2 (qTokens s q)) } }) s
  (wordsIn s 0xB0000 0xB0200).foldl (fun (s : State) kv =>
    let p := (kv.1 - 0xB0000) / 4
    if bitsOf kv.2.toNat 15 0 = 0 then s
    else { s with egr := { s.egr with pTokens := mset 0 s.egr.pTokens p (refillTokens kv.2 (pTokens s p)) } }) s

/-! ### Links and cages -/

/-- A port's link goes down (02 R34, R43): its held frames are discarded, a frame in transmission is lost.
DEDUCED, log entry 31. -/
def linkDownNow (s : State) (p : Nat) : State :=
  let x := portSt s p
  let s := match x.tx with
    | some t => frameDiscard (portCnt s p 8 1) t.queue t.q 0xC7
    | none => s
  let s := hobDiscard (hobDiscard s (2 * p)) (2 * p + 1)
  setPort s p { portSt s p with
    linkUp := false, fecLock := false, negMode := 0, pauseUntil := none, pfcUntil := [], xoff := [], tx := none }

/-- The FEC that the quad of a port runs: 0 none, 1 Clause 74, 2 Clause 108. A value that MODE does not support, or the
reserved one, acts as none (02 R28, Table 02-4). -/
def quadFec (s : State) (p : Nat) : Nat :=
  let f := fld s (0x10000 + 4 * (p / 4)) 3 2
  match quadMode s p with
  | 2 => if f = 1 then 1 else 0
  | 3 => if f = 3 then 0 else f
  | _ => 0

/-- The mode of Table 02-6 that a quad brings up, by its MODE and FEC; none while it is off. -/
def modeFits (s : State) (p m : Nat) : Bool :=
  match quadMode s p with
  | 1 => decide (m = 1)
  | 2 => decide (m = 2 + quadFec s p)
  | 3 => decide (m = 4 + quadFec s p)
  | _ => false

/-- LINK_UP (02 R41). -/
def linkUpNow (s : State) (p m : Nat) : State :=
  if portEn s p && modeFits s p m && !s.hkc.dbolt then
    setPort s p { portSt s p with linkUp := true, fecLock := decide (m = 3 ∨ m = 5 ∨ m = 6), negMode := m }
  else s

/-- A write of PRT_QCFG (02 R41): the quad's links go down and train again. -/
def quadWrite (s : State) (q v : Nat) : State :=
  let s := (List.range 4).foldl (fun s i => linkDownNow s (4 * q + i)) s
  wrDev s (0x10000 + 4 * q) (v % 256)

/-- A module access that its waiting command makes of a cage. -/
def accessOf (cage : Nat) (w : Waiting) : Option Nat :=
  match w.what with
  | .outside opc (some k) => if k = cage then some opc else none
  | _ => none

/-- The module accesses of a cage that wait end with NO_MODULE (02 R39). -/
def moduleGone (s : State) (cage : Nat) : State :=
  let ws := s.gpl.waiting.filter (fun w => (accessOf cage w).isSome)
  let s := { s with gpl := { s.gpl with waiting := s.gpl.waiting.filter (fun w => (accessOf cage w).isNone) } }
  ws.foldl (fun s w => finish s w.cmd ((accessOf cage w).getD 0) 0xC9 0 0) s

/-- MODULE_PRESENCE_CHANGE (02 R39). -/
def moduleChange (s : State) (cage : Nat) (present : Bool) : State :=
  let s := { s with prt := { s.prt with modules := mset false s.prt.modules cage present } }
  let s := if present then s else moduleGone ((List.range 4).foldl (fun s i => linkDownNow s (4 * cage + i)) s) cage
  sendEvent s 0x01 0 (beOctets 1 cage ++ beOctets 1 (if present then 1 else 2))

/-- Release the held frame of a unit when 1 ms has passed (02 R42): an egress frame goes at the next selection. -/
def hobTimeout (s : State) (u : Nat) : State :=
  if u % 2 = 0 then rxRelease s (u / 2) else if hobDue s u then frameTransmit s (u / 2) else s

/-- FRAME_RECEIVE. -/
def execFrameReceive (port : BitVec 7) (octets : List Octet) (fcsOk : Bool) (s : State) :
    Host.Outcome State Fault Refusal := .next (frameReceive s port.toNat octets fcsOk)

/-- PAUSE_REPEAT. -/
def execPauseRepeat (port : BitVec 7) (s : State) : Host.Outcome State Fault Refusal := .next (pauseRepeat s port.toNat)

/-- PAUSE_RECEIVE. -/
def execPauseReceive (port : BitVec 7) (octets : List Octet) (s : State) : Host.Outcome State Fault Refusal :=
  .next (pauseFrame s port.toNat octets)

/-- PAUSE_TIMER_EXPIRY. -/
def execPauseTimerExpiry (port : BitVec 7) (cls : Option (BitVec 3)) (s : State) : Host.Outcome State Fault Refusal :=
  .next (pauseExpire s port.toNat (cls.map (·.toNat)))

/-- HOBBLE_HOLD_TIMEOUT. -/
def execHobbleHoldTimeout (unit_ : BitVec 8) (s : State) : Host.Outcome State Fault Refusal :=
  .next (hobTimeout s unit_.toNat)

/-- LINK_UP. -/
def execLinkUp (port : BitVec 7) (mode : BitVec 4) (s : State) : Host.Outcome State Fault Refusal :=
  .next (linkUpNow s port.toNat mode.toNat)

/-- LINK_DOWN. -/
def execLinkDown (port : BitVec 7) (s : State) : Host.Outcome State Fault Refusal := .next (linkDownNow s port.toNat)

/-- MODULE_PRESENCE_CHANGE. -/
def execModulePresenceChange (cage : BitVec 5) (present : Bool) (s : State) : Host.Outcome State Fault Refusal :=
  .next (moduleChange s cage.toNat present)

/-- MODULE_INTERRUPT (02 R39). -/
def execModuleInterrupt (cage : BitVec 5) (s : State) : Host.Outcome State Fault Refusal :=
  .next (sendEvent s 0x01 0 (beOctets 1 cage.toNat ++ beOctets 1 3))

/-- FRAME_TRANSMIT. -/
def execFrameTransmit (port : BitVec 7) (s : State) : Host.Outcome State Fault Refusal := .next (frameTransmit s port.toNat)

/-- TRANSMIT_END. -/
def execTransmitEnd (port : BitVec 7) (s : State) : Host.Outcome State Fault Refusal := .next (transmitEnd s port.toNat)

/-- EGRESS_TOKEN_REFILL. -/
def execEgressTokenRefill (s : State) : Host.Outcome State Fault Refusal := .next (tokenRefill s)

end Sys2Proof.Machine
end

