-- ==== Sys2Proof/Machine/Search.lean ====
section
/-! DEFINITION. The associative search array (05 R88-R107): layout of banks, insertion, rebalance, searches and
handles. -/

namespace Sys2Proof.Machine

/-- SRC_BANK of a logical bank (05 Table 05-7). -/
def srcBank (s : State) (b : Nat) : Nat := rdDev s (0x41100 + 4 * b)

/-- WIDTH code: 11 is treated as 00. -/
def widthCode (v : Nat) : Nat := let w := bitsOf v 2 1
                                 if w = 3 then 0 else w

/-- Entry slots of a bank (05 Table 05-1). -/
def bankSlots (s : State) (b : Nat) : Nat := 4096 / 2 ^ widthCode (srcBank s b)

/-- Key octets of a bank. -/
def bankOctets (s : State) (b : Nat) : Nat := 20 * 2 ^ widthCode (srcBank s b)

/-- Hole interval G of a bank (05 Table 05-7). -/
def holeInt (s : State) (b : Nat) : Nat := let h := bitsOf (srcBank s b) 5 3
                                           if h ≤ 4 then 8 * 2 ^ h else 32

/-- Entries of a bank with their slots, in ascending slot order. -/
def bankEnts (s : State) (b : Nat) : Map SEntry :=
  (s.src.ents.filter (fun kv => decide (kv.1 / 4096 = b))).map (fun kv => (kv.1 % 4096, kv.2))

/-- Replace the entries of a bank. -/
def setBankEnts (s : State) (b : Nat) (l : Map SEntry) : State :=
  let rest := s.src.ents.filter (fun kv => decide (kv.1 / 4096 ≠ b))
  { s with src := { s.src with ents := l.foldl (fun m kv => mput m (b * 4096 + kv.1) kv.2) rest } }

/-- SRC_CNT of a partition (05 Table 05-9). -/
def srcCnt (s : State) (p k n : Nat) : State := pcnt s 0x41400 0x30 p k n

/-- Is a slot free. -/
def slotFree (l : Map SEntry) (i : Nat) : Bool := (mfind l i).isNone

/-- R92 step 1: the place of an insertion among the entries of its bank. -/
def insertPoint (l : Map SEntry) (prio : Nat) : Nat :=
  match l.find? (fun kv => decide (prio < kv.2.prio)) with
  | some kv => kv.1
  | none => match l.getLast? with
    | some kv => kv.1 + 1
    | none => 0

/-- Moves a free slot needs for an insertion at `p` (R92 step 2). -/
def movesTo (p f : Nat) : Nat := if p ≤ f then f - p else p - 1 - f

/-- R92 step 2: the free slot of p's group that needs the fewest moves, one at or above p among equals. -/
def chooseFree (l : Map SEntry) (slots grp p : Nat) : Option Nat :=
  let g0 := min p (slots - 1) / grp * grp
  let free := (List.range grp).map (g0 + ·) |>.filter (slotFree l)
  free.foldl (fun best f => match best with
    | none => some f
    | some b => if movesTo p f < movesTo p b ∨ (movesTo p f = movesTo p b ∧ p ≤ f ∧ b < p) then some f else some b) none

/-- Shift the entries of slots [lo, hi) up one slot. -/
def shiftUp (l : Map SEntry) (lo hi : Nat) : Map SEntry :=
  l.map (fun kv => if lo ≤ kv.1 ∧ kv.1 < hi then (kv.1 + 1, kv.2) else kv)

/-- Shift the entries of slots (lo, hi) down one slot. -/
def shiftDown (l : Map SEntry) (lo hi : Nat) : Map SEntry :=
  l.map (fun kv => if lo < kv.1 ∧ kv.1 < hi then (kv.1 - 1, kv.2) else kv)

/-- R92 steps 3 and 4: the entries of the bank after the insertion. -/
def placeEntry (l : Map SEntry) (p f : Nat) (e : SEntry) : Map SEntry :=
  if p ≤ f then mput (shiftUp l p f) p e else mput (shiftDown l f p) (p - 1) e

/-- Free slots of a group. -/
def groupFree (l : Map SEntry) (grp g : Nat) : Nat := ((List.range grp).filter (fun i => slotFree l (g * grp + i))).length

/-- The lowest group of a bank with no free slot. -/
def fullGroup (l : Map SEntry) (slots grp : Nat) : Option Nat := lowest (slots / grp) (fun g => decide (groupFree l grp g = 0))

/-- One rebalancing shift out of full group `g`: its last entry, and every entry up to the next free slot above, moves
up one slot; or its first entry and every entry down to the next free slot below moves down one. -/
def rebalanceShift (l : Map SEntry) (slots grp g : Nat) (up : Bool) : Map SEntry :=
  if up then
    let p := g * grp + grp - 1
    match (List.range (slots - p)).find? (fun i => slotFree l (p + i)) with
    | some i => shiftUp l p (p + i)
    | none => l
  else
    let p := g * grp
    match (List.range p).find? (fun i => slotFree l (p - 1 - i)) with
    | some i => shiftDown l (p - 1 - i) (p + 1)
    | none => l

/-- Rebalance a bank (R94): shifts in one direction, group by group, until every group has a free slot; no entry moves
twice, so that at most 4,096 move. `fuel` is the number of groups. -/
def rebalanceRun (slots grp : Nat) (up : Bool) : Nat → Map SEntry → Map SEntry
  | 0, l => l
  | fuel + 1, l =>
    match fullGroup l slots grp with
    | none => l
    | some g => rebalanceRun slots grp up fuel (rebalanceShift l slots grp g up)

/-- The direction of a rebalance: towards a group with two free slots; which way where both have one is open
(DESIGN CHOICE, log entry 2). -/
def rebalanceUp (s : State) (l : Map SEntry) (slots grp : Nat) : Bool × State :=
  match fullGroup l slots grp with
  | none => (true, s)
  | some g =>
    let up := (List.range (slots / grp)).any (fun h => decide (g < h ∧ 2 ≤ groupFree l grp h))
    let down := (List.range g).any (fun h => decide (2 ≤ groupFree l grp h))
    let (k, s) := drawFree s 2
    (up && (!down || decide (k = 0)), s)

/-- The index a new entry gets: a free one, which one is open (DESIGN CHOICE, log entry 2). -/
def freeHandle (s : State) : Nat × State :=
  let (k, s) := drawFree s 262144
  let used := s.src.ents.map (fun kv => kv.2.index)
  let i := ((List.range (used.length + 1)).find? (fun j => !used.contains ((k + j) % 262144))).getD 0
  ((k + i) % 262144, s)

/-- Generation of a handle index. -/
def handleGen (s : State) (i : Nat) : BitVec 4 := mget 0 s.src.gens i

/-- Handle of an entry (R101). -/
def handleOf (s : State) (e : SEntry) : Nat := (handleGen s e.index).toNat * 2 ^ 18 + e.index

/-- Is a bank assigned to the partition and enabled (05 Table 05-5). -/
def bankOk (s : State) (p b : Nat) : Bool := decide (b < 64) && decide (bankOwner s b = some p) && bitOf (srcBank s b) 0

/-- Is a bank another partition's. -/
def bankForeign (s : State) (p b : Nat) : Bool := decide (b < 64) && (bankOwner s b).isSome && decide (bankOwner s b ≠ some p)

/-- Count a foreign bank or profile in the violation log (R101, 01 R17). -/
def foreignIf (s : State) (p agent res : Nat) (b : Bool) : State := if b then violate s p 6 agent res 0 else s

/-- Does the bank wait for its rebalance (R94). -/
def rebalDue (s : State) (b : Nat) : Bool := s.src.rebal.contains b

/-- Insert an entry image into a bank (R91, R92): completion status, handle and state. -/
def insertImage (s : State) (p b : Nat) (img : List Octet) : Nat × Nat × State :=
  let slots := bankSlots s b
  let grp := holeInt s b
  let w := bankOctets s b
  let l := bankEnts s b
  if slots - slots / grp ≤ l.length then (0x41, 0, srcCnt s p 5 1)
  else
    let prio := fieldBe img 0 4
    let m := fieldBe img (20 + w) w
    let q := insertPoint l prio
    match chooseFree l slots grp q with
    | none => (0x41, 0, srcCnt s p 5 1)
    | some f =>
      let (i, s) := freeHandle s
      let e : SEntry := { v := fieldBe img 20 w &&& m, m := m, prio := prio, ad := fieldBe img 4 16, index := i }
      let l := placeEntry l q f e
      let s := srcCnt (setBankEnts s b l) p 4 1
      let full := (fullGroup l slots grp).isSome
      (0, handleOf s e, if full then { s with src := { s.src with rebal := s.src.rebal ++ [b] } } else s)

/-- Octets of an entry image of a bank (05 Table 05-3). -/
def imageLen (s : State) (b : Nat) : Nat := 20 + 2 * bankOctets s b

/-- SRC_INSERT: it waits while its bank is to be rebalanced (R94). -/
def srcInsert (s : State) (c : CmdRef) (b addr : Nat) : State :=
  let p := c.part.toNat
  if !bankOk s p b then finish (foreignIf s p (hostAgent p) b (bankForeign s p b)) c 0x10 0x40 0 0
  else
    let img := hostRead s p addr (imageLen s b)
    if rebalDue s b then
      { s with gpl := { s.gpl with waiting := s.gpl.waiting ++ [⟨c, s.now, .srcInsert b img⟩] } }
    else
      let (st, h, s) := insertImage s p b img
      finish s c 0x10 st h 0

/-- Delete an entry: its index is freed and its generation advances (R101). -/
def deleteEnt (s : State) (k : Nat) (e : SEntry) : State :=
  { s with src := { s.src with
      ents := mdel s.src.ents k, gens := mset 0 s.src.gens e.index (handleGen s e.index + 1) } }

/-- Delete every entry of a bank in handle order; the result counts them. -/
def flushBank (s : State) (c : CmdRef) (b : Nat) : State :=
  let l := sortBy (fun (kv : Nat × SEntry) => handleOf s kv.2) (bankEnts s b)
  finish (l.foldl (fun s kv => deleteEnt s (b * 4096 + kv.1) kv.2) s) c 0x15 0 l.length 0

/-- Is a waiting command an insertion into a bank, or a flush of it. -/
def waitsBank (b : Nat) (w : Waiting) : Bool :=
  match w.what with
  | .srcInsert b' _ => decide (b' = b)
  | .srcFlush b' => decide (b' = b)
  | _ => false

/-- Start the commands that waited for a bank, in the order received, until an insertion leaves it to be rebalanced
again (R94, R103). -/
def resumeInserts : Nat → State → Nat → State
  | 0, s, _ => s
  | fuel + 1, s, b =>
    if rebalDue s b then s
    else match pickFirst (waitsBank b) s.gpl.waiting with
      | some (w, rest) =>
        let s := { s with gpl := { s.gpl with waiting := rest } }
        match w.what with
        | .srcInsert _ img =>
          let (st, h, s) := insertImage s w.cmd.part.toNat b img
          resumeInserts fuel (finish s w.cmd 0x10 st h 0) b
        | .srcFlush _ => resumeInserts fuel (flushBank s w.cmd b) b
        | _ => s
      | none => s

/-- The rebalance of a bank ends (R94). DESIGN CHOICE, log entry 43. -/
def rebalance (s : State) (b : Nat) : State :=
  if rebalDue s b then
    let slots := bankSlots s b
    let grp := holeInt s b
    let l := bankEnts s b
    let (up, s) := rebalanceUp s l slots grp
    let s := setBankEnts s b (rebalanceRun slots grp up (slots / grp) l)
    let s := { s with src := { s.src with rebal := s.src.rebal.filter (· ≠ b) } }
    resumeInserts s.gpl.waiting.length s b
  else s

/-- The entry a handle names for a partition, with its key in the array (R101). -/
def findHandle (s : State) (h : Nat) : Option (Nat × SEntry) :=
  if 2 ^ 22 ≤ h then none
  else s.src.ents.find? (fun kv => decide (kv.2.index = h % 2 ^ 18 ∧ (handleGen s kv.2.index).toNat = h / 2 ^ 18))

/-- The entry a handle command acts on; BAD_HANDLE otherwise, a foreign one counted (R101). -/
def handleFor (s : State) (p agent h : Nat) : Option (Nat × SEntry) × State :=
  match findHandle s h with
  | some (k, e) =>
    if bankOwner s (k / 4096) = some p then (some (k, e), s)
    else (none, foreignIf s p agent (k / 4096) (bankForeign s p (k / 4096)))
  | none => (none, s)

/-- SRC_DELETE. -/
def srcDelete (s : State) (c : CmdRef) (h : Nat) : State :=
  let p := c.part.toNat
  match handleFor s p (hostAgent p) h with
  | (some (k, e), s) => finish (deleteEnt s k e) c 0x11 0 0 0
  | (none, s) => finish s c 0x11 0x42 0 0

/-- Replace the AD of the entry a handle names: status and state. -/
def setAd (s : State) (p agent h ad : Nat) : Nat × State :=
  match handleFor s p agent h with
  | (some (k, e), s) => (0, { s with src := { s.src with ents := mput s.src.ents k { e with ad := ad, bad := false } } })
  | (none, s) => (0x42, s)

/-- SRC_READ: the image, and LOC. -/
def srcRead (s : State) (c : CmdRef) (h addr : Nat) : State :=
  let p := c.part.toNat
  match handleFor s p (hostAgent p) h with
  | (some (k, e), s) =>
    let w := bankOctets s (k / 4096)
    let l := beOctets 4 e.prio ++ beOctets 16 e.ad ++ beOctets w e.v ++ beOctets w e.m ++ beOctets 4 k
    finish (hostWrite s p addr l) c 0x13 0 0 l.length
  | (none, s) => finish s c 0x13 0x42 0 0

/-- SRC_FLUSH: it follows the insertions into its bank that were received before it (R103). -/
def srcFlush (s : State) (c : CmdRef) (b : Nat) : State :=
  let p := c.part.toNat
  if !bankOk s p b then finish (foreignIf s p (hostAgent p) b (bankForeign s p b)) c 0x15 0x40 0 0
  else if s.gpl.waiting.any (waitsBank b) then
    { s with gpl := { s.gpl with waiting := s.gpl.waiting ++ [⟨c, s.now, .srcFlush b⟩] } }
  else flushBank s c b

/-- Word `w` of SRC_PROF (05 Table 05-8). -/
def profWord (s : State) (k w : Nat) : Nat := rdDev s (0x44000 + 64 * k + 4 * w)

/-- Key octets of a profile. -/
def profOctets (s : State) (k : Nat) : Nat := 20 * 2 ^ widthCode (profWord s k 0)

/-- Is a profile assigned to the partition and enabled. -/
def profOk (s : State) (p k : Nat) : Bool := decide (profOwner s k = some p) && bitOf (profWord s k 0) 0

/-- Is a profile another partition's. -/
def profForeign (s : State) (p k : Nat) : Bool := (profOwner s k).isSome && decide (profOwner s k ≠ some p)

/-- One extent of a key (R96): LEN octets of its source at SOFF to DST, the first ANDed with MASK. -/
def runExtent (v : Nat) (rec flow pay key : List Octet) : List Octet :=
  let src := match v % 4 with
    | 1 => rec
    | 2 => flow
    | _ => pay
  if v % 4 = 0 then key
  else
    let l := octs src (bitsOf v 9 2) (bitsOf v 13 10 + 1)
    let l := match l with
      | a :: r => (a &&& BitVec.ofNat 8 (bitsOf v 28 21)) :: r
      | [] => []
    overlay key (bitsOf v 20 14) l

/-- The key the classifier builds for a profile (R96). -/
def buildKey (s : State) (k : Nat) (rec flow pay : List Octet) : List Octet :=
  (List.range 8).foldl (fun key i => runExtent (profWord s k (3 + i)) (rec.take 64) (flow.take 20) (pay.take 256) key)
    (zeros (profOctets s k))

/-- What a bank selected by a profile's mask does in a search (R97, R98). -/
inductive BankUse where
  | search | foreign | width | idle
  deriving DecidableEq, Repr

/-- Use of bank `b` by profile `k` of partition `p`. -/
def bankUse (s : State) (p k b : Nat) : BankUse :=
  if !bitOf (profWord s k 1 + profWord s k 2 * 2 ^ 32) b then .idle
  else if bankForeign s p b then .foreign
  else if !bankOk s p b then .idle
  else if widthCode (srcBank s b) ≠ widthCode (profWord s k 0) then .width
  else .search

/-- Does an entry match a key (R89). -/
def entMatches (key : Nat) (e : SEntry) : Bool := decide ((key ^^^ e.v) &&& e.m = 0)

/-- A search that passed its profile's check (R97, R98): the 32-octet record, whether the winner's AD carries an
uncorrectable error, and the state. Such an error is a doubt source of the bank's owner (R105). DEDUCED, log entry 42. -/
def runSearch (s : State) (p agent k : Nat) (key : List Octet) : List Octet × Bool × State :=
  let kv := beNat (fit (profOctets s k) key)
  let hits := s.src.ents.filter (fun e => decide (bankUse s p k (e.1 / 4096) = .search) && entMatches kv e.2)
  let skips := ((List.range 64).filter (fun b => decide (bankUse s p k b = .width))).length
  let s := (List.range 64).foldl (fun s b => foreignIf s p agent b (decide (bankUse s p k b = .foreign))) s
  let s := srcCnt (srcCnt s p 0 1) p 3 skips
  let s := if hits = [] then s else srcCnt s p 1 1
  let s := if 2 ≤ hits.length then srcCnt s p 2 1 else s
  let flags := b2n (hits ≠ []) + 2 * b2n (decide (2 ≤ hits.length)) + 4 * min 7 hits.length + 32 * b2n (decide (0 < skips))
  match hits.head? with
  | some (loc, e) =>
    let s := if e.bad then raiseDoubt s 0x03 none loc else s
    (zeros 1 ++ beOctets 1 flags ++ zeros 2 ++ beOctets 4 (handleOf s e) ++ beOctets 4 loc ++ beOctets 4 e.prio ++
      beOctets 16 e.ad, e.bad, s)
  | none => (zeros 1 ++ beOctets 1 flags ++ zeros 30, false, s)

/-- A search by a thread or host: BAD_PROFILE when the profile is not the partition's (05 Table 05-5). -/
def searchFor (s : State) (p agent k : Nat) (key : List Octet) : List Octet × Bool × State :=
  if profOk s p k then runSearch s p agent k key
  else (fit 32 [0x43], false, foreignIf s p agent k (profForeign s p k))

/-- SRC_SEARCH of a host: a refused profile writes no record. -/
def srcSearchHost (s : State) (c : CmdRef) (k kaddr raddr : Nat) : State :=
  let p := c.part.toNat
  if profOk s p k then
    let (l, bad, s) := runSearch s p (hostAgent p) k (hostRead s p kaddr (profOctets s k))
    if bad then finish s c 0x14 0xCB 0 0
    else finish (hostWrite s p raddr l) c 0x14 0 0 32
  else finish (foreignIf s p (hostAgent p) k (profForeign s p k)) c 0x14 0x43 0 0

/-- Start a thread's search: the record goes to its window when the helper completes, the searches of a profile in issue
order (R99). -/
def srchStart (t tag roff prof : Nat) (key : List Octet) (s : State) : State :=
  let (l, bad, s) := searchFor s (thrP s t) (thrAgent t) prof key
  startTag { s with seq := s.seq + 1 } t tag
    { kind := .srch, win := [(roff, l)], fault := if bad then 2 else 0, search := some (prof, s.seq) }

/-- Start a thread's SETAD: the record has STATUS, and HANDLE in octets 4-7 (09 Table 09-6). -/
def setadStart (t tag roff h ad : Nat) (s : State) : State :=
  let (st, s) := setAd s (thrP s t) (thrAgent t) h ad
  startTag s t tag { kind := .srch, win := [(roff, beOctets 1 st ++ zeros 3 ++ beOctets 4 h ++ zeros 24)] }

/-- SRCH with its key or block and its result in the window: sub-operation 0 SEARCH, 1 SETAD; others are undefined. -/
def sylSrch (t : Thr) (g : Gd) (rd ra rb : BitVec 5) (md : BitVec 8) : Syl :=
  let sub := md.toNat % 32
  helperSyl t g (decide (1 < sub)) (tagOf md) .srch
    (fun s c => [⟨(rg c ra).toNat, if sub = 0 then profOctets s ((rg c rb).toNat % 256) else 20, false⟩,
                 ⟨(rg c rd).toNat, 32, true⟩])
    (fun c s =>
      if sub = 0 then
        let k := (rg c rb).toNat % 256
        srchStart t.toNat (tagOf md) (rg c rd).toNat k (c.winRead (rg c ra).toNat (profOctets s k)) s
      else
        let l := c.winRead (rg c ra).toNat 20
        setadStart t.toNat (tagOf md) (rg c rd).toNat (fieldBe l 0 4) (fieldBe l 4 16) s)

/-- SRC_SETAD. -/
def srcSetad (s : State) (w : Issuer) (h ad raddr : Nat) : State :=
  match w with
  | .host c => hostCmd s c 0x12 (fun s =>
      let (st, s) := setAd s c.part.toNat (hostAgent c.part.toNat) h ad
      finish s c 0x12 st 0 0)
  | .thread t tag _ =>
    issueOne s t (helperSyl t 0 false tag.toNat .srch (fun _ _ => [⟨raddr, 32, true⟩])
      (fun _ s => setadStart t.toNat tag.toNat raddr h ad s))
  | _ => s

/-- SRC_SEARCH. -/
def srcSearch (s : State) (w : Issuer) (k kaddr raddr : Nat) : State :=
  match w with
  | .host c => hostCmd s c 0x14 (fun s => srcSearchHost s c k kaddr raddr)
  | .thread t tag _ =>
    issueOne s t (helperSyl t 0 false tag.toNat .srch (fun s _ => [⟨kaddr, profOctets s k, false⟩, ⟨raddr, 32, true⟩])
      (fun c s => srchStart t.toNat tag.toNat raddr k (c.winRead kaddr (profOctets s k)) s))
  | _ => s

/-- The scrubber's visit to a row (R105): a corrected error is rewritten and counted. An error that comes up behind the
visit leaves the entry's AD bad until it is written. What SEARCH_SCRUB does with an uncorrectable error it finds is in
execSearchScrub. -/
def searchScrub (s : State) (b slot : Nat) (found : ScrubFind) : State :=
  match mfind s.src.ents (b * 4096 + slot) with
  | none => s
  | some e =>
    match found with
    | .clean => s
    | .correctable => wrDev s (0x41200 + 4 * b) (min 65535 (rdDev s (0x41200 + 4 * b) + 1))
    | .uncorrectable => s
    | .missed => { s with src := { s.src with ents := mput s.src.ents (b * 4096 + slot) { e with bad := true } } }

end Sys2Proof.Machine
end

