-- ==== Sys2Proof/Machine/Bolt.lean ====
section
/-! DEFINITION. Bolt and Rein (16 R338-R348): doubt sources and their scope, entry to Bolt, and leaving it; MSI-X
messages (14 R310). -/

namespace Sys2Proof.Machine

/-- Count in FAR_CNT (16 Table 16-17). -/
def farCnt (s : State) (k n : Nat) : State := cntAdd s (0x140 + 8 * k) n

/-- Send the message of a vector of a partition's function, or set its pending bit when it is masked (14 R310). -/
def msixSend (s : State) (p vec : Nat) : State :=
  if !hasHost s p || inReset s p then s
  else
    let k := p * 512 + vec
    let e : MsixEnt := mget {} s.gpl.msix k
    if e.masked then { s with gpl := { s.gpl with msix := mset {} s.gpl.msix k { e with pend := true } } }
    else gplCnt { s with out := s.out ++ [.msix p vec] } p 2 1

/-- A partition's Bolt record. -/
def pboltSt (s : State) (p : Nat) : PBolt := mget {} s.hkc.pbolt p

/-- Store a partition's Bolt record. -/
def setPbolt (s : State) (p : Nat) (x : PBolt) : State := { s with hkc := { s.hkc with pbolt := mset {} s.hkc.pbolt p x } }

/-- Release what egress holds of a partition: results on their way are queued and journalled first (01 R12), frames of
its queues are ended or discarded (16 R341). -/
def boltEgress (s : State) (p : Nat) : State :=
  let mine := fun (x : Released) => decide (x.item.part = p)
  let (now, later) := (s.hlt.egressIn.filter mine, s.hlt.egressIn.filter (fun x => !mine x))
  let s := { s with hlt := { s.hlt with egressIn := now } }
  let s := now.foldl (fun s _ => egressProcess s) s
  let s := { s with hlt := { s.hlt with egressIn := s.hlt.egressIn ++ later } }
  let s := (s.prt.ports.map (·.1)).foldl (fun s port =>
    match (portSt s port).tx with
    | some t => if queueOwner s t.queue = some p then txAbort s port 0xC4 else s
    | none => s) s
  ((s.egr.queues.map (·.1)).filter (fun q => decide (queueOwner s q = some p))).foldl (fun s q =>
    let fs := queueOf s q
    let s := { s with egr := { s.egr with queues := mdel s.egr.queues q } }
    fs.foldl (fun s f =>
      let s := if f.resultEnd then farCnt s 7 1 else s
      frameDiscard s q f 0xC4) s) s

/-- CmdRef of a fetched descriptor. -/
def descRef (p r : Nat) (d : Desc) : CmdRef :=
  { part := BitVec.ofNat 3 p, ring := BitVec.ofNat 12 r, tag := BitVec.ofNat 16 (fieldBe d.octets 2 2),
    slot := BitVec.ofNat 16 d.slot }

/-- Complete a descriptor that has not started as BOLTED. -/
def descBolted (s : State) (p r : Nat) (d : Desc) : State :=
  let c := descRef p r d
  if ringKind s r = 1 then complete s c 0xC4 0x02 0 0 (octs d.octets 18 2)
  else finish s c (oct d.octets 0) (if ringKind s r = 3 ∧ oct d.octets 0 = 0xC0 then 0x86 else 0xC4) 0 0

/-- Complete a waiting command with a status. -/
def waitingEnd (s : State) (w : Waiting) (status : Nat) : State :=
  match w.what with
  | .stfResync _ _ => finish s w.cmd 0x21 status 0 0
  | .stfClose _ => finish s w.cmd 0x23 status 0 0
  | .segPresent _ _ => finish s w.cmd 0x41 status 0 0
  | .srcInsert _ _ => finish s w.cmd 0x10 status 0 0
  | .srcFlush _ => finish s w.cmd 0x15 status 0 0
  | .quiesce _ _ => finish s w.cmd 0xC9 status 0 0
  | .tx _ eq _ _ => complete s w.cmd status 0x02 0 0 (beOctets 2 eq)
  | .txDev _ _ _ eq _ _ => complete s w.cmd status 0x02 0 0 (beOctets 2 eq)
  | .outside opc _ => finish s w.cmd opc status 0 0

/-- Host lock requests of a partition that are queued. -/
def hostRequests (s : State) (p : Nat) : List (Nat × CmdRef) :=
  s.hsp.locks.flatMap (fun kl => kl.2.waiters.filterMap (fun w => match w.who with
    | .host c => if c.part.toNat = p then some (kl.1, c) else none
    | .task _ => none))

/-- What a host command still outstanding ends with when its partition's rings stop (14 R317). -/
def boltHost (s : State) (p : Nat) : State :=
  let rs := (s.gpl.rings.map (·.1)).filter (fun r => decide (ringOwner s r = some p))
  let s := rs.foldl (fun s r =>
    let x := ringSt s r
    x.fetched.foldl (fun s d => descBolted s p r d) (setRing s r { x with fetched := [] })) s
  let ws := s.gpl.waiting.filter (fun w => decide (w.cmd.part.toNat = p))
  let s := { s with gpl := { s.gpl with waiting := s.gpl.waiting.filter (fun w => decide (w.cmd.part.toNat ≠ p)) } }
  let s := ws.foldl (fun s w => waitingEnd s w 0xC4) s
  let s := (hostRequests s p).foldl (fun s kc => finish (withdraw s kc.1 (.host kc.2)) kc.2 0x50 0xC4 0 0) s
  let ds := s.gpl.dma.filter (fun d => decide (d.cmd.part.toNat = p) && d.paused.isSome)
  let s := { s with gpl := { s.gpl with dma := s.gpl.dma.filter (fun d => !(decide (d.cmd.part.toNat = p) && d.paused.isSome)) } }
  ds.foldl (fun s d => finish s d.cmd 0x02 0xC4 0 d.moved) s

/-- Discard held Hobble frames of the ports that Bolt applies to (02 R43, 16 R342). -/
def boltPorts (s : State) : State :=
  (s.prt.hob.map (·.1)).foldl (fun s u => if portBolted s (u / 2) then hobDiscard s u else s) s

/-- Entry to Bolt of partitions that were not in it (16 R341). -/
def boltParts (s : State) (ps : List Nat) : State :=
  let s := ps.foldl (fun s p => msixSend (boltHost (boltEgress s p) p) p (bitsOf (rdPart s p 4) 16 8)) s
  boltPorts s

/-- Event and count of an entry to Bolt. -/
def boltTold (s : State) (who code : Nat) (more : List Octet) : State :=
  sendEvent (farCnt s 6 1) 0x20 (tai s) (beOctets 1 who ++ beOctets 1 code ++ zeros 2 ++ more)

/-- A doubt source that puts nothing into Bolt: counted and reported (16 R338, R345). -/
def doubtOnly (s : State) (code res : Nat) : State := sendEvent (farCnt s 8 1) 0x26 res (zeros 1 ++ beOctets 1 code)

/-- Write the REIN journal record and event of an entry or exit (16 R348). -/
def reinTold (s : State) (entry : Bool) (minVin : Nat) : State :=
  let s := jnlEvent s 0x23 0 8 0xFF (beOctets 1 (b2n entry) ++ beOctets 4 minVin)
  sendEvent s (if entry then 0x21 else 0x22) (tai s) (beOctets 4 minVin)

/-- Does a board alert hold: Rein, the doubled refresh rate, or a sensor at 100 degrees or more (19 R396). -/
def alertHolds (s : State) : Bool := s.hkc.rein.isSome || s.hbm.doubled || !s.hkc.hotSensors.isEmpty

/-- Drive ALERT_N; SMB_ALERT_N is asserted when an alert begins and released by the Alert Response read (19 R396). -/
def alertUpdate (s : State) : State :=
  let on := alertHolds s
  { s with pins := { s.pins with alertN := !on, smbAlertN := s.pins.smbAlertN && !(on && s.pins.alertN) } }

/-- Rein ends: egress resumes, or device Bolt takes over (16 R348, R356). -/
def reinEnd (s : State) : State :=
  match s.hkc.rein with
  | none => s
  | some r => alertUpdate (reinTold { s with hkc := { s.hkc with rein := none } } false r.minVin)

/-- Entry to device Bolt (16 R343). -/
def boltDevice (s : State) (code : Nat) : State :=
  if s.hkc.dbolt then doubtOnly s code 0
  else
    let ps := (List.range 8).filter (fun p => !(pboltSt s p).on)
    let s := reinEnd s
    let s := { s with hkc := { s.hkc with dbolt := true, cause := code }, pins := { s.pins with boltN := false } }
    let s := boltParts s ps
    boltTold (jnlBolt s none code) 0xFF code []

/-- Is the cause of a partition doubt gone at its detection (16 Table 16-1). DEDUCED, log entry 87. -/
def goneAtOnce (code : Nat) : Bool := [0x03, 0x04, 0x05, 0x0E, 0x11].contains code

/-- Entry of a partition to Bolt, or a further doubt source while it is in Bolt (16 R338, R345). -/
def boltPartition (s : State) (p code res : Nat) (more : List Octet) : State :=
  let x := pboltSt s p
  let d : Doubt := ⟨code, res, goneAtOnce code⟩
  if x.on then doubtOnly (setPbolt s p { x with later := x.later ++ [d] }) code res
  else if s.hkc.dbolt then doubtOnly s code res
  else
    let s := setPbolt s p { on := true, cause := d, later := x.later }
    let s := boltParts s [p]
    boltTold (jnlBolt s (some p) code) p code more

/-- A cause has gone for the doubts that satisfy a test. -/
def doubtGone (s : State) (p : Nat) (t : Doubt → Bool) : State :=
  let x := pboltSt s p
  let f := fun (d : Doubt) => if t d then { d with gone := true } else d
  setPbolt s p { x with cause := if x.on then f x.cause else x.cause, later := x.later.map f }

/-- Where a doubt source strikes (16 Table 16-1). -/
inductive Scope where
  | device
  | parts (ps : List Nat)
  deriving DecidableEq, Repr

/-- Partition that the function of a host half serves. -/
def partOfFunc (s : State) (k : Nat) : Nat := k ^^^ s.flash.bindFunc.getD 0

/-- Scope of a doubt in an island, numbered in the order of 01 Table 01-2 (DEDUCED, log entry 22). -/
def islandScope (s : State) (i : Nat) : Scope :=
  if i < 16 then .parts (clusterOwner s i).toList
  else if 56 ≤ i ∧ i < 60 then .parts (((List.range 2).map (fun j => 2 * (i - 56) + j)).filter (funcExists s) |>.map (partOfFunc s))
  else .device

/-- Key whose span covers a slot of the key store. -/
def keyCovering (s : State) (slot : Nat) : Option (Nat × KeyEnt) :=
  s.cry.keys.find? (fun kv => decide (kv.1 ≤ slot ∧ slot < kv.1 + kv.2.span))

/-- Owner of a key-store slot: KEY_RNG (13 R279). -/
def keyOwner (s : State) (slot : Nat) : Option Nat :=
  lowest 8 (fun p =>
    let f := rdDev s (0xC0080 + 8 * p)
    let n := rdDev s (0xC0084 + 8 * p)
    bitOf f 16 && decide (f % 2 ^ 16 ≤ slot ∧ slot < f % 2 ^ 16 + n % 2 ^ 17))

/-- Scope of a doubt source: its resource decides for codes 01-05, 07, 08 and 10, `part` for 0E and 11 (16 Table 16-1;
DEDUCED, log entry 22). -/
def doubtScope (s : State) (code : Nat) (part : Option Nat) (res : Nat) : Scope :=
  match code with
  | 0x01 => .parts (clusterOwner s (res % 16)).toList
  | 0x02 => .parts (clusterOwner s (res / 8 % 16)).toList
  | 0x03 => .parts (bankOwner s (res / 4096 % 64)).toList
  | 0x04 => .parts (keyOwner s res).toList
  | 0x05 => .parts [res / 1024 % 8]
  | 0x07 => islandScope s res
  | 0x08 => islandScope s res
  | 0x0E => match part with
    | some p => .parts [p]
    | none => .device
  | 0x10 => .parts (clusterOwner s (res % 16)).toList
  | 0x11 => .parts part.toList
  | _ => .device

/-- What the part does to the failed resource at detection (16 Table 16-1), with the octets it reports. -/
def doubtRepair (s : State) (code res : Nat) : List Octet × State :=
  match code with
  | 0x03 =>
    match mfind s.src.ents (res % 2 ^ 18) with
    | some e => (beOctets 4 (handleOf s e), deleteEnt s (res % 2 ^ 18) e)
    | none => ([], s)
  | 0x04 =>
    match keyCovering s res with
    | some kv => ([], { s with cry := { s.cry with
        keys := mdel s.cry.keys kv.1, badSlots := kv.1 :: s.cry.badSlots.filter (· ≠ kv.1) } })
    | none => ([], s)
  | 0x05 =>
    let g : Seg := mget {} s.mem.segs (res % 8192)
    ([], { s with mem := { s.mem with
      segs := mset {} s.mem.segs (res % 8192) { g with w3 := BitVec.ofNat 32 (setBit g.w3.toNat 15 false) } } })
  | 0x07 => ([], { s with far := { s.far with islandLost := mput s.far.islandLost res s.now } })
  | 0x08 => ([], { s with far := { s.far with islandLost := mput s.far.islandLost res (2 ^ 64) } })
  | _ => ([], s)

/-- Is the code one of Table 16-1. -/
def doubtKnown (code : Nat) : Bool := decide (1 ≤ code ∧ code ≤ 0x13)

/-- A doubt source is detected (16 R338). -/
def doubt (s : State) (code : Nat) (part : Option Nat) (res : Nat) : State :=
  if !doubtKnown code then s
  else
    let scope := doubtScope s code part res
    let (more, s) := doubtRepair s code res
    match scope with
    | .device => boltDevice s code
    | .parts [] => doubtOnly s code res
    | .parts ps => ps.foldl (fun s p => boltPartition s p code res more) s

/-- No doubt source waits to be handed on, as at the start of a command. -/
def noDoubts (s : State) : State := { s with hkc := { s.hkc with raised := [] } }

/-- Hand on the doubt sources that running threads and searches have met (16 R338). -/
def raisedDoubts (s : State) : State :=
  s.hkc.raised.foldl (fun s d => doubt s d.1 d.2.1 d.2.2) (noDoubts s)

/-- Is a partition Bolt's recorded cause cleared (16 Table 16-14). -/
def boltCleared (s : State) (p : Nat) : Bool := (pboltSt s p).on && (pboltSt s p).cause.gone

/-- Leave a partition Bolt (16 R344): ports that it alone had idled train again; the first later cause that still
stands puts the partition into Bolt again (R345). -/
def boltLeave (s : State) (p : Nat) : State :=
  let x := pboltSt s p
  let idle := (s.prt.ports.map (·.1)).filter (portIdle s)
  let s := setPbolt s p {}
  let s := (idle.filter (fun q => !portIdle s q)).foldl (fun s q => linkDownNow s q) s
  match x.later.filter (fun d => !d.gone) with
  | [] => s
  | d :: rest => boltPartition (setPbolt s p { later := rest }) p d.code d.res []

/-- HKC_PBOLT.CLEAR (16 R344): ignored and logged while CLEARED is 0. -/
def boltClear (s : State) (p agent : Nat) : State :=
  if boltCleared s p then boltLeave s p else violate s 0 7 agent ((0x20 + 4 * p) / 4) 0

/-- DOUBT_SOURCE. -/
def execDoubtSource (code : BitVec 8) (part : Option (BitVec 3)) (res : BitVec 32) (s : State) :
    Host.Outcome State Fault Refusal := .next (doubt s code.toNat (part.map (·.toNat)) res.toNat)

/-- FORCE_BOLT_INPUT (16 R340): an assertion during boot waits for its end. DEDUCED, log entry 101. -/
def execForceBoltInput (s : State) : Host.Outcome State Fault Refusal :=
  .next (if s.hkc.booted then boltDevice s 0x0D else { s with hkc := { s.hkc with forcePend := true } })

/-- SEARCH_SCRUB (05 R105). -/
def execSearchScrub (bank : BitVec 6) (slot : BitVec 12) (found : ScrubFind) (s : State) :
    Host.Outcome State Fault Refusal :=
  .next (match mfind s.src.ents (bank.toNat * 4096 + slot.toNat), found with
    | some _, .uncorrectable => doubt s 0x03 none (bank.toNat * 4096 + slot.toNat)
    | _, _ => searchScrub s bank.toNat slot.toNat found)

end Sys2Proof.Machine
end

