-- ==== Sys2Proof/Machine/StfCmds.lean ====
section
/-! DEFINITION. The framer's commands (04 R75, R76) and the connection state record (04 Table 04-1). -/

namespace Sys2Proof.Machine

/-- RULE of a service. -/
def svcRule (s : State) (v : Nat) : Nat := bitsOf (svcWord s v 0) 2 0

/-- Octets in a direction's assembly buffer. -/
def asmOctets (s : State) (x : StfDir) : List Octet :=
  match x.asm with
  | some a => devRead s a x.asmLen
  | none => []

/-- Ciphertext of the record in progress, its tag apart. -/
def recCipher (x : StfDir) : List Octet :=
  if x.inRec then x.recCt.take (x.recCt.length + x.recLeft - 16) else []

/-- Plaintext of the record in progress; none when the slot holds no key. -/
def recPlain (s : State) (x : StfDir) : List Octet :=
  match mfind s.cry.keys x.rxKey with
  | some k => gcmCrypt k.mat (tlsNonce k.iv x.rxSeq) (recCipher x)
  | none => []

/-- The running GCM authentication state of the record in progress: GHASH over the header and the whole blocks received
(04 Table 04-1). -/
def recGhash (s : State) (x : StfDir) : List Octet :=
  match mfind s.cry.keys x.rxKey with
  | some k =>
    let h := beNat (aesEncK (aesKeys k.mat) (zeros 16))
    let ct := recCipher x
    let l := pad16 (recHeader (x.recCt.length + x.recLeft)) ++ ct.take (ct.length / 16 * 16)
    beOctets 16 (ghash h (l.length / 16) l 0)
  | none => zeros 16

/-- A direction without assembly and without a record in progress. -/
def StfDir.clear (x : StfDir) : StfDir :=
  { x with
    asm := none, asmLen := 0, need := 0, inRec := false, recLeft := 0, recHdr := [], recCt := [], recPt := 0, ghash := [],
    hobbled := false }

/-- Free the assembly of a direction. -/
def freeAsm (s : State) (i d : Nat) : State :=
  let x := (conn s i).dir d
  let s := setStfDir s i d x.clear
  match x.asm with
  | some a => endUse s framerAgent a
  | none => s

/-- Free all rewrite records of a connection. -/
def freeRws (s : State) (i : Nat) : State :=
  let c := conn s i
  c.rws.foldl dropRewrite (setConn s i { c with rws := [] })

/-- STF_CLOSE's effect (04 Table 04-4). -/
def closeConn (s : State) (i : Nat) : State :=
  let s := freeRws (freeAsm (freeAsm s i 0) i 1) i
  setConn s i { conn s i with state := 0, tls := false }

/-- Is a STIX in range, open and the partition's; a foreign one counts as a violation (04 R75). DEDUCED, log entry 37. -/
def stixFor (s : State) (p i : Nat) : Bool × State :=
  if fld s 0x40000 22 1 < i then (false, s)
  else
    let c := conn s i
    if c.state = 0 then (false, s)
    else if c.part = p then (true, s)
    else (false, violate s p 6 (hostAgent p) (i % 65536) 0)

/-- Does a key slot hold a key of the partition with a usage bit (04 Table 04-5, 13 Table 13-8). -/
def tlsKeyOk (s : State) (p slot use : Nat) : Bool :=
  match mfind s.cry.keys slot with
  | some k => decide (keyOwner s slot = some p) && bitOf k.usage use
  | none => false

/-- Operands of one direction of STF_OPEN. -/
structure OpenDir where
  expSeq : Nat
  mss : Nat
  odom : Nat
  eq : Nat
  rxKey : Nat
  txKey : Nat

/-- The low 112 bits: EXPSEQ 4, MSS 2, ODOM 2, EQ 2, RXKEY 2, TXKEY 2. -/
def openDir (d : Nat) : OpenDir :=
  ⟨bitsOf d 111 80, bitsOf d 79 64, bitsOf d 63 48, bitsOf d 47 32, bitsOf d 31 16, bitsOf d 15 0⟩

/-- Does a direction's target name an enabled domain and queue of the partition (04 R76). -/
def targetOk (s : State) (p : Nat) (x : OpenDir) : Bool :=
  decide (x.odom < 4096 ∧ x.eq < 4096) && bitOf (hltDom s x.odom) 0 && decide (domOwner s x.odom = some p) &&
    queueEn s x.eq && decide (queueOwner s x.eq = some p)

/-- Count a foreign domain or queue of a direction. -/
def targetForeign (s : State) (p : Nat) (x : OpenDir) : State :=
  let far := fun (n : Nat) (o : Option Nat) => decide (n < 4096) && o.isSome && decide (o ≠ some p)
  let s := foreignIf s p (hostAgent p) x.odom (far x.odom (domOwner s x.odom))
  foreignIf s p (hostAgent p) x.eq (far x.eq (queueOwner s x.eq))

/-- A direction as STF_OPEN leaves it: DISP and INFL are clear too, and RACK and RWIN keep what they held. DESIGN CHOICE, log
entry 38: 04 Table 04-4 names neither. -/
def opened (old : StfDir) (x : OpenDir) : StfDir :=
  { old.clear with
    expSeq := BitVec.ofNat 32 x.expSeq, mss := x.mss, odom := x.odom, eq := x.eq, rxKey := x.rxKey, txKey := x.txKey,
    delta := 0, rxSeq := 0, txSeq := 0, disp := false, infl := 0, spanStart := BitVec.ofNat 32 x.expSeq }

/-- STF_OPEN (04 R75, R76). The issuer's own connection in STATE 11 is ALREADY_OPEN and not DEAD, and of several
refusals BAD_SERVICE comes before BAD_TARGET and BAD_TARGET before BAD_KEY: DESIGN CHOICE, log entry 38. -/
def stfOpen (s : State) (c : CmdRef) (i v flags d0 d1 : Nat) : State :=
  let p := c.part.toNat
  let k := conn s i
  let x0 := openDir d0
  let x1 := openDir d1
  let tls := bitOf flags 0
  let end_ := fun (s : State) st => finish s c 0x20 st 0 0
  if fld s 0x40000 22 1 < i then end_ s 0x30
  else if k.state ≠ 0 then
    if k.part = p then end_ s 0x31 else end_ (violate s p 6 (hostAgent p) (i % 65536) 0) 0x30
  else if 63 < v ∨ svcRule s v = 0 ∨ 6 ≤ svcRule s v then end_ s 0x35
  else if !(targetOk s p x0 && targetOk s p x1) then end_ (targetForeign (targetForeign s p x0) p x1) 0x37
  else if tls && !(tlsKeyOk s p x0.rxKey 8 && tlsKeyOk s p x0.txKey 9 && tlsKeyOk s p x1.rxKey 8 && tlsKeyOk s p x1.txKey 9)
  then end_ s 0x34
  else
    end_ (setConn s i { k with
      state := 1, tls := tls, service := v, slowRsn := 0, slowDir := 0, part := p, d0 := opened k.d0 x0,
      d1 := opened k.d1 x1, rws := [] }) 0

/-- Operands of one direction of STF_RESYNC: EXPSEQ 4, DELTA 4, RXADV 2, TXADV 2, RXKEY 2, TXKEY 2. -/
structure SyncDir where
  expSeq : Nat
  delta : Nat
  rxAdv : Nat
  txAdv : Nat
  rxKey : Nat
  txKey : Nat

/-- One direction of STF_RESYNC. -/
def syncDir (d : Nat) : SyncDir :=
  ⟨bitsOf d 127 96, bitsOf d 95 64, bitsOf d 63 48, bitsOf d 47 32, bitsOf d 31 16, bitsOf d 15 0⟩

/-- The changes STF_RESYNC makes to one direction, its assembly apart; a message kept in assembly on a TLS direction has
its span begin where the one before it ended (04 R80). -/
def resynced (tls : Bool) (old : StfDir) (flags : Nat) (x : SyncDir) : StfDir :=
  let e := BitVec.ofNat 32 x.expSeq
  let old := if bitOf flags 2 then { old with rxKey := x.rxKey, txKey := x.txKey, rxSeq := 0, txSeq := 0 }
    else { old with rxSeq := old.rxSeq + BitVec.ofNat 64 x.rxAdv, txSeq := old.txSeq + BitVec.ofNat 64 x.txAdv }
  { old with
    expSeq := e, delta := BitVec.ofNat 32 x.delta,
    spanStart := if !bitOf flags 0 then e else if tls then old.spanStart else e - BitVec.ofNat 32 old.asmLen }

/-- STF_RESYNC commits: STATE 10 to 01 in one step (04 Table 04-4). -/
def resyncNow (s : State) (i flags : Nat) (x0 x1 : SyncDir) : State :=
  let s := if bitOf flags 0 then s else freeAsm (freeAsm s i 0) i 1
  let s := if bitOf flags 1 then freeRws s i else s
  let c := conn s i
  setConn s i { c with
    state := 1, slowRsn := 0, slowDir := 0, d0 := resynced c.tls c.d0 flags x0, d1 := resynced c.tls c.d1 flags x1 }

/-- Are messages of a connection in flight (04 R76). -/
def inFlight (s : State) (i : Nat) : Bool := decide (0 < (conn s i).d0.infl + (conn s i).d1.infl)

/-- A framer command waits for the messages in flight. -/
def stfWait (s : State) (c : CmdRef) (w : WaitWhat) : State :=
  { s with gpl := { s.gpl with waiting := s.gpl.waiting ++ [⟨c, s.now, w⟩] } }

/-- STF_RESYNC (04 R76): `ops` are FLAGS and the two directions. NEWKEYS on a connection without TLS loads the slots with no
test of them (DESIGN CHOICE). DEDUCED, log entry 38. -/
def stfResync (s : State) (c : CmdRef) (i : Nat) (ops : List Octet) : State :=
  let p := c.part.toNat
  let flags := oct ops 0
  let x0 := syncDir (fieldBe ops 1 16)
  let x1 := syncDir (fieldBe ops 17 16)
  match stixFor s p i with
  | (false, s) => finish s c 0x21 0x30 0 0
  | (true, s) =>
    let k := conn s i
    if k.state = 3 then finish s c 0x21 0x36 0 0
    else if k.state ≠ 2 then finish s c 0x21 0x32 0 0
    else if bitOf flags 2 && k.tls &&
        !(tlsKeyOk s p x0.rxKey 8 && tlsKeyOk s p x0.txKey 9 && tlsKeyOk s p x1.rxKey 8 && tlsKeyOk s p x1.txKey 9) then
      finish s c 0x21 0x34 0 0
    else if inFlight s i then stfWait s c (.stfResync i ops)
    else finish (resyncNow s i flags x0 x1) c 0x21 0 0 0

/-- STF_QUERY (04 Table 04-4). -/
def stfQuery (s : State) (c : CmdRef) (i addr : Nat) : State :=
  match stixFor s c.part.toNat i with
  | (false, s) => finish s c 0x22 0x30 0 0
  | (true, s) =>
    let k := conn s i
    let l := k.image ++ asmOctets s k.d0 ++ recPlain s k.d0 ++ asmOctets s k.d1 ++ recPlain s k.d1
    finish (hostWrite s c.part.toNat addr l) c 0x22 0 0 l.length

/-- STF_CLOSE (04 R76). -/
def stfClose (s : State) (c : CmdRef) (i : Nat) : State :=
  match stixFor s c.part.toNat i with
  | (false, s) => finish s c 0x23 0x30 0 0
  | (true, s) => if inFlight s i then stfWait s c (.stfClose i) else finish (closeConn s i) c 0x23 0 0 0

/-- A waiting framer command whose connection has no message in flight any more. -/
def stfReady (s : State) (w : Waiting) : Bool :=
  match w.what with
  | .stfResync i _ => !inFlight s i
  | .stfClose i => !inFlight s i
  | _ => false

/-- Run the framer commands that waited for messages in flight which are all released (04 R76). -/
def stfSettle (s : State) : State :=
  let ws := s.gpl.waiting.filter (stfReady s)
  let s := { s with gpl := { s.gpl with waiting := s.gpl.waiting.filter (fun w => !stfReady s w) } }
  ws.foldl (fun s w => match w.what with
    | .stfResync i ops => stfResync s w.cmd i ops
    | .stfClose i => stfClose s w.cmd i
    | _ => s) s

/-- The 1 ms of a framer command passes with messages still in flight (04 R76). -/
def inFlightTimeout (s : State) (c : CmdRef) : State :=
  match s.gpl.waiting.find? (fun w => decide (w.cmd = c) && (match w.what with
      | .stfResync _ _ => true
      | .stfClose _ => true
      | _ => false)) with
  | some w =>
    if s.now < w.since + 1000000 ∨ stfReady s w then s
    else waitingEnd { s with gpl := { s.gpl with waiting := s.gpl.waiting.erase w } } w 0x33
  | none => s

/-- STF_OPEN. -/
def execStfOpen (c : CmdRef) (stix : BitVec 32) (service flags : BitVec 8) (d0 d1 : BitVec 128) (s : State) :
    Host.Outcome State Fault Refusal :=
  .next (hostCmd s c 0x20 (fun s => stfOpen s c stix.toNat service.toNat flags.toNat d0.toNat d1.toNat))

/-- STF_RESYNC. -/
def execStfResync (c : CmdRef) (stix : BitVec 32) (flags : BitVec 8) (d0 d1 : BitVec 128) (s : State) :
    Host.Outcome State Fault Refusal :=
  .next (hostCmd s c 0x21 (fun s =>
    stfResync s c stix.toNat (flags :: beOctets 16 d0.toNat ++ beOctets 16 d1.toNat)))

/-- STF_QUERY. -/
def execStfQuery (c : CmdRef) (stix : BitVec 32) (addr : BitVec 64) (s : State) : Host.Outcome State Fault Refusal :=
  .next (hostCmd s c 0x22 (fun s => stfQuery s c stix.toNat addr.toNat))

/-- STF_CLOSE. -/
def execStfClose (c : CmdRef) (stix : BitVec 32) (s : State) : Host.Outcome State Fault Refusal :=
  .next (hostCmd s c 0x23 (fun s => stfClose s c stix.toNat))

/-- IN_FLIGHT_TIMEOUT. -/
def execInFlightTimeout (c : CmdRef) (s : State) : Host.Outcome State Fault Refusal := .next (inFlightTimeout s c)

end Sys2Proof.Machine
end

