-- ==== Sys2Proof/Machine/SchedCmds.lean ====
section
/-! DEFINITION. The commands that report the Halter's and the scheduler's own steps (07 R133-R158; 08 R172-R174): ticket
issue, dispatch, release, lateness, timers, preemption, stall, and the completion of far accesses and helpers. -/

namespace Sys2Proof.Machine

/-- The oldest unreleased ticket of a partition, or the null ticket. -/
def oldestTicket (s : State) (p : Nat) : W36 :=
  let l := s.hlt.tickets.filter (fun kt => kt.2.inUse && decide (kt.2.part = p))
  ((sortBy (fun (kt : Nat × Ticket) => kt.2.item.arr) l).head?.map (fun kt => ticketWord s kt.1)).getD nullTicket

/-- Has a partition a host command outstanding (07 R156): fetched and not completed, waiting, or queued for a lock. -/
def hostOutstanding (s : State) (p : Nat) : Bool :=
  s.gpl.rings.any (fun rx => decide (ringOwner s rx.1 = some p) && (decide (ringKind s rx.1 = 2) || decide (ringKind s rx.1 = 3))
    && !(rx.2.fetched.isEmpty && rx.2.outst.isEmpty)) ||
  s.gpl.waiting.any (fun w => decide (w.cmd.part.toNat = p)) || s.gpl.dma.any (fun d => decide (d.cmd.part.toNat = p)) ||
  !(hostRequests s p).isEmpty

/-- Do the conditions of a stall hold (07 R156). -/
def stalled (s : State) (p : Nat) : Bool := stallNow s p && !hostOutstanding s p

/-- STALLT in ns (07 Table 07-13). -/
def stallTime (s : State) (p : Nat) : Nat := 100000 * max 1 (fld s (0x60040 + 4 * p) 11 2)

/-- Follow the conditions of a stall: the count starts when they come to hold and restarts at a break (07 R156).
DESIGN CHOICE, log entry 56. -/
def trackStall (s : State) (p : Nat) : State :=
  if stalled s p then
    match mfind s.hlt.stallSince p with
    | some _ => s
    | none => { s with hlt := { s.hlt with stallSince := mput s.hlt.stallSince p s.now } }
  else unstall s p

/-- The stall detector of a partition: one declaration for each unbroken stall (07 R156). -/
def partitionStall (s : State) (p : Nat) : State :=
  let s := trackStall s p
  match mfind s.hlt.stallSince p with
  | none => s
  | some t =>
    if !flag s (0x60040 + 4 * p) 0 ∨ s.now < t + stallTime s p then s
    else
      let s := { s with hlt := { s.hlt with stallSince := mput s.hlt.stallSince p (2 ^ 64 + s.now) } }
      let s := schCnt (wrFlag s (0x60060 + 4 * p) 0 true) p 6
      let s := sendEvent s 0x02 (oldestTicket s p).toNat (beOctets 1 p)
      if flag s (0x60040 + 4 * p) 1 then doubt s 0x11 (some p) 0 else s

/-- Searches of a profile complete in issue order: has every earlier one completed (05 R99). -/
def searchTurn (s : State) (x : Tag) : Bool :=
  match x.search with
  | none => true
  | some (k, n) =>
    let earlier := fun (c : Ctx) => c.tags.any (fun kv => match kv.2.search with
      | some (j, m) => decide (j = k ∧ m < n)
      | none => false)
    !(s.thr.threads.any (fun kv => earlier kv.2.ctx) || s.thr.slots.any (fun kv => earlier kv.2.ctx))

/-- A helper's result arrives at the context that asked (08 R172, R173); an engine's request completes first at its
engine. -/
def helperComplete (s : State) (r : CtxRef) (tag : Nat) : State :=
  match mfind (ctxAt s r).tags tag with
  | some x => if x.kind = .far ∨ !x.ready ∨ !searchTurn s x then s else completeTag s r tag x.fault
  | none => s

/-- TICKET_ISSUE. -/
def execTicketIssue (part : BitVec 3) (s : State) : Host.Outcome State Fault Refusal := .next (ticketIssueNow s part.toNat)

/-- DISPATCH. -/
def execDispatch (part : BitVec 3) (s : State) : Host.Outcome State Fault Refusal := .next (dispatchOne s part.toNat)

/-- TICKET_RELEASE. DESIGN CHOICE, log entry 11. -/
def execTicketRelease (dom : BitVec 12) (s : State) : Host.Outcome State Fault Refusal := .next (stfSettle (ticketRelease s dom.toNat))

/-- LATENESS_CHECK. -/
def execLatenessCheck (dom : BitVec 12) (s : State) : Host.Outcome State Fault Refusal := .next (stfSettle (latenessCheck s dom.toNat))

/-- DEADLINE_KILL. -/
def execDeadlineKill (ticket : BitVec 14) (s : State) : Host.Outcome State Fault Refusal :=
  .next (deadlineKill s ticket.toNat)

/-- DELAY_ENTRY_DUE. -/
def execDelayEntryDue (part : BitVec 3) (s : State) : Host.Outcome State Fault Refusal := .next (delayDue s part.toNat)

/-- TIMER_EXPIRY. -/
def execTimerExpiry (t : Thr) (s : State) : Host.Outcome State Fault Refusal := .next (timerDue s t.toNat)

/-- PREEMPTION. -/
def execPreemption (part : BitVec 3) (s : State) : Host.Outcome State Fault Refusal := .next (preemptOne s part.toNat)

/-- PARTITION_STALL. -/
def execPartitionStall (part : BitVec 3) (s : State) : Host.Outcome State Fault Refusal :=
  .next (partitionStall s part.toNat)

/-- ASYNC_FAULT. -/
def execAsyncFault (t : Thr) (s : State) : Host.Outcome State Fault Refusal := .next (asyncTake s t.toNat)

/-- HELPER_COMPLETION. -/
def execHelperCompletion (ctx : CtxRef) (tag : BitVec 2) (s : State) : Host.Outcome State Fault Refusal :=
  .next (helperComplete s ctx tag.toNat)

/-- SLOT_HOLD_EXPIRY. -/
def execSlotHoldExpiry (channel : BitVec 12) (slot : BitVec 4) (s : State) : Host.Outcome State Fault Refusal :=
  .next (slotHoldExpiry s channel.toNat slot.toNat)

/-- LOCK_WATCHDOG. -/
def execLockWatchdog (k : BitVec 15) (s : State) : Host.Outcome State Fault Refusal :=
  if 16400 ≤ k.toNat then .fault .noSuchUnit else .next (lockWatchdog s k.toNat)

/-- REBALANCE. -/
def execRebalance (bank : BitVec 6) (s : State) : Host.Outcome State Fault Refusal := .next (rebalance s bank.toNat)

end Sys2Proof.Machine
end

