-- ==== Sys2Proof/Machine/BufCmds.lean ====
section
/-! DEFINITION. Buffer operations of threads, hosts and internal agents (12 R251-R254, R260; 09 Table 09-6). -/

namespace Sys2Proof.Machine

/-- Is the hold list of the task on a thread full. -/
def holdFull (s : State) (t : Nat) : Bool :=
  match (thrTask s t).bind (taskSt s) with
  | some x => decide (holdMax ≤ x.hold.length)
  | none => false

/-- Enter a buffer in the hold list of the task on a thread. -/
def holdEnter (s : State) (t a : Nat) : State :=
  match thrTask s t with
  | some id => updTask s id (fun x => { x with hold := x.hold ++ [a] })
  | none => s

/-- The thread an agent ID names, if it names one. -/
def agentThr (a : Nat) : Option Nat := if a / 16384 = 0 ∧ a % 8 = 0 then some (a / 8) else none

/-- Operands of a buffer operation (12 Table 12-2): its sub-operation, pool, pointer, GIVE target and RECOV. -/
structure BufArgs where
  sub : Nat
  pool : Nat := 0
  ptr : Nat := nullPtr
  target : Nat := 0
  recov : Bool := false

/-- A buffer operation of an agent: status, pointer and state, with the hold lists it fills and empties (12 R251-R253). -/
def bufOp (s : State) (agent : Nat) (x : BufArgs) : Nat × Nat × State :=
  let t := agentThr agent
  let id := t.bind (thrTask s)
  match x.sub with
  | 0 =>
    let (st, a, s) := bufAlloc s agent x.pool ((t.map (holdFull s)).getD false) x.recov
    (st, a, if st = 0 then (match t with
      | some t => holdEnter s t a
      | none => s) else s)
  | 1 => let (st, s) := bufShare s agent x.ptr; (st, x.ptr, s)
  | 2 => let (st, s) := bufDrop s agent x.ptr; (st, x.ptr, s)
  | 3 =>
    let tgt := agentThr x.target
    let full := (tgt.map (holdFull s)).getD false
    let (st, s) := bufGive s agent x.ptr x.target full
    if st ≠ 0 then (st, x.ptr, s)
    else
      let s := loseSeg (unhold s id x.ptr) id x.ptr
      (st, x.ptr, match tgt with
        | some u => holdEnter s u x.ptr
        | none => s)
  | _ => let (st, s) := bufFreeOp s agent x.ptr
         (st, x.ptr, if st = 0 then unhold s id x.ptr else s)

/-- A BUF request of a thread: rd receives the pointer of ALLOC, or the status (09 Table 09-6). -/
def bufStart (t tag rd : Nat) (x : BufArgs) (s : State) : State :=
  let (st, a, s) := bufOp s (thrAgent t) x
  let v := if x.sub = 0 then (if st = 0 then a else nullPtr) else st
  startTag s t tag { kind := .buf, rd := some (rd, BitVec.ofNat 36 v) }

/-- BUF: sub-operations above 4 are undefined (09 R181). -/
def sylBuf (t : Thr) (g : Gd) (rd ra rb : BitVec 5) (md : BitVec 8) : Syl :=
  let sub := md.toNat % 32
  helperSyl t g (decide (4 < sub)) (tagOf md) .buf (fun _ _ => [])
    (fun c s => bufStart t.toNat (tagOf md) rd.toNat
      { sub := sub, pool := (rg c rb).toNat % 64, ptr := (rg c ra).toNat, target := (rg c rb).toNat % 65536 } s)

/-- RESULT of BUF_OP (12 R260). -/
def bufResult (sub st a : Nat) : Nat := if sub = 0 ∨ st = 0 then a else nullPtr

/-- BUF_OP of a host: RECOV belongs to the supervisor (12 R257). -/
def bufHost (s : State) (c : CmdRef) (x : BufArgs) : State :=
  if x.recov ∧ x.sub = 0 ∧ !isSup s c.part.toNat then finish (bufCnt s c.part.toNat 4) c 0x60 0xAA nullPtr 0
  else
    let (st, a, s) := bufOp s (hostAgent c.part.toNat) x
    finish s c 0x60 st (bufResult x.sub st a) 0

/-- A buffer operation by whoever asks for it; only a host's BUF_OP has a RECOV (12 R257). -/
def bufRequest (s : State) (w : Issuer) (x : BufArgs) : State :=
  match w with
  | .host c => hostCmd s c 0x60 (fun s => bufHost s c x)
  | .thread t tag rd =>
    issueOne s t (helperSyl t 0 false tag.toNat .buf (fun _ _ => []) (fun _ s =>
      bufStart t.toNat tag.toNat rd.toNat { x with recov := false } s))
  | .internal n => (bufOp s (intAgent n.toNat) { x with recov := false }).2.2
  | .setup _ => s

/-- BUF_RECLAIM (12 Table 12-4). -/
def bufReclaim (s : State) (c : CmdRef) (a : Nat) : State :=
  let p := c.part.toNat
  if !isSup s p then finish (bufCnt s p 4) c 0x61 0xAA 0 0
  else match ptrCheck s a with
    | (.ok _, s) =>
      if !(bufTag s a).alloc then finish (bufCnt s p 4) c 0x61 0xA4 0 0
      else finish (freeBuf (unholdAll s a) a) c 0x61 0 0 0
    | (chk, s) => let (st, s) := badPointer s (hostAgent p) chk false
                  finish s c 0x61 st 0 0

/-- BUF_QUERY (12 R260). -/
def bufQuery (s : State) (c : CmdRef) (a addr : Nat) : State :=
  let p := c.part.toNat
  match ptrCheck s a with
  | (.ok k, s) =>
    if isSup s p || decide (poolOwner s k = some p) || ((bufTag s a).alloc && decide (agentPart s (bufTag s a).owner = some p)) then
      finish (hostWrite s p addr (tagOctets (bufTag s a))) c 0x62 0 0 8
    else
      let s := bufCnt s p 4
      finish (if (poolOwner s k).isSome then violate s p 6 (hostAgent p) k 0 else s) c 0x62 0xA1 0 0
  | (chk, s) => let (st, s) := badPointer s (hostAgent p) chk false
                finish s c 0x62 st 0 0

/-- BUF_OP with SUB 0. -/
def execBufAlloc (w : Issuer) (pool prio flags : BitVec 8) (s : State) : Host.Outcome State Fault Refusal :=
  let _ := prio
  .next (bufRequest s w { sub := 0, pool := pool.toNat, recov := bitOf flags.toNat 0 })

/-- BUF_OP with SUB 1. -/
def execBufShare (w : Issuer) (ptr : BitVec 40) (s : State) : Host.Outcome State Fault Refusal :=
  .next (bufRequest s w { sub := 1, ptr := ptr.toNat % 2 ^ 36 })

/-- BUF_OP with SUB 2. -/
def execBufDrop (w : Issuer) (ptr : BitVec 40) (s : State) : Host.Outcome State Fault Refusal :=
  .next (bufRequest s w { sub := 2, ptr := ptr.toNat % 2 ^ 36 })

/-- BUF_OP with SUB 3. -/
def execBufGive (w : Issuer) (ptr : BitVec 40) (agent : BitVec 16) (s : State) : Host.Outcome State Fault Refusal :=
  .next (bufRequest s w { sub := 3, ptr := ptr.toNat % 2 ^ 36, target := agent.toNat })

/-- BUF_OP with SUB 4. -/
def execBufFree (w : Issuer) (ptr : BitVec 40) (s : State) : Host.Outcome State Fault Refusal :=
  .next (bufRequest s w { sub := 4, ptr := ptr.toNat % 2 ^ 36 })

/-- BUF_RECLAIM. -/
def execBufReclaim (c : CmdRef) (ptr : BitVec 40) (s : State) : Host.Outcome State Fault Refusal :=
  .next (hostCmd s c 0x61 (fun s => bufReclaim s c (ptr.toNat % 2 ^ 36)))

/-- BUF_QUERY. -/
def execBufQuery (c : CmdRef) (ptr : BitVec 40) (addr : BitVec 64) (s : State) : Host.Outcome State Fault Refusal :=
  .next (hostCmd s c 0x62 (fun s => bufQuery s c (ptr.toNat % 2 ^ 36) addr.toNat))

end Sys2Proof.Machine
end

