-- ==== Sys2Proof/Machine/TaskCmds.lean ====
section
/-! DEFINITION. Host commands on tasks, tickets, segments, locks and the search array (07 R157; 08 R170, R176, R177;
11 R235; 05 Table 05-2). -/

namespace Sys2Proof.Machine

/-- SCH_POST (07 Table 07-8). DEDUCED, log entry 55. -/
def schPost (s : State) (c : CmdRef) (dom prio entry : Nat) (preempt : Bool) (buf len : Nat) (arg : W36) (delay : Nat) :
    State :=
  let p := c.part.toNat
  let (st, w, s) := postTask s p (hostAgent p) dom prio entry preempt buf len arg delay
  finish s c 0x30 st w.toNat 0

/-- HLT_FDROP (07 Table 07-8): the ticket of any partition. -/
def hltFdrop (s : State) (c : CmdRef) (w : Nat) : State :=
  if !isSup s c.part.toNat then finish s c 0x31 0x63 0 0
  else if 2 ^ 36 ≤ w then finish s c 0x31 0x62 0 0
  else match ticketNamed s (BitVec.ofNat 36 w) with
    | none => finish s c 0x31 0x62 0 0
    | some n =>
      match n.sub with
      | some _ => if stillOpen s n then finish (completeTicket s n { disp := .drop }) c 0x31 0 0 0
                  else finish s c 0x31 0x62 0 0
      | none => if (ticket s n.idx).complete then finish s c 0x31 0x62 0 0
                else finish (dropTicketAll s n.idx) c 0x31 0 0 0

/-- HLT_QUERY (07 Table 07-8). -/
def hltQuery (s : State) (c : CmdRef) (d addr : Nat) : State :=
  let p := c.part.toNat
  if mayQueryDom s p d then finish (hostWrite s p addr (domQuery s d)) c 0x32 0 0 16
  else
    let foreign := decide (d < 4096) && (domOwner s d).isSome && decide (domOwner s d ≠ some p)
    finish (if foreign then violate s p 6 (hostAgent p) d 0 else s) c 0x32 0x61 0 0

/-- The partition whose segment table a command names (08 R176). -/
def segPart (s : State) (c : CmdRef) (part : Nat) : Nat := if isSup s c.part.toNat then part else c.part.toNat

/-- Range `n` of CORE_MEMRNG of a partition: first and last octet (08 Table 08-16). -/
def memRange (s : State) (p n : Nat) : Option (Nat × Nat) :=
  let o := 0x71000 + 0x80 * p + 8 * n
  if flag s o 31 then some (fld s o 27 0 * 256, fld s (o + 4) 27 0 * 256 + 255) else none

/-- Do octets `lo` to `hi` lie within one CORE_MEMRNG range of a partition. -/
def inRange (s : State) (p lo hi : Nat) : Bool :=
  (List.range 16).any (fun n => match memRange s p n with
    | some (a, b) => decide (a ≤ lo ∧ hi ≤ b)
    | none => false)

/-- Does a range of HBM meet the journal region (13 R292). -/
def meetsJournal (s : State) (lo hi : Nat) : Bool := decide (lo < jnlBase s + 2 ^ 30 ∧ jnlBase s ≤ hi)

/-- May a descriptor be written (08 Table 08-8, R163, R170; 13 R292): `tp` is the table's partition.
DEDUCED, log entry 57. -/
def segAccepted (s : State) (sup : Bool) (tp : Nat) (g : Seg) : Bool :=
  let v := g.view tp 0
  let own := bitsOf g.w3.toNat 14 12
  let hi := v.base + v.limit
  decide (v.space < 6) && !(v.w && decide (v.space = 2)) && !(v.x && decide (v.space ≠ 2)) &&
    (decide (v.space = 5) || decide (g.w1.toNat / 16 = 0)) && !(decide (v.space < 3) && decide (g.w1 ≠ 0)) &&
    (sup || decide (own = tp)) &&
    (if v.space = 3 then decide (0x800000000 ≤ v.base ∧ hi < 0x808000000) && inRange s own v.base hi
     else if v.space = 4 then decide (hi < 0x400000000) && inRange s own v.base hi && !meetsJournal s v.base hi
     else true)

/-- SEG_WRITE (08 R170): the image's four words, each most significant octet first. DEDUCED, log entry 58. -/
def segWrite (s : State) (c : CmdRef) (part index desc : Nat) : State :=
  let tp := segPart s c part
  let w := fun k => desc / 2 ^ (32 * (3 - k)) % 2 ^ 32
  let g : Seg := ⟨BitVec.ofNat 32 (w 0), BitVec.ofNat 32 (w 1), BitVec.ofNat 32 (w 2), BitVec.ofNat 32 (w 3 % 65536)⟩
  if 7 < tp then finish s c 0x40 0xC1 0 0
  else if 1023 < index then finish s c 0x40 0x71 0 0
  else if segAccepted s (isSup s c.part.toNat) tp g then
    finish { s with mem := { s.mem with segs := mset {} s.mem.segs (tp * 1024 + index) g } } c 0x40 0 0 0
  else
    let v := g.view tp index
    let s := if v.space = 4 ∧ meetsJournal s v.base (v.base + v.limit) then hostViolate s c.part.toNat 7 index else s
    finish s c 0x40 0x70 0 0

/-- Is a far access under way that passed its check of a descriptor no later than `since` (08 Table 08-11). -/
def segInFlight (s : State) (p i since : Nat) : Bool :=
  let hit := fun (c : Ctx) => c.tags.any (fun kt => kt.2.segs.contains (p, i) && decide (kt.2.issued ≤ since))
  s.thr.threads.any (fun kx => hit kx.2.ctx) || s.thr.slots.any (fun kx => hit kx.2.ctx)

/-- SEG_PRESENT (08 Table 08-11). -/
def segPresent (s : State) (c : CmdRef) (part index p : Nat) : State :=
  let tp := segPart s c part
  if 7 < tp then finish s c 0x41 0xC1 0 0
  else if 1023 < index then finish s c 0x41 0x71 0 0
  else
    let g := segEnt s tp index
    let on := bitOf p 0
    let g := { g with w3 := BitVec.ofNat 32 (setBit g.w3.toNat 7 on) }
    let s := { s with mem := { s.mem with segs := mset {} s.mem.segs (tp * 1024 + index) g } }
    if !on && segInFlight s tp index s.now then
      { s with gpl := { s.gpl with waiting := s.gpl.waiting ++ [⟨c, s.now, .segPresent tp index⟩] } }
    else finish s c 0x41 0 0 0

/-- Complete each SEG_PRESENT whose earlier accesses have all finished. -/
def segSettle (s : State) : State :=
  let done := fun (w : Waiting) => match w.what with
    | .segPresent p i => !segInFlight s p i w.since
    | _ => false
  let ws := s.gpl.waiting.filter done
  let s := { s with gpl := { s.gpl with waiting := s.gpl.waiting.filter (fun w => !done w) } }
  ws.foldl (fun s w => finish s w.cmd 0x41 0 0 0) s

/-- The 1 ms of a SEG_PRESENT pass while P stays 0 (08 Table 08-11). -/
def inUseTimeout (s : State) (c : CmdRef) : State :=
  match s.gpl.waiting.find? (fun w => decide (w.cmd = c) && (match w.what with
      | .segPresent _ _ => true
      | _ => false)) with
  | some w =>
    match w.what with
    | .segPresent p i =>
      if s.now < w.since + 1000000 ∨ bitOf (segEnt s p i).w3.toNat 7 then s
      else finish { s with gpl := { s.gpl with waiting := s.gpl.waiting.erase w } } c 0x41 0x74 0 0
    | _ => s
  | none => s

/-- The 16-octet image of a descriptor. -/
def Seg.image (g : Seg) : List Octet :=
  beOctets 4 g.w0.toNat ++ beOctets 4 g.w1.toNat ++ beOctets 4 g.w2.toNat ++ beOctets 4 g.w3.toNat

/-- SEG_READ. -/
def segRead (s : State) (c : CmdRef) (part index addr : Nat) : State :=
  let tp := segPart s c part
  if 7 < tp then finish s c 0x42 0xC1 0 0
  else if 1023 < index then finish s c 0x42 0x71 0 0
  else finish (hostWrite s c.part.toNat addr (segEnt s tp index).image) c 0x42 0 0 16

/-- A command on a faulted task of the issuer's partition (08 R176). -/
def onFaulted (s : State) (c : CmdRef) (opc fid : Nat) (f : State → TaskLoc → Nat → State) : State :=
  match faulted s c.part.toNat fid with
  | some (loc, id) => f s loc id
  | none => finish s c opc 0x72 0 0

/-- Is the ticket of a task complete or freed. -/
def ticketDone (s : State) (id : Nat) : Bool :=
  match (taskSt s id).bind (fun x => ticketNamed s x.tkw) with
  | some n => (ticket s n.idx).complete
  | none => true

/-- TASK_RECALL (08 Table 08-11). DEDUCED, log entry 60. -/
def taskRecall (s : State) (c : CmdRef) (agent : Nat) : State :=
  if !isSup s c.part.toNat then finish s c 0x46 0x73 0 0
  else match agentThr agent with
    | some t =>
      if (thrTask s t).isSome ∧ (thr s t).mode ≠ .held then finish (pendFault s t 5 0) c 0x46 0 0 0
      else finish s c 0x46 0x72 0 0
    | none => finish s c 0x46 0x72 0 0

/-- SCH_POST. -/
def execSchPost (c : CmdRef) (dom : BitVec 16) (prio flags : BitVec 8) (entry : BitVec 16) (delay : BitVec 32)
    (buf : BitVec 40) (len : BitVec 16) (arg : BitVec 40) (s : State) : Host.Outcome State Fault Refusal :=
  .next (hostCmd s c 0x30 (fun s => schPost s c dom.toNat prio.toNat entry.toNat (bitOf flags.toNat 0)
    (buf.toNat % 2 ^ 36) len.toNat (BitVec.ofNat 36 arg.toNat) delay.toNat))

/-- HLT_FDROP. -/
def execHltFdrop (c : CmdRef) (ticket : BitVec 40) (s : State) : Host.Outcome State Fault Refusal :=
  .next (hostCmd s c 0x31 (fun s => hltFdrop s c ticket.toNat))

/-- HLT_QUERY. -/
def execHltQuery (c : CmdRef) (dom : BitVec 16) (addr : BitVec 64) (s : State) : Host.Outcome State Fault Refusal :=
  .next (hostCmd s c 0x32 (fun s => hltQuery s c dom.toNat addr.toNat))

/-- SEG_WRITE. -/
def execSegWrite (c : CmdRef) (part : BitVec 8) (index : BitVec 16) (desc : BitVec 128) (s : State) :
    Host.Outcome State Fault Refusal :=
  .next (hostCmd s c 0x40 (fun s => segWrite s c part.toNat index.toNat desc.toNat))

/-- SEG_PRESENT. -/
def execSegPresent (c : CmdRef) (part : BitVec 8) (index : BitVec 16) (p : BitVec 8) (s : State) :
    Host.Outcome State Fault Refusal :=
  .next (hostCmd s c 0x41 (fun s => segPresent s c part.toNat index.toNat p.toNat))

/-- SEG_READ. -/
def execSegRead (c : CmdRef) (part : BitVec 8) (index : BitVec 16) (addr : BitVec 64) (s : State) :
    Host.Outcome State Fault Refusal :=
  .next (hostCmd s c 0x42 (fun s => segRead s c part.toNat index.toNat addr.toNat))

/-- IN_USE_TIMEOUT. -/
def execInUseTimeout (c : CmdRef) (s : State) : Host.Outcome State Fault Refusal := .next (inUseTimeout s c)

/-- FAR_ACCESS_COMPLETE: a SEG_PRESENT that waited for it completes. -/
def execFarAccessComplete (ctx : CtxRef) (tag : BitVec 2) (pcieError : Bool) (s : State) :
    Host.Outcome State Fault Refusal := .next (segSettle (farComplete s ctx tag.toNat pcieError))

/-- TASK_RESUME. -/
def execTaskResume (c : CmdRef) (fid : BitVec 16) (s : State) : Host.Outcome State Fault Refusal :=
  .next (hostCmd s c 0x43 (fun s => onFaulted s c 0x43 fid.toNat (fun s loc id => finish (taskResume s loc id) c 0x43 0 0 0)))

/-- TASK_RETRY: TICKET_DONE when the ticket is complete or freed (08 Table 08-12). -/
def execTaskRetry (c : CmdRef) (fid : BitVec 16) (s : State) : Host.Outcome State Fault Refusal :=
  .next (hostCmd s c 0x44 (fun s => onFaulted s c 0x44 fid.toNat (fun s loc id =>
    if ticketDone s id then finish s c 0x44 0x75 0 0 else finish (taskRetry s loc id) c 0x44 0 0 0)))

/-- TASK_KILL. -/
def execTaskKill (c : CmdRef) (fid : BitVec 16) (s : State) : Host.Outcome State Fault Refusal :=
  .next (hostCmd s c 0x45 (fun s => onFaulted s c 0x45 fid.toNat (fun s loc id => finish (taskKill s loc id) c 0x45 0 0 0)))

/-- TASK_RECALL. -/
def execTaskRecall (c : CmdRef) (agent : BitVec 16) (s : State) : Host.Outcome State Fault Refusal :=
  .next (hostCmd s c 0x46 (fun s => taskRecall s c agent.toNat))

/-- HSP_ACQUIRE. -/
def execHspAcquire (c : CmdRef) (k : BitVec 16) (prio flags : BitVec 8) (timeout : BitVec 32) (s : State) :
    Host.Outcome State Fault Refusal :=
  .next (hostCmd s c 0x50 (fun s => hspAcquire s c k.toNat prio.toNat flags.toNat timeout.toNat))

/-- ACQUIRE_TIMEOUT. -/
def execAcquireTimeout (c : CmdRef) (s : State) : Host.Outcome State Fault Refusal := .next (acquireTimeout s c)

/-- HSP_RELEASE. -/
def execHspRelease (c : CmdRef) (k : BitVec 16) (flags : BitVec 8) (s : State) : Host.Outcome State Fault Refusal :=
  .next (hostCmd s c 0x51 (fun s => hspRelease s c k.toNat flags.toNat))

/-- HSP_QUERY. -/
def execHspQuery (c : CmdRef) (k : BitVec 16) (addr : BitVec 64) (s : State) : Host.Outcome State Fault Refusal :=
  .next (hostCmd s c 0x52 (fun s => hspQuery s c k.toNat addr.toNat))

/-- SRC_INSERT. -/
def execSrcInsert (c : CmdRef) (bank : BitVec 8) (addr : BitVec 64) (s : State) : Host.Outcome State Fault Refusal :=
  .next (hostCmd s c 0x10 (fun s => srcInsert s c bank.toNat addr.toNat))

/-- SRC_DELETE. -/
def execSrcDelete (c : CmdRef) (handle : BitVec 32) (s : State) : Host.Outcome State Fault Refusal :=
  .next (hostCmd s c 0x11 (fun s => srcDelete s c handle.toNat))

/-- SRC_SETAD. -/
def execSrcSetad (w : Issuer) (handle : BitVec 32) (ad : BitVec 128) (raddr : BitVec 64) (s : State) :
    Host.Outcome State Fault Refusal := .next (srcSetad s w handle.toNat ad.toNat raddr.toNat)

/-- SRC_READ. -/
def execSrcRead (c : CmdRef) (handle : BitVec 32) (addr : BitVec 64) (s : State) : Host.Outcome State Fault Refusal :=
  .next (hostCmd s c 0x13 (fun s => srcRead s c handle.toNat addr.toNat))

/-- SRC_SEARCH. -/
def execSrcSearch (w : Issuer) (profile : BitVec 8) (kaddr raddr : BitVec 64) (s : State) :
    Host.Outcome State Fault Refusal := .next (raisedDoubts (srcSearch (noDoubts s) w profile.toNat kaddr.toNat raddr.toNat))

/-- SRC_FLUSH. -/
def execSrcFlush (c : CmdRef) (bank : BitVec 8) (s : State) : Host.Outcome State Fault Refusal :=
  .next (hostCmd s c 0x15 (fun s => srcFlush s c bank.toNat))

end Sys2Proof.Machine
end

