-- ==== Sys2Proof/Machine/Deliver.lean ====
section
/-! DEFINITION. Supply rings: buffers taken for a delivery and their completions, and learn/age records
(14 R311, R312; 06 R130). -/

namespace Sys2Proof.Machine

/-- Complete the oldest supplied buffer of a ring with an entry, in a completion entry reserved now (14 R311). -/
def supplyDone (s : State) (r status kind result len : Nat) (more : Bool) (detail : List Octet) : State :=
  let x := ringSt s r
  match x.supply with
  | [] => s
  | b :: rest =>
    let s := cqReserve (setRing s r { x with supply := rest }) r
    cqPush s r {
      status := status, kind := kind, ring := r, more := more, tag := b.tag, slot := b.slot, result := result, len := len,
      detail := fit 12 detail, reserved := true }

/-- Has a ring a supplied buffer and a completion entry for it (14 R312). -/
def supplyReady (s : State) (r : Nat) : Bool :=
  cqUsable s r && decide ((ringSt s r).supply ≠ []) && decide (0 < cqFree s (ringCq s r))

/-- Octets of a delivery that the part may write to host memory: none that read as poison (14 R314). -/
def cleanOctets (poison : Bool) (l : List Octet) : List Octet := if poison then [] else l

/-- Deliver octets from `done` on to the oldest supplied buffers of a ring, as long as there is space, at most `fuel`
buffers: how many octets have been delivered, and whether the delivery has ended (14 R311, R314; a supply buffer below 64
octets is consumed with BAD_OPERAND). -/
def deliverRun (r p kind result : Nat) (l : List Octet) (poison : Bool) (detail : List Octet) :
    Nat → State → Nat → Nat × Bool × State
  | 0, s, done => (done, false, s)
  | fuel + 1, s, done =>
    if !supplyReady s r then (done, false, s)
    else match (ringSt s r).supply with
      | [] => (done, false, s)
      | b :: _ =>
        if b.blen < 64 then
          deliverRun r p kind result l poison detail fuel (supplyDone s r 0xC1 kind result 0 true detail) done
        else
          let part := (l.drop done).take b.blen
          let last := decide (l.length ≤ done + part.length)
          let s := hostWrite s p b.addr (cleanOctets poison part)
          let s := supplyDone s r (if poison then 0xCB else 0) kind result part.length (!last) detail
          if last then (l.length, true, s) else deliverRun r p kind result l poison detail fuel s (done + part.length)

/-- Count in TBL_CNT of a partition (06 Table 06-15). -/
def tblCnt (s : State) (p k : Nat) : State := pcnt s 0x50400 0x80 p k 1

/-- LEARN_AGE ring of a partition. -/
def laRing (s : State) (p : Nat) : Nat := bitsOf (rdPart s p 0xC) 23 12

/-- Complete the learn/age buffer being filled (14 R311). -/
def laFlush (s : State) (r : Nat) : State :=
  let x := ringSt s r
  match x.supply with
  | [] => s
  | b :: rest =>
    let s := setRing s r { x with supply := rest, la := [] }
    cqPush s r {
      status := 0, kind := 7, ring := r, tag := b.tag, slot := b.slot, len := x.la.length,
      detail := fit 12 (beOctets 2 (x.la.length / 64)), reserved := true }

/-- Consume supplied buffers below 64 octets at the head of a ring. -/
def dropShort : Nat → State → Nat → Nat → State
  | 0, s, _, _ => s
  | fuel + 1, s, r, kind =>
    match (ringSt s r).supply with
    | b :: _ => if b.blen < 64 ∧ supplyReady s r then dropShort fuel (supplyDone s r 0xC1 kind 0 0 false []) r kind else s
    | [] => s

/-- A record goes to the partition's learn/age ring, or is discarded and counted (06 R130, 14 R312). -/
def laRecord (s : State) (p : Nat) (rec : List Octet) : State :=
  let r := laRing s p
  if !ringUsable s p r 7 then tblCnt s p 7
  else
    let s := if (ringSt s r).la = [] then dropShort (ringSt s r).supply.length s r 7 else s
    let x := ringSt s r
    if x.la = [] ∧ !supplyReady s r then tblCnt s p 7
    else match x.supply with
      | [] => tblCnt s p 7
      | b :: _ =>
        let s := if x.la = [] then cqReserve (setRing s r { x with laFirst := s.now }) r else s
        let s := hostWrite s p (b.addr + x.la.length) rec
        let x := ringSt s r
        let s := setRing s r { x with la := x.la ++ rec }
        if b.blen < x.la.length + 128 then laFlush s r else s

/-- FLUSHT of a LEARN_AGE ring in ns. -/
def flushTime (s : State) (r : Nat) : Nat := 1000 * max 1 (bitsOf (rdRing s r 3) 9 0)

/-- The flush time of a learn/age buffer passes. -/
def laTimeout (s : State) (r : Nat) : State :=
  let x := ringSt s r
  if x.la ≠ [] ∧ x.laFirst + flushTime s r ≤ s.now then laFlush s r else s

/-- LEARN_AGE_FLUSH. -/
def execLearnAgeFlush (ring : BitVec 12) (s : State) : Host.Outcome State Fault Refusal := .next (laTimeout s ring.toNat)

end Sys2Proof.Machine
end

