-- ==== Sys2Proof/Machine/Tables.lean ====
section
/-! DEFINITION. The lookup tables (06 R108-R130): buckets, keys, longest-prefix lookup, the table commands, learning
and ageing. -/

namespace Sys2Proof.Machine

/-- A key of a table (06 R111, R114, R116): flow key, VLAN and station, or a prefix with its length (KEYLEN). -/
inductive TKey where
  | flow (key : List Octet)
  | l2 (vid mac : Nat)
  | bin (rt len : Nat) (pfx : List Octet)
  | dec (len : Nat) (pfx : List Octet)
  deriving DecidableEq, Repr

/-- Where an entry stands. -/
inductive TLoc where
  | flow (i : Nat)
  | l2 (i : Nat)
  | pfx (i : Nat)
  | dpfx (i : Nat)
  | povf (n : Nat)
  | short (rt len v : Nat)
  | dshort (k : Nat)
  deriving DecidableEq, Repr

/-- An entry as a table command sees it: its place and INDEX, its data, whether it is in an overflow store, STATIC. -/
structure TView where
  loc : TLoc
  index : Nat
  data : List Octet
  ovf : Bool := false
  static : Bool := false
  deriving DecidableEq, Repr

/-- First index of the overflow stores (06 R113). -/
def ovfBase : Nat := 0x1000000

/-- Buckets of the flow table. -/
def flowNB (s : State) : Nat := 2 ^ max 10 (min 22 (fld s 0x50000 5 1))
/-- Buckets of the L2 table. -/
def l2NB (s : State) : Nat := 2 ^ max 10 (min 18 (fld s 0x50004 5 1))
/-- Buckets of the binary prefix area. -/
def pfxNB : Nat := 2 ^ 20
/-- Buckets of the decimal prefix area. -/
def dpfxNB : Nat := 2 ^ 21

/-- The two candidate buckets of hash input `h` among `nb` (06 R108). -/
def candidates (nb : Nat) (h : List Octet) : Nat × Nat :=
  let b1 := crc32c h % nb
  let b2 := crc32 h % nb
  (b1, if b2 = b1 then b1 ^^^ 1 else b2)

/-- First `n` digits of packed decimal octets as a number. -/
def digitsVal (pfx : List Octet) (n : Nat) : Nat :=
  (List.range n).foldl (fun a i => a * 10 + (let o := oct pfx (i / 2); if i % 2 = 0 then o / 16 else o % 16)) 0

/-- off(L) of the decimal short table (06 R117). -/
def decOff (len : Nat) : Nat :=
  match len with
  | 1 => 0
  | 2 => 10
  | 3 => 110
  | _ => 1110

/-- Index of a decimal short prefix among the 11,110 of its partition. -/
def decShortIdx (len : Nat) (pfx : List Octet) : Nat := decOff len + digitsVal pfx len

/-- Value of the first `len` bits of a binary prefix. -/
def bitsVal (pfx : List Octet) (len : Nat) : Nat := beNat (fit 16 pfx) / 2 ^ (128 - len)

/-- A prefix with positions beyond `len` bits zero. -/
def maskBits (len : Nat) (pfx : List Octet) : List Octet := beOctets 16 (bitsVal pfx len * 2 ^ (128 - len))

/-- Packed decimal octets with digits beyond `len` zero. -/
def maskDigits (len : Nat) (pfx : List Octet) : List Octet :=
  (List.range 10).map (fun i =>
    let o := oct pfx i
    BitVec.ofNat 8 ((if 2 * i < len then o / 16 else 0) * 16 + (if 2 * i + 1 < len then o % 16 else 0)))

/-- Hash input of a key for partition `p` (06 Table 06-1): positions of a prefix beyond LEN are zero. -/
def TKey.hash (k : TKey) (p : Nat) : List Octet :=
  match k with
  | .flow key => beOctets 1 p ++ fit 40 key
  | .l2 vid mac => beOctets 1 p ++ beOctets 2 vid ++ beOctets 6 mac
  | .bin rt len pfx => beOctets 1 rt ++ beOctets 1 len ++ maskBits len pfx
  | .dec len pfx => beOctets 1 p ++ beOctets 1 len ++ maskDigits len pfx

/-- Is a prefix short: held in a direct table (06 R117). -/
def TKey.isShort (k : TKey) : Bool :=
  match k with
  | .bin _ len _ => decide (len ≤ 16)
  | .dec len _ => decide (len ≤ 4)
  | _ => false

/-- Candidate buckets of a key. -/
def TKey.buckets (k : TKey) (s : State) (p : Nat) : Nat × Nat :=
  candidates (match k with
    | .flow _ => flowNB s
    | .l2 _ _ => l2NB s
    | .bin _ _ _ => pfxNB
    | .dec _ _ => dpfxNB) (k.hash p)

/-- Device addresses of the HBM octets that hold a key's buckets or short entry (06 R110). -/
def tblRanges (s : State) (p : Nat) (k : TKey) : List (Nat × Nat) :=
  let base := hbmBase s
  let (b1, b2) := k.buckets s p
  match k with
  | .flow _ => [(base 0x50010 + 256 * b1, 256), (base 0x50010 + 256 * b2, 256)]
  | .l2 _ _ => [(base 0x50014 + 64 * b1, 64), (base 0x50014 + 64 * b2, 64)]
  | .bin rt len pfx =>
    if len ≤ 16 then [(base (0x50050 + 4 * rt) + 16 * (bitsVal pfx len * 2 ^ (16 - len)), 16)]
    else [(base 0x50018 + 128 * b1, 128), (base 0x50018 + 128 * b2, 128)]
  | .dec len pfx =>
    if len ≤ 4 then [(base 0x50020 + 177760 * p + 16 * decShortIdx len pfx, 16)]
    else [(base 0x5001C + 128 * b1, 128), (base 0x5001C + 128 * b2, 128)]

/-- Does reading the buckets of a key meet poison. DEDUCED, log entry 46. -/
def tblPoison (s : State) (p : Nat) (k : TKey) : Bool := (tblRanges s p k).any (fun r => devPoisoned s r.1 r.2)

/-- Find an element of a map among the slots of two buckets, or among the keys from `ovf` on. -/
def findIn {α : Type} (m : Map α) (b1 b2 : Nat) (ovf : Option Nat) (hit : α → Bool) : Option (Nat × α) :=
  m.find? (fun kv => (decide (kv.1 / 4 = b1 ∨ kv.1 / 4 = b2) || (match ovf with
    | some o => decide (o ≤ kv.1)
    | none => false)) && hit kv.2)

/-- Does a prefix entry match at length `len` (06 R116). -/
def PfxEnt.hit (e : PfxEnt) (dec : Bool) (own len : Nat) (pfx : List Octet) : Bool :=
  decide (e.dec = dec ∧ e.own = own ∧ e.len = len ∧ e.pfx = pfx)

/-- Find a long prefix in its area or in the prefix overflow store. -/
def findPfx (s : State) (p : Nat) (k : TKey) (dec : Bool) (own len : Nat) (pfx : List Octet) : Option TView :=
  let (b1, b2) := k.buckets s p
  match findIn (if dec then s.tbl.dpfx else s.tbl.pfx) b1 b2 none (fun e => e.hit dec own len pfx) with
  | some (i, e) => some { loc := if dec then .dpfx i else .pfx i, index := i, data := e.data }
  | none => (s.tbl.povf.find? (fun kv => kv.2.hit dec own len pfx)).map
      (fun kv => { loc := .povf kv.1, index := ovfBase + kv.1, data := kv.2.data, ovf := true })

/-- The entry a key matches for a partition (06 R111, R114, R116, R117). -/
def tFind (s : State) (p : Nat) (k : TKey) : Option TView :=
  let (b1, b2) := k.buckets s p
  match k with
  | .flow key =>
    (findIn s.tbl.flow b1 b2 (some ovfBase) (fun e => decide (e.part = p ∧ e.key = fit 40 key))).map
      (fun ie => { loc := .flow ie.1, index := ie.1, data := ie.2.data, ovf := decide (ovfBase ≤ ie.1), static := ie.2.static })
  | .l2 vid mac =>
    (findIn s.tbl.l2 b1 b2 none (fun e => decide (e.part = p ∧ e.vid = vid ∧ e.mac = mac))).map
      (fun ie => { loc := .l2 ie.1, index := ie.1, data := beOctets 1 ie.2.port, static := ie.2.static })
  | .bin rt len pfx =>
    if len ≤ 16 then
      let v := bitsVal pfx len
      (s.tbl.rts.find? (fun e => decide (e.1 = rt ∧ e.2.1 = len ∧ e.2.2.1 = v))).map
        (fun e => { loc := .short rt len v, index := v * 2 ^ (16 - len), data := e.2.2.2 })
    else findPfx s p k false rt len (maskBits len pfx)
  | .dec len pfx =>
    if len ≤ 4 then
      let i := p * 11110 + decShortIdx len pfx
      (mfind s.tbl.dshort i).map (fun e => { loc := .dshort i, index := decShortIdx len pfx, data := e.2 })
    else findPfx s p k true p len (fit 16 (maskDigits len pfx))

/-- Entries a quota or an area's count bounds. -/
def tblUsed (s : State) (p : Nat) (k : TKey) : Nat :=
  match k with
  | .flow _ => (s.tbl.flow.filter (fun kv => decide (kv.2.part = p))).length
  | .l2 _ _ => (s.tbl.l2.filter (fun kv => decide (kv.2.part = p))).length
  | .bin _ _ _ => 0
  | .dec _ _ => (s.tbl.dpfx.filter (fun kv => decide (kv.2.own = p))).length +
      (s.tbl.povf.filter (fun kv => kv.2.dec && decide (kv.2.own = p))).length +
      (s.tbl.dshort.filter (fun kv => decide (kv.1 / 11110 = p))).length

/-- TBL_QUOTA of a key's table: 0 sets no limit (06 R127). -/
def tblQuota (s : State) (p : Nat) (k : TKey) : Nat :=
  match k with
  | .flow _ => fld s (0x50080 + 16 * p) 24 0
  | .l2 _ _ => fld s (0x50084 + 16 * p) 24 0
  | .bin _ _ _ => 0
  | .dec _ _ => fld s (0x50088 + 16 * p) 24 0

/-- Does the quota of the partition refuse one more entry (06 R127). -/
def overQuota (s : State) (p : Nat) (k : TKey) : Bool :=
  decide (tblQuota s p k ≠ 0) && decide (tblQuota s p k ≤ tblUsed s p k)

/-- Prefixes of an area, those in the overflow store included; the decimal area counts prefixes of 1 to 19 digits. -/
def areaUsed (s : State) (dec : Bool) : Nat :=
  (if dec then s.tbl.dpfx.length + s.tbl.dshort.length else s.tbl.pfx.length) + (s.tbl.povf.filter (fun kv => decide (kv.2.dec = dec))).length

/-- Has the area reached its prefix count (06 R116). -/
def areaFull (s : State) (dec : Bool) : Bool := decide ((if dec then 4194304 else 2097152) ≤ areaUsed s dec)

/-- The slot a new entry takes among its candidate buckets: the bucket with fewer entries, b1 among equals, and its
lowest free slot (06 R108). -/
def placeSlot {α : Type} (m : Map α) (b1 b2 : Nat) : Option Nat :=
  let n := fun b => (m.filter (fun kv => decide (kv.1 / 4 = b))).length
  let b := if n b1 ≤ n b2 then b1 else b2
  (lowest 4 (fun i => (mfind m (4 * b + i)).isNone)).map (4 * b + ·)

/-- Lowest free slot of an overflow store of `n` entries whose keys begin at `base`. -/
def ovfSlot {α : Type} (m : Map α) (base n : Nat) : Option Nat :=
  (lowest (min n (m.length + 1)) (fun i => (mfind m (base + i)).isNone)).map (base + ·)

/-- Prefixes of length `len` and above the short lengths that stand under a filter entry. -/
def filterLens (s : State) (dec : Bool) (own : Nat) (pfx : List Octet) : List Nat :=
  let m := (if dec then s.tbl.dpfx else s.tbl.pfx) ++ s.tbl.povf
  let under := fun (e : PfxEnt) => decide (e.dec = dec ∧ e.own = own ∧ e.pfx.take 2 = pfx.take 2)
  (List.range 129).filter (fun l => m.any (fun kv => under kv.2 && decide (kv.2.len = l)))

/-- BUDGET of TBL_LPM in force (06 R120). -/
def lpmBudget (s : State) : Nat := max 1 (min 8 (fld s 0x5000C 3 0))

/-- Would a prefix set a filter bit beyond the budget (06 R120). -/
def probeLimit (s : State) (dec : Bool) (own len : Nat) (pfx : List Octet) : Bool :=
  let ls := filterLens s dec own pfx
  !ls.contains len && decide (lpmBudget s ≤ ls.length)

/-- Insert a long prefix: status, view and state. -/
def insertPfx (s : State) (p : Nat) (k : TKey) (dec : Bool) (own len : Nat) (pfx data : List Octet) :
    Nat × Option TView × State :=
  let e : PfxEnt := { own := own, dec := dec, len := len, pfx := pfx, data := fit 12 data }
  if areaFull s dec then (0x52, none, s)
  else if probeLimit s dec own len pfx then (0x53, none, s)
  else
    let m := if dec then s.tbl.dpfx else s.tbl.pfx
    let (b1, b2) := k.buckets s p
    match placeSlot m b1 b2 with
    | some i =>
      let m := mput m i e
      (0, some { loc := if dec then .dpfx i else .pfx i, index := i, data := e.data },
        { s with tbl := if dec then { s.tbl with dpfx := m } else { s.tbl with pfx := m } })
    | none =>
      match ovfSlot s.tbl.povf 0 16384 with
      | some n => (0, some { loc := .povf n, index := ovfBase + n, data := e.data, ovf := true },
          { s with tbl := { s.tbl with povf := mput s.tbl.povf n e } })
      | none => (0x52, none, s)

/-- Insert an entry that is absent, with H = 1 and A = 0 (06 Table 06-8): status, the entry created and the state. -/
def tInsert (s : State) (p : Nat) (k : TKey) (data : List Octet) (static : Bool) : Nat × Option TView × State :=
  let (b1, b2) := k.buckets s p
  if overQuota s p k then (0x52, none, s)
  else match k with
    | .flow key =>
      let e : FlowEnt := { key := fit 40 key, part := p, data := fit 20 data, h := true, a := false, static := static }
      let slot := match placeSlot s.tbl.flow b1 b2 with
        | some i => some i
        | none => ovfSlot (s.tbl.flow.filter (fun kv => decide (ovfBase ≤ kv.1))) ovfBase 65536
      match slot with
      | some i => (0, some { loc := .flow i, index := i, data := e.data, ovf := decide (ovfBase ≤ i), static := static },
          { s with tbl := { s.tbl with flow := mput s.tbl.flow i e } })
      | none => (0x52, none, s)
    | .l2 vid mac =>
      match placeSlot s.tbl.l2 b1 b2 with
      | some i =>
        let e : L2Ent := { part := p, vid := vid, mac := mac, port := oct data 0 % 128, h := true, a := false,
                           static := static, hd := false, ltime := 0 }
        (0, some { loc := .l2 i, index := i, data := beOctets 1 e.port, static := static },
          { s with tbl := { s.tbl with l2 := mput s.tbl.l2 i e } })
      | none => (0x52, none, s)
    | .bin rt len pfx =>
      if len ≤ 16 then
        let v := bitsVal pfx len
        (0, some { loc := .short rt len v, index := v * 2 ^ (16 - len), data := fit 12 data },
          { s with tbl := { s.tbl with rts := s.tbl.rts ++ [(rt, len, v, fit 12 data)] } })
      else insertPfx s p k false rt len (maskBits len pfx) data
    | .dec len pfx =>
      if len ≤ 4 then
        if areaFull s true then (0x52, none, s) else
        let i := p * 11110 + decShortIdx len pfx
        (0, some { loc := .dshort i, index := decShortIdx len pfx, data := fit 12 data },
          { s with tbl := { s.tbl with dshort := mput s.tbl.dshort i (len, fit 12 data) } })
      else insertPfx s p k true p len (fit 16 (maskDigits len pfx)) data

/-- Change the data of a prefix entry of a map. -/
def setPfxData (m : Map PfxEnt) (i : Nat) (data : List Octet) : Map PfxEnt :=
  m.map (fun kv => if kv.1 = i then (kv.1, { kv.2 with data := fit 12 data }) else kv)

/-- Replace an entry's data and STATIC, with H := 1 and A := 0. -/
def tUpdate (s : State) (loc : TLoc) (data : List Octet) (static : Bool) : State :=
  { s with tbl := match loc with
    | .flow i => { s.tbl with flow := s.tbl.flow.map (fun kv =>
        if kv.1 = i then (kv.1, { kv.2 with data := fit 20 data, static := static, h := true, a := false }) else kv) }
    | .l2 i => { s.tbl with l2 := s.tbl.l2.map (fun kv =>
        if kv.1 = i then (kv.1, { kv.2 with port := oct data 0 % 128, static := static, h := true, a := false }) else kv) }
    | .pfx i => { s.tbl with pfx := setPfxData s.tbl.pfx i data }
    | .dpfx i => { s.tbl with dpfx := setPfxData s.tbl.dpfx i data }
    | .povf n => { s.tbl with povf := setPfxData s.tbl.povf n data }
    | .short rt len v => { s.tbl with rts := s.tbl.rts.map (fun e =>
        if e.1 = rt ∧ e.2.1 = len ∧ e.2.2.1 = v then (rt, len, v, fit 12 data) else e) }
    | .dshort i => { s.tbl with dshort := s.tbl.dshort.map (fun kv =>
        if kv.1 = i then (kv.1, (kv.2.1, fit 12 data)) else kv) } }

/-- Remove an entry. -/
def tRemove (s : State) (loc : TLoc) : State :=
  { s with tbl := match loc with
    | .flow i => { s.tbl with flow := mdel s.tbl.flow i }
    | .l2 i => { s.tbl with l2 := mdel s.tbl.l2 i }
    | .pfx i => { s.tbl with pfx := mdel s.tbl.pfx i }
    | .dpfx i => { s.tbl with dpfx := mdel s.tbl.dpfx i }
    | .povf n => { s.tbl with povf := mdel s.tbl.povf n }
    | .short rt len v => { s.tbl with rts := s.tbl.rts.filter (fun e => !decide (e.1 = rt ∧ e.2.1 = len ∧ e.2.2.1 = v)) }
    | .dshort i => { s.tbl with dshort := mdel s.tbl.dshort i } }

/-- Set H of a flow or L2 entry that a lookup hits. -/
def tTouch (s : State) (loc : TLoc) : State :=
  { s with tbl := match loc with
    | .flow i => { s.tbl with flow := s.tbl.flow.map (fun kv => if kv.1 = i then (kv.1, { kv.2 with h := true }) else kv) }
    | .l2 i => { s.tbl with l2 := s.tbl.l2.map (fun kv => if kv.1 = i then (kv.1, { kv.2 with h := true }) else kv) }
    | _ => s.tbl }

/-- What a longest-prefix lookup answers: the entry and its length, a miss, or poison (06 R119). -/
inductive Lpm where
  | hit (v : TView) (len : Nat)
  | miss
  | poison
  deriving DecidableEq, Repr

/-- Probe lengths in order. -/
def probeLens (s : State) (p : Nat) (mk : Nat → TKey) : List Nat → Lpm
  | [] => .miss
  | l :: ls =>
    if tblPoison s p (mk l) then .poison
    else match tFind s p (mk l) with
      | some v => .hit v l
      | none => probeLens s p mk ls

/-- Longest-prefix lookup of a full address in a route table: the short entry is read with the filter (06 R119). -/
def lpmBin (s : State) (p rt : Nat) (key : List Octet) : Lpm :=
  let w := if flag s (0x50040 + 4 * rt) 1 then 128 else 32
  let longs := ((filterLens s false rt (fit 16 key)).filter (fun l => decide (17 ≤ l ∧ l ≤ w))).reverse
  if devPoisoned s (hbmBase s (0x50050 + 4 * rt) + 16 * bitsVal key 16) 16 then .poison
  else match probeLens s p (fun l => .bin rt l key) longs with
  | .miss =>
    match (List.range 17).reverse.findSome? (fun l => (tFind s p (.bin rt l key)).map (fun v => (v, l))) with
      | some (v, l) => .hit v l
      | none => .miss
  | r => r

/-- Longest-prefix lookup of `n` digits for a partition. -/
def lpmDec (s : State) (p n : Nat) (key : List Octet) : Lpm :=
  let longs := ((filterLens s true p (fit 16 key)).filter (fun l => decide (5 ≤ l ∧ l ≤ n))).reverse
  match probeLens s p (fun l => .dec l key) longs with
  | .miss =>
    match [4, 3, 2, 1].find? (fun l => (tFind s p (.dec l key)).isSome) with
    | some l => probeLens s p (fun l => .dec l key) [l]
    | none => .miss
  | r => r

/-- Are the first `n` digits decimal. -/
def digitsOk (key : List Octet) (n : Nat) : Bool :=
  (List.range n).all (fun i => let o := oct key (i / 2)
                               decide ((if i % 2 = 0 then o / 16 else o % 16) ≤ 9))

/-- The key of a request block, or the status that refuses it (06 R126, Table 06-9). DEDUCED, log entry 44. -/
def blockKey (s : State) (blk : List Octet) : TKey ⊕ Nat :=
  let key := octs blk 4 40
  let len := oct blk 2
  let lpm := decide (oct blk 0 = 4) && bitOf (oct blk 3) 1
  match oct blk 1 with
  | 0 => .inl (.flow key)
  | 1 => .inl (.l2 (fieldBe blk 10 2 % 4096) (fieldBe blk 4 6))
  | 6 =>
    if len < (if lpm then 4 else 1) ∨ 19 < len ∨ !digitsOk key len then .inr 0x56 else .inl (.dec len (key.take 10))
  | t =>
    let rt := t - 2
    if (if flag s (0x50040 + 4 * rt) 1 then 128 else 32) < len then .inr 0x56 else .inl (.bin rt len (key.take 16))

/-- May a partition use the table a block names; a foreign route table is a violation (06 R126, Table 06-9). -/
def tableOk (s : State) (p agent tbl : Nat) : Bool × State :=
  match tbl with
  | 0 => (flag s 0x50000 0, s)
  | 1 => (flag s 0x50004 0, s)
  | 6 => (true, s)
  | t =>
    if 6 < t then (false, s)
    else
      let v := rdDev s (0x50040 + 4 * (t - 2))
      if !bitOf v 5 then (false, s)
      else if bitsOf v 4 2 ≠ p then (false, violate s p 6 agent (t - 2) 0)
      else (bitOf v 0, s)

/-- The result block (06 Table 06-7): `found` tells a match before any change, `old` its data. -/
def resultBlock (blk : List Octet) (status : Nat) (v : Option TView) (found : Bool) (matchLen : Nat) (old : List Octet) :
    List Octet :=
  let rf := match v with
    | some v => b2n found + 2 * b2n v.ovf + 4 * b2n v.static
    | none => 0
  beOctets 1 status ++ beOctets 1 rf ++ beOctets 1 matchLen ++ octs blk 3 1 ++
    beOctets 4 ((v.map (·.index)).getD 0) ++ octs blk 8 36 ++ fit 20 old

/-- Data octets of a block for a table. -/
def blockData (blk : List Octet) (k : TKey) : List Octet :=
  match k with
  | .flow _ => octs blk 44 20
  | .l2 _ _ => octs blk 44 1
  | _ => octs blk 44 12

/-- Length of a prefix key. -/
def TKey.len (k : TKey) : Nat :=
  match k with
  | .bin _ l _ => l
  | .dec l _ => l
  | _ => 0

/-- The entry of a key, else with LPM the longest match of a prefix key (06 Table 06-8, R119). -/
def tblSeek (s : State) (p : Nat) (lpm : Bool) (k : TKey) : Lpm :=
  if tblPoison s p k then .poison
  else match tFind s p k with
    | some v => .hit v k.len
    | none =>
      if lpm then match k with
        | .bin rt _ key => lpmBin s p rt key
        | .dec n key => lpmDec s p n key
        | _ => .miss
      else .miss

/-- A LOOKUP (06 Table 06-8). -/
def tblLookup (s : State) (p : Nat) (blk : List Octet) (k : TKey) : List Octet × State :=
  let fl := oct blk 3
  let s := tblCnt s p 1
  match tblSeek s p (bitOf fl 1) k with
  | .hit v l =>
    let s := tblCnt s p 2
    (resultBlock blk 0 (some v) true l v.data, if bitOf fl 0 then tTouch s v.loc else s)
  | .miss => (resultBlock blk 0x50 none false 0 [], s)
  | .poison => (resultBlock blk 0x58 none false 0 [], s)

/-- Every other operation on a key (06 Table 06-8). -/
def tblChange (s : State) (p : Nat) (blk : List Octet) (k : TKey) : List Octet × State :=
  if tblPoison s p k then (resultBlock blk 0x58 none false 0 [], s)
  else
    let op := oct blk 0
    let data := blockData blk k
    let static := bitOf (oct blk 3) 2
    match tFind s p k with
    | none =>
      if op = 1 ∨ op = 5 then
        let (st, v, s) := tInsert s p k data static
        (resultBlock blk st v false 0 [], s)
      else (resultBlock blk 0x50 none false 0 [], s)
    | some v =>
      let same := resultBlock blk
      match op with
      | 1 => (same 0x51 (some v) true k.len v.data, s)
      | 3 => (same 0 (some v) true k.len v.data, tRemove s v.loc)
      | 6 =>
        if v.data = data then (same 0 (some v) true k.len v.data, tRemove s v.loc)
        else (same 0x54 (some v) true k.len v.data, s)
      | _ =>
        let st := match k with
          | .flow _ => static
          | .l2 _ _ => static
          | _ => false
        (same 0 (some { v with static := st }) true k.len v.data, tUpdate s v.loc data static)

/-- A table command of a partition on a request block: the result block and the state (06 R125, R126).
DEDUCED, log entry 45. -/
def tblCommand (s : State) (p agent : Nat) (blk : List Octet) : List Octet × State :=
  let op := oct blk 0
  if op = 0 ∨ 6 < op then (resultBlock blk 0x57 none false 0 [], s)
  else
    let s := tblCnt s p 0
    let (ok, s) := tableOk s p agent (oct blk 1)
    if !ok then (resultBlock blk 0x55 none false 0 [], s)
    else match blockKey s blk with
      | .inr st => (resultBlock blk st none false 0 [], s)
      | .inl k => if op = 4 then tblLookup s p blk k else tblChange s p blk k

/-- The TBL helper of a thread on the block at window offset `off` (06 R125, R110). -/
def tblStart (t tag off : Nat) (blk : List Octet) (s : State) : State :=
  let (r, s) := tblCommand s (thrP s t) (thrAgent t) blk
  startTag s t tag { kind := .tbl, win := [(off, r)], fault := if oct r 0 = 0x58 then 2 else 0 }

/-- TBL. -/
def sylTbl (t : Thr) (g : Gd) (_rd ra _rb : BitVec 5) (md : BitVec 8) : Syl :=
  helperSyl t g false (tagOf md) .tbl (fun _ c => [⟨(rg c ra).toNat, 64, false⟩, ⟨(rg c ra).toNat, 64, true⟩])
    (fun c s => tblStart t.toNat (tagOf md) (rg c ra).toNat (c.winRead (rg c ra).toNat 64) s)

/-- TBL_EXEC (06 R125). -/
def tblExec (s : State) (c : CmdRef) (addr : Nat) (op : Option Nat) : State :=
  let p := c.part.toNat
  let blk := hostRead s p addr 64
  let blk := match op with
    | some o => beOctets 1 o ++ blk.drop 1
    | none => blk
  let (r, s) := tblCommand s p (hostAgent p) blk
  finish (hostWrite s p addr r) c 0x01 (oct r 0) 0 64

/-- The 64 octets of a partition's TBL_REQ: octet 0 in bits [31:24] of word 0 (06 Table 06-15). -/
def tblReq (s : State) (p : Nat) : List Octet := (List.range 16).flatMap (fun k => beOctets 4 (rdPart s p (0x80 + 4 * k)))

/-- Write the result block over TBL_REQ. -/
def setTblReq (s : State) (p : Nat) (l : List Octet) : State :=
  (List.range 16).foldl (fun s k => wrPart s p (0x80 + 4 * k) (fieldBe l (4 * k) 4)) s

/-- Run the command of a partition's TBL_REQ and clear BUSY. -/
def tblReqRun (s : State) (p : Nat) (op : Option Nat) : State :=
  let blk := tblReq s p
  let blk := match op with
    | some o => if s.tbl.busy.contains p then blk else beOctets 1 o ++ blk.drop 1
    | none => blk
  let (r, s) := tblCommand s p (hostAgent p) blk
  let s := setTblReq s p r
  { s with tbl := { s.tbl with busy := s.tbl.busy.filter (· ≠ p) } }

/-- A write of TBL_CTL with GO set (06 R127): ignored and counted while BUSY; a listed OP runs when its row comes, any
other completes at once. DESIGN CHOICE, log entry 47. -/
def tblGo (s : State) (p : Nat) : State :=
  if s.tbl.busy.contains p then tblCnt s p 8
  else
    let op := oct (tblReq s p) 0
    if op = 0 ∨ 6 < op then tblReqRun s p none else { s with tbl := { s.tbl with busy := s.tbl.busy ++ [p] } }

/-- A table command by whoever asks for it: by the TBL helper on a window block, by TBL_EXEC on a host block, or in
TBL_REQ. OP is the row's. -/
def tblRequest (s : State) (w : Issuer) (op blk : Nat) : State :=
  match w with
  | .host c => hostCmd s c 0x01 (fun s => tblExec s c blk (some op))
  | .thread t tag _ =>
    issueOne s t (helperSyl t 0 false tag.toNat .tbl (fun _ _ => [⟨blk, 64, false⟩, ⟨blk, 64, true⟩])
      (fun c s => tblStart t.toNat tag.toNat blk (beOctets 1 op ++ (c.winRead blk 64).drop 1) s))
  | .setup p => if inReset s p.toNat then s else tblReqRun s p.toNat (some op)
  | .internal _ => s

/-- A learn/age record (06 Table 06-11). -/
def laOctets (s : State) (kind table port oldPort index : Nat) (key data : List Octet) : List Octet :=
  beOctets 1 kind ++ beOctets 1 table ++ beOctets 1 port ++ beOctets 1 oldPort ++ beOctets 4 index ++
    beOctets 8 (tai s) ++ fit 40 key ++ fit 8 data

/-- Report on the flow table, when TBL_FLOW.REP is set. -/
def flowReport (s : State) (p kind index : Nat) (e : FlowEnt) : State :=
  if flag s 0x50000 18 then laRecord s p (laOctets s kind 0 0 0 index e.key (e.data.take 8)) else s

/-- Report on the L2 table, when TBL_L2.REP is set. -/
def l2Report (s : State) (p kind port oldPort index mac vid : Nat) : State :=
  if flag s 0x50004 18 then laRecord s p (laOctets s kind 1 port oldPort index (beOctets 6 mac ++ beOctets 2 vid) []) else s

/-- Low 48 bits of device time in µs. -/
def taiUs (s : State) : Nat := tai s / 1000 % 2 ^ 48

/-- Is the hold-down of an entry over (06 Table 06-4, R128). -/
def holdOver (s : State) (e : L2Ent) : Bool := decide (fld s 0x50008 15 0 ≤ (taiUs s + 2 ^ 48 - e.ltime) % 2 ^ 48)

/-- One learn at its serialisation point (06 Table 06-4). -/
def learnNow (s : State) (q : LearnReq) : State :=
  let k := TKey.l2 q.vid q.mac
  let (b1, b2) := k.buckets s q.part
  let set := fun (s : State) (i : Nat) (e : L2Ent) => { s with tbl := { s.tbl with l2 := mput s.tbl.l2 i e } }
  match findIn s.tbl.l2 b1 b2 none (fun e => decide (e.part = q.part ∧ e.vid = q.vid ∧ e.mac = q.mac)) with
  | none =>
    let slot := if overQuota s q.part k then none else placeSlot s.tbl.l2 b1 b2
    (match slot with
    | some i =>
      let e : L2Ent := { part := q.part, vid := q.vid, mac := q.mac, port := q.port, h := true, a := false,
                         static := false, hd := true, ltime := taiUs s }
      l2Report (tblCnt (set s i e) q.part 3) q.part 1 q.port 0 i q.mac q.vid
    | none => l2Report s q.part 5 q.port 0 0 q.mac q.vid)
  | some (i, e) =>
    if e.port = q.port then set s i { e with h := true }
    else if e.static || (e.hd && !holdOver s e) then
      l2Report (tblCnt s q.part 5) q.part 3 q.port e.port i q.mac q.vid
    else
      l2Report (tblCnt (set s i { e with port := q.port, h := true, a := false, hd := true, ltime := taiUs s }) q.part 4)
        q.part 2 q.port e.port i q.mac q.vid

/-- The head of the learn queue is served; learns of a partition in reset, or of a disabled table, are discarded
(06 R115, R129). -/
def learnOne (s : State) : State :=
  match s.tbl.learnQ with
  | [] => s
  | q :: rest =>
    let s := { s with tbl := { s.tbl with learnQ := rest } }
    if inReset s q.part || !flag s 0x50004 0 then s else learnNow s q

/-- One entry of the flow table at a visit (06 R128). -/
def sweepFlow (s : State) (i : Nat) : State :=
  match mfind s.tbl.flow i with
  | none => s
  | some e =>
    let put := fun e => { s with tbl := { s.tbl with flow := mput s.tbl.flow i e } }
    if e.static || bitOf (oct e.data 0) 7 then s
    else if e.h then put { e with h := false, a := false }
    else if !e.a then put { e with a := true }
    else flowReport { s with tbl := { s.tbl with flow := mdel s.tbl.flow i } } e.part 4 i e

/-- One entry of the L2 table at a visit. -/
def sweepL2 (s : State) (i : Nat) : State :=
  match mfind s.tbl.l2 i with
  | none => s
  | some e =>
    let e := if e.hd && holdOver s e then { e with hd := false } else e
    let put := fun e => { s with tbl := { s.tbl with l2 := mput s.tbl.l2 i e } }
    if e.static then put e
    else if e.h then put { e with h := false, a := false }
    else if !e.a then put { e with a := true }
    else l2Report { s with tbl := { s.tbl with l2 := mdel s.tbl.l2 i } } e.part 4 0 e.port i e.mac e.vid

/-- Visits of a sweep: every bucket, and for the flow table every overflow entry. -/
def sweepVisits (s : State) (l2 : Bool) : Nat := if l2 then l2NB s else flowNB s + 65536

/-- SWEEP of a table in ns; 0 stops its sweeper. -/
def sweepTime (s : State) (l2 : Bool) : Nat :=
  1000000000 * min 3600 (fld s (if l2 then 0x50004 else 0x50000) 17 6)

/-- The number of the bucket that a sweeper's visit comes to, flow overflow entry `n` as 2^22 + n. -/
def sweepNumber (s : State) (l2 : Bool) (k : Nat) : Nat := if l2 ∨ k < flowNB s then k else 2 ^ 22 + (k - flowNB s)

/-- The next visit of a sweeper, and when it is due: the visits of a period are spread evenly over it (06 R128). -/
def sweepNext (s : State) (l2 : Bool) : Nat × Nat :=
  let k := mget 0 s.tbl.sweepPos (b2n l2)
  (k, mget 0 s.tbl.sweepAt (b2n l2) + sweepTime s l2 * k / sweepVisits s l2)

/-- The sweeper goes on to its next visit; after the last a new period begins. -/
def sweepOn (s : State) (l2 : Bool) : State :=
  let k := mget 0 s.tbl.sweepPos (b2n l2) + 1
  let done := decide (sweepVisits s l2 ≤ k)
  { s with tbl := { s.tbl with
      sweepPos := mset 0 s.tbl.sweepPos (b2n l2) (if done then 0 else k),
      sweepAt := if done then mset 0 s.tbl.sweepAt (b2n l2) (mget 0 s.tbl.sweepAt (b2n l2) + sweepTime s l2)
                 else s.tbl.sweepAt } }

/-- A write of SWEEP or LOG2NB begins a new sweep. DESIGN CHOICE, log entry 45. -/
def sweepRestart (s : State) (l2 : Bool) : State :=
  { s with tbl := { s.tbl with sweepPos := mdel s.tbl.sweepPos (b2n l2), sweepAt := mset 0 s.tbl.sweepAt (b2n l2) s.now } }

/-- A visit of a sweeper, to the bucket or flow overflow entry it comes to next, when that is due (06 R128). -/
def sweeperVisit (s : State) (l2 : Bool) (b : Nat) : State :=
  let (k, due) := sweepNext s l2
  if sweepTime s l2 = 0 ∨ s.now < due ∨ b ≠ sweepNumber s l2 k then s
  else
    let s := sweepOn s l2
    let four := fun (f : State → Nat → State) => (List.range 4).foldl (fun s j => f s (4 * b + j)) s
    if l2 then four sweepL2 else if b < 2 ^ 22 then four sweepFlow else sweepFlow s (ovfBase + (b - 2 ^ 22))

/-- TBL_EXEC. -/
def execTblExec (c : CmdRef) (addr : BitVec 64) (s : State) : Host.Outcome State Fault Refusal :=
  .next (hostCmd s c 0x01 (fun s => tblExec s c addr.toNat none))

/-- OP 0x01. -/
def execInsertEntry (w : Issuer) (blk : BitVec 64) (s : State) : Host.Outcome State Fault Refusal :=
  .next (tblRequest s w 1 blk.toNat)

/-- OP 0x02. -/
def execUpdateEntry (w : Issuer) (blk : BitVec 64) (s : State) : Host.Outcome State Fault Refusal :=
  .next (tblRequest s w 2 blk.toNat)

/-- OP 0x03. -/
def execDeleteEntry (w : Issuer) (blk : BitVec 64) (s : State) : Host.Outcome State Fault Refusal :=
  .next (tblRequest s w 3 blk.toNat)

/-- OP 0x04. -/
def execLookupEntry (w : Issuer) (blk : BitVec 64) (s : State) : Host.Outcome State Fault Refusal :=
  .next (tblRequest s w 4 blk.toNat)

/-- OP 0x05. -/
def execInsertOrUpdate (w : Issuer) (blk : BitVec 64) (s : State) : Host.Outcome State Fault Refusal :=
  .next (tblRequest s w 5 blk.toNat)

/-- OP 0x06. -/
def execDeleteIfData (w : Issuer) (blk : BitVec 64) (s : State) : Host.Outcome State Fault Refusal :=
  .next (tblRequest s w 6 blk.toNat)

/-- LEARN. -/
def execLearn (s : State) : Host.Outcome State Fault Refusal := .next (learnOne s)

/-- SWEEPER_VISIT. -/
def execSweeperVisit (l2 : Bool) (bucket : BitVec 32) (s : State) : Host.Outcome State Fault Refusal :=
  .next (sweeperVisit s l2 bucket.toNat)

end Sys2Proof.Machine
end

