-- ==== Sys2Proof/Machine/Classify.lean ====
section
/-! DEFINITION. The classifier (06 R122-R124): its lookups, the action word, the classification result, and the task
it hands to the Halter (07 R134). -/

namespace Sys2Proof.Machine

/-- Agent ID of the classifier (17 Table 17-1). -/
def classifierAgent : Nat := 0x8005

/-- Word `w` of TBL_CLS of a parse class (06 Table 06-13). -/
def clsWord (s : State) (c w : Nat) : Nat := rdDev s (0x51000 + 32 * c + 4 * w)

/-- The flow key of a profile: four extents from the parse record (06 R122). -/
def flowKey (s : State) (c : Nat) (rec : List Octet) : List Octet :=
  (List.range 4).foldl (fun key i =>
    let v := clsWord s c (1 + i)
    if !bitOf v 24 then key
    else
      let l := octs (fit 64 rec) (bitsOf v 5 0) (bitsOf v 9 6 + 1)
      let l := match l with
        | a :: r => (a &&& BitVec.ofNat 8 (bitsOf v 23 16)) :: r
        | [] => []
      overlay key (bitsOf v 15 10) l) (zeros 40)

/-- The octets an item's lookups see: the frame, or the header octets of the segment that completed a message, and the
payload from PAYOFF on. -/
def itemFrame (s : State) (it : Item) : List Octet := if it.kind = 1 then it.hdr else devRead s it.buf it.len

/-- Payload of an item from its PAYOFF on: at most its PAYLEN (05 R96). -/
def itemPayload (s : State) (it : Item) : List Octet :=
  if it.kind = 1 then devRead s it.buf it.len else (devRead s it.buf it.len).drop (fieldBe it.precd 20 2)

/-- Outermost VLAN ID, 0 when untagged. -/
def outerVid (d : List Octet) : Nat := if 0 < tagCount d then fieldBe d 14 2 % 4096 else 0

/-- What a flow lookup answers. -/
inductive FlowRes where
  | off
  | hit (v : TView)
  | miss
  | poison
  deriving DecidableEq, Repr

/-- Flow lookup of a class for a partition, with its effect on H and the counters. -/
def flowLookup (s : State) (p c : Nat) (rec : List Octet) : FlowRes × State :=
  if !bitOf (clsWord s c 0) 1 then (.off, s)
  else if !flag s 0x50000 0 then (.miss, s)
  else
    let k := TKey.flow (flowKey s c rec)
    let s := tblCnt s p 1
    if tblPoison s p k then (.poison, s)
    else match tFind s p k with
      | some v => (.hit v, tTouch (tblCnt s p 2) v.loc)
      | none => (.miss, s)

/-- Flow learn of FMISS = 10: the key with zero data (06 R123). -/
def flowLearn (s : State) (p c : Nat) (rec : List Octet) : Bool × State :=
  if bitsOf (clsWord s c 0) 3 2 ≠ 2 ∨ !flag s 0x50000 0 then (false, s)
  else
    let key := flowKey s c rec
    let (st, v, s) := tInsert s p (.flow key) (zeros 20) false
    if st ≠ 0 then (false, s)
    else match v.bind (fun v => mfind s.tbl.flow v.index) with
      | some e => (true, flowReport s p 6 ((v.map (·.index)).getD 0) e)
      | none => (true, s)

/-- L2 destination lookup: the port, a miss, or poison. -/
def l2Lookup (s : State) (p : Nat) (d : List Octet) : Option (Option TView) × State :=
  if !flag s 0x50004 0 then (some none, s)
  else
    let k := TKey.l2 (outerVid d) (fieldBe d 0 6)
    let s := tblCnt s p 1
    if tblPoison s p k then (none, s)
    else match tFind s p k with
      | some v => (some (some v), tTouch (tblCnt s p 2) v.loc)
      | none => (some none, s)

/-- Post the learn of R115, which a partition held in reset discards (06 Table 06-10), or count it as dropped when the queue of 4,096 is full. -/
def postLearn (s : State) (p port : Nat) (d : List Octet) : State :=
  if oct d 6 % 2 = 1 || inReset s p then s
  else if 4096 ≤ s.tbl.learnQ.length then tblCnt s p 6
  else { s with tbl := { s.tbl with learnQ := s.tbl.learnQ ++ [⟨p, outerVid d, fieldBe d 6 6, port⟩] } }

/-- Route lookup of the destination address in route table `rt`, made when the family agrees (06 R122). -/
def routeLookup (s : State) (p rt : Nat) (rec d : List Octet) : Lpm × State :=
  let v := rdDev s (0x50040 + 4 * rt)
  let fl := fieldBe rec 2 2
  let l3 := fieldBe rec 16 2
  let v6 := bitOf v 1
  if !bitOf fl (if v6 then 1 else 0) ∨ !bitOf v 0 ∨ !bitOf v 5 ∨ bitsOf v 4 2 ≠ p then (.miss, s)
  else
    let key := if v6 then octs d (l3 + 24) 16 else fit 16 (octs d (l3 + 16) 4)
    let s := tblCnt s p 1
    match lpmBin s p rt key with
    | .hit e l => (.hit e l, tblCnt s p 2)
    | r => (r, s)

/-- Value of an ASCII digit. -/
def asciiDigit (o : Octet) : Option Nat := if 0x30 ≤ o.toNat ∧ o.toNat ≤ 0x39 then some (o.toNat - 0x30) else none

/-- The card number of a payload as packed digits with its count, none when it has no 4 to 19 digits (06 R122).
DEDUCED, log entry 48. -/
def cardNumber (w5 : Nat) (pay : List Octet) (payLen : Nat) : Option (Nat × List Octet) :=
  let off := bitsOf w5 8 0
  let nd := bitsOf w5 14 10
  let n := if nd ≠ 0 then some nd
    else if off < 2 then none
    else match asciiDigit (pay.getD (off - 2) 0), asciiDigit (pay.getD (off - 1) 0) with
      | some a, some b => some (10 * a + b)
      | _, _ => none
  match n with
  | none => none
  | some n =>
    let size := if bitOf w5 9 then (n + 1) / 2 else n
    if n < 4 ∨ 19 < n ∨ payLen < off + size ∨ pay.length < off + size then none
    else if bitOf w5 9 then
      let l := maskDigits n (octs pay off 10)
      if digitsOk l n then some (n, l) else none
    else
      let ds := (octs pay off n).map asciiDigit
      if ds.all (·.isSome) then
        let v := fun i => ((ds.getD i none).getD 0)
        some (n, (List.range 10).map (fun i => BitVec.ofNat 8 (16 * v (2 * i) + v (2 * i + 1))))
      else none

/-- Decimal lookup of the card number. -/
def decLookup (s : State) (p c : Nat) (rec pay : List Octet) : Lpm × State :=
  match cardNumber (clsWord s c 5) pay (fieldBe rec 22 2) with
  | none => (.miss, s)
  | some (n, key) =>
    let s := tblCnt s p 1
    match lpmDec s p n key with
    | .hit e l => (.hit e l, tblCnt s p 2)
    | r => (r, s)

/-- A longest match's view and length. -/
def Lpm.found (r : Lpm) : Option (TView × Nat) :=
  match r with
  | .hit v l => some (v, l)
  | _ => none

/-- Where a classification ends: at the Halter, on the slow path with a reason (06 R122, R123), or dropped for the Bolt of
its partition before the lookups (05 Table 05-6). -/
inductive ClsEnd where
  | task (it : Item)
  | bolted (it : Item)
  | divert (it : Item) (reason : Nat) (part : Option Nat)

/-- The classification result of Table 08-6. -/
def clsOctets (act8 sd flow dec rt : List Octet) (l2 : Option TView) (rtLen decLen : Nat) : List Octet :=
  fit 8 act8 ++ fit 8 sd ++ fit 20 flow ++ fit 12 dec ++ fit 12 rt ++
    beOctets 1 (match l2 with
      | some v => oct v.data 0 % 128 + 128
      | none => 0) ++ beOctets 1 rtLen ++ beOctets 1 decLen ++ zeros 1

/-- The classification word of Table 07-7. -/
def clsWordG5 (audit entry count : Nat) (preempt flow l2 rt dec hit multi learn : Bool) : W36 :=
  BitVec.ofNat 36 (audit + b2n flow * 2 ^ 8 + b2n l2 * 2 ^ 9 + b2n rt * 2 ^ 10 + b2n dec * 2 ^ 11 + b2n hit * 2 ^ 12 +
    b2n multi * 2 ^ 13 + b2n learn * 2 ^ 14 + entry * 2 ^ 16 + b2n preempt * 2 ^ 32 + count * 2 ^ 33)

/-- Journal class of an item that Bolt drops before the search that would give it: the class it has, else that of the
profile's default action where a search miss uses it. DESIGN CHOICE, log entry 49. -/
def boltedClass (s : State) (c : Nat) (it : Item) : Nat :=
  if it.audit ≠ 0 then it.audit else if bitOf (clsWord s c 0) 18 then bitsOf (clsWord s c 7) 23 16 else 0

/-- Classify an item (06 R122, R123). DEDUCED, log entry 49. -/
def classifyItem (s : State) (it : Item) : ClsEnd × State :=
  let c := oct it.precd 0
  let w0 := clsWord s c 0
  let chosen := if it.kind = 0 then none else some it.part
  let k := bitsOf w0 17 10
  match (if 127 < c ∨ !bitOf w0 0 ∨ !bitOf (profWord s k 0) 0 then none else profOwner s k) with
  | none => (.divert it 0x10 chosen, s)
  | some p =>
    let it := { it with part := p }
    if inBolt s p then (.bolted { it with audit := boltedClass s c it }, s)
    else
    let d := itemFrame s it
    let pay := itemPayload s it
    let (fr, s) := flowLookup s p c it.precd
    let poisoned : ClsEnd := .divert it 0x11 (some p)
    match fr with
    | .poison => (poisoned, s)
    | _ =>
      let fv := match fr with
        | .hit v => some v
        | _ => none
      let (learned, s) := match fr with
        | .miss => flowLearn s p c it.precd
        | _ => (false, s)
      let it := { it with flow := (fv.map (·.index)).getD 0x1FFFFFF }
      let (l2r, s) := if bitOf w0 4 then l2Lookup s p d else (some none, s)
      let s := if bitOf w0 5 then postLearn s p it.port d else s
      match l2r with
      | none => (poisoned, s)
      | some l2 =>
        let (rr, s) := if bitOf w0 6 then routeLookup s p (bitsOf w0 8 7) it.precd d else (.miss, s)
        match rr with
        | .poison => (poisoned, s)
        | _ =>
          let (dr, s) := if bitOf w0 9 then decLookup s p c it.precd pay else (.miss, s)
          match dr with
          | .poison => (poisoned, s)
          | _ =>
            let fdata := (fv.map (·.data)).getD (zeros 20)
            let (rec, bad, s) := runSearch s p classifierAgent k (buildKey s k it.precd fdata pay)
            let sf := oct rec 1
            let hit := bitOf sf 0
            if bad then (poisoned, s)
            else if !hit && !bitOf w0 18 then (.divert it 0x10 (some p), s)
            else
              let act8 := if hit then octs rec 16 8 else beOctets 4 (clsWord s c 6) ++ beOctets 4 (clsWord s c 7)
              let act := beNat act8
              let sd := if hit then octs rec 24 8 else zeros 8
              let audit := bitsOf act 23 16
              let entry := bitsOf act 39 24
              let clso := fieldBe fdata 4 4
              let ovr := fv.isSome && bitOf clso 31
              let it := { it with
                audit := audit, entry := entry, preempt := bitOf act 62,
                dom := if it.kind = 0 then (if ovr then bitsOf clso 27 16 else bitsOf act 59 48) else it.dom,
                prio := if ovr then bitsOf clso 15 12 else bitsOf act 47 44,
                arg := clsWordG5 audit entry (bitsOf sf 4 2) (bitOf act 62) fv.isSome l2.isSome rr.found.isSome
                  dr.found.isSome hit (bitOf sf 1) learned,
                cls := clsOctets act8 sd fdata ((dr.found.map (·.1.data)).getD []) ((rr.found.map (·.1.data)).getD [])
                  l2 ((rr.found.map (·.2)).getD 0) ((dr.found.map (·.2)).getD 0) }
              let flowMiss : Bool := match fr with
                | .miss => decide (bitsOf w0 3 2 = 1)
                | _ => false
              if flowMiss || bitOf act 63 then (.divert it 0x10 (some p), s) else (.task it, s)

/-- Agent that owns the buffer of an item on its way to the Halter. -/
def itemAgent (it : Item) : Nat := if it.kind = 1 then framerAgent else portAgent it.port

/-- A classified task reaches the Halter: the issue queue of 512, or the hold list behind it (07 R134). An
order domain of another partition counts as a violation (01 R17). -/
def toHalter (s : State) (it : Item) : State :=
  let it := { it with arr := s.seq }
  let s := { s with seq := s.seq + 1 }
  let s := foreignIf s it.part classifierAgent it.dom (decide (it.dom < 4096) && (domOwner s it.dom).isSome &&
    decide (domOwner s it.dom ≠ some it.part))
  let q := mget [] s.hlt.issueQ it.part
  let h := mget [] s.hlt.holdQ it.part
  let s := unstall s it.part
  if h = [] ∧ q.length < 512 then { s with hlt := { s.hlt with issueQ := mset [] s.hlt.issueQ it.part (q ++ [it]) } }
  else schCnt { s with hlt := { s.hlt with holdQ := mset [] s.hlt.holdQ it.part (h ++ [it]) } } it.part 7

/-- What the classifier does with a task; none while the journal cannot take the record of its disposition (13 R291).
The partition it is for comes with it. -/
def classifyOne (s : State) (it : Item) : Option Nat × Option State :=
  match classifyItem s it with
  | (.divert it reason part, s) =>
    (part.orElse (fun _ => defaultPart s it.port),
      if slowHolds s it part then none else some (slowPath s it (itemAgent it) reason part []))
  | (.bolted it, s) =>
    (some it.part, if audited s it.audit && jnlFull s then none else some (noServiceDrop s it (itemAgent it) 0))
  | (.task it, s) =>
    (some it.part,
      if noService s it.part then
        (if audited s it.audit && jnlFull s then none else some (noServiceDrop s it (itemAgent it) 0))
      else some (toHalter s it))

/-- The oldest task that may be classified: one that waits for the journal holds back its own partition's, and no other's
(01 R18). `before` has waited, for the partitions `held`. -/
def classifyFirst (s0 : State) : List PreTask → List PreTask → List (Option Nat) → State
  | [], _, _ => s0
  | x :: rest, before, held =>
    match classifyOne { s0 with par := { s0.par with toClassify := before ++ rest } } x.item with
    | (p, some s) => if held.contains p then classifyFirst s0 rest (before ++ [x]) held else s
    | (p, none) => classifyFirst s0 rest (before ++ [x]) (p :: held)

/-- The classifier takes its oldest task that need not wait. -/
def classifyNow (s : State) : State := classifyFirst s s.par.toClassify [] []

/-- CLASSIFY. -/
def execClassify (s : State) : Host.Outcome State Fault Refusal := .next (raisedDoubts (classifyNow (noDoubts s)))

end Sys2Proof.Machine
end

