-- ==== Sys2Proof/Machine/Framer.lean ====
section
/-! DEFINITION. The stream framer (04 R65-R87): segment cases, framing rules, TLS records, acknowledgments, and the
framer's commands. -/

namespace Sys2Proof.Machine

/-- What the framing rule says of a message from its first octets (04 R68, Table 04-2). -/
inductive MsgNeed where
  | unknown
  | total (n : Nat)
  | error
  deriving DecidableEq, Repr

/-- MAXMSG of a service in force. -/
def maxMsg (s : State) (v : Nat) : Nat :=
  let m := bitsOf (svcWord s v 1) 14 0
  if m = 0 ∨ 16384 < m then 16384 else m

/-- A computed total that is below 1 or above MAXMSG is a framing error. -/
def needOf (mx : Nat) (total : Int) : MsgNeed := if total < 1 ∨ (mx : Int) < total then .error else .total total.toNat

/-- Length of the message that begins at `l` under service `v`. -/
def frameNeed (s : State) (v : Nat) (l : List Octet) : MsgNeed :=
  let w0 := svcWord s v 0
  let hoff := bitsOf w0 12 5
  let adj := signedOf 14 (bitsOf w0 26 13)
  let mx := maxMsg s v
  let value := fun n => if bitOf w0 3 then leNat (octs l hoff n) else fieldBe l hoff n
  match svcRule s v with
  | 1 => if l.length < hoff + 2 then .unknown else needOf mx (((hoff + 2 + value 2 : Nat) : Int) + adj)
  | 2 => if l.length < hoff + 4 then .unknown else needOf mx (((hoff + 4 + value 4 : Nat) : Int) + adj)
  | 3 =>
    if l.length < hoff + 4 then .unknown
    else
      let ds := (octs l hoff 4).map asciiDigit
      if ds.all (·.isSome) then needOf mx (((hoff + 4 + ds.foldl (fun n d => n * 10 + d.getD 0) 0 : Nat) : Int) + adj) else .error
  | 4 => needOf mx (bitsOf (svcWord s v 2) 14 0)
  | _ =>
    match (l.take mx).findIdx? (fun o => decide (o.toNat = bitsOf (svcWord s v 1) 22 15)) with
    | some i => .total (i + 1)
    | none => if mx ≤ l.length then .error else .unknown

/-- A message cut: where it began in the octets framed, its buffer and its octets. -/
structure CutMsg where
  at_ : Nat
  buf : Nat
  octets : List Octet

/-- Where framing a run of octets ends: messages cut, what is left in assembly, whether a rule failed or the pool was
empty. -/
structure CutEnd where
  st : State
  asm : Option Nat
  rest : List Octet
  at_ : Nat := 0
  need : Nat := 0
  msgs : List CutMsg := []
  failed : Bool := false
  empty : Bool := false

/-- An assembly buffer: the one in use or a new one from the service's pool (04 R70). Whatever the pool answers in place of a
buffer (that it is disabled, say) counts as EMPTY: DESIGN CHOICE, log entry 39. -/
def asmBuffer (s : State) (v : Nat) (asm : Option Nat) : Option Nat × State :=
  match asm with
  | some a => (some a, s)
  | none =>
    let (st, a, s) := bufAlloc s framerAgent (bitsOf (svcWord s v 1) 29 24) false false
    (if st = 0 then some a else none, s)

/-- Cut the messages of a run of octets in stream order (04 R71). -/
def cutLoop (v : Nat) : Nat → State → Option Nat → Nat → List Octet → List CutMsg → CutEnd
  | 0, s, asm, k, l, ms => { st := s, asm := asm, rest := l, at_ := k, msgs := ms }
  | fuel + 1, s, asm, k, l, ms =>
    if l = [] then { st := s, asm := asm, rest := [], at_ := k, msgs := ms }
    else
      let n := frameNeed s v l
      let (b, s) := asmBuffer s v asm
      match b with
      | none => { st := s, asm := none, rest := l, at_ := k, msgs := ms, empty := true }
      | some a =>
        match n with
        | .error => { st := s, asm := some a, rest := l, at_ := k, msgs := ms, failed := true }
        | .unknown => { st := devWrite s a l, asm := some a, rest := l, at_ := k, msgs := ms }
        | .total n =>
          if n ≤ l.length then
            let m := l.take n
            cutLoop v fuel (devWrite s a m) none (k + n) (l.drop n) (ms ++ [⟨k, a, m⟩])
          else { st := devWrite s a l, asm := some a, rest := l, at_ := k, need := n, msgs := ms }

/-- A segment as the framer sees it. -/
structure Segmt where
  item : Item
  frame : List Octet
  seq : BitVec 32
  ack : BitVec 32
  flags : Nat
  win : Nat
  pay : List Octet
  stix : Nat
  dir : Nat

/-- The segment of a parsed frame whose flow entry's framing word is `fw` (04 R65). -/
def segmtOf (it : Item) (d : List Octet) (fw : Nat) : Segmt :=
  let l4 := fieldBe it.precd 18 2
  { item := { it with hdr := d.take (fieldBe it.precd 20 2), stix := fw % 2 ^ 22, dir := bitsOf fw 30 30 }, frame := d,
    seq := BitVec.ofNat 32 (fieldBe d (l4 + 4) 4), ack := BitVec.ofNat 32 (fieldBe d (l4 + 8) 4),
    flags := oct d (l4 + 13), win := fieldBe d (l4 + 14) 2, pay := octs d (fieldBe it.precd 20 2) (fieldBe it.precd 22 2),
    stix := fw % 2 ^ 22, dir := bitsOf fw 30 30 }

/-- The audit class that classification gives a segment: what its records carry (DEDUCED, log entry 23). -/
def segClass (s : State) (it : Item) : Nat :=
  match (classifyItem s { it with kind := 0 }).1 with
  | .task x => x.audit
  | .bolted x => x.audit
  | .divert x _ _ => x.audit

/-- Divert a segment to the slow path of its connection's partition (04 R69, R73). -/
def segDivert (s : State) (g : Segmt) (reason : Nat) (aux : List Octet) : State :=
  let it := { g.item with audit := segClass s g.item }
  slowPath (stfCnt s it.part 3 1) it (portAgent it.port) reason (some it.part) aux

/-- Set STATE of a connection, with the reason and direction that marked it (04 R73). -/
def markState (s : State) (i st reason dir : Nat) : State :=
  setConn s i { conn s i with state := st, slowRsn := reason, slowDir := dir }

/-- Mark a connection slow and divert the segment. -/
def segSlow (s : State) (g : Segmt) (reason : Nat) (aux : List Octet) : State :=
  segDivert (markState s g.stix 2 reason g.dir) g reason aux

/-- Retire the records of direction `f` that an acknowledgment `a` covers, and clear DISP when it reaches the oldest
(04 R83). -/
def retire (s : State) (i f : Nat) (a : BitVec 32) : State :=
  let c := conn s i
  let mine := fun (x : Rewrite) => decide (x.dir = f)
  let gone := c.rws.filter (fun x => mine x && seqGe a x.newEnd)
  let reached := match (c.rws.filter mine).getLast? with
    | some x => seqGe a x.newStart
    | none => false
  let c := { c with rws := c.rws.filter (fun x => !(mine x && seqGe a x.newEnd)) }
  let s := setConn s i (c.setDir f { c.dir f with disp := (c.dir f).disp && !reached })
  gone.foldl dropRewrite s

/-- Take in the acknowledgment and window of a segment: whether RACK advanced (04 R69, R84). -/
def takeAck (s : State) (g : Segmt) : Bool × State :=
  let c := conn s g.stix
  let x := c.dir g.dir
  let a := translateAck c g.dir g.ack
  let s := setConn s g.stix (c.setDir g.dir { x with rack := a, rwin := g.win })
  (seqGe a x.rack && decide (a ≠ x.rack), retire s g.stix (1 - g.dir) g.ack)

/-- Hand an item to classification. -/
def toClassifier (s : State) (it : Item) : State :=
  { s with par := { s.par with toClassify := s.par.toClassify ++ [⟨it⟩] } }

/-- An ACK task with the segment's frame (04 R72). -/
def ackTask (s : State) (g : Segmt) : State :=
  let s := stfCnt s g.item.part 6 1
  toClassifier s { g.item with kind := 2, dom := ((conn s g.stix).dir g.dir).odom }

/-- The parse record of a message: PAYOFF 0 and PAYLEN its length (04 R71). -/
def msgRecord (rec : List Octet) (n : Nat) : List Octet := overlay (overlay (fit 64 rec) 20 (zeros 2)) 22 (beOctets 2 n)

/-- Hand a message to classification (04 R71): its original span is `oseq`, `olen`. It carries the Hobble mark of every
segment it came in (02 R44). -/
def cutMessage (s : State) (g : Segmt) (m : CutMsg) (oseq : BitVec 32) (olen : Nat) : State :=
  let x := (conn s g.stix).dir g.dir
  let s := setStfDir (stfCnt s g.item.part 1 1) g.stix g.dir { x with hobbled := g.item.hobble }
  toClassifier s { g.item with
    hobble := x.hobbled,
    kind := 1, buf := m.buf, len := m.octets.length, precd := msgRecord g.item.precd m.octets.length, digest := m.octets,
    digAt := s.now + digestTime m.octets.length,
    dom := x.odom, oseq := oseq, olen := olen }

/-- The end of an accepted segment: its frame buffer is done with, or becomes an ACK task when no message was cut and the
acknowledgment advanced (04 R72). -/
def segEnd (s : State) (g : Segmt) (cut advanced : Bool) : State :=
  let s := stfCnt (stfCnt s g.item.part 0 1) g.item.part 2 g.pay.length
  if !cut && advanced then ackTask s g else endUse s (portAgent g.item.port) g.item.buf

/-- The assembly a failed message leaves: the octets that earlier segments brought of it (04 R73). -/
def keepAsm (s : State) (x : StfDir) (asm : Option Nat) (kept : List Octet) : StfDir × State :=
  match asm with
  | some a =>
    if kept = [] then ({ x with asm := none, asmLen := 0, need := 0 }, endUse s framerAgent a)
    else ({ x with asm := some a, asmLen := kept.length }, devWrite s a kept)
  | none => ({ x with asm := none, asmLen := 0, need := 0 }, s)

/-- A segment that Hobble changed marks the message in assembly (02 R44). -/
def markHobbled (s : State) (g : Segmt) : State :=
  if g.item.hobble then updStfDir s g.stix g.dir (fun x => { x with hobbled := true }) else s

/-- An accepted segment of a direction without TLS (04 R70, R71, R73); `s0` is the state a segment that the empty pool
discards goes back to. -/
def acceptPlain (s0 : State) (g : Segmt) (advanced : Bool) : State :=
  let discard := endUse (stfCnt s0 g.item.part 4 1) (portAgent g.item.port) g.item.buf
  let s0 := markHobbled s0 g
  let c := conn s0 g.stix
  let x := c.dir g.dir
  let old := asmOctets s0 x
  let base := g.seq - BitVec.ofNat 32 old.length
  let l := old ++ g.pay
  let e := cutLoop c.service (l.length + 1) s0 x.asm 0 l []
  if e.empty then discard
  else
    let s := e.msgs.foldl (fun s m => cutMessage s g m (base + BitVec.ofNat 32 m.at_) m.octets.length) e.st
    if e.failed then
      let x := { x with hobbled := ((conn s g.stix).dir g.dir).hobbled }
      let (x, s) := keepAsm s x e.asm (old.drop e.at_)
      let used := e.at_ - old.length
      let s := setStfDir s g.stix g.dir { x with expSeq := g.seq + BitVec.ofNat 32 used }
      segSlow s g 0x29 []
    else
      let s := setStfDir s g.stix g.dir { x with
        expSeq := g.seq + BitVec.ofNat 32 g.pay.length, asm := e.asm, asmLen := e.rest.length, need := e.need,
        hobbled := ((conn s g.stix).dir g.dir).hobbled && !e.rest.isEmpty }
      segEnd s g (!e.msgs.isEmpty) advanced

/-- Where the TLS layer of a segment stands: the octets of the segment still to process, and whether it cut a message.
`mark` is where the record in progress, or the part of it in this segment, began. -/
structure TlsRun where
  st : State
  left : List Octet
  used : Nat := 0
  mark : Nat := 0
  markHdr : List Octet := []
  cut : Bool := false

/-- How processing a TLS segment ends. -/
inductive TlsEnd where
  | fine (r : TlsRun)
  | badRecord (r : TlsRun) (aux : List Octet)
  | framing (r : TlsRun)
  | auth (r : TlsRun)
  | empty

/-- The inner plaintext without its zero padding: content and content type (04 R77). -/
def innerOf (m : List Octet) : List Octet × Nat :=
  let r := m.reverse.dropWhile (· = 0)
  match r with
  | t :: c => (c.reverse, t.toNat)
  | [] => ([], 0)

/-- The end of a record (04 R77, R78): the tag is checked, then the plaintext is framed. -/
def tlsRecordEnd (g : Segmt) (r : TlsRun) : TlsEnd :=
  let s := r.st
  let c := conn s g.stix
  let x := c.dir g.dir
  let ct := x.recCt.take (x.recCt.length - 16)
  let tag := x.recCt.drop (x.recCt.length - 16)
  let done := { x with inRec := false, recLeft := 0, recCt := [], recHdr := [], recPt := 0, ghash := [] }
  match mfind s.cry.keys x.rxKey with
  | none => .auth { r with st := setStfDir s g.stix g.dir done }
  | some k =>
    let n := tlsNonce k.iv x.rxSeq
    if gcmTag k.mat n (recHeader x.recCt.length) ct ≠ tag then .auth { r with st := setStfDir s g.stix g.dir done }
    else
      let m := gcmCrypt k.mat n ct
      let (body, ty) := innerOf m
      let x := { done with rxSeq := x.rxSeq + 1 }
      let recEnd := g.seq + BitVec.ofNat 32 r.used
      if ty ≠ 23 then .badRecord { r with st := setStfDir s g.stix g.dir x, mark := r.used } m
      else
        let old := asmOctets s x
        let l := old ++ body
        let e := cutLoop c.service (l.length + 1) s x.asm 0 l []
        if e.empty then .empty
        else
          let (span, s) := e.msgs.foldl (fun (acc : BitVec 32 × State) m =>
            (recEnd, cutMessage acc.2 g m acc.1 (recEnd - acc.1).toNat)) (x.spanStart, setStfDir e.st g.stix g.dir x)
          let x := { x with spanStart := span, hobbled := ((conn s g.stix).dir g.dir).hobbled }
          let cut := r.cut || !e.msgs.isEmpty
          if e.failed then
            let (x, s) := keepAsm s x e.asm (old.drop e.at_)
            .framing { r with st := setStfDir s g.stix g.dir x, mark := r.used, cut := cut }
          else
            let x := { x with asm := e.asm, asmLen := e.rest.length, need := e.need }
            .fine { r with st := setStfDir s g.stix g.dir x, mark := r.used, markHdr := [], cut := cut }

/-- Decryption streams: the plaintext of the record in progress stands in the assembly buffer after the current message, as
far as a message may reach; RECPT counts it and GHASH holds the running state (04 R77). DESIGN CHOICE, log entry 39. -/
def recStream (s : State) (g : Segmt) (x : StfDir) (a : Nat) : State :=
  let x := { x with recPt := (recCipher x).length, ghash := recGhash s x }
  let s := devWrite s (a + x.asmLen) ((recPlain s x).take (maxMsg s (conn s g.stix).service - x.asmLen))
  setStfDir s g.stix g.dir x

/-- Take the octets of a segment through record headers and records (04 R77). -/
def tlsLoop (g : Segmt) : Nat → TlsRun → TlsEnd
  | 0, r => .fine r
  | fuel + 1, r =>
    let s := r.st
    let x := (conn s g.stix).dir g.dir
    if r.left = [] then .fine r
    else if x.inRec then
      let n := min x.recLeft r.left.length
      match asmBuffer s (conn s g.stix).service x.asm with
      | (none, _) => .empty
      | (some a, s) =>
      let x := { x with asm := some a, recCt := x.recCt ++ r.left.take n, recLeft := x.recLeft - n }
      let r := { r with st := recStream s g x a, left := r.left.drop n, used := r.used + n }
      if x.recLeft = 0 then
        match tlsRecordEnd g r with
        | .fine r => tlsLoop g fuel r
        | e => e
      else .fine r
    else
      let n := min (5 - x.recHdr.length) r.left.length
      let h := x.recHdr ++ r.left.take n
      if h.length < 5 then
        .fine { r with st := setStfDir s g.stix g.dir { x with recHdr := h }, left := r.left.drop n, used := r.used + n }
      else
        let len := fieldBe h 3 2
        if oct h 0 ≠ 23 ∨ fieldBe h 1 2 ≠ 0x0303 ∨ len < 17 ∨ 16640 < len then .badRecord r []
        else
          let x := { x with recHdr := h, inRec := true, recLeft := len, recCt := [] }
          let x := { x with ghash := recGhash s x }
          tlsLoop g fuel { r with st := setStfDir s g.stix g.dir x, left := r.left.drop n, used := r.used + n }

/-- EXPSEQ := the first octet of the segment not consumed. -/
def expAt (s : State) (g : Segmt) (n : Nat) : State :=
  setStfDir s g.stix g.dir { (conn s g.stix).dir g.dir with expSeq := g.seq + BitVec.ofNat 32 n }

/-- An accepted segment of a TLS direction (04 R77, R78). -/
def acceptTls (s0 : State) (g : Segmt) (advanced : Bool) : State :=
  let discard := endUse (stfCnt s0 g.item.part 4 1) (portAgent g.item.port) g.item.buf
  let s0 := markHobbled s0 g
  let c := conn s0 g.stix
  let x := c.dir g.dir
  match asmBuffer s0 c.service x.asm with
  | (none, _) => discard
  | (some a, s) =>
    let s := setStfDir s g.stix g.dir { x with asm := some a, asmLen := if x.asm.isSome then x.asmLen else 0 }
    match tlsLoop g (2 * g.pay.length + 2) { st := s, left := g.pay } with
    | .empty => discard
    | .fine r => segEnd (expAt r.st g g.pay.length) g r.cut advanced
    | .badRecord r aux => segSlow (expAt r.st g r.mark) g 0x27 aux
    | .framing r => segSlow (expAt r.st g r.mark) g 0x29 []
    | .auth r => segDivert (markState (expAt r.st g r.mark) g.stix 3 0x28 g.dir) g 0x28 []

/-- The rewrite record whose span a retransmission equals (04 R85). -/
def answerOf (c : Conn) (g : Segmt) : Option Rewrite :=
  c.rws.find? (fun x => decide (x.dir = g.dir ∧ x.oseq = g.seq ∧ x.olen = g.pay.length))

/-- Answer a retransmission from a rewrite record (04 R85): the answer holds its own share on the buffer. -/
def answer (s : State) (g : Segmt) (r : Rewrite) : State :=
  let c := conn s g.stix
  let x := c.dir g.dir
  let it := { g.item with audit := segClass s g.item }
  let l := if r.buf = nullPtr then [] else devRead s r.buf r.nlen
  let s := stfCnt s it.part 5 1
  let s := jnlItem s it 0x0A x.eq 0xFFFFFFFFF false 0 (some l)
  let s := if l = [] then s
    else queueSegments (shareInt s r.buf) x.eq (segHdrOf it) { octets := l, buf := r.buf, kind := 4 } r.newStart x.rack
      x.mss true it
  endUse s (portAgent it.port) it.buf

/-- A segment of a fast connection: the first matching row of Table 04-3. -/
def fastSegment (s : State) (g : Segmt) : State :=
  let c := conn s g.stix
  let x := c.dir g.dir
  let len := g.pay.length
  if g.flags % 8 ≠ 0 then segSlow s g 0x22 []
  else if bitOf g.flags 5 then segSlow s g 0x23 []
  else
    let (advanced, s) := takeAck s g
    if len = 0 then ackTask s g
    else if len = 1 ∧ g.seq = x.expSeq ∧ (c.dir (1 - g.dir)).rwin = 0 then segSlow s g 0x24 []
    else if g.seq = x.expSeq then (if c.tls then acceptTls s g advanced else acceptPlain s g advanced)
    else if seqGe x.expSeq (g.seq + BitVec.ofNat 32 len) then
      match (if c.tls then none else answerOf c g) with
      | some r => answer s g r
      | none => segDivert s g 0x26 []
    else if seqGe g.seq x.expSeq then segSlow s g 0x20 []
    else segSlow s g 0x21 []

/-- A segment of a framed connection (04 R69, R86). -/
def framedSegment (s : State) (g : Segmt) : State :=
  let c := conn s g.stix
  let p := g.item.part
  if noService s p then noServiceDrop s { g.item with audit := segClass s g.item } (portAgent g.item.port) 0
  else if !flag s 0x40000 0 ∨ fld s 0x40000 22 1 < g.stix then segDivert s g 0x25 []
  else if devPoisoned s (stateAddr s g.stix) 256 then
    segDivert (markState s g.stix 3 0x11 g.dir) g 0x11 []
  else if c.state ≠ 1 ∨ c.part ≠ p then segDivert s g 0x25 []
  else fastSegment s g

/-- The framing word of a parsed frame's flow entry, with its index, when the entry is framed (04 R65): the lookup that
the class's profile makes. -/
def framedEntry (s : State) (rec : List Octet) : Option (Nat × TView) :=
  let c := oct rec 0
  let w0 := clsWord s c 0
  let k := bitsOf w0 17 10
  if 127 < c ∨ !bitOf w0 0 ∨ !bitOf w0 1 ∨ !bitOf (profWord s k 0) 0 ∨ !flag s 0x50000 0 ∨ !bitOf (fieldBe rec 2 2) 2 then
    none
  else match profOwner s k with
    | none => none
    | some p =>
      let key := TKey.flow (flowKey s c rec)
      if tblPoison s p key then none
      else match tFind s p key with
        | some v => if bitOf (oct v.data 0) 7 then some (p, v) else none
        | none => none

/-- What the framer does with a parsed frame: a segment of a framed connection, or a frame for classification as one task
(04 R65). None while the journal cannot take a record of it (13 R291). -/
def frameOne (s : State) (x : Parsed) : Option State :=
  let it := parsedItem s x.frame x.precd
  match framedEntry s x.precd with
  | none => some (toClassifier s it)
  | some (p, v) =>
    let it := { it with part := p, flow := v.index }
    let g := segmtOf it (rxOctets s x.frame) (fieldBe v.data 0 4)
    if jnlFull s && audited s (segClass s g.item) then none else some (framedSegment (tTouch s v.loc) g)

/-- The framer takes the oldest parsed frame that need not wait: a segment that waits for the journal holds back the
segments of its own partition, and no other's (01 R18). `before` has waited, for the partitions `held`. -/
def framingFirst (s0 : State) : List Parsed → List Parsed → List Nat → State
  | [], _, _ => s0
  | x :: rest, before, held =>
    let s := { s0 with par := { s0.par with parsed := before ++ rest } }
    match (framedEntry s x.precd).map (·.1) with
    | some p =>
      if held.contains p then framingFirst s0 rest (before ++ [x]) held
      else match frameOne s x with
        | some s => s
        | none => framingFirst s0 rest (before ++ [x]) (p :: held)
    | none => (frameOne s x).getD s0

/-- The framer takes its next frame. -/
def segmentFraming (s : State) : State := framingFirst s s.par.parsed [] []

/-- SEGMENT_FRAMING. -/
def execSegmentFraming (s : State) : Host.Outcome State Fault Refusal := .next (raisedDoubts (segmentFraming (noDoubts s)))

end Sys2Proof.Machine
end

