-- ==== Sys2Proof/Machine/Hbm.lean ====
section
/-! DEFINITION. The HBM memory controller (15): reads and their errors, parity errors, refresh, temperature, training,
idle states, and the retirement of ranks. -/

namespace Sys2Proof.Machine

/-- Add to HBM_CNT (15 Table 15-8). -/
def hbmCnt (s : State) (k n : Nat) : State := cntAdd s (0xD8100 + 8 * k) n

/-- Channel of an HBM address (15 R322). -/
def hbmChannel (a : Nat) : Nat := bitsOf a 11 8
/-- SID of an HBM address, before substitution. -/
def hbmSid (a : Nat) : Nat := bitsOf a 33 33

/-- A request wakes its channel and restarts the idle counts (15 R331). DEDUCED, log entry 84. -/
def hbmRequest (s : State) (ch : Nat) : State :=
  { s with hbm := { s.hbm with lastReq := s.now, pdown := s.hbm.pdown.filter (· ≠ ch) } }

/-- Offset of HBM_CECNT of the rank of an address. -/
def ceOff (a : Nat) : Nat := 0xD8080 + 8 * hbmChannel a + 4 * hbmSid a

/-- Count a correctable error of the rank of an address (15 R324). -/
def hbmCorrect (s : State) (a : Nat) : State :=
  hbmCnt (wrDev s (ceOff a) (min 65535 (rdDev s (ceOff a) + 1))) 0 1

/-- Has a channel a spare rank: SID 2 unused, or a quiesced rank made spare again (15 R332, 16 Table 16-7). -/
def hasSpareRank (s : State) (ch : Nat) : Bool :=
  s.hbm.regained.contains ch || !s.hbm.retired.any (fun x => decide (x.1 = ch))

/-- Is a rank being migrated or queued for it. -/
def rankMigrating (s : State) (ch sid : Nat) : Bool :=
  (s.hbm.migr.toList ++ s.hbm.migQ).any (fun m => decide (m.ch = ch ∧ m.sid = sid))

/-- Does a running or queued migration claim the spare of a channel. -/
def spareClaimed (s : State) (ch : Nat) : Bool := (s.hbm.migr.toList ++ s.hbm.migQ).any (fun m => decide (m.ch = ch))

/-- Resource word of an HBM rank (16 R352). -/
def rankWord (ch sid : Nat) : Nat := 5 * 2 ^ 24 + ch * 4 + sid

/-- Start a migration, or queue it behind the one that runs (15 R333). -/
def startMigration (s : State) (m : Migration) : State :=
  if s.hbm.migr.isSome then { s with hbm := { s.hbm with migQ := s.hbm.migQ ++ [m] } }
  else sendEvent { s with hbm := { s.hbm with migr := some m } } 0x25 (rankWord m.ch m.sid) (zeros 4 ++ beOctets 1 1)

/-- Retire the rank that addresses of SID `sid` reach (15 R332-R334): one whose channel cannot carry it is retirement
exhaustion; one that migrates already goes on. -/
def retireRank (s : State) (ch sid why : Nat) : State :=
  if rankMigrating s ch sid then s
  else if 2 ≤ sid ∨ !hasSpareRank s ch ∨ spareClaimed s ch then doubt s 0x0F none 0
  else startMigration s { ch := ch, sid := sid, why := why }

/-- Record the last uncorrectable half (15 Table 15-8). -/
def ueLog (s : State) (a : Nat) (command patrol : Bool) : State :=
  let w := a / 32 * 32
  wrDev (wrDev s 0xD8010 (w % 2 ^ 32)) 0xD8014 (w / 2 ^ 32 % 16 + 16 * b2n command + 32 * b2n patrol)

/-- An uncorrectable half: poisoned, logged, and its rank retires (15 R325, R327). -/
def hbmUncorrectable (s : State) (a : Nat) (patrol : Bool) : State :=
  retireRank (hbmCnt (ueLog (poisonHalf s a) a false patrol) 1 1) (hbmChannel a) (hbmSid a) 3

/-- A read of a unit completes (15 R323-R325): `found` is what the check bits of the half at `a` report. A poisoned
half reads as poison whatever they do. -/
def hbmReadUnit (s : State) (a : Nat) (found : MemError) (patrol : Bool) : State :=
  let s := hbmRequest s (hbmChannel a)
  let s := { s with hbm := { s.hbm with parity := mdel s.hbm.parity (hbmChannel a) } }
  if devPoisoned s (a / 32 * 32) 32 then hbmCnt s 2 1
  else match found with
    | .clean => s
    | .correctable => hbmCorrect s a
    | .uncorrectable => hbmUncorrectable s a patrol

/-- A request that meets the stack in self-refresh is held until exit (15 R331). -/
def hbmHold (s : State) : State := { s with hbm := { s.hbm with heldReq := true } }

/-- HBM_READ. -/
def hbmRead (s : State) (a : Nat) (found : MemError) : State :=
  if s.hbm.selfRef then hbmHold s else hbmReadUnit s a found false

/-- A read of a packet SRAM half completes (12 R414): a corrected error counts against its row, an uncorrectable one
poisons the half. -/
def sramRead (s : State) (a : Nat) (found : MemError) : State :=
  let n := (a - 0x800000000) / 256
  match found with
  | .clean => s
  | .correctable => { s with far := { s.far with sramCe := mset 0 s.far.sramCe n (mget 0 s.far.sramCe n + 1) } }
  | .uncorrectable => poisonHalf s a

/-- The tag of a packet SRAM buffer, held on die, fails correction (12 R250): the next operation on the buffer finds it. -/
def tagRead (s : State) (a : Nat) (found : MemError) : State :=
  if found = .uncorrectable then { s with buf := { s.buf with badTags := a :: s.buf.badTags.filter (· ≠ a) } } else s

/-- HBM_READ, which stands for a read of packet SRAM (12 R414) and of an on-die tag (12 R250) as well: those have no row.
DESIGN CHOICE, log entry 112. -/
def memRead (s : State) (a : Nat) (found : MemFind) : State :=
  if isSram a then (if found.tag then tagRead s a found.err else sramRead s a found.err)
  else if isHbm a then hbmRead s a found.err
  else s

/-- A patrol read; SCRUB 0 stops them (15 R324). -/
def patrolScrub (s : State) (a : Nat) (found : MemError) : State :=
  if fld s 0xD8000 30 26 = 0 then s else if s.hbm.selfRef then hbmHold s else hbmReadUnit s a found true

/-- Redundant lanes left in a channel. -/
def lanesLeft (s : State) (ch : Nat) : Nat := Config.hbmLanes ch % 16 - mget 0 s.hbm.lanes ch

/-- A full retrain of a channel repairs its failed lanes; one lane too many is retirement exhaustion (15 R330).
DEDUCED, log entry 86. -/
def fullRetrain (s : State) (ch bad : Nat) : State :=
  let left := lanesLeft s ch
  let s := hbmCnt s 5 1
  let s := { s with hbm := { s.hbm with lanes := mset 0 s.hbm.lanes ch (mget 0 s.hbm.lanes ch + min bad left) } }
  if left < bad then doubt s 0x0F none 0 else s

/-- MTHR in force. -/
def driftLimit (s : State) : Nat := max 1 (min 63 (fld s 0xD8008 7 0))

/-- A retraining step of a pseudo-channel, steps at least 10 us apart (15 R330). -/
def retrainStep (s : State) (pch drift : Nat) : State :=
  if s.hbm.selfRef ∨ (0 < s.hbm.lastStep ∧ s.now < s.hbm.lastStep + 10000) then s
  else
    let s := { s with hbm := { s.hbm with lastStep := s.now } }
    if driftLimit s < drift then fullRetrain s (pch / 2) 0 else s

/-- A command/address parity error of the command at `a` (15 R326): the first is reissued; the second starts a full
retrain, after which the command succeeds (`retrainOk`) or is an uncorrectable command error of its rank. -/
def caParityError (s : State) (ch a : Nat) (retrainOk : Bool) : State :=
  if mfind s.hbm.parity ch ≠ some a then
    hbmCnt { s with hbm := { s.hbm with parity := mput s.hbm.parity ch a } } 3 1
  else
    let s := { s with hbm := { s.hbm with parity := mdel s.hbm.parity ch } }
    let s := fullRetrain s ch 0
    if retrainOk then s else retireRank (hbmCnt (ueLog s a true false) 1 1) (hbmChannel a) (hbmSid a) 3

/-- Postponement limit L (15 R328). -/
def refreshLimit (s : State) : Nat := if s.hbm.doubled then 4 else 8

/-- REFRESH of a pseudo-channel: when it is idle, or at the limit (15 R328). -/
def refreshNow (s : State) (pch : Nat) (idle : Bool) : State :=
  let n := mget 0 s.hbm.owed pch
  if s.hbm.selfRef ∨ n = 0 ∨ !(idle || decide (refreshLimit s ≤ n)) then s
  else { s with hbm := { s.hbm with
      owed := mset 0 s.hbm.owed pch (n - 1), pdown := s.hbm.pdown.filter (· ≠ pch / 2) } }

/-- tREFI falls: every pseudo-channel owes one more, never past L, and a rate that waits for it applies
(15 R328, R329). -/
def refiTick (s : State) : State :=
  if s.now < s.hbm.refiAt then s
  else
    let s := if s.hbm.normalAtNext then { s with hbm := { s.hbm with doubled := false, normalAtNext := false } } else s
    let s := alertUpdate s
    let next := s.now + (if s.hbm.doubled then 1950 else 3900)
    if s.hbm.selfRef then { s with hbm := { s.hbm with refiAt := next } }
    else
      let l := refreshLimit s
      { s with hbm := { s.hbm with
          owed := (List.range 32).foldl (fun m k => mset 0 m k (min l (mget 0 m k + 1))) s.hbm.owed, refiAt := next } }

/-- A reading of the stack temperature (15 R329, R335). -/
def temperatureReading (s : State) (deg : Nat) : State :=
  let s := { s with hbm := { s.hbm with temp := deg } }
  let s :=
    if 85 ≤ deg ∧ !s.hbm.doubled then
      let s := if s.hbm.owed = [] then s else hbmCnt s 4 1
      { s with hbm := { s.hbm with owed := [], doubled := true, normalAtNext := false, refiAt := s.now + 1950 } }
    else if deg < 82 ∧ s.hbm.doubled then { s with hbm := { s.hbm with normalAtNext := true } }
    else s
  let s := alertUpdate s
  if 95 ≤ deg then doubt { s with hbm := { s.hbm with migr := none, migQ := [] } } 0x0A none 0 else s

/-- POWER_DOWN_ENTRY of a channel: idle for PDIDLE and no refresh due (15 R331). -/
def powerDown (s : State) (ch : Nat) : State :=
  let idle := fld s 0xD8000 15 8
  if idle = 0 ∨ s.hbm.selfRef ∨ s.hbm.pdown.contains ch ∨ s.now < s.hbm.lastReq + 100 * idle ∨
      0 < mget 0 s.hbm.owed (2 * ch) + mget 0 s.hbm.owed (2 * ch + 1) then s
  else { s with hbm := { s.hbm with pdown := s.hbm.pdown ++ [ch] } }

/-- SRIDLE in ns: 0 disables self-refresh; values above 1,000 act as 1,000. -/
def selfRefreshIdle (s : State) : Nat := 1000000 * min 1000 (fld s 0xD8000 25 16)

/-- SELF_REFRESH_ENTRY: owed refreshes are issued, then the stack enters self-refresh (15 R331, R333).
DEDUCED, log entry 85. -/
def selfRefreshEntry (s : State) : State :=
  let idle := selfRefreshIdle s
  if idle = 0 ∨ s.hbm.selfRef ∨ s.hbm.migr.isSome ∨ s.now < s.hbm.lastReq + idle then s
  else hbmCnt { s with hbm := { s.hbm with owed := [], pdown := [], selfRef := true, heldReq := false } } 6 1

/-- SELF_REFRESH_EXIT: a held request wakes the stack (15 R331). -/
def selfRefreshExit (s : State) : State :=
  if s.hbm.selfRef && s.hbm.heldReq then
    { s with hbm := { s.hbm with selfRef := false, heldReq := false, lastReq := s.now } }
  else s

/-- RANK_RETIREMENT for wear (15 R332). -/
def rankRetirement (s : State) (ch sid : Nat) : State := retireRank s ch sid 1

/-- Units of 64 octets of a rank. -/
def rankUnits : Nat := 2 ^ 23

/-- Address of unit `n` of a rank in ascending order (15 R322). -/
def unitAddr (ch sid n : Nat) : Nat :=
  n % 4 * 64 + ch * 256 + bitsOf n 2 2 * 4096 + n / 8 * 8192 + sid * 2 ^ 33

/-- One unit of the running migration is copied (15 Table 15-3): errors found are counted, an uncorrectable half is
written poisoned; the migration goes on. -/
def migrationCopy (s : State) (found : MemError) : State :=
  match s.hbm.migr with
  | none => s
  | some m =>
    if s.hbm.selfRef ∨ rankUnits ≤ m.next then s
    else
      let a := unitAddr m.ch m.sid m.next
      let s := hbmReadUnit s a found false
      { s with hbm := { s.hbm with migr := s.hbm.migr.map (fun x => { x with next := m.next + 1 }) } }

/-- Start the next queued migration. -/
def nextMigration (s : State) : State :=
  match s.hbm.migQ with
  | [] => s
  | m :: rest => startMigration { s with hbm := { s.hbm with migQ := rest } } m

/-- Set RET0 or RET1 of a channel. -/
def markRetired (s : State) (ch sid : Nat) : State :=
  { s with hbm := { s.hbm with
      retired := if s.hbm.retired.contains (ch, sid) then s.hbm.retired else s.hbm.retired ++ [(ch, sid)],
      regained := s.hbm.regained.filter (· ≠ ch) } }

/-- The channel's map switches to the spare (15 Table 15-3); a FAR_QUIESCE that asked for it completes, its rank
quiesced. -/
def rankSwitchover (s : State) : State :=
  match s.hbm.migr with
  | none => s
  | some m =>
    if m.next < rankUnits then s
    else
      let w := rankWord m.ch m.sid
      let s := markRetired { s with hbm := { s.hbm with migr := none } } m.ch m.sid
      let s := sendEvent s 0x23 w (zeros 5)
      let s := if m.why = 0 then s else sendEvent s 0x24 w (zeros 4 ++ beOctets 1 m.why)
      let s := sendEvent s 0x25 w (zeros 4 ++ beOctets 1 2)
      let mine := fun (x : Waiting) => decide (x.what = .quiesce m.ch m.sid)
      let cs := s.gpl.waiting.filter mine
      let s := { s with gpl := { s.gpl with waiting := s.gpl.waiting.filter (fun x => !mine x) } }
      let s := if m.why = 0 then { s with hbm := { s.hbm with quiesced := s.hbm.quiesced ++ [(m.ch * 4 + m.sid, false)] } } else s
      nextMigration (cs.foldl (fun s x => finish s x.cmd 0xC9 0 0 0) s)

/-- HBM_READ. -/
def execHbmRead (addr : BitVec 36) (found : MemFind) (s : State) : Host.Outcome State Fault Refusal :=
  .next (memRead s addr.toNat found)

/-- REFRESH. -/
def execRefresh (pch : BitVec 5) (idle : Bool) (s : State) : Host.Outcome State Fault Refusal :=
  .next (refreshNow s pch.toNat idle)

/-- TEMPERATURE_READING. -/
def execTemperatureReading (deg : BitVec 8) (s : State) : Host.Outcome State Fault Refusal :=
  .next (temperatureReading s deg.toNat)

/-- CA_PARITY_ERROR. -/
def execCaParityError (ch : BitVec 4) (addr : BitVec 34) (retrainOk : Bool) (s : State) :
    Host.Outcome State Fault Refusal := .next (caParityError s ch.toNat addr.toNat retrainOk)

/-- RETRAIN_STEP. -/
def execRetrainStep (pch : BitVec 5) (drift : BitVec 8) (s : State) : Host.Outcome State Fault Refusal :=
  .next (retrainStep s pch.toNat drift.toNat)

/-- FULL_RETRAIN. -/
def execFullRetrain (ch : BitVec 4) (badLanes : BitVec 8) (s : State) : Host.Outcome State Fault Refusal :=
  .next (fullRetrain s ch.toNat badLanes.toNat)

/-- POWER_DOWN_ENTRY. -/
def execPowerDownEntry (ch : BitVec 4) (s : State) : Host.Outcome State Fault Refusal := .next (powerDown s ch.toNat)

/-- SELF_REFRESH_ENTRY. -/
def execSelfRefreshEntry (s : State) : Host.Outcome State Fault Refusal := .next (selfRefreshEntry s)

/-- SELF_REFRESH_EXIT. -/
def execSelfRefreshExit (s : State) : Host.Outcome State Fault Refusal := .next (selfRefreshExit s)

/-- PATROL_SCRUB. -/
def execPatrolScrub (addr : BitVec 34) (found : MemError) (s : State) : Host.Outcome State Fault Refusal :=
  .next (patrolScrub s addr.toNat found)

/-- RANK_RETIREMENT. -/
def execRankRetirement (ch : BitVec 4) (sid : BitVec 2) (s : State) : Host.Outcome State Fault Refusal :=
  if 3 ≤ sid.toNat then .fault .noSuchUnit else .next (rankRetirement s ch.toNat sid.toNat)

/-- MIGRATION_UNIT_COPY. -/
def execMigrationUnitCopy (found : MemError) (s : State) : Host.Outcome State Fault Refusal :=
  .next (migrationCopy s found)

/-- RANK_SWITCHOVER. -/
def execRankSwitchover (s : State) : Host.Outcome State Fault Refusal := .next (rankSwitchover s)

end Sys2Proof.Machine
end

