-- ==== Sys2Proof/Machine/Farrier.lean ====
section
/-! DEFINITION. The Farrier and supply monitoring (16 R346-R353, R357; 05 R106; 18 R375): core swaps, BIST, spares, wear
sensors, self-tests, and Rein. -/

namespace Sys2Proof.Machine

/-- The physical spare of a cluster, when it has one that has passed BIST. -/
def spareOf (s : State) (c : Nat) : Option Nat := mget (some (c * 9 + 8)) s.far.spare c

/-- Set the spare of a cluster. -/
def setSpare (s : State) (c : Nat) (x : Option Nat) : State :=
  { s with far := { s.far with spare := mset (some (c * 9 + 8)) s.far.spare c x } }

/-- The core of a cluster that is under BIST. -/
def bistOf (s : State) (c : Nat) : Option Nat := mfind s.far.bist c

/-- Clusters with a spare core, one under BIST counted (16 R351). -/
def coreSpares (s : State) : Nat :=
  ((List.range 16).filter (fun c => (spareOf s c).isSome || (bistOf s c).isSome)).length

/-- Spare rows left in a packet SRAM group. -/
def rowSpares (s : State) (g : Nat) : Nat := 2 - mget 0 s.far.sramRows g

/-- The least of `n` and the values of a map taken from `top`. -/
def leastLeft (top : Nat) (m : Map Nat) : Nat := m.foldl (fun n kv => min n (top - kv.2)) top

/-- FAR_STAT (16 Table 16-16). -/
def farStat (s : State) : Nat :=
  coreSpares s + ((List.range 16).filter (hasSpareRank s)).length * 2 ^ 5 + s.src.spares * 2 ^ 10 +
    b2n s.cry.symRetired.isEmpty * 2 ^ 13 + (2 - s.cry.pkRetired.length) * 2 ^ 14 +
    leastLeft 2 s.far.sramRows * 2 ^ 16 + leastLeft 2 s.far.phases * 2 ^ 18 + b2n s.far.clkGens.isEmpty * 2 ^ 20

/-- A spare is consumed: event 0x23 (16 Table 16-9). -/
def spareTold (s : State) (res left : Nat) : State := sendEvent s 0x23 res (zeros 4 ++ beOctets 1 left)

/-- A resource is retired: event 0x24. -/
def retireTold (s : State) (res why : Nat) : State := sendEvent s 0x24 res (zeros 4 ++ beOctets 1 why)

/-- Does Rein keep the Farrier from starting anything (16 R347). -/
def inRein (s : State) : Bool := s.hkc.rein.isSome

/-- Move logical core `l` to its cluster's spare `x`; the freed core is retired for wear, or goes to BIST
(16 R350, R351). A micro-store doubt of the core is cleared (16 Table 16-1). -/
def swapCore (s : State) (l x : Nat) (retire : Bool) : State :=
  let c := l / 8
  let old := physOf s l
  let s := setSpare { s with far := { s.far with phys := mset (c * 9 + l % 8) s.far.phys l x } } c none
  let s := farCnt s 0 1
  let s := match clusterOwner s c with
    | some p => doubtGone s p (fun d => decide (d.code = 0x02 ∧ d.res = l))
    | none => s
  if retire then
    retireTold (spareTold { s with far := { s.far with retiredCores := s.far.retiredCores ++ [old] } } (2 ^ 24 + l) 0)
      (2 ^ 24 + l) 1
  else { s with far := { s.far with bist := mput s.far.bist c old } }

/-- Does a swap that drains, or a live microcode load, hold a cluster: they go one at a time (16 Table 16-12). -/
def clusterHeld (s : State) (c : Nat) : Bool :=
  s.far.draining.any (fun x => decide (x.1 / 8 = c)) ||
    (match s.far.load with
      | some x => decide (mget 0 x.done c < 8)
      | none => false)

/-- The BIST of a freed core ends (16 R351). -/
def bistComplete (s : State) (c : Nat) (pass : Bool) : State :=
  match bistOf s c with
  | none => s
  | some x =>
    let s := { s with far := { s.far with bist := mdel s.far.bist c } }
    if pass then farCnt (setSpare s c (some x)) 1 1
    else retireTold (farCnt { s with far := { s.far with retiredCores := s.far.retiredCores ++ [x] } } 2 1) (2 ^ 24 + c * 8) 2

/-- A test of a resource ends: the result is 0, or the failing step (16 R352). -/
def testEnd (s : State) (c : CmdRef) (failStep : Nat) : State := finish (farCnt s 3 1) c 0xC8 0 failStep 0

/-- A drained core moves to the spare `x`, and what asked for the swap goes on: a command completes, a test runs on the
freed core (16 R350-R353). -/
def swapNow (s : State) (l x : Nat) (why : SwapWhy) : State :=
  let s := swapCore (coreStop s l) l x (decide (why = .worn))
  match why with
  | .worn => s
  | .rotate => s
  | .command c => finish s c 0xCA 0 0 0
  | .test c failStep => testEnd (bistComplete s (l / 8) (decide (failStep = 0))) c failStep

/-- A swap of logical core `l` begins: its threads stop under IMODE, so that it waits for a routine that BOUNDARY lets
end (16 Table 16-6, 10 Table 10-4). The drain window of step 2 is timing. -/
def swapBegin (s : State) (l x : Nat) (why : SwapWhy) : State :=
  if coreDrained s l then swapNow s l x why
  else (coreThreads l).foldl noteDeferral { s with far := { s.far with draining := s.far.draining ++ [(l, why)] } }

/-- A swap that drains takes place once its core has drained. -/
def swapSettle (s : State) (d : Nat × SwapWhy) : State :=
  match spareOf s (d.1 / 8) with
  | some x =>
    if coreDrained s d.1 then
      swapNow { s with far := { s.far with draining := s.far.draining.filter (· ≠ d) } } d.1 x d.2
    else s
  | none => s

/-- A swap of a core that needs one: it waits for a BIST, another swap or a load in its cluster; with no spare left it is
a doubt source (16 R351, R357). -/
def coreSwap (s : State) (l : Nat) (why : SwapWhy) : State :=
  if inRein s || clusterHeld s (l / 8) then s
  else match spareOf s (l / 8), bistOf s (l / 8) with
    | some x, _ => swapBegin s l x why
    | none, some _ => s
    | none, none => doubt s 0x10 none (l / 8)

/-- BIST rotation of a cluster: its logical cores are swapped in turn (16 R351). -/
def bistRotation (s : State) (c : Nat) : State :=
  if inRein s ∨ fld s 0x100 4 0 = 0 ∨ clusterHeld s c then s
  else match spareOf s c with
    | none => s
    | some x =>
      let k := mget 0 s.far.rotIdx c
      swapBegin { s with far := { s.far with rotIdx := mset 0 s.far.rotIdx c ((k + 1) % 8) } } (c * 8 + k) x .rotate

/-- Substitute a spare for a search bank (05 R106), whose correctable count starts again at 0; with none left the bank
stays in service (16 R357). -/
def substituteBank (s : State) (b : Nat) : State :=
  if inRein s ∨ s.src.spares = 0 then s
  else
    let s := wrDev s (0x41200 + 4 * b) 0
    spareTold { s with src := { s.src with spares := s.src.spares - 1, lastSub := b } } (2 * 2 ^ 24 + b) (s.src.spares - 1)

/-- First octet of packet SRAM cell `n`. -/
def cellAddr (n : Nat) : Nat := 0x800000000 + 256 * n

/-- A packet SRAM row wears out: remapped, or without a spare row its cell is quarantined (16 Table 16-5, R357). -/
def wearRow (s : State) (n : Nat) : State :=
  let g := n / 512
  if rowSpares s g = 0 then
    if (poolAt s (cellAddr n)).isSome then quarantine s (cellAddr n) else s
  else
    spareTold { s with far := { s.far with
        sramRows := mset 0 s.far.sramRows g (mget 0 s.far.sramRows g + 1), sramCe := mdel s.far.sramCe n } }
      (7 * 2 ^ 24 + n) (rowSpares s g - 1)

/-- A regulator phase of a rail outside its share is disabled; a rail left with fewer than N is a doubt source
(16 Table 16-4, 18 R375). -/
def wearPhase (s : State) (rail share : Nat) : State :=
  if 80 ≤ share ∧ share ≤ 120 then s
  else
    let n := mget 0 s.far.phases rail + 1
    let s := { s with far := { s.far with phases := mset 0 s.far.phases rail n } }
    if 2 < n then doubt s 0x13 none rail else s

/-- Correctable errors per 24 h that wear a bank or rank out. -/
def ceLimit (s : State) : Nat := fld s 0x108 15 0

/-- A wear sensor reading (16 R349). Classes as the resource words of R352, with 7 for a packet SRAM row (index its
256-octet cell; the errors the part has counted there are tested too) and 8 for a regulator phase (index its rail): margin in % of the cycle, errors in 24 h, or share in %. -/
def wearSensor (s : State) (cls index value : Nat) : State :=
  let auto := flag s 0x100 10
  if inRein s then s
  else match cls with
    | 1 => if auto ∧ index < 128 ∧ value < fld s 0x108 23 16 then coreSwap s index .worn else s
    | 2 => if auto ∧ index < 64 ∧ ceLimit s < value then substituteBank s index else s
    | 5 => if auto ∧ index < 64 ∧ ceLimit s < value then retireRank s (index / 4) (index % 4) 1 else s
    | 7 => if auto ∧ index < 524288 ∧ ceLimit s < max value (mget 0 s.far.sramCe index) then wearRow s index else s
    | 8 => if 1 ≤ index ∧ index ≤ 12 then wearPhase s index value else s
    | _ => s

/-- An island switches to its second clock generator; when that one fails too its clock is lost
(16 Table 16-4, Table 16-1). -/
def clockSwitch (s : State) (i : Nat) : State :=
  let n := mget 0 s.far.clkGens i
  if 2 ≤ n then s
  else
    let s := { s with far := { s.far with clkGens := mset 0 s.far.clkGens i (n + 1) } }
    if n = 0 then sendEvent s 0x27 i [] else doubt s 0x08 none i

/-! ### Commands of the SERVICE ring -/

/-- Class and index of a resource word (16 R352). -/
def resValid (cls index : Nat) : Bool :=
  match cls with
  | 1 => decide (index < 128)
  | 2 => decide (index < 64)
  | 3 => decide (index < 17)
  | 4 => decide (index < 26)
  | 5 => decide (index < 64 ∧ index % 4 < 3)
  | 6 => decide (index < 128)
  | _ => false

/-- Does a test kind apply to a class (16 R353). -/
def kindApplies (cls kind : Nat) : Bool :=
  match kind with
  | 1 => decide (1 ≤ cls ∧ cls ≤ 4)
  | 2 => decide (1 ≤ cls ∧ cls ≤ 4)
  | 3 => decide (cls = 6)
  | 4 => decide (cls = 6)
  | 5 => decide (cls = 5)
  | _ => false

/-- Is a rank in service: a SID not retired, or SID 2 when it took a retired one's place. -/
def rankInService (s : State) (ch sid : Nat) : Bool :=
  if sid < 2 then !s.hbm.retired.contains (ch, sid) else s.hbm.retired.any (fun x => decide (x.1 = ch))

/-- A core test runs on the freed core after a swap: it becomes the spare, or is retired (16 R351, R353). -/
def testCore (s : State) (c : CmdRef) (l failStep : Nat) : State :=
  if clusterHeld s (l / 8) then finish s c 0xC8 0xD3 0 0
  else match spareOf s (l / 8), bistOf s (l / 8) with
  | some x, _ => swapBegin s l x (.test c failStep)
  | none, some _ => finish s c 0xC8 0xD3 0 0
  | none, none => finish s c 0xC8 0xD1 0 0

/-- An HBM MBIST on a spare or quiesced rank; one that passes makes a quiesced rank fit to be the spare. -/
def testRank (s : State) (c : CmdRef) (index failStep : Nat) : State :=
  if rankMigrating s (index / 4) (index % 4) then finish s c 0xC8 0xD3 0 0
  else if rankInService s (index / 4) (index % 4) then finish (farCnt s 4 1) c 0xC8 0xD0 0 0
  else
    let q := s.hbm.quiesced.map (fun x => if x.1 = index then (x.1, decide (failStep = 0)) else x)
    testEnd { s with hbm := { s.hbm with quiesced := q } } c failStep

/-- End the wait of a command for an answer from outside. -/
def unwait (s : State) (c : CmdRef) : State :=
  { s with gpl := { s.gpl with waiting := s.gpl.waiting.filter (fun w => decide (w.cmd ≠ c)) } }

/-- FAR_TEST (16 R353). DEDUCED, log entry 90. -/
def farTest (s : State) (c : CmdRef) (res kind failStep : Nat) : State :=
  let cls := res / 2 ^ 24
  let i := res % 2 ^ 24
  if inRein s then finish s c 0xC8 0xD5 0 0
  else if !(resValid cls i && kindApplies cls kind) then finish s c 0xC8 0xD2 0 0
  else if kind = 4 ∧ portEn s i then finish (farCnt s 4 1) c 0xC8 0xD0 0 0
  else if cls = 1 then testCore s c i failStep
  else if cls = 5 then testRank s c i failStep
  else testEnd s c failStep

/-- FAR_QUIESCE (16 Table 16-7). -/
def farQuiesce (s : State) (c : CmdRef) (res q : Nat) : State :=
  let ch := res % 2 ^ 24 / 4
  let sid := res % 4
  let end_ := fun (s : State) st => finish s c 0xC9 st 0 0
  if inRein s then end_ s 0xD5
  else if res / 2 ^ 24 ≠ 5 ∨ !resValid 5 (res % 2 ^ 24) then end_ s 0xD2
  else if q = 0 then
    if s.hbm.quiesced.contains (ch * 4 + sid, true) then
      end_ { s with hbm := { s.hbm with
        quiesced := s.hbm.quiesced.filter (fun x => decide (x.1 ≠ ch * 4 + sid)),
        regained := s.hbm.regained.filter (· ≠ ch) ++ [ch] } } 0
    else end_ s 0xD4
  else if q ≠ 1 then end_ s 0xC1
  else if rankMigrating s ch sid then end_ s 0xD3
  else if 2 ≤ sid ∨ !rankInService s ch sid then end_ s 0xD2
  else if !hasSpareRank s ch ∨ spareClaimed s ch then end_ s 0xD1
  else
    let s := { s with gpl := { s.gpl with waiting := s.gpl.waiting ++ [⟨c, s.now, .quiesce ch sid⟩] } }
    startMigration s { ch := ch, sid := sid }

/-- Replace a symmetric engine by the spare (13 R274). -/
def retireSym (s : State) (i : Nat) : State :=
  spareTold { s with cry := { s.cry with symRetired := s.cry.symRetired ++ [i] } } (3 * 2 ^ 24 + i) 0

/-- Replace a public-key engine by a spare (13 R274). -/
def retirePk (s : State) (i : Nat) : State :=
  spareTold { s with cry := { s.cry with pkRetired := s.cry.pkRetired ++ [i] } } (4 * 2 ^ 24 + i)
    (1 - s.cry.pkRetired.length)

/-- The Farrier takes an engine out of service: a spare replaces it, or with none left it is retired and its class shrinks
(13 R274, 16 Table 16-9). -/
def engineWorn (s : State) (pk : Bool) (i : Nat) : State :=
  if pk then
    if s.cry.pkRetired.length < 2 then retirePk s i
    else retireTold { s with cry := { s.cry with pkRetired := s.cry.pkRetired ++ [i] } } (4 * 2 ^ 24 + i) 1
  else if s.cry.symRetired = [] then retireSym s i
  else retireTold { s with cry := { s.cry with symRetired := s.cry.symRetired ++ [i] } } (3 * 2 ^ 24 + i) 1

/-- FAR_SWAP (16 Table 16-7). -/
def farSwap (s : State) (c : CmdRef) (res : Nat) : State :=
  let cls := res / 2 ^ 24
  let i := res % 2 ^ 24
  let end_ := fun (s : State) st => finish s c 0xCA st 0 0
  if inRein s then end_ s 0xD5
  else if !resValid cls i then end_ s 0xD2
  else match cls with
    | 1 =>
      if clusterHeld s (i / 8) then end_ s 0xD3
      else match spareOf s (i / 8), bistOf s (i / 8) with
      | some x, _ => swapBegin s i x (.command c)
      | none, some _ => end_ s 0xD3
      | none, none => end_ s 0xD1
    | 2 => if s.src.spares = 0 then end_ s 0xD1 else end_ (substituteBank s i) 0
    | 3 => if s.cry.symRetired ≠ [] then end_ s 0xD1 else end_ (retireSym s i) 0
    | 4 => if 2 ≤ s.cry.pkRetired.length ∨ s.cry.pkRetired.contains i then end_ s 0xD1 else end_ (retirePk s i) 0
    | 5 =>
      if rankMigrating s (i / 4) (i % 4) then end_ s 0xD3
      else if 2 ≤ i % 4 ∨ !rankInService s (i / 4) (i % 4) then end_ s 0xD2
      else if !hasSpareRank s (i / 4) ∨ spareClaimed s (i / 4) then end_ s 0xD1
      else end_ (retireRank s (i / 4) (i % 4) 1) 0
    | _ => end_ s 0xD1

/-- FAR_REPORT: FAR_STAT, then 252 octets whose layout the spec does not give (DESIGN CHOICE, log entry 5). -/
def farReport (s : State) (c : CmdRef) (addr : Nat) : State :=
  let l := beOctets 4 (farStat s) ++ (List.range 252).map Config.wearReport
  finish (hostWrite s c.part.toNat addr l) c 0xCB 0 0 256

/-! ### Supply -/

/-- Nominal mV of a rail (18 Table 18-2); rail 0 is VIN. -/
def railNominal (r : Nat) : Nat :=
  match r with
  | 0 => 12000
  | 1 => 750
  | 2 => 750
  | 3 => 850
  | 4 => 900
  | 5 => 1200
  | 6 => 900
  | 7 => 1100
  | 8 => 400
  | 9 => 1800
  | 10 => 750
  | 11 => 1800
  | _ => 800

/-- Is a supply below its warning level (16 Table 16-2). -/
def belowWarning (r mv : Nat) : Bool := if r = 0 then decide (mv < 10600) else decide (100 * mv < 95 * railNominal r)

/-- Is a supply below its recovery threshold. -/
def belowRecovery (r mv : Nat) : Bool := if r = 0 then decide (mv < 10800) else decide (100 * mv < 96 * railNominal r)

/-- Enter Rein (16 R346-R348). -/
def reinEnter (s : State) : State :=
  let s := { s with hkc := { s.hkc with rein := some ⟨s.now, s.hkc.vin, s.now⟩ } }
  alertUpdate (reinTold (farCnt s 5 1) true s.hkc.vin)

/-- A supply reading at a crossing (16 R346, R348). Device Bolt has no Rein. DEDUCED, log entry 89. -/
def supplyWarning (s : State) (r mv : Nat) : State :=
  let s := if r = 0 then { s with hkc := { s.hkc with vin := mv } } else s
  match s.hkc.rein with
  | some x =>
    { s with hkc := { s.hkc with rein := some { x with
        minVin := min x.minVin s.hkc.vin, lowAt := if belowRecovery r mv then s.now else x.lowAt } } }
  | none => if belowWarning r mv && !s.hkc.dbolt then reinEnter s else s

/-- PWR_REIN.LIMIT in ns (16 Table 16-17). -/
def reinLimit (s : State) : Nat := 100000 * max 1 (min 100 (fld s 0x44 6 0))

/-- Rein has lasted LIMIT: device Bolt, cause 0x0C (16 R348). -/
def reinTooLong (s : State) : State :=
  match s.hkc.rein with
  | some x => if x.since + reinLimit s ≤ s.now then boltDevice s 0x0C else s
  | none => s

/-- BANK_SUBSTITUTION: the Farrier acts by itself when the bank's correctable count exceeds FAR_THR.CETHR, unless
FAR_CFG.AUTO is 0 (05 R106, 16 R349); FAR_SWAP is the command. -/
def execBankSubstitution (bank : BitVec 6) (s : State) : Host.Outcome State Fault Refusal :=
  .next (if flag s 0x100 10 && decide (ceLimit s < rdDev s (0x41200 + 4 * bank.toNat)) then substituteBank s bank.toNat else s)

/-- FAR_TEST. -/
def execFarTest (c : CmdRef) (res : BitVec 32) (kind : BitVec 8) (failStep : BitVec 32) (s : State) :
    Host.Outcome State Fault Refusal :=
  .next (hostCmd (unwait s c) c 0xC8 (fun s => farTest s c res.toNat kind.toNat failStep.toNat))

/-- FAR_QUIESCE. -/
def execFarQuiesce (c : CmdRef) (res : BitVec 32) (q : BitVec 8) (s : State) : Host.Outcome State Fault Refusal :=
  .next (hostCmd s c 0xC9 (fun s => farQuiesce s c res.toNat q.toNat))

/-- FAR_SWAP. -/
def execFarSwap (c : CmdRef) (res : BitVec 32) (s : State) : Host.Outcome State Fault Refusal :=
  .next (hostCmd s c 0xCA (fun s => farSwap s c res.toNat))

/-- FAR_REPORT. -/
def execFarReport (c : CmdRef) (addr : BitVec 64) (s : State) : Host.Outcome State Fault Refusal :=
  .next (hostCmd s c 0xCB (fun s => farReport s c addr.toNat))

/-- WEAR_SENSOR_READ. -/
def execWearSensorRead (cls : BitVec 8) (index : BitVec 24) (value : BitVec 32) (s : State) :
    Host.Outcome State Fault Refusal := .next (wearSensor s cls.toNat index.toNat value.toNat)

/-- CORE_SWAP. -/
def execCoreSwap (core : BitVec 7) (s : State) : Host.Outcome State Fault Refusal := .next (coreSwap s core.toNat .rotate)

/-- BIST_ROTATION. -/
def execBistRotation (cluster : BitVec 4) (s : State) : Host.Outcome State Fault Refusal :=
  .next (bistRotation s cluster.toNat)

/-- BIST_COMPLETE. -/
def execBistComplete (cluster : BitVec 4) (pass : Bool) (s : State) : Host.Outcome State Fault Refusal :=
  .next (bistComplete s cluster.toNat pass)

/-- CLOCK_GENERATOR_SWITCH: the part has 61 islands (01 Table 01-2). -/
def execClockGeneratorSwitch (island : BitVec 6) (s : State) : Host.Outcome State Fault Refusal :=
  if 61 ≤ island.toNat then .fault .noSuchUnit else .next (clockSwitch s island.toNat)

/-- SUPPLY_WARNING: rail 0 is VIN, 1 to 12 those of 18 Table 18-2. -/
def execSupplyWarning (rail : BitVec 4) (millivolt : BitVec 16) (s : State) : Host.Outcome State Fault Refusal :=
  if 12 < rail.toNat then .fault .noSuchUnit else .next (supplyWarning s rail.toNat millivolt.toNat)

/-- REIN_LIMIT. -/
def execReinLimit (s : State) : Host.Outcome State Fault Refusal := .next (reinTooLong s)

end Sys2Proof.Machine
end

