-- ==== Sys2Proof/Machine/Keys.lean ====
section
/-! DEFINITION. The key store and the random bit generator (13 R278-R283). -/

namespace Sys2Proof.Machine

/-- Add to CRY_CNT of a partition (13 Table 13-17). -/
def cryCnt (s : State) (p k n : Nat) : State := pcnt s 0xC0400 0x40 p k n

/-- Store the keys. -/
def setKeys (s : State) (m : Map KeyEnt) : State := { s with cry := { s.cry with keys := m } }

/-- Random octets (13 R278): free values; each request counts toward the reseed. -/
def randomOctets (s : State) (n : Nat) : List Octet × State :=
  let (l, s) := freeOctets s n
  (l, { s with cry := { s.cry with rbgCount := s.cry.rbgCount + 1 } })

/-- RBG_RESEED: after 65,536 requests or 1 s (13 R278). -/
def rbgReseed (s : State) : State :=
  if 65536 ≤ s.cry.rbgCount ∨ s.cry.rbgSince + 1000000000 ≤ s.now then
    { s with cry := { s.cry with rbgCount := 0, rbgSince := s.now } }
  else s

/-- A health test fails: output stops and the supervisor is told (13 R278). -/
def rbgFail (s : State) : State := sendEvent { s with cry := { s.cry with rbgRun := false } } 0x05 0 []

/-! ### Key blocks -/

/-- A hexadecimal digit, upper case. -/
def hexDigit (o : Octet) : Option Nat :=
  let v := o.toNat
  if 48 ≤ v ∧ v ≤ 57 then some (v - 48) else if 65 ≤ v ∧ v ≤ 70 then some (v - 55) else none

/-- Octets spelt by pairs of hexadecimal digits. -/
def hexOctets : List Octet → Option (List Octet)
  | [] => some []
  | [_] => none
  | a :: b :: l =>
    match hexDigit a, hexDigit b, hexOctets l with
    | some x, some y, some r => some (BitVec.ofNat 8 (16 * x + y) :: r)
    | _, _, _ => none

/-- A number spelt in decimal digits. -/
def decNat (l : List Octet) : Option Nat :=
  l.foldl (fun n o => match n with
    | some n => if 48 ≤ o.toNat ∧ o.toNat ≤ 57 then some (n * 10 + (o.toNat - 48)) else none
    | none => none) (some 0)

/-- A number spelt in hexadecimal digits. -/
def hexNat (l : List Octet) : Option Nat :=
  l.foldl (fun n o => match n, hexDigit o with
    | some n, some d => some (n * 16 + d)
    | _, _ => none) (some 0)

/-- An optional block: identifier and data. -/
structure OptBlock where
  id : List Octet
  data : List Octet

/-- `n` optional blocks from the front of a string, and the rest (X9.143: identifier 2, length 2, or length 00 and an
extended length). -/
def optBlocks : Nat → List Octet → Option (List OptBlock × List Octet)
  | 0, l => some ([], l)
  | n + 1, l =>
    match hexNat (octs l 2 2) with
    | none => none
    | some 0 =>
      match hexNat (octs l 4 2) with
      | some k =>
        match hexNat (octs l 6 k) with
        | some len =>
          if len < 6 + k ∨ l.length < len then none
          else (optBlocks n (l.drop len)).map (fun r => (⟨l.take 2, octs l (6 + k) (len - 6 - k)⟩ :: r.1, r.2))
        | none => none
      | none => none
    | some len =>
      if len < 4 ∨ l.length < len then none
      else (optBlocks n (l.drop len)).map (fun r => (⟨l.take 2, octs l 4 (len - 4)⟩ :: r.1, r.2))

/-- A key block of version D, opened: its header characters, optional blocks and key. -/
structure KeyBlock where
  usage : List Octet
  alg : Octet
  mode : Octet
  ver : List Octet
  exportability : Octet
  opts : List OptBlock
  key : List Octet

/-- Open a key block under a KBPK: length, format and MAC (13 R281). DEDUCED, log entry 72. -/
def openBlock (kbpk b : List Octet) : Option KeyBlock :=
  if oct b 0 ≠ 68 ∨ b.length < 16 ∨ decNat (octs b 1 4) ≠ some b.length then none
  else match (decNat (octs b 12 2)).bind (fun n => optBlocks n (b.drop 16)) with
    | none => none
    | some (opts, rest) =>
      let head := b.take (b.length - rest.length)
      match hexOctets rest with
      | none => none
      | some body =>
        if body.length < 32 ∨ body.length % 16 ≠ 0 then none
        else
          let mac := body.drop (body.length - 16)
          let ct := body.take (body.length - 16)
          let m := cbcDec 16 (aesDecK (aesKeys (x9Derive kbpk 0))) (ct.length / 16) ct mac
          if aesCmac (x9Derive kbpk 1) (head ++ m) ≠ mac then none
          else
            let bits := fieldBe m 0 2
            if bits % 8 ≠ 0 ∨ m.length < 2 + bits / 8 then none
            else some {
              usage := octs b 5 2, alg := b.getD 7 0, mode := b.getD 8 0, ver := octs b 9 2,
              exportability := b.getD 11 0, opts := opts,
              key := octs m 2 (bits / 8) }

/-- The data of an optional block. -/
def optData (k : KeyBlock) (id : String) : Option (List Octet) :=
  (k.opts.find? (fun o => decide (o.id = ascii id))).map (·.data)

/-- What a key block loads: usage, algorithm code, span and IV (13 Tables 13-5, 13-6, 13-8). -/
structure KeyKind where
  usage : Nat
  alg : Nat
  span : Nat
  iv : List Octet := []

/-- Usage bits of a two-way key: `a` for the first mode, `b` for the second, both for the third. -/
def modeUse (mode : Octet) (ms : String) (a b : Nat) : Option Nat :=
  let l := ascii ms
  if mode = l.getD 0 0 then some (2 ^ a) else if mode = l.getD 1 0 then some (2 ^ b)
  else if mode = l.getD 2 0 then some (2 ^ a + 2 ^ b) else none

/-- Algorithm code of an AES key by its length; none for a wrong length. -/
def aesAlg (n : Nat) : Option Nat := if n = 16 then some 1 else if n = 32 then some 2 else none

/-- Algorithm code of a TDES key by its length. -/
def tdesAlg (n : Nat) : Option Nat := if n = 16 then some 3 else if n = 24 then some 4 else none

/-- How a key block is refused, or what it loads. -/
inductive KeyCheck where
  | ok (k : KeyKind)
  | unsupported
  | badBlock

/-- Join a usage and an algorithm of a length: an unlisted mode is unsupported, a wrong length a bad block. -/
def keyCheck (use_ : Option Nat) (alg : Option Nat) (span : Nat) : KeyCheck :=
  match use_, alg with
  | none, _ => .unsupported
  | some _, none => .badBlock
  | some u, some a => .ok { usage := u, alg := a, span := span }

/-- A D0 A key: data encryption, or TLS with block 0T. -/
def checkD0A (k : KeyBlock) : KeyCheck :=
  let n := k.key.length
  match optData k "0T" with
  | none => keyCheck (modeUse k.mode "EDB" 4 5) (aesAlg n) 1
  | some d =>
    if d.length ≠ 24 then .badBlock
    else match hexOctets d with
      | none => .badBlock
      | some iv =>
        let u := if k.mode = (ascii "E").getD 0 0 then some (2 ^ 9) else if k.mode = (ascii "D").getD 0 0 then some (2 ^ 8) else none
        match keyCheck u (aesAlg n) 1 with
        | .ok x => .ok { x with iv := iv }
        | c => c

/-- An S0 E key: P-256 or, with block 0C "02", Ed25519. -/
def checkS0E (k : KeyBlock) : KeyCheck :=
  let n := k.key.length
  let sign := decide (k.mode = (ascii "S").getD 0 0)
  let use_ := if sign then some 1 else if k.mode = (ascii "V").getD 0 0 then some 2 else none
  let curve := (optData k "0C").getD (ascii "01")
  if curve = ascii "01" then
    if sign then keyCheck use_ (if n = 32 then some 6 else none) 2
    else keyCheck use_ (if n = 64 then some 7 else none) 1
  else if curve = ascii "02" then keyCheck use_ (if n = 32 then some (if sign then 8 else 9) else none) 1
  else .unsupported

/-- An S0 R key: RSA-2048. -/
def checkS0R (k : KeyBlock) : KeyCheck :=
  let n := k.key.length
  if k.mode = (ascii "S").getD 0 0 then keyCheck (some 1) (if n = 900 then some 0x0A else none) 16
  else if k.mode = (ascii "V").getD 0 0 then keyCheck (some 2) (if n = 260 then some 0x0B else none) 8
  else .unsupported

/-- The header combinations of Table 13-5. -/
def classifyBlock (k : KeyBlock) : KeyCheck :=
  let is := fun (u a : String) => decide (k.usage = ascii u) && decide ([k.alg] = ascii a)
  let n := k.key.length
  if is "D0" "A" then checkD0A k
  else if is "D0" "T" then keyCheck (modeUse k.mode "EDB" 4 5) (tdesAlg n) 1
  else if is "M6" "A" then keyCheck (modeUse k.mode "GVC" 2 3) (aesAlg n) 1
  else if is "M3" "T" then keyCheck (modeUse k.mode "GVC" 2 3) (tdesAlg n) 1
  else if is "M7" "H" then keyCheck (modeUse k.mode "GVC" 2 3) (if 16 ≤ n ∧ n ≤ 64 then some 5 else none) 1
  else if is "K0" "A" then keyCheck (modeUse k.mode "EDB" 6 7) (aesAlg n) 1
  else if is "S0" "E" then checkS0E k
  else if is "S0" "R" then checkS0R k
  else .unsupported

/-- Key check value of key material (13 Table 13-8). -/
def keyKcv (alg : Nat) (mat : List Octet) : List Octet :=
  (if alg ≤ 2 then aesCmac mat (zeros 16)
   else if alg ≤ 4 then tdesEnc mat (zeros 8)
   else if alg = 5 then hmac mat (zeros 16)
   else if alg = 6 then sha256 (p256Public (beNat mat))
   else if alg = 8 then sha256 (ed25519Public mat)
   else if alg = 0x0A then sha256 (mat.take 260)
   else sha256 mat).take 5

/-- Does a KC or KP block agree with a check value: two characters of method, then the value's first octets. -/
def kcvAgrees (d : Option (List Octet)) (kcv : List Octet) : Bool :=
  match d with
  | none => true
  | some d =>
    match hexOctets (d.drop 2) with
    | some l => decide (l.take 5 = kcv.take l.length)
    | none => false

/-- Does the whole span [a, a + n) belong to a partition. -/
def spanMine (s : State) (p a n : Nat) : Bool := (List.range n).all (fun i => decide (keyOwner s (a + i) = some p))

/-- First slots of the keys that overlap [a, a + n). -/
def keysIn (s : State) (a n : Nat) : List Nat :=
  (s.cry.keys.filter (fun kv => decide (kv.1 < a + n ∧ a < kv.1 + kv.2.span))).map (·.1)

/-- The KEY_EVENT record (13 Table 13-12). -/
def keyEvent (s : State) (slot : Nat) (load : Bool) (kcv : List Octet) : State :=
  jnlEvent s 0x25 0 0 0xFF (beOctets 2 slot ++ beOctets 1 (b2n load) ++ fit 5 kcv)

/-- A slot outside the issuer's range is a violation (13 R279). -/
def slotCheck (s : State) (p agent slot : Nat) : Bool × State :=
  if keyOwner s slot = some p then (true, s) else (false, violate s p 6 agent slot 0)

/-- Slots that a load writes are in error no longer (13 R280). DEDUCED, log entry 70. -/
def slotsGood (s : State) (a n : Nat) : State :=
  { s with cry := { s.cry with badSlots := s.cry.badSlots.filter (fun i => !decide (a ≤ i ∧ i < a + n)) } }

/-- Load the key of an opened block (13 R281). -/
def keyPut (s : State) (c : CmdRef) (slot : Nat) (replace : Bool) (kbpk : List Octet) (k : KeyBlock) : State :=
  let p := c.part.toNat
  let end_ := fun (s : State) st => finish s c 0x70 st 0 0
  match classifyBlock k with
  | .unsupported => end_ s 0xBC
  | .badBlock => end_ s 0xB8
  | .ok x =>
    let kcv := keyKcv x.alg k.key
    if !(kcvAgrees (optData k "KC") kcv && kcvAgrees (optData k "KP") ((aesCmac kbpk (zeros 16)).take 5)) then end_ s 0xB8
    else if slot % x.span ≠ 0 ∨ !spanMine s p slot x.span then
      end_ (if spanMine s p slot x.span then s else violate s p 6 (hostAgent p) slot 0) 0xB1
    else
      let old := keysIn s slot x.span
      if old ≠ [] ∧ !replace then end_ s 0xBA
      else
        let m := old.foldl (fun m i => mdel m i) s.cry.keys
        let e : KeyEnt := { part := p, usage := x.usage, alg := x.alg, span := x.span, ver := k.ver, kcv := kcv,
                            loaded := tai s, mat := k.key, iv := x.iv, exportability := k.exportability }
        end_ (keyEvent (setKeys (slotsGood s slot x.span) (mput m slot e)) slot true kcv) 0

/-- KEY_LOAD (13 R281). -/
def keyLoad (s : State) (c : CmdRef) (slot flags len addr : Nat) : State :=
  let p := c.part.toNat
  match slotCheck s p (hostAgent p) slot with
  | (false, s) => finish s c 0x70 0xB1 0 0
  | (true, s) =>
    match mfind s.cry.kbpk p with
    | none => finish s c 0x70 0xB9 0 0
    | some kbpk =>
      match openBlock kbpk (hostRead s p addr len) with
      | none => finish s c 0x70 0xB8 0 0
      | some k => keyPut s c slot (bitOf flags 0) kbpk k

/-- KEY_DELETE (13 Table 13-7). -/
def keyDelete (s : State) (c : CmdRef) (slot : Nat) : State :=
  let p := c.part.toNat
  match slotCheck s p (hostAgent p) slot with
  | (false, s) => finish s c 0x71 0xB1 0 0
  | (true, s) =>
    match mfind s.cry.keys slot with
    | none => finish s c 0x71 0xB1 0 0
    | some k => finish (keyEvent (setKeys s (mdel s.cry.keys slot)) slot false k.kcv) c 0x71 0 0 0

/-- The attribute record of a key (13 Table 13-8). -/
def KeyEnt.record (k : KeyEnt) : List Octet :=
  beOctets 2 k.usage ++ beOctets 1 k.alg ++ beOctets 1 k.span ++ fit 2 k.ver ++ fit 5 k.kcv ++ zeros 1 ++
    beOctets 8 k.loaded ++ zeros 12

/-- KEY_QUERY: an empty slot returns zeros, one inside a span is not aligned to it. -/
def keyQuery (s : State) (c : CmdRef) (slot addr : Nat) : State :=
  let p := c.part.toNat
  match slotCheck s p (hostAgent p) slot with
  | (false, s) => finish s c 0x72 0xB1 0 0
  | (true, s) =>
    match mfind s.cry.keys slot with
    | some k => finish (hostWrite s p addr k.record) c 0x72 0 0 32
    | none =>
      if (keyCovering s slot).isSome then finish s c 0x72 0xB1 0 0
      else finish (hostWrite s p addr (zeros 32)) c 0x72 0 0 32

/-- The part's ephemeral private scalar: a free value. -/
def ephemeralKey (s : State) : Nat × State :=
  let (l, s) := randomOctets s 32
  (1 + beNat l % (p256N - 1), s)

/-- KEY_KEKSET (13 R282): the KBPK from the ECDH shared x, and the signed answer. -/
def keyKekset (s : State) (c : CmdRef) (part addr : Nat) : State :=
  let p := c.part.toNat
  let end_ := fun (s : State) st => finish s c 0x73 st 0 0
  if !isSup s p then end_ s 0xBB
  else if 7 < part then end_ s 0xC1
  else if !s.cry.rbgRun then end_ s 0xB7
  else
    let host := hostRead s p addr 64
    match p256Read host with
    | none => end_ s 0xB8
    | some q =>
      let (d, s) := ephemeralKey s
      let gen := mget 0 s.cry.kgen part + 1
      let x := ((p256Mul d q).getD (0, 0)).1
      let kbpk := hkdf32 (beOctets 32 x) (ascii "EHRAD-KBPK" ++ beOctets 1 part ++ beOctets 4 gen)
      let pub := p256Public d
      let kcv := (aesCmac kbpk (zeros 16)).take 5
      let sig := ecdsaSign Config.identityKey (sha256 (beOctets 1 part ++ host ++ pub ++ kcv))
      let s := { s with cry := { s.cry with kbpk := mput s.cry.kbpk part kbpk, kgen := mput s.cry.kgen part gen } }
      end_ (hostWrite s p (addr + 64) (pub ++ kcv ++ zeros 3 ++ sig)) 0

/-- KEY_LOAD. -/
def execKeyLoad (c : CmdRef) (slot : BitVec 16) (flags : BitVec 8) (len : BitVec 16) (addr : BitVec 64) (s : State) :
    Host.Outcome State Fault Refusal :=
  .next (hostCmd s c 0x70 (fun s => keyLoad s c slot.toNat flags.toNat len.toNat addr.toNat))

/-- KEY_DELETE. -/
def execKeyDelete (c : CmdRef) (slot : BitVec 16) (s : State) : Host.Outcome State Fault Refusal :=
  .next (hostCmd s c 0x71 (fun s => keyDelete s c slot.toNat))

/-- KEY_QUERY. -/
def execKeyQuery (c : CmdRef) (slot : BitVec 16) (addr : BitVec 64) (s : State) : Host.Outcome State Fault Refusal :=
  .next (hostCmd s c 0x72 (fun s => keyQuery s c slot.toNat addr.toNat))

/-- KEY_KEKSET. -/
def execKeyKekset (c : CmdRef) (part : BitVec 8) (addr : BitVec 64) (s : State) : Host.Outcome State Fault Refusal :=
  .next (hostCmd s c 0x73 (fun s => keyKekset s c part.toNat addr.toNat))

/-- RBG_RESEED. -/
def execRbgReseed (s : State) : Host.Outcome State Fault Refusal := .next (rbgReseed s)

/-- RBG_HEALTH_FAILURE. -/
def execRbgHealthFailure (s : State) : Host.Outcome State Fault Refusal := .next (rbgFail s)

/-- RBG_STARTUP_PASS: output resumes. -/
def execRbgStartupPass (s : State) : Host.Outcome State Fault Refusal :=
  .next { s with cry := { s.cry with rbgRun := true } }

end Sys2Proof.Machine
end

