-- ==== Sys2Proof/Machine/Crypt.lean ====
section
/-! DEFINITION. CRYPT requests and the engines (13 R271-R277): the request block and its references, what each operation
computes, and the completion of a request. -/

namespace Sys2Proof.Machine

/-- Where a request's output reference points: a signature that is read, octets that are written, or nothing. -/
inductive OutRef where
  | none
  | read (n : Nat)
  | write (n : Nat)
  deriving DecidableEq, Repr

/-- Is OP listed (13 Table 13-3). -/
def opListed (op : Nat) : Bool := decide (1 ≤ op ∧ op ≤ 0x0D) || decide (0x10 ≤ op ∧ op ≤ 0x14) || decide (op = 0x18)

/-- Does the operation run on the public-key class (13 Table 13-1). -/
def opPk (op : Nat) : Bool := decide (0x10 ≤ op ∧ op ≤ 0x14)

/-- LEN of a request block. -/
def blkLen (b : List Octet) : Nat := fieldBe b 6 2
/-- AADLEN. -/
def blkAad (b : List Octet) : Nat := fieldBe b 18 2

/-- The output reference of an operation (13 Table 13-3). -/
def opOut (op : Nat) (b : List Octet) : OutRef :=
  match op with
  | 0x06 => .write (blkLen b - blkAad b)
  | 0x07 => .write (blkLen b - blkAad b)
  | 0x08 => .write (blkLen b)
  | 0x09 => .write (blkLen b)
  | 0x0C => .write (blkLen b + 8)
  | 0x0D => .write (blkLen b - 8)
  | 0x10 => .read 64
  | 0x11 => .write 64
  | 0x12 => .read 64
  | 0x13 => .read 256
  | 0x14 => .write 256
  | 0x18 => .write (blkLen b)
  | _ => .none

/-- Octets of data an operation reads. -/
def opData (op : Nat) (b : List Octet) : Nat := if op = 0x18 then 0 else blkLen b

/-- A checked reference of a request: its selector, offset, size and what the check answers. -/
structure RefCheck where
  sel : Nat := 0
  off : Nat := 0
  n : Nat := 0
  chk : Chk := .ok 6 0

/-- Check one reference through a selector register; none when it is empty (13 R275). -/
def refCheck (s : State) (t k off n : Nat) (need : Need) : Option RefCheck :=
  if n = 0 then none
  else
    let (sel, chk) := accessCheck s t k [spWin, spSram, spHbm] need off n
    some ⟨sel, off, n, chk⟩

/-- The data reference of a request. -/
def dataRef (s : State) (t op : Nat) (b : List Octet) : Option RefCheck :=
  refCheck s t (oct b 4 % 8) (fieldBe b 8 5 % 2 ^ 36) (opData op b) { r := true, h := true }

/-- The output or signature reference of a request. -/
def outRef (s : State) (t op : Nat) (b : List Octet) : Option RefCheck :=
  let k := oct b 5 % 8
  let off := fieldBe b 13 5 % 2 ^ 36
  match opOut op b with
  | .none => none
  | .read n => refCheck s t k off n { r := true, h := true }
  | .write n => refCheck s t k off n { w := true, h := true }

/-- Octets a reference reaches, and whether they read as poison. -/
def refRead (s : State) (t : Nat) (r : Option RefCheck) : List Octet × Bool :=
  match r with
  | none => ([], false)
  | some r =>
    match r.chk with
    | .ok sp a => (readOcts s t sp a r.n, octsBad s sp a r.n)
    | _ => ([], false)

/-- Space and address of a reference that passed. -/
def refAt (r : Option RefCheck) : Nat × Nat :=
  match r with
  | some ⟨_, _, _, .ok sp a⟩ => (sp, a)
  | _ => (6, 0)

/-- Complete a request at once with a status: its tag has only to be delivered. -/
def cryptRefused (s : State) (t tag boff status : Nat) : State :=
  startTag s t tag { kind := .crypt, win := [(boff, beOctets 1 status)] }

/-- Queue a request at its engine class, a thread at its PRI (13 R272). DEDUCED, log entry 69. -/
def cryptQueue (s : State) (t tag op boff : Nat) (b : List Octet) : State :=
  let p := thrP s t
  let id := thrTask s t
  let d := dataRef s t op b
  let o := outRef s t op b
  let (dl, db) := refRead s t d
  let isSig := match opOut op b with
    | .read _ => true
    | _ => false
  let (sl, sb) := if isSig then refRead s t o else ([], false)
  let (sp, a) := refAt o
  let r : EngReq := {
    pk := opPk op, prio := ((id.bind (taskSt s)).map (·.prio)).getD 15, task := id, thread := t, tag := tag, op := op, part := p,
    block := b, blockOff := boff, data := dl, sig := sl, poison := db || sb, outAddr := a, outWin := decide (sp = 6) }
  let s := startTag s t tag {
    kind := .crypt, ready := false, segs := (d.toList ++ o.toList).filterMap (fun r => (segOf s t r.sel).table), issued := s.now }
  cryCnt { s with cry := { s.cry with queue := insertBy (·.prio) r s.cry.queue } } p (b2n r.pk) 1

/-- Start a request whose block lies in the window: refused, absent, or queued (13 R275). -/
def cryptStart (s : State) (t tag op boff : Nat) (b : List Octet) : Fx :=
  if !opListed op then { run := fun s => cryptRefused s t tag boff 0xB0 }
  else
    let refs := (dataRef s t op b).toList ++ (outRef s t op b).toList
    match refs.findSome? (fun r => match r.chk with
        | .bad k => some (k, r)
        | _ => none) with
    | some (k, r) =>
      { run := fun s => cryptRefused (cryCnt (thrViolate s t k r.sel r.off) (thrP s t) 4 1) t tag boff 0xB5 }
    | none =>
      match refs.find? (fun r => decide (r.chk = .absent)) with
      | some r => { fault := some (1, r.sel, r.off) }
      | none => { run := fun s => cryptQueue s t tag op boff b }

/-- A request whose block fails its window check: a violation, counted; STATUS goes where the window has it (13 R275). -/
def blockRefused (s : State) (t tag boff k off : Nat) : State :=
  let s := cryCnt (thrViolate s t k 0x800 off) (thrP s t) 4 1
  startTag s t tag { kind := .crypt, win := if boff < 512 then [(boff, beOctets 1 0xB5)] else [] }

/-- CRYPT on a block at a window offset. -/
def sylCryptAt (t : Thr) (g : Gd) (undef : Bool) (tag : Nat) (at_ : Ctx → Nat) (op : Ctx → Nat) : Syl :=
  { unit := 2, guard := g, undef := undef,
    fx := fun s =>
      let c0 := (thr s t.toNat).ctx
      let boff := at_ c0
      if tagBusy s t.toNat tag then { stall := true }
      else match winCheck [⟨boff, 64, false⟩, ⟨boff, 64, true⟩] with
        | some (k, off) =>
          { run := fun s => blockRefused s t.toNat tag boff k off }
        | none => cryptStart s t.toNat tag (op c0) boff (c0.winRead boff 64) }

/-- CRYPT (09 Table 09-6). -/
def sylCrypt (t : Thr) (g : Gd) (_rd ra rb : BitVec 5) (md : BitVec 8) : Syl :=
  sylCryptAt t g false (tagOf md) (fun c => (rg c ra).toNat) (fun c => (rg c rb).toNat % 64)

/-- A thread issues CRYPT with operation `op` on the block at window offset `blk`. -/
def cryptIssue (s : State) (t : Thr) (tag : BitVec 2) (blk : BitVec 36) (op : Nat) : State :=
  issueOne s t (sylCryptAt t 0 false tag.toNat (fun _ => blk.toNat) (fun _ => op))

/-! ### What the operations compute -/

/-- The answer of an operation: its status, octets for TAG, and output octets. -/
structure CryAns where
  status : Nat := 0
  tag : List Octet := []
  out : List Octet := []

/-- A verification's answer. -/
def verified (b : Bool) : CryAns := { status := if b then 0 else 0xB4 }

/-- Key usage bit and algorithm codes an operation needs (13 Table 13-3); none when it uses no key. -/
def opKey (op : Nat) : Option (Nat × List Nat) :=
  match op with
  | 0x02 => some (2, [5])
  | 0x03 => some (3, [5])
  | 0x04 => some (2, [1, 2])
  | 0x05 => some (3, [1, 2])
  | 0x06 => some (4, [1, 2])
  | 0x07 => some (5, [1, 2])
  | 0x08 => some (4, [3, 4])
  | 0x09 => some (5, [3, 4])
  | 0x0A => some (2, [3, 4])
  | 0x0B => some (3, [3, 4])
  | 0x0C => some (6, [1, 2])
  | 0x0D => some (7, [1, 2])
  | 0x10 => some (1, [7])
  | 0x11 => some (0, [6])
  | 0x12 => some (1, [9])
  | 0x13 => some (1, [0x0B])
  | 0x14 => some (0, [0x0A])
  | _ => none

/-- PREHASH of a request block. -/
def blkPrehash (b : List Octet) : Bool := bitOf (oct b 1) 0
/-- PAD2. -/
def blkPad2 (b : List Octet) : Bool := bitOf (oct b 1) 1
/-- PSS. -/
def blkPss (b : List Octet) : Bool := bitOf (oct b 1) 2
/-- TLEN. -/
def blkTlen (b : List Octet) : Nat := bitsOf (oct b 1) 6 3

/-- Length of the MAC a *_VER compares; 0 for other operations. -/
def macLen (op : Nat) : Nat := if op = 0x03 then 32 else if op = 0x05 then 16 else if op = 0x0B then 8 else 0

/-- Are LEN, AADLEN and TLEN in range (13 Tables 13-2, 13-3). -/
def lengthOk (op : Nat) (b : List Octet) : Bool :=
  let n := blkLen b
  let t := blkTlen b
  (decide (macLen op = 0) || decide (t = 0) || decide (4 ≤ t ∧ t ≤ macLen op)) &&
    (match op with
      | 0x06 => decide (n ≤ 16384 ∧ blkAad b ≤ n)
      | 0x07 => decide (n ≤ 16384 ∧ blkAad b ≤ n)
      | 0x08 => decide (n % 8 = 0 ∧ 8 ≤ n ∧ n ≤ 16384)
      | 0x09 => decide (n % 8 = 0 ∧ 8 ≤ n ∧ n ≤ 16384)
      | 0x0C => decide (n % 8 = 0 ∧ 16 ≤ n ∧ n ≤ 4096)
      | 0x0D => decide (n % 8 = 0 ∧ 24 ≤ n ∧ n ≤ 4104)
      | 0x18 => decide (1 ≤ n ∧ n ≤ 4096)
      | _ => decide (n ≤ 16384) && (!(opPk op && blkPrehash b) || decide (n = 32)))

/-- Compare a MAC with TAG over TLEN octets. -/
def macCheck (b mac : List Octet) : CryAns :=
  let n := if blkTlen b = 0 then mac.length else blkTlen b
  verified (decide (mac.take n = octs b 32 n))

/-- The SHA-256 digest a signature covers. -/
def signDigest (b data : List Octet) : List Octet := if blkPrehash b then fit 32 data else sha256 data

/-- The primes and exponents of an RSA private key, in the order of Table 13-6. -/
def rsaPart (k : List Octet) (i : Nat) : Nat := fieldBe k (260 + 128 * i) 128

/-- The deterministic operations, with the material of their key (13 R276). -/
def cryCompute (op : Nat) (b data sig : List Octet) (k : List Octet) : CryAns :=
  let iv := octs b 20 12
  let aad := data.take (blkAad b)
  let body := data.drop (blkAad b)
  match op with
  | 0x01 => { tag := sha256 data }
  | 0x02 => { tag := hmac k data }
  | 0x03 => macCheck b (hmac k data)
  | 0x04 => { tag := aesCmac k data }
  | 0x05 => macCheck b (aesCmac k data)
  | 0x06 => let ct := gcmCrypt k iv body
            { tag := gcmTag k iv aad ct, out := ct }
  | 0x07 => if gcmTag k iv aad body = octs b 32 16 then { out := gcmCrypt k iv body } else { status := 0xB4 }
  | 0x08 => { out := cbcEnc 8 (tdesEnc k) (data.length / 8) data (octs b 20 8) }
  | 0x09 => { out := cbcDec 8 (tdesDec k) (data.length / 8) data (octs b 20 8) }
  | 0x0A => { tag := mac3 (blkPad2 b) k data }
  | 0x0B => macCheck b (mac3 (blkPad2 b) k data)
  | 0x0C => { out := kwrap k data }
  | 0x0D => match kunwrap k data with
            | some p => { out := p }
            | none => { status := 0xB4 }
  | 0x10 => verified (ecdsaVerify k (signDigest b data) sig)
  | 0x11 => { out := ecdsaSign (beNat k) (signDigest b data) }
  | 0x12 => verified (ed25519Verify k data sig)
  | 0x13 => verified (rsaVerify (blkPss b) (fieldBe k 0 256) (fieldBe k 256 4) (signDigest b data) sig)
  | _ => {}

/-- RSA_SIGN: the salt of PSS comes from the random bit generator (13 R276, R278). -/
def rsaSignAns (s : State) (b data k : List Octet) : CryAns × State :=
  let sign := fun em => rsaSign (rsaPart k 0) (rsaPart k 1) (rsaPart k 2) (rsaPart k 3) (rsaPart k 4) em
  if blkPss b then
    if !s.cry.rbgRun then ({ status := 0xB7 }, s)
    else
      let (salt, s) := randomOctets s 32
      ({ out := sign (pssEncode (signDigest b data) salt) }, s)
  else ({ out := sign (pkcs1Encode (signDigest b data)) }, s)

/-- The key of a request: its material, or the status that refuses it (13 R276, R277, R279); a slot in error completes
POISON (R280). -/
def reqKey (s : State) (r : EngReq) : Nat × List Octet × State :=
  match opKey r.op with
  | none => (0, [], s)
  | some (use_, algs) =>
    let slot := fieldBe r.block 2 2
    match slotCheck s r.part (thrAgent r.thread) slot with
    | (false, s) => (0xB1, [], s)
    | (true, s) =>
      match mfind s.cry.keys slot with
      | none => (if s.cry.badSlots.contains slot then 0xB6 else 0xB1, [], s)
      | some k =>
        if !bitOf k.usage use_ || !algs.contains k.alg || (decide (r.op = 0x12) && blkPrehash r.block) then (0xB2, [], s)
        else (0, k.mat, s)

/-- What a request's engine answers, its self-check apart. -/
def reqAnswer (s : State) (r : EngReq) : CryAns × State :=
  let (st, k, s) := reqKey s r
  if st ≠ 0 then ({ status := st }, s)
  else if !lengthOk r.op r.block then ({ status := 0xB3 }, s)
  else if r.poison then ({ status := 0xB6 }, s)
  else if r.op = 0x18 then
    if !s.cry.rbgRun then ({ status := 0xB7 }, s)
    else
      let (l, s) := randomOctets s (blkLen r.block)
      ({ out := l }, s)
  else if r.op = 0x14 then rsaSignAns s r.block r.data k
  else (cryCompute r.op r.block r.data r.sig k, s)

/-- Count the outcome of a request in CRY_CNT (13 Table 13-17). -/
def cryOutcome (s : State) (r : EngReq) (status : Nat) : State :=
  let s := cryCnt s r.part 7 (opData r.op r.block)
  match status with
  | 0xB4 => cryCnt s r.part 2 1
  | 0xB2 => cryCnt s r.part 3 1
  | 0xBD => cryCnt s r.part 5 1
  | 0xB7 => cryCnt s r.part 6 1
  | _ => s

/-- Change the context of the task that made a request, or of its thread. -/
def updReqCtx (s : State) (r : EngReq) (f : Ctx → Ctx) : State :=
  match r.task with
  | some id => updTaskCtx s id f
  | none => updCtx s r.thread f

/-- A request completes: output in memory is written, what belongs to the window waits for the helper's completion
(13 R273). -/
def reqDone (s : State) (r : EngReq) (a : CryAns) : State :=
  let ok := decide (a.status = 0)
  let out := if ok then a.out else []
  let s := if r.outWin || out.isEmpty then s else devWrite s r.outAddr out
  let win := (if r.outWin && !out.isEmpty then [(r.outAddr, out)] else []) ++
    (if ok && !a.tag.isEmpty then [(r.blockOff + 32, a.tag)] else []) ++ [(r.blockOff, beOctets 1 a.status)]
  updReqCtx s r (fun c => match mfind c.tags r.tag with
    | some x => if x.kind = .crypt then { c with tags := mput c.tags r.tag { x with ready := true, win := win } } else c
    | none => c)

/-- Engines of a class in service (13 R274, 16 Table 16-5): of its engines that are not retired, the lowest-numbered, 16 of
17 symmetric and 24 of 26 public-key; the others are spares. -/
def enginesOf (s : State) (pk : Bool) : List Nat :=
  if pk then ((List.range 26).filter (fun e => !s.cry.pkRetired.contains e)).take 24
  else ((List.range 17).filter (fun e => !s.cry.symRetired.contains e)).take 16

/-- Engines an operation runs on: a P-256 or Ed25519 verify takes a pair (13 R271). -/
def opEngines (op : Nat) : Nat := if op = 0x10 ∨ op = 0x12 then 2 else 1

/-- An engine's self-check fails: counted against it; with FAR_CFG.AUTO, one that has failed more than FAR_THR.CETHR times
is taken out of service between its requests (13 R274). DESIGN CHOICE, log entry 71. -/
def engineFails (s : State) (pk : Bool) (e : Nat) : State :=
  let k := 32 * b2n pk + e
  let n := mget 0 s.cry.engErr k + 1
  let s := { s with cry := { s.cry with engErr := mset 0 s.cry.engErr k n } }
  if flag s 0x100 10 && !inRein s && decide (ceLimit s < n) then engineWorn s pk e else s

/-- The request at the head of an engine class completes (13 R271-R274) on the lowest-numbered engines in service; it waits
while there are too few. `fails` counts the self-checks that failed: after one it is re-executed on the next engine, a
second one is ENGINE_ERR. DEDUCED, log entry 71. -/
def engineComplete (s : State) (pk : Bool) (fails : Nat) : State :=
  match pickFirst (fun (r : EngReq) => decide (r.pk = pk)) s.cry.queue with
  | none => s
  | some (r, rest) =>
    let es := enginesOf s pk
    if es.length < opEngines r.op then s
    else
      let n := min 2 fails
      let s := { s with cry := { s.cry with queue := rest } }
      let s := (List.range n).foldl (fun s k => engineFails s pk (es.getD (k % es.length) 0)) s
      let (a, s) := if n = 2 then (({ status := 0xBD } : CryAns), s) else reqAnswer s r
      reqDone (cryOutcome s r a.status) r a

/-- ENGINE_REQUEST_COMPLETE. -/
def execEngineRequestComplete (pk : Bool) (checkFails : BitVec 2) (s : State) : Host.Outcome State Fault Refusal :=
  .next (engineComplete s pk checkFails.toNat)

/-- SHA256: OP 0x01. The operation word's OP is the row's. -/
def execSha256 (t : Thr) (tag : BitVec 2) (blk _opw : BitVec 36) (s : State) : Host.Outcome State Fault Refusal :=
  .next (cryptIssue s t tag blk 0x01)

/-- HMAC_GEN: OP 0x02. The operation word's OP is the row's. -/
def execHmacGen (t : Thr) (tag : BitVec 2) (blk _opw : BitVec 36) (s : State) : Host.Outcome State Fault Refusal :=
  .next (cryptIssue s t tag blk 0x02)

/-- HMAC_VER: OP 0x03. The operation word's OP is the row's. -/
def execHmacVer (t : Thr) (tag : BitVec 2) (blk _opw : BitVec 36) (s : State) : Host.Outcome State Fault Refusal :=
  .next (cryptIssue s t tag blk 0x03)

/-- CMAC_GEN: OP 0x04. The operation word's OP is the row's. -/
def execCmacGen (t : Thr) (tag : BitVec 2) (blk _opw : BitVec 36) (s : State) : Host.Outcome State Fault Refusal :=
  .next (cryptIssue s t tag blk 0x04)

/-- CMAC_VER: OP 0x05. The operation word's OP is the row's. -/
def execCmacVer (t : Thr) (tag : BitVec 2) (blk _opw : BitVec 36) (s : State) : Host.Outcome State Fault Refusal :=
  .next (cryptIssue s t tag blk 0x05)

/-- GCM_ENC: OP 0x06. The operation word's OP is the row's. -/
def execGcmEnc (t : Thr) (tag : BitVec 2) (blk _opw : BitVec 36) (s : State) : Host.Outcome State Fault Refusal :=
  .next (cryptIssue s t tag blk 0x06)

/-- GCM_DEC: OP 0x07. The operation word's OP is the row's. -/
def execGcmDec (t : Thr) (tag : BitVec 2) (blk _opw : BitVec 36) (s : State) : Host.Outcome State Fault Refusal :=
  .next (cryptIssue s t tag blk 0x07)

/-- TDES_ENC: OP 0x08. The operation word's OP is the row's. -/
def execTdesEnc (t : Thr) (tag : BitVec 2) (blk _opw : BitVec 36) (s : State) : Host.Outcome State Fault Refusal :=
  .next (cryptIssue s t tag blk 0x08)

/-- TDES_DEC: OP 0x09. The operation word's OP is the row's. -/
def execTdesDec (t : Thr) (tag : BitVec 2) (blk _opw : BitVec 36) (s : State) : Host.Outcome State Fault Refusal :=
  .next (cryptIssue s t tag blk 0x09)

/-- MAC3_GEN: OP 0x0A. The operation word's OP is the row's. -/
def execMac3Gen (t : Thr) (tag : BitVec 2) (blk _opw : BitVec 36) (s : State) : Host.Outcome State Fault Refusal :=
  .next (cryptIssue s t tag blk 0x0A)

/-- MAC3_VER: OP 0x0B. The operation word's OP is the row's. -/
def execMac3Ver (t : Thr) (tag : BitVec 2) (blk _opw : BitVec 36) (s : State) : Host.Outcome State Fault Refusal :=
  .next (cryptIssue s t tag blk 0x0B)

/-- KWRAP: OP 0x0C. The operation word's OP is the row's. -/
def execKwrap (t : Thr) (tag : BitVec 2) (blk _opw : BitVec 36) (s : State) : Host.Outcome State Fault Refusal :=
  .next (cryptIssue s t tag blk 0x0C)

/-- KUNWRAP: OP 0x0D. The operation word's OP is the row's. -/
def execKunwrap (t : Thr) (tag : BitVec 2) (blk _opw : BitVec 36) (s : State) : Host.Outcome State Fault Refusal :=
  .next (cryptIssue s t tag blk 0x0D)

/-- ECDSA_VER: OP 0x10. The operation word's OP is the row's. -/
def execEcdsaVer (t : Thr) (tag : BitVec 2) (blk _opw : BitVec 36) (s : State) : Host.Outcome State Fault Refusal :=
  .next (cryptIssue s t tag blk 0x10)

/-- ECDSA_SIGN: OP 0x11. The operation word's OP is the row's. -/
def execEcdsaSign (t : Thr) (tag : BitVec 2) (blk _opw : BitVec 36) (s : State) : Host.Outcome State Fault Refusal :=
  .next (cryptIssue s t tag blk 0x11)

/-- ED25519_VER: OP 0x12. The operation word's OP is the row's. -/
def execEd25519Ver (t : Thr) (tag : BitVec 2) (blk _opw : BitVec 36) (s : State) : Host.Outcome State Fault Refusal :=
  .next (cryptIssue s t tag blk 0x12)

/-- RSA_VER: OP 0x13. The operation word's OP is the row's. -/
def execRsaVer (t : Thr) (tag : BitVec 2) (blk _opw : BitVec 36) (s : State) : Host.Outcome State Fault Refusal :=
  .next (cryptIssue s t tag blk 0x13)

/-- RSA_SIGN: OP 0x14. The operation word's OP is the row's. -/
def execRsaSign (t : Thr) (tag : BitVec 2) (blk _opw : BitVec 36) (s : State) : Host.Outcome State Fault Refusal :=
  .next (cryptIssue s t tag blk 0x14)

/-- RANDOM: OP 0x18. The operation word's OP is the row's. -/
def execRandom (t : Thr) (tag : BitVec 2) (blk _opw : BitVec 36) (s : State) : Host.Outcome State Fault Refusal :=
  .next (cryptIssue s t tag blk 0x18)

end Sys2Proof.Machine
end

