-- ==== Sys2Proof/Machine/Bundle.lean ====
section
/-! DEFINITION. BUNDLE_ISSUE: a thread fetches the bundle at its PC from its cluster's instruction store and issues it
(09 R180-R186, Tables 09-1 to 09-7; 08 R168, R169). -/

namespace Sys2Proof.Machine

/-- The fetch check of the word at PC: within descriptor 0, which names the instruction store with X (08 R168). -/
def fetchChk (s : State) (p pc : Nat) : Chk :=
  let v := (segEnt s p 0).view p 0
  if pc < v.base then (if v.valid then .bad 4 else .bad 1)
  else segCheck v [spIst] { x := true } (pc - v.base) 1

/-- The words from PC to the first stop bit, or four. -/
def bundleWords (s : State) (t : Nat) : Nat → Nat → List W36
  | 0, _ => []
  | n + 1, pc =>
    let w := istWord s (t / 128) pc
    if w.getLsbD 35 then [w] else w :: bundleWords s t n ((pc + 1) % 65536)

/-- The fields of a syllable (Tables 09-1 and 09-2). -/
def syUnit (w : W36) : Nat := (w.extractLsb 34 33).toNat
def syGuard (w : W36) : Gd := w.extractLsb 32 29
def syOpc (w : W36) : Nat := (w.extractLsb 28 23).toNat
def syRd (w : W36) : BitVec 5 := w.extractLsb 22 18
def syRa (w : W36) : BitVec 5 := w.extractLsb 17 13
def syRb (w : W36) : BitVec 5 := w.extractLsb 12 8
def syMod (w : W36) : BitVec 8 := w.extractLsb 7 0
def syImm (w : W36) : BitVec 13 := w.extractLsb 12 0
def syImm18 (w : W36) : BitVec 18 := w.extractLsb 17 0
def syTarget (w : W36) : BitVec 16 := w.extractLsb 22 7

/-- A syllable whose opcode is undefined for its unit (09 R181). -/
def sylUndef (w : W36) : Syl := { unit := syUnit w, guard := syGuard w, undef := true, fx := fun _ => {} }

/-- The decimal opcodes, of unit A1 alone (Table 09-4). -/
def decDecode (t : Thr) (w : W36) : Syl :=
  let g := syGuard w
  let rd := syRd w
  let ra := syRa w
  let rb := syRb w
  let md := syMod w
  match syOpc w with
  | 40 => sylDadd t 1 g rd ra rb md
  | 41 => sylDsub t 1 g rd ra rb md
  | 42 => sylDcmp t 1 g rd ra rb md
  | 43 => sylDchk t 1 g rd ra rb md
  | 44 => sylCvbd t 1 g rd ra rb md
  | 45 => sylCvdb t 1 g rd ra rb md
  | 46 => sylLuhn t 1 g rd ra rb md
  | _ => sylUndef w

/-- Units A0 and A1 (Tables 09-3 and 09-4). -/
def aluDecode (t : Thr) (u : Nat) (w : W36) : Syl :=
  let g := syGuard w
  let rd := syRd w
  let ra := syRa w
  let rb := syRb w
  let md := syMod w
  let im := syImm w
  match syOpc w with
  | 0 => sylNop u g
  | 1 => sylAdd t u g rd ra rb md
  | 2 => sylSub t u g rd ra rb md
  | 3 => sylAnd t u g rd ra rb md
  | 4 => sylOr t u g rd ra rb md
  | 5 => sylXor t u g rd ra rb md
  | 6 => sylAndn t u g rd ra rb md
  | 7 => sylShl t u g rd ra rb md
  | 8 => sylShr t u g rd ra rb md
  | 9 => sylSar t u g rd ra rb md
  | 10 => sylRol t u g rd ra rb md
  | 11 => sylSel t u g rd ra rb md
  | 12 => sylCmp t u g rd ra rb md
  | 13 => sylPlog t u g rd ra rb md
  | 14 => sylPrd t u g rd ra rb md
  | 15 => sylPwr t u g rd ra rb md
  | 16 => sylPar t u g rd ra rb md
  | 17 => sylBrev t u g rd ra rb md
  | 18 => sylOrev t u g rd ra rb md
  | 19 => sylBcnt t u g rd ra rb md
  | 20 => sylAddi t u g rd ra im
  | 21 => sylAndi t u g rd ra im
  | 22 => sylOri t u g rd ra im
  | 23 => sylXori t u g rd ra im
  | 24 => sylShli t u g rd ra im
  | 25 => sylShri t u g rd ra im
  | 26 => sylSari t u g rd ra im
  | 27 => sylRoli t u g rd ra im
  | 28 => sylExti t u g rd ra im
  | 29 => sylDepi t u g rd ra im
  | 30 => sylCmpeqi t u g rd ra im
  | 31 => sylCmpnei t u g rd ra im
  | 32 => sylCmplti t u g rd ra im
  | 33 => sylCmpltui t u g rd ra im
  | 34 => sylLil t u g rd (syImm18 w)
  | 35 => sylLih t u g rd (syImm18 w)
  | _ => if u = 1 then decDecode t w else sylUndef w

/-- Unit M, task and lock operations (Table 09-6, opcodes 24 and above). -/
def helpDecode (t : Thr) (w : W36) : Syl :=
  let g := syGuard w
  let rd := syRd w
  let ra := syRa w
  let rb := syRb w
  let md := syMod w
  match syOpc w with
  | 24 => sylTbl t g rd ra rb md
  | 25 => sylSrch t g rd ra rb md
  | 26 => sylCrypt t g rd ra rb md
  | 27 => sylBuf t g rd ra rb md
  | 32 => sylDone false t g rd ra rb md
  | 33 => sylDone true t g rd ra rb md
  | 34 => sylDrop t g rd ra rb md
  | 35 => sylMove t g rd ra rb md
  | 36 => sylSplit t g rd ra rb md
  | 37 => sylDefer t g rd ra rb md
  | 38 => sylPost t g rd ra rb md
  | 39 => sylGetwork t g rd ra rb md
  | 40 => sylTimer t g rd ra rb md
  | 44 => sylLock t g rd ra rb md
  | 45 => sylUnlock t g rd ra rb md
  | 46 => sylChopen t g rd ra rb md
  | 47 => sylChw t g rd ra rb md
  | 48 => sylChpost t g rd ra rb md
  | 49 => sylChrd t g rd ra rb md
  | 50 => sylChnext t g rd ra rb md
  | 51 => sylSignal t g rd ra rb md
  | 52 => sylWaitev t g rd ra rb md
  | _ => sylUndef w

/-- Unit M (Tables 09-5 and 09-6). -/
def memDecode (t : Thr) (w : W36) : Syl :=
  let g := syGuard w
  let rd := syRd w
  let ra := syRa w
  let rb := syRb w
  let md := syMod w
  let im := syImm w
  match syOpc w with
  | 0 => sylNop 2 g
  | 1 => sylLd t g rd ra im
  | 2 => sylSt t g rd ra im
  | 3 => sylLdo t g rd ra im 1
  | 4 => sylLdo t g rd ra im 2
  | 5 => sylLdo t g rd ra im 4
  | 6 => sylSto t g rd ra im 1
  | 7 => sylSto t g rd ra im 2
  | 8 => sylSto t g rd ra im 4
  | 9 => sylLdd t g rd ra im
  | 10 => sylFld t g rd ra rb md
  | 11 => sylFst t g rd ra rb md
  | 12 => sylFmov t g rd ra rb md
  | 13 => sylLockw t g rd ra rb md
  | 14 => sylUnlockw t g rd ra rb md
  | 15 => sylXlat t g rd ra rb md
  | 16 => sylBmwalk t g rd ra rb md
  | 17 => sylTlvnext t g rd ra rb md
  | _ => helpDecode t w

/-- Unit X (Table 09-7); `len` is the length of the bundle, which BL links past. -/
def xDecode (t : Thr) (len : Nat) (w : W36) : Syl :=
  let g := syGuard w
  let rd := syRd w
  let ra := syRa w
  let rb := syRb w
  let md := syMod w
  match syOpc w with
  | 0 => sylNop 3 g
  | 1 => sylB t g (syTarget w)
  | 2 => sylBl t g (syTarget w) len
  | 3 => sylBr t g rd ra rb md
  | 4 => sylMul t g rd ra rb md
  | 5 => sylCrc t g rd ra rb md
  | 6 => sylMfsr t g rd ra rb md
  | 7 => sylMtsr t g rd ra rb md
  | 8 => sylTime t g rd ra rb md
  | 16 => sylBmove t g rd ra rb md
  | 17 => sylBfill t g rd ra rb md
  | 18 => sylCrcb t g rd ra rb md
  | 19 => sylXlatb t g rd ra rb md
  | 20 => sylLuhnx t g rd ra rb md
  | _ => sylUndef w

/-- A syllable of a bundle of `len` words. -/
def sylDecode (t : Thr) (len : Nat) (w : W36) : Syl :=
  match syUnit w with
  | 0 => aluDecode t 0 w
  | 1 => aluDecode t 1 w
  | 2 => memDecode t w
  | _ => xDecode t len w

/-- Do units ascend strictly. -/
def unitsAscend : List W36 → Bool
  | a :: b :: l => decide (syUnit a < syUnit b) && unitsAscend (b :: l)
  | _ => true

/-- A bundle undefined as a whole (09 R181). -/
def bundleUndef (ws : List W36) (syls : List Syl) : Bool :=
  !unitsAscend ws || !(ws.getLast?.any (fun w => w.getLsbD 35)) ||
    (decide (1 < ws.length) && syls.any (·.micro))

/-- An undefined bundle: no operation, but for PC and one violation. -/
def undefSyl (t : Thr) : Syl :=
  { unit := 0, guard := 0, undef := true, fx := fun _ => { run := fun s => thrViolate s t.toNat 5 0 0 } }

/-- The fetch of a thread fails: it issues nothing and keeps its PC; counted once (08 R169). -/
def fetchFail (s : State) (t p pc : Nat) : State :=
  coreCnt (updThr (thrViolate s t 4 0 pc) t (fun x => { x with fetchStop := true })) p 7

/-- Issue the bundle at PC. -/
def bundleGo (t : Thr) (s : State) : State :=
  let n := t.toNat
  match thrPart s n with
  | none => s
  | some p =>
    let pc := (thr s n).ctx.pc.toNat
    let ws := bundleWords s n 4 pc
    let chks := (List.range ws.length).map (fun k => (fetchChk s p ((pc + k) % 65536), (pc + k) % 65536))
    match chks.find? (fun c => match c.1 with
        | .ok _ _ => false
        | _ => true) with
    | some (.absent, a) => takeFault s n 1 2 0 a
    | some (_, a) => fetchFail s n p a
    | none =>
      let syls := ws.map (sylDecode t ws.length)
      issueSyls s n ws.length (if bundleUndef ws syls then [undefSyl t] else syls)

/-- BUNDLE_ISSUE: the whole bundle at a thread's PC issues, or waits (09 R183). -/
def execBundleIssue (t : Thr) (s : State) : Host.Outcome State Fault Refusal := .next (raisedDoubts (turnWith (noDoubts s) t.toNat (bundleGo t)))

end Sys2Proof.Machine
end

