-- ==== Sys2Proof/Machine/Rings.lean ====
section
/-! DEFINITION. The commands of the host interface (14 Table 14-8, R307, R308, R313, R314), module access (02 R38, R39),
and live microcode loads (10 R221-R224). -/

namespace Sys2Proof.Machine

/-- NOP_COMMAND. -/
def execNopCommand (c : CmdRef) (s : State) : Host.Outcome State Fault Refusal :=
  .next (hostCmd s c 0x00 (fun s => finish s c 0x00 0 0 0))

/-- SERVICE_NOP. -/
def execServiceNop (c : CmdRef) (s : State) : Host.Outcome State Fault Refusal :=
  .next (hostCmd s c 0xC3 (fun s => finish s c 0xC3 0 0 0))

/-! ### Program stores -/

/-- Words of an instruction store (SPACE 0) or a CSM (SPACE 1). -/
def prgSize (space : Nat) : Nat := if space = 0 then 65536 else 262144

/-- Check PRG_WRITE and PRG_READ: the status that refuses them, with a foreign cluster counted (14 R307). -/
def prgRefuse (s : State) (p cluster space woff count : Nat) : Option (Nat × State) :=
  if 1 < space ∨ count = 0 ∨ 4096 < count then some (0xC1, s)
  else if 15 < cluster ∨ clusterOwner s cluster ≠ some p then
    some (0xC6, if cluster ≤ 15 ∧ (clusterOwner s cluster).isSome then hostViolate s p 6 cluster else s)
  else if prgSize space < woff + count then some (0xC6, s)
  else none

/-- A word stored in 8 octets, right-aligned. -/
def wordAt (l : List Octet) (k : Nat) : W36 := BitVec.ofNat 36 (fieldBe l (8 * k) 8)

/-- PRG_WRITE. -/
def prgWrite (s : State) (c : CmdRef) (cluster space woff count addr : Nat) : State :=
  let p := c.part.toNat
  match prgRefuse s p cluster space woff count with
  | some (st, s) => finish s c 0x80 st 0 0
  | none =>
    let l := hostRead s p addr (8 * count)
    let put := fun (s : State) k =>
      if space = 0 then setIst s cluster (woff + k) (wordAt l k) else setCsm s cluster (woff + k) (wordAt l k)
    finish ((List.range count).foldl put s) c 0x80 0 0 0

/-- PRG_READ: words with an uncorrectable error go out poisoned, and it completes POISON (14 R314). -/
def prgRead (s : State) (c : CmdRef) (cluster space woff count addr : Nat) : State :=
  let p := c.part.toNat
  match prgRefuse s p cluster space woff count with
  | some (st, s) => finish s c 0x81 st 0 0
  | none =>
    let word := fun k => if space = 0 then istWord s cluster (woff + k) else csmWord s cluster (woff + k)
    let bad := fun k => decide (space = 1) && s.mem.csmBad.contains (cluster * 262144 + woff + k)
    let put := fun (s : State) k => if bad k then s else hostWrite s p (addr + 8 * k) (beOctets 8 (word k).toNat)
    let st := if (List.range count).any bad then 0xCB else 0
    finish ((List.range count).foldl put s) c 0x81 st 0 (8 * count)

/-- PRG_WRITE. -/
def execPrgWrite (c : CmdRef) (cluster space : BitVec 8) (woff : BitVec 24) (count : BitVec 16) (addr : BitVec 64)
    (s : State) : Host.Outcome State Fault Refusal :=
  .next (hostCmd s c 0x80 (fun s => prgWrite s c cluster.toNat space.toNat woff.toNat count.toNat addr.toNat))

/-- PRG_READ. -/
def execPrgRead (c : CmdRef) (cluster space : BitVec 8) (woff : BitVec 24) (count : BitVec 16) (addr : BitVec 64)
    (s : State) : Host.Outcome State Fault Refusal :=
  .next (hostCmd s c 0x81 (fun s => prgRead s c cluster.toNat space.toNat woff.toNat count.toNat addr.toNat))

/-! ### Modules -/

/-- Refuse a module access: an operand out of range, or no module in the cage (02 R39). -/
def modRefuse (s : State) (cage len max : Nat) : Option Nat :=
  if 31 < cage ∨ len = 0 ∨ max < len then some 0xC1
  else if mget false s.prt.modules cage then none
  else some 0xC9

/-- A transaction on a cage's I2C bus, its MODSEL_N asserted around it and no other's (02 R38). -/
def i2cBus (s : State) (cage : Nat) (e : Bool → OutEvent) : State :=
  { s with out := s.out ++ [.modSel cage true, e (flag s 0x10080 0), .modSel cage false] }

/-- MOD_READ: `answer` is what the module put on the bus, none when it did not acknowledge.
DESIGN CHOICE, log entry 104. -/
def modRead (s : State) (c : CmdRef) (cage page off len addr : Nat) (answer : Option (List Octet)) : State :=
  match modRefuse s cage len 128 with
  | some st => finish s c 0xC1 st 0 0
  | none =>
    let s := i2cBus s cage (fun fast => .i2cRead fast cage page off len)
    match answer with
    | none => finish s c 0xC1 0xCA 0 0
    | some l => finish (hostWrite s c.part.toNat addr (fit len l)) c 0xC1 0 0 len

/-- MOD_WRITE: `answered` says whether the module acknowledged. -/
def modWrite (s : State) (c : CmdRef) (cage page off len addr : Nat) (answered : Bool) : State :=
  match modRefuse s cage len 8 with
  | some st => finish s c 0xC2 st 0 0
  | none =>
    let s := i2cBus s cage (fun fast => .i2cWrite fast cage page off (hostRead s c.part.toNat addr len))
    finish s c 0xC2 (if answered then 0 else 0xCA) 0 0

/-- MOD_READ. -/
def execModRead (c : CmdRef) (cage page off len : BitVec 8) (addr : BitVec 64) (answer : Option (List Octet)) (s : State) :
    Host.Outcome State Fault Refusal :=
  .next (hostCmd (unwait s c) c 0xC1 (fun s => modRead s c cage.toNat page.toNat off.toNat len.toNat addr.toNat answer))

/-- MOD_WRITE. -/
def execModWrite (c : CmdRef) (cage page off len : BitVec 8) (addr : BitVec 64) (answered : Bool) (s : State) :
    Host.Outcome State Fault Refusal :=
  .next (hostCmd (unwait s c) c 0xC2 (fun s =>
    modWrite s c cage.toNat page.toNat off.toNat len.toNat addr.toNat answered))

/-! ### Microcode -/

/-- The fields of a patch image that its refusal turns on (10 Table 10-5). -/
structure PatchImage where
  id : Nat
  rom : Nat
  pgrev : Nat
  words : Nat
  matches_ : Nat
  bounds : List Nat

/-- Read the header of a patch image. -/
def patchHeader (l : List Octet) : PatchImage :=
  { id := fieldBe l 4 2, rom := oct l 6, pgrev := oct l 7, words := fieldBe l 8 2, matches_ := oct l 10,
    bounds := (List.range 5).map (fun k => fieldBe l (12 + 2 * k) 2) }

/-- What a patch image writes into a core: MATCH entries of a ROM address and a patch address, then WORDS of 14 octets,
bit 111 first (10 Table 10-5). -/
def patchOf (l : List Octet) : Patch :=
  let h := patchHeader l
  { id := h.id, pgrev := h.pgrev,
    mregs := (List.range h.matches_).map (fun k => (fieldBe l (32 + 4 * k) 2, fieldBe l (34 + 4 * k) 2)),
    ram := (List.range h.words).foldl (fun m k =>
      mset 0 m k (BitVec.ofNat 112 (fieldBe l (32 + 4 * h.matches_ + 14 * k) 14))) [] }

/-- The refusal rules of a patch image (10 Table 10-6); `live` adds the PG revision of the running patch. -/
def patchRefuse (s : State) (live : Bool) (l : List Octet) : Option Nat :=
  let h := patchHeader l
  let body := l.length - 64
  if l.length < 96 ∨ 7520 < l.length then some 0x83
  else if fieldBe l 0 4 ≠ 0x4D435054 ∨ !ecdsaVerify Config.patchKey (sha256 (l.take body)) (l.drop body) then some 0x80
  else if h.rom ≠ Config.romRev then some 0x81
  else if live ∧ h.pgrev ≠ s.far.pgrev then some 0x82
  else if h.bounds.any (fun b => decide (1024 < b)) ∨ 512 < h.words ∨ 64 < h.matches_ ∨ h.id = 0 ∨
      l.length ≠ 96 + 4 * h.matches_ + 14 * h.words then some 0x83
  else none

/-- Write a patch into the patch RAM and match registers of physical cores (10 R222, R223). -/
def patchCores (s : State) (x : Patch) (cores : List Nat) : State :=
  { s with far := { s.far with patches := cores.foldl (fun m k => mset {} m k x) s.far.patches } }

/-- Write a patch into every physical core, spares included (10 R222). -/
def patchAll (s : State) (x : Patch) : State :=
  let s := patchCores s x (List.range 144)
  { s with far := { s.far with pgrev := x.pgrev } }

/-- A live load has dealt with one more logical core of a cluster; with the last one, whatever core of the cluster
carries no logical core has its patch too. -/
def loadCount (s : State) (x : McsLoad) (c : Nat) : State :=
  let n := mget 0 x.done c + 1
  let s := if n = 8 then patchCores s x.patch ((List.range 9).map (fun k => c * 9 + k)) else s
  { s with far := { s.far with load := some { x with done := mset 0 x.done c n } } }

/-- Swap logical core `l` onto the spare `f`, which has the patch, and write the patch into the core that frees: it is the
spare of the next swap (10 R223 step 2). -/
def loadSwap (s : State) (x : McsLoad) (l f : Nat) : State :=
  let c := l / 8
  let s := coreStop s l
  let old := physOf s l
  let s := farCnt (setSpare { s with far := { s.far with phys := mset (c * 9 + l % 8) s.far.phys l f } } c (some old)) 0 1
  let s := match clusterOwner s c with
    | some p => doubtGone s p (fun d => decide (d.code = 0x02 ∧ d.res = l))
    | none => s
  loadCount (patchCores s x.patch [f, old]) x c

/-- One cluster of a live load goes on with its next logical core once that core has drained: by a swap through the
spare, or, where the spare is in use, stopped and written in place (10 R223). A swap in the cluster goes first, and in
Rein none starts (16 R347, Table 16-12). DESIGN CHOICE, log entry 102. -/
def loadCluster (s : State) (c : Nat) : State :=
  match s.far.load with
  | none => s
  | some x =>
    let l := c * 8 + mget 0 x.done c
    if 8 ≤ mget 0 x.done c || s.far.draining.any (fun d => decide (d.1 / 8 = c)) then s
    else match spareOf s c with
      | some f =>
        if inRein s then s
        else if coreDrained s l then
          loadSwap { s with far := { s.far with loadDrain := s.far.loadDrain.filter (· ≠ l) } } x l f
        else if s.far.loadDrain.contains l then s
        else (coreThreads l).foldl noteDeferral { s with far := { s.far with loadDrain := s.far.loadDrain ++ [l] } }
      | none =>
        if !s.far.loadDrain.contains l then
          (coreThreads l).foldl noteDeferral { s with far := { s.far with loadDrain := s.far.loadDrain ++ [l] } }
        else if coreDrained s l then
          let s := { s with far := { s.far with loadDrain := s.far.loadDrain.filter (· ≠ l) } }
          loadCount (patchCores (coreStop s l) x.patch [physOf s l]) x c
        else s

/-- A live load stops where it stands: the cores written keep the new patch (10 R224). -/
def loadStop (s : State) : State := { s with far := { s.far with load := none, loadDrain := [] } }

/-- A live load goes on in every cluster, and completes when all 144 cores carry its patch; Bolt of the device or of the
supervisor's partition interrupts it (10 R223, R224). -/
def loadSettle (s : State) : State :=
  match s.far.load with
  | none => s
  | some x =>
    if inBolt s x.cmd.part.toNat then finish (loadStop s) x.cmd 0xC0 0x86 0 0
    else
      let s := (List.range 16).foldl loadCluster s
      match s.far.load with
      | none => s
      | some x =>
        if (List.range 16).all (fun c => decide (8 ≤ mget 0 x.done c)) then
          finish (jnlEvent (loadStop s) 0x21 0 8 0xFF (beOctets 2 x.patch.id)) x.cmd 0xC0 0 0 0
        else s

/-- MCS_LOAD: a load that is not refused begins (10 R223, R224). -/
def mcsLoad (s : State) (c : CmdRef) (addr len : Nat) : State :=
  let p := c.part.toNat
  if inBolt s p then finish s c 0xC0 0x86 0 0
  else if !isSup s p then finish s c 0xC0 0x85 0 0
  else if s.far.load.isSome then finish s c 0xC0 0x84 0 0
  else
    let l := hostRead s p addr (min len 7521)
    match patchRefuse s true l with
    | some st => finish s c 0xC0 st 0 0
    | none => { s with far := { s.far with load := some { cmd := c, patch := patchOf l } } }

/-- MCS_LOAD: its own status for Bolt (10 Table 10-6). -/
def execMcsLoad (c : CmdRef) (addr : BitVec 64) (len : BitVec 32) (s : State) : Host.Outcome State Fault Refusal :=
  .next (if inReset s c.part.toNat then s
    else if opcRefused s c 0xC0 then finish s c 0xC0 0xC0 0 0
    else mcsLoad s c addr.toNat len.toNat)

/-! ### DMA -/

/-- What checking a device range of a copy answers: a violation kind, absent, or an address (14 R307). -/
def dmaCheck (s : State) (p : Nat) (raw : Bool) (sel off n : Nat) (write : Bool) : Chk :=
  if raw then
    if inRange s p off (off + n - 1) then .ok 3 off else .bad 6
  else if 1023 < sel then .bad 1
  else segCheck ((segEnt s p sel).view p sel) [spSram, spHbm] { r := !write, w := write } off n

/-- Does a copy write its DOFF side: all but MODE 01. -/
def dmaWritesDev (mode : Nat) : Bool := decide (mode % 4 ≠ 1)

/-- Check both device sides of a copy over `n` octets from `k`: the ADDR side of MODE 10 is a device address. -/
def dmaSides (s : State) (d : Dma) (k n : Nat) : Chk :=
  let p := d.cmd.part.toNat
  let other := if d.mode % 4 = 2 then dmaCheck s p true 0 (d.addr + k) n false else .ok 3 0
  match other with
  | .ok _ _ => dmaCheck s p d.raw d.sel (d.doff + k) n (dmaWritesDev d.mode)
  | c => c

/-- A failed check of a host command's device address. DEDUCED, log entry 107. -/
def dmaViolate (s : State) (c : CmdRef) (kind sel off : Nat) : State :=
  violate s c.part.toNat kind (hostAgent c.part.toNat) (if kind = 6 then 0 else sel) off

/-- DMA_COPY: its operands are checked and its transfer begins (14 R307, R313). -/
def dmaCopy (s : State) (c : CmdRef) (mode sel doff addr len : Nat) : State :=
  if mode % 4 = 3 ∨ len = 0 ∨ 16777216 < len then finish s c 0x02 0xC1 0 0
  else
    let d : Dma := {
      readAt := s.now, cmd := c, mode := mode % 4, raw := bitOf mode 2, sel := sel, doff := doff, addr := addr, len := len }
    match dmaSides s d 0 len with
    | .bad k => finish (dmaViolate s c k sel doff) c 0x02 0xC6 0 0
    | _ => { s with gpl := { s.gpl with dma := s.gpl.dma ++ [d] } }

/-- DMA_COPY. -/
def execDmaCopy (c : CmdRef) (mode : BitVec 8) (sel : BitVec 16) (doff : BitVec 40) (addr : BitVec 64) (len : BitVec 32)
    (s : State) : Host.Outcome State Fault Refusal :=
  .next (hostCmd s c 0x02 (fun s => dmaCopy s c mode.toNat sel.toNat doff.toNat addr.toNat len.toNat))

/-- Octets of the next chunk: at most 512, not across a 512-octet boundary of ADDR (14 R313). -/
def chunkLen (d : Dma) : Nat := min (d.len - d.moved) (512 - (d.addr + d.moved) % 512)

/-- End a transfer with a status; LEN counts the octets moved. -/
def dmaEnd (s : State) (d : Dma) (status : Nat) : State :=
  finish { s with gpl := { s.gpl with dma := s.gpl.dma.filter (fun x => decide (x.cmd ≠ d.cmd)) } } d.cmd 0x02 status 0 d.moved

/-- Replace a transfer. -/
def dmaSet (s : State) (d : Dma) : State :=
  { s with gpl := { s.gpl with dma := s.gpl.dma.map (fun x => if x.cmd = d.cmd then d else x) } }

/-- Move one chunk whose sides have been checked; device data with an uncorrectable error ends the copy POISON. -/
def chunkMove (s : State) (d : Dma) (n dev : Nat) : State :=
  let p := d.cmd.part.toNat
  let a := d.addr + d.moved
  let bad := match d.mode with
    | 0 => false
    | 1 => devPoisoned s dev n
    | _ => devPoisoned s a n
  if bad then dmaEnd s d 0xCB
  else
    let s := match d.mode with
      | 0 => devWrite s dev (hostRead s p a n)
      | 1 => hostWrite s p a (viewRead s dev n)
      | _ => devWrite s dev (viewRead s a n)
    let d := { d with moved := d.moved + n, paused := none, readAt := s.now }
    if d.len ≤ d.moved then dmaEnd s d 0 else dmaSet s d

/-- The next chunk of a transfer: moved, paused on an absent segment, or refused (14 R307, R314). -/
def dmaStep (s : State) (d : Dma) : State :=
  let n := chunkLen d
  match dmaSides s d d.moved n with
  | .ok _ dev => chunkMove s d n dev
  | .absent => if d.paused.isSome then s else dmaSet s { d with paused := some s.now }
  | .bad k => dmaEnd (dmaViolate s d.cmd k d.sel (d.doff + d.moved)) d 0xC6

/-- Has a transfer a chunk to move now. -/
def dmaReady (s : State) (d : Dma) : Bool :=
  !inReset s d.cmd.part.toNat && (d.paused.isNone || decide (dmaSides s d d.moved (chunkLen d) ≠ .absent))

/-- The transfer the DMA engine of a port serves next: the highest ring priority, round-robin among rings of equal
priority, the oldest of its ring (14 R313). DESIGN CHOICE, log entry 79. -/
def dmaPick (s : State) (port : Nat) : Option Dma :=
  let l := s.gpl.dma.filter (fun d => dmaReady s d && decide (funcOf s d.cmd.part.toNat / 2 = port))
  match (l.map (fun d => ringPrio s d.cmd.ring.toNat)).min? with
  | none => none
  | some k =>
    let l := l.filter (fun d => decide (ringPrio s d.cmd.ring.toNat = k))
    let last := mget 4095 s.gpl.dmaLast (16 * port + k)
    let turn := fun (d : Dma) => (d.cmd.ring.toNat + 4095 - last) % 4096
    match (l.map turn).min? with
    | none => none
    | some m => l.find? (fun d => decide (turn d = m))

/-! ### Transmit -/

/-- A transmit descriptor as TRANSMIT names it. -/
structure TxArgs where
  dev : Bool
  tsReq : Bool
  addr : Nat
  sel : Nat
  doff : Nat
  len : Nat
  eq : Nat
  eflags : Nat

/-- Complete a transmit descriptor. -/
def txFinish (s : State) (c : CmdRef) (status eq : Nat) : State := complete s c status 0x02 0 0 (beOctets 2 eq)

/-- A frame's octets are at hand: it takes its buffer and its queue place, or waits behind its ring (14 R308).
DEDUCED, log entry 65. -/
def txQueue (s : State) (c : CmdRef) (d : List Octet) (eq ef : Nat) (ts : Bool) : State :=
  let behind := s.gpl.waiting.any (fun w => decide (w.cmd.ring = c.ring) && (match w.what with
    | .tx _ _ _ _ => true
    | .txDev _ _ _ _ _ _ => true
    | _ => false))
  let wait := { s with gpl := { s.gpl with waiting := s.gpl.waiting ++ [⟨c, s.now, .tx d eq ef ts⟩] } }
  if behind then wait else (txPlace s c d eq ef ts).getD wait

/-- The source of a frame in a device segment, checked: its octets, or the end of the descriptor; none while the segment
is absent (14 R307, R308, R314). -/
def txDevice (s : State) (c : CmdRef) (sel doff len eq : Nat) : Option (Option (List Octet) × State) :=
  match dmaCheck s c.part.toNat false sel doff len false with
  | .bad k => some (none, txFinish (dmaViolate s c k sel doff) c 0xC6 eq)
  | .absent => none
  | .ok _ a => if devPoisoned s a len then some (none, txFinish s c 0xCB eq) else some (some (viewRead s a len), s)

/-- TRANSMIT (14 R308). -/
def transmitNow (s : State) (c : CmdRef) (x : TxArgs) : State :=
  let p := c.part.toNat
  if inReset s p then s
  else if inBolt s p then txFinish s c 0xC4 x.eq
  else if x.len = 0 ∨ 9212 < x.len then txFinish s c 0xC1 x.eq
  else if 4095 < x.eq ∨ !queueEn s x.eq ∨ queueOwner s x.eq ≠ some p then
    let foreign := decide (x.eq < 4096) && (queueOwner s x.eq).isSome && decide (queueOwner s x.eq ≠ some p)
    txFinish (if foreign then hostViolate s p 6 x.eq else s) c 0xC5 x.eq
  else if x.dev then
    match txDevice s c x.sel x.doff x.len x.eq with
    | some (some d, s) => txQueue s c d x.eq x.eflags x.tsReq
    | some (none, s) => s
    | none => { s with gpl := { s.gpl with
        waiting := s.gpl.waiting ++ [⟨c, s.now, .txDev x.sel x.doff x.len x.eq x.eflags x.tsReq⟩] } }
  else txQueue s c (hostRead s p x.addr x.len) x.eq x.eflags x.tsReq

/-- TRANSMIT. -/
def execTransmit (c : CmdRef) (dev tsReq : Bool) (addr : BitVec 64) (sel : BitVec 16) (doff : BitVec 40)
    (len eq eflags : BitVec 16) (s : State) : Host.Outcome State Fault Refusal :=
  .next (transmitNow s c {
    dev := dev, tsReq := tsReq, addr := addr.toNat, sel := sel.toNat, doff := doff.toNat, len := len.toNat,
    eq := eq.toNat, eflags := eflags.toNat })

/-- Replace a waiting command, or take it out. -/
def waitingPut (s : State) (w : Waiting) (l : List Waiting) : State :=
  { s with gpl := { s.gpl with waiting := s.gpl.waiting.flatMap (fun x => if x = w then l else [x]) } }

/-- Resume the oldest transmit whose segment has come back: its frame keeps its place before the later ones of its ring
(14 R308, R314). -/
def txResume (s : State) : State :=
  match s.gpl.waiting.findSome? (fun w => match w.what with
      | .txDev sel doff len eq ef ts => (txDevice s w.cmd sel doff len eq).map (fun r => match r with
        | (some d, s) => txRetry (waitingPut s w [{ w with what := .tx d eq ef ts }])
        | (none, s) => waitingPut s w [])
      | _ => none) with
  | some s' => s'
  | none => s

/-- The engine of a port moves its next chunk. -/
def dmaEngine (s : State) (port : Nat) : State :=
  match dmaPick s port with
  | some d =>
    let k := 16 * port + ringPrio s d.cmd.ring.toNat
    dmaStep { s with gpl := { s.gpl with dmaLast := mset 4095 s.gpl.dmaLast k d.cmd.ring.toNat } } d
  | none => s

/-- DMA_CHUNK (14 R313): the engine of each port moves a chunk, and a transmit whose segment is back resumes.
DESIGN CHOICE, log entry 79. -/
def execDmaChunk (s : State) : Host.Outcome State Fault Refusal :=
  .next (txResume ((List.range 4).foldl dmaEngine s))

/-- ABSTO in ns (14 Table 14-18). -/
def absTime (s : State) : Nat := 100000 * max 1 (fld s 0xD0000 6 0)

/-- ABSENT_TIMEOUT: a transfer whose segment is still absent (14 R314). -/
def absentTimeout (s : State) (c : CmdRef) : State :=
  match s.gpl.dma.find? (fun d => decide (d.cmd = c)) with
  | some d =>
    match d.paused with
    | some t =>
      if t + absTime s ≤ s.now ∧ dmaSides s d d.moved (chunkLen d) = .absent then
        dmaEnd (gplCnt s c.part.toNat 8 1) d 0xC2
      else s
    | none => s
  | none =>
    match s.gpl.waiting.find? (fun w => decide (w.cmd = c)) with
    | some w =>
      match w.what with
      | .txDev _ _ _ eq _ _ =>
        if w.since + absTime s ≤ s.now then txFinish (gplCnt (unwait s c) c.part.toNat 8 1) c 0xC2 eq else s
      | _ => s
    | none => s

/-- ABSENT_TIMEOUT. -/
def execAbsentTimeout (c : CmdRef) (s : State) : Host.Outcome State Fault Refusal := .next (absentTimeout s c)

end Sys2Proof.Machine
end

