-- ==== Sys2Proof/Machine/Debug.lean ====
section
/-! DEFINITION. Gait monitors (17 R360-R364), thread debug (17 R367-R370) and the audit lock (17 R371, R372). -/

namespace Sys2Proof.Machine

/-! ### Gait monitors -/

/-- A monitor. -/
def gaitSt (s : State) (m : Nat) : Monitor := mget {} s.dbg.gait m

/-- Store a monitor. -/
def setGait (s : State) (m : Nat) (x : Monitor) : State := { s with dbg := { s.dbg with gait := mset {} s.dbg.gait m x } }

/-- Is a monitor enabled (GAIT_CFG W0 EN). -/
def gaitEn (s : State) (m : Nat) : Bool := bitOf (rdGait s m 0) 28

/-- The bin of a sample (17 R363): MODE, BASE and WIDTH of the monitor. -/
def gaitBin (linear : Bool) (w1 v : Nat) : Nat :=
  if linear then
    let base := bitsOf w1 15 0
    if v < base then 0 else min 63 ((v - base) / max 1 (bitsOf w1 31 16))
  else
    let base := bitsOf w1 4 0
    if v < 2 ^ base then 0 else min 63 (v.log2 - base + 1)

/-- Live statistics with one more sample (17 R363). -/
def GStats.add (g : GStats) (bin v : Nat) : GStats :=
  { g with
    min := Nat.min g.min v, max := Nat.max g.max v, count := (g.count + 1) % 2 ^ 64, sum := Nat.min (2 ^ 64 - 1) (g.sum + v),
    bins := mset 0 g.bins bin (Nat.min (2 ^ 32 - 1) (mget 0 g.bins bin + 1)) }

/-- A monitor takes a sample (17 R363). -/
def gaitTake (s : State) (m v : Nat) : State :=
  let x := gaitSt s m
  setGait s m { x with live := x.live.add (gaitBin (bitOf (rdGait s m 0) 23) (rdGait s m 1) v) v }

/-- A monitor takes the oldest sample that an event has yielded, if there is one. -/
def gaitTakeDue (s : State) (m : Nat) : State :=
  match (gaitSt s m).due with
  | v :: rest => gaitTake (setGait s m { gaitSt s m with due := rest }) m v
  | [] => s

/-- Take every sample whose event has been (17 R364). -/
def gaitSettle : Nat → State → Nat → State
  | 0, s, _ => s
  | fuel + 1, s, m => gaitSettle fuel (gaitTakeDue s m) m

/-- The level a monitor samples, by SRC and PARAM (17 Table 17-2); what the model does not hold is read from outside as
`v`. DEDUCED, log entry 91. -/
def gaitLevel (s : State) (w0 v : Nat) : Nat :=
  let k := bitsOf w0 21 10
  match bitsOf w0 3 0 with
  | 2 => queueDepth s k % 4096
  | 3 => poolFree s k
  | 6 => if k = 16 then s.hbm.temp + 273 else v
  | 7 => if k = 0 then s.hkc.vin else v
  | _ => v

/-- Time between the samples of a level, or of the HBM's reads, in ns (17 R361); supply comparisons sample at any time under
SAMPLE 0. -/
def gaitPeriod (w0 : Nat) : Nat :=
  if bitsOf w0 3 0 = 5 then 100
  else if bitsOf w0 3 0 = 7 ∧ bitsOf w0 26 24 = 0 then 0
  else 1000 * 2 ^ bitsOf w0 26 24

/-- A monitor samples (17 R361-R363): the oldest sample of its events, or its level when that is due. -/
def gaitSampleNow (s : State) (m v : Nat) : State :=
  let w0 := rdGait s m 0
  if !gaitEn s m then s
  else if bitsOf w0 3 0 = 1 ∨ bitsOf w0 3 0 = 4 then gaitTakeDue s m
  else if s.now < (gaitSt s m).levelAt + gaitPeriod w0 then s
  else gaitTake (setGait s m { gaitSt s m with levelAt := s.now }) m (gaitLevel s w0 v)

/-- Snapshot a monitor and clear its live statistics: samples of events before it are taken first (17 R364). -/
def gaitSnapshot (s : State) (m : Nat) : State :=
  let s := gaitSettle (gaitSt s m).due.length s m
  let x := gaitSt s m
  setGait s m { x with live := { tstart := tai s }, snap := { x.live with tsnap := tai s }, seq := x.seq + 1 }

/-- WLEN in ns. -/
def gaitWindow (s : State) (m : Nat) : Nat := 1000 * max 1 (bitsOf (rdGait s m 2) 19 0)

/-- A timed window ends. -/
def gaitWindowEnd (s : State) (m : Nat) : State :=
  if gaitEn s m && bitOf (rdGait s m 0) 27 && decide ((gaitSt s m).live.tstart + gaitWindow s m ≤ tai s) then gaitSnapshot s m
  else s

/-- The monitor a partition has selected. -/
def gaitSel (s : State) (p : Nat) : Nat := bitsOf (rdPart s p 0x100) 7 0

/-- SNAP of the selected monitor; naming a foreign one is a violation (17 R360). -/
def gaitSnapSel (s : State) (p : Nat) : State :=
  let m := gaitSel s p
  if monOwner s m = some p then gaitSnapshot s m else hostViolate s p 6 m

/-- PSNAP: every enabled monitor of the partition. -/
def gaitPsnap (s : State) (p : Nat) : State :=
  ((List.range 256).filter (fun m => gaitEn s m && decide (monOwner s m = some p))).foldl gaitSnapshot s

/-- Does PARAM name a queue, pool or domain that the owner does not own (17 R361). -/
def gaitForeign (s : State) (p w0 : Nat) : Bool :=
  let k := bitsOf w0 21 10
  match bitsOf w0 3 0 with
  | 1 => !bitOf w0 22 && decide (domOwner s k ≠ some p)
  | 2 => decide (queueOwner s k ≠ some p)
  | 3 => decide (63 < k) || decide (poolOwner s k ≠ some p)
  | _ => false

/-- A write of GAIT_CFG word `w` of monitor `m` by its owner (17 R360, R361). -/
def gaitCfgWrite (s : State) (p m w v : Nat) : State :=
  let off := 0x110 + 4 * w
  let keep := if w = 0 then v % 2 ^ 29 else if w = 1 then v else v % 2 ^ 20
  if monOwner s m ≠ some p then hostViolate s p 6 m
  else if gaitEn s m then
    if w = 0 ∧ !bitOf v 28 then wrGait (gaitSettle (gaitSt s m).due.length s m) m 0 keep else hostViolate s p 7 (off / 4)
  else if w = 0 ∧ bitOf v 28 then
    let src := bitsOf v 3 0
    if src = 0 ∨ 7 < src then hostViolate s p 7 (off / 4)
    else if gaitForeign s p v then hostViolate s p 6 (bitsOf v 21 10)
    else setGait (wrGait s m 0 keep) m { gaitSt s m with live := { tstart := tai s }, due := [], levelAt := s.now }
  else wrGait s m w keep

/-- GAIT_ENABLE: a write of GAIT_CFG W0 by the monitor's owner. -/
def execGaitEnable (mon : BitVec 8) (value : BitVec 32) (s : State) : Host.Outcome State Fault Refusal :=
  .next (match monOwner s mon.toNat with
    | some p => if inReset s p then s else gaitCfgWrite s p mon.toNat 0 value.toNat
    | none => s)

/-- SNAP. -/
def execGaitSnap (part : BitVec 3) (s : State) : Host.Outcome State Fault Refusal :=
  .next (if inReset s part.toNat then s else gaitSnapSel s part.toNat)

/-- PSNAP. -/
def execGaitPsnap (part : BitVec 3) (s : State) : Host.Outcome State Fault Refusal :=
  .next (if inReset s part.toNat then s else gaitPsnap s part.toNat)

/-- GAIT_WINDOW_END. -/
def execGaitWindowEnd (mon : BitVec 8) (s : State) : Host.Outcome State Fault Refusal := .next (gaitWindowEnd s mon.toNat)

/-- GAIT_SAMPLE. -/
def execGaitSample (mon : BitVec 8) (value : BitVec 32) (s : State) : Host.Outcome State Fault Refusal :=
  .next (gaitSampleNow s mon.toNat value.toNat)

/-! ### Thread debug -/

/-- The thread DBG_TSEL names, in a cluster that has an owner. -/
def dbgThread (s : State) : Option Nat := (agentThr (rdDev s 0xE0000 % 65536)).filter (fun t => (thrPart s t).isSome)

/-- Does the audit lock refuse the debug operation (17 R371). -/
def debugLocked (s : State) : Bool := s.dbg.locked && s.dbg.unlockUntil.isNone

/-- Count a refused debug operation. -/
def debugRefused (s : State) (agent off : Nat) : State := violate s 0 0xA agent (off / 4) 0

/-- HALT (17 R367): at once in GETWORK and in WAITEV, else at the next boundary. DEDUCED, log entry 92. -/
def haltReqNow (s : State) (t : Nat) : State :=
  let x := thr s t
  if x.halted then s
  else if x.mode = .getwork ∨ (x.mode = .run ∧ x.inWait) then haltThread s t 1 x.bphit.toNat
  else noteDeferral (updThr s t (fun x => { x with haltReq := true })) t

/-- Release a halted thread, for one bundle with `step` (17 R368). -/
def releaseHalt (s : State) (t : Nat) (step : Bool) : State :=
  if (thr s t).halted then
    let s := updThr s t (fun x => { x with halted := false, haltReq := false, skipBp := true, stepping := step })
    if (thr s t).mode = .getwork then joinWaiters s t else s
  else s

/-- A write of DBG_TCTL (17 Table 17-7). -/
def tctlWrite (s : State) (agent v : Nat) : State :=
  let s :=
    if bitOf v 0 then
      if debugLocked s then debugRefused s agent 0xE0004
      else match dbgThread s with
        | some t => haltReqNow s t
        | none => s
    else s
  let s :=
    if bitOf v 1 then
      (match dbgThread s with
        | some t => releaseHalt s t false
        | none => s)
    else s
  if bitOf v 2 then
    if debugLocked s then debugRefused s agent 0xE0004
    else match dbgThread s with
      | some t => releaseHalt s t true
      | none => s
  else s

/-- A register of a thread by its DBG_TREG number (17 R369). -/
def tregRead (s : State) (t n : Nat) : Nat :=
  let c := (thr s t).ctx
  if n < 32 then (c.g n).toNat
  else if n = 32 then c.preds.toNat / 2 * 2 + 1
  else if n = 33 then c.pc.toNat
  else if n < 42 then c.sel (n - 34)
  else if n = 42 then c.mq.toNat % 2 ^ 36
  else if n = 43 then c.mq.toNat / 2 ^ 36
  else if n = 44 then c.ca.toNat
  else if n = 45 then c.ev.toNat
  else if n = 46 then c.pg.toNat
  else if n = 47 then c.tk.toNat
  else if n = 48 then thrPri s t
  else if 256 ≤ n ∧ n < 768 then (mget 0 c.win (n - 256)).toNat
  else 0

/-- A context with a register written by its DBG_TREG number (17 R369); EV [15:10] read zero (11 Table 11-7). -/
def Ctx.treg (c : Ctx) (n : Nat) (v : W36) : Ctx :=
  if n < 32 then c.setG n v
  else if n = 32 then { c with preds := BitVec.ofNat 8 (v.toNat % 256 / 2 * 2 + 1) }
  else if n = 33 then { c with pc := v.truncate 16 }
  else if n < 42 then c.mtsr (n - 26) v
  else if n < 45 then c.mtsr (n - 42) v
  else if n = 45 then { c with ev := v &&& ~~~0xFC00 }
  else if 256 ≤ n ∧ n < 768 then c.winWrite (n - 256) [BitVec.ofNat 8 v.toNat]
  else c

/-- DBG_TREG register number. -/
def tregNum (s : State) : Nat := rdDev s 0xE0010 % 1024

/-- The halted thread DBG_TREG reaches. -/
def tregThread (s : State) : Option Nat := (dbgThread s).filter (fun t => (thr s t).halted)

/-- The write of DBG_TREG W2 performs the write of the selected register (17 R369). -/
def tregWrite (s : State) (agent v : Nat) : State :=
  if debugLocked s then debugRefused s agent 0xE0018
  else
    let s := wrDev s 0xE0018 (v % 16)
    let n := tregNum s
    match tregThread s with
    | some t =>
      if 46 ≤ n ∧ n ≤ 48 then debugRefused s agent 0xE0018
      else updCtx s t (fun c => c.treg n (BitVec.ofNat 36 (rdDev s 0xE0014 + v % 16 * 2 ^ 32)))
    | none => debugRefused s agent 0xE0018

/-- Words of DBG_BP. -/
def bpWords (s : State) : List Nat := (s.regs.dev.map (·.1)).filter (fun o => decide (0xE1000 ≤ o ∧ o < 0xE1800))

/-- Every halted thread is released and every breakpoint cleared (17 R371, R372). -/
def debugClear (s : State) : State :=
  let ts := (s.thr.threads.filter (fun kx => kx.2.halted)).map (·.1)
  let s := ts.foldl (fun s t => releaseHalt s t false) s
  (bpWords s).foldl (fun s o => wrDev s o 0) s

/-- An unlock ends. -/
def unlockEnd (s : State) : State := debugClear { s with dbg := { s.dbg with unlockUntil := none } }

/-- May the supervisor's host reach the device window (00 R5, 20 R402). -/
def dbgReach (s : State) : Bool := supBound s && !inReset s 0

/-- HALT by the supervisor. -/
def execDbgHalt (s : State) : Host.Outcome State Fault Refusal := .next (if dbgReach s then tctlWrite s (hostAgent 0) 1 else s)

/-- RUN by the supervisor. -/
def execDbgRun (s : State) : Host.Outcome State Fault Refusal := .next (if dbgReach s then tctlWrite s (hostAgent 0) 2 else s)

/-- STEP by the supervisor. -/
def execDbgStep (s : State) : Host.Outcome State Fault Refusal := .next (if dbgReach s then tctlWrite s (hostAgent 0) 4 else s)

/-- DBG_TREG_WRITE: the supervisor's write of DBG_TREG W2. -/
def execDbgTregWrite (value : BitVec 32) (s : State) : Host.Outcome State Fault Refusal :=
  .next (if dbgReach s then tregWrite s (hostAgent 0) value.toNat else s)

/-! ### Audit lock -/

/-- Disarm every Hobble unit (02 R45). -/
def hobbleDisarm (s : State) : State :=
  (((s.regs.dev.map (·.1)).filter (fun o => decide (0x20000 ≤ o ∧ o < 0x28000 ∧ (o - 0x20000) % 0x80 = 0))).filter
    (fun o => flag s o 0)).foldl (fun s o => hobbleWrite s ((o - 0x20000) / 0x80) (rdDev s o / 2 * 2)) s

/-- Set the audit lock (17 R371). DEDUCED, log entry 93. -/
def auditSet (s : State) : State :=
  if s.dbg.locked then s
  else
    let s := { s with flash := { s.flash with audit := true }, dbg := { s.dbg with locked := true } }
    sendEvent (hobbleDisarm (debugClear s)) 0x2B 0 []

/-- AUDIT_SET. -/
def execAuditSet (c : CmdRef) (confirm : BitVec 32) (s : State) : Host.Outcome State Fault Refusal :=
  .next (hostCmd s c 0xE0 (fun s =>
    if confirm = 0x41554454 then finish (auditSet s) c 0xE0 0 0 0 else finish s c 0xE0 0xE2 0 0))

/-- Does a debug token match: its fields and its signature (17 R372). -/
def tokenOk (s : State) (l : List Octet) : Bool :=
  decide (fieldBe l 0 8 = Config.devSer.toNat) && decide (fieldBe l 8 8 = s.flash.bootNo % 2 ^ 64) &&
    decide (fieldBe l 16 4 = s.dbg.nonce.toNat) && decide (fieldBe l 20 4 = 0) && decide (oct l 24 = 1) &&
    ecdsaVerify Config.debugKey (sha256 (l.take 33)) (l.drop 33)

/-- A new token nonce: free (DESIGN CHOICE, log entry 2). -/
def newNonce (s : State) : State :=
  let (n, s) := drawFree s (2 ^ 32)
  { s with dbg := { s.dbg with nonce := BitVec.ofNat 32 n } }

/-- DBG_UNLOCK. -/
def dbgUnlock (s : State) (c : CmdRef) (addr : Nat) : State :=
  let l := hostRead s c.part.toNat addr 97
  let expiry := fieldBe l 25 8
  if !tokenOk s l then finish s c 0xE1 0xE0 0 0
  else if expiry ≤ tai s then finish s c 0xE1 0xE1 0 0
  else
    let s := newNonce { s with dbg := { s.dbg with unlockUntil := some expiry } }
    finish (sendEvent s 0x2A expiry []) c 0xE1 0 0 0

/-- DBG_UNLOCK. -/
def execDbgUnlock (c : CmdRef) (addr : BitVec 64) (s : State) : Host.Outcome State Fault Refusal :=
  .next (hostCmd s c 0xE1 (fun s => dbgUnlock s c addr.toNat))

/-- DEBUG_UNLOCK_EXPIRY. -/
def execDebugUnlockExpiry (s : State) : Host.Outcome State Fault Refusal :=
  .next (match s.dbg.unlockUntil with
    | some e => if e ≤ tai s then unlockEnd s else s
    | none => s)

end Sys2Proof.Machine
end

