-- ==== Sys2Proof/Machine/Arrive.lean ====
section
/-! DEFINITION. Rings at work (14 R300-R318): doorbells, descriptor fetches and starts, deliveries, completion entries,
status-block words, interrupts, service events and block export. -/

namespace Sys2Proof.Machine

/-- Rings with a configuration that a partition owns, in ascending number. -/
def ringsOf (s : State) (p : Nat) : List Nat :=
  ((s.regs.rcfg.map (fun kv => kv.1 / 8)).eraseDups).filter (fun r => decide (ringOwner s r = some p))

/-! ### Starting a descriptor -/

/-- What an exec function leaves, when it answers a next state. -/
def nextOr (s : State) (o : Host.Outcome State Fault Refusal) : State :=
  match o with
  | .next s' => s'
  | _ => s

/-- The commands of COMMAND rings: octets of the operand area to operands, most significant octet first (14 Tables 14-5,
14-6 and the chapters it names). -/
def commandStart (s : State) (c : CmdRef) (opc : Nat) (d : List Octet) : Host.Outcome State Fault Refusal :=
  let f := fun (off n w : Nat) => BitVec.ofNat w (fieldBe d (8 + off) n)
  match opc with
  | 0x00 => execNopCommand c s
  | 0x01 => execTblExec c (f 0 8 64) s
  | 0x02 => execDmaCopy c (f 0 1 8) (f 1 2 16) (f 3 5 40) (f 8 8 64) (f 16 4 32) s
  | 0x10 => execSrcInsert c (f 0 1 8) (f 1 8 64) s
  | 0x11 => execSrcDelete c (f 0 4 32) s
  | 0x12 => execSrcSetad (.host c) (f 0 4 32) (f 4 16 128) 0 s
  | 0x13 => execSrcRead c (f 0 4 32) (f 4 8 64) s
  | 0x14 => execSrcSearch (.host c) (f 0 1 8) (f 1 8 64) (f 9 8 64) s
  | 0x15 => execSrcFlush c (f 0 1 8) s
  | 0x20 => execStfOpen c (f 0 4 32) (f 4 1 8) (f 5 1 8) (f 6 14 128) (f 20 14 128) s
  | 0x21 => execStfResync c (f 0 4 32) (f 4 1 8) (f 5 16 128) (f 21 16 128) s
  | 0x22 => execStfQuery c (f 0 4 32) (f 4 8 64) s
  | 0x23 => execStfClose c (f 0 4 32) s
  | 0x30 => execSchPost c (f 0 2 16) (f 2 1 8) (f 3 1 8) (f 4 2 16) (f 6 4 32) (f 10 5 40) (f 15 2 16) (f 17 5 40) s
  | 0x31 => execHltFdrop c (f 0 5 40) s
  | 0x32 => execHltQuery c (f 0 2 16) (f 2 8 64) s
  | 0x40 => execSegWrite c (f 0 1 8) (f 1 2 16) (f 3 16 128) s
  | 0x41 => execSegPresent c (f 0 1 8) (f 1 2 16) (f 3 1 8) s
  | 0x42 => execSegRead c (f 0 1 8) (f 1 2 16) (f 3 8 64) s
  | 0x43 => execTaskResume c (f 0 2 16) s
  | 0x44 => execTaskRetry c (f 0 2 16) s
  | 0x45 => execTaskKill c (f 0 2 16) s
  | 0x46 => execTaskRecall c (f 0 2 16) s
  | 0x50 => execHspAcquire c (f 0 2 16) (f 2 1 8) (f 3 1 8) (f 4 4 32) s
  | 0x51 => execHspRelease c (f 0 2 16) (f 2 1 8) s
  | 0x52 => execHspQuery c (f 0 2 16) (f 2 8 64) s
  | 0x60 =>
    match oct d 8 with
    | 0 => execBufAlloc (.host c) (f 1 1 8) (f 9 1 8) (f 10 1 8) s
    | 1 => execBufShare (.host c) (f 2 5 40) s
    | 2 => execBufDrop (.host c) (f 2 5 40) s
    | 3 => execBufGive (.host c) (f 2 5 40) (f 7 2 16) s
    | 4 => execBufFree (.host c) (f 2 5 40) s
    | _ => .next (hostCmd s c 0x60 (fun s => finish s c 0x60 0xC1 0 0))
  | 0x61 => execBufReclaim c (f 0 5 40) s
  | 0x62 => execBufQuery c (f 0 5 40) (f 5 8 64) s
  | 0x70 => execKeyLoad c (f 0 2 16) (f 2 1 8) (f 3 2 16) (f 5 8 64) s
  | 0x71 => execKeyDelete c (f 0 2 16) s
  | 0x72 => execKeyQuery c (f 0 2 16) (f 2 8 64) s
  | 0x73 => execKeyKekset c (f 0 1 8) (f 1 8 64) s
  | 0x74 => execJnlSeal c s
  | 0x75 => execJnlCert c (f 0 8 64) (f 8 4 32) s
  | 0x80 => execPrgWrite c (f 0 1 8) (f 1 1 8) (f 2 3 24) (f 5 2 16) (f 7 8 64) s
  | 0x81 => execPrgRead c (f 0 1 8) (f 1 1 8) (f 2 3 24) (f 5 2 16) (f 7 8 64) s
  | _ => .next (hostCmd s c opc (fun s => finish s c opc 0xC0 0 0))

/-- A command whose end needs an answer from outside the part: it waits for the row that brings it.
DEDUCED, log entry 78. -/
def outsideStart (s : State) (c : CmdRef) (opc : Nat) (cage : Option Nat) : State :=
  hostCmd s c opc (fun s =>
    { s with gpl := { s.gpl with waiting := s.gpl.waiting ++ [⟨c, s.now, .outside opc cage⟩] } })

/-- The commands of SERVICE rings. -/
def serviceStart (s : State) (c : CmdRef) (opc : Nat) (d : List Octet) : Host.Outcome State Fault Refusal :=
  let f := fun (off n w : Nat) => BitVec.ofNat w (fieldBe d (8 + off) n)
  match opc with
  | 0xC0 => execMcsLoad c (f 0 8 64) (f 8 4 32) s
  | 0xC1 => .next (outsideStart s c 0xC1 (some (oct d 8)))
  | 0xC2 => .next (outsideStart s c 0xC2 (some (oct d 8)))
  | 0xC3 => execServiceNop c s
  | 0xC8 => .next (outsideStart s c 0xC8 none)
  | 0xC9 => execFarQuiesce c (f 0 4 32) (f 4 1 8) s
  | 0xCA => execFarSwap c (f 0 4 32) s
  | 0xCB => execFarReport c (f 0 8 64) s
  | 0xE0 => execAuditSet c (f 0 4 32) s
  | 0xE1 => execDbgUnlock c (f 0 8 64) s
  | _ => .next (hostCmd s c opc (fun s => finish s c opc 0xC0 0 0))

/-- Start a TX descriptor (14 R308). -/
def txStart (s : State) (c : CmdRef) (d : List Octet) : State :=
  let ts := bitOf (oct d 1) 1
  let f := fun off n => fieldBe d off n
  if oct d 0 = 0 then
    transmitNow s c { dev := false, tsReq := ts, addr := f 8 8, sel := 0, doff := 0, len := f 16 2, eq := f 18 2, eflags := f 20 2 }
  else if oct d 0 = 1 then
    transmitNow s c { dev := true, tsReq := ts, addr := 0, sel := f 8 2, doff := f 10 5, len := f 16 2, eq := f 18 2, eflags := f 20 2 }
  else if inReset s c.part.toNat then s
  else txFinish s c (if inBolt s c.part.toNat then 0xC4 else 0xC0) (f 18 2)

/-- Start one descriptor of a ring. -/
def descStart (s : State) (p r : Nat) (d : Desc) : State :=
  let c := descRef p r d
  let opc := oct d.octets 0
  let k := ringKind s r
  if k = 1 then txStart s c d.octets
  else if k = 3 ∧ 0xC0 ≤ opc ∧ opc ≤ 0xEF then nextOr s (serviceStart s c opc d.octets)
  else nextOr s (commandStart s c opc d.octets)

/-- Start the fetched descriptors of a ring in ring order; one with FENCE waits until every earlier one has completed
(14 R306, Table 14-5). -/
def ringStart : Nat → State → Nat → Nat → State
  | 0, s, _, _ => s
  | fuel + 1, s, p, r =>
    let x := ringSt s r
    match x.fetched with
    | [] => s
    | d :: rest =>
      if bitOf (oct d.octets 1) 0 && decide (x.fetched.length < x.outst.length) then s
      else ringStart fuel (descStart (setRing s r { x with fetched := rest }) p r d) p r

/-! ### Fetching -/

/-- Descriptors of a ring fetched and not completed, those on their way included. -/
def ringOut (x : Ring) : Nat := x.outst.length + (match x.inflight with
  | some fn => fn.2
  | none => 0)

/-- Commands outstanding over a list of rings. -/
def cmdsOut (s : State) (l : List Nat) : Nat :=
  ((l.filter (fun r => decide (ringKind s r = 2 ∨ ringKind s r = 3))).map (fun r => ringOut (ringSt s r))).sum

/-- CMDMAX of a partition. -/
def cmdMax (s : State) (p : Nat) : Nat := fld s (0xD0020 + 4 * p) 14 0

/-- Entries the host has added that the part has not asked for, at most SIZE. -/
def ringAvail (s : State) (r : Nat) : Nat :=
  let x := ringSt s r
  let size := ringSize s r
  let n := min size ((x.hidx + 2 * size - x.pidx) % (2 * size))
  n - (match x.inflight with
    | some fn => fn.2
    | none => 0)

/-- How many descriptors of a ring the part may fetch now (14 R300, R306, R308, R317). -/
def fetchCount (s : State) (p r : Nat) : Nat :=
  let k := ringKind s r
  let n := ringAvail s r
  if !ringEn s r || !cqUsable s r || inReset s p || !hasHost s p || (inBolt s p && decide (k ≠ 8)) then 0
  else if k = 1 then
    let pool := bitsOf (rdRing s r 3) 5 0
    if poolFree s pool = 0 then 0 else min n (cqFree s (ringCq s r))
  else if k = 2 ∨ k = 3 then
    min (min n (cqFree s (ringCq s r)))
      (min (cmdMax s p - cmdsOut s (ringsOf s p)) (16384 - cmdsOut s (s.gpl.rings.map (·.1))))
  else if 4 ≤ k ∧ k ≤ 8 then n
  else 0

/-- Is the ring one whose descriptors hold a reserved completion entry. -/
def ringReserves (s : State) (r : Nat) : Bool := decide (1 ≤ ringKind s r ∧ ringKind s r ≤ 3)

/-- Begin a fetch from a ring: completion entries are reserved, and the read goes out. -/
def ringFetch (s : State) (p r : Nat) : State :=
  let n := fetchCount s p r
  if n = 0 then s
  else
    let x := ringSt s r
    let fl := match x.inflight with
      | some (a, k) => (a, k + n)
      | none => (x.pidx, n)
    let s := setRing s r { x with inflight := some fl, fetchAt := s.now }
    let q := ringCq s r
    if ringReserves s r then setRing s q { ringSt s q with resv := (ringSt s q).resv + n } else s

/-- Fetch from every ring of a partition. -/
def fetchAll (s : State) (p : Nat) : State := (ringsOf s p).foldl (fun s r => ringFetch s p r) s

/-- Index `i` of a ring after `n` more entries. -/
def ringStep (s : State) (r i n : Nat) : Nat := (i + n) % (2 * ringSize s r)

/-- A supply descriptor (14 Table 14-7). -/
def supplyOf (slot : Nat) (l : List Octet) : Supply :=
  { addr := fieldBe l 0 8, blen := fieldBe l 8 4, tag := fieldBe l 12 2, slot := slot }

/-- Fetched descriptors arrive: the part copies them, advances its index and starts them (14 R302, R304, R306). -/
def descArrive (s : State) (r : Nat) : State :=
  let x := ringSt s r
  match x.inflight, ringOwner s r with
  | some (first, n), some p =>
    let size := ringSize s r
    let slots := (List.range n).map (fun k => (first + k) % (2 * size) % size)
    let ds := slots.map (fun i => (⟨i, hostRead s p (ringBase s r + 64 * i) 64⟩ : Desc))
    let x := { x with inflight := none, pidx := ringStep s r first n, sbDirty := true }
    let s := gplCnt s p 0 n
    if ringReserves s r then
      let s := setRing s r { x with fetched := x.fetched ++ ds, outst := x.outst ++ slots }
      ringStart (ringSt s r).fetched.length s p r
    else setRing s r { x with supply := x.supply ++ ds.map (fun d => supplyOf d.slot d.octets) }
  | _, _ => s

/-- DESCRIPTOR_ARRIVAL. -/
def execDescriptorArrival (ring : BitVec 12) (s : State) : Host.Outcome State Fault Refusal :=
  .next (descArrive s ring.toNat)

/-- A doorbell fetch of a partition begins, or one more follows the fetch under way (14 R305). -/
def doorbellBegin (s : State) (p : Nat) : State :=
  if s.gpl.fetching.contains p then
    { s with gpl := { s.gpl with fetchMore := s.gpl.fetchMore.filter (· ≠ p) ++ [p] } }
  else { s with gpl := { s.gpl with fetching := s.gpl.fetching ++ [p], fetchAt := mset 0 s.gpl.fetchAt p s.now } }

/-- Host memory octets that the host has written before it nudges. -/
def hostPuts (s : State) (p : Nat) (l : List (BitVec 64 × Octet)) : State :=
  l.foldl (fun s ao => hostWrite s p ao.1.toNat [ao.2]) s

/-- GPL_NUDGE (14 R304, R305). -/
def gplNudge (s : State) (p : Nat) (l : List (BitVec 64 × Octet)) : State :=
  let s := hostPuts s p l
  if hasHost s p && !inReset s p && bitOf (rdPart s p 4) 0 then doorbellBegin s p else s

/-- GPL_CTL.POLL in ns. -/
def pollTime (s : State) (p : Nat) : Nat := 1000 * max 1 (min 100 (bitsOf (rdPart s p 4) 7 1))

/-- DOORBELL_POLL (14 R304). -/
def doorbellPoll (s : State) (p : Nat) (l : List (BitVec 64 × Octet)) : State :=
  let s := hostPuts s p l
  if hasHost s p && !inReset s p && !bitOf (rdPart s p 4) 0 && decide (mget 0 s.gpl.polledAt p + pollTime s p ≤ s.now) then
    doorbellBegin { s with gpl := { s.gpl with polledAt := mset 0 s.gpl.polledAt p s.now } } p
  else s

/-- A two-word base of a partition window. -/
def partBase (s : State) (p o : Nat) : Nat := rdPart s p o / 64 * 64 + rdPart s p (o + 4) * 2 ^ 32

/-- The fetch under way ends: the next one begins if a nudge asked for it. -/
def doorbellOver (s : State) (p : Nat) : State :=
  let s := { s with gpl := { s.gpl with fetching := s.gpl.fetching.filter (· ≠ p) } }
  if s.gpl.fetchMore.contains p then
    doorbellBegin { s with gpl := { s.gpl with fetchMore := s.gpl.fetchMore.filter (· ≠ p) } } p
  else s

/-- The doorbell lines of a partition return: the host's indices are taken, and moved rings are fetched (14 R303,
R304). DEDUCED, log entry 76. -/
def doorbellFetch (s : State) (p : Nat) : State :=
  if !s.gpl.fetching.contains p ∨ inReset s p then s
  else
    let s := doorbellOver (gplCnt s p 3 1) p
    let base := partBase s p 0x10
    let s := ((ringsOf s p).filter (ringEn s)).foldl (fun s r =>
      let v := leNat (hostRead s p (base + 4 * r) 4) % 2 ^ 17
      setRing s r { ringSt s r with hidx := v % (2 * ringSize s r) }) s
    fetchAll s p

/-- GPL_NUDGE. -/
def execGplNudge (part : BitVec 3) (written : List (BitVec 64 × Octet)) (s : State) : Host.Outcome State Fault Refusal :=
  .next (gplNudge s part.toNat written)

/-- DOORBELL_POLL. -/
def execDoorbellPoll (part : BitVec 3) (written : List (BitVec 64 × Octet)) (s : State) :
    Host.Outcome State Fault Refusal := .next (doorbellPoll s part.toNat written)

/-- DOORBELL_FETCH. -/
def execDoorbellFetch (part : BitVec 3) (s : State) : Host.Outcome State Fault Refusal := .next (doorbellFetch s part.toNat)

/-! ### Deliveries -/

/-- The ring of a kind that only the supervisor may have. -/
def supRing (s : State) (kind : Nat) : Option Nat := (ringsOf s 0).find? (fun r => ringUsable s 0 r kind)

/-- The ring a delivery goes to now (14 R312). -/
def delivRing (s : State) (d : Deliv) : Option Nat :=
  match d.kind with
  | .rx => some d.ring
  | .late => some d.ring
  | .journal => supRing s 8
  | _ =>
    let r := bitsOf (rdPart s d.part 0xC) 11 0
    if ringUsable s d.part r 5 then some r else none

/-- Completion kind of a delivery (14 Table 14-10). -/
def delivCompl (k : DelivKind) : Nat :=
  match k with
  | .rx => 3
  | .late => 4
  | .exception => 5
  | .fault => 6
  | .learnAge => 7
  | .journal => 8

/-- The delivery a ring makes next: one already begun, then fault reports, then the oldest (14 Table 14-14). -/
def delivNext (s : State) (r : Nat) : Option Deliv :=
  let l := s.gpl.deliv.filter (fun d => decide (delivRing s d = some r))
  (l.find? (fun d => decide (0 < d.done))).orElse (fun _ =>
    (l.find? (fun d => decide (d.kind = .fault))).orElse (fun _ => l.head?))

/-- Does the delivery wait: its partition in Bolt or reset, or its journal record held (13 R291, 14 R317). -/
def delivHolds (s : State) (d : Deliv) : Bool :=
  (decide (d.kind ≠ .journal) && inBolt s d.part) || inReset s d.part ||
    (match d.jitem with
      | some it => jnlHolds s it
      | none => false)

/-- Does the source of a delivery read as poison. -/
def delivPoison (s : State) (d : Deliv) : Bool :=
  match d.buf with
  | some a => devPoisoned s a (match d.jitem with
    | some it => it.len
    | none => d.octets.length)
  | none => false

/-- A delivery has ended: its buffer is returned and its record written (12 R252, 01 R12). -/
def delivEnd (s : State) (r : Nat) (d : Deliv) : State :=
  match d.kind, d.buf, d.jitem with
  | .exception, some a, some it =>
    endUse (jnlItem s it 0x07 (r % 4096) 0xFFFFFFFFF true d.reason none) (dmaAgent s d.part) a
  | _, some a, _ => endUse s halterAgent a
  | _, _, _ => s

/-- HOST_DELIVERY: the next delivery of a ring goes to its supplied buffers as far as there is space (14 R311).
DEDUCED, log entry 81. -/
def hostDelivery (s : State) (r : Nat) : State :=
  match delivNext s r with
  | none => s
  | some d =>
    if delivHolds s d then s
    else
      let (done, ended, s) := deliverRun r d.part (delivCompl d.kind) d.result d.octets (delivPoison s d) d.detail
        (ringSt s r).supply.length s d.done
      if ended then delivEnd { s with gpl := { s.gpl with deliv := s.gpl.deliv.erase d } } r d
      else { s with gpl := { s.gpl with deliv := s.gpl.deliv.map (fun x => if x = d then { d with done := done } else x) } }

/-- HOST_DELIVERY. -/
def execHostDelivery (ring : BitVec 12) (s : State) : Host.Outcome State Fault Refusal := .next (hostDelivery s ring.toNat)

/-- BLOCK_EXPORT: the next sealed block not yet on its way goes to the supervisor's journal ring (13 R293, R294). -/
def blockExport (s : State) : State :=
  match s.jnl.sealed.drop s.jnl.inExport, supRing s 8 with
  | b :: _, some r =>
    if !isSup s 0 || inReset s 0 then s
    else
      let s := { s with jnl := { s.jnl with inExport := s.jnl.inExport + 1 } }
      hostDelivery (queueDeliv s {
        kind := .journal, part := 0, ring := r, octets := b.header ++ b.recs.flatten, result := b.no,
        detail := beOctets 2 b.recs.length }) r
  | _, _ => s

/-- BLOCK_EXPORT. -/
def execBlockExport (s : State) : Host.Outcome State Fault Refusal := .next (blockExport s)

/-! ### Completion entries, status-block words, messages and events -/

/-- The 32 octets of an entry at a producer index (14 Table 14-9, R302). -/
def Compl.octets (e : Compl) (phase : Bool) : List Octet :=
  beOctets 1 e.status ++ beOctets 1 e.kind ++ beOctets 2 (e.ring % 4096 + 2 ^ 14 * b2n e.more + 2 ^ 15 * b2n phase) ++
    beOctets 2 e.tag ++ beOctets 2 e.slot ++ beOctets 8 e.result ++ beOctets 4 e.len ++ fit 12 e.detail

/-- The export of a block is complete: its slot is free (13 R293). -/
def exportDone (s : State) : State :=
  jnlCnt { s with jnl := { s.jnl with sealed := s.jnl.sealed.tail, inExport := s.jnl.inExport - 1 } } 2 1

/-- The descriptor an entry completes is no longer outstanding; a FENCE that waited for it starts. -/
def slotDone (s : State) (p : Nat) (e : Compl) : State :=
  let x := ringSt s e.ring
  let s := setRing s e.ring { x with outst := x.outst.erase e.slot }
  let s := ringStart x.fetched.length s p e.ring
  fetchAll s p

/-- Write the next entry of a completion ring (14 R302, R309). -/
def complWrite (s : State) (q : Nat) : State :=
  let x := ringSt s q
  match x.compl, ringOwner s q with
  | e :: rest, some p =>
    if inReset s p ∨ ringKind s q ≠ 9 ∨ (!e.reserved ∧ cqFree s q = 0) then s
    else
      let size := ringSize s q
      let s := hostWrite s p (ringBase s q + 32 * (x.pidx % size)) (e.octets (decide (x.pidx < size)))
      let s := setRing s q { x with
        compl := rest, pidx := ringStep s q x.pidx 1, resv := if e.reserved then x.resv - 1 else x.resv,
        sbDirty := true, msiCount := x.msiCount + 1, msiFirst := some (x.msiFirst.getD s.now) }
      let s := gplCnt s p 1 1
      let s := if e.kind = 8 ∧ !e.more ∧ e.status ≠ 0xC1 ∧ e.status ≠ 0xC3 then exportDone s else s
      if e.reserved ∧ (e.kind = 1 ∨ e.kind = 2 ∨ e.kind = 9) then slotDone s p e else s
  | _, _ => s

/-- COMPLETION_WRITE. -/
def execCompletionWrite (ring : BitVec 12) (s : State) : Host.Outcome State Fault Refusal := .next (complWrite s ring.toNat)

/-- The status-block word of a ring is written, at most once per microsecond (14 R303, R304). -/
def statusWrite (s : State) (r : Nat) : State :=
  let x := ringSt s r
  match ringOwner s r with
  | some p =>
    if !x.sbDirty ∨ inReset s p ∨ s.now < (match x.sbAt with
        | some t => t + 1000
        | none => 0) then s
    else
      let s := hostWrite s p (partBase s p 0x18 + 4 * r) (leOctets 4 x.pidx)
      setRing s r { x with sbDirty := false, sbAt := some s.now }
  | none => s

/-- STATUS_BLOCK_WRITE. -/
def execStatusBlockWrite (ring : BitVec 12) (s : State) : Host.Outcome State Fault Refusal :=
  .next (statusWrite s ring.toNat)

/-- MCOUNT and MTIME of a completion ring, MTIME in ns (14 Table 14-16). -/
def msiCountOf (s : State) (q : Nat) : Nat := max 1 (bitsOf (rdRing s q 3) 16 9)
def msiTimeOf (s : State) (q : Nat) : Nat := 1000 * max 1 (bitsOf (rdRing s q 3) 26 17)

/-- MSIX_MESSAGE: due when MCOUNT entries are counted or MTIME has passed since the first, and the status-block word that
covers them is written (14 R304, R310). -/
def msixMessage (s : State) (q : Nat) : State :=
  let x := ringSt s q
  match x.msiFirst, ringOwner s q with
  | some t, some p =>
    if ringKind s q = 9 ∧ !x.sbDirty ∧ (msiCountOf s q ≤ x.msiCount ∨ t + msiTimeOf s q ≤ s.now) then
      msixSend (setRing s q { x with msiCount := 0, msiFirst := none }) p (bitsOf (rdRing s q 3) 8 0)
    else s
  | _, _ => s

/-- MSIX_MESSAGE. -/
def execMsixMessage (ring : BitVec 12) (s : State) : Host.Outcome State Fault Refusal := .next (msixMessage s ring.toNat)

/-- SERVICE_EVENT: the oldest event takes an entry of the service ring's completion ring (14 R315). -/
def serviceEvent (s : State) : State :=
  match s.gpl.svcq, supRing s 3 with
  | e :: rest, some r =>
    if !cqUsable s r ∨ cqFree s (ringCq s r) = 0 ∨ inReset s 0 then s
    else
      let s := cqReserve { s with gpl := { s.gpl with svcq := rest } } r
      cqPush s r { status := e.code, kind := 0x0A, ring := r, result := e.result, len := e.lost, detail := e.detail }
  | _, _ => s

/-- SERVICE_EVENT. -/
def execServiceEvent (s : State) : Host.Outcome State Fault Refusal := .next (serviceEvent s)

/-! ### Reads of host memory that get no completion -/

/-- The completion timeout of a partition's function, in ns (14 Table 14-13). -/
def ctoTime (s : State) (p : Nat) : Nat :=
  match (mget {} s.gpl.fns p).timeout.toNat with
  | 1 => 100000
  | 2 => 8000000
  | 5 => 25000000
  | 6 => 160000000
  | _ => 40000000

/-- Has a read of host memory that went out at `t` waited for its completion timeout. -/
def ctoOver (s : State) (p t : Nat) : Bool := decide (t + ctoTime s p ≤ s.now)

/-- A failed descriptor fetch: one completion with TAG 0xFFFF and the failing slot, and EN is cleared (14 R314). -/
def descFail (s : State) (r : Nat) : State :=
  let x := ringSt s r
  match x.inflight, ringOwner s r with
  | some (first, n), some p =>
    if !ctoOver s p x.fetchAt then s
    else
      let s := readFailed (setRing s r { x with inflight := none }) p
      let s := wrRing s r 2 (setBit (rdRing s r 2) 8 false)
      let q := ringCq s r
      let held := ringReserves s r
      let s := if held then setRing s q { ringSt s q with resv := (ringSt s q).resv - (n - 1) } else s
      let k := ringKind s r
      cqPush s r {
        status := 0xC3, kind := [0, 2, 1, 9, 3, 5, 4, 7, 8].getD k 1, ring := r,
        tag := 0xFFFF, slot := first % ringSize s r, reserved := held }
  | _, _ => s

/-- The host reads of a command fail: a copy from the host ends with what it moved; a command that waits ends
(14 R314). DEDUCED, log entry 80. -/
def commandFail (s : State) (c : CmdRef) : State :=
  match s.gpl.dma.find? (fun d => decide (d.cmd = c ∧ d.mode = 0 ∧ d.paused = none)) with
  | some d => if ctoOver s c.part.toNat d.readAt then dmaEnd (readFailed s c.part.toNat) d 0xC3 else s
  | none =>
    match s.gpl.waiting.find? (fun w => decide (w.cmd = c)) with
    | some w =>
      match w.what with
      | .outside _ _ =>
        if ctoOver s c.part.toNat w.since then waitingEnd (readFailed (unwait s c) c.part.toNat) w 0xC3 else s
      | _ => s
    | none => s

/-- A far read of host memory gets no completion: HOST_DMA, once its timeout is over (14 R314, 08 Table 08-9). -/
def farTimeout (s : State) (r : CtxRef) (tag : Nat) : State :=
  match (ctxAt s r).task.bind (taskSt s), mfind (ctxAt s r).tags tag with
  | some x, some g =>
    if g.kind = .far && g.hostMem && ctoOver s x.part g.issued then
      segSettle (farComplete s r tag true)
    else s
  | _, _ => s

/-- PCIE_COMPLETION_TIMEOUT (14 R305, R314; 08 Table 08-9). -/
def execPcieCompletionTimeout (read : HostRead) (s : State) : Host.Outcome State Fault Refusal :=
  .next (match read with
    | .far ctx tag => farTimeout s ctx tag.toNat
    | .command c => commandFail s c
    | .doorbell p =>
      if s.gpl.fetching.contains p.toNat && ctoOver s p.toNat (mget 0 s.gpl.fetchAt p.toNat) then
        readFailed (gplCnt (doorbellOver s p.toNat) p.toNat 4 1) p.toNat
      else s
    | .descriptors r => descFail s r.toNat)

end Sys2Proof.Machine
end

