-- ==== Sys2Proof/Machine/Clocks.lean ====
section
/-! DEFINITION. The time base (18 R380-R382): its count, frequency, corrections, PPS_IN and CLK10_IN, and PPS_OUT. -/

namespace Sys2Proof.Machine

/-- CLK_TB.MODE 01: the time base locks to CLK10_IN. -/
def clk10Mode (s : State) : Bool := decide (fld s 0x80 1 0 = 1)

/-- The frequency offset in force, in 1/1,024 ppb (18 R381): CLK_TFREQ within 500 ppm, none in MODE 01. -/
def freqOffset (s : State) : Int :=
  if clk10Mode s then 0 else max (-512000000) (min 512000000 (signedOf 32 (rdDev s 0x84)))

/-- The count of a frequency offset that makes one ns. -/
def freqNs : Int := 1024000000000

/-- One ns of the frequency offset: what it adds to the time, and the rest that waits. -/
def freqStep (s : State) : Int × Int :=
  let x := s.tb.freqAcc + freqOffset s
  if freqNs ≤ x then (1, x - freqNs) else if x ≤ -freqNs then (-1, x + freqNs) else (0, x)

/-- One ns of a slewing correction, 500 ppm (18 R382): what it adds to the time, what is left, and the phase. `f` is the
step of the frequency offset: two backward steps never meet, so that time never decreases. DEDUCED, log entry 94. -/
def slewStep (s : State) (f : Int) : Int × Int × Nat :=
  let left := s.tb.slewLeft
  if left = 0 then (0, 0, 0)
  else if s.tb.slewPhase + 1 < 2000 ∨ (left < 0 ∧ f < 0) then (0, left, s.tb.slewPhase + 1)
  else if 0 < left then (1, left - 1, 0)
  else (-1, left + 1, 0)

/-- One nanosecond of device time passes (18 R380, R382). -/
def taiTick (s : State) : State :=
  let (f, acc) := freqStep s
  let (d, left, phase) := slewStep s f
  { s with tb := { s.tb with
      tai := (1 + s.tb.tai + f + d).toNat % 2 ^ 64, freqAcc := acc, slewLeft := left, slewPhase := phase } }

/-- A correction (18 R382): a forward one of more than 100 microseconds is stepped at once, every other one slews. -/
def timeAdjust (s : State) (d : Int) : State :=
  if 100000 < d then { s with tb := { s.tb with tai := (s.tb.tai + d.toNat) % 2 ^ 64 } }
  else if d = 0 then s
  else { s with tb := { s.tb with slewLeft := s.tb.slewLeft + d, slewing := true } }

/-- CLK_TADJ (18 Table 18-9): values beyond a second act as a second. -/
def tadjWrite (s : State) (v : Nat) : State := timeAdjust s (max (-1000000000) (min 1000000000 (signedOf 32 v)))

/-- The write of CLK_TSET W1 sets the time. -/
def tsetNow (s : State) : State := { s with tb := { s.tb with tai := rdDev s 0x90 + rdDev s 0x94 * 2 ^ 32 } }

/-- The distance from a time to the nearest whole second (18 R381). -/
def toSecond (t : Nat) : Int :=
  let r := t % 1000000000
  if r ≤ 500000000 then -(r : Int) else 1000000000 - (r : Int)

/-- A rising edge of PPS_IN (18 R381): captured, and with PPSEN the time is corrected to the nearest second. -/
def ppsEdge (s : State) : State :=
  let t := s.tb.tai
  let s := { s with tb := { s.tb with ppsCap := t, lastPps := s.now } }
  if flag s 0x80 2 then timeAdjust s (toSecond t) else s

/-- PPS_IN_EDGE. -/
def execPpsInEdge (s : State) : Host.Outcome State Fault Refusal := .next (ppsEdge s)

/-- PPS_IN_LOSS: no edge for 1.1 s sets PPSLOS (18 Table 18-8). -/
def execPpsInLoss (s : State) : Host.Outcome State Fault Refusal :=
  .next (if s.tb.lastPps + 1100000000 ≤ s.now then wrFlag s 0x80 4 true else s)

/-- CLK10_LOSS (18 R381): in MODE 01 the time base holds its frequency and LOS is set. -/
def execClk10Loss (s : State) : Host.Outcome State Fault Refusal :=
  let s := { s with tb := { s.tb with clk10Lost := true } }
  .next (if clk10Mode s then wrFlag s 0x80 3 true else s)

/-- CLK10_IN_RETURN (18 R381): the edges are back; LOS stays until it is cleared by a write. -/
def execClk10InReturn (s : State) : Host.Outcome State Fault Refusal :=
  .next { s with tb := { s.tb with clk10Lost := false } }

/-- TIME_SLEW_DONE (18 R382): a correction with nothing left is done. -/
def execTimeSlewDone (s : State) : Host.Outcome State Fault Refusal :=
  .next (if s.tb.slewLeft = 0 then { s with tb := { s.tb with slewing := false } } else s)

/-- PPS_OUT (18 R382): high for the first 100 ms of each second of device time. -/
def execPpsOut (s : State) : Host.Outcome State Fault Refusal :=
  .next { s with pins := { s.pins with ppsOut := s.hkc.booted && decide (s.tb.tai % 1000000000 < 100000000) } }

end Sys2Proof.Machine
end

