-- ==== Sys2Proof/Machine/Resets.lean ====
section
/-! DEFINITION. Resets and boot (18 R374, R383-R388), the partition reset (07 R158, 08 R416, 11 R246, 12 R269, 13 R280,
14 R316), the flash's sealed copies, and the board's events: supplies, temperature and SMBus alerts. -/

namespace Sys2Proof.Machine

/-! ### Partition reset -/

/-- The partition's tickets, with those passed over. -/
def ticketsOf (s : State) (p : Nat) : List Nat :=
  (s.hlt.tickets.filter (fun kt => kt.2.inUse && decide (kt.2.part = p))).map (·.1)

/-- One unit of a ticket, its whole or a sub-result, ends as DROP: its record is written and its result discarded.
DEDUCED, log entry 75. -/
def unitDrop (s : State) (p i : Nat) (sub : Option Nat) (res : Option Result) : State :=
  let s := jnlTicket s i sub 0x03 0 none
  match res with
  | some r => if r.disp = .drop then s else discardResult (hltCnt s p 2) r
  | none => hltCnt s p 2

/-- A ticket of a partition that is reset is freed as DROP, with the input of a task never dispatched (07 Table 07-10). -/
def ticketReset (s : State) (p i : Nat) : State :=
  let t := ticket s i
  let s := if t.subs = [] then unitDrop s p i none t.res
    else t.subs.zipIdx.foldl (fun s x => if x.1.out then s else unitDrop s p i (some x.2) x.1.res) s
  let s := if t.dispatched then s else freeInput s p t.item.buf
  freeTicket s i

/-- A queued item without a ticket is discarded as DROP. -/
def itemReset (s : State) (p : Nat) (it : Item) : State :=
  freeInput (jnlItem s it 0x03 0 0xFFFFFFFFF false 0 none) p it.buf

/-- Withdraw every lock request of a partition's tasks and host (11 R231, 14 R317). -/
def requestsReset (s : State) (p : Nat) : State :=
  let s := s.thr.tasks.foldl (fun s kx => match kx.2.lockPend with
    | some (k, _) => if kx.2.part = p then withdraw s k (.task kx.1) else s
    | none => s) s
  (hostRequests s p).foldl (fun s kc => withdraw s kc.1 (.host kc.2)) s

/-- Tasks of a partition. -/
def tasksOf (s : State) (p : Nat) : List Nat := (s.thr.tasks.filter (fun kx => decide (kx.2.part = p))).map (·.1)

/-- Locks and channels at a partition's reset (11 Table 11-8): requests withdrawn, locks released as orphans, slots of its
channels freed with their GEN kept. -/
def haspReset (s : State) (p : Nat) : State :=
  let s := requestsReset s p
  let s := (tasksOf s p).foldl (fun s id => haspTaskEnd s id false) s
  let s := orphanAll s (.host p)
  let slots := s.hsp.slots.map (fun kx =>
    if chanOwner s (kx.1 / 16) = some p then (kx.1, { gen := kx.2.gen }) else kx)
  { s with hsp := { s.hsp with slots := slots, hostLost := mdel s.hsp.hostLost p } }

/-- Queues, tickets and tasks of the Halter and scheduler at a partition's reset (07 Table 07-10). -/
def haltReset (s : State) (p : Nat) : State :=
  let s := (mget [] s.hlt.issueQ p ++ mget [] s.hlt.holdQ p).foldl (fun s it => itemReset s p it) s
  let s := (ticketsOf s p).foldl (fun s i => ticketReset s p i) s
  { s with
    thr := { s.thr with tasks := mkeep (fun _ x => decide (x.part ≠ p)) s.thr.tasks }
    hlt := { s.hlt with
      issueQ := mdel s.hlt.issueQ p, holdQ := mdel s.hlt.holdQ p, stallSince := mdel s.hlt.stallSince p,
      ready := s.hlt.ready.filter (fun e => decide (e.part ≠ p)),
      delays := s.hlt.delays.filter (fun e => decide (e.part ≠ p)) } }

/-- Threads and save slots of a partition's clusters return to their reset state (08 Table 08-13, 17 Table 17-10). -/
def threadsReset (s : State) (p : Nat) : State :=
  let cs := clustersOf s p
  { s with
    thr := { s.thr with
      threads := mkeep (fun t _ => !cs.contains (t / 128)) s.thr.threads,
      slots := mkeep (fun k _ => !cs.contains (k / 128)) s.thr.slots }
    hlt := { s.hlt with waiters := s.hlt.waiters.filter (fun t => !cs.contains (t / 128)) } }

/-- The partition's memories and segment table are cleared (08 R416). -/
def memReset (s : State) (p : Nat) : State :=
  let cs := clustersOf s p
  let out := fun (size a : Nat) => !cs.contains (a / size)
  { s with mem := { s.mem with
      clm := mkeep (fun a _ => out 131072 a) s.mem.clm, csm := mkeep (fun a _ => out 262144 a) s.mem.csm,
      ist := mkeep (fun a _ => out 65536 a) s.mem.ist,
      clmBad := s.mem.clmBad.filter (out 131072), csmBad := s.mem.csmBad.filter (out 262144),
      segs := mkeep (fun k _ => decide (k / 1024 ≠ p)) s.mem.segs } }

/-- Results on a partition's egress queues are discarded (12 Table 12-7); one on its way to egress is journalled first. -/
def egressReset (s : State) (p : Nat) : State :=
  let mine := fun (x : Released) => decide (x.item.part = p)
  let (now, later) := (s.hlt.egressIn.filter mine, s.hlt.egressIn.filter (fun x => !mine x))
  let s := { s with hlt := { s.hlt with egressIn := now } }
  let s := now.foldl (fun s _ => egressProcess s) s
  let s := { s with hlt := { s.hlt with egressIn := s.hlt.egressIn ++ later } }
  ((s.egr.queues.map (·.1)).filter (fun q => decide (queueOwner s q = some p))).foldl (fun s q =>
    let fs := queueOf s q
    let s := { s with egr := { s.egr with queues := mdel s.egr.queues q } }
    fs.foldl (fun s f => frameDiscard s q f 0xC4) s) s

/-- Framed connections of the partition are closed, and its messages not yet classified are discarded (04 Table 04-8). -/
def framerReset (s : State) (p : Nat) : State :=
  let mine := fun (x : PreTask) => decide (x.item.kind ≠ 0 ∧ x.item.part = p)
  let xs := s.par.toClassify.filter mine
  let s := { s with par := { s.par with toClassify := s.par.toClassify.filter (fun x => !mine x) } }
  let s := xs.foldl (fun s x =>
    let s := jnlItem s x.item 0x03 0 0xFFFFFFFFF false 0 none
    if x.item.kind = 1 then endUse s framerAgent x.item.buf else endUse s (portAgent x.item.port) x.item.buf) s
  ((s.stf.conns.filter (fun kc => decide (kc.2.part = p) && decide (kc.2.state ≠ 0))).map (·.1)).foldl closeConn s

/-- A delivery of a partition that is reset ends undelivered: its buffer is returned; an exception frame's record says
SLOW_DROP. -/
def delivReset (s : State) (d : Deliv) : State :=
  match d.kind, d.buf, d.jitem with
  | .exception, some a, some it =>
    endUse (jnlItem s it 0x08 0 0xFFFFFFFFF true d.reason none) (dmaAgent s d.part) a
  | _, some a, _ => endUse s halterAgent a
  | _, _, _ => s

/-- Gopol at a partition's reset (14 R316): rings, transfers and waiting commands are gone, the partition window returns to
its reset values; `func` says that the function is reset too, with its MSI-X table. -/
def gopolReset (s : State) (p : Nat) (func : Bool) : State :=
  let ds := s.gpl.deliv.filter (fun d => decide (d.part = p))
  let s := { s with gpl := { s.gpl with deliv := s.gpl.deliv.filter (fun d => decide (d.part ≠ p)) } }
  let s := ds.foldl delivReset s
  let mine := fun r => decide (ringOwner s r = some p)
  let monitor := fun m => decide (monOwner s m = some p)
  { s with
    gpl := { s.gpl with
      rings := mkeep (fun r _ => !mine r) s.gpl.rings,
      fetching := s.gpl.fetching.filter (· ≠ p), fetchMore := s.gpl.fetchMore.filter (· ≠ p),
      polledAt := mdel s.gpl.polledAt p,
      dma := s.gpl.dma.filter (fun d => decide (d.cmd.part.toNat ≠ p)),
      waiting := s.gpl.waiting.filter (fun w => decide (w.cmd.part.toNat ≠ p)),
      msix := if func then mkeep (fun k _ => decide (k / 512 ≠ p)) s.gpl.msix else s.gpl.msix,
      fetchAt := mdel s.gpl.fetchAt p,
      fns := if func then mdel s.gpl.fns p else s.gpl.fns }
    regs := { s.regs with
      part := mkeep (fun k _ => decide (k / 65536 ≠ p)) s.regs.part,
      rcfg := mkeep (fun k _ => !mine (k / 8)) s.regs.rcfg,
      gcfg := mkeep (fun k _ => !monitor (k / 4)) s.regs.gcfg,
      pcnt := mkeep (fun k _ => decide (k / 16 ≠ p)) s.regs.pcnt,
      latch := mkeep (fun k _ => decide (k / 2 ^ 24 ≠ p)) s.regs.latch }
    dbg := { s.dbg with gait := mkeep (fun m _ => !monitor m) s.dbg.gait }
    tbl := { s.tbl with
      busy := s.tbl.busy.filter (· ≠ p), learnQ := s.tbl.learnQ.filter (fun l => decide (l.part ≠ p)) }
    jnl := if isSup s p then { s.jnl with inExport := 0 } else s.jnl }

/-- Requests and keys of the partition leave the crypto engines (13 R280, Table 13-14). -/
def cryptoReset (s : State) (p : Nat) : State :=
  { s with cry := { s.cry with
      queue := s.cry.queue.filter (fun r => decide (r.part ≠ p)), keys := mkeep (fun _ k => decide (k.part ≠ p)) s.cry.keys,
      badSlots := s.cry.badSlots.filter (fun i => decide (keyOwner s i ≠ some p)) } }

/-- Buffers that agents of the partition own, in any pool, are returned (12 Table 12-7). -/
def buffersReset (s : State) (p : Nat) : State :=
  ((s.buf.tags.filter (fun kt => kt.2.alloc && decide (agentPart s kt.2.owner = some p))).map (fun kt => (kt.2.owner, kt.1))).foldl
    (fun s x => endUse s x.1 x.2) s

/-- A partition's reset. It is held in reset until it is released (14 R316, 18 Table 18-4); a Bolt of cause 0x01 is
cleared by it, and the partition stays in Bolt (16 R344). DESIGN CHOICE, log entry 97. -/
def partitionReset (s : State) (p : Nat) (func : Bool) : State :=
  let s := { s with hkc := { s.hkc with inReset := p :: s.hkc.inReset.filter (· ≠ p) } }
  let s := haspReset s p
  let s := egressReset s p
  let s := haltReset s p
  let s := threadsReset s p
  let s := framerReset s p
  let s := gopolReset s p func
  let s := cryptoReset (buffersReset s p) p
  doubtGone (memReset s p) p (fun d => decide (d.code = 0x01))

/-- A partition leaves reset. -/
def partRelease (s : State) (p : Nat) : State := { s with hkc := { s.hkc with inReset := s.hkc.inReset.filter (· ≠ p) } }

/-- RST_CTL.PRESET (18 R384): the reset runs and ends. -/
def presetNow (s : State) (p : Nat) : State :=
  let held := s.hkc.inReset.contains p
  let s := partitionReset s p false
  if held then s else partRelease s p

/-- Partitions of the functions of a PCIe port that exist (14 R298). -/
def portParts (s : State) (k : Nat) : List Nat := ([2 * k, 2 * k + 1].filter (funcExists s)).map (partOfFunc s)

/-- The link of a port has trained (18 R388): GPL_PORT's fields, with its width and rate free (DESIGN CHOICE, log entry 2). -/
def linkReady (s : State) (k : Nat) : State :=
  if !s.hkc.booted || s.hkc.smbOnly || (portParts s k).any (fun p => s.hkc.inReset.contains p) then s
  else
    let two := bitOf s.flash.bifur k
    let (w0, s) := drawFree s (if two then 3 else 4)
    let (r0, s) := drawFree s 5
    let (w1, s) := if two then drawFree s 3 else (0, s)
    let (r1, s) := if two then drawFree s 5 else (0, s)
    let first := 1 + (w0 + 1) * 4 + (r0 + 1) * 32
    let second := if two then 256 + (w1 + 1) * 512 + (r1 + 1) * 4096 else 0
    { s with gpl := { s.gpl with links := mset 0 s.gpl.links k (first + second) } }

/-! ### The flash -/

/-- The newer good sealed copy (18 R385). -/
def sealedCopy (s : State) : Option SealedCopy :=
  let a := s.flash.copyA
  let b := s.flash.copyB
  if a.valid && (!b.valid || decide (b.age ≤ a.age)) then some a else if b.valid then some b else none

/-- HKC_BIND as a sealed copy holds it. -/
def copyBind (c : SealedCopy) : Nat := (mget 0 c.words 8).toNat

/-! ### Device reset and boot -/

/-- The state with every island cleared, before boot: what stands outside the part, the flash, and the model's own fields
stay (18 Table 18-4). DEDUCED, log entry 96. -/
def coldState (s : State) : State :=
  { State.reset with
    pending := s.pending, fresh := s.fresh, seq := s.seq, now := s.now, out := s.out, flash := s.flash
    mem := { host := s.mem.host }
    prt := { modules := s.prt.modules }
    jnl := { key := s.jnl.key }
    dbg := { nonce := s.dbg.nonce, jtagOut := s.dbg.jtagOut }
    hkc := { booted := false, vin := s.hkc.vin, inReset := s.hkc.inReset, rbgBad := s.hkc.rbgBad, hbmBad := s.hkc.hbmBad,
             forcePend := s.hkc.forcePend }
    pins := { boltN := false, vaux := s.pins.vaux, vinOk := s.pins.vinOk, flashWpN := s.pins.flashWpN, smbOut := s.pins.smbOut } }

/-- The state a warm reset leaves before boot: the housekeeping island, with the Farrier's map of spares, and the time base
are kept (18 Table 18-4). -/
def warmState (s : State) : State :=
  let c := coldState s
  { c with
    tb := s.tb
    far := { s.far with patches := [], pgrev := 0, islandLost := [], draining := [], load := none, loadDrain := [] }
    src := { lastSub := s.src.lastSub, spares := s.src.spares }
    cry := { symRetired := s.cry.symRetired, pkRetired := s.cry.pkRetired, engErr := s.cry.engErr }
    hbm := { retired := s.hbm.retired, quiesced := s.hbm.quiesced, regained := s.hbm.regained, lanes := s.hbm.lanes }
    regs := { cnt := mkeep (fun o _ => decide (o < 0x10000)) s.regs.cnt }
    hkc := { s.hkc with
      dbolt := false, cause := 0, pbolt := [], booted := false, smbOnly := false, failStep := 0,
      updBusy := none, warmPend := false }
    pins := { s.pins with boltN := false } }

/-- Choose the firmware image: the preferred one, or the other one when it is bad (18 R385 step 2). -/
def chooseImage (s : State) : Option (Bool × Bool) :=
  let good := fun b => if b then s.flash.imgB else s.flash.imgA
  let pref := s.flash.preferB
  if good pref then some (pref, false) else if good (!pref) then some (!pref, true) else none

/-- Write a word of the sealed configuration into its register, in both banks of a parse register (20 R412). An armed
Hobble unit starts its numbering; under the audit lock none is armed (02 R45). -/
def restoreWord (s : State) (o : Nat) (v : W32) : State :=
  if isParseReg o then
    let s := wrDev s o v.toNat
    { s with regs := { s.regs with parActive := mset (devReset o) s.regs.parActive o v } }
  else if 0x20000 ≤ o ∧ o < 0x28000 ∧ (o - 0x20000) % 0x80 = 0 then
    (if auditLocked s then s else hobbleWrite s ((o - 0x20000) / 0x80) v.toNat)
  else if o = 0xC0000 then
    let s := wrDev s o v.toNat
    if jnlEn s then jnlGenesis s else s
  else wrDev s o v.toNat

/-- Boot step 9: the patch in the flash image that boots, when it is not refused (10 R222). -/
def bootPatch (s : State) : State :=
  let l := if s.hkc.imageB then s.flash.patchB else s.flash.patchA
  if l = [] then s
  else match patchRefuse s false l with
    | none => patchAll s (patchOf l)
    | some e => sendEvent s 0x06 0 (beOctets 1 e)

/-- Boot ends in device Bolt at a step (18 R386). -/
def bootFail (s : State) (step cause : Nat) : State :=
  { s with
    hkc := { s.hkc with
      booted := true, dbolt := true, cause := cause, pbolt := [], failStep := step, smbOnly := decide (step = 2) }
    pins := { s.pins with boltN := false } }

/-- Boot steps 9 and 10: every Bolt is cleared (18 R383); and what FORCE_BOLT_N asked for during boot (16 R340). -/
def bootFinish (s : State) : State :=
  let s := bootPatch s
  let s := ((sealedCopy s).map (·.words)).getD [] |>.foldl (fun s kv => restoreWord s kv.1 kv.2) s
  let s := (List.range 8).foldl fillBucket s
  let s := { s with
    hkc := { s.hkc with booted := true, dbolt := false, cause := 0, pbolt := [] }, pins := { s.pins with boltN := true } }
  if s.hkc.forcePend then boltDevice { s with hkc := { s.hkc with forcePend := false } } 0x0D else s

/-- The device root key is drawn from the random bit generator at every device reset (13 R278, R280). -/
def rootKeyDraw (s : State) : State :=
  let (k, s) := rbgDraw s (2 ^ 256)
  { s with cry := { s.cry with rootKey := BitVec.ofNat 256 k } }

/-- Boot from step 3 (18 R385, R386): the binding takes effect, the keys of this boot are drawn, BOOTNO counts. -/
def bootFrom3 (s : State) : State :=
  let bind := ((sealedCopy s).map copyBind).getD 0
  let (k, s) := (s.fresh, { s with fresh := s.fresh + 1 })
  let s := { s with
    flash := { s.flash with
      bindFunc := if bitOf bind 3 then some (bind % 8) else none, bifur := bitsOf bind 7 4, bootNo := s.flash.bootNo + 1 }
    jnl := { s.jnl with key := k }
    dbg := { s.dbg with locked := s.flash.audit } }
  let s := newNonce s
  if s.hkc.rbgBad then bootFail { s with cry := { s.cry with rbgRun := false } } 6 0x12
  else
    let s := rootKeyDraw { s with cry := { s.cry with rbgRun := true, rbgSince := s.now } }
    if s.hkc.hbmBad then bootFail s 7 0 else bootFinish s

/-- Boot from step 1, when both supplies are valid (18 R374, R385); else it waits for them. -/
def bootFrom1 (s : State) : State :=
  if !(s.pins.vaux && s.pins.vinOk) then s
  else match chooseImage s with
    | none => bootFail s 2 0
    | some (b, fell) => bootFrom3 { s with hkc := { s.hkc with imageB := b, fellBack := fell } }

/-- A power-on reset (18 Table 18-4). DESIGN CHOICE, log entry 95. -/
def powerOn (s : State) : State := bootFrom1 (coldState s)

/-- A warm reset; it waits for a flash write to end (18 R384). -/
def warmNow (s : State) : State :=
  if s.hkc.updBusy.isSome then { s with hkc := { s.hkc with warmPend := true } }
  else if s.hkc.booted then bootFrom3 (warmState s) else s

/-- POWER_ON_RESET: VAUX has risen. -/
def execPowerOnReset (s : State) : Host.Outcome State Fault Refusal :=
  .next (powerOn { s with pins := { s.pins with vaux := true } })

/-- SYS_RST_N: as power-on, while the part is powered (18 Table 18-4). -/
def execSysRstN (s : State) : Host.Outcome State Fault Refusal := .next (if s.pins.vaux then powerOn s else s)

/-- SUPPLY_RESET_LEVEL (16 R346): `rail` 0 is VIN, which must come back before the rails are enabled. -/
def execSupplyResetLevel (rail : BitVec 4) (s : State) : Host.Outcome State Fault Refusal :=
  if 12 < rail.toNat then .fault .noSuchUnit
  else if !s.pins.vaux then .next s
  else .next (powerOn (if rail = 0 then { s with pins := { s.pins with vinOk := false } } else s))

/-- VIN_VALID (18 R374): with VAUX valid the rails are enabled, and a boot that waited for them goes on. -/
def execVinValid (s : State) : Host.Outcome State Fault Refusal :=
  let s := { s with pins := { s.pins with vinOk := true } }
  .next (if s.pins.vaux && !s.hkc.booted then bootFrom1 s else s)

/-- VAUX_LOSS (19 R395): every output is high-impedance; the pull-ups of BOLT_N, ALERT_N and SMB_ALERT_N lie on VAUX. -/
def execVauxLoss (s : State) : Host.Outcome State Fault Refusal :=
  let c := coldState s
  .next { c with pins := { c.pins with vaux := false, driven := false, boltN := false, alertN := false, smbAlertN := false } }

/-- PARTITION_RESET: PERST_N, a function-level reset or D3hot to D0 (14 R316). -/
def execPartitionReset (part : BitVec 3) (s : State) : Host.Outcome State Fault Refusal := .next (partitionReset s part.toNat true)

/-- PERST_N_RELEASE: the port's partitions held in reset leave it, and its link trains (18 R388). -/
def execPerstNRelease (port : BitVec 2) (s : State) : Host.Outcome State Fault Refusal :=
  let ps := (portParts s port.toNat).filter (fun p => s.hkc.inReset.contains p)
  .next (if ps = [] then s
    else ps.foldl partRelease { s with gpl := { s.gpl with links := mdel s.gpl.links port.toNat } })

/-- PCIE_LINK_READY. -/
def execPcieLinkReady (port : BitVec 2) (s : State) : Host.Outcome State Fault Refusal := .next (linkReady s port.toNat)

/-! ### Supplies, temperature, alerts -/

/-- REIN_EXIT (16 R348): 20 microseconds at or above the recovery threshold, then a seal recomputation; `badStore` makes it
mismatch (03 R63). -/
def reinExit (s : State) : State :=
  match s.hkc.rein with
  | none => s
  | some r =>
    if s.now < r.lowAt + 20000 then s
    else if s.par.badStore then boltDevice s 0x06
    else reinEnd s

/-- REIN_EXIT. -/
def execReinExit (s : State) : Host.Outcome State Fault Refusal := .next (reinExit s)

/-- SEAL_RECOMPUTATION (16 R339): `upset` says which bits of the stored fields have changed by themselves. -/
def execSealRecomputation (upset : BitVec 32) (s : State) : Host.Outcome State Fault Refusal :=
  .next (if upset ≠ 0 ∨ s.par.badStore then boltDevice s 0x06 else s)

/-- ON_DIE_SENSOR_READING: the part has 16 sensors at 17 Table 17-2; 100 degrees alert the board (19 R396), 110 put the
device into Bolt (16 Table 16-1). -/
def execOnDieSensorReading (sensor deg : BitVec 8) (s : State) : Host.Outcome State Fault Refusal :=
  if 16 ≤ sensor.toNat then .fault .noSuchUnit
  else
    let rest := s.hkc.hotSensors.filter (· ≠ sensor.toNat)
    let s := { s with hkc := { s.hkc with hotSensors := if 100 ≤ deg.toNat then sensor.toNat :: rest else rest } }
    let s := alertUpdate s
    .next (if 110 ≤ deg.toNat then doubt s 0x09 none 0 else s)

/-- SMBUS_ALERT_RESPONSE (19 R396): the read of the Alert Response Address releases SMB_ALERT_N. -/
def execSmbusAlertResponse (s : State) : Host.Outcome State Fault Refusal :=
  .next (if s.pins.vaux then { s with pins := { s.pins with smbAlertN := true } } else s)

/-- PRESET: the supervisor writes RST_CTL.PRESET with its KEY. -/
def execPresetPart (part : BitVec 3) (s : State) : Host.Outcome State Fault Refusal :=
  .next (if supBound s && !inReset s 0 then presetNow s part.toNat else s)

/-- WARM: the supervisor writes RST_CTL.WARM with its KEY. -/
def execWarmReset (s : State) : Host.Outcome State Fault Refusal :=
  .next (if supBound s && !inReset s 0 then warmNow s else s)

end Sys2Proof.Machine
end

