-- ==== Sys2Proof/Machine/RegRead.lean ====
section
/-! DEFINITION. What a set-up register reads (20 R402-R410): the values of the device window and of the partition windows
with their mirrors, the effects of a read, and the configuration seal (20 R411). -/

namespace Sys2Proof.Machine

/-- Is a register an array of 64-bit wrapping counters (20 R403). -/
def isCounter (r : Reg) : Bool :=
  [.farCnt, .prtCnt, .hobCnt, .parSlowcnt, .parRsncnt, .stfCnt, .srcCnt, .tblCnt, .hltCnt, .schCnt, .coreCnt, .mcsCnt, .hspCnt,
   .chnCnt, .bufCnt, .egrCnt, .jnlCnt, .cryCnt, .hbmCnt, .vioCnt].contains r

/-- Is a register one of the Hobble units (02 R45). -/
def isHobble (r : Reg) : Bool :=
  [.hobCfg, .hobDrop, .hobCorpos, .hobCork, .hobCormask, .hobReo, .hobSeed, .hobCnt].contains r

/-- Is a register one of the HBM controller (15 R337). -/
def isHbmReg (r : Reg) : Bool :=
  [.hbmCfg, .hbmStat, .hbmTrain, .hbmMigbw, .hbmUelog, .hbmRank, .hbmCecnt, .hbmCnt].contains r

/-! ### The configuration seal -/

/-- RW bits of a device-window word that the seal covers (20 R411). -/
def sealMask (o : Nat) : Nat :=
  if (0x10 ≤ o ∧ o < 0x20) ∨ (0x84 ≤ o ∧ o < 0x88) ∨ (0x90 ≤ o ∧ o < 0x98) ∨ (0xE0000 ≤ o ∧ o < 0xE0004) ∨
    (0xE0010 ≤ o ∧ o < 0xE001C) ∨ (0xE1000 ≤ o ∧ o < 0xE1800) then 0 else devMask o

/-- A word as the seal takes it: a parse register's is its active bank's. -/
def sealWord (s : State) (o : Nat) : Nat := (if isParseReg o then rdPar s o else rdDev s o) &&& sealMask o

/-- Offsets of the covered words of the device window, ascending. -/
def sealOffsets : List Nat := ((List.range 0x3C000).map (fun k => 4 * k)).filter (fun o => sealMask o ≠ 0)

/-- RW bits of GPL_RCFG W0-W3 (14 Table 14-16). -/
def rcfgMask (w : Nat) : Nat := [0xFFFFFF00, 0xFFFFFFFF, 0x7FFFFF, 0x7FFFFFF].getD w 0

/-- Covered words of a partition's window, the rings it owns in ascending number (20 R411). -/
def sealPart (s : State) (p : Nat) : List Nat :=
  [rdPart s p 4 % 2 ^ 17, rdPart s p 0xC % 2 ^ 24, rdPart s p 0x10 / 64 * 64, rdPart s p 0x14,
    rdPart s p 0x18 / 64 * 64, rdPart s p 0x1C] ++
  ((List.range 4096).filter (fun r => decide (ringOwner s r = some p))).flatMap
    (fun r => (List.range 4).map (fun w => rdRing s r w &&& rcfgMask w))

/-- The configuration seal: CRC-32C over the covered words, each least significant octet first (20 R411). -/
def sealOf (s : State) : Nat :=
  crc32c ((sealOffsets.map (sealWord s) ++ (List.range 8).flatMap (sealPart s)).flatMap (leOctets 4))

/-- The covered device-window words as a sealed copy holds them (20 R412). -/
def saveWords (s : State) : Map W32 :=
  (((s.regs.dev.map (·.1) ++ s.regs.parActive.map (·.1)).eraseDups).filter (fun o => sealMask o ≠ 0)).foldl
    (fun m o => mset (devReset o) m o (BitVec.ofNat 32 (sealWord s o))) []

/-! ### Values of the device window -/

/-- Engines in service, spares and RBG of CRY_STAT (13 Table 13-17). DEDUCED, log entry 73. -/
def cryStat (s : State) : Nat :=
  let sym := 17 - s.cry.symRetired.length
  let pk := 26 - s.cry.pkRetired.length
  min 16 sym + 32 * min 24 pk + 1024 * (sym - 16) + 4096 * (pk - 24) + 16384 * b2n s.cry.rbgRun

/-- KEY_STAT of a partition. -/
def keyStat (s : State) (p : Nat) : Nat :=
  (s.cry.keys.foldl (fun n kv => if kv.2.part = p then n + kv.2.span else n) 0) % 2 ^ 17 +
    2 ^ 17 * b2n (mfind s.cry.kbpk p).isSome + 2 ^ 18 * (mget 0 s.cry.kgen p % 2 ^ 14)

/-- PRT_STAT of a port (02 Table 02-6). -/
def prtStat (s : State) (p : Nat) : Nat :=
  let x := portSt s p
  b2n x.linkUp + 2 * b2n x.fecLock + 4 * b2n (mget false s.prt.modules (p / 4)) + 8 * x.negMode + 64 * b2n (portPaused s p)

/-- HBM_STAT (15 Table 15-6). -/
def hbmStat (s : State) : Nat :=
  s.hbm.temp % 256 + 256 * b2n s.hbm.doubled + 512 * b2n s.hbm.selfRef +
    (match s.hbm.migr with
      | some m => 1024 + 2048 * m.ch + 32768 * m.sid
      | none => 0)

/-- HBM_RANK of a channel. -/
def hbmRank (s : State) (ch : Nat) : Nat :=
  b2n (s.hbm.retired.contains (ch, 0)) + 2 * b2n (s.hbm.retired.contains (ch, 1)) + 4 * lanesLeft s ch

/-- MCS_INFO (10 Table 10-8). DEDUCED, log entry 100. -/
def mcsInfo (s : State) : Nat :=
  let newest := s.far.patches.foldl (fun n kv => max n kv.2.id) 0
  let cores := if newest = 0 then 0 else (s.far.patches.filter (fun kv => decide (kv.2.id = newest))).length
  Config.romRev + 256 * s.far.pgrev + 65536 * cores

/-- MCS_STAT of a logical core: LOADING while the core is stopped for a patch write (10 Table 10-7). -/
def mcsStat (s : State) (l : Nat) : Nat :=
  let x : Patch := mget {} s.far.patches (physOf s l)
  x.id + 65536 * x.mregs.length + rdDev s (0x70800 + 4 * l) + 2 ^ 31 * b2n (s.far.loadDrain.contains l)

/-- POSTED of a channel. -/
def chnPosted (s : State) (ch : Nat) : Nat :=
  (List.range 16).foldl (fun n k => match (chSlot s (16 * ch + k)).st with
    | .posted _ => n + 2 ^ k
    | _ => n) 0

/-- HALTED, WHY and BPHIT of the selected thread. -/
def dbgTctl (s : State) : Nat :=
  match dbgThread s with
  | some t => 8 * b2n (thr s t).halted + 16 * (thr s t).why.toNat + 64 * (thr s t).bphit.toNat
  | none => 0

/-- The selected register of the halted thread. -/
def dbgTreg (s : State) : Nat :=
  match tregThread s with
  | some t => tregRead s t (tregNum s)
  | none => 0

/-- A word of VIO_FIRST (17 Table 17-6). -/
def vioWord (s : State) (p w : Nat) : Nat :=
  let v : VioFirst := mget {} s.dbg.vioFirst p
  match w with
  | 0 => b2n v.valid + 2 * v.kind + 512 * v.agent
  | 1 => v.res
  | 2 => v.offset % 2 ^ 32
  | _ => v.offset / 2 ^ 32 + 16 * v.time

/-- HKC_UPD W3. -/
def updWord (s : State) : Nat := b2n s.hkc.updBusy.isSome + rdDev s 0x1C + 16 * s.hkc.updStatus

/-- Half of a 64-bit value: the low word first. -/
def half (v w : Nat) : Nat := if w = 0 then v % 2 ^ 32 else v / 2 ^ 32 % 2 ^ 32

/-- The value at a place of the device window, the effects of reading it apart. -/
def devValue (s : State) (a : RegAt) (o : Nat) : Nat :=
  let v := rdDev s o
  if isCounter a.d.reg then half (rdCnt s (o / 8 * 8)).toNat a.w
  else match a.d.reg with
    | .hkcBolt => b2n s.hkc.dbolt + 2 * s.hkc.cause
    | .hkcBoot => b2n s.hkc.imageB + 2 * b2n s.hkc.fellBack + 4 * s.hkc.failStep
    | .hkcSeal => sealOf s
    | .hkcUpd => if a.w = 3 then updWord s else v
    | .hkcPbolt =>
      let x := pboltSt s a.i
      b2n x.on + 2 * (if x.on then x.cause.code else 0) + 512 * b2n (boltCleared s a.i) + v
    | .rstCtl => b2n s.hkc.warmPend
    | .pwrRein => v + 128 * b2n s.hkc.rein.isSome
    | .clkTb => v + 32 * b2n s.tb.slewing
    | .clkTadj => 0
    | .clkTnow => half (tai s) a.w
    | .clkPpscap => half s.tb.ppsCap a.w
    | .farStat => farStat s
    | .parCtl => b2n (parSwapping s) + v
    | .prtStat => prtStat s a.i
    | .srcStat => s.src.spares + 8 * s.src.lastSub
    | .srcBank => v + 1024 * (bankEnts s a.i).length
    | .hltStat => 16384 - ticketsInUse s none
    | .mcsInfo => mcsInfo s
    | .mcsStat => mcsStat s a.i
    | .chnCh => v + 32 * chnPosted s a.i
    | .bufFree => poolFree s a.i
    | .egrDepth => queueDepth s a.i % 4096
    | .jnlStat => s.jnl.sealed.length % 16384 + 16384 * b2n (jnlFull s) + 32768 * b2n (!s.jnl.opened.isEmpty)
    | .cryStat => cryStat s
    | .keyStat => keyStat s a.i
    | .gplPort => mget 0 s.gpl.links a.i + 2 * b2n (bitOf s.flash.bifur a.i)
    | .hbmStat => hbmStat s
    | .hbmRank => hbmRank s a.i
    | .dbgTctl => dbgTctl s
    | .dbgAudit => b2n s.dbg.locked + 2 * b2n s.dbg.unlockUntil.isSome
    | .dbgNonce => s.dbg.nonce.toNat
    | .dbgTreg => if a.w = 0 then v else half (dbgTreg s) (a.w - 1)
    | .vioFirst => vioWord s a.i a.w
    | .parSig | .parExt | .parPort | .parNode | .parTrn => v
    | _ => if isHobble a.d.reg && auditLocked s then 0 else v

/-! ### Reads -/

/-- Key of the latch of a requester: a partition 0-7, JTAG 8 or SMBus 9. -/
def latchKey (req o : Nat) : Nat := req * 2 ^ 24 + o

/-- Read a word of a 64-bit counter: the lower word latches the upper one for the requester (20 R403). -/
def latched (s : State) (key w v : Nat) : Nat × State :=
  if w = 0 then
    (v % 2 ^ 32, { s with regs := { s.regs with latch := mput s.regs.latch key (BitVec.ofNat 32 (v / 2 ^ 32)) } })
  else (((mfind s.regs.latch key).map (·.toNat)).getD (v / 2 ^ 32 % 2 ^ 32), s)

/-- A read of a device-window word by a requester as an agent (20 R403, R405, R407): its value, and the state after its
effects. DEDUCED, log entry 106. -/
def regRead (s : State) (req agent o : Nat) : Nat × State :=
  match regFind o with
  | none => (0, s)
  | some a =>
    let s := if isHbmReg a.d.reg && s.hbm.selfRef then hbmHold s else s
    let v := devValue s a o
    if isHobble a.d.reg && auditLocked s then (0, s)
    else if isCounter a.d.reg then latched s (latchKey req (o / 8 * 8)) a.w (rdCnt s (o / 8 * 8)).toNat
    else match a.d.reg with
      | .clkTnow => latched s (latchKey req (o / 8 * 8)) a.w (tai s)
      | .srcCecnt | .hbmCecnt => (v, wrDev s o 0)
      | .mcsStat => (v, wrDev s o 0)
      | .parCtl => (v, wrDev s o 0)
      | .dbgTreg =>
        if a.w ≠ 0 ∧ (debugLocked s ∨ (tregThread s).isNone) then (0, debugRefused s agent o) else (v, s)
      | _ => (v, s)

/-- The mirrors of per-partition counters: base, stride and length of an array (20 Table 20-1). -/
def mirrorAt (k : Nat) : Nat × Nat × Nat :=
  [(0x30800, 0x20, 0x20), (0x40800, 0x40, 0x40), (0x41400, 0x30, 0x30), (0x50400, 0x80, 0x48), (0x60400, 0x40, 0x40),
   (0x60600, 0x40, 0x40), (0x60060, 4, 4), (0x70A00, 0x40, 0x40), (0x70C00, 0x40, 0x30), (0x80400, 0x40, 0x40),
   (0x80600, 0x40, 0x30), (0x90800, 0x40, 0x40), (0xC0400, 0x40, 0x40), (0x140, 0, 0x48)].getD k (0, 0, 0)

/-- GPL_ID of a partition (20 Table 20-2). -/
def gplId (s : State) (p : Nat) : Nat := p + 8 * b2n (isSup s p) + 16 * funcOf s p

/-- The ring GPL_RSEL names, when the partition owns it (14 R319). -/
def selRing (s : State) (p : Nat) : Nat := rdPart s p 8 % 4096

/-- Is a ring busy: descriptors fetched, or started and not yet completed on their ring (14 Table 14-16). -/
def ringBusy (s : State) (r : Nat) : Bool :=
  let x := ringSt s r
  x.inflight.isSome || !x.fetched.isEmpty || !x.outst.isEmpty || !x.la.isEmpty ||
    (ringSt s (ringCq s r)).compl.any (fun e => decide (e.ring = r))

/-- A word of GPL_RCFG (14 Table 14-16). -/
def rcfgWord (s : State) (r w : Nat) : Nat :=
  match w with
  | 4 => (ringSt s r).pidx
  | 5 => (ringSt s r).hidx + 2 ^ 31 * b2n (ringBusy s r)
  | _ => rdRing s r w

/-- A word of GAIT_SNAP (17 Table 17-4). -/
def snapWord (s : State) (m w : Nat) : Nat :=
  let x := gaitSt s m
  match w with
  | 0 => x.snap.min
  | 1 => x.snap.max
  | 2 => half x.snap.count 0
  | 3 => half x.snap.count 1
  | 4 => half x.snap.sum 0
  | 5 => half x.snap.sum 1
  | 6 => half x.snap.tstart 0
  | 7 => half x.snap.tstart 1
  | 8 => half x.snap.tsnap 0
  | 9 => half x.snap.tsnap 1
  | 74 => x.seq.toNat
  | _ => mget 0 x.snap.bins (w - 10)

/-- A read of a word of a partition's window by its host (20 R406-R408). -/
def partRead (s : State) (p o : Nat) : Nat × State :=
  if inReset s p then (0, s)
  else if o = 0 then (gplId s p, s)
  else if 4 ≤ o ∧ o < 0x20 then (rdPart s p o, s)
  else if 0x20 ≤ o ∧ o < 0x38 then
    (if ringOwner s (selRing s p) = some p then (rcfgWord s (selRing s p) ((o - 0x20) / 4), s)
      else (0, hostViolate s p 6 (selRing s p)))
  else if o = 0x40 then (2 * b2n (s.tbl.busy.contains p), s)
  else if 0x80 ≤ o ∧ o < 0xC0 then (rdPart s p o, s)
  else if o = 0x100 then (rdPart s p o, s)
  else if (0x110 ≤ o ∧ o < 0x11C) ∨ (0x200 ≤ o ∧ o < 0x32C) then
    let m := gaitSel s p
    if monOwner s m = some p then
      (if o < 0x200 then rdGait s m ((o - 0x110) / 4) else snapWord s m ((o - 0x200) / 4), s)
    else (0, hostViolate s p 6 m)
  else if 0x1000 ≤ o ∧ o < 0x1700 then
    let (base, stride, len) := mirrorAt ((o - 0x1000) / 0x80)
    let r := o % 0x80
    let d := base + stride * p + r
    if len ≤ r then (0, s)
    else if base = 0x60060 then (rdDev s d, s)
    else latched s (latchKey p (d / 8 * 8)) (d / 4 % 2) (rdCnt s (d / 8 * 8)).toNat
  else if 0x1700 ≤ o ∧ o < 0x1748 then
    latched s (latchKey p (0x800000 + o / 8 * 8)) (o / 4 % 2) (mget 0 s.regs.pcnt (p * 16 + (o - 0x1700) / 8)).toNat
  else if 0x2000 ≤ o ∧ o < 0x2100 then
    let k := (o - 0x2000) / 4
    if poolOwner s k = some p then (poolFree s k, s) else (0, hostViolate s p 6 k)
  else if 0x4000 ≤ o ∧ o < 0x5000 then
    let d := 0xB1000 + (o - 0x4000)
    latched s (latchKey p (d / 8 * 8)) (d / 4 % 2) (rdCnt s (d / 8 * 8)).toNat
  else (0, s)

/-- A read of a word of BAR2 (14 Table 14-2): the MSI-X table and its pending bits; the write-only nudge register and what
is reserved read zero. -/
def bar2Read (s : State) (p o : Nat) : Nat :=
  let ent := fun (k : Nat) => mget {} s.gpl.msix (p * 512 + k)
  if 0x1000 ≤ o ∧ o < 0x3000 then
    let e : MsixEnt := ent ((o - 0x1000) / 16)
    match o / 4 % 4 with
    | 0 => e.addr % 2 ^ 32
    | 1 => e.addr / 2 ^ 32
    | 2 => e.data.toNat
    | _ => b2n e.masked
  else if 0x3000 ≤ o ∧ o < 0x3040 then
    ((List.range 32).map (fun k => b2n (ent ((o - 0x3000) / 4 * 32 + k)).pend * 2 ^ k)).sum
  else 0

/-! ### Reads that have a row -/

/-- JTAG's agent (17 R370). -/
def jtagAgent : Nat := intAgent 8

/-- Offsets DBGACC reaches: DBG_* and GAIT_ASSIGN (20 R402). -/
def dbgaccReach (o : Nat) : Bool :=
  match regFind o with
  | some a => [Reg.dbgTsel, .dbgTctl, .dbgAudit, .dbgNonce, .dbgTreg, .dbgBp, .gaitAssign].contains a.d.reg
  | none => false

/-- SMBUS_REGISTER_READ (20 R413): offsets 0x0_0000-0x0_FFFF, most significant octet first. -/
def execSmbusRegisterRead (offset : BitVec 32) (s : State) : Host.Outcome State Fault Refusal :=
  let o := offset.toNat % 2 ^ 24
  .next (if !s.pins.vaux then s
    else if 0x10000 ≤ o then { s with pins := { s.pins with smbOut := 0 } }
    else
      let (v, s) := regRead s 9 (intAgent 0) o
      { s with pins := { s.pins with smbOut := BitVec.ofNat 32 v } })

end Sys2Proof.Machine
end

