-- ==== Sys2Proof/Machine/RegWrite.lean ====
section
/-! DEFINITION. Writes of the set-up registers (20 R402-R409 and the rules of the chapters that own them): which writes are
ignored, what a write changes, and what it starts. -/

namespace Sys2Proof.Machine

/-- May the supervisor's host reach the device window: a bound supervisor that is not in reset (00 R5, 20 R402). -/
def supReach (s : State) : Bool := supBound s && !inReset s 0

/-- An ignored write of the device window, counted as SETUP_WRITE against the supervisor (20 R405, 17 Table 17-5). -/
def setupIgnored (s : State) (agent o : Nat) : State := violate s 0 7 agent (o / 4) 0

/-- The RW bits of a word take the written value; every other bit stays (00 R3). -/
def merged (s : State) (o v : Nat) : Nat := (rdDev s o &&& (0xFFFFFFFF ^^^ devMask o)) ||| (v &&& devMask o)

/-- Store the RW bits of a written word. -/
def regStore (s : State) (o v : Nat) : State := wrDev s o (merged s o v)

/-- Does a write change bits `hi` to `lo` of a word. -/
def changes (s : State) (o v hi lo : Nat) : Bool := decide (fld s o hi lo ≠ bitsOf v hi lo)

/-! ### Guards -/

/-- Octets of the journal region (13 R292). -/
def jnlRegion (s : State) : Nat × Nat := (jnlBase s, 2 ^ 30)

/-- Do two ranges, each a base and a length, meet. -/
def meets (a b : Nat × Nat) : Bool := decide (a.1 < b.1 + b.2 ∧ b.1 < a.1 + a.2)

/-- Does a range overlap the journal region (13 R292). -/
def onJournal (s : State) (base len : Nat) : Bool := meets (jnlRegion s) (base, len)

/-- Length of the table a base register places (04 R73, 06 R108-R117). -/
def tableLen (s : State) (r : Reg) : Nat :=
  match r with
  | .tblFlowbase => 256 * flowNB s
  | .tblL2base => 64 * l2NB s
  | .tblPfxbase => 128 * pfxNB
  | .tblDecbase => 128 * dpfxNB
  | .tblDecsbase => 177760 * 8
  | .tblRtsbase => 16 * 65536
  | .stfStbase => 256 * (fld s 0x40000 22 1 + 1)
  | .stfRwbase => 512 * (fld s 0x40000 22 1 + 1)
  | _ => 0

/-- Does routing table `k` hold an entry (06 R131). -/
def rtEmpty (s : State) (k : Nat) : Bool :=
  !s.tbl.pfx.any (fun kv => decide (kv.2.own = k)) && !s.tbl.povf.any (fun kv => !kv.2.dec && decide (kv.2.own = k)) &&
    !s.tbl.rts.any (fun e => decide (e.1 = k))

/-- Is the table of a base register empty (06 R131). -/
def tableEmpty (s : State) (r : Reg) (i : Nat) : Bool :=
  match r with
  | .tblFlowbase => s.tbl.flow.isEmpty
  | .tblL2base => s.tbl.l2.isEmpty
  | .tblPfxbase => s.tbl.pfx.isEmpty && s.tbl.povf.all (fun kv => kv.2.dec)
  | .tblDecbase => s.tbl.dpfx.isEmpty && s.tbl.povf.all (fun kv => !kv.2.dec)
  | .tblDecsbase => s.tbl.dshort.isEmpty
  | .tblRtsbase => !s.tbl.rts.any (fun e => decide (e.1 = i))
  | _ => true

/-- Largest number of prefix lengths under one filter entry (06 R120). -/
def largestFilter (s : State) : Nat :=
  (s.tbl.pfx ++ s.tbl.dpfx ++ s.tbl.povf).foldl (fun n kv => max n (filterLens s kv.2.dec kv.2.own kv.2.pfx).length) 0

/-- May WIDTH, HOLEINT, OWNER and ASSIGNED of a bank change: it holds no entry, no enabled profile selects it, and no
command names it (05 R107). -/
def bankIdle (s : State) (b : Nat) : Bool :=
  !s.src.ents.any (fun kv => decide (kv.1 / 4096 = b)) &&
    !(List.range 256).any (fun f =>
      let o := 0x44000 + 0x40 * f
      flag s o 0 && (if b < 32 then flag s (o + 4) b else flag s (o + 8) (b - 32))) &&
    !s.gpl.waiting.any (fun w => match w.what with
      | .srcInsert k _ => decide (k = b)
      | .srcFlush k => decide (k = b)
      | _ => false)

/-- Does no open connection name a service (04 R87). -/
def svcIdle (s : State) (v : Nat) : Bool := !s.stf.conns.any (fun kc => decide (kc.2.state ≠ 0 ∧ kc.2.service = v))

/-- Does a cluster run, save or hold no task (08 R179). -/
def clusterIdle (s : State) (c : Nat) : Bool :=
  !s.thr.threads.any (fun kx => decide (kx.1 / 128 = c) && kx.2.ctx.task.isSome) &&
    !s.thr.slots.any (fun kx => decide (kx.1 / 128 = c))

/-- Device ranges of the valid descriptors a partition owns, each a base and a length (08 Table 08-8). -/
def descRanges (s : State) (p : Nat) : List (Nat × Nat) :=
  (s.mem.segs.filter (fun kg => decide (bitsOf kg.2.w3.toNat 14 12 = p))).filterMap (fun kg =>
    let v := kg.2.view p (kg.1 % 1024)
    if v.valid && decide (v.space = 3 ∨ v.space = 4) then some (v.base, v.limit + 1) else none)

/-- May a range of a partition change: no descriptor of the partition lies over it (08 R179). -/
def rangeIdle (s : State) (p k : Nat) : Bool :=
  let o := 0x71000 + 0x80 * p + 8 * k
  let first := fld s o 27 0 * 256
  let last := fld s (o + 4) 27 0 * 256 + 256
  !(flag s o 31) || !(descRanges s p).any (fun r => meets r (first, last - first))

/-- Is no lock of a group held or waited for (11 R247). -/
def groupIdle (s : State) (k : Nat) : Bool :=
  !s.hsp.locks.any (fun kl => decide (kl.1 / 256 = k ∧ kl.1 < 16384) && (decide (kl.2.holder ≠ .free) || !kl.2.waiters.isEmpty))

/-- Is no slot of a channel reserved or posted (11 R247). -/
def channelIdle (s : State) (ch : Nat) : Bool := !s.hsp.slots.any (fun kx => decide (kx.1 / 16 = ch ∧ kx.2.st ≠ .free))

/-- Has a pool no buffer allocated (12 R270). -/
def poolIdle (s : State) (k : Nat) : Bool := !s.buf.tags.any (fun kt => kt.2.alloc && decide (poolAt s kt.1 = some k))

/-- The words of a pool after a write of one of them. -/
def poolWords (s : State) (k w v : Nat) : Nat × Nat × Nat :=
  let at_ := fun i => if i = w then merged s (0x90400 + 16 * k + 4 * i) v else rdDev s (0x90400 + 16 * k + 4 * i)
  (at_ 0, at_ 1, at_ 2)

/-- Buffer size and extent of a pool by its words. -/
def poolExtent (w0 w1 : Nat) : Nat × Nat × Nat :=
  let size := 2 ^ max 8 (min 14 (bitsOf w1 26 23))
  (bitsOf w0 27 0 * 256, size, bitsOf w1 22 0 * size)

/-- Enabled pools other than `k`, with a count. -/
def otherPools (s : State) (k : Nat) : List Nat := (List.range 64).filter (fun j => decide (j ≠ k) && poolLive s j)

/-- Do the words of a pool keep the limits of 12 R248, and keep off the journal region (13 R292). A pool that is not
enabled keeps those of its own size and place; one with no buffer has no extent. DEDUCED, log entry 99. -/
def poolFits (s : State) (k : Nat) (x : Nat × Nat × Nat) : Bool :=
  let (w0, w1, w2) := x
  let (base, size, len) := poolExtent w0 w1
  decide (len = 0) ||
    (decide (bitsOf w1 22 0 ≤ 4194304) && decide (base % size = 0) && devMapped base len && !onJournal s base len &&
      (!bitOf w2 0 || ((otherPools s k).all (fun j =>
        !meets (base, len) (fld s (0x90400 + 16 * j) 27 0 * 256, poolCount s j * poolSize s j)) &&
      decide ((otherPools s k).foldl (fun n j => n + poolCount s j) (bitsOf w1 22 0) ≤ 16777216) &&
      (!bitOf w1 27 || (decide (bitsOf w1 26 23 ≤ 8) && isSram base)))))

/-- A KEY_RNG range by its words: its first slot and its count. -/
def keyRange (w0 w1 : Nat) : Nat × Nat := if bitOf w0 16 then (bitsOf w0 15 0, bitsOf w1 16 0) else (0, 0)

/-- Is a loaded key in a range of slots. -/
def keyInside (s : State) (r : Nat × Nat) : Bool := s.cry.keys.any (fun kv => meets r (kv.1, kv.2.span))

/-- May a word of KEY_RNG be written: no key in the old or new range, and no overlap with another partition's (13 R296). -/
def keyRngOk (s : State) (p w v : Nat) : Bool :=
  let o := 0xC0080 + 8 * p
  let old := keyRange (rdDev s o) (rdDev s (o + 4))
  let new := keyRange (if w = 0 then merged s o v else rdDev s o) (if w = 1 then merged s (o + 4) v else rdDev s (o + 4))
  !keyInside s old && !keyInside s new &&
    (List.range 8).all (fun q => decide (q = p) ||
      !meets new (keyRange (rdDev s (0xC0080 + 8 * q)) (rdDev s (0xC0084 + 8 * q))))

/-- Sum of a value over the partitions other than `p`: HLT_PART.QUOTA (07 R133) and GPL_PLIM.CMDMAX (14 R306). -/
def sumOver (f : Nat → Nat) (p : Nat) : Nat := ((List.range 8).filter (fun q => decide (q ≠ p))).foldl (fun n q => n + f q) 0

/-! ### What a write starts -/

/-- HKC_UPD W3.GO (18 R387, 20 R412): the write to the flash begins, or is refused; `old` names the older copy.
DEDUCED, log entry 98. -/
def updGo (s : State) : State :=
  let status := fun n => { s with hkc := { s.hkc with updStatus := n } }
  if s.hkc.updBusy.isSome then s
  else if !s.pins.flashWpN then status 4
  else if flag s 0x1C 1 then
    let next := max s.flash.copyA.age s.flash.copyB.age + 1
    let c : SealedCopy := { valid := false, age := next, words := saveWords s }
    let intoA := match sealedCopy s with
      | some x => decide (x ≠ s.flash.copyA)
      | none => true
    { s with
      flash := if intoA then { s.flash with copyA := c } else { s.flash with copyB := c }
      hkc := { s.hkc with updStatus := 1, updBusy := some (if intoA then 1 else 2) } }
  else
    let len := fld s 0x18 23 0
    if len = 0 then status 5
    else
      let img := hostRead s 0 (rdDev s 0x10 + rdDev s 0x14 * 2 ^ 32) len
      { s with
        flash := if s.hkc.imageB then { s.flash with imgA := false, image := img } else { s.flash with imgB := false, image := img }
        hkc := { s.hkc with updStatus := 1, updBusy := some 0 } }

/-- A flash write ends (18 R387): an image that fails verification is never preferred. A warm reset that waited runs. -/
def flashEnd (s : State) (ok : Bool) : State :=
  let done := fun (s : State) n => { s with hkc := { s.hkc with updBusy := none, updStatus := n } }
  let s := match s.hkc.updBusy with
    | none => s
    | some 0 =>
      if ok then
        let l := Config.imagePatch s.flash.image
        done { s with flash := if s.hkc.imageB then { s.flash with imgA := true, preferB := false, patchA := l }
                               else { s.flash with imgB := true, preferB := true, patchB := l } } 2
      else done s 3
    | some 1 => done { s with flash := { s.flash with copyA := { s.flash.copyA with valid := true } } } 2
    | some 2 => done { s with flash := { s.flash with copyB := { s.flash.copyB with valid := true } } } 2
    | some _ =>
      let c := { s.flash.copyA with valid := true }
      done { s with flash := { s.flash with copyA := c, copyB := c } } 2
  if s.hkc.warmPend && s.hkc.updBusy.isNone then warmNow { s with hkc := { s.hkc with warmPend := false } } else s

/-- SMBUS_BINDING_WRITE (18 R387): into both copies, only while no binding is sealed. -/
def smbBinding (s : State) (cmd : Nat) (data : List Octet) : State :=
  let sealed_ := match sealedCopy s with
    | some c => bitOf (copyBind c) 3
    | none => false
  if !s.pins.vaux || sealed_ || !s.pins.flashWpN || s.hkc.updBusy.isSome || decide (cmd ≠ 0xB1) ||
      decide (data.length ≠ 2) || decide (7 < oct data 0) then s
  else
    let bind := oct data 0 + 8 + 16 * (oct data 1 % 16)
    let next := max s.flash.copyA.age s.flash.copyB.age + 1
    let c : SealedCopy := { valid := false, age := next, words := mset 0 (saveWords s) 8 (BitVec.ofNat 32 bind) }
    { s with
      flash := { s.flash with copyA := c }
      hkc := { s.hkc with updStatus := 1, updBusy := some 3 } }

/-- HKC_PBOLT: IDLECODE is stored, then FORCE and then CLEAR act (16 Table 16-14). -/
def pboltWrite (s : State) (p agent v : Nat) : State :=
  let s := boltPorts (regStore s (0x20 + 4 * p) v)
  let s := if bitOf v 10 then doubt s 0x0E (some p) 0 else s
  if bitOf v 11 then boltClear s p agent else s

/-- RST_CTL (18 R384): only with its KEY. -/
def rstWrite (s : State) (agent v : Nat) : State :=
  if v / 65536 ≠ 0x5253 then setupIgnored s agent 0x40
  else
    let s := ((List.range 8).filter (fun p => bitOf v (1 + p))).foldl presetNow s
    if bitOf v 0 then warmNow s else s

/-- CLK_TB (18 Table 18-8): LOS and PPSLOS are cleared by ones; MODE 01 without CLK10_IN edges sets LOS. -/
def clkTbWrite (s : State) (v : Nat) : State :=
  let s := regStore s 0x80 v
  let s := if bitOf v 3 then wrFlag s 0x80 3 false else s
  let s := if bitOf v 4 then wrFlag s 0x80 4 false else s
  if clk10Mode s && s.tb.clk10Lost then wrFlag s 0x80 3 true else s

/-- JNL_CFG (13 R289, R295): EN 0 to 1 writes the genesis block; under the audit lock EN cannot be cleared.
DEDUCED, log entry 74. -/
def jnlCfgWrite (s : State) (agent v : Nat) : State :=
  if auditLocked s && jnlEn s && !bitOf v 0 then violate s 0 9 agent (0xC0000 / 4) 0
  else
    let was := jnlEn s
    let s := regStore s 0xC0000 v
    if !was && jnlEn s then jnlGenesis s else s

/-- JNL_CLASS: class 0 is never audited; under the audit lock bits are only set (13 R284, R295). -/
def jnlClassWrite (s : State) (agent o i v : Nat) : State :=
  let v := if i = 0 then v / 2 * 2 else v
  if auditLocked s && decide (rdDev s o &&& v ≠ rdDev s o) then violate (wrDev s o (rdDev s o ||| v)) 0 9 agent (o / 4) 0
  else wrDev s o v

/-- CORE_CLUSTER (08 R179): OWNER and ASSIGNED change only while the cluster is idle; a cluster taken away clears the doubts
that only that clears (16 Table 16-1). -/
def clusterWrite (s : State) (agent o c v : Nat) : State :=
  if changes s o v 4 1 && !clusterIdle s c then setupIgnored s agent o
  else
    let was := clusterOwner s c
    let s := regStore s o v
    match was with
    | some p =>
      if clusterOwner s c = some p then s
      else doubtGone s p (fun d => decide ((d.code = 0x10 ∨ d.code = 0x08) ∧ d.res = c))
    | none => s

/-- VIO_FIRST W0: clearing VALID re-arms the record (17 R366). -/
def vioWrite (s : State) (p v : Nat) : State :=
  if bitOf v 0 then { s with dbg := { s.dbg with vioFirst := mdel s.dbg.vioFirst p } } else s

/-- A write under a guard: stored when it holds, else ignored and counted. DEDUCED, log entry 99. -/
def guarded (ok : Bool) (s : State) (agent o v : Nat) : State := if ok then regStore s o v else setupIgnored s agent o

/-- TBL_FLOW and TBL_L2: LOG2NB changes only while the table is empty (06 R131), and a new LOG2NB or SWEEP begins a new
sweep. DESIGN CHOICE, log entry 45. -/
def tblCfgWrite (s : State) (agent o v : Nat) (l2 : Bool) : State :=
  let empty := if l2 then s.tbl.l2.isEmpty else s.tbl.flow.isEmpty
  if changes s o v 5 1 && !empty then setupIgnored s agent o
  else
    let new := changes s o v 5 1 || changes s o v 17 6
    let s := regStore s o v
    if new then sweepRestart s l2 else s

/-- A whole-word write of a device-window register by an agent (20 R403, R405). Chapters 05 and 17 define no idle condition
(01 R16) for search profiles and Gait monitors: SRC_PROF.OWNER and GAIT_ASSIGN change at any time, with EN = 1 too. DESIGN
CHOICE, log entry 99. -/
def devRegWrite (s : State) (agent o v : Nat) : State :=
  match regFind o with
  | none => setupIgnored s agent o
  | some a =>
    let i := a.i
    let s := if isHbmReg a.d.reg && s.hbm.selfRef then hbmHold s else s
    if isHobble a.d.reg && auditLocked s then violate s 0 9 agent (o / 4) 0
    else if isParseReg o && parSwapping s then setupIgnored s agent o
    else match a.d.reg with
    | .hkcBolt => if bitOf v 9 then doubt s 0x0E none 0 else s
    | .hkcPbolt => pboltWrite s i agent v
    | .hkcUpd => if a.w = 3 then (if bitOf v 0 then updGo (regStore s o v) else regStore s o v) else regStore s o v
    | .rstCtl => rstWrite s agent v
    | .clkTb => clkTbWrite s v
    | .clkTadj => tadjWrite s v
    | .clkTset =>
      if jnlEn s then setupIgnored s agent o else if a.w = 1 then tsetNow (regStore s o v) else regStore s o v
    | .prtQcfg => quadWrite s i v
    | .prtCfg =>
      let was := portEn s i
      let fc := changes s o v 17 16
      let s := regStore s o v
      let s := if fc then flowChanged s i else s
      if was && !portEn s i then linkDownNow s i else s
    | .hobCfg => hobbleWrite s i v
    | .parCtl => if bitOf v 0 then parSwapNow s else s
    | .tblFlow => tblCfgWrite s agent o v false
    | .tblL2 => tblCfgWrite s agent o v true
    | .parSlowp | .parSlowb => cutBucket (regStore s o v) i
    | .stfStbase | .stfRwbase => guarded (!onJournal s (bitsOf v 27 0 * 256) (tableLen s a.d.reg)) s agent o v
    | .stfSvc => guarded (svcIdle s i) s agent o v
    | .srcBank => guarded (!changes s o v 9 1 || bankIdle s i) s agent o v
    | .tblFlowbase | .tblL2base | .tblPfxbase | .tblDecbase | .tblDecsbase | .tblRtsbase =>
      guarded (tableEmpty s a.d.reg i && !onJournal s (bitsOf v 27 0 * 256) (tableLen s a.d.reg)) s agent o v
    | .tblRt => guarded (!changes s o v 5 1 || rtEmpty s i) s agent o v
    | .tblLpm =>
      let s := if bitOf v 4 then wrFlag s o 4 false else s
      if max 1 (min 8 (bitsOf v 3 0)) < largestFilter s then wrFlag s o 4 true else regStore s o v
    | .schCfg => schCfgWrite s (merged s o v)
    | .schStall => if bitOf v 0 then wrFlag s o 0 false else s
    | .hltPart => guarded (decide (sumOver (fun q => fld s (0x60020 + 4 * q) 27 13) i + bitsOf v 27 13 ≤ 16384)) s agent o v
    | .hltDom => guarded (a.w ≠ 0 || !changes s o v 4 1 || decide (domOrder s i = [])) s agent o v
    | .coreCluster => clusterWrite s agent o i v
    | .coreMemrng => guarded (rangeIdle s i a.j) s agent o v
    | .hspGrp => guarded (a.w ≠ 0 || groupIdle s i) s agent o v
    | .chnCh => guarded (channelIdle s i) s agent o v
    | .bufPool => guarded (poolIdle s i && poolFits s i (poolWords s i a.w v)) s agent o v
    | .egrQ => guarded (a.w ≠ 0 || (queueOf s i).isEmpty) s agent o v
    | .jnlCfg => jnlCfgWrite s agent v
    | .jnlBase => guarded (!jnlEn s) s agent o v
    | .jnlClass => jnlClassWrite s agent o i v
    | .jnlDigsrc => regStore s o (if i = 0 then v / 2 * 2 else v)
    | .keyRng => guarded (keyRngOk s i a.w v) s agent o v
    | .gplPlim => guarded (decide (sumOver (cmdMax s) i + bitsOf v 14 0 ≤ 16384)) s agent o v
    | .gplRassign => guarded (!ringEn s i) s agent o v
    | .dbgTctl => tctlWrite s agent v
    | .dbgTreg =>
      if a.w = 2 then tregWrite s agent v else if debugLocked s then debugRefused s agent o else regStore s o v
    | .dbgBp => if debugLocked s then debugRefused s agent o else regStore s o v
    | .vioFirst => if a.w = 0 then vioWrite s i v else s
    | _ => if devMask o = 0 then s else regStore s o v

/-! ### The partition windows -/

/-- Is a ring kind in use (14 Table 14-3). -/
def kindUsed (k : Nat) : Bool := decide (1 ≤ k ∧ k ≤ 9)

/-- May EN be set on a ring of kind `k` (14 R300): a SERVICE or JOURNAL ring only in the supervisor partition, and one of
each. -/
def enableOk (s : State) (p r k : Nat) : Bool :=
  kindUsed k && (decide (k ≠ 3 ∧ k ≠ 8) ||
    (isSup s p && !(ringsOf s p).any (fun q => decide (q ≠ r) && ringEn s q && decide (ringKind s q = k))))

/-- W3 of a ring whose KIND has changed (20 R409). -/
def kindReset (k : Nat) : Nat := if k = 9 then 0x20200 else if k = 7 then 0x64 else 0

/-- A write of GPL_RCFG of the selected ring (14 R319, 20 R409). DEDUCED, log entry 77. -/
def ringCfgWrite (s : State) (p w v : Nat) : State :=
  let r := selRing s p
  let ignored := hostViolate s p 7 ((0x20 + 4 * w) / 4)
  let new := v &&& rcfgMask w
  if ringOwner s r ≠ some p then hostViolate s p 6 r
  else if 4 ≤ w then s
  else if ringEn s r || ringBusy s r then
    (if w = 2 ∧ new = setBit (rdRing s r 2) 8 false then wrRing s r 2 new else ignored)
  else if w = 2 then
    if bitOf new 8 && !enableOk s p r (bitsOf new 7 4) then ignored
    else if bitsOf new 7 4 = ringKind s r then wrRing s r 2 new
    else wrRing (wrRing s r 2 new) r 3 (kindReset (bitsOf new 7 4))
  else wrRing s r w new

/-- Is an offset of a partition window in a mirror (20 Table 20-1). -/
def inMirror (o : Nat) : Bool :=
  decide (0x1000 ≤ o ∧ o < 0x1700) || decide (0x2000 ≤ o ∧ o < 0x2100) || decide (0x4000 ≤ o ∧ o < 0x5000)

/-- A whole-word write of a partition's window by its host (20 R405-R409). -/
def partWrite (s : State) (p o v : Nat) : State :=
  if inMirror o then hostViolate s p 7 (o / 4)
  else if o = 4 then wrPart s p o (v % 2 ^ 17)
  else if o = 8 then wrPart s p o (v % 4096)
  else if o = 0xC then wrPart s p o (v % 2 ^ 24)
  else if o = 0x10 ∨ o = 0x18 then wrPart s p o (v / 64 * 64)
  else if o = 0x14 ∨ o = 0x1C then wrPart s p o v
  else if 0x20 ≤ o ∧ o < 0x38 then ringCfgWrite s p ((o - 0x20) / 4) v
  else if o = 0x40 then (if bitOf v 0 then tblGo s p else s)
  else if 0x80 ≤ o ∧ o < 0xC0 then wrPart s p o v
  else if o = 0x100 then wrPart s p o (v % 256)
  else if o = 0x104 then
    let s := if bitOf v 0 then gaitSnapSel s p else s
    if bitOf v 1 then gaitPsnap s p else s
  else if 0x110 ≤ o ∧ o < 0x11C then gaitCfgWrite s p (gaitSel s p) ((o - 0x110) / 4) v
  else if 0x200 ≤ o ∧ o < 0x32C then (if monOwner s (gaitSel s p) = some p then s else hostViolate s p 6 (gaitSel s p))
  else s

/-- A write of an MSI-X table word (14 Table 14-2): unmasking sends a pending message. PRESUMED, log entry 82. -/
def msixWrite (s : State) (p k w v : Nat) : State :=
  let i := p * 512 + k
  let e : MsixEnt := mget {} s.gpl.msix i
  let put := fun (s : State) (e : MsixEnt) => { s with gpl := { s.gpl with msix := mset {} s.gpl.msix i e } }
  match w with
  | 0 => put s { e with addr := e.addr / 2 ^ 32 * 2 ^ 32 + v / 4 * 4 }
  | 1 => put s { e with addr := e.addr % 2 ^ 32 + v * 2 ^ 32 }
  | 2 => put s { e with data := BitVec.ofNat 32 v }
  | _ =>
    let s := put s { e with masked := bitOf v 0, pend := e.pend && bitOf v 0 }
    if e.pend && !bitOf v 0 then msixSend s p k else s

/-- A write of BAR2: the nudge register and the MSI-X table (14 Table 14-2). -/
def bar2Write (s : State) (p o v : Nat) : State :=
  if o = 0 then gplNudge s p []
  else if 0x1000 ≤ o ∧ o < 0x3000 then msixWrite s p ((o - 0x1000) / 16) ((o - 0x1000) / 4 % 4) v
  else s

/-- The class code each function reports: processor, co-processor (14 R297). -/
def classCode : Nat := 0x0B4000

/-- A write of Device Control (`o` 0: Max Payload Size up to 512 octets, and Max Read Request Size) or of Device Control 2
(`o` 4: the completion timeout value) of a function (14 R297, Table 14-13). PRESUMED, log entry 114. -/
def configWrite (s : State) (p o v : Nat) : State :=
  let x := mget {} s.gpl.fns p
  let put := fun (x : PcieFn) => { s with gpl := { s.gpl with fns := mset {} s.gpl.fns p x } }
  if o = 0 then put { x with
    mps := if bitsOf v 7 5 ≤ 2 then BitVec.ofNat 3 (bitsOf v 7 5) else x.mps, mrrs := BitVec.ofNat 3 (bitsOf v 14 12) }
  else if o = 4 then put { x with timeout := BitVec.ofNat 4 v }
  else s

/-- A write of a word by a host (20 R402, R403, R407): a write that does not cover the word is ignored and counted; one
that reaches a partition in reset has no effect, and a partition's access past its own window, to the registers of the
device window, is a violation (01 R17; 02 R40, 03 R64). -/
def regWrite (s : State) (path : RegPath) (o ben v : Nat) : State :=
  match path with
  | .part p =>
    let p := p.toNat
    if inReset s p || !hasHost s p then s
    else if 0x10000 ≤ o then (if isSup s p then s else hostViolate s p 6 (o / 4))
    else if ben ≠ 15 then hostViolate s p 7 (o / 4)
    else partWrite s p (o / 4 * 4) v
  | .bar2 p =>
    let p := p.toNat
    if inReset s p || !hasHost s p || ben ≠ 15 then s else bar2Write s p (o / 4 * 4) v
  | .config p =>
    let p := p.toNat
    if inReset s p || !hasHost s p then s else configWrite s p (o / 4 * 4) v
  | .device =>
    if !supReach s then (if isSup s 0 || inReset s 0 || !hasHost s 0 then s else hostViolate s 0 6 (o / 4))
    else if ben ≠ 15 then setupIgnored s (hostAgent 0) o
    else devRegWrite s (hostAgent 0) (o / 4 * 4) v

/-- A word written by the supervisor through the device window. -/
def supWrite (s : State) (o v : Nat) : State := if supReach s then devRegWrite s (hostAgent 0) o v else s

/-! ### Rows -/

/-- REGISTER_WRITE. -/
def execRegisterWrite (path : RegPath) (offset : BitVec 20) (ben : BitVec 4) (value : BitVec 32) (s : State) :
    Host.Outcome State Fault Refusal := .next (regWrite s path offset.toNat ben.toNat value.toNat)

/-- FORCE: HKC_BOLT.FORCE, or HKC_PBOLT.FORCE of a partition. -/
def execForceBolt (part : Option (BitVec 3)) (s : State) : Host.Outcome State Fault Refusal :=
  .next (match part with
    | none => supWrite s 0 0x200
    | some p => supWrite s (0x20 + 4 * p.toNat) (rdDev s (0x20 + 4 * p.toNat) + 0x400))

/-- CLEAR: HKC_PBOLT.CLEAR. -/
def execClearBolt (part : BitVec 3) (s : State) : Host.Outcome State Fault Refusal :=
  .next (supWrite s (0x20 + 4 * part.toNat) (rdDev s (0x20 + 4 * part.toNat) + 0x800))

/-- SWAP: PAR_CTL.SWAP. -/
def execParSwap (s : State) : Host.Outcome State Fault Refusal := .next (supWrite s 0x30000 1)

/-- HOBBLE_ARM: a write of HOB_CFG. -/
def execHobbleArm (unit_ : BitVec 8) (value : BitVec 32) (s : State) : Host.Outcome State Fault Refusal :=
  .next (supWrite s (0x20000 + 0x80 * unit_.toNat) value.toNat)

/-- QUAD_RECONFIGURE: a write of PRT_QCFG. -/
def execQuadReconfigure (quad : BitVec 5) (value : BitVec 32) (s : State) : Host.Outcome State Fault Refusal :=
  .next (supWrite s (0x10000 + 4 * quad.toNat) value.toNat)

/-- RING_KIND_CHANGE: a write of GPL_RCFG W2 of the selected ring. -/
def execRingKindChange (part : BitVec 3) (value : BitVec 32) (s : State) : Host.Outcome State Fault Refusal :=
  .next (regWrite s (.part part) 0x28 15 value.toNat)

/-- JOURNAL_ENABLE: a write of JNL_CFG. -/
def execJournalEnable (value : BitVec 32) (s : State) : Host.Outcome State Fault Refusal :=
  .next (supWrite s 0xC0000 value.toNat)

/-- CLK_TSET_WRITE: a write of CLK_TSET W1. -/
def execClkTsetWrite (value : BitVec 32) (s : State) : Host.Outcome State Fault Refusal :=
  .next (supWrite s 0x94 value.toNat)

/-- CLK_TADJ_WRITE. -/
def execClkTadjWrite (value : BitVec 32) (s : State) : Host.Outcome State Fault Refusal :=
  .next (supWrite s 0x88 value.toNat)

/-- CLUSTER_CLOCK_CHANGE: a write of CLK_CLUS. -/
def execClusterClockChange (cluster : BitVec 4) (value : BitVec 32) (s : State) : Host.Outcome State Fault Refusal :=
  .next (supWrite s (0xC0 + 4 * cluster.toNat) value.toNat)

/-- FIRMWARE_UPDATE: a write of HKC_UPD W3 with KIND 0. -/
def execFirmwareUpdate (value : BitVec 32) (s : State) : Host.Outcome State Fault Refusal :=
  .next (supWrite s 0x1C (setBit value.toNat 1 false))

/-- CONFIGURATION_SAVE: a write of HKC_UPD W3 with KIND 1. -/
def execConfigurationSave (value : BitVec 32) (s : State) : Host.Outcome State Fault Refusal :=
  .next (supWrite s 0x1C (setBit value.toNat 1 true))

/-- FLASH_WRITE_END. -/
def execFlashWriteEnd (ok : Bool) (s : State) : Host.Outcome State Fault Refusal := .next (flashEnd s ok)

/-- SMBUS_BINDING_WRITE. -/
def execSmbusBindingWrite (cmd : BitVec 8) (data : List Octet) (s : State) : Host.Outcome State Fault Refusal :=
  .next (smbBinding s cmd.toNat data)

/-- DBGACC (17 R370, R371): the DBG and GAIT_ASSIGN registers with the rights of the supervisor, as agent 0x8008; under the
audit lock refused unless unlocked. -/
def dbgacc (s : State) (write : Bool) (o v : Nat) : State :=
  if !s.hkc.booted then s
  else if !dbgaccReach o then (if write then s else { s with dbg := { s.dbg with jtagOut := 0 } })
  else if debugLocked s then debugRefused (if write then s else { s with dbg := { s.dbg with jtagOut := 0 } }) jtagAgent o
  else if write then devRegWrite s jtagAgent o v
  else
    let (x, s) := regRead s 8 jtagAgent o
    { s with dbg := { s.dbg with jtagOut := BitVec.ofNat 32 x } }

/-- DBGACC. -/
def execDbgacc (write : Bool) (offset : BitVec 20) (value : BitVec 32) (s : State) : Host.Outcome State Fault Refusal :=
  .next (dbgacc s write offset.toNat value.toNat)

end Sys2Proof.Machine
end

