-- ==== Sys2Proof/Machine/SylExec.lean ====
section
/-! DEFINITION. The meanings of the syllable rows: a thread issues a bundle of the one syllable at its PC (09 R180,
R183). -/

namespace Sys2Proof.Machine

/-- NOP (R184): issued alone in a bundle. -/
def execNop (t : Thr) (g : Gd) (s : State) :
    Host.Outcome State Fault Refusal :=
  .next (issueOne s t (sylNop 0 g))

/-- ADD (R187): issued alone in a bundle. -/
def execAdd (t : Thr) (g : Gd) (rd ra rb : BitVec 5) (md : BitVec 8) (s : State) :
    Host.Outcome State Fault Refusal :=
  .next (issueOne s t (sylAdd t 0 g rd ra rb md))

/-- SUB (R187): issued alone in a bundle. -/
def execSub (t : Thr) (g : Gd) (rd ra rb : BitVec 5) (md : BitVec 8) (s : State) :
    Host.Outcome State Fault Refusal :=
  .next (issueOne s t (sylSub t 0 g rd ra rb md))

/-- AND (R187): issued alone in a bundle. -/
def execAnd_ (t : Thr) (g : Gd) (rd ra rb : BitVec 5) (md : BitVec 8) (s : State) :
    Host.Outcome State Fault Refusal :=
  .next (issueOne s t (sylAnd t 0 g rd ra rb md))

/-- OR (R187): issued alone in a bundle. -/
def execOr_ (t : Thr) (g : Gd) (rd ra rb : BitVec 5) (md : BitVec 8) (s : State) :
    Host.Outcome State Fault Refusal :=
  .next (issueOne s t (sylOr t 0 g rd ra rb md))

/-- XOR (R187): issued alone in a bundle. -/
def execXor_ (t : Thr) (g : Gd) (rd ra rb : BitVec 5) (md : BitVec 8) (s : State) :
    Host.Outcome State Fault Refusal :=
  .next (issueOne s t (sylXor t 0 g rd ra rb md))

/-- ANDN (R187): issued alone in a bundle. -/
def execAndn (t : Thr) (g : Gd) (rd ra rb : BitVec 5) (md : BitVec 8) (s : State) :
    Host.Outcome State Fault Refusal :=
  .next (issueOne s t (sylAndn t 0 g rd ra rb md))

/-- SHL (R187): issued alone in a bundle. -/
def execShl (t : Thr) (g : Gd) (rd ra rb : BitVec 5) (md : BitVec 8) (s : State) :
    Host.Outcome State Fault Refusal :=
  .next (issueOne s t (sylShl t 0 g rd ra rb md))

/-- SHR (R187): issued alone in a bundle. -/
def execShr (t : Thr) (g : Gd) (rd ra rb : BitVec 5) (md : BitVec 8) (s : State) :
    Host.Outcome State Fault Refusal :=
  .next (issueOne s t (sylShr t 0 g rd ra rb md))

/-- SAR (R187): issued alone in a bundle. -/
def execSar (t : Thr) (g : Gd) (rd ra rb : BitVec 5) (md : BitVec 8) (s : State) :
    Host.Outcome State Fault Refusal :=
  .next (issueOne s t (sylSar t 0 g rd ra rb md))

/-- ROL (R187): issued alone in a bundle. -/
def execRol (t : Thr) (g : Gd) (rd ra rb : BitVec 5) (md : BitVec 8) (s : State) :
    Host.Outcome State Fault Refusal :=
  .next (issueOne s t (sylRol t 0 g rd ra rb md))

/-- SEL (R189): issued alone in a bundle. -/
def execSel (t : Thr) (g : Gd) (rd ra rb : BitVec 5) (md : BitVec 8) (s : State) :
    Host.Outcome State Fault Refusal :=
  .next (issueOne s t (sylSel t 0 g rd ra rb md))

/-- CMP (R186): issued alone in a bundle. -/
def execCmp (t : Thr) (g : Gd) (rd ra rb : BitVec 5) (md : BitVec 8) (s : State) :
    Host.Outcome State Fault Refusal :=
  .next (issueOne s t (sylCmp t 0 g rd ra rb md))

/-- PLOG (R189): issued alone in a bundle. -/
def execPlog (t : Thr) (g : Gd) (rd ra rb : BitVec 5) (md : BitVec 8) (s : State) :
    Host.Outcome State Fault Refusal :=
  .next (issueOne s t (sylPlog t 0 g rd ra rb md))

/-- PRD (R189): issued alone in a bundle. -/
def execPrd (t : Thr) (g : Gd) (rd ra rb : BitVec 5) (md : BitVec 8) (s : State) :
    Host.Outcome State Fault Refusal :=
  .next (issueOne s t (sylPrd t 0 g rd ra rb md))

/-- PWR (R189): issued alone in a bundle. -/
def execPwr (t : Thr) (g : Gd) (rd ra rb : BitVec 5) (md : BitVec 8) (s : State) :
    Host.Outcome State Fault Refusal :=
  .next (issueOne s t (sylPwr t 0 g rd ra rb md))

/-- PAR (R189): issued alone in a bundle. -/
def execPar (t : Thr) (g : Gd) (rd ra rb : BitVec 5) (md : BitVec 8) (s : State) :
    Host.Outcome State Fault Refusal :=
  .next (issueOne s t (sylPar t 0 g rd ra rb md))

/-- BREV (R189): issued alone in a bundle. -/
def execBrev (t : Thr) (g : Gd) (rd ra rb : BitVec 5) (md : BitVec 8) (s : State) :
    Host.Outcome State Fault Refusal :=
  .next (issueOne s t (sylBrev t 0 g rd ra rb md))

/-- OREV (R189): issued alone in a bundle. -/
def execOrev (t : Thr) (g : Gd) (rd ra rb : BitVec 5) (md : BitVec 8) (s : State) :
    Host.Outcome State Fault Refusal :=
  .next (issueOne s t (sylOrev t 0 g rd ra rb md))

/-- BCNT (R189): issued alone in a bundle. -/
def execBcnt (t : Thr) (g : Gd) (rd ra rb : BitVec 5) (md : BitVec 8) (s : State) :
    Host.Outcome State Fault Refusal :=
  .next (issueOne s t (sylBcnt t 0 g rd ra rb md))

/-- ADDI (R189): issued alone in a bundle. -/
def execAddi (t : Thr) (g : Gd) (rd ra : BitVec 5) (imm : BitVec 13) (s : State) :
    Host.Outcome State Fault Refusal :=
  .next (issueOne s t (sylAddi t 0 g rd ra imm))

/-- ANDI (R189): issued alone in a bundle. -/
def execAndi (t : Thr) (g : Gd) (rd ra : BitVec 5) (imm : BitVec 13) (s : State) :
    Host.Outcome State Fault Refusal :=
  .next (issueOne s t (sylAndi t 0 g rd ra imm))

/-- ORI (R189): issued alone in a bundle. -/
def execOri (t : Thr) (g : Gd) (rd ra : BitVec 5) (imm : BitVec 13) (s : State) :
    Host.Outcome State Fault Refusal :=
  .next (issueOne s t (sylOri t 0 g rd ra imm))

/-- XORI (R189): issued alone in a bundle. -/
def execXori (t : Thr) (g : Gd) (rd ra : BitVec 5) (imm : BitVec 13) (s : State) :
    Host.Outcome State Fault Refusal :=
  .next (issueOne s t (sylXori t 0 g rd ra imm))

/-- SHLI (R189): issued alone in a bundle. -/
def execShli (t : Thr) (g : Gd) (rd ra : BitVec 5) (imm : BitVec 13) (s : State) :
    Host.Outcome State Fault Refusal :=
  .next (issueOne s t (sylShli t 0 g rd ra imm))

/-- SHRI (R189): issued alone in a bundle. -/
def execShri (t : Thr) (g : Gd) (rd ra : BitVec 5) (imm : BitVec 13) (s : State) :
    Host.Outcome State Fault Refusal :=
  .next (issueOne s t (sylShri t 0 g rd ra imm))

/-- SARI (R189): issued alone in a bundle. -/
def execSari (t : Thr) (g : Gd) (rd ra : BitVec 5) (imm : BitVec 13) (s : State) :
    Host.Outcome State Fault Refusal :=
  .next (issueOne s t (sylSari t 0 g rd ra imm))

/-- ROLI (R189): issued alone in a bundle. -/
def execRoli (t : Thr) (g : Gd) (rd ra : BitVec 5) (imm : BitVec 13) (s : State) :
    Host.Outcome State Fault Refusal :=
  .next (issueOne s t (sylRoli t 0 g rd ra imm))

/-- EXTI (R189): issued alone in a bundle. -/
def execExti (t : Thr) (g : Gd) (rd ra : BitVec 5) (imm : BitVec 13) (s : State) :
    Host.Outcome State Fault Refusal :=
  .next (issueOne s t (sylExti t 0 g rd ra imm))

/-- DEPI (R189): issued alone in a bundle. -/
def execDepi (t : Thr) (g : Gd) (rd ra : BitVec 5) (imm : BitVec 13) (s : State) :
    Host.Outcome State Fault Refusal :=
  .next (issueOne s t (sylDepi t 0 g rd ra imm))

/-- CMPEQI (R189): issued alone in a bundle. -/
def execCmpeqi (t : Thr) (g : Gd) (rd ra : BitVec 5) (imm : BitVec 13) (s : State) :
    Host.Outcome State Fault Refusal :=
  .next (issueOne s t (sylCmpeqi t 0 g rd ra imm))

/-- CMPNEI (R189): issued alone in a bundle. -/
def execCmpnei (t : Thr) (g : Gd) (rd ra : BitVec 5) (imm : BitVec 13) (s : State) :
    Host.Outcome State Fault Refusal :=
  .next (issueOne s t (sylCmpnei t 0 g rd ra imm))

/-- CMPLTI (R189): issued alone in a bundle. -/
def execCmplti (t : Thr) (g : Gd) (rd ra : BitVec 5) (imm : BitVec 13) (s : State) :
    Host.Outcome State Fault Refusal :=
  .next (issueOne s t (sylCmplti t 0 g rd ra imm))

/-- CMPLTUI (R189): issued alone in a bundle. -/
def execCmpltui (t : Thr) (g : Gd) (rd ra : BitVec 5) (imm : BitVec 13) (s : State) :
    Host.Outcome State Fault Refusal :=
  .next (issueOne s t (sylCmpltui t 0 g rd ra imm))

/-- LIL (R189): issued alone in a bundle. -/
def execLil (t : Thr) (g : Gd) (rd : BitVec 5) (imm : BitVec 18) (s : State) :
    Host.Outcome State Fault Refusal :=
  .next (issueOne s t (sylLil t 0 g rd imm))

/-- LIH (R189): issued alone in a bundle. -/
def execLih (t : Thr) (g : Gd) (rd : BitVec 5) (imm : BitVec 18) (s : State) :
    Host.Outcome State Fault Refusal :=
  .next (issueOne s t (sylLih t 0 g rd imm))

/-- DADD (R190): issued alone in a bundle. -/
def execDadd (t : Thr) (g : Gd) (rd ra rb : BitVec 5) (md : BitVec 8) (s : State) :
    Host.Outcome State Fault Refusal :=
  .next (issueOne s t (sylDadd t 1 g rd ra rb md))

/-- DSUB (R190): issued alone in a bundle. -/
def execDsub (t : Thr) (g : Gd) (rd ra rb : BitVec 5) (md : BitVec 8) (s : State) :
    Host.Outcome State Fault Refusal :=
  .next (issueOne s t (sylDsub t 1 g rd ra rb md))

/-- DCMP (R190): issued alone in a bundle. -/
def execDcmp (t : Thr) (g : Gd) (rd ra rb : BitVec 5) (md : BitVec 8) (s : State) :
    Host.Outcome State Fault Refusal :=
  .next (issueOne s t (sylDcmp t 1 g rd ra rb md))

/-- DCHK (R189): issued alone in a bundle. -/
def execDchk (t : Thr) (g : Gd) (rd ra rb : BitVec 5) (md : BitVec 8) (s : State) :
    Host.Outcome State Fault Refusal :=
  .next (issueOne s t (sylDchk t 1 g rd ra rb md))

/-- CVBD (R189): issued alone in a bundle. -/
def execCvbd (t : Thr) (g : Gd) (rd ra rb : BitVec 5) (md : BitVec 8) (s : State) :
    Host.Outcome State Fault Refusal :=
  .next (issueOne s t (sylCvbd t 1 g rd ra rb md))

/-- CVDB (R190): issued alone in a bundle. -/
def execCvdb (t : Thr) (g : Gd) (rd ra rb : BitVec 5) (md : BitVec 8) (s : State) :
    Host.Outcome State Fault Refusal :=
  .next (issueOne s t (sylCvdb t 1 g rd ra rb md))

/-- LUHN (R191): issued alone in a bundle. -/
def execLuhn (t : Thr) (g : Gd) (rd ra rb : BitVec 5) (md : BitVec 8) (s : State) :
    Host.Outcome State Fault Refusal :=
  .next (issueOne s t (sylLuhn t 1 g rd ra rb md))

/-- LD (R192): issued alone in a bundle. -/
def execLd (t : Thr) (g : Gd) (rd ra : BitVec 5) (imm : BitVec 13) (s : State) :
    Host.Outcome State Fault Refusal :=
  .next (issueOne s t (sylLd t g rd ra imm))

/-- ST (R192): issued alone in a bundle. -/
def execSt (t : Thr) (g : Gd) (rd ra : BitVec 5) (imm : BitVec 13) (s : State) :
    Host.Outcome State Fault Refusal :=
  .next (issueOne s t (sylSt t g rd ra imm))

/-- LDO1 (R192): issued alone in a bundle. -/
def execLdo1 (t : Thr) (g : Gd) (rd ra : BitVec 5) (imm : BitVec 13) (s : State) :
    Host.Outcome State Fault Refusal :=
  .next (issueOne s t (sylLdo t g rd ra imm 1))

/-- LDO2 (R192): issued alone in a bundle. -/
def execLdo2 (t : Thr) (g : Gd) (rd ra : BitVec 5) (imm : BitVec 13) (s : State) :
    Host.Outcome State Fault Refusal :=
  .next (issueOne s t (sylLdo t g rd ra imm 2))

/-- LDO4 (R192): issued alone in a bundle. -/
def execLdo4 (t : Thr) (g : Gd) (rd ra : BitVec 5) (imm : BitVec 13) (s : State) :
    Host.Outcome State Fault Refusal :=
  .next (issueOne s t (sylLdo t g rd ra imm 4))

/-- STO1 (R192): issued alone in a bundle. -/
def execSto1 (t : Thr) (g : Gd) (rd ra : BitVec 5) (imm : BitVec 13) (s : State) :
    Host.Outcome State Fault Refusal :=
  .next (issueOne s t (sylSto t g rd ra imm 1))

/-- STO2 (R192): issued alone in a bundle. -/
def execSto2 (t : Thr) (g : Gd) (rd ra : BitVec 5) (imm : BitVec 13) (s : State) :
    Host.Outcome State Fault Refusal :=
  .next (issueOne s t (sylSto t g rd ra imm 2))

/-- STO4 (R192): issued alone in a bundle. -/
def execSto4 (t : Thr) (g : Gd) (rd ra : BitVec 5) (imm : BitVec 13) (s : State) :
    Host.Outcome State Fault Refusal :=
  .next (issueOne s t (sylSto t g rd ra imm 4))

/-- LDD (R193): issued alone in a bundle. -/
def execLdd (t : Thr) (g : Gd) (rd ra : BitVec 5) (imm : BitVec 13) (s : State) :
    Host.Outcome State Fault Refusal :=
  .next (issueOne s t (sylLdd t g rd ra imm))

/-- FLD (R171): issued alone in a bundle. -/
def execFld (t : Thr) (g : Gd) (rd ra rb : BitVec 5) (md : BitVec 8) (s : State) :
    Host.Outcome State Fault Refusal :=
  .next (issueOne s t (sylFld t g rd ra rb md))

/-- FST (R171): issued alone in a bundle. -/
def execFst (t : Thr) (g : Gd) (rd ra rb : BitVec 5) (md : BitVec 8) (s : State) :
    Host.Outcome State Fault Refusal :=
  .next (issueOne s t (sylFst t g rd ra rb md))

/-- FMOV (R171): issued alone in a bundle. -/
def execFmov (t : Thr) (g : Gd) (rd ra rb : BitVec 5) (md : BitVec 8) (s : State) :
    Host.Outcome State Fault Refusal :=
  .next (issueOne s t (sylFmov t g rd ra rb md))

/-- LOCKW (R238): issued alone in a bundle. -/
def execLockw (t : Thr) (g : Gd) (rd ra rb : BitVec 5) (md : BitVec 8) (s : State) :
    Host.Outcome State Fault Refusal :=
  .next (issueOne s t (sylLockw t g rd ra rb md))

/-- UNLOCKW (R238): issued alone in a bundle. -/
def execUnlockw (t : Thr) (g : Gd) (rd ra rb : BitVec 5) (md : BitVec 8) (s : State) :
    Host.Outcome State Fault Refusal :=
  .next (issueOne s t (sylUnlockw t g rd ra rb md))

/-- XLAT (R194): issued alone in a bundle. -/
def execXlat (t : Thr) (g : Gd) (rd ra rb : BitVec 5) (md : BitVec 8) (s : State) :
    Host.Outcome State Fault Refusal :=
  .next (issueOne s t (sylXlat t g rd ra rb md))

/-- BMWALK (R195): issued alone in a bundle. -/
def execBmwalk (t : Thr) (g : Gd) (rd ra rb : BitVec 5) (md : BitVec 8) (s : State) :
    Host.Outcome State Fault Refusal :=
  .next (issueOne s t (sylBmwalk t g rd ra rb md))

/-- TLVNEXT (R196): issued alone in a bundle. -/
def execTlvnext (t : Thr) (g : Gd) (rd ra rb : BitVec 5) (md : BitVec 8) (s : State) :
    Host.Outcome State Fault Refusal :=
  .next (issueOne s t (sylTlvnext t g rd ra rb md))

/-- DONE (R138): issued alone in a bundle. -/
def execDoneTicket (t : Thr) (g : Gd) (rd ra rb : BitVec 5) (md : BitVec 8) (s : State) :
    Host.Outcome State Fault Refusal :=
  .next (issueOne s t (sylDone false t g rd ra rb md))

/-- HOST (R138): issued alone in a bundle. -/
def execHostDone (t : Thr) (g : Gd) (rd ra rb : BitVec 5) (md : BitVec 8) (s : State) :
    Host.Outcome State Fault Refusal :=
  .next (issueOne s t (sylDone true t g rd ra rb md))

/-- DROP (R137): issued alone in a bundle. -/
def execDropTicket (t : Thr) (g : Gd) (rd ra rb : BitVec 5) (md : BitVec 8) (s : State) :
    Host.Outcome State Fault Refusal :=
  .next (issueOne s t (sylDrop t g rd ra rb md))

/-- MOVE (R140): issued alone in a bundle. -/
def execMoveTicket (t : Thr) (g : Gd) (rd ra rb : BitVec 5) (md : BitVec 8) (s : State) :
    Host.Outcome State Fault Refusal :=
  .next (issueOne s t (sylMove t g rd ra rb md))

/-- SPLIT (R143): issued alone in a bundle. -/
def execSplitTicket (t : Thr) (g : Gd) (rd ra rb : BitVec 5) (md : BitVec 8) (s : State) :
    Host.Outcome State Fault Refusal :=
  .next (issueOne s t (sylSplit t g rd ra rb md))

/-- DEFER (R152): issued alone in a bundle. -/
def execDeferTask (t : Thr) (g : Gd) (rd ra rb : BitVec 5) (md : BitVec 8) (s : State) :
    Host.Outcome State Fault Refusal :=
  .next (issueOne s t (sylDefer t g rd ra rb md))

/-- POST (R197): issued alone in a bundle. -/
def execPostTask (t : Thr) (g : Gd) (rd ra rb : BitVec 5) (md : BitVec 8) (s : State) :
    Host.Outcome State Fault Refusal :=
  .next (issueOne s t (sylPost t g rd ra rb md))

/-- GETWORK (R142): issued alone in a bundle. -/
def execGetwork (t : Thr) (g : Gd) (rd ra rb : BitVec 5) (md : BitVec 8) (s : State) :
    Host.Outcome State Fault Refusal :=
  .next (issueOne s t (sylGetwork t g rd ra rb md))

/-- TIMER (R152): issued alone in a bundle. -/
def execTimerArm (t : Thr) (g : Gd) (rd ra rb : BitVec 5) (md : BitVec 8) (s : State) :
    Host.Outcome State Fault Refusal :=
  .next (issueOne s t (sylTimer t g rd ra rb md))

/-- LOCK (R228): issued alone in a bundle. -/
def execLockReq (t : Thr) (g : Gd) (rd ra rb : BitVec 5) (md : BitVec 8) (s : State) :
    Host.Outcome State Fault Refusal :=
  .next (issueOne s t (sylLock t g rd ra rb md))

/-- UNLOCK (R230): issued alone in a bundle. -/
def execUnlockReq (t : Thr) (g : Gd) (rd ra rb : BitVec 5) (md : BitVec 8) (s : State) :
    Host.Outcome State Fault Refusal :=
  .next (issueOne s t (sylUnlock t g rd ra rb md))

/-- CHOPEN (R239): issued alone in a bundle. -/
def execChopen (t : Thr) (g : Gd) (rd ra rb : BitVec 5) (md : BitVec 8) (s : State) :
    Host.Outcome State Fault Refusal :=
  .next (issueOne s t (sylChopen t g rd ra rb md))

/-- CHW (R240): issued alone in a bundle. -/
def execChw (t : Thr) (g : Gd) (rd ra rb : BitVec 5) (md : BitVec 8) (s : State) :
    Host.Outcome State Fault Refusal :=
  .next (issueOne s t (sylChw t g rd ra rb md))

/-- CHPOST (R240): issued alone in a bundle. -/
def execChpost (t : Thr) (g : Gd) (rd ra rb : BitVec 5) (md : BitVec 8) (s : State) :
    Host.Outcome State Fault Refusal :=
  .next (issueOne s t (sylChpost t g rd ra rb md))

/-- CHRD (R241): issued alone in a bundle. -/
def execChrd (t : Thr) (g : Gd) (rd ra rb : BitVec 5) (md : BitVec 8) (s : State) :
    Host.Outcome State Fault Refusal :=
  .next (issueOne s t (sylChrd t g rd ra rb md))

/-- CHNEXT (R241): issued alone in a bundle. -/
def execChnext (t : Thr) (g : Gd) (rd ra rb : BitVec 5) (md : BitVec 8) (s : State) :
    Host.Outcome State Fault Refusal :=
  .next (issueOne s t (sylChnext t g rd ra rb md))

/-- SIGNAL (R245): issued alone in a bundle. -/
def execSignalEv (t : Thr) (g : Gd) (rd ra rb : BitVec 5) (md : BitVec 8) (s : State) :
    Host.Outcome State Fault Refusal :=
  .next (issueOne s t (sylSignal t g rd ra rb md))

/-- WAITEV (R198): issued alone in a bundle. -/
def execWaitev (t : Thr) (g : Gd) (rd ra rb : BitVec 5) (md : BitVec 8) (s : State) :
    Host.Outcome State Fault Refusal :=
  .next (issueOne s t (sylWaitev t g rd ra rb md))

/-- B (R180): issued alone in a bundle. -/
def execBranch (t : Thr) (g : Gd) (target : BitVec 16) (s : State) :
    Host.Outcome State Fault Refusal :=
  .next (issueOne s t (sylB t g target))

/-- BL (R180): issued alone in a bundle. -/
def execBl (t : Thr) (g : Gd) (target : BitVec 16) (s : State) :
    Host.Outcome State Fault Refusal :=
  .next (issueOne s t (sylBl t g target 1))

/-- BR (R180): issued alone in a bundle. -/
def execBr (t : Thr) (g : Gd) (rd ra rb : BitVec 5) (md : BitVec 8) (s : State) :
    Host.Outcome State Fault Refusal :=
  .next (issueOne s t (sylBr t g rd ra rb md))

/-- MUL (R200): issued alone in a bundle. -/
def execMul (t : Thr) (g : Gd) (rd ra rb : BitVec 5) (md : BitVec 8) (s : State) :
    Host.Outcome State Fault Refusal :=
  .next (issueOne s t (sylMul t g rd ra rb md))

/-- CRC (R201): issued alone in a bundle. -/
def execCrc (t : Thr) (g : Gd) (rd ra rb : BitVec 5) (md : BitVec 8) (s : State) :
    Host.Outcome State Fault Refusal :=
  .next (issueOne s t (sylCrc t g rd ra rb md))

/-- MFSR (R189): issued alone in a bundle. -/
def execMfsr (t : Thr) (g : Gd) (rd ra rb : BitVec 5) (md : BitVec 8) (s : State) :
    Host.Outcome State Fault Refusal :=
  .next (issueOne s t (sylMfsr t g rd ra rb md))

/-- MTSR (R189): issued alone in a bundle. -/
def execMtsr (t : Thr) (g : Gd) (rd ra rb : BitVec 5) (md : BitVec 8) (s : State) :
    Host.Outcome State Fault Refusal :=
  .next (issueOne s t (sylMtsr t g rd ra rb md))

/-- TIME (R189): issued alone in a bundle. -/
def execReadTime (t : Thr) (g : Gd) (rd ra rb : BitVec 5) (md : BitVec 8) (s : State) :
    Host.Outcome State Fault Refusal :=
  .next (issueOne s t (sylTime t g rd ra rb md))

/-- BMOVE (R203): issued alone in a bundle. -/
def execBmove (t : Thr) (g : Gd) (rd ra rb : BitVec 5) (md : BitVec 8) (s : State) :
    Host.Outcome State Fault Refusal :=
  .next (raisedDoubts (issueOne (noDoubts s) t (sylBmove t g rd ra rb md)))

/-- BFILL (R203): issued alone in a bundle. -/
def execBfill (t : Thr) (g : Gd) (rd ra rb : BitVec 5) (md : BitVec 8) (s : State) :
    Host.Outcome State Fault Refusal :=
  .next (raisedDoubts (issueOne (noDoubts s) t (sylBfill t g rd ra rb md)))

/-- CRCB (R203): issued alone in a bundle. -/
def execCrcb (t : Thr) (g : Gd) (rd ra rb : BitVec 5) (md : BitVec 8) (s : State) :
    Host.Outcome State Fault Refusal :=
  .next (raisedDoubts (issueOne (noDoubts s) t (sylCrcb t g rd ra rb md)))

/-- XLATB (R203): issued alone in a bundle. -/
def execXlatb (t : Thr) (g : Gd) (rd ra rb : BitVec 5) (md : BitVec 8) (s : State) :
    Host.Outcome State Fault Refusal :=
  .next (raisedDoubts (issueOne (noDoubts s) t (sylXlatb t g rd ra rb md)))

/-- LUHNX (R203): issued alone in a bundle. -/
def execLuhnx (t : Thr) (g : Gd) (rd ra rb : BitVec 5) (md : BitVec 8) (s : State) :
    Host.Outcome State Fault Refusal :=
  .next (raisedDoubts (issueOne (noDoubts s) t (sylLuhnx t g rd ra rb md)))

end Sys2Proof.Machine
end

