-- ==== Sys2Proof/Machine/Dispatch.lean ====
section
/-! DEFINITION. The dispatch of a command to its meaning: one arm for each row of the table. -/

namespace Sys2Proof.Machine

/-- The effect of a command on everything but the queue. -/
def exec (i : Instr) (s : State) : Host.Outcome State Fault Refusal :=
  match i with
  | .nop t g => Sys2Proof.Machine.execNop t g s
  | .bundleIssue t => Sys2Proof.Machine.execBundleIssue t s
  | .add t g rd ra rb md => Sys2Proof.Machine.execAdd t g rd ra rb md s
  | .sub t g rd ra rb md => Sys2Proof.Machine.execSub t g rd ra rb md s
  | .and_ t g rd ra rb md => Sys2Proof.Machine.execAnd_ t g rd ra rb md s
  | .or_ t g rd ra rb md => Sys2Proof.Machine.execOr_ t g rd ra rb md s
  | .xor_ t g rd ra rb md => Sys2Proof.Machine.execXor_ t g rd ra rb md s
  | .andn t g rd ra rb md => Sys2Proof.Machine.execAndn t g rd ra rb md s
  | .shl t g rd ra rb md => Sys2Proof.Machine.execShl t g rd ra rb md s
  | .shr t g rd ra rb md => Sys2Proof.Machine.execShr t g rd ra rb md s
  | .sar t g rd ra rb md => Sys2Proof.Machine.execSar t g rd ra rb md s
  | .rol t g rd ra rb md => Sys2Proof.Machine.execRol t g rd ra rb md s
  | .sel t g rd ra rb md => Sys2Proof.Machine.execSel t g rd ra rb md s
  | .cmp t g rd ra rb md => Sys2Proof.Machine.execCmp t g rd ra rb md s
  | .plog t g rd ra rb md => Sys2Proof.Machine.execPlog t g rd ra rb md s
  | .prd t g rd ra rb md => Sys2Proof.Machine.execPrd t g rd ra rb md s
  | .pwr t g rd ra rb md => Sys2Proof.Machine.execPwr t g rd ra rb md s
  | .par t g rd ra rb md => Sys2Proof.Machine.execPar t g rd ra rb md s
  | .brev t g rd ra rb md => Sys2Proof.Machine.execBrev t g rd ra rb md s
  | .orev t g rd ra rb md => Sys2Proof.Machine.execOrev t g rd ra rb md s
  | .bcnt t g rd ra rb md => Sys2Proof.Machine.execBcnt t g rd ra rb md s
  | .addi t g rd ra imm => Sys2Proof.Machine.execAddi t g rd ra imm s
  | .andi t g rd ra imm => Sys2Proof.Machine.execAndi t g rd ra imm s
  | .ori t g rd ra imm => Sys2Proof.Machine.execOri t g rd ra imm s
  | .xori t g rd ra imm => Sys2Proof.Machine.execXori t g rd ra imm s
  | .shli t g rd ra imm => Sys2Proof.Machine.execShli t g rd ra imm s
  | .shri t g rd ra imm => Sys2Proof.Machine.execShri t g rd ra imm s
  | .sari t g rd ra imm => Sys2Proof.Machine.execSari t g rd ra imm s
  | .roli t g rd ra imm => Sys2Proof.Machine.execRoli t g rd ra imm s
  | .exti t g rd ra imm => Sys2Proof.Machine.execExti t g rd ra imm s
  | .depi t g rd ra imm => Sys2Proof.Machine.execDepi t g rd ra imm s
  | .cmpeqi t g rd ra imm => Sys2Proof.Machine.execCmpeqi t g rd ra imm s
  | .cmpnei t g rd ra imm => Sys2Proof.Machine.execCmpnei t g rd ra imm s
  | .cmplti t g rd ra imm => Sys2Proof.Machine.execCmplti t g rd ra imm s
  | .cmpltui t g rd ra imm => Sys2Proof.Machine.execCmpltui t g rd ra imm s
  | .lil t g rd imm => Sys2Proof.Machine.execLil t g rd imm s
  | .lih t g rd imm => Sys2Proof.Machine.execLih t g rd imm s
  | .dadd t g rd ra rb md => Sys2Proof.Machine.execDadd t g rd ra rb md s
  | .dsub t g rd ra rb md => Sys2Proof.Machine.execDsub t g rd ra rb md s
  | .dcmp t g rd ra rb md => Sys2Proof.Machine.execDcmp t g rd ra rb md s
  | .dchk t g rd ra rb md => Sys2Proof.Machine.execDchk t g rd ra rb md s
  | .cvbd t g rd ra rb md => Sys2Proof.Machine.execCvbd t g rd ra rb md s
  | .cvdb t g rd ra rb md => Sys2Proof.Machine.execCvdb t g rd ra rb md s
  | .luhn t g rd ra rb md => Sys2Proof.Machine.execLuhn t g rd ra rb md s
  | .ld t g rd ra imm => Sys2Proof.Machine.execLd t g rd ra imm s
  | .st t g rd ra imm => Sys2Proof.Machine.execSt t g rd ra imm s
  | .ldo1 t g rd ra imm => Sys2Proof.Machine.execLdo1 t g rd ra imm s
  | .ldo2 t g rd ra imm => Sys2Proof.Machine.execLdo2 t g rd ra imm s
  | .ldo4 t g rd ra imm => Sys2Proof.Machine.execLdo4 t g rd ra imm s
  | .sto1 t g rd ra imm => Sys2Proof.Machine.execSto1 t g rd ra imm s
  | .sto2 t g rd ra imm => Sys2Proof.Machine.execSto2 t g rd ra imm s
  | .sto4 t g rd ra imm => Sys2Proof.Machine.execSto4 t g rd ra imm s
  | .ldd t g rd ra imm => Sys2Proof.Machine.execLdd t g rd ra imm s
  | .fld t g rd ra rb md => Sys2Proof.Machine.execFld t g rd ra rb md s
  | .fst t g rd ra rb md => Sys2Proof.Machine.execFst t g rd ra rb md s
  | .fmov t g rd ra rb md => Sys2Proof.Machine.execFmov t g rd ra rb md s
  | .farAccessComplete ctx tag pcieError => Sys2Proof.Machine.execFarAccessComplete ctx tag pcieError s
  | .lockw t g rd ra rb md => Sys2Proof.Machine.execLockw t g rd ra rb md s
  | .unlockw t g rd ra rb md => Sys2Proof.Machine.execUnlockw t g rd ra rb md s
  | .xlat t g rd ra rb md => Sys2Proof.Machine.execXlat t g rd ra rb md s
  | .bmwalk t g rd ra rb md => Sys2Proof.Machine.execBmwalk t g rd ra rb md s
  | .tlvnext t g rd ra rb md => Sys2Proof.Machine.execTlvnext t g rd ra rb md s
  | .helperCompletion ctx tag => Sys2Proof.Machine.execHelperCompletion ctx tag s
  | .doneTicket t g rd ra rb md => Sys2Proof.Machine.execDoneTicket t g rd ra rb md s
  | .hostDone t g rd ra rb md => Sys2Proof.Machine.execHostDone t g rd ra rb md s
  | .dropTicket t g rd ra rb md => Sys2Proof.Machine.execDropTicket t g rd ra rb md s
  | .moveTicket t g rd ra rb md => Sys2Proof.Machine.execMoveTicket t g rd ra rb md s
  | .splitTicket t g rd ra rb md => Sys2Proof.Machine.execSplitTicket t g rd ra rb md s
  | .deferTask t g rd ra rb md => Sys2Proof.Machine.execDeferTask t g rd ra rb md s
  | .postTask t g rd ra rb md => Sys2Proof.Machine.execPostTask t g rd ra rb md s
  | .getwork t g rd ra rb md => Sys2Proof.Machine.execGetwork t g rd ra rb md s
  | .timerArm t g rd ra rb md => Sys2Proof.Machine.execTimerArm t g rd ra rb md s
  | .lockReq t g rd ra rb md => Sys2Proof.Machine.execLockReq t g rd ra rb md s
  | .unlockReq t g rd ra rb md => Sys2Proof.Machine.execUnlockReq t g rd ra rb md s
  | .chopen t g rd ra rb md => Sys2Proof.Machine.execChopen t g rd ra rb md s
  | .chw t g rd ra rb md => Sys2Proof.Machine.execChw t g rd ra rb md s
  | .chpost t g rd ra rb md => Sys2Proof.Machine.execChpost t g rd ra rb md s
  | .chrd t g rd ra rb md => Sys2Proof.Machine.execChrd t g rd ra rb md s
  | .chnext t g rd ra rb md => Sys2Proof.Machine.execChnext t g rd ra rb md s
  | .signalEv t g rd ra rb md => Sys2Proof.Machine.execSignalEv t g rd ra rb md s
  | .waitev t g rd ra rb md => Sys2Proof.Machine.execWaitev t g rd ra rb md s
  | .branch t g target => Sys2Proof.Machine.execBranch t g target s
  | .bl t g target => Sys2Proof.Machine.execBl t g target s
  | .br t g rd ra rb md => Sys2Proof.Machine.execBr t g rd ra rb md s
  | .mul t g rd ra rb md => Sys2Proof.Machine.execMul t g rd ra rb md s
  | .crc t g rd ra rb md => Sys2Proof.Machine.execCrc t g rd ra rb md s
  | .mfsr t g rd ra rb md => Sys2Proof.Machine.execMfsr t g rd ra rb md s
  | .mtsr t g rd ra rb md => Sys2Proof.Machine.execMtsr t g rd ra rb md s
  | .readTime t g rd ra rb md => Sys2Proof.Machine.execReadTime t g rd ra rb md s
  | .bmove t g rd ra rb md => Sys2Proof.Machine.execBmove t g rd ra rb md s
  | .bfill t g rd ra rb md => Sys2Proof.Machine.execBfill t g rd ra rb md s
  | .crcb t g rd ra rb md => Sys2Proof.Machine.execCrcb t g rd ra rb md s
  | .xlatb t g rd ra rb md => Sys2Proof.Machine.execXlatb t g rd ra rb md s
  | .luhnx t g rd ra rb md => Sys2Proof.Machine.execLuhnx t g rd ra rb md s
  | .asyncFault t => Sys2Proof.Machine.execAsyncFault t s
  | .nopCommand c => Sys2Proof.Machine.execNopCommand c s
  | .tblExec c addr => Sys2Proof.Machine.execTblExec c addr s
  | .insertEntry w blk => Sys2Proof.Machine.execInsertEntry w blk s
  | .updateEntry w blk => Sys2Proof.Machine.execUpdateEntry w blk s
  | .deleteEntry w blk => Sys2Proof.Machine.execDeleteEntry w blk s
  | .lookupEntry w blk => Sys2Proof.Machine.execLookupEntry w blk s
  | .insertOrUpdate w blk => Sys2Proof.Machine.execInsertOrUpdate w blk s
  | .deleteIfData w blk => Sys2Proof.Machine.execDeleteIfData w blk s
  | .dmaCopy c mode sel doff addr len => Sys2Proof.Machine.execDmaCopy c mode sel doff addr len s
  | .dmaChunk => Sys2Proof.Machine.execDmaChunk s
  | .absentTimeout c => Sys2Proof.Machine.execAbsentTimeout c s
  | .srcInsert c bank addr => Sys2Proof.Machine.execSrcInsert c bank addr s
  | .srcDelete c handle => Sys2Proof.Machine.execSrcDelete c handle s
  | .srcSetad w handle ad raddr => Sys2Proof.Machine.execSrcSetad w handle ad raddr s
  | .srcRead c handle addr => Sys2Proof.Machine.execSrcRead c handle addr s
  | .srcSearch w profile kaddr raddr => Sys2Proof.Machine.execSrcSearch w profile kaddr raddr s
  | .srcFlush c bank => Sys2Proof.Machine.execSrcFlush c bank s
  | .rebalance bank => Sys2Proof.Machine.execRebalance bank s
  | .searchScrub bank slot found => Sys2Proof.Machine.execSearchScrub bank slot found s
  | .bankSubstitution bank => Sys2Proof.Machine.execBankSubstitution bank s
  | .stfOpen c stix service flags d0 d1 => Sys2Proof.Machine.execStfOpen c stix service flags d0 d1 s
  | .stfResync c stix flags d0 d1 => Sys2Proof.Machine.execStfResync c stix flags d0 d1 s
  | .stfQuery c stix addr => Sys2Proof.Machine.execStfQuery c stix addr s
  | .stfClose c stix => Sys2Proof.Machine.execStfClose c stix s
  | .schPost c dom prio flags entry delay buf len arg => Sys2Proof.Machine.execSchPost c dom prio flags entry delay buf len arg s
  | .hltFdrop c ticket => Sys2Proof.Machine.execHltFdrop c ticket s
  | .hltQuery c dom addr => Sys2Proof.Machine.execHltQuery c dom addr s
  | .segWrite c part index desc => Sys2Proof.Machine.execSegWrite c part index desc s
  | .segPresent c part index p => Sys2Proof.Machine.execSegPresent c part index p s
  | .segRead c part index addr => Sys2Proof.Machine.execSegRead c part index addr s
  | .taskResume c fid => Sys2Proof.Machine.execTaskResume c fid s
  | .taskRetry c fid => Sys2Proof.Machine.execTaskRetry c fid s
  | .taskKill c fid => Sys2Proof.Machine.execTaskKill c fid s
  | .taskRecall c agent => Sys2Proof.Machine.execTaskRecall c agent s
  | .hspAcquire c lock prio flags timeout => Sys2Proof.Machine.execHspAcquire c lock prio flags timeout s
  | .acquireTimeout c => Sys2Proof.Machine.execAcquireTimeout c s
  | .hspRelease c lock flags => Sys2Proof.Machine.execHspRelease c lock flags s
  | .hspQuery c lock addr => Sys2Proof.Machine.execHspQuery c lock addr s
  | .lockWatchdog lock => Sys2Proof.Machine.execLockWatchdog lock s
  | .slotHoldExpiry channel slot => Sys2Proof.Machine.execSlotHoldExpiry channel slot s
  | .bufAlloc w pool prio flags => Sys2Proof.Machine.execBufAlloc w pool prio flags s
  | .bufShare w ptr => Sys2Proof.Machine.execBufShare w ptr s
  | .bufDrop w ptr => Sys2Proof.Machine.execBufDrop w ptr s
  | .bufGive w ptr agent => Sys2Proof.Machine.execBufGive w ptr agent s
  | .bufFree w ptr => Sys2Proof.Machine.execBufFree w ptr s
  | .bufReclaim c ptr => Sys2Proof.Machine.execBufReclaim c ptr s
  | .bufQuery c ptr addr => Sys2Proof.Machine.execBufQuery c ptr addr s
  | .keyLoad c slot flags len addr => Sys2Proof.Machine.execKeyLoad c slot flags len addr s
  | .keyDelete c slot => Sys2Proof.Machine.execKeyDelete c slot s
  | .keyQuery c slot addr => Sys2Proof.Machine.execKeyQuery c slot addr s
  | .keyKekset c part addr => Sys2Proof.Machine.execKeyKekset c part addr s
  | .jnlSeal c => Sys2Proof.Machine.execJnlSeal c s
  | .jnlCert c addr len => Sys2Proof.Machine.execJnlCert c addr len s
  | .prgWrite c cluster space woff count addr => Sys2Proof.Machine.execPrgWrite c cluster space woff count addr s
  | .prgRead c cluster space woff count addr => Sys2Proof.Machine.execPrgRead c cluster space woff count addr s
  | .mcsLoad c addr len => Sys2Proof.Machine.execMcsLoad c addr len s
  | .modRead c cage page off len addr answer => Sys2Proof.Machine.execModRead c cage page off len addr answer s
  | .modWrite c cage page off len addr answered => Sys2Proof.Machine.execModWrite c cage page off len addr answered s
  | .serviceNop c => Sys2Proof.Machine.execServiceNop c s
  | .farTest c res kind failStep => Sys2Proof.Machine.execFarTest c res kind failStep s
  | .farQuiesce c res q => Sys2Proof.Machine.execFarQuiesce c res q s
  | .farSwap c res => Sys2Proof.Machine.execFarSwap c res s
  | .farReport c addr => Sys2Proof.Machine.execFarReport c addr s
  | .auditSet c confirm => Sys2Proof.Machine.execAuditSet c confirm s
  | .dbgUnlock c addr => Sys2Proof.Machine.execDbgUnlock c addr s
  | .debugUnlockExpiry => Sys2Proof.Machine.execDebugUnlockExpiry s
  | .sha256 t tag blk opw => Sys2Proof.Machine.execSha256 t tag blk opw s
  | .hmacGen t tag blk opw => Sys2Proof.Machine.execHmacGen t tag blk opw s
  | .hmacVer t tag blk opw => Sys2Proof.Machine.execHmacVer t tag blk opw s
  | .cmacGen t tag blk opw => Sys2Proof.Machine.execCmacGen t tag blk opw s
  | .cmacVer t tag blk opw => Sys2Proof.Machine.execCmacVer t tag blk opw s
  | .gcmEnc t tag blk opw => Sys2Proof.Machine.execGcmEnc t tag blk opw s
  | .gcmDec t tag blk opw => Sys2Proof.Machine.execGcmDec t tag blk opw s
  | .tdesEnc t tag blk opw => Sys2Proof.Machine.execTdesEnc t tag blk opw s
  | .tdesDec t tag blk opw => Sys2Proof.Machine.execTdesDec t tag blk opw s
  | .mac3Gen t tag blk opw => Sys2Proof.Machine.execMac3Gen t tag blk opw s
  | .mac3Ver t tag blk opw => Sys2Proof.Machine.execMac3Ver t tag blk opw s
  | .kwrap t tag blk opw => Sys2Proof.Machine.execKwrap t tag blk opw s
  | .kunwrap t tag blk opw => Sys2Proof.Machine.execKunwrap t tag blk opw s
  | .ecdsaVer t tag blk opw => Sys2Proof.Machine.execEcdsaVer t tag blk opw s
  | .ecdsaSign t tag blk opw => Sys2Proof.Machine.execEcdsaSign t tag blk opw s
  | .ed25519Ver t tag blk opw => Sys2Proof.Machine.execEd25519Ver t tag blk opw s
  | .rsaVer t tag blk opw => Sys2Proof.Machine.execRsaVer t tag blk opw s
  | .rsaSign t tag blk opw => Sys2Proof.Machine.execRsaSign t tag blk opw s
  | .random t tag blk opw => Sys2Proof.Machine.execRandom t tag blk opw s
  | .engineRequestComplete pk checkFails => Sys2Proof.Machine.execEngineRequestComplete pk checkFails s
  | .rbgReseed => Sys2Proof.Machine.execRbgReseed s
  | .rbgHealthFailure => Sys2Proof.Machine.execRbgHealthFailure s
  | .rbgStartupPass => Sys2Proof.Machine.execRbgStartupPass s
  | .transmit c dev tsReq addr sel doff len eq eflags => Sys2Proof.Machine.execTransmit c dev tsReq addr sel doff len eq eflags s
  | .frameReceive port octets fcsOk => Sys2Proof.Machine.execFrameReceive port octets fcsOk s
  | .pauseRepeat port => Sys2Proof.Machine.execPauseRepeat port s
  | .pauseReceive port octets => Sys2Proof.Machine.execPauseReceive port octets s
  | .hobbleHoldTimeout unit_ => Sys2Proof.Machine.execHobbleHoldTimeout unit_ s
  | .linkUp port mode => Sys2Proof.Machine.execLinkUp port mode s
  | .linkDown port => Sys2Proof.Machine.execLinkDown port s
  | .modulePresenceChange cage present => Sys2Proof.Machine.execModulePresenceChange cage present s
  | .moduleInterrupt cage => Sys2Proof.Machine.execModuleInterrupt cage s
  | .parseFrame port found => Sys2Proof.Machine.execParseFrame port found s
  | .graphWalk lane found => Sys2Proof.Machine.execGraphWalk lane found s
  | .parseRecordRelease port => Sys2Proof.Machine.execParseRecordRelease port s
  | .slowBucketRefill => Sys2Proof.Machine.execSlowBucketRefill s
  | .segmentFraming => Sys2Proof.Machine.execSegmentFraming s
  | .classify => Sys2Proof.Machine.execClassify s
  | .learn => Sys2Proof.Machine.execLearn s
  | .learnAgeFlush ring => Sys2Proof.Machine.execLearnAgeFlush ring s
  | .sweeperVisit l2 bucket => Sys2Proof.Machine.execSweeperVisit l2 bucket s
  | .ticketIssue part => Sys2Proof.Machine.execTicketIssue part s
  | .dispatch part => Sys2Proof.Machine.execDispatch part s
  | .ticketRelease dom => Sys2Proof.Machine.execTicketRelease dom s
  | .latenessCheck dom => Sys2Proof.Machine.execLatenessCheck dom s
  | .deadlineKill ticket => Sys2Proof.Machine.execDeadlineKill ticket s
  | .delayEntryDue part => Sys2Proof.Machine.execDelayEntryDue part s
  | .timerExpiry t => Sys2Proof.Machine.execTimerExpiry t s
  | .preemption part => Sys2Proof.Machine.execPreemption part s
  | .partitionStall part => Sys2Proof.Machine.execPartitionStall part s
  | .egressProcess => Sys2Proof.Machine.execEgressProcess s
  | .frameTransmit port => Sys2Proof.Machine.execFrameTransmit port s
  | .transmitEnd port => Sys2Proof.Machine.execTransmitEnd port s
  | .egressTokenRefill => Sys2Proof.Machine.execEgressTokenRefill s
  | .hostDelivery ring => Sys2Proof.Machine.execHostDelivery ring s
  | .completionWrite ring => Sys2Proof.Machine.execCompletionWrite ring s
  | .statusBlockWrite ring => Sys2Proof.Machine.execStatusBlockWrite ring s
  | .msixMessage ring => Sys2Proof.Machine.execMsixMessage ring s
  | .gplNudge part written => Sys2Proof.Machine.execGplNudge part written s
  | .doorbellPoll part written => Sys2Proof.Machine.execDoorbellPoll part written s
  | .doorbellFetch part => Sys2Proof.Machine.execDoorbellFetch part s
  | .descriptorArrival ring => Sys2Proof.Machine.execDescriptorArrival ring s
  | .serviceEvent => Sys2Proof.Machine.execServiceEvent s
  | .journalRecordEntry => Sys2Proof.Machine.execJournalRecordEntry s
  | .sealTimer => Sys2Proof.Machine.execSealTimer s
  | .blockExport => Sys2Proof.Machine.execBlockExport s
  | .heartbeat => Sys2Proof.Machine.execHeartbeat s
  | .hbmRead addr found => Sys2Proof.Machine.execHbmRead addr found s
  | .refresh pch idle => Sys2Proof.Machine.execRefresh pch idle s
  | .temperatureReading deg => Sys2Proof.Machine.execTemperatureReading deg s
  | .caParityError ch addr retrainOk => Sys2Proof.Machine.execCaParityError ch addr retrainOk s
  | .retrainStep pch drift => Sys2Proof.Machine.execRetrainStep pch drift s
  | .fullRetrain ch badLanes => Sys2Proof.Machine.execFullRetrain ch badLanes s
  | .powerDownEntry ch => Sys2Proof.Machine.execPowerDownEntry ch s
  | .selfRefreshEntry => Sys2Proof.Machine.execSelfRefreshEntry s
  | .selfRefreshExit => Sys2Proof.Machine.execSelfRefreshExit s
  | .patrolScrub addr found => Sys2Proof.Machine.execPatrolScrub addr found s
  | .rankRetirement ch sid => Sys2Proof.Machine.execRankRetirement ch sid s
  | .migrationUnitCopy found => Sys2Proof.Machine.execMigrationUnitCopy found s
  | .rankSwitchover => Sys2Proof.Machine.execRankSwitchover s
  | .doubtSource code part res => Sys2Proof.Machine.execDoubtSource code part res s
  | .sealRecomputation upset => Sys2Proof.Machine.execSealRecomputation upset s
  | .forceBoltInput => Sys2Proof.Machine.execForceBoltInput s
  | .supplyWarning rail millivolt => Sys2Proof.Machine.execSupplyWarning rail millivolt s
  | .reinExit => Sys2Proof.Machine.execReinExit s
  | .reinLimit => Sys2Proof.Machine.execReinLimit s
  | .supplyResetLevel rail => Sys2Proof.Machine.execSupplyResetLevel rail s
  | .wearSensorRead cls index value => Sys2Proof.Machine.execWearSensorRead cls index value s
  | .coreSwap core => Sys2Proof.Machine.execCoreSwap core s
  | .bistRotation cluster => Sys2Proof.Machine.execBistRotation cluster s
  | .bistComplete cluster pass => Sys2Proof.Machine.execBistComplete cluster pass s
  | .clockGeneratorSwitch island => Sys2Proof.Machine.execClockGeneratorSwitch island s
  | .powerOnReset => Sys2Proof.Machine.execPowerOnReset s
  | .sysRstN => Sys2Proof.Machine.execSysRstN s
  | .warmReset => Sys2Proof.Machine.execWarmReset s
  | .presetPart part => Sys2Proof.Machine.execPresetPart part s
  | .partitionReset part => Sys2Proof.Machine.execPartitionReset part s
  | .pcieLinkReady port => Sys2Proof.Machine.execPcieLinkReady port s
  | .forceBolt part => Sys2Proof.Machine.execForceBolt part s
  | .clearBolt part => Sys2Proof.Machine.execClearBolt part s
  | .parSwap => Sys2Proof.Machine.execParSwap s
  | .hobbleArm unit_ value => Sys2Proof.Machine.execHobbleArm unit_ value s
  | .quadReconfigure quad value => Sys2Proof.Machine.execQuadReconfigure quad value s
  | .ringKindChange part value => Sys2Proof.Machine.execRingKindChange part value s
  | .gaitEnable mon value => Sys2Proof.Machine.execGaitEnable mon value s
  | .gaitSnap part => Sys2Proof.Machine.execGaitSnap part s
  | .gaitPsnap part => Sys2Proof.Machine.execGaitPsnap part s
  | .gaitWindowEnd mon => Sys2Proof.Machine.execGaitWindowEnd mon s
  | .gaitSample mon value => Sys2Proof.Machine.execGaitSample mon value s
  | .dbgHalt => Sys2Proof.Machine.execDbgHalt s
  | .dbgRun => Sys2Proof.Machine.execDbgRun s
  | .dbgStep => Sys2Proof.Machine.execDbgStep s
  | .dbgTregWrite value => Sys2Proof.Machine.execDbgTregWrite value s
  | .dbgacc write offset value => Sys2Proof.Machine.execDbgacc write offset value s
  | .journalEnable value => Sys2Proof.Machine.execJournalEnable value s
  | .clkTsetWrite value => Sys2Proof.Machine.execClkTsetWrite value s
  | .clkTadjWrite value => Sys2Proof.Machine.execClkTadjWrite value s
  | .clusterClockChange cluster value => Sys2Proof.Machine.execClusterClockChange cluster value s
  | .ppsInEdge => Sys2Proof.Machine.execPpsInEdge s
  | .clk10Loss => Sys2Proof.Machine.execClk10Loss s
  | .timeSlewDone => Sys2Proof.Machine.execTimeSlewDone s
  | .ppsOut => Sys2Proof.Machine.execPpsOut s
  | .firmwareUpdate value => Sys2Proof.Machine.execFirmwareUpdate value s
  | .configurationSave value => Sys2Proof.Machine.execConfigurationSave value s
  | .smbusBindingWrite cmd data => Sys2Proof.Machine.execSmbusBindingWrite cmd data s
  | .smbusRegisterRead offset => Sys2Proof.Machine.execSmbusRegisterRead offset s
  | .smbusAlertResponse => Sys2Proof.Machine.execSmbusAlertResponse s
  | .registerWrite path offset ben value => Sys2Proof.Machine.execRegisterWrite path offset ben value s
  | .pauseTimerExpiry port cls => Sys2Proof.Machine.execPauseTimerExpiry port cls s
  | .inFlightTimeout c => Sys2Proof.Machine.execInFlightTimeout c s
  | .inUseTimeout c => Sys2Proof.Machine.execInUseTimeout c s
  | .pcieCompletionTimeout read => Sys2Proof.Machine.execPcieCompletionTimeout read s
  | .ppsInLoss => Sys2Proof.Machine.execPpsInLoss s
  | .clk10InReturn => Sys2Proof.Machine.execClk10InReturn s
  | .vauxLoss => Sys2Proof.Machine.execVauxLoss s
  | .vinValid => Sys2Proof.Machine.execVinValid s
  | .onDieSensorReading sensor deg => Sys2Proof.Machine.execOnDieSensorReading sensor deg s
  | .flashWriteEnd ok => Sys2Proof.Machine.execFlashWriteEnd ok s
  | .perstNRelease port => Sys2Proof.Machine.execPerstNRelease port s

end Sys2Proof.Machine
end

