-- ==== Sys2Proof/Machine/Tick.lean ====
section
/-! DEFINITION. What one nanosecond of device time does when no command waits (DESIGN CHOICE, log entry 1): the time base advances, timed
conditions are followed, and whatever the part starts by itself starts. -/

namespace Sys2Proof.Machine

/-- An island that answered none of its accesses answers again a microsecond after the last (16 Table 16-1, code 07). -/
def islandBack (s : State) (i : Nat) : State :=
  let s := { s with far := { s.far with islandLost := mdel s.far.islandLost i } }
  (List.range 8).foldl (fun s p => doubtGone s p (fun d => decide (d.code = 0x07 ∧ d.res = i))) s

/-- The islands whose microsecond has passed. -/
def islandsBack (s : State) : List Nat := (s.far.islandLost.filter (fun kt => decide (kt.2 + 1000 ≤ s.now))).map (·.1)

/-- The part of a tick that needs a booted part (18 R380, R383). -/
def liveTick (s : State) : State :=
  let s := refiTick (taiTick s)
  let s := (islandsBack s).foldl islandBack s
  let s := (List.range 8).foldl trackStall s
  let s := loadSettle (s.far.draining.foldl swapSettle (segSettle (stfSettle s)))
  (List.range 8).foldl fetchAll s

/-- A nanosecond passes. -/
def tick (s : State) : State :=
  let s := { s with now := s.now + 1 }
  if s.hkc.booted then liveTick s else s

end Sys2Proof.Machine
end

