-- ==== Sys2Proof/Safety.lean ====
section
/-! DEFINITION. What the claims call safe: the invariant that a state of the block meets, the commands that stop because they
name no unit of the part, and a run that meets neither a stop nor a broken invariant. -/

namespace Sys2Proof.Claim

open Sys2Proof.Machine

/-- The memories, host memory and the segment tables are in canonical form: keys strictly rising, nothing listed that reads
as an unlisted place does. -/
abbrev MemoryCanonical (s : State) : Prop :=
  mwf 0 s.mem.clm = true ∧ mwf 0 s.mem.csm = true ∧ mwf 0 s.mem.ist = true ∧ mwf 0 s.mem.dev = true ∧
    mwf 0 s.mem.host = true ∧ mwf ({} : Seg) s.mem.segs = true

/-- BOLT_N is asserted from the loss of a supply to the end of boot, and in device Bolt, and at no other time
(16 R343, R346; 18 R385). -/
abbrev BoltOutput (s : State) : Prop := s.pins.boltN = (s.hkc.booted && !s.hkc.dbolt)

/-- What every step keeps. -/
abbrev BlockInvariant (s : State) : Prop := MemoryCanonical s ∧ BoltOutput s

/-- The commands that name a physical unit, and those of them whose number names none that the part has. -/
def namesNoUnit : Instr → Bool
  | .clockGeneratorSwitch i => decide (61 ≤ i.toNat)
  | .supplyWarning r _ => decide (12 < r.toNat)
  | .supplyResetLevel r => decide (12 < r.toNat)
  | .onDieSensorReading k _ => decide (16 ≤ k.toNat)
  | .lockWatchdog k => decide (16400 ≤ k.toNat)
  | .rankRetirement _ sid => decide (3 ≤ sid.toNat)
  | _ => false

/-- Steps one after another, as many as n, each on the state the one before left; the first stop ends them. -/
def stepMany : Nat → State → Host.Outcome State Fault Refusal
  | 0, s => .next s
  | n + 1, s => match step s with
    | .next u => stepMany n u
    | .fault f => .fault f
    | .refused r => .refused r

/-- A safe run of n steps: it begins in a state that meets the invariant, never stops, and ends in such a state. -/
def SafeRun (n : Nat) (s : State) : Prop := BlockInvariant s ∧ ∃ u, stepMany n s = .next u ∧ BlockInvariant u

end Sys2Proof.Claim
end

