-- ==== Sys2Proof/Certificates/Slice0/Obligations.lean ====
section
/-! DEFINITION. The statements for the provers: what the rules of the specification say the commands of the block do, which
conditions let them, what they leave unchanged, and what every step keeps. -/

namespace Sys2Proof.Claim

open Sys2Proof.Machine

/-- A thread may issue: it runs, nothing asynchronous is due (08 R160, R174), no breakpoint and no single step is set for
it (17 R367, R368), and no routine is under way on it, whose next chunk its bundle would run (10 R211). -/
abbrev MayIssue (s : State) (t : Thr) : Prop :=
  canIssueBundle s t.toNat = true ∧ breakpoint s t.toNat = none ∧ (thr s t.toNat).stepping = false ∧
    (thr s t.toNat).routine = none

/-- The context a bundle reads when it issues: results whose turn has come have landed (08 R161). -/
def ctxNow (s : State) (t : Thr) : Ctx := (thr s t.toNat).ctx.turn

/-- A thread may issue a syllable whose guard lets it execute: P[G] XOR N = 1 (09 R185). -/
abbrev Runs (s : State) (t : Thr) (g : Gd) : Prop :=
  MayIssue s t ∧ ((ctxNow s t).pd (g.toNat % 8) != bitOf g.toNat 3) = true

/-- Between `s` and `u` a bundle of thread `t` issued, leaving it the context `c` and leaving the memories `m`. Every
other part of the state, and every other thread, is as before; besides, the thread's partition stalls no longer (07 R156),
and the first bundle of a task is a latency point of its ticket, of which the Gait monitors may take a sample (17 R362). -/
def Leaves (s u : State) (t : Thr) (c : Ctx) (m : Mems) : Prop :=
  u = { s with mem := m, thr := { s.thr with threads := u.thr.threads }, dbg := (firstBundle s t.toNat).dbg,
               hlt := { s.hlt with stallSince := mdel s.hlt.stallSince ((thrPart s t.toNat).getD 8),
                                   tickets := (firstBundle s t.toNat).hlt.tickets } } ∧
  thr u t.toNat = { thr s t.toNat with ctx := c, inWait := false, skipBp := false } ∧
  ∀ k, k ≠ t.toNat → thr u k = thr s k

/-- A context after an issued bundle that writes the G registers `gs` and the predicates `ps` and nothing else: PC has
moved past one syllable, G0 still reads zero and P0 still reads true. -/
def Wrote (c c' : Ctx) (gs : List (Nat × W36)) (ps : List (Nat × Bool)) : Prop :=
  c' = { c with pc := c.pc + 1, regs := c'.regs, preds := c'.preds } ∧
  (∀ r, c'.g r = if r = 0 then 0 else (gs.lookup r).getD (c.g r)) ∧
  (∀ i, i < 8 → c'.pd i = if i = 0 then true else (ps.lookup i).getD (c.pd i))

/-- The command of one syllable answers a next state in which the thread's context wrote `gs` and `ps`. -/
def Answers (i : Instr) (s : State) (t : Thr) (gs : List (Nat × W36)) (ps : List (Nat × Bool)) : Prop :=
  ∃ u c, exec i s = .next u ∧ Leaves s u t c s.mem ∧ Wrote (ctxNow s t) c gs ps

/-- A result of width `w`: the bits from `w` up come from the first operand (09 R187). -/
def atWidth (w : Nat) (a : W36) (v : Nat) : W36 := BitVec.ofNat 36 (a.toNat / 2 ^ w * 2 ^ w + v % 2 ^ w)

/-- The predicates a compare writes: P[PD], and its complement to P[PD + 1] when C is set and PD is not 7 (09 R186). -/
def specWrites (rd : BitVec 5) (b nb : Bool) : List (Nat × Bool) :=
  (rd.toNat % 8, b) :: (if bitOf rd.toNat 3 ∧ rd.toNat % 8 ≠ 7 then [(rd.toNat % 8 + 1, nb)] else [])

/-- The low `w` bits read in two's complement. -/
def signedAt (w v : Nat) : Int := if 2 * (v % 2 ^ w) < 2 ^ w then (v % 2 ^ w : Nat) else (v % 2 ^ w : Nat) - 2 ^ w

/-- A word of nine packed decimal digits (09 Table 09-4). -/
abbrev Decimal (v : W36) : Prop := ∀ i, i < 9 → v.toNat / 16 ^ i % 16 ≤ 9

/-- The number nine packed digits spell. -/
def decimalOf (v : W36) : Nat :=
  ((List.range 9).map (fun i => v.toNat / 16 ^ i % 16 * 10 ^ i)).sum

/-- `x` is the packed decimal of the low nine digits of `n`. -/
def SpellsDecimal (x : W36) (n : Nat) : Prop := ∀ i, i < 9 → x.toNat / 16 ^ i % 16 = n / 10 ^ i % 10

/-- Nine packed digits all 1111: what an operation answers for a digit that is not decimal (09 R190). -/
def invalidDecimal : W36 := BitVec.allOnes 36

end Sys2Proof.Claim

open Sys2Proof Sys2Proof.Machine Sys2Proof.Claim

/-- 09 R187: ADD and SUB compute modulo 2^w, w being 36 or 32 by the width mode; bits above w copy ra; P[CP] receives the
carry or the borrow. The frame: no other register, predicate, thread or memory changes. -/
def Sys2Proof.Claim.addSubCarry : Prop :=
  ∀ (s : State) (t : Thr) (g : Gd) (rd ra rb : BitVec 5) (md : BitVec 8), Runs s t g → md.toNat % 4 < 2 →
    let w := if md.toNat % 4 = 1 then 32 else 36
    let a := (ctxNow s t).g ra.toNat
    let b := (ctxNow s t).g rb.toNat
    let x := a.toNat % 2 ^ w
    let y := b.toNat % 2 ^ w
    Answers (.add t g rd ra rb md) s t [(rd.toNat, atWidth w a (x + y))]
      [(md.toNat / 4 % 8, decide (2 ^ w ≤ x + y))] ∧
    Answers (.sub t g rd ra rb md) s t [(rd.toNat, atWidth w a (x + 2 ^ w - y))]
      [(md.toNat / 4 % 8, decide (x < y))]

/-- 09 R187: the bitwise operations, shifts and rotate of the R format at both widths: a shift by the width or more gives
zero (SAR: the sign in every bit), a rotate is by the amount modulo the width, and no predicate changes. -/
def Sys2Proof.Claim.logicAndShift : Prop :=
  ∀ (s : State) (t : Thr) (g : Gd) (rd ra rb : BitVec 5) (md : BitVec 8), Runs s t g → md.toNat % 4 < 2 →
    let w := if md.toNat % 4 = 1 then 32 else 36
    let a := (ctxNow s t).g ra.toNat
    let b := (ctxNow s t).g rb.toNat
    let x := a.toNat % 2 ^ w
    let n := b.toNat % 64
    Answers (.and_ t g rd ra rb md) s t [(rd.toNat, atWidth w a (a &&& b).toNat)] [] ∧
    Answers (.or_ t g rd ra rb md) s t [(rd.toNat, atWidth w a (a ||| b).toNat)] [] ∧
    Answers (.xor_ t g rd ra rb md) s t [(rd.toNat, atWidth w a (a ^^^ b).toNat)] [] ∧
    Answers (.andn t g rd ra rb md) s t [(rd.toNat, atWidth w a (a &&& ~~~b).toNat)] [] ∧
    Answers (.shl t g rd ra rb md) s t [(rd.toNat, atWidth w a (if n < w then x * 2 ^ n else 0))] [] ∧
    Answers (.shr t g rd ra rb md) s t [(rd.toNat, atWidth w a (if n < w then x / 2 ^ n else 0))] [] ∧
    (∃ v : Nat, (v : Int) = signedAt w x / 2 ^ (min n (w - 1)) % 2 ^ w ∧
      Answers (.sar t g rd ra rb md) s t [(rd.toNat, atWidth w a v)] []) ∧
    Answers (.rol t g rd ra rb md) s t [(rd.toNat, atWidth w a (x * 2 ^ (n % w) % 2 ^ w + x / 2 ^ (w - n % w)))] []

/-- 09 R186, R189: the predicate operations. CMP writes P[PD] with its condition at the width's 36 or 32 bits and, with C
set and PD not 7, the complement to P[PD + 1]; the compares with an immediate do the same with IMM13 sign-extended; PLOG
combines two predicates; SEL picks a register by a predicate; PRD reads the predicates into a word with bit 0 set; PWR
writes the predicates 1 to 7 that a mask names. -/
def Obligations.Predicates : Prop :=
  ∀ (s : State) (t : Thr) (g : Gd) (rd ra rb : BitVec 5) (md : BitVec 8) (imm : BitVec 13), Runs s t g →
    let c := ctxNow s t
    let a := c.g ra.toNat
    let b := c.g rb.toNat
    let w := if md.toNat / 8 % 4 = 1 then 32 else 36
    let x := a.toNat % 2 ^ w
    let y := b.toNat % 2 ^ w
    let p := c.pd (ra.toNat % 8)
    let q := c.pd (rb.toNat % 8)
    let i := imm.signExtend 36
    (md.toNat / 8 % 4 < 2 → md.toNat % 8 ≠ 7 → ∀ v : Bool,
      v = (match md.toNat % 8 with
        | 0 => decide (x = y)
        | 1 => decide (x ≠ y)
        | 2 => decide (signedAt w x < signedAt w y)
        | 3 => decide (signedAt w x ≤ signedAt w y)
        | 4 => decide (x < y)
        | 5 => decide (x ≤ y)
        | _ => decide (x &&& y ≠ 0)) →
      Answers (.cmp t g rd ra rb md) s t [] (specWrites rd v (!v))) ∧
    Answers (.cmpeqi t g rd ra imm) s t [] (specWrites rd (decide (a = i)) (decide (a ≠ i))) ∧
    Answers (.cmpnei t g rd ra imm) s t [] (specWrites rd (decide (a ≠ i)) (decide (a = i))) ∧
    Answers (.cmplti t g rd ra imm) s t [] (specWrites rd (decide (a.toInt < i.toInt)) (decide (i.toInt ≤ a.toInt))) ∧
    Answers (.cmpltui t g rd ra imm) s t [] (specWrites rd (decide (a.toNat < i.toNat)) (decide (i.toNat ≤ a.toNat))) ∧
    (∀ v : Bool, v = (match md.toNat % 4 with
        | 0 => p && q
        | 1 => p || q
        | 2 => xor p q
        | _ => p && !q) →
      Answers (.plog t g rd ra rb md) s t [] (specWrites rd v (!v))) ∧
    Answers (.sel t g rd ra rb md) s t [(rd.toNat, if c.pd (md.toNat % 8) then a else b)] [] ∧
    Answers (.prd t g rd ra rb md) s t
      [(rd.toNat, BitVec.ofNat 36 (((List.range 8).map (fun k => if c.pd k then 2 ^ k else 0)).sum))] [] ∧
    Answers (.pwr t g rd ra rb md) s t []
      ([1, 2, 3, 4, 5, 6, 7].map (fun k => (k, if b.getLsbD k then a.getLsbD k else c.pd k)))

/-- 09 R184, R189: the immediate operations on 36 bits: ADDI sign-extends IMM13, the bitwise forms zero-extend it, the
shifts use IMM13 [5:0]; LIL loads IMM18 with zeros above, LIH replaces the high 18 bits. -/
def Sys2Proof.Claim.immediates : Prop :=
  ∀ (s : State) (t : Thr) (g : Gd) (rd ra : BitVec 5) (imm : BitVec 13) (i18 : BitVec 18), Runs s t g →
    let c := ctxNow s t
    let a := c.g ra.toNat
    let n := imm.toNat % 64
    let z := BitVec.ofNat 36 imm.toNat
    Answers (.addi t g rd ra imm) s t [(rd.toNat, BitVec.ofInt 36 (a.toInt + imm.toInt))] [] ∧
    Answers (.andi t g rd ra imm) s t [(rd.toNat, a &&& z)] [] ∧
    Answers (.ori t g rd ra imm) s t [(rd.toNat, a ||| z)] [] ∧
    Answers (.xori t g rd ra imm) s t [(rd.toNat, a ^^^ z)] [] ∧
    Answers (.shli t g rd ra imm) s t [(rd.toNat, a <<< n)] [] ∧
    Answers (.shri t g rd ra imm) s t [(rd.toNat, a >>> n)] [] ∧
    Answers (.sari t g rd ra imm) s t [(rd.toNat, a.sshiftRight n)] [] ∧
    Answers (.roli t g rd ra imm) s t [(rd.toNat, a.rotateLeft n)] [] ∧
    Answers (.lil t g rd i18) s t [(rd.toNat, BitVec.ofNat 36 i18.toNat)] [] ∧
    Answers (.lih t g rd i18) s t
      [(rd.toNat, BitVec.ofNat 36 (i18.toNat * 2 ^ 18 + (c.g rd.toNat).toNat % 2 ^ 18))] []

/-- 09 R184, R189: the field operations. EXTI takes W + 1 bits of ra from POS, bits past 35 reading zero, sign-extended
when X is set; DEPI puts the low W + 1 bits of ra into rd at POS, dropping what falls past bit 35; PAR gives the parity of
the word or the odd-parity bits of its four octets; BREV reverses the low 8, 16, 32 or 36 bits; OREV reverses the low four
octets or swaps them in pairs; BCNT counts ones or leading zeros. -/
def Sys2Proof.Claim.fields : Prop :=
  ∀ (s : State) (t : Thr) (g : Gd) (rd ra rb : BitVec 5) (md : BitVec 8) (imm : BitVec 13), Runs s t g →
    let c := ctxNow s t
    let a := c.g ra.toNat
    let pos := imm.toNat % 64
    let n := imm.toNat / 64 % 64 + 1
    let o := fun k => a.toNat / 256 ^ k % 256
    let w := match md.toNat % 4 with
      | 0 => 8
      | 1 => 16
      | 2 => 32
      | _ => 36
    (∃ v : W36, (∀ k, k < 36 → v.getLsbD k =
        if k < n then a.getLsbD (pos + k) else imm.getLsbD 12 && a.getLsbD (pos + n - 1)) ∧
      Answers (.exti t g rd ra imm) s t [(rd.toNat, v)] []) ∧
    (∃ v : W36, (∀ k, k < 36 → v.getLsbD k =
        if pos ≤ k ∧ k < pos + n then a.getLsbD (k - pos) else (c.g rd.toNat).getLsbD k) ∧
      Answers (.depi t g rd ra imm) s t [(rd.toNat, v)] []) ∧
    (∃ v : W36, (v = if md.getLsbD 0 = false then (if (List.range 36).countP (fun k => a.getLsbD k) % 2 = 1 then 1 else 0)
        else BitVec.ofNat 36 (((List.range 4).map (fun k =>
          if (List.range 8).countP (fun j => a.getLsbD (8 * k + j)) % 2 = 0 then 2 ^ k else 0)).sum)) ∧
      Answers (.par t g rd ra rb md) s t [(rd.toNat, v)] []) ∧
    (∃ v : W36, (∀ k, k < 36 → v.getLsbD k = (decide (k < w) && a.getLsbD (w - 1 - k))) ∧
      Answers (.brev t g rd ra rb md) s t [(rd.toNat, v)] []) ∧
    Answers (.orev t g rd ra rb md) s t [(rd.toNat, BitVec.ofNat 36
      (if md.getLsbD 0 then o 2 * 256 ^ 3 + o 3 * 256 ^ 2 + o 0 * 256 + o 1
        else o 0 * 256 ^ 3 + o 1 * 256 ^ 2 + o 2 * 256 + o 3))] [] ∧
    (∃ n : Nat, (if md.getLsbD 0 then n = (List.range 36).countP (fun k => a.getLsbD k)
        else n ≤ 36 ∧ (∀ k, k < n → a.getLsbD (35 - k) = false) ∧ (n < 36 → a.getLsbD (35 - n) = true)) ∧
      Answers (.bcnt t g rd ra rb md) s t [(rd.toNat, BitVec.ofNat 36 n)] [])

/-- 09 R190: packed decimal. With nine valid digits in each operand the result is the nine-digit sum or difference modulo
10^9 and P[CP] the carry or borrow; DCMP compares the numbers; DCHK tests the digits; CVBD and CVDB convert. A nibble above
9 gives all ones and sets P[CP]; in DCMP it makes both outcomes false. -/
def Sys2Proof.Claim.decimalOps : Prop :=
  ∀ (s : State) (t : Thr) (g : Gd) (rd ra rb : BitVec 5) (md : BitVec 8), Runs s t g →
    let a := (ctxNow s t).g ra.toNat
    let b := (ctxNow s t).g rb.toNat
    let cp := md.toNat / 4 % 8
    let w := if md.toNat % 4 = 1 then 32 else 36
    (Decimal a → Decimal b →
      (∃ v, SpellsDecimal v (decimalOf a + decimalOf b) ∧ Answers (.dadd t g rd ra rb md) s t [(rd.toNat, v)]
        [(cp, decide (10 ^ 9 ≤ decimalOf a + decimalOf b))]) ∧
      (∃ v, SpellsDecimal v (decimalOf a + 10 ^ 9 - decimalOf b) ∧ Answers (.dsub t g rd ra rb md) s t [(rd.toNat, v)]
        [(cp, decide (decimalOf a < decimalOf b))]) ∧
      (∀ v : Bool, (md.toNat % 8 = 0 ∧ v = decide (decimalOf a = decimalOf b)) ∨
          (md.toNat % 8 = 2 ∧ v = decide (decimalOf a < decimalOf b)) ∨
          (md.toNat % 8 = 3 ∧ v = decide (decimalOf a ≤ decimalOf b)) →
        Answers (.dcmp t g rd ra rb md) s t [] (specWrites rd v (!v)))) ∧
    (¬ (Decimal a ∧ Decimal b) →
      Answers (.dadd t g rd ra rb md) s t [(rd.toNat, invalidDecimal)] [(cp, true)] ∧
      Answers (.dsub t g rd ra rb md) s t [(rd.toNat, invalidDecimal)] [(cp, true)] ∧
      (md.toNat % 8 = 0 ∨ md.toNat % 8 = 2 ∨ md.toNat % 8 = 3 →
        Answers (.dcmp t g rd ra rb md) s t [] (specWrites rd false false))) ∧
    (Decimal a → Answers (.dchk t g rd ra rb md) s t [] (specWrites rd true false) ∧
      Answers (.cvdb t g rd ra rb md) s t [(rd.toNat, BitVec.ofNat 36 (decimalOf a))] [(cp, false)]) ∧
    (¬ Decimal a → Answers (.dchk t g rd ra rb md) s t [] (specWrites rd false true) ∧
      Answers (.cvdb t g rd ra rb md) s t [(rd.toNat, invalidDecimal)] [(cp, true)]) ∧
    (md.toNat % 4 < 2 → ∃ v, SpellsDecimal v (a.toNat % 2 ^ w) ∧
      Answers (.cvbd t g rd ra rb md) s t [(rd.toNat, v)] [(cp, decide (10 ^ 9 ≤ a.toNat % 2 ^ w))])

/-- One digit of a Luhn fold over (sum modulo 10, parity, invalid): at parity 1 the digit is doubled, less 9 when that
exceeds 9; a digit above 9 sets INV and adds nothing (09 R191). -/
def Sys2Proof.Claim.luhnStep (st : Nat × Bool × Bool) (d : Nat) : Nat × Bool × Bool :=
  let v := if 9 < d then 0 else if st.2.1 then (if 4 < d then 2 * d - 9 else 2 * d) else d
  ((st.1 + v) % 10, !st.2.1, st.2.2 || decide (9 < d))

/-- 09 R191: LUHN folds the low N nibbles of ra, nibble 0 first, into the state word rb (SUM in [3:0], parity in bit 4, INV
in bit 5), N being 9 for the codes 0 and 10 to 15; P[PD] reports that SUM is zero and INV clear. A state word whose SUM is
no decimal digit is folded as SUM 0 with INV set. -/
def Sys2Proof.Claim.luhn : Prop :=
  ∀ (s : State) (t : Thr) (g : Gd) (rd ra rb : BitVec 5) (md : BitVec 8), Runs s t g →
    let a := ((ctxNow s t).g ra.toNat).toNat
    let b := ((ctxNow s t).g rb.toNat).toNat
    let n := if md.toNat % 16 = 0 ∨ 9 < md.toNat % 16 then 9 else md.toNat % 16
    let st := ((List.range n).map (fun k => a / 16 ^ k % 16)).foldl luhnStep
      (if 9 < b % 16 then 0 else b % 16, b.testBit 4, b.testBit 5 || decide (9 < b % 16))
    Answers (.luhn t g rd ra rb md) s t
      [(rd.toNat, BitVec.ofNat 36 (st.1 + (if st.2.1 then 16 else 0) + (if st.2.2 then 32 else 0)))]
      [(md.toNat / 16 % 8, decide (st.1 = 0) && !st.2.2)]

/-- 09 R187: the statement of addition, subtraction and their carries, and the one of logic, shifts and rotates. -/
def Obligations.IntegerOps : Prop :=
  Sys2Proof.Claim.addSubCarry ∧ Sys2Proof.Claim.logicAndShift

/-- 09 R184, R189: the statement of the immediate forms, and the one of field extract and insert. -/
def Obligations.ImmediatesAndFields : Prop :=
  Sys2Proof.Claim.immediates ∧ Sys2Proof.Claim.fields

/-- 09 R190, R191: the statement of the packed decimal operations, and the one of the Luhn step. -/
def Obligations.DecimalArithmetic : Prop :=
  Sys2Proof.Claim.decimalOps ∧ Sys2Proof.Claim.luhn

namespace Sys2Proof.Claim

/-- Rights of a descriptor an access needs: R, W and X of 08 Table 08-8. -/
abbrev ReadNeed : Need := { r := true }
/-- The right to write. -/
abbrev WriteNeed : Need := { w := true }

/-- Selector register `k` of a thread grants `n` units at `off` (08 R165, R168): the descriptor is valid and present, has
the rights needed, and holds the units up to its limit; they are units `addr` on of memory `space`. -/
def Grants (s : State) (t : Thr) (k : Nat) (need : Need) (off n space addr : Nat) : Prop :=
  ∃ v, segOf s t.toNat ((ctxNow s t).sel k) = v ∧ v.valid = true ∧ v.p = true ∧
    (need.r → v.r) ∧ (need.w → v.w) ∧ (need.x → v.x) ∧ (need.h → v.h) ∧
    0 < n ∧ off + n ≤ v.limit + 1 ∧ v.space = space ∧ addr = v.base + off ∧ (space < 3 → addr + n ≤ spaceSize space)

/-- A word of CLM, CSM or the instruction store as thread `t` addresses it (08 Table 08-3). -/
def wordAt (s : State) (t : Thr) (space a : Nat) : W36 :=
  if space = 0 then clmWord s (t.toNat / 16) a else if space = 1 then csmWord s (t.toNat / 128) a
  else istWord s (t.toNat / 128) a

/-- Neither parity nor ECC finds an error in the word (08 Table 08-9). -/
abbrev WordGood (s : State) (t : Thr) (space a : Nat) : Prop :=
  (space = 0 → t.toNat / 16 * 16384 + a ∉ s.mem.clmBad) ∧ (space = 1 → t.toNat / 128 * 262144 + a ∉ s.mem.csmBad)

/-- An octet of the window (space 6), of host memory (space 5) or of packet SRAM or HBM, as thread `t` of partition `p`
addresses it. -/
def octetAt (s : State) (t : Thr) (p space a : Nat) : Octet :=
  if space = 6 then mget 0 (thr s t.toNat).ctx.win a
  else if space = 5 then mget 0 s.mem.host (p * 2 ^ 64 + a % 2 ^ 64) else viewOct s a

/-- No entry of a lookup table and no record of the stream framer stands at the device address (06 R111, R114, R116, R117;
04 R67, R82). Where one stands, a read gives its octets: the model's choice, log entry 26. -/
abbrev NoRecord (s : State) (a : Nat) : Prop := isHbm a = true → recordAt s a = none

/-- The command answers `k` times in a row, from `s` to `u`. -/
def Times (i : Instr) : Nat → State → State → Prop
  | 0, s, u => u = s
  | k + 1, s, u => ∃ x, exec i s = .next x ∧ Times i k x u

/-- A near operand's offset: ra plus the sign-extended IMM13 [9:0], modulo 2^36 (09 R188). -/
def nearOffset (c : Ctx) (ra : BitVec 5) (imm : BitVec 13) : Nat :=
  ((((c.g ra.toNat).toNat : Int) + (imm.truncate 10 : BitVec 10).toInt) % 2 ^ 36).toNat

/-- The number `n` octets spell, the first most significant. -/
def spelled (f : Nat → Octet) (n : Nat) : Nat :=
  ((List.range n).map (fun i => (f i).toNat * 256 ^ (n - 1 - i))).sum

/-- Octet `i` of the `n` octets that spell a number, the first most significant. -/
def octetOf (v n i : Nat) : Octet := BitVec.ofNat 8 (v / 256 ^ (n - 1 - i))

end Sys2Proof.Claim

/-- 09 R184, R192, Table 09-5: the near loads and stores that their segment grants. LD and ST move a 36-bit word; LDO and STO
move 1, 2 or 4 octets of the window, most significant first, a load clearing the bits above. A store changes exactly the
word or octets it names. -/
def Obligations.NearAccess : Prop :=
  ∀ (s : State) (t : Thr) (g : Gd) (rd ra : BitVec 5) (imm : BitVec 13) (sp a : Nat), Runs s t g →
    let c := ctxNow s t
    let k := imm.toNat / 1024
    let off := nearOffset c ra imm
    (sp < 3 → Grants s t k ReadNeed off 1 sp a → WordGood s t sp a →
      Answers (.ld t g rd ra imm) s t [(rd.toNat, wordAt s t sp a)] []) ∧
    (sp < 2 → Grants s t k WriteNeed off 1 sp a →
      ∃ u c', exec (.st t g rd ra imm) s = .next u ∧ Leaves s u t c' u.mem ∧ Wrote c c' [] [] ∧
        (∀ core w, w < 16384 → clmWord u core w =
          if sp = 0 ∧ core = t.toNat / 16 ∧ w = a then c.g rd.toNat else clmWord s core w) ∧
        (∀ cl w, w < 262144 → csmWord u cl w =
          if sp = 1 ∧ cl = t.toNat / 128 ∧ w = a then c.g rd.toNat else csmWord s cl w) ∧
        u.mem = { s.mem with clm := u.mem.clm, csm := u.mem.csm, clmBad := u.mem.clmBad, csmBad := u.mem.csmBad }) ∧
    (∀ n, (Grants s t k ReadNeed off n 6 a →
        let v := BitVec.ofNat 36 (spelled (fun i => mget 0 c.win (a + i)) n)
        (n = 1 → Answers (.ldo1 t g rd ra imm) s t [(rd.toNat, v)] []) ∧
        (n = 2 → Answers (.ldo2 t g rd ra imm) s t [(rd.toNat, v)] []) ∧
        (n = 4 → Answers (.ldo4 t g rd ra imm) s t [(rd.toNat, v)] [])) ∧
      (Grants s t k WriteNeed off n 6 a → ∀ i ∈ [Instr.sto1 t g rd ra imm, .sto2 t g rd ra imm, .sto4 t g rd ra imm],
        (i = .sto1 t g rd ra imm → n = 1) → (i = .sto2 t g rd ra imm → n = 2) → (i = .sto4 t g rd ra imm → n = 4) →
        ∃ u c', exec i s = .next u ∧ Leaves s u t c' s.mem ∧ c' = { c with pc := c.pc + 1, win := c'.win } ∧
          ∀ b, b < 512 → mget 0 c'.win b =
            if a ≤ b ∧ b < a + n then octetOf (c.g rd.toNat).toNat n (b - a) else mget 0 c.win b))

/-- 09 R193, R194, R195: LDD loads nine nibbles of the window from a nibble address, the first in the high nibble; XLAT
translates each octet of ra through a table of 64 words; BMWALK answers the next field present in a bitmap of 64 or 128
fields, and 0 with P[pd] clear when there is none. -/
def Sys2Proof.Claim.windowWords : Prop :=
  ∀ (s : State) (t : Thr) (g : Gd) (rd ra rb : BitVec 5) (md : BitVec 8) (imm : BitVec 13) (sp a : Nat), Runs s t g →
    let c := ctxNow s t
    let nibAddr := nearOffset c ra imm
    let nibble := fun i => (if i % 2 = 0 then (mget 0 c.win (i / 2)).toNat / 16 else (mget 0 c.win (i / 2)).toNat % 16)
    let off := (c.g rb.toNat).toNat
    let field := fun f => (mget 0 c.win (a + (f - 1) / 8)).getLsbD (7 - (f - 1) % 8)
    let from_ := max (c.g ra.toNat).toNat 1 + 1
    let last := if field 1 then 128 else 64
    (Grants s t (imm.toNat / 1024) ReadNeed (nibAddr / 2) ((nibAddr + 8) / 2 - nibAddr / 2 + 1) 6 (nibAddr / 2) →
      Answers (.ldd t g rd ra imm) s t
        [(rd.toNat, BitVec.ofNat 36 (((List.range 9).map (fun i => nibble (nibAddr + i) * 16 ^ (8 - i))).sum))] []) ∧
    (sp < 2 → Grants s t (md.toNat % 8) ReadNeed off 64 sp a → (∀ w, w < 64 → WordGood s t sp (a + w)) →
      ∃ v : W36, (∀ k, k < 4 → v.toNat / 256 ^ k % 256 =
          let i := (c.g ra.toNat).toNat / 256 ^ k % 256
          (wordAt s t sp (a + i / 4)).toNat / 2 ^ (24 - 8 * (i % 4)) % 256) ∧ v.toNat < 2 ^ 32 ∧
        Answers (.xlat t g rd ra rb md) s t [(rd.toNat, v)] []) ∧
    (Grants s t (md.toNat / 8 % 8) ReadNeed off (last / 8) 6 a →
      (∀ f, from_ ≤ f → f ≤ last → field f → (∀ f', from_ ≤ f' → f' < f → field f' = false) →
        Answers (.bmwalk t g rd ra rb md) s t [(rd.toNat, BitVec.ofNat 36 f)] [(md.toNat % 8, true)]) ∧
      ((∀ f, from_ ≤ f → f ≤ last → field f = false) →
        Answers (.bmwalk t g rd ra rb md) s t [(rd.toNat, 0)] [(md.toNat % 8, false)]))

/-- 09 R196: TLVNEXT on a header that begins with `z` zero octets, a tag whose octets continue as the rule says and a length
in one of the three forms, wholly below the limit, writes the tag, its length less one, the constructed flag, the length and
the value's offset; on zeros alone, or past the limit, it writes 01 in rd + 1 [35:34] and nothing else. -/
def Sys2Proof.Claim.tlvHeader : Prop :=
  ∀ (s : State) (t : Thr) (g : Gd) (rd ra rb : BitVec 5) (md : BitVec 8) (z tl ll limit : Nat), Runs s t g →
    rd.toNat < 31 →
    let c := ctxNow s t
    let off := (c.g ra.toNat).toNat
    let o := fun i => (mget 0 c.win (off + i)).toNat
    (∃ v, segOf s t.toNat (c.sel (md.toNat / 8 % 8)) = v ∧ v.valid = true ∧ v.p = true ∧ v.r = true ∧ v.space = 6 ∧
      v.base = 0 ∧ v.limit = limit ∧ limit < 512) →
    ((∀ i, i < z → o i = 0) →
      (∀ i, i < tl → (if i = 0 then o (z + i) ≠ 0 ∧ (o (z + i) % 32 = 31 ↔ 1 < tl) else (128 ≤ o (z + i) ↔ i + 1 < tl))) →
      1 ≤ tl → tl ≤ 3 →
      (let h := o (z + tl)
       (ll = 1 ∧ h < 128) ∨ (ll = 2 ∧ h = 0x81) ∨ (ll = 3 ∧ h = 0x82)) →
      off + z + tl + ll ≤ limit + 1 →
      let tag := ((List.range tl).map (fun i => o (z + i) * 256 ^ (tl - 1 - i))).sum
      let len := if ll = 1 then o (z + tl) else if ll = 2 then o (z + tl + 1) else o (z + tl + 1) * 256 + o (z + tl + 2)
      Answers (.tlvnext t g rd ra rb md) s t
        [(rd.toNat, BitVec.ofNat 36 (tag + (tl - 1) * 2 ^ 24 + o z / 32 % 2 * 2 ^ 26)),
         (rd.toNat + 1, BitVec.ofNat 36 (len + (off + z + tl + ll) * 2 ^ 16))] [(md.toNat % 8, true)]) ∧
    ((∀ i, off + i ≤ limit → o i = 0) →
      Answers (.tlvnext t g rd ra rb md) s t [(rd.toNat, 0), (rd.toNat + 1, BitVec.ofNat 36 (2 ^ 34))]
        [(md.toNat % 8, false)])

/-- 08 R169, Table 08-9: an access its descriptor does not grant. A read that violates writes zero to rd, a store that
violates writes nothing, and either counts one violation of the kind against the owner of the thread's cluster; with P = 0
the bundle changes nothing but for the fault, and its task leaves the thread for the lowest free save slot. -/
def Obligations.AccessRefused : Prop :=
  ∀ (s : State) (t : Thr) (g : Gd) (rd ra : BitVec 5) (imm : BitVec 13) (p : Nat), Runs s t g →
    thrPart s t.toNat = some p →
    let c := ctxNow s t
    let v := segOf s t.toNat (c.sel (imm.toNat / 1024))
    let off := nearOffset c ra imm
    (∀ kind, (kind = 1 ∧ v.valid = false) ∨
        (kind = 2 ∧ v.valid = true ∧ (1 < v.space ∨ v.r = false ∧ v.w = false)) ∨
        (kind = 3 ∧ v.valid = true ∧ v.space < 2 ∧ v.r = true ∧ v.w = true ∧ v.limit < off) → v.space ≠ 2 →
      (∃ u c', exec (.ld t g rd ra imm) s = .next u ∧ (thr u t.toNat).ctx = c' ∧ Wrote c c' [(rd.toNat, 0)] [] ∧
        u.mem = s.mem ∧ rdCnt u (0xE0800 + p * 0x80 + 8 * kind) = rdCnt s (0xE0800 + p * 0x80 + 8 * kind) + 1) ∧
      (∃ u c', exec (.st t g rd ra imm) s = .next u ∧ (thr u t.toNat).ctx = c' ∧ Wrote c c' [] [] ∧
        u.mem = s.mem ∧ rdCnt u (0xE0800 + p * 0x80 + 8 * kind) = rdCnt s (0xE0800 + p * 0x80 + 8 * kind) + 1)) ∧
    (∀ id x n, v.valid = true → v.space < 2 → v.r = true → v.w = true → off ≤ v.limit →
        v.base + off < spaceSize v.space → v.p = false →
        thrTask s t.toNat = some id → taskSt s id = some x → freeSlot s (t.toNat / 16) = some n →
      ∀ i ∈ [Instr.ld t g rd ra imm, .st t g rd ra imm], ∃ u sv f, exec i s = .next u ∧
        slotSt u n = some sv ∧ sv.ctx = c.landAll ∧ sv.fault = some f ∧ f.kind = 1 ∧
        f.sel = c.sel (imm.toNat / 1024) ∧ f.offset = off ∧ f.time = tai s ∧ thrTask u t.toNat = none ∧ u.mem = s.mem)

/-- 08 R171, R172: the far accesses their segment grants. Each clears EV[tag] and holds the tag; FST and FMOV to far memory
store at issue, most significant octet first; when the access completes its register or window octets are written, EV[tag]
is set and the tag is free. FLD takes 1, 2 or 4 octets and clears the bits above. -/
def Sys2Proof.Claim.farAccess : Prop :=
  ∀ (s : State) (t : Thr) (g : Gd) (rd ra rb : BitVec 5) (md : BitVec 8) (sp a n : Nat) (p : Nat), Runs s t g →
    thrPart s t.toNat = some p → hasHost s p = true →
    let c := ctxNow s t
    let tag := md.toNat / 32 % 4
    let w := (c.g rd.toNat).toNat
    let ref : CtxRef := ⟨false, t⟩
    3 ≤ sp → sp ≤ 5 → (sp < 5 → s.mem.poison = []) → mfind c.tags tag = none →
    (∀ off, off = ((c.g ra.toNat).toNat + (c.g rb.toNat).toNat) % 2 ^ 36 → md.toNat / 8 % 4 < 3 → n = 2 ^ (md.toNat / 8 % 4) →
      (Grants s t (md.toNat % 8) ReadNeed off n sp a →
        ∃ u x, exec (.fld t g rd ra rb md) s = .next u ∧ (thr u t.toNat).ctx.ev.getLsbD tag = false ∧
          mfind (thr u t.toNat).ctx.tags tag ≠ none ∧ u.mem = s.mem ∧
          exec (.farAccessComplete ref tag false) u = .next x ∧ x.mem = s.mem ∧
          (thr x t.toNat).ctx.ev = c.ev ||| BitVec.ofNat 36 (2 ^ tag) ∧ mfind (thr x t.toNat).ctx.tags tag = none ∧
          (∀ r, (thr x t.toNat).ctx.g r = if r = rd.toNat ∧ r ≠ 0
            then BitVec.ofNat 36 (spelled (fun i => octetAt s t p sp (a + i)) n) else c.g r)) ∧
      (Grants s t (md.toNat % 8) WriteNeed off n sp a →
        ∃ u, exec (.fst t g rd ra rb md) s = .next u ∧ (thr u t.toNat).ctx.ev.getLsbD tag = false ∧
          (thr u t.toNat).ctx.regs = c.regs ∧ mfind (thr u t.toNat).ctx.tags tag ≠ none ∧
          u.mem = { s.mem with dev := u.mem.dev, host := u.mem.host } ∧
          (a + n ≤ 2 ^ 64 → ∀ q b, b < 2 ^ 64 → octetAt u t q 5 b =
            if sp = 5 ∧ q = p ∧ a ≤ b ∧ b < a + n then octetOf w n (b - a) else octetAt s t q 5 b) ∧
          (∀ b, octetAt u t p 4 b = if sp ≠ 5 ∧ NoRecord s b ∧ a ≤ b ∧ b < a + n then octetOf w n (b - a) else octetAt s t p 4 b))) ∧
    (n = (if (c.g rb.toNat).toNat % 64 = 0 then 64 else (c.g rb.toNat).toNat % 64) → w + n ≤ 512 →
      (md.toNat < 128 → Grants s t (md.toNat % 8) ReadNeed (c.g ra.toNat).toNat n sp a →
        ∃ u x, exec (.fmov t g rd ra rb md) s = .next u ∧ (thr u t.toNat).ctx.win = c.win ∧ u.mem = s.mem ∧
          exec (.farAccessComplete ref tag false) u = .next x ∧ (thr x t.toNat).ctx.regs = c.regs ∧
          (thr x t.toNat).ctx.ev = c.ev ||| BitVec.ofNat 36 (2 ^ tag) ∧
          ∀ b, b < 512 → mget 0 (thr x t.toNat).ctx.win b =
            if w ≤ b ∧ b < w + n then octetAt s t p sp (a + (b - w)) else mget 0 c.win b) ∧
      (128 ≤ md.toNat → Grants s t (md.toNat % 8) WriteNeed (c.g ra.toNat).toNat n sp a →
        ∃ u, exec (.fmov t g rd ra rb md) s = .next u ∧ (thr u t.toNat).ctx.win = c.win ∧
          (a + n ≤ 2 ^ 64 → ∀ b, b < 2 ^ 64 → octetAt u t p sp b =
            if (sp = 5 ∨ NoRecord s b) ∧ a ≤ b ∧ b < a + n then mget 0 c.win (w + (b - a)) else octetAt s t p sp b)))

/-- 11 R238, Table 09-5: the word locks of a partition in word-lock mode, on a CSM word. LOCKW takes a word that is zero by
storing rb (1 for an rb of zero) and answers 0, and answers 1 and leaves a word that is not; UNLOCKW clears it. The answer is
in rd when the tag completes. Another word of CSM does not change. -/
def Sys2Proof.Claim.wordLocks : Prop :=
  ∀ (s : State) (t : Thr) (g : Gd) (rd ra rb : BitVec 5) (md : BitVec 8) (a p : Nat), Runs s t g →
    thrPart s t.toNat = some p → flag s (0x80040 + 4 * p) 0 = true →
    let c := ctxNow s t
    let tag := md.toNat / 32 % 4
    let cl := t.toNat / 128
    let m := csmWord s cl a
    let ref : CtxRef := ⟨false, t⟩
    mfind c.tags tag = none →
    (Grants s t (md.toNat % 8) { r := true, w := true } (c.g ra.toNat).toNat 1 1 a →
      ∃ u x, exec (.lockw t g rd ra rb md) s = .next u ∧ (thr u t.toNat).ctx.ev.getLsbD tag = false ∧
        (∀ k w, w < 262144 → csmWord u k w = if k = cl ∧ w = a ∧ m = 0
          then (if c.g rb.toNat = 0 then 1 else c.g rb.toNat) else csmWord s k w) ∧
        exec (.farAccessComplete ref tag false) u = .next x ∧ x.mem = u.mem ∧
        (thr x t.toNat).ctx.ev.getLsbD tag = true ∧
        ∀ r, (thr x t.toNat).ctx.g r = if r = rd.toNat ∧ r ≠ 0 then (if m = 0 then 0 else 1) else c.g r) ∧
    (Grants s t (md.toNat % 8) WriteNeed (c.g ra.toNat).toNat 1 1 a →
      ∃ u, exec (.unlockw t g rd ra rb md) s = .next u ∧ (thr u t.toNat).ctx.regs = c.regs ∧
        ∀ k w, w < 262144 → csmWord u k w = if k = cl ∧ w = a then 0 else csmWord s k w)

/-- 09 Table 09-7, R200: branches and multiply. B, BL and BR set PC, BL linking past its own bundle in G31; MUL forms the
72-bit product unsigned or signed, added to the preceding product with ACC, readable in MQ at the thread's second turn
(here: with no other result still to land). -/
def Sys2Proof.Claim.branchAndMultiply : Prop :=
  ∀ (s : State) (t : Thr) (g : Gd) (rd ra rb : BitVec 5) (md : BitVec 8) (target : BitVec 16), Runs s t g →
    let c := ctxNow s t
    let a := c.g ra.toNat
    let b := c.g rb.toNat
    let acc := if md.getLsbD 2 then c.macc.toNat else 0
    (∃ u, exec (.branch t g target) s = .next u ∧ Leaves s u t { c with pc := target } s.mem) ∧
    (∃ u, exec (.br t g rd ra rb md) s = .next u ∧ Leaves s u t { c with pc := BitVec.ofNat 16 a.toNat } s.mem) ∧
    (∃ u c', exec (.bl t g target) s = .next u ∧ Leaves s u t c' s.mem ∧ c' = { c with pc := target, regs := c'.regs } ∧
      ∀ r, c'.g r = if r = 31 then BitVec.ofNat 36 ((c.pc.toNat + 1) % 2 ^ 16) else c.g r) ∧
    (c.late = [] → ∀ v : BitVec 72,
      (md.toNat % 4 = 0 ∧ v.toNat = (a.toNat * b.toNat + acc) % 2 ^ 72) ∨
        (md.toNat % 4 = 1 ∧ v = BitVec.ofInt 72 (a.toInt * b.toInt + acc)) →
      ∃ u c', exec (.mul t g rd ra rb md) s = .next u ∧ Leaves s u t c' s.mem ∧
        c'.turn.mq = c.mq ∧ c'.turn.turn.mq = v ∧ c'.macc = v ∧
        c' = { c with pc := c.pc + 1, macc := c'.macc, late := c'.late })

/-- One bit step of a CRC register of width `w` (09 R201): reflected with the reversed polynomial, or not. -/
def Sys2Proof.Claim.crcBit (w : Nat) (refl : Bool) (k ca : Nat) : Nat :=
  if refl then (if ca % 2 = 1 then (ca / 2) ^^^ k else ca / 2)
  else if ca / 2 ^ (w - 1) % 2 = 1 then ((2 * ca) ^^^ k) % 2 ^ w else 2 * ca % 2 ^ w

/-- One octet into a CRC register: it is combined at the low end or at the high end, then eight bit steps. -/
def Sys2Proof.Claim.crcOctet (w : Nat) (refl : Bool) (k ca : Nat) (o : Octet) : Nat :=
  let c0 := if refl then ca ^^^ o.toNat else ca ^^^ (o.toNat * 2 ^ (w - 8))
  Nat.iterate (crcBit w refl k) 8 c0

/-- 09 R201, Tables 09-7 and 09-9: CRC feeds the low 1, 2 or 4 octets of ra, most significant first, into CA by the named
polynomial: CRC-32, CRC-32C, CRC-16/CCITT, or the logical core's own of CORE_CRCPOLY and CORE_CRCW. -/
def Sys2Proof.Claim.crcStep : Prop :=
  ∀ (s : State) (t : Thr) (g : Gd) (rd ra rb : BitVec 5) (md : BitVec 8) (w : Nat) (refl : Bool) (k : Nat), Runs s t g →
    md.toNat % 4 < 3 →
    let c := ctxNow s t
    let core := t.toNat / 16
    let poly := md.toNat / 4 % 4
    let wd := rdDev s (0x70600 + 4 * core)
    let p := rdDev s (0x70400 + 4 * core)
    (poly = 0 ∧ w = 32 ∧ refl = true ∧ k = 0xEDB88320) ∨ (poly = 1 ∧ w = 32 ∧ refl = true ∧ k = 0x82F63B78) ∨
      (poly = 2 ∧ w = 16 ∧ refl = false ∧ k = 0x1021) ∨
      (poly = 3 ∧ 7 ≤ wd % 32 ∧ w = wd % 32 + 1 ∧ refl = decide (wd / 32 % 2 = 1) ∧
        if refl then k < 2 ^ w ∧ ∀ i, i < w → k.testBit i = p.testBit (w - 1 - i) else k = p % 2 ^ w) →
    let n := 2 ^ (md.toNat % 4)
    let octets := (List.range n).map (octetOf (c.g ra.toNat).toNat n)
    let ca := octets.foldl (crcOctet w refl k) (c.ca.toNat % 2 ^ w)
    ∃ u, exec (.crc t g rd ra rb md) s = .next u ∧
      Leaves s u t { c with pc := c.pc + 1, ca := BitVec.ofNat 32 ca } s.mem

/-- 09 Table 09-8, Table 09-7: the special registers. MFSR reads each; MTSR writes MQL, MQH (in MQ and in the addend
of a later ACC multiply), CA, EV (clearing bits [35:4] that are one) and the selectors and leaves the others; TIME reads device TAI time within 10 ns. -/
def Obligations.SpecialRegisters : Prop :=
  ∀ (s : State) (t : Thr) (g : Gd) (rd ra rb : BitVec 5) (md : BitVec 8), Runs s t g →
    let c := ctxNow s t
    let a := c.g ra.toNat
    let n := md.toNat % 32
    (∀ v : W36, (n = 0 ∧ v = c.mq.truncate 36) ∨ (n = 1 ∧ v = (c.mq >>> 36).truncate 36) ∨
        (n = 2 ∧ v = BitVec.ofNat 36 c.ca.toNat) ∨ (n = 3 ∧ v = c.ev) ∨ (n = 4 ∧ v = c.pg) ∨ (n = 5 ∧ v = c.tk) ∨
        (n = 6 ∧ ∃ id x, thrTask s t.toNat = some id ∧ taskSt s id = some x ∧ v = BitVec.ofNat 36 x.eprio) ∨
        (n = 7 ∧ v = BitVec.ofNat 36 (t.toNat * 8)) ∨ (8 ≤ n ∧ n ≤ 15 ∧ v = BitVec.ofNat 36 (c.sel (n - 8))) →
      Answers (.mfsr t g rd ra rb md) s t [(rd.toNat, v)] []) ∧
    (∃ u c', exec (.mtsr t g rd ra rb md) s = .next u ∧ Leaves s u t c' s.mem ∧
      c' = { c with pc := c.pc + 1, mq := c'.mq, macc := c'.macc, ca := c'.ca, ev := c'.ev, sels := c'.sels } ∧
      c'.mq = (if n = 0 then BitVec.ofNat 72 (c.mq.toNat / 2 ^ 36 * 2 ^ 36 + a.toNat)
        else if n = 1 then BitVec.ofNat 72 (a.toNat * 2 ^ 36 + c.mq.toNat % 2 ^ 36) else c.mq) ∧
      c'.macc = (if n = 0 then BitVec.ofNat 72 (c.macc.toNat / 2 ^ 36 * 2 ^ 36 + a.toNat)
        else if n = 1 then BitVec.ofNat 72 (a.toNat * 2 ^ 36 + c.macc.toNat % 2 ^ 36) else c.macc) ∧ c'.ca = (if n = 2 then a.truncate 32 else c.ca) ∧
      c'.ev = (if n = 3 then c.ev &&& ~~~(a >>> 4 <<< 4) else c.ev) ∧
      ∀ k, k < 8 → c'.sel k = if n = 8 + k then a.toNat % 2 ^ 12 else c.sel k) ∧
    (∃ u c' d, exec (.readTime t g rd ra rb md) s = .next u ∧ d ≤ 20 ∧ (thr u t.toNat).ctx = c' ∧ u.mem = s.mem ∧
      u.tb = s.tb ∧ Wrote c c' [(rd.toNat, BitVec.ofInt 36 ((tai s : Int) + d - 10))] [])

/-- 09 R203, R194, Table 09-7, 10 R211: the microcoded instructions on ranges their segments grant, begun afresh (PG does not
name this bundle), free of poison, on a core whose match registers redirect nothing. A routine
runs in chunks of 512 octets, one at each command of its bundle, so that `n` octets take (n + 511) / 512 commands; PG is 0
and PC is past the bundle at the end. BMOVE copies as if through a temporary buffer, BFILL fills, CRCB runs the CRC over
the octets, XLATB translates in place through a table of words, LUHNX folds the digits of a range. -/
def Sys2Proof.Claim.microRoutines : Prop :=
  ∀ (s : State) (t : Thr) (g : Gd) (rd ra rb : BitVec 5) (md : BitVec 8) (sp a sq b p : Nat), Runs s t g →
    thrPart s t.toNat = some p →
    let c := ctxNow s t
    let n := (c.g rd.toNat).toNat
    let k := (n + 511) / 512
    let x := md.toNat % 8
    let y := md.toNat / 8 % 8
    (microStore s t.toNat).mregs = [] → c.pg.getLsbD 15 = false → c.late = [] →
    0 < n → n ≤ 16384 → s.mem.poison = [] → (sp = 3 ∨ sp = 4 ∨ sp = 6) → (sp = 6 → a + n ≤ 512) →
    (Grants s t x WriteNeed (c.g ra.toNat).toNat n sp a →
      (((sq = 3 ∨ sq = 4 ∨ sq = 6) ∧ Grants s t y ReadNeed (c.g rb.toNat).toNat n sq b) →
        ∃ u, Times (.bmove t g rd ra rb md) k s u ∧ (thr u t.toNat).ctx.pg = 0 ∧
          (thr u t.toNat).ctx.regs = c.regs ∧ (thr u t.toNat).ctx.pc = c.pc + 1 ∧ (thr u t.toNat).routine = none ∧
          ∀ q, (q = 4 ∨ q = 6) → ∀ i, (q = 6 → i < 512) → (q = 4 → NoRecord s i) → octetAt u t p q i =
            if (q = 6 ↔ sp = 6) ∧ a ≤ i ∧ i < a + n then octetAt s t p sq (b + (i - a)) else octetAt s t p q i) ∧
      (∃ u, Times (.bfill t g rd ra rb md) k s u ∧ (thr u t.toNat).ctx.pg = 0 ∧
          (thr u t.toNat).ctx.regs = c.regs ∧ (thr u t.toNat).ctx.pc = c.pc + 1 ∧ (thr u t.toNat).routine = none ∧
          ∀ q, (q = 4 ∨ q = 6) → ∀ i, (q = 6 → i < 512) → (q = 4 → NoRecord s i) → octetAt u t p q i =
            if (q = 6 ↔ sp = 6) ∧ a ≤ i ∧ i < a + n then BitVec.ofNat 8 (c.g rb.toNat).toNat else octetAt s t p q i)) ∧
    (Grants s t x ReadNeed (c.g ra.toNat).toNat n sp a → md.toNat / 8 % 4 = 0 →
      ∃ u, Times (.crcb t g rd ra rb md) k s u ∧ (thr u t.toNat).ctx.pg = 0 ∧ u.mem = s.mem ∧
        (thr u t.toNat).ctx.regs = c.regs ∧ (thr u t.toNat).ctx.pc = c.pc + 1 ∧
        (thr u t.toNat).ctx.ca.toNat = ((List.range n).map (fun i => octetAt s t p sp (a + i))).foldl
          (crcOctet 32 true 0xEDB88320) c.ca.toNat) ∧
    (Grants s t x { r := true, w := true } (c.g ra.toNat).toNat n sp a →
      (sq < 2 ∧ Grants s t y ReadNeed (c.g rb.toNat).toNat 64 sq b ∧ ∀ w, w < 64 → WordGood s t sq (b + w)) →
      ∃ u, Times (.xlatb t g rd ra rb md) k s u ∧ (thr u t.toNat).ctx.pg = 0 ∧ (thr u t.toNat).ctx.regs = c.regs ∧
        (thr u t.toNat).ctx.pc = c.pc + 1 ∧
        ∀ i, a ≤ i → i < a + n → (sp = 6 ∨ NoRecord s i) → octetAt u t p sp i =
          let e := (octetAt s t p sp i).toNat
          BitVec.ofNat 8 ((wordAt s t sq (b + e / 4)).toNat / 2 ^ (24 - 8 * (e % 4)))) ∧
    (let k := (c.g rb.toNat).toNat
     let size := if md.getLsbD 3 then (k + 1) / 2 else k
     let digit := fun i => (if md.getLsbD 3
       then (if i % 2 = 0 then (octetAt s t p sp (a + i / 2)).toNat / 16 else (octetAt s t p sp (a + i / 2)).toNat % 16)
       else (octetAt s t p sp (a + i)).toNat - 0x30)
     1 ≤ k → k ≤ 19 → Grants s t x ReadNeed (c.g ra.toNat).toNat size sp a →
     (md.getLsbD 3 = false → ∀ i, i < k → 0x30 ≤ (octetAt s t p sp (a + i)).toNat ∧ (octetAt s t p sp (a + i)).toNat ≤ 0x39) →
     (∀ i, i < k → digit i ≤ 9) →
     let st := ((List.range k).map (fun i => digit (k - 1 - i))).foldl luhnStep (0, false, false)
     ∃ u c', exec (.luhnx t g rd ra rb md) s = .next u ∧ (thr u t.toNat).ctx = c' ∧ u.mem = s.mem ∧ c'.pg = 0 ∧
       (∀ r, c'.g r = if r = rd.toNat ∧ r ≠ 0 then BitVec.ofNat 36 (st.1 + if st.2.1 then 16 else 0) else c.g r) ∧
       ∀ i, 0 < i → i < 8 → c'.pd i = if i = md.toNat / 16 % 8 then decide (st.1 = 0) else c.pd i)

/-- 10 R208, R209: the match registers and the sequencer. A fetch of a ROM address that a match register holds reads the
patch address of the lowest-numbered one, and any other fetch reads its own address; a routine whose microwords make a
sequencing error on a patched core raises doubt source 0x02 for the owner and goes no further; a microword says where the
next one is, and a fifth nested call, a return with no address left and the reserved codes 110 and 111 are errors. -/
def Sys2Proof.Claim.microSequencer : Prop :=
  (∀ (x : Patch) (a : Nat),
    (∀ i v, i < x.mregs.length → x.mregs[i]? = some (a, v) → (∀ j m, j < i → x.mregs[j]? = some m → m.1 ≠ a) → a < 0x2000 →
      x.redirect a = v) ∧
    ((0x2000 ≤ a ∨ ∀ m ∈ x.mregs, m.1 ≠ a) → x.redirect a = a) ∧
    (0x2200 ≤ a → x.word a = none)) ∧
  (∀ (w : BitVec 112) (a d : Nat) (st : List Nat),
    (microNext w a d st = none ↔ (mwSeq w = 3 ∧ 4 ≤ st.length) ∨ (mwSeq w = 4 ∧ st = []) ∨ 6 ≤ mwSeq w) ∧
    (mwSeq w = 0 → microNext w a d st = some (a + 1, st)) ∧
    (mwSeq w = 1 → microNext w a d st = some (mwTarget w, st)) ∧
    (mwSeq w = 3 → st.length < 4 → microNext w a d st = some (mwTarget w, (a + 1) :: st)) ∧
    (∀ r l, mwSeq w = 4 → st = r :: l → microNext w a d st = some (r, l))) ∧
  (∀ (s : State) (t : Thr) (p : MicroPlan) (pc : BitVec 16) (r : MicroRun) (done : Nat) (o : Nat),
    thrPart s t.toNat = some o → microSeq (microFetched s t.toNat) t.toNat r = none →
    let u := microChunk p t.toNat pc r done s
    u.mem = s.mem ∧ u.hkc.raised = s.hkc.raised ++ [(0x02, some o, t.toNat / 16)] ∧ (thr u t.toNat).routine = none)

/-- 09 R193-R196: the statement of window words, and the one of the TLV header. -/
def Obligations.WindowAccess : Prop :=
  Sys2Proof.Claim.windowWords ∧ Sys2Proof.Claim.tlvHeader

/-- 08 R171, R172, 11 R238: the statement of far loads, stores and moves, and the one of word locks. -/
def Obligations.FarAccessAndLocks : Prop :=
  Sys2Proof.Claim.farAccess ∧ Sys2Proof.Claim.wordLocks

/-- 09 R200, R201: the statement of branches and the multiplier, and the one of the CRC step. -/
def Obligations.BranchMultiplyCrc : Prop :=
  Sys2Proof.Claim.branchAndMultiply ∧ Sys2Proof.Claim.crcStep

/-- 09 R203, 10 R208-R211: the statement of the microcoded instructions, and the one of the sequencer and its match
registers. -/
def Obligations.Microcoded : Prop :=
  Sys2Proof.Claim.microRoutines ∧ Sys2Proof.Claim.microSequencer

namespace Sys2Proof.Claim

/-- Thread `t` runs task `id`, whose record is `x`, for partition `p`. -/
abbrev TaskOn (s : State) (t : Thr) (id : Nat) (x : TaskSt) (p : Nat) : Prop :=
  thrTask s t.toNat = some id ∧ taskSt s id = some x ∧ thrPart s t.toNat = some p ∧ x.part = p

/-- Ticket index `i` is in use by partition `p`, whole, complete in nothing and not passed, and `w` is its ticket word
(07 Table 07-1). -/
abbrev OpenTicket (s : State) (p i : Nat) (w : W36) : Prop :=
  i < 2 ^ 14 ∧ (ticket s i).inUse = true ∧ (ticket s i).dom < 4096 ∧ domOwner s (ticket s i).dom = some p ∧
    (ticket s i).part = p ∧ (ticket s i).subs = [] ∧ (ticket s i).res = none ∧ (ticket s i).passed = false ∧
    w.toNat = i + (ticket s i).gen.toNat * 2 ^ 14 + (ticket s i).dom * 2 ^ 22

/-- A ticket once thread `t` issues a bundle: the first bundle of a task is latency point 2 of its ticket (17 R362); the
rest of each ticket is as before. -/
abbrev ticketAt (s : State) (t : Thr) (i : Nat) : Ticket := ticket (firstBundle s t.toNat) i

/-- HLT_CNT `k` of partition `p` (07 Table 07-14). -/
def hltCount (s : State) (p k : Nat) : BitVec 64 := rdCnt s (0x60400 + p * 0x40 + k * 8)
/-- SCH_CNT `k` of partition `p`. -/
def schCount (s : State) (p k : Nat) : BitVec 64 := rdCnt s (0x60600 + p * 0x40 + k * 8)

/-- What an issued syllable without a result leaves of its thread's context: PC has moved past it. -/
abbrev Passed (s u : State) (t : Thr) : Prop :=
  (thr u t.toNat).ctx.pc = (ctxNow s t).pc + 1 ∧ (thr u t.toNat).ctx.regs = (ctxNow s t).regs ∧
    (thr u t.toNat).ctx.preds = (ctxNow s t).preds

end Sys2Proof.Claim

/-- 07 R136-R139, Table 07-2: completing an open ticket with DROP, DONE and HOST. DROP records a result of no output; DONE
and HOST take the buffer from the thread into the Halter's keeping and record length, destination and flags from the result
word, when the queue or the ring is the partition's. Completing is latency point 3 of the ticket (17 R362). Other tickets, the memories and the registers do not change. -/
def Sys2Proof.Claim.ticketEnds : Prop :=
  ∀ (s : State) (t : Thr) (g : Gd) (rd ra rb : BitVec 5) (md : BitVec 8) (id : Nat) (x : TaskSt) (p i : Nat), Runs s t g →
    TaskOn s t id x p →
    let c := ctxNow s t
    let a := (c.g rb.toNat).toNat
    let rw := (c.g rd.toNat).toNat
    let dest := rw / 2 ^ 15 % 4096
    OpenTicket s p i (c.g ra.toNat) →
    (∃ u, exec (.dropTicket t g rd ra rb md) s = .next u ∧ Passed s u t ∧ u.mem = s.mem ∧
      ticket u i = { ticketAt s t i with res := some { disp := .drop }, pts := mput (ticketAt s t i).pts 3 (tai s) } ∧
      (∀ j, j ≠ i → ticket u j = ticketAt s t j) ∧
      hltCount u p 2 = hltCount s p 2 + 1 ∧ u.buf = s.buf) ∧
    (ptrValid s a = true → (bufTag s a).alloc = true → (bufTag s a).owner = thrAgent t.toNat →
      ∀ (host : Bool), (if host then ringOwner s dest = some p else queueOwner s dest = some p) →
      ∃ u, exec (if host then .hostDone t g rd ra rb md else .doneTicket t g rd ra rb md) s = .next u ∧ Passed s u t ∧
        u.mem = s.mem ∧ (∀ j, j ≠ i → ticket u j = ticketAt s t j) ∧
        bufTag u a = { bufTag s a with owner := 0x8003 } ∧ (∀ b, b ≠ a → bufTag u b = bufTag s b) ∧
        ticket u i = { ticketAt s t i with pts := mput (ticketAt s t i).pts 3 (tai s), res := some {
          disp := if host then .host else .egress, buf := a, len := rw % 2 ^ 15, dest := dest, eflags := rw / 2 ^ 27 } } ∧
        ∃ y, taskSt u id = some y ∧ a ∉ y.hold)

/-- 07 R136: an operation on a ticket word that names no ticket in use completes nothing; the word counts as stale. -/
def Sys2Proof.Claim.staleTicket : Prop :=
  ∀ (s : State) (t : Thr) (g : Gd) (rd ra rb : BitVec 5) (md : BitVec 8) (p : Nat), Runs s t g →
    thrPart s t.toNat = some p →
    let w := ((ctxNow s t).g ra.toNat).toNat
    let k := ticket s (w % 2 ^ 14)
    (w / 2 ^ 34 ≠ 0 ∨ k.inUse = false ∨ w / 2 ^ 14 % 16 ≠ k.gen.toNat ∨ w / 2 ^ 22 % 4096 ≠ k.dom) →
    ∀ i ∈ [Instr.doneTicket t g rd ra rb md, .hostDone t g rd ra rb md, .dropTicket t g rd ra rb md,
        .deferTask t g rd ra rb md, .splitTicket t g rd ra rb md],
      ∃ u, exec i s = .next u ∧ Passed s u t ∧ (∀ j, ticket u j = ticketAt s t j) ∧ u.buf = s.buf ∧ u.mem = s.mem ∧
        hltCount u p 7 = hltCount s p 7 + 1

/-- 07 R133, R137, R140, R143, 09 R197: MOVE takes an open ticket of a packet to the tail of another domain under a new index,
SPLIT divides one into 2 to 8 sub-results, POST, with no earlier task
waiting for a ticket, issues a ticket for a new task on its partition's ready list; each result
word is readable at the thread's third turn. -/
def Obligations.TicketMoves : Prop :=
  ∀ (s : State) (t : Thr) (g : Gd) (rd ra rb : BitVec 5) (md : BitVec 8) (id : Nat) (x : TaskSt) (p i : Nat), Runs s t g →
    TaskOn s t id x p → rd.toNat ≠ 0 →
    let c := ctxNow s t
    let three := fun u : State => (thr u t.toNat).ctx.turn.turn.turn
    c.late = [] →
    (∀ dom, dom = (c.g rb.toNat).toNat % 4096 → OpenTicket s p i (c.g ra.toNat) → (ticket s i).item.kind ≠ 1 →
      flag s (0x68000 + 8 * dom) 0 = true → domOwner s dom = some p → dom ≠ (ticket s i).dom →
      ∃ u j, exec (.moveTicket t g rd ra rb md) s = .next u ∧ j < 2 ^ 14 ∧ (j = i ∨ (ticket s j).inUse = false) ∧
        domOrder u dom = domOrder s dom ++ [j] ∧ domOrder u (ticket s i).dom = (domOrder s (ticket s i).dom).filter (· ≠ i) ∧
        (ticket u j).inUse = true ∧ (ticket u j).dom = dom ∧ (ticket u j).item.buf = (ticket s i).item.buf ∧
        (ticket u j).deadline = (ticket s i).deadline ∧ (j ≠ i → (ticket u i).inUse = false) ∧
        (three u).g rd.toNat = ticketWord u j ∧ (three u).tk = ticketWord u j ∧
        (thr u t.toNat).ctx.turn.turn.g rd.toNat = c.g rd.toNat ∧ u.mem = s.mem) ∧
    (∀ n, n = (c.g rb.toNat).toNat → 2 ≤ n → n ≤ 8 → OpenTicket s p i (c.g ra.toNat) →
      ∃ u, exec (.splitTicket t g rd ra rb md) s = .next u ∧ (ticket u i).subs = List.replicate n {} ∧
        (∀ j, j ≠ i → ticket u j = ticketAt s t j) ∧ u.mem = s.mem ∧ hltCount u p 4 = hltCount s p 4 + 1 ∧
        ((three u).g rd.toNat).toNat = (c.g ra.toNat).toNat + 2 ^ 21 ∧
        (thr u t.toNat).ctx.turn.turn.g rd.toNat = c.g rd.toNat) ∧
    (∀ dom, dom = (c.g ra.toNat).toNat % 4096 → ra.toNat ≤ 28 → flag s (0x68000 + 8 * dom) 0 = true →
      domOwner s dom = some p → canIssue s p = true → issueHeads s = [] → (∃ j, j < 2 ^ 14 ∧ (ticket s j).inUse = false) →
      ∃ u j it dl, exec (.postTask t g rd ra rb md) s = .next u ∧ j < 2 ^ 14 ∧ (ticket s j).inUse = false ∧
        (ticket u j).inUse = true ∧ domOrder u dom = domOrder s dom ++ [j] ∧ (three u).g rd.toNat = ticketWord u j ∧
        u.hlt.ready = s.hlt.ready ++ [⟨p, (c.g ra.toNat).toNat / 2 ^ 12 % 16, .fresh (ticketWord u j) it dl⟩] ∧
        it.kind = 3 ∧ it.entry = (c.g ra.toNat).toNat / 2 ^ 16 % 2 ^ 16 ∧ it.buf = (c.g (ra.toNat + 1)).toNat ∧
        it.len = (c.g (ra.toNat + 2)).toNat ∧ it.arg = c.g (ra.toNat + 3) ∧ u.mem = s.mem)

/-- 07 R142, R152, 09 R198, 11 R245: what a task does to wait or to wake. GETWORK, with no helper outstanding, ends the task
and puts the thread at the tail of its waiters; DEFER takes the task off the thread to the delay list of its partition;
TIMER arms the thread's one timer; WAITEV completes when an event of its mask is set, clearing the ones it returns above
bit 3, and until then its bundle waits; SIGNAL sets events of another thread of the partition. -/
def Obligations.TaskWaits : Prop :=
  ∀ (s : State) (t : Thr) (g : Gd) (rd ra rb : BitVec 5) (md : BitVec 8) (id : Nat) (x : TaskSt) (p : Nat), Runs s t g →
    TaskOn s t id x p →
    let c := ctxNow s t
    let a := c.g ra.toNat
    let tickNs := 100 * max 1 (min 10000 (fld s 0x60000 13 0))
    let due := fun d => s.hlt.ticks + (s.now - s.hlt.ticksAt) / tickNs + max 1 (min d (2 ^ 24))
    (c.tags = [] → (∀ k w, w ∈ (lock s k).waiters → w.who ≠ .task id) → ∃ u, exec (.getwork t g rd ra rb md) s = .next u ∧ thrTask u t.toNat = none ∧ taskSt u id = none ∧
      (thr u t.toNat).mode = .getwork ∧ (thr u t.toNat).mask.toNat = a.toNat % 2 ^ 16 ∧
      u.hlt.waiters.getLast? = some t.toNat ∧ ∀ k, (lock u k).holder ≠ .task id) ∧
    (c.tags = [] → ∀ i, OpenTicket s p i a →
      ∃ u, exec (.deferTask t g rd ra rb md) s = .next u ∧ thrTask u t.toNat = none ∧ u.mem = s.mem ∧
        u.hlt.delays = s.hlt.delays ++ [⟨p, due (c.g rb.toNat).toNat, .redispatch id true⟩] ∧
        (∃ y, taskSt u id = some y ∧ y.loc = .deferred ∧ y.tkw = x.tkw) ∧ schCount u p 4 = schCount s p 4 + 1) ∧
    (∃ u, exec (.timerArm t g rd ra rb md) s = .next u ∧ Passed s u t ∧ u.mem = s.mem ∧ u.hlt.delays = s.hlt.delays ∧
      (thr u t.toNat).timer = if a.toNat % 2 ^ 25 = 0 then none else some ⟨due (a.toNat % 2 ^ 25), some id⟩) ∧
    (a = 0 ∨ c.ev &&& a ≠ 0 → ∃ u c', exec (.waitev t g rd ra rb md) s = .next u ∧ Leaves s u t c' s.mem ∧
      c' = { c with pc := c.pc + 1, regs := c'.regs, ev := c.ev &&& ~~~((c.ev &&& a) >>> 4 <<< 4) } ∧
      ∀ r, c'.g r = if r = rd.toNat ∧ r ≠ 0 then c.ev &&& a else c.g r) ∧
    (a ≠ 0 → c.ev &&& a = 0 → ∃ u, exec (.waitev t g rd ra rb md) s = .next u ∧ (thr u t.toNat).ctx = c ∧
      (thr u t.toNat).inWait = true ∧ u.mem = s.mem ∧ ∀ k, k ≠ t.toNat → thr u k = thr s k) ∧
    (∀ v : Thr, v ≠ t → a.toNat % 2 ^ 16 = v.toNat * 8 → thrPart s v.toNat = some p →
      ∃ u, exec (.signalEv t g rd ra rb md) s = .next u ∧ Passed s u t ∧ u.mem = s.mem ∧
        let signal := BitVec.ofNat 36 ((c.g rb.toNat).toNat % 2 ^ 20 * 2 ^ 16 + 2 ^ 8)
        (thr u v.toNat).ctx = { (thr s v.toNat).ctx with ev := (thr s v.toNat).ctx.ev ||| signal })

/-- 11 R227-R230: the locks of tasks. LOCK of a free lock by a cluster with the acquire right is granted at once: rd holds
the grant word, with the orphan and forced flags, EV[4] is set and the flags are cleared. LOCK of a lock another task holds
queues behind it. UNLOCK by the holder frees a lock without waiters. -/
def Obligations.TaskLocks : Prop :=
  ∀ (s : State) (t : Thr) (g : Gd) (rd ra rb : BitVec 5) (md : BitVec 8) (id : Nat) (x : TaskSt) (p : Nat), Runs s t g →
    TaskOn s t id x p → x.loc = .thread t.toNat →
    let c := ctxNow s t
    let k := (c.g ra.toNat).toNat % 2 ^ 14
    let l := lock s k
    let grp := 0x80800 + 32 * (k / 256)
    flag s grp 0 = true → flag s grp 1 = true → x.lockPend = none → l.waiters = [] →
    (flag s (grp + 4) (t.toNat / 128) = true → l.holder = .free →
      ∃ u, exec (.lockReq t g rd ra rb md) s = .next u ∧ (lock u k).holder = .task id ∧ (lock u k).orphan = false ∧
        (lock u k).forced = false ∧ (lock u k).since = tai s ∧ (thr u t.toNat).ctx.ev = c.ev ||| 0x10 ∧
        (∀ r, (thr u t.toNat).ctx.g r = if r = rd.toNat ∧ r ≠ 0
          then BitVec.ofNat 36 (1 + (if l.orphan then 2 else 0) + (if l.forced then 4 else 0)) else c.g r) ∧
        (∀ j, j ≠ k → lock u j = lock s j) ∧ u.mem = s.mem ∧
        rdCnt u (0x80400 + p * 0x40) = rdCnt s (0x80400 + p * 0x40) + 1) ∧
    (flag s (grp + 4) (t.toNat / 128) = true → ∀ h, h ≠ id → l.holder = .task h →
      ∃ u w, exec (.lockReq t g rd ra rb md) s = .next u ∧ (lock u k).holder = .task h ∧ (lock u k).waiters = [w] ∧
        w.who = .task id ∧ w.prio = x.eprio ∧ (thr u t.toNat).ctx.ev = c.ev ∧ Passed s u t ∧ u.mem = s.mem ∧
        ∃ y, taskSt u id = some y ∧ y.lockPend = some (k, rd.toNat)) ∧
    (l.holder = .task id → ∃ u, exec (.unlockReq t g rd ra rb md) s = .next u ∧ (lock u k).holder = .free ∧
      (lock u k).orphan = l.orphan ∧ (lock u k).forced = l.forced ∧ (lock u k).waiters = [] ∧ Passed s u t ∧ u.mem = s.mem)

/-- 11 R239-R243: channels between the tasks of a partition. CHOPEN reserves the lowest free slot and answers its handle at
the third turn; CHW writes a word of the reserved slot; CHPOST posts it in order; CHRD reads a word of the oldest posted
slot and CHNEXT frees that slot. No other slot changes. -/
def Obligations.Channels : Prop :=
  ∀ (s : State) (t : Thr) (g : Gd) (rd ra rb : BitVec 5) (md : BitVec 8) (id : Nat) (x : TaskSt) (p : Nat), Runs s t g →
    TaskOn s t id x p → rd.toNat ≠ 0 →
    let c := ctxNow s t
    let ch := (c.g ra.toNat).toNat % 4096
    let h := (c.g ra.toNat).toNat
    let slotOf := h % 4096 * 16 + h / 4096 % 16
    let w := md.toNat % 8
    c.late = [] → chanOwner s ch = some p → flag s (0x84000 + 4 * ch) 0 = true →
    (∀ k, k < 16 → (chSlot s (ch * 16 + k)).st = .free → (∀ j, j < k → (chSlot s (ch * 16 + j)).st ≠ .free) →
      ∃ u, exec (.chopen t g rd ra rb md) s = .next u ∧
        chSlot u (ch * 16 + k) = { st := .reserved id s.now, gen := (chSlot s (ch * 16 + k)).gen + 1 } ∧
        (∀ i, i ≠ ch * 16 + k → chSlot u i = chSlot s i) ∧ u.mem = s.mem ∧
        ((thr u t.toNat).ctx.turn.turn.turn.g rd.toNat).toNat =
          ch + k * 2 ^ 12 + ((chSlot s (ch * 16 + k)).gen + 1).toNat * 2 ^ 16) ∧
    (∀ since, (chSlot s slotOf).st = .reserved id since → (chSlot s slotOf).gen.toNat = h / 2 ^ 16 % 16 →
      (∃ u, exec (.chw t g rd ra rb md) s = .next u ∧ Passed s u t ∧
        (∀ v, mget 0 (chSlot u slotOf).words v = if v = w then c.g rb.toNat else mget 0 (chSlot s slotOf).words v) ∧
        (chSlot u slotOf).st = (chSlot s slotOf).st ∧ (∀ i, i ≠ slotOf → chSlot u i = chSlot s i) ∧ u.mem = s.mem) ∧
      (∃ u, exec (.chpost t g rd ra rb md) s = .next u ∧
        chSlot u slotOf = { chSlot s slotOf with st := .posted s.seq } ∧ s.seq < u.seq ∧
        (∀ i, i ≠ slotOf → chSlot u i = chSlot s i) ∧ u.mem = s.mem)) ∧
    (∀ k n, k < 16 → (chSlot s (ch * 16 + k)).st = .posted n →
      (∀ j m, j < 16 → (chSlot s (ch * 16 + j)).st = .posted m → j = k ∨ n < m) →
      (∃ u, exec (.chrd t g rd ra rb md) s = .next u ∧ (∀ i, chSlot u i = chSlot s i) ∧ u.mem = s.mem ∧
        (thr u t.toNat).ctx.turn.turn.turn.g rd.toNat = mget 0 (chSlot s (ch * 16 + k)).words w) ∧
      (∃ u, exec (.chnext t g rd ra rb md) s = .next u ∧ (chSlot u (ch * 16 + k)).st = .free ∧
        (chSlot u (ch * 16 + k)).gen = (chSlot s (ch * 16 + k)).gen ∧ u.mem = s.mem ∧
        ∀ i, i ≠ ch * 16 + k → chSlot u i = chSlot s i))

/-- 07 R136-R139: the statement of the commands that end a ticket, and the one of a ticket word that names none. -/
def Obligations.TicketCompletion : Prop :=
  Sys2Proof.Claim.ticketEnds ∧ Sys2Proof.Claim.staleTicket

namespace Sys2Proof.Claim

/-- A host command is carried out: its partition is neither in reset nor in Bolt, and its ring takes its opcode
(14 R306, R316; 16 R341). -/
abbrev Accepted (s : State) (c : CmdRef) (opc : Nat) : Prop :=
  inReset s c.part.toNat = false ∧ inBolt s c.part.toNat = false ∧ opcRefused s c opc = false

/-- Between `s` and `u` host command `c` completed: its ring's completion queue gained one entry (14 R309, Table 14-9). -/
def Completed (s u : State) (c : CmdRef) (opc status result len : Nat) : Prop :=
  ∃ e, (ringSt u (ringCq s c.ring.toNat)).compl = (ringSt s (ringCq s c.ring.toNat)).compl ++ [e] ∧
    e.status = status ∧ e.result = result ∧ e.len = len ∧ e.tag = c.tag.toNat ∧ e.slot = c.slot.toNat ∧
    e.ring = c.ring.toNat ∧ e.detail.head? = some (BitVec.ofNat 8 opc)

/-- The octet of partition `p`'s host memory at address `a`. -/
def hostOctet (s : State) (p a : Nat) : Octet := mget 0 s.mem.host (p * 2 ^ 64 + a % 2 ^ 64)

/-- `u`'s host memory is `s`'s with the octets `l` put at address `a` of partition `p`. -/
def HostPut (s u : State) (p a : Nat) (l : List Octet) : Prop :=
  ∀ q b, b < 2 ^ 64 → hostOctet u q b =
    if q = p ∧ (b + 2 ^ 64 - a) % 2 ^ 64 < l.length then l.getD ((b + 2 ^ 64 - a) % 2 ^ 64) 0 else hostOctet s q b

/-- Only host memory differs among the memories. -/
abbrev OnlyHost (s u : State) : Prop := u.mem = { s.mem with host := u.mem.host }

/-- No bit of Bolt or reset keeps partition `p` from service (16 R341, 14 R316). -/
abbrev InService (s : State) (p : Nat) : Prop := inReset s p = false ∧ inBolt s p = false

end Sys2Proof.Claim

/-- 07 R133, R134, R144: TICKET_ISSUE gives the head of a partition's issue queue a free index at the tail of its domain
and puts its task at the tail of the ready list of its priority, with its deadline, when earlier tasks of other partitions
leave it an index; while they leave it none, or its domain is not its partition's, the head waits and nothing changes. -/
def Obligations.TicketIssue : Prop :=
  ∀ (s : State) (p : BitVec 3) (it : Item) (rest : List Item), mget [] s.hlt.issueQ p.toNat = it :: rest →
    (domOwner s it.dom ≠ some p.toNat → exec (.ticketIssue p) s = .next s) ∧
    (freeTickets s ≤ olderClaims s p.toNat it.arr → exec (.ticketIssue p) s = .next s) ∧
    (InService s p.toNat → canIssue s p.toNat = true → domOwner s it.dom = some p.toNat →
      olderClaims s p.toNat it.arr < freeTickets s → (∃ j, j < 2 ^ 14 ∧ (ticket s j).inUse = false) →
    ∃ u j w, exec (.ticketIssue p) s = .next u ∧ j < 2 ^ 14 ∧ (ticket s j).inUse = false ∧ (ticket u j).inUse = true ∧
      (∀ k, k ≠ j → ticket u k = ticket s k) ∧ domOrder u it.dom = domOrder s it.dom ++ [j] ∧ w = ticketWord u j ∧
      (ticket u j).part = p.toNat ∧ (ticket u j).gen = (ticket s j).gen ∧
      (let d := hltDom s it.dom / 2 ^ 7 % 2 ^ 16
       (ticket u j).deadline = if d = 0 then 2 ^ 64 - 1 else it.t0 + 1000 * d) ∧
      u.hlt.ready = s.hlt.ready ++ [⟨p.toNat, it.prio, .fresh w it (ticket u j).deadline⟩] ∧
      hltCount u p.toNat 0 = hltCount s p.toNat 0 + 1 ∧ u.mem = s.mem ∧ u.thr = s.thr)

/-- 07 R148, R149, Table 07-5; 08 R164: DISPATCH gives the earliest task of the highest level to the thread that has
waited longest: its context is loaded, PC is the task's entry, the window holds its records and the front of its buffer. An
audited task is not dispatched before its input digest (13 R285). -/
def Obligations.Dispatch : Prop :=
  (∀ (s : State) (p : BitVec 3), (∀ e ∈ readyAll s p.toNat, digestDue s e = true) →
    ∃ u, exec (.dispatch p) s = .next u ∧ u.thr = s.thr ∧ u.hlt.ready = s.hlt.ready ∧ u.mem = s.mem) ∧
  ∀ (s : State) (p : BitVec 3) (w : W36) (it : Item) (dl level t : Nat) (more : List ReadyEnt) (ws : List Nat),
    InService s p.toNat → it.part = p.toNat → t < 2048 →
    readyOf s p.toNat = ⟨p.toNat, level, .fresh w it dl⟩ :: more → waitersOf s p.toNat = t :: ws →
    (thr s t).mask = 0 →
    ∃ u c, exec (.dispatch p) s = .next u ∧ (thr u t).ctx = c ∧ (thr u t).mode = .run ∧ c.task = some s.seq ∧
      c.pc.toNat = it.entry % 2 ^ 16 ∧ c.g 2 = w ∧ c.tk = w ∧ (c.g 1).toNat % 16 = it.kind % 16 ∧
      c.g 3 = BitVec.ofNat 36 it.buf ∧ c.g 4 = BitVec.ofNat 36 it.len ∧ c.g 5 = it.arg ∧ c.pg = 0 ∧ c.tags = [] ∧
      c.sel 6 = 0x800 ∧ c.sel 7 = 0x801 ∧
      (it.kind ≠ 3 → ∀ i, i < 384 → mget 0 c.win (128 + i) = if i < it.len then mget 0 s.mem.dev (it.buf + i) else 0) ∧
      (it.kind = 3 → ∀ i, i < 128 → mget 0 c.win i = 0) ∧
      u.hlt.ready = s.hlt.ready.erase ⟨p.toNat, level, .fresh w it dl⟩ ∧ t ∉ u.hlt.waiters ∧ u.mem = s.mem ∧
      (∀ k, k ≠ t → thr u k = thr s k) ∧ schCount u p.toNat 0 = schCount s p.toNat 0 + 1

/-- 07 R153, R154: PREEMPTION, enabled, with no thread that would take the ready task, takes the running task of the greatest
priority number among those that may be preempted off its thread: its context goes to the lowest free save slot of its core,
where its late results land, and it waits at the tail of its level; the thread waits for work. A routine that runs under
BOUNDARY is not cut (10 R216). -/
def Obligations.Preemption : Prop :=
  ∀ (s : State) (p : BitVec 3) (e : ReadyEnt) (t k id : Nat) (x : TaskSt), InService s p.toNat → t < 2048 →
    flag s (0x60040 + 4 * p.toNat) 12 = true → readyOf s p.toNat = [e] → waitersOf s p.toNat = [] →
    candidate s p.toNat t e = true → (thr s t).ctx.task = some id → taskSt s id = some x →
    (∀ v ∈ threadsOf s p.toNat, v ≠ t → candidate s p.toNat v e = true → ∀ y,
      (thr s v).ctx.task.bind (taskSt s) = some y → y.eprio < x.eprio) →
    freeSlot s (t / 16) = some k →
    (inBoundary s t = true → ∃ u, exec (.preemption p) s = .next u ∧ u.hlt.ready = s.hlt.ready ∧
      (thr u t).ctx = (thr s t).ctx ∧ (thr u t).mode = .run ∧ u.mem = s.mem) ∧
    (inBoundary s t = false →
    ∃ u, exec (.preemption p) s = .next u ∧ (∃ sv, slotSt u k = some sv ∧ sv.ctx = (thr s t).ctx.landAll ∧ sv.fault = none) ∧
      u.hlt.ready = s.hlt.ready ++ [⟨p.toNat, x.eprio, .saved k⟩] ∧ (thr u t).mode = .getwork ∧
      (thr u t).ctx.task = none ∧ u.hlt.waiters.getLast? = some t ∧ u.mem = s.mem ∧
      (∃ y, taskSt u id = some y ∧ y.loc = .slot k) ∧ schCount u p.toNat 1 = schCount s p.toNat 1 + 1)

/-- 07 R151, R152: when its time has come, DELAY_ENTRY_DUE moves the earliest entry of a partition to the tail of its ready
level, and TIMER_EXPIRY sets EV[7] of the task that armed the timer; before its time each changes nothing. -/
def Obligations.DelaysAndTimers : Prop :=
  ∀ (s : State) (p : BitVec 3) (t : Thr) (due id : Nat) (x : TaskSt) (d : DelayEnt),
    (inReset s p.toNat = false → s.hlt.delays = [d] → d.part = p.toNat → d.what = .redispatch id true →
      taskSt s id = some x →
      (d.due ≤ tickNow s → ∃ u, exec (.delayEntryDue p) s = .next u ∧ u.hlt.delays = [] ∧
        u.hlt.ready = s.hlt.ready ++ [⟨p.toNat, x.eprio, .redispatch id true⟩] ∧ u.mem = s.mem ∧ u.thr = s.thr) ∧
      (tickNow s < d.due → exec (.delayEntryDue p) s = .next s)) ∧
    ((thr s t.toNat).timer = some ⟨due, some id⟩ → taskSt s id = some x →
      (due ≤ tickNow s → x.loc = .thread t.toNat →
        ∃ u, exec (.timerExpiry t) s = .next u ∧ (thr u t.toNat).timer = none ∧ u.mem = s.mem ∧
          (thr u t.toNat).ctx = { (thr s t.toNat).ctx with ev := (thr s t.toNat).ctx.ev ||| 0x80 } ∧
          ∀ k, k ≠ t.toNat → thr u k = thr s k) ∧
      (due ≤ tickNow s → ∀ k sv, x.loc = .slot k → slotSt s k = some sv →
        ∃ u sv', exec (.timerExpiry t) s = .next u ∧ (thr u t.toNat).timer = none ∧ slotSt u k = some sv' ∧
          sv'.ctx = { sv.ctx with ev := sv.ctx.ev ||| 0x80 } ∧ (thr u t.toNat).ctx = (thr s t.toNat).ctx) ∧
      (tickNow s < due → exec (.timerExpiry t) s = .next s))

/-- 07 R135, R138, R145-R147: the head of a domain. TICKET_RELEASE releases a complete head whose item is a packet: an egress
result joins egress in order, and its index frees with the next GEN; an incomplete head releases nothing. LATENESS_CHECK
passes an incomplete head past its deadline under a policy of pass, which is latency point 4 of it (17 R362). DEADLINE_KILL raises the kill on the thread that runs
the task, once. -/
def Obligations.TicketHead : Prop :=
  ∀ (s : State) (dom : BitVec 12) (p i : Nat) (rest : List Nat), domOwner s dom.toNat = some p → InService s p →
    i < 2 ^ 14 → i ∉ rest → (∀ j ∈ rest, (ticket s j).passed = false) →
    domOrder s dom.toNat = i :: rest → (ticket s i).dom = dom.toNat → (ticket s i).part = p → (ticket s i).subs = [] →
    (ticket s i).passed = false → (ticket s i).item.kind ≠ 1 → (ticket s i).inUse = true →
    s.stf.conns = [] → s.gpl.waiting = [] → jnlEn s = false →
    let t := ticket s i
    let pol := hltDom s dom.toNat / 2 ^ 5 % 4
    let kill := hltDom s dom.toNat / 2 ^ 23 % 2 ^ 8
    (∀ r, t.res = some r → r.disp = .egress →
      ((mget [] s.egr.queues r.dest).filter (·.resultEnd)).length +
        (s.hlt.egressIn.filter (fun x => decide (releaseQueue s x.item x.res = r.dest))).length < maxDepth s r.dest →
      ∃ u x, exec (.ticketRelease dom) s = .next u ∧ u.hlt.egressIn = s.hlt.egressIn ++ [x] ∧ x.item = t.item ∧ x.res = r ∧
        x.ticket = ticketWord s i ∧ domOrder u dom.toNat = rest.filter (· ≠ i) ∧ (ticket u i).inUse = false ∧
        (ticket u i).gen = t.gen + 1 ∧ (∀ j, j ≠ i → ticket u j = ticket s j) ∧ u.mem = s.mem ∧
        hltCount u p 1 = hltCount s p 1 + 1) ∧
    (t.res = none → exec (.ticketRelease dom) s = .next s) ∧
    (t.res = none → t.deadline ≤ tai s → pol = 1 →
      ∃ u, exec (.latenessCheck dom) s = .next u ∧ ticket u i = { t with passed := true, passPolicy := 1, pts := mput t.pts 4 (tai s) } ∧
        (∀ j, j ≠ i → ticket u j = ticket s j) ∧ domOrder u dom.toNat = domOrder s dom.toNat ∧ u.mem = s.mem ∧
        hltCount u p 5 = hltCount s p 5 + 1) ∧
    (tai s < t.deadline → exec (.latenessCheck dom) s = .next s) ∧
    (t.res = none → t.killed = false → kill ≠ 0 → t.deadline + 1000 * kill ≤ tai s → ∀ id x th, t.task = some id →
      taskSt s id = some x → x.loc = .thread th → x.fault = none →
      ∃ u, exec (.deadlineKill (BitVec.ofNat 14 i)) s = .next u ∧ ticket u i = { t with killed := true } ∧
        (4, 0) ∈ (thr u th).async ∧ (thr u th).ctx = (thr s th).ctx ∧ u.mem = s.mem ∧ u.thr.slots = s.thr.slots)

/-- 07 R157, Table 07-8: the host's commands on the Halter. SCH_POST, with no earlier task waiting for a ticket, posts a task into a
domain of the partition and answers its ticket; HLT_FDROP of the supervisor completes an incomplete ticket as DROP and is refused to others; HLT_QUERY writes
the domain's 16 octets, the oldest ticket first, and answers BAD_DOMAIN for a domain that is disabled. -/
def Obligations.HalterCommands : Prop :=
  ∀ (s : State) (c : CmdRef) (dom : BitVec 16) (prio flags : BitVec 8) (entry : BitVec 16) (buf arg tk : BitVec 40)
    (len : BitVec 16) (addr : BitVec 64) (i : Nat),
    let p := c.part.toNat
    (Accepted s c 0x30 → dom.toNat < 4096 → flag s (0x68000 + 8 * dom.toNat) 0 = true → domOwner s dom.toNat = some p →
      canIssue s p = true → issueHeads s = [] → (∃ j, j < 2 ^ 14 ∧ (ticket s j).inUse = false) →
      ∃ u j it dl, exec (.schPost c dom prio flags entry 0 buf len arg) s = .next u ∧
        Completed s u c 0x30 0 (ticketWord u j).toNat 0 ∧ (ticket s j).inUse = false ∧ (ticket u j).inUse = true ∧
        domOrder u dom.toNat = domOrder s dom.toNat ++ [j] ∧ it.kind = 3 ∧ it.entry = entry.toNat ∧
        it.len = len.toNat ∧ it.buf = buf.toNat % 2 ^ 36 ∧
        u.hlt.ready = s.hlt.ready ++ [⟨p, prio.toNat % 16, .fresh (ticketWord u j) it dl⟩] ∧ u.mem = s.mem) ∧
    (Accepted s c 0x31 → isSup s p = true → OpenTicket s (ticket s i).part i (BitVec.ofNat 36 tk.toNat) →
      tk.toNat < 2 ^ 36 → ∃ u, exec (.hltFdrop c tk) s = .next u ∧ Completed s u c 0x31 0 0 0 ∧
        ticket u i = { ticket s i with res := some { disp := .drop }, pts := mput (ticket s i).pts 3 (tai s) } ∧ (∀ j, j ≠ i → ticket u j = ticket s j)) ∧
    (Accepted s c 0x31 → isSup s p = false →
      ∃ u, exec (.hltFdrop c tk) s = .next u ∧ Completed s u c 0x31 0x63 0 0 ∧ u.hlt = s.hlt) ∧
    (Accepted s c 0x32 → flag s (0x68000 + 8 * dom.toNat) 0 = false →
      ∃ u, exec (.hltQuery c dom addr) s = .next u ∧ Completed s u c 0x32 0x61 0 0 ∧ u.hlt = s.hlt ∧ u.mem = s.mem) ∧
    (Accepted s c 0x32 → dom.toNat < 4096 → flag s (0x68000 + 8 * dom.toNat) 0 = true →
      domOwner s dom.toNat = some p → hasHost s p = true →
      ∃ u l, exec (.hltQuery c dom addr) s = .next u ∧ Completed s u c 0x32 0 0 16 ∧ HostPut s u p addr.toNat l ∧
        OnlyHost s u ∧ l.length = 16 ∧ l.take 5 = beOctets 5 (((domOrder s dom.toNat).head?.map
          (fun i => (ticketWord s i).toNat)).getD (2 ^ 36 - 1)) ∧
        (l.drop 5).take 2 = beOctets 2 (domOrder s dom.toNat).length)

/-- 08 R170, R176, Table 08-11: the host's segment commands. SEG_WRITE of a partition's host writes a descriptor of its own
table over a range of CORE_MEMRNG, but none that meets the journal region (13 R292); SEG_PRESENT sets P, or clears it when no access is under way; SEG_READ writes the image
of the descriptor. No other descriptor changes. -/
def Obligations.SegmentCommands : Prop :=
  ∀ (s : State) (c : CmdRef) (part : BitVec 8) (index : BitVec 16) (desc : BitVec 128) (pv : BitVec 8) (addr : BitVec 64)
    (g : Seg) (lo hi n : Nat),
    let p := c.part.toNat
    let d := segEnt s p index.toNat
    isSup s p = false → index.toNat < 1024 →
    (Accepted s c 0x40 → g = ⟨desc.extractLsb' 96 32, desc.extractLsb' 64 32, desc.extractLsb' 32 32,
        (desc.extractLsb' 0 16).zeroExtend 32⟩ →
      g.w3.toNat / 16 % 8 = 4 → g.w3.getLsbD 10 = false → g.w3.toNat / 2 ^ 12 % 8 = p → g.w1.toNat < 16 →
      g.w0.toNat + g.w1.toNat * 2 ^ 32 = lo → lo + (g.w2.toNat + g.w3.toNat % 16 * 2 ^ 32) = hi → hi < 0x400000000 →
      n < 16 → memRange s p n = some (lo, hi) →
      (hi < jnlBase s ∨ jnlBase s + 2 ^ 30 ≤ lo →
        ∃ u, exec (.segWrite c part index desc) s = .next u ∧ Completed s u c 0x40 0 0 0 ∧
          (∀ q k, k < 1024 → segEnt u q k = if q = p ∧ k = index.toNat then g else segEnt s q k) ∧
          u.mem = { s.mem with segs := u.mem.segs }) ∧
      (jnlBase s ≤ hi → lo < jnlBase s + 2 ^ 30 →
        ∃ u, exec (.segWrite c part index desc) s = .next u ∧ Completed s u c 0x40 0x70 0 0 ∧ u.mem = s.mem)) ∧
    (Accepted s c 0x41 → (pv.getLsbD 0 = true ∨ segInFlight s p index.toNat s.now = false) →
      ∃ u, exec (.segPresent c part index pv) s = .next u ∧ Completed s u c 0x41 0 0 0 ∧
        (∀ q k, k < 1024 → ¬ (q = p ∧ k = index.toNat) → segEnt u q k = segEnt s q k) ∧
        (segEnt u p index.toNat).w3.getLsbD 7 = pv.getLsbD 0 ∧
        (∀ b, b < 32 → b ≠ 7 → (segEnt u p index.toNat).w3.getLsbD b = d.w3.getLsbD b) ∧
        (segEnt u p index.toNat).w0 = d.w0 ∧ (segEnt u p index.toNat).w1 = d.w1 ∧ (segEnt u p index.toNat).w2 = d.w2) ∧
    (Accepted s c 0x42 → hasHost s p = true →
      ∃ u, exec (.segRead c part index addr) s = .next u ∧ Completed s u c 0x42 0 0 16 ∧ OnlyHost s u ∧
        HostPut s u p addr.toNat (beOctets 4 d.w0.toNat ++ beOctets 4 d.w1.toNat ++ beOctets 4 d.w2.toNat ++
          beOctets 4 d.w3.toNat))

/-- 08 R174-R177, Table 08-11: a task's faults. ASYNC_FAULT takes the lowest pending kind at the thread's boundary, not
within a routine under BOUNDARY, and saves its context in a free slot; TASK_RESUME puts the saved task at the tail of its level; TASK_KILL and TASK_RETRY end its stay
in the slot; TASK_RECALL of the supervisor makes the RECALL fault pending. A FID that names no faulted task is refused. -/
def Obligations.TaskFaults : Prop :=
  ∀ (s : State) (t : Thr) (c : CmdRef) (fid agent : BitVec 16) (kind tag id k : Nat) (x : TaskSt) (sv : Saved)
    (more : List (Nat × Nat)),
    (thrStopped s t.toNat = false → (thr s t.toNat).halted = false → (thr s t.toNat).haltReq = false →
      (thr s t.toNat).mode = .run → inBoundary s t.toNat = false → (thr s t.toNat).async = (kind, tag) :: more → thrTask s t.toNat = some id →
      taskSt s id = some x → freeSlot s (t.toNat / 16) = some k → 1 ≤ kind → kind ≤ 5 →
      ∃ u sv f, exec (.asyncFault t) s = .next u ∧ slotSt u k = some sv ∧ sv.ctx = (thr s t.toNat).ctx.landAll ∧
        sv.fault = some f ∧ f.kind = kind ∧ f.time = tai s ∧ sv.async = more ∧ thrTask u t.toNat = none ∧
        (thr u t.toNat).mode = .getwork ∧ u.mem = s.mem) ∧
    (slotSt s k = some sv → k < 2048 → sv.ctx.task = some id → taskSt s id = some x → x.part = c.part.toNat →
      sv.fault.isSome = true → x.loc = .slot k → fid.toNat = k / 16 * 32 + k % 16 →
      (Accepted s c 0x43 → ∃ u y, exec (.taskResume c fid) s = .next u ∧ Completed s u c 0x43 0 0 0 ∧
        taskSt u id = some y ∧ y.fault = none ∧
        u.hlt.ready = s.hlt.ready ++ [⟨x.part, x.eprio, .saved k⟩] ∧ u.mem = s.mem) ∧
      (Accepted s c 0x44 → ticketDone s id = false → ∃ u y, exec (.taskRetry c fid) s = .next u ∧
        (∃ e, (ringSt u (ringCq s c.ring.toNat)).compl.getLast? = some e ∧ e.status = 0 ∧ e.slot = c.slot.toNat) ∧
        slotSt u k = none ∧ taskSt u id = some y ∧ y.fault = none ∧ y.loc = .deferred) ∧
      (Accepted s c 0x45 → ∃ u, exec (.taskKill c fid) s = .next u ∧
        (∃ e, (ringSt u (ringCq s c.ring.toNat)).compl.getLast? = some e ∧ e.status = 0 ∧ e.slot = c.slot.toNat) ∧
        slotSt u k = none ∧ taskSt u id = none)) ∧
    (fid.toNat / 16 % 2 = 0 → slotSt s (fid.toNat / 32 % 128 * 16 + fid.toNat % 16) = none →
      ∀ i ∈ [(0x43, Instr.taskResume c fid), (0x44, .taskRetry c fid), (0x45, .taskKill c fid)], Accepted s c i.1 →
        ∃ u, exec i.2 s = .next u ∧ Completed s u c i.1 0x72 0 0 ∧ u.thr = s.thr ∧ u.hlt = s.hlt) ∧
    (Accepted s c 0x46 → isSup s c.part.toNat = true → agent.toNat = t.toNat * 8 → thrTask s t.toNat = some id →
      (thr s t.toNat).mode = .run →
      ∃ u, exec (.taskRecall c agent) s = .next u ∧ Completed s u c 0x46 0 0 0 ∧ (5, 0) ∈ (thr u t.toNat).async ∧
        (thr u t.toNat).ctx = (thr s t.toNat).ctx ∧ u.mem = s.mem)

/-- 11 R229, R231, R234-R237: the host's lock commands and the two watchdogs. HSP_ACQUIRE of a free lock by a host with the
right is granted with the lock's flags; of a lock a task holds it waits, and its TIMEOUT withdraws it; HSP_RELEASE by the
holder frees a lock nobody waits for; HSP_QUERY writes the lock's 16 octets; LOCK_WATCHDOG reports a lock held past its
limit once; SLOT_HOLD_EXPIRY voids a reservation past its limit. -/
def Obligations.HostLocks : Prop :=
  ∀ (s : State) (c : CmdRef) (k : BitVec 16) (prio : BitVec 8) (timeout : BitVec 32) (addr : BitVec 64),
    let p := c.part.toNat
    let n := k.toNat
    let l := lock s n
    let grp := 0x80800 + 32 * (n / 256)
    let hold := rdDev s (grp + 16) % 2 ^ 20
    n < 16384 → flag s grp 0 = true → flag s grp 1 = true → flag s (grp + 4) (16 + p) = true → l.waiters = [] →
    (Accepted s c 0x50 → l.holder = .free →
      ∃ u, exec (.hspAcquire c k prio 0 timeout) s = .next u ∧ (lock u n).holder = .host p ∧ (lock u n).orphan = false ∧
        (lock u n).forced = false ∧ (∀ j, j ≠ n → lock u j = lock s j) ∧ u.mem = s.mem ∧ u.thr = s.thr ∧
        Completed s u c 0x50 0 (1 + (if l.orphan then 2 else 0) + (if l.forced then 4 else 0)) 0) ∧
    (Accepted s c 0x50 → ∀ id x, l.holder = .task id → taskSt s id = some x → hostWaiters s < 2048 → timeout ≠ 0 →
      ∃ u w, exec (.hspAcquire c k prio 0 timeout) s = .next u ∧ (lock u n).waiters = [w] ∧ w.who = .host c ∧
        w.prio = prio.toNat % 16 ∧ w.deadline = some (s.now + 1000 * timeout.toNat) ∧
        (lock u n).holder = l.holder ∧ u.gpl = s.gpl) ∧
    (Accepted s c 0x50 → ∀ j w d, hostWaitsOn s c = some (j, w) → w.deadline = some d →
      (s.now < d → exec (.acquireTimeout c) s = .next s) ∧
      (d ≤ s.now → ∃ u, exec (.acquireTimeout c) s = .next u ∧ Completed s u c 0x50 0x93 0 0 ∧
        (lock u j).holder = (lock s j).holder ∧ ∀ w' ∈ (lock u j).waiters, w'.who ≠ .host c)) ∧
    (Accepted s c 0x51 → l.holder = .host p →
      ∃ u, exec (.hspRelease c k 0) s = .next u ∧ (lock u n).holder = .free ∧ (lock u n).orphan = l.orphan ∧
        (∀ j, j ≠ n → lock u j = lock s j) ∧ u.mem = s.mem ∧ Completed s u c 0x51 0 0 0) ∧
    (Accepted s c 0x52 → hasHost s p = true → l.holder = .host p →
      ∃ u, exec (.hspQuery c k addr) s = .next u ∧ Completed s u c 0x52 0 0 16 ∧ OnlyHost s u ∧
        HostPut s u p addr.toNat (beOctets 1 (1 + (if l.orphan then 2 else 0) + (if l.forced then 4 else 0)) ++ [0xFF] ++
          beOctets 2 (0x4000 + p) ++ beOctets 2 0 ++ beOctets 2 0 ++ beOctets 8 l.since)) ∧
    (l.holder = .host p → l.reported = false → hold ≠ 0 → l.since + 1000 * hold < tai s →
      ∃ u, exec (.lockWatchdog (BitVec.ofNat 15 n)) s = .next u ∧ lock u n = { l with reported := true } ∧
        (∀ j, j ≠ n → lock u j = lock s j) ∧ exec (.lockWatchdog (BitVec.ofNat 15 n)) u = .next u ∧
        (s.gpl.svcq.length < 4096 → ∃ e, u.gpl.svcq = s.gpl.svcq ++ [e] ∧ e.code = 0x04)) ∧
    (∀ (ch : BitVec 12) (j : BitVec 4) (id since : Nat), (chSlot s (ch.toNat * 16 + j.toNat)).st = .reserved id since →
      let limit := 1000000 * max 1 (min 1000 (fld s 0x80000 9 0))
      (s.now < since + limit → exec (.slotHoldExpiry ch j) s = .next s) ∧
      (since + limit ≤ s.now → ∃ u, exec (.slotHoldExpiry ch j) s = .next u ∧
        chSlot u (ch.toNat * 16 + j.toNat) = { gen := (chSlot s (ch.toNat * 16 + j.toNat)).gen } ∧
        (∀ i, i ≠ ch.toNat * 16 + j.toNat → chSlot u i = chSlot s i) ∧ u.mem = s.mem))

namespace Sys2Proof.Claim

/-- Pool `k` serves partition `p`: enabled with a count, owned by it, and a fixed-size pool clear of poison and of tags in
error (12 R248, R250). -/
def PoolFor (s : State) (k p : Nat) : Prop :=
  k < 64 ∧ poolLive s k = true ∧ poolOwner s k = some p ∧ poolRun s k = false ∧ s.mem.poison = [] ∧ s.buf.badTags = []

/-- BUF_CNT `k` of partition `p` (12 Table 12-10). -/
def bufCount (s : State) (p k : Nat) : BitVec 64 := rdCnt s (0x90800 + p * 0x40 + k * 8)

end Sys2Proof.Claim

/-- 12 R251-R257, Table 12-2: the buffer operations of a host. ALLOC hands the lowest-addressed free buffer of a pool to the
host while more than the reserve is free; SHARE and DROP count shares; GIVE hands the buffer over; FREE returns it; each
completes with its status, and no other tag changes. BUF_QUERY writes the tag; BUF_RECLAIM of the supervisor frees it. -/
def Sys2Proof.Claim.bufferCommands : Prop :=
  ∀ (s : State) (c : CmdRef) (k : Nat) (prio pool : BitVec 8) (a : Nat) (ptr : BitVec 40) (agent : BitVec 16)
    (addr : BitVec 64),
    let p := c.part.toNat
    let me := 0x4000 + p
    let t := bufTag s a
    (Accepted s c 0x60 → pool.toNat = k → PoolFor s k p → poolReserve s k < poolFree s k → findBuf s k = some a →
      ∃ u, exec (.bufAlloc (.host c) pool prio 0) s = .next u ∧ Completed s u c 0x60 0 a 0 ∧
        bufTag u a = { owner := me, alloc := true } ∧ (∀ b, b ≠ a → bufTag u b = bufTag s b) ∧ u.mem = s.mem ∧
        bufCount u p 0 = bufCount s p 0 + 1) ∧
    (ptr.toNat % 2 ^ 36 = a → ptrCheck s a = (.ok k, s) → t.alloc = true → t.owner = me →
      (Accepted s c 0x60 → t.shares < 4095 →
        ∃ u, exec (.bufShare (.host c) ptr) s = .next u ∧ Completed s u c 0x60 0 a 0 ∧
          bufTag u a = { t with shares := t.shares + 1 } ∧ (∀ b, b ≠ a → bufTag u b = bufTag s b) ∧ u.mem = s.mem) ∧
      (Accepted s c 0x60 → 0 < t.shares →
        ∃ u, exec (.bufDrop (.host c) ptr) s = .next u ∧ Completed s u c 0x60 0 a 0 ∧
          bufTag u a = { t with shares := t.shares - 1 } ∧ (∀ b, b ≠ a → bufTag u b = bufTag s b) ∧ u.mem = s.mem) ∧
      (Accepted s c 0x60 → t.shares = 0 → t.origin = none →
        ∃ u, exec (.bufFree (.host c) ptr) s = .next u ∧ Completed s u c 0x60 0 a 0 ∧ bufTag u a = { quar := t.quar } ∧
          (∀ b, b ≠ a → bufTag u b = bufTag s b) ∧ u.mem = s.mem) ∧
      (Accepted s c 0x60 → agent.toNat = 0x8006 →
        ∃ u, exec (.bufGive (.host c) ptr agent) s = .next u ∧ Completed s u c 0x60 0 a 0 ∧
          bufTag u a = { t with owner := agent.toNat } ∧ (∀ b, b ≠ a → bufTag u b = bufTag s b) ∧ u.mem = s.mem) ∧
      (Accepted s c 0x62 → hasHost s p = true →
        ∃ u, exec (.bufQuery c ptr addr) s = .next u ∧ Completed s u c 0x62 0 0 8 ∧ OnlyHost s u ∧ u.buf = s.buf ∧
          HostPut s u p addr.toNat (beOctets 8 (t.owner + t.shares * 2 ^ 16 + t.run * 2 ^ 28 + 2 ^ 34 +
            if t.quar then 2 ^ 35 else 0))) ∧
      (Accepted s c 0x61 → isSup s p = true → t.origin = none →
        ∃ u, exec (.bufReclaim c ptr) s = .next u ∧ Completed s u c 0x61 0 0 0 ∧ bufTag u a = { quar := t.quar } ∧
          (∀ b, b ≠ a → bufTag u b = bufTag s b) ∧ ∀ id x, taskSt u id = some x → a ∉ x.hold)) ∧
    (Accepted s c 0x61 → isSup s p = false →
      ∃ u, exec (.bufReclaim c ptr) s = .next u ∧ Completed s u c 0x61 0xAA 0 0 ∧ u.buf = s.buf)

/-- 08 R172, 09 Table 09-6, 12 R253: a thread's buffer operation waits on its tag, and rd receives the pointer when
HELPER_COMPLETION delivers it: ALLOC enters the buffer in the task's hold list, FREE of a held one takes it out. -/
def Sys2Proof.Claim.threadBuffers : Prop :=
  ∀ (s : State) (t : Thr) (tag : BitVec 2) (rd : BitVec 5) (k : Nat) (prio pool : BitVec 8) (id : Nat) (x : TaskSt)
    (p a : Nat) (ptr : BitVec 40), Runs s t 0 → TaskOn s t id x p → mfind (ctxNow s t).tags tag.toNat = none →
    let c := ctxNow s t
    let me := t.toNat * 8
    let b := bufTag s a
    (pool.toNat = k → PoolFor s k p → poolReserve s k < poolFree s k → findBuf s k = some a → x.hold.length < 8 → a < 2 ^ 36 →
      ∃ u v, exec (.bufAlloc (.thread t tag rd) pool prio 0) s = .next u ∧ bufTag u a = { owner := me, alloc := true } ∧
        (thr u t.toNat).ctx.ev.getLsbD tag.toNat = false ∧ (∃ y, taskSt u id = some y ∧ y.hold = x.hold ++ [a]) ∧
        exec (.helperCompletion ⟨false, t⟩ tag) u = .next v ∧ (thr v t.toNat).ctx.ev.getLsbD tag.toNat = true ∧
        (∀ r, (thr v t.toNat).ctx.g r = if r = rd.toNat ∧ r ≠ 0 then BitVec.ofNat 36 a else c.g r) ∧ v.mem = s.mem) ∧
    (ptr.toNat % 2 ^ 36 = a → ptrCheck s a = (.ok k, s) → b.alloc = true → b.owner = me → b.shares = 0 → b.origin = none →
      ∃ u v, exec (.bufFree (.thread t tag rd) ptr) s = .next u ∧ (bufTag u a).alloc = false ∧
        (∃ y, taskSt u id = some y ∧ a ∉ y.hold) ∧ (∀ j, j ≠ a → bufTag u j = bufTag s j) ∧
        exec (.helperCompletion ⟨false, t⟩ tag) u = .next v ∧
        ∀ r, (thr v t.toNat).ctx.g r = if r = rd.toNat ∧ r ≠ 0 then 0 else c.g r)

/-- 12 R251-R257: the statement of the host buffer commands, and the one of the thread buffer operations. -/
def Obligations.BufferMachine : Prop :=
  Sys2Proof.Claim.bufferCommands ∧ Sys2Proof.Claim.threadBuffers

namespace Sys2Proof.Claim

/-- What no command on the search array changes: memory, threads, the Halter, the tables and the buffers. -/
abbrev NoneElse (s u : State) : Prop := u.mem = s.mem ∧ u.thr = s.thr ∧ u.hlt = s.hlt ∧ u.tbl = s.tbl ∧ u.buf = s.buf

end Sys2Proof.Claim

/-- 05 R89-R94, R101, Table 05-2: the host's commands on the search array. SRC_INSERT into a bank of the partition with room
adds one entry, its key masked, under a free handle index, after every entry of a priority value up to its own and before
every greater one, and moves no entry to another bank; SRC_SETAD replaces the associated data of the entry a handle names and
SRC_DELETE removes it, its generation advancing; SRC_READ writes its image; SRC_FLUSH, once no earlier command waits for the
bank, empties it and answers how many it held. A handle of no entry answers BAD_HANDLE. -/
def Sys2Proof.Claim.searchEntries : Prop :=
  ∀ (s : State) (c : CmdRef) (bank : BitVec 8) (addr raddr : BitVec 64) (handle : BitVec 32) (ad : BitVec 128) (k : Nat)
    (e : SEntry),
    let p := c.part.toNat
    let b := bank.toNat
    let w := bankOctets s b
    let img := hostRead s p addr.toNat (20 + 2 * w)
    (Accepted s c 0x10 → bankOk s p b = true → rebalDue s b = false → mrising s.src.ents = true →
      fullGroup (bankEnts s b) (bankSlots s b) (holeInt s b) = none → (∀ j g, (j, g) ∈ bankEnts s b → j < bankSlots s b) →
      s.src.ents.length < 2 ^ 18 → (bankEnts s b).length < bankSlots s b - bankSlots s b / holeInt s b →
      ∃ u f h, exec (.srcInsert c bank addr) s = .next u ∧ Completed s u c 0x10 0 h 0 ∧
        f.prio = beNat (img.take 4) ∧ f.ad = beNat ((img.drop 4).take 16) ∧ f.m = beNat (img.drop (20 + w)) ∧
        f.v = beNat ((img.drop 20).take w) &&& f.m ∧ (∀ j g, (j, g) ∈ s.src.ents → g.index ≠ f.index) ∧
        h = (handleGen s f.index).toNat * 2 ^ 18 + f.index ∧
        ((bankEnts u b).map (·.2)).Perm (f :: (bankEnts s b).map (·.2)) ∧
        (((bankEnts s b).map (·.2)).Pairwise (fun x y => x.prio ≤ y.prio) →
          (bankEnts u b).map (·.2) = ((bankEnts s b).map (·.2)).filter (fun x => decide (x.prio ≤ f.prio)) ++
            f :: ((bankEnts s b).map (·.2)).filter (fun x => decide (f.prio < x.prio))) ∧
        (∀ b', b' ≠ b → bankEnts u b' = bankEnts s b') ∧ NoneElse s u) ∧
    (handle.toNat < 2 ^ 22 → findHandle s handle.toNat = some (k, e) → bankOwner s (k / 4096) = some p →
      (Accepted s c 0x12 → ∃ u, exec (.srcSetad (.host c) handle ad raddr) s = .next u ∧ Completed s u c 0x12 0 0 0 ∧
        mfind u.src.ents k = some { e with ad := ad.toNat, bad := false } ∧
        (∀ j, j ≠ k → mfind u.src.ents j = mfind s.src.ents j) ∧ NoneElse s u) ∧
      (Accepted s c 0x11 → ∃ u, exec (.srcDelete c handle) s = .next u ∧ Completed s u c 0x11 0 0 0 ∧
        mfind u.src.ents k = none ∧ (∀ j, j ≠ k → mfind u.src.ents j = mfind s.src.ents j) ∧
        handleGen u e.index = handleGen s e.index + 1 ∧ NoneElse s u) ∧
      (Accepted s c 0x13 → hasHost s p = true → ∃ u, exec (.srcRead c handle addr) s = .next u ∧
        Completed s u c 0x13 0 0 (24 + 2 * bankOctets s (k / 4096)) ∧ OnlyHost s u ∧ u.src = s.src ∧
        HostPut s u p addr.toNat (beOctets 4 e.prio ++ beOctets 16 e.ad ++ beOctets (bankOctets s (k / 4096)) e.v ++
          beOctets (bankOctets s (k / 4096)) e.m ++ beOctets 4 k))) ∧
    (findHandle s handle.toNat = none → ∀ i ∈ [(0x11, Instr.srcDelete c handle), (0x12, .srcSetad (.host c) handle ad raddr),
        (0x13, .srcRead c handle addr)], Accepted s c i.1 →
      ∃ u, exec i.2 s = .next u ∧ Completed s u c i.1 0x42 0 0 ∧ u.src = s.src ∧ u.mem = s.mem) ∧
    (Accepted s c 0x15 → bankOk s p b = true → s.gpl.waiting.any (waitsBank b) = true →
      ∃ u, exec (.srcFlush c bank) s = .next u ∧ u.src = s.src ∧
        u.gpl = { s.gpl with waiting := s.gpl.waiting ++ [⟨c, s.now, .srcFlush b⟩] } ∧ NoneElse s u) ∧
    (Accepted s c 0x15 → bankOk s p b = true → s.gpl.waiting.any (waitsBank b) = false →
      ∃ u, exec (.srcFlush c bank) s = .next u ∧ Completed s u c 0x15 0 (bankEnts s b).length 0 ∧
        (∀ j, j / 4096 = b → mfind u.src.ents j = none) ∧
        (∀ j, j / 4096 ≠ b → mfind u.src.ents j = mfind s.src.ents j) ∧ NoneElse s u)

/-- 05 R89, R94, R97, R99, R105: the searches and the array's own work complete. SRC_SEARCH of a host, with a profile of its
partition, answers a record of 32 octets and leaves the array as it was; a thread's takes its tag until its helper completes;
REBALANCE of a bank that is due ends its wait; SEARCH_SCRUB answers for each of its findings. -/
def Sys2Proof.Claim.searchCompletes : Prop :=
  (∀ (s : State) (c : CmdRef) (prof : BitVec 8) (kaddr raddr : BitVec 64),
    let p := c.part.toNat
    Accepted s c 0x14 → hasHost s p = true → profOk s p prof.toNat = true → (∀ e ∈ s.src.ents, e.2.bad = false) →
    ∃ u l, exec (.srcSearch (.host c) prof kaddr raddr) s = .next u ∧ Completed s u c 0x14 0 0 32 ∧ l.length = 32 ∧
      HostPut s u p raddr.toNat l ∧ OnlyHost s u ∧ u.src = s.src) ∧
  (∀ (s : State) (t : Thr) (tag : BitVec 2) (rd : BitVec 5) (prof : BitVec 8) (kaddr raddr : BitVec 64) (p : Nat),
    Runs s t 0 → thrPart s t.toNat = some p → profOk s p prof.toNat = true → (∀ e ∈ s.src.ents, e.2.bad = false) →
    mfind (ctxNow s t).tags tag.toNat = none → kaddr.toNat + profOctets s prof.toNat ≤ 512 → raddr.toNat + 32 ≤ 512 →
    ∃ u x, exec (.srcSearch (.thread t tag rd) prof kaddr raddr) s = .next u ∧
      (thr u t.toNat).ctx.ev.getLsbD tag.toNat = false ∧ mfind (thr u t.toNat).ctx.tags tag.toNat = some x ∧
      x.search = some (prof.toNat, s.seq) ∧ u.src = s.src ∧ u.mem = s.mem) ∧
  (∀ (s : State) (bank : BitVec 6), rebalDue s bank.toNat = true → s.gpl.waiting = [] →
    ∃ u, exec (.rebalance bank) s = .next u ∧ rebalDue u bank.toNat = false ∧ u.mem = s.mem ∧ u.thr = s.thr) ∧
  (∀ (s : State) (bank : BitVec 6) (slot : BitVec 12) (found : ScrubFind),
    ∃ u, exec (.searchScrub bank slot found) s = .next u ∧
      ((found = .clean ∨ mfind s.src.ents (bank.toNat * 4096 + slot.toNat) = none) → u = s))

/-- 05 R89-R105: the statement of the host's commands on entries, and the one that searches, rebalances and scrubs complete. -/
def Obligations.SearchCommands : Prop :=
  Sys2Proof.Claim.searchEntries ∧ Sys2Proof.Claim.searchCompletes

/-- 05 R89, R97, R98: SRC_SEARCH of the partition's profile searches its enabled banks of the profile's width that the mask
names. An entry matches when its masked key bits agree; the record gives the matching entry of the lowest location, whether
one and whether two matched, and the count; without a match it is all zero but for the flags. -/
def Sys2Proof.Claim.searchLookup : Prop :=
  ∀ (s : State) (c : CmdRef) (prof : BitVec 8) (kaddr raddr : BitVec 64),
    let p := c.part.toNat
    let n := prof.toNat
    let key := beNat (hostRead s p kaddr.toNat (profOctets s n))
    let inMask := fun b => (profWord s n 1 + profWord s n 2 * 2 ^ 32) / 2 ^ b % 2 = 1
    let searched := fun j => inMask (j / 4096) ∧ bankOk s p (j / 4096) = true ∧
      widthCode (srcBank s (j / 4096)) = widthCode (profWord s n 0)
    let hit := fun j => ∃ e, mfind s.src.ents j = some e ∧ searched j ∧ (key ^^^ e.v) &&& e.m = 0
    Accepted s c 0x14 → hasHost s p = true → mrising s.src.ents = true → profOk s p n = true →
    (∀ b, inMask b → b < 64 → searched (b * 4096)) →
    ((∀ j, ¬ hit j) → ∃ u, exec (.srcSearch (.host c) prof kaddr raddr) s = .next u ∧ Completed s u c 0x14 0 0 32 ∧
      OnlyHost s u ∧ HostPut s u p raddr.toNat (zeros 32) ∧ u.src = s.src) ∧
    (∀ j e, hit j → (∀ j', hit j' → j ≤ j') → mfind s.src.ents j = some e → e.bad = false →
      ∃ u l, exec (.srcSearch (.host c) prof kaddr raddr) s = .next u ∧ Completed s u c 0x14 0 0 32 ∧ OnlyHost s u ∧
        HostPut s u p raddr.toNat l ∧ u.src = s.src ∧ l.length = 32 ∧ l.drop 4 = beOctets 4 (handleOf s e) ++ beOctets 4 j ++
          beOctets 4 e.prio ++ beOctets 16 e.ad ∧ (l.getD 1 0).getLsbD 0 = true ∧
        ((l.getD 1 0).getLsbD 1 = true ↔ ∃ j', j' ≠ j ∧ hit j'))

/-- 05 R94, R104, R105: the search array's own work. REBALANCE of a bank that is due for it keeps its entries and their
order and frees waiting insertions; SEARCH_SCRUB counts a corrected error, an uncorrectable entry is deleted and puts the
bank's owner into Bolt, and an error that comes up behind the visit leaves the entry's data bad until it is written; a bank
without an entry at the slot, or not due, is left as it was. -/
def Sys2Proof.Claim.searchMaintenance : Prop :=
  ∀ (s : State) (bank : BitVec 6) (slot : BitVec 12) (e : SEntry),
    let b := bank.toNat
    let k := b * 4096 + slot.toNat
    (rebalDue s b = false → exec (.rebalance bank) s = .next s) ∧
    (rebalDue s b = true → mrising s.src.ents = true → s.gpl.waiting = [] →
      ∃ u, exec (.rebalance bank) s = .next u ∧ rebalDue u b = false ∧ (bankEnts u b).map (·.2) = (bankEnts s b).map (·.2) ∧
        (∀ b', b' ≠ b → bankEnts u b' = bankEnts s b') ∧ u.mem = s.mem ∧ u.gpl = s.gpl) ∧
    exec (.searchScrub bank slot .clean) s = .next s ∧
    (mfind s.src.ents k = some e →
      (∃ u, exec (.searchScrub bank slot .correctable) s = .next u ∧ u.src = s.src ∧
        rdDev u (0x41200 + 4 * b) = min 65535 (rdDev s (0x41200 + 4 * b) + 1)) ∧
      (∃ u, exec (.searchScrub bank slot .missed) s = .next u ∧ mfind u.src.ents k = some { e with bad := true } ∧
        (∀ j, j ≠ k → mfind u.src.ents j = mfind s.src.ents j) ∧ NoneElse s u) ∧
      (∀ q, bankOwner s b = some q → ∃ u, exec (.searchScrub bank slot .uncorrectable) s = .next u ∧
        mfind u.src.ents k = none ∧ (∀ j, j ≠ k → mfind u.src.ents j = mfind s.src.ents j) ∧ inBolt u q = true))

/-- 05 R89-R105: the statement of search lookups, and the one of search maintenance. -/
def Obligations.SearchMachine : Prop :=
  Sys2Proof.Claim.searchLookup ∧ Sys2Proof.Claim.searchMaintenance

/-- 06 R111, R125-R127, Tables 06-7 and 06-8: the table commands of a host on a flow key, in a request block of host memory.
LOOKUP answers the entry's data or NOT_FOUND; INSERT adds an absent key and refuses a present one with EXISTS; UPDATE and
INSERT_OR_UPDATE replace its data; DELETE and DELETE_IF_DATA (with equal data) remove it, and other data leave it. No other
entry changes. TBL_EXEC runs the operation its block names. -/
def Sys2Proof.Claim.tableCommands : Prop :=
  ∀ (s : State) (c : CmdRef) (addr : BitVec 64) (i : Nat) (e : FlowEnt) (v : TView),
    let p := c.part.toNat
    let blk := hostRead s p addr.toNat 64
    let key := (blk.drop 4).take 40
    let data := blk.drop 44
    let k := TKey.flow key
    let answer := fun (u : State) (st : Nat) => Completed s u c 0x01 st 0 64 ∧ OnlyHost s u ∧
      hostOctet u p addr.toNat = BitVec.ofNat 8 st
    let only := fun (u : State) => u.tbl = { s.tbl with flow := u.tbl.flow } ∧
      ∀ j, j ≠ i → mfind u.tbl.flow j = mfind s.tbl.flow j
    Accepted s c 0x01 → hasHost s p = true → flag s 0x50000 0 = true → tblPoison s p k = false → oct blk 1 = 0 →
    oct blk 3 = 0 →
    (∀ o j, (o, j) ∈ [(1, Instr.insertEntry (.host c) addr), (2, .updateEntry (.host c) addr),
        (3, .deleteEntry (.host c) addr), (4, .lookupEntry (.host c) addr), (5, .insertOrUpdate (.host c) addr),
        (6, .deleteIfData (.host c) addr)] → oct blk 0 = o → exec (.tblExec c addr) s = exec j s) ∧
    (tFind s p k = none →
      (∀ j ∈ [Instr.updateEntry (.host c) addr, .deleteEntry (.host c) addr, .lookupEntry (.host c) addr,
          .deleteIfData (.host c) addr], ∃ u, exec j s = .next u ∧ answer u 0x50 ∧ u.tbl = s.tbl) ∧
      (overQuota s p k = false → ∀ n, placeSlot s.tbl.flow (k.buckets s p).1 (k.buckets s p).2 = some n →
        ∀ j ∈ [Instr.insertEntry (.host c) addr, .insertOrUpdate (.host c) addr], ∃ u w, exec j s = .next u ∧ answer u 0 ∧
          tFind u p k = some w ∧ w.data = data ∧ w.index = n ∧
          (∀ m, m ≠ n → mfind u.tbl.flow m = mfind s.tbl.flow m) ∧ u.tbl = { s.tbl with flow := u.tbl.flow })) ∧
    (tFind s p k = some v → v.loc = .flow i → mfind s.tbl.flow i = some e → v.data = e.data → e.data.length = 20 →
      (∃ u, exec (.lookupEntry (.host c) addr) s = .next u ∧ answer u 0 ∧ u.tbl = s.tbl ∧
        (List.range 20).map (fun n => hostOctet u p (addr.toNat + 44 + n)) = e.data) ∧
      (∃ u, exec (.insertEntry (.host c) addr) s = .next u ∧ answer u 0x51 ∧ u.tbl = s.tbl) ∧
      (∀ j ∈ [Instr.updateEntry (.host c) addr, .insertOrUpdate (.host c) addr], ∃ u, exec j s = .next u ∧ answer u 0 ∧
        only u ∧ mfind u.tbl.flow i = some { e with data := data, static := false, h := true, a := false }) ∧
      (∃ u, exec (.deleteEntry (.host c) addr) s = .next u ∧ answer u 0 ∧ only u ∧ mfind u.tbl.flow i = none) ∧
      (∃ u, exec (.deleteIfData (.host c) addr) s = .next u ∧
        if e.data = data then answer u 0 ∧ only u ∧ mfind u.tbl.flow i = none else answer u 0x54 ∧ u.tbl = s.tbl))

/-- 06 R115, R128, R129, Table 06-4: L2 learning and aging without reports. LEARN of an unknown address fills a free place of
its buckets with the port, H and the hold-down set; of a known one on its own port it sets H; on another port it moves a
dynamic entry past its hold-down. SWEEPER_VISIT of the bucket whose turn has come ages an entry in two visits: H to 0 with A
to 0, then A to 1, then out; a visit of another bucket, or before its time, does nothing. -/
def Sys2Proof.Claim.learnAndAge : Prop :=
  ∀ (s : State) (q : LearnReq) (rest : List LearnReq) (i b : Nat) (e : L2Ent),
    let k := TKey.l2 q.vid q.mac
    let mine := fun (x : L2Ent) => x.part = q.part ∧ x.vid = q.vid ∧ x.mac = q.mac
    let inBuckets := fun j => j / 4 = (k.buckets s q.part).1 ∨ j / 4 = (k.buckets s q.part).2
    flag s 0x50004 18 = false →
    (s.tbl.learnQ = q :: rest → inReset s q.part = false → flag s 0x50004 0 = true →
      ((∀ j x, (j, x) ∈ s.tbl.l2 → inBuckets j → ¬ mine x) → overQuota s q.part k = false →
        placeSlot s.tbl.l2 (k.buckets s q.part).1 (k.buckets s q.part).2 = some i →
        ∃ u, exec .learn s = .next u ∧ u.tbl.learnQ = rest ∧ u.mem = s.mem ∧ (∀ j, j ≠ i → mfind u.tbl.l2 j = mfind s.tbl.l2 j) ∧
          let learned : L2Ent := { part := q.part, vid := q.vid, mac := q.mac, port := q.port, h := true, a := false,
                                   static := false, hd := true, ltime := tai s / 1000 % 2 ^ 48 }
          mfind u.tbl.l2 i = some learned) ∧
      (mfind s.tbl.l2 i = some e → inBuckets i → mine e → (∀ j x, (j, x) ∈ s.tbl.l2 → inBuckets j → mine x → j = i) →
        (e.port = q.port → ∃ u, exec .learn s = .next u ∧ u.tbl.learnQ = rest ∧ mfind u.tbl.l2 i = some { e with h := true } ∧
          (∀ j, j ≠ i → mfind u.tbl.l2 j = mfind s.tbl.l2 j) ∧ u.mem = s.mem) ∧
        (e.port ≠ q.port → e.static = true → ∃ u, exec .learn s = .next u ∧ u.tbl = { s.tbl with learnQ := rest }) ∧
        (e.port ≠ q.port → e.static = false → e.hd = false → ∃ u, exec .learn s = .next u ∧
          (∀ j, j ≠ i → mfind u.tbl.l2 j = mfind s.tbl.l2 j) ∧ mfind u.tbl.l2 i =
            some { e with port := q.port, h := true, a := false, hd := true, ltime := tai s / 1000 % 2 ^ 48 }))) ∧
    (b < 2 ^ 32 → b ≠ (sweepNext s true).1 ∨ s.now < (sweepNext s true).2 →
      exec (.sweeperVisit true (BitVec.ofNat 32 b)) s = .next s) ∧
    (fld s 0x50004 17 6 ≠ 0 → b < 2 ^ 32 → ∀ due, sweepNext s true = (b, due) → due ≤ s.now → e.hd = false → e.static = false →
      (∀ j, j / 4 = b → j ≠ i → mfind s.tbl.l2 j = none) → mfind s.tbl.l2 i = some e → i / 4 = b →
      (e.h = true → ∃ u, exec (.sweeperVisit true (BitVec.ofNat 32 b)) s = .next u ∧
        mfind u.tbl.l2 i = some { e with h := false, a := false } ∧ ∀ j, j ≠ i → mfind u.tbl.l2 j = mfind s.tbl.l2 j) ∧
      (e.h = false → e.a = false → ∃ u, exec (.sweeperVisit true (BitVec.ofNat 32 b)) s = .next u ∧
        mfind u.tbl.l2 i = some { e with a := true } ∧ ∀ j, j ≠ i → mfind u.tbl.l2 j = mfind s.tbl.l2 j) ∧
      (e.h = false → e.a = true → ∃ u, exec (.sweeperVisit true (BitVec.ofNat 32 b)) s = .next u ∧
        mfind u.tbl.l2 i = none ∧ ∀ j, j ≠ i → mfind u.tbl.l2 j = mfind s.tbl.l2 j))

/-- 06 R111-R129: the statement of the table commands, and the one of learning and aging. -/
def Obligations.TableMachine : Prop :=
  Sys2Proof.Claim.tableCommands ∧ Sys2Proof.Claim.learnAndAge

/-- 04 R75, R76, Table 04-4: the framer's commands on a connection of the partition. STF_OPEN of a closed STIX with enabled
targets makes it FRAMED without TLS; STF_RESYNC of a SLOW one with no message in flight makes it FRAMED again at the new
numbers; STF_CLOSE with none in flight closes it; with messages in flight a close waits and IN_FLIGHT_TIMEOUT after 1 ms
completes it IN_FLIGHT; STF_QUERY writes its record. A closed STIX answers BAD_STIX. -/
def Obligations.FramerCommands : Prop :=
  ∀ (s : State) (c : CmdRef) (stix : BitVec 32) (v flags : BitVec 8) (d0 d1 : BitVec 128) (addr : BitVec 64),
    let p := c.part.toNat
    let i := stix.toNat
    let k := conn s i
    let others := fun (u : State) => ∀ j, j ≠ i → conn u j = conn s j
    i ≤ fld s 0x40000 22 1 →
    (Accepted s c 0x20 → k.state = 0 → v.toNat < 64 → 1 ≤ svcRule s v.toNat → svcRule s v.toNat ≤ 5 → flags.getLsbD 0 = false →
      (∀ d ∈ [d0.toNat, d1.toNat], d / 2 ^ 48 % 2 ^ 16 < 4096 ∧ flag s (0x68000 + 8 * (d / 2 ^ 48 % 2 ^ 16)) 0 = true ∧
        domOwner s (d / 2 ^ 48 % 2 ^ 16) = some p ∧ d / 2 ^ 32 % 2 ^ 16 < 4096 ∧ queueEn s (d / 2 ^ 32 % 2 ^ 16) = true ∧
        queueOwner s (d / 2 ^ 32 % 2 ^ 16) = some p) →
      ∃ u, exec (.stfOpen c stix v flags d0 d1) s = .next u ∧ Completed s u c 0x20 0 0 0 ∧ others u ∧ u.mem = s.mem ∧
        (conn u i).state = 1 ∧ (conn u i).tls = false ∧ (conn u i).part = p ∧ (conn u i).service = v.toNat ∧
        (conn u i).rws = [] ∧ ∀ b ∈ [(conn u i).d0, (conn u i).d1],
          b.delta = 0 ∧ b.infl = 0 ∧ b.asm = none ∧ b.rxSeq = 0 ∧ b.txSeq = 0) ∧
    (k.state = 0 → ∀ j ∈ [(0x21, Instr.stfResync c stix flags d0 d1), (0x22, .stfQuery c stix addr), (0x23, .stfClose c stix)],
      Accepted s c j.1 → ∃ u, exec j.2 s = .next u ∧ Completed s u c j.1 0x30 0 0 ∧ u.stf = s.stf ∧ u.mem = s.mem) ∧
    (k.part = p → k.tls = false → k.d0.asm = none → k.d1.asm = none → k.rws = [] →
      (Accepted s c 0x21 → k.state = 2 → k.d0.infl = 0 → k.d1.infl = 0 → flags = 0 →
        ∃ u, exec (.stfResync c stix flags d0 d1) s = .next u ∧ Completed s u c 0x21 0 0 0 ∧ others u ∧ u.mem = s.mem ∧
          (conn u i).state = 1 ∧ (conn u i).slowRsn = 0 ∧
          (conn u i).d0.expSeq = d0.extractLsb' 96 32 ∧ (conn u i).d0.delta = d0.extractLsb' 64 32 ∧
          (conn u i).d1.expSeq = d1.extractLsb' 96 32 ∧ (conn u i).d1.delta = d1.extractLsb' 64 32) ∧
      (Accepted s c 0x23 → 0 < k.state → k.d0.infl = 0 → k.d1.infl = 0 →
        ∃ u, exec (.stfClose c stix) s = .next u ∧ Completed s u c 0x23 0 0 0 ∧ others u ∧ u.mem = s.mem ∧
          (conn u i).state = 0) ∧
      (Accepted s c 0x22 → 0 < k.state → k.d0.inRec = false → k.d1.inRec = false → hasHost s p = true →
        ∃ u l, exec (.stfQuery c stix addr) s = .next u ∧ Completed s u c 0x22 0 0 256 ∧ OnlyHost s u ∧ u.stf = s.stf ∧
          HostPut s u p addr.toNat l ∧ l.length = 256 ∧ (l.getD 0 0).toNat = k.state % 256 ∧
          (l.drop 64).take 4 = beOctets 4 k.d0.expSeq.toNat ∧ (l.drop 160).take 4 = beOctets 4 k.d1.expSeq.toNat)) ∧
    (Accepted s c 0x23 → 0 < k.state → k.part = p → 0 < k.d0.infl → s.gpl.waiting = [] →
      ∃ u, exec (.stfClose c stix) s = .next u ∧ u.stf = s.stf ∧ u.gpl = { s.gpl with waiting := [⟨c, s.now, .stfClose i⟩] } ∧
        exec (.inFlightTimeout c) { u with now := s.now + 999999 } = .next { u with now := s.now + 999999 } ∧
        ∃ w, exec (.inFlightTimeout c) { u with now := s.now + 1000000 } = .next w ∧ Completed u w c 0x23 0x33 0 0 ∧
          w.gpl.waiting = [] ∧ w.stf = s.stf)

/-- 03 R46-R56, R59-R63: the parser's stages. PARSE_FRAME takes a port's oldest frame into its lane: under the lowest fixed
profile its signature matches, with L3OFF 14 + 4 for each tag; for a walk when none matches and PAR_PORT.GEN is set; else
with reason NO_PROFILE; an uncorrectable parse store error gives reason PARSE_ECC, and a correctable one counts in
PAR_CTL.CECNT. GRAPH_WALK completes the record of the frame that has
waited longest. PARSE_RECORD_RELEASE hands the oldest complete record of a port on, to the framer when it has no reason and
else to the exception queue of the default profile's owner when its buckets hold enough; SLOW_BUCKET_REFILL adds RATE up to
BURST; SWAP makes the shadow bank active, and does nothing while one is running (the model's 200 ns: log entry 36). Nothing else changes but what the rules name. -/
def Obligations.ParserStages : Prop :=
  ∀ (s : State) (port : BitVec 7) (lane : BitVec 4) (f : RxFrame) (rest : List RxFrame) (b : Bool) (q : Nat),
    let p := port.toNat
    let d := devRead s f.buf (f.len - 4)
    let sig := (sigOf d).bits
    let matches_ := fun k => rdPar s (0x30408 + 16 * k) % 2 = 1 ∧
      sig &&& rdPar s (0x30404 + 16 * k) = rdPar s (0x30400 + 16 * k) &&& rdPar s (0x30404 + 16 * k)
    let gen := (rdPar s (0x30200 + 4 * p)).testBit 16
    let onlyParser := fun (u : State) => u = { s with par := u.par } ∧ (∀ j, j ≠ p → laneOf u j = laneOf s j) ∧
      u.par.parsed = s.par.parsed ∧ u.par.toClassify = s.par.toClassify
    let taken := fun (u : State) (r : Option (List Octet)) => onlyParser u ∧ mget [] u.par.rx p = rest ∧
      laneOf u p = laneOf s p ++ [⟨f, r, (laneOf s p).any (fun e => e.precd.isNone)⟩]
    (mget [] s.par.rx p = [] → ∀ ecc, exec (.parseFrame port ecc) s = .next s) ∧
    (mget [] s.par.rx p = f :: rest → laneFull (laneOf s p) = false →
      (∃ u r, exec (.parseFrame port .uncorrectable) s = .next u ∧ taken u (some r) ∧ u.par.badStore = true ∧
        oct r 0 = 0xFF ∧ oct r 1 = 0x0D) ∧
      (∃ u r, exec (.parseFrame port .correctable) s = .next u ∧ mget [] u.par.rx p = rest ∧
        laneOf u p = laneOf s p ++ [⟨f, r, (laneOf s p).any (fun e => e.precd.isNone)⟩] ∧ u.par.badStore = s.par.badStore ∧
        fld u 0x30000 15 8 = min 255 (fld s 0x30000 15 8 + 1)) ∧
      (∀ k, k < 64 → matches_ k → (∀ j, j < k → ¬ matches_ j) → tagCount d < 3 →
        ∃ u r, exec (.parseFrame port .clean) s = .next u ∧ taken u (some r) ∧ oct r 0 = k ∧ oct r 4 = f.port % 256 ∧
          u.par.walks = s.par.walks ∧ fieldBe r 16 2 = 14 + 4 * tagCount d) ∧
      ((∀ k, k < 64 → ¬ matches_ k) ∨ tagCount d = 3 → gen = true →
        ∃ u, exec (.parseFrame port .clean) s = .next u ∧ taken u none ∧
          mget [] u.par.walks (p / 8) = mget [] s.par.walks (p / 8) ++ [p]) ∧
      ((∀ k, k < 64 → ¬ matches_ k) ∨ tagCount d = 3 → gen = false →
        ∃ u r, exec (.parseFrame port .clean) s = .next u ∧ taken u (some r) ∧ u.par.walks = s.par.walks ∧
          oct r 0 = 0xFF ∧ oct r 1 = 1)) ∧
    (∀ more pre post, mget [] s.par.walks lane.toNat = p :: more → laneOf s p = pre ++ ⟨f, none, b⟩ :: post →
      (∀ x ∈ pre, x.precd.isSome = true) →
      (∃ u r, exec (.graphWalk lane .clean) s = .next u ∧ onlyParser u ∧ u.par.rx = s.par.rx ∧
        mget [] u.par.walks lane.toNat = more ∧ laneOf u p = pre ++ ⟨f, some r, b⟩ :: post ∧ oct r 4 = f.port % 256) ∧
      (∃ u r, exec (.graphWalk lane .uncorrectable) s = .next u ∧ onlyParser u ∧ u.par.badStore = true ∧
        laneOf u p = pre ++ ⟨f, some r, b⟩ :: post ∧ oct r 0 = 0xFF ∧ oct r 1 = 0x0D)) ∧
    ((∀ g r w more, laneOf s p ≠ ⟨g, some r, w⟩ :: more) → exec (.parseRecordRelease port) s = .next s) ∧
    (∀ r more, laneOf s p = ⟨f, some r, b⟩ :: more →
      (oct r 1 = 0 → ∃ u, exec (.parseRecordRelease port) s = .next u ∧ laneOf u p = more ∧
        u.par.parsed = s.par.parsed ++ [⟨f, r⟩] ∧ u = { s with par := u.par } ∧ u.par.rx = s.par.rx) ∧
      (oct r 1 ≠ 0 → jnlFull s = false → f.port = p → defaultPart s p = some q → q < 8 → inBolt s q = false →
        inReset s q = false → excWaiting s q < 256 → 1000 ≤ (bucket s q).pkt → 8 * fieldBe r 6 2 ≤ (bucket s q).bit →
        r.length = 64 →
        ∃ u x, exec (.parseRecordRelease port) s = .next u ∧ laneOf u p = more ∧ u.par.parsed = s.par.parsed ∧
          u.gpl.deliv = s.gpl.deliv ++ [x] ∧ x.kind = .exception ∧ x.part = q ∧ x.reason = oct r 1 ∧
          x.octets = r ++ d ∧ x.buf = some f.buf ∧ u.mem = s.mem ∧
          bucket u q = ⟨(bucket s q).pkt - 1000, (bucket s q).bit - 8 * fieldBe r 6 2⟩ ∧
          rdCnt u (0x30C00 + 8 * oct r 1) = rdCnt s (0x30C00 + 8 * oct r 1) + 1)) ∧
    (∃ u, exec .slowBucketRefill s = .next u ∧ u = { s with par := { s.par with buckets := u.par.buckets } } ∧
      ∀ k, k < 8 → bucket u k =
        ⟨min (1000 * (rdDev s (0x30100 + 4 * k) / 65536)) ((bucket s k).pkt + rdDev s (0x30100 + 4 * k) % 65536),
         min (8192 * max 9 (rdDev s (0x30120 + 4 * k) / 65536)) ((bucket s k).bit + rdDev s (0x30120 + 4 * k) % 65536)⟩) ∧
    (parSwapping s = true → exec .parSwap s = .next s) ∧
    (supBound s = true → inReset s 0 = false → parSwapping s = false → (∀ l, mget [] s.par.walks l = []) →
      ∃ u, exec .parSwap s = .next u ∧ parSwapping u = true ∧
        u = { s with regs := { s.regs with parActive := u.regs.parActive }
                     par := { s.par with swapAt := some s.now } } ∧
        ∀ o, (0x30200 ≤ o ∧ o < 0x30800) ∨ (0x31000 ≤ o ∧ o < 0x40000) → rdPar u o = rdDev s o)

/-- 04 R65, R69, R72, R73: SEGMENT_FRAMING takes the oldest parsed frame. A frame whose flow entry is not framed goes to
classification as one packet. On a framed connection of a partition in service, a segment with FIN, SYN or RST marks the
connection slow with reason 0x22; a segment without payload and without URG becomes an ACK task on its direction's domain,
RACK and RWIN following it. -/
def Obligations.SegmentFraming : Prop :=
  ∀ (s : State) (f : RxFrame) (r : List Octet) (rest : List Parsed) (p : Nat) (v : TView),
    let d := devRead s f.buf (f.len - 4)
    let fw := fieldBe v.data 0 4
    let i := fw % 2 ^ 22
    let k := conn s i
    let dir := bitsOf fw 30 30
    let l4 := fieldBe r 18 2
    (s.par.parsed = [] → exec .segmentFraming s = .next (noDoubts s)) ∧
    (s.par.parsed = ⟨f, r⟩ :: rest →
      (framedEntry s r = none → ∃ u it, exec .segmentFraming s = .next u ∧ u.par.parsed = rest ∧ it.kind = 0 ∧ it.buf = f.buf ∧
        it.len = f.len - 4 ∧ it.port = f.port ∧ it.precd = r ∧ it.t0 = f.ts ∧
        u = { noDoubts s with par := { s.par with parsed := rest, toClassify := s.par.toClassify ++ [⟨it⟩] } }) ∧
      (framedEntry s r = some (p, v) → jnlEn s = false → noService s p = false → flag s 0x40000 0 = true →
        i ≤ fld s 0x40000 22 1 → k.state = 1 → k.part = p → s.mem.poison = [] →
        (oct d (l4 + 13) % 8 ≠ 0 → ∃ u, exec .segmentFraming s = .next u ∧ u.par.parsed = rest ∧ u.mem = s.mem ∧
          conn u i = { k with state := 2, slowRsn := 0x22, slowDir := dir } ∧ (∀ j, j ≠ i → conn u j = conn s j) ∧
          u.par.toClassify = s.par.toClassify) ∧
        (oct d (l4 + 13) % 8 = 0 → (oct d (l4 + 13)).testBit 5 = false → fieldBe r 22 2 = 0 → k.rws = [] →
          ∃ u it, exec .segmentFraming s = .next u ∧ u.par.parsed = rest ∧ u.mem = s.mem ∧ u.gpl = s.gpl ∧
            u.par.toClassify = s.par.toClassify ++ [⟨it⟩] ∧ it.kind = 2 ∧ it.part = p ∧ it.buf = f.buf ∧ it.stix = i ∧
            it.dir = dir ∧ it.dom = (k.dir dir).odom ∧ (conn u i).state = 1 ∧
            ((conn u i).dir dir).rack = translateAck k dir (BitVec.ofNat 32 (fieldBe d (l4 + 8) 4)) ∧
            ((conn u i).dir dir).rwin = fieldBe d (l4 + 14) 2 ∧ (∀ j, j ≠ i → conn u j = conn s j))))

/-- 06 R122, R123, 07 R134: CLASSIFY takes the oldest task. A packet of a class without an enabled, assigned profile goes to
the slow path with reason NO_MATCH. For a class that makes no table lookup, the search result's action word, or on a miss
with the default action that word of the class, gives its entry point, audit class, domain, priority and preempt bit, and
the task joins its partition's issue queue, or the hold list when 512 wait. -/
def Obligations.Classifier : Prop :=
  ∀ (s : State) (it : Item) (rest : List PreTask),
    let c := oct it.precd 0
    let w0 := rdDev s (0x51000 + 32 * c)
    let k := w0 / 2 ^ 10 % 256
    (s.par.toClassify = [] → exec .classify s = .next (noDoubts s)) ∧
    (s.par.toClassify = ⟨it⟩ :: rest → it.kind = 0 →
      ((127 < c ∨ w0 % 2 = 0 ∨ profWord s k 0 % 2 = 0 ∨ profOwner s k = none) → jnlEn s = false →
        defaultPart s it.port = none → ∃ u, exec .classify s = .next u ∧ u.par.toClassify = rest ∧ u.mem = s.mem ∧
          u.hlt = s.hlt ∧ u.gpl = s.gpl ∧ rdCnt u (0x30C00 + 8 * 0x10) = rdCnt s (0x30C00 + 8 * 0x10) + 1 ∧
          rdCnt u 0x30C00 = rdCnt s 0x30C00 + 1) ∧
      (∀ p rec s1, c ≤ 127 → w0 % 2 = 1 → profWord s k 0 % 2 = 1 → profOwner s k = some p →
        w0 / 2 % 2 = 0 → w0 / 16 % 8 = 0 → w0 / 2 ^ 9 % 2 = 0 →
        runSearch { noDoubts s with par := { s.par with toClassify := rest } } p 0x8005 k
          (buildKey { noDoubts s with par := { s.par with toClassify := rest } } k it.precd (zeros 20)
            (itemPayload s it)) = (rec, false, s1) →
        let hit := oct rec 1 % 2 = 1
        hit ∨ w0.testBit 18 = true →
        ∀ act : Nat, (hit → act = beNat (octs rec 16 8)) →
          (¬ hit → act = rdDev s (0x51018 + 32 * c) * 2 ^ 32 + rdDev s (0x5101C + 32 * c)) →
        act / 2 ^ 63 % 2 = 0 → noService s p = false →
        ∃ u x, exec .classify s = .next u ∧ u.par.toClassify = rest ∧ u.mem = s.mem ∧ u.gpl = s.gpl ∧ u.thr = s.thr ∧
          x.part = p ∧ x.entry = act / 2 ^ 24 % 2 ^ 16 ∧ x.audit = act / 2 ^ 16 % 256 ∧ x.dom = act / 2 ^ 48 % 2 ^ 12 ∧
          x.prio = act / 2 ^ 44 % 16 ∧ x.preempt = decide (act / 2 ^ 62 % 2 = 1) ∧ x.buf = it.buf ∧ x.len = it.len ∧
          x.precd = it.precd ∧
          (mget [] s.hlt.holdQ p = [] → (mget [] s.hlt.issueQ p).length < 512 →
            mget [] u.hlt.issueQ p = mget [] s.hlt.issueQ p ++ [x] ∧ u.hlt.holdQ = s.hlt.holdQ) ∧
          (512 ≤ (mget [] s.hlt.issueQ p).length → mget [] u.hlt.holdQ p = mget [] s.hlt.holdQ p ++ [x] ∧
            u.hlt.issueQ = s.hlt.issueQ)))

/-- 12 R264-R266, R268, 04 R79, 01 R12: EGRESS_PROCESS takes the oldest released result of a class that is not audited. A
packet result without edits joins its DEST queue as it stands; TTLDEC decrements the IPv4 TTL or IPv6 hop limit in its
buffer, or discards the result when that is 0 or 1; a message result released without TLS goes to its direction's EQ in segments of
at most MSS octets, the last of which ends the result. Each buffer becomes the egress agent's. -/
def Obligations.EgressProcess : Prop :=
  ∀ (s : State) (x : Released) (rest : List Released),
    let it := x.item
    let a := x.res.buf
    let d := devRead s a x.res.len
    let q := x.res.dest
    let h := findHdrs d
    let mine := bufTag s a
    let others := fun (u : State) (q : Nat) => ∀ j, j ≠ q → queueOf u j = queueOf s j
    (s.hlt.egressIn = [] → exec .egressProcess s = .next s) ∧
    (s.hlt.egressIn = x :: rest → audited s it.audit = false → mine.alloc = true → mine.owner = halterAgent →
      (it.kind = 0 → x.res.eflags = 0 → ∃ u f, exec .egressProcess s = .next u ∧ u.hlt = { s.hlt with egressIn := rest } ∧
        queueOf u q = queueOf s q ++ [f] ∧ others u q ∧ f.part = it.part ∧ f.pre = [] ∧ f.addr = a ∧ f.plen = x.res.len ∧
        f.buf = some a ∧ f.resultEnd = true ∧ u.mem = s.mem ∧ u.out = s.out ∧
        bufTag u a = { mine with owner := egressAgent }) ∧
      (it.kind = 0 → x.res.eflags = 4 → ∀ o v4, h.ip = some (o, v4) →
        let t := o + if v4 then 8 else 7
        (1 < oct d t → s.mem.poison = [] → ∃ u, exec .egressProcess s = .next u ∧ u.hlt.egressIn = rest ∧
          (queueOf u q).length = (queueOf s q).length + 1 ∧ others u q ∧
          (devOct u (a + t)).toNat = oct d t - 1 ∧ ∀ y, y ≠ a + t → devOct u y = devOct s y) ∧
        (oct d t ≤ 1 → mine.shares = 0 → ∃ u, exec .egressProcess s = .next u ∧ u.hlt.egressIn = rest ∧
          u.egr = s.egr ∧ u.mem = s.mem ∧ (bufTag u a).alloc = false ∧
          rdCnt u (0x18080 + 0x100 * (q / 32) + 8 * 15) = rdCnt s (0x18080 + 0x100 * (q / 32) + 8 * 15) + 1)) ∧
      (it.kind = 1 → ∀ c, conn s it.stix = c → x.tls = false → 0 < x.res.len → 0 < (c.dir it.dir).mss →
        let m := (c.dir it.dir).mss
        ∃ u fs, exec .egressProcess s = .next u ∧ u.hlt.egressIn = rest ∧ u.mem = s.mem ∧
          queueOf u (c.dir it.dir).eq = queueOf s (c.dir it.dir).eq ++ fs ∧ others u (c.dir it.dir).eq ∧
          (fs.map (fun f => devRead s f.addr f.plen)).flatten = d ∧ (∀ f ∈ fs, f.plen ≤ m ∧ f.buf = some a) ∧
          (fs.map (·.resultEnd)).filter id = [true] ∧ (fs.getLast?.map (·.resultEnd)) = some true))

/-- 12 R262, R263, 02 R32, R34, R415, 14 R308: FRAME_TRANSMIT and TRANSMIT_END. A port that is up, idle and not paused
starts the head of the one queue that may be sent; of several groups the strongest sends; a paused port and one that sends a
frame start none; a port that is down discards what its queues hold. At the end of a frame that began outside loopback and
has no transmit command it stands on the wire, PORT_CNT 2 and 3 and the buffer follow. EGRESS_TOKEN_REFILL adds RATE to each shaped bucket up to
BURST. -/
def Obligations.EgressPorts : Prop :=
  ∀ (s : State) (port : BitVec 7) (f : QFrame) (rest : List QFrame) (i : Nat) (t : TxFrame),
    let p := port.toNat
    let x := portSt s p
    let quiet := s.gpl.waiting = [] ∧ hobArmed s (2 * p + 1) = false ∧ (hobUnit s (2 * p + 1)).held = none
    let up := quiet ∧ txUp s p = true ∧ s.hkc.rein = none ∧ x.tx = none ∧ portPaused s p = false
    let sendable := fun j => queueOf s (32 * p + j) ≠ [] ∧ queueEligible s (32 * p + j) = true
    let unshaped := pRate s p = 0 ∧ ∀ j, j < 32 → qRate s (32 * p + j) = 0
    (quiet → txUp s p = true → (s.hkc.rein ≠ none ∨ x.tx ≠ none ∨ portPaused s p = true) →
      exec (.frameTransmit port) s = .next s) ∧
    (quiet → txUp s p = false → mrising s.egr.queues = true →
      ∃ u, exec (.frameTransmit port) s = .next u ∧ (∀ j, queueOf u j = if j / 32 = p then [] else queueOf s j) ∧
        (portSt u p).tx = x.tx ∧ (portSt u p).linkUp = x.linkUp) ∧
    (up → unshaped → i < 32 → queueOf s (32 * p + i) = f :: rest → sendable i → (∀ j, j < 32 → j ≠ i → ¬ sendable j) →
      (∀ j, j < 32 → ∀ g ∈ queueOf s (32 * p + j), frameLen g ≤ maxLen s p) → (prtCfg s p).testBit 18 = false →
      (groupSt s (4 * p + i / 8)).ptr < 8 →
      ∃ u w, exec (.frameTransmit port) s = .next u ∧ (portSt u p).tx = some w ∧ w.octets = frameOctets s f ∧
        w.queue = 32 * p + i ∧ w.q = f ∧ w.fcsOk = !framePoisoned s f ∧ queueOf u (32 * p + i) = rest ∧
        (∀ j, j ≠ 32 * p + i → queueOf u j = queueOf s j) ∧ u.mem = s.mem ∧ u.buf = s.buf ∧ u.out = s.out) ∧
    (up → unshaped → (∀ j, j < 32 → ∀ g ∈ queueOf s (32 * p + j), frameLen g ≤ maxLen s p) → i < 4 →
      (∃ j, j / 8 = i ∧ sendable j) → (∀ j, j / 8 < i → ¬ sendable j) → (groupSt s (4 * p + i)).ptr < 8 →
      ∃ u w, exec (.frameTransmit port) s = .next u ∧ (portSt u p).tx = some w ∧ w.queue / 8 = 4 * p + i) ∧
    (x.tx = none → exec (.transmitEnd port) s = .next s) ∧
    (quiet → x.tx = some t → t.loop = false → t.q.tx = none → t.q.kind ≠ 4 → t.q.resultEnd = true →
      framePoisoned s t.q = false → (∀ a, t.q.buf = some a → (bufTag s a).alloc = true ∧
        (bufTag s a).owner = egressAgent ∧ (bufTag s a).shares = 0 ∧ (bufTag s a).origin = none) →
      ∃ u, exec (.transmitEnd port) s = .next u ∧ portSt u p = { x with tx := none } ∧
        u.out = s.out ++ [.frame p t.octets t.fcsOk] ∧ u.egr = s.egr ∧ u.mem = s.mem ∧
        (∀ a, t.q.buf = some a → (bufTag u a).alloc = false) ∧
        rdCnt u (0x18090 + 0x100 * p) = rdCnt s (0x18090 + 0x100 * p) + 1 ∧
        rdCnt u (0x18098 + 0x100 * p) = rdCnt s (0x18098 + 0x100 * p) + BitVec.ofNat 64 (t.octets.length + 4)) ∧
    (mrising s.regs.dev = true → ∃ u, exec .egressTokenRefill s = .next u ∧ u.egr.queues = s.egr.queues ∧
      u.egr.groups = s.egr.groups ∧ u = { s with egr := u.egr } ∧
      (∀ q, q < 4096 → qTokens u q = if qRate s q = 0 then qTokens s q
        else min ((rdDev s (0xA8000 + 4 * q) / 2 ^ 16 * 2048 : Nat) : Int) (qTokens s q + qRate s q)) ∧
      (∀ k, k < 128 → pTokens u k = if pRate s k = 0 then pTokens s k
        else min ((rdDev s (0xB0000 + 4 * k) / 2 ^ 16 * 2048 : Nat) : Int) (pTokens s k + pRate s k)))

/-- 02 R29-R32, R34, R35, R43, R415: reception and pause. A port that is down, disabled or in loopback takes no frame. A good
frame that is admitted stands in its run of cells and joins its port's frames in order; one that is not admitted counts as
an admission drop (7); a short, long or bad one is counted in the counter of its first failed test (5, 6, 4). A PAUSE stops
the port for its quanta of 512 bit times, PFC its classes, zero quanta end it, and neither goes to the parser. PAUSE is repeated while PRT_CFG.FC calls
for it. -/
def Obligations.PortReception : Prop :=
  ∀ (s : State) (port : BitVec 7) (d : List Octet) (ok : Bool) (a quanta : Nat) (cl : BitVec 3),
    let p := port.toNat
    let x := portSt s p
    let open_ := portEn s p = true ∧ x.linkUp = true ∧ portLoop s p = false
    let calm := s.hkc.dbolt = false ∧ bitsOf (prtCfg s p) 17 16 = 0 ∧ hobArmed s (2 * p) = false ∧
      (hobUnit s (2 * p)).held = none
    let good := 60 ≤ d.length ∧ d.length + 4 ≤ maxLen s p
    let count := fun (u : State) k => rdCnt u (0x18080 + 0x100 * p + 8 * k) = rdCnt s (0x18080 + 0x100 * p + 8 * k) + 1
    let mac := fieldBe d 12 2 = 0x8808 ∧ (fieldBe d 14 2 = 1 ∨ fieldBe d 14 2 = 0x101)
    let quantum := match fld s (0x10000 + 4 * (p / 4)) 1 0 with
      | 1 => 51200
      | 2 => 5120
      | _ => 2048
    (¬ open_ → exec (.frameReceive port d ok) s = .next s ∧ exec (.pauseReceive port d) s = .next s) ∧
    (¬ mac → exec (.pauseReceive port d) s = .next s) ∧
    (open_ → calm → admitRun s p = .run a →
      (good → ¬ mac → s.mem.poison = [] →
        ∃ u f, exec (.frameReceive port d true) s = .next u ∧ mget [] u.par.rx p = mget [] s.par.rx p ++ [f] ∧
          (∀ j, j ≠ p → mget [] u.par.rx j = mget [] s.par.rx j) ∧ f.port = p ∧ f.buf = a ∧ f.len = d.length + 4 ∧
          f.ts = tslat s p 15 0 ∧ f.hobble = false ∧ devRead u a d.length = d ∧
          (∀ y, y < a ∨ a + d.length ≤ y → devOct u y = devOct s y) ∧ (bufTag u a).alloc = true ∧
          (bufTag u a).owner = portAgent p ∧ (bufTag u a).run = cdiv (d.length + 4) 256 ∧ count u 0) ∧
      (good → ok = false → ∃ u, exec (.frameReceive port d ok) s = .next u ∧ u.par = s.par ∧ u.mem = s.mem ∧ count u 4) ∧
      (d.length < 60 → ∃ u, exec (.frameReceive port d ok) s = .next u ∧ u.par = s.par ∧ u.mem = s.mem ∧ count u 5) ∧
      (60 ≤ d.length → maxLen s p < d.length + 4 → ∃ u, exec (.frameReceive port d ok) s = .next u ∧ u.par = s.par ∧
        u.mem = s.mem ∧ count u 6)) ∧
    (open_ → calm → ∀ b, admitRun s p = .refused b → good → ¬ mac →
      ∃ u, exec (.frameReceive port d true) s = .next u ∧ u.par = s.par ∧ u.mem = s.mem ∧ u.buf = s.buf ∧ count u 7) ∧
    (open_ → good → mac →
      ∀ j ∈ [Instr.frameReceive port d true, .pauseReceive port d],
        ∃ u, exec j s = .next u ∧ u.par = s.par ∧ u.mem = s.mem ∧ u.buf = s.buf ∧ count u 9 ∧
          (fieldBe d 14 2 = 1 → quanta = fieldBe d 16 2 → (portSt u p).pauseUntil =
            if quanta = 0 then none else some (s.now + cdiv (quanta * quantum) 100)) ∧
          (fieldBe d 14 2 = 0x101 → quanta = fieldBe d (18 + 2 * cl.toNat) 2 → (portSt u p).pauseUntil = x.pauseUntil ∧
            mfind (portSt u p).pfcUntil cl.toNat =
              if (fieldBe d 16 2).testBit cl.toNat then
                (if quanta = 0 then none else some (s.now + cdiv (quanta * quantum) 100))
              else mfind x.pfcUntil cl.toNat)) ∧
    (∀ at_, x.pauseUntil = some at_ → exec (.pauseTimerExpiry port none) s =
      .next (if at_ ≤ s.now then setPort s p { x with pauseUntil := none } else s)) ∧
    (∀ at_, mfind x.pfcUntil cl.toNat = some at_ → exec (.pauseTimerExpiry port (some cl)) s =
      .next (if at_ ≤ s.now then setPort s p { x with pfcUntil := mdel x.pfcUntil cl.toNat } else s)) ∧
    (x.linkUp = true → s.hkc.dbolt = false → bitsOf (prtCfg s p) 17 16 ≠ 1 → x.xoff = [(8, true)] →
      exec (.pauseRepeat port) s = .next s) ∧
    (x.linkUp = true → s.hkc.dbolt = false → bitsOf (prtCfg s p) 17 16 = 1 → portLoop s p = false → x.xoff = [(8, true)] →
      ∃ u, exec (.pauseRepeat port) s = .next u ∧ u.par = s.par ∧
        u.out = s.out ++ (if mget 0 x.lastPause 8 + cdiv (0x7FFF * quantum) 100 ≤ s.now then [.pause p none 0xFFFF] else []))

/-- 02 R26, R34, R39-R44, 16 R341: links, cages and Hobble. A link comes up only in the mode of its quad's
MODE and FEC on an enabled port; a
link that goes down ends its frame, its pauses and its held Hobble frames; QUAD_RECONFIGURE takes the quad's four links
down; module events reach the supervisor's service ring, and a cage whose module is gone keeps no access waiting; HOBBLE_ARM stores HOB_CFG and restarts the numbering when it
arms; a held ingress frame leaves after 1 ms. -/
def Obligations.LinksAndCages : Prop :=
  ∀ (s : State) (port : BitVec 7) (mode : BitVec 4) (cage quad : BitVec 5) (un : BitVec 8) (v : BitVec 32)
    (held : HobFrame),
    let p := port.toNat
    let x := portSt s p
    let m := mode.toNat
    let qm := fld s (0x10000 + 4 * (p / 4)) 1 0
    let fec := fld s (0x10000 + 4 * (p / 4)) 3 2
    let fits := (qm = 1 ∧ m = 1) ∨ (qm = 2 ∧ m = if fec = 1 then 3 else 2) ∨ (qm = 3 ∧ m = if fec = 3 then 4 else 4 + fec)
    let down := fun (u : State) k => portSt u k = { portSt s k with
      linkUp := false, fecLock := false, negMode := 0, pauseUntil := none, pfcUntil := [], xoff := [], tx := none }
    let clear := fun k => (portSt s k).tx = none ∧ (hobUnit s (2 * k)).held = none ∧ (hobUnit s (2 * k + 1)).held = none
    let event := fun (u : State) kind => s.gpl.svcq.length < 4096 → u.gpl.svcq = s.gpl.svcq ++
      [{ code := 1, result := 0, detail := fit 12 [cage.setWidth 8, BitVec.ofNat 8 kind], lost := s.gpl.svcLost }]
    let reach := supBound s = true ∧ inReset s 0 = false ∧ auditLocked s = false
    let k := un.toNat
    let reg := 0x20000 + 0x80 * k
    (portEn s p = true → fits → s.hkc.dbolt = false → exec (.linkUp port mode) s = .next (setPort s p
      { x with linkUp := true, fecLock := decide (m = 3 ∨ m = 5 ∨ m = 6), negMode := m })) ∧
    (portEn s p = false ∨ ¬ fits ∨ s.hkc.dbolt = true → exec (.linkUp port mode) s = .next s) ∧
    (clear p → ∃ u, exec (.linkDown port) s = .next u ∧ down u p ∧ (∀ j, j ≠ p → portSt u j = portSt s j) ∧
      u = { s with prt := u.prt } ∧ u.prt.hob = s.prt.hob) ∧
    (reach → (∀ j, j / 4 = quad.toNat → clear j) → ∃ u, exec (.quadReconfigure quad v) s = .next u ∧
      rdDev u (0x10000 + 4 * quad.toNat) = v.toNat % 256 ∧ (∀ j, j / 4 = quad.toNat → down u j) ∧
      (∀ j, j / 4 ≠ quad.toNat → portSt u j = portSt s j) ∧ u.mem = s.mem) ∧
    (∃ u, exec (.modulePresenceChange cage true) s = .next u ∧ mget false u.prt.modules cage.toNat = true ∧ event u 1 ∧
      u.prt.ports = s.prt.ports ∧ u.mem = s.mem) ∧
    ((∀ j, j / 4 = cage.toNat → clear j) → s.gpl.waiting = [] → ∃ u, exec (.modulePresenceChange cage false) s = .next u ∧
      mget false u.prt.modules cage.toNat = false ∧ event u 2 ∧ (∀ j, j / 4 = cage.toNat → down u j) ∧
      (∀ j, j / 4 ≠ cage.toNat → portSt u j = portSt s j) ∧ u.mem = s.mem) ∧
    (∀ c opc at_, s.gpl.waiting = [⟨c, at_, .outside opc (some cage.toNat)⟩] →
      ∃ u, exec (.modulePresenceChange cage false) s = .next u ∧ u.gpl.waiting = [] ∧ mget false u.prt.modules cage.toNat = false) ∧
    (∃ u, exec (.moduleInterrupt cage) s = .next u ∧ event u 3 ∧ u.prt = s.prt ∧ u.mem = s.mem) ∧
    (reach → (hobUnit s k).held = none → hobReg s k 0x18 ≠ 0 → jnlEn s = false →
      ∃ u, exec (.hobbleArm un v) s = .next u ∧ rdDev u reg = v.toNat % 128 ∧ u.prt.ports = s.prt.ports ∧ u.mem = s.mem ∧
        (hobArmed s k = false → v.getLsbD 0 = true → hobUnit u k =
          { hobUnit s k with count := 0, burst := 0, draws := 0, seed := BitVec.ofNat 32 (hobReg s k 0x18) }) ∧
        (hobArmed s k = true → v.getLsbD 0 = true → hobUnit u k = hobUnit s k)) ∧
    ((hobUnit s k).held = none → exec (.hobbleHoldTimeout un) s = .next s) ∧
    (k % 2 = 0 → hobArmed s k = true → (hobUnit s k).held = some held → (hobUnit s k).passed = 0 →
      held.fcsOk = true →
      ((hobUnit s k).heldAt + 1000000 ≤ s.now → ∃ u f, exec (.hobbleHoldTimeout un) s = .next u ∧
        hobUnit u k = { hobUnit s k with held := none } ∧
        mget [] u.par.rx (k / 2) = mget [] s.par.rx (k / 2) ++ [f] ∧ f.buf = held.buf ∧ f.len = held.octets.length + 4 ∧
        f.hobble = held.flag ∧ f.ts = held.ts) ∧
      (s.now < (hobUnit s k).heldAt + 1000000 → exec (.hobbleHoldTimeout un) s = .next s))

namespace Sys2Proof.Claim

/-- The syllables of units A0 and A1 with the opcode Table 09-3 gives them. -/
def aluRows (t : Thr) (g : Gd) (rd ra rb : BitVec 5) (md : BitVec 8) (im : BitVec 13) (i18 : BitVec 18) : List (Nat × Instr) :=
  [(0, .nop t g), (1, .add t g rd ra rb md), (2, .sub t g rd ra rb md), (3, .and_ t g rd ra rb md),
   (4, .or_ t g rd ra rb md), (5, .xor_ t g rd ra rb md), (6, .andn t g rd ra rb md), (7, .shl t g rd ra rb md),
   (8, .shr t g rd ra rb md), (9, .sar t g rd ra rb md), (10, .rol t g rd ra rb md), (11, .sel t g rd ra rb md),
   (12, .cmp t g rd ra rb md), (13, .plog t g rd ra rb md), (14, .prd t g rd ra rb md), (15, .pwr t g rd ra rb md),
   (16, .par t g rd ra rb md), (17, .brev t g rd ra rb md), (18, .orev t g rd ra rb md), (19, .bcnt t g rd ra rb md)] ++
  [(20, .addi t g rd ra im), (21, .andi t g rd ra im), (22, .ori t g rd ra im), (23, .xori t g rd ra im),
   (24, .shli t g rd ra im), (25, .shri t g rd ra im), (26, .sari t g rd ra im), (27, .roli t g rd ra im),
   (28, .exti t g rd ra im), (29, .depi t g rd ra im), (30, .cmpeqi t g rd ra im), (31, .cmpnei t g rd ra im),
   (32, .cmplti t g rd ra im), (33, .cmpltui t g rd ra im), (34, .lil t g rd i18), (35, .lih t g rd i18)]

/-- The decimal syllables of unit A1 with the opcode Table 09-4 gives them. -/
def decimalRows (t : Thr) (g : Gd) (rd ra rb : BitVec 5) (md : BitVec 8) : List (Nat × Instr) :=
  [(40, .dadd t g rd ra rb md), (41, .dsub t g rd ra rb md), (42, .dcmp t g rd ra rb md), (43, .dchk t g rd ra rb md),
   (44, .cvbd t g rd ra rb md), (45, .cvdb t g rd ra rb md), (46, .luhn t g rd ra rb md)]

/-- The syllables of unit M with the opcode Tables 09-5 and 09-6 give them. -/
def memoryRows (t : Thr) (g : Gd) (rd ra rb : BitVec 5) (md : BitVec 8) (im : BitVec 13) : List (Nat × Instr) :=
  [(0, .nop t g), (1, .ld t g rd ra im), (2, .st t g rd ra im), (3, .ldo1 t g rd ra im), (4, .ldo2 t g rd ra im),
   (5, .ldo4 t g rd ra im), (6, .sto1 t g rd ra im), (7, .sto2 t g rd ra im), (8, .sto4 t g rd ra im),
   (9, .ldd t g rd ra im), (10, .fld t g rd ra rb md), (11, .fst t g rd ra rb md), (12, .fmov t g rd ra rb md),
   (13, .lockw t g rd ra rb md), (14, .unlockw t g rd ra rb md), (15, .xlat t g rd ra rb md),
   (16, .bmwalk t g rd ra rb md), (17, .tlvnext t g rd ra rb md)] ++
  [(32, .doneTicket t g rd ra rb md), (33, .hostDone t g rd ra rb md), (34, .dropTicket t g rd ra rb md),
   (35, .moveTicket t g rd ra rb md), (36, .splitTicket t g rd ra rb md), (37, .deferTask t g rd ra rb md),
   (38, .postTask t g rd ra rb md), (39, .getwork t g rd ra rb md), (40, .timerArm t g rd ra rb md),
   (44, .lockReq t g rd ra rb md), (45, .unlockReq t g rd ra rb md), (46, .chopen t g rd ra rb md),
   (47, .chw t g rd ra rb md), (48, .chpost t g rd ra rb md), (49, .chrd t g rd ra rb md), (50, .chnext t g rd ra rb md),
   (51, .signalEv t g rd ra rb md), (52, .waitev t g rd ra rb md)]

/-- The syllables of unit X with the opcode Table 09-7 gives them. -/
def branchRows (t : Thr) (g : Gd) (rd ra rb : BitVec 5) (md : BitVec 8) (target : BitVec 16) : List (Nat × Instr) :=
  [(0, .nop t g), (1, .branch t g target), (2, .bl t g target), (3, .br t g rd ra rb md), (4, .mul t g rd ra rb md),
   (5, .crc t g rd ra rb md), (6, .mfsr t g rd ra rb md), (7, .mtsr t g rd ra rb md), (8, .readTime t g rd ra rb md),
   (16, .bmove t g rd ra rb md), (17, .bfill t g rd ra rb md), (18, .crcb t g rd ra rb md),
   (19, .xlatb t g rd ra rb md), (20, .luhnx t g rd ra rb md)]

/-- The forms that 09 calls undefined: a width mode 10 or 11, CMP's condition 111, DCMP's others than 000, 010 and 011, the
MUL mode and CRC size 11, the FLD and FST size 11, TLVNEXT into G31 and POST from above G28. -/
def undefinedForms (t : Thr) (g : Gd) (rd ra rb : BitVec 5) (md : BitVec 8) : List (Prop × Instr) :=
  let wide : Prop := 2 ≤ md.toNat % 4
  [(wide, .add t g rd ra rb md), (wide, .sub t g rd ra rb md), (wide, .and_ t g rd ra rb md), (wide, .or_ t g rd ra rb md),
   (wide, .xor_ t g rd ra rb md), (wide, .andn t g rd ra rb md), (wide, .shl t g rd ra rb md), (wide, .shr t g rd ra rb md),
   (wide, .sar t g rd ra rb md), (wide, .rol t g rd ra rb md), (wide, .cvbd t g rd ra rb md),
   (md.toNat % 8 = 7 ∨ 2 ≤ md.toNat / 8 % 4, .cmp t g rd ra rb md),
   (md.toNat % 8 ∉ [0, 2, 3], .dcmp t g rd ra rb md), (md.toNat % 4 = 3, .mul t g rd ra rb md),
   (md.toNat % 4 = 3, .crc t g rd ra rb md), (md.toNat / 8 % 4 = 3, .fld t g rd ra rb md),
   (md.toNat / 8 % 4 = 3, .fst t g rd ra rb md), (rd.toNat = 31, .tlvnext t g rd ra rb md),
   (28 < ra.toNat, .postTask t g rd ra rb md)]

/-- The instruction-store words from `pc` that a thread's partition may fetch (08 R168): descriptor 0 names the store, is
valid and present with X, and holds them. -/
def Fetches (s : State) (p pc n : Nat) : Prop :=
  let v := (segEnt s p 0).view p 0
  v.valid = true ∧ v.space = 2 ∧ v.x = true ∧ v.p = true ∧ v.base ≤ pc ∧ pc - v.base + n ≤ v.limit + 1 ∧ pc + n ≤ 65536

end Sys2Proof.Claim

/-- 09 R181, R185: NOP moves PC past its syllable and does nothing else. A syllable that is guarded off acts as NOP, if it
is not an undefined form; an undefined form executes as no operation, guard or not, and counts one UNDEFINED_OP violation
of the thread's partition. -/
def Sys2Proof.Claim.nopForms : Prop :=
  ∀ (s : State) (t : Thr) (g : Gd) (rd ra rb : BitVec 5) (md : BitVec 8) (im : BitVec 13) (i18 : BitVec 18)
    (target : BitVec 16), MayIssue s t → s.hkc.raised = [] →
    Answers (.nop t g) s t [] [] ∧
    (((ctxNow s t).pd (g.toNat % 8) != bitOf g.toNat 3) = false →
      ∀ r ∈ aluRows t g rd ra rb md im i18 ++ decimalRows t g rd ra rb md ++ memoryRows t g rd ra rb md im ++
        branchRows t g rd ra rb md target,
      (∀ f ∈ undefinedForms t g rd ra rb md, f.2 = r.2 → ¬ f.1) → exec r.2 s = exec (.nop t g) s) ∧
    (∀ p, thrPart s t.toNat = some p → ∀ f ∈ undefinedForms t g rd ra rb md, f.1 →
      ∃ u, exec f.2 s = .next u ∧ (thr u t.toNat).ctx = { ctxNow s t with pc := (ctxNow s t).pc + 1 } ∧ u.mem = s.mem ∧
        (∀ k, k ≠ t.toNat → thr u k = thr s k) ∧ u.hsp = s.hsp ∧ u.thr.tasks = s.thr.tasks ∧
        rdCnt u (0xE0800 + p * 0x80 + 8 * 5) = rdCnt s (0xE0800 + p * 0x80 + 8 * 5) + 1)

/-- 09 R180-R184, Tables 09-1 to 09-7, 08 R168, R169: BUNDLE_ISSUE fetches at PC through descriptor 0. A word with the stop
bit, its unit in [34:33], N and G in [32:29], the opcode in [28:23] and its operands below, issues as the command of that
syllable; an opcode of no syllable counts UNDEFINED_OP and is passed; of two syllables in one bundle each reads the context
before either writes; a fetch that descriptor 0 does not grant is a FETCH violation that keeps PC and stops the thread. -/
def Sys2Proof.Claim.bundleFetch : Prop :=
  ∀ (s : State) (t : Thr) (p : Nat) (g : Gd) (rd ra rb rd2 ra2 rb2 : BitVec 5) (md : BitVec 8) (im : BitVec 13)
    (i18 : BitVec 18) (target : BitVec 16) (low : BitVec 23),
    let c := ctxNow s t
    let pc := c.pc.toNat
    let word := fun (unit opc low : Nat) => BitVec.ofNat 36 (2 ^ 35 + unit * 2 ^ 33 + g.toNat * 2 ^ 29 + opc * 2 ^ 23 + low)
    let r := rd.toNat * 2 ^ 18 + ra.toNat * 2 ^ 13 + rb.toNat * 2 ^ 8 + md.toNat
    let i := rd.toNat * 2 ^ 18 + ra.toNat * 2 ^ 13 + im.toNat
    let l := rd.toNat * 2 ^ 18 + i18.toNat
    let at_ := fun k => istWord s (t.toNat / 128) k
    let runs := fun (x : Nat × Instr) (unit low : Nat) =>
      at_ pc = word unit x.1 low → exec (.bundleIssue t) s = exec x.2 s
    MayIssue s t → s.hkc.raised = [] → thrPart s t.toNat = some p → p < 8 →
    (Fetches s p pc 1 →
      (∀ x ∈ aluRows t g rd ra rb md im i18, ∀ unit, unit < 2 →
        runs x unit (if x.1 < 20 then r else if x.1 < 34 then i else l)) ∧
      (∀ x ∈ decimalRows t g rd ra rb md, runs x 1 r) ∧
      (∀ x ∈ memoryRows t g rd ra rb md im, runs x 2 (if 1 ≤ x.1 ∧ x.1 ≤ 9 then i else r)) ∧
      (∀ x ∈ branchRows t g rd ra rb md target, runs x 3 (if x.1 = 1 ∨ x.1 = 2 then target.toNat * 2 ^ 7 else r)) ∧
      (∀ unit opc, (unit = 0 ∧ 36 ≤ opc ∨ unit = 1 ∧ opc ∈ [36, 37, 38, 39, 47, 63] ∨ unit = 2 ∧ opc ∈ [18, 23, 28, 43, 53, 63] ∨
          unit = 3 ∧ opc ∈ [9, 15, 21, 63]) → opc < 64 → at_ pc = word unit opc low.toNat →
        ∃ u, exec (.bundleIssue t) s = .next u ∧ (thr u t.toNat).ctx = { c with pc := c.pc + 1 } ∧ u.mem = s.mem ∧
          rdCnt u (0xE0800 + p * 0x80 + 8 * 5) = rdCnt s (0xE0800 + p * 0x80 + 8 * 5) + 1)) ∧
    (Fetches s p pc 2 → g = 0 → md = 0 →
      at_ pc = BitVec.ofNat 36 (1 * 2 ^ 23 + r) →
      at_ (pc + 1) = BitVec.ofNat 36 (2 ^ 35 + 2 ^ 33 + 2 * 2 ^ 23 + rd2.toNat * 2 ^ 18 + ra2.toNat * 2 ^ 13 + rb2.toNat * 2 ^ 8) →
      ∃ u c', exec (.bundleIssue t) s = .next u ∧ Leaves s u t c' s.mem ∧ c' = { c with pc := c.pc + 2, regs := c'.regs } ∧
        ∀ k, c'.g k = if k = 0 then 0 else if k = rd2.toNat then c.g ra2.toNat - c.g rb2.toNat
          else if k = rd.toNat then c.g ra.toNat + c.g rb.toNat else c.g k) ∧
    (let v := (segEnt s p 0).view p 0
     v.valid = false ∨ pc < v.base ∨ v.space ≠ 2 ∨ v.x = false → at_ pc = word 0 0 0 →
      ∃ u, exec (.bundleIssue t) s = .next u ∧ (thr u t.toNat).ctx = c ∧ (thr u t.toNat).fetchStop = true ∧ u.mem = s.mem ∧
        (∀ k, k ≠ t.toNat → thr u k = thr s k) ∧
        rdCnt u (0xE0800 + p * 0x80 + 8 * 4) = rdCnt s (0xE0800 + p * 0x80 + 8 * 4) + 1)

/-- 09 R180-R185: the statement of the forms without effect and the undefined forms, and the one of bundle fetch. -/
def Obligations.BundleMachine : Prop :=
  Sys2Proof.Claim.nopForms ∧ Sys2Proof.Claim.bundleFetch

namespace Sys2Proof.Claim

/-- Completion ring `q` of `u` holds one entry more than in `s`: `e` at its end. -/
def Queued (s u : State) (q : Nat) (e : Compl) : Prop := (ringSt u q).compl = (ringSt s q).compl ++ [e]

/-- A device range lies in one of a partition's CORE_MEMRNG ranges (14 R307). -/
abbrev MayReach (s : State) (p a n : Nat) : Prop := inRange s p a (a + n - 1) = true

end Sys2Proof.Claim

/-- 14 R306, R307, R313, R314, R316, 16 R341: the commands of the host interface. NOP and SERVICE_NOP complete with status 0;
in a partition in reset a command is discarded, in Bolt it completes BOLTED, and on a ring of the wrong kind BAD_OPCODE.
DMA_COPY between host memory and a device range of the partition moves its octets, records of the part's tables among them,
in chunks of at most 512 and completes with their number; a range that is not the partition's is refused ADDR_FAULT, a length 0 BAD_OPERAND; a copy paused on an
absent segment for ABSTO is ended by ABSENT_TIMEOUT. -/
def Sys2Proof.Claim.hostCommandRules : Prop :=
  ∀ (s : State) (c : CmdRef) (sel : BitVec 16) (doff : BitVec 40) (addr : BitVec 64) (len : BitVec 32) (d : Dma) (t : Nat),
    let p := c.part.toNat
    let n := len.toNat
    let copy := fun m => exec (.dmaCopy c m sel doff addr len) s
    let rows := [(0x00, Instr.nopCommand c), (0xC3, .serviceNop c)]
    (∀ r ∈ rows, Accepted s c r.1 → ∃ u, exec r.2 s = .next u ∧ Completed s u c r.1 0 0 0 ∧ u.mem = s.mem ∧ u.regs = s.regs) ∧
    (inReset s p = true → ∀ r ∈ rows ++ [(2, .dmaCopy c 4 sel doff addr len)], exec r.2 s = .next s) ∧
    (InService s p → ∀ r ∈ rows, opcRefused s c r.1 = true →
      ∃ u, exec r.2 s = .next u ∧ Completed s u c r.1 0xC0 0 0 ∧ u.mem = s.mem ∧ u.regs = s.regs) ∧
    (inReset s p = false → inBolt s p = true → ∀ r ∈ rows ++ [(2, .dmaCopy c 4 sel doff addr len)],
      ∃ u, exec r.2 s = .next u ∧ Completed s u c r.1 0xC4 0 0 ∧ u.mem = s.mem ∧ u.regs = s.regs) ∧
    (Accepted s c 2 → s.gpl.dma = [] → s.gpl.waiting = [] → funcOf s p < 8 →
      (0 < n → n ≤ 512 - addr.toNat % 512 → MayReach s p doff.toNat n → s.mem.poison = [] → hasHost s p = true →
        (∃ u v, copy 4 = .next u ∧ u.mem = s.mem ∧ exec .dmaChunk u = .next v ∧ Completed s v c 2 0 0 n ∧ v.gpl.dma = [] ∧
          devRead v doff.toNat n = hostRead s p addr.toNat n ∧
          (∀ a, a < doff.toNat ∨ doff.toNat + n ≤ a → devOct v a = devOct s a) ∧ v.mem.host = s.mem.host) ∧
        (∃ u v, copy 5 = .next u ∧ u.mem = s.mem ∧ exec .dmaChunk u = .next v ∧ Completed s v c 2 0 0 n ∧ v.gpl.dma = [] ∧
          HostPut s v p addr.toNat (viewRead s doff.toNat n) ∧ OnlyHost s v)) ∧
      (0 < n → n ≤ 2 ^ 24 → ¬ MayReach s p doff.toNat n → ∃ u, copy 4 = .next u ∧ Completed s u c 2 0xC6 0 0 ∧
        u.mem = s.mem ∧ u.gpl.dma = [] ∧
        rdCnt u (0xE0800 + p * 0x80 + 8 * 6) = rdCnt s (0xE0800 + p * 0x80 + 8 * 6) + 1) ∧
      (n = 0 ∨ 2 ^ 24 < n → ∃ u, copy 4 = .next u ∧ Completed s u c 2 0xC1 0 0 ∧ u.mem = s.mem ∧ u.gpl.dma = []) ∧
      (∃ u, copy 3 = .next u ∧ Completed s u c 2 0xC1 0 0 ∧ u.mem = s.mem)) ∧
    (s.gpl.dma = [d] → d.cmd = c → d.paused = some t → dmaSides s d d.moved (chunkLen d) = .absent → inReset s p = false →
      let due := t + 100000 * max 1 (rdDev s 0xD0000 % 128) ≤ s.now
      (due → ∃ u, exec (.absentTimeout c) s = .next u ∧ Completed s u c 2 0xC2 0 d.moved ∧ u.gpl.dma = [] ∧ u.mem = s.mem) ∧
      (¬ due → exec (.absentTimeout c) s = .next s))

/-- 14 R307, 10 R223, 02 R38: where the commands of the program stores, of a live microcode load and of module access complete
or begin: PRG_WRITE and PRG_READ on words of the partition's own cluster, MCS_LOAD of the supervisor with an image that is not
refused, MOD_READ and MOD_WRITE of the supervisor on a cage with a module that answers. -/
def Sys2Proof.Claim.storesAndModules : Prop :=
  ∀ (s : State) (c : CmdRef) (cl sp cage page off n : BitVec 8) (woff : BitVec 24) (count : BitVec 16) (addr : BitVec 64)
    (len : BitVec 32) (l : List Octet),
    let p := c.part.toNat
    let k := count.toNat
    let ok := sp.toNat ≤ 1 ∧ 0 < k ∧ k ≤ 4096 ∧ cl.toNat ≤ 15 ∧ woff.toNat + k ≤ (if sp.toNat = 0 then 65536 else 262144) ∧
      clusterOwner s cl.toNat = some p
    let module := cage.toNat ≤ 31 ∧ 0 < n.toNat ∧ mget false s.prt.modules cage.toNat = true
    (Accepted s c 0x80 → ok → ∃ u, exec (.prgWrite c cl sp woff count addr) s = .next u ∧ Completed s u c 0x80 0 0 0) ∧
    (Accepted s c 0x81 → ok → sp = 0 ∨ s.mem.csmBad = [] →
      ∃ u, exec (.prgRead c cl sp woff count addr) s = .next u ∧ Completed s u c 0x81 0 0 (8 * k)) ∧
    (Accepted s c 0xC0 → isSup s p = true → s.far.load = none →
      ∃ u, exec (.mcsLoad c addr len) s = .next u ∧
        match patchRefuse s true (hostRead s p addr.toNat (min len.toNat 7521)) with
        | some status => Completed s u c 0xC0 status 0 0
        | none => ∃ x, u = { s with far := { s.far with load := some x } } ∧ x.cmd = c) ∧
    (Accepted s c 0xC1 → module → n.toNat ≤ 128 → s.gpl.waiting = [] →
      ∃ u, exec (.modRead c cage page off n addr (some l)) s = .next u ∧ Completed s u c 0xC1 0 0 n.toNat) ∧
    (Accepted s c 0xC2 → module → n.toNat ≤ 8 → s.gpl.waiting = [] →
      ∃ u, exec (.modWrite c cage page off n addr true) s = .next u ∧ Completed s u c 0xC2 0 0 0)

/-- 14 R306, R307, R313, R314, R316, 16 R341: the statement of the rings' commands and DMA_COPY, and the one of where the
commands of program stores, microcode loads and module access complete. -/
def Obligations.HostCommands : Prop :=
  Sys2Proof.Claim.hostCommandRules ∧ Sys2Proof.Claim.storesAndModules

/-- 14 R302-R304, R308-R312, 06 R130: what the rings send. TRANSMIT reads a frame of a command that names an enabled egress
queue of the partition into a buffer of the ring's pool and queues it; another queue completes BAD_TARGET, a length 0 or
above 9,212 BAD_OPERAND. HOST_DELIVERY writes a delivery that fits to the oldest supplied buffer and completes it.
LEARN_AGE_FLUSH completes a part-filled buffer after FLUSHT. COMPLETION_WRITE writes the oldest entry with its phase at the
producer index; STATUS_BLOCK_WRITE writes the index at most once per microsecond; MSIX_MESSAGE sends the vector of a ring
whose MCOUNT or MTIME is reached, or holds it pending when masked. -/
def Obligations.RingOutput : Prop :=
  ∀ (s : State) (c : CmdRef) (ts : Bool) (addr : BitVec 64) (len eq ef : BitVec 16) (s1 : State) (a : Nat) (r : BitVec 12)
    (d : Deliv) (b : Supply) (bs : List Supply) (e : Compl) (es : List Compl) (p t : Nat),
    let x := ringSt s r.toNat
    let q := ringCq s r.toNat
    let size := ringSize s r.toNat
    let n := len.toNat
    let mine := c.part.toNat
    let tx := exec (.transmit c false ts addr 0 0 len eq ef) s
    let txEnd := fun (u : State) status => ∃ e, Queued s u (ringCq s c.ring.toNat) e ∧ e.status = status ∧ e.kind = 2 ∧
      e.tag = c.tag.toNat ∧ e.slot = c.slot.toNat
    (InService s mine → hasHost s mine = true → 0 < n → n ≤ 9212 → eq.toNat < 4096 → queueEn s eq.toNat = true →
      queueOwner s eq.toNat = some mine → s.gpl.waiting = [] → queueDepth s eq.toNat + egressPending s eq.toNat < maxDepth s eq.toNat →
      bufAlloc s (dmaAgent s mine) (rdRing s c.ring.toNat 3 % 64) false false = (0, a, s1) → ef = 0 → s.mem.poison = [] →
      ∃ u f, tx = .next u ∧ queueOf u eq.toNat = queueOf s eq.toNat ++ [f] ∧ (∀ j, j ≠ eq.toNat → queueOf u j = queueOf s j) ∧
        f.tx = some c ∧ f.tsReq = ts ∧ f.addr = a ∧ f.plen = n ∧ f.buf = some a ∧
        devRead u a n = hostRead s mine addr.toNat n ∧ u.mem.host = s.mem.host ∧ u.gpl = s.gpl) ∧
    (InService s mine → 0 < n → n ≤ 9212 → 4096 ≤ eq.toNat ∨ queueEn s eq.toNat = false ∨ queueOwner s eq.toNat ≠ some mine →
      ∃ u, tx = .next u ∧ txEnd u 0xC5 ∧ u.mem = s.mem ∧ u.egr = s.egr) ∧
    (InService s mine → n = 0 ∨ 9212 < n → ∃ u, tx = .next u ∧ txEnd u 0xC1 ∧ u.mem = s.mem ∧ u.egr = s.egr) ∧
    (inReset s mine = false → inBolt s mine = true → ∃ u, tx = .next u ∧ txEnd u 0xC4 ∧ u.mem = s.mem ∧ u.egr = s.egr) ∧
    (s.gpl.deliv = [] → exec (.hostDelivery r) s = .next s) ∧
    (s.gpl.deliv = [d] → delivRing s d = some r.toNat → d.buf = none → d.jitem = none → d.done = 0 → InService s d.part →
      hasHost s d.part = true → cqUsable s r.toNat = true → 0 < cqFree s q → q ≠ r.toNat → x.supply = b :: bs →
      64 ≤ b.blen → d.octets.length ≤ b.blen → d.octets.length < 2 ^ 32 → b.addr < 2 ^ 64 →
      ∃ u f, exec (.hostDelivery r) s = .next u ∧ u.gpl.deliv = [] ∧ (ringSt u r.toNat).supply = bs ∧ Queued s u q f ∧
        f.status = 0 ∧ f.kind = delivCompl d.kind ∧ f.tag = b.tag ∧ f.slot = b.slot ∧ f.result = d.result ∧
        f.len = d.octets.length ∧ f.more = false ∧ HostPut s u d.part b.addr d.octets ∧ OnlyHost s u) ∧
    (x.la ≠ [] → x.supply = b :: bs → q ≠ r.toNat →
      let due := x.laFirst + 1000 * max 1 (rdRing s r.toNat 3 % 1024) ≤ s.now
      (due → ∃ u f, exec (.learnAgeFlush r) s = .next u ∧ (ringSt u r.toNat).supply = bs ∧ (ringSt u r.toNat).la = [] ∧
        Queued s u q f ∧ f.kind = 7 ∧ f.status = 0 ∧ f.tag = b.tag ∧ f.len = x.la.length ∧ u.mem = s.mem) ∧
      (¬ due → exec (.learnAgeFlush r) s = .next s)) ∧
    (x.compl = e :: es → ringOwner s r.toNat = some p → inReset s p = false → hasHost s p = true →
      ringKind s r.toNat = 9 → e.reserved = true → e.kind ∈ [3, 4, 5, 6, 7, 10] → x.pidx < 2 * size →
      ∃ u y, exec (.completionWrite r) s = .next u ∧
        HostPut s u p ((ringBase s r.toNat + 32 * (x.pidx % size)) % 2 ^ 64) y ∧ y.length = 32 ∧ OnlyHost s u ∧
        oct y 0 = e.status % 256 ∧ oct y 1 = e.kind ∧ (oct y 2 / 128 = 1 ↔ x.pidx < size) ∧
        fieldBe y 4 2 = e.tag % 65536 ∧ fieldBe y 6 2 = e.slot % 65536 ∧ fieldBe y 16 4 = e.len % 2 ^ 32 ∧
        ringSt u r.toNat = { x with compl := es, pidx := (x.pidx + 1) % (2 * size), resv := x.resv - 1, sbDirty := true,
                                    msiCount := x.msiCount + 1, msiFirst := some (x.msiFirst.getD s.now) } ∧
        ∀ j, j ≠ r.toNat → ringSt u j = ringSt s j) ∧
    (ringOwner s r.toNat = some p → inReset s p = false → hasHost s p = true → x.sbDirty = true →
      let due := ∀ t, x.sbAt = some t → t + 1000 ≤ s.now
      (due → ∃ u, exec (.statusBlockWrite r) s = .next u ∧ OnlyHost s u ∧
        HostPut s u p ((rdPart s p 0x18 / 64 * 64 + rdPart s p 0x1C * 2 ^ 32 + 4 * r.toNat) % 2 ^ 64) (leOctets 4 x.pidx) ∧
        ringSt u r.toNat = { x with sbDirty := false, sbAt := some s.now }) ∧
      (¬ due → exec (.statusBlockWrite r) s = .next s)) ∧
    (ringOwner s r.toNat = some p → inReset s p = false → hasHost s p = true → ringKind s r.toNat = 9 → x.sbDirty = false →
      x.msiFirst = some t →
      let w := rdRing s r.toNat 3
      let due := max 1 (w / 2 ^ 9 % 256) ≤ x.msiCount ∨ t + 1000 * max 1 (w / 2 ^ 17 % 1024) ≤ s.now
      let m := mget ({} : MsixEnt) s.gpl.msix (p * 512 + w % 512)
      (¬ due → exec (.msixMessage r) s = .next s) ∧
      (due → ∃ u, exec (.msixMessage r) s = .next u ∧ ringSt u r.toNat = { x with msiCount := 0, msiFirst := none } ∧
        u.mem = s.mem ∧ (m.masked = false → u.out = s.out ++ [.msix p (w % 512)]) ∧
        (m.masked = true → u.out = s.out ∧ (mget ({} : MsixEnt) u.gpl.msix (p * 512 + w % 512)).pend = true)))

/-- 14 R301-R306, R314, R315, R319, 20 R409, 08 R178, 07 R156: what the rings take in. A nudge with GPL_CTL.MODE 1, or a poll
when its period has passed with MODE 0, begins a doorbell fetch; DOORBELL_FETCH takes each enabled ring's index; arriving
descriptors of a supply ring become its buffers, and a NOP command that arrives completes; SERVICE_EVENT takes an entry of
the service ring's completion ring; a read that gets no completion within its function's timeout ends its copy HOST_ERROR, its fetch, or
the descriptor fetch and the ring's EN; IN_USE_TIMEOUT ends a SEG_PRESENT after 1 ms; RING_KIND_CHANGE sets W3 to
the new kind's reset value, and a later write of W3 stands; PARTITION_STALL declares a stall after STALLT. -/
def Obligations.RingInput : Prop :=
  ∀ (s : State) (part : BitVec 3) (r : BitVec 12) (c : CmdRef) (first n q : Nat) (d : Dma) (e : SvcEvent)
    (es : List SvcEvent) (w : Waiting) (i : Nat) (v : BitVec 32) (k : Nat),
    let p := part.toNat
    let x := ringSt s r.toNat
    let size := ringSize s r.toNat
    let cq := ringCq s r.toNat
    let live := hasHost s p = true ∧ inReset s p = false
    let mode := rdPart s p 4
    let begun := fun (u : State) (at_ : Map Nat) => u = { s with gpl := { s.gpl with
      fetching := s.gpl.fetching ++ [p], polledAt := at_, fetchAt := mset 0 s.gpl.fetchAt p s.now } }
    (live → p ∉ s.gpl.fetching →
      (mode % 2 = 1 → ∃ u, exec (.gplNudge part []) s = .next u ∧ begun u s.gpl.polledAt) ∧
      (mode % 2 = 0 → exec (.gplNudge part []) s = .next s) ∧
      (mode % 2 = 0 → mget 0 s.gpl.polledAt p + 1000 * max 1 (min 100 (mode / 2 % 128)) ≤ s.now →
        ∃ u, exec (.doorbellPoll part []) s = .next u ∧ begun u u.gpl.polledAt ∧ mget 0 u.gpl.polledAt p = s.now) ∧
      (mode % 2 = 1 → exec (.doorbellPoll part []) s = .next s) ∧
      exec (.doorbellFetch part) s = .next s) ∧
    (live → s.gpl.fetching = [p] → s.gpl.fetchMore = [] → (∀ j ∈ ringsOf s p, (ringSt s j).inflight = none) →
      ∃ u, exec (.doorbellFetch part) s = .next u ∧ u.gpl.fetching = [] ∧ u.mem = s.mem ∧ ∀ j ∈ ringsOf s p, ringEn s j = true →
        (ringSt u j).hidx = leNat (hostRead s p (rdPart s p 0x10 / 64 * 64 + rdPart s p 0x14 * 2 ^ 32 + 4 * j) 4) % 2 ^ 17
          % (2 * ringSize s j) ∧
        (ringSt u j).pidx = (ringSt s j).pidx ∧
        (4 ≤ ringKind s j → ringKind s j ≤ 7 → cqUsable s j = true → inBolt s p = false →
          let fresh := min (ringSize s j) (((ringSt u j).hidx + 2 * ringSize s j - (ringSt s j).pidx) % (2 * ringSize s j))
          (ringSt u j).inflight = if fresh = 0 then none else some ((ringSt s j).pidx, fresh))) ∧
    (x.inflight = some (first, n) → ringOwner s r.toNat = some p →
      (4 ≤ ringKind s r.toNat → ringKind s r.toNat ≤ 8 → ∃ u, exec (.descriptorArrival r) s = .next u ∧ u.mem = s.mem ∧
        (ringSt u r.toNat).inflight = none ∧ (ringSt u r.toNat).pidx = (first + n) % (2 * size) ∧
        (ringSt u r.toNat).supply = x.supply ++ (List.range n).map (fun j =>
          let slot := (first + j) % (2 * size) % size
          let l := hostRead s p (ringBase s r.toNat + 64 * slot) 64
          ⟨fieldBe l 0 8, fieldBe l 8 4, fieldBe l 12 2, slot⟩)) ∧
      (∀ l, ringKind s r.toNat = 2 → n = 1 → x.fetched = [] → InService s p → cq ≠ r.toNat →
        l = hostRead s p (ringBase s r.toNat + 64 * (first % (2 * size) % size)) 64 → oct l 0 = 0 → oct l 1 = 0 →
        ∃ u f, exec (.descriptorArrival r) s = .next u ∧ Queued s u cq f ∧ f.status = 0 ∧ f.kind = 1 ∧
          f.tag = fieldBe l 2 2 ∧ f.slot = first % (2 * size) % size ∧ (ringSt u r.toNat).inflight = none ∧
          (ringSt u r.toNat).pidx = (first + 1) % (2 * size) ∧ u.mem = s.mem) ∧
      (ctoOver s p x.fetchAt = false → exec (.pcieCompletionTimeout (.descriptors r)) s = .next s) ∧
      (ctoOver s p x.fetchAt = true → ∃ u f, exec (.pcieCompletionTimeout (.descriptors r)) s = .next u ∧ Queued s u cq f ∧ f.status = 0xC3 ∧
        f.tag = 0xFFFF ∧ f.slot = first % size ∧ ringEn u r.toNat = false ∧ u.mem = s.mem)) ∧
    (s.gpl.svcq = e :: es → supRing s 3 = some r.toNat → cqUsable s r.toNat = true → 0 < cqFree s cq → inReset s 0 = false →
      ∃ u f, exec .serviceEvent s = .next u ∧ u.gpl.svcq = es ∧ Queued s u cq f ∧ f.status = e.code ∧ f.kind = 10 ∧
        f.result = e.result ∧ f.len = e.lost ∧ u.mem = s.mem) ∧
    (s.gpl.svcq = [] → exec .serviceEvent s = .next s) ∧
    (s.gpl.dma = [d] → d.cmd = c → d.mode = 0 → d.paused = none → ctoOver s c.part.toNat d.readAt = true →
      inReset s c.part.toNat = false → ∃ u, exec (.pcieCompletionTimeout (.command c)) s = .next u ∧ Completed s u c 2 0xC3 0 d.moved ∧ u.gpl.dma = [] ∧
        u.mem = s.mem) ∧
    (s.gpl.fetching = [p] → s.gpl.fetchMore = [] →
      let waited := ctoOver s p (mget 0 s.gpl.fetchAt p)
      (waited = false → exec (.pcieCompletionTimeout (.doorbell part)) s = .next s) ∧
      (waited = true → ∃ u, exec (.pcieCompletionTimeout (.doorbell part)) s = .next u ∧ u.gpl.fetching = [] ∧
        u.gpl.fetchMore = [] ∧ u.gpl.rings = s.gpl.rings ∧ u.mem = s.mem)) ∧
    (∀ at_, ctoOver s p at_ = true ↔ at_ + (match (mget ({} : PcieFn) s.gpl.fns p).timeout.toNat with
      | 1 => 100000
      | 2 => 8000000
      | 5 => 25000000
      | 6 => 160000000
      | _ => 40000000) ≤ s.now) ∧
    (s.gpl.waiting = [w] → w.cmd = c → w.what = .segPresent q i → inReset s c.part.toNat = false →
      ((segEnt s q i).w3.getLsbD 7 = false → w.since + 1000000 ≤ s.now →
        ∃ u, exec (.inUseTimeout c) s = .next u ∧ Completed s u c 0x41 0x74 0 0 ∧ u.gpl.waiting = [] ∧ u.mem = s.mem) ∧
      (s.now < w.since + 1000000 → exec (.inUseTimeout c) s = .next s)) ∧
    (live → k = rdPart s p 8 % 4096 → ringOwner s k = some p → ringEn s k = false → ringBusy s k = false →
      v.getLsbD 8 = false → ringKind s k ≠ v.toNat / 16 % 16 →
      ∃ u, exec (.ringKindChange part v) s = .next u ∧ rdRing u k 2 = v.toNat % 2 ^ 23 ∧ u.mem = s.mem ∧
        rdRing u k 3 = (if v.toNat / 16 % 16 = 9 then 0x20200 else if v.toNat / 16 % 16 = 7 then 0x64 else 0) ∧
        (∀ j, j ≠ k → ∀ m, m < 8 → rdRing u j m = rdRing s j m) ∧
        ∀ later : BitVec 32, ∃ y, exec (.registerWrite (.part part) 0x2C 15 later) u = .next y ∧
          rdRing y k 3 = later.toNat % 2 ^ 27 ∧ rdRing y k 2 = rdRing u k 2) ∧
    (stalled s p = true → flag s (0x60040 + 4 * p) 0 = true →
      (mfind s.hlt.stallSince p = none → ∃ u, exec (.partitionStall part) s = .next u ∧
        u = { s with hlt := { s.hlt with stallSince := mput s.hlt.stallSince p s.now } }) ∧
      (∀ t, mfind s.hlt.stallSince p = some t → t + 100000 * max 1 (rdDev s (0x60040 + 4 * p) / 4 % 1024) ≤ s.now →
        s.gpl.svcq.length < 4096 → ∃ u, exec (.partitionStall part) s = .next u ∧ flag u (0x60060 + 4 * p) 0 = true ∧
          u.mem = s.mem ∧ (flag s (0x60040 + 4 * p) 1 = false → ∃ f, u.gpl.svcq = s.gpl.svcq ++ [f] ∧ f.code = 2) ∧
          (flag s (0x60040 + 4 * p) 1 = true → inBolt u p = true)))

namespace Sys2Proof.Claim

/-- The device-window registers whose words a write stores by their RW bits alone, with no guard and no effect of its own
(20 R403, R405). -/
def plainRegs : List Reg :=
  [.clkTfreq, .clkClus, .farCfg, .farThr, .prtI2c, .prtAdm, .prtFc, .prtPcpmap, .prtTslat, .parPort, .parSig, .parExt,
   .parNode, .parTrn, .stfCfg, .srcCtl, .srcProf, .tblL2hold, .tblQuota, .tblCls, .schPart, .coreCfg] ++
  [.coreCrcpoly, .coreCrcw, .chnCfg, .hspPart, .bufTagbase, .bufIpool, .egrQshp, .egrPshp, .egrPort, .gplCfg, .pwrRein]

/-- The supervisor's host reaches the device window (00 R5, 20 R402). -/
abbrev SupReaches (s : State) : Prop := supBound s = true ∧ inReset s 0 = false

/-- A SETUP_WRITE or other violation of kind `k` was counted against partition `p` (17 R365). -/
abbrev Counted (s u : State) (p k : Nat) : Prop :=
  rdCnt u (0xE0800 + p * 0x80 + 8 * k) = rdCnt s (0xE0800 + p * 0x80 + 8 * k) + 1

end Sys2Proof.Claim

/-- 14 R307, 10 R223, Table 10-6, 02 R38, R39: PRG_WRITE stores words of 8 octets in an instruction store or CSM of the
partition's cluster and PRG_READ writes them to the host; a cluster of another partition is refused ADDR_FAULT. MCS_LOAD
checks its image and either refuses it with the status of Table 10-6 and no effect, or begins to load the patch it holds;
Bolt, a partition that is not the supervisor and a load under way have statuses of their own. MOD_READ and MOD_WRITE move a
module's octets with its MODSEL_N alone asserted, end NO_MODULE without one and MODULE_NAK without an acknowledgment. -/
def Obligations.ServiceCommands : Prop :=
  ∀ (s : State) (c : CmdRef) (cl sp cage page off n : BitVec 8) (woff : BitVec 24) (count : BitVec 16) (addr : BitVec 64)
    (len : BitVec 32) (l : List Octet),
    let p := c.part.toNat
    let k := count.toNat
    let ok := sp.toNat ≤ 1 ∧ 0 < k ∧ k ≤ 4096 ∧ cl.toNat ≤ 15 ∧ woff.toNat + k ≤ (if sp.toNat = 0 then 65536 else 262144)
    let word := fun (u : State) (c w : Nat) => if sp.toNat = 0 then istWord u c w else csmWord u c w
    let img := hostRead s p addr.toNat (min len.toNat 7521)
    let module := cage.toNat ≤ 31 ∧ 0 < n.toNat
    let bus := fun (e : Bool → OutEvent) => [.modSel cage.toNat true, e (flag s 0x10080 0), .modSel cage.toNat false]
    let sent := fun fast => OutEvent.i2cWrite fast cage.toNat page.toNat off.toNat (hostRead s p addr.toNat n.toNat)
    (ok → clusterOwner s cl.toNat = some p →
      (Accepted s c 0x80 → ∃ u, exec (.prgWrite c cl sp woff count addr) s = .next u ∧ Completed s u c 0x80 0 0 0 ∧
        (∀ j, j < k → word u cl.toNat (woff.toNat + j) =
          BitVec.ofNat 36 (beNat (hostRead s p (addr.toNat + 8 * j) 8))) ∧
        (∀ j, j < woff.toNat ∨ woff.toNat + k ≤ j → j < 65536 → word u cl.toNat j = word s cl.toNat j) ∧
        u.mem.dev = s.mem.dev ∧ u.mem.clm = s.mem.clm ∧ u.mem.segs = s.mem.segs ∧ u.mem.host = s.mem.host) ∧
      (Accepted s c 0x81 → hasHost s p = true → s.mem.csmBad = [] →
        ∃ u, exec (.prgRead c cl sp woff count addr) s = .next u ∧ Completed s u c 0x81 0 0 (8 * k) ∧ OnlyHost s u ∧
          HostPut s u p addr.toNat ((List.range k).flatMap (fun j => beOctets 8 (word s cl.toNat (woff.toNat + j)).toNat)))) ∧
    (ok → ∀ q, clusterOwner s cl.toNat = some q → q ≠ p →
      ∀ j ∈ [(0x80, Instr.prgWrite c cl sp woff count addr), (0x81, .prgRead c cl sp woff count addr)], Accepted s c j.1 →
      ∃ u, exec j.2 s = .next u ∧ Completed s u c j.1 0xC6 0 0 ∧ u.mem = s.mem ∧ Counted s u p 6) ∧
    (inReset s p = false → opcRefused s c 0xC0 = false →
      (inBolt s p = true → ∃ u, exec (.mcsLoad c addr len) s = .next u ∧ Completed s u c 0xC0 0x86 0 0 ∧ u.far = s.far) ∧
      (inBolt s p = false → isSup s p = false →
        ∃ u, exec (.mcsLoad c addr len) s = .next u ∧ Completed s u c 0xC0 0x85 0 0 ∧ u.far = s.far) ∧
      (inBolt s p = false → isSup s p = true → s.far.load.isSome = true →
        ∃ u, exec (.mcsLoad c addr len) s = .next u ∧ Completed s u c 0xC0 0x84 0 0 ∧ u.far = s.far) ∧
      (inBolt s p = false → isSup s p = true → s.far.load = none →
        (img.length < 96 → patchRefuse s true img = some 0x83) ∧
        ∃ u, exec (.mcsLoad c addr len) s = .next u ∧ u.mem = s.mem ∧
          match patchRefuse s true img with
          | some status => Completed s u c 0xC0 status 0 0 ∧ u.far = s.far ∧ 0x80 ≤ status ∧ status ≤ 0x83
          | none => beNat (img.take 4) = 0x4D435054 ∧ oct img 7 = s.far.pgrev ∧
            img.length = 96 + 4 * oct img 10 + 14 * fieldBe img 8 2 ∧
            ∃ x, u = { s with far := { s.far with load := some x } } ∧
              x.cmd = c ∧ x.done = [] ∧ x.patch.id = fieldBe img 4 2 ∧ x.patch.mregs.length = oct img 10 ∧
              (∀ m, m < oct img 10 → x.patch.mregs[m]? = some (fieldBe img (32 + 4 * m) 2, fieldBe img (34 + 4 * m) 2)) ∧
              ∀ m, m < fieldBe img 8 2 →
                mget 0 x.patch.ram m = BitVec.ofNat 112 (fieldBe img (32 + 4 * oct img 10 + 14 * m) 14))) ∧
    (s.gpl.waiting = [] → Accepted s c 0xC1 → module → n.toNat ≤ 128 →
      (mget false s.prt.modules cage.toNat = true → hasHost s p = true →
        (∃ u, exec (.modRead c cage page off n addr (some l)) s = .next u ∧ Completed s u c 0xC1 0 0 n.toNat ∧ OnlyHost s u ∧
          HostPut s u p addr.toNat (fit n.toNat l) ∧
          u.out = s.out ++ bus (fun fast => .i2cRead fast cage.toNat page.toNat off.toNat n.toNat)) ∧
        (∃ u, exec (.modRead c cage page off n addr none) s = .next u ∧ Completed s u c 0xC1 0xCA 0 0 ∧ u.mem = s.mem)) ∧
      (mget false s.prt.modules cage.toNat = false → ∃ u, exec (.modRead c cage page off n addr none) s = .next u ∧
        Completed s u c 0xC1 0xC9 0 0 ∧ u.mem = s.mem)) ∧
    (s.gpl.waiting = [] → Accepted s c 0xC2 → module → n.toNat ≤ 8 → mget false s.prt.modules cage.toNat = true →
      (∃ u, exec (.modWrite c cage page off n addr true) s = .next u ∧ Completed s u c 0xC2 0 0 0 ∧ u.mem = s.mem ∧
        u.out = s.out ++ bus sent) ∧
      (∃ u, exec (.modWrite c cage page off n addr false) s = .next u ∧ Completed s u c 0xC2 0xCA 0 0 ∧ u.mem = s.mem ∧
        u.out = s.out ++ bus sent))

/-- 20 R402-R407, R413, 18 R387, 17 R365: a write by the supervisor of a whole word of a plain register changes its RW bits
and nothing else; a write that does not cover its word, or of a reserved offset, is ignored and counted SETUP_WRITE; a
partition's host writes the registers of its own window, and a write past it, to the device window, is refused and counted
FOREIGN; a partition in reset takes no write. SMBUS_REGISTER_READ answers a
stored register below 0x10000 and zero above. FIRMWARE_UPDATE takes the image from the supervisor's host memory,
CONFIGURATION_SAVE the covered words, a binding comes over SMBus while none is sealed, and FLASH_WRITE_END ends each. -/
def Obligations.RegistersAndFlash : Prop :=
  ∀ (s : State) (o : BitVec 20) (a : RegAt) (v : BitVec 32) (part : BitVec 3) (ben : BitVec 4) (f b : Octet) (wide : BitVec 32),
    let write := fun path => exec (.registerWrite path o ben v) s
    let busy := fun (u : State) k => u.hkc.updBusy = some k ∧ u.hkc.updStatus = 1 ∧ u.mem = s.mem
    let len := rdDev s 0x18 % 2 ^ 24
    let idle := s.hkc.updBusy = none ∧ s.pins.flashWpN = true
    let p := part.toNat
    (SupReaches s → ben = 15 → o.toNat % 4 = 0 → regFind o.toNat = some a → a.d.reg ∈ plainRegs →
      (isParseReg o.toNat = true → parSwapping s = false) →
      ∃ u, write .device = .next u ∧ u = { s with regs := { s.regs with dev := u.regs.dev } } ∧
        rdDev u o.toNat = (rdDev s o.toNat &&& (0xFFFFFFFF ^^^ devMask o.toNat)) ||| (v.toNat &&& devMask o.toNat) ∧
        ∀ j, j ≠ o.toNat → rdDev u j = rdDev s j) ∧
    (SupReaches s → ben ≠ 15 ∨ regFind (o.toNat / 4 * 4) = none →
      ∃ u, write .device = .next u ∧ Counted s u 0 7 ∧ u.regs.dev = s.regs.dev ∧ u.mem = s.mem) ∧
    (¬ SupReaches s → supBound s = true ∨ inReset s 0 = true ∨ hasHost s 0 = false → write .device = .next s) ∧
    (supBound s = false → inReset s 0 = false → hasHost s 0 = true →
      ∃ u, write .device = .next u ∧ Counted s u 0 6 ∧ u.regs.dev = s.regs.dev ∧ u.mem = s.mem) ∧
    (inReset s p = false → hasHost s p = true → isSup s p = false → 0x10000 ≤ o.toNat →
      ∃ u, write (.part part) = .next u ∧ Counted s u p 6 ∧ u.regs.dev = s.regs.dev ∧ u.regs.part = s.regs.part ∧
        u.mem = s.mem) ∧
    (inReset s p = true → write (.part part) = .next s ∧ write (.bar2 part) = .next s) ∧
    (inReset s p = false → hasHost s p = true → o = 0xC →
      (ben = 15 → ∃ u, write (.part part) = .next u ∧ rdPart u p 0xC = v.toNat % 2 ^ 24 ∧
        u = { s with regs := { s.regs with part := u.regs.part } }) ∧
      (ben ≠ 15 → ∃ u, write (.part part) = .next u ∧ Counted s u p 7 ∧ u.regs.part = s.regs.part)) ∧
    (s.pins.vaux = true →
      (∀ k ∈ [0x84, 0xC0, 0x100, 0x108], wide.toNat = k →
        exec (.smbusRegisterRead wide) s = .next { s with pins := { s.pins with smbOut := BitVec.ofNat 32 (rdDev s k) } }) ∧
      (0x10000 ≤ wide.toNat % 2 ^ 24 →
        exec (.smbusRegisterRead wide) s = .next { s with pins := { s.pins with smbOut := 0 } })) ∧
    (SupReaches s → idle → v.getLsbD 0 = true →
      (0 < len → s.hkc.imageB = false → ∃ u, exec (.firmwareUpdate v) s = .next u ∧ busy u 0 ∧
        u.flash = { s.flash with imgB := false, image := hostRead s 0 (rdDev s 0x10 + rdDev s 0x14 * 2 ^ 32) len }) ∧
      (len = 0 → ∃ u, exec (.firmwareUpdate v) s = .next u ∧ u.hkc = { s.hkc with updStatus := 5 } ∧ u.flash = s.flash) ∧
      (sealedCopy s = none → ∃ u, exec (.configurationSave v) s = .next u ∧ busy u 1 ∧ u.flash.copyB = s.flash.copyB ∧
        u.flash.copyA.words = saveWords { s with regs := u.regs } ∧ u.flash.copyA.valid = false)) ∧
    (s.pins.vaux = true → idle → sealedCopy s = none → f.toNat ≤ 7 →
      ∃ u x, exec (.smbusBindingWrite 0xB1 [f, b]) s = .next u ∧ busy u 3 ∧
        mget 0 u.flash.copyA.words 8 = BitVec.ofNat 32 (f.toNat + 8 + 16 * (b.toNat % 16)) ∧
        (s.hkc.warmPend = false → exec (.flashWriteEnd true) u = .next x ∧ x.flash.copyA.valid = true ∧
          x.flash.copyB = x.flash.copyA ∧ x.hkc.updBusy = none ∧ x.hkc.updStatus = 2)) ∧
    (s.hkc.warmPend = false →
      (s.hkc.updBusy = none → exec (.flashWriteEnd true) s = .next s ∧ exec (.flashWriteEnd false) s = .next s) ∧
      (s.hkc.updBusy = some 0 → s.hkc.imageB = false →
        exec (.flashWriteEnd true) s = .next { s with
          flash := { s.flash with imgB := true, preferB := true, patchB := Config.imagePatch s.flash.image },
          hkc := { s.hkc with updBusy := none, updStatus := 2 } } ∧
        exec (.flashWriteEnd false) s = .next { s with hkc := { s.hkc with updBusy := none, updStatus := 3 } }))

namespace Sys2Proof.Claim

/-- A key that is loaded, as KEY_QUERY shows it (13 Table 13-8): usage, algorithm, span, version, check value, load time. -/
def keyRecord (k : KeyEnt) : List Octet :=
  beOctets 2 k.usage ++ beOctets 1 k.alg ++ beOctets 1 k.span ++ fit 2 k.ver ++ fit 5 k.kcv ++ zeros 1 ++
    beOctets 8 k.loaded ++ zeros 12

/-- Only the keys with the slots in error, the KBPKs and their generations differ in the crypto block. -/
def OnlyKeys (s u : State) : Prop :=
  u.cry = { s.cry with keys := u.cry.keys, kbpk := u.cry.kbpk, kgen := u.cry.kgen, rbgCount := u.cry.rbgCount,
                          badSlots := u.cry.badSlots }

end Sys2Proof.Claim

/-- 13 R279, R281, R282, Tables 13-5 to 13-8: the key store. KEY_LOAD opens a key block under the partition's KBPK and stores
what it holds at an aligned, empty slot of the partition's range, with its check value and the time; without a KBPK or with
a block that does not open it answers a status and stores nothing. KEY_DELETE removes a key, KEY_QUERY writes its
attributes, or zeros for an empty slot; a slot outside the range is refused and counted FOREIGN. KEY_KEKSET, of the
supervisor alone and while the random bit generator runs, gives a partition a new KBPK of 32 octets and answers the host. -/
def Obligations.KeyCommands : Prop :=
  ∀ (s : State) (c : CmdRef) (slot len : BitVec 16) (flags part : BitVec 8) (addr : BitVec 64) (k : KeyEnt) (b : KeyBlock)
    (x : KeyKind) (kbpk : List Octet) (q : Nat × Nat),
    let p := c.part.toNat
    let i := slot.toNat
    let mine := keyOwner s i = some p
    let others := fun (u : State) => ∀ j, j ≠ i → mfind u.cry.keys j = mfind s.cry.keys j
    let load := exec (.keyLoad c slot flags len addr) s
    (Accepted s c 0x70 → mine →
      (mfind s.cry.kbpk p = none → ∃ u, load = .next u ∧ Completed s u c 0x70 0xB9 0 0 ∧ u.cry = s.cry) ∧
      (mfind s.cry.kbpk p = some kbpk →
        (openBlock kbpk (hostRead s p addr.toNat len.toNat) = none →
          ∃ u, load = .next u ∧ Completed s u c 0x70 0xB8 0 0 ∧ u.cry = s.cry) ∧
        (openBlock kbpk (hostRead s p addr.toNat len.toNat) = some b → classifyBlock b = .ok x → b.opts = [] →
          i % x.span = 0 → spanMine s p i x.span = true →
          (keysIn s i x.span = [] → ∃ u, load = .next u ∧ Completed s u c 0x70 0 0 0 ∧ OnlyKeys s u ∧ others u ∧ u.mem = s.mem ∧
            ∃ e, mfind u.cry.keys i = some e ∧ e.part = p ∧ e.usage = x.usage ∧ e.alg = x.alg ∧ e.span = x.span ∧
              e.mat = b.key ∧ e.ver = b.ver ∧ e.exportability = b.exportability ∧ e.kcv = keyKcv x.alg b.key ∧ e.loaded = tai s) ∧
          (keysIn s i x.span ≠ [] → flags.getLsbD 0 = false →
            ∃ u, load = .next u ∧ Completed s u c 0x70 0xBA 0 0 ∧ u.cry = s.cry)))) ∧
    (mine → mfind s.cry.keys i = some k →
      (Accepted s c 0x71 → ∃ u, exec (.keyDelete c slot) s = .next u ∧ Completed s u c 0x71 0 0 0 ∧ OnlyKeys s u ∧ others u ∧
        mfind u.cry.keys i = none ∧ u.mem = s.mem) ∧
      (Accepted s c 0x72 → hasHost s p = true → ∃ u, exec (.keyQuery c slot addr) s = .next u ∧
        Completed s u c 0x72 0 0 32 ∧ OnlyHost s u ∧ HostPut s u p addr.toNat (keyRecord k) ∧ u.cry = s.cry)) ∧
    (mine → mfind s.cry.keys i = none → keyCovering s i = none →
      (Accepted s c 0x71 → ∃ u, exec (.keyDelete c slot) s = .next u ∧ Completed s u c 0x71 0xB1 0 0 ∧ u.cry = s.cry) ∧
      (Accepted s c 0x72 → hasHost s p = true → ∃ u, exec (.keyQuery c slot addr) s = .next u ∧
        Completed s u c 0x72 0 0 32 ∧ HostPut s u p addr.toNat (zeros 32))) ∧
    (¬ mine → ∀ r ∈ [(0x70, Instr.keyLoad c slot flags len addr), (0x71, .keyDelete c slot), (0x72, .keyQuery c slot addr)],
      Accepted s c r.1 → ∃ u, exec r.2 s = .next u ∧ Completed s u c r.1 0xB1 0 0 ∧ u.cry = s.cry ∧ u.mem = s.mem ∧
        Counted s u p 6) ∧
    (Accepted s c 0x73 →
      let set := exec (.keyKekset c part addr) s
      (isSup s p = false → ∃ u, set = .next u ∧ Completed s u c 0x73 0xBB 0 0 ∧ u.cry = s.cry) ∧
      (isSup s p = true → part.toNat ≤ 7 →
        (s.cry.rbgRun = false → ∃ u, set = .next u ∧ Completed s u c 0x73 0xB7 0 0 ∧ u.cry = s.cry) ∧
        (s.cry.rbgRun = true → p256Read (hostRead s p addr.toNat 64) = some q →
          ∃ u l y, set = .next u ∧ Completed s u c 0x73 0 0 0 ∧ OnlyKeys s u ∧ u.cry.keys = s.cry.keys ∧ OnlyHost s u ∧
            HostPut s u p ((addr.toNat + 64) % 2 ^ 64) l ∧ l.length = 136 ∧ mfind u.cry.kbpk part.toNat = some y ∧
            y.length = 32 ∧ mget 0 u.cry.kgen part.toNat = mget 0 s.cry.kgen part.toNat + 1 ∧
            ∀ j, j ≠ part.toNat → mfind u.cry.kbpk j = mfind s.cry.kbpk j)))

namespace Sys2Proof.Claim

/-- The rows of Table 13-3 with the OP of each. -/
def engineRows (t : Thr) (tag : BitVec 2) (blk w : BitVec 36) : List (Nat × Instr) :=
  [(0x01, .sha256 t tag blk w), (0x02, .hmacGen t tag blk w), (0x03, .hmacVer t tag blk w), (0x04, .cmacGen t tag blk w),
   (0x05, .cmacVer t tag blk w), (0x06, .gcmEnc t tag blk w), (0x07, .gcmDec t tag blk w), (0x08, .tdesEnc t tag blk w),
   (0x09, .tdesDec t tag blk w), (0x0A, .mac3Gen t tag blk w), (0x0B, .mac3Ver t tag blk w), (0x0C, .kwrap t tag blk w),
   (0x0D, .kunwrap t tag blk w), (0x10, .ecdsaVer t tag blk w), (0x11, .ecdsaSign t tag blk w),
   (0x12, .ed25519Ver t tag blk w), (0x13, .rsaVer t tag blk w), (0x14, .rsaSign t tag blk w), (0x18, .random t tag blk w)]

/-- The state a bundle of thread `t` issues in: results whose turn has come have landed (08 R161). -/
def turned (s : State) (t : Thr) : State := updCtx s t.toNat (fun c => c.turn)

/-- What the tag of an engine request has to deliver to the window when its helper completes. -/
def Delivers (u : State) (t tag : Nat) (win : List (Nat × List Octet)) : Prop :=
  ∃ x, mfind (thr u t).ctx.tags tag = some x ∧ x.kind = .crypt ∧ x.ready = true ∧ x.win = win

end Sys2Proof.Claim

/-- 13 R271-R277, Tables 13-1 to 13-3: the engines. A CRYPT row whose block lies in the window and whose references pass
queues its request at its class and starts its tag; a busy tag makes it wait; a reference that fails is a violation and
completes REF. ENGINE_REQUEST_COMPLETE answers the oldest request of the highest priority of its class: a digest or MAC for
TAG, an output string, or a verification, each by its algorithm; RANDOM gives the octets asked for; two failed self-checks
give ENGINE_ERR; a key the slot does not hold BAD_SLOT, a slot in error POISON; with fewer engines in service than the
operation takes, the request waits. -/
def Obligations.CryptoEngines : Prop :=
  ∀ (s : State) (t : Thr) (tag : BitVec 2) (blk w : BitVec 36) (r : EngReq) (more : List EngReq) (pk : Bool) (key : List Octet)
    (n : BitVec 2) (y : Tag),
    let b := (ctxNow s t).winRead blk.toNat 64
    let free := mfind (ctxNow s t).tags tag.toNat = none
    let fits := blk.toNat + 64 ≤ 512
    let stepped := fun (u : State) => (thr u t.toNat).ctx.pc = (ctxNow s t).pc + 1 ∧ u.mem = s.mem ∧
      ∀ k, k ≠ t.toNat → thr u k = thr s k
    (MayIssue s t → ∀ x ∈ engineRows t tag blk w,
      (¬ free → ∃ u, exec x.2 s = .next u ∧ (thr u t.toNat).ctx = ctxNow s t ∧ u.cry = s.cry ∧ u.mem = s.mem) ∧
      (free → fits → (∀ f, dataRef (turned s t) t.toNat x.1 b = some f ∨ outRef (turned s t) t.toNat x.1 b = some f →
          ∃ sp a, f.chk = .ok sp a) →
        ∃ u q z, exec x.2 s = .next u ∧ stepped u ∧ u.cry.queue = insertBy (·.prio) q s.cry.queue ∧ q.op = x.1 ∧ q.block = b ∧
          q.pk = decide (0x10 ≤ x.1 ∧ x.1 ≤ 0x14) ∧ q.thread = t.toNat ∧ q.tag = tag.toNat ∧ q.blockOff = blk.toNat ∧
          mfind (thr u t.toNat).ctx.tags tag.toNat = some z ∧ z.kind = .crypt ∧ z.ready = false ∧
          (thr u t.toNat).ctx.ev.getLsbD tag.toNat = false) ∧
      (free → fits → ∀ f k p, dataRef (turned s t) t.toNat x.1 b = some f → f.chk = .bad k → thrPart s t.toNat = some p →
        ∃ u, exec x.2 s = .next u ∧ stepped u ∧ u.cry.queue = s.cry.queue ∧ Counted s u p k ∧
          Delivers u t.toNat tag.toNat [(blk.toNat, [0xB5])])) ∧
    ((∀ q ∈ s.cry.queue, q.pk ≠ pk) → exec (.engineRequestComplete pk n) s = .next s) ∧
    (∀ e, e ∈ enginesOf s pk ↔ e ∈ (if pk then ((List.range 26).filter (fun e => !s.cry.pkRetired.contains e)).take 24
      else ((List.range 17).filter (fun e => !s.cry.symRetired.contains e)).take 16)) ∧
    (s.cry.queue = r :: more → r.pk = pk → (enginesOf s pk).length < (if r.op = 0x10 ∨ r.op = 0x12 then 2 else 1) →
      exec (.engineRequestComplete pk n) s = .next s) ∧
    (s.cry.queue = r :: more → r.pk = pk → 2 ≤ (enginesOf s pk).length → r.task = none → r.outWin = true → r.poison = false → r.part < 8 →
      mfind (thr s r.thread).ctx.tags r.tag = some y → y.kind = .crypt →
      let head := [(r.blockOff, [(0 : Octet)])]
      let done := fun (m : BitVec 2) win => ∃ u, exec (.engineRequestComplete pk m) s = .next u ∧ u.cry.queue = more ∧
        u.cry.keys = s.cry.keys ∧ u.mem = s.mem ∧ Delivers u r.thread r.tag win
      let d := r.data
      let len := fieldBe r.block 6 2
      (2 ≤ n.toNat → done n [(r.blockOff, [0xBD])]) ∧
      (lengthOk r.op r.block = true → n.toNat < 2 →
        (r.op = 0x01 → done n ((r.blockOff + 32, sha256 d) :: head)) ∧
        (r.op = 0x18 → s.cry.rbgRun = false → done n [(r.blockOff, [0xB7])]) ∧
        (r.op = 0x18 → s.cry.rbgRun = true → ∃ l, l.length = len ∧ done n ((r.outAddr, l) :: head)) ∧
        (∀ e use algs, opKey r.op = some (use, algs) → keyOwner s (fieldBe r.block 2 2) = some r.part →
          mfind s.cry.keys (fieldBe r.block 2 2) = some e → key = e.mat →
          (e.usage.testBit use = false ∨ e.alg ∉ algs → done n [(r.blockOff, [0xB2])]) ∧
          (e.usage.testBit use = true → e.alg ∈ algs →
            (∀ z ∈ [(0x02, hmac key d), (0x04, aesCmac key d), (0x0A, mac3 (blkPad2 r.block) key d)], r.op = z.1 → z.2 ≠ [] →
              done n ((r.blockOff + 32, z.2) :: head)) ∧
            (∀ z ∈ [(0x08, cbcEnc 8 (tdesEnc key) (d.length / 8) d (octs r.block 20 8)),
                (0x09, cbcDec 8 (tdesDec key) (d.length / 8) d (octs r.block 20 8)), (0x0C, kwrap key d),
                (0x11, ecdsaSign (beNat key) (if blkPrehash r.block then fit 32 d else sha256 d))],
              r.op = z.1 → z.2 ≠ [] → done n ((r.outAddr, z.2) :: head)) ∧
            (∀ z ∈ [(0x10, ecdsaVerify key (if blkPrehash r.block then fit 32 d else sha256 d) r.sig),
                (0x12, ed25519Verify key d r.sig)], r.op = z.1 → blkPrehash r.block = false →
              done n [(r.blockOff, [if z.2 then 0 else 0xB4])]))) ∧
        (opKey r.op ≠ none → keyOwner s (fieldBe r.block 2 2) = some r.part →
          mfind s.cry.keys (fieldBe r.block 2 2) = none →
          done n [(r.blockOff, [if (fieldBe r.block 2 2) ∈ s.cry.badSlots then 0xB6 else 0xB1])])))

/-- 13 R278, R286-R294, Table 13-13, 14 R307: the random bit generator and the audit journal. RBG_RESEED restarts the count
after 65,536 requests or 1 s; a health failure stops the output and tells the supervisor, a passed start-up test starts it.
The oldest record of the intake that no earlier one of its order domain holds back joins the open block and stands in its
slot of the region, and the 1,024th seals the block, whose header stands in its slot; a seal closes the open block under the next
number, chained to the block before by PREV; JNL_SEAL seals at the supervisor's wish, SEAL_TIMER after SEALT, and a block
without a record is never sealed; HEARTBEAT adds a record when none has entered for HBEAT; enabling the journal writes a
genesis block; BLOCK_EXPORT hands the oldest block to the journal ring; JNL_CERT writes the certificate chain. -/
def Obligations.RandomAndJournal : Prop :=
  ∀ (s : State) (c : CmdRef) (addr : BitVec 64) (len : BitVec 32) (rec : JPend) (more : List JPend) (v : BitVec 32)
    (b : JBlock) (r : Nat),
    let p := c.part.toNat
    let j := s.jnl
    let cfg := rdDev s 0xC0000
    let on := cfg % 2 = 1
    let sealed_ := fun (u : State) (recs : List (List Octet)) (t : Nat) => ∃ x, u.jnl = { j with
        intake := u.jnl.intake, firstAt := u.jnl.firstAt, lastEntry := u.jnl.lastEntry, opened := [], topen := t,
        sealed := j.sealed ++ [x], blockNo := j.blockNo + 1, prev := sha256 x.header, lost := 0 } ∧
      x.no = j.blockNo + 1 ∧ x.recs = recs ∧ x.header.take 4 = [0x4A, 0x4E, 0x4C, 0x42] ∧
      fieldBe x.header 8 8 = (j.blockNo + 1) % 2 ^ 64 ∧ (x.header.drop 48).take 32 = fit 32 j.prev ∧
      (s.mem.poison = [] → devRead u (jnlBase s + 256 * ((j.blockNo + 1) % 16320)) x.header.length = x.header)
    let onlyDev := fun (u : State) => u.mem = { s.mem with dev := u.mem.dev, poison := u.mem.poison }
    let slot := jnlBase s + 0x400000 + 65536 * ((j.blockNo + 1) % 16320) + 64 * j.opened.length
    (65536 ≤ s.cry.rbgCount ∨ s.cry.rbgSince + 1000000000 ≤ s.now →
      exec .rbgReseed s = .next { s with cry := { s.cry with rbgCount := 0, rbgSince := s.now } }) ∧
    (s.cry.rbgCount < 65536 → s.now < s.cry.rbgSince + 1000000000 → exec .rbgReseed s = .next s) ∧
    (∃ u, exec .rbgHealthFailure s = .next u ∧ u.cry = { s.cry with rbgRun := false } ∧
      (s.gpl.svcq.length < 4096 → u.gpl.svcq.map (·.code) = s.gpl.svcq.map (·.code) ++ [5])) ∧
    exec .rbgStartupPass s = .next { s with cry := { s.cry with rbgRun := true } } ∧
    ((∀ x ∈ j.intake, entryFree s x = false) → exec .journalRecordEntry s = .next s) ∧
    (∀ x ∈ j.intake, x.place = none → entryFree s x = true) ∧
    (on → j.intake = rec :: more → entryFree s rec = true → rec.bolt = false → rec.lat = none → j.sealed.length < 16320 →
      (j.opened.length + 1 < 1024 → ∃ u, exec .journalRecordEntry s = .next u ∧ u.jnl.intake = more ∧
        u.jnl.opened = j.opened ++ [rec.octets] ∧ u.jnl.sealed = j.sealed ∧ u.jnl.lastEntry = s.now ∧ onlyDev u ∧
        (s.mem.poison = [] → devRead u slot rec.octets.length = rec.octets ∧
          ∀ a, a < slot ∨ slot + rec.octets.length ≤ a → devOct u a = devOct s a) ∧
        u.jnl.topen = (if j.opened = [] then fieldBe rec.octets 0 8 else j.topen) ∧
        rdCnt u 0xC0100 = rdCnt s 0xC0100 + 1) ∧
      (j.opened.length = 1023 → ∃ u, exec .journalRecordEntry s = .next u ∧ u.jnl.intake = more ∧ onlyDev u ∧
        sealed_ u (j.opened ++ [rec.octets]) j.topen)) ∧
    (j.opened ≠ [] → on →
      (Accepted s c 0x74 → isSup s p = true → ∃ u, exec (.jnlSeal c) s = .next u ∧ Completed s u c 0x74 0 0 0 ∧
        sealed_ u j.opened j.topen ∧ u.jnl.intake = j.intake ∧ onlyDev u) ∧
      (j.firstAt + 1000000 * max 1 (min 100 (cfg / 4 % 128)) ≤ s.now → ∃ u, exec .sealTimer s = .next u ∧
        sealed_ u j.opened j.topen ∧ u.jnl.intake = j.intake ∧ onlyDev u) ∧
      (s.now < j.firstAt + 1000000 * max 1 (min 100 (cfg / 4 % 128)) → exec .sealTimer s = .next s)) ∧
    (j.opened = [] → exec .sealTimer s = .next s) ∧
    (Accepted s c 0x74 →
      (isSup s p = false → ∃ u, exec (.jnlSeal c) s = .next u ∧ Completed s u c 0x74 0xBB 0 0 ∧ u.jnl = j) ∧
      (isSup s p = true → ¬ on → ∃ u, exec (.jnlSeal c) s = .next u ∧ Completed s u c 0x74 0xBE 0 0 ∧ u.jnl = j)) ∧
    (Accepted s c 0x75 → hasHost s p = true → ∃ u, exec (.jnlCert c addr len) s = .next u ∧
      Completed s u c 0x75 0 Config.certChain.length (min len.toNat Config.certChain.length) ∧ OnlyHost s u ∧
      HostPut s u p addr.toNat (Config.certChain.take len.toNat) ∧ u.jnl = j) ∧
    (on → j.intake = [] → j.lastEntry + 100000000 * max 1 (min 1000 (cfg / 2 ^ 9 % 1024)) ≤ s.now →
      ∃ u l, exec .heartbeat s = .next u ∧ u.jnl = { j with intake := [l] } ∧ oct l.octets 9 = 0x24 ∧ u.mem = s.mem ∧
        rdCnt u 0xC0118 = rdCnt s 0xC0118 + 1) ∧
    (j.intake ≠ [] → exec .heartbeat s = .next s) ∧
    (SupReaches s → auditLocked s = false → ¬ on → v.getLsbD 0 = true → ∃ u x, exec (.journalEnable v) s = .next u ∧
      jnlEn u = true ∧ u.jnl.sealed = j.sealed ++ [x] ∧ x.no = 0 ∧ x.recs = [] ∧ oct x.header 5 = 1 ∧
      u.jnl.prev = sha256 x.header ∧ u.jnl.blockNo = 0 ∧ onlyDev u ∧
      (s.mem.poison = [] → devRead u (jnlBase s) x.header.length = x.header)) ∧
    (j.sealed = b :: [] → j.inExport = 0 → supRing s 8 = some r → isSup s 0 = true → inReset s 0 = false →
      cqUsable s r = false → s.gpl.deliv = [] → ∃ u d, exec .blockExport s = .next u ∧ u.jnl = { j with inExport := 1 } ∧
        u.gpl.deliv = [d] ∧ d.kind = .journal ∧ d.octets = b.header ++ b.recs.flatten ∧ d.result = b.no ∧ u.mem = s.mem) ∧
    (j.sealed.length ≤ j.inExport → exec .blockExport s = .next s)

namespace Sys2Proof.Claim

/-- Between `s` and `u` a service event was sent, the queue having room (14 R315). -/
def Told (s u : State) (code result : Nat) (detail : List Octet) : Prop :=
  s.gpl.svcq.length < 4096 → u.gpl.svcq =
    s.gpl.svcq ++ [{ code := code, result := result, detail := fit 12 detail, lost := s.gpl.svcLost }]

/-- No rank is being migrated and none waits. -/
abbrev NoMigration (s : State) : Prop := s.hbm.migr = none ∧ s.hbm.migQ = []

end Sys2Proof.Claim

/-- 15 R324-R327, R332-R335, Tables 15-3 and 15-8, 12 R250, R414: a read of a sound half changes no data; a poisoned half counts a poison
read; a correctable error is corrected and counted in HBM_CECNT of the rank and in HBM_CNT; an uncorrectable one poisons the
half, is logged and starts the retirement of the rank, which waits behind a running migration, goes on when its own rank is
the one that migrates, and puts the device into Bolt when the channel's spare is in use. Patrol reads do the same and are
marked, and SCRUB 0 stops them. A parity error is counted and its command reissued; a second one retrains the channel, and a
third is an uncorrectable command error. The Farrier's retirement, the copier and the switchover follow Table 15-3. The row stands for reads of packet SRAM too (the model's choice, log entry 112): a corrected
error counts against its row, an uncorrectable one poisons the half, or puts the buffer's tag in error. -/
def Obligations.HbmErrors : Prop :=
  ∀ (s : State) (a : BitVec 34) (found : MemError) (patrol tag : Bool) (ch : BitVec 4) (sid : BitVec 2) (m : Migration)
    (b : BitVec 36),
    let run := fun f => if patrol then exec (.patrolScrub a f) s else exec (.hbmRead (a.setWidth 36) ⟨tag, f⟩) s
    let h := hbmChannel a.toNat
    let k := hbmSid a.toNat
    let w := a.toNat / 32 * 32
    let ce := 0xD8080 + 8 * h + 4 * k
    let cnt := fun (u : State) i => rdCnt u (0xD8100 + 8 * i)
    let logged := fun (u : State) (b : Nat) => rdDev u 0xD8010 = w % 2 ^ 32 ∧ rdDev u 0xD8014 = w / 2 ^ 32 % 16 + 16 * b
    let poisoned := fun (u : State) => u.mem = { s.mem with poison := u.mem.poison } ∧ devPoisoned u w 32 = true ∧
      ∀ b, b / 32 ≠ a.toNat / 32 → devPoisoned u (b / 32 * 32) 32 = devPoisoned s (b / 32 * 32) 32
    let spare := fun (c : Nat) => ∀ x ∈ s.hbm.retired, x.1 ≠ c
    let used := fun (c : Nat) => (∃ x ∈ s.hbm.retired, x.1 = c) ∧ c ∉ s.hbm.regained
    let word := fun (c i : Nat) => 5 * 2 ^ 24 + c * 4 + i
    (s.hbm.selfRef = false → (patrol = true → fld s 0xD8000 30 26 ≠ 0) →
      (devPoisoned s w 32 = true → ∃ u, run found = .next u ∧ cnt u 2 = cnt s 2 + 1 ∧ u.mem = s.mem ∧ u.hkc = s.hkc) ∧
      (devPoisoned s w 32 = false →
        (run .clean = .next { s with hbm := { s.hbm with
          lastReq := s.now, pdown := s.hbm.pdown.filter (· ≠ h), parity := mdel s.hbm.parity h } }) ∧
        (∃ u, run .correctable = .next u ∧ rdDev u ce = min 65535 (rdDev s ce + 1) ∧ cnt u 0 = cnt s 0 + 1 ∧
          u.mem = s.mem ∧ u.hbm.migr = s.hbm.migr ∧ u.hkc = s.hkc) ∧
        (NoMigration s → spare h → ∃ u, run .uncorrectable = .next u ∧ poisoned u ∧ logged u (if patrol then 2 else 0) ∧
          cnt u 1 = cnt s 1 + 1 ∧ u.hbm.migr = some { ch := h, sid := k, why := 3 } ∧ u.hkc = s.hkc ∧
          Told s u 0x25 (word h k) (zeros 4 ++ beOctets 1 1)) ∧
        (s.hbm.migr = some m → s.hbm.migQ = [] → m.ch ≠ h → spare h → ∃ u, run .uncorrectable = .next u ∧ poisoned u ∧
          u.hbm.migr = some m ∧ u.hbm.migQ = [{ ch := h, sid := k, why := 3 }] ∧ u.hkc = s.hkc) ∧
        (s.hbm.migr = some m → m.ch = h → m.sid = k → ∃ u, run .uncorrectable = .next u ∧ poisoned u ∧
          u.hbm.migr = some m ∧ u.hbm.migQ = s.hbm.migQ ∧ u.hkc = s.hkc) ∧
        (NoMigration s → used h → ∃ u, run .uncorrectable = .next u ∧ u.hkc.dbolt = true))) ∧
    (0x800000000 ≤ b.toNat → b.toNat < 0x808000000 →
      exec (.hbmRead b ⟨tag, .clean⟩) s = .next s ∧
      (∃ u, exec (.hbmRead b ⟨false, .correctable⟩) s = .next u ∧ u.mem = s.mem ∧ u.buf = s.buf ∧ ∀ r, mget 0 u.far.sramCe r =
        mget 0 s.far.sramCe r + (if r = (b.toNat - 0x800000000) / 256 then 1 else 0)) ∧
      (∃ u, exec (.hbmRead b ⟨false, .uncorrectable⟩) s = .next u ∧ u.mem = { s.mem with poison := u.mem.poison } ∧
        devPoisoned u (b.toNat / 32 * 32) 32 = true ∧ u.buf = s.buf) ∧
      (∃ u, exec (.hbmRead b ⟨true, .uncorrectable⟩) s = .next u ∧ u.mem = s.mem ∧ b.toNat ∈ u.buf.badTags)) ∧
    (fld s 0xD8000 30 26 = 0 → exec (.patrolScrub a found) s = .next s) ∧
    (mfind s.hbm.parity ch.toNat ≠ some a.toNat → ∀ ok, ∃ u, exec (.caParityError ch a ok) s = .next u ∧
      cnt u 3 = cnt s 3 + 1 ∧ mfind u.hbm.parity ch.toNat = some a.toNat ∧ u.mem = s.mem) ∧
    (mfind s.hbm.parity ch.toNat = some a.toNat →
      (∃ u, exec (.caParityError ch a true) s = .next u ∧ cnt u 5 = cnt s 5 + 1 ∧ mfind u.hbm.parity ch.toNat = none ∧
        u.mem = s.mem ∧ u.hbm.migr = s.hbm.migr ∧ u.hkc = s.hkc) ∧
      (NoMigration s → spare h → ∃ u, exec (.caParityError ch a false) s = .next u ∧ logged u 1 ∧
        cnt u 1 = cnt s 1 + 1 ∧ u.hbm.migr = some { ch := h, sid := k, why := 3 } ∧ u.mem = s.mem)) ∧
    (sid.toNat < 3 →
      (NoMigration s → sid.toNat < 2 → spare ch.toNat → ∃ u, exec (.rankRetirement ch sid) s = .next u ∧
        u.hbm = { s.hbm with migr := some { ch := ch.toNat, sid := sid.toNat, why := 1 } } ∧ u.mem = s.mem ∧
        Told s u 0x25 (word ch.toNat sid.toNat) (zeros 4 ++ beOctets 1 1)) ∧
      (NoMigration s → sid.toNat = 2 ∨ used ch.toNat →
        ∃ u, exec (.rankRetirement ch sid) s = .next u ∧ u.hkc.dbolt = true)) ∧
    (s.hbm.migr = none → exec (.migrationUnitCopy found) s = .next s ∧ exec .rankSwitchover s = .next s) ∧
    (s.hbm.migr = some m →
      (m.next < 2 ^ 23 → exec .rankSwitchover s = .next s ∧
        (s.hbm.selfRef = false → ∃ u, exec (.migrationUnitCopy .clean) s = .next u ∧
          u.hbm.migr = some { m with next := m.next + 1 } ∧ u.mem = s.mem)) ∧
      (2 ^ 23 ≤ m.next → exec (.migrationUnitCopy found) s = .next s ∧
        (s.hbm.migQ = [] → s.gpl.waiting = [] → s.gpl.svcq.length < 4090 → ∃ u, exec .rankSwitchover s = .next u ∧
          u.hbm.migr = none ∧ (m.ch, m.sid) ∈ u.hbm.retired ∧ u.mem = s.mem ∧ u.hkc = s.hkc ∧
          (u.gpl.svcq.drop s.gpl.svcq.length).map (fun e => (e.code, e.result)) =
            (if m.why = 0 then [0x23, 0x25] else [0x23, 0x24, 0x25]).map (fun e => (e, word m.ch m.sid)))))

/-- 15 R328-R331, Tables 15-2, 15-5 and 15-8: a refresh takes one off the owed count of an idle pseudo-channel, or at the
limit of 8, 4 at the doubled rate. A reading at or above 85 degrees at the normal rate issues every owed refresh and doubles
the rate; one below 82 at the doubled rate restores it from the next tREFI; one at or above 95 puts the device into Bolt. A
training step that drifts beyond MTHR, and a failed lane, retrain the channel; a lane too many puts the device into Bolt.
Power-down and self-refresh are entered after their idle counts, 0 disabling them; a request in self-refresh is held until the
exit. -/
def Obligations.HbmPower : Prop :=
  ∀ (s : State) (pch : BitVec 5) (ch : BitVec 4) (deg drift bad : BitVec 8) (a : BitVec 34) (found : MemError) (idle tag : Bool),
    let owed := fun (u : State) i => mget 0 u.hbm.owed i
    let n := owed s pch.toNat
    let limit := if s.hbm.doubled then 4 else 8
    let cnt := fun (u : State) i => rdCnt u (0xD8100 + 8 * i)
    let left := Config.hbmLanes ch.toNat % 16 - mget 0 s.hbm.lanes ch.toNat
    let used := fun (u : State) (c : Nat) => mget 0 u.hbm.lanes c
    let mthr := max 1 (min 63 (fld s 0xD8008 7 0))
    let pdidle := fld s 0xD8000 15 8
    let sridle := min 1000 (fld s 0xD8000 25 16)
    (s.hbm.selfRef = false → 0 < n → idle = true ∨ limit ≤ n → ∃ u, exec (.refresh pch idle) s = .next u ∧
      owed u pch.toNat = n - 1 ∧ (∀ j, j ≠ pch.toNat → owed u j = owed s j) ∧
      u.hbm.pdown = s.hbm.pdown.filter (· ≠ pch.toNat / 2) ∧ u.mem = s.mem ∧ u.hkc = s.hkc) ∧
    (idle = false → n < limit → exec (.refresh pch idle) s = .next s) ∧
    (85 ≤ deg.toNat → deg.toNat < 95 → s.hbm.doubled = false → ∃ u, exec (.temperatureReading deg) s = .next u ∧
      u.hbm.doubled = true ∧ u.hbm.temp = deg.toNat ∧ (∀ j, owed u j = 0) ∧ u.hbm.migr = s.hbm.migr ∧ u.hkc = s.hkc ∧
      u.pins.alertN = false ∧ cnt u 4 = cnt s 4 + (if s.hbm.owed = [] then 0 else 1)) ∧
    (deg.toNat < 82 → s.hbm.doubled = true → ∃ u, exec (.temperatureReading deg) s = .next u ∧
      u.hbm = { s.hbm with temp := deg.toNat, normalAtNext := true } ∧ u.hkc = s.hkc) ∧
    ((82 ≤ deg.toNat ∨ s.hbm.doubled = false) → (deg.toNat < 85 ∨ s.hbm.doubled = true) → deg.toNat < 95 →
      ∃ u, exec (.temperatureReading deg) s = .next u ∧ u.hbm = { s.hbm with temp := deg.toNat } ∧ u.hkc = s.hkc) ∧
    (95 ≤ deg.toNat → ∃ u, exec (.temperatureReading deg) s = .next u ∧ u.hkc.dbolt = true ∧ u.hbm.migr = none ∧
      u.hbm.retired = s.hbm.retired) ∧
    (s.hbm.selfRef = false → s.hbm.lastStep = 0 ∨ s.hbm.lastStep + 10000 ≤ s.now →
      (drift.toNat ≤ mthr →
        exec (.retrainStep pch drift) s = .next { s with hbm := { s.hbm with lastStep := s.now } }) ∧
      (mthr < drift.toNat → ∃ u, exec (.retrainStep pch drift) s = .next u ∧ cnt u 5 = cnt s 5 + 1 ∧
        u.hbm.lastStep = s.now ∧ (∀ j, used u j = used s j) ∧ u.hkc = s.hkc)) ∧
    (bad.toNat ≤ left → ∃ u, exec (.fullRetrain ch bad) s = .next u ∧ cnt u 5 = cnt s 5 + 1 ∧
      used u ch.toNat = used s ch.toNat + bad.toNat ∧ (∀ j, j ≠ ch.toNat → used u j = used s j) ∧ u.hkc = s.hkc) ∧
    (left < bad.toNat → ∃ u, exec (.fullRetrain ch bad) s = .next u ∧ u.hkc.dbolt = true) ∧
    (s.hbm.selfRef = false → pdidle ≠ 0 → s.hbm.lastReq + 100 * pdidle ≤ s.now → owed s (2 * ch.toNat) = 0 →
      owed s (2 * ch.toNat + 1) = 0 → ch.toNat ∉ s.hbm.pdown →
      exec (.powerDownEntry ch) s = .next { s with hbm := { s.hbm with pdown := s.hbm.pdown ++ [ch.toNat] } }) ∧
    (pdidle = 0 → exec (.powerDownEntry ch) s = .next s) ∧
    (s.hbm.selfRef = false → sridle ≠ 0 → s.hbm.lastReq + 1000000 * sridle ≤ s.now → s.hbm.migr = none →
      ∃ u, exec .selfRefreshEntry s = .next u ∧ cnt u 6 = cnt s 6 + 1 ∧
        u.hbm = { s.hbm with owed := [], pdown := [], selfRef := true, heldReq := false }) ∧
    (sridle = 0 ∨ s.hbm.migr ≠ none → exec .selfRefreshEntry s = .next s) ∧
    (s.hbm.selfRef = true →
      exec (.hbmRead (a.setWidth 36) ⟨tag, found⟩) s = .next { s with hbm := { s.hbm with heldReq := true } } ∧
      (s.hbm.heldReq = true → exec .selfRefreshExit s =
        .next { s with hbm := { s.hbm with selfRef := false, heldReq := false, lastReq := s.now } }) ∧
      (s.hbm.heldReq = false → exec .selfRefreshExit s = .next s))

/-- 16 R347, R349-R353, Tables 16-5 to 16-8, 05 R106, 13 R274: Farrier commands start nothing in Rein. FAR_TEST checks its
resource and kind, needs a disabled port for kind 4 and a rank out of service for kind 5, and answers 0 or the failing step; a
core test swaps the core first, and the freed core becomes the spare or is retired; a core whose routines have not ended
drains first, and another swap or a live load in its cluster makes the resource busy. FAR_QUIESCE migrates a rank and waits, and
makes a quiesced rank that passed its test the spare. FAR_SWAP substitutes a spare of the class or answers NO_SPARE.
FAR_REPORT writes FAR_STAT and 252 further octets, whose layout is open (log entry 5). BANK_SUBSTITUTION takes a spare for a bank with more correctable errors than CETHR, with
AUTO set. -/
def Obligations.FarrierCommands : Prop :=
  ∀ (s : State) (c : CmdRef) (res : BitVec 32) (kind q : BitVec 8) (fs : BitVec 32) (addr : BitVec 64) (bank : BitVec 6) (x : Nat),
    let cls := res.toNat / 2 ^ 24
    let i := res.toNat % 2 ^ 24
    let cnt := fun (u : State) k => rdCnt u (0x140 + 8 * k)
    let test := exec (.farTest c res kind fs) s
    let quiesce := exec (.farQuiesce c res q) s
    let swap := exec (.farSwap c res) s
    let still := fun (u : State) => u.hbm = s.hbm ∧ u.far = s.far ∧ u.src = s.src ∧ u.cry = s.cry ∧ u.mem = s.mem
    let ends := fun (u : State) opc st => Completed s u c opc st 0 0
    let valid := (cls = 1 ∧ i < 128) ∨ (cls = 2 ∧ i < 64) ∨ (cls = 3 ∧ i < 17) ∨ (cls = 4 ∧ i < 26) ∨
      (cls = 5 ∧ i < 64 ∧ i % 4 < 3) ∨ (cls = 6 ∧ i < 128)
    let applies := ((kind = 1 ∨ kind = 2) ∧ 1 ≤ cls ∧ cls ≤ 4) ∨ ((kind = 3 ∨ kind = 4) ∧ cls = 6) ∨ (kind = 5 ∧ cls = 5)
    let serving := if i % 4 < 2 then (i / 4, i % 4) ∉ s.hbm.retired else ∃ y ∈ s.hbm.retired, y.1 = i / 4
    let swapped := fun (u : State) => physOf u i = x ∧ (∀ j, j < 128 → j ≠ i → physOf u j = physOf s j) ∧
      cnt u 0 = cnt s 0 + 1 ∧ u.mem = s.mem ∧ u.thr = s.thr
    let free := s.far.draining = [] ∧ s.far.load = none
    let still_ := ∀ t, (thr s t).routine = none
    let ce := rdDev s (0x41200 + 4 * bank.toNat)
    let due := flag s 0x100 10 = true ∧ fld s 0x108 15 0 < ce
    s.gpl.waiting = [] →
    (s.hkc.rein.isSome = true →
      (Accepted s c 0xC8 → ∃ u, test = .next u ∧ ends u 0xC8 0xD5 ∧ still u) ∧
      (Accepted s c 0xC9 → ∃ u, quiesce = .next u ∧ ends u 0xC9 0xD5 ∧ still u) ∧
      (Accepted s c 0xCA → ∃ u, swap = .next u ∧ ends u 0xCA 0xD5 ∧ still u) ∧
      exec (.bankSubstitution bank) s = .next s) ∧
    (s.hkc.rein = none →
      (Accepted s c 0xC8 →
        (¬ (valid ∧ applies) → ∃ u, test = .next u ∧ ends u 0xC8 0xD2 ∧ still u) ∧
        (valid → applies →
          ((kind = 4 ∧ portEn s i = true) ∨ (kind = 5 ∧ serving ∧ NoMigration s) →
            ∃ u, test = .next u ∧ ends u 0xC8 0xD0 ∧ still u ∧ cnt u 4 = cnt s 4 + 1) ∧
          ((cls ≠ 1 ∧ cls ≠ 5 ∧ ¬ (kind = 4 ∧ portEn s i = true)) →
            ∃ u, test = .next u ∧ Completed s u c 0xC8 0 fs.toNat 0 ∧ still u ∧ cnt u 3 = cnt s 3 + 1) ∧
          (cls = 5 → ¬ serving → NoMigration s →
            ∃ u, test = .next u ∧ Completed s u c 0xC8 0 fs.toNat 0 ∧ cnt u 3 = cnt s 3 + 1 ∧
              ∀ b, (i, b) ∈ s.hbm.quiesced → (i, decide (fs = 0)) ∈ u.hbm.quiesced) ∧
          (cls = 1 → clusterHeld s (i / 8) = true → ∃ u, test = .next u ∧ ends u 0xC8 0xD3 ∧ still u) ∧
          (cls = 1 → free → still_ → spareOf s (i / 8) = some x → s.far.bist = [] →
            ∃ u, test = .next u ∧ Completed s u c 0xC8 0 fs.toNat 0 ∧ swapped u ∧ cnt u 3 = cnt s 3 + 1 ∧
              bistOf u (i / 8) = none ∧
              (if fs = 0 then spareOf u (i / 8) = some (physOf s i)
                else spareOf u (i / 8) = none ∧ physOf s i ∈ u.far.retiredCores)))) ∧
      (Accepted s c 0xC9 →
        (¬ (valid ∧ cls = 5) → ∃ u, quiesce = .next u ∧ ends u 0xC9 0xD2 ∧ still u) ∧
        (valid → cls = 5 →
          (q = 0 → (i, true) ∉ s.hbm.quiesced → ∃ u, quiesce = .next u ∧ ends u 0xC9 0xD4 ∧ still u) ∧
          (q = 0 → (i, true) ∈ s.hbm.quiesced → ∃ u, quiesce = .next u ∧ ends u 0xC9 0 ∧
            hasSpareRank u (i / 4) = true ∧ ∀ b, (i, b) ∉ u.hbm.quiesced) ∧
          (1 < q.toNat → ∃ u, quiesce = .next u ∧ ends u 0xC9 0xC1 ∧ still u) ∧
          (q = 1 → NoMigration s → i % 4 < 2 → serving →
            (hasSpareRank s (i / 4) = false → ∃ u, quiesce = .next u ∧ ends u 0xC9 0xD1 ∧ still u) ∧
            (hasSpareRank s (i / 4) = true → ∃ u, quiesce = .next u ∧ u.gpl.rings = s.gpl.rings ∧
              u.hbm = { s.hbm with migr := some { ch := i / 4, sid := i % 4 } } ∧
              u.gpl.waiting = [⟨c, s.now, .quiesce (i / 4) (i % 4)⟩])))) ∧
      (Accepted s c 0xCA →
        (¬ valid → ∃ u, swap = .next u ∧ ends u 0xCA 0xD2 ∧ still u) ∧
        (valid → cls = 1 → clusterHeld s (i / 8) = true → ∃ u, swap = .next u ∧ ends u 0xCA 0xD3 ∧ still u) ∧
        (valid → cls = 1 → free → spareOf s (i / 8) = some x → coreDrained s i = false →
          ∃ u, swap = .next u ∧ u.gpl = s.gpl ∧ u.far = { s.far with draining := [(i, .command c)] }) ∧
        (valid → cls = 1 → free → still_ → spareOf s (i / 8) = some x → ∃ u, swap = .next u ∧ ends u 0xCA 0 ∧ swapped u ∧
          spareOf u (i / 8) = none ∧ bistOf u (i / 8) = some (physOf s i)) ∧
        (valid → cls = 1 → free → spareOf s (i / 8) = none → ∃ u, swap = .next u ∧ still u ∧
          ends u 0xCA (if (bistOf s (i / 8)).isSome then 0xD3 else 0xD1)) ∧
        (valid → cls = 2 → ∃ u, swap = .next u ∧
          (if s.src.spares = 0 then ends u 0xCA 0xD1 ∧ still u
            else ends u 0xCA 0 ∧ u.src = { s.src with spares := s.src.spares - 1, lastSub := i })) ∧
        (valid → cls = 3 → ∃ u, swap = .next u ∧
          (if s.cry.symRetired = [] then ends u 0xCA 0 ∧ u.cry = { s.cry with symRetired := [i] }
            else ends u 0xCA 0xD1 ∧ still u)) ∧
        (valid → cls = 4 → ∃ u, swap = .next u ∧
          (if s.cry.pkRetired.length < 2 ∧ i ∉ s.cry.pkRetired then
            ends u 0xCA 0 ∧ u.cry = { s.cry with pkRetired := s.cry.pkRetired ++ [i] }
            else ends u 0xCA 0xD1 ∧ still u)) ∧
        (valid → cls = 5 → NoMigration s → i % 4 < 2 → serving → ∃ u, swap = .next u ∧
          (if hasSpareRank s (i / 4) = true then
            ends u 0xCA 0 ∧ u.hbm = { s.hbm with migr := some { ch := i / 4, sid := i % 4, why := 1 } }
            else ends u 0xCA 0xD1 ∧ still u)) ∧
        (valid → cls = 6 → ∃ u, swap = .next u ∧ ends u 0xCA 0xD1 ∧ still u)) ∧
      (due → s.src.spares ≠ 0 → ∃ u, exec (.bankSubstitution bank) s = .next u ∧ u.mem = s.mem ∧
        rdDev u (0x41200 + 4 * bank.toNat) = 0 ∧
        u.src = { s.src with spares := s.src.spares - 1, lastSub := bank.toNat } ∧
        Told s u 0x23 (2 * 2 ^ 24 + bank.toNat) (zeros 4 ++ beOctets 1 (s.src.spares - 1))) ∧
      (¬ due ∨ s.src.spares = 0 → exec (.bankSubstitution bank) s = .next s)) ∧
    (Accepted s c 0xCB → hasHost s c.part.toNat = true → ∃ u, exec (.farReport c addr) s = .next u ∧
      Completed s u c 0xCB 0 0 256 ∧ OnlyHost s u ∧
      HostPut s u c.part.toNat addr.toNat (beOctets 4 (farStat s) ++ (List.range 252).map Config.wearReport))

/-- 16 R349-R351, R357, Tables 16-4, 16-5 and 16-9, 18 R375: CORE_SWAP and BIST_ROTATION move a logical core to its cluster's
spare, once the routines that may not be interrupted have ended, and free the old one for BIST, which makes it the spare or
retires it; a cluster without a spare is a doubt source. A wear
reading beyond its threshold swaps a core and retires the freed one, substitutes a bank, retires a rank or remaps a packet
SRAM row, with FAR_CFG.AUTO; a reading within it changes nothing. A rail keeps two spare phases. The first failed clock
generator of an island is switched and told. The thresholds are those of the model's log entry 5 classes 7 and 8 for rows and
phases. In Rein nothing starts. -/
def Obligations.FarrierEvents : Prop :=
  ∀ (s : State) (core : BitVec 7) (cl : BitVec 4) (i : BitVec 24) (v : BitVec 32) (isl : BitVec 6) (x : Nat) (pass : Bool),
    let l := core.toNat
    let c := l / 8
    let k := cl.toNat
    let cnt := fun (u : State) j => rdCnt u (0x140 + 8 * j)
    let moved := fun (u : State) (l x : Nat) => physOf u l = x ∧ (∀ j, j < 128 → j ≠ l → physOf u j = physOf s j) ∧
      spareOf u (l / 8) = none ∧ cnt u 0 = cnt s 0 + 1 ∧ u.mem = s.mem ∧ u.thr = s.thr ∧ u.hlt = s.hlt
    let auto := flag s 0x100 10 = true
    let wear := fun cls (i : BitVec 24) v => exec (.wearSensorRead (BitVec.ofNat 8 cls) i v) s
    let turn := mget 0 s.far.rotIdx k
    let free := s.far.draining = [] ∧ s.far.load = none
    let still_ := ∀ t, (thr s t).routine = none
    (s.hkc.rein.isSome = true → exec (.coreSwap core) s = .next s ∧ exec (.bistRotation cl) s = .next s ∧
      ∀ cls, wear cls i v = .next s) ∧
    (s.hkc.rein = none →
      (clusterHeld s c = true → exec (.coreSwap core) s = .next s) ∧
      (free → spareOf s c = some x → coreDrained s l = false → ∃ u, exec (.coreSwap core) s = .next u ∧ u.mem = s.mem ∧
        u.far = { s.far with draining := [(l, .rotate)] }) ∧
      (free → still_ → spareOf s c = some x → ∃ u, exec (.coreSwap core) s = .next u ∧ moved u l x ∧ bistOf u c = some (physOf s l)) ∧
      (spareOf s c = none → (bistOf s c).isSome = true → exec (.coreSwap core) s = .next s) ∧
      (free → spareOf s c = none → bistOf s c = none → s.hkc.dbolt = false →
        (∀ p, clusterOwner s c = some p → (pboltSt s p).on = false → ∃ u, exec (.coreSwap core) s = .next u ∧
          (pboltSt u p).on = true ∧ (pboltSt u p).cause.code = 0x10) ∧
        (clusterOwner s c = none → ∃ u, exec (.coreSwap core) s = .next u ∧ cnt u 8 = cnt s 8 + 1 ∧ u.hkc = s.hkc)) ∧
      (fld s 0x100 4 0 ≠ 0 → free → still_ → spareOf s k = some x → turn < 8 → ∃ u, exec (.bistRotation cl) s = .next u ∧
        moved u (8 * k + turn) x ∧ bistOf u k = some (physOf s (8 * k + turn)) ∧
        mget 0 u.far.rotIdx k = (turn + 1) % 8) ∧
      (fld s 0x100 4 0 = 0 ∨ spareOf s k = none → exec (.bistRotation cl) s = .next s) ∧
      (i.toNat < 128 → auto → free → still_ → v.toNat < fld s 0x108 23 16 → spareOf s (i.toNat / 8) = some x →
        ∃ u, wear 1 i v = .next u ∧ moved u i.toNat x ∧ physOf s i.toNat ∈ u.far.retiredCores) ∧
      (i.toNat < 64 → auto → fld s 0x108 15 0 < v.toNat → s.src.spares ≠ 0 → ∃ u, wear 2 i v = .next u ∧
        u.src = { s.src with spares := s.src.spares - 1, lastSub := i.toNat }) ∧
      (i.toNat < 64 → i.toNat % 4 < 2 → auto → fld s 0x108 15 0 < v.toNat → NoMigration s →
        hasSpareRank s (i.toNat / 4) = true → ∃ u, wear 5 i v = .next u ∧
          u.hbm = { s.hbm with migr := some { ch := i.toNat / 4, sid := i.toNat % 4, why := 1 } }) ∧
      (i.toNat < 524288 → auto → fld s 0x108 15 0 < v.toNat → rowSpares s (i.toNat / 512) ≠ 0 → ∃ u, wear 7 i v = .next u ∧
        rowSpares u (i.toNat / 512) = rowSpares s (i.toNat / 512) - 1 ∧ u.mem = s.mem) ∧
      (1 ≤ i.toNat → i.toNat ≤ 12 →
        (80 ≤ v.toNat → v.toNat ≤ 120 → wear 8 i v = .next s) ∧
        (v.toNat < 80 ∨ 120 < v.toNat → mget 0 s.far.phases i.toNat < 2 →
          ∃ u, wear 8 i v = .next u ∧ mget 0 u.far.phases i.toNat = mget 0 s.far.phases i.toNat + 1 ∧ u.hkc = s.hkc) ∧
        (v.toNat < 80 ∨ 120 < v.toNat → 2 ≤ mget 0 s.far.phases i.toNat →
          ∃ u, wear 8 i v = .next u ∧ u.hkc.dbolt = true)) ∧
      (fld s 0x108 23 16 ≤ v.toNat → wear 1 i v = .next s) ∧
      (v.toNat ≤ fld s 0x108 15 0 → mget 0 s.far.sramCe i.toNat ≤ fld s 0x108 15 0 → ∀ cls ∈ [2, 5, 7], wear cls i v = .next s) ∧
      (flag s 0x100 10 = false → ∀ cls ∈ [1, 2, 5, 7], wear cls i v = .next s)) ∧
    (bistOf s k = none → exec (.bistComplete cl pass) s = .next s) ∧
    (bistOf s k = some x →
      (∃ u, exec (.bistComplete cl true) s = .next u ∧ bistOf u k = none ∧ spareOf u k = some x ∧ cnt u 1 = cnt s 1 + 1 ∧
        u.far.phys = s.far.phys) ∧
      (∃ u, exec (.bistComplete cl false) s = .next u ∧ bistOf u k = none ∧ u.far.spare = s.far.spare ∧
        cnt u 2 = cnt s 2 + 1 ∧ u.far.retiredCores = s.far.retiredCores ++ [x] ∧
        Told s u 0x24 (2 ^ 24 + 8 * k) (zeros 4 ++ beOctets 1 2))) ∧
    (isl.toNat < 61 → mget 0 s.far.clkGens isl.toNat = 0 → ∃ u, exec (.clockGeneratorSwitch isl) s = .next u ∧
      mget 0 u.far.clkGens isl.toNat = 1 ∧ u.hkc = s.hkc ∧ u.mem = s.mem ∧ Told s u 0x27 isl.toNat []) ∧
    (isl.toNat < 61 → 2 ≤ mget 0 s.far.clkGens isl.toNat → exec (.clockGeneratorSwitch isl) s = .next s)

namespace Sys2Proof.Claim

/-- Nothing that entry to Bolt or a reset would end is under way: no result at egress, no port or Hobble unit in use, no ring,
waiting command or transfer, no lock, no Rein, no journal. -/
abbrev Quiet (s : State) : Prop :=
  s.hlt.egressIn = [] ∧ s.egr.queues = [] ∧ s.prt.ports = [] ∧ s.prt.hob = [] ∧ s.gpl.rings = [] ∧ s.gpl.waiting = [] ∧
    s.gpl.dma = [] ∧ s.hsp.locks = [] ∧ s.hkc.rein = none ∧ jnlEn s = false

/-- FAR_CNT (16 Table 16-17). -/
def farCount (s : State) (k : Nat) : BitVec 64 := rdCnt s (0x140 + 8 * k)

/-- The work that Bolt stops is kept as it stands: contexts, tickets and memories (16 R341). -/
abbrev WorkKept (s u : State) : Prop := u.mem = s.mem ∧ u.thr = s.thr ∧ u.hlt = s.hlt ∧ u.buf = s.buf ∧ u.hsp = s.hsp

/-- From a quiet state the device entered Bolt with cause `code` (16 R341, R343, Tables 16-9 and 16-13). -/
abbrev DeviceBolts (s u : State) (code : Nat) : Prop :=
  u.hkc = { s.hkc with dbolt := true, cause := code } ∧ u.pins = { s.pins with boltN := false } ∧ WorkKept s u ∧
    farCount u 6 = farCount s 6 + 1 ∧ Told s u 0x20 (tai s) (beOctets 1 0xFF ++ beOctets 1 code)

/-- From a quiet state partition `p` entered Bolt with cause `code`, the others as before (16 R338, R341, Table 16-14). -/
abbrev PartBolts (s u : State) (p code : Nat) : Prop :=
  (pboltSt u p).on = true ∧ (pboltSt u p).cause.code = code ∧ (∀ q, q ≠ p → pboltSt u q = pboltSt s q) ∧
    u.hkc.dbolt = false ∧ u.pins = s.pins ∧ farCount u 6 = farCount s 6 + 1

/-- A doubt source was counted and told, and nobody entered Bolt by it (16 R338, R345). -/
def DoubtOnly (s u : State) (code res : Nat) : Prop :=
  farCount u 8 = farCount s 8 + 1 ∧ u.hkc.dbolt = s.hkc.dbolt ∧ u.hkc.cause = s.hkc.cause ∧ u.pins = s.pins ∧
    WorkKept s u ∧ Told s u 0x26 res (zeros 1 ++ beOctets 1 code)

end Sys2Proof.Claim

/-- 16 R338, R340, R341, R343-R345, Tables 16-1, 16-9 and 16-12: a device doubt source puts the device into Bolt, with its code as CAUSE
and BOLT_N asserted, and keeps the work that Bolt stops; a partition doubt source does so for the owner of its resource alone,
and one whose resource belongs to no partition is counted and told. A further source is counted and told and leaves CAUSE.
FORCE_BOLT_N acts after boot, or when boot ends. HKC_BOLT.FORCE and HKC_PBOLT.FORCE are code 0x0E, cleared at once; CLEAR leaves
a partition Bolt whose cause is cleared, for the next later cause when one stands, and is otherwise ignored and logged. -/
def Obligations.BoltEntry : Prop :=
  ∀ (s : State) (code : BitVec 8) (part : BitVec 3) (res : BitVec 32) (d : Doubt) (ds : List Doubt) (any : Option (BitVec 3)),
    let c := code.toNat
    let p := part.toNat
    let onOf := fun (u : State) q => (pboltSt u q).on
    let device := c = 6 ∨ (9 ≤ c ∧ c ≤ 0xD) ∨ c = 0xF ∨ c = 0x12 ∨ c = 0x13
    let clusterOf := if c = 1 ∨ c = 0x10 then res.toNat % 16 else res.toNat / 8 % 16
    let ofCluster := c = 1 ∨ c = 2 ∨ c = 0x10
    (device → ∃ u, exec (.doubtSource code any res) s = .next u ∧ u.hkc.dbolt = true) ∧
    (c = 0 ∨ 0x13 < c → exec (.doubtSource code any res) s = .next s) ∧
    (Quiet s →
      (s.hkc.dbolt = false →
        (device → ∃ u, exec (.doubtSource code any res) s = .next u ∧ DeviceBolts s u c) ∧
        (∃ u, exec (.doubtSource 0x0E none res) s = .next u ∧ DeviceBolts s u 0x0E) ∧
        (s.hkc.booted = true → ∃ u, exec .forceBoltInput s = .next u ∧ DeviceBolts s u 0x0D) ∧
        (SupReaches s → ∃ u, exec (.forceBolt none) s = .next u ∧ DeviceBolts s u 0x0E)) ∧
      (s.hkc.dbolt = true → device → ∃ u, exec (.doubtSource code any res) s = .next u ∧ DoubtOnly s u c 0) ∧
      (s.hkc.dbolt = false → onOf s p = false →
        (c = 0x0E ∨ c = 0x11 → ∃ u, exec (.doubtSource code (some part) res) s = .next u ∧ PartBolts s u p c ∧ WorkKept s u ∧
          (pboltSt u p).cause.gone = true ∧ Told s u 0x20 (tai s) (beOctets 1 p ++ beOctets 1 c)) ∧
        (ofCluster → clusterOwner s clusterOf = some p → ∃ u, exec (.doubtSource code any res) s = .next u ∧
          PartBolts s u p c ∧ WorkKept s u ∧ (pboltSt u p).cause.gone = false) ∧
        (c = 5 → res.toNat / 1024 % 8 = p → ∃ u, exec (.doubtSource code any res) s = .next u ∧ PartBolts s u p 5 ∧
          (pboltSt u p).cause.gone = true ∧ u.mem = { s.mem with segs := u.mem.segs } ∧
          ((mget ({} : Seg) u.mem.segs (res.toNat % 8192)).w3.getLsbD 15 = false) ∧
          ∀ j, j ≠ res.toNat % 8192 → mget ({} : Seg) u.mem.segs j = mget {} s.mem.segs j) ∧
        (SupReaches s → ∃ u, exec (.forceBolt (some part)) s = .next u ∧ PartBolts s u p 0x0E ∧ WorkKept s u)) ∧
      (ofCluster → clusterOwner s clusterOf = none → ∃ u, exec (.doubtSource code any res) s = .next u ∧
        DoubtOnly s u c res.toNat ∧ u.hkc = s.hkc) ∧
      (ofCluster → clusterOwner s clusterOf = some p → onOf s p = true →
        ∃ u, exec (.doubtSource code any res) s = .next u ∧ DoubtOnly s u c res.toNat ∧ onOf u p = true ∧
          (pboltSt u p).cause = (pboltSt s p).cause ∧
          (pboltSt u p).later = (pboltSt s p).later ++ [⟨c, res.toNat, false⟩]) ∧
      (SupReaches s → onOf s p = true → s.hkc.dbolt = false →
        ((pboltSt s p).cause.gone = true →
          ((∀ x ∈ (pboltSt s p).later, x.gone = true) → ∃ u, exec (.clearBolt part) s = .next u ∧ onOf u p = false ∧
            WorkKept s u ∧ ∀ q, q ≠ p → pboltSt u q = pboltSt s q) ∧
          ((pboltSt s p).later = d :: ds → d.gone = false → ∃ u, exec (.clearBolt part) s = .next u ∧ onOf u p = true ∧
            (pboltSt u p).cause.code = d.code)) ∧
        ((pboltSt s p).cause.gone = false → ∃ u, exec (.clearBolt part) s = .next u ∧ Counted s u 0 7 ∧
          u.hkc.pbolt = s.hkc.pbolt))) ∧
    (s.hkc.booted = false → exec .forceBoltInput s = .next { s with hkc := { s.hkc with forcePend := true } }) ∧
    (¬ SupReaches s → exec (.forceBolt any) s = .next s ∧ exec (.clearBolt part) s = .next s)

/-- 16 R339, R346-R348, Tables 16-2 and 16-3, 19 R396: VIN below 10.6 V, or a rail below 95 % of its nominal, enters Rein and
asserts ALERT_N; a reading below the recovery threshold restarts the 20 microseconds after which a matching seal ends Rein, with
the minimum VIN told; a mismatch, or Rein held to its limit, puts the device into Bolt, which has no Rein. A seal recomputation
that matches changes nothing. An on-die sensor at 110 degrees puts the device into Bolt, and one at 100 alerts the board; the
alert response releases SMB_ALERT_N. -/
def Obligations.SupplyAndAlerts : Prop :=
  ∀ (s : State) (rail : BitVec 4) (mv : BitVec 16) (x : Rein) (upset : BitVec 32) (sensor deg : BitVec 8),
    let v := mv.toNat
    let nominal := [12000, 750, 750, 850, 900, 1200, 900, 1100, 400, 1800, 750, 1800, 800].getD rail.toNat 0
    let warns := if rail = 0 then v < 10600 else 100 * v < 95 * nominal
    let low := if rail = 0 then v < 10800 else 100 * v < 96 * nominal
    let vin := if rail = 0 then v else s.hkc.vin
    let limit := 100000 * max 1 (min 100 (fld s 0x44 6 0))
    let rest := s.hkc.hotSensors.filter (· ≠ sensor.toNat)
    (rail.toNat ≤ 12 →
      (s.hkc.rein = none → s.hkc.dbolt = false → jnlEn s = false → warns → ∃ u, exec (.supplyWarning rail mv) s = .next u ∧
        u.hkc = { s.hkc with vin := vin, rein := some ⟨s.now, vin, s.now⟩ } ∧ farCount u 5 = farCount s 5 + 1 ∧
        u.pins.alertN = false ∧ WorkKept s u ∧ Told s u 0x21 (tai s) (beOctets 4 vin)) ∧
      (s.hkc.rein = none → ¬ warns ∨ s.hkc.dbolt = true →
        exec (.supplyWarning rail mv) s = .next { s with hkc := { s.hkc with vin := vin } }) ∧
      (s.hkc.rein = some x → exec (.supplyWarning rail mv) s = .next { s with hkc := { s.hkc with
        vin := vin, rein := some { x with minVin := min x.minVin vin, lowAt := if low then s.now else x.lowAt } } })) ∧
    (s.hkc.rein = none → exec .reinExit s = .next s ∧ exec .reinLimit s = .next s) ∧
    (s.hkc.rein = some x →
      (s.now < x.lowAt + 20000 → exec .reinExit s = .next s) ∧
      (x.lowAt + 20000 ≤ s.now → s.par.badStore = false → jnlEn s = false → ∃ u, exec .reinExit s = .next u ∧
        u.hkc = { s.hkc with rein := none } ∧ WorkKept s u ∧ Told s u 0x22 (tai s) (beOctets 4 x.minVin) ∧
        (u.pins.alertN = true ↔ s.hbm.doubled = false ∧ s.hkc.hotSensors = [])) ∧
      (x.lowAt + 20000 ≤ s.now → s.par.badStore = true → ∃ u, exec .reinExit s = .next u ∧ u.hkc.dbolt = true) ∧
      (s.now < x.since + limit → exec .reinLimit s = .next s) ∧
      (x.since + limit ≤ s.now → ∃ u, exec .reinLimit s = .next u ∧ u.hkc.dbolt = true ∧
        (s.hkc.dbolt = false → u.hkc.rein = none ∧ u.hkc.cause = 0x0C))) ∧
    (upset = 0 → s.par.badStore = false → exec (.sealRecomputation upset) s = .next s) ∧
    (upset ≠ 0 ∨ s.par.badStore = true → ∃ u, exec (.sealRecomputation upset) s = .next u ∧ u.hkc.dbolt = true) ∧
    (sensor.toNat < 16 →
      (deg.toNat < 110 → ∃ u, exec (.onDieSensorReading sensor deg) s = .next u ∧
        u.hkc = { s.hkc with hotSensors := if 100 ≤ deg.toNat then sensor.toNat :: rest else rest } ∧ WorkKept s u ∧
        (u.pins.alertN = false ↔ s.hkc.rein.isSome = true ∨ s.hbm.doubled = true ∨ 100 ≤ deg.toNat ∨ rest ≠ [])) ∧
      (110 ≤ deg.toNat → ∃ u, exec (.onDieSensorReading sensor deg) s = .next u ∧ u.hkc.dbolt = true)) ∧
    (s.pins.vaux = true → exec .smbusAlertResponse s = .next { s with pins := { s.pins with smbAlertN := true } })

namespace Sys2Proof.Claim

/-- Boot from `s` meets no failure: the preferred image is good, the start-up tests pass, the flash holds no patch and no
sealed configuration, and FORCE_BOLT_N was not asserted (18 R385, R386). -/
abbrev BootsBare (s : State) : Prop :=
  (if s.flash.preferB then s.flash.imgB else s.flash.imgA) = true ∧ s.hkc.rbgBad = false ∧ s.hkc.hbmBad = false ∧
    (if s.flash.preferB then s.flash.patchB else s.flash.patchA) = [] ∧ s.flash.copyA.valid = false ∧ s.flash.copyB.valid = false ∧ s.hkc.forcePend = false

/-- Boot ended well: every Bolt is cleared, BOLT_N is deasserted, BOOTNO counted, the links are down, and the memories of the
part read zero (18 R383, Tables 18-4 and 18-5). -/
abbrev Booted (s u : State) : Prop :=
  u.hkc.booted = true ∧ u.hkc.dbolt = false ∧ u.hkc.pbolt = [] ∧ u.pins.boltN = true ∧ u.gpl.links = [] ∧
    u.flash.bootNo = s.flash.bootNo + 1 ∧ u.mem = { host := s.mem.host } ∧ u.thr = {} ∧ u.hlt.tickets = [] ∧
    u.hsp.locks = [] ∧ u.regs.dev = [] ∧ u.pending = s.pending ∧ u.dbg.locked = s.flash.audit

/-- Boot failed at a step with a cause (18 R386). -/
abbrev BootFailed (u : State) (step cause : Nat) : Prop :=
  u.hkc.booted = true ∧ u.hkc.dbolt = true ∧ u.hkc.failStep = step ∧ u.hkc.cause = cause ∧ u.pins.boltN = false

end Sys2Proof.Claim

/-- 18 R374, R380, R383-R386, Tables 18-4 to 18-6, 16 R346, 19 R395: power-on, SYS_RST_N and a reset-level crossing clear
everything but the flash and boot; VIN below its level holds boot until VIN_VALID. A warm reset keeps the time base and the
housekeeping island, and waits for a flash write. A boot with no good image, without random bits or without the HBM stack ends
in device Bolt at step 2, 6 or 7. The loss of VAUX leaves every output undriven. That retired ranks and the Farrier's map are
kept by a warm reset is the model's reading of the housekeeping island. -/
def Obligations.DeviceResets : Prop :=
  ∀ (s : State) (rail : BitVec 4),
    let none_ := s.flash.imgA = false ∧ s.flash.imgB = false
    let powers := fun (j : Instr) => s.pins.vinOk = true →
      (BootsBare s → ∃ u, exec j s = .next u ∧ Booted s u ∧ u.tb.tai = 0 ∧ u.hbm.retired = [] ∧ u.far = {}) ∧
      (none_ → ∃ u, exec j s = .next u ∧ BootFailed u 2 0 ∧ u.hkc.smbOnly = true) ∧
      (s.flash.imgA = true → s.flash.imgB = true → s.hkc.rbgBad = true →
        ∃ u, exec j s = .next u ∧ BootFailed u 6 0x12) ∧
      (s.flash.imgA = true → s.flash.imgB = true → s.hkc.rbgBad = false → s.hkc.hbmBad = true →
        ∃ u, exec j s = .next u ∧ BootFailed u 7 0)
    powers .powerOnReset ∧
    (s.pins.vinOk = false → ∃ u, exec .powerOnReset s = .next u ∧ u.hkc.booted = false ∧ u.pins.boltN = false) ∧
    (s.pins.vaux = true → powers .sysRstN ∧ (rail ≠ 0 → rail.toNat ≤ 12 → powers (.supplyResetLevel rail)) ∧
      (∃ u, exec (.supplyResetLevel 0) s = .next u ∧ u.hkc.booted = false ∧ u.pins.boltN = false ∧ u.pins.vinOk = false ∧
        u.mem = { host := s.mem.host } ∧ u.flash = s.flash) ∧
      (s.hkc.booted = true → exec .vinValid s = .next { s with pins := { s.pins with vinOk := true } }) ∧
      (s.hkc.booted = false → BootsBare s → ∃ u, exec .vinValid s = .next u ∧ u.hkc.booted = true ∧ u.pins.boltN = true ∧
        u.flash.bootNo = s.flash.bootNo + 1)) ∧
    (SupReaches s →
      (s.hkc.updBusy = none → BootsBare s → ∃ u, exec .warmReset s = .next u ∧ Booted s u ∧ u.tb = s.tb ∧
        u.hbm.retired = s.hbm.retired ∧ u.far.phys = s.far.phys ∧ u.src.ents = []) ∧
      (s.hkc.updBusy.isSome = true →
        exec .warmReset s = .next { s with hkc := { s.hkc with warmPend := true } })) ∧
    (¬ SupReaches s → exec .warmReset s = .next s) ∧
    (∃ u, exec .vauxLoss s = .next u ∧ u.hkc.booted = false ∧ u.pins.driven = false ∧ u.pins.vaux = false ∧
      u.mem = { host := s.mem.host } ∧ u.flash = s.flash)

/-- 07 R158, 08 R416, 13 R280, 14 R298, R316, 16 R344, 18 R384, R388: a partition reset clears the partition's tasks, issue
queue, memories, segment table, keys and threads, holds the partition until its port's PERST_N is released, and leaves every
other partition's, and the device-window assignments. RST_CTL.PRESET does the same and ends at once; a Bolt of the partition
stays. PERST_N_RELEASE releases the port's partitions; then its link trains. -/
def Obligations.PartitionResets : Prop :=
  ∀ (s : State) (part : BitVec 3) (port : BitVec 2),
    let p := part.toNat
    let k := port.toNat
    let mine := fun c => clusterOwner s c = some p
    let calm := Quiet s ∧ s.hsp.slots = [] ∧ s.hlt.tickets = [] ∧ s.buf.tags = [] ∧ s.stf.conns = [] ∧
      s.par.toClassify = [] ∧ s.gpl.deliv = [] ∧ mget [] s.hlt.issueQ p = [] ∧ mget [] s.hlt.holdQ p = [] ∧
      (∀ kx ∈ s.thr.tasks, kx.2.lockPend = none)
    let cleared := fun (u : State) =>
      (∀ id x, (id, x) ∈ u.thr.tasks ↔ (id, x) ∈ s.thr.tasks ∧ x.part ≠ p) ∧
      (∀ t, thr u t = if mine (t / 128) ∧ t / 128 < 16 then {} else thr s t) ∧
      (∀ a, mget 0 u.mem.clm a = if mine (a / 131072) ∧ a / 131072 < 16 then 0 else mget 0 s.mem.clm a) ∧
      (∀ a, mget 0 u.mem.csm a = if mine (a / 262144) ∧ a / 262144 < 16 then 0 else mget 0 s.mem.csm a) ∧
      (∀ a, mget 0 u.mem.ist a = if mine (a / 65536) ∧ a / 65536 < 16 then 0 else mget 0 s.mem.ist a) ∧
      (∀ j, mget ({} : Seg) u.mem.segs j = if j / 1024 = p then {} else mget {} s.mem.segs j) ∧
      (∀ j e, (j, e) ∈ u.cry.keys ↔ (j, e) ∈ s.cry.keys ∧ e.part ≠ p) ∧
      u.mem.dev = s.mem.dev ∧ u.mem.host = s.mem.host ∧ u.regs.dev = s.regs.dev ∧
      (pboltSt u p).on = (pboltSt s p).on ∧ ∀ q, q ≠ p → pboltSt u q = pboltSt s q
    let ports := ([2 * k, 2 * k + 1].filter (funcExists s)).map (partOfFunc s)
    (calm → ∃ u, exec (.partitionReset part) s = .next u ∧ cleared u ∧ inReset u p = true ∧
      ∀ q, q ≠ p → inReset u q = inReset s q) ∧
    (SupReaches s → calm → ∃ u, exec (.presetPart part) s = .next u ∧ cleared u ∧ ∀ q, inReset u q = inReset s q) ∧
    (¬ SupReaches s → exec (.presetPart part) s = .next s) ∧
    ((∃ q ∈ ports, q ∈ s.hkc.inReset) → ∃ u, exec (.perstNRelease port) s = .next u ∧
      (∀ q, q ∈ u.hkc.inReset ↔ q ∈ s.hkc.inReset ∧ q ∉ ports) ∧ mget 0 u.gpl.links k = 0 ∧
      (∀ j, j ≠ k → mget 0 u.gpl.links j = mget 0 s.gpl.links j) ∧ u.mem = s.mem ∧ u.thr = s.thr) ∧
    ((∀ q ∈ ports, q ∉ s.hkc.inReset) → exec (.perstNRelease port) s = .next s) ∧
    (s.hkc.booted = true → s.hkc.smbOnly = false → (∀ q ∈ ports, q ∉ s.hkc.inReset) →
      ∃ u, exec (.pcieLinkReady port) s = .next u ∧ mget 0 u.gpl.links k % 2 = 1 ∧
        (s.flash.bifur.testBit k = true → mget 0 u.gpl.links k / 256 % 2 = 1) ∧
        u = { s with fresh := u.fresh, gpl := { s.gpl with links := u.gpl.links } } ∧
        ∀ j, j ≠ k → mget 0 u.gpl.links j = mget 0 s.gpl.links j) ∧
    ((∃ q ∈ ports, q ∈ s.hkc.inReset) → exec (.pcieLinkReady port) s = .next s)

/-- 17 R367-R372, Tables 17-7 to 17-9: HALT stops the thread DBG_TSEL names at once in GETWORK and in WAITEV and else asks for a
halt; RUN and STEP release a halted thread; DBG_TREG writes its registers but PG, TK and PRI. AUDIT_SET sets the lock for good,
releases every halted thread and clears every breakpoint; under it halt, step, DBG_TREG and DBGACC are refused and counted until a
token with matching fields and signature unlocks them, to its EXPIRY. DBGACC reaches the DBG registers and GAIT_ASSIGN alone. -/
def Obligations.DebugAndAudit : Prop :=
  ∀ (s : State) (t p n : Nat) (v : BitVec 32) (c : CmdRef) (confirm : BitVec 32) (addr : BitVec 64) (o : BitVec 20) (w : Bool),
    let x := thr s t
    let selected := rdDev s 0xE0000 = 8 * t ∧ t < 2048 ∧ clusterOwner s (t / 128) = some p
    let locked := s.dbg.locked = true ∧ s.dbg.unlockUntil = none
    let only := fun (u : State) (y : Thread) => thr u t = y ∧ (∀ j, j ≠ t → thr u j = thr s j) ∧ u.mem = s.mem ∧
      u.thr.tasks = s.thr.tasks ∧ u.regs = s.regs
    let released := { x with halted := false, haltReq := false, skipBp := true }
    let clear := fun (u : State) => (∀ j, (thr u j).halted = false) ∧ (∀ j, j < 512 → rdDev u (0xE1000 + 4 * j) = 0) ∧
      (∀ j, (thr u j).ctx = (thr s j).ctx) ∧ u.mem = s.mem
    let value := BitVec.ofNat 36 (rdDev s 0xE0014 + v.toNat % 16 * 2 ^ 32)
    let l := hostRead s c.part.toNat addr.toNat 97
    let expiry := fieldBe l 25 8
    let tokenGood := fieldBe l 0 8 = Config.devSer.toNat ∧ fieldBe l 8 8 = s.flash.bootNo % 2 ^ 64 ∧
      fieldBe l 16 4 = s.dbg.nonce.toNat ∧ fieldBe l 20 4 = 0 ∧ oct l 24 = 1 ∧
      ecdsaVerify Config.debugKey (sha256 (l.take 33)) (l.drop 33) = true
    (SupReaches s → ¬ locked → selected →
      (x.halted = true → exec .dbgHalt s = .next s) ∧
      (x.halted = false → x.mode = .getwork ∨ (x.mode = .run ∧ x.inWait = true) → ∃ u, exec .dbgHalt s = .next u ∧
        only u { x with halted := true, why := 1, stepping := false, haltReq := false, routine := none, ctx := x.ctx.landAll } ∧ t ∉ u.hlt.waiters) ∧
      (x.halted = false → x.mode = .run → x.inWait = false → x.routine = none → ∃ u, exec .dbgHalt s = .next u ∧
        only u { x with haltReq := true } ∧ u.hlt = s.hlt) ∧
      (x.halted = true → (∃ u, exec .dbgRun s = .next u ∧ only u { released with stepping := false } ∧
          (x.mode = .getwork → t ∈ u.hlt.waiters)) ∧
        ∃ u, exec .dbgStep s = .next u ∧ only u { released with stepping := true }) ∧
      (x.halted = false → exec .dbgRun s = .next s ∧ exec .dbgStep s = .next s) ∧
      (x.halted = true → rdDev s 0xE0010 = n →
        (n < 32 → ∃ u, exec (.dbgTregWrite v) s = .next u ∧ (thr u t).ctx = x.ctx.setG n value ∧ (thr u t).halted = true ∧
          (∀ j, j ≠ t → thr u j = thr s j) ∧ u.mem = s.mem) ∧
        (n = 33 → ∃ u, exec (.dbgTregWrite v) s = .next u ∧ (thr u t).ctx = { x.ctx with pc := value.truncate 16 } ∧
          ∀ j, j ≠ t → thr u j = thr s j) ∧
        (n = 45 → ∃ u, exec (.dbgTregWrite v) s = .next u ∧ (thr u t).ctx = { x.ctx with ev := value &&& ~~~0xFC00 } ∧
          ∀ j, j ≠ t → thr u j = thr s j) ∧
        (256 ≤ n → n < 768 → ∃ u, exec (.dbgTregWrite v) s = .next u ∧
          mget 0 (thr u t).ctx.win (n - 256) = BitVec.ofNat 8 value.toNat ∧
          ∀ j, j ≠ n - 256 → mget 0 (thr u t).ctx.win j = mget 0 x.ctx.win j) ∧
        (46 ≤ n → n ≤ 48 → ∃ u, exec (.dbgTregWrite v) s = .next u ∧ Counted s u 0 0xA ∧ u.thr = s.thr)) ∧
      (x.halted = false → ∃ u, exec (.dbgTregWrite v) s = .next u ∧ Counted s u 0 0xA ∧ u.thr = s.thr)) ∧
    (SupReaches s → locked → ∀ j ∈ [Instr.dbgHalt, .dbgStep, .dbgTregWrite v],
      ∃ u, exec j s = .next u ∧ Counted s u 0 0xA ∧ u.thr = s.thr ∧ u.mem = s.mem) ∧
    (¬ SupReaches s → ∀ j ∈ [Instr.dbgHalt, .dbgRun, .dbgStep, .dbgTregWrite v], exec j s = .next s) ∧
    (s.hkc.booted = true →
      (locked → dbgaccReach o.toNat = true → ∃ u, exec (.dbgacc w o v) s = .next u ∧ Counted s u 0 0xA ∧ u.thr = s.thr ∧
        u.regs.dev = s.regs.dev) ∧
      (¬ locked → rdDev s 0xE0000 < 65536 → ∃ u x, exec (.dbgacc true 0xE0000 v) s = .next u ∧ rdDev u 0xE0000 = v.toNat % 65536 ∧
        u = { s with regs := { s.regs with dev := u.regs.dev } } ∧
        exec (.dbgacc false 0xE0000 0) u = .next x ∧ x.dbg.jtagOut = BitVec.ofNat 32 (v.toNat % 65536)) ∧
      (dbgaccReach o.toNat = false → exec (.dbgacc true o v) s = .next s ∧
        exec (.dbgacc false o v) s = .next { s with dbg := { s.dbg with jtagOut := 0 } })) ∧
    (Accepted s c 0xE0 →
      (confirm = 0x41554454 → s.dbg.locked = false → (∀ j, j < 256 → flag s (0x20000 + 0x80 * j) 0 = false) →
        ∃ u, exec (.auditSet c confirm) s = .next u ∧
        Completed s u c 0xE0 0 0 0 ∧ u.dbg.locked = true ∧ u.flash = { s.flash with audit := true } ∧ clear u) ∧
      (confirm = 0x41554454 → s.dbg.locked = true → ∃ u, exec (.auditSet c confirm) s = .next u ∧
        Completed s u c 0xE0 0 0 0 ∧ u.dbg = s.dbg ∧ u.flash = s.flash ∧ u.thr = s.thr) ∧
      (confirm ≠ 0x41554454 → ∃ u, exec (.auditSet c confirm) s = .next u ∧ Completed s u c 0xE0 0xE2 0 0 ∧ u.dbg = s.dbg ∧
        u.flash = s.flash ∧ u.thr = s.thr)) ∧
    (Accepted s c 0xE1 → ∃ u status, exec (.dbgUnlock c addr) s = .next u ∧ Completed s u c 0xE1 status 0 0 ∧ u.thr = s.thr ∧
      (tokenGood → tai s < expiry → status = 0 ∧ u.dbg.unlockUntil = some expiry ∧ u.dbg.locked = s.dbg.locked ∧
        Told s u 0x2A expiry []) ∧
      (tokenGood → expiry ≤ tai s → status = 0xE1 ∧ u.dbg = s.dbg) ∧ (¬ tokenGood → status = 0xE0 ∧ u.dbg = s.dbg)) ∧
    (s.dbg.unlockUntil = some n →
      (n ≤ tai s → ∃ u, exec .debugUnlockExpiry s = .next u ∧ u.dbg = { s.dbg with unlockUntil := none } ∧ clear u) ∧
      (tai s < n → exec .debugUnlockExpiry s = .next s))

/-- 17 R360, R361, R363, R364, Tables 17-3 and 17-4: setting EN of a monitor clears its live statistics, starts its window and
fixes its set-up until EN is cleared; a source that Table 17-2 does not give, a foreign parameter or a foreign monitor is ignored
and counted. A sample of an enabled monitor, of the oldest event that waits for it or of its level when its period is over, enters
MIN, MAX, COUNT, SUM and one bin. SNAP, PSNAP and the end of a timed window copy the live statistics, with every waiting
sample, to the snapshot and clear them. -/
def Obligations.GaitMonitors : Prop :=
  ∀ (s : State) (mon : BitVec 8) (part : BitVec 3) (v : BitVec 32) (y : Nat) (rest : List Nat),
    let m := mon.toNat
    let p := part.toNat
    let w0 := rdGait s m 0
    let w1 := rdGait s m 1
    let base := if bitOf w0 23 then w1 % 65536 else w1 % 32
    let bin := if bitOf w0 23 then (if y < base then 0 else min 63 ((y - base) / max 1 (w1 / 65536)))
      else (if y < 2 ^ base then 0 else min 63 (y.log2 - base + 1))
    let of := w0 % 16
    let k := w0 / 2 ^ 10 % 4096
    let event := of = 1 ∨ of = 4
    let due := (gaitSt s m).due
    let period := if of = 5 then 100 else if of = 7 ∧ w0 / 2 ^ 24 % 8 = 0 then 0 else 1000 * 2 ^ (w0 / 2 ^ 24 % 8)
    let level := if of = 2 then queueDepth s k % 4096 else if of = 3 then poolFree s k
      else if of = 6 ∧ k = 16 then s.hbm.temp + 273 else if of = 7 ∧ k = 0 then s.hkc.vin else v.toNat
    let g := (gaitSt s m).live
    let others := fun (u : State) => ∀ j, j ≠ m → gaitSt u j = gaitSt s j
    let taken := fun (u : State) (j : Nat) => gaitSt u j =
      { gaitSt s j with live := { tstart := tai s }, snap := { (gaitSt s j).live with tsnap := tai s }, seq := (gaitSt s j).seq + 1 }
    let src := v.toNat % 16
    let own := w0.testBit 28 = true ∧ monOwner s m = some p
    (monOwner s m = some p → inReset s p = false →
      (w0.testBit 28 = false → v.getLsbD 28 = true → 1 ≤ src → src ≤ 7 → gaitForeign s p v.toNat = false →
        ∃ u, exec (.gaitEnable mon v) s = .next u ∧ rdGait u m 0 = v.toNat % 2 ^ 29 ∧ others u ∧ u.mem = s.mem ∧
          gaitSt u m = { gaitSt s m with live := { tstart := tai s }, due := [], levelAt := s.now }) ∧
      (w0.testBit 28 = false → v.getLsbD 28 = true → src = 0 ∨ 7 < src → ∃ u, exec (.gaitEnable mon v) s = .next u ∧
        Counted s u p 7 ∧ u.regs.gcfg = s.regs.gcfg ∧ u.dbg.gait = s.dbg.gait) ∧
      (w0.testBit 28 = false → v.getLsbD 28 = true → 1 ≤ src → src ≤ 7 → gaitForeign s p v.toNat = true →
        ∃ u, exec (.gaitEnable mon v) s = .next u ∧ Counted s u p 6 ∧ u.regs.gcfg = s.regs.gcfg ∧ u.dbg.gait = s.dbg.gait) ∧
      (w0.testBit 28 = true → v.getLsbD 28 = false → ∃ u, exec (.gaitEnable mon v) s = .next u ∧
        rdGait u m 0 = v.toNat % 2 ^ 29 ∧ (gaitSt u m).due = [] ∧ (due = [] → u.dbg = s.dbg)) ∧
      (w0.testBit 28 = true → v.getLsbD 28 = true → ∃ u, exec (.gaitEnable mon v) s = .next u ∧ Counted s u p 7 ∧
        u.regs.gcfg = s.regs.gcfg)) ∧
    (w0.testBit 28 = false → exec (.gaitSample mon v) s = .next s ∧ exec (.gaitWindowEnd mon) s = .next s) ∧
    (w0.testBit 28 = true →
      (event ∧ due = [] ∨ ¬ event ∧ s.now < (gaitSt s m).levelAt + period → exec (.gaitSample mon v) s = .next s) ∧
      (event ∧ due = y :: rest ∨ ¬ event ∧ (gaitSt s m).levelAt + period ≤ s.now ∧ y = level ∧ rest = due →
        ∃ u, exec (.gaitSample mon v) s = .next u ∧ others u ∧ u.mem = s.mem ∧ (gaitSt u m).due = rest ∧
        (¬ event → (gaitSt u m).levelAt = s.now) ∧ (gaitSt u m).snap = (gaitSt s m).snap ∧
        let h := (gaitSt u m).live
        h.min = min g.min y ∧ h.max = max g.max y ∧ h.count = (g.count + 1) % 2 ^ 64 ∧
        h.sum = min (2 ^ 64 - 1) (g.sum + y) ∧ h.tstart = g.tstart ∧
        mget 0 h.bins bin = min (2 ^ 32 - 1) (mget 0 g.bins bin + 1) ∧ ∀ j, j ≠ bin → mget 0 h.bins j = mget 0 g.bins j) ∧
      (w0.testBit 27 = true → g.tstart + 1000 * max 1 (rdGait s m 2 % 2 ^ 20) ≤ tai s →
        ∃ u, exec (.gaitWindowEnd mon) s = .next u ∧ (gaitSt u m).due = [] ∧ (due = [] → taken u m) ∧ others u ∧ u.mem = s.mem) ∧
      (w0.testBit 27 = false ∨ tai s < g.tstart + 1000 * max 1 (rdGait s m 2 % 2 ^ 20) →
        exec (.gaitWindowEnd mon) s = .next s)) ∧
    (inReset s p = false →
      (rdPart s p 0x100 % 256 = m → monOwner s m = some p →
        ∃ u, exec (.gaitSnap part) s = .next u ∧ (gaitSt u m).due = [] ∧ (due = [] → taken u m) ∧ others u ∧ u.regs = s.regs ∧ u.mem = s.mem) ∧
      (rdPart s p 0x100 % 256 = m → monOwner s m ≠ some p →
        ∃ u, exec (.gaitSnap part) s = .next u ∧ Counted s u p 6 ∧ u.dbg.gait = s.dbg.gait) ∧
      (∃ u, exec (.gaitPsnap part) s = .next u ∧ u.regs = s.regs ∧ u.mem = s.mem ∧ (own → (gaitSt u m).due = [] ∧ (due = [] → taken u m)) ∧
        (¬ own → gaitSt u m = gaitSt s m))) ∧
    (inReset s p = true → exec (.gaitSnap part) s = .next s ∧ exec (.gaitPsnap part) s = .next s)

/-- 18 R379-R382, Tables 18-8 and 18-9: the write of CLK_TSET W1 sets the time, unless the journal runs. CLK_TADJ steps a forward
correction of more than 100 microseconds and slews every other one, within a second. CLK_CLUS takes its two bits and no thread
is touched. A PPS_IN edge captures the time, and with PPSEN corrects it to the nearest second; 1.1 s without one sets PPSLOS. The
loss of CLK10_IN sets LOS in MODE 01. SLEWING ends with the correction. PPS_OUT is high for 100 ms of each second. -/
def Obligations.TimeBaseCommands : Prop :=
  ∀ (s : State) (v : BitVec 32) (cl : BitVec 4),
    let d := max (-1000000000) (min 1000000000 v.toInt)
    let corrected := fun (u : State) (d : Int) (t : TimeBase) =>
      u.tb = if 100000 < d then { t with tai := (t.tai + d.toNat) % 2 ^ 64 }
        else if d = 0 then t else { t with slewLeft := t.slewLeft + d, slewing := true }
    let r := s.tb.tai % 1000000000
    let nearest := if r ≤ 500000000 then -(r : Int) else 1000000000 - (r : Int)
    let captured := { s.tb with ppsCap := s.tb.tai, lastPps := s.now }
    let rest := fun (u : State) => u.mem = s.mem ∧ u.thr = s.thr ∧ u.hlt = s.hlt ∧ u.hkc = s.hkc
    let mode1 := fld s 0x80 1 0 = 1
    (SupReaches s →
      (jnlEn s = false → ∃ u, exec (.clkTsetWrite v) s = .next u ∧ rest u ∧
        u.tb = { s.tb with tai := rdDev s 0x90 + v.toNat * 2 ^ 32 }) ∧
      (jnlEn s = true → ∃ u, exec (.clkTsetWrite v) s = .next u ∧ Counted s u 0 7 ∧ rest u ∧ u.tb = s.tb) ∧
      (∃ u, exec (.clkTadjWrite v) s = .next u ∧ rest u ∧ corrected u d s.tb ∧ u.regs = s.regs) ∧
      (rdDev s (0xC0 + 4 * cl.toNat) < 4 → ∃ u, exec (.clusterClockChange cl v) s = .next u ∧ rest u ∧
        rdDev u (0xC0 + 4 * cl.toNat) = v.toNat % 4 ∧ ∀ j, j ≠ 0xC0 + 4 * cl.toNat → rdDev u j = rdDev s j)) ∧
    (¬ SupReaches s → ∀ j ∈ [Instr.clkTsetWrite v, .clkTadjWrite v, .clusterClockChange cl v], exec j s = .next s) ∧
    (flag s 0x80 2 = false → exec .ppsInEdge s = .next { s with tb := captured }) ∧
    (flag s 0x80 2 = true → ∃ u, exec .ppsInEdge s = .next u ∧ corrected u nearest captured ∧ u = { s with tb := u.tb }) ∧
    (s.now < s.tb.lastPps + 1100000000 → exec .ppsInLoss s = .next s) ∧
    (s.tb.lastPps + 1100000000 ≤ s.now → ∃ u, exec .ppsInLoss s = .next u ∧ rest u ∧ flag u 0x80 4 = true ∧
      ∀ j, j < 32 → j ≠ 4 → flag u 0x80 j = flag s 0x80 j) ∧
    (mode1 → ∃ u, exec .clk10Loss s = .next u ∧ rest u ∧ flag u 0x80 3 = true ∧ u.tb = { s.tb with clk10Lost := true }) ∧
    (¬ mode1 → exec .clk10Loss s = .next { s with tb := { s.tb with clk10Lost := true } }) ∧
    (exec .clk10InReturn s = .next { s with tb := { s.tb with clk10Lost := false } }) ∧
    (s.tb.slewLeft = 0 → exec .timeSlewDone s = .next { s with tb := { s.tb with slewing := false } }) ∧
    (s.tb.slewLeft ≠ 0 → exec .timeSlewDone s = .next s) ∧
    (s.hkc.booted = true → exec .ppsOut s = .next { s with pins :=
      { s.pins with ppsOut := decide (s.tb.tai % 1000000000 < 100000000) } })

namespace Sys2Proof.Claim

/-- Registers of the device window whose reset value 20 Table 20-3 gives as other than zero, of the egress queues the first
16, with that value: first offset, count, stride, value. -/
def resetWords : List (Nat × Nat × Nat × Nat) :=
  [(0x44, 1, 4, 0x14), (0x100, 1, 4, 0x698), (0x108, 1, 4, 0x50100), (0x18000, 128, 0x100, 0x17D8),
   (0x18004, 128, 0x100, 0x100), (0x18008, 128, 0x100, 0x8000C0), (0x1800C, 128, 0x100, 0xFAC688),
   (0x30100, 8, 4, 0x400064), (0x30120, 8, 4, 0x4003E8), (0x41100, 64, 4, 0x10), (0x50000, 1, 4, 0x4B14),
   (0x50004, 1, 4, 0x4B14), (0x50008, 1, 4, 0x3E8), (0x5000C, 1, 4, 4), (0x60000, 1, 4, 0xA), (0x60040, 8, 4, 0x1029)] ++
  [(0x70400, 128, 4, 0x4C11DB7), (0x70600, 128, 4, 0x3F), (0x80000, 1, 4, 0xA), (0x80810, 64, 0x20, 0x2710),
   (0x90404, 64, 0x10, 0x4000000), (0xA0000, 16, 8, 0x10000), (0xA0004, 16, 8, 0x600), (0xB0200, 128, 4, 1),
   (0xC0000, 1, 4, 0x1428), (0xD0000, 1, 4, 0xA), (0xD0020, 8, 4, 0x800), (0xD8000, 1, 4, 0x600A0A14), (0xD8008, 1, 4, 8),
   (0xD800C, 1, 4, 0x14)]

end Sys2Proof.Claim

/-- The block's step: with a command at the front of the queue it is exec of that command on the state with the queue's rest.
On an empty queue a nanosecond of device time passes, which is the model's choice (log entry 1). -/
def Obligations.StepRunsTheFront : Prop :=
  ∀ (s : State) (i : Instr) (rest : List Instr),
    (s.pending = i :: rest → step s = exec i { s with pending := rest }) ∧
    (s.pending = [] → ∃ u, step s = .next u ∧ u.now = s.now + 1 ∧ u.pending = [])

/-- 18 Tables 18-4 and 18-5, 20 Table 20-3, 14 R298, R299: after reset with a blank flash the set-up registers hold the reset
values of Table 20-3, the spares are those of FAR_STAT, no cluster is assigned, no ring or port enabled, every thread is in
GETWORK with its registers zero, locks are free, no memory lists anything, no Bolt and no Rein holds, BOLT_N is deasserted, the time base is at 0
and the invariant holds. -/
def Obligations.ResetState : Prop :=
  (∀ x ∈ Sys2Proof.Claim.resetWords, ∀ k, k < x.2.1 → rdDev State.reset (x.1 + x.2.2.1 * k) = x.2.2.2) ∧
  farStat State.reset = 0x1AB210 ∧ BlockInvariant State.reset ∧ State.reset.pending = [] ∧
  (∀ c, c < 16 → clusterOwner State.reset c = none) ∧ (∀ r, r < 4096 → ringEn State.reset r = false) ∧
  (∀ p, p < 128 → portEn State.reset p = false ∧ (portSt State.reset p).linkUp = false) ∧
  (∀ t, (thr State.reset t).mode = .getwork ∧ (∀ r, r < 32 → (thr State.reset t).ctx.g r = 0)) ∧
  (∀ k, (lock State.reset k).holder = .free) ∧ State.reset.mem = {} ∧
  (∀ p, inBolt State.reset p = false ∧ inReset State.reset p = false) ∧ State.reset.hkc.rein = none ∧
  State.reset.pins.boltN = true ∧ State.reset.pins.alertN = true ∧ tai State.reset = 0 ∧ supBound State.reset = false ∧
  jnlEn State.reset = false ∧ State.reset.dbg.locked = false

/-- 16 R343, R346, 18 R385: every step, of every command or of time, keeps the canonical form of every memory, and BOLT_N
asserted exactly from the loss of a supply to the end of boot and in device Bolt; a command leaves the rest of the queue as it
is, no command is refused, and one stops only when it names a unit that the part does not have. -/
def Obligations.StepInvariant : Prop :=
  ∀ (s u : State) (i : Instr),
    (BlockInvariant s → step s = .next u → BlockInvariant u ∧ u.pending = s.pending.tail) ∧
    (BlockInvariant s → exec i s = .next u → BlockInvariant u ∧ u.pending = s.pending) ∧
    (if namesNoUnit i then exec i s = .fault .noSuchUnit else ∃ x, exec i s = .next x)
end

