-- ==== Sys2Proof/Laws/Bits.lean ====
section
/-! SUPPORT. Bit fields of a number: what a field reads after a write of it, and of another. -/

namespace Sys2Proof.Machine

/-- A write of a field keeps what lies above and below it. -/
theorem setBits_eq {v hi lo x : Nat} (h : lo ≤ hi + 1) :
    setBits v hi lo x = v / 2 ^ (hi + 1) * 2 ^ (hi + 1) + x % 2 ^ (hi + 1 - lo) * 2 ^ lo + v % 2 ^ lo := by
  have e : 2 ^ (hi + 1) = 2 ^ (hi + 1 - lo) * 2 ^ lo := by rw [← pow_add]; congr 1; omega
  unfold setBits bitsOf
  have d : v / 2 ^ lo / 2 ^ (hi + 1 - lo) = v / 2 ^ (hi + 1) := by rw [Nat.div_div_eq_div_mul, e, Nat.mul_comm]
  have h1 := Nat.div_add_mod v (2 ^ lo)
  have h2 := Nat.div_add_mod (v / 2 ^ lo) (2 ^ (hi + 1 - lo))
  rw [d] at h2
  have h3 : 2 ^ lo * (v / 2 ^ lo) = v / 2 ^ (hi + 1) * 2 ^ (hi + 1) + v / 2 ^ lo % 2 ^ (hi + 1 - lo) * 2 ^ lo := by
    conv_lhs => rw [← h2]
    rw [e]; ring
  omega

/-- One bit of a number with a field written. -/
theorem testBit_setBits {v hi lo x k : Nat} (h : lo ≤ hi + 1) :
    (setBits v hi lo x).testBit k = if lo ≤ k ∧ k ≤ hi then x.testBit (k - lo) else v.testBit k := by
  have e : 2 ^ (hi + 1) = 2 ^ (hi + 1 - lo) * 2 ^ lo := by rw [← pow_add]; congr 1; omega
  have hv : v / 2 ^ (hi + 1) * 2 ^ (hi + 1) + x % 2 ^ (hi + 1 - lo) * 2 ^ lo + v % 2 ^ lo =
      2 ^ lo * (2 ^ (hi + 1 - lo) * (v / 2 ^ (hi + 1)) + x % 2 ^ (hi + 1 - lo)) + v % 2 ^ lo := by rw [e]; ring
  rw [setBits_eq h, hv, Nat.testBit_two_pow_mul_add _ (Nat.mod_lt _ (by positivity)),
    Nat.testBit_two_pow_mul_add _ (Nat.mod_lt _ (by positivity))]
  by_cases h1 : k < lo
  · simp [h1, Nat.not_le.mpr h1, Nat.testBit_mod_two_pow]
  · by_cases h2 : k ≤ hi
    · simp [h1, Nat.not_lt.mp h1, h2, Nat.testBit_mod_two_pow, show k - lo < hi + 1 - lo by omega]
    · have : ¬ k - lo < hi + 1 - lo := by omega
      rw [if_neg h1, if_neg this, if_neg (by omega), Nat.testBit_div_two_pow]
      congr 1; omega

/-- One bit of a number with a bit written. -/
theorem testBit_setBit (v i k : Nat) (b : Bool) : (setBit v i b).testBit k = if k = i then b else v.testBit k := by
  unfold setBit
  rw [testBit_setBits (by omega)]
  by_cases h : k = i
  · subst h; cases b <;> simp [b2n]
  · rw [if_neg (by omega), if_neg h]

/-- A bit is the number's bit. -/
theorem bitOf_eq (v i : Nat) : bitOf v i = v.testBit i := by
  unfold bitOf
  rw [Nat.testBit_eq_decide_div_mod_eq]
  by_cases h : v / 2 ^ i % 2 = 1 <;> simp [h]

/-- A field of `n` bits is below 2^n. -/
theorem bitsOf_lt (v hi lo : Nat) : bitsOf v hi lo < 2 ^ (hi + 1 - lo) := Nat.mod_lt _ (by positivity)

/-- Bits of a field. -/
theorem testBit_bitsOf (v hi lo k : Nat) : (bitsOf v hi lo).testBit k = (decide (k < hi + 1 - lo) && v.testBit (lo + k)) := by
  unfold bitsOf
  rw [Nat.testBit_mod_two_pow, Nat.testBit_div_two_pow, Nat.add_comm k lo]

/-- A field written reads what was written. -/
theorem bitsOf_setBits {v hi lo x : Nat} (h : lo ≤ hi + 1) : bitsOf (setBits v hi lo x) hi lo = x % 2 ^ (hi + 1 - lo) := by
  apply Nat.eq_of_testBit_eq
  intro k
  rw [testBit_bitsOf, testBit_setBits h, Nat.testBit_mod_two_pow]
  by_cases hk : k < hi + 1 - lo
  · rw [if_pos (by omega)]; simp
  · simp [hk]

/-- Another field reads as before. -/
theorem bitsOf_setBits_ne {v hi lo x a b : Nat} (h : lo ≤ hi + 1) (d : a < lo ∨ hi < b) :
    bitsOf (setBits v hi lo x) a b = bitsOf v a b := by
  apply Nat.eq_of_testBit_eq
  intro k
  rw [testBit_bitsOf, testBit_bitsOf, testBit_setBits h]
  by_cases hk : k < a + 1 - b
  · rw [if_neg (by omega)]
  · simp [hk]

end Sys2Proof.Machine
end

