-- ==== Sys2Proof/Laws/Sparse.lean ====
section
/-! SUPPORT. Sparse maps: what a read answers after each operation, and that each operation keeps the canonical form. -/

namespace Sys2Proof.Machine

variable {α : Type}

@[simp] theorem mget_nil (d : α) (k : Nat) : mget d [] k = d := rfl
@[simp] theorem mfind_nil (k : Nat) : mfind ([] : Map α) k = none := rfl

/-- A lookup with a default is the lookup of the pair. -/
theorem mget_eq_mfind (d : α) (m : Map α) (k : Nat) : mget d m k = (mfind m k).getD d := by
  induction m with
  | nil => rfl
  | cons kv m ih => simp only [mget, mfind]; split <;> simp [ih]

theorem mfind_mdel (m : Map α) (k j : Nat) : mfind (mdel m k) j = if j = k then none else mfind m j := by
  induction m with
  | nil => simp [mdel]
  | cons kv m ih =>
    simp only [mdel, mfind]
    split
    · rw [ih]; split <;> simp_all
    · simp only [mfind]; split
      · simp_all; omega
      · exact ih

theorem mfind_mput (m : Map α) (k j : Nat) (v : α) : mfind (mput m k v) j = if j = k then some v else mfind m j := by
  induction m with
  | nil => simp [mput, mfind]
  | cons kv m ih =>
    simp only [mput]
    split
    · simp only [mfind]
    · split
      · subst_vars; simp only [mfind]; split <;> simp_all
      · simp only [mfind]; split
        · split
          · omega
          · rfl
        · exact ih

@[simp] theorem mfind_mdel_self (m : Map α) (k : Nat) : mfind (mdel m k) k = none := by simp [mfind_mdel]
@[simp] theorem mfind_mput_self (m : Map α) (k : Nat) (v : α) : mfind (mput m k v) k = some v := by simp [mfind_mput]
theorem mfind_mdel_ne {m : Map α} {k j : Nat} (h : j ≠ k) : mfind (mdel m k) j = mfind m j := by simp [mfind_mdel, h]
theorem mfind_mput_ne {m : Map α} {k j : Nat} {v : α} (h : j ≠ k) : mfind (mput m k v) j = mfind m j := by
  simp [mfind_mput, h]

theorem mget_mdel (d : α) (m : Map α) (k j : Nat) : mget d (mdel m k) j = if j = k then d else mget d m j := by
  simp only [mget_eq_mfind, mfind_mdel]; split <;> simp

theorem mget_mput (d : α) (m : Map α) (k j : Nat) (v : α) : mget d (mput m k v) j = if j = k then v else mget d m j := by
  simp only [mget_eq_mfind, mfind_mput]; split <;> simp

theorem mget_mset [DecidableEq α] (d : α) (m : Map α) (k j : Nat) (v : α) :
    mget d (mset d m k v) j = if j = k then v else mget d m j := by
  unfold mset; split
  · subst_vars; rw [mget_mdel]
  · rw [mget_mput]

@[simp] theorem mget_mset_self [DecidableEq α] (d : α) (m : Map α) (k : Nat) (v : α) : mget d (mset d m k v) k = v := by
  simp [mget_mset]

theorem mget_mset_ne [DecidableEq α] {d : α} {m : Map α} {k j : Nat} {v : α} (h : j ≠ k) :
    mget d (mset d m k v) j = mget d m j := by simp [mget_mset, h]

/-- What a kept map answers. -/
theorem mfind_mkeep (p : Nat → Bool) (m : Map α) (j : Nat) :
    mfind (mkeep (fun k _ => p k) m) j = if p j then mfind m j else none := by
  induction m with
  | nil => simp [mkeep]
  | cons kv m ih =>
    obtain ⟨k, v⟩ := kv
    simp only [mkeep, List.filter_cons] at ih ⊢
    by_cases hk : p k = true
    · simp only [hk, ite_true, mfind]
      split
      · subst_vars; simp [hk]
      · exact ih
    · simp only [hk, mfind]
      by_cases hj : j = k
      · subst_vars; rw [if_neg hk] at ih; simpa [hk] using ih
      · simpa [hj] using ih

theorem mget_mkeep (d : α) (p : Nat → Bool) (m : Map α) (j : Nat) :
    mget d (mkeep (fun k _ => p k) m) j = if p j then mget d m j else d := by
  simp only [mget_eq_mfind, mfind_mkeep]; split <;> simp

/-! ### The canonical form -/

/-- Every key of a map is above `n`. -/
def mabove (n : Nat) (m : Map α) : Prop := ∀ kv ∈ m, n < kv.1

theorem mrising_cons {k : Nat} {v : α} {m : Map α} : mrising ((k, v) :: m) = true ↔ mabove k m ∧ mrising m = true := by
  induction m generalizing k v with
  | nil => simp [mrising, mabove]
  | cons kv m ih =>
    obtain ⟨k', v'⟩ := kv
    simp only [mrising, Bool.and_eq_true, decide_eq_true_eq]
    constructor
    · rintro ⟨h, hm⟩
      refine ⟨?_, hm⟩
      intro x hx
      rcases List.mem_cons.mp hx with rfl | hx
      · exact h
      · exact lt_trans h ((ih.mp hm).1 x hx)
    · rintro ⟨h, hm⟩
      exact ⟨h (k', v') (by simp), hm⟩

theorem mdel_mem {m : Map α} {k : Nat} {x : Nat × α} (h : x ∈ mdel m k) : x ∈ m := by
  induction m with
  | nil => simp [mdel] at h
  | cons kv m ih =>
    obtain ⟨k', v⟩ := kv
    simp only [mdel] at h
    split at h
    · exact List.mem_cons_of_mem _ (ih h)
    · rcases List.mem_cons.mp h with rfl | h
      · simp
      · exact List.mem_cons_of_mem _ (ih h)

theorem mput_mem {m : Map α} {k : Nat} {v : α} {x : Nat × α} (h : x ∈ mput m k v) : x = (k, v) ∨ x ∈ m := by
  induction m with
  | nil => simpa [mput] using h
  | cons kv m ih =>
    obtain ⟨k', v'⟩ := kv
    simp only [mput] at h
    split at h
    · rcases List.mem_cons.mp h with h | h
      · exact .inl h
      · exact .inr h
    · split at h
      · rcases List.mem_cons.mp h with h | h
        · exact .inl h
        · exact .inr (List.mem_cons_of_mem _ h)
      · rcases List.mem_cons.mp h with h | h
        · exact .inr (by simp [h])
        · rcases ih h with h | h
          · exact .inl h
          · exact .inr (List.mem_cons_of_mem _ h)

theorem mrising_mdel {m : Map α} {k : Nat} (h : mrising m = true) : mrising (mdel m k) = true := by
  induction m with
  | nil => exact h
  | cons kv m ih =>
    obtain ⟨k', v⟩ := kv
    obtain ⟨ha, hm⟩ := mrising_cons.mp h
    simp only [mdel]
    split
    · exact ih hm
    · exact mrising_cons.mpr ⟨fun x hx => ha x (mdel_mem hx), ih hm⟩

theorem mrising_mput {m : Map α} {k : Nat} {v : α} (h : mrising m = true) : mrising (mput m k v) = true := by
  induction m with
  | nil => simp [mput, mrising]
  | cons kv m ih =>
    obtain ⟨k', v'⟩ := kv
    obtain ⟨ha, hm⟩ := mrising_cons.mp h
    simp only [mput]
    split
    · rename_i hk
      refine mrising_cons.mpr ⟨?_, h⟩
      intro x hx
      rcases List.mem_cons.mp hx with rfl | hx
      · exact hk
      · exact lt_trans hk (ha x hx)
    · split
      · subst_vars; exact mrising_cons.mpr ⟨ha, hm⟩
      · refine mrising_cons.mpr ⟨?_, ih hm⟩
        intro x hx
        rcases mput_mem hx with rfl | hx
        · simp only; omega
        · exact ha x hx

variable [DecidableEq α]

theorem mwf_iff {d : α} {m : Map α} : mwf d m = true ↔ mrising m = true ∧ ∀ kv ∈ m, kv.2 ≠ d := by
  simp [mwf]

@[simp] theorem mwf_nil (d : α) : mwf d [] = true := rfl

theorem mwf_mdel {d : α} {m : Map α} {k : Nat} (h : mwf d m = true) : mwf d (mdel m k) = true := by
  obtain ⟨hr, hd⟩ := mwf_iff.mp h
  exact mwf_iff.mpr ⟨mrising_mdel hr, fun x hx => hd x (mdel_mem hx)⟩

/-- Writing a value keeps the canonical form. -/
theorem mwf_mset {d : α} {m : Map α} {k : Nat} {v : α} (h : mwf d m = true) : mwf d (mset d m k v) = true := by
  unfold mset
  split
  · exact mwf_mdel h
  · obtain ⟨hr, hd⟩ := mwf_iff.mp h
    refine mwf_iff.mpr ⟨mrising_mput hr, fun x hx => ?_⟩
    rcases mput_mem hx with rfl | hx
    · assumption
    · exact hd x hx

omit [DecidableEq α] in
theorem mrising_mkeep {p : Nat → α → Bool} {m : Map α} (h : mrising m = true) : mrising (mkeep p m) = true := by
  induction m with
  | nil => exact h
  | cons kv m ih =>
    obtain ⟨k, v⟩ := kv
    obtain ⟨ha, hm⟩ := mrising_cons.mp h
    simp only [mkeep, List.filter_cons] at ih ⊢
    split
    · exact mrising_cons.mpr ⟨fun x hx => ha x (List.mem_of_mem_filter hx), ih hm⟩
    · exact ih hm

theorem mwf_mkeep {d : α} {p : Nat → α → Bool} {m : Map α} (h : mwf d m = true) : mwf d (mkeep p m) = true := by
  obtain ⟨hr, hd⟩ := mwf_iff.mp h
  exact mwf_iff.mpr ⟨mrising_mkeep hr, fun x hx => hd x (List.mem_of_mem_filter hx)⟩

theorem mwf_putOctets {skip : Nat → Bool} {l : List Octet} {m : Map Octet} {a : Nat} (h : mwf 0 m = true) :
    mwf 0 (putOctets skip m a l) = true := by
  induction l generalizing m a with
  | nil => exact h
  | cons o l ih =>
    simp only [putOctets]
    apply ih
    split
    · exact h
    · exact mwf_mset h

theorem mwf_putHost {p : Nat} {l : List Octet} {m : Map Octet} {a : Nat} (h : mwf 0 m = true) :
    mwf 0 (putHost p m a l) = true := by
  induction l generalizing m a with
  | nil => exact h
  | cons o l ih => exact ih (mwf_mset h)

/-- What a memory reads after octets are put at rising addresses. -/
theorem mget_putOctets (skip : Nat → Bool) (l : List Octet) (m : Map Octet) (a b : Nat) :
    mget 0 (putOctets skip m a l) b = if a ≤ b ∧ b < a + l.length ∧ skip b = false then l.getD (b - a) 0 else mget 0 m b := by
  induction l generalizing m a with
  | nil => simp [putOctets]; intros; omega
  | cons o l ih =>
    simp only [putOctets, ih, List.length_cons]
    by_cases hb : b = a
    · subst hb
      have h1 : ¬ (b + 1 ≤ b ∧ b < b + 1 + l.length ∧ skip b = false) := by omega
      rw [if_neg h1]
      cases hs : skip b <;> simp
    · have key : ∀ x : Nat, a + 1 ≤ x → (o :: l).getD (x - a) 0 = l.getD (x - (a + 1)) 0 := by
        intro x hx
        obtain ⟨n, rfl⟩ := Nat.exists_eq_add_of_le hx
        have e1 : a + 1 + n - a = n + 1 := by omega
        have e2 : a + 1 + n - (a + 1) = n := by omega
        rw [e1, e2, List.getD_cons_succ]
      have hm : mget 0 (if skip a = true then m else mset 0 m a o) b = mget 0 m b := by
        split
        · rfl
        · exact mget_mset_ne hb
      rw [hm]
      by_cases hc : a + 1 ≤ b ∧ b < a + 1 + l.length ∧ skip b = false
      · rw [if_pos hc, if_pos ⟨by omega, by omega, hc.2.2⟩, key b hc.1]
      · rw [if_neg hc, if_neg]
        rintro ⟨h1, h2, h3⟩
        exact hc ⟨by omega, by omega, h3⟩

end Sys2Proof.Machine
end

