-- ==== Sys2Proof/Laws/Context.lean ====
section
/-! SUPPORT. A thread's context: what each write of a register, a predicate or a late result leaves, field by field; and the
threads, slots and tasks of the state, read after a write. -/

namespace Sys2Proof.Machine

variable {c : Ctx} {s : State}

/-- The register a write names reads the value, G0 zero, and every other as before. -/
theorem Ctx.g_setG (c : Ctx) (i r : Nat) (v : W36) : (c.setG i v).g r = if r = i ∧ i ≠ 0 then v else c.g r := by
  unfold Ctx.setG Ctx.g
  by_cases hi : i = 0 <;> by_cases hr : r = 0
  · simp [hi, hr]
  · simp [hi, hr]
  · simp [hi, hr, Ne.symm hi]
  · by_cases h : r = i <;> simp [hi, hr, h, mget_mset]

@[simp] theorem Ctx.g_zero (c : Ctx) : c.g 0 = 0 := rfl
@[simp] theorem Ctx.pd_zero (c : Ctx) : c.pd 0 = true := rfl

/-- A write of a G register changes the registers only. -/
theorem Ctx.setG_eq (c : Ctx) (i : Nat) (v : W36) : c.setG i v = { c with regs := (c.setG i v).regs } := by
  unfold Ctx.setG; split <;> rfl

/-- A write of a predicate changes the predicates only. -/
theorem Ctx.setP_eq (c : Ctx) (i : Nat) (b : Bool) : c.setP i b = { c with preds := (c.setP i b).preds } := by
  unfold Ctx.setP; split <;> rfl

@[simp] theorem Ctx.pd_setG (c : Ctx) (i k : Nat) (v : W36) : (c.setG i v).pd k = c.pd k := by
  rw [Ctx.setG_eq]; rfl
@[simp] theorem Ctx.g_setP (c : Ctx) (i k : Nat) (b : Bool) : (c.setP i b).g k = c.g k := by
  rw [Ctx.setP_eq]; rfl

/-- A predicate's value is its bit. -/
theorem Ctx.pd_eq (c : Ctx) (i : Nat) : c.pd i = (decide (i = 0) || c.preds.toNat.testBit i) := by
  unfold Ctx.pd
  rw [Nat.testBit_eq_decide_div_mod_eq]
  by_cases h : c.preds.toNat / 2 ^ i % 2 = 1 <;> simp [h]

/-- The predicate a write names reads the value, P0 true, and every other as before. -/
theorem Ctx.pd_setP (c : Ctx) (i k : Nat) (b : Bool) (h : k < 8) :
    (c.setP i b).pd k = if k = i ∧ i ≠ 0 then b else c.pd k := by
  unfold Ctx.setP
  by_cases hi : i = 0
  · simp [hi]
  · rw [if_neg hi, Ctx.pd_eq, Ctx.pd_eq]
    have e : (BitVec.ofNat 8 (setBit c.preds.toNat i b)).toNat.testBit k = (setBit c.preds.toNat i b).testBit k := by
      rw [BitVec.toNat_ofNat, Nat.testBit_mod_two_pow]; simp [h]
    rw [e, testBit_setBit]
    by_cases hk : k = i
    · simp [hk, hi]
    · simp [hk]

/-- A late result writes a register, TK or MQ and nothing else. -/
theorem Ctx.landOne_eq (c : Ctx) (l : LateTarget) :
    c.landOne l = { c with regs := (c.landOne l).regs, tk := (c.landOne l).tk, mq := (c.landOne l).mq } := by
  cases l with
  | reg rd v =>
    show c.setG rd v = { c with regs := (c.setG rd v).regs, tk := (c.setG rd v).tk, mq := (c.setG rd v).mq }
    unfold Ctx.setG; split <;> rfl
  | _ => rfl

/-- Results that land write registers, TK and MQ and nothing else. -/
theorem Ctx.landList_eq (l : List LateWrite) (c : Ctx) :
    l.foldl (fun c x => c.landOne x.what) c =
      { c with regs := (l.foldl (fun c x => c.landOne x.what) c).regs, tk := (l.foldl (fun c x => c.landOne x.what) c).tk,
               mq := (l.foldl (fun c x => c.landOne x.what) c).mq } := by
  induction l generalizing c with
  | nil => rfl
  | cons x l ih =>
    rw [List.foldl_cons, ih, Ctx.landOne_eq]

/-- A turn writes registers, TK, MQ and the results still to land, and nothing else. -/
theorem Ctx.turn_eq (c : Ctx) :
    c.turn = { c with regs := c.turn.regs, tk := c.turn.tk, mq := c.turn.mq, late := c.turn.late } := by
  unfold Ctx.turn
  dsimp only
  rw [Ctx.landList_eq]

@[simp] theorem Ctx.turn_pc (c : Ctx) : c.turn.pc = c.pc := by rw [Ctx.turn_eq]
@[simp] theorem Ctx.turn_preds (c : Ctx) : c.turn.preds = c.preds := by rw [Ctx.turn_eq]
@[simp] theorem Ctx.turn_pd (c : Ctx) (i : Nat) : c.turn.pd i = c.pd i := by unfold Ctx.pd; rw [Ctx.turn_preds]
@[simp] theorem Ctx.turn_sels (c : Ctx) : c.turn.sels = c.sels := by rw [Ctx.turn_eq]
@[simp] theorem Ctx.turn_task (c : Ctx) : c.turn.task = c.task := by rw [Ctx.turn_eq]
@[simp] theorem Ctx.turn_tags (c : Ctx) : c.turn.tags = c.tags := by rw [Ctx.turn_eq]
@[simp] theorem Ctx.turn_win (c : Ctx) : c.turn.win = c.win := by rw [Ctx.turn_eq]
@[simp] theorem Ctx.turn_ev (c : Ctx) : c.turn.ev = c.ev := by rw [Ctx.turn_eq]
@[simp] theorem Ctx.turn_pg (c : Ctx) : c.turn.pg = c.pg := by rw [Ctx.turn_eq]
@[simp] theorem Ctx.turn_ca (c : Ctx) : c.turn.ca = c.ca := by rw [Ctx.turn_eq]
@[simp] theorem Ctx.turn_macc (c : Ctx) : c.turn.macc = c.macc := by rw [Ctx.turn_eq]
@[simp] theorem Ctx.turn_micro (c : Ctx) : c.turn.micro = c.micro := by rw [Ctx.turn_eq]

/-- A thread stored reads back, and every other thread as before. -/
@[simp] theorem thr_setThr (s : State) (t k : Nat) (x : Thread) : thr (setThr s t x) k = if k = t then x else thr s k :=
  mget_mset _ _ _ _ _

@[simp] theorem thr_updThr (s : State) (t k : Nat) (f : Thread → Thread) :
    thr (updThr s t f) k = if k = t then f (thr s t) else thr s k := thr_setThr _ _ _ _

@[simp] theorem thr_updCtx (s : State) (t k : Nat) (f : Ctx → Ctx) :
    thr (updCtx s t f) k = if k = t then { thr s t with ctx := f (thr s t).ctx } else thr s k := thr_updThr _ _ _ _

/-- A change of a thread changes the threads only. -/
theorem updThr_eq (s : State) (t : Nat) (f : Thread → Thread) :
    updThr s t f = { s with thr := { s.thr with threads := (updThr s t f).thr.threads } } := rfl

@[simp] theorem thrPart_updThr (s : State) (t k : Nat) (f : Thread → Thread) : thrPart (updThr s t f) k = thrPart s k := rfl
@[simp] theorem thrPart_updCtx (s : State) (t k : Nat) (f : Ctx → Ctx) : thrPart (updCtx s t f) k = thrPart s k := rfl
@[simp] theorem rdDev_updThr (s : State) (t o : Nat) (f : Thread → Thread) : rdDev (updThr s t f) o = rdDev s o := rfl
@[simp] theorem taskSt_updThr (s : State) (t k : Nat) (f : Thread → Thread) : taskSt (updThr s t f) k = taskSt s k := rfl
@[simp] theorem slotSt_updThr (s : State) (t k : Nat) (f : Thread → Thread) : slotSt (updThr s t f) k = slotSt s k := rfl

/-- A save slot filled reads back, and every other slot as before. -/
@[simp] theorem slotSt_putSlot (s : State) (k j : Nat) (x : Saved) :
    slotSt (putSlot s k x) j = if j = k then some x else slotSt s j := mfind_mput _ _ _ _

/-- A save slot emptied reads empty, and every other slot as before. -/
@[simp] theorem slotSt_delSlot (s : State) (k j : Nat) : slotSt (delSlot s k) j = if j = k then none else slotSt s j :=
  mfind_mdel _ _ _

/-- A task stored reads back, and every other task as before. -/
@[simp] theorem taskSt_putTask (s : State) (k j : Nat) (x : TaskSt) :
    taskSt (putTask s k x) j = if j = k then some x else taskSt s j := mfind_mput _ _ _ _

@[simp] theorem thr_putSlot (s : State) (k j : Nat) (x : Saved) : thr (putSlot s k x) j = thr s j := rfl
@[simp] theorem thr_delSlot (s : State) (k j : Nat) : thr (delSlot s k) j = thr s j := rfl
@[simp] theorem thr_putTask (s : State) (k j : Nat) (x : TaskSt) : thr (putTask s k x) j = thr s j := rfl
@[simp] theorem taskSt_putSlot (s : State) (k j : Nat) (x : Saved) : taskSt (putSlot s k x) j = taskSt s j := rfl
@[simp] theorem slotSt_putTask (s : State) (k j : Nat) (x : TaskSt) : slotSt (putTask s k x) j = slotSt s j := rfl

@[simp] theorem thr_unstall (s : State) (p k : Nat) : thr (unstall s p) k = thr s k := rfl
@[simp] theorem thrPart_unstall (s : State) (p k : Nat) : thrPart (unstall s p) k = thrPart s k := rfl

end Sys2Proof.Machine
end

