-- ==== Sys2Proof/Laws/Issue.lean ====
section
/-! SUPPORT. What issuing a bundle of one syllable does, said once: where the thread may issue, and its guard lets the syllable
execute, the syllable's effect runs on the state in which the turn has passed and PC has moved past the bundle. -/

namespace Sys2Proof.Machine

variable {s : State} {t : Nat} {x : Syl}

/-- A sample for a monitor changes nothing but the monitors. -/
theorem gaitGive_eq (p : Nat) (f : Nat → Option Nat) (s : State) (x : Nat × Nat) :
    gaitGive p f s x = { s with dbg := (gaitGive p f s x).dbg } := by
  unfold gaitGive
  split
  · split <;> rfl
  · rfl

/-- Samples for monitors change nothing but the monitors. -/
theorem gaitYield_eq (s : State) (p : Nat) (f : Nat → Option Nat) :
    gaitYield s p f = { s with dbg := (gaitYield s p f).dbg } := by
  unfold gaitYield
  generalize gaitOn s = l
  induction l generalizing s with
  | nil => rfl
  | cons x l ih =>
    rw [List.foldl_cons, ih, gaitGive_eq]

/-- The samples depend on the monitors and the registers alone. -/
theorem gaitFold_dbg (p : Nat) (f : Nat → Option Nat) (l : List (Nat × Nat)) (u v : State) (hd : u.dbg = v.dbg)
    (hr : u.regs = v.regs) : (l.foldl (gaitGive p f) u).dbg = (l.foldl (gaitGive p f) v).dbg := by
  induction l generalizing u v with
  | nil => exact hd
  | cons x l ih =>
    simp only [List.foldl_cons]
    refine ih _ _ ?_ ?_
    · have ho : monOwner u x.1 = monOwner v x.1 := by unfold monOwner rdDev; rw [hr]
      unfold gaitGive
      rw [ho]
      split
      · split
        · unfold gaitQueue; simp [hd]
        · exact hd
      · exact hd
    · rw [gaitGive_eq p f u, gaitGive_eq p f v]; exact hr

/-- A latency point of a ticket changes the ticket and the monitors alone. -/
theorem ticketReach_eq (s : State) (i : Nat) (sub : Option Nat) (k : Nat) :
    ticketReach s i sub k = { s with
      hlt := { s.hlt with tickets := (ticketReach s i sub k).hlt.tickets }, dbg := (ticketReach s i sub k).dbg } := by
  unfold ticketReach latReach
  dsimp only
  rw [gaitYield_eq]
  rfl

/-- The mark of a first bundle changes tickets and monitors alone. -/
theorem firstBundle_eq (s : State) (t : Nat) :
    firstBundle s t = { s with
      hlt := { s.hlt with tickets := (firstBundle s t).hlt.tickets }, dbg := (firstBundle s t).dbg } := by
  unfold firstBundle
  split
  · split
    · dsimp only
      split
      · exact ticketReach_eq _ _ _ _
      · rfl
    · rfl
  · rfl

@[simp] theorem thr_firstBundle (s : State) (t k : Nat) : thr (firstBundle s t) k = thr s k := by
  rw [firstBundle_eq]; rfl

@[simp] theorem thrPart_firstBundle (s : State) (t k : Nat) : thrPart (firstBundle s t) k = thrPart s k := by
  rw [firstBundle_eq]; rfl

/-- The state a syllable's effect runs on: late results have landed, the first bundle is marked, PC is past the bundle, the
thread does not wait, and its partition does not stall. -/
def issuing (s : State) (t n : Nat) : State :=
  unstall (updThr (firstBundle (updCtx s t (fun c => c.turn)) t) t (fun x => { x with
    inWait := false, skipBp := false, routine := none, ctx := { x.ctx with pc := x.ctx.pc + BitVec.ofNat 16 n } }))
    ((thrPart s t).getD 8)

/-- The thread that issues. -/
theorem thr_issuing (s : State) (t n : Nat) : thr (issuing s t n) t =
    { thr s t with ctx := { (thr s t).ctx.turn with pc := (thr s t).ctx.pc + BitVec.ofNat 16 n },
                   inWait := false, skipBp := false, routine := none } := by
  unfold issuing; simp

/-- Another thread. -/
theorem thr_issuing_ne {k n : Nat} (h : k ≠ t) : thr (issuing s t n) k = thr s k := by
  unfold issuing; simp [h]

/-- A turn leaves what the mark of a first bundle reads. -/
theorem firstBundle_turn (s : State) (t : Nat) :
    (firstBundle (updCtx s t (fun c => c.turn)) t).hlt.tickets = (firstBundle s t).hlt.tickets ∧
      (firstBundle (updCtx s t (fun c => c.turn)) t).dbg = (firstBundle s t).dbg := by
  have h : thrTask (updCtx s t (fun c => c.turn)) t = thrTask s t := by unfold thrTask; simp
  unfold firstBundle
  rw [h]
  cases thrTask s t with
  | none => exact ⟨rfl, rfl⟩
  | some id =>
    dsimp only
    rw [show taskSt (updCtx s t (fun c => c.turn)) id = taskSt s id from rfl]
    cases taskSt s id with
    | none => exact ⟨rfl, rfl⟩
    | some x =>
      dsimp only
      rw [show ticket (updCtx s t (fun c => c.turn)) (x.tkw.toNat % 16384) = ticket s (x.tkw.toNat % 16384) from rfl]
      split
      · constructor
        · unfold ticketReach latReach
          dsimp only
          rw [gaitYield_eq, gaitYield_eq s]
          rfl
        · unfold ticketReach latReach setTicket gaitYield
          dsimp only
          exact gaitFold_dbg _ _ _ _ _ rfl rfl
      · exact ⟨rfl, rfl⟩

/-- From `s`, a change of the threads alone but for what an issue does besides: the partition `p` does not stall, and the
first bundle of thread `t` is marked. -/
def ThreadsOf (s u : State) (t p : Nat) : Prop :=
  ∃ m, u = { s with
    thr := { s.thr with threads := m }, dbg := (firstBundle s t).dbg,
    hlt := { s.hlt with stallSince := mdel s.hlt.stallSince p, tickets := (firstBundle s t).hlt.tickets } }

/-- A further change of a thread. -/
theorem ThreadsOf.updThr {u : State} {t p : Nat} (h : ThreadsOf s u t p) (k : Nat) (f : Thread → Thread) :
    ThreadsOf s (updThr u k f) t p := by
  obtain ⟨m, rfl⟩ := h
  exact ⟨_, rfl⟩

theorem ThreadsOf.eq {u : State} {t p : Nat} (h : ThreadsOf s u t p) :
    u = { s with
      thr := { s.thr with threads := u.thr.threads }, dbg := (firstBundle s t).dbg,
      hlt := { s.hlt with stallSince := mdel s.hlt.stallSince p, tickets := (firstBundle s t).hlt.tickets } } := by
  obtain ⟨m, rfl⟩ := h
  rfl

/-- Issuing changes threads alone, but for the stall and the mark of a first bundle. -/
theorem issuing_threads (s : State) (t n : Nat) : ThreadsOf s (issuing s t n) t ((thrPart s t).getD 8) := by
  unfold issuing
  rw [firstBundle_eq, (firstBundle_turn s t).1, (firstBundle_turn s t).2]
  exact ⟨_, rfl⟩

/-- The breakpoints of a thread are those of its PC, which a turn keeps. -/
theorem breakpoint_turn (s : State) (t : Nat) : breakpoint (updCtx s t (fun c => c.turn)) t = breakpoint s t := by
  unfold breakpoint
  simp only [thr_updCtx, if_true, Ctx.turn_pc]
  rfl

/-- A syllable that executes answers its effect. -/
theorem Syl.eval_run (hu : x.undef = false) (hg : guardOn (thr s t).ctx x.guard = true) : x.eval s t = x.fx s := by
  unfold Syl.eval
  simp [hu, hg]

/-- Issue of one syllable that neither stalls nor faults. -/
theorem issueSyls_one (hf : (x.eval s t).stall = false) (hk : (x.eval s t).fault = none)
    (hs : (thr s t).stepping = false) (n : Nat) :
    issueSyls s t n [x] = (x.eval s t).run ((x.eval s t).pre (unstall (updThr (firstBundle s t) t (fun x => { x with
      inWait := false, skipBp := false, routine := none, ctx := { x.ctx with pc := x.ctx.pc + BitVec.ofNat 16 n } }))
      ((thrPart s t).getD 8))) := by
  unfold issueSyls
  simp [hf, hk, hs]

/-- A thread that may issue issues the syllable: its effect is evaluated once the turn has passed, and runs past the bundle. -/
theorem issueOne_run {T : Thr} (hi : canIssueBundle s T.toNat = true) (hb : breakpoint s T.toNat = none)
    (hs : (thr s T.toNat).stepping = false) (hu : x.undef = false) (hg : guardOn (thr s T.toNat).ctx.turn x.guard = true)
    {f : Fx} (he : x.fx (updCtx s T.toNat (fun c => c.turn)) = f) (hf : f.stall = false) (hk : f.fault = none) :
    issueOne s T x = f.run (f.pre (issuing s T.toNat 1)) := by
  have hev : x.eval (updCtx s T.toNat (fun c => c.turn)) T.toNat = f := by
    rw [Syl.eval_run hu (by simpa using hg), he]
  unfold issueOne turnWith
  simp only [hi, Bool.not_true, Bool.false_eq_true, if_false, breakpoint_turn, hb]
  rw [issueSyls_one (by rw [hev]; exact hf) (by rw [hev]; exact hk) (by simpa using hs) 1, hev, thrPart_updCtx]
  rfl

/-- A syllable of the context alone leaves the context that its function answers, PC past the bundle, and nothing else. -/
theorem issueOne_ctx {T : Thr} {u : Nat} {g : Gd} {f : Ctx → Ctx → Ctx} (hi : canIssueBundle s T.toNat = true)
    (hb : breakpoint s T.toNat = none) (hs : (thr s T.toNat).stepping = false)
    (hg : guardOn (thr s T.toNat).ctx.turn g = true) :
    let u := issueOne s T (ctxSyl T u g false f)
    let c := (thr s T.toNat).ctx.turn
    ThreadsOf s u T.toNat ((thrPart s T.toNat).getD 8) ∧
    thr u T.toNat = { thr s T.toNat with
      ctx := f c { c with pc := c.pc + 1 }, inWait := false, skipBp := false, routine := none } ∧
    ∀ k, k ≠ T.toNat → thr u k = thr s k := by
  have e := issueOne_run (x := ctxSyl T u g false f) hi hb hs rfl hg rfl rfl rfl
  intro u c
  have hu : u = updCtx (issuing s T.toNat 1) T.toNat (f c) := by
    show issueOne s T _ = _
    rw [e]
    show updCtx (issuing s T.toNat 1) _ (f (thr (updCtx s T.toNat _) T.toNat).ctx) = _
    simp [c]
  refine ⟨by rw [hu]; exact (issuing_threads s _ 1).updThr _ _, ?_, fun k hk => ?_⟩
  · rw [hu, thr_updCtx, if_pos rfl, thr_issuing]
    simp [c]
  · rw [hu, thr_updCtx, if_neg hk, thr_issuing_ne hk]

end Sys2Proof.Machine
end

