-- ==== Sys2Proof/Laws/Kept.lean ====
section
/-! SUPPORT. What every operation keeps: the queue of commands, the canonical form of the memories, and BOLT_N asserted exactly
while the part is not booted or is in device Bolt. One lemma per operation says so; a proof about a command cites those of the
operations it calls. -/

namespace Sys2Proof.Machine

/-- The memories are in canonical form. -/
def Mems.form (m : Mems) : Prop :=
  mwf 0 m.clm = true ∧ mwf 0 m.csm = true ∧ mwf 0 m.ist = true ∧ mwf 0 m.dev = true ∧ mwf 0 m.host = true ∧
    mwf ({} : Seg) m.segs = true

/-- The queue is `q`, the memories are in canonical form, and BOLT_N follows Bolt and boot. -/
structure Kept (q : List Instr) (s : State) : Prop where
  queue : s.pending = q
  mem : s.mem.form
  bolt : s.pins.boltN = (s.hkc.booted && !s.hkc.dbolt)

variable {q : List Instr} {s t : State}

/-- A change elsewhere keeps it. -/
theorem Kept.upd (h : Kept q s) (h1 : t.pending = s.pending) (h2 : t.mem = s.mem) (h3 : t.pins.boltN = s.pins.boltN)
    (h4 : t.hkc.booted = s.hkc.booted) (h5 : t.hkc.dbolt = s.hkc.dbolt) : Kept q t :=
  ⟨h1.trans h.queue, h2 ▸ h.mem, by rw [h3, h4, h5]; exact h.bolt⟩

/-- A change of the memories that keeps their form keeps it. -/
theorem Kept.updMem (h : Kept q s) (h1 : t.pending = s.pending) (h2 : t.mem.form) (h3 : t.pins.boltN = s.pins.boltN)
    (h4 : t.hkc.booted = s.hkc.booted) (h5 : t.hkc.dbolt = s.hkc.dbolt) : Kept q t :=
  ⟨h1.trans h.queue, h2, by rw [h3, h4, h5]; exact h.bolt⟩

/-- A state written out. -/
theorem Kept.mk_iff {xpending : List Instr} {xfresh : Nat} {xseq : Nat} {xnow : Nat} {xregs : Regs} {xmem : Mems} {xthr : Threads} {xhlt : Halter} {xhsp : Hasp} {xbuf : Bufs} {xegr : Egress} {xprt : Ports} {xpar : Parser} {xstf : Framer} {xsrc : Search} {xtbl : Tables} {xcry : Crypto} {xjnl : Journal} {xgpl : Gopol} {xhbm : Hbm} {xhkc : Hkc} {xfar : Farrier} {xdbg : Debug} {xtb : TimeBase} {xflash : Flash} {xpins : Pins} {xout : List OutEvent} :
    Kept q (State.mk xpending xfresh xseq xnow xregs xmem xthr xhlt xhsp xbuf xegr xprt xpar xstf xsrc xtbl xcry xjnl xgpl xhbm xhkc xfar xdbg xtb xflash xpins xout) ↔
      xpending = q ∧ xmem.form ∧ xpins.boltN = (xhkc.booted && !xhkc.dbolt) :=
  ⟨fun h => ⟨h.queue, h.mem, h.bolt⟩, fun h => ⟨h.1, h.2.1, h.2.2⟩⟩

/-- The three facts of a state. -/
theorem Kept.facts (h : Kept q s) : s.pending = q ∧ s.mem.form ∧ s.pins.boltN = (s.hkc.booted && !s.hkc.dbolt) :=
  ⟨h.queue, h.mem, h.bolt⟩

/-- The state a pair holds. -/
theorem Kept.pair {α : Type} {x : α × State} {a : α} (e : x = (a, s)) (h : Kept q x.2) : Kept q s := by subst e; exact h

/-- The state a triple holds. -/
theorem Kept.triple {α β : Type} {x : α × β × State} {a : α} {b : β} (e : x = (a, b, s)) (h : Kept q x.2.2) : Kept q s := by
  subst e; exact h

/-- The state an option holds. -/
theorem Kept.some {x : Option State} (e : x = some s) (h : ∀ y, x = Option.some y → Kept q y) : Kept q s := h s e

/-- A fold of an operation that keeps it keeps it. -/
theorem Kept.fold {β : Type} {f : State → β → State} (hf : ∀ s x, Kept q s → Kept q (f s x)) {l : List β} (h : Kept q s) :
    Kept q (l.foldl f s) := by
  induction l generalizing s with
  | nil => exact h
  | cons x l ih => exact ih (hf s x h)

/-- A change of the memories that keeps their form. -/
theorem Kept.mems {m : Mems} (h : Kept q s) (hm : m.form) : Kept q { s with mem := m } := ⟨h.queue, hm, h.bolt⟩

/-- Entry to device Bolt. -/
theorem Kept.bolted {k : Hkc} {p : Pins} (h : Kept q s) (hk : k.dbolt = true) (hp : p.boltN = false) :
    Kept q { s with hkc := k, pins := p } :=
  ⟨h.queue, h.mem, by simp [hk, hp]⟩

/-- A write of a segment table. -/
theorem Kept.setSegs {n : Nat} {g : Seg} (h : Kept q s) :
    Kept q { s with mem := { s.mem with segs := mset {} s.mem.segs n g } } :=
  ⟨h.queue, ⟨h.mem.1, h.mem.2.1, h.mem.2.2.1, h.mem.2.2.2.1, h.mem.2.2.2.2.1, mwf_mset h.mem.2.2.2.2.2⟩, h.bolt⟩

/-- A fold that carries a state in a pair. -/
theorem Kept.foldPair {α β : Type} {f : α × State → β → α × State} (hf : ∀ a x, Kept q a.2 → Kept q (f a x).2)
    {l : List β} {a : α × State} (h : Kept q a.2) : Kept q (l.foldl f a).2 := by
  induction l generalizing a with
  | nil => exact h
  | cons x l ih => exact ih (hf a x h)

/-- Either branch keeps it. -/
theorem Kept.ite {c : Prop} [Decidable c] (h1 : c → Kept q s) (h2 : ¬ c → Kept q t) : Kept q (if c then s else t) := by
  split
  · exact h1 ‹_›
  · exact h2 ‹_›

/-- Either branch of a pair keeps it. -/
theorem Kept.ite₂ {α : Type} {c : Prop} [Decidable c] {x y : α × State} (h1 : c → Kept q x.2) (h2 : ¬ c → Kept q y.2) :
    Kept q (if c then x else y).2 := by
  split
  · exact h1 ‹_›
  · exact h2 ‹_›

/-- If the outcome is a next state, the state keeps it. -/
structure OutKept (q : List Instr) (o : Host.Outcome State Fault Refusal) : Prop where
  next : ∀ t, o = .next t → Kept q t

theorem OutKept.next_iff : OutKept q (.next s) ↔ Kept q s :=
  ⟨fun h => h.next s rfl, fun h => ⟨fun t e => by cases e; exact h⟩⟩

theorem OutKept.fault {f : Fault} : OutKept q (.fault f) := ⟨fun _ e => by cases e⟩

theorem OutKept.refused {r : Refusal} : OutKept q (.refused r) := ⟨fun _ e => by cases e⟩

/-- Either branch of an outcome keeps it. -/
theorem OutKept.ite {c : Prop} [Decidable c] {x y : Host.Outcome State Fault Refusal} (h1 : c → OutKept q x)
    (h2 : ¬ c → OutKept q y) : OutKept q (if c then x else y) := by
  split
  · exact h1 ‹_›
  · exact h2 ‹_›

/-- A syllable's effect keeps it. -/
structure Fx.Keeps (f : Fx) : Prop where
  run : ∀ q s, Kept q s → Kept q (f.run s)
  pre : ∀ q s, Kept q s → Kept q (f.pre s)

/-- An effect written out. -/
theorem Fx.keeps_iff {a b : Bool} {c : Option (Nat × Nat × Nat)} {r : State → State} :
    Fx.Keeps ⟨a, b, c, id, r⟩ ↔ ∀ q s, Kept q s → Kept q (r s) := ⟨fun h => h.run, fun h => ⟨h, fun _ _ h => h⟩⟩

/-- A syllable's effect keeps it, whatever state it is evaluated in. -/
structure Syl.Keeps (x : Syl) : Prop where
  fx : ∀ s, (x.fx s).Keeps

/-- A syllable written out. -/
theorem Syl.keeps_iff {u : Nat} {gd : Gd} {a b : Bool} {f : State → Fx} :
    Syl.Keeps ⟨u, gd, a, b, f⟩ ↔ ∀ s, (f s).Keeps := ⟨fun h => h.fx, fun h => ⟨h⟩⟩

/-- No effect. -/
theorem Fx.idle : Fx.Keeps {} := ⟨fun _ _ h => h, fun _ _ h => h⟩

/-- An effect that only stalls, waits or faults. -/
theorem Fx.still {a b : Bool} {c : Option (Nat × Nat × Nat)} : Fx.Keeps ⟨a, b, c, id, id⟩ :=
  ⟨fun _ _ h => h, fun _ _ h => h⟩

/-- Either branch keeps it. -/
theorem Fx.ite_keeps {c : Prop} [Decidable c] {x y : Fx} (h1 : c → x.Keeps) (h2 : ¬ c → y.Keeps) :
    (if c then x else y).Keeps := by
  split
  · exact h1 ‹_›
  · exact h2 ‹_›

/-- The reset state. -/
theorem Kept.reset : Kept [] State.reset := ⟨rfl, ⟨rfl, rfl, rfl, rfl, rfl, rfl⟩, rfl⟩

end Sys2Proof.Machine
end

