-- ==== Sys2Proof/Laws/KeptOps.lean ====
section
/-! SUPPORT. What the registers, the memories and completions keep (Sys2Proof.Machine.Kept): one lemma per operation, each citing those of the operations it calls. -/

namespace Sys2Proof.Machine

variable {q : List Instr} {s : State}

theorem sendEvent_kept (h : Kept q s) (code result : Nat) (detail : List Octet) :
    Kept q (sendEvent s code result detail) := by
  unfold sendEvent
  repeat' first
    | (lift_lets; intro) | with_reducible assumption | (simp only [Kept.mk_iff]; with_reducible refine Kept.facts ?_)
    | (with_reducible refine Kept.ite (fun _ => ?_) (fun _ => ?_))

theorem cntAdd_kept (h : Kept q s) (o n : Nat) : Kept q (cntAdd s o n) := by
  unfold cntAdd
  repeat' first
    | (lift_lets; intro) | with_reducible assumption | (simp only [Kept.mk_iff]; with_reducible refine Kept.facts ?_)

theorem pcnt_kept (h : Kept q s) (base st : Nat) (p k n : Nat) : Kept q (pcnt s base st p k n) := by
  unfold pcnt
  repeat' first | with_reducible assumption | with_reducible apply cntAdd_kept

theorem gaitQueue_kept (h : Kept q s) (m v : Nat) : Kept q (gaitQueue s m v) := by
  unfold gaitQueue
  repeat' first
    | (lift_lets; intro) | with_reducible assumption | intro _
    | (simp only [Kept.mk_iff]; with_reducible refine Kept.facts ?_)

theorem gaitGive_kept (h : Kept q s) (p : Nat) (val : Nat → Option Nat) (mw : Nat × Nat) :
    Kept q (gaitGive p val s mw) := by
  unfold gaitGive
  repeat' first
    | with_reducible assumption | with_reducible apply gaitQueue_kept
    | (with_reducible refine Kept.ite (fun _ => ?_) (fun _ => ?_)) | split

theorem gaitYield_kept (h : Kept q s) (p : Nat) (val : Nat → Option Nat) : Kept q (gaitYield s p val) := by
  unfold gaitYield
  repeat' first
    | with_reducible assumption | with_reducible apply gaitGive_kept
    | (with_reducible refine Kept.fold (fun _ _ _ => ?_) ?_)

theorem latReach_kept (h : Kept q s) (x : Lat) (k t : Nat) : Kept q (latReach s x k t) := by
  unfold latReach
  repeat' first | with_reducible assumption | with_reducible apply gaitYield_kept

theorem violate_kept (h : Kept q s) (p kind : Nat) (agent res offset : Nat) :
    Kept q (violate s p kind agent res offset) := by
  unfold violate
  repeat' first
    | (lift_lets; intro) | with_reducible assumption | intro _
    | (simp only [Kept.mk_iff]; with_reducible refine Kept.facts ?_) | with_reducible apply cntAdd_kept
    | with_reducible apply sendEvent_kept | (with_reducible refine Kept.ite (fun _ => ?_) (fun _ => ?_))
    | dsimp +zetaDelta only

theorem thrViolate_kept (h : Kept q s) (t kind : Nat) (res offset : Nat) : Kept q (thrViolate s t kind res offset) := by
  unfold thrViolate
  repeat' first | with_reducible assumption | with_reducible apply violate_kept | split

theorem drawFree_kept (h : Kept q s) (n : Nat) : Kept q (drawFree s n).2 := by
  unfold drawFree
  repeat' first | with_reducible assumption | (simp only [Kept.mk_iff]; with_reducible refine Kept.facts ?_)

theorem setRing_kept (h : Kept q s) (r : Nat) (x : Ring) : Kept q (setRing s r x) := by
  unfold setRing
  repeat' first
    | (lift_lets; intro) | with_reducible assumption | (simp only [Kept.mk_iff]; with_reducible refine Kept.facts ?_)

theorem wrDev_kept (h : Kept q s) (o v : Nat) : Kept q (wrDev s o v) := by
  unfold wrDev
  repeat' first
    | (lift_lets; intro) | with_reducible assumption | (simp only [Kept.mk_iff]; with_reducible refine Kept.facts ?_)

theorem rbgDraw_kept (h : Kept q s) (n : Nat) : Kept q (rbgDraw s n).2 := by
  unfold rbgDraw
  repeat' first
    | with_reducible assumption | (simp only [Kept.mk_iff]; with_reducible refine Kept.facts ?_)
    | with_reducible apply drawFree_kept

theorem jnlPut_kept (h : Kept q s) (r : JRec) : Kept q (jnlPut s r) := by
  unfold jnlPut
  repeat' first
    | (lift_lets; intro) | with_reducible assumption | intro _
    | (simp only [Kept.mk_iff]; with_reducible refine Kept.facts ?_) | with_reducible apply cntAdd_kept
    | (with_reducible refine Kept.ite (fun _ => ?_) (fun _ => ?_)) | dsimp +zetaDelta only

theorem jnlEvent_kept (h : Kept q s) (disp part : Nat) (flags port : Nat) (detail : List Octet) :
    Kept q (jnlEvent s disp part flags port detail) := by
  unfold jnlEvent
  repeat' first | with_reducible assumption | with_reducible apply jnlPut_kept

theorem devWrite_kept (h : Kept q s) (a1 : Nat) (a2 : List Octet) : Kept q (devWrite s a1 a2) := by
  have hd : ∀ l : Nat → Bool, mwf 0 (putOctets l s.mem.dev a1 a2) = true := fun _ => mwf_putOctets h.mem.2.2.2.1
  unfold devWrite
  dsimp only
  split
  · refine cntAdd_kept ?_ _ _
    exact h.mems ⟨h.mem.1, h.mem.2.1, h.mem.2.2.1, hd _, h.mem.2.2.2.2.1, h.mem.2.2.2.2.2⟩
  · exact h.mems ⟨h.mem.1, h.mem.2.1, h.mem.2.2.1, hd _, h.mem.2.2.2.2.1, h.mem.2.2.2.2.2⟩

theorem setCsm_kept (h : Kept q s) (a1 a2 : Nat) (a3 : W36) : Kept q (setCsm s a1 a2 a3) :=
  h.mems ⟨h.mem.1, mwf_mset h.mem.2.1, h.mem.2.2.1, h.mem.2.2.2.1, h.mem.2.2.2.2.1, h.mem.2.2.2.2.2⟩

theorem hostWrite_kept (h : Kept q s) (a1 a2 : Nat) (a3 : List Octet) : Kept q (hostWrite s a1 a2 a3) := by
  unfold hostWrite
  split
  · exact h
  · exact h.mems ⟨h.mem.1, h.mem.2.1, h.mem.2.2.1, h.mem.2.2.2.1, mwf_putHost h.mem.2.2.2.2.1, h.mem.2.2.2.2.2⟩

theorem cqPush_kept (h : Kept q s) (r : Nat) (e : Compl) : Kept q (cqPush s r e) := by
  unfold cqPush
  repeat' first | (lift_lets; intro) | with_reducible assumption | intro _ | with_reducible apply setRing_kept

theorem complete_kept (h : Kept q s) (c : CmdRef) (status kind : Nat) (result len : Nat) (detail : List Octet) :
    Kept q (complete s c status kind result len detail) := by
  unfold complete
  repeat' first
    | (lift_lets; intro) | with_reducible assumption | with_reducible apply cqPush_kept
    | (with_reducible refine Kept.ite (fun _ => ?_) (fun _ => ?_))

theorem finish_kept (h : Kept q s) (c : CmdRef) (opc status : Nat) (result len : Nat) :
    Kept q (finish s c opc status result len) := by
  unfold finish
  repeat' first | with_reducible assumption | with_reducible apply complete_kept

theorem nextPlace_kept (h : Kept q s) (d : Nat) : Kept q (nextPlace s d).2 := by
  unfold nextPlace
  repeat' first
    | (lift_lets; intro) | with_reducible assumption | (simp only [Kept.mk_iff]; with_reducible refine Kept.facts ?_)

theorem jnlItemAt_kept (h : Kept q s) (time : Option Nat) (place : Option (Nat × Nat)) (lat : Option Lat) (it : Item) (disp dest ticket : Nat) (slow : Bool) (reason : Nat) (result : Option (List Octet)) :
    Kept q (jnlItemAt s time place lat it disp dest ticket slow reason result) := by
  unfold jnlItemAt
  repeat' first
    | (lift_lets; intro) | with_reducible assumption | intro _ | with_reducible apply jnlPut_kept
    | (with_reducible refine Kept.ite (fun _ => ?_) (fun _ => ?_))

theorem setClm_kept (h : Kept q s) (a1 a2 : Nat) (a3 : W36) : Kept q (setClm s a1 a2 a3) :=
  h.mems ⟨mwf_mset h.mem.1, h.mem.2.1, h.mem.2.2.1, h.mem.2.2.2.1, h.mem.2.2.2.2.1, h.mem.2.2.2.2.2⟩

theorem gplCnt_kept (h : Kept q s) (p k n : Nat) : Kept q (gplCnt s p k n) := by
  unfold gplCnt
  repeat' first
    | (lift_lets; intro) | with_reducible assumption | (simp only [Kept.mk_iff]; with_reducible refine Kept.facts ?_)

theorem jnlItem_kept (h : Kept q s) (it : Item) (disp dest ticket : Nat) (slow : Bool) (reason : Nat) (result : Option (List Octet)) :
    Kept q (jnlItem s it disp dest ticket slow reason result) := by
  unfold jnlItem
  repeat' first | with_reducible assumption | with_reducible apply jnlItemAt_kept

theorem wrFlag_kept (h : Kept q s) (o i : Nat) (b : Bool) : Kept q (wrFlag s o i b) := by
  unfold wrFlag
  repeat' first | with_reducible assumption | with_reducible apply wrDev_kept

theorem poisonHalf_kept (h : Kept q s) (a1 : Nat) : Kept q (poisonHalf s a1) :=
  h.mems ⟨h.mem.1, h.mem.2.1, h.mem.2.2.1, h.mem.2.2.2.1, h.mem.2.2.2.2.1, h.mem.2.2.2.2.2⟩

theorem cqReserve_kept (h : Kept q s) (r : Nat) : Kept q (cqReserve s r) := by
  unfold cqReserve
  repeat' first | (lift_lets; intro) | with_reducible assumption | intro _ | with_reducible apply setRing_kept

theorem hostViolate_kept (h : Kept q s) (p kind res : Nat) : Kept q (hostViolate s p kind res) := by
  unfold hostViolate
  repeat' first | with_reducible assumption | with_reducible apply violate_kept

theorem setIst_kept (h : Kept q s) (a1 a2 : Nat) (a3 : W36) : Kept q (setIst s a1 a2 a3) :=
  h.mems ⟨h.mem.1, h.mem.2.1, mwf_mset h.mem.2.2.1, h.mem.2.2.2.1, h.mem.2.2.2.2.1, h.mem.2.2.2.2.2⟩

theorem wrPart_kept (h : Kept q s) (p o v : Nat) : Kept q (wrPart s p o v) := by
  unfold wrPart
  repeat' first
    | (lift_lets; intro) | with_reducible assumption | (simp only [Kept.mk_iff]; with_reducible refine Kept.facts ?_)

theorem wrRing_kept (h : Kept q s) (r w v : Nat) : Kept q (wrRing s r w v) := by
  unfold wrRing
  repeat' first
    | (lift_lets; intro) | with_reducible assumption | (simp only [Kept.mk_iff]; with_reducible refine Kept.facts ?_)

theorem wrGait_kept (h : Kept q s) (m w v : Nat) : Kept q (wrGait s m w v) := by
  unfold wrGait
  repeat' first
    | (lift_lets; intro) | with_reducible assumption | (simp only [Kept.mk_iff]; with_reducible refine Kept.facts ?_)

end Sys2Proof.Machine
end

