-- ==== Sys2Proof/Laws/KeptTasks.lean ====
section
/-! SUPPORT. What buffers, tasks, locks, splices, tickets and the slow path keep (Sys2Proof.Machine.Kept): one lemma per operation, each citing those of the operations it calls. -/

namespace Sys2Proof.Machine

variable {q : List Instr} {s : State}

theorem setThr_kept (h : Kept q s) (t : Nat) (x : Thread) : Kept q (setThr s t x) := by
  unfold setThr
  repeat' first
    | (lift_lets; intro) | with_reducible assumption | (simp only [Kept.mk_iff]; with_reducible refine Kept.facts ?_)

theorem updThr_kept (h : Kept q s) (t : Nat) (f : Thread → Thread) : Kept q (updThr s t f) := by
  unfold updThr
  repeat' first | with_reducible assumption | with_reducible apply setThr_kept

theorem updCtx_kept (h : Kept q s) (t : Nat) (f : Ctx → Ctx) : Kept q (updCtx s t f) := by
  unfold updCtx
  repeat' first | with_reducible assumption | with_reducible apply updThr_kept

theorem putTask_kept (h : Kept q s) (id : Nat) (x : TaskSt) : Kept q (putTask s id x) := by
  unfold putTask
  repeat' first
    | (lift_lets; intro) | with_reducible assumption | (simp only [Kept.mk_iff]; with_reducible refine Kept.facts ?_)

theorem updTask_kept (h : Kept q s) (id : Nat) (f : TaskSt → TaskSt) : Kept q (updTask s id f) := by
  unfold updTask
  repeat' first | with_reducible assumption | with_reducible apply putTask_kept | split

theorem queueDeliv_kept (h : Kept q s) (d : Deliv) : Kept q (queueDeliv s d) := by
  unfold queueDeliv
  repeat' first
    | (lift_lets; intro) | with_reducible assumption | (simp only [Kept.mk_iff]; with_reducible refine Kept.facts ?_)

theorem putSlot_kept (h : Kept q s) (k : Nat) (x : Saved) : Kept q (putSlot s k x) := by
  unfold putSlot
  repeat' first
    | (lift_lets; intro) | with_reducible assumption | (simp only [Kept.mk_iff]; with_reducible refine Kept.facts ?_)

theorem unstall_kept (h : Kept q s) (p : Nat) : Kept q (unstall s p) := by
  unfold unstall
  repeat' first
    | (lift_lets; intro) | with_reducible assumption | (simp only [Kept.mk_iff]; with_reducible refine Kept.facts ?_)

theorem coreCnt_kept (h : Kept q s) (p k : Nat) : Kept q (coreCnt s p k) := by
  unfold coreCnt
  repeat' first | with_reducible assumption | with_reducible apply pcnt_kept

theorem setTicket_kept (h : Kept q s) (i : Nat) (t : Ticket) : Kept q (setTicket s i t) := by
  unfold setTicket
  repeat' first
    | (lift_lets; intro) | with_reducible assumption | (simp only [Kept.mk_iff]; with_reducible refine Kept.facts ?_)

theorem ticketReach_kept (h : Kept q s) (i : Nat) (sub : Option Nat) (k : Nat) : Kept q (ticketReach s i sub k) := by
  unfold ticketReach
  repeat' first
    | (lift_lets; intro) | with_reducible assumption | intro _ | with_reducible apply latReach_kept
    | with_reducible apply setTicket_kept

theorem chnCnt_kept (h : Kept q s) (p k : Nat) : Kept q (chnCnt s p k) := by
  unfold chnCnt
  repeat' first | with_reducible assumption | with_reducible apply pcnt_kept

theorem setTag_kept (h : Kept q s) (a : Nat) (t : BufTag) : Kept q (setTag s a t) := by
  unfold setTag
  repeat' first
    | (lift_lets; intro) | with_reducible assumption | (simp only [Kept.mk_iff]; with_reducible refine Kept.facts ?_)

theorem quarantine_kept (h : Kept q s) (a : Nat) : Kept q (quarantine s a) := by
  unfold quarantine
  repeat' first | (lift_lets; intro) | with_reducible assumption | with_reducible apply setTag_kept

theorem ptrCheck_kept (h : Kept q s) (a : Nat) : Kept q (ptrCheck s a).2 := by
  unfold ptrCheck
  repeat' first
    | with_reducible assumption | with_reducible apply quarantine_kept
    | (with_reducible refine Kept.ite₂ (fun _ => ?_) (fun _ => ?_)) | split

theorem bufCnt_kept (h : Kept q s) (p k : Nat) : Kept q (bufCnt s p k) := by
  unfold bufCnt
  repeat' first | with_reducible assumption | with_reducible apply pcnt_kept

theorem bufCntPool_kept (h : Kept q s) (agent pool k : Nat) : Kept q (bufCntPool s agent pool k) := by
  unfold bufCntPool
  repeat' first | with_reducible assumption | with_reducible apply bufCnt_kept | split

theorem intBufOp_kept (h : Kept q s) (agent a k : Nat) (may : BufTag → Bool) {op : State → State}
    (hop : ∀ s, Kept q s → Kept q (op s)) : Kept q (intBufOp s agent a k may op) := by
  unfold intBufOp
  repeat' first
    | with_reducible assumption | with_reducible apply ptrCheck_kept | with_reducible apply bufCntPool_kept
    | with_reducible apply hop | (with_reducible refine Kept.pair (by assumption) ?_)
    | (with_reducible refine Kept.ite (fun _ => ?_) (fun _ => ?_)) | split

theorem setPort_kept (h : Kept q s) (p : Nat) (x : Port) : Kept q (setPort s p x) := by
  unfold setPort
  repeat' first
    | (lift_lets; intro) | with_reducible assumption | (simp only [Kept.mk_iff]; with_reducible refine Kept.facts ?_)

theorem pauseAct_kept (h : Kept q s) (p : Nat) (cls : Option Nat) (quanta : Nat) : Kept q (pauseAct s p cls quanta) := by
  unfold pauseAct
  repeat' first | (lift_lets; intro) | with_reducible assumption | intro _ | with_reducible apply setPort_kept

theorem portCnt_kept (h : Kept q s) (p k n : Nat) : Kept q (portCnt s p k n) := by
  unfold portCnt
  repeat' first | with_reducible assumption | with_reducible apply cntAdd_kept

theorem pauseSend_kept (h : Kept q s) (p key quanta : Nat) : Kept q (pauseSend s p key quanta) := by
  unfold pauseSend
  repeat' first
    | (lift_lets; intro) | with_reducible assumption | intro _
    | (simp only [Kept.mk_iff]; with_reducible refine Kept.facts ?_) | with_reducible apply pauseAct_kept
    | with_reducible apply portCnt_kept | with_reducible apply setPort_kept
    | (with_reducible refine Kept.ite (fun _ => ?_) (fun _ => ?_))

theorem pauseKey_kept (h : Kept q s) (p key : Nat) : Kept q (pauseKey s p key) := by
  unfold pauseKey
  repeat' first
    | (lift_lets; intro) | with_reducible assumption | intro _ | with_reducible apply pauseSend_kept
    | (with_reducible refine Kept.ite (fun _ => ?_) (fun _ => ?_))

theorem pauseCheck_kept (h : Kept q s) (p : Nat) : Kept q (pauseCheck s p) := by
  unfold pauseCheck
  repeat' first
    | with_reducible assumption | with_reducible apply pauseKey_kept
    | (with_reducible refine Kept.fold (fun _ _ _ => ?_) ?_) | (with_reducible refine Kept.ite (fun _ => ?_) (fun _ => ?_))
    | split

theorem freeBuf_kept (h : Kept q s) (a : Nat) : Kept q (freeBuf s a) := by
  unfold freeBuf
  repeat' first
    | (lift_lets; intro) | with_reducible assumption | intro _ | with_reducible apply pauseCheck_kept
    | with_reducible apply setTag_kept | split

theorem endUse_kept (h : Kept q s) (a1 a2 : Nat) : Kept q (endUse s a1 a2) := by
  unfold endUse
  refine intBufOp_kept h _ _ _ _ (fun _ h => ?_)
  repeat' first
    | (lift_lets; intro) | with_reducible assumption | with_reducible apply freeBuf_kept | with_reducible apply setTag_kept
    | (with_reducible refine Kept.ite (fun _ => ?_) (fun _ => ?_))

theorem chanViolate_kept (h : Kept q s) (t ch : Nat) : Kept q (chanViolate s t ch) := by
  unfold chanViolate
  repeat' first | with_reducible assumption | with_reducible apply thrViolate_kept

theorem chRead_kept (h : Kept q s) (t id : Nat) (ch w : Nat) : Kept q (chRead s t id ch w).2 := by
  unfold chRead
  repeat' first
    | with_reducible assumption | with_reducible apply updTask_kept | with_reducible apply chanViolate_kept
    | (with_reducible refine Kept.ite₂ (fun _ => ?_) (fun _ => ?_)) | split

theorem noteLost_kept (h : Kept q s) (k : Nat) (a2 : Holder) (gone : Bool) : Kept q (noteLost s k a2 gone) := by
  unfold noteLost
  repeat' first
    | (lift_lets; intro) | with_reducible assumption | intro _
    | (simp only [Kept.mk_iff]; with_reducible refine Kept.facts ?_) | with_reducible apply updTask_kept | split

theorem lockViolate_kept (h : Kept q s) (p agent k : Nat) : Kept q (lockViolate s p agent k) := by
  unfold lockViolate
  repeat' first | with_reducible assumption | with_reducible apply violate_kept

theorem hspCnt_kept (h : Kept q s) (p k : Nat) : Kept q (hspCnt s p k) := by
  unfold hspCnt
  repeat' first | with_reducible assumption | with_reducible apply pcnt_kept

theorem truncated_kept (h : Kept q s) (w : LockWho) : Kept q (truncated s w) := by
  unfold truncated
  repeat' first | with_reducible assumption | with_reducible apply hspCnt_kept | split

theorem setEff_kept (h : Kept q s) (id e : Nat) : Kept q (setEff s id e) := by
  unfold setEff
  repeat' first
    | (lift_lets; intro) | with_reducible assumption | intro _
    | (simp only [Kept.mk_iff]; with_reducible refine Kept.facts ?_) | with_reducible apply updTask_kept

theorem setLock_kept (h : Kept q s) (k : Nat) (l : Lock) : Kept q (setLock s k l) := by
  unfold setLock
  repeat' first
    | (lift_lets; intro) | with_reducible assumption | (simp only [Kept.mk_iff]; with_reducible refine Kept.facts ?_)

theorem propagate_kept (h : Kept q s) (a0 a2 : Nat) : Kept q (propagate a0 s a2) := by
  induction a0 generalizing s a2 with
  | zero =>
    unfold propagate
    repeat' first
      | (lift_lets; intro) | with_reducible assumption | with_reducible apply setEff_kept
      | (with_reducible refine Kept.ite (fun _ => ?_) (fun _ => ?_)) | split
  | succ _ ih =>
    unfold propagate
    repeat' first
      | (lift_lets; intro) | with_reducible assumption | intro _ | with_reducible apply ih
      | with_reducible apply truncated_kept | with_reducible apply setEff_kept | with_reducible apply setLock_kept
      | (with_reducible refine Kept.ite (fun _ => ?_) (fun _ => ?_)) | split

theorem updTaskCtx_kept (h : Kept q s) (id : Nat) (f : Ctx → Ctx) : Kept q (updTaskCtx s id f) := by
  unfold updTaskCtx
  repeat' first | with_reducible assumption | with_reducible apply updCtx_kept | with_reducible apply putSlot_kept | split

theorem taskEv_kept (h : Kept q s) (id m : Nat) : Kept q (taskEv s id m) := by
  unfold taskEv
  repeat' first | with_reducible assumption | with_reducible apply updTaskCtx_kept

theorem tellGrant_kept (h : Kept q s) (who : LockWho) (word : Nat) : Kept q (tellGrant s who word) := by
  unfold tellGrant
  repeat' first
    | (lift_lets; intro) | with_reducible assumption | with_reducible apply updTaskCtx_kept
    | with_reducible apply finish_kept | with_reducible apply updTask_kept | split

theorem hspCntOpt_kept (h : Kept q s) (p : Option Nat) (k : Nat) : Kept q (hspCntOpt s p k) := by
  unfold hspCntOpt
  repeat' first | with_reducible assumption | with_reducible apply hspCnt_kept | split

theorem resignal_kept (h : Kept q s) (k : Nat) : Kept q (resignal s k) := by
  unfold resignal
  repeat' first
    | (lift_lets; intro) | with_reducible assumption | intro _ | with_reducible apply propagate_kept
    | with_reducible apply setLock_kept | split

theorem grantLock_kept (h : Kept q s) (k : Nat) (who : LockWho) (contended : Bool) :
    Kept q (grantLock s k who contended) := by
  unfold grantLock
  repeat' first
    | (lift_lets; intro) | with_reducible assumption | intro _ | with_reducible apply noteLost_kept
    | with_reducible apply tellGrant_kept | with_reducible apply setLock_kept | with_reducible apply hspCntOpt_kept
    | with_reducible apply resignal_kept | (with_reducible refine Kept.ite (fun _ => ?_) (fun _ => ?_))

theorem releaseLock_kept (h : Kept q s) (k : Nat) (mode : RelMode) : Kept q (releaseLock s k mode) := by
  unfold releaseLock
  repeat' first
    | (lift_lets; intro) | with_reducible assumption | intro _ | with_reducible apply propagate_kept
    | with_reducible apply taskEv_kept | with_reducible apply noteLost_kept | with_reducible apply sendEvent_kept
    | with_reducible apply grantLock_kept | with_reducible apply setLock_kept | with_reducible apply hspCntOpt_kept
    | (with_reducible refine Kept.ite (fun _ => ?_) (fun _ => ?_)) | split | dsimp +zetaDelta only

theorem unlockOp_kept (h : Kept q s) (t id arg : Nat) : Kept q (unlockOp s t id arg) := by
  unfold unlockOp
  repeat' first
    | (lift_lets; intro) | with_reducible assumption | intro _ | with_reducible apply noteLost_kept
    | with_reducible apply lockViolate_kept | with_reducible apply releaseLock_kept | with_reducible apply hspCnt_kept
    | (with_reducible refine Kept.ite (fun _ => ?_) (fun _ => ?_)) | split

theorem signalOp_kept (h : Kept q s) (t agent bits : Nat) : Kept q (signalOp s t agent bits) := by
  unfold signalOp
  repeat' first
    | (lift_lets; intro) | with_reducible assumption | with_reducible apply thrViolate_kept
    | with_reducible apply updCtx_kept | (with_reducible refine Kept.ite (fun _ => ?_) (fun _ => ?_))

theorem wakeArmed_kept (h : Kept q s) (ch : Nat) (data : Bool) : Kept q (wakeArmed s ch data) := by
  unfold wakeArmed
  repeat' first
    | with_reducible assumption | with_reducible apply taskEv_kept | with_reducible apply updTask_kept
    | (with_reducible refine Kept.fold (fun _ _ _ => ?_) ?_) | (with_reducible refine Kept.ite (fun _ => ?_) (fun _ => ?_))

theorem setChSlot_kept (h : Kept q s) (i : Nat) (x : ChSlot) : Kept q (setChSlot s i x) := by
  unfold setChSlot
  repeat' first
    | (lift_lets; intro) | with_reducible assumption | (simp only [Kept.mk_iff]; with_reducible refine Kept.facts ?_)

theorem chPost_kept (h : Kept q s) (t a2 : Nat) : Kept q (chPost s t a2) := by
  unfold chPost
  repeat' first
    | (lift_lets; intro) | with_reducible assumption | intro _
    | (simp only [Kept.mk_iff]; with_reducible refine Kept.facts ?_) | with_reducible apply wakeArmed_kept
    | with_reducible apply setChSlot_kept | with_reducible apply chnCnt_kept | split | dsimp +zetaDelta only

theorem orphanAll_kept (h : Kept q s) (a1 : Holder) : Kept q (orphanAll s a1) := by
  unfold orphanAll
  repeat' first
    | with_reducible assumption | with_reducible apply releaseLock_kept
    | (with_reducible refine Kept.fold (fun _ _ _ => ?_) ?_)

theorem freeChSlot_kept (h : Kept q s) (i : Nat) : Kept q (freeChSlot s i) := by
  unfold freeChSlot
  repeat' first | with_reducible assumption | with_reducible apply wakeArmed_kept | with_reducible apply setChSlot_kept

theorem withdraw_kept (h : Kept q s) (k : Nat) (who : LockWho) : Kept q (withdraw s k who) := by
  unfold withdraw
  repeat' first
    | (lift_lets; intro) | with_reducible assumption | intro _ | with_reducible apply propagate_kept
    | with_reducible apply updTask_kept | with_reducible apply setLock_kept | split | dsimp +zetaDelta only

theorem haspTaskEnd_kept (h : Kept q s) (id : Nat) (getwork : Bool) : Kept q (haspTaskEnd s id getwork) := by
  unfold haspTaskEnd
  repeat' first
    | (lift_lets; intro) | with_reducible assumption | intro _ | with_reducible apply orphanAll_kept
    | with_reducible apply freeChSlot_kept | with_reducible apply hspCnt_kept | with_reducible apply withdraw_kept
    | with_reducible apply chnCnt_kept | (with_reducible refine Kept.fold (fun _ _ _ => ?_) ?_)
    | (with_reducible refine Kept.ite (fun _ => ?_) (fun _ => ?_)) | split | dsimp +zetaDelta only

theorem pushDelay_kept (h : Kept q s) (p due : Nat) (x : ReadyWhat) : Kept q (pushDelay s p due x) := by
  unfold pushDelay
  repeat' first
    | (lift_lets; intro) | with_reducible assumption | (simp only [Kept.mk_iff]; with_reducible refine Kept.facts ?_)
    | with_reducible apply unstall_kept

theorem schCnt_kept (h : Kept q s) (p k : Nat) : Kept q (schCnt s p k) := by
  unfold schCnt
  repeat' first | with_reducible assumption | with_reducible apply pcnt_kept

theorem chOpen_kept (h : Kept q s) (t id ch : Nat) : Kept q (chOpen s t id ch).2 := by
  unfold chOpen
  repeat' first
    | (lift_lets; intro) | with_reducible assumption | intro _ | with_reducible apply updTask_kept
    | with_reducible apply setChSlot_kept | with_reducible apply chanViolate_kept | with_reducible apply chnCnt_kept
    | (with_reducible refine Kept.ite₂ (fun _ => ?_) (fun _ => ?_)) | split

theorem agentViolate_kept (h : Kept q s) (agent kind res : Nat) : Kept q (agentViolate s agent kind res) := by
  unfold agentViolate
  repeat' first | with_reducible assumption | with_reducible apply violate_kept | split

theorem bufCntAgent_kept (h : Kept q s) (agent k : Nat) : Kept q (bufCntAgent s agent k) := by
  unfold bufCntAgent
  repeat' first | with_reducible assumption | with_reducible apply bufCnt_kept | split

theorem notOwner_kept (h : Kept q s) (agent k a : Nat) : Kept q (notOwner s agent k a).2 := by
  unfold notOwner
  repeat' first
    | (lift_lets; intro) | with_reducible assumption | with_reducible apply agentViolate_kept
    | with_reducible apply bufCntAgent_kept | (with_reducible refine Kept.ite (fun _ => ?_) (fun _ => ?_))

theorem badPointer_kept (h : Kept q s) (agent : Nat) (chk : PtrCheck) (free : Bool) :
    Kept q (badPointer s agent chk free).2 := by
  unfold badPointer
  repeat' first
    | with_reducible assumption | with_reducible apply agentViolate_kept | with_reducible apply bufCntPool_kept
    | with_reducible apply bufCntAgent_kept | split

theorem bufGive_kept (h : Kept q s) (agent a target : Nat) (targetFull : Bool) :
    Kept q (bufGive s agent a target targetFull).2 := by
  unfold bufGive
  repeat' first
    | (lift_lets; intro) | with_reducible assumption | with_reducible apply ptrCheck_kept
    | with_reducible apply notOwner_kept | with_reducible apply badPointer_kept | with_reducible apply bufCntAgent_kept
    | with_reducible apply setTag_kept | (with_reducible refine Kept.pair (by assumption) ?_)
    | (with_reducible refine Kept.ite₂ (fun _ => ?_) (fun _ => ?_)) | split

theorem giveHalter_kept (h : Kept q s) (t a : Nat) : Kept q (giveHalter s t a).2 := by
  unfold giveHalter
  repeat' first | with_reducible assumption | with_reducible apply bufGive_kept

theorem setOrder_kept (h : Kept q s) (d : Nat) (l : List Nat) : Kept q (setOrder s d l) := by
  unfold setOrder
  repeat' first
    | (lift_lets; intro) | with_reducible assumption | (simp only [Kept.mk_iff]; with_reducible refine Kept.facts ?_)

theorem freeTicket_kept (h : Kept q s) (i : Nat) : Kept q (freeTicket s i) := by
  unfold freeTicket
  repeat' first
    | (lift_lets; intro) | with_reducible assumption | with_reducible apply setTicket_kept
    | with_reducible apply setOrder_kept

theorem jnlTicket_kept (h : Kept q s) (i : Nat) (sub : Option Nat) (disp dest : Nat) (result : Option (List Octet)) :
    Kept q (jnlTicket s i sub disp dest result) := by
  unfold jnlTicket
  repeat' first
    | (lift_lets; intro) | with_reducible assumption | with_reducible apply nextPlace_kept
    | with_reducible apply jnlItemAt_kept

theorem discardResult_kept (h : Kept q s) (r : Result) : Kept q (discardResult s r) := by
  unfold discardResult
  repeat' first
    | with_reducible assumption | with_reducible apply endUse_kept
    | (with_reducible refine Kept.ite (fun _ => ?_) (fun _ => ?_))

theorem hltCnt_kept (h : Kept q s) (p k : Nat) : Kept q (hltCnt s p k) := by
  unfold hltCnt
  repeat' first | with_reducible assumption | with_reducible apply pcnt_kept

theorem lateResult_kept (h : Kept q s) (i : Nat) (sub : Option Nat) (r : Result) : Kept q (lateResult s i sub r) := by
  unfold lateResult
  repeat' first
    | (lift_lets; intro) | with_reducible assumption | intro _ | with_reducible apply queueDeliv_kept
    | with_reducible apply jnlTicket_kept | with_reducible apply discardResult_kept | with_reducible apply hltCnt_kept
    | (with_reducible refine Kept.ite (fun _ => ?_) (fun _ => ?_)) | split

theorem settlePassed_kept (h : Kept q s) (a0 a2 : Nat) : Kept q (settlePassed a0 s a2) := by
  induction a0 generalizing s  with
  | zero =>
    unfold settlePassed
    repeat' first | with_reducible assumption
  | succ _ ih =>
    unfold settlePassed
    repeat' first
      | (lift_lets; intro) | with_reducible assumption | with_reducible apply ih | with_reducible apply setTicket_kept
      | with_reducible apply freeTicket_kept | with_reducible apply lateResult_kept
      | (with_reducible refine Kept.ite (fun _ => ?_) (fun _ => ?_)) | split

theorem completeTicket_kept (h : Kept q s) (n : TkName) (r : Result) : Kept q (completeTicket s n r) := by
  unfold completeTicket
  repeat' first
    | (lift_lets; intro) | with_reducible assumption | intro _ | with_reducible apply settlePassed_kept
    | with_reducible apply setTicket_kept | with_reducible apply ticketReach_kept | with_reducible apply hltCnt_kept
    | (with_reducible refine Kept.ite (fun _ => ?_) (fun _ => ?_)) | split | dsimp +zetaDelta only

theorem unhold_kept (h : Kept q s) (id : Option Nat) (a : Nat) : Kept q (unhold s id a) := by
  unfold unhold
  repeat' first | with_reducible assumption | with_reducible apply updTask_kept | split

theorem loseSeg_kept (h : Kept q s) (id : Option Nat) (a : Nat) : Kept q (loseSeg s id a) := by
  unfold loseSeg
  repeat' first | with_reducible assumption | with_reducible apply updTask_kept | split

theorem finishResult_kept (h : Kept q s) (t p : Nat) (n : TkName) (host : Bool) (a len : Nat) (dest eflags : Nat) :
    Kept q (finishResult s t p n host a len dest eflags) := by
  unfold finishResult
  repeat' first
    | (lift_lets; intro) | with_reducible assumption | intro _ | with_reducible apply giveHalter_kept
    | with_reducible apply violate_kept | with_reducible apply completeTicket_kept | with_reducible apply unhold_kept
    | with_reducible apply endUse_kept | with_reducible apply loseSeg_kept
    | (with_reducible refine Kept.ite (fun _ => ?_) (fun _ => ?_))

theorem refuseTicket_kept (h : Kept q s) (t p : Nat) (w : W36) (c : TkCheck) : Kept q (refuseTicket s t p w c) := by
  unfold refuseTicket
  repeat' first | with_reducible assumption | with_reducible apply violate_kept | with_reducible apply hltCnt_kept | split

theorem endTicket_kept (h : Kept q s) (t p : Nat) (host : Bool) (w : W36) (a rw : Nat) :
    Kept q (endTicket s t p host w a rw) := by
  unfold endTicket
  repeat' first
    | with_reducible assumption | with_reducible apply finishResult_kept | with_reducible apply refuseTicket_kept | split

theorem drawIndex_kept (h : Kept q s) : Kept q (drawIndex s).2 := by
  unfold drawIndex
  repeat' first | with_reducible assumption | with_reducible apply drawFree_kept

theorem issueTicket_kept (h : Kept q s) (dom p : Nat) (it : Item) (deadline : Nat) :
    Kept q (issueTicket s dom p it deadline).2 := by
  unfold issueTicket
  repeat' first
    | with_reducible assumption | (simp only [Kept.mk_iff]; with_reducible refine Kept.facts ?_)
    | with_reducible apply setTicket_kept | with_reducible apply drawIndex_kept | with_reducible apply setOrder_kept
    | with_reducible apply hltCnt_kept

theorem setConn_kept (h : Kept q s) (i : Nat) (c : Conn) : Kept q (setConn s i c) := by
  unfold setConn
  repeat' first
    | (lift_lets; intro) | with_reducible assumption | (simp only [Kept.mk_iff]; with_reducible refine Kept.facts ?_)

theorem setStfDir_kept (h : Kept q s) (i d : Nat) (x : StfDir) : Kept q (setStfDir s i d x) := by
  unfold setStfDir
  repeat' first | with_reducible assumption | with_reducible apply setConn_kept

theorem updStfDir_kept (h : Kept q s) (i d : Nat) (f : StfDir → StfDir) : Kept q (updStfDir s i d f) := by
  unfold updStfDir
  repeat' first | with_reducible assumption | with_reducible apply setStfDir_kept

theorem messageTicketed_kept (h : Kept q s) (it : Item) : Kept q (messageTicketed s it) := by
  unfold messageTicketed
  repeat' first
    | with_reducible assumption | with_reducible apply updStfDir_kept
    | (with_reducible refine Kept.ite (fun _ => ?_) (fun _ => ?_))

theorem refillIssue_kept (h : Kept q s) (p : Nat) : Kept q (refillIssue s p) := by
  unfold refillIssue
  repeat' first
    | (lift_lets; intro) | with_reducible assumption | intro _
    | (simp only [Kept.mk_iff]; with_reducible refine Kept.facts ?_)

theorem pushReady_kept (h : Kept q s) (p level : Nat) (x : ReadyWhat) : Kept q (pushReady s p level x) := by
  unfold pushReady
  repeat' first
    | (lift_lets; intro) | with_reducible assumption | (simp only [Kept.mk_iff]; with_reducible refine Kept.facts ?_)
    | with_reducible apply unstall_kept

theorem ticketIssueNow_kept (h : Kept q s) (p : Nat) : Kept q (ticketIssueNow s p) := by
  unfold ticketIssueNow
  repeat' first
    | (lift_lets; intro) | with_reducible assumption | intro _
    | (simp only [Kept.mk_iff]; with_reducible refine Kept.facts ?_) | with_reducible apply messageTicketed_kept
    | with_reducible apply refillIssue_kept | with_reducible apply issueTicket_kept | with_reducible apply ticketReach_kept
    | with_reducible apply pushReady_kept | (with_reducible refine Kept.ite (fun _ => ?_) (fun _ => ?_)) | split
    | dsimp +zetaDelta only

theorem issueWaiting_kept (h : Kept q s) (a0 : Nat) : Kept q (issueWaiting a0 s) := by
  induction a0 generalizing s  with
  | zero =>
    unfold issueWaiting
    repeat' first | with_reducible assumption
  | succ _ ih =>
    unfold issueWaiting
    repeat' first | with_reducible assumption | with_reducible apply ih | with_reducible apply ticketIssueNow_kept | split

theorem postTask_kept (h : Kept q s) (p agent : Nat) (dom prio entry : Nat) (preempt : Bool) (buf len : Nat) (arg : W36) (delay : Nat) :
    Kept q (postTask s p agent dom prio entry preempt buf len arg delay).2.2 := by
  unfold postTask
  repeat' first
    | (lift_lets; intro) | with_reducible assumption | intro _ | with_reducible apply violate_kept
    | with_reducible apply issueTicket_kept | with_reducible apply issueWaiting_kept | with_reducible apply pushDelay_kept
    | with_reducible apply ticketReach_kept | with_reducible apply pushReady_kept
    | (with_reducible refine Kept.ite (fun _ => ?_) (fun _ => ?_)) | split

theorem dropShareOf_kept (h : Kept q s) (a : Nat) : Kept q (dropShareOf s a) := by
  unfold dropShareOf
  repeat' first
    | (lift_lets; intro) | with_reducible assumption | intro _ | with_reducible apply freeBuf_kept
    | with_reducible apply setTag_kept | (with_reducible refine Kept.ite (fun _ => ?_) (fun _ => ?_))

theorem bufDrop_kept (h : Kept q s) (agent a : Nat) : Kept q (bufDrop s agent a).2 := by
  unfold bufDrop
  repeat' first
    | (lift_lets; intro) | with_reducible assumption | with_reducible apply dropShareOf_kept
    | with_reducible apply ptrCheck_kept | with_reducible apply notOwner_kept | with_reducible apply badPointer_kept
    | with_reducible apply bufCntAgent_kept | (with_reducible refine Kept.pair (by assumption) ?_)
    | (with_reducible refine Kept.ite₂ (fun _ => ?_) (fun _ => ?_)) | split

theorem bufFreeOp_kept (h : Kept q s) (agent a : Nat) : Kept q (bufFreeOp s agent a).2 := by
  unfold bufFreeOp
  repeat' first
    | (lift_lets; intro) | with_reducible assumption | intro _ | with_reducible apply agentViolate_kept
    | with_reducible apply ptrCheck_kept | with_reducible apply freeBuf_kept | with_reducible apply badPointer_kept
    | with_reducible apply bufCntAgent_kept | (with_reducible refine Kept.pair (by assumption) ?_)
    | (with_reducible refine Kept.ite₂ (fun _ => ?_) (fun _ => ?_)) | split

theorem bufShare_kept (h : Kept q s) (agent a : Nat) : Kept q (bufShare s agent a).2 := by
  unfold bufShare
  repeat' first
    | (lift_lets; intro) | with_reducible assumption | with_reducible apply ptrCheck_kept
    | with_reducible apply notOwner_kept | with_reducible apply badPointer_kept | with_reducible apply bufCntAgent_kept
    | with_reducible apply setTag_kept | (with_reducible refine Kept.pair (by assumption) ?_)
    | (with_reducible refine Kept.ite₂ (fun _ => ?_) (fun _ => ?_)) | split

theorem takeBuf_kept (h : Kept q s) (a0 a1 a3 : Nat) : Kept q (takeBuf a0 a1 s a3).2 := by
  induction a1 generalizing s  with
  | zero =>
    unfold takeBuf
    repeat' first | with_reducible assumption
  | succ _ ih =>
    unfold takeBuf
    repeat' first
      | with_reducible assumption | with_reducible apply ih | with_reducible apply quarantine_kept
      | with_reducible apply setTag_kept | (with_reducible refine Kept.ite₂ (fun _ => ?_) (fun _ => ?_)) | split

theorem bufAlloc_kept (h : Kept q s) (agent pool : Nat) (holdFull recov : Bool) :
    Kept q (bufAlloc s agent pool holdFull recov).2.2 := by
  unfold bufAlloc
  repeat' first
    | (lift_lets; intro) | with_reducible assumption | intro _
    | (simp only [Kept.mk_iff]; with_reducible refine Kept.facts ?_) | with_reducible apply agentViolate_kept
    | with_reducible apply takeBuf_kept | with_reducible apply bufCntAgent_kept
    | (with_reducible refine Kept.pair (by assumption) ?_) | (with_reducible refine Kept.ite (fun _ => ?_) (fun _ => ?_))
    | split | dsimp +zetaDelta only

theorem queueWaiter_kept (h : Kept q s) (k : Nat) (w : LockWaiter) : Kept q (queueWaiter s k w) := by
  unfold queueWaiter
  repeat' first
    | (lift_lets; intro) | with_reducible assumption | intro _ | with_reducible apply propagate_kept
    | with_reducible apply setLock_kept | split

theorem lockOp_kept (h : Kept q s) (t id : Nat) (rd k : Nat) : Kept q (lockOp s t id rd k) := by
  unfold lockOp
  repeat' first
    | (lift_lets; intro) | with_reducible assumption | with_reducible apply tellGrant_kept
    | with_reducible apply updTask_kept | with_reducible apply lockViolate_kept | with_reducible apply grantLock_kept
    | with_reducible apply queueWaiter_kept | (with_reducible refine Kept.ite (fun _ => ?_) (fun _ => ?_)) | split

theorem stfCnt_kept (h : Kept q s) (p k n : Nat) : Kept q (stfCnt s p k n) := by
  unfold stfCnt
  repeat' first | with_reducible assumption | with_reducible apply pcnt_kept

theorem moveOp_kept (h : Kept q s) (t p : Nat) (w : W36) (dom : Nat) : Kept q (moveOp s t p w dom).2 := by
  unfold moveOp
  repeat' first
    | (lift_lets; intro) | with_reducible assumption | intro _ | with_reducible apply violate_kept
    | with_reducible apply finishResult_kept | with_reducible apply updTask_kept | with_reducible apply issueTicket_kept
    | with_reducible apply refuseTicket_kept | with_reducible apply setTicket_kept | with_reducible apply freeTicket_kept
    | with_reducible apply stfCnt_kept | with_reducible apply hltCnt_kept
    | (with_reducible refine Kept.ite (fun _ => ?_) (fun _ => ?_))
    | (with_reducible refine Kept.ite₂ (fun _ => ?_) (fun _ => ?_)) | split | dsimp +zetaDelta only

theorem chNext_kept (h : Kept q s) (t ch : Nat) : Kept q (chNext s t ch) := by
  unfold chNext
  repeat' first
    | with_reducible assumption | with_reducible apply freeChSlot_kept | with_reducible apply chanViolate_kept
    | with_reducible apply chnCnt_kept | (with_reducible refine Kept.ite (fun _ => ?_) (fun _ => ?_)) | split

theorem chWrite_kept (h : Kept q s) (a1 w : Nat) (v : W36) : Kept q (chWrite s a1 w v) := by
  unfold chWrite
  repeat' first | (lift_lets; intro) | with_reducible assumption | intro _ | with_reducible apply setChSlot_kept

theorem splitOp_kept (h : Kept q s) (t p : Nat) (w : W36) (n : Nat) : Kept q (splitOp s t p w n).2 := by
  unfold splitOp
  repeat' first
    | (lift_lets; intro) | with_reducible assumption | intro _ | with_reducible apply refuseTicket_kept
    | with_reducible apply setTicket_kept | with_reducible apply hltCnt_kept
    | (with_reducible refine Kept.ite₂ (fun _ => ?_) (fun _ => ?_)) | split

theorem dropOp_kept (h : Kept q s) (t p : Nat) (w : W36) : Kept q (dropOp s t p w) := by
  unfold dropOp
  repeat' first
    | with_reducible assumption | with_reducible apply completeTicket_kept | with_reducible apply refuseTicket_kept | split

theorem passBuf_kept (h : Kept q s) (a1 a2 a3 : Nat) : Kept q (passBuf s a1 a2 a3) := by
  unfold passBuf
  refine intBufOp_kept h _ _ _ _ (fun _ h => ?_)
  repeat' first | (lift_lets; intro) | with_reducible assumption | with_reducible apply setTag_kept

theorem dropShare_kept (h : Kept q s) (a1 : Nat) : Kept q (dropShare s a1) := by
  unfold dropShare
  refine intBufOp_kept h _ _ _ _ (fun _ h => ?_)
  repeat' first | with_reducible assumption | with_reducible apply dropShareOf_kept

theorem mcsCnt_kept (h : Kept q s) (p k : Nat) : Kept q (mcsCnt s p k) := by
  unfold mcsCnt
  repeat' first | with_reducible assumption | with_reducible apply pcnt_kept

theorem mcsThr_kept (h : Kept q s) (t k : Nat) : Kept q (mcsThr s t k) := by
  unfold mcsThr
  repeat' first | with_reducible assumption | with_reducible apply mcsCnt_kept | split

theorem noteDeferral_kept (h : Kept q s) (t : Nat) : Kept q (noteDeferral s t) := by
  unfold noteDeferral
  repeat' first
    | with_reducible assumption | with_reducible apply mcsThr_kept | with_reducible apply updThr_kept
    | (with_reducible refine Kept.ite (fun _ => ?_) (fun _ => ?_)) | split

theorem abandonRoutine_kept (h : Kept q s) (t : Nat) : Kept q (abandonRoutine s t) := by
  unfold abandonRoutine
  repeat' first
    | with_reducible assumption | with_reducible apply mcsThr_kept | with_reducible apply updThr_kept
    | (with_reducible refine Kept.ite (fun _ => ?_) (fun _ => ?_))

theorem coreStop_kept (h : Kept q s) (l : Nat) : Kept q (coreStop s l) := by
  unfold coreStop
  repeat' first
    | with_reducible assumption | with_reducible apply abandonRoutine_kept
    | (with_reducible refine Kept.fold (fun _ _ _ => ?_) ?_)

theorem schCfgWrite_kept (h : Kept q s) (v : Nat) : Kept q (schCfgWrite s v) := by
  unfold schCfgWrite
  repeat' first
    | (lift_lets; intro) | with_reducible assumption | intro _
    | (simp only [Kept.mk_iff]; with_reducible refine Kept.facts ?_) | with_reducible apply wrDev_kept

theorem setBucket_kept (h : Kept q s) (p : Nat) (b : Bucket) : Kept q (setBucket s p b) := by
  unfold setBucket
  repeat' first
    | (lift_lets; intro) | with_reducible assumption | (simp only [Kept.mk_iff]; with_reducible refine Kept.facts ?_)

theorem cutBucket_kept (h : Kept q s) (p : Nat) : Kept q (cutBucket s p) := by
  unfold cutBucket
  repeat' first | (lift_lets; intro) | with_reducible assumption | with_reducible apply setBucket_kept

theorem dropRewrite_kept (h : Kept q s) (r : Rewrite) : Kept q (dropRewrite s r) := by
  unfold dropRewrite
  repeat' first
    | with_reducible assumption | with_reducible apply dropShare_kept
    | (with_reducible refine Kept.ite (fun _ => ?_) (fun _ => ?_))

theorem unholdAll_kept (h : Kept q s) (a : Nat) : Kept q (unholdAll s a) := by
  unfold unholdAll
  repeat' first
    | with_reducible assumption | with_reducible apply updTask_kept | (with_reducible refine Kept.fold (fun _ _ _ => ?_) ?_)
    | (with_reducible refine Kept.ite (fun _ => ?_) (fun _ => ?_))

theorem freeInput_kept (h : Kept q s) (p a : Nat) : Kept q (freeInput s p a) := by
  unfold freeInput
  repeat' first
    | (lift_lets; intro) | with_reducible assumption | with_reducible apply endUse_kept
    | with_reducible apply unholdAll_kept | (with_reducible refine Kept.ite (fun _ => ?_) (fun _ => ?_))

theorem fillBucket_kept (h : Kept q s) (p : Nat) : Kept q (fillBucket s p) := by
  unfold fillBucket
  repeat' first | with_reducible assumption | with_reducible apply setBucket_kept

theorem slowDrop_kept (h : Kept q s) (it : Item) (agent reason : Nat) : Kept q (slowDrop s it agent reason) := by
  unfold slowDrop
  repeat' first | with_reducible assumption | with_reducible apply jnlItem_kept | with_reducible apply endUse_kept

theorem noServiceDrop_kept (h : Kept q s) (it : Item) (agent reason : Nat) : Kept q (noServiceDrop s it agent reason) := by
  unfold noServiceDrop
  repeat' first
    | (lift_lets; intro) | with_reducible assumption | intro _
    | (simp only [Kept.mk_iff]; with_reducible refine Kept.facts ?_) | with_reducible apply jnlItem_kept
    | with_reducible apply endUse_kept | dsimp +zetaDelta only

theorem slowCnt_kept (h : Kept q s) (p k n : Nat) : Kept q (slowCnt s p k n) := by
  unfold slowCnt
  repeat' first | with_reducible assumption | with_reducible apply pcnt_kept

theorem toException_kept (h : Kept q s) (it : Item) (agent reason : Nat) (aux : List Octet) :
    Kept q (toException s it agent reason aux) := by
  unfold toException
  repeat' first
    | (lift_lets; intro) | with_reducible assumption | with_reducible apply queueDeliv_kept
    | with_reducible apply slowDrop_kept | with_reducible apply gplCnt_kept | with_reducible apply passBuf_kept
    | (with_reducible refine Kept.ite (fun _ => ?_) (fun _ => ?_))

theorem slowPath_kept (h : Kept q s) (it : Item) (agent reason : Nat) (part : Option Nat) (aux : List Octet) :
    Kept q (slowPath s it agent reason part aux) := by
  unfold slowPath
  repeat' first
    | (lift_lets; intro) | with_reducible assumption | intro _ | with_reducible apply slowDrop_kept
    | with_reducible apply cntAdd_kept | with_reducible apply setBucket_kept | with_reducible apply noServiceDrop_kept
    | with_reducible apply slowCnt_kept | with_reducible apply endUse_kept | with_reducible apply toException_kept
    | (with_reducible refine Kept.ite (fun _ => ?_) (fun _ => ?_)) | split

theorem shareInt_kept (h : Kept q s) (a1 : Nat) : Kept q (shareInt s a1) := by
  unfold shareInt
  refine intBufOp_kept h _ _ _ _ (fun _ h => ?_)
  repeat' first | (lift_lets; intro) | with_reducible assumption | with_reducible apply setTag_kept

theorem delSlot_kept (h : Kept q s) (k : Nat) : Kept q (delSlot s k) := by
  unfold delSlot
  repeat' first
    | (lift_lets; intro) | with_reducible assumption | (simp only [Kept.mk_iff]; with_reducible refine Kept.facts ?_)

theorem noLockRight_kept (h : Kept q s) (c : CmdRef) (opc k : Nat) : Kept q (noLockRight s c opc k) := by
  unfold noLockRight
  repeat' first
    | (lift_lets; intro) | with_reducible assumption | with_reducible apply violate_kept | with_reducible apply finish_kept
    | (with_reducible refine Kept.ite (fun _ => ?_) (fun _ => ?_))

theorem hspQuery_kept (h : Kept q s) (c : CmdRef) (k addr : Nat) : Kept q (hspQuery s c k addr) := by
  unfold hspQuery
  repeat' first
    | with_reducible assumption | with_reducible apply finish_kept | with_reducible apply noLockRight_kept
    | with_reducible apply hostWrite_kept | (with_reducible refine Kept.ite (fun _ => ?_) (fun _ => ?_))

theorem dropTicketAll_kept (h : Kept q s) (i : Nat) : Kept q (dropTicketAll s i) := by
  unfold dropTicketAll
  repeat' first
    | (lift_lets; intro) | with_reducible assumption | with_reducible apply completeTicket_kept
    | (with_reducible refine Kept.fold (fun _ _ _ => ?_) ?_) | (with_reducible refine Kept.ite (fun _ => ?_) (fun _ => ?_))

theorem hspAcquire_kept (h : Kept q s) (c : CmdRef) (num prio : Nat) (flags timeout : Nat) :
    Kept q (hspAcquire s c num prio flags timeout) := by
  unfold hspAcquire
  repeat' first
    | with_reducible assumption | with_reducible apply finish_kept | with_reducible apply grantLock_kept
    | with_reducible apply queueWaiter_kept | with_reducible apply noLockRight_kept
    | (with_reducible refine Kept.ite (fun _ => ?_) (fun _ => ?_)) | split

theorem hspRelease_kept (h : Kept q s) (c : CmdRef) (num flags : Nat) : Kept q (hspRelease s c num flags) := by
  unfold hspRelease
  repeat' first
    | (lift_lets; intro) | with_reducible assumption | intro _ | with_reducible apply noteLost_kept
    | with_reducible apply finish_kept | with_reducible apply releaseLock_kept | with_reducible apply hspCnt_kept
    | with_reducible apply noLockRight_kept | (with_reducible refine Kept.ite (fun _ => ?_) (fun _ => ?_)) | split

theorem updCtxAt_kept (h : Kept q s) (r : CtxRef) (f : Ctx → Ctx) : Kept q (updCtxAt s r f) := by
  unfold updCtxAt
  repeat' first
    | with_reducible assumption | with_reducible apply putSlot_kept | with_reducible apply updThr_kept
    | (with_reducible refine Kept.ite (fun _ => ?_) (fun _ => ?_)) | split

theorem refillBucket_kept (h : Kept q s) (p : Nat) : Kept q (refillBucket s p) := by
  unfold refillBucket
  repeat' first | (lift_lets; intro) | with_reducible assumption | with_reducible apply setBucket_kept

theorem acquireTimeout_kept (h : Kept q s) (c : CmdRef) : Kept q (acquireTimeout s c) := by
  unfold acquireTimeout
  repeat' first
    | with_reducible assumption | with_reducible apply finish_kept | with_reducible apply withdraw_kept
    | (with_reducible refine Kept.ite (fun _ => ?_) (fun _ => ?_)) | split

theorem holdRelease_kept (h : Kept q s) (i : Nat) (rs : List Result) : Kept q (holdRelease s i rs) := by
  unfold holdRelease
  repeat' first
    | (lift_lets; intro) | with_reducible assumption | with_reducible apply cntAdd_kept
    | with_reducible apply setTicket_kept | (with_reducible refine Kept.ite (fun _ => ?_) (fun _ => ?_)) | split

theorem releaseResult_kept (h : Kept q s) (i : Nat) (sub : Option Nat) (r : Result) (seq : BitVec 32) (last : Bool) :
    Kept q (releaseResult s i sub r seq last) := by
  unfold releaseResult
  repeat' first
    | (lift_lets; intro) | with_reducible assumption | intro _
    | (simp only [Kept.mk_iff]; with_reducible refine Kept.facts ?_) | with_reducible apply queueDeliv_kept
    | with_reducible apply jnlTicket_kept | with_reducible apply nextPlace_kept | with_reducible apply gplCnt_kept
    | with_reducible apply ticketReach_kept | with_reducible apply discardResult_kept
    | (with_reducible refine Kept.ite (fun _ => ?_) (fun _ => ?_)) | split

theorem addRewrite_kept (h : Kept q s) (i : Nat) (r : Rewrite) : Kept q (addRewrite s i r) := by
  unfold addRewrite
  repeat' first
    | (lift_lets; intro) | with_reducible assumption | intro _ | with_reducible apply dropRewrite_kept
    | with_reducible apply setConn_kept | with_reducible apply shareInt_kept
    | (with_reducible refine Kept.ite (fun _ => ?_) (fun _ => ?_)) | split | dsimp +zetaDelta only

theorem framerRelease_kept (h : Kept q s) (it : Item) (parts : List (Nat × Nat)) : Kept q (framerRelease s it parts).2 := by
  unfold framerRelease
  repeat' first
    | (lift_lets; intro) | with_reducible assumption | intro _ | with_reducible apply setConn_kept
    | with_reducible apply addRewrite_kept | (with_reducible refine Kept.ite (fun _ => ?_) (fun _ => ?_))

theorem releaseMessage_kept (h : Kept q s) (i : Nat) (k : Option Nat) (r : Result) (rs : List (Option Nat × Result)) :
    Kept q (releaseMessage s i k r rs) := by
  unfold releaseMessage
  repeat' first
    | (lift_lets; intro) | with_reducible assumption | with_reducible apply framerRelease_kept
    | with_reducible apply setTicket_kept | with_reducible apply releaseResult_kept | split

theorem ticketRelease_kept (h : Kept q s) (d : Nat) : Kept q (ticketRelease s d) := by
  unfold ticketRelease
  repeat' first
    | (lift_lets; intro) | with_reducible assumption | intro _ | with_reducible apply settlePassed_kept
    | with_reducible apply setTicket_kept | with_reducible apply holdRelease_kept | with_reducible apply freeTicket_kept
    | with_reducible apply releaseResult_kept | with_reducible apply releaseMessage_kept | with_reducible apply hltCnt_kept
    | (with_reducible refine Kept.fold (fun _ _ _ => ?_) ?_) | (with_reducible refine Kept.ite (fun _ => ?_) (fun _ => ?_))
    | split

theorem lockWatchdog_kept (h : Kept q s) (k : Nat) : Kept q (lockWatchdog s k) := by
  unfold lockWatchdog
  repeat' first
    | (lift_lets; intro) | with_reducible assumption | intro _ | with_reducible apply sendEvent_kept
    | with_reducible apply setLock_kept | with_reducible apply hspCntOpt_kept
    | (with_reducible refine Kept.ite (fun _ => ?_) (fun _ => ?_))

theorem passTicket_kept (h : Kept q s) (i pol : Nat) : Kept q (passTicket s i pol) := by
  unfold passTicket
  repeat' first
    | (lift_lets; intro) | with_reducible assumption | intro _ | with_reducible apply settlePassed_kept
    | with_reducible apply framerRelease_kept | with_reducible apply setTicket_kept | with_reducible apply ticketReach_kept
    | with_reducible apply hltCnt_kept | (with_reducible refine Kept.fold (fun _ _ _ => ?_) ?_)
    | (with_reducible refine Kept.ite (fun _ => ?_) (fun _ => ?_))

theorem latenessCheck_kept (h : Kept q s) (d : Nat) : Kept q (latenessCheck s d) := by
  unfold latenessCheck
  repeat' first
    | (lift_lets; intro) | with_reducible assumption | intro _
    | (simp only [Kept.mk_iff]; with_reducible refine Kept.facts ?_) | with_reducible apply framerRelease_kept
    | with_reducible apply jnlTicket_kept | with_reducible apply passTicket_kept | with_reducible apply setTicket_kept
    | with_reducible apply freeTicket_kept | with_reducible apply lateResult_kept | with_reducible apply freeInput_kept
    | with_reducible apply hltCnt_kept | (with_reducible refine Kept.fold (fun _ _ _ => ?_) ?_)
    | (with_reducible refine Kept.ite (fun _ => ?_) (fun _ => ?_)) | split | dsimp +zetaDelta only

theorem slotHoldExpiry_kept (h : Kept q s) (ch k : Nat) : Kept q (slotHoldExpiry s ch k) := by
  unfold slotHoldExpiry
  repeat' first
    | (lift_lets; intro) | with_reducible assumption | intro _ | with_reducible apply taskEv_kept
    | with_reducible apply freeChSlot_kept | with_reducible apply chnCnt_kept
    | (with_reducible refine Kept.ite (fun _ => ?_) (fun _ => ?_)) | split | dsimp +zetaDelta only

end Sys2Proof.Machine
end

