-- ==== Sys2Proof/Laws/KeptPorts.lean ====
section
/-! SUPPORT. What the parser, egress and the ports keep (Sys2Proof.Machine.Kept): one lemma per operation, each citing those of the operations it calls. -/

namespace Sys2Proof.Machine

variable {q : List Instr} {s : State}

theorem setHob_kept (h : Kept q s) (u : Nat) (x : HobUnit) : Kept q (setHob s u x) := by
  unfold setHob
  repeat' first
    | (lift_lets; intro) | with_reducible assumption | (simp only [Kept.mk_iff]; with_reducible refine Kept.facts ?_)

theorem hobCfgWrite_kept (h : Kept q s) (u v : Nat) : Kept q (hobCfgWrite s u v) := by
  unfold hobCfgWrite
  repeat' first
    | (lift_lets; intro) | with_reducible assumption | intro _ | with_reducible apply wrDev_kept
    | with_reducible apply rbgDraw_kept | with_reducible apply setHob_kept | with_reducible apply jnlEvent_kept
    | (with_reducible refine Kept.ite (fun _ => ?_) (fun _ => ?_))
    | (with_reducible refine Kept.ite₂ (fun _ => ?_) (fun _ => ?_))

theorem rxDeliver_kept (h : Kept q s) (p : Nat) (f : HobFrame) : Kept q (rxDeliver s p f) := by
  unfold rxDeliver
  repeat' first
    | (lift_lets; intro) | with_reducible assumption | intro _
    | (simp only [Kept.mk_iff]; with_reducible refine Kept.facts ?_) | with_reducible apply endUse_kept
    | with_reducible apply devWrite_kept | (with_reducible refine Kept.ite (fun _ => ?_) (fun _ => ?_))

theorem hobTake_kept (h : Kept q s) (u : Nat) : Kept q (hobTake s u) := by
  unfold hobTake
  repeat' first | (lift_lets; intro) | with_reducible assumption | with_reducible apply setHob_kept

theorem rxRelease_kept (h : Kept q s) (p : Nat) : Kept q (rxRelease s p) := by
  unfold rxRelease
  repeat' first
    | with_reducible assumption | with_reducible apply rxDeliver_kept | with_reducible apply hobTake_kept
    | (with_reducible refine Kept.ite (fun _ => ?_) (fun _ => ?_)) | split

theorem hobbleWrite_kept (h : Kept q s) (u v : Nat) : Kept q (hobbleWrite s u v) := by
  unfold hobbleWrite
  repeat' first
    | (lift_lets; intro) | with_reducible assumption | with_reducible apply hobCfgWrite_kept
    | with_reducible apply rxRelease_kept | (with_reducible refine Kept.ite (fun _ => ?_) (fun _ => ?_))

theorem egressJournal_kept (h : Kept q s) (x : Released) (a2 disp : Nat) (d : List Octet) :
    Kept q (egressJournal s x a2 disp d) := by
  unfold egressJournal
  repeat' first | with_reducible assumption | with_reducible apply jnlItemAt_kept

theorem pushQueue_kept (h : Kept q s) (a1 : Nat) (f : QFrame) : Kept q (pushQueue s a1 f) := by
  unfold pushQueue
  repeat' first
    | (lift_lets; intro) | with_reducible assumption | (simp only [Kept.mk_iff]; with_reducible refine Kept.facts ?_)

theorem egressFrame.putOn_kept (h : Kept q s) (x : Released) (a1 a : Nat) (d : List Octet) :
    Kept q (egressFrame.putOn x a1 s a d) := by
  unfold egressFrame.putOn
  repeat' first | with_reducible assumption | with_reducible apply egressJournal_kept | with_reducible apply pushQueue_kept

theorem writeEdits_kept (h : Kept q s) (a : Nat) (es : List Edit) : Kept q (writeEdits s a es) := by
  unfold writeEdits
  repeat' first
    | with_reducible assumption | with_reducible apply devWrite_kept
    | (with_reducible refine Kept.fold (fun _ _ _ => ?_) ?_)

theorem egressFrame_kept (h : Kept q s) (x : Released) (a2 : Nat) (plan : EditPlan) (d : List Octet) :
    Kept q (egressFrame s x a2 plan d) := by
  unfold egressFrame
  repeat' first
    | (lift_lets; intro) | with_reducible assumption | with_reducible apply egressFrame.putOn_kept
    | with_reducible apply egressJournal_kept | with_reducible apply endUse_kept | with_reducible apply writeEdits_kept
    | with_reducible apply bufCnt_kept | with_reducible apply portCnt_kept | split

theorem freeOctets_kept (h : Kept q s) (n : Nat) : Kept q (freeOctets s n).2 := by
  unfold freeOctets
  repeat' first | with_reducible assumption | (simp only [Kept.mk_iff]; with_reducible refine Kept.facts ?_)

theorem tlsSeal_kept (h : Kept q s) (slot : Nat) (seq : BitVec 64) (m : List Octet) : Kept q (tlsSeal s slot seq m).2 := by
  unfold tlsSeal
  repeat' first | (lift_lets; intro) | with_reducible assumption | with_reducible apply freeOctets_kept | split

theorem tlsSealAll_kept (h : Kept q s) (a1 a2 a3 : Nat) (a4 : List (List Octet)) : Kept q (tlsSealAll s a1 a2 a3 a4).2 := by
  unfold tlsSealAll
  refine Kept.foldPair (fun a x ha => ?_) h
  exact setConn_kept (tlsSeal_kept ha _ _ _) _ _

theorem queueSegments_kept (h : Kept q s) (a1 : Nat) (a2 : SegHdr) (w : WireSrc) (seq ack : BitVec 32) (mss : Nat) (last : Bool) (it : Item) :
    Kept q (queueSegments s a1 a2 w seq ack mss last it) := by
  unfold queueSegments
  repeat' first
    | (lift_lets; intro) | with_reducible assumption | intro _ | with_reducible apply pushQueue_kept
    | with_reducible apply drawFree_kept | (with_reducible refine Kept.fold (fun _ _ _ => ?_) ?_)

theorem egressMessage_kept (h : Kept q s) (x : Released) : Kept q (egressMessage s x) := by
  unfold egressMessage
  repeat' first
    | (lift_lets; intro) | with_reducible assumption | intro _ | with_reducible apply tlsSealAll_kept
    | with_reducible apply queueSegments_kept | with_reducible apply egressJournal_kept | with_reducible apply endUse_kept
    | (with_reducible refine Kept.ite (fun _ => ?_) (fun _ => ?_))
    | (with_reducible refine Kept.ite₂ (fun _ => ?_) (fun _ => ?_))

theorem egressProcess_kept (h : Kept q s) : Kept q (egressProcess s) := by
  unfold egressProcess
  repeat' first
    | (lift_lets; intro) | with_reducible assumption | intro _
    | (simp only [Kept.mk_iff]; with_reducible refine Kept.facts ?_) | with_reducible apply egressFrame_kept
    | with_reducible apply passBuf_kept | with_reducible apply egressMessage_kept
    | (with_reducible refine Kept.ite (fun _ => ?_) (fun _ => ?_)) | split | dsimp +zetaDelta only

theorem frameEnd_kept (h : Kept q s) (f : QFrame) : Kept q (frameEnd s f) := by
  unfold frameEnd
  repeat' first
    | with_reducible assumption | with_reducible apply dropShare_kept | with_reducible apply endUse_kept
    | (with_reducible refine Kept.ite (fun _ => ?_) (fun _ => ?_)) | split

theorem txDone_kept (h : Kept q s) (f : QFrame) (status ts : Nat) (len a5 : Nat) :
    Kept q (txDone s f status ts len a5) := by
  unfold txDone
  repeat' first | with_reducible assumption | with_reducible apply complete_kept | split

theorem frameDiscard_kept (h : Kept q s) (a1 : Nat) (f : QFrame) (status : Nat) : Kept q (frameDiscard s a1 f status) := by
  unfold frameDiscard
  repeat' first | with_reducible assumption | with_reducible apply frameEnd_kept | with_reducible apply txDone_kept

theorem txAbort_kept (h : Kept q s) (p status : Nat) : Kept q (txAbort s p status) := by
  unfold txAbort
  repeat' first
    | (lift_lets; intro) | with_reducible assumption | intro _
    | (simp only [Kept.mk_iff]; with_reducible refine Kept.facts ?_) | with_reducible apply frameEnd_kept
    | with_reducible apply txDone_kept | with_reducible apply portCnt_kept | with_reducible apply setPort_kept
    | (with_reducible refine Kept.ite (fun _ => ?_) (fun _ => ?_)) | split

theorem hobCnt_kept (h : Kept q s) (u k : Nat) : Kept q (hobCnt s u k) := by
  unfold hobCnt
  repeat' first | with_reducible assumption | with_reducible apply cntAdd_kept

theorem hobDiscard_kept (h : Kept q s) (u : Nat) : Kept q (hobDiscard s u) := by
  unfold hobDiscard
  repeat' first
    | (lift_lets; intro) | with_reducible assumption | with_reducible apply hobCnt_kept | with_reducible apply endUse_kept
    | with_reducible apply frameDiscard_kept | with_reducible apply hobTake_kept | split

theorem storeRead_kept (h : Kept q s) (found : MemError) : Kept q (storeRead s found) := by
  unfold storeRead
  repeat' first
    | (lift_lets; intro) | with_reducible assumption | (simp only [Kept.mk_iff]; with_reducible refine Kept.facts ?_)
    | with_reducible apply wrDev_kept | split

theorem setLane_kept (h : Kept q s) (p : Nat) (l : List LaneEnt) : Kept q (setLane s p l) := by
  unfold setLane
  repeat' first
    | (lift_lets; intro) | with_reducible assumption | (simp only [Kept.mk_iff]; with_reducible refine Kept.facts ?_)

theorem graphWalk_kept (h : Kept q s) (lane : Nat) (found : MemError) : Kept q (graphWalk s lane found) := by
  unfold graphWalk
  repeat' first
    | (lift_lets; intro) | with_reducible assumption | intro _
    | (simp only [Kept.mk_iff]; with_reducible refine Kept.facts ?_) | with_reducible apply storeRead_kept
    | with_reducible apply setLane_kept | split | dsimp +zetaDelta only

theorem parSwapNow_kept (h : Kept q s) : Kept q (parSwapNow s) := by
  unfold parSwapNow
  repeat' first
    | (lift_lets; intro) | with_reducible assumption | intro _
    | (simp only [Kept.mk_iff]; with_reducible refine Kept.facts ?_) | with_reducible apply graphWalk_kept
    | (with_reducible refine Kept.fold (fun _ _ _ => ?_) ?_) | (with_reducible refine Kept.ite (fun _ => ?_) (fun _ => ?_))

theorem linkDownNow_kept (h : Kept q s) (p : Nat) : Kept q (linkDownNow s p) := by
  unfold linkDownNow
  repeat' first
    | (lift_lets; intro) | with_reducible assumption | intro _ | with_reducible apply hobDiscard_kept
    | with_reducible apply frameDiscard_kept | with_reducible apply portCnt_kept | with_reducible apply setPort_kept | split
    | dsimp +zetaDelta only

theorem quadWrite_kept (h : Kept q s) (a1 v : Nat) : Kept q (quadWrite s a1 v) := by
  unfold quadWrite
  repeat' first
    | (lift_lets; intro) | with_reducible assumption | with_reducible apply wrDev_kept
    | with_reducible apply linkDownNow_kept | (with_reducible refine Kept.fold (fun _ _ _ => ?_) ?_)

theorem flowChanged_kept (h : Kept q s) (p : Nat) : Kept q (flowChanged s p) := by
  unfold flowChanged
  repeat' first | (lift_lets; intro) | with_reducible assumption | with_reducible apply setPort_kept

theorem execLinkDown_kept (h : Kept q s) (port : BitVec 7) : OutKept q (execLinkDown port s) := by
  unfold execLinkDown
  repeat' first | with_reducible assumption | simp only [OutKept.next_iff] | with_reducible apply linkDownNow_kept

theorem txPlace_kept (h : Kept q s) (c : CmdRef) (d : List Octet) (k ef : Nat) (ts : Bool) {t : State}
    (e : txPlace s c d k ef ts = some t) : Kept q t := by
  unfold txPlace at e
  dsimp only at e
  split at e
  · cases e
  · split at e
    · rename_i b t' e'
      have hb : Kept q t' := Kept.triple e' (bufAlloc_kept h _ _ _ _)
      have hp := fun g => passBuf_kept (devWrite_kept hb b d) b g egressAgent
      cases e
      split
      · exact endUse_kept (txDone_kept (portCnt_kept (hp _) _ _ _) _ _ _ _ _) _ _
      · exact pushQueue_kept (bufCnt_kept (hp _) _ _) _ _
      · exact pushQueue_kept (writeEdits_kept (hp _) _ _) _ _
    · cases e

theorem pauseRepeat_kept (h : Kept q s) (p : Nat) : Kept q (pauseRepeat s p) := by
  unfold pauseRepeat
  repeat' first
    | with_reducible assumption | with_reducible apply pauseSend_kept
    | (with_reducible refine Kept.fold (fun _ _ _ => ?_) ?_) | (with_reducible refine Kept.ite (fun _ => ?_) (fun _ => ?_))

theorem execPauseRepeat_kept (h : Kept q s) (port : BitVec 7) : OutKept q (execPauseRepeat port s) := by
  unfold execPauseRepeat
  repeat' first | with_reducible assumption | simp only [OutKept.next_iff] | with_reducible apply pauseRepeat_kept

theorem drainQueue_kept (h : Kept q s) (a1 cnt status : Nat) : Kept q (drainQueue s a1 cnt status) := by
  unfold drainQueue
  repeat' first
    | (lift_lets; intro) | with_reducible assumption | intro _
    | (simp only [Kept.mk_iff]; with_reducible refine Kept.facts ?_) | with_reducible apply frameDiscard_kept
    | with_reducible apply portCnt_kept | (with_reducible refine Kept.fold (fun _ _ _ => ?_) ?_) | dsimp +zetaDelta only

theorem txBegin_kept (h : Kept q s) (p : Nat) (f : HobFrame) (a3 : QFrame) : Kept q (txBegin s p f a3) := by
  unfold txBegin
  repeat' first
    | (lift_lets; intro) | with_reducible assumption | intro _ | with_reducible apply latReach_kept
    | with_reducible apply setPort_kept | split | dsimp +zetaDelta only

theorem popQueue_kept (h : Kept q s) (a1 : Nat) : Kept q (popQueue s a1) := by
  unfold popQueue
  repeat' first
    | (lift_lets; intro) | with_reducible assumption | (simp only [Kept.mk_iff]; with_reducible refine Kept.facts ?_)

theorem hobChance_kept (h : Kept q s) (u k : Nat) : Kept q (hobChance s u k).2 := by
  unfold hobChance
  repeat' first | (lift_lets; intro) | with_reducible assumption | intro _ | with_reducible apply setHob_kept

theorem hobCorrupt_kept (h : Kept q s) (u n : Nat) : Kept q (hobCorrupt s u n).2 := by
  unfold hobCorrupt
  repeat' first | with_reducible assumption | with_reducible apply hobChance_kept | split

theorem hobDrop_kept (h : Kept q s) (u n : Nat) : Kept q (hobDrop s u n).2 := by
  unfold hobDrop
  repeat' first
    | (lift_lets; intro) | with_reducible assumption | intro _ | with_reducible apply setHob_kept
    | with_reducible apply hobChance_kept | split

theorem hobOffer_kept (h : Kept q s) (u : Nat) (f : HobFrame) : Kept q (hobOffer s u f).2 := by
  unfold hobOffer
  repeat' first
    | (lift_lets; intro) | with_reducible assumption | intro _ | with_reducible apply hobCnt_kept
    | with_reducible apply setHob_kept | with_reducible apply hobCorrupt_kept | with_reducible apply hobDrop_kept
    | (with_reducible refine Kept.ite (fun _ => ?_) (fun _ => ?_))
    | (with_reducible refine Kept.ite₂ (fun _ => ?_) (fun _ => ?_))

theorem txOffer_kept (h : Kept q s) (p a2 : Nat) (f : QFrame) : Kept q (txOffer s p a2 f).2 := by
  unfold txOffer
  repeat' first
    | (lift_lets; intro) | with_reducible assumption | intro _
    | (simp only [Kept.mk_iff]; with_reducible refine Kept.facts ?_) | with_reducible apply frameEnd_kept
    | with_reducible apply popQueue_kept | with_reducible apply txBegin_kept | with_reducible apply hobOffer_kept
    | with_reducible apply txDone_kept | (with_reducible refine Kept.pair (by assumption) ?_)
    | (with_reducible refine Kept.ite (fun _ => ?_) (fun _ => ?_))
    | (with_reducible refine Kept.ite₂ (fun _ => ?_) (fun _ => ?_)) | split

theorem dropOversize_kept (h : Kept q s) (a0 a2 : Nat) : Kept q (dropOversize a0 s a2) := by
  induction a0 generalizing s  with
  | zero =>
    unfold dropOversize
    repeat' first | with_reducible assumption
  | succ _ ih =>
    unfold dropOversize
    repeat' first
      | with_reducible assumption | with_reducible apply ih | with_reducible apply popQueue_kept
      | with_reducible apply frameDiscard_kept | with_reducible apply bufCnt_kept
      | (with_reducible refine Kept.ite (fun _ => ?_) (fun _ => ?_)) | split

theorem setGroup_kept (h : Kept q s) (g : Nat) (x : Dwrr) : Kept q (setGroup s g x) := by
  unfold setGroup
  repeat' first
    | (lift_lets; intro) | with_reducible assumption | (simp only [Kept.mk_iff]; with_reducible refine Kept.facts ?_)

theorem dwrrPick_kept (h : Kept q s) (a0 a2 : Nat) : Kept q (dwrrPick a0 s a2).2 := by
  induction a0 generalizing s  with
  | zero =>
    unfold dwrrPick
    repeat' first | with_reducible assumption
  | succ _ ih =>
    unfold dwrrPick
    repeat' first
      | (lift_lets; intro) | with_reducible assumption | intro _ | with_reducible apply ih
      | with_reducible apply dropOversize_kept | with_reducible apply setGroup_kept
      | (with_reducible refine Kept.ite (fun _ => ?_) (fun _ => ?_))
      | (with_reducible refine Kept.ite₂ (fun _ => ?_) (fun _ => ?_))

theorem txSelect_kept (h : Kept q s) (a0 a2 : Nat) : Kept q (txSelect a0 s a2) := by
  induction a0 generalizing s  with
  | zero =>
    unfold txSelect
    repeat' first | with_reducible assumption
  | succ _ ih =>
    unfold txSelect
    repeat' first
      | with_reducible assumption | with_reducible apply ih | with_reducible apply txOffer_kept
      | with_reducible apply dwrrPick_kept | (with_reducible refine Kept.pair (by assumption) ?_)
      | (with_reducible refine Kept.ite (fun _ => ?_) (fun _ => ?_)) | split

theorem txRetry_kept (h : Kept q s) : Kept q (txRetry s) := by
  unfold txRetry
  refine Kept.foldPair (fun a w ha => ?_) h
  dsimp only
  split
  · split
    · exact ha
    · split
      · rename_i e
        exact (txPlace_kept ha _ _ _ _ _ e).upd rfl rfl rfl rfl rfl
      · exact ha
  · exact ha
  · exact ha

theorem frameTransmit_kept (h : Kept q s) (p : Nat) : Kept q (frameTransmit s p) := by
  unfold frameTransmit
  repeat' first
    | (lift_lets; intro) | with_reducible assumption | with_reducible apply drainQueue_kept
    | with_reducible apply txBegin_kept | with_reducible apply txSelect_kept | with_reducible apply txRetry_kept
    | with_reducible apply hobTake_kept | (with_reducible refine Kept.fold (fun _ _ _ => ?_) ?_)
    | (with_reducible refine Kept.ite (fun _ => ?_) (fun _ => ?_)) | split

theorem execFrameTransmit_kept (h : Kept q s) (port : BitVec 7) : OutKept q (execFrameTransmit port s) := by
  unfold execFrameTransmit
  repeat' first | with_reducible assumption | simp only [OutKept.next_iff] | with_reducible apply frameTransmit_kept

theorem pauseReceive_kept (h : Kept q s) (p : Nat) (d : List Octet) : Kept q (pauseReceive s p d) := by
  unfold pauseReceive
  repeat' first
    | (lift_lets; intro) | with_reducible assumption | with_reducible apply pauseAct_kept
    | with_reducible apply portCnt_kept | (with_reducible refine Kept.fold (fun _ _ _ => ?_) ?_)
    | (with_reducible refine Kept.ite (fun _ => ?_) (fun _ => ?_)) | split | dsimp +zetaDelta only

theorem pauseFrame_kept (h : Kept q s) (p : Nat) (d : List Octet) : Kept q (pauseFrame s p d) := by
  unfold pauseFrame
  repeat' first
    | with_reducible assumption | with_reducible apply pauseReceive_kept
    | (with_reducible refine Kept.ite (fun _ => ?_) (fun _ => ?_))

theorem execPauseReceive_kept (h : Kept q s) (port : BitVec 7) (octets : List Octet) :
    OutKept q (execPauseReceive port octets s) := by
  unfold execPauseReceive
  repeat' first | with_reducible assumption | simp only [OutKept.next_iff] | with_reducible apply pauseFrame_kept

theorem hobPassed_kept (h : Kept q s) (u : Nat) : Kept q (hobPassed s u) := by
  unfold hobPassed
  repeat' first
    | (lift_lets; intro) | with_reducible assumption | with_reducible apply setHob_kept
    | (with_reducible refine Kept.ite (fun _ => ?_) (fun _ => ?_))

theorem rxHobble_kept (h : Kept q s) (p : Nat) (f : HobFrame) : Kept q (rxHobble s p f) := by
  unfold rxHobble
  repeat' first
    | (lift_lets; intro) | with_reducible assumption | intro _ | with_reducible apply rxDeliver_kept
    | with_reducible apply hobPassed_kept | with_reducible apply endUse_kept | with_reducible apply hobOffer_kept
    | with_reducible apply rxRelease_kept | with_reducible apply portCnt_kept
    | (with_reducible refine Kept.pair (by assumption) ?_) | (with_reducible refine Kept.ite (fun _ => ?_) (fun _ => ?_))
    | split

theorem moduleGone_kept (h : Kept q s) (cage : Nat) : Kept q (moduleGone s cage) := by
  unfold moduleGone
  repeat' first
    | (lift_lets; intro) | with_reducible assumption | intro _
    | (simp only [Kept.mk_iff]; with_reducible refine Kept.facts ?_) | with_reducible apply finish_kept
    | (with_reducible refine Kept.fold (fun _ _ _ => ?_) ?_) | dsimp +zetaDelta only

theorem parseFrame_kept (h : Kept q s) (p : Nat) (found : MemError) : Kept q (parseFrame s p found) := by
  unfold parseFrame
  repeat' first
    | (lift_lets; intro) | with_reducible assumption | intro _
    | (simp only [Kept.mk_iff]; with_reducible refine Kept.facts ?_) | with_reducible apply storeRead_kept
    | with_reducible apply setLane_kept | (with_reducible refine Kept.ite (fun _ => ?_) (fun _ => ?_)) | split

theorem execParseFrame_kept (h : Kept q s) (port : BitVec 7) (found : MemError) :
    OutKept q (execParseFrame port found s) := by
  unfold execParseFrame
  repeat' first | with_reducible assumption | simp only [OutKept.next_iff] | with_reducible apply parseFrame_kept

theorem moduleChange_kept (h : Kept q s) (cage : Nat) (present : Bool) : Kept q (moduleChange s cage present) := by
  unfold moduleChange
  repeat' first
    | (lift_lets; intro) | with_reducible assumption | intro _
    | (simp only [Kept.mk_iff]; with_reducible refine Kept.facts ?_) | with_reducible apply moduleGone_kept
    | with_reducible apply sendEvent_kept | with_reducible apply linkDownNow_kept
    | (with_reducible refine Kept.fold (fun _ _ _ => ?_) ?_) | (with_reducible refine Kept.ite (fun _ => ?_) (fun _ => ?_))
    | dsimp +zetaDelta only

theorem linkUpNow_kept (h : Kept q s) (p m : Nat) : Kept q (linkUpNow s p m) := by
  unfold linkUpNow
  repeat' first
    | (lift_lets; intro) | with_reducible assumption | with_reducible apply setPort_kept
    | (with_reducible refine Kept.ite (fun _ => ?_) (fun _ => ?_))

theorem hobTimeout_kept (h : Kept q s) (u : Nat) : Kept q (hobTimeout s u) := by
  unfold hobTimeout
  repeat' first
    | with_reducible assumption | with_reducible apply rxRelease_kept | with_reducible apply frameTransmit_kept
    | (with_reducible refine Kept.ite (fun _ => ?_) (fun _ => ?_))

theorem execHobbleHoldTimeout_kept (h : Kept q s) (a0 : BitVec 8) : OutKept q (execHobbleHoldTimeout a0 s) := by
  unfold execHobbleHoldTimeout
  repeat' first | with_reducible assumption | simp only [OutKept.next_iff] | with_reducible apply hobTimeout_kept

theorem rxFrame_kept (h : Kept q s) (p : Nat) (d : List Octet) (fcsOk : Bool) : Kept q (rxFrame s p d fcsOk) := by
  unfold rxFrame
  repeat' first
    | (lift_lets; intro) | with_reducible assumption | intro _ | with_reducible apply freeBuf_kept
    | with_reducible apply pauseReceive_kept | with_reducible apply rxHobble_kept | with_reducible apply pauseCheck_kept
    | with_reducible apply setTag_kept | with_reducible apply portCnt_kept
    | (with_reducible refine Kept.ite (fun _ => ?_) (fun _ => ?_)) | split | dsimp +zetaDelta only

theorem frameReceive_kept (h : Kept q s) (p : Nat) (d : List Octet) (fcsOk : Bool) : Kept q (frameReceive s p d fcsOk) := by
  unfold frameReceive
  repeat' first
    | with_reducible assumption | with_reducible apply rxFrame_kept
    | (with_reducible refine Kept.ite (fun _ => ?_) (fun _ => ?_))

theorem execFrameReceive_kept (h : Kept q s) (port : BitVec 7) (octets : List Octet) (fcsOk : Bool) :
    OutKept q (execFrameReceive port octets fcsOk s) := by
  unfold execFrameReceive
  repeat' first | with_reducible assumption | simp only [OutKept.next_iff] | with_reducible apply frameReceive_kept

theorem execSlowBucketRefill_kept (h : Kept q s) : OutKept q (execSlowBucketRefill s) := by
  unfold execSlowBucketRefill
  repeat' first
    | with_reducible assumption | simp only [OutKept.next_iff] | with_reducible apply refillBucket_kept
    | (with_reducible refine Kept.fold (fun _ _ _ => ?_) ?_)

theorem tokenRefill_kept (h : Kept q s) : Kept q (tokenRefill s) := by
  unfold tokenRefill
  repeat' first
    | (lift_lets; intro) | with_reducible assumption | (simp only [Kept.mk_iff]; with_reducible refine Kept.facts ?_)
    | (with_reducible refine Kept.fold (fun _ _ _ => ?_) ?_) | (with_reducible refine Kept.ite (fun _ => ?_) (fun _ => ?_))

theorem execEgressTokenRefill_kept (h : Kept q s) : OutKept q (execEgressTokenRefill s) := by
  unfold execEgressTokenRefill
  repeat' first | with_reducible assumption | simp only [OutKept.next_iff] | with_reducible apply tokenRefill_kept

theorem execEgressProcess_kept (h : Kept q s) : OutKept q (execEgressProcess s) := by
  unfold execEgressProcess
  repeat' first | with_reducible assumption | simp only [OutKept.next_iff] | with_reducible apply egressProcess_kept

theorem execLinkUp_kept (h : Kept q s) (port : BitVec 7) (mode : BitVec 4) : OutKept q (execLinkUp port mode s) := by
  unfold execLinkUp
  repeat' first | with_reducible assumption | simp only [OutKept.next_iff] | with_reducible apply linkUpNow_kept

theorem pauseExpire_kept (h : Kept q s) (p : Nat) (cls : Option Nat) : Kept q (pauseExpire s p cls) := by
  unfold pauseExpire
  repeat' first
    | (lift_lets; intro) | with_reducible assumption | with_reducible apply setPort_kept
    | (with_reducible refine Kept.ite (fun _ => ?_) (fun _ => ?_)) | split

theorem execPauseTimerExpiry_kept (h : Kept q s) (port : BitVec 7) (cls : Option (BitVec 3)) :
    OutKept q (execPauseTimerExpiry port cls s) := by
  unfold execPauseTimerExpiry
  repeat' first | with_reducible assumption | simp only [OutKept.next_iff] | with_reducible apply pauseExpire_kept

theorem execModulePresenceChange_kept (h : Kept q s) (cage : BitVec 5) (present : Bool) :
    OutKept q (execModulePresenceChange cage present s) := by
  unfold execModulePresenceChange
  repeat' first | with_reducible assumption | simp only [OutKept.next_iff] | with_reducible apply moduleChange_kept

theorem execModuleInterrupt_kept (h : Kept q s) (cage : BitVec 5) : OutKept q (execModuleInterrupt cage s) := by
  unfold execModuleInterrupt
  repeat' first | with_reducible assumption | simp only [OutKept.next_iff] | with_reducible apply sendEvent_kept

theorem execGraphWalk_kept (h : Kept q s) (lane : BitVec 4) (found : MemError) :
    OutKept q (execGraphWalk lane found s) := by
  unfold execGraphWalk
  repeat' first | with_reducible assumption | simp only [OutKept.next_iff] | with_reducible apply graphWalk_kept

theorem transmitEnd_kept (h : Kept q s) (p : Nat) : Kept q (transmitEnd s p) := by
  unfold transmitEnd
  repeat' first
    | (lift_lets; intro) | with_reducible assumption | intro _
    | (simp only [Kept.mk_iff]; with_reducible refine Kept.facts ?_) | with_reducible apply frameEnd_kept
    | with_reducible apply cntAdd_kept | with_reducible apply hobPassed_kept | with_reducible apply txRetry_kept
    | with_reducible apply rxFrame_kept | with_reducible apply txDone_kept | with_reducible apply portCnt_kept
    | with_reducible apply setPort_kept | (with_reducible refine Kept.ite (fun _ => ?_) (fun _ => ?_)) | split

theorem execTransmitEnd_kept (h : Kept q s) (port : BitVec 7) : OutKept q (execTransmitEnd port s) := by
  unfold execTransmitEnd
  repeat' first | with_reducible assumption | simp only [OutKept.next_iff] | with_reducible apply transmitEnd_kept

theorem recordRelease_kept (h : Kept q s) (p : Nat) : Kept q (recordRelease s p) := by
  unfold recordRelease
  repeat' first
    | (lift_lets; intro) | with_reducible assumption | intro _
    | (simp only [Kept.mk_iff]; with_reducible refine Kept.facts ?_) | with_reducible apply setLane_kept
    | with_reducible apply slowPath_kept | (with_reducible refine Kept.ite (fun _ => ?_) (fun _ => ?_)) | split

theorem execParseRecordRelease_kept (h : Kept q s) (port : BitVec 7) : OutKept q (execParseRecordRelease port s) := by
  unfold execParseRecordRelease
  repeat' first | with_reducible assumption | simp only [OutKept.next_iff] | with_reducible apply recordRelease_kept

end Sys2Proof.Machine
end

