-- ==== Sys2Proof/Laws/KeptIssue.lean ====
section
/-! SUPPORT. What dispatch, syllables and the issue of a bundle keep (Sys2Proof.Machine.Kept): one lemma per operation, each citing those of the operations it calls. -/

namespace Sys2Proof.Machine

variable {q : List Instr} {s : State}

theorem ctxSyl_keeps (t : Thr) (u : Nat) (gd : Gd) (b : Bool) (f : Ctx → Ctx → Ctx) : Syl.Keeps (ctxSyl t u gd b f) :=
  ⟨fun _ => ⟨fun _ _ h => updCtx_kept h _ _, fun _ _ h => h⟩⟩

theorem sylCvbd_keeps (t : Thr) (u : Nat) (g : Gd) (rd ra a5 : BitVec 5) (md : BitVec 8) :
    Syl.Keeps (sylCvbd t u g rd ra a5 md) := by
  unfold sylCvbd
  repeat' first | simp only [Syl.keeps_iff] | with_reducible apply ctxSyl_keeps

theorem leaveWaiters_kept (h : Kept q s) (t : Nat) : Kept q (leaveWaiters s t) := by
  unfold leaveWaiters
  repeat' first
    | (lift_lets; intro) | with_reducible assumption | (simp only [Kept.mk_iff]; with_reducible refine Kept.facts ?_)

theorem haltThread_kept (h : Kept q s) (t why bp : Nat) : Kept q (haltThread s t why bp) := by
  unfold haltThread
  repeat' first | with_reducible assumption | with_reducible apply leaveWaiters_kept | with_reducible apply updThr_kept

theorem turnWith_kept (h : Kept q s) (t : Nat) {f : State → State} (hf : ∀ s, Kept q s → Kept q (f s)) :
    Kept q (turnWith s t f) := by
  unfold turnWith
  repeat' first
    | (lift_lets; intro) | with_reducible assumption | with_reducible apply sendEvent_kept
    | with_reducible apply haltThread_kept | with_reducible apply updCtx_kept | with_reducible apply hf
    | (with_reducible refine Kept.ite (fun _ => ?_) (fun _ => ?_)) | split

theorem reportFault_kept (h : Kept q s) (x : TaskSt) (c : Ctx) (f : FaultRec) (agent fid : Nat) :
    Kept q (reportFault s x c f agent fid) := by
  unfold reportFault
  repeat' first | with_reducible assumption | with_reducible apply queueDeliv_kept

theorem joinWaiters_kept (h : Kept q s) (t : Nat) : Kept q (joinWaiters s t) := by
  unfold joinWaiters
  repeat' first
    | (lift_lets; intro) | with_reducible assumption | (simp only [Kept.mk_iff]; with_reducible refine Kept.facts ?_)

theorem enterGetwork_kept (h : Kept q s) (t : Nat) : Kept q (enterGetwork s t) := by
  unfold enterGetwork
  repeat' first | with_reducible assumption | with_reducible apply joinWaiters_kept | with_reducible apply updThr_kept

theorem saveCtx_kept (h : Kept q s) (t k : Nat) (fault : Option FaultRec) : Kept q (saveCtx s t k fault) := by
  unfold saveCtx
  repeat' first
    | (lift_lets; intro) | with_reducible assumption | intro _ | with_reducible apply updTask_kept
    | with_reducible apply putSlot_kept | with_reducible apply enterGetwork_kept | split | dsimp +zetaDelta only

theorem takeFault_kept (h : Kept q s) (t kind : Nat) (flags sel offset : Nat) :
    Kept q (takeFault s t kind flags sel offset) := by
  unfold takeFault
  repeat' first
    | (lift_lets; intro) | with_reducible assumption | intro _ | with_reducible apply updTask_kept
    | with_reducible apply reportFault_kept | with_reducible apply saveCtx_kept | with_reducible apply unstall_kept
    | with_reducible apply coreCnt_kept | with_reducible apply updThr_kept | split

theorem firstBundle_kept (h : Kept q s) (t : Nat) : Kept q (firstBundle s t) := by
  unfold firstBundle
  repeat' first
    | (lift_lets; intro) | with_reducible assumption | with_reducible apply ticketReach_kept
    | (with_reducible refine Kept.ite (fun _ => ?_) (fun _ => ?_)) | split

theorem undefFx_keeps (t : Nat) : Fx.Keeps (undefFx t) := by
  unfold undefFx
  repeat' first | with_reducible assumption | intro _ | simp only [Fx.keeps_iff] | with_reducible apply thrViolate_kept

theorem Syl.eval_keeps {x : Syl} (hx : x.Keeps) (s : State) (t : Nat) : (x.eval s t).Keeps := by
  unfold Syl.eval
  split
  · exact ⟨fun _ _ h => thrViolate_kept h _ _ _ _, fun _ _ h => h⟩
  · split
    · exact hx.fx s
    · exact Fx.idle

theorem foldPre_kept {l : List Fx} (hl : ∀ f ∈ l, f.Keeps) (h : Kept q s) : Kept q (l.foldl (fun s f => f.pre s) s) := by
  induction l generalizing s with
  | nil => exact h
  | cons f l ih => exact ih (fun g hg => hl g (List.mem_cons_of_mem _ hg)) ((hl f (by simp)).pre q s h)

theorem foldFx_kept {l : List Fx} (hl : ∀ f ∈ l, f.Keeps) (h : Kept q s) : Kept q (l.foldl (fun s f => f.run s) s) := by
  induction l generalizing s with
  | nil => exact h
  | cons f l ih => exact ih (fun g hg => hl g (List.mem_cons_of_mem _ hg)) ((hl f (by simp)).run q s h)

/-- Syllables that keep it issue keeping it. -/
theorem issueSyls_kept (h : Kept q s) (t n : Nat) {l : List Syl} (hl : ∀ x ∈ l, x.Keeps) : Kept q (issueSyls s t n l) := by
  have hf : ∀ f ∈ l.map (fun x => x.eval s t), f.Keeps := by
    intro f hf
    obtain ⟨x, hx, rfl⟩ := List.mem_map.mp hf
    exact Syl.eval_keeps (hl x hx) s t
  unfold issueSyls
  repeat' first
    | (lift_lets; intro) | with_reducible assumption | intro _ | with_reducible apply firstBundle_kept
    | with_reducible apply updThr_kept | with_reducible apply chnCnt_kept | with_reducible apply takeFault_kept
    | with_reducible apply unstall_kept | with_reducible apply haltThread_kept | with_reducible refine foldFx_kept hf ?_
    | with_reducible refine foldPre_kept hf ?_ | (with_reducible refine Kept.ite (fun _ => ?_) (fun _ => ?_)) | split
    | dsimp +zetaDelta only

/-- A syllable that keeps it issues keeping it. -/
theorem issueOne_kept (h : Kept q s) (t : Thr) {x : Syl} (hx : x.Keeps) : Kept q (issueOne s t x) :=
  turnWith_kept h _ (fun _ h => issueSyls_kept h _ _ (by simpa using hx))

theorem sylWaitev_keeps (t : Thr) (g : Gd) (rd ra a4 : BitVec 5) (a5 : BitVec 8) :
    Syl.Keeps (sylWaitev t g rd ra a4 a5) := by
  unfold sylWaitev
  repeat' first
    | with_reducible assumption | intro _ | simp only [Syl.keeps_iff] | with_reducible exact Fx.still
    | simp only [Fx.keeps_iff] | with_reducible refine Fx.ite_keeps (fun _ => ?_) (fun _ => ?_)
    | with_reducible apply updCtx_kept

theorem nearFx_keeps (t : Thr) (sel off : Nat) (c : Chk) (z : Ctx → Ctx) {f : Nat → Nat → Fx} (hf : ∀ a b, (f a b).Keeps) :
    Fx.Keeps (nearFx t sel off c z f) := by
  unfold nearFx
  split
  · exact hf _ _
  · exact ⟨fun _ _ h => updCtx_kept (thrViolate_kept h _ _ _ _) _ _, fun _ _ h => h⟩
  · exact ⟨fun _ _ h => h, fun _ _ h => h⟩

theorem nearSyl_keeps (t : Thr) (gd : Gd) (ra : BitVec 5) (im : BitVec 13) (sp : List Nat) (n : Need) (k : Nat) (z : Ctx → Ctx)
    {f : State → Nat → Nat → Nat → Nat → Fx} (hf : ∀ s a b c d, (f s a b c d).Keeps) :
    Syl.Keeps (nearSyl t gd ra im sp n k z f) := by
  unfold nearSyl
  repeat' first
    | (lift_lets; intro) | intro _ | simp only [Syl.keeps_iff] | (with_reducible refine nearFx_keeps _ _ _ _ _ ?_)
    | with_reducible apply hf

theorem sylLdo_keeps (t : Thr) (g : Gd) (rd ra : BitVec 5) (imm : BitVec 13) (n : Nat) :
    Syl.Keeps (sylLdo t g rd ra imm n) := by
  unfold sylLdo
  repeat' first
    | (lift_lets; intro) | with_reducible assumption | intro _ | simp only [Syl.keeps_iff] | simp only [Fx.keeps_iff]
    | with_reducible apply updCtx_kept | with_reducible apply nearSyl_keeps

theorem startTag_kept (h : Kept q s) (t tag : Nat) (x : Tag) : Kept q (startTag s t tag x) := by
  unfold startTag
  repeat' first | with_reducible assumption | with_reducible apply updCtx_kept

theorem wordLockSyl_keeps (t : Thr) (g : Gd) (ra : BitVec 5) (md : BitVec 8) (n : Need) (rd : Option Nat) (f : Ctx → Nat → Nat × Nat) :
    Syl.Keeps (wordLockSyl t g ra md n rd f) := by
  unfold wordLockSyl
  repeat' first
    | (lift_lets; intro) | with_reducible assumption | intro _ | simp only [Syl.keeps_iff] | with_reducible exact Fx.still
    | simp only [Fx.keeps_iff] | with_reducible refine Fx.ite_keeps (fun _ => ?_) (fun _ => ?_)
    | with_reducible apply thrViolate_kept | with_reducible apply undefFx_keeps | with_reducible apply setCsm_kept
    | with_reducible apply startTag_kept | with_reducible apply drawFree_kept | with_reducible apply devWrite_kept
    | (with_reducible refine Kept.ite (fun _ => ?_) (fun _ => ?_)) | split

theorem sylLockw_keeps (t : Thr) (g : Gd) (rd ra rb : BitVec 5) (md : BitVec 8) : Syl.Keeps (sylLockw t g rd ra rb md) := by
  unfold sylLockw
  repeat' first | with_reducible apply wordLockSyl_keeps

theorem sylSto_keeps (t : Thr) (g : Gd) (rd ra : BitVec 5) (imm : BitVec 13) (n : Nat) :
    Syl.Keeps (sylSto t g rd ra imm n) := by
  unfold sylSto
  repeat' first
    | (lift_lets; intro) | with_reducible assumption | intro _ | simp only [Syl.keeps_iff] | simp only [Fx.keeps_iff]
    | with_reducible apply updCtx_kept | with_reducible apply nearSyl_keeps

theorem sylLd_keeps (t : Thr) (g : Gd) (rd ra : BitVec 5) (imm : BitVec 13) : Syl.Keeps (sylLd t g rd ra imm) := by
  unfold sylLd
  repeat' first
    | (lift_lets; intro) | with_reducible assumption | intro _ | simp only [Syl.keeps_iff] | with_reducible exact Fx.still
    | simp only [Fx.keeps_iff] | with_reducible refine Fx.ite_keeps (fun _ => ?_) (fun _ => ?_)
    | with_reducible apply updCtx_kept | with_reducible apply nearSyl_keeps

theorem farSyl_keeps (t : Thr) (gd : Gd) (b : Bool) (tag sel : Nat) (sp : List Nat) (n : Need) (o z : Ctx → Nat)
    (zero : Ctx → Tag) {f : State → Nat → Nat → Option (Nat × Nat) → State → State}
    (hf : ∀ s0 k a v q s, Kept q s → Kept q (f s0 k a v s)) : Syl.Keeps (farSyl t gd b tag sel sp n o z zero f) := by
  unfold farSyl
  repeat' first
    | with_reducible assumption | intro _ | simp only [Syl.keeps_iff] | with_reducible exact Fx.still
    | simp only [Fx.keeps_iff] | with_reducible refine Fx.ite_keeps (fun _ => ?_) (fun _ => ?_)
    | with_reducible apply startTag_kept | with_reducible apply thrViolate_kept | with_reducible apply hf | split

theorem writeOcts_kept (h : Kept q s) (t space a : Nat) (l : List Octet) : Kept q (writeOcts s t space a l) := by
  unfold writeOcts
  repeat' first
    | with_reducible assumption | with_reducible apply updCtx_kept | with_reducible apply devWrite_kept
    | with_reducible apply hostWrite_kept | (with_reducible refine Kept.ite (fun _ => ?_) (fun _ => ?_))

theorem farData_kept (h : Kept q s) (t sp : Nat) (a n : Nat) : Kept q (farData s t sp a n).2.2 := by
  unfold farData
  repeat' first | with_reducible assumption | with_reducible apply drawFree_kept | split

theorem sylFmov_keeps (t : Thr) (g : Gd) (rd ra rb : BitVec 5) (md : BitVec 8) : Syl.Keeps (sylFmov t g rd ra rb md) := by
  unfold sylFmov
  repeat' first
    | (lift_lets; intro) | with_reducible assumption | intro _ | simp only [Syl.keeps_iff]
    | with_reducible apply thrViolate_kept | with_reducible apply farSyl_keeps | with_reducible apply startTag_kept
    | with_reducible apply writeOcts_kept | with_reducible apply farData_kept
    | (with_reducible refine Kept.ite (fun _ => ?_) (fun _ => ?_)) | split

theorem sylLdd_keeps (t : Thr) (g : Gd) (rd ra : BitVec 5) (imm : BitVec 13) : Syl.Keeps (sylLdd t g rd ra imm) := by
  unfold sylLdd
  repeat' first
    | (lift_lets; intro) | with_reducible assumption | intro _ | simp only [Syl.keeps_iff] | simp only [Fx.keeps_iff]
    | with_reducible apply updCtx_kept | with_reducible apply nearFx_keeps

theorem sylFld_keeps (t : Thr) (g : Gd) (rd ra rb : BitVec 5) (md : BitVec 8) : Syl.Keeps (sylFld t g rd ra rb md) := by
  unfold sylFld
  repeat' first
    | (lift_lets; intro) | with_reducible assumption | intro _ | simp only [Syl.keeps_iff]
    | with_reducible apply farSyl_keeps | with_reducible apply startTag_kept | with_reducible apply farData_kept

theorem sylUnlockw_keeps (t : Thr) (g : Gd) (a2 ra a4 : BitVec 5) (md : BitVec 8) :
    Syl.Keeps (sylUnlockw t g a2 ra a4 md) := by
  unfold sylUnlockw
  repeat' first | with_reducible apply wordLockSyl_keeps

theorem lateSyl_keeps (t : Thr) (gd : Gd) (b : Bool) (rd : BitVec 5) {f : Ctx → State → W36 × State}
    (hf : ∀ c q s, Kept q s → Kept q (f c s).2) : Syl.Keeps (lateSyl t gd b rd f) := by
  unfold lateSyl
  simp only [Syl.keeps_iff, Fx.keeps_iff]
  exact fun _ q s h => updCtx_kept (hf _ q s h) _ _

theorem sylChrd_keeps (t : Thr) (g : Gd) (rd ra a4 : BitVec 5) (md : BitVec 8) : Syl.Keeps (sylChrd t g rd ra a4 md) := by
  unfold sylChrd
  repeat' first
    | (lift_lets; intro) | with_reducible assumption | intro _ | with_reducible apply chRead_kept
    | with_reducible apply lateSyl_keeps

theorem mSyl_keeps (t : Thr) (gd : Gd) {f : Ctx → State → State} (hf : ∀ c q s, Kept q s → Kept q (f c s)) :
    Syl.Keeps (mSyl t gd f) := ⟨fun _ => ⟨fun q s h => hf _ q s h, fun _ _ h => h⟩⟩

theorem sylUnlock_keeps (t : Thr) (g : Gd) (a2 ra a4 : BitVec 5) (a5 : BitVec 8) :
    Syl.Keeps (sylUnlock t g a2 ra a4 a5) := by
  unfold sylUnlock
  repeat' first
    | (lift_lets; intro) | with_reducible assumption | intro _ | with_reducible apply mSyl_keeps
    | with_reducible apply unlockOp_kept

theorem sylSignal_keeps (t : Thr) (g : Gd) (a2 ra rb : BitVec 5) (a5 : BitVec 8) :
    Syl.Keeps (sylSignal t g a2 ra rb a5) := by
  unfold sylSignal
  repeat' first
    | (lift_lets; intro) | with_reducible assumption | intro _ | with_reducible apply signalOp_kept
    | with_reducible apply mSyl_keeps

theorem raiseDoubt_kept (h : Kept q s) (code : Nat) (p : Option Nat) (res : Nat) : Kept q (raiseDoubt s code p res) := by
  unfold raiseDoubt
  repeat' first
    | (lift_lets; intro) | with_reducible assumption | (simp only [Kept.mk_iff]; with_reducible refine Kept.facts ?_)

theorem slotSyl_keeps (t : Thr) (gd : Gd) (ra : BitVec 5) {f : Ctx → Nat → State → State}
    (hf : ∀ c n q s, Kept q s → Kept q (f c n s)) : Syl.Keeps (slotSyl t gd ra f) := by
  unfold slotSyl
  repeat' first
    | with_reducible assumption | intro _ | simp only [Syl.keeps_iff] | with_reducible exact Fx.still
    | simp only [Fx.keeps_iff] | with_reducible refine Fx.ite_keeps (fun _ => ?_) (fun _ => ?_) | with_reducible apply hf

theorem sylChpost_keeps (t : Thr) (g : Gd) (a2 ra a4 : BitVec 5) (a5 : BitVec 8) :
    Syl.Keeps (sylChpost t g a2 ra a4 a5) := by
  unfold sylChpost
  repeat' first
    | (lift_lets; intro) | with_reducible assumption | intro _ | with_reducible apply slotSyl_keeps
    | with_reducible apply chPost_kept

theorem releaseHold_kept (h : Kept q s) (id : Nat) (keep : Option Nat) : Kept q (releaseHold s id keep) := by
  unfold releaseHold
  repeat' first
    | (lift_lets; intro) | with_reducible assumption | with_reducible apply updTask_kept | with_reducible apply endUse_kept
    | with_reducible apply bufCnt_kept | (with_reducible refine Kept.fold (fun _ _ _ => ?_) ?_)
    | (with_reducible refine Kept.ite (fun _ => ?_) (fun _ => ?_)) | split

theorem endTask_kept (h : Kept q s) (id : Nat) (getwork : Bool) : Kept q (endTask s id getwork) := by
  unfold endTask
  repeat' first
    | (lift_lets; intro) | with_reducible assumption | intro _
    | (simp only [Kept.mk_iff]; with_reducible refine Kept.facts ?_) | with_reducible apply haspTaskEnd_kept
    | with_reducible apply releaseHold_kept

theorem getworkNow_kept (h : Kept q s) (t : Nat) : Kept q (getworkNow s t) := by
  unfold getworkNow
  repeat' first
    | (lift_lets; intro) | with_reducible assumption | with_reducible apply enterGetwork_kept
    | with_reducible apply endTask_kept | split | dsimp +zetaDelta only

theorem faultDeferred_kept (h : Kept q s) (id : Nat) (x : TaskSt) (kind : Nat) (rest : List (Nat × Nat)) :
    Kept q (faultDeferred s id x kind rest) := by
  unfold faultDeferred
  repeat' first
    | (lift_lets; intro) | with_reducible assumption | intro _
    | (simp only [Kept.mk_iff]; with_reducible refine Kept.facts ?_) | with_reducible apply updTask_kept
    | with_reducible apply reportFault_kept | with_reducible apply putSlot_kept | with_reducible apply coreCnt_kept | split
    | dsimp +zetaDelta only

theorem deferNow_kept (h : Kept q s) (t delay : Nat) : Kept q (deferNow s t delay) := by
  unfold deferNow
  repeat' first
    | (lift_lets; intro) | with_reducible assumption | intro _ | with_reducible apply updTask_kept
    | with_reducible apply faultDeferred_kept | with_reducible apply pushDelay_kept | with_reducible apply updThr_kept
    | with_reducible apply schCnt_kept | (with_reducible refine Kept.ite (fun _ => ?_) (fun _ => ?_)) | split
    | dsimp +zetaDelta only

theorem drainDone_kept (h : Kept q s) (t : Nat) : Kept q (drainDone s t) := by
  unfold drainDone
  repeat' first
    | with_reducible assumption | with_reducible apply getworkNow_kept | with_reducible apply deferNow_kept
    | (with_reducible refine Kept.ite (fun _ => ?_) (fun _ => ?_)) | split

theorem getworkOp_kept (h : Kept q s) (t mask : Nat) : Kept q (getworkOp s t mask) := by
  unfold getworkOp
  repeat' first | with_reducible assumption | with_reducible apply drainDone_kept | with_reducible apply updThr_kept

theorem sylGetwork_keeps (t : Thr) (g : Gd) (a2 ra a4 : BitVec 5) (a5 : BitVec 8) :
    Syl.Keeps (sylGetwork t g a2 ra a4 a5) := by
  unfold sylGetwork
  repeat' first
    | (lift_lets; intro) | with_reducible assumption | intro _ | with_reducible apply getworkOp_kept
    | with_reducible apply mSyl_keeps

theorem sylChopen_keeps (t : Thr) (g : Gd) (rd ra a4 : BitVec 5) (a5 : BitVec 8) :
    Syl.Keeps (sylChopen t g rd ra a4 a5) := by
  unfold sylChopen
  repeat' first
    | (lift_lets; intro) | with_reducible assumption | intro _ | with_reducible apply lateSyl_keeps
    | with_reducible apply chOpen_kept

theorem sylDone_keeps (host : Bool) (t : Thr) (g : Gd) (rd ra rb : BitVec 5) (a6 : BitVec 8) :
    Syl.Keeps (sylDone host t g rd ra rb a6) := by
  unfold sylDone
  repeat' first
    | (lift_lets; intro) | with_reducible assumption | intro _ | with_reducible apply mSyl_keeps
    | with_reducible apply endTicket_kept

theorem postRun_kept (h : Kept q s) (t : Nat) (c : Ctx) (ra : Nat) : Kept q (postRun t c ra s).2 := by
  unfold postRun
  repeat' first | (lift_lets; intro) | with_reducible assumption | intro _ | with_reducible apply postTask_kept

theorem sylPost_keeps (t : Thr) (g : Gd) (rd ra a4 : BitVec 5) (a5 : BitVec 8) : Syl.Keeps (sylPost t g rd ra a4 a5) := by
  unfold sylPost
  repeat' first
    | (lift_lets; intro) | with_reducible assumption | intro _ | with_reducible apply postRun_kept
    | with_reducible apply lateSyl_keeps

theorem timerOp_kept (h : Kept q s) (t delay : Nat) : Kept q (timerOp s t delay) := by
  unfold timerOp
  repeat' first | with_reducible assumption | with_reducible apply unstall_kept | with_reducible apply updThr_kept

theorem sylTimer_keeps (t : Thr) (g : Gd) (a2 ra a4 : BitVec 5) (a5 : BitVec 8) : Syl.Keeps (sylTimer t g a2 ra a4 a5) := by
  unfold sylTimer
  repeat' first
    | (lift_lets; intro) | with_reducible assumption | intro _ | with_reducible apply mSyl_keeps
    | with_reducible apply timerOp_kept

theorem sylLock_keeps (t : Thr) (g : Gd) (rd ra a4 : BitVec 5) (a5 : BitVec 8) : Syl.Keeps (sylLock t g rd ra a4 a5) := by
  unfold sylLock
  repeat' first
    | with_reducible assumption | intro _ | simp only [Syl.keeps_iff] | with_reducible exact Fx.still
    | simp only [Fx.keeps_iff] | with_reducible refine Fx.ite_keeps (fun _ => ?_) (fun _ => ?_)
    | with_reducible apply lockOp_kept

theorem moveRun_kept (h : Kept q s) (t rd : Nat) (w : W36) (dom : Nat) : Kept q (moveRun t rd w dom s) := by
  unfold moveRun
  repeat' first
    | (lift_lets; intro) | with_reducible assumption | with_reducible apply moveOp_kept | with_reducible apply updCtx_kept

theorem sylMove_keeps (t : Thr) (g : Gd) (rd ra rb : BitVec 5) (a5 : BitVec 8) : Syl.Keeps (sylMove t g rd ra rb a5) := by
  unfold sylMove
  repeat' first
    | (lift_lets; intro) | with_reducible assumption | intro _ | with_reducible apply moveRun_kept
    | with_reducible apply mSyl_keeps

theorem sylChnext_keeps (t : Thr) (g : Gd) (a2 ra a4 : BitVec 5) (a5 : BitVec 8) :
    Syl.Keeps (sylChnext t g a2 ra a4 a5) := by
  unfold sylChnext
  repeat' first
    | (lift_lets; intro) | with_reducible assumption | intro _ | with_reducible apply chNext_kept
    | with_reducible apply mSyl_keeps

theorem sylChw_keeps (t : Thr) (g : Gd) (a2 ra rb : BitVec 5) (md : BitVec 8) : Syl.Keeps (sylChw t g a2 ra rb md) := by
  unfold sylChw
  repeat' first
    | (lift_lets; intro) | with_reducible assumption | intro _ | with_reducible apply slotSyl_keeps
    | with_reducible apply chWrite_kept

theorem deferOp_kept (h : Kept q s) (t p : Nat) (w : W36) (delay : Nat) : Kept q (deferOp s t p w delay) := by
  unfold deferOp
  repeat' first
    | with_reducible assumption | with_reducible apply drainDone_kept | with_reducible apply refuseTicket_kept
    | with_reducible apply updThr_kept | with_reducible apply hltCnt_kept
    | (with_reducible refine Kept.ite (fun _ => ?_) (fun _ => ?_)) | split

theorem sylDefer_keeps (t : Thr) (g : Gd) (a2 ra rb : BitVec 5) (a5 : BitVec 8) : Syl.Keeps (sylDefer t g a2 ra rb a5) := by
  unfold sylDefer
  repeat' first
    | (lift_lets; intro) | with_reducible assumption | intro _ | with_reducible apply deferOp_kept
    | with_reducible apply mSyl_keeps

theorem sylSplit_keeps (t : Thr) (g : Gd) (rd ra rb : BitVec 5) (a5 : BitVec 8) : Syl.Keeps (sylSplit t g rd ra rb a5) := by
  unfold sylSplit
  repeat' first
    | (lift_lets; intro) | with_reducible assumption | intro _ | with_reducible apply lateSyl_keeps
    | with_reducible apply splitOp_kept

theorem sylDrop_keeps (t : Thr) (g : Gd) (a2 ra a4 : BitVec 5) (a5 : BitVec 8) : Syl.Keeps (sylDrop t g a2 ra a4 a5) := by
  unfold sylDrop
  repeat' first
    | (lift_lets; intro) | with_reducible assumption | intro _ | with_reducible apply mSyl_keeps
    | with_reducible apply dropOp_kept

theorem sylTlvnext_keeps (t : Thr) (g : Gd) (rd ra a4 : BitVec 5) (md : BitVec 8) :
    Syl.Keeps (sylTlvnext t g rd ra a4 md) := by
  unfold sylTlvnext
  repeat' first
    | (lift_lets; intro) | with_reducible assumption | intro _ | simp only [Syl.keeps_iff] | simp only [Fx.keeps_iff]
    | with_reducible apply updCtx_kept | with_reducible apply nearFx_keeps

theorem writeWord_kept (h : Kept q s) (t space a : Nat) (v : W36) : Kept q (writeWord s t space a v) := by
  unfold writeWord
  repeat' first | with_reducible assumption | with_reducible apply setCsm_kept | with_reducible apply setClm_kept | split

theorem sylSt_keeps (t : Thr) (g : Gd) (rd ra : BitVec 5) (imm : BitVec 13) : Syl.Keeps (sylSt t g rd ra imm) := by
  unfold sylSt
  repeat' first
    | (lift_lets; intro) | with_reducible assumption | intro _ | simp only [Syl.keeps_iff] | simp only [Fx.keeps_iff]
    | with_reducible apply writeWord_kept | with_reducible apply nearSyl_keeps

theorem sylBmwalk_keeps (t : Thr) (g : Gd) (rd ra rb : BitVec 5) (md : BitVec 8) :
    Syl.Keeps (sylBmwalk t g rd ra rb md) := by
  unfold sylBmwalk
  repeat' first
    | (lift_lets; intro) | with_reducible assumption | intro _ | simp only [Syl.keeps_iff] | simp only [Fx.keeps_iff]
    | with_reducible apply updCtx_kept | with_reducible apply nearFx_keeps

theorem sylFst_keeps (t : Thr) (g : Gd) (rd ra rb : BitVec 5) (md : BitVec 8) : Syl.Keeps (sylFst t g rd ra rb md) := by
  unfold sylFst
  repeat' first
    | (lift_lets; intro) | with_reducible assumption | intro _ | simp only [Syl.keeps_iff]
    | with_reducible apply farSyl_keeps | with_reducible apply startTag_kept | with_reducible apply writeOcts_kept

theorem sylXlat_keeps (t : Thr) (g : Gd) (rd ra rb : BitVec 5) (md : BitVec 8) : Syl.Keeps (sylXlat t g rd ra rb md) := by
  unfold sylXlat
  repeat' first
    | (lift_lets; intro) | with_reducible assumption | intro _ | simp only [Syl.keeps_iff] | with_reducible exact Fx.still
    | simp only [Fx.keeps_iff] | with_reducible refine Fx.ite_keeps (fun _ => ?_) (fun _ => ?_)
    | with_reducible apply updCtx_kept | with_reducible apply nearFx_keeps

theorem sylNop_keeps (unit : Nat) (g : Gd) : Syl.Keeps (sylNop unit g) := by
  unfold sylNop
  repeat' first | intro _ | simp only [Syl.keeps_iff] | with_reducible exact Fx.still

theorem sylPwr_keeps (t : Thr) (u : Nat) (g : Gd) (a3 ra rb : BitVec 5) (a6 : BitVec 8) :
    Syl.Keeps (sylPwr t u g a3 ra rb a6) := by
  unfold sylPwr
  repeat' first | with_reducible apply ctxSyl_keeps

theorem noteDigest_kept (h : Kept q s) (p : Nat) : Kept q (noteDigest s p) := by
  unfold noteDigest
  repeat' first
    | (lift_lets; intro) | with_reducible assumption | intro _ | with_reducible apply cntAdd_kept
    | with_reducible apply setTicket_kept | (with_reducible refine Kept.ite (fun _ => ?_) (fun _ => ?_)) | split

theorem sylDepi_keeps (t : Thr) (u : Nat) (g : Gd) (rd ra : BitVec 5) (imm : BitVec 13) :
    Syl.Keeps (sylDepi t u g rd ra imm) := by
  unfold sylDepi
  repeat' first | with_reducible apply ctxSyl_keeps

theorem sylDcmp_keeps (t : Thr) (u : Nat) (g : Gd) (rd ra rb : BitVec 5) (md : BitVec 8) :
    Syl.Keeps (sylDcmp t u g rd ra rb md) := by
  unfold sylDcmp
  repeat' first | (lift_lets; intro) | simp only [Syl.keeps_iff] | with_reducible apply ctxSyl_keeps

theorem sylImm_keeps (t : Thr) (u : Nat) (g : Gd) (rd ra : BitVec 5) (f : W36 → W36) :
    Syl.Keeps (sylImm t u g rd ra f) := by
  unfold sylImm
  repeat' first | with_reducible apply ctxSyl_keeps

theorem sylShri_keeps (t : Thr) (u : Nat) (g : Gd) (rd ra : BitVec 5) (imm : BitVec 13) :
    Syl.Keeps (sylShri t u g rd ra imm) := by
  unfold sylShri
  repeat' first | with_reducible apply sylImm_keeps

theorem sylDsub_keeps (t : Thr) (u : Nat) (g : Gd) (rd ra rb : BitVec 5) (md : BitVec 8) :
    Syl.Keeps (sylDsub t u g rd ra rb md) := by
  unfold sylDsub
  repeat' first | simp only [Syl.keeps_iff] | with_reducible apply ctxSyl_keeps

theorem sylCrc_keeps (t : Thr) (g : Gd) (a2 ra a4 : BitVec 5) (md : BitVec 8) : Syl.Keeps (sylCrc t g a2 ra a4 md) := by
  unfold sylCrc
  repeat' first
    | with_reducible assumption | intro _ | simp only [Syl.keeps_iff] | simp only [Fx.keeps_iff]
    | with_reducible apply updCtx_kept

theorem discardCtx_kept (h : Kept q s) (loc : TaskLoc) : Kept q (discardCtx s loc) := by
  unfold discardCtx
  repeat' first
    | with_reducible assumption | with_reducible apply delSlot_kept | with_reducible apply enterGetwork_kept | split

theorem taskRetry_kept (h : Kept q s) (loc : TaskLoc) (id : Nat) : Kept q (taskRetry s loc id) := by
  unfold taskRetry
  repeat' first
    | (lift_lets; intro) | with_reducible assumption | intro _ | with_reducible apply updTask_kept
    | with_reducible apply haspTaskEnd_kept | with_reducible apply discardCtx_kept | with_reducible apply pushReady_kept
    | with_reducible apply releaseHold_kept | split

theorem sylSub_keeps (t : Thr) (u : Nat) (g : Gd) (rd ra rb : BitVec 5) (md : BitVec 8) :
    Syl.Keeps (sylSub t u g rd ra rb md) := by
  unfold sylSub
  repeat' first | (lift_lets; intro) | simp only [Syl.keeps_iff] | with_reducible apply ctxSyl_keeps

theorem pendFault_kept (h : Kept q s) (t kind tag : Nat) : Kept q (pendFault s t kind tag) := by
  unfold pendFault
  repeat' first | with_reducible assumption | with_reducible apply noteDeferral_kept | with_reducible apply updThr_kept

theorem rebuildSeg_kept (h : Kept q s) (id : Nat) (g3 : W36) : Kept q (rebuildSeg s id g3) := by
  unfold rebuildSeg
  repeat' first | (lift_lets; intro) | with_reducible assumption | with_reducible apply updTask_kept

theorem taskResume_kept (h : Kept q s) (loc : TaskLoc) (id : Nat) : Kept q (taskResume s loc id) := by
  unfold taskResume
  repeat' first
    | (lift_lets; intro) | with_reducible assumption | with_reducible apply updTask_kept | with_reducible apply putSlot_kept
    | with_reducible apply rebuildSeg_kept | with_reducible apply updThr_kept | with_reducible apply pushReady_kept | split

theorem taskKill_kept (h : Kept q s) (loc : TaskLoc) (id : Nat) : Kept q (taskKill s loc id) := by
  unfold taskKill
  repeat' first
    | (lift_lets; intro) | with_reducible assumption | with_reducible apply dropTicketAll_kept
    | with_reducible apply discardCtx_kept | with_reducible apply endTask_kept | split | dsimp +zetaDelta only

theorem sylAdd_keeps (t : Thr) (u : Nat) (g : Gd) (rd ra rb : BitVec 5) (md : BitVec 8) :
    Syl.Keeps (sylAdd t u g rd ra rb md) := by
  unfold sylAdd
  repeat' first | (lift_lets; intro) | simp only [Syl.keeps_iff] | with_reducible apply ctxSyl_keeps

theorem sylCmpi_keeps (t : Thr) (u : Nat) (g : Gd) (rd ra : BitVec 5) (imm : BitVec 13) (cond : Nat) :
    Syl.Keeps (sylCmpi t u g rd ra imm cond) := by
  unfold sylCmpi
  repeat' first | with_reducible apply ctxSyl_keeps

theorem sylCmpltui_keeps (t : Thr) (u : Nat) (g : Gd) (rd ra : BitVec 5) (imm : BitVec 13) :
    Syl.Keeps (sylCmpltui t u g rd ra imm) := by
  unfold sylCmpltui
  repeat' first | with_reducible apply sylCmpi_keeps

theorem microFault_kept (h : Kept q s) (t : Nat) (pc : BitVec 16) (kind sel off : Nat) :
    Kept q (microFault s t pc kind sel off) := by
  unfold microFault
  repeat' first
    | with_reducible assumption | with_reducible apply takeFault_kept | with_reducible apply updCtx_kept
    | with_reducible apply mcsThr_kept

theorem seqError_kept (h : Kept q s) (t : Nat) (pc : BitVec 16) : Kept q (seqError s t pc) := by
  unfold seqError
  repeat' first | with_reducible assumption | with_reducible apply raiseDoubt_kept | with_reducible apply updThr_kept

theorem microDone_kept (h : Kept q s) (t : Nat) : Kept q (microDone s t) := by
  unfold microDone
  repeat' first | with_reducible assumption | with_reducible apply mcsThr_kept | with_reducible apply updThr_kept

theorem microFetched_kept (h : Kept q s) (t : Nat) : Kept q (microFetched s t) := by
  unfold microFetched
  repeat' first
    | (lift_lets; intro) | with_reducible assumption | with_reducible apply wrDev_kept | with_reducible apply drawFree_kept

theorem microChunk_kept (h : Kept q s) {p : MicroPlan} (hp : ∀ q s l n, Kept q s → Kept q (p.commit s l n)) (t : Nat)
    (pc : BitVec 16) (r : MicroRun) (done : Nat) : Kept q (microChunk p t pc r done s) := by
  unfold microChunk
  repeat' first
    | (lift_lets; intro) | with_reducible assumption | intro _ | with_reducible apply hp
    | with_reducible apply microFetched_kept | with_reducible apply seqError_kept | with_reducible apply microDone_kept
    | with_reducible apply mcsThr_kept | with_reducible apply updCtx_kept | with_reducible apply updThr_kept
    | with_reducible apply thrViolate_kept | with_reducible apply microFault_kept
    | (with_reducible refine Kept.ite (fun _ => ?_) (fun _ => ?_)) | split

theorem microSyl_keeps (t : Thr) (gd : Gd) (op : Nat) {p : State → Bool → MicroPlan} (b : State → Ctx → Ctx)
    (hp : ∀ s0 a q s l n, Kept q s → Kept q ((p s0 a).commit s l n)) : Syl.Keeps (microSyl t gd op p b) := by
  unfold microSyl
  repeat' first
    | (lift_lets; intro) | with_reducible assumption | intro _ | simp only [Syl.keeps_iff] | with_reducible exact Fx.still
    | simp only [Fx.keeps_iff] | with_reducible refine Fx.ite_keeps (fun _ => ?_) (fun _ => ?_)
    | with_reducible apply microChunk_kept | with_reducible apply thrViolate_kept | with_reducible apply microFault_kept
    | with_reducible apply mcsThr_kept | with_reducible apply updCtx_kept | with_reducible apply hp
    | (with_reducible refine Kept.ite (fun _ => ?_) (fun _ => ?_)) | split

theorem sylCrcb_keeps (t : Thr) (g : Gd) (rd ra a4 : BitVec 5) (md : BitVec 8) : Syl.Keeps (sylCrcb t g rd ra a4 md) := by
  unfold sylCrcb
  repeat' first
    | (lift_lets; intro) | with_reducible assumption | intro _ | simp only [Syl.keeps_iff]
    | with_reducible apply microSyl_keeps | with_reducible apply updCtx_kept | split

theorem sylBrev_keeps (t : Thr) (u : Nat) (g : Gd) (rd ra a5 : BitVec 5) (md : BitVec 8) :
    Syl.Keeps (sylBrev t u g rd ra a5 md) := by
  unfold sylBrev
  repeat' first | (lift_lets; intro) | with_reducible apply ctxSyl_keeps

theorem sylDadd_keeps (t : Thr) (u : Nat) (g : Gd) (rd ra rb : BitVec 5) (md : BitVec 8) :
    Syl.Keeps (sylDadd t u g rd ra rb md) := by
  unfold sylDadd
  repeat' first | simp only [Syl.keeps_iff] | with_reducible apply ctxSyl_keeps

theorem sylLih_keeps (t : Thr) (u : Nat) (g : Gd) (rd : BitVec 5) (imm : BitVec 18) : Syl.Keeps (sylLih t u g rd imm) := by
  unfold sylLih
  repeat' first | with_reducible apply ctxSyl_keeps

theorem sylRoli_keeps (t : Thr) (u : Nat) (g : Gd) (rd ra : BitVec 5) (imm : BitVec 13) :
    Syl.Keeps (sylRoli t u g rd ra imm) := by
  unfold sylRoli
  repeat' first | with_reducible apply sylImm_keeps

theorem sylShli_keeps (t : Thr) (u : Nat) (g : Gd) (rd ra : BitVec 5) (imm : BitVec 13) :
    Syl.Keeps (sylShli t u g rd ra imm) := by
  unfold sylShli
  repeat' first | with_reducible apply sylImm_keeps

theorem sylPlog_keeps (t : Thr) (u : Nat) (g : Gd) (rd ra rb : BitVec 5) (md : BitVec 8) :
    Syl.Keeps (sylPlog t u g rd ra rb md) := by
  unfold sylPlog
  repeat' first | simp only [Syl.keeps_iff] | with_reducible apply ctxSyl_keeps

theorem sylSari_keeps (t : Thr) (u : Nat) (g : Gd) (rd ra : BitVec 5) (imm : BitVec 13) :
    Syl.Keeps (sylSari t u g rd ra imm) := by
  unfold sylSari
  repeat' first | with_reducible apply sylImm_keeps

theorem sylLuhn_keeps (t : Thr) (u : Nat) (g : Gd) (rd ra rb : BitVec 5) (md : BitVec 8) :
    Syl.Keeps (sylLuhn t u g rd ra rb md) := by
  unfold sylLuhn
  repeat' first | (lift_lets; intro) | intro _ | simp only [Syl.keeps_iff] | with_reducible apply ctxSyl_keeps

theorem sylDchk_keeps (t : Thr) (u : Nat) (g : Gd) (rd ra a5 : BitVec 5) (a6 : BitVec 8) :
    Syl.Keeps (sylDchk t u g rd ra a5 a6) := by
  unfold sylDchk
  repeat' first | with_reducible apply ctxSyl_keeps

theorem sylCvdb_keeps (t : Thr) (u : Nat) (g : Gd) (rd ra a5 : BitVec 5) (md : BitVec 8) :
    Syl.Keeps (sylCvdb t u g rd ra a5 md) := by
  unfold sylCvdb
  repeat' first | simp only [Syl.keeps_iff] | with_reducible apply ctxSyl_keeps

theorem sylAndi_keeps (t : Thr) (u : Nat) (g : Gd) (rd ra : BitVec 5) (imm : BitVec 13) :
    Syl.Keeps (sylAndi t u g rd ra imm) := by
  unfold sylAndi
  repeat' first | with_reducible apply sylImm_keeps

theorem sylCmpeqi_keeps (t : Thr) (u : Nat) (g : Gd) (rd ra : BitVec 5) (imm : BitVec 13) :
    Syl.Keeps (sylCmpeqi t u g rd ra imm) := by
  unfold sylCmpeqi
  repeat' first | with_reducible apply sylCmpi_keeps

theorem sylWide_keeps (t : Thr) (u : Nat) (g : Gd) (rd ra rb : BitVec 5) (md : BitVec 8) (f : Nat → W36 → W36 → Nat) :
    Syl.Keeps (sylWide t u g rd ra rb md f) := by
  unfold sylWide
  repeat' first | (lift_lets; intro) | with_reducible apply ctxSyl_keeps

theorem sylSar_keeps (t : Thr) (u : Nat) (g : Gd) (rd ra rb : BitVec 5) (md : BitVec 8) :
    Syl.Keeps (sylSar t u g rd ra rb md) := by
  unfold sylSar
  repeat' first | with_reducible apply sylWide_keeps

theorem rehold_kept (h : Kept q s) (t : Nat) (x : TaskSt) : Kept q (rehold s t x) := by
  unfold rehold
  repeat' first
    | (lift_lets; intro) | with_reducible assumption | with_reducible apply setTag_kept
    | (with_reducible refine Kept.fold (fun _ _ _ => ?_) ?_) | (with_reducible refine Kept.ite (fun _ => ?_) (fun _ => ?_))

theorem sylMfsr_keeps (t : Thr) (g : Gd) (rd a3 a4 : BitVec 5) (md : BitVec 8) : Syl.Keeps (sylMfsr t g rd a3 a4 md) := by
  unfold sylMfsr
  repeat' first
    | with_reducible assumption | intro _ | simp only [Syl.keeps_iff] | simp only [Fx.keeps_iff]
    | with_reducible apply updCtx_kept

theorem sylB_keeps (t : Thr) (g : Gd) (target : BitVec 16) : Syl.Keeps (sylB t g target) := by
  unfold sylB
  repeat' first | with_reducible apply ctxSyl_keeps

theorem delayDue_kept (h : Kept q s) (p : Nat) : Kept q (delayDue s p) := by
  unfold delayDue
  repeat' first
    | (lift_lets; intro) | with_reducible assumption | intro _
    | (simp only [Kept.mk_iff]; with_reducible refine Kept.facts ?_) | with_reducible apply pushReady_kept
    | (with_reducible refine Kept.ite (fun _ => ?_) (fun _ => ?_)) | split | dsimp +zetaDelta only

theorem sylXori_keeps (t : Thr) (u : Nat) (g : Gd) (rd ra : BitVec 5) (imm : BitVec 13) :
    Syl.Keeps (sylXori t u g rd ra imm) := by
  unfold sylXori
  repeat' first | with_reducible apply sylImm_keeps

theorem sylAndn_keeps (t : Thr) (u : Nat) (g : Gd) (rd ra rb : BitVec 5) (md : BitVec 8) :
    Syl.Keeps (sylAndn t u g rd ra rb md) := by
  unfold sylAndn
  repeat' first | with_reducible apply sylWide_keeps

theorem readFailed_kept (h : Kept q s) (p : Nat) : Kept q (readFailed s p) := by
  unfold readFailed
  repeat' first
    | (lift_lets; intro) | with_reducible assumption | intro _
    | (simp only [Kept.mk_iff]; with_reducible refine Kept.facts ?_) | with_reducible apply gplCnt_kept

theorem sylXlatb_keeps (t : Thr) (g : Gd) (rd ra rb : BitVec 5) (md : BitVec 8) : Syl.Keeps (sylXlatb t g rd ra rb md) := by
  unfold sylXlatb
  repeat' first
    | (lift_lets; intro) | with_reducible assumption | intro _ | simp only [Syl.keeps_iff]
    | with_reducible apply microSyl_keeps | with_reducible apply writeOcts_kept | split

theorem takeG3_kept (h : Kept q s) (t id : Nat) (p a : Nat) : Kept q (takeG3 s t id p a) := by
  unfold takeG3
  repeat' first
    | (lift_lets; intro) | with_reducible assumption | intro _ | with_reducible apply updTask_kept
    | with_reducible apply unholdAll_kept | with_reducible apply setTag_kept
    | (with_reducible refine Kept.ite (fun _ => ?_) (fun _ => ?_))

theorem pendFaultAt_kept (h : Kept q s) (r : CtxRef) (kind tag : Nat) : Kept q (pendFaultAt s r kind tag) := by
  unfold pendFaultAt
  repeat' first
    | with_reducible assumption | with_reducible apply pendFault_kept | with_reducible apply putSlot_kept
    | (with_reducible refine Kept.ite (fun _ => ?_) (fun _ => ?_)) | split

theorem helperSample_kept (h : Kept q s) (r : CtxRef) (x : Tag) : Kept q (helperSample s r x) := by
  unfold helperSample
  repeat' first | with_reducible assumption | with_reducible apply gaitYield_kept | split

theorem completeTag_kept (h : Kept q s) (r : CtxRef) (tag fault : Nat) : Kept q (completeTag s r tag fault) := by
  unfold completeTag
  repeat' first
    | (lift_lets; intro) | with_reducible assumption | intro _ | with_reducible apply drainDone_kept
    | with_reducible apply pendFaultAt_kept | with_reducible apply updCtxAt_kept | with_reducible apply helperSample_kept
    | (with_reducible refine Kept.ite (fun _ => ?_) (fun _ => ?_)) | split

theorem farComplete_kept (h : Kept q s) (r : CtxRef) (tag : Nat) (pcie : Bool) : Kept q (farComplete s r tag pcie) := by
  unfold farComplete
  repeat' first
    | (lift_lets; intro) | with_reducible assumption | with_reducible apply readFailed_kept
    | with_reducible apply completeTag_kept | with_reducible apply updCtxAt_kept
    | (with_reducible refine Kept.ite (fun _ => ?_) (fun _ => ?_)) | split | dsimp +zetaDelta only

theorem asyncTake_kept (h : Kept q s) (t : Nat) : Kept q (asyncTake s t) := by
  unfold asyncTake
  repeat' first
    | (lift_lets; intro) | with_reducible assumption | intro _ | with_reducible apply takeFault_kept
    | with_reducible apply abandonRoutine_kept | with_reducible apply leaveWaiters_kept | with_reducible apply updThr_kept
    | (with_reducible refine Kept.ite (fun _ => ?_) (fun _ => ?_)) | split

theorem startThread_kept (h : Kept q s) (t : Nat) (f : Ctx → Ctx) : Kept q (startThread s t f) := by
  unfold startThread
  repeat' first | with_reducible assumption | with_reducible apply leaveWaiters_kept | with_reducible apply updThr_kept

theorem dispatchSaved_kept (h : Kept q s) (t k : Nat) : Kept q (dispatchSaved s t k) := by
  unfold dispatchSaved
  repeat' first
    | (lift_lets; intro) | with_reducible assumption | intro _
    | (simp only [Kept.mk_iff]; with_reducible refine Kept.facts ?_) | with_reducible apply rehold_kept
    | with_reducible apply updTask_kept | with_reducible apply unstall_kept | with_reducible apply rebuildSeg_kept
    | with_reducible apply delSlot_kept | with_reducible apply startThread_kept | with_reducible apply updThr_kept
    | with_reducible apply schCnt_kept | split | dsimp +zetaDelta only

theorem dispatchFresh_kept (h : Kept q s) (t : Nat) (w : W36) (it : Item) (deadline : Nat) :
    Kept q (dispatchFresh s t w it deadline) := by
  unfold dispatchFresh
  repeat' first
    | (lift_lets; intro) | with_reducible assumption | intro _
    | (simp only [Kept.mk_iff]; with_reducible refine Kept.facts ?_) | with_reducible apply unstall_kept
    | with_reducible apply startThread_kept | with_reducible apply setTicket_kept | with_reducible apply takeG3_kept
    | with_reducible apply schCnt_kept | with_reducible apply putTask_kept | split | dsimp +zetaDelta only

theorem dispatchAgain_kept (h : Kept q s) (t id : Nat) (deferred : Bool) : Kept q (dispatchAgain s t id deferred) := by
  unfold dispatchAgain
  repeat' first
    | (lift_lets; intro) | with_reducible assumption | intro _
    | (simp only [Kept.mk_iff]; with_reducible refine Kept.facts ?_) | with_reducible apply rehold_kept
    | with_reducible apply updTask_kept | with_reducible apply unstall_kept | with_reducible apply startThread_kept
    | with_reducible apply updThr_kept | with_reducible apply takeG3_kept | with_reducible apply schCnt_kept
    | (with_reducible refine Kept.ite (fun _ => ?_) (fun _ => ?_)) | split | dsimp +zetaDelta only

theorem dispatchOne_kept (h : Kept q s) (p : Nat) : Kept q (dispatchOne s p) := by
  unfold dispatchOne
  repeat' first
    | (lift_lets; intro) | with_reducible assumption | intro _
    | (simp only [Kept.mk_iff]; with_reducible refine Kept.facts ?_) | with_reducible apply noteDigest_kept
    | with_reducible apply dispatchSaved_kept | with_reducible apply dispatchFresh_kept
    | with_reducible apply dispatchAgain_kept | (with_reducible refine Kept.ite (fun _ => ?_) (fun _ => ?_)) | split
    | dsimp +zetaDelta only

theorem sylXor_keeps (t : Thr) (u : Nat) (g : Gd) (rd ra rb : BitVec 5) (md : BitVec 8) :
    Syl.Keeps (sylXor t u g rd ra rb md) := by
  unfold sylXor
  repeat' first | with_reducible apply sylWide_keeps

theorem sylOr_keeps (t : Thr) (u : Nat) (g : Gd) (rd ra rb : BitVec 5) (md : BitVec 8) :
    Syl.Keeps (sylOr t u g rd ra rb md) := by
  unfold sylOr
  repeat' first | with_reducible apply sylWide_keeps

theorem sylSel_keeps (t : Thr) (u : Nat) (g : Gd) (rd ra rb : BitVec 5) (md : BitVec 8) :
    Syl.Keeps (sylSel t u g rd ra rb md) := by
  unfold sylSel
  repeat' first | with_reducible apply ctxSyl_keeps

theorem sylCmpnei_keeps (t : Thr) (u : Nat) (g : Gd) (rd ra : BitVec 5) (imm : BitVec 13) :
    Syl.Keeps (sylCmpnei t u g rd ra imm) := by
  unfold sylCmpnei
  repeat' first | with_reducible apply sylCmpi_keeps

theorem sylMul_keeps (t : Thr) (g : Gd) (a2 ra rb : BitVec 5) (md : BitVec 8) : Syl.Keeps (sylMul t g a2 ra rb md) := by
  unfold sylMul
  repeat' first | (lift_lets; intro) | simp only [Syl.keeps_iff] | with_reducible apply ctxSyl_keeps

theorem sylBl_keeps (t : Thr) (g : Gd) (target : BitVec 16) (len : Nat) : Syl.Keeps (sylBl t g target len) := by
  unfold sylBl
  repeat' first | simp only [Syl.keeps_iff] | with_reducible apply ctxSyl_keeps

theorem sylBfill_keeps (t : Thr) (g : Gd) (rd ra rb : BitVec 5) (md : BitVec 8) : Syl.Keeps (sylBfill t g rd ra rb md) := by
  unfold sylBfill
  repeat' first
    | (lift_lets; intro) | with_reducible assumption | intro _ | simp only [Syl.keeps_iff]
    | with_reducible apply microSyl_keeps | with_reducible apply writeOcts_kept | split

theorem sylShr_keeps (t : Thr) (u : Nat) (g : Gd) (rd ra rb : BitVec 5) (md : BitVec 8) :
    Syl.Keeps (sylShr t u g rd ra rb md) := by
  unfold sylShr
  repeat' first | with_reducible apply sylWide_keeps

theorem sylMtsr_keeps (a0 : Thr) (a1 : Gd) (a2 a3 a4 : BitVec 5) (a5 : BitVec 8) :
    Syl.Keeps (sylMtsr a0 a1 a2 a3 a4 a5) := by
  refine ⟨fun _ => ?_⟩
  unfold sylMtsr
  dsimp only
  split
  · exact ⟨fun _ _ h => h, by intro _ _ h; dsimp only; exact updCtx_kept h _ _⟩
  · exact ⟨by intro _ _ h; dsimp only; exact updCtx_kept h _ _, fun _ _ h => h⟩

theorem timeRead_kept (h : Kept q s) (t rd : Nat) : Kept q (timeRead t rd s) := by
  unfold timeRead
  repeat' first | with_reducible assumption | with_reducible apply updCtx_kept | with_reducible apply drawFree_kept

theorem sylTime_keeps (t : Thr) (g : Gd) (rd a3 a4 : BitVec 5) (a5 : BitVec 8) : Syl.Keeps (sylTime t g rd a3 a4 a5) := by
  unfold sylTime
  repeat' first
    | with_reducible assumption | intro _ | simp only [Syl.keeps_iff] | simp only [Fx.keeps_iff]
    | with_reducible apply timeRead_kept

theorem sylBmove_keeps (t : Thr) (g : Gd) (rd ra rb : BitVec 5) (md : BitVec 8) : Syl.Keeps (sylBmove t g rd ra rb md) := by
  unfold sylBmove
  repeat' first
    | (lift_lets; intro) | with_reducible assumption | intro _ | simp only [Syl.keeps_iff]
    | with_reducible apply microSyl_keeps | with_reducible apply writeOcts_kept | split

theorem sylBr_keeps (t : Thr) (g : Gd) (a2 ra a4 : BitVec 5) (a5 : BitVec 8) : Syl.Keeps (sylBr t g a2 ra a4 a5) := by
  unfold sylBr
  repeat' first | with_reducible apply ctxSyl_keeps

theorem sylLuhnx_keeps (t : Thr) (g : Gd) (rd ra rb : BitVec 5) (md : BitVec 8) : Syl.Keeps (sylLuhnx t g rd ra rb md) := by
  unfold sylLuhnx
  repeat' first
    | (lift_lets; intro) | with_reducible assumption | intro _ | simp only [Syl.keeps_iff] | simp only [Fx.keeps_iff]
    | with_reducible refine Fx.ite_keeps (fun _ => ?_) (fun _ => ?_) | with_reducible apply thrViolate_kept
    | with_reducible apply seqError_kept | with_reducible apply updCtx_kept | with_reducible apply microDone_kept
    | with_reducible apply microFault_kept | with_reducible apply microFetched_kept | split

theorem sylOri_keeps (t : Thr) (u : Nat) (g : Gd) (rd ra : BitVec 5) (imm : BitVec 13) :
    Syl.Keeps (sylOri t u g rd ra imm) := by
  unfold sylOri
  repeat' first | with_reducible apply sylImm_keeps

theorem sylAddi_keeps (t : Thr) (u : Nat) (g : Gd) (rd ra : BitVec 5) (imm : BitVec 13) :
    Syl.Keeps (sylAddi t u g rd ra imm) := by
  unfold sylAddi
  repeat' first | with_reducible apply sylImm_keeps

theorem sylOrev_keeps (t : Thr) (u : Nat) (g : Gd) (rd ra a5 : BitVec 5) (md : BitVec 8) :
    Syl.Keeps (sylOrev t u g rd ra a5 md) := by
  unfold sylOrev
  repeat' first | with_reducible apply ctxSyl_keeps

theorem sylExti_keeps (t : Thr) (u : Nat) (g : Gd) (rd ra : BitVec 5) (imm : BitVec 13) :
    Syl.Keeps (sylExti t u g rd ra imm) := by
  unfold sylExti
  repeat' first | with_reducible apply sylImm_keeps

theorem sylCmp_keeps (t : Thr) (u : Nat) (g : Gd) (rd ra rb : BitVec 5) (md : BitVec 8) :
    Syl.Keeps (sylCmp t u g rd ra rb md) := by
  unfold sylCmp
  repeat' first | (lift_lets; intro) | with_reducible apply ctxSyl_keeps

theorem sylPrd_keeps (t : Thr) (u : Nat) (g : Gd) (rd a4 a5 : BitVec 5) (a6 : BitVec 8) :
    Syl.Keeps (sylPrd t u g rd a4 a5 a6) := by
  unfold sylPrd
  repeat' first | with_reducible apply ctxSyl_keeps

theorem sylPar_keeps (t : Thr) (u : Nat) (g : Gd) (rd ra a5 : BitVec 5) (md : BitVec 8) :
    Syl.Keeps (sylPar t u g rd ra a5 md) := by
  unfold sylPar
  repeat' first | with_reducible apply ctxSyl_keeps

theorem sylCmplti_keeps (t : Thr) (u : Nat) (g : Gd) (rd ra : BitVec 5) (imm : BitVec 13) :
    Syl.Keeps (sylCmplti t u g rd ra imm) := by
  unfold sylCmplti
  repeat' first | with_reducible apply sylCmpi_keeps

theorem sylBcnt_keeps (t : Thr) (u : Nat) (g : Gd) (rd ra a5 : BitVec 5) (md : BitVec 8) :
    Syl.Keeps (sylBcnt t u g rd ra a5 md) := by
  unfold sylBcnt
  repeat' first | with_reducible apply ctxSyl_keeps

theorem sylAnd_keeps (t : Thr) (u : Nat) (g : Gd) (rd ra rb : BitVec 5) (md : BitVec 8) :
    Syl.Keeps (sylAnd t u g rd ra rb md) := by
  unfold sylAnd
  repeat' first | with_reducible apply sylWide_keeps

theorem sylShl_keeps (t : Thr) (u : Nat) (g : Gd) (rd ra rb : BitVec 5) (md : BitVec 8) :
    Syl.Keeps (sylShl t u g rd ra rb md) := by
  unfold sylShl
  repeat' first | with_reducible apply sylWide_keeps

theorem sylRol_keeps (t : Thr) (u : Nat) (g : Gd) (rd ra rb : BitVec 5) (md : BitVec 8) :
    Syl.Keeps (sylRol t u g rd ra rb md) := by
  unfold sylRol
  repeat' first | with_reducible apply sylWide_keeps

theorem sylLil_keeps (t : Thr) (u : Nat) (g : Gd) (rd : BitVec 5) (imm : BitVec 18) : Syl.Keeps (sylLil t u g rd imm) := by
  unfold sylLil
  repeat' first | with_reducible apply ctxSyl_keeps

theorem deadlineKill_kept (h : Kept q s) (i : Nat) : Kept q (deadlineKill s i) := by
  unfold deadlineKill
  repeat' first
    | (lift_lets; intro) | with_reducible assumption | intro _
    | (simp only [Kept.mk_iff]; with_reducible refine Kept.facts ?_) | with_reducible apply pendFault_kept
    | with_reducible apply updTask_kept | with_reducible apply reportFault_kept | with_reducible apply faultDeferred_kept
    | with_reducible apply putSlot_kept | with_reducible apply setTicket_kept | with_reducible apply coreCnt_kept
    | (with_reducible refine Kept.ite (fun _ => ?_) (fun _ => ?_)) | split | dsimp +zetaDelta only

theorem preemptOne_kept (h : Kept q s) (p : Nat) : Kept q (preemptOne s p) := by
  unfold preemptOne
  repeat' first
    | (lift_lets; intro) | with_reducible assumption | intro _ | with_reducible apply noteDeferral_kept
    | with_reducible apply abandonRoutine_kept | with_reducible apply saveCtx_kept | with_reducible apply schCnt_kept
    | with_reducible apply pushReady_kept | (with_reducible refine Kept.ite (fun _ => ?_) (fun _ => ?_)) | split

theorem timerDue_kept (h : Kept q s) (t : Nat) : Kept q (timerDue s t) := by
  unfold timerDue
  repeat' first
    | (lift_lets; intro) | with_reducible assumption | intro _ | with_reducible apply taskEv_kept
    | with_reducible apply updCtx_kept | with_reducible apply updThr_kept | with_reducible apply schCnt_kept
    | (with_reducible refine Kept.ite (fun _ => ?_) (fun _ => ?_)) | split | dsimp +zetaDelta only

end Sys2Proof.Machine
end

