-- ==== Sys2Proof/Laws/KeptHost.lean ====
section
/-! SUPPORT. What host commands, search, the journal and Bolt keep (Sys2Proof.Machine.Kept): one lemma per operation, each citing those of the operations it calls. -/

namespace Sys2Proof.Machine

variable {q : List Instr} {s : State}

theorem helperSyl_keeps (t : Thr) (gd : Gd) (b : Bool) (tag : Nat) (k : HelperKind) (as_ : State → Ctx → List WinArg)
    {f : Ctx → State → State} (hf : ∀ c q s, Kept q s → Kept q (f c s)) : Syl.Keeps (helperSyl t gd b tag k as_ f) := by
  unfold helperSyl
  repeat' first
    | with_reducible assumption | intro _ | simp only [Syl.keeps_iff] | with_reducible exact Fx.still
    | simp only [Fx.keeps_iff] | with_reducible refine Fx.ite_keeps (fun _ => ?_) (fun _ => ?_)
    | with_reducible apply startTag_kept | with_reducible apply thrViolate_kept | with_reducible apply hf | split

theorem foreignIf_kept (h : Kept q s) (p agent res : Nat) (b : Bool) : Kept q (foreignIf s p agent res b) := by
  unfold foreignIf
  repeat' first
    | with_reducible assumption | with_reducible apply violate_kept
    | (with_reducible refine Kept.ite (fun _ => ?_) (fun _ => ?_))

theorem srcCnt_kept (h : Kept q s) (p k n : Nat) : Kept q (srcCnt s p k n) := by
  unfold srcCnt
  repeat' first | with_reducible assumption | with_reducible apply pcnt_kept

theorem runSearch_kept (h : Kept q s) (p agent k : Nat) (key : List Octet) : Kept q (runSearch s p agent k key).2.2 := by
  unfold runSearch
  repeat' first
    | (lift_lets; intro) | with_reducible assumption | intro _ | with_reducible apply raiseDoubt_kept
    | with_reducible apply foreignIf_kept | with_reducible apply srcCnt_kept
    | (with_reducible refine Kept.fold (fun _ _ _ => ?_) ?_) | (with_reducible refine Kept.ite (fun _ => ?_) (fun _ => ?_))
    | split

theorem searchFor_kept (h : Kept q s) (p agent k : Nat) (key : List Octet) : Kept q (searchFor s p agent k key).2.2 := by
  unfold searchFor
  repeat' first
    | with_reducible assumption | with_reducible apply runSearch_kept | with_reducible apply foreignIf_kept | split

theorem srchStart_kept (h : Kept q s) (t tag : Nat) (roff prof : Nat) (key : List Octet) :
    Kept q (srchStart t tag roff prof key s) := by
  unfold srchStart
  repeat' first
    | with_reducible assumption | (simp only [Kept.mk_iff]; with_reducible refine Kept.facts ?_)
    | with_reducible apply startTag_kept | with_reducible apply searchFor_kept

theorem handleFor_kept (h : Kept q s) (p agent a3 : Nat) : Kept q (handleFor s p agent a3).2 := by
  unfold handleFor
  repeat' first
    | with_reducible assumption | with_reducible apply foreignIf_kept
    | (with_reducible refine Kept.ite₂ (fun _ => ?_) (fun _ => ?_)) | split

theorem setAd_kept (h : Kept q s) (p agent : Nat) (a3 ad : Nat) : Kept q (setAd s p agent a3 ad).2 := by
  unfold setAd
  repeat' first
    | (lift_lets; intro) | with_reducible assumption | (simp only [Kept.mk_iff]; with_reducible refine Kept.facts ?_)
    | with_reducible apply handleFor_kept | (with_reducible refine Kept.pair (by assumption) ?_) | split

theorem setadStart_kept (h : Kept q s) (t tag : Nat) (roff a3 ad : Nat) : Kept q (setadStart t tag roff a3 ad s) := by
  unfold setadStart
  repeat' first | with_reducible assumption | with_reducible apply startTag_kept | with_reducible apply setAd_kept

theorem sylSrch_keeps (t : Thr) (g : Gd) (rd ra rb : BitVec 5) (md : BitVec 8) : Syl.Keeps (sylSrch t g rd ra rb md) := by
  unfold sylSrch
  repeat' first
    | (lift_lets; intro) | with_reducible assumption | intro _ | simp only [Syl.keeps_iff]
    | with_reducible apply helperSyl_keeps | with_reducible apply srchStart_kept | with_reducible apply setadStart_kept
    | (with_reducible refine Kept.ite (fun _ => ?_) (fun _ => ?_))

theorem jnlCnt_kept (h : Kept q s) (k n : Nat) : Kept q (jnlCnt s k n) := by
  unfold jnlCnt
  repeat' first | with_reducible assumption | with_reducible apply cntAdd_kept

theorem sealBlock_kept (h : Kept q s) (reason : Nat) : Kept q (sealBlock s reason) := by
  unfold sealBlock
  repeat' first
    | (lift_lets; intro) | with_reducible assumption | intro _
    | (simp only [Kept.mk_iff]; with_reducible refine Kept.facts ?_) | with_reducible apply jnlCnt_kept
    | with_reducible apply devWrite_kept | (with_reducible refine Kept.ite (fun _ => ?_) (fun _ => ?_))

theorem jnlDiscard_kept (h : Kept q s) : Kept q (jnlDiscard s) := by
  unfold jnlDiscard
  repeat' first
    | (lift_lets; intro) | with_reducible assumption | (simp only [Kept.mk_iff]; with_reducible refine Kept.facts ?_)
    | with_reducible apply jnlCnt_kept | split

theorem jnlAppend_kept (h : Kept q s) (r : List Octet) : Kept q (jnlAppend s r).2 := by
  unfold jnlAppend
  repeat' first
    | (lift_lets; intro) | with_reducible assumption | intro _
    | (simp only [Kept.mk_iff]; with_reducible refine Kept.facts ?_) | with_reducible apply jnlCnt_kept
    | with_reducible apply jnlDiscard_kept | with_reducible apply devWrite_kept
    | (with_reducible refine Kept.ite (fun _ => ?_) (fun _ => ?_))
    | (with_reducible refine Kept.ite₂ (fun _ => ?_) (fun _ => ?_))

theorem journalEntry_kept (h : Kept q s) : Kept q (journalEntry s) := by
  unfold journalEntry
  repeat' first
    | (lift_lets; intro) | with_reducible assumption | intro _
    | (simp only [Kept.mk_iff]; with_reducible refine Kept.facts ?_) | with_reducible apply sealBlock_kept
    | with_reducible apply jnlCnt_kept | with_reducible apply latReach_kept | with_reducible apply jnlAppend_kept
    | (with_reducible refine Kept.ite (fun _ => ?_) (fun _ => ?_)) | split | dsimp +zetaDelta only

theorem journalDrain_kept (h : Kept q s) (a0 : Nat) : Kept q (journalDrain a0 s) := by
  induction a0 generalizing s  with
  | zero =>
    unfold journalDrain
    repeat' first | with_reducible assumption
  | succ _ ih =>
    unfold journalDrain
    repeat' first | with_reducible assumption | with_reducible apply ih | with_reducible apply journalEntry_kept

theorem jnlBolt_kept (h : Kept q s) (part : Option Nat) (code : Nat) : Kept q (jnlBolt s part code) := by
  unfold jnlBolt
  repeat' first
    | (lift_lets; intro) | with_reducible assumption | intro _ | with_reducible apply journalDrain_kept
    | with_reducible apply jnlPut_kept | (with_reducible refine Kept.ite (fun _ => ?_) (fun _ => ?_))

theorem farCnt_kept (h : Kept q s) (k n : Nat) : Kept q (farCnt s k n) := by
  unfold farCnt
  repeat' first | with_reducible assumption | with_reducible apply cntAdd_kept

theorem boltTold_kept (h : Kept q s) (who code : Nat) (more : List Octet) : Kept q (boltTold s who code more) := by
  unfold boltTold
  repeat' first | with_reducible assumption | with_reducible apply sendEvent_kept | with_reducible apply farCnt_kept

theorem doubtOnly_kept (h : Kept q s) (code res : Nat) : Kept q (doubtOnly s code res) := by
  unfold doubtOnly
  repeat' first | with_reducible assumption | with_reducible apply sendEvent_kept | with_reducible apply farCnt_kept

theorem reinTold_kept (h : Kept q s) (entry : Bool) (minVin : Nat) : Kept q (reinTold s entry minVin) := by
  unfold reinTold
  repeat' first
    | (lift_lets; intro) | with_reducible assumption | with_reducible apply sendEvent_kept
    | with_reducible apply jnlEvent_kept

theorem alertUpdate_kept (h : Kept q s) : Kept q (alertUpdate s) := by
  unfold alertUpdate
  repeat' first
    | (lift_lets; intro) | with_reducible assumption | intro _
    | (simp only [Kept.mk_iff]; with_reducible refine Kept.facts ?_)

theorem reinEnd_kept (h : Kept q s) : Kept q (reinEnd s) := by
  unfold reinEnd
  repeat' first
    | (lift_lets; intro) | with_reducible assumption | (simp only [Kept.mk_iff]; with_reducible refine Kept.facts ?_)
    | with_reducible apply reinTold_kept | with_reducible apply alertUpdate_kept | split

theorem boltEgress_kept (h : Kept q s) (p : Nat) : Kept q (boltEgress s p) := by
  unfold boltEgress
  repeat' first
    | (lift_lets; intro) | with_reducible assumption | intro _
    | (simp only [Kept.mk_iff]; with_reducible refine Kept.facts ?_) | with_reducible apply egressProcess_kept
    | with_reducible apply farCnt_kept | with_reducible apply frameDiscard_kept | with_reducible apply txAbort_kept
    | (with_reducible refine Kept.fold (fun _ _ _ => ?_) ?_) | (with_reducible refine Kept.ite (fun _ => ?_) (fun _ => ?_))
    | split | dsimp +zetaDelta only

theorem msixSend_kept (h : Kept q s) (p vec : Nat) : Kept q (msixSend s p vec) := by
  unfold msixSend
  repeat' first
    | (lift_lets; intro) | with_reducible assumption | intro _
    | (simp only [Kept.mk_iff]; with_reducible refine Kept.facts ?_) | with_reducible apply gplCnt_kept
    | (with_reducible refine Kept.ite (fun _ => ?_) (fun _ => ?_))

theorem descBolted_kept (h : Kept q s) (p r : Nat) (d : Desc) : Kept q (descBolted s p r d) := by
  unfold descBolted
  repeat' first
    | (lift_lets; intro) | with_reducible assumption | with_reducible apply finish_kept | with_reducible apply complete_kept
    | (with_reducible refine Kept.ite (fun _ => ?_) (fun _ => ?_))

theorem waitingEnd_kept (h : Kept q s) (w : Waiting) (status : Nat) : Kept q (waitingEnd s w status) := by
  unfold waitingEnd
  repeat' first | with_reducible assumption | with_reducible apply finish_kept | with_reducible apply complete_kept | split

theorem boltHost_kept (h : Kept q s) (p : Nat) : Kept q (boltHost s p) := by
  unfold boltHost
  repeat' first
    | (lift_lets; intro) | with_reducible assumption | intro _
    | (simp only [Kept.mk_iff]; with_reducible refine Kept.facts ?_) | with_reducible apply descBolted_kept
    | with_reducible apply finish_kept | with_reducible apply waitingEnd_kept | with_reducible apply setRing_kept
    | with_reducible apply withdraw_kept | (with_reducible refine Kept.fold (fun _ _ _ => ?_) ?_) | dsimp +zetaDelta only

theorem boltPorts_kept (h : Kept q s) : Kept q (boltPorts s) := by
  unfold boltPorts
  repeat' first
    | with_reducible assumption | with_reducible apply hobDiscard_kept
    | (with_reducible refine Kept.fold (fun _ _ _ => ?_) ?_) | (with_reducible refine Kept.ite (fun _ => ?_) (fun _ => ?_))

theorem boltParts_kept (h : Kept q s) (ps : List Nat) : Kept q (boltParts s ps) := by
  unfold boltParts
  repeat' first
    | (lift_lets; intro) | with_reducible assumption | with_reducible apply boltEgress_kept
    | with_reducible apply msixSend_kept | with_reducible apply boltHost_kept | with_reducible apply boltPorts_kept
    | (with_reducible refine Kept.fold (fun _ _ _ => ?_) ?_)

theorem boltDevice_kept (h : Kept q s) (a1 : Nat) : Kept q (boltDevice s a1) := by
  unfold boltDevice
  split
  · exact doubtOnly_kept h _ _
  · exact boltTold_kept (jnlBolt_kept (boltParts_kept ((reinEnd_kept h).bolted rfl rfl) _) _ _) _ _ _

theorem deleteEnt_kept (h : Kept q s) (k : Nat) (e : SEntry) : Kept q (deleteEnt s k e) := by
  unfold deleteEnt
  repeat' first
    | (lift_lets; intro) | with_reducible assumption | (simp only [Kept.mk_iff]; with_reducible refine Kept.facts ?_)

theorem doubtRepair_kept (h : Kept q s) (code res : Nat) : Kept q (doubtRepair s code res).2 := by
  unfold doubtRepair
  repeat' first
    | (lift_lets; intro) | with_reducible assumption | intro _ | with_reducible refine Kept.setSegs ?_
    | (simp only [Kept.mk_iff]; with_reducible refine Kept.facts ?_) | with_reducible apply deleteEnt_kept | split

theorem setPbolt_kept (h : Kept q s) (p : Nat) (x : PBolt) : Kept q (setPbolt s p x) := by
  unfold setPbolt
  repeat' first
    | (lift_lets; intro) | with_reducible assumption | (simp only [Kept.mk_iff]; with_reducible refine Kept.facts ?_)

theorem boltPartition_kept (h : Kept q s) (p code res : Nat) (more : List Octet) :
    Kept q (boltPartition s p code res more) := by
  unfold boltPartition
  repeat' first
    | (lift_lets; intro) | with_reducible assumption | intro _ | with_reducible apply setPbolt_kept
    | with_reducible apply jnlBolt_kept | with_reducible apply boltTold_kept | with_reducible apply doubtOnly_kept
    | with_reducible apply boltParts_kept | (with_reducible refine Kept.ite (fun _ => ?_) (fun _ => ?_))

theorem doubt_kept (h : Kept q s) (code : Nat) (part : Option Nat) (res : Nat) : Kept q (doubt s code part res) := by
  unfold doubt
  repeat' first
    | (lift_lets; intro) | with_reducible assumption | with_reducible apply boltDevice_kept
    | with_reducible apply doubtRepair_kept | with_reducible apply doubtOnly_kept | with_reducible apply boltPartition_kept
    | (with_reducible refine Kept.pair (by assumption) ?_) | (with_reducible refine Kept.fold (fun _ _ _ => ?_) ?_)
    | (with_reducible refine Kept.ite (fun _ => ?_) (fun _ => ?_)) | split | dsimp +zetaDelta only

theorem doubtGone_kept (h : Kept q s) (p : Nat) (t : Doubt → Bool) : Kept q (doubtGone s p t) := by
  unfold doubtGone
  repeat' first | (lift_lets; intro) | with_reducible assumption | intro _ | with_reducible apply setPbolt_kept

theorem jnlGenesis_kept (h : Kept q s) : Kept q (jnlGenesis s) := by
  unfold jnlGenesis
  repeat' first
    | (lift_lets; intro) | with_reducible assumption | intro _
    | (simp only [Kept.mk_iff]; with_reducible refine Kept.facts ?_) | with_reducible apply devWrite_kept

theorem boltLeave_kept (h : Kept q s) (p : Nat) : Kept q (boltLeave s p) := by
  unfold boltLeave
  repeat' first
    | (lift_lets; intro) | with_reducible assumption | intro _ | with_reducible apply setPbolt_kept
    | with_reducible apply linkDownNow_kept | with_reducible apply boltPartition_kept
    | (with_reducible refine Kept.fold (fun _ _ _ => ?_) ?_) | split

theorem boltClear_kept (h : Kept q s) (p agent : Nat) : Kept q (boltClear s p agent) := by
  unfold boltClear
  repeat' first
    | with_reducible assumption | with_reducible apply violate_kept | with_reducible apply boltLeave_kept
    | (with_reducible refine Kept.ite (fun _ => ?_) (fun _ => ?_))

theorem hostCmd_kept (h : Kept q s) (c : CmdRef) (opc : Nat) {f : State → State} (hf : ∀ s, Kept q s → Kept q (f s)) :
    Kept q (hostCmd s c opc f) := by
  unfold hostCmd
  repeat' first
    | (lift_lets; intro) | with_reducible assumption | with_reducible apply finish_kept | with_reducible apply hf
    | (with_reducible refine Kept.ite (fun _ => ?_) (fun _ => ?_))

theorem jnlCert_kept (h : Kept q s) (c : CmdRef) (addr len : Nat) : Kept q (jnlCert s c addr len) := by
  unfold jnlCert
  repeat' first
    | (lift_lets; intro) | with_reducible assumption | with_reducible apply finish_kept
    | with_reducible apply hostWrite_kept

theorem execJnlCert_kept (h : Kept q s) (c : CmdRef) (addr : BitVec 64) (len : BitVec 32) :
    OutKept q (execJnlCert c addr len s) := by
  unfold execJnlCert
  repeat' first
    | (lift_lets; intro) | with_reducible assumption | intro _ | simp only [OutKept.next_iff]
    | with_reducible apply jnlCert_kept | with_reducible apply hostCmd_kept

theorem jnlSeal_kept (h : Kept q s) (c : CmdRef) : Kept q (jnlSeal s c) := by
  unfold jnlSeal
  repeat' first
    | with_reducible assumption | with_reducible apply sealBlock_kept | with_reducible apply finish_kept
    | (with_reducible refine Kept.ite (fun _ => ?_) (fun _ => ?_))

theorem execJnlSeal_kept (h : Kept q s) (c : CmdRef) : OutKept q (execJnlSeal c s) := by
  unfold execJnlSeal
  repeat' first
    | (lift_lets; intro) | with_reducible assumption | intro _ | simp only [OutKept.next_iff]
    | with_reducible apply hostCmd_kept | with_reducible apply jnlSeal_kept

theorem srcSearchHost_kept (h : Kept q s) (c : CmdRef) (k kaddr raddr : Nat) :
    Kept q (srcSearchHost s c k kaddr raddr) := by
  unfold srcSearchHost
  repeat' first
    | (lift_lets; intro) | with_reducible assumption | with_reducible apply finish_kept
    | with_reducible apply runSearch_kept | with_reducible apply foreignIf_kept | with_reducible apply hostWrite_kept
    | (with_reducible refine Kept.ite (fun _ => ?_) (fun _ => ?_))

theorem srcSearch_kept (h : Kept q s) (w : Issuer) (k kaddr raddr : Nat) : Kept q (srcSearch s w k kaddr raddr) := by
  unfold srcSearch
  repeat' first
    | (lift_lets; intro) | with_reducible assumption | intro _ | with_reducible apply srcSearchHost_kept
    | with_reducible apply helperSyl_keeps | with_reducible apply srchStart_kept | with_reducible apply hostCmd_kept
    | with_reducible apply issueOne_kept | split

theorem noDoubts_kept (h : Kept q s) : Kept q (noDoubts s) := h.upd rfl rfl rfl rfl rfl

theorem raisedDoubts_kept (h : Kept q s) : Kept q (raisedDoubts s) := by
  unfold raisedDoubts
  repeat' first
    | (lift_lets; intro) | with_reducible assumption | (simp only [Kept.mk_iff]; with_reducible refine Kept.facts ?_)
    | with_reducible apply doubt_kept | with_reducible apply noDoubts_kept
    | (with_reducible refine Kept.fold (fun _ _ _ => ?_) ?_)

theorem flushBank_kept (h : Kept q s) (c : CmdRef) (b : Nat) : Kept q (flushBank s c b) := by
  unfold flushBank
  repeat' first
    | (lift_lets; intro) | with_reducible assumption | with_reducible apply deleteEnt_kept
    | with_reducible apply finish_kept | (with_reducible refine Kept.fold (fun _ _ _ => ?_) ?_)

theorem srcFlush_kept (h : Kept q s) (c : CmdRef) (b : Nat) : Kept q (srcFlush s c b) := by
  unfold srcFlush
  repeat' first
    | (lift_lets; intro) | with_reducible assumption | intro _
    | (simp only [Kept.mk_iff]; with_reducible refine Kept.facts ?_) | with_reducible apply flushBank_kept
    | with_reducible apply finish_kept | with_reducible apply foreignIf_kept
    | (with_reducible refine Kept.ite (fun _ => ?_) (fun _ => ?_))

theorem srcDelete_kept (h : Kept q s) (c : CmdRef) (a2 : Nat) : Kept q (srcDelete s c a2) := by
  unfold srcDelete
  repeat' first
    | (lift_lets; intro) | with_reducible assumption | with_reducible apply deleteEnt_kept
    | with_reducible apply finish_kept | with_reducible apply handleFor_kept
    | (with_reducible refine Kept.pair (by assumption) ?_) | split

theorem srcRead_kept (h : Kept q s) (c : CmdRef) (a2 addr : Nat) : Kept q (srcRead s c a2 addr) := by
  unfold srcRead
  repeat' first
    | (lift_lets; intro) | with_reducible assumption | intro _ | with_reducible apply finish_kept
    | with_reducible apply handleFor_kept | with_reducible apply hostWrite_kept
    | (with_reducible refine Kept.pair (by assumption) ?_) | split

theorem srcSetad_kept (h : Kept q s) (w : Issuer) (a2 ad raddr : Nat) : Kept q (srcSetad s w a2 ad raddr) := by
  unfold srcSetad
  repeat' first
    | (lift_lets; intro) | with_reducible assumption | intro _ | with_reducible apply helperSyl_keeps
    | with_reducible apply finish_kept | with_reducible apply setAd_kept | with_reducible apply hostCmd_kept
    | with_reducible apply setadStart_kept | with_reducible apply issueOne_kept | split

theorem setBankEnts_kept (h : Kept q s) (b : Nat) (l : Map SEntry) : Kept q (setBankEnts s b l) := by
  unfold setBankEnts
  repeat' first
    | (lift_lets; intro) | with_reducible assumption | intro _
    | (simp only [Kept.mk_iff]; with_reducible refine Kept.facts ?_)

theorem freeHandle_kept (h : Kept q s) : Kept q (freeHandle s).2 := by
  unfold freeHandle
  repeat' first | with_reducible assumption | with_reducible apply drawFree_kept

theorem insertImage_kept (h : Kept q s) (p b : Nat) (img : List Octet) : Kept q (insertImage s p b img).2.2 := by
  unfold insertImage
  repeat' first
    | (lift_lets; intro) | with_reducible assumption | intro _
    | (simp only [Kept.mk_iff]; with_reducible refine Kept.facts ?_) | with_reducible apply setBankEnts_kept
    | with_reducible apply freeHandle_kept | with_reducible apply srcCnt_kept
    | (with_reducible refine Kept.ite (fun _ => ?_) (fun _ => ?_)) | split

theorem srcInsert_kept (h : Kept q s) (c : CmdRef) (b addr : Nat) : Kept q (srcInsert s c b addr) := by
  unfold srcInsert
  repeat' first
    | (lift_lets; intro) | with_reducible assumption | intro _
    | (simp only [Kept.mk_iff]; with_reducible refine Kept.facts ?_) | with_reducible apply finish_kept
    | with_reducible apply foreignIf_kept | with_reducible apply insertImage_kept
    | (with_reducible refine Kept.ite (fun _ => ?_) (fun _ => ?_))

theorem resumeInserts_kept (h : Kept q s) (a0 a2 : Nat) : Kept q (resumeInserts a0 s a2) := by
  induction a0 generalizing s  with
  | zero =>
    unfold resumeInserts
    repeat' first | with_reducible assumption
  | succ _ ih =>
    unfold resumeInserts
    repeat' first
      | (lift_lets; intro) | with_reducible assumption | (simp only [Kept.mk_iff]; with_reducible refine Kept.facts ?_)
      | with_reducible apply ih | with_reducible apply flushBank_kept | with_reducible apply finish_kept
      | with_reducible apply insertImage_kept | (with_reducible refine Kept.ite (fun _ => ?_) (fun _ => ?_)) | split
      | dsimp +zetaDelta only

theorem rebalanceUp_kept (h : Kept q s) (l : Map SEntry) (slots grp : Nat) : Kept q (rebalanceUp s l slots grp).2 := by
  unfold rebalanceUp
  repeat' first | (lift_lets; intro) | with_reducible assumption | intro _ | with_reducible apply drawFree_kept | split

theorem rebalance_kept (h : Kept q s) (b : Nat) : Kept q (rebalance s b) := by
  unfold rebalance
  repeat' first
    | (lift_lets; intro) | with_reducible assumption | intro _
    | (simp only [Kept.mk_iff]; with_reducible refine Kept.facts ?_) | with_reducible apply resumeInserts_kept
    | with_reducible apply setBankEnts_kept | with_reducible apply rebalanceUp_kept
    | (with_reducible refine Kept.ite (fun _ => ?_) (fun _ => ?_))

theorem searchScrub_kept (h : Kept q s) (b slot : Nat) (found : ScrubFind) : Kept q (searchScrub s b slot found) := by
  unfold searchScrub
  repeat' first
    | (lift_lets; intro) | with_reducible assumption | (simp only [Kept.mk_iff]; with_reducible refine Kept.facts ?_)
    | with_reducible apply wrDev_kept | split

theorem execDoubtSource_kept (h : Kept q s) (code : BitVec 8) (part : Option (BitVec 3)) (res : BitVec 32) :
    OutKept q (execDoubtSource code part res s) := by
  unfold execDoubtSource
  repeat' first | with_reducible assumption | simp only [OutKept.next_iff] | with_reducible apply doubt_kept

theorem execSearchScrub_kept (h : Kept q s) (bank : BitVec 6) (slot : BitVec 12) (found : ScrubFind) :
    OutKept q (execSearchScrub bank slot found s) := by
  unfold execSearchScrub
  repeat' first
    | with_reducible assumption | simp only [OutKept.next_iff] | with_reducible apply doubt_kept
    | with_reducible apply searchScrub_kept | split

theorem execForceBoltInput_kept (h : Kept q s) : OutKept q (execForceBoltInput s) := by
  unfold execForceBoltInput
  repeat' first
    | (lift_lets; intro) | with_reducible assumption | (simp only [Kept.mk_iff]; with_reducible refine Kept.facts ?_)
    | simp only [OutKept.next_iff] | with_reducible apply boltDevice_kept
    | (with_reducible refine Kept.ite (fun _ => ?_) (fun _ => ?_))

theorem sealTimer_kept (h : Kept q s) : Kept q (sealTimer s) := by
  unfold sealTimer
  repeat' first
    | with_reducible assumption | with_reducible apply sealBlock_kept
    | (with_reducible refine Kept.ite (fun _ => ?_) (fun _ => ?_))

theorem execSealTimer_kept (h : Kept q s) : OutKept q (execSealTimer s) := by
  unfold execSealTimer
  repeat' first | with_reducible assumption | simp only [OutKept.next_iff] | with_reducible apply sealTimer_kept

theorem heartbeat_kept (h : Kept q s) : Kept q (heartbeat s) := by
  unfold heartbeat
  repeat' first
    | with_reducible assumption | with_reducible apply jnlCnt_kept | with_reducible apply jnlEvent_kept
    | (with_reducible refine Kept.ite (fun _ => ?_) (fun _ => ?_))

theorem execHeartbeat_kept (h : Kept q s) : OutKept q (execHeartbeat s) := by
  unfold execHeartbeat
  repeat' first | with_reducible assumption | simp only [OutKept.next_iff] | with_reducible apply heartbeat_kept

theorem execJournalRecordEntry_kept (h : Kept q s) : OutKept q (execJournalRecordEntry s) := by
  unfold execJournalRecordEntry
  repeat' first | with_reducible assumption | simp only [OutKept.next_iff] | with_reducible apply journalEntry_kept

end Sys2Proof.Machine
end

