-- ==== Sys2Proof/Laws/KeptCmds.lean ====
section
/-! SUPPORT. What the host commands of framer, scheduler, buffers and tasks, and deliveries keep (Sys2Proof.Machine.Kept): one lemma per operation, each citing those of the operations it calls. -/

namespace Sys2Proof.Machine

variable {q : List Instr} {s : State}

theorem tblCnt_kept (h : Kept q s) (p k : Nat) : Kept q (tblCnt s p k) := by
  unfold tblCnt
  repeat' first | with_reducible assumption | with_reducible apply pcnt_kept

theorem holdEnter_kept (h : Kept q s) (t a : Nat) : Kept q (holdEnter s t a) := by
  unfold holdEnter
  repeat' first | with_reducible assumption | with_reducible apply updTask_kept | split

theorem bufOp_kept (h : Kept q s) (agent : Nat) (x : BufArgs) : Kept q (bufOp s agent x).2.2 := by
  unfold bufOp
  repeat' first
    | (lift_lets; intro) | with_reducible assumption | intro _ | with_reducible apply unhold_kept
    | with_reducible apply bufGive_kept | with_reducible apply bufDrop_kept | with_reducible apply bufFreeOp_kept
    | with_reducible apply bufShare_kept | with_reducible apply loseSeg_kept | with_reducible apply holdEnter_kept
    | with_reducible apply bufAlloc_kept | (with_reducible refine Kept.pair (by assumption) ?_)
    | (with_reducible refine Kept.ite (fun _ => ?_) (fun _ => ?_)) | split | dsimp +zetaDelta only

theorem bufStart_kept (h : Kept q s) (t tag rd : Nat) (x : BufArgs) : Kept q (bufStart t tag rd x s) := by
  unfold bufStart
  repeat' first | with_reducible assumption | with_reducible apply startTag_kept | with_reducible apply bufOp_kept

theorem sylBuf_keeps (t : Thr) (g : Gd) (rd ra rb : BitVec 5) (md : BitVec 8) : Syl.Keeps (sylBuf t g rd ra rb md) := by
  unfold sylBuf
  repeat' first
    | (lift_lets; intro) | with_reducible assumption | intro _ | with_reducible apply helperSyl_keeps
    | with_reducible apply bufStart_kept

theorem stixFor_kept (h : Kept q s) (p i : Nat) : Kept q (stixFor s p i).2 := by
  unfold stixFor
  repeat' first
    | (lift_lets; intro) | with_reducible assumption | with_reducible apply violate_kept
    | (with_reducible refine Kept.ite₂ (fun _ => ?_) (fun _ => ?_))

theorem stfQuery_kept (h : Kept q s) (c : CmdRef) (i addr : Nat) : Kept q (stfQuery s c i addr) := by
  unfold stfQuery
  repeat' first
    | (lift_lets; intro) | with_reducible assumption | intro _ | with_reducible apply finish_kept
    | with_reducible apply stixFor_kept | with_reducible apply hostWrite_kept
    | (with_reducible refine Kept.pair (by assumption) ?_) | split

theorem freeRws_kept (h : Kept q s) (i : Nat) : Kept q (freeRws s i) := by
  unfold freeRws
  repeat' first
    | (lift_lets; intro) | with_reducible assumption | with_reducible apply dropRewrite_kept
    | with_reducible apply setConn_kept | (with_reducible refine Kept.fold (fun _ _ _ => ?_) ?_)

theorem freeAsm_kept (h : Kept q s) (i d : Nat) : Kept q (freeAsm s i d) := by
  unfold freeAsm
  repeat' first
    | (lift_lets; intro) | with_reducible assumption | intro _ | with_reducible apply setStfDir_kept
    | with_reducible apply endUse_kept | split

theorem closeConn_kept (h : Kept q s) (i : Nat) : Kept q (closeConn s i) := by
  unfold closeConn
  repeat' first
    | (lift_lets; intro) | with_reducible assumption | intro _ | with_reducible apply freeRws_kept
    | with_reducible apply setConn_kept | with_reducible apply freeAsm_kept

theorem laFlush_kept (h : Kept q s) (r : Nat) : Kept q (laFlush s r) := by
  unfold laFlush
  repeat' first
    | (lift_lets; intro) | with_reducible assumption | with_reducible apply setRing_kept | with_reducible apply cqPush_kept
    | split

theorem supplyDone_kept (h : Kept q s) (r status : Nat) (kind result len : Nat) (more : Bool) (detail : List Octet) :
    Kept q (supplyDone s r status kind result len more detail) := by
  unfold supplyDone
  repeat' first
    | (lift_lets; intro) | with_reducible assumption | with_reducible apply setRing_kept | with_reducible apply cqPush_kept
    | with_reducible apply cqReserve_kept | split

theorem dropShort_kept (h : Kept q s) (a0 a2 a3 : Nat) : Kept q (dropShort a0 s a2 a3) := by
  induction a0 generalizing s  with
  | zero =>
    unfold dropShort
    repeat' first | with_reducible assumption
  | succ _ ih =>
    unfold dropShort
    repeat' first
      | with_reducible assumption | with_reducible apply ih | with_reducible apply supplyDone_kept
      | (with_reducible refine Kept.ite (fun _ => ?_) (fun _ => ?_)) | split

theorem laRecord_kept (h : Kept q s) (p : Nat) (rec : List Octet) : Kept q (laRecord s p rec) := by
  unfold laRecord
  repeat' first
    | (lift_lets; intro) | with_reducible assumption | intro _ | with_reducible apply setRing_kept
    | with_reducible apply tblCnt_kept | with_reducible apply laFlush_kept | with_reducible apply hostWrite_kept
    | with_reducible apply cqReserve_kept | with_reducible apply dropShort_kept
    | (with_reducible refine Kept.ite (fun _ => ?_) (fun _ => ?_)) | split | dsimp +zetaDelta only

theorem onFaulted_kept (h : Kept q s) (c : CmdRef) (opc fid : Nat) {f : State → TaskLoc → Nat → State}
    (hf : ∀ l n, Kept q (f s l n)) : Kept q (onFaulted s c opc fid f) := by
  unfold onFaulted
  split
  · exact hf _ _
  · exact finish_kept h _ _ _ _ _

theorem execTaskRetry_kept (h : Kept q s) (c : CmdRef) (fid : BitVec 16) : OutKept q (execTaskRetry c fid s) := by
  unfold execTaskRetry
  repeat' first
    | (lift_lets; intro) | with_reducible assumption | intro _ | simp only [OutKept.next_iff]
    | with_reducible apply finish_kept | with_reducible apply onFaulted_kept | with_reducible apply hostCmd_kept
    | with_reducible apply taskRetry_kept | (with_reducible refine Kept.ite (fun _ => ?_) (fun _ => ?_))

theorem bufQuery_kept (h : Kept q s) (c : CmdRef) (a addr : Nat) : Kept q (bufQuery s c a addr) := by
  unfold bufQuery
  repeat' first
    | (lift_lets; intro) | with_reducible assumption | with_reducible apply ptrCheck_kept
    | with_reducible apply violate_kept | with_reducible apply finish_kept | with_reducible apply badPointer_kept
    | with_reducible apply bufCnt_kept | with_reducible apply hostWrite_kept
    | (with_reducible refine Kept.pair (by assumption) ?_) | (with_reducible refine Kept.ite (fun _ => ?_) (fun _ => ?_))
    | split

theorem execBufQuery_kept (h : Kept q s) (c : CmdRef) (ptr : BitVec 40) (addr : BitVec 64) :
    OutKept q (execBufQuery c ptr addr s) := by
  unfold execBufQuery
  repeat' first
    | (lift_lets; intro) | with_reducible assumption | intro _ | simp only [OutKept.next_iff]
    | with_reducible apply bufQuery_kept | with_reducible apply hostCmd_kept

theorem resyncNow_kept (h : Kept q s) (i flags : Nat) (x0 x1 : SyncDir) : Kept q (resyncNow s i flags x0 x1) := by
  unfold resyncNow
  repeat' first
    | (lift_lets; intro) | with_reducible assumption | intro _ | with_reducible apply freeRws_kept
    | with_reducible apply setConn_kept | with_reducible apply freeAsm_kept
    | (with_reducible refine Kept.ite (fun _ => ?_) (fun _ => ?_))

theorem stfWait_kept (h : Kept q s) (c : CmdRef) (w : WaitWhat) : Kept q (stfWait s c w) := by
  unfold stfWait
  repeat' first
    | (lift_lets; intro) | with_reducible assumption | (simp only [Kept.mk_iff]; with_reducible refine Kept.facts ?_)

theorem stfResync_kept (h : Kept q s) (c : CmdRef) (i : Nat) (ops : List Octet) : Kept q (stfResync s c i ops) := by
  unfold stfResync
  repeat' first
    | (lift_lets; intro) | with_reducible assumption | intro _ | with_reducible apply resyncNow_kept
    | with_reducible apply stfWait_kept | with_reducible apply finish_kept | with_reducible apply stixFor_kept
    | (with_reducible refine Kept.pair (by assumption) ?_) | (with_reducible refine Kept.ite (fun _ => ?_) (fun _ => ?_))
    | split

theorem execStfResync_kept (h : Kept q s) (c : CmdRef) (stix : BitVec 32) (flags : BitVec 8) (d0 d1 : BitVec 128) :
    OutKept q (execStfResync c stix flags d0 d1 s) := by
  unfold execStfResync
  repeat' first
    | (lift_lets; intro) | with_reducible assumption | intro _ | simp only [OutKept.next_iff]
    | with_reducible apply stfResync_kept | with_reducible apply hostCmd_kept

theorem execStfQuery_kept (h : Kept q s) (c : CmdRef) (stix : BitVec 32) (addr : BitVec 64) :
    OutKept q (execStfQuery c stix addr s) := by
  unfold execStfQuery
  repeat' first
    | (lift_lets; intro) | with_reducible assumption | intro _ | simp only [OutKept.next_iff]
    | with_reducible apply stfQuery_kept | with_reducible apply hostCmd_kept

theorem bufHost_kept (h : Kept q s) (c : CmdRef) (x : BufArgs) : Kept q (bufHost s c x) := by
  unfold bufHost
  repeat' first
    | with_reducible assumption | with_reducible apply finish_kept | with_reducible apply bufOp_kept
    | with_reducible apply bufCnt_kept | (with_reducible refine Kept.ite (fun _ => ?_) (fun _ => ?_))

theorem bufRequest_kept (h : Kept q s) (w : Issuer) (x : BufArgs) : Kept q (bufRequest s w x) := by
  unfold bufRequest
  repeat' first
    | (lift_lets; intro) | with_reducible assumption | intro _ | with_reducible apply bufHost_kept
    | with_reducible apply helperSyl_keeps | with_reducible apply bufStart_kept | with_reducible apply hostCmd_kept
    | with_reducible apply bufOp_kept | with_reducible apply issueOne_kept | split

theorem execBufDrop_kept (h : Kept q s) (w : Issuer) (ptr : BitVec 40) : OutKept q (execBufDrop w ptr s) := by
  unfold execBufDrop
  repeat' first | with_reducible assumption | simp only [OutKept.next_iff] | with_reducible apply bufRequest_kept

theorem execHspQuery_kept (h : Kept q s) (c : CmdRef) (k : BitVec 16) (addr : BitVec 64) :
    OutKept q (execHspQuery c k addr s) := by
  unfold execHspQuery
  repeat' first
    | (lift_lets; intro) | with_reducible assumption | intro _ | simp only [OutKept.next_iff]
    | with_reducible apply hspQuery_kept | with_reducible apply hostCmd_kept

theorem segRead_kept (h : Kept q s) (c : CmdRef) (part index addr : Nat) : Kept q (segRead s c part index addr) := by
  unfold segRead
  repeat' first
    | (lift_lets; intro) | with_reducible assumption | with_reducible apply finish_kept
    | with_reducible apply hostWrite_kept | (with_reducible refine Kept.ite (fun _ => ?_) (fun _ => ?_))

theorem execSegRead_kept (h : Kept q s) (c : CmdRef) (part : BitVec 8) (index : BitVec 16) (addr : BitVec 64) :
    OutKept q (execSegRead c part index addr s) := by
  unfold execSegRead
  repeat' first
    | (lift_lets; intro) | with_reducible assumption | intro _ | simp only [OutKept.next_iff]
    | with_reducible apply segRead_kept | with_reducible apply hostCmd_kept

theorem hltFdrop_kept (h : Kept q s) (c : CmdRef) (w : Nat) : Kept q (hltFdrop s c w) := by
  unfold hltFdrop
  repeat' first
    | with_reducible assumption | with_reducible apply dropTicketAll_kept | with_reducible apply finish_kept
    | with_reducible apply completeTicket_kept | (with_reducible refine Kept.ite (fun _ => ?_) (fun _ => ?_)) | split

theorem execHltFdrop_kept (h : Kept q s) (c : CmdRef) (ticket : BitVec 40) : OutKept q (execHltFdrop c ticket s) := by
  unfold execHltFdrop
  repeat' first
    | (lift_lets; intro) | with_reducible assumption | intro _ | simp only [OutKept.next_iff]
    | with_reducible apply hostCmd_kept | with_reducible apply hltFdrop_kept

theorem schPost_kept (h : Kept q s) (c : CmdRef) (dom prio entry : Nat) (preempt : Bool) (buf len : Nat) (arg : W36) (delay : Nat) :
    Kept q (schPost s c dom prio entry preempt buf len arg delay) := by
  unfold schPost
  repeat' first
    | (lift_lets; intro) | with_reducible assumption | with_reducible apply finish_kept | with_reducible apply postTask_kept

theorem execSchPost_kept (h : Kept q s) (c : CmdRef) (dom : BitVec 16) (prio flags : BitVec 8) (entry : BitVec 16) (delay : BitVec 32) (buf : BitVec 40) (len : BitVec 16) (arg : BitVec 40) :
    OutKept q (execSchPost c dom prio flags entry delay buf len arg s) := by
  unfold execSchPost
  repeat' first
    | (lift_lets; intro) | with_reducible assumption | intro _ | simp only [OutKept.next_iff]
    | with_reducible apply schPost_kept | with_reducible apply hostCmd_kept

theorem bufReclaim_kept (h : Kept q s) (c : CmdRef) (a : Nat) : Kept q (bufReclaim s c a) := by
  unfold bufReclaim
  repeat' first
    | (lift_lets; intro) | with_reducible assumption | with_reducible apply ptrCheck_kept | with_reducible apply finish_kept
    | with_reducible apply freeBuf_kept | with_reducible apply badPointer_kept | with_reducible apply unholdAll_kept
    | with_reducible apply bufCnt_kept | (with_reducible refine Kept.pair (by assumption) ?_)
    | (with_reducible refine Kept.ite (fun _ => ?_) (fun _ => ?_)) | split

theorem execBufReclaim_kept (h : Kept q s) (c : CmdRef) (ptr : BitVec 40) : OutKept q (execBufReclaim c ptr s) := by
  unfold execBufReclaim
  repeat' first
    | (lift_lets; intro) | with_reducible assumption | intro _ | simp only [OutKept.next_iff]
    | with_reducible apply bufReclaim_kept | with_reducible apply hostCmd_kept

theorem execBufShare_kept (h : Kept q s) (w : Issuer) (ptr : BitVec 40) : OutKept q (execBufShare w ptr s) := by
  unfold execBufShare
  repeat' first | with_reducible assumption | simp only [OutKept.next_iff] | with_reducible apply bufRequest_kept

theorem segWrite_kept (h : Kept q s) (c : CmdRef) (part index desc : Nat) : Kept q (segWrite s c part index desc) := by
  unfold segWrite
  repeat' first
    | (lift_lets; intro) | with_reducible assumption | intro _ | with_reducible refine Kept.setSegs ?_
    | with_reducible apply finish_kept | with_reducible apply hostViolate_kept
    | (with_reducible refine Kept.ite (fun _ => ?_) (fun _ => ?_))

theorem execSegWrite_kept (h : Kept q s) (c : CmdRef) (part : BitVec 8) (index : BitVec 16) (desc : BitVec 128) :
    OutKept q (execSegWrite c part index desc s) := by
  unfold execSegWrite
  repeat' first
    | (lift_lets; intro) | with_reducible assumption | intro _ | simp only [OutKept.next_iff]
    | with_reducible apply segWrite_kept | with_reducible apply hostCmd_kept

theorem execHspAcquire_kept (h : Kept q s) (c : CmdRef) (k : BitVec 16) (prio flags : BitVec 8) (timeout : BitVec 32) :
    OutKept q (execHspAcquire c k prio flags timeout s) := by
  unfold execHspAcquire
  repeat' first
    | (lift_lets; intro) | with_reducible assumption | intro _ | simp only [OutKept.next_iff]
    | with_reducible apply hspAcquire_kept | with_reducible apply hostCmd_kept

theorem execHspRelease_kept (h : Kept q s) (c : CmdRef) (k : BitVec 16) (flags : BitVec 8) :
    OutKept q (execHspRelease c k flags s) := by
  unfold execHspRelease
  repeat' first
    | (lift_lets; intro) | with_reducible assumption | intro _ | simp only [OutKept.next_iff]
    | with_reducible apply hspRelease_kept | with_reducible apply hostCmd_kept

theorem execBufAlloc_kept (h : Kept q s) (w : Issuer) (pool prio flags : BitVec 8) :
    OutKept q (execBufAlloc w pool prio flags s) := by
  unfold execBufAlloc
  repeat' first
    | (lift_lets; intro) | with_reducible assumption | simp only [OutKept.next_iff] | with_reducible apply bufRequest_kept

theorem taskRecall_kept (h : Kept q s) (c : CmdRef) (agent : Nat) : Kept q (taskRecall s c agent) := by
  unfold taskRecall
  repeat' first
    | with_reducible assumption | with_reducible apply finish_kept | with_reducible apply pendFault_kept
    | (with_reducible refine Kept.ite (fun _ => ?_) (fun _ => ?_)) | split

theorem execTaskRecall_kept (h : Kept q s) (c : CmdRef) (agent : BitVec 16) : OutKept q (execTaskRecall c agent s) := by
  unfold execTaskRecall
  repeat' first
    | (lift_lets; intro) | with_reducible assumption | intro _ | simp only [OutKept.next_iff]
    | with_reducible apply taskRecall_kept | with_reducible apply hostCmd_kept

theorem execSrcSearch_kept (h : Kept q s) (w : Issuer) (profile : BitVec 8) (kaddr raddr : BitVec 64) :
    OutKept q (execSrcSearch w profile kaddr raddr s) := by
  unfold execSrcSearch
  repeat' first
    | with_reducible assumption | simp only [OutKept.next_iff] | with_reducible apply srcSearch_kept
    | with_reducible apply raisedDoubts_kept | with_reducible apply noDoubts_kept

theorem execSrcFlush_kept (h : Kept q s) (c : CmdRef) (bank : BitVec 8) : OutKept q (execSrcFlush c bank s) := by
  unfold execSrcFlush
  repeat' first
    | (lift_lets; intro) | with_reducible assumption | intro _ | simp only [OutKept.next_iff]
    | with_reducible apply hostCmd_kept | with_reducible apply srcFlush_kept

theorem segPresent_kept (h : Kept q s) (c : CmdRef) (part index p : Nat) : Kept q (segPresent s c part index p) := by
  unfold segPresent
  repeat' first
    | (lift_lets; intro) | with_reducible assumption | intro _ | with_reducible refine Kept.setSegs ?_
    | (simp only [Kept.mk_iff]; with_reducible refine Kept.facts ?_) | with_reducible apply finish_kept
    | (with_reducible refine Kept.ite (fun _ => ?_) (fun _ => ?_))

theorem execSegPresent_kept (h : Kept q s) (c : CmdRef) (part : BitVec 8) (index : BitVec 16) (p : BitVec 8) :
    OutKept q (execSegPresent c part index p s) := by
  unfold execSegPresent
  repeat' first
    | (lift_lets; intro) | with_reducible assumption | intro _ | simp only [OutKept.next_iff]
    | with_reducible apply segPresent_kept | with_reducible apply hostCmd_kept

theorem execTaskResume_kept (h : Kept q s) (c : CmdRef) (fid : BitVec 16) : OutKept q (execTaskResume c fid s) := by
  unfold execTaskResume
  repeat' first
    | (lift_lets; intro) | with_reducible assumption | intro _ | simp only [OutKept.next_iff]
    | with_reducible apply taskResume_kept | with_reducible apply finish_kept | with_reducible apply onFaulted_kept
    | with_reducible apply hostCmd_kept

theorem hltQuery_kept (h : Kept q s) (c : CmdRef) (d addr : Nat) : Kept q (hltQuery s c d addr) := by
  unfold hltQuery
  repeat' first
    | (lift_lets; intro) | with_reducible assumption | intro _ | with_reducible apply violate_kept
    | with_reducible apply finish_kept | with_reducible apply hostWrite_kept
    | (with_reducible refine Kept.ite (fun _ => ?_) (fun _ => ?_))

theorem execHltQuery_kept (h : Kept q s) (c : CmdRef) (dom : BitVec 16) (addr : BitVec 64) :
    OutKept q (execHltQuery c dom addr s) := by
  unfold execHltQuery
  repeat' first
    | (lift_lets; intro) | with_reducible assumption | intro _ | simp only [OutKept.next_iff]
    | with_reducible apply hltQuery_kept | with_reducible apply hostCmd_kept

theorem execSrcDelete_kept (h : Kept q s) (c : CmdRef) (handle : BitVec 32) : OutKept q (execSrcDelete c handle s) := by
  unfold execSrcDelete
  repeat' first
    | (lift_lets; intro) | with_reducible assumption | intro _ | simp only [OutKept.next_iff]
    | with_reducible apply srcDelete_kept | with_reducible apply hostCmd_kept

theorem execTaskKill_kept (h : Kept q s) (c : CmdRef) (fid : BitVec 16) : OutKept q (execTaskKill c fid s) := by
  unfold execTaskKill
  repeat' first
    | (lift_lets; intro) | with_reducible assumption | intro _ | simp only [OutKept.next_iff]
    | with_reducible apply finish_kept | with_reducible apply taskKill_kept | with_reducible apply onFaulted_kept
    | with_reducible apply hostCmd_kept

theorem stfClose_kept (h : Kept q s) (c : CmdRef) (i : Nat) : Kept q (stfClose s c i) := by
  unfold stfClose
  repeat' first
    | with_reducible assumption | with_reducible apply stfWait_kept | with_reducible apply finish_kept
    | with_reducible apply closeConn_kept | with_reducible apply stixFor_kept
    | (with_reducible refine Kept.pair (by assumption) ?_) | (with_reducible refine Kept.ite (fun _ => ?_) (fun _ => ?_))
    | split

theorem execStfClose_kept (h : Kept q s) (c : CmdRef) (stix : BitVec 32) : OutKept q (execStfClose c stix s) := by
  unfold execStfClose
  repeat' first
    | (lift_lets; intro) | with_reducible assumption | intro _ | simp only [OutKept.next_iff]
    | with_reducible apply stfClose_kept | with_reducible apply hostCmd_kept

theorem execSrcRead_kept (h : Kept q s) (c : CmdRef) (handle : BitVec 32) (addr : BitVec 64) :
    OutKept q (execSrcRead c handle addr s) := by
  unfold execSrcRead
  repeat' first
    | (lift_lets; intro) | with_reducible assumption | intro _ | simp only [OutKept.next_iff]
    | with_reducible apply srcRead_kept | with_reducible apply hostCmd_kept

theorem execBufGive_kept (h : Kept q s) (w : Issuer) (ptr : BitVec 40) (agent : BitVec 16) :
    OutKept q (execBufGive w ptr agent s) := by
  unfold execBufGive
  repeat' first | with_reducible assumption | simp only [OutKept.next_iff] | with_reducible apply bufRequest_kept

theorem execBufFree_kept (h : Kept q s) (w : Issuer) (ptr : BitVec 40) : OutKept q (execBufFree w ptr s) := by
  unfold execBufFree
  repeat' first | with_reducible assumption | simp only [OutKept.next_iff] | with_reducible apply bufRequest_kept

theorem execSrcSetad_kept (h : Kept q s) (w : Issuer) (handle : BitVec 32) (ad : BitVec 128) (raddr : BitVec 64) :
    OutKept q (execSrcSetad w handle ad raddr s) := by
  unfold execSrcSetad
  repeat' first | with_reducible assumption | simp only [OutKept.next_iff] | with_reducible apply srcSetad_kept

theorem targetForeign_kept (h : Kept q s) (p : Nat) (x : OpenDir) : Kept q (targetForeign s p x) := by
  unfold targetForeign
  repeat' first | (lift_lets; intro) | with_reducible assumption | intro _ | with_reducible apply foreignIf_kept

theorem stfOpen_kept (h : Kept q s) (c : CmdRef) (i v : Nat) (flags d0 d1 : Nat) :
    Kept q (stfOpen s c i v flags d0 d1) := by
  unfold stfOpen
  repeat' first
    | (lift_lets; intro) | with_reducible assumption | intro _ | with_reducible apply violate_kept
    | with_reducible apply finish_kept | with_reducible apply targetForeign_kept | with_reducible apply setConn_kept
    | (with_reducible refine Kept.ite (fun _ => ?_) (fun _ => ?_))

theorem execStfOpen_kept (h : Kept q s) (c : CmdRef) (stix : BitVec 32) (service flags : BitVec 8) (d0 d1 : BitVec 128) :
    OutKept q (execStfOpen c stix service flags d0 d1 s) := by
  unfold execStfOpen
  repeat' first
    | (lift_lets; intro) | with_reducible assumption | intro _ | simp only [OutKept.next_iff]
    | with_reducible apply stfOpen_kept | with_reducible apply hostCmd_kept

theorem execSrcInsert_kept (h : Kept q s) (c : CmdRef) (bank : BitVec 8) (addr : BitVec 64) :
    OutKept q (execSrcInsert c bank addr s) := by
  unfold execSrcInsert
  repeat' first
    | (lift_lets; intro) | with_reducible assumption | intro _ | simp only [OutKept.next_iff]
    | with_reducible apply srcInsert_kept | with_reducible apply hostCmd_kept

theorem stfSettle_kept (h : Kept q s) : Kept q (stfSettle s) := by
  unfold stfSettle
  repeat' first
    | (lift_lets; intro) | with_reducible assumption | intro _
    | (simp only [Kept.mk_iff]; with_reducible refine Kept.facts ?_) | with_reducible apply stfClose_kept
    | with_reducible apply stfResync_kept | (with_reducible refine Kept.fold (fun _ _ _ => ?_) ?_) | split
    | dsimp +zetaDelta only

theorem trackStall_kept (h : Kept q s) (p : Nat) : Kept q (trackStall s p) := by
  unfold trackStall
  repeat' first
    | (lift_lets; intro) | with_reducible assumption | (simp only [Kept.mk_iff]; with_reducible refine Kept.facts ?_)
    | with_reducible apply unstall_kept | (with_reducible refine Kept.ite (fun _ => ?_) (fun _ => ?_)) | split

theorem segSettle_kept (h : Kept q s) : Kept q (segSettle s) := by
  unfold segSettle
  repeat' first
    | (lift_lets; intro) | with_reducible assumption | intro _
    | (simp only [Kept.mk_iff]; with_reducible refine Kept.facts ?_) | with_reducible apply finish_kept
    | (with_reducible refine Kept.fold (fun _ _ _ => ?_) ?_) | dsimp +zetaDelta only

theorem execDelayEntryDue_kept (h : Kept q s) (part : BitVec 3) : OutKept q (execDelayEntryDue part s) := by
  unfold execDelayEntryDue
  repeat' first | with_reducible assumption | simp only [OutKept.next_iff] | with_reducible apply delayDue_kept

theorem execFarAccessComplete_kept (h : Kept q s) (ctx : CtxRef) (tag : BitVec 2) (pcieError : Bool) :
    OutKept q (execFarAccessComplete ctx tag pcieError s) := by
  unfold execFarAccessComplete
  repeat' first
    | with_reducible assumption | simp only [OutKept.next_iff] | with_reducible apply segSettle_kept
    | with_reducible apply farComplete_kept

theorem deliverRun_kept (h : Kept q s) (a0 a1 : Nat) (a2 a3 : Nat) (a4 : List Octet) (a5 : Bool) (a6 : List Octet) (a7 a9 : Nat) :
    Kept q (deliverRun a0 a1 a2 a3 a4 a5 a6 a7 s a9).2.2 := by
  induction a7 generalizing s a9 with
  | zero =>
    unfold deliverRun
    repeat' first | with_reducible assumption
  | succ _ ih =>
    unfold deliverRun
    repeat' first
      | (lift_lets; intro) | with_reducible assumption | intro _ | with_reducible apply ih
      | with_reducible apply supplyDone_kept | with_reducible apply hostWrite_kept | split

theorem helperComplete_kept (h : Kept q s) (r : CtxRef) (tag : Nat) : Kept q (helperComplete s r tag) := by
  unfold helperComplete
  repeat' first
    | with_reducible assumption | with_reducible apply completeTag_kept
    | (with_reducible refine Kept.ite (fun _ => ?_) (fun _ => ?_)) | split

theorem execAcquireTimeout_kept (h : Kept q s) (c : CmdRef) : OutKept q (execAcquireTimeout c s) := by
  unfold execAcquireTimeout
  repeat' first | with_reducible assumption | simp only [OutKept.next_iff] | with_reducible apply acquireTimeout_kept

theorem execTicketRelease_kept (h : Kept q s) (dom : BitVec 12) : OutKept q (execTicketRelease dom s) := by
  unfold execTicketRelease
  repeat' first
    | with_reducible assumption | simp only [OutKept.next_iff] | with_reducible apply ticketRelease_kept
    | with_reducible apply stfSettle_kept

theorem execAsyncFault_kept (h : Kept q s) (t : Thr) : OutKept q (execAsyncFault t s) := by
  unfold execAsyncFault
  repeat' first | with_reducible assumption | simp only [OutKept.next_iff] | with_reducible apply asyncTake_kept

theorem execTicketIssue_kept (h : Kept q s) (part : BitVec 3) : OutKept q (execTicketIssue part s) := by
  unfold execTicketIssue
  repeat' first | with_reducible assumption | simp only [OutKept.next_iff] | with_reducible apply ticketIssueNow_kept

theorem execDeadlineKill_kept (h : Kept q s) (ticket : BitVec 14) : OutKept q (execDeadlineKill ticket s) := by
  unfold execDeadlineKill
  repeat' first | with_reducible assumption | simp only [OutKept.next_iff] | with_reducible apply deadlineKill_kept

theorem execPreemption_kept (h : Kept q s) (part : BitVec 3) : OutKept q (execPreemption part s) := by
  unfold execPreemption
  repeat' first | with_reducible assumption | simp only [OutKept.next_iff] | with_reducible apply preemptOne_kept

theorem inFlightTimeout_kept (h : Kept q s) (c : CmdRef) : Kept q (inFlightTimeout s c) := by
  unfold inFlightTimeout
  repeat' first
    | (lift_lets; intro) | with_reducible assumption | (simp only [Kept.mk_iff]; with_reducible refine Kept.facts ?_)
    | with_reducible apply waitingEnd_kept | (with_reducible refine Kept.ite (fun _ => ?_) (fun _ => ?_)) | split

theorem execInFlightTimeout_kept (h : Kept q s) (c : CmdRef) : OutKept q (execInFlightTimeout c s) := by
  unfold execInFlightTimeout
  repeat' first | with_reducible assumption | simp only [OutKept.next_iff] | with_reducible apply inFlightTimeout_kept

theorem execHelperCompletion_kept (h : Kept q s) (ctx : CtxRef) (tag : BitVec 2) :
    OutKept q (execHelperCompletion ctx tag s) := by
  unfold execHelperCompletion
  repeat' first | with_reducible assumption | simp only [OutKept.next_iff] | with_reducible apply helperComplete_kept

theorem laTimeout_kept (h : Kept q s) (r : Nat) : Kept q (laTimeout s r) := by
  unfold laTimeout
  repeat' first
    | (lift_lets; intro) | with_reducible assumption | with_reducible apply laFlush_kept
    | (with_reducible refine Kept.ite (fun _ => ?_) (fun _ => ?_))

theorem execLearnAgeFlush_kept (h : Kept q s) (ring : BitVec 12) : OutKept q (execLearnAgeFlush ring s) := by
  unfold execLearnAgeFlush
  repeat' first | with_reducible assumption | simp only [OutKept.next_iff] | with_reducible apply laTimeout_kept

theorem execLockWatchdog_kept (h : Kept q s) (k : BitVec 15) : OutKept q (execLockWatchdog k s) := by
  unfold execLockWatchdog
  repeat' first
    | with_reducible assumption | simp only [OutKept.next_iff] | exact OutKept.fault
    | (with_reducible refine OutKept.ite (fun _ => ?_) (fun _ => ?_)) | with_reducible apply lockWatchdog_kept

theorem execDispatch_kept (h : Kept q s) (part : BitVec 3) : OutKept q (execDispatch part s) := by
  unfold execDispatch
  repeat' first | with_reducible assumption | simp only [OutKept.next_iff] | with_reducible apply dispatchOne_kept

theorem execLatenessCheck_kept (h : Kept q s) (dom : BitVec 12) : OutKept q (execLatenessCheck dom s) := by
  unfold execLatenessCheck
  repeat' first
    | with_reducible assumption | simp only [OutKept.next_iff] | with_reducible apply stfSettle_kept
    | with_reducible apply latenessCheck_kept

theorem partitionStall_kept (h : Kept q s) (p : Nat) : Kept q (partitionStall s p) := by
  unfold partitionStall
  repeat' first
    | (lift_lets; intro) | with_reducible assumption | intro _
    | (simp only [Kept.mk_iff]; with_reducible refine Kept.facts ?_) | with_reducible apply sendEvent_kept
    | with_reducible apply trackStall_kept | with_reducible apply doubt_kept | with_reducible apply wrFlag_kept
    | with_reducible apply schCnt_kept | (with_reducible refine Kept.ite (fun _ => ?_) (fun _ => ?_)) | split
    | dsimp +zetaDelta only

theorem execPartitionStall_kept (h : Kept q s) (part : BitVec 3) : OutKept q (execPartitionStall part s) := by
  unfold execPartitionStall
  repeat' first | with_reducible assumption | simp only [OutKept.next_iff] | with_reducible apply partitionStall_kept

theorem execTimerExpiry_kept (h : Kept q s) (t : Thr) : OutKept q (execTimerExpiry t s) := by
  unfold execTimerExpiry
  repeat' first | with_reducible assumption | simp only [OutKept.next_iff] | with_reducible apply timerDue_kept

theorem execRebalance_kept (h : Kept q s) (bank : BitVec 6) : OutKept q (execRebalance bank s) := by
  unfold execRebalance
  repeat' first | with_reducible assumption | simp only [OutKept.next_iff] | with_reducible apply rebalance_kept

theorem inUseTimeout_kept (h : Kept q s) (c : CmdRef) : Kept q (inUseTimeout s c) := by
  unfold inUseTimeout
  repeat' first
    | (lift_lets; intro) | with_reducible assumption | (simp only [Kept.mk_iff]; with_reducible refine Kept.facts ?_)
    | with_reducible apply finish_kept | (with_reducible refine Kept.ite (fun _ => ?_) (fun _ => ?_)) | split

theorem execInUseTimeout_kept (h : Kept q s) (c : CmdRef) : OutKept q (execInUseTimeout c s) := by
  unfold execInUseTimeout
  repeat' first | with_reducible assumption | simp only [OutKept.next_iff] | with_reducible apply inUseTimeout_kept

theorem execSlotHoldExpiry_kept (h : Kept q s) (channel : BitVec 12) (slot : BitVec 4) :
    OutKept q (execSlotHoldExpiry channel slot s) := by
  unfold execSlotHoldExpiry
  repeat' first | with_reducible assumption | simp only [OutKept.next_iff] | with_reducible apply slotHoldExpiry_kept

end Sys2Proof.Machine
end

