-- ==== Sys2Proof/Laws/KeptTables.lean ====
section
/-! SUPPORT. What tables, classification and framing keep (Sys2Proof.Machine.Kept): one lemma per operation, each citing those of the operations it calls. -/

namespace Sys2Proof.Machine

variable {q : List Instr} {s : State}

theorem tableOk_kept (h : Kept q s) (p agent tbl : Nat) : Kept q (tableOk s p agent tbl).2 := by
  unfold tableOk
  repeat' first
    | (lift_lets; intro) | with_reducible assumption | with_reducible apply violate_kept
    | (with_reducible refine Kept.ite₂ (fun _ => ?_) (fun _ => ?_)) | split

theorem tTouch_kept (h : Kept q s) (loc : TLoc) : Kept q (tTouch s loc) := by
  unfold tTouch
  repeat' first
    | (lift_lets; intro) | with_reducible assumption | (simp only [Kept.mk_iff]; with_reducible refine Kept.facts ?_)

theorem tblLookup_kept (h : Kept q s) (p : Nat) (blk : List Octet) (k : TKey) : Kept q (tblLookup s p blk k).2 := by
  unfold tblLookup
  repeat' first
    | (lift_lets; intro) | with_reducible assumption | intro _ | with_reducible apply tTouch_kept
    | with_reducible apply tblCnt_kept | (with_reducible refine Kept.ite (fun _ => ?_) (fun _ => ?_)) | split

theorem tRemove_kept (h : Kept q s) (loc : TLoc) : Kept q (tRemove s loc) := by
  unfold tRemove
  repeat' first
    | (lift_lets; intro) | with_reducible assumption | (simp only [Kept.mk_iff]; with_reducible refine Kept.facts ?_)

theorem tUpdate_kept (h : Kept q s) (loc : TLoc) (data : List Octet) (static : Bool) :
    Kept q (tUpdate s loc data static) := by
  unfold tUpdate
  repeat' first
    | (lift_lets; intro) | with_reducible assumption | (simp only [Kept.mk_iff]; with_reducible refine Kept.facts ?_)

theorem insertPfx_kept (h : Kept q s) (p : Nat) (k : TKey) (dec : Bool) (own len : Nat) (pfx data : List Octet) :
    Kept q (insertPfx s p k dec own len pfx data).2.2 := by
  unfold insertPfx
  repeat' first
    | (lift_lets; intro) | with_reducible assumption | intro _
    | (simp only [Kept.mk_iff]; with_reducible refine Kept.facts ?_) | split

theorem tInsert_kept (h : Kept q s) (p : Nat) (k : TKey) (data : List Octet) (static : Bool) :
    Kept q (tInsert s p k data static).2.2 := by
  unfold tInsert
  repeat' first
    | (lift_lets; intro) | with_reducible assumption | (simp only [Kept.mk_iff]; with_reducible refine Kept.facts ?_)
    | with_reducible apply insertPfx_kept | split | dsimp +zetaDelta only

theorem tblChange_kept (h : Kept q s) (p : Nat) (blk : List Octet) (k : TKey) : Kept q (tblChange s p blk k).2 := by
  unfold tblChange
  repeat' first
    | (lift_lets; intro) | with_reducible assumption | intro _ | with_reducible apply tRemove_kept
    | with_reducible apply tUpdate_kept | with_reducible apply tInsert_kept
    | (with_reducible refine Kept.ite₂ (fun _ => ?_) (fun _ => ?_)) | split | dsimp +zetaDelta only

theorem tblCommand_kept (h : Kept q s) (p agent : Nat) (blk : List Octet) : Kept q (tblCommand s p agent blk).2 := by
  unfold tblCommand
  repeat' first
    | (lift_lets; intro) | with_reducible assumption | intro _ | with_reducible apply tableOk_kept
    | with_reducible apply tblLookup_kept | with_reducible apply tblChange_kept | with_reducible apply tblCnt_kept
    | (with_reducible refine Kept.ite₂ (fun _ => ?_) (fun _ => ?_)) | split

theorem tblStart_kept (h : Kept q s) (t tag off : Nat) (blk : List Octet) : Kept q (tblStart t tag off blk s) := by
  unfold tblStart
  repeat' first | with_reducible assumption | with_reducible apply tblCommand_kept | with_reducible apply startTag_kept

theorem sylTbl_keeps (t : Thr) (g : Gd) (a2 ra a4 : BitVec 5) (md : BitVec 8) : Syl.Keeps (sylTbl t g a2 ra a4 md) := by
  unfold sylTbl
  repeat' first
    | (lift_lets; intro) | with_reducible assumption | intro _ | with_reducible apply helperSyl_keeps
    | with_reducible apply tblStart_kept

theorem sweepRestart_kept (h : Kept q s) (l2 : Bool) : Kept q (sweepRestart s l2) := by
  unfold sweepRestart
  repeat' first
    | (lift_lets; intro) | with_reducible assumption | (simp only [Kept.mk_iff]; with_reducible refine Kept.facts ?_)

theorem l2Lookup_kept (h : Kept q s) (p : Nat) (d : List Octet) : Kept q (l2Lookup s p d).2 := by
  unfold l2Lookup
  repeat' first
    | (lift_lets; intro) | with_reducible assumption | intro _ | with_reducible apply tTouch_kept
    | with_reducible apply tblCnt_kept | (with_reducible refine Kept.ite₂ (fun _ => ?_) (fun _ => ?_)) | split

theorem decLookup_kept (h : Kept q s) (p c : Nat) (rec pay : List Octet) : Kept q (decLookup s p c rec pay).2 := by
  unfold decLookup
  repeat' first | (lift_lets; intro) | with_reducible assumption | with_reducible apply tblCnt_kept | split

theorem flowReport_kept (h : Kept q s) (p kind index : Nat) (e : FlowEnt) : Kept q (flowReport s p kind index e) := by
  unfold flowReport
  repeat' first
    | with_reducible assumption | with_reducible apply laRecord_kept
    | (with_reducible refine Kept.ite (fun _ => ?_) (fun _ => ?_))

theorem flowLearn_kept (h : Kept q s) (p c : Nat) (rec : List Octet) : Kept q (flowLearn s p c rec).2 := by
  unfold flowLearn
  repeat' first
    | (lift_lets; intro) | with_reducible assumption | with_reducible apply flowReport_kept
    | with_reducible apply tInsert_kept | (with_reducible refine Kept.ite₂ (fun _ => ?_) (fun _ => ?_)) | split

theorem flowLookup_kept (h : Kept q s) (p c : Nat) (rec : List Octet) : Kept q (flowLookup s p c rec).2 := by
  unfold flowLookup
  repeat' first
    | (lift_lets; intro) | with_reducible assumption | intro _ | with_reducible apply tTouch_kept
    | with_reducible apply tblCnt_kept | (with_reducible refine Kept.ite₂ (fun _ => ?_) (fun _ => ?_)) | split

theorem routeLookup_kept (h : Kept q s) (p rt : Nat) (rec d : List Octet) : Kept q (routeLookup s p rt rec d).2 := by
  unfold routeLookup
  repeat' first
    | (lift_lets; intro) | with_reducible assumption | intro _ | with_reducible apply tblCnt_kept
    | (with_reducible refine Kept.ite₂ (fun _ => ?_) (fun _ => ?_)) | split

theorem postLearn_kept (h : Kept q s) (p port : Nat) (d : List Octet) : Kept q (postLearn s p port d) := by
  unfold postLearn
  repeat' first
    | (lift_lets; intro) | with_reducible assumption | (simp only [Kept.mk_iff]; with_reducible refine Kept.facts ?_)
    | with_reducible apply tblCnt_kept | (with_reducible refine Kept.ite (fun _ => ?_) (fun _ => ?_))

theorem classifyItem_kept (h : Kept q s) (a1 : Item) : Kept q (classifyItem s a1).2 := by
  unfold classifyItem
  dsimp only
  repeat' first
    | with_reducible assumption | with_reducible apply l2Lookup_kept | with_reducible apply runSearch_kept
    | with_reducible apply decLookup_kept | with_reducible apply flowLearn_kept | with_reducible apply flowLookup_kept
    | with_reducible apply routeLookup_kept | with_reducible apply postLearn_kept
    | (with_reducible refine Kept.ite (fun _ => ?_) (fun _ => ?_))
    | (with_reducible refine Kept.ite₂ (fun _ => ?_) (fun _ => ?_)) | split

theorem segDivert_kept (h : Kept q s) (g : Segmt) (reason : Nat) (aux : List Octet) :
    Kept q (segDivert s g reason aux) := by
  unfold segDivert
  repeat' first
    | (lift_lets; intro) | with_reducible assumption | intro _ | with_reducible apply stfCnt_kept
    | with_reducible apply slowPath_kept

theorem markState_kept (h : Kept q s) (i st : Nat) (reason dir : Nat) : Kept q (markState s i st reason dir) := by
  unfold markState
  repeat' first | (lift_lets; intro) | with_reducible assumption | with_reducible apply setConn_kept

theorem segSlow_kept (h : Kept q s) (g : Segmt) (reason : Nat) (aux : List Octet) : Kept q (segSlow s g reason aux) := by
  unfold segSlow
  repeat' first | with_reducible assumption | with_reducible apply segDivert_kept | with_reducible apply markState_kept

theorem toClassifier_kept (h : Kept q s) (it : Item) : Kept q (toClassifier s it) := by
  unfold toClassifier
  repeat' first
    | (lift_lets; intro) | with_reducible assumption | (simp only [Kept.mk_iff]; with_reducible refine Kept.facts ?_)

theorem cutMessage_kept (h : Kept q s) (g : Segmt) (m : CutMsg) (oseq : BitVec 32) (olen : Nat) :
    Kept q (cutMessage s g m oseq olen) := by
  unfold cutMessage
  repeat' first
    | (lift_lets; intro) | with_reducible assumption | intro _ | with_reducible apply toClassifier_kept
    | with_reducible apply setStfDir_kept | with_reducible apply stfCnt_kept

theorem asmBuffer_kept (h : Kept q s) (v : Nat) (asm : Option Nat) : Kept q (asmBuffer s v asm).2 := by
  unfold asmBuffer
  repeat' first | with_reducible assumption | with_reducible apply bufAlloc_kept | split

theorem markHobbled_kept (h : Kept q s) (g : Segmt) : Kept q (markHobbled s g) := by
  unfold markHobbled
  repeat' first
    | with_reducible assumption | with_reducible apply updStfDir_kept
    | (with_reducible refine Kept.ite (fun _ => ?_) (fun _ => ?_))

theorem keepAsm_kept (h : Kept q s) (x : StfDir) (asm : Option Nat) (kept : List Octet) :
    Kept q (keepAsm s x asm kept).2 := by
  unfold keepAsm
  repeat' first
    | with_reducible assumption | with_reducible apply endUse_kept | with_reducible apply devWrite_kept
    | (with_reducible refine Kept.ite₂ (fun _ => ?_) (fun _ => ?_)) | split

theorem ackTask_kept (h : Kept q s) (g : Segmt) : Kept q (ackTask s g) := by
  unfold ackTask
  repeat' first
    | (lift_lets; intro) | with_reducible assumption | intro _ | with_reducible apply toClassifier_kept
    | with_reducible apply stfCnt_kept

theorem segEnd_kept (h : Kept q s) (g : Segmt) (cut advanced : Bool) : Kept q (segEnd s g cut advanced) := by
  unfold segEnd
  repeat' first
    | (lift_lets; intro) | with_reducible assumption | with_reducible apply endUse_kept | with_reducible apply ackTask_kept
    | with_reducible apply stfCnt_kept | (with_reducible refine Kept.ite (fun _ => ?_) (fun _ => ?_))

theorem cutLoop_kept (h : Kept q s) (v n : Nat) (asm : Option Nat) (k : Nat) (l : List Octet) (ms : List CutMsg) :
    Kept q (cutLoop v n s asm k l ms).st := by
  induction n generalizing s asm k l ms with
  | zero => exact h
  | succ n ih =>
    unfold cutLoop
    split
    · exact h
    · dsimp only
      have hb := asmBuffer_kept h v asm
      split
      · exact hb
      · split
        · exact hb
        · exact devWrite_kept hb _ _
        · split
          · exact ih (devWrite_kept hb _ _) _ _ _ _
          · exact devWrite_kept hb _ _

theorem acceptPlain_kept (h : Kept q s) (a1 : Segmt) (a2 : Bool) : Kept q (acceptPlain s a1 a2) := by
  unfold acceptPlain
  repeat' first
    | (lift_lets; intro) | with_reducible assumption | intro _ | with_reducible apply endUse_kept
    | with_reducible apply stfCnt_kept | with_reducible apply cutMessage_kept | with_reducible apply keepAsm_kept
    | with_reducible apply setStfDir_kept | with_reducible apply segSlow_kept | with_reducible apply segEnd_kept
    | with_reducible apply cutLoop_kept | with_reducible apply markHobbled_kept
    | (with_reducible refine Kept.fold (fun _ _ _ => ?_) ?_) | (with_reducible refine Kept.ite (fun _ => ?_) (fun _ => ?_))

theorem recStream_kept (h : Kept q s) (g : Segmt) (x : StfDir) (a : Nat) : Kept q (recStream s g x a) := by
  unfold recStream
  repeat' first
    | (lift_lets; intro) | with_reducible assumption | intro _ | with_reducible apply setStfDir_kept
    | with_reducible apply devWrite_kept

theorem expAt_kept (h : Kept q s) (g : Segmt) (n : Nat) : Kept q (expAt s g n) := by
  unfold expAt
  repeat' first | (lift_lets; intro) | with_reducible assumption | with_reducible apply setStfDir_kept

/-- The state a TLS segment ends with keeps it. -/
def TlsEnd.Keeps (q : List Instr) : TlsEnd → Prop
  | .fine r => Kept q r.st
  | .badRecord r _ => Kept q r.st
  | .framing r => Kept q r.st
  | .auth r => Kept q r.st
  | .empty => True

theorem tlsRecordEnd_keeps {r : TlsRun} (h : Kept q r.st) (g : Segmt) : (tlsRecordEnd g r).Keeps q := by
  unfold tlsRecordEnd
  dsimp only
  split
  · exact setStfDir_kept h _ _ _
  · split
    · exact setStfDir_kept h _ _ _
    · split
      · exact setStfDir_kept h _ _ _
      · split
        · trivial
        · have hm : ∀ (ms : List CutMsg) (e : BitVec 32) (a : BitVec 32 × State), Kept q a.2 →
              Kept q (ms.foldl (fun (acc : BitVec 32 × State) m => (e, cutMessage acc.2 g m acc.1 (e - acc.1).toNat)) a).2 :=
            fun ms e a ha => Kept.foldPair (fun a m ha => cutMessage_kept ha _ _ _ _) ha
          split
          · exact setStfDir_kept (keepAsm_kept (hm _ _ _ (setStfDir_kept (cutLoop_kept h _ _ _ _ _ _) _ _ _)) _ _ _) _ _ _
          · exact setStfDir_kept (hm _ _ _ (setStfDir_kept (cutLoop_kept h _ _ _ _ _ _) _ _ _)) _ _ _

theorem tlsLoop_keeps {r : TlsRun} (h : Kept q r.st) (g : Segmt) (n : Nat) : (tlsLoop g n r).Keeps q := by
  induction n generalizing r with
  | zero => exact h
  | succ n ih =>
    unfold tlsLoop
    dsimp only
    split
    · exact h
    · split
      · split
        · trivial
        · have hb := Kept.pair (by assumption) (asmBuffer_kept h (conn r.st g.stix).service ((conn r.st g.stix).dir g.dir).asm)
          have key : ∀ r' : TlsRun, Kept q r'.st →
              (match tlsRecordEnd g r' with | .fine r => tlsLoop g n r | e => e).Keeps q := by
            intro r' h'
            have hr := tlsRecordEnd_keeps h' g
            split
            · rename_i e
              rw [e] at hr
              exact ih hr
            · exact hr
          split
          · exact key _ (recStream_kept hb _ _ _)
          · exact recStream_kept hb _ _ _
      · split
        · exact setStfDir_kept h _ _ _
        · split
          · exact h
          · exact ih (setStfDir_kept h _ _ _)

theorem acceptTls_kept (h : Kept q s) (a1 : Segmt) (a2 : Bool) : Kept q (acceptTls s a1 a2) := by
  unfold acceptTls
  dsimp only
  have hd := endUse_kept (stfCnt_kept h a1.item.part 4 1) (portAgent a1.item.port) a1.item.buf
  have hb := asmBuffer_kept (markHobbled_kept h a1) (conn (markHobbled s a1) a1.stix).service
    ((conn (markHobbled s a1) a1.stix).dir a1.dir).asm
  split
  · exact hd
  · rename_i e
    rw [e] at hb
    have hl := fun (x : StfDir) => tlsLoop_keeps (r := { st := setStfDir _ a1.stix a1.dir x, left := a1.pay })
      (setStfDir_kept hb a1.stix a1.dir x) a1 (2 * a1.pay.length + 2)
    split <;> rename_i e' <;> (try exact hd) <;> have := e' ▸ hl _
    · exact segEnd_kept (expAt_kept this _ _) _ _ _
    · exact segSlow_kept (expAt_kept this _ _) _ _ _
    · exact segSlow_kept (expAt_kept this _ _) _ _ _
    · exact segDivert_kept (markState_kept (expAt_kept this _ _) _ _ _ _) _ _ _

theorem answer_kept (h : Kept q s) (g : Segmt) (r : Rewrite) : Kept q (answer s g r) := by
  unfold answer
  repeat' first
    | (lift_lets; intro) | with_reducible assumption | intro _ | with_reducible apply jnlItem_kept
    | with_reducible apply queueSegments_kept | with_reducible apply shareInt_kept | with_reducible apply endUse_kept
    | with_reducible apply stfCnt_kept | (with_reducible refine Kept.ite (fun _ => ?_) (fun _ => ?_))

theorem retire_kept (h : Kept q s) (i f : Nat) (a : BitVec 32) : Kept q (retire s i f a) := by
  unfold retire
  repeat' first
    | (lift_lets; intro) | with_reducible assumption | intro _ | with_reducible apply dropRewrite_kept
    | with_reducible apply setConn_kept | (with_reducible refine Kept.fold (fun _ _ _ => ?_) ?_)

theorem takeAck_kept (h : Kept q s) (g : Segmt) : Kept q (takeAck s g).2 := by
  unfold takeAck
  repeat' first
    | (lift_lets; intro) | with_reducible assumption | intro _ | with_reducible apply setConn_kept
    | with_reducible apply retire_kept

theorem fastSegment_kept (h : Kept q s) (g : Segmt) : Kept q (fastSegment s g) := by
  unfold fastSegment
  repeat' first
    | (lift_lets; intro) | with_reducible assumption | intro _ | with_reducible apply acceptPlain_kept
    | with_reducible apply segSlow_kept | with_reducible apply acceptTls_kept | with_reducible apply segDivert_kept
    | with_reducible apply answer_kept | with_reducible apply takeAck_kept | with_reducible apply ackTask_kept
    | (with_reducible refine Kept.ite (fun _ => ?_) (fun _ => ?_)) | split

theorem tblExec_kept (h : Kept q s) (c : CmdRef) (addr : Nat) (op : Option Nat) : Kept q (tblExec s c addr op) := by
  unfold tblExec
  repeat' first
    | (lift_lets; intro) | with_reducible assumption | intro _ | with_reducible apply tblCommand_kept
    | with_reducible apply finish_kept | with_reducible apply hostWrite_kept

theorem execTblExec_kept (h : Kept q s) (c : CmdRef) (addr : BitVec 64) : OutKept q (execTblExec c addr s) := by
  unfold execTblExec
  repeat' first
    | (lift_lets; intro) | with_reducible assumption | intro _ | simp only [OutKept.next_iff]
    | with_reducible apply tblExec_kept | with_reducible apply hostCmd_kept

theorem framedSegment_kept (h : Kept q s) (g : Segmt) : Kept q (framedSegment s g) := by
  unfold framedSegment
  repeat' first
    | (lift_lets; intro) | with_reducible assumption | intro _ | with_reducible apply noServiceDrop_kept
    | with_reducible apply segDivert_kept | with_reducible apply fastSegment_kept | with_reducible apply markState_kept
    | (with_reducible refine Kept.ite (fun _ => ?_) (fun _ => ?_))

theorem frameOne_kept (h : Kept q s) (x : Parsed) : ∀ t, frameOne s x = some t → Kept q t := by
  intro t e
  unfold frameOne at e
  dsimp only at e
  split at e
  · cases e
    exact toClassifier_kept h _
  · split at e
    · cases e
    · cases e
      exact framedSegment_kept (tTouch_kept h _) _

theorem framingFirst_kept (h : Kept q s) (l before : List Parsed) (held : List Nat) :
    Kept q (framingFirst s l before held) := by
  induction l generalizing before held with
  | nil => exact h
  | cons x l ih =>
    have hs : Kept q { s with par := { s.par with parsed := before ++ l } } := h.upd rfl rfl rfl rfl rfl
    unfold framingFirst
    dsimp only
    split
    · split
      · exact ih _ _
      · split
        · exact frameOne_kept hs _ _ (by assumption)
        · exact ih _ _
    · cases e : frameOne { s with par := { s.par with parsed := before ++ l } } x with
      | none => exact h
      | some t => exact frameOne_kept hs _ _ e

theorem segmentFraming_kept (h : Kept q s) : Kept q (segmentFraming s) := by
  unfold segmentFraming
  repeat' first | with_reducible assumption | with_reducible apply framingFirst_kept

theorem execSegmentFraming_kept (h : Kept q s) : OutKept q (execSegmentFraming s) := by
  unfold execSegmentFraming
  repeat' first
    | with_reducible assumption | simp only [OutKept.next_iff] | with_reducible apply raisedDoubts_kept | with_reducible apply noDoubts_kept
    | with_reducible apply segmentFraming_kept

theorem setTblReq_kept (h : Kept q s) (p : Nat) (l : List Octet) : Kept q (setTblReq s p l) := by
  unfold setTblReq
  repeat' first
    | with_reducible assumption | with_reducible apply wrPart_kept | (with_reducible refine Kept.fold (fun _ _ _ => ?_) ?_)

theorem tblReqRun_kept (h : Kept q s) (p : Nat) (op : Option Nat) : Kept q (tblReqRun s p op) := by
  unfold tblReqRun
  repeat' first
    | (lift_lets; intro) | with_reducible assumption | intro _
    | (simp only [Kept.mk_iff]; with_reducible refine Kept.facts ?_) | with_reducible apply tblCommand_kept
    | with_reducible apply setTblReq_kept

theorem tblRequest_kept (h : Kept q s) (w : Issuer) (op blk : Nat) : Kept q (tblRequest s w op blk) := by
  unfold tblRequest
  repeat' first
    | (lift_lets; intro) | with_reducible assumption | intro _ | with_reducible apply helperSyl_keeps
    | with_reducible apply tblReqRun_kept | with_reducible apply tblExec_kept | with_reducible apply hostCmd_kept
    | with_reducible apply tblStart_kept | with_reducible apply issueOne_kept
    | (with_reducible refine Kept.ite (fun _ => ?_) (fun _ => ?_)) | split

theorem execDeleteEntry_kept (h : Kept q s) (w : Issuer) (blk : BitVec 64) : OutKept q (execDeleteEntry w blk s) := by
  unfold execDeleteEntry
  repeat' first | with_reducible assumption | simp only [OutKept.next_iff] | with_reducible apply tblRequest_kept

theorem l2Report_kept (h : Kept q s) (p kind : Nat) (port oldPort : Nat) (index mac vid : Nat) :
    Kept q (l2Report s p kind port oldPort index mac vid) := by
  unfold l2Report
  repeat' first
    | with_reducible assumption | with_reducible apply laRecord_kept
    | (with_reducible refine Kept.ite (fun _ => ?_) (fun _ => ?_))

theorem learnNow_kept (h : Kept q s) (a1 : LearnReq) : Kept q (learnNow s a1) := by
  unfold learnNow
  repeat' first
    | (lift_lets; intro) | with_reducible assumption | intro _
    | (simp only [Kept.mk_iff]; with_reducible refine Kept.facts ?_) | with_reducible apply l2Report_kept
    | with_reducible apply tblCnt_kept | (with_reducible refine Kept.ite (fun _ => ?_) (fun _ => ?_)) | split
    | dsimp +zetaDelta only

theorem learnOne_kept (h : Kept q s) : Kept q (learnOne s) := by
  unfold learnOne
  repeat' first
    | (lift_lets; intro) | with_reducible assumption | (simp only [Kept.mk_iff]; with_reducible refine Kept.facts ?_)
    | with_reducible apply learnNow_kept | (with_reducible refine Kept.ite (fun _ => ?_) (fun _ => ?_)) | split
    | dsimp +zetaDelta only

theorem execInsertOrUpdate_kept (h : Kept q s) (w : Issuer) (blk : BitVec 64) : OutKept q (execInsertOrUpdate w blk s) := by
  unfold execInsertOrUpdate
  repeat' first | with_reducible assumption | simp only [OutKept.next_iff] | with_reducible apply tblRequest_kept

theorem toHalter_kept (h : Kept q s) (it : Item) : Kept q (toHalter s it) := by
  unfold toHalter
  repeat' first
    | (lift_lets; intro) | with_reducible assumption | intro _
    | (simp only [Kept.mk_iff]; with_reducible refine Kept.facts ?_) | with_reducible apply foreignIf_kept
    | with_reducible apply unstall_kept | with_reducible apply schCnt_kept
    | (with_reducible refine Kept.ite (fun _ => ?_) (fun _ => ?_)) | dsimp +zetaDelta only

theorem classifyOne_kept (h : Kept q s) (it : Item) {p : Option Nat} {t : State} (e : classifyOne s it = (p, some t)) :
    Kept q t := by
  have hc := classifyItem_kept h it
  unfold classifyOne at e
  split at e
  · split at e
    · cases e
    · cases e
      exact slowPath_kept (Kept.pair (by assumption) hc) _ _ _ _ _
  · split at e
    · cases e
    · cases e
      exact noServiceDrop_kept (Kept.pair (by assumption) hc) _ _ _
  · split at e
    · split at e
      · cases e
      · cases e
        exact noServiceDrop_kept (Kept.pair (by assumption) hc) _ _ _
    · cases e
      exact toHalter_kept (Kept.pair (by assumption) hc) _

theorem classifyFirst_kept (h : Kept q s) (l before : List PreTask) (held : List (Option Nat)) :
    Kept q (classifyFirst s l before held) := by
  induction l generalizing before held with
  | nil => exact h
  | cons x l ih =>
    have hs : Kept q { s with par := { s.par with toClassify := before ++ l } } := h.upd rfl rfl rfl rfl rfl
    unfold classifyFirst
    split
    · split
      · exact ih _ _
      · exact classifyOne_kept hs _ (by assumption)
    · exact ih _ _

theorem tblGo_kept (h : Kept q s) (p : Nat) : Kept q (tblGo s p) := by
  unfold tblGo
  repeat' first
    | (lift_lets; intro) | with_reducible assumption | intro _
    | (simp only [Kept.mk_iff]; with_reducible refine Kept.facts ?_) | with_reducible apply tblReqRun_kept
    | with_reducible apply tblCnt_kept | (with_reducible refine Kept.ite (fun _ => ?_) (fun _ => ?_))

theorem sweepL2_kept (h : Kept q s) (i : Nat) : Kept q (sweepL2 s i) := by
  unfold sweepL2
  repeat' first
    | (lift_lets; intro) | with_reducible assumption | intro _
    | (simp only [Kept.mk_iff]; with_reducible refine Kept.facts ?_) | with_reducible apply l2Report_kept
    | (with_reducible refine Kept.ite (fun _ => ?_) (fun _ => ?_)) | split | dsimp +zetaDelta only

theorem sweepFlow_kept (h : Kept q s) (i : Nat) : Kept q (sweepFlow s i) := by
  unfold sweepFlow
  repeat' first
    | (lift_lets; intro) | with_reducible assumption | intro _
    | (simp only [Kept.mk_iff]; with_reducible refine Kept.facts ?_) | with_reducible apply flowReport_kept
    | (with_reducible refine Kept.ite (fun _ => ?_) (fun _ => ?_)) | split | dsimp +zetaDelta only

theorem sweepOn_kept (h : Kept q s) (l2 : Bool) : Kept q (sweepOn s l2) := by
  unfold sweepOn
  repeat' first
    | (lift_lets; intro) | with_reducible assumption | intro _
    | (simp only [Kept.mk_iff]; with_reducible refine Kept.facts ?_)

theorem sweeperVisit_kept (h : Kept q s) (l2 : Bool) (b : Nat) : Kept q (sweeperVisit s l2 b) := by
  unfold sweeperVisit
  repeat' first
    | (lift_lets; intro) | with_reducible assumption | intro _ | with_reducible apply sweepL2_kept
    | with_reducible apply sweepFlow_kept | with_reducible apply sweepOn_kept
    | (with_reducible refine Kept.fold (fun _ _ _ => ?_) ?_) | (with_reducible refine Kept.ite (fun _ => ?_) (fun _ => ?_))

theorem execSweeperVisit_kept (h : Kept q s) (l2 : Bool) (bucket : BitVec 32) :
    OutKept q (execSweeperVisit l2 bucket s) := by
  unfold execSweeperVisit
  repeat' first | with_reducible assumption | simp only [OutKept.next_iff] | with_reducible apply sweeperVisit_kept

theorem classifyNow_kept (h : Kept q s) : Kept q (classifyNow s) := by
  unfold classifyNow
  repeat' first | with_reducible assumption | with_reducible apply classifyFirst_kept

theorem execClassify_kept (h : Kept q s) : OutKept q (execClassify s) := by
  unfold execClassify
  repeat' first
    | with_reducible assumption | simp only [OutKept.next_iff] | with_reducible apply classifyNow_kept
    | with_reducible apply raisedDoubts_kept | with_reducible apply noDoubts_kept

theorem execLearn_kept (h : Kept q s) : OutKept q (execLearn s) := by
  unfold execLearn
  repeat' first | with_reducible assumption | simp only [OutKept.next_iff] | with_reducible apply learnOne_kept

theorem execLookupEntry_kept (h : Kept q s) (w : Issuer) (blk : BitVec 64) : OutKept q (execLookupEntry w blk s) := by
  unfold execLookupEntry
  repeat' first | with_reducible assumption | simp only [OutKept.next_iff] | with_reducible apply tblRequest_kept

theorem execInsertEntry_kept (h : Kept q s) (w : Issuer) (blk : BitVec 64) : OutKept q (execInsertEntry w blk s) := by
  unfold execInsertEntry
  repeat' first | with_reducible assumption | simp only [OutKept.next_iff] | with_reducible apply tblRequest_kept

theorem execDeleteIfData_kept (h : Kept q s) (w : Issuer) (blk : BitVec 64) : OutKept q (execDeleteIfData w blk s) := by
  unfold execDeleteIfData
  repeat' first | with_reducible assumption | simp only [OutKept.next_iff] | with_reducible apply tblRequest_kept

theorem execUpdateEntry_kept (h : Kept q s) (w : Issuer) (blk : BitVec 64) : OutKept q (execUpdateEntry w blk s) := by
  unfold execUpdateEntry
  repeat' first | with_reducible assumption | simp only [OutKept.next_iff] | with_reducible apply tblRequest_kept

end Sys2Proof.Machine
end

