-- ==== Sys2Proof/Laws/KeptUnits.lean ====
section
/-! SUPPORT. What memory channels, the Farrier, keys and engines keep (Sys2Proof.Machine.Kept): one lemma per operation, each citing those of the operations it calls. -/

namespace Sys2Proof.Machine

variable {q : List Instr} {s : State}

theorem cryCnt_kept (h : Kept q s) (p k n : Nat) : Kept q (cryCnt s p k n) := by
  unfold cryCnt
  repeat' first | with_reducible assumption | with_reducible apply pcnt_kept

theorem blockRefused_kept (h : Kept q s) (t tag : Nat) (boff k off : Nat) : Kept q (blockRefused s t tag boff k off) := by
  unfold blockRefused
  repeat' first
    | (lift_lets; intro) | with_reducible assumption | with_reducible apply thrViolate_kept
    | with_reducible apply startTag_kept | with_reducible apply cryCnt_kept

theorem cryptRefused_kept (h : Kept q s) (t tag : Nat) (boff status : Nat) : Kept q (cryptRefused s t tag boff status) := by
  unfold cryptRefused
  repeat' first | with_reducible assumption | with_reducible apply startTag_kept

theorem cryptQueue_kept (h : Kept q s) (t tag : Nat) (op boff : Nat) (b : List Octet) :
    Kept q (cryptQueue s t tag op boff b) := by
  unfold cryptQueue
  repeat' first
    | (lift_lets; intro) | with_reducible assumption | intro _
    | (simp only [Kept.mk_iff]; with_reducible refine Kept.facts ?_) | with_reducible apply startTag_kept
    | with_reducible apply cryCnt_kept

theorem cryptStart_keeps (s : State) (t tag : Nat) (op boff : Nat) (b : List Octet) :
    Fx.Keeps (cryptStart s t tag op boff b) := by
  unfold cryptStart
  repeat' first
    | (lift_lets; intro) | with_reducible assumption | intro _ | with_reducible exact Fx.still | simp only [Fx.keeps_iff]
    | with_reducible refine Fx.ite_keeps (fun _ => ?_) (fun _ => ?_) | with_reducible apply thrViolate_kept
    | with_reducible apply cryptRefused_kept | with_reducible apply cryptQueue_kept | with_reducible apply cryCnt_kept
    | split

theorem sylCryptAt_keeps (t : Thr) (g : Gd) (undef : Bool) (tag : Nat) (a4 op : Ctx → Nat) :
    Syl.Keeps (sylCryptAt t g undef tag a4 op) := by
  unfold sylCryptAt
  repeat' first
    | with_reducible assumption | intro _ | simp only [Syl.keeps_iff] | with_reducible exact Fx.still
    | simp only [Fx.keeps_iff] | with_reducible refine Fx.ite_keeps (fun _ => ?_) (fun _ => ?_)
    | with_reducible apply blockRefused_kept | with_reducible apply cryptStart_keeps | split

theorem sylCrypt_keeps (t : Thr) (g : Gd) (a2 ra rb : BitVec 5) (md : BitVec 8) : Syl.Keeps (sylCrypt t g a2 ra rb md) := by
  unfold sylCrypt
  repeat' first | with_reducible apply sylCryptAt_keeps

theorem testEnd_kept (h : Kept q s) (c : CmdRef) (failStep : Nat) : Kept q (testEnd s c failStep) := by
  unfold testEnd
  repeat' first | with_reducible assumption | with_reducible apply finish_kept | with_reducible apply farCnt_kept

theorem spareTold_kept (h : Kept q s) (res left : Nat) : Kept q (spareTold s res left) := by
  unfold spareTold
  repeat' first | with_reducible assumption | with_reducible apply sendEvent_kept

theorem retireTold_kept (h : Kept q s) (res why : Nat) : Kept q (retireTold s res why) := by
  unfold retireTold
  repeat' first | with_reducible assumption | with_reducible apply sendEvent_kept

theorem setSpare_kept (h : Kept q s) (c : Nat) (x : Option Nat) : Kept q (setSpare s c x) := by
  unfold setSpare
  repeat' first
    | (lift_lets; intro) | with_reducible assumption | (simp only [Kept.mk_iff]; with_reducible refine Kept.facts ?_)

theorem swapCore_kept (h : Kept q s) (l x : Nat) (a3 : Bool) : Kept q (swapCore s l x a3) := by
  unfold swapCore
  repeat' first
    | (lift_lets; intro) | with_reducible assumption | intro _
    | (simp only [Kept.mk_iff]; with_reducible refine Kept.facts ?_) | with_reducible apply spareTold_kept
    | with_reducible apply retireTold_kept | with_reducible apply farCnt_kept | with_reducible apply doubtGone_kept
    | with_reducible apply setSpare_kept | (with_reducible refine Kept.ite (fun _ => ?_) (fun _ => ?_)) | split
    | dsimp +zetaDelta only

theorem bistComplete_kept (h : Kept q s) (c : Nat) (pass : Bool) : Kept q (bistComplete s c pass) := by
  unfold bistComplete
  repeat' first
    | (lift_lets; intro) | with_reducible assumption | intro _
    | (simp only [Kept.mk_iff]; with_reducible refine Kept.facts ?_) | with_reducible apply retireTold_kept
    | with_reducible apply farCnt_kept | with_reducible apply setSpare_kept
    | (with_reducible refine Kept.ite (fun _ => ?_) (fun _ => ?_)) | split | dsimp +zetaDelta only

theorem swapNow_kept (h : Kept q s) (l x : Nat) (why : SwapWhy) : Kept q (swapNow s l x why) := by
  unfold swapNow
  repeat' first
    | (lift_lets; intro) | with_reducible assumption | with_reducible apply testEnd_kept | with_reducible apply finish_kept
    | with_reducible apply swapCore_kept | with_reducible apply coreStop_kept | with_reducible apply bistComplete_kept
    | split

theorem swapBegin_kept (h : Kept q s) (l x : Nat) (why : SwapWhy) : Kept q (swapBegin s l x why) := by
  unfold swapBegin
  repeat' first
    | (lift_lets; intro) | with_reducible assumption | (simp only [Kept.mk_iff]; with_reducible refine Kept.facts ?_)
    | with_reducible apply noteDeferral_kept | with_reducible apply swapNow_kept
    | (with_reducible refine Kept.fold (fun _ _ _ => ?_) ?_) | (with_reducible refine Kept.ite (fun _ => ?_) (fun _ => ?_))

theorem coreSwap_kept (h : Kept q s) (l : Nat) (why : SwapWhy) : Kept q (coreSwap s l why) := by
  unfold coreSwap
  repeat' first
    | with_reducible assumption | with_reducible apply doubt_kept | with_reducible apply swapBegin_kept
    | (with_reducible refine Kept.ite (fun _ => ?_) (fun _ => ?_)) | split

theorem hbmHold_kept (h : Kept q s) : Kept q (hbmHold s) := by
  unfold hbmHold
  repeat' first
    | (lift_lets; intro) | with_reducible assumption | (simp only [Kept.mk_iff]; with_reducible refine Kept.facts ?_)

theorem farReport_kept (h : Kept q s) (c : CmdRef) (addr : Nat) : Kept q (farReport s c addr) := by
  unfold farReport
  repeat' first
    | (lift_lets; intro) | with_reducible assumption | with_reducible apply finish_kept
    | with_reducible apply hostWrite_kept

theorem execFarReport_kept (h : Kept q s) (c : CmdRef) (addr : BitVec 64) : OutKept q (execFarReport c addr s) := by
  unfold execFarReport
  repeat' first
    | (lift_lets; intro) | with_reducible assumption | intro _ | simp only [OutKept.next_iff]
    | with_reducible apply farReport_kept | with_reducible apply hostCmd_kept

theorem substituteBank_kept (h : Kept q s) (b : Nat) : Kept q (substituteBank s b) := by
  unfold substituteBank
  repeat' first
    | (lift_lets; intro) | with_reducible assumption | intro _
    | (simp only [Kept.mk_iff]; with_reducible refine Kept.facts ?_) | with_reducible apply wrDev_kept
    | with_reducible apply spareTold_kept | (with_reducible refine Kept.ite (fun _ => ?_) (fun _ => ?_))

theorem retireSym_kept (h : Kept q s) (i : Nat) : Kept q (retireSym s i) := by
  unfold retireSym
  repeat' first
    | (lift_lets; intro) | with_reducible assumption | (simp only [Kept.mk_iff]; with_reducible refine Kept.facts ?_)
    | with_reducible apply spareTold_kept

theorem retirePk_kept (h : Kept q s) (i : Nat) : Kept q (retirePk s i) := by
  unfold retirePk
  repeat' first
    | (lift_lets; intro) | with_reducible assumption | (simp only [Kept.mk_iff]; with_reducible refine Kept.facts ?_)
    | with_reducible apply spareTold_kept

theorem startMigration_kept (h : Kept q s) (m : Migration) : Kept q (startMigration s m) := by
  unfold startMigration
  repeat' first
    | (lift_lets; intro) | with_reducible assumption | (simp only [Kept.mk_iff]; with_reducible refine Kept.facts ?_)
    | with_reducible apply sendEvent_kept | (with_reducible refine Kept.ite (fun _ => ?_) (fun _ => ?_))

theorem retireRank_kept (h : Kept q s) (ch sid why : Nat) : Kept q (retireRank s ch sid why) := by
  unfold retireRank
  repeat' first
    | with_reducible assumption | with_reducible apply startMigration_kept | with_reducible apply doubt_kept
    | (with_reducible refine Kept.ite (fun _ => ?_) (fun _ => ?_))

theorem farSwap_kept (h : Kept q s) (c : CmdRef) (res : Nat) : Kept q (farSwap s c res) := by
  unfold farSwap
  repeat' first
    | (lift_lets; intro) | with_reducible assumption | intro _ | with_reducible apply substituteBank_kept
    | with_reducible apply finish_kept | with_reducible apply retireSym_kept | with_reducible apply retirePk_kept
    | with_reducible apply swapBegin_kept | with_reducible apply retireRank_kept
    | (with_reducible refine Kept.ite (fun _ => ?_) (fun _ => ?_)) | split | dsimp +zetaDelta only

theorem execFarSwap_kept (h : Kept q s) (c : CmdRef) (res : BitVec 32) : OutKept q (execFarSwap c res s) := by
  unfold execFarSwap
  repeat' first
    | (lift_lets; intro) | with_reducible assumption | intro _ | simp only [OutKept.next_iff]
    | with_reducible apply hostCmd_kept | with_reducible apply farSwap_kept

theorem farQuiesce_kept (h : Kept q s) (c : CmdRef) (res a3 : Nat) : Kept q (farQuiesce s c res a3) := by
  unfold farQuiesce
  repeat' first
    | (lift_lets; intro) | with_reducible assumption | intro _
    | (simp only [Kept.mk_iff]; with_reducible refine Kept.facts ?_) | with_reducible apply startMigration_kept
    | with_reducible apply finish_kept | (with_reducible refine Kept.ite (fun _ => ?_) (fun _ => ?_))
    | dsimp +zetaDelta only

theorem execFarQuiesce_kept (h : Kept q s) (c : CmdRef) (res : BitVec 32) (a2 : BitVec 8) :
    OutKept q (execFarQuiesce c res a2 s) := by
  unfold execFarQuiesce
  repeat' first
    | (lift_lets; intro) | with_reducible assumption | intro _ | simp only [OutKept.next_iff]
    | with_reducible apply farQuiesce_kept | with_reducible apply hostCmd_kept

theorem slotCheck_kept (h : Kept q s) (p agent slot : Nat) : Kept q (slotCheck s p agent slot).2 := by
  unfold slotCheck
  repeat' first
    | with_reducible assumption | with_reducible apply violate_kept
    | (with_reducible refine Kept.ite₂ (fun _ => ?_) (fun _ => ?_))

theorem keyEvent_kept (h : Kept q s) (slot : Nat) (load : Bool) (kcv : List Octet) : Kept q (keyEvent s slot load kcv) := by
  unfold keyEvent
  repeat' first | with_reducible assumption | with_reducible apply jnlEvent_kept

theorem setKeys_kept (h : Kept q s) (m : Map KeyEnt) : Kept q (setKeys s m) := by
  unfold setKeys
  repeat' first
    | (lift_lets; intro) | with_reducible assumption | (simp only [Kept.mk_iff]; with_reducible refine Kept.facts ?_)

theorem slotsGood_kept (h : Kept q s) (a n : Nat) : Kept q (slotsGood s a n) := by
  unfold slotsGood
  repeat' first
    | (lift_lets; intro) | with_reducible assumption | (simp only [Kept.mk_iff]; with_reducible refine Kept.facts ?_)

theorem keyPut_kept (h : Kept q s) (c : CmdRef) (slot : Nat) (replace : Bool) (kbpk : List Octet) (k : KeyBlock) :
    Kept q (keyPut s c slot replace kbpk k) := by
  unfold keyPut
  repeat' first
    | (lift_lets; intro) | with_reducible assumption | intro _ | with_reducible apply keyEvent_kept
    | with_reducible apply setKeys_kept | with_reducible apply violate_kept | with_reducible apply finish_kept
    | with_reducible apply slotsGood_kept | (with_reducible refine Kept.ite (fun _ => ?_) (fun _ => ?_)) | split

theorem keyLoad_kept (h : Kept q s) (c : CmdRef) (slot flags : Nat) (len addr : Nat) :
    Kept q (keyLoad s c slot flags len addr) := by
  unfold keyLoad
  repeat' first
    | (lift_lets; intro) | with_reducible assumption | with_reducible apply slotCheck_kept
    | with_reducible apply keyPut_kept | with_reducible apply finish_kept
    | (with_reducible refine Kept.pair (by assumption) ?_) | split

theorem execKeyLoad_kept (h : Kept q s) (c : CmdRef) (slot : BitVec 16) (flags : BitVec 8) (len : BitVec 16) (addr : BitVec 64) :
    OutKept q (execKeyLoad c slot flags len addr s) := by
  unfold execKeyLoad
  repeat' first
    | (lift_lets; intro) | with_reducible assumption | intro _ | simp only [OutKept.next_iff]
    | with_reducible apply hostCmd_kept | with_reducible apply keyLoad_kept

theorem randomOctets_kept (h : Kept q s) (n : Nat) : Kept q (randomOctets s n).2 := by
  unfold randomOctets
  repeat' first
    | with_reducible assumption | (simp only [Kept.mk_iff]; with_reducible refine Kept.facts ?_)
    | with_reducible apply freeOctets_kept

theorem ephemeralKey_kept (h : Kept q s) : Kept q (ephemeralKey s).2 := by
  unfold ephemeralKey
  repeat' first | with_reducible assumption | with_reducible apply randomOctets_kept

theorem keyKekset_kept (h : Kept q s) (c : CmdRef) (part addr : Nat) : Kept q (keyKekset s c part addr) := by
  unfold keyKekset
  repeat' first
    | (lift_lets; intro) | with_reducible assumption | intro _
    | (simp only [Kept.mk_iff]; with_reducible refine Kept.facts ?_) | with_reducible apply finish_kept
    | with_reducible apply ephemeralKey_kept | with_reducible apply hostWrite_kept
    | (with_reducible refine Kept.ite (fun _ => ?_) (fun _ => ?_)) | split

theorem execKeyKekset_kept (h : Kept q s) (c : CmdRef) (part : BitVec 8) (addr : BitVec 64) :
    OutKept q (execKeyKekset c part addr s) := by
  unfold execKeyKekset
  repeat' first
    | (lift_lets; intro) | with_reducible assumption | intro _ | simp only [OutKept.next_iff]
    | with_reducible apply keyKekset_kept | with_reducible apply hostCmd_kept

theorem keyQuery_kept (h : Kept q s) (c : CmdRef) (slot addr : Nat) : Kept q (keyQuery s c slot addr) := by
  unfold keyQuery
  repeat' first
    | (lift_lets; intro) | with_reducible assumption | with_reducible apply slotCheck_kept
    | with_reducible apply finish_kept | with_reducible apply hostWrite_kept
    | (with_reducible refine Kept.pair (by assumption) ?_) | (with_reducible refine Kept.ite (fun _ => ?_) (fun _ => ?_))
    | split

theorem execKeyQuery_kept (h : Kept q s) (c : CmdRef) (slot : BitVec 16) (addr : BitVec 64) :
    OutKept q (execKeyQuery c slot addr s) := by
  unfold execKeyQuery
  repeat' first
    | (lift_lets; intro) | with_reducible assumption | intro _ | simp only [OutKept.next_iff]
    | with_reducible apply keyQuery_kept | with_reducible apply hostCmd_kept

theorem keyDelete_kept (h : Kept q s) (c : CmdRef) (slot : Nat) : Kept q (keyDelete s c slot) := by
  unfold keyDelete
  repeat' first
    | (lift_lets; intro) | with_reducible assumption | with_reducible apply keyEvent_kept
    | with_reducible apply slotCheck_kept | with_reducible apply setKeys_kept | with_reducible apply finish_kept
    | (with_reducible refine Kept.pair (by assumption) ?_) | split

theorem execKeyDelete_kept (h : Kept q s) (c : CmdRef) (slot : BitVec 16) : OutKept q (execKeyDelete c slot s) := by
  unfold execKeyDelete
  repeat' first
    | (lift_lets; intro) | with_reducible assumption | intro _ | simp only [OutKept.next_iff]
    | with_reducible apply keyDelete_kept | with_reducible apply hostCmd_kept

theorem cryptIssue_kept (h : Kept q s) (t : Thr) (tag : BitVec 2) (blk : BitVec 36) (op : Nat) :
    Kept q (cryptIssue s t tag blk op) := by
  unfold cryptIssue
  repeat' first | with_reducible assumption | with_reducible apply sylCryptAt_keeps | with_reducible apply issueOne_kept

theorem execRsaSign_kept (h : Kept q s) (t : Thr) (tag : BitVec 2) (blk a3 : BitVec 36) :
    OutKept q (execRsaSign t tag blk a3 s) := by
  unfold execRsaSign
  repeat' first | with_reducible assumption | simp only [OutKept.next_iff] | with_reducible apply cryptIssue_kept

theorem engineWorn_kept (h : Kept q s) (pk : Bool) (i : Nat) : Kept q (engineWorn s pk i) := by
  unfold engineWorn
  repeat' first
    | (lift_lets; intro) | with_reducible assumption | (simp only [Kept.mk_iff]; with_reducible refine Kept.facts ?_)
    | with_reducible apply retireTold_kept | with_reducible apply retireSym_kept | with_reducible apply retirePk_kept
    | (with_reducible refine Kept.ite (fun _ => ?_) (fun _ => ?_))

theorem engineFails_kept (h : Kept q s) (pk : Bool) (e : Nat) : Kept q (engineFails s pk e) := by
  unfold engineFails
  repeat' first
    | (lift_lets; intro) | with_reducible assumption | intro _
    | (simp only [Kept.mk_iff]; with_reducible refine Kept.facts ?_) | with_reducible apply engineWorn_kept
    | (with_reducible refine Kept.ite (fun _ => ?_) (fun _ => ?_)) | dsimp +zetaDelta only

theorem nextMigration_kept (h : Kept q s) : Kept q (nextMigration s) := by
  unfold nextMigration
  repeat' first
    | (lift_lets; intro) | with_reducible assumption | (simp only [Kept.mk_iff]; with_reducible refine Kept.facts ?_)
    | with_reducible apply startMigration_kept | split

theorem execEcdsaVer_kept (h : Kept q s) (t : Thr) (tag : BitVec 2) (blk a3 : BitVec 36) :
    OutKept q (execEcdsaVer t tag blk a3 s) := by
  unfold execEcdsaVer
  repeat' first | with_reducible assumption | simp only [OutKept.next_iff] | with_reducible apply cryptIssue_kept

theorem hbmCnt_kept (h : Kept q s) (k n : Nat) : Kept q (hbmCnt s k n) := by
  unfold hbmCnt
  repeat' first | with_reducible assumption | with_reducible apply cntAdd_kept

theorem hbmRequest_kept (h : Kept q s) (ch : Nat) : Kept q (hbmRequest s ch) := by
  unfold hbmRequest
  repeat' first
    | (lift_lets; intro) | with_reducible assumption | (simp only [Kept.mk_iff]; with_reducible refine Kept.facts ?_)

theorem hbmCorrect_kept (h : Kept q s) (a : Nat) : Kept q (hbmCorrect s a) := by
  unfold hbmCorrect
  repeat' first | with_reducible assumption | with_reducible apply wrDev_kept | with_reducible apply hbmCnt_kept

theorem ueLog_kept (h : Kept q s) (a : Nat) (command patrol : Bool) : Kept q (ueLog s a command patrol) := by
  unfold ueLog
  repeat' first | (lift_lets; intro) | with_reducible assumption | with_reducible apply wrDev_kept

theorem hbmUncorrectable_kept (h : Kept q s) (a : Nat) (patrol : Bool) : Kept q (hbmUncorrectable s a patrol) := by
  unfold hbmUncorrectable
  repeat' first
    | with_reducible assumption | with_reducible apply hbmCnt_kept | with_reducible apply ueLog_kept
    | with_reducible apply poisonHalf_kept | with_reducible apply retireRank_kept

theorem hbmReadUnit_kept (h : Kept q s) (a : Nat) (found : MemError) (patrol : Bool) :
    Kept q (hbmReadUnit s a found patrol) := by
  unfold hbmReadUnit
  repeat' first
    | (lift_lets; intro) | with_reducible assumption | intro _
    | (simp only [Kept.mk_iff]; with_reducible refine Kept.facts ?_) | with_reducible apply hbmCnt_kept
    | with_reducible apply hbmRequest_kept | with_reducible apply hbmCorrect_kept
    | with_reducible apply hbmUncorrectable_kept | (with_reducible refine Kept.ite (fun _ => ?_) (fun _ => ?_)) | split
    | dsimp +zetaDelta only

theorem hbmRead_kept (h : Kept q s) (a : Nat) (found : MemError) : Kept q (hbmRead s a found) := by
  unfold hbmRead
  repeat' first
    | with_reducible assumption | with_reducible apply hbmReadUnit_kept | with_reducible apply hbmHold_kept
    | (with_reducible refine Kept.ite (fun _ => ?_) (fun _ => ?_))

theorem execEcdsaSign_kept (h : Kept q s) (t : Thr) (tag : BitVec 2) (blk a3 : BitVec 36) :
    OutKept q (execEcdsaSign t tag blk a3 s) := by
  unfold execEcdsaSign
  repeat' first | with_reducible assumption | simp only [OutKept.next_iff] | with_reducible apply cryptIssue_kept

theorem rbgReseed_kept (h : Kept q s) : Kept q (rbgReseed s) := by
  unfold rbgReseed
  repeat' first
    | (lift_lets; intro) | with_reducible assumption | (simp only [Kept.mk_iff]; with_reducible refine Kept.facts ?_)
    | (with_reducible refine Kept.ite (fun _ => ?_) (fun _ => ?_))

theorem swapSettle_kept (h : Kept q s) (d : Nat × SwapWhy) : Kept q (swapSettle s d) := by
  unfold swapSettle
  repeat' first
    | (lift_lets; intro) | with_reducible assumption | (simp only [Kept.mk_iff]; with_reducible refine Kept.facts ?_)
    | with_reducible apply swapNow_kept | (with_reducible refine Kept.ite (fun _ => ?_) (fun _ => ?_)) | split

theorem refiTick_kept (h : Kept q s) : Kept q (refiTick s) := by
  unfold refiTick
  repeat' first
    | (lift_lets; intro) | with_reducible assumption | intro _
    | (simp only [Kept.mk_iff]; with_reducible refine Kept.facts ?_) | with_reducible apply alertUpdate_kept
    | (with_reducible refine Kept.ite (fun _ => ?_) (fun _ => ?_))

theorem bistRotation_kept (h : Kept q s) (c : Nat) : Kept q (bistRotation s c) := by
  unfold bistRotation
  repeat' first
    | (lift_lets; intro) | with_reducible assumption | intro _
    | (simp only [Kept.mk_iff]; with_reducible refine Kept.facts ?_) | with_reducible apply swapBegin_kept
    | (with_reducible refine Kept.ite (fun _ => ?_) (fun _ => ?_)) | split

theorem execBistRotation_kept (h : Kept q s) (cluster : BitVec 4) : OutKept q (execBistRotation cluster s) := by
  unfold execBistRotation
  repeat' first | with_reducible assumption | simp only [OutKept.next_iff] | with_reducible apply bistRotation_kept

theorem migrationCopy_kept (h : Kept q s) (found : MemError) : Kept q (migrationCopy s found) := by
  unfold migrationCopy
  repeat' first
    | (lift_lets; intro) | with_reducible assumption | intro _
    | (simp only [Kept.mk_iff]; with_reducible refine Kept.facts ?_) | with_reducible apply hbmReadUnit_kept
    | (with_reducible refine Kept.ite (fun _ => ?_) (fun _ => ?_)) | split

theorem execMigrationUnitCopy_kept (h : Kept q s) (found : MemError) : OutKept q (execMigrationUnitCopy found s) := by
  unfold execMigrationUnitCopy
  repeat' first | with_reducible assumption | simp only [OutKept.next_iff] | with_reducible apply migrationCopy_kept

theorem temperatureReading_kept (h : Kept q s) (deg : Nat) : Kept q (temperatureReading s deg) := by
  unfold temperatureReading
  repeat' first
    | (lift_lets; intro) | with_reducible assumption | intro _
    | (simp only [Kept.mk_iff]; with_reducible refine Kept.facts ?_) | with_reducible apply hbmCnt_kept
    | with_reducible apply doubt_kept | with_reducible apply alertUpdate_kept
    | (with_reducible refine Kept.ite (fun _ => ?_) (fun _ => ?_)) | dsimp +zetaDelta only

theorem execRandom_kept (h : Kept q s) (t : Thr) (tag : BitVec 2) (blk a3 : BitVec 36) :
    OutKept q (execRandom t tag blk a3 s) := by
  unfold execRandom
  repeat' first | with_reducible assumption | simp only [OutKept.next_iff] | with_reducible apply cryptIssue_kept

theorem execHmacGen_kept (h : Kept q s) (t : Thr) (tag : BitVec 2) (blk a3 : BitVec 36) :
    OutKept q (execHmacGen t tag blk a3 s) := by
  unfold execHmacGen
  repeat' first | with_reducible assumption | simp only [OutKept.next_iff] | with_reducible apply cryptIssue_kept

theorem refreshNow_kept (h : Kept q s) (pch : Nat) (idle : Bool) : Kept q (refreshNow s pch idle) := by
  unfold refreshNow
  repeat' first
    | (lift_lets; intro) | with_reducible assumption | intro _
    | (simp only [Kept.mk_iff]; with_reducible refine Kept.facts ?_)
    | (with_reducible refine Kept.ite (fun _ => ?_) (fun _ => ?_))

theorem execRefresh_kept (h : Kept q s) (pch : BitVec 5) (idle : Bool) : OutKept q (execRefresh pch idle s) := by
  unfold execRefresh
  repeat' first | with_reducible assumption | simp only [OutKept.next_iff] | with_reducible apply refreshNow_kept

theorem unwait_kept (h : Kept q s) (c : CmdRef) : Kept q (unwait s c) := by
  unfold unwait
  repeat' first
    | (lift_lets; intro) | with_reducible assumption | (simp only [Kept.mk_iff]; with_reducible refine Kept.facts ?_)

theorem selfRefreshEntry_kept (h : Kept q s) : Kept q (selfRefreshEntry s) := by
  unfold selfRefreshEntry
  repeat' first
    | (lift_lets; intro) | with_reducible assumption | intro _
    | (simp only [Kept.mk_iff]; with_reducible refine Kept.facts ?_) | with_reducible apply hbmCnt_kept
    | (with_reducible refine Kept.ite (fun _ => ?_) (fun _ => ?_))

theorem execSelfRefreshEntry_kept (h : Kept q s) : OutKept q (execSelfRefreshEntry s) := by
  unfold execSelfRefreshEntry
  repeat' first | with_reducible assumption | simp only [OutKept.next_iff] | with_reducible apply selfRefreshEntry_kept

theorem clockSwitch_kept (h : Kept q s) (i : Nat) : Kept q (clockSwitch s i) := by
  unfold clockSwitch
  repeat' first
    | (lift_lets; intro) | with_reducible assumption | intro _
    | (simp only [Kept.mk_iff]; with_reducible refine Kept.facts ?_) | with_reducible apply sendEvent_kept
    | with_reducible apply doubt_kept | (with_reducible refine Kept.ite (fun _ => ?_) (fun _ => ?_)) | dsimp +zetaDelta only

theorem rsaSignAns_kept (h : Kept q s) (b data k : List Octet) : Kept q (rsaSignAns s b data k).2 := by
  unfold rsaSignAns
  repeat' first
    | (lift_lets; intro) | with_reducible assumption | with_reducible apply randomOctets_kept
    | (with_reducible refine Kept.ite₂ (fun _ => ?_) (fun _ => ?_))

theorem reqKey_kept (h : Kept q s) (r : EngReq) : Kept q (reqKey s r).2.2 := by
  unfold reqKey
  repeat' first
    | (lift_lets; intro) | with_reducible assumption | with_reducible apply slotCheck_kept
    | (with_reducible refine Kept.pair (by assumption) ?_) | split

theorem reqAnswer_kept (h : Kept q s) (r : EngReq) : Kept q (reqAnswer s r).2 := by
  unfold reqAnswer
  repeat' first
    | with_reducible assumption | with_reducible apply rsaSignAns_kept | with_reducible apply reqKey_kept
    | with_reducible apply randomOctets_kept | (with_reducible refine Kept.ite₂ (fun _ => ?_) (fun _ => ?_))

theorem updReqCtx_kept (h : Kept q s) (r : EngReq) (f : Ctx → Ctx) : Kept q (updReqCtx s r f) := by
  unfold updReqCtx
  repeat' first
    | with_reducible assumption | with_reducible apply updTaskCtx_kept | with_reducible apply updCtx_kept | split

theorem reqDone_kept (h : Kept q s) (r : EngReq) (a : CryAns) : Kept q (reqDone s r a) := by
  unfold reqDone
  repeat' first
    | (lift_lets; intro) | with_reducible assumption | intro _ | with_reducible apply updReqCtx_kept
    | with_reducible apply devWrite_kept | (with_reducible refine Kept.ite (fun _ => ?_) (fun _ => ?_))

theorem cryOutcome_kept (h : Kept q s) (r : EngReq) (status : Nat) : Kept q (cryOutcome s r status) := by
  unfold cryOutcome
  repeat' first | (lift_lets; intro) | with_reducible assumption | with_reducible apply cryCnt_kept | split

theorem engineComplete_kept (h : Kept q s) (pk : Bool) (fails : Nat) : Kept q (engineComplete s pk fails) := by
  unfold engineComplete
  repeat' first
    | (lift_lets; intro) | with_reducible assumption | intro _
    | (simp only [Kept.mk_iff]; with_reducible refine Kept.facts ?_) | with_reducible apply reqAnswer_kept
    | with_reducible apply reqDone_kept | with_reducible apply cryOutcome_kept | with_reducible apply engineFails_kept
    | (with_reducible refine Kept.fold (fun _ _ _ => ?_) ?_) | (with_reducible refine Kept.ite (fun _ => ?_) (fun _ => ?_))
    | (with_reducible refine Kept.ite₂ (fun _ => ?_) (fun _ => ?_)) | split | dsimp +zetaDelta only

theorem execEngineRequestComplete_kept (h : Kept q s) (pk : Bool) (checkFails : BitVec 2) :
    OutKept q (execEngineRequestComplete pk checkFails s) := by
  unfold execEngineRequestComplete
  repeat' first | with_reducible assumption | simp only [OutKept.next_iff] | with_reducible apply engineComplete_kept

theorem selfRefreshExit_kept (h : Kept q s) : Kept q (selfRefreshExit s) := by
  unfold selfRefreshExit
  repeat' first
    | (lift_lets; intro) | with_reducible assumption | (simp only [Kept.mk_iff]; with_reducible refine Kept.facts ?_)
    | (with_reducible refine Kept.ite (fun _ => ?_) (fun _ => ?_))

theorem execSelfRefreshExit_kept (h : Kept q s) : OutKept q (execSelfRefreshExit s) := by
  unfold execSelfRefreshExit
  repeat' first | with_reducible assumption | simp only [OutKept.next_iff] | with_reducible apply selfRefreshExit_kept

theorem execKwrap_kept (h : Kept q s) (t : Thr) (tag : BitVec 2) (blk a3 : BitVec 36) :
    OutKept q (execKwrap t tag blk a3 s) := by
  unfold execKwrap
  repeat' first | with_reducible assumption | simp only [OutKept.next_iff] | with_reducible apply cryptIssue_kept

theorem wearPhase_kept (h : Kept q s) (rail share : Nat) : Kept q (wearPhase s rail share) := by
  unfold wearPhase
  repeat' first
    | (lift_lets; intro) | with_reducible assumption | intro _
    | (simp only [Kept.mk_iff]; with_reducible refine Kept.facts ?_) | with_reducible apply doubt_kept
    | (with_reducible refine Kept.ite (fun _ => ?_) (fun _ => ?_)) | dsimp +zetaDelta only

theorem wearRow_kept (h : Kept q s) (n : Nat) : Kept q (wearRow s n) := by
  unfold wearRow
  repeat' first
    | (lift_lets; intro) | with_reducible assumption | intro _
    | (simp only [Kept.mk_iff]; with_reducible refine Kept.facts ?_) | with_reducible apply spareTold_kept
    | with_reducible apply quarantine_kept | (with_reducible refine Kept.ite (fun _ => ?_) (fun _ => ?_))

theorem wearSensor_kept (h : Kept q s) (cls index value : Nat) : Kept q (wearSensor s cls index value) := by
  unfold wearSensor
  repeat' first
    | (lift_lets; intro) | with_reducible assumption | with_reducible apply substituteBank_kept
    | with_reducible apply coreSwap_kept | with_reducible apply wearPhase_kept | with_reducible apply wearRow_kept
    | with_reducible apply retireRank_kept | (with_reducible refine Kept.ite (fun _ => ?_) (fun _ => ?_)) | split

theorem execWearSensorRead_kept (h : Kept q s) (cls : BitVec 8) (index : BitVec 24) (value : BitVec 32) :
    OutKept q (execWearSensorRead cls index value s) := by
  unfold execWearSensorRead
  repeat' first | with_reducible assumption | simp only [OutKept.next_iff] | with_reducible apply wearSensor_kept

theorem fullRetrain_kept (h : Kept q s) (ch bad : Nat) : Kept q (fullRetrain s ch bad) := by
  unfold fullRetrain
  repeat' first
    | (lift_lets; intro) | with_reducible assumption | intro _
    | (simp only [Kept.mk_iff]; with_reducible refine Kept.facts ?_) | with_reducible apply hbmCnt_kept
    | with_reducible apply doubt_kept | (with_reducible refine Kept.ite (fun _ => ?_) (fun _ => ?_)) | dsimp +zetaDelta only

theorem caParityError_kept (h : Kept q s) (ch a : Nat) (retrainOk : Bool) : Kept q (caParityError s ch a retrainOk) := by
  unfold caParityError
  repeat' first
    | (lift_lets; intro) | with_reducible assumption | intro _
    | (simp only [Kept.mk_iff]; with_reducible refine Kept.facts ?_) | with_reducible apply hbmCnt_kept
    | with_reducible apply ueLog_kept | with_reducible apply fullRetrain_kept | with_reducible apply retireRank_kept
    | (with_reducible refine Kept.ite (fun _ => ?_) (fun _ => ?_)) | dsimp +zetaDelta only

theorem execCaParityError_kept (h : Kept q s) (ch : BitVec 4) (addr : BitVec 34) (retrainOk : Bool) :
    OutKept q (execCaParityError ch addr retrainOk s) := by
  unfold execCaParityError
  repeat' first | with_reducible assumption | simp only [OutKept.next_iff] | with_reducible apply caParityError_kept

theorem execRbgStartupPass_kept (h : Kept q s) : OutKept q (execRbgStartupPass s) := by
  unfold execRbgStartupPass
  repeat' first
    | (lift_lets; intro) | with_reducible assumption | (simp only [Kept.mk_iff]; with_reducible refine Kept.facts ?_)
    | simp only [OutKept.next_iff]

theorem execRbgReseed_kept (h : Kept q s) : OutKept q (execRbgReseed s) := by
  unfold execRbgReseed
  repeat' first | with_reducible assumption | simp only [OutKept.next_iff] | with_reducible apply rbgReseed_kept

theorem execKunwrap_kept (h : Kept q s) (t : Thr) (tag : BitVec 2) (blk a3 : BitVec 36) :
    OutKept q (execKunwrap t tag blk a3 s) := by
  unfold execKunwrap
  repeat' first | with_reducible assumption | simp only [OutKept.next_iff] | with_reducible apply cryptIssue_kept

theorem execTemperatureReading_kept (h : Kept q s) (deg : BitVec 8) : OutKept q (execTemperatureReading deg s) := by
  unfold execTemperatureReading
  repeat' first | with_reducible assumption | simp only [OutKept.next_iff] | with_reducible apply temperatureReading_kept

theorem retrainStep_kept (h : Kept q s) (pch drift : Nat) : Kept q (retrainStep s pch drift) := by
  unfold retrainStep
  repeat' first
    | (lift_lets; intro) | with_reducible assumption | intro _
    | (simp only [Kept.mk_iff]; with_reducible refine Kept.facts ?_) | with_reducible apply fullRetrain_kept
    | (with_reducible refine Kept.ite (fun _ => ?_) (fun _ => ?_)) | dsimp +zetaDelta only

theorem execRetrainStep_kept (h : Kept q s) (pch : BitVec 5) (drift : BitVec 8) :
    OutKept q (execRetrainStep pch drift s) := by
  unfold execRetrainStep
  repeat' first | with_reducible assumption | simp only [OutKept.next_iff] | with_reducible apply retrainStep_kept

theorem testCore_kept (h : Kept q s) (c : CmdRef) (l failStep : Nat) : Kept q (testCore s c l failStep) := by
  unfold testCore
  repeat' first
    | with_reducible assumption | with_reducible apply finish_kept | with_reducible apply swapBegin_kept
    | (with_reducible refine Kept.ite (fun _ => ?_) (fun _ => ?_)) | split

theorem testRank_kept (h : Kept q s) (c : CmdRef) (index failStep : Nat) : Kept q (testRank s c index failStep) := by
  unfold testRank
  repeat' first
    | (lift_lets; intro) | with_reducible assumption | intro _
    | (simp only [Kept.mk_iff]; with_reducible refine Kept.facts ?_) | with_reducible apply testEnd_kept
    | with_reducible apply finish_kept | with_reducible apply farCnt_kept
    | (with_reducible refine Kept.ite (fun _ => ?_) (fun _ => ?_))

theorem farTest_kept (h : Kept q s) (c : CmdRef) (res kind failStep : Nat) : Kept q (farTest s c res kind failStep) := by
  unfold farTest
  repeat' first
    | (lift_lets; intro) | with_reducible assumption | intro _ | with_reducible apply testCore_kept
    | with_reducible apply testEnd_kept | with_reducible apply finish_kept | with_reducible apply testRank_kept
    | with_reducible apply farCnt_kept | (with_reducible refine Kept.ite (fun _ => ?_) (fun _ => ?_))

theorem execFarTest_kept (h : Kept q s) (c : CmdRef) (res : BitVec 32) (kind : BitVec 8) (failStep : BitVec 32) :
    OutKept q (execFarTest c res kind failStep s) := by
  unfold execFarTest
  repeat' first
    | (lift_lets; intro) | with_reducible assumption | intro _ | simp only [OutKept.next_iff]
    | with_reducible apply farTest_kept | with_reducible apply unwait_kept | with_reducible apply hostCmd_kept

theorem execMac3Gen_kept (h : Kept q s) (t : Thr) (tag : BitVec 2) (blk a3 : BitVec 36) :
    OutKept q (execMac3Gen t tag blk a3 s) := by
  unfold execMac3Gen
  repeat' first | with_reducible assumption | simp only [OutKept.next_iff] | with_reducible apply cryptIssue_kept

theorem execEd25519Ver_kept (h : Kept q s) (t : Thr) (tag : BitVec 2) (blk a3 : BitVec 36) :
    OutKept q (execEd25519Ver t tag blk a3 s) := by
  unfold execEd25519Ver
  repeat' first | with_reducible assumption | simp only [OutKept.next_iff] | with_reducible apply cryptIssue_kept

theorem execTdesEnc_kept (h : Kept q s) (t : Thr) (tag : BitVec 2) (blk a3 : BitVec 36) :
    OutKept q (execTdesEnc t tag blk a3 s) := by
  unfold execTdesEnc
  repeat' first | with_reducible assumption | simp only [OutKept.next_iff] | with_reducible apply cryptIssue_kept

theorem execHmacVer_kept (h : Kept q s) (t : Thr) (tag : BitVec 2) (blk a3 : BitVec 36) :
    OutKept q (execHmacVer t tag blk a3 s) := by
  unfold execHmacVer
  repeat' first | with_reducible assumption | simp only [OutKept.next_iff] | with_reducible apply cryptIssue_kept

theorem execTdesDec_kept (h : Kept q s) (t : Thr) (tag : BitVec 2) (blk a3 : BitVec 36) :
    OutKept q (execTdesDec t tag blk a3 s) := by
  unfold execTdesDec
  repeat' first | with_reducible assumption | simp only [OutKept.next_iff] | with_reducible apply cryptIssue_kept

theorem reinEnter_kept (h : Kept q s) : Kept q (reinEnter s) := by
  unfold reinEnter
  repeat' first
    | (lift_lets; intro) | with_reducible assumption | intro _
    | (simp only [Kept.mk_iff]; with_reducible refine Kept.facts ?_) | with_reducible apply reinTold_kept
    | with_reducible apply farCnt_kept | with_reducible apply alertUpdate_kept | dsimp +zetaDelta only

theorem supplyWarning_kept (h : Kept q s) (r mv : Nat) : Kept q (supplyWarning s r mv) := by
  unfold supplyWarning
  repeat' first
    | (lift_lets; intro) | with_reducible assumption | intro _
    | (simp only [Kept.mk_iff]; with_reducible refine Kept.facts ?_) | with_reducible apply reinEnter_kept
    | (with_reducible refine Kept.ite (fun _ => ?_) (fun _ => ?_)) | split

theorem execSupplyWarning_kept (h : Kept q s) (rail : BitVec 4) (millivolt : BitVec 16) :
    OutKept q (execSupplyWarning rail millivolt s) := by
  unfold execSupplyWarning
  repeat' first
    | with_reducible assumption | simp only [OutKept.next_iff] | exact OutKept.fault
    | (with_reducible refine OutKept.ite (fun _ => ?_) (fun _ => ?_)) | with_reducible apply supplyWarning_kept

theorem execBistComplete_kept (h : Kept q s) (cluster : BitVec 4) (pass : Bool) :
    OutKept q (execBistComplete cluster pass s) := by
  unfold execBistComplete
  repeat' first | with_reducible assumption | simp only [OutKept.next_iff] | with_reducible apply bistComplete_kept

theorem execBankSubstitution_kept (h : Kept q s) (bank : BitVec 6) : OutKept q (execBankSubstitution bank s) := by
  unfold execBankSubstitution
  repeat' first
    | with_reducible assumption | simp only [OutKept.next_iff] | with_reducible apply substituteBank_kept
    | (with_reducible refine Kept.ite (fun _ => ?_) (fun _ => ?_))

theorem sramRead_kept (h : Kept q s) (a : Nat) (found : MemError) : Kept q (sramRead s a found) := by
  unfold sramRead
  repeat' first
    | (lift_lets; intro) | with_reducible assumption | intro _
    | (simp only [Kept.mk_iff]; with_reducible refine Kept.facts ?_) | with_reducible apply poisonHalf_kept | split

theorem tagRead_kept (h : Kept q s) (a : Nat) (found : MemError) : Kept q (tagRead s a found) := by
  unfold tagRead
  repeat' first
    | (lift_lets; intro) | with_reducible assumption | (simp only [Kept.mk_iff]; with_reducible refine Kept.facts ?_)
    | (with_reducible refine Kept.ite (fun _ => ?_) (fun _ => ?_))

theorem memRead_kept (h : Kept q s) (a : Nat) (found : MemFind) : Kept q (memRead s a found) := by
  unfold memRead
  repeat' first
    | with_reducible assumption | with_reducible apply sramRead_kept | with_reducible apply hbmRead_kept
    | with_reducible apply tagRead_kept | (with_reducible refine Kept.ite (fun _ => ?_) (fun _ => ?_))

theorem execHbmRead_kept (h : Kept q s) (addr : BitVec 36) (found : MemFind) :
    OutKept q (execHbmRead addr found s) := by
  unfold execHbmRead
  repeat' first | with_reducible assumption | simp only [OutKept.next_iff] | with_reducible apply memRead_kept

theorem reinTooLong_kept (h : Kept q s) : Kept q (reinTooLong s) := by
  unfold reinTooLong
  repeat' first
    | with_reducible assumption | with_reducible apply boltDevice_kept
    | (with_reducible refine Kept.ite (fun _ => ?_) (fun _ => ?_)) | split

theorem execReinLimit_kept (h : Kept q s) : OutKept q (execReinLimit s) := by
  unfold execReinLimit
  repeat' first | with_reducible assumption | simp only [OutKept.next_iff] | with_reducible apply reinTooLong_kept

theorem rankRetirement_kept (h : Kept q s) (ch sid : Nat) : Kept q (rankRetirement s ch sid) := by
  unfold rankRetirement
  repeat' first | with_reducible assumption | with_reducible apply retireRank_kept

theorem execRankRetirement_kept (h : Kept q s) (ch : BitVec 4) (sid : BitVec 2) :
    OutKept q (execRankRetirement ch sid s) := by
  unfold execRankRetirement
  repeat' first
    | with_reducible assumption | simp only [OutKept.next_iff] | exact OutKept.fault
    | (with_reducible refine OutKept.ite (fun _ => ?_) (fun _ => ?_)) | with_reducible apply rankRetirement_kept

theorem execGcmDec_kept (h : Kept q s) (t : Thr) (tag : BitVec 2) (blk a3 : BitVec 36) :
    OutKept q (execGcmDec t tag blk a3 s) := by
  unfold execGcmDec
  repeat' first | with_reducible assumption | simp only [OutKept.next_iff] | with_reducible apply cryptIssue_kept

theorem execMac3Ver_kept (h : Kept q s) (t : Thr) (tag : BitVec 2) (blk a3 : BitVec 36) :
    OutKept q (execMac3Ver t tag blk a3 s) := by
  unfold execMac3Ver
  repeat' first | with_reducible assumption | simp only [OutKept.next_iff] | with_reducible apply cryptIssue_kept

theorem execGcmEnc_kept (h : Kept q s) (t : Thr) (tag : BitVec 2) (blk a3 : BitVec 36) :
    OutKept q (execGcmEnc t tag blk a3 s) := by
  unfold execGcmEnc
  repeat' first | with_reducible assumption | simp only [OutKept.next_iff] | with_reducible apply cryptIssue_kept

theorem markRetired_kept (h : Kept q s) (ch sid : Nat) : Kept q (markRetired s ch sid) := by
  unfold markRetired
  repeat' first
    | (lift_lets; intro) | with_reducible assumption | (simp only [Kept.mk_iff]; with_reducible refine Kept.facts ?_)

theorem rankSwitchover_kept (h : Kept q s) : Kept q (rankSwitchover s) := by
  unfold rankSwitchover
  repeat' first
    | (lift_lets; intro) | with_reducible assumption | intro _
    | (simp only [Kept.mk_iff]; with_reducible refine Kept.facts ?_) | with_reducible apply nextMigration_kept
    | with_reducible apply finish_kept | with_reducible apply sendEvent_kept | with_reducible apply markRetired_kept
    | (with_reducible refine Kept.fold (fun _ _ _ => ?_) ?_) | (with_reducible refine Kept.ite (fun _ => ?_) (fun _ => ?_))
    | split | dsimp +zetaDelta only

theorem execRankSwitchover_kept (h : Kept q s) : OutKept q (execRankSwitchover s) := by
  unfold execRankSwitchover
  repeat' first | with_reducible assumption | simp only [OutKept.next_iff] | with_reducible apply rankSwitchover_kept

theorem patrolScrub_kept (h : Kept q s) (a : Nat) (found : MemError) : Kept q (patrolScrub s a found) := by
  unfold patrolScrub
  repeat' first
    | with_reducible assumption | with_reducible apply hbmReadUnit_kept | with_reducible apply hbmHold_kept
    | (with_reducible refine Kept.ite (fun _ => ?_) (fun _ => ?_))

theorem execPatrolScrub_kept (h : Kept q s) (addr : BitVec 34) (found : MemError) :
    OutKept q (execPatrolScrub addr found s) := by
  unfold execPatrolScrub
  repeat' first | with_reducible assumption | simp only [OutKept.next_iff] | with_reducible apply patrolScrub_kept

theorem execCoreSwap_kept (h : Kept q s) (core : BitVec 7) : OutKept q (execCoreSwap core s) := by
  unfold execCoreSwap
  repeat' first | with_reducible assumption | simp only [OutKept.next_iff] | with_reducible apply coreSwap_kept

theorem rbgFail_kept (h : Kept q s) : Kept q (rbgFail s) := by
  unfold rbgFail
  repeat' first
    | (lift_lets; intro) | with_reducible assumption | (simp only [Kept.mk_iff]; with_reducible refine Kept.facts ?_)
    | with_reducible apply sendEvent_kept

theorem execRbgHealthFailure_kept (h : Kept q s) : OutKept q (execRbgHealthFailure s) := by
  unfold execRbgHealthFailure
  repeat' first | with_reducible assumption | simp only [OutKept.next_iff] | with_reducible apply rbgFail_kept

theorem execClockGeneratorSwitch_kept (h : Kept q s) (island : BitVec 6) :
    OutKept q (execClockGeneratorSwitch island s) := by
  unfold execClockGeneratorSwitch
  repeat' first
    | with_reducible assumption | simp only [OutKept.next_iff] | exact OutKept.fault
    | (with_reducible refine OutKept.ite (fun _ => ?_) (fun _ => ?_)) | with_reducible apply clockSwitch_kept

theorem execCmacGen_kept (h : Kept q s) (t : Thr) (tag : BitVec 2) (blk a3 : BitVec 36) :
    OutKept q (execCmacGen t tag blk a3 s) := by
  unfold execCmacGen
  repeat' first | with_reducible assumption | simp only [OutKept.next_iff] | with_reducible apply cryptIssue_kept

theorem execRsaVer_kept (h : Kept q s) (t : Thr) (tag : BitVec 2) (blk a3 : BitVec 36) :
    OutKept q (execRsaVer t tag blk a3 s) := by
  unfold execRsaVer
  repeat' first | with_reducible assumption | simp only [OutKept.next_iff] | with_reducible apply cryptIssue_kept

theorem execFullRetrain_kept (h : Kept q s) (ch : BitVec 4) (badLanes : BitVec 8) :
    OutKept q (execFullRetrain ch badLanes s) := by
  unfold execFullRetrain
  repeat' first | with_reducible assumption | simp only [OutKept.next_iff] | with_reducible apply fullRetrain_kept

theorem execCmacVer_kept (h : Kept q s) (t : Thr) (tag : BitVec 2) (blk a3 : BitVec 36) :
    OutKept q (execCmacVer t tag blk a3 s) := by
  unfold execCmacVer
  repeat' first | with_reducible assumption | simp only [OutKept.next_iff] | with_reducible apply cryptIssue_kept

theorem powerDown_kept (h : Kept q s) (ch : Nat) : Kept q (powerDown s ch) := by
  unfold powerDown
  repeat' first
    | (lift_lets; intro) | with_reducible assumption | intro _
    | (simp only [Kept.mk_iff]; with_reducible refine Kept.facts ?_)
    | (with_reducible refine Kept.ite (fun _ => ?_) (fun _ => ?_))

theorem execPowerDownEntry_kept (h : Kept q s) (ch : BitVec 4) : OutKept q (execPowerDownEntry ch s) := by
  unfold execPowerDownEntry
  repeat' first | with_reducible assumption | simp only [OutKept.next_iff] | with_reducible apply powerDown_kept

theorem execSha256_kept (h : Kept q s) (t : Thr) (tag : BitVec 2) (blk a3 : BitVec 36) :
    OutKept q (execSha256 t tag blk a3 s) := by
  unfold execSha256
  repeat' first | with_reducible assumption | simp only [OutKept.next_iff] | with_reducible apply cryptIssue_kept

end Sys2Proof.Machine
end

