-- ==== Sys2Proof/Laws/KeptRings.lean ====
section
/-! SUPPORT. What bundles, rings, debug, arrivals and clocks keep (Sys2Proof.Machine.Kept): one lemma per operation, each citing those of the operations it calls. -/

namespace Sys2Proof.Machine

variable {q : List Instr} {s : State}

theorem newNonce_kept (h : Kept q s) : Kept q (newNonce s) := by
  unfold newNonce
  repeat' first
    | with_reducible assumption | (simp only [Kept.mk_iff]; with_reducible refine Kept.facts ?_)
    | with_reducible apply drawFree_kept

theorem ringFetch_kept (h : Kept q s) (p r : Nat) : Kept q (ringFetch s p r) := by
  unfold ringFetch
  repeat' first
    | (lift_lets; intro) | with_reducible assumption | intro _ | with_reducible apply setRing_kept
    | (with_reducible refine Kept.ite (fun _ => ?_) (fun _ => ?_))

theorem hobbleDisarm_kept (h : Kept q s) : Kept q (hobbleDisarm s) := by
  unfold hobbleDisarm
  repeat' first
    | with_reducible assumption | with_reducible apply hobbleWrite_kept
    | (with_reducible refine Kept.fold (fun _ _ _ => ?_) ?_)

theorem sylUndef_keeps (w : W36) : Syl.Keeps (sylUndef w) := by
  unfold sylUndef
  repeat' first | intro _ | simp only [Syl.keeps_iff] | with_reducible exact Fx.still

theorem helpDecode_keeps (t : Thr) (w : W36) : Syl.Keeps (helpDecode t w) := by
  unfold helpDecode
  repeat' first
    | (lift_lets; intro) | intro _ | with_reducible apply sylWaitev_keeps | with_reducible apply sylTbl_keeps
    | with_reducible apply sylChrd_keeps | with_reducible apply sylUnlock_keeps | with_reducible apply sylSignal_keeps
    | with_reducible apply sylSrch_keeps | with_reducible apply sylChpost_keeps | with_reducible apply sylGetwork_keeps
    | with_reducible apply sylChopen_keeps | with_reducible apply sylDone_keeps | with_reducible apply sylUndef_keeps
    | with_reducible apply sylPost_keeps | with_reducible apply sylBuf_keeps | with_reducible apply sylTimer_keeps
    | with_reducible apply sylLock_keeps | with_reducible apply sylMove_keeps | with_reducible apply sylChnext_keeps
    | with_reducible apply sylChw_keeps | with_reducible apply sylCrypt_keeps | with_reducible apply sylDefer_keeps
    | with_reducible apply sylSplit_keeps | with_reducible apply sylDrop_keeps | split

theorem memDecode_keeps (t : Thr) (w : W36) : Syl.Keeps (memDecode t w) := by
  unfold memDecode
  repeat' first
    | (lift_lets; intro) | intro _ | with_reducible apply sylLdo_keeps | with_reducible apply sylLockw_keeps
    | with_reducible apply sylSto_keeps | with_reducible apply sylLd_keeps | with_reducible apply sylFmov_keeps
    | with_reducible apply sylLdd_keeps | with_reducible apply sylFld_keeps | with_reducible apply sylUnlockw_keeps
    | with_reducible apply helpDecode_keeps | with_reducible apply sylTlvnext_keeps | with_reducible apply sylSt_keeps
    | with_reducible apply sylBmwalk_keeps | with_reducible apply sylFst_keeps | with_reducible apply sylXlat_keeps
    | with_reducible apply sylNop_keeps | split

theorem doorbellBegin_kept (h : Kept q s) (p : Nat) : Kept q (doorbellBegin s p) := by
  unfold doorbellBegin
  repeat' first
    | (lift_lets; intro) | with_reducible assumption | (simp only [Kept.mk_iff]; with_reducible refine Kept.facts ?_)
    | (with_reducible refine Kept.ite (fun _ => ?_) (fun _ => ?_))

theorem doorbellOver_kept (h : Kept q s) (p : Nat) : Kept q (doorbellOver s p) := by
  unfold doorbellOver
  repeat' first
    | (lift_lets; intro) | with_reducible assumption | intro _
    | (simp only [Kept.mk_iff]; with_reducible refine Kept.facts ?_) | with_reducible apply doorbellBegin_kept
    | (with_reducible refine Kept.ite (fun _ => ?_) (fun _ => ?_)) | dsimp +zetaDelta only

theorem timeAdjust_kept (h : Kept q s) (d : Int) : Kept q (timeAdjust s d) := by
  unfold timeAdjust
  repeat' first
    | (lift_lets; intro) | with_reducible assumption | (simp only [Kept.mk_iff]; with_reducible refine Kept.facts ?_)
    | (with_reducible refine Kept.ite (fun _ => ?_) (fun _ => ?_))

theorem tadjWrite_kept (h : Kept q s) (v : Nat) : Kept q (tadjWrite s v) := by
  unfold tadjWrite
  repeat' first | with_reducible assumption | with_reducible apply timeAdjust_kept

theorem debugRefused_kept (h : Kept q s) (agent off : Nat) : Kept q (debugRefused s agent off) := by
  unfold debugRefused
  repeat' first | with_reducible assumption | with_reducible apply violate_kept

theorem patchCores_kept (h : Kept q s) (x : Patch) (cores : List Nat) : Kept q (patchCores s x cores) := by
  unfold patchCores
  repeat' first
    | (lift_lets; intro) | with_reducible assumption | (simp only [Kept.mk_iff]; with_reducible refine Kept.facts ?_)

theorem patchAll_kept (h : Kept q s) (x : Patch) : Kept q (patchAll s x) := by
  unfold patchAll
  repeat' first
    | (lift_lets; intro) | with_reducible assumption | intro _
    | (simp only [Kept.mk_iff]; with_reducible refine Kept.facts ?_) | with_reducible apply patchCores_kept

theorem tsetNow_kept (h : Kept q s) : Kept q (tsetNow s) := by
  unfold tsetNow
  repeat' first
    | (lift_lets; intro) | with_reducible assumption | (simp only [Kept.mk_iff]; with_reducible refine Kept.facts ?_)

theorem tregWrite_kept (h : Kept q s) (agent v : Nat) : Kept q (tregWrite s agent v) := by
  unfold tregWrite
  repeat' first
    | (lift_lets; intro) | with_reducible assumption | intro _ | with_reducible apply wrDev_kept
    | with_reducible apply debugRefused_kept | with_reducible apply updCtx_kept
    | (with_reducible refine Kept.ite (fun _ => ?_) (fun _ => ?_)) | split

theorem haltReqNow_kept (h : Kept q s) (t : Nat) : Kept q (haltReqNow s t) := by
  unfold haltReqNow
  repeat' first
    | (lift_lets; intro) | with_reducible assumption | with_reducible apply haltThread_kept
    | with_reducible apply noteDeferral_kept | with_reducible apply updThr_kept
    | (with_reducible refine Kept.ite (fun _ => ?_) (fun _ => ?_))

theorem releaseHalt_kept (h : Kept q s) (t : Nat) (a2 : Bool) : Kept q (releaseHalt s t a2) := by
  unfold releaseHalt
  repeat' first
    | (lift_lets; intro) | with_reducible assumption | with_reducible apply joinWaiters_kept
    | with_reducible apply updThr_kept | (with_reducible refine Kept.ite (fun _ => ?_) (fun _ => ?_))

theorem tctlWrite_kept (h : Kept q s) (agent v : Nat) : Kept q (tctlWrite s agent v) := by
  unfold tctlWrite
  repeat' first
    | (lift_lets; intro) | with_reducible assumption | intro _ | with_reducible apply debugRefused_kept
    | with_reducible apply haltReqNow_kept | with_reducible apply releaseHalt_kept
    | (with_reducible refine Kept.ite (fun _ => ?_) (fun _ => ?_)) | split

theorem debugClear_kept (h : Kept q s) : Kept q (debugClear s) := by
  unfold debugClear
  repeat' first
    | (lift_lets; intro) | with_reducible assumption | intro _ | with_reducible apply wrDev_kept
    | with_reducible apply releaseHalt_kept | (with_reducible refine Kept.fold (fun _ _ _ => ?_) ?_)

theorem auditSet_kept (h : Kept q s) : Kept q (auditSet s) := by
  unfold auditSet
  repeat' first
    | (lift_lets; intro) | with_reducible assumption | intro _
    | (simp only [Kept.mk_iff]; with_reducible refine Kept.facts ?_) | with_reducible apply debugClear_kept
    | with_reducible apply sendEvent_kept | with_reducible apply hobbleDisarm_kept
    | (with_reducible refine Kept.ite (fun _ => ?_) (fun _ => ?_)) | dsimp +zetaDelta only

theorem execAuditSet_kept (h : Kept q s) (c : CmdRef) (confirm : BitVec 32) : OutKept q (execAuditSet c confirm s) := by
  unfold execAuditSet
  repeat' first
    | (lift_lets; intro) | with_reducible assumption | intro _ | simp only [OutKept.next_iff]
    | with_reducible apply finish_kept | with_reducible apply hostCmd_kept | with_reducible apply auditSet_kept
    | (with_reducible refine Kept.ite (fun _ => ?_) (fun _ => ?_))

theorem setGait_kept (h : Kept q s) (m : Nat) (x : Monitor) : Kept q (setGait s m x) := by
  unfold setGait
  repeat' first
    | (lift_lets; intro) | with_reducible assumption | (simp only [Kept.mk_iff]; with_reducible refine Kept.facts ?_)

theorem serviceEvent_kept (h : Kept q s) : Kept q (serviceEvent s) := by
  unfold serviceEvent
  repeat' first
    | (lift_lets; intro) | with_reducible assumption | (simp only [Kept.mk_iff]; with_reducible refine Kept.facts ?_)
    | with_reducible apply cqPush_kept | with_reducible apply cqReserve_kept
    | (with_reducible refine Kept.ite (fun _ => ?_) (fun _ => ?_)) | split

theorem execServiceEvent_kept (h : Kept q s) : OutKept q (execServiceEvent s) := by
  unfold execServiceEvent
  repeat' first | with_reducible assumption | simp only [OutKept.next_iff] | with_reducible apply serviceEvent_kept

theorem dbgUnlock_kept (h : Kept q s) (c : CmdRef) (addr : Nat) : Kept q (dbgUnlock s c addr) := by
  unfold dbgUnlock
  repeat' first
    | (lift_lets; intro) | with_reducible assumption | intro _
    | (simp only [Kept.mk_iff]; with_reducible refine Kept.facts ?_) | with_reducible apply finish_kept
    | with_reducible apply sendEvent_kept | with_reducible apply newNonce_kept
    | (with_reducible refine Kept.ite (fun _ => ?_) (fun _ => ?_))

theorem execDbgUnlock_kept (h : Kept q s) (c : CmdRef) (addr : BitVec 64) : OutKept q (execDbgUnlock c addr s) := by
  unfold execDbgUnlock
  repeat' first
    | (lift_lets; intro) | with_reducible assumption | intro _ | simp only [OutKept.next_iff]
    | with_reducible apply dbgUnlock_kept | with_reducible apply hostCmd_kept

theorem outsideStart_kept (h : Kept q s) (a1 : CmdRef) (a2 : Nat) (a3 : Option Nat) : Kept q (outsideStart s a1 a2 a3) :=
  hostCmd_kept h _ _ (fun _ h => h.upd rfl rfl rfl rfl rfl)

theorem mcsLoad_kept (h : Kept q s) (c : CmdRef) (addr len : Nat) : Kept q (mcsLoad s c addr len) := by
  unfold mcsLoad
  repeat' first
    | (lift_lets; intro) | with_reducible assumption | intro _
    | (simp only [Kept.mk_iff]; with_reducible refine Kept.facts ?_) | with_reducible apply finish_kept
    | (with_reducible refine Kept.ite (fun _ => ?_) (fun _ => ?_)) | split

theorem execMcsLoad_kept (h : Kept q s) (c : CmdRef) (addr : BitVec 64) (len : BitVec 32) :
    OutKept q (execMcsLoad c addr len s) := by
  unfold execMcsLoad
  repeat' first
    | with_reducible assumption | simp only [OutKept.next_iff] | with_reducible apply finish_kept
    | with_reducible apply mcsLoad_kept | (with_reducible refine Kept.ite (fun _ => ?_) (fun _ => ?_))

theorem execServiceNop_kept (h : Kept q s) (c : CmdRef) : OutKept q (execServiceNop c s) := by
  unfold execServiceNop
  repeat' first
    | (lift_lets; intro) | with_reducible assumption | intro _ | simp only [OutKept.next_iff]
    | with_reducible apply finish_kept | with_reducible apply hostCmd_kept

theorem serviceStart_kept (h : Kept q s) (c : CmdRef) (opc : Nat) (d : List Octet) :
    OutKept q (serviceStart s c opc d) := by
  unfold serviceStart
  repeat' first
    | (lift_lets; intro) | with_reducible assumption | intro _ | simp only [OutKept.next_iff]
    | with_reducible apply execFarReport_kept | with_reducible apply execDbgUnlock_kept | with_reducible apply finish_kept
    | with_reducible apply outsideStart_kept | with_reducible apply execMcsLoad_kept
    | with_reducible apply execServiceNop_kept | with_reducible apply execAuditSet_kept | with_reducible apply hostCmd_kept
    | with_reducible apply execFarSwap_kept | with_reducible apply execFarQuiesce_kept | split

theorem execNopCommand_kept (h : Kept q s) (c : CmdRef) : OutKept q (execNopCommand c s) := by
  unfold execNopCommand
  repeat' first
    | (lift_lets; intro) | with_reducible assumption | intro _ | simp only [OutKept.next_iff]
    | with_reducible apply finish_kept | with_reducible apply hostCmd_kept

theorem prgRefuse_kept (h : Kept q s) (p c sp w n : Nat) {k : Nat} {t : State} (e : prgRefuse s p c sp w n = some (k, t)) :
    Kept q t := by
  unfold prgRefuse at e
  split at e
  · cases e; exact h
  · split at e
    · cases e
      split
      · exact hostViolate_kept h _ _ _
      · exact h
    · split at e
      · cases e; exact h
      · cases e

theorem prgRead_kept (h : Kept q s) (a1 : CmdRef) (a2 a3 : Nat) (a4 a5 a6 : Nat) :
    Kept q (prgRead s a1 a2 a3 a4 a5 a6) := by
  unfold prgRead
  repeat' first
    | (lift_lets; intro) | with_reducible assumption | intro _
    | (with_reducible refine prgRefuse_kept h _ _ _ _ _ (by assumption)) | with_reducible apply finish_kept
    | with_reducible apply hostWrite_kept | (with_reducible refine Kept.fold (fun _ _ _ => ?_) ?_)
    | (with_reducible refine Kept.ite (fun _ => ?_) (fun _ => ?_)) | split

theorem execPrgRead_kept (h : Kept q s) (c : CmdRef) (cluster space : BitVec 8) (woff : BitVec 24) (count : BitVec 16) (addr : BitVec 64) :
    OutKept q (execPrgRead c cluster space woff count addr s) := by
  unfold execPrgRead
  repeat' first
    | (lift_lets; intro) | with_reducible assumption | intro _ | simp only [OutKept.next_iff]
    | with_reducible apply prgRead_kept | with_reducible apply hostCmd_kept

theorem prgWrite_kept (h : Kept q s) (a1 : CmdRef) (a2 a3 : Nat) (a4 a5 a6 : Nat) :
    Kept q (prgWrite s a1 a2 a3 a4 a5 a6) := by
  unfold prgWrite
  repeat' first
    | (lift_lets; intro) | with_reducible assumption | intro _
    | (with_reducible refine prgRefuse_kept h _ _ _ _ _ (by assumption)) | with_reducible apply setCsm_kept
    | with_reducible apply setIst_kept | with_reducible apply finish_kept
    | (with_reducible refine Kept.fold (fun _ _ _ => ?_) ?_) | (with_reducible refine Kept.ite (fun _ => ?_) (fun _ => ?_))
    | split

theorem execPrgWrite_kept (h : Kept q s) (c : CmdRef) (cluster space : BitVec 8) (woff : BitVec 24) (count : BitVec 16) (addr : BitVec 64) :
    OutKept q (execPrgWrite c cluster space woff count addr s) := by
  unfold execPrgWrite
  repeat' first
    | (lift_lets; intro) | with_reducible assumption | intro _ | simp only [OutKept.next_iff]
    | with_reducible apply prgWrite_kept | with_reducible apply hostCmd_kept

theorem dmaViolate_kept (h : Kept q s) (c : CmdRef) (kind sel off : Nat) : Kept q (dmaViolate s c kind sel off) := by
  unfold dmaViolate
  repeat' first | with_reducible assumption | with_reducible apply violate_kept

theorem dmaCopy_kept (h : Kept q s) (c : CmdRef) (mode sel : Nat) (doff addr len : Nat) :
    Kept q (dmaCopy s c mode sel doff addr len) := by
  unfold dmaCopy
  repeat' first
    | (lift_lets; intro) | with_reducible assumption | intro _
    | (simp only [Kept.mk_iff]; with_reducible refine Kept.facts ?_) | with_reducible apply dmaViolate_kept
    | with_reducible apply finish_kept | (with_reducible refine Kept.ite (fun _ => ?_) (fun _ => ?_)) | split

theorem execDmaCopy_kept (h : Kept q s) (c : CmdRef) (mode : BitVec 8) (sel : BitVec 16) (doff : BitVec 40) (addr : BitVec 64) (len : BitVec 32) :
    OutKept q (execDmaCopy c mode sel doff addr len s) := by
  unfold execDmaCopy
  repeat' first
    | (lift_lets; intro) | with_reducible assumption | intro _ | simp only [OutKept.next_iff]
    | with_reducible apply hostCmd_kept | with_reducible apply dmaCopy_kept

theorem commandStart_kept (h : Kept q s) (c : CmdRef) (opc : Nat) (d : List Octet) :
    OutKept q (commandStart s c opc d) := by
  unfold commandStart
  repeat' first
    | (lift_lets; intro) | with_reducible assumption | intro _ | simp only [OutKept.next_iff]
    | with_reducible apply execNopCommand_kept | with_reducible apply execBufQuery_kept
    | with_reducible apply execStfResync_kept | with_reducible apply execStfQuery_kept
    | with_reducible apply execPrgRead_kept | with_reducible apply execJnlCert_kept | with_reducible apply execBufDrop_kept
    | with_reducible apply execHspQuery_kept | with_reducible apply execKeyLoad_kept | with_reducible apply execSegRead_kept
    | with_reducible apply execHltFdrop_kept | with_reducible apply execSchPost_kept | with_reducible apply execJnlSeal_kept
    | with_reducible apply finish_kept | with_reducible apply execKeyKekset_kept | with_reducible apply execBufReclaim_kept
    | with_reducible apply execBufShare_kept | with_reducible apply execSegWrite_kept
    | with_reducible apply execHspAcquire_kept | with_reducible apply execHspRelease_kept
    | with_reducible apply execBufAlloc_kept | with_reducible apply execKeyQuery_kept
    | with_reducible apply execTaskRecall_kept | with_reducible apply execSrcSearch_kept
    | with_reducible apply execSrcFlush_kept | with_reducible apply execSegPresent_kept
    | with_reducible apply execTaskResume_kept | with_reducible apply execTaskRetry_kept
    | with_reducible apply execHltQuery_kept | with_reducible apply execPrgWrite_kept
    | with_reducible apply execSrcDelete_kept | with_reducible apply execTaskKill_kept
    | with_reducible apply execStfClose_kept | with_reducible apply execDmaCopy_kept | with_reducible apply execSrcRead_kept
    | with_reducible apply execBufGive_kept | with_reducible apply hostCmd_kept | with_reducible apply execBufFree_kept
    | with_reducible apply execSrcSetad_kept | with_reducible apply execKeyDelete_kept
    | with_reducible apply execStfOpen_kept | with_reducible apply execTblExec_kept
    | with_reducible apply execSrcInsert_kept | split

theorem txFinish_kept (h : Kept q s) (c : CmdRef) (status eq : Nat) : Kept q (txFinish s c status eq) := by
  unfold txFinish
  repeat' first | with_reducible assumption | with_reducible apply complete_kept

theorem txQueue_kept (h : Kept q s) (a1 : CmdRef) (a2 : List Octet) (a3 a4 : Nat) (a5 : Bool) :
    Kept q (txQueue s a1 a2 a3 a4 a5) := by
  have hw : Kept q { s with gpl := { s.gpl with waiting := s.gpl.waiting ++ [⟨a1, s.now, .tx a2 a3 a4 a5⟩] } } :=
    h.upd rfl rfl rfl rfl rfl
  unfold txQueue
  dsimp only
  split
  · exact hw
  · cases e : txPlace s a1 a2 a3 a4 a5 with
    | none => exact hw
    | some t => exact txPlace_kept h _ _ _ _ _ e

theorem txDevice_kept (h : Kept q s) (c : CmdRef) (sel doff len eq : Nat) {x : Option (List Octet)} {t : State}
    (e : txDevice s c sel doff len eq = some (x, t)) : Kept q t := by
  unfold txDevice at e
  split at e
  · cases e; exact txFinish_kept (dmaViolate_kept h _ _ _ _) _ _ _
  · cases e
  · split at e
    · cases e; exact txFinish_kept h _ _ _
    · cases e; exact h

theorem transmitNow_kept (h : Kept q s) (a1 : CmdRef) (a2 : TxArgs) : Kept q (transmitNow s a1 a2) := by
  unfold transmitNow
  dsimp only
  split
  · exact h
  · split
    · exact txFinish_kept h _ _ _
    · split
      · exact txFinish_kept h _ _ _
      · split
        · split
          · exact txFinish_kept (hostViolate_kept h _ _ _) _ _ _
          · exact txFinish_kept h _ _ _
        · split
          · split
            · exact txQueue_kept (txDevice_kept h _ _ _ _ _ (by assumption)) _ _ _ _ _
            · exact txDevice_kept h _ _ _ _ _ (by assumption)
            · exact h.upd rfl rfl rfl rfl rfl
          · exact txQueue_kept h _ _ _ _ _

theorem txStart_kept (h : Kept q s) (c : CmdRef) (d : List Octet) : Kept q (txStart s c d) := by
  unfold txStart
  repeat' first
    | (lift_lets; intro) | with_reducible assumption | intro _ | with_reducible apply txFinish_kept
    | with_reducible apply transmitNow_kept | (with_reducible refine Kept.ite (fun _ => ?_) (fun _ => ?_))

/-- The next state of an outcome, or the state before. -/
theorem nextOr_kept (h : Kept q s) {o : Host.Outcome State Fault Refusal} (ho : OutKept q o) : Kept q (nextOr s o) := by
  unfold nextOr
  split
  · exact ho.next _ rfl
  · exact h

theorem descStart_kept (h : Kept q s) (p r : Nat) (d : Desc) : Kept q (descStart s p r d) := by
  unfold descStart
  repeat' first
    | (lift_lets; intro) | with_reducible assumption | intro _ | with_reducible apply serviceStart_kept
    | with_reducible apply commandStart_kept | with_reducible apply txStart_kept | with_reducible apply nextOr_kept
    | (with_reducible refine Kept.ite (fun _ => ?_) (fun _ => ?_))

theorem ringStart_kept (h : Kept q s) (a0 a2 a3 : Nat) : Kept q (ringStart a0 s a2 a3) := by
  induction a0 generalizing s  with
  | zero =>
    unfold ringStart
    repeat' first | with_reducible assumption
  | succ _ ih =>
    unfold ringStart
    repeat' first
      | (lift_lets; intro) | with_reducible assumption | with_reducible apply ih | with_reducible apply setRing_kept
      | with_reducible apply descStart_kept | (with_reducible refine Kept.ite (fun _ => ?_) (fun _ => ?_)) | split

theorem ppsEdge_kept (h : Kept q s) : Kept q (ppsEdge s) := by
  unfold ppsEdge
  repeat' first
    | (lift_lets; intro) | with_reducible assumption | intro _
    | (simp only [Kept.mk_iff]; with_reducible refine Kept.facts ?_) | with_reducible apply timeAdjust_kept
    | (with_reducible refine Kept.ite (fun _ => ?_) (fun _ => ?_)) | dsimp +zetaDelta only

theorem i2cBus_kept (h : Kept q s) (cage : Nat) (e : Bool → OutEvent) : Kept q (i2cBus s cage e) := by
  unfold i2cBus
  repeat' first | with_reducible assumption | (simp only [Kept.mk_iff]; with_reducible refine Kept.facts ?_)

theorem modWrite_kept (h : Kept q s) (c : CmdRef) (cage page : Nat) (off len addr : Nat) (answered : Bool) :
    Kept q (modWrite s c cage page off len addr answered) := by
  unfold modWrite
  repeat' first
    | (lift_lets; intro) | with_reducible assumption | with_reducible apply finish_kept | with_reducible apply i2cBus_kept
    | split

theorem decDecode_keeps (t : Thr) (w : W36) : Syl.Keeps (decDecode t w) := by
  unfold decDecode
  repeat' first
    | (lift_lets; intro) | intro _ | with_reducible apply sylDcmp_keeps | with_reducible apply sylLuhn_keeps
    | with_reducible apply sylDadd_keeps | with_reducible apply sylUndef_keeps | with_reducible apply sylDchk_keeps
    | with_reducible apply sylCvbd_keeps | with_reducible apply sylDsub_keeps | with_reducible apply sylCvdb_keeps | split

theorem fetchAll_kept (h : Kept q s) (p : Nat) : Kept q (fetchAll s p) := by
  unfold fetchAll
  repeat' first
    | with_reducible assumption | with_reducible apply ringFetch_kept
    | (with_reducible refine Kept.fold (fun _ _ _ => ?_) ?_)

theorem slotDone_kept (h : Kept q s) (p : Nat) (e : Compl) : Kept q (slotDone s p e) := by
  unfold slotDone
  repeat' first
    | (lift_lets; intro) | with_reducible assumption | intro _ | with_reducible apply ringStart_kept
    | with_reducible apply fetchAll_kept | with_reducible apply setRing_kept

theorem taiTick_kept (h : Kept q s) : Kept q (taiTick s) := by
  unfold taiTick
  repeat' first
    | (lift_lets; intro) | with_reducible assumption | (simp only [Kept.mk_iff]; with_reducible refine Kept.facts ?_)

theorem loadCount_kept (h : Kept q s) (x : McsLoad) (c : Nat) : Kept q (loadCount s x c) := by
  unfold loadCount
  repeat' first
    | (lift_lets; intro) | with_reducible assumption | intro _
    | (simp only [Kept.mk_iff]; with_reducible refine Kept.facts ?_) | with_reducible apply patchCores_kept
    | (with_reducible refine Kept.ite (fun _ => ?_) (fun _ => ?_))

theorem loadSwap_kept (h : Kept q s) (x : McsLoad) (l f : Nat) : Kept q (loadSwap s x l f) := by
  unfold loadSwap
  repeat' first
    | (lift_lets; intro) | with_reducible assumption | intro _
    | (simp only [Kept.mk_iff]; with_reducible refine Kept.facts ?_) | with_reducible apply patchCores_kept
    | with_reducible apply loadCount_kept | with_reducible apply farCnt_kept | with_reducible apply doubtGone_kept
    | with_reducible apply coreStop_kept | with_reducible apply setSpare_kept | split | dsimp +zetaDelta only

theorem loadCluster_kept (h : Kept q s) (c : Nat) : Kept q (loadCluster s c) := by
  unfold loadCluster
  repeat' first
    | (lift_lets; intro) | with_reducible assumption | intro _
    | (simp only [Kept.mk_iff]; with_reducible refine Kept.facts ?_) | with_reducible apply noteDeferral_kept
    | with_reducible apply loadSwap_kept | with_reducible apply patchCores_kept | with_reducible apply loadCount_kept
    | with_reducible apply coreStop_kept | (with_reducible refine Kept.fold (fun _ _ _ => ?_) ?_)
    | (with_reducible refine Kept.ite (fun _ => ?_) (fun _ => ?_)) | split | dsimp +zetaDelta only

theorem loadStop_kept (h : Kept q s) : Kept q (loadStop s) := by
  unfold loadStop
  repeat' first
    | (lift_lets; intro) | with_reducible assumption | (simp only [Kept.mk_iff]; with_reducible refine Kept.facts ?_)

theorem loadSettle_kept (h : Kept q s) : Kept q (loadSettle s) := by
  unfold loadSettle
  repeat' first
    | (lift_lets; intro) | with_reducible assumption | with_reducible apply loadCluster_kept
    | with_reducible apply loadStop_kept | with_reducible apply finish_kept | with_reducible apply jnlEvent_kept
    | (with_reducible refine Kept.fold (fun _ _ _ => ?_) ?_) | (with_reducible refine Kept.ite (fun _ => ?_) (fun _ => ?_))
    | split

theorem dmaEnd_kept (h : Kept q s) (d : Dma) (status : Nat) : Kept q (dmaEnd s d status) := by
  unfold dmaEnd
  repeat' first
    | (lift_lets; intro) | with_reducible assumption | (simp only [Kept.mk_iff]; with_reducible refine Kept.facts ?_)
    | with_reducible apply finish_kept

theorem hostPuts_kept (h : Kept q s) (p : Nat) (l : List (BitVec 64 × Octet)) : Kept q (hostPuts s p l) := by
  unfold hostPuts
  repeat' first
    | with_reducible assumption | with_reducible apply hostWrite_kept
    | (with_reducible refine Kept.fold (fun _ _ _ => ?_) ?_)

theorem gplNudge_kept (h : Kept q s) (p : Nat) (l : List (BitVec 64 × Octet)) : Kept q (gplNudge s p l) := by
  unfold gplNudge
  repeat' first
    | (lift_lets; intro) | with_reducible assumption | with_reducible apply hostPuts_kept
    | with_reducible apply doorbellBegin_kept | (with_reducible refine Kept.ite (fun _ => ?_) (fun _ => ?_))

theorem gaitTake_kept (h : Kept q s) (m v : Nat) : Kept q (gaitTake s m v) := by
  unfold gaitTake
  repeat' first | (lift_lets; intro) | with_reducible assumption | with_reducible apply setGait_kept

theorem gaitTakeDue_kept (h : Kept q s) (m : Nat) : Kept q (gaitTakeDue s m) := by
  unfold gaitTakeDue
  repeat' first
    | (lift_lets; intro) | with_reducible assumption | with_reducible apply gaitTake_kept
    | with_reducible apply setGait_kept | split

theorem gaitSampleNow_kept (h : Kept q s) (m v : Nat) : Kept q (gaitSampleNow s m v) := by
  unfold gaitSampleNow
  repeat' first
    | (lift_lets; intro) | with_reducible assumption | intro _ | with_reducible apply gaitTakeDue_kept
    | with_reducible apply gaitTake_kept | with_reducible apply setGait_kept
    | (with_reducible refine Kept.ite (fun _ => ?_) (fun _ => ?_))

theorem execGaitSample_kept (h : Kept q s) (mon : BitVec 8) (value : BitVec 32) :
    OutKept q (execGaitSample mon value s) := by
  unfold execGaitSample
  repeat' first | with_reducible assumption | simp only [OutKept.next_iff] | with_reducible apply gaitSampleNow_kept

theorem gaitSettle_kept (h : Kept q s) (a0 a2 : Nat) : Kept q (gaitSettle a0 s a2) := by
  induction a0 generalizing s  with
  | zero =>
    unfold gaitSettle
    repeat' first | with_reducible assumption
  | succ _ ih =>
    unfold gaitSettle
    repeat' first | with_reducible assumption | with_reducible apply ih | with_reducible apply gaitTakeDue_kept

theorem gaitSnapshot_kept (h : Kept q s) (m : Nat) : Kept q (gaitSnapshot s m) := by
  unfold gaitSnapshot
  repeat' first
    | (lift_lets; intro) | with_reducible assumption | intro _ | with_reducible apply gaitSettle_kept
    | with_reducible apply setGait_kept

theorem gaitPsnap_kept (h : Kept q s) (p : Nat) : Kept q (gaitPsnap s p) := by
  unfold gaitPsnap
  repeat' first
    | with_reducible assumption | with_reducible apply gaitSnapshot_kept
    | (with_reducible refine Kept.fold (fun _ _ _ => ?_) ?_)

theorem execGaitPsnap_kept (h : Kept q s) (part : BitVec 3) : OutKept q (execGaitPsnap part s) := by
  unfold execGaitPsnap
  repeat' first
    | with_reducible assumption | simp only [OutKept.next_iff] | with_reducible apply gaitPsnap_kept
    | (with_reducible refine Kept.ite (fun _ => ?_) (fun _ => ?_))

theorem descFail_kept (h : Kept q s) (r : Nat) : Kept q (descFail s r) := by
  unfold descFail
  repeat' first
    | (lift_lets; intro) | with_reducible assumption | intro _ | with_reducible apply readFailed_kept
    | with_reducible apply setRing_kept | with_reducible apply wrRing_kept | with_reducible apply cqPush_kept
    | (with_reducible refine Kept.ite (fun _ => ?_) (fun _ => ?_)) | split

theorem doorbellPoll_kept (h : Kept q s) (p : Nat) (l : List (BitVec 64 × Octet)) : Kept q (doorbellPoll s p l) := by
  unfold doorbellPoll
  repeat' first
    | (lift_lets; intro) | with_reducible assumption | intro _
    | (simp only [Kept.mk_iff]; with_reducible refine Kept.facts ?_) | with_reducible apply hostPuts_kept
    | with_reducible apply doorbellBegin_kept | (with_reducible refine Kept.ite (fun _ => ?_) (fun _ => ?_))

theorem exportDone_kept (h : Kept q s) : Kept q (exportDone s) := by
  unfold exportDone
  repeat' first
    | (lift_lets; intro) | with_reducible assumption | (simp only [Kept.mk_iff]; with_reducible refine Kept.facts ?_)
    | with_reducible apply jnlCnt_kept

theorem dmaSet_kept (h : Kept q s) (d : Dma) : Kept q (dmaSet s d) := by
  unfold dmaSet
  repeat' first
    | (lift_lets; intro) | with_reducible assumption | (simp only [Kept.mk_iff]; with_reducible refine Kept.facts ?_)

theorem farTimeout_kept (h : Kept q s) (r : CtxRef) (tag : Nat) : Kept q (farTimeout s r tag) := by
  unfold farTimeout
  repeat' first
    | with_reducible assumption | with_reducible apply segSettle_kept | with_reducible apply farComplete_kept
    | (with_reducible refine Kept.ite (fun _ => ?_) (fun _ => ?_)) | split

theorem commandFail_kept (h : Kept q s) (c : CmdRef) : Kept q (commandFail s c) := by
  unfold commandFail
  repeat' first
    | with_reducible assumption | with_reducible apply readFailed_kept | with_reducible apply waitingEnd_kept
    | with_reducible apply unwait_kept | with_reducible apply dmaEnd_kept
    | (with_reducible refine Kept.ite (fun _ => ?_) (fun _ => ?_)) | split

theorem execPcieCompletionTimeout_kept (h : Kept q s) (read : HostRead) : OutKept q (execPcieCompletionTimeout read s) := by
  unfold execPcieCompletionTimeout
  repeat' first
    | with_reducible assumption | simp only [OutKept.next_iff] | with_reducible apply readFailed_kept
    | with_reducible apply descFail_kept | with_reducible apply farTimeout_kept | with_reducible apply gplCnt_kept
    | with_reducible apply commandFail_kept | with_reducible apply doorbellOver_kept
    | (with_reducible refine Kept.ite (fun _ => ?_) (fun _ => ?_)) | split

theorem complWrite_kept (h : Kept q s) (a1 : Nat) : Kept q (complWrite s a1) := by
  unfold complWrite
  repeat' first
    | (lift_lets; intro) | with_reducible assumption | intro _ | with_reducible apply setRing_kept
    | with_reducible apply slotDone_kept | with_reducible apply gplCnt_kept | with_reducible apply exportDone_kept
    | with_reducible apply hostWrite_kept | (with_reducible refine Kept.ite (fun _ => ?_) (fun _ => ?_)) | split

theorem execGplNudge_kept (h : Kept q s) (part : BitVec 3) (written : List (BitVec 64 × Octet)) :
    OutKept q (execGplNudge part written s) := by
  unfold execGplNudge
  repeat' first | with_reducible assumption | simp only [OutKept.next_iff] | with_reducible apply gplNudge_kept

theorem undefSyl_keeps (t : Thr) : Syl.Keeps (undefSyl t) := by
  unfold undefSyl
  repeat' first
    | with_reducible assumption | intro _ | simp only [Syl.keeps_iff] | simp only [Fx.keeps_iff]
    | with_reducible apply thrViolate_kept

theorem execPpsInLoss_kept (h : Kept q s) : OutKept q (execPpsInLoss s) := by
  unfold execPpsInLoss
  repeat' first
    | with_reducible assumption | simp only [OutKept.next_iff] | with_reducible apply wrFlag_kept
    | (with_reducible refine Kept.ite (fun _ => ?_) (fun _ => ?_))

theorem waitingPut_kept (h : Kept q s) (w : Waiting) (l : List Waiting) : Kept q (waitingPut s w l) := by
  unfold waitingPut
  repeat' first
    | (lift_lets; intro) | with_reducible assumption | (simp only [Kept.mk_iff]; with_reducible refine Kept.facts ?_)

theorem txResume_kept (h : Kept q s) : Kept q (txResume s) := by
  unfold txResume
  split
  · rename_i e
    obtain ⟨w, -, e⟩ := List.exists_of_findSome?_eq_some e
    split at e
    · obtain ⟨⟨x, u⟩, e1, e2⟩ := Option.map_eq_some_iff.mp e
      have hu := txDevice_kept h _ _ _ _ _ e1
      subst e2
      split
      · exact txRetry_kept (waitingPut_kept (Kept.pair (by assumption) hu) _ _)
      · exact waitingPut_kept (Kept.pair (by assumption) hu) _ _
    · cases e
  · exact h

theorem unlockEnd_kept (h : Kept q s) : Kept q (unlockEnd s) := by
  unfold unlockEnd
  repeat' first
    | (lift_lets; intro) | with_reducible assumption | (simp only [Kept.mk_iff]; with_reducible refine Kept.facts ?_)
    | with_reducible apply debugClear_kept

theorem chunkMove_kept (h : Kept q s) (d : Dma) (n dev : Nat) : Kept q (chunkMove s d n dev) := by
  unfold chunkMove
  repeat' first
    | (lift_lets; intro) | with_reducible assumption | intro _ | with_reducible apply dmaEnd_kept
    | with_reducible apply devWrite_kept | with_reducible apply dmaSet_kept | with_reducible apply hostWrite_kept
    | (with_reducible refine Kept.ite (fun _ => ?_) (fun _ => ?_)) | split | dsimp +zetaDelta only

theorem gaitCfgWrite_kept (h : Kept q s) (p m : Nat) (w v : Nat) : Kept q (gaitCfgWrite s p m w v) := by
  unfold gaitCfgWrite
  repeat' first
    | (lift_lets; intro) | with_reducible assumption | intro _ | with_reducible apply wrGait_kept
    | with_reducible apply hostViolate_kept | with_reducible apply gaitSettle_kept | with_reducible apply setGait_kept
    | (with_reducible refine Kept.ite (fun _ => ?_) (fun _ => ?_))

theorem gaitSnapSel_kept (h : Kept q s) (p : Nat) : Kept q (gaitSnapSel s p) := by
  unfold gaitSnapSel
  repeat' first
    | (lift_lets; intro) | with_reducible assumption | with_reducible apply hostViolate_kept
    | with_reducible apply gaitSnapshot_kept | (with_reducible refine Kept.ite (fun _ => ?_) (fun _ => ?_))

theorem doorbellFetch_kept (h : Kept q s) (p : Nat) : Kept q (doorbellFetch s p) := by
  unfold doorbellFetch
  repeat' first
    | (lift_lets; intro) | with_reducible assumption | intro _ | with_reducible apply fetchAll_kept
    | with_reducible apply setRing_kept | with_reducible apply gplCnt_kept | with_reducible apply doorbellOver_kept
    | (with_reducible refine Kept.fold (fun _ _ _ => ?_) ?_) | (with_reducible refine Kept.ite (fun _ => ?_) (fun _ => ?_))

theorem execDebugUnlockExpiry_kept (h : Kept q s) : OutKept q (execDebugUnlockExpiry s) := by
  unfold execDebugUnlockExpiry
  repeat' first
    | with_reducible assumption | simp only [OutKept.next_iff] | with_reducible apply unlockEnd_kept
    | (with_reducible refine Kept.ite (fun _ => ?_) (fun _ => ?_)) | split

theorem execDbgTregWrite_kept (h : Kept q s) (value : BitVec 32) : OutKept q (execDbgTregWrite value s) := by
  unfold execDbgTregWrite
  repeat' first
    | with_reducible assumption | simp only [OutKept.next_iff] | with_reducible apply tregWrite_kept
    | (with_reducible refine Kept.ite (fun _ => ?_) (fun _ => ?_))

theorem dmaStep_kept (h : Kept q s) (d : Dma) : Kept q (dmaStep s d) := by
  unfold dmaStep
  repeat' first
    | (lift_lets; intro) | with_reducible assumption | with_reducible apply chunkMove_kept
    | with_reducible apply dmaViolate_kept | with_reducible apply dmaEnd_kept | with_reducible apply dmaSet_kept
    | (with_reducible refine Kept.ite (fun _ => ?_) (fun _ => ?_)) | split

theorem dmaEngine_kept (h : Kept q s) (port : Nat) : Kept q (dmaEngine s port) := by
  unfold dmaEngine
  repeat' first
    | (lift_lets; intro) | with_reducible assumption | (simp only [Kept.mk_iff]; with_reducible refine Kept.facts ?_)
    | with_reducible apply dmaStep_kept | split

theorem execDmaChunk_kept (h : Kept q s) : OutKept q (execDmaChunk s) := by
  unfold execDmaChunk
  repeat' first
    | with_reducible assumption | simp only [OutKept.next_iff] | with_reducible apply dmaEngine_kept
    | with_reducible apply txResume_kept | (with_reducible refine Kept.fold (fun _ _ _ => ?_) ?_)

theorem xDecode_keeps (t : Thr) (len : Nat) (w : W36) : Syl.Keeps (xDecode t len w) := by
  unfold xDecode
  repeat' first
    | (lift_lets; intro) | intro _ | with_reducible apply sylBfill_keeps | with_reducible apply sylB_keeps
    | with_reducible apply sylMul_keeps | with_reducible apply sylMfsr_keeps | with_reducible apply sylMtsr_keeps
    | with_reducible apply sylXlatb_keeps | with_reducible apply sylTime_keeps | with_reducible apply sylBmove_keeps
    | with_reducible apply sylUndef_keeps | with_reducible apply sylBr_keeps | with_reducible apply sylBl_keeps
    | with_reducible apply sylLuhnx_keeps | with_reducible apply sylCrcb_keeps | with_reducible apply sylCrc_keeps
    | with_reducible apply sylNop_keeps | split

theorem aluDecode_keeps (t : Thr) (u : Nat) (w : W36) : Syl.Keeps (aluDecode t u w) := by
  unfold aluDecode
  repeat' first
    | (lift_lets; intro) | intro _ | with_reducible apply sylCmpltui_keeps | with_reducible apply sylXor_keeps
    | with_reducible apply sylOri_keeps | with_reducible apply sylAddi_keeps | with_reducible apply sylOrev_keeps
    | with_reducible apply sylPwr_keeps | with_reducible apply sylCmpnei_keeps | with_reducible apply sylShr_keeps
    | with_reducible apply sylExti_keeps | with_reducible apply sylSel_keeps | with_reducible apply sylSub_keeps
    | with_reducible apply sylRoli_keeps | with_reducible apply sylSar_keeps | with_reducible apply sylSari_keeps
    | with_reducible apply sylCmp_keeps | with_reducible apply sylAndn_keeps | with_reducible apply sylPrd_keeps
    | with_reducible apply sylPar_keeps | with_reducible apply sylUndef_keeps | with_reducible apply sylOr_keeps
    | with_reducible apply sylDepi_keeps | with_reducible apply sylCmplti_keeps | with_reducible apply sylBcnt_keeps
    | with_reducible apply sylAnd_keeps | with_reducible apply sylAdd_keeps | with_reducible apply sylCmpeqi_keeps
    | with_reducible apply sylShri_keeps | with_reducible apply sylShl_keeps | with_reducible apply sylAndi_keeps
    | with_reducible apply sylShli_keeps | with_reducible apply sylRol_keeps | with_reducible apply sylPlog_keeps
    | with_reducible apply sylXori_keeps | with_reducible apply sylBrev_keeps | with_reducible apply sylLil_keeps
    | with_reducible apply sylNop_keeps | with_reducible apply decDecode_keeps | with_reducible apply sylLih_keeps | split

theorem sylDecode_keeps (t : Thr) (len : Nat) (w : W36) : Syl.Keeps (sylDecode t len w) := by
  unfold sylDecode
  repeat' first
    | with_reducible apply xDecode_keeps | with_reducible apply aluDecode_keeps | with_reducible apply memDecode_keeps
    | split

theorem fetchFail_kept (h : Kept q s) (t p pc : Nat) : Kept q (fetchFail s t p pc) := by
  unfold fetchFail
  repeat' first
    | with_reducible assumption | with_reducible apply thrViolate_kept | with_reducible apply coreCnt_kept
    | with_reducible apply updThr_kept

theorem bundleGo_kept (h : Kept q s) (a0 : Thr) : Kept q (bundleGo a0 s) := by
  unfold bundleGo
  dsimp only
  split
  · exact h
  · split
    · exact takeFault_kept h _ _ _ _ _
    · exact fetchFail_kept h _ _ _
    · refine issueSyls_kept h _ _ ?_
      intro x hx
      split at hx
      · cases List.mem_singleton.mp hx
        exact undefSyl_keeps _
      · obtain ⟨w, -, rfl⟩ := List.mem_map.mp hx
        exact sylDecode_keeps _ _ _

theorem execBundleIssue_kept (h : Kept q s) (t : Thr) : OutKept q (execBundleIssue t s) := by
  unfold execBundleIssue
  repeat' first
    | (lift_lets; intro) | with_reducible assumption | intro _ | simp only [OutKept.next_iff]
    | with_reducible apply turnWith_kept | with_reducible apply raisedDoubts_kept | with_reducible apply noDoubts_kept | with_reducible apply bundleGo_kept

theorem execPpsInEdge_kept (h : Kept q s) : OutKept q (execPpsInEdge s) := by
  unfold execPpsInEdge
  repeat' first | with_reducible assumption | simp only [OutKept.next_iff] | with_reducible apply ppsEdge_kept

theorem gaitWindowEnd_kept (h : Kept q s) (m : Nat) : Kept q (gaitWindowEnd s m) := by
  unfold gaitWindowEnd
  repeat' first
    | with_reducible assumption | with_reducible apply gaitSnapshot_kept
    | (with_reducible refine Kept.ite (fun _ => ?_) (fun _ => ?_))

theorem execGaitWindowEnd_kept (h : Kept q s) (mon : BitVec 8) : OutKept q (execGaitWindowEnd mon s) := by
  unfold execGaitWindowEnd
  repeat' first | with_reducible assumption | simp only [OutKept.next_iff] | with_reducible apply gaitWindowEnd_kept

theorem execGaitSnap_kept (h : Kept q s) (part : BitVec 3) : OutKept q (execGaitSnap part s) := by
  unfold execGaitSnap
  repeat' first
    | with_reducible assumption | simp only [OutKept.next_iff] | with_reducible apply gaitSnapSel_kept
    | (with_reducible refine Kept.ite (fun _ => ?_) (fun _ => ?_))

theorem execDbgStep_kept (h : Kept q s) : OutKept q (execDbgStep s) := by
  unfold execDbgStep
  repeat' first
    | with_reducible assumption | simp only [OutKept.next_iff] | with_reducible apply tctlWrite_kept
    | (with_reducible refine Kept.ite (fun _ => ?_) (fun _ => ?_))

theorem statusWrite_kept (h : Kept q s) (r : Nat) : Kept q (statusWrite s r) := by
  unfold statusWrite
  repeat' first
    | (lift_lets; intro) | with_reducible assumption | with_reducible apply setRing_kept
    | with_reducible apply hostWrite_kept | (with_reducible refine Kept.ite (fun _ => ?_) (fun _ => ?_)) | split

theorem execStatusBlockWrite_kept (h : Kept q s) (ring : BitVec 12) : OutKept q (execStatusBlockWrite ring s) := by
  unfold execStatusBlockWrite
  repeat' first | with_reducible assumption | simp only [OutKept.next_iff] | with_reducible apply statusWrite_kept

theorem execDoorbellPoll_kept (h : Kept q s) (part : BitVec 3) (written : List (BitVec 64 × Octet)) :
    OutKept q (execDoorbellPoll part written s) := by
  unfold execDoorbellPoll
  repeat' first | with_reducible assumption | simp only [OutKept.next_iff] | with_reducible apply doorbellPoll_kept

theorem execClk10InReturn_kept (h : Kept q s) : OutKept q (execClk10InReturn s) := by
  unfold execClk10InReturn
  repeat' first
    | (lift_lets; intro) | with_reducible assumption | (simp only [Kept.mk_iff]; with_reducible refine Kept.facts ?_)
    | simp only [OutKept.next_iff]

theorem delivEnd_kept (h : Kept q s) (r : Nat) (d : Deliv) : Kept q (delivEnd s r d) := by
  unfold delivEnd
  repeat' first | with_reducible assumption | with_reducible apply jnlItem_kept | with_reducible apply endUse_kept | split

theorem hostDelivery_kept (h : Kept q s) (r : Nat) : Kept q (hostDelivery s r) := by
  unfold hostDelivery
  repeat' first
    | (lift_lets; intro) | with_reducible assumption | (simp only [Kept.mk_iff]; with_reducible refine Kept.facts ?_)
    | with_reducible apply delivEnd_kept | with_reducible apply deliverRun_kept
    | (with_reducible refine Kept.ite (fun _ => ?_) (fun _ => ?_)) | split

theorem execHostDelivery_kept (h : Kept q s) (ring : BitVec 12) : OutKept q (execHostDelivery ring s) := by
  unfold execHostDelivery
  repeat' first | with_reducible assumption | simp only [OutKept.next_iff] | with_reducible apply hostDelivery_kept

theorem execTransmit_kept (h : Kept q s) (c : CmdRef) (dev tsReq : Bool) (addr : BitVec 64) (sel : BitVec 16) (doff : BitVec 40) (len eq eflags : BitVec 16) :
    OutKept q (execTransmit c dev tsReq addr sel doff len eq eflags s) := by
  unfold execTransmit
  repeat' first | with_reducible assumption | simp only [OutKept.next_iff] | with_reducible apply transmitNow_kept

theorem execGaitEnable_kept (h : Kept q s) (mon : BitVec 8) (value : BitVec 32) :
    OutKept q (execGaitEnable mon value s) := by
  unfold execGaitEnable
  repeat' first
    | with_reducible assumption | simp only [OutKept.next_iff] | with_reducible apply gaitCfgWrite_kept
    | (with_reducible refine Kept.ite (fun _ => ?_) (fun _ => ?_)) | split

theorem execCompletionWrite_kept (h : Kept q s) (ring : BitVec 12) : OutKept q (execCompletionWrite ring s) := by
  unfold execCompletionWrite
  repeat' first | with_reducible assumption | simp only [OutKept.next_iff] | with_reducible apply complWrite_kept

theorem execTimeSlewDone_kept (h : Kept q s) : OutKept q (execTimeSlewDone s) := by
  unfold execTimeSlewDone
  repeat' first
    | (lift_lets; intro) | with_reducible assumption | (simp only [Kept.mk_iff]; with_reducible refine Kept.facts ?_)
    | simp only [OutKept.next_iff] | (with_reducible refine Kept.ite (fun _ => ?_) (fun _ => ?_))

theorem descArrive_kept (h : Kept q s) (r : Nat) : Kept q (descArrive s r) := by
  unfold descArrive
  repeat' first
    | (lift_lets; intro) | with_reducible assumption | intro _ | with_reducible apply ringStart_kept
    | with_reducible apply setRing_kept | with_reducible apply gplCnt_kept
    | (with_reducible refine Kept.ite (fun _ => ?_) (fun _ => ?_)) | split | dsimp +zetaDelta only

theorem execDescriptorArrival_kept (h : Kept q s) (ring : BitVec 12) : OutKept q (execDescriptorArrival ring s) := by
  unfold execDescriptorArrival
  repeat' first | with_reducible assumption | simp only [OutKept.next_iff] | with_reducible apply descArrive_kept

theorem execDbgHalt_kept (h : Kept q s) : OutKept q (execDbgHalt s) := by
  unfold execDbgHalt
  repeat' first
    | with_reducible assumption | simp only [OutKept.next_iff] | with_reducible apply tctlWrite_kept
    | (with_reducible refine Kept.ite (fun _ => ?_) (fun _ => ?_))

theorem execClk10Loss_kept (h : Kept q s) : OutKept q (execClk10Loss s) := by
  unfold execClk10Loss
  repeat' first
    | (lift_lets; intro) | with_reducible assumption | intro _
    | (simp only [Kept.mk_iff]; with_reducible refine Kept.facts ?_) | simp only [OutKept.next_iff]
    | with_reducible apply wrFlag_kept | (with_reducible refine Kept.ite (fun _ => ?_) (fun _ => ?_))
    | dsimp +zetaDelta only

theorem modRead_kept (h : Kept q s) (c : CmdRef) (cage page : Nat) (off len addr : Nat) (a7 : Option (List Octet)) :
    Kept q (modRead s c cage page off len addr a7) := by
  unfold modRead
  repeat' first
    | (lift_lets; intro) | with_reducible assumption | with_reducible apply finish_kept | with_reducible apply i2cBus_kept
    | with_reducible apply hostWrite_kept | split

theorem execModRead_kept (h : Kept q s) (c : CmdRef) (cage page : BitVec 8) (off len : BitVec 8) (addr : BitVec 64) (a6 : Option (List Octet)) :
    OutKept q (execModRead c cage page off len addr a6 s) := by
  unfold execModRead
  repeat' first
    | (lift_lets; intro) | with_reducible assumption | intro _ | simp only [OutKept.next_iff]
    | with_reducible apply unwait_kept | with_reducible apply modRead_kept | with_reducible apply hostCmd_kept

theorem msixMessage_kept (h : Kept q s) (a1 : Nat) : Kept q (msixMessage s a1) := by
  unfold msixMessage
  repeat' first
    | (lift_lets; intro) | with_reducible assumption | with_reducible apply msixSend_kept
    | with_reducible apply setRing_kept | (with_reducible refine Kept.ite (fun _ => ?_) (fun _ => ?_)) | split

theorem execMsixMessage_kept (h : Kept q s) (ring : BitVec 12) : OutKept q (execMsixMessage ring s) := by
  unfold execMsixMessage
  repeat' first | with_reducible assumption | simp only [OutKept.next_iff] | with_reducible apply msixMessage_kept

theorem absentTimeout_kept (h : Kept q s) (c : CmdRef) : Kept q (absentTimeout s c) := by
  unfold absentTimeout
  repeat' first
    | with_reducible assumption | with_reducible apply txFinish_kept | with_reducible apply unwait_kept
    | with_reducible apply gplCnt_kept | with_reducible apply dmaEnd_kept
    | (with_reducible refine Kept.ite (fun _ => ?_) (fun _ => ?_)) | split

theorem execAbsentTimeout_kept (h : Kept q s) (c : CmdRef) : OutKept q (execAbsentTimeout c s) := by
  unfold execAbsentTimeout
  repeat' first | with_reducible assumption | simp only [OutKept.next_iff] | with_reducible apply absentTimeout_kept

theorem execModWrite_kept (h : Kept q s) (c : CmdRef) (cage page : BitVec 8) (off len : BitVec 8) (addr : BitVec 64) (answered : Bool) :
    OutKept q (execModWrite c cage page off len addr answered s) := by
  unfold execModWrite
  repeat' first
    | (lift_lets; intro) | with_reducible assumption | intro _ | simp only [OutKept.next_iff]
    | with_reducible apply unwait_kept | with_reducible apply modWrite_kept | with_reducible apply hostCmd_kept

theorem execDoorbellFetch_kept (h : Kept q s) (part : BitVec 3) : OutKept q (execDoorbellFetch part s) := by
  unfold execDoorbellFetch
  repeat' first | with_reducible assumption | simp only [OutKept.next_iff] | with_reducible apply doorbellFetch_kept

theorem execPpsOut_kept (h : Kept q s) : OutKept q (execPpsOut s) := by
  unfold execPpsOut
  repeat' first
    | (lift_lets; intro) | with_reducible assumption | (simp only [Kept.mk_iff]; with_reducible refine Kept.facts ?_)
    | simp only [OutKept.next_iff]

theorem execDbgRun_kept (h : Kept q s) : OutKept q (execDbgRun s) := by
  unfold execDbgRun
  repeat' first
    | with_reducible assumption | simp only [OutKept.next_iff] | with_reducible apply tctlWrite_kept
    | (with_reducible refine Kept.ite (fun _ => ?_) (fun _ => ?_))

theorem blockExport_kept (h : Kept q s) : Kept q (blockExport s) := by
  unfold blockExport
  repeat' first
    | (lift_lets; intro) | with_reducible assumption | intro _
    | (simp only [Kept.mk_iff]; with_reducible refine Kept.facts ?_) | with_reducible apply queueDeliv_kept
    | with_reducible apply hostDelivery_kept | (with_reducible refine Kept.ite (fun _ => ?_) (fun _ => ?_)) | split
    | dsimp +zetaDelta only

theorem execBlockExport_kept (h : Kept q s) : OutKept q (execBlockExport s) := by
  unfold execBlockExport
  repeat' first | with_reducible assumption | simp only [OutKept.next_iff] | with_reducible apply blockExport_kept

end Sys2Proof.Machine
end

