-- ==== Sys2Proof/Laws/KeptResets.lean ====
section
/-! SUPPORT. What resets and register writes keep (Sys2Proof.Machine.Kept): one lemma per operation, each citing those of the operations it calls. -/

namespace Sys2Proof.Machine

variable {q : List Instr} {s : State}

theorem regStore_kept (h : Kept q s) (o v : Nat) : Kept q (regStore s o v) := by
  unfold regStore
  repeat' first | with_reducible assumption | with_reducible apply wrDev_kept

theorem jnlCfgWrite_kept (h : Kept q s) (agent v : Nat) : Kept q (jnlCfgWrite s agent v) := by
  unfold jnlCfgWrite
  repeat' first
    | (lift_lets; intro) | with_reducible assumption | intro _ | with_reducible apply regStore_kept
    | with_reducible apply violate_kept | with_reducible apply jnlGenesis_kept
    | (with_reducible refine Kept.ite (fun _ => ?_) (fun _ => ?_))

theorem setupIgnored_kept (h : Kept q s) (agent o : Nat) : Kept q (setupIgnored s agent o) := by
  unfold setupIgnored
  repeat' first | with_reducible assumption | with_reducible apply violate_kept

theorem updGo_kept (h : Kept q s) : Kept q (updGo s) := by
  unfold updGo
  repeat' first
    | (lift_lets; intro) | with_reducible assumption | intro _
    | (simp only [Kept.mk_iff]; with_reducible refine Kept.facts ?_)
    | (with_reducible refine Kept.ite (fun _ => ?_) (fun _ => ?_)) | dsimp +zetaDelta only

theorem delivReset_kept (h : Kept q s) (d : Deliv) : Kept q (delivReset s d) := by
  unfold delivReset
  repeat' first | with_reducible assumption | with_reducible apply jnlItem_kept | with_reducible apply endUse_kept | split

theorem gopolReset_kept (h : Kept q s) (p : Nat) (func : Bool) : Kept q (gopolReset s p func) := by
  unfold gopolReset
  repeat' first
    | (lift_lets; intro) | with_reducible assumption | intro _
    | (simp only [Kept.mk_iff]; with_reducible refine Kept.facts ?_) | with_reducible apply delivReset_kept
    | (with_reducible refine Kept.fold (fun _ _ _ => ?_) ?_) | dsimp +zetaDelta only

theorem framerReset_kept (h : Kept q s) (p : Nat) : Kept q (framerReset s p) := by
  unfold framerReset
  repeat' first
    | (lift_lets; intro) | with_reducible assumption | intro _
    | (simp only [Kept.mk_iff]; with_reducible refine Kept.facts ?_) | with_reducible apply jnlItem_kept
    | with_reducible apply closeConn_kept | with_reducible apply endUse_kept
    | (with_reducible refine Kept.fold (fun _ _ _ => ?_) ?_) | (with_reducible refine Kept.ite (fun _ => ?_) (fun _ => ?_))
    | dsimp +zetaDelta only

theorem unitDrop_kept (h : Kept q s) (p i : Nat) (sub : Option Nat) (res : Option Result) :
    Kept q (unitDrop s p i sub res) := by
  unfold unitDrop
  repeat' first
    | (lift_lets; intro) | with_reducible assumption | with_reducible apply jnlTicket_kept
    | with_reducible apply discardResult_kept | with_reducible apply hltCnt_kept
    | (with_reducible refine Kept.ite (fun _ => ?_) (fun _ => ?_)) | split

theorem ticketReset_kept (h : Kept q s) (p i : Nat) : Kept q (ticketReset s p i) := by
  unfold ticketReset
  repeat' first
    | (lift_lets; intro) | with_reducible assumption | intro _ | with_reducible apply unitDrop_kept
    | with_reducible apply freeTicket_kept | with_reducible apply freeInput_kept
    | (with_reducible refine Kept.fold (fun _ _ _ => ?_) ?_) | (with_reducible refine Kept.ite (fun _ => ?_) (fun _ => ?_))

theorem itemReset_kept (h : Kept q s) (p : Nat) (it : Item) : Kept q (itemReset s p it) := by
  unfold itemReset
  repeat' first | with_reducible assumption | with_reducible apply jnlItem_kept | with_reducible apply freeInput_kept

theorem haltReset_kept (h : Kept q s) (p : Nat) : Kept q (haltReset s p) := by
  unfold haltReset
  repeat' first
    | (lift_lets; intro) | with_reducible assumption | intro _
    | (simp only [Kept.mk_iff]; with_reducible refine Kept.facts ?_) | with_reducible apply ticketReset_kept
    | with_reducible apply itemReset_kept | (with_reducible refine Kept.fold (fun _ _ _ => ?_) ?_)

theorem memReset_kept (h : Kept q s) (a1 : Nat) : Kept q (memReset s a1) := by
  unfold memReset
  obtain ⟨h1, h2, h3, h4, h5, h6⟩ := h.mem
  refine h.mems ⟨?_, ?_, ?_, h4, h5, ?_⟩ <;> dsimp only
  · exact mwf_mkeep h1
  · exact mwf_mkeep h2
  · exact mwf_mkeep h3
  · exact mwf_mkeep h6

theorem threadsReset_kept (h : Kept q s) (p : Nat) : Kept q (threadsReset s p) := by
  unfold threadsReset
  repeat' first
    | (lift_lets; intro) | with_reducible assumption | intro _
    | (simp only [Kept.mk_iff]; with_reducible refine Kept.facts ?_)

theorem cryptoReset_kept (h : Kept q s) (p : Nat) : Kept q (cryptoReset s p) := by
  unfold cryptoReset
  repeat' first
    | (lift_lets; intro) | with_reducible assumption | (simp only [Kept.mk_iff]; with_reducible refine Kept.facts ?_)

theorem buffersReset_kept (h : Kept q s) (p : Nat) : Kept q (buffersReset s p) := by
  unfold buffersReset
  repeat' first
    | with_reducible assumption | with_reducible apply endUse_kept | (with_reducible refine Kept.fold (fun _ _ _ => ?_) ?_)

theorem requestsReset_kept (h : Kept q s) (p : Nat) : Kept q (requestsReset s p) := by
  unfold requestsReset
  repeat' first
    | (lift_lets; intro) | with_reducible assumption | with_reducible apply withdraw_kept
    | (with_reducible refine Kept.fold (fun _ _ _ => ?_) ?_) | (with_reducible refine Kept.ite (fun _ => ?_) (fun _ => ?_))
    | split

theorem haspReset_kept (h : Kept q s) (p : Nat) : Kept q (haspReset s p) := by
  unfold haspReset
  repeat' first
    | (lift_lets; intro) | with_reducible assumption | intro _
    | (simp only [Kept.mk_iff]; with_reducible refine Kept.facts ?_) | with_reducible apply requestsReset_kept
    | with_reducible apply orphanAll_kept | with_reducible apply haspTaskEnd_kept
    | (with_reducible refine Kept.fold (fun _ _ _ => ?_) ?_)

theorem egressReset_kept (h : Kept q s) (p : Nat) : Kept q (egressReset s p) := by
  unfold egressReset
  repeat' first
    | (lift_lets; intro) | with_reducible assumption | intro _
    | (simp only [Kept.mk_iff]; with_reducible refine Kept.facts ?_) | with_reducible apply egressProcess_kept
    | with_reducible apply frameDiscard_kept | (with_reducible refine Kept.fold (fun _ _ _ => ?_) ?_)
    | dsimp +zetaDelta only

theorem partitionReset_kept (h : Kept q s) (p : Nat) (func : Bool) : Kept q (partitionReset s p func) := by
  unfold partitionReset
  repeat' first
    | (lift_lets; intro) | with_reducible assumption | intro _
    | (simp only [Kept.mk_iff]; with_reducible refine Kept.facts ?_) | with_reducible apply gopolReset_kept
    | with_reducible apply framerReset_kept | with_reducible apply haltReset_kept | with_reducible apply memReset_kept
    | with_reducible apply threadsReset_kept | with_reducible apply cryptoReset_kept
    | with_reducible apply buffersReset_kept | with_reducible apply doubtGone_kept | with_reducible apply haspReset_kept
    | with_reducible apply egressReset_kept | dsimp +zetaDelta only

theorem partRelease_kept (h : Kept q s) (p : Nat) : Kept q (partRelease s p) := by
  unfold partRelease
  repeat' first
    | (lift_lets; intro) | with_reducible assumption | (simp only [Kept.mk_iff]; with_reducible refine Kept.facts ?_)

theorem presetNow_kept (h : Kept q s) (p : Nat) : Kept q (presetNow s p) := by
  unfold presetNow
  repeat' first
    | (lift_lets; intro) | with_reducible assumption | intro _ | with_reducible apply partitionReset_kept
    | with_reducible apply partRelease_kept | (with_reducible refine Kept.ite (fun _ => ?_) (fun _ => ?_))

theorem coldState_kept (h : Kept q s) : Kept q (coldState s) :=
  ⟨h.queue, ⟨rfl, rfl, rfl, rfl, h.mem.2.2.2.2.1, rfl⟩, rfl⟩

theorem warmState_kept (h : Kept q s) : Kept q (warmState s) :=
  ⟨h.queue, (coldState_kept h).mem, rfl⟩

theorem bootFail_kept (h : Kept q s) (a1 a2 : Nat) : Kept q (bootFail s a1 a2) :=
  h.bolted rfl rfl

theorem rootKeyDraw_kept (h : Kept q s) : Kept q (rootKeyDraw s) := by
  unfold rootKeyDraw
  repeat' first
    | with_reducible assumption | (simp only [Kept.mk_iff]; with_reducible refine Kept.facts ?_)
    | with_reducible apply rbgDraw_kept

theorem bootPatch_kept (h : Kept q s) : Kept q (bootPatch s) := by
  unfold bootPatch
  repeat' first
    | (lift_lets; intro) | with_reducible assumption | with_reducible apply patchAll_kept
    | with_reducible apply sendEvent_kept | (with_reducible refine Kept.ite (fun _ => ?_) (fun _ => ?_)) | split

theorem restoreWord_kept (h : Kept q s) (o : Nat) (v : W32) : Kept q (restoreWord s o v) := by
  unfold restoreWord
  repeat' first
    | (lift_lets; intro) | with_reducible assumption | intro _
    | (simp only [Kept.mk_iff]; with_reducible refine Kept.facts ?_) | with_reducible apply wrDev_kept
    | with_reducible apply hobbleWrite_kept | with_reducible apply jnlGenesis_kept
    | (with_reducible refine Kept.ite (fun _ => ?_) (fun _ => ?_))

theorem bootFinish_kept (h : Kept q s) : Kept q (bootFinish s) := by
  have h' := fun l => Kept.fold (q := q) (f := fillBucket) (fun _ _ h => fillBucket_kept h _) (l := List.range 8)
    (Kept.fold (f := fun (s : State) (kv : Nat × W32) => restoreWord s kv.1 kv.2) (fun _ _ h => restoreWord_kept h _ _) (l := l)
      (bootPatch_kept h))
  have hb : ∀ {t : State} {k : Hkc} {p : Pins}, Kept q t → k.booted = true → k.dbolt = false → p.boltN = true →
      Kept q { t with hkc := k, pins := p } :=
    fun h h1 h2 h3 => ⟨h.queue, h.mem, by simp [h1, h2, h3]⟩
  unfold bootFinish
  dsimp only
  split
  · exact boltDevice_kept ((hb (h' _) rfl rfl rfl).upd rfl rfl rfl rfl rfl) _
  · exact hb (h' _) rfl rfl rfl

theorem bootFrom3_kept (h : Kept q s) : Kept q (bootFrom3 s) := by
  unfold bootFrom3
  repeat' first
    | (lift_lets; intro) | with_reducible assumption | (simp only [Kept.mk_iff]; with_reducible refine Kept.facts ?_)
    | with_reducible apply bootFail_kept | with_reducible apply rootKeyDraw_kept | with_reducible apply bootFinish_kept
    | with_reducible apply newNonce_kept | (with_reducible refine Kept.ite (fun _ => ?_) (fun _ => ?_))

theorem warmNow_kept (h : Kept q s) : Kept q (warmNow s) := by
  unfold warmNow
  repeat' first
    | (lift_lets; intro) | with_reducible assumption | (simp only [Kept.mk_iff]; with_reducible refine Kept.facts ?_)
    | with_reducible apply warmState_kept | with_reducible apply bootFrom3_kept
    | (with_reducible refine Kept.ite (fun _ => ?_) (fun _ => ?_))

theorem rstWrite_kept (h : Kept q s) (agent v : Nat) : Kept q (rstWrite s agent v) := by
  unfold rstWrite
  repeat' first
    | (lift_lets; intro) | with_reducible assumption | with_reducible apply setupIgnored_kept
    | with_reducible apply presetNow_kept | with_reducible apply warmNow_kept
    | (with_reducible refine Kept.fold (fun _ _ _ => ?_) ?_) | (with_reducible refine Kept.ite (fun _ => ?_) (fun _ => ?_))

theorem guarded_kept (h : Kept q s) (ok : Bool) (agent o v : Nat) : Kept q (guarded ok s agent o v) := by
  unfold guarded
  repeat' first
    | with_reducible assumption | with_reducible apply regStore_kept | with_reducible apply setupIgnored_kept
    | (with_reducible refine Kept.ite (fun _ => ?_) (fun _ => ?_))

theorem pboltWrite_kept (h : Kept q s) (p agent v : Nat) : Kept q (pboltWrite s p agent v) := by
  unfold pboltWrite
  repeat' first
    | (lift_lets; intro) | with_reducible assumption | intro _ | with_reducible apply regStore_kept
    | with_reducible apply doubt_kept | with_reducible apply boltClear_kept | with_reducible apply boltPorts_kept
    | (with_reducible refine Kept.ite (fun _ => ?_) (fun _ => ?_))

theorem clkTbWrite_kept (h : Kept q s) (v : Nat) : Kept q (clkTbWrite s v) := by
  unfold clkTbWrite
  repeat' first
    | (lift_lets; intro) | with_reducible assumption | intro _ | with_reducible apply regStore_kept
    | with_reducible apply wrFlag_kept | (with_reducible refine Kept.ite (fun _ => ?_) (fun _ => ?_))

theorem tblCfgWrite_kept (h : Kept q s) (agent o v : Nat) (l2 : Bool) : Kept q (tblCfgWrite s agent o v l2) := by
  unfold tblCfgWrite
  repeat' first
    | (lift_lets; intro) | with_reducible assumption | intro _ | with_reducible apply regStore_kept
    | with_reducible apply setupIgnored_kept | with_reducible apply sweepRestart_kept
    | (with_reducible refine Kept.ite (fun _ => ?_) (fun _ => ?_))

theorem clusterWrite_kept (h : Kept q s) (agent o : Nat) (c v : Nat) : Kept q (clusterWrite s agent o c v) := by
  unfold clusterWrite
  repeat' first
    | (lift_lets; intro) | with_reducible assumption | intro _ | with_reducible apply regStore_kept
    | with_reducible apply setupIgnored_kept | with_reducible apply doubtGone_kept
    | (with_reducible refine Kept.ite (fun _ => ?_) (fun _ => ?_)) | split | dsimp +zetaDelta only

theorem vioWrite_kept (h : Kept q s) (p v : Nat) : Kept q (vioWrite s p v) := by
  unfold vioWrite
  repeat' first
    | (lift_lets; intro) | with_reducible assumption | (simp only [Kept.mk_iff]; with_reducible refine Kept.facts ?_)
    | (with_reducible refine Kept.ite (fun _ => ?_) (fun _ => ?_))

theorem jnlClassWrite_kept (h : Kept q s) (agent o : Nat) (i v : Nat) : Kept q (jnlClassWrite s agent o i v) := by
  unfold jnlClassWrite
  repeat' first
    | (lift_lets; intro) | with_reducible assumption | with_reducible apply wrDev_kept | with_reducible apply violate_kept
    | (with_reducible refine Kept.ite (fun _ => ?_) (fun _ => ?_))

theorem devRegWrite_kept (h : Kept q s) (agent o v : Nat) : Kept q (devRegWrite s agent o v) := by
  unfold devRegWrite
  repeat' first
    | (lift_lets; intro) | with_reducible assumption | intro _ | with_reducible apply tadjWrite_kept
    | with_reducible apply regStore_kept | with_reducible apply violate_kept | with_reducible apply jnlCfgWrite_kept
    | with_reducible apply debugRefused_kept | with_reducible apply parSwapNow_kept | with_reducible apply setupIgnored_kept
    | with_reducible apply cutBucket_kept | with_reducible apply quadWrite_kept | with_reducible apply schCfgWrite_kept
    | with_reducible apply updGo_kept | with_reducible apply flowChanged_kept | with_reducible apply doubt_kept
    | with_reducible apply hbmHold_kept | with_reducible apply rstWrite_kept | with_reducible apply wrFlag_kept
    | with_reducible apply guarded_kept | with_reducible apply tsetNow_kept | with_reducible apply hobbleWrite_kept
    | with_reducible apply linkDownNow_kept | with_reducible apply pboltWrite_kept | with_reducible apply clkTbWrite_kept
    | with_reducible apply tblCfgWrite_kept | with_reducible apply clusterWrite_kept | with_reducible apply tregWrite_kept
    | with_reducible apply vioWrite_kept | with_reducible apply tctlWrite_kept | with_reducible apply jnlClassWrite_kept
    | (with_reducible refine Kept.ite (fun _ => ?_) (fun _ => ?_)) | split

theorem supWrite_kept (h : Kept q s) (o v : Nat) : Kept q (supWrite s o v) := by
  unfold supWrite
  repeat' first
    | with_reducible assumption | with_reducible apply devRegWrite_kept
    | (with_reducible refine Kept.ite (fun _ => ?_) (fun _ => ?_))

theorem execClkTadjWrite_kept (h : Kept q s) (value : BitVec 32) : OutKept q (execClkTadjWrite value s) := by
  unfold execClkTadjWrite
  repeat' first | with_reducible assumption | simp only [OutKept.next_iff] | with_reducible apply supWrite_kept

theorem execVauxLoss_kept (h : Kept q s) : OutKept q (execVauxLoss s) := by
  unfold execVauxLoss
  have hc := coldState_kept h
  exact OutKept.next_iff.mpr ⟨hc.queue, hc.mem, rfl⟩

theorem execPresetPart_kept (h : Kept q s) (part : BitVec 3) : OutKept q (execPresetPart part s) := by
  unfold execPresetPart
  repeat' first
    | with_reducible assumption | simp only [OutKept.next_iff] | with_reducible apply presetNow_kept
    | (with_reducible refine Kept.ite (fun _ => ?_) (fun _ => ?_))

theorem execForceBolt_kept (h : Kept q s) (part : Option (BitVec 3)) : OutKept q (execForceBolt part s) := by
  unfold execForceBolt
  repeat' first | with_reducible assumption | simp only [OutKept.next_iff] | with_reducible apply supWrite_kept | split

theorem execConfigurationSave_kept (h : Kept q s) (value : BitVec 32) : OutKept q (execConfigurationSave value s) := by
  unfold execConfigurationSave
  repeat' first | with_reducible assumption | simp only [OutKept.next_iff] | with_reducible apply supWrite_kept

theorem flashEnd_kept (h : Kept q s) (ok : Bool) : Kept q (flashEnd s ok) := by
  unfold flashEnd
  repeat' first
    | (lift_lets; intro) | with_reducible assumption | intro _
    | (simp only [Kept.mk_iff]; with_reducible refine Kept.facts ?_) | with_reducible apply warmNow_kept
    | (with_reducible refine Kept.ite (fun _ => ?_) (fun _ => ?_)) | split | dsimp +zetaDelta only

theorem execFlashWriteEnd_kept (h : Kept q s) (ok : Bool) : OutKept q (execFlashWriteEnd ok s) := by
  unfold execFlashWriteEnd
  repeat' first | with_reducible assumption | simp only [OutKept.next_iff] | with_reducible apply flashEnd_kept

theorem latched_kept (h : Kept q s) (key w v : Nat) : Kept q (latched s key w v).2 := by
  unfold latched
  repeat' first
    | (lift_lets; intro) | with_reducible assumption | (simp only [Kept.mk_iff]; with_reducible refine Kept.facts ?_)
    | (with_reducible refine Kept.ite₂ (fun _ => ?_) (fun _ => ?_))

theorem regRead_kept (h : Kept q s) (req agent o : Nat) : Kept q (regRead s req agent o).2 := by
  unfold regRead
  repeat' first
    | (lift_lets; intro) | with_reducible assumption | intro _ | with_reducible apply wrDev_kept
    | with_reducible apply debugRefused_kept | with_reducible apply latched_kept | with_reducible apply hbmHold_kept
    | (with_reducible refine Kept.ite (fun _ => ?_) (fun _ => ?_))
    | (with_reducible refine Kept.ite₂ (fun _ => ?_) (fun _ => ?_)) | split

theorem dbgacc_kept (h : Kept q s) (write : Bool) (o v : Nat) : Kept q (dbgacc s write o v) := by
  unfold dbgacc
  repeat' first
    | (lift_lets; intro) | with_reducible assumption | (simp only [Kept.mk_iff]; with_reducible refine Kept.facts ?_)
    | with_reducible apply devRegWrite_kept | with_reducible apply debugRefused_kept | with_reducible apply regRead_kept
    | (with_reducible refine Kept.ite (fun _ => ?_) (fun _ => ?_))

theorem execPartitionReset_kept (h : Kept q s) (part : BitVec 3) : OutKept q (execPartitionReset part s) := by
  unfold execPartitionReset
  repeat' first | with_reducible assumption | simp only [OutKept.next_iff] | with_reducible apply partitionReset_kept

theorem bootFrom1_kept (h : Kept q s) : Kept q (bootFrom1 s) := by
  unfold bootFrom1
  repeat' first
    | (lift_lets; intro) | with_reducible assumption | (simp only [Kept.mk_iff]; with_reducible refine Kept.facts ?_)
    | with_reducible apply bootFail_kept | with_reducible apply bootFrom3_kept
    | (with_reducible refine Kept.ite (fun _ => ?_) (fun _ => ?_)) | split

theorem powerOn_kept (h : Kept q s) : Kept q (powerOn s) := by
  unfold powerOn
  repeat' first | with_reducible assumption | with_reducible apply bootFrom1_kept | with_reducible apply coldState_kept

theorem execSysRstN_kept (h : Kept q s) : OutKept q (execSysRstN s) := by
  unfold execSysRstN
  repeat' first
    | with_reducible assumption | simp only [OutKept.next_iff] | with_reducible apply powerOn_kept
    | (with_reducible refine Kept.ite (fun _ => ?_) (fun _ => ?_))

theorem smbBinding_kept (h : Kept q s) (cmd : Nat) (data : List Octet) : Kept q (smbBinding s cmd data) := by
  unfold smbBinding
  repeat' first
    | (lift_lets; intro) | with_reducible assumption | intro _
    | (simp only [Kept.mk_iff]; with_reducible refine Kept.facts ?_)
    | (with_reducible refine Kept.ite (fun _ => ?_) (fun _ => ?_))

theorem configWrite_kept (h : Kept q s) (p o v : Nat) : Kept q (configWrite s p o v) := by
  unfold configWrite
  repeat' first
    | (lift_lets; intro) | with_reducible assumption | intro _
    | (simp only [Kept.mk_iff]; with_reducible refine Kept.facts ?_)
    | (with_reducible refine Kept.ite (fun _ => ?_) (fun _ => ?_)) | split | dsimp +zetaDelta only

theorem ringCfgWrite_kept (h : Kept q s) (p w v : Nat) : Kept q (ringCfgWrite s p w v) := by
  unfold ringCfgWrite
  repeat' first
    | (lift_lets; intro) | with_reducible assumption | intro _ | with_reducible apply hostViolate_kept
    | with_reducible apply wrRing_kept | (with_reducible refine Kept.ite (fun _ => ?_) (fun _ => ?_))

theorem partWrite_kept (h : Kept q s) (p o v : Nat) : Kept q (partWrite s p o v) := by
  unfold partWrite
  repeat' first
    | (lift_lets; intro) | with_reducible assumption | with_reducible apply tblGo_kept | with_reducible apply gaitPsnap_kept
    | with_reducible apply ringCfgWrite_kept | with_reducible apply wrPart_kept | with_reducible apply hostViolate_kept
    | with_reducible apply gaitCfgWrite_kept | with_reducible apply gaitSnapSel_kept
    | (with_reducible refine Kept.ite (fun _ => ?_) (fun _ => ?_))

theorem msixWrite_kept (h : Kept q s) (p k : Nat) (w v : Nat) : Kept q (msixWrite s p k w v) := by
  unfold msixWrite
  repeat' first
    | (lift_lets; intro) | with_reducible assumption | intro _
    | (simp only [Kept.mk_iff]; with_reducible refine Kept.facts ?_) | with_reducible apply msixSend_kept
    | (with_reducible refine Kept.ite (fun _ => ?_) (fun _ => ?_)) | split | dsimp +zetaDelta only

theorem bar2Write_kept (h : Kept q s) (p o v : Nat) : Kept q (bar2Write s p o v) := by
  unfold bar2Write
  repeat' first
    | with_reducible assumption | with_reducible apply msixWrite_kept | with_reducible apply gplNudge_kept
    | (with_reducible refine Kept.ite (fun _ => ?_) (fun _ => ?_))

theorem regWrite_kept (h : Kept q s) (path : RegPath) (o ben v : Nat) : Kept q (regWrite s path o ben v) := by
  unfold regWrite
  repeat' first
    | (lift_lets; intro) | with_reducible assumption | with_reducible apply devRegWrite_kept
    | with_reducible apply configWrite_kept | with_reducible apply setupIgnored_kept | with_reducible apply partWrite_kept
    | with_reducible apply hostViolate_kept | with_reducible apply bar2Write_kept
    | (with_reducible refine Kept.ite (fun _ => ?_) (fun _ => ?_)) | split

theorem execRingKindChange_kept (h : Kept q s) (part : BitVec 3) (value : BitVec 32) :
    OutKept q (execRingKindChange part value s) := by
  unfold execRingKindChange
  repeat' first | with_reducible assumption | simp only [OutKept.next_iff] | with_reducible apply regWrite_kept

theorem execJournalEnable_kept (h : Kept q s) (value : BitVec 32) : OutKept q (execJournalEnable value s) := by
  unfold execJournalEnable
  repeat' first | with_reducible assumption | simp only [OutKept.next_iff] | with_reducible apply supWrite_kept

theorem execClusterClockChange_kept (h : Kept q s) (cluster : BitVec 4) (value : BitVec 32) :
    OutKept q (execClusterClockChange cluster value s) := by
  unfold execClusterClockChange
  repeat' first | with_reducible assumption | simp only [OutKept.next_iff] | with_reducible apply supWrite_kept

theorem execHobbleArm_kept (h : Kept q s) (a0 : BitVec 8) (value : BitVec 32) : OutKept q (execHobbleArm a0 value s) := by
  unfold execHobbleArm
  repeat' first | with_reducible assumption | simp only [OutKept.next_iff] | with_reducible apply supWrite_kept

theorem execVinValid_kept (h : Kept q s) : OutKept q (execVinValid s) := by
  unfold execVinValid
  repeat' first
    | (lift_lets; intro) | with_reducible assumption | intro _
    | (simp only [Kept.mk_iff]; with_reducible refine Kept.facts ?_) | simp only [OutKept.next_iff]
    | with_reducible apply bootFrom1_kept | (with_reducible refine Kept.ite (fun _ => ?_) (fun _ => ?_))
    | dsimp +zetaDelta only

theorem execSmbusBindingWrite_kept (h : Kept q s) (cmd : BitVec 8) (data : List Octet) :
    OutKept q (execSmbusBindingWrite cmd data s) := by
  unfold execSmbusBindingWrite
  repeat' first | with_reducible assumption | simp only [OutKept.next_iff] | with_reducible apply smbBinding_kept

theorem execSealRecomputation_kept (h : Kept q s) (upset : BitVec 32) : OutKept q (execSealRecomputation upset s) := by
  unfold execSealRecomputation
  repeat' first
    | with_reducible assumption | simp only [OutKept.next_iff] | with_reducible apply boltDevice_kept
    | (with_reducible refine Kept.ite (fun _ => ?_) (fun _ => ?_))

theorem execOnDieSensorReading_kept (h : Kept q s) (sensor deg : BitVec 8) :
    OutKept q (execOnDieSensorReading sensor deg s) := by
  unfold execOnDieSensorReading
  repeat' first
    | (lift_lets; intro) | with_reducible assumption | intro _
    | (simp only [Kept.mk_iff]; with_reducible refine Kept.facts ?_) | simp only [OutKept.next_iff] | exact OutKept.fault
    | (with_reducible refine OutKept.ite (fun _ => ?_) (fun _ => ?_)) | with_reducible apply doubt_kept
    | with_reducible apply alertUpdate_kept | (with_reducible refine Kept.ite (fun _ => ?_) (fun _ => ?_))
    | dsimp +zetaDelta only

theorem execClearBolt_kept (h : Kept q s) (part : BitVec 3) : OutKept q (execClearBolt part s) := by
  unfold execClearBolt
  repeat' first | with_reducible assumption | simp only [OutKept.next_iff] | with_reducible apply supWrite_kept

theorem execSupplyResetLevel_kept (h : Kept q s) (rail : BitVec 4) : OutKept q (execSupplyResetLevel rail s) := by
  unfold execSupplyResetLevel
  repeat' first
    | (lift_lets; intro) | with_reducible assumption | (simp only [Kept.mk_iff]; with_reducible refine Kept.facts ?_)
    | simp only [OutKept.next_iff] | exact OutKept.fault | (with_reducible refine OutKept.ite (fun _ => ?_) (fun _ => ?_))
    | with_reducible apply powerOn_kept | (with_reducible refine Kept.ite (fun _ => ?_) (fun _ => ?_))

theorem execPerstNRelease_kept (h : Kept q s) (port : BitVec 2) : OutKept q (execPerstNRelease port s) := by
  unfold execPerstNRelease
  repeat' first
    | (lift_lets; intro) | with_reducible assumption | intro _
    | (simp only [Kept.mk_iff]; with_reducible refine Kept.facts ?_) | simp only [OutKept.next_iff]
    | with_reducible apply partRelease_kept | (with_reducible refine Kept.fold (fun _ _ _ => ?_) ?_)
    | (with_reducible refine Kept.ite (fun _ => ?_) (fun _ => ?_))

theorem execQuadReconfigure_kept (h : Kept q s) (quad : BitVec 5) (value : BitVec 32) :
    OutKept q (execQuadReconfigure quad value s) := by
  unfold execQuadReconfigure
  repeat' first | with_reducible assumption | simp only [OutKept.next_iff] | with_reducible apply supWrite_kept

theorem linkReady_kept (h : Kept q s) (k : Nat) : Kept q (linkReady s k) := by
  unfold linkReady
  repeat' first
    | (lift_lets; intro) | with_reducible assumption | (simp only [Kept.mk_iff]; with_reducible refine Kept.facts ?_)
    | with_reducible apply drawFree_kept | (with_reducible refine Kept.ite (fun _ => ?_) (fun _ => ?_))
    | (with_reducible refine Kept.ite₂ (fun _ => ?_) (fun _ => ?_))

theorem execPcieLinkReady_kept (h : Kept q s) (port : BitVec 2) : OutKept q (execPcieLinkReady port s) := by
  unfold execPcieLinkReady
  repeat' first | with_reducible assumption | simp only [OutKept.next_iff] | with_reducible apply linkReady_kept

theorem reinExit_kept (h : Kept q s) : Kept q (reinExit s) := by
  unfold reinExit
  repeat' first
    | with_reducible assumption | with_reducible apply boltDevice_kept | with_reducible apply reinEnd_kept
    | (with_reducible refine Kept.ite (fun _ => ?_) (fun _ => ?_)) | split

theorem execReinExit_kept (h : Kept q s) : OutKept q (execReinExit s) := by
  unfold execReinExit
  repeat' first | with_reducible assumption | simp only [OutKept.next_iff] | with_reducible apply reinExit_kept

theorem execParSwap_kept (h : Kept q s) : OutKept q (execParSwap s) := by
  unfold execParSwap
  repeat' first | with_reducible assumption | simp only [OutKept.next_iff] | with_reducible apply supWrite_kept

theorem execSmbusAlertResponse_kept (h : Kept q s) : OutKept q (execSmbusAlertResponse s) := by
  unfold execSmbusAlertResponse
  repeat' first
    | (lift_lets; intro) | with_reducible assumption | (simp only [Kept.mk_iff]; with_reducible refine Kept.facts ?_)
    | simp only [OutKept.next_iff] | (with_reducible refine Kept.ite (fun _ => ?_) (fun _ => ?_))

theorem execSmbusRegisterRead_kept (h : Kept q s) (offset : BitVec 32) : OutKept q (execSmbusRegisterRead offset s) := by
  unfold execSmbusRegisterRead
  repeat' first
    | (lift_lets; intro) | with_reducible assumption | intro _
    | (simp only [Kept.mk_iff]; with_reducible refine Kept.facts ?_) | simp only [OutKept.next_iff]
    | with_reducible apply regRead_kept | (with_reducible refine Kept.ite (fun _ => ?_) (fun _ => ?_))

theorem execFirmwareUpdate_kept (h : Kept q s) (value : BitVec 32) : OutKept q (execFirmwareUpdate value s) := by
  unfold execFirmwareUpdate
  repeat' first | with_reducible assumption | simp only [OutKept.next_iff] | with_reducible apply supWrite_kept

theorem execDbgacc_kept (h : Kept q s) (write : Bool) (offset : BitVec 20) (value : BitVec 32) :
    OutKept q (execDbgacc write offset value s) := by
  unfold execDbgacc
  repeat' first | with_reducible assumption | simp only [OutKept.next_iff] | with_reducible apply dbgacc_kept

theorem execRegisterWrite_kept (h : Kept q s) (path : RegPath) (offset : BitVec 20) (ben : BitVec 4) (value : BitVec 32) :
    OutKept q (execRegisterWrite path offset ben value s) := by
  unfold execRegisterWrite
  repeat' first | with_reducible assumption | simp only [OutKept.next_iff] | with_reducible apply regWrite_kept

theorem execPowerOnReset_kept (h : Kept q s) : OutKept q (execPowerOnReset s) := by
  unfold execPowerOnReset
  repeat' first
    | (lift_lets; intro) | with_reducible assumption | (simp only [Kept.mk_iff]; with_reducible refine Kept.facts ?_)
    | simp only [OutKept.next_iff] | with_reducible apply powerOn_kept

theorem execWarmReset_kept (h : Kept q s) : OutKept q (execWarmReset s) := by
  unfold execWarmReset
  repeat' first
    | with_reducible assumption | simp only [OutKept.next_iff] | with_reducible apply warmNow_kept
    | (with_reducible refine Kept.ite (fun _ => ?_) (fun _ => ?_))

theorem execClkTsetWrite_kept (h : Kept q s) (value : BitVec 32) : OutKept q (execClkTsetWrite value s) := by
  unfold execClkTsetWrite
  repeat' first | with_reducible assumption | simp only [OutKept.next_iff] | with_reducible apply supWrite_kept

set_option maxRecDepth 2000 in
theorem partRead_kept (h : Kept q s) (p o : Nat) : Kept q (partRead s p o).2 := by
  unfold partRead
  repeat' first
    | (lift_lets; intro) | with_reducible assumption | intro _ | with_reducible apply latched_kept
    | with_reducible apply hostViolate_kept | (with_reducible refine Kept.ite₂ (fun _ => ?_) (fun _ => ?_))

end Sys2Proof.Machine
end

