-- ==== Sys2Proof/Laws/KeptExec.lean ====
section
/-! SUPPORT. What single syllables and the tick keep (Sys2Proof.Machine.Kept): one lemma per operation, each citing those of the operations it calls. -/

namespace Sys2Proof.Machine

variable {q : List Instr} {s : State}

theorem execCvbd_kept (h : Kept q s) (t : Thr) (g : Gd) (rd ra rb : BitVec 5) (md : BitVec 8) :
    OutKept q (execCvbd t g rd ra rb md s) := by
  unfold execCvbd
  repeat' first
    | with_reducible assumption | simp only [OutKept.next_iff] | with_reducible apply sylCvbd_keeps
    | with_reducible apply issueOne_kept

theorem execWaitev_kept (h : Kept q s) (t : Thr) (g : Gd) (rd ra rb : BitVec 5) (md : BitVec 8) :
    OutKept q (execWaitev t g rd ra rb md s) := by
  unfold execWaitev
  repeat' first
    | with_reducible assumption | simp only [OutKept.next_iff] | with_reducible apply sylWaitev_keeps
    | with_reducible apply issueOne_kept

theorem execPwr_kept (h : Kept q s) (t : Thr) (g : Gd) (rd ra rb : BitVec 5) (md : BitVec 8) :
    OutKept q (execPwr t g rd ra rb md s) := by
  unfold execPwr
  repeat' first
    | with_reducible assumption | simp only [OutKept.next_iff] | with_reducible apply sylPwr_keeps
    | with_reducible apply issueOne_kept

theorem execLockw_kept (h : Kept q s) (t : Thr) (g : Gd) (rd ra rb : BitVec 5) (md : BitVec 8) :
    OutKept q (execLockw t g rd ra rb md s) := by
  unfold execLockw
  repeat' first
    | with_reducible assumption | simp only [OutKept.next_iff] | with_reducible apply sylLockw_keeps
    | with_reducible apply issueOne_kept

theorem execShri_kept (h : Kept q s) (t : Thr) (g : Gd) (rd ra : BitVec 5) (imm : BitVec 13) :
    OutKept q (execShri t g rd ra imm s) := by
  unfold execShri
  repeat' first
    | with_reducible assumption | simp only [OutKept.next_iff] | with_reducible apply sylShri_keeps
    | with_reducible apply issueOne_kept

theorem execDsub_kept (h : Kept q s) (t : Thr) (g : Gd) (rd ra rb : BitVec 5) (md : BitVec 8) :
    OutKept q (execDsub t g rd ra rb md s) := by
  unfold execDsub
  repeat' first
    | with_reducible assumption | simp only [OutKept.next_iff] | with_reducible apply sylDsub_keeps
    | with_reducible apply issueOne_kept

theorem execSub_kept (h : Kept q s) (t : Thr) (g : Gd) (rd ra rb : BitVec 5) (md : BitVec 8) :
    OutKept q (execSub t g rd ra rb md s) := by
  unfold execSub
  repeat' first
    | with_reducible assumption | simp only [OutKept.next_iff] | with_reducible apply sylSub_keeps
    | with_reducible apply issueOne_kept

theorem execCmpltui_kept (h : Kept q s) (t : Thr) (g : Gd) (rd ra : BitVec 5) (imm : BitVec 13) :
    OutKept q (execCmpltui t g rd ra imm s) := by
  unfold execCmpltui
  repeat' first
    | with_reducible assumption | simp only [OutKept.next_iff] | with_reducible apply sylCmpltui_keeps
    | with_reducible apply issueOne_kept

theorem execCrcb_kept (h : Kept q s) (t : Thr) (g : Gd) (rd ra rb : BitVec 5) (md : BitVec 8) :
    OutKept q (execCrcb t g rd ra rb md s) := by
  unfold execCrcb
  repeat' first
    | with_reducible assumption | simp only [OutKept.next_iff] | with_reducible apply raisedDoubts_kept | with_reducible apply noDoubts_kept
    | with_reducible apply sylCrcb_keeps | with_reducible apply issueOne_kept

theorem execDadd_kept (h : Kept q s) (t : Thr) (g : Gd) (rd ra rb : BitVec 5) (md : BitVec 8) :
    OutKept q (execDadd t g rd ra rb md s) := by
  unfold execDadd
  repeat' first
    | with_reducible assumption | simp only [OutKept.next_iff] | with_reducible apply sylDadd_keeps
    | with_reducible apply issueOne_kept

theorem execLih_kept (h : Kept q s) (t : Thr) (g : Gd) (rd : BitVec 5) (imm : BitVec 18) :
    OutKept q (execLih t g rd imm s) := by
  unfold execLih
  repeat' first
    | with_reducible assumption | simp only [OutKept.next_iff] | with_reducible apply issueOne_kept
    | with_reducible apply sylLih_keeps

theorem execRoli_kept (h : Kept q s) (t : Thr) (g : Gd) (rd ra : BitVec 5) (imm : BitVec 13) :
    OutKept q (execRoli t g rd ra imm s) := by
  unfold execRoli
  repeat' first
    | with_reducible assumption | simp only [OutKept.next_iff] | with_reducible apply sylRoli_keeps
    | with_reducible apply issueOne_kept

theorem execPlog_kept (h : Kept q s) (t : Thr) (g : Gd) (rd ra rb : BitVec 5) (md : BitVec 8) :
    OutKept q (execPlog t g rd ra rb md s) := by
  unfold execPlog
  repeat' first
    | with_reducible assumption | simp only [OutKept.next_iff] | with_reducible apply sylPlog_keeps
    | with_reducible apply issueOne_kept

theorem execSplitTicket_kept (h : Kept q s) (t : Thr) (g : Gd) (rd ra rb : BitVec 5) (md : BitVec 8) :
    OutKept q (execSplitTicket t g rd ra rb md s) := by
  unfold execSplitTicket
  repeat' first
    | with_reducible assumption | simp only [OutKept.next_iff] | with_reducible apply issueOne_kept
    | with_reducible apply sylSplit_keeps

theorem execCrc_kept (h : Kept q s) (t : Thr) (g : Gd) (rd ra rb : BitVec 5) (md : BitVec 8) :
    OutKept q (execCrc t g rd ra rb md s) := by
  unfold execCrc
  repeat' first
    | with_reducible assumption | simp only [OutKept.next_iff] | with_reducible apply sylCrc_keeps
    | with_reducible apply issueOne_kept

theorem execMoveTicket_kept (h : Kept q s) (t : Thr) (g : Gd) (rd ra rb : BitVec 5) (md : BitVec 8) :
    OutKept q (execMoveTicket t g rd ra rb md s) := by
  unfold execMoveTicket
  repeat' first
    | with_reducible assumption | simp only [OutKept.next_iff] | with_reducible apply sylMove_keeps
    | with_reducible apply issueOne_kept

theorem execAndi_kept (h : Kept q s) (t : Thr) (g : Gd) (rd ra : BitVec 5) (imm : BitVec 13) :
    OutKept q (execAndi t g rd ra imm s) := by
  unfold execAndi
  repeat' first
    | with_reducible assumption | simp only [OutKept.next_iff] | with_reducible apply sylAndi_keeps
    | with_reducible apply issueOne_kept

theorem islandBack_kept (h : Kept q s) (i : Nat) : Kept q (islandBack s i) := by
  unfold islandBack
  repeat' first
    | (lift_lets; intro) | with_reducible assumption | intro _
    | (simp only [Kept.mk_iff]; with_reducible refine Kept.facts ?_) | with_reducible apply doubtGone_kept
    | (with_reducible refine Kept.fold (fun _ _ _ => ?_) ?_) | dsimp +zetaDelta only

theorem liveTick_kept (h : Kept q s) : Kept q (liveTick s) := by
  unfold liveTick
  repeat' first
    | (lift_lets; intro) | with_reducible assumption | intro _ | with_reducible apply swapSettle_kept
    | with_reducible apply fetchAll_kept | with_reducible apply stfSettle_kept | with_reducible apply islandBack_kept
    | with_reducible apply taiTick_kept | with_reducible apply trackStall_kept | with_reducible apply loadSettle_kept
    | with_reducible apply segSettle_kept | with_reducible apply refiTick_kept
    | (with_reducible refine Kept.fold (fun _ _ _ => ?_) ?_)

theorem tick_kept (h : Kept q s) : Kept q (tick s) := by
  unfold tick
  repeat' first
    | (lift_lets; intro) | with_reducible assumption | (simp only [Kept.mk_iff]; with_reducible refine Kept.facts ?_)
    | with_reducible apply liveTick_kept | (with_reducible refine Kept.ite (fun _ => ?_) (fun _ => ?_))
    | dsimp +zetaDelta only

theorem execSar_kept (h : Kept q s) (t : Thr) (g : Gd) (rd ra rb : BitVec 5) (md : BitVec 8) :
    OutKept q (execSar t g rd ra rb md s) := by
  unfold execSar
  repeat' first
    | with_reducible assumption | simp only [OutKept.next_iff] | with_reducible apply sylSar_keeps
    | with_reducible apply issueOne_kept

theorem execLockReq_kept (h : Kept q s) (t : Thr) (g : Gd) (rd ra rb : BitVec 5) (md : BitVec 8) :
    OutKept q (execLockReq t g rd ra rb md s) := by
  unfold execLockReq
  repeat' first
    | with_reducible assumption | simp only [OutKept.next_iff] | with_reducible apply sylLock_keeps
    | with_reducible apply issueOne_kept

theorem execLdo4_kept (h : Kept q s) (t : Thr) (g : Gd) (rd ra : BitVec 5) (imm : BitVec 13) :
    OutKept q (execLdo4 t g rd ra imm s) := by
  unfold execLdo4
  repeat' first
    | with_reducible assumption | simp only [OutKept.next_iff] | with_reducible apply sylLdo_keeps
    | with_reducible apply issueOne_kept

theorem execXori_kept (h : Kept q s) (t : Thr) (g : Gd) (rd ra : BitVec 5) (imm : BitVec 13) :
    OutKept q (execXori t g rd ra imm s) := by
  unfold execXori
  repeat' first
    | with_reducible assumption | simp only [OutKept.next_iff] | with_reducible apply sylXori_keeps
    | with_reducible apply issueOne_kept

theorem execDepi_kept (h : Kept q s) (t : Thr) (g : Gd) (rd ra : BitVec 5) (imm : BitVec 13) :
    OutKept q (execDepi t g rd ra imm s) := by
  unfold execDepi
  repeat' first
    | with_reducible assumption | simp only [OutKept.next_iff] | with_reducible apply sylDepi_keeps
    | with_reducible apply issueOne_kept

theorem execXlatb_kept (h : Kept q s) (t : Thr) (g : Gd) (rd ra rb : BitVec 5) (md : BitVec 8) :
    OutKept q (execXlatb t g rd ra rb md s) := by
  unfold execXlatb
  repeat' first
    | with_reducible assumption | simp only [OutKept.next_iff] | with_reducible apply sylXlatb_keeps
    | with_reducible apply raisedDoubts_kept | with_reducible apply noDoubts_kept | with_reducible apply issueOne_kept

theorem execChnext_kept (h : Kept q s) (t : Thr) (g : Gd) (rd ra rb : BitVec 5) (md : BitVec 8) :
    OutKept q (execChnext t g rd ra rb md s) := by
  unfold execChnext
  repeat' first
    | with_reducible assumption | simp only [OutKept.next_iff] | with_reducible apply sylChnext_keeps
    | with_reducible apply issueOne_kept

theorem execDoneTicket_kept (h : Kept q s) (t : Thr) (g : Gd) (rd ra rb : BitVec 5) (md : BitVec 8) :
    OutKept q (execDoneTicket t g rd ra rb md s) := by
  unfold execDoneTicket
  repeat' first
    | with_reducible assumption | simp only [OutKept.next_iff] | with_reducible apply sylDone_keeps
    | with_reducible apply issueOne_kept

theorem execCmpnei_kept (h : Kept q s) (t : Thr) (g : Gd) (rd ra : BitVec 5) (imm : BitVec 13) :
    OutKept q (execCmpnei t g rd ra imm s) := by
  unfold execCmpnei
  repeat' first
    | with_reducible assumption | simp only [OutKept.next_iff] | with_reducible apply sylCmpnei_keeps
    | with_reducible apply issueOne_kept

theorem execLd_kept (h : Kept q s) (t : Thr) (g : Gd) (rd ra : BitVec 5) (imm : BitVec 13) :
    OutKept q (execLd t g rd ra imm s) := by
  unfold execLd
  repeat' first
    | with_reducible assumption | simp only [OutKept.next_iff] | with_reducible apply sylLd_keeps
    | with_reducible apply issueOne_kept

theorem execBl_kept (h : Kept q s) (t : Thr) (g : Gd) (target : BitVec 16) : OutKept q (execBl t g target s) := by
  unfold execBl
  repeat' first
    | with_reducible assumption | simp only [OutKept.next_iff] | with_reducible apply sylBl_keeps
    | with_reducible apply issueOne_kept

theorem execBranch_kept (h : Kept q s) (t : Thr) (g : Gd) (target : BitVec 16) : OutKept q (execBranch t g target s) := by
  unfold execBranch
  repeat' first
    | with_reducible assumption | simp only [OutKept.next_iff] | with_reducible apply sylB_keeps
    | with_reducible apply issueOne_kept

theorem execBfill_kept (h : Kept q s) (t : Thr) (g : Gd) (rd ra rb : BitVec 5) (md : BitVec 8) :
    OutKept q (execBfill t g rd ra rb md s) := by
  unfold execBfill
  repeat' first
    | with_reducible assumption | simp only [OutKept.next_iff] | with_reducible apply sylBfill_keeps
    | with_reducible apply raisedDoubts_kept | with_reducible apply noDoubts_kept | with_reducible apply issueOne_kept

theorem execShr_kept (h : Kept q s) (t : Thr) (g : Gd) (rd ra rb : BitVec 5) (md : BitVec 8) :
    OutKept q (execShr t g rd ra rb md s) := by
  unfold execShr
  repeat' first
    | with_reducible assumption | simp only [OutKept.next_iff] | with_reducible apply sylShr_keeps
    | with_reducible apply issueOne_kept

theorem execDcmp_kept (h : Kept q s) (t : Thr) (g : Gd) (rd ra rb : BitVec 5) (md : BitVec 8) :
    OutKept q (execDcmp t g rd ra rb md s) := by
  unfold execDcmp
  repeat' first
    | with_reducible assumption | simp only [OutKept.next_iff] | with_reducible apply sylDcmp_keeps
    | with_reducible apply issueOne_kept

theorem execTimerArm_kept (h : Kept q s) (t : Thr) (g : Gd) (rd ra rb : BitVec 5) (md : BitVec 8) :
    OutKept q (execTimerArm t g rd ra rb md s) := by
  unfold execTimerArm
  repeat' first
    | with_reducible assumption | simp only [OutKept.next_iff] | with_reducible apply sylTimer_keeps
    | with_reducible apply issueOne_kept

theorem execOrev_kept (h : Kept q s) (t : Thr) (g : Gd) (rd ra rb : BitVec 5) (md : BitVec 8) :
    OutKept q (execOrev t g rd ra rb md s) := by
  unfold execOrev
  repeat' first
    | with_reducible assumption | simp only [OutKept.next_iff] | with_reducible apply sylOrev_keeps
    | with_reducible apply issueOne_kept

theorem execDropTicket_kept (h : Kept q s) (t : Thr) (g : Gd) (rd ra rb : BitVec 5) (md : BitVec 8) :
    OutKept q (execDropTicket t g rd ra rb md s) := by
  unfold execDropTicket
  repeat' first
    | with_reducible assumption | simp only [OutKept.next_iff] | with_reducible apply issueOne_kept
    | with_reducible apply sylDrop_keeps

theorem execChopen_kept (h : Kept q s) (t : Thr) (g : Gd) (rd ra rb : BitVec 5) (md : BitVec 8) :
    OutKept q (execChopen t g rd ra rb md s) := by
  unfold execChopen
  repeat' first
    | with_reducible assumption | simp only [OutKept.next_iff] | with_reducible apply sylChopen_keeps
    | with_reducible apply issueOne_kept

theorem execSto1_kept (h : Kept q s) (t : Thr) (g : Gd) (rd ra : BitVec 5) (imm : BitVec 13) :
    OutKept q (execSto1 t g rd ra imm s) := by
  unfold execSto1
  repeat' first
    | with_reducible assumption | simp only [OutKept.next_iff] | with_reducible apply sylSto_keeps
    | with_reducible apply issueOne_kept

theorem execLdd_kept (h : Kept q s) (t : Thr) (g : Gd) (rd ra : BitVec 5) (imm : BitVec 13) :
    OutKept q (execLdd t g rd ra imm s) := by
  unfold execLdd
  repeat' first
    | with_reducible assumption | simp only [OutKept.next_iff] | with_reducible apply sylLdd_keeps
    | with_reducible apply issueOne_kept

theorem execGetwork_kept (h : Kept q s) (t : Thr) (g : Gd) (rd ra rb : BitVec 5) (md : BitVec 8) :
    OutKept q (execGetwork t g rd ra rb md s) := by
  unfold execGetwork
  repeat' first
    | with_reducible assumption | simp only [OutKept.next_iff] | with_reducible apply sylGetwork_keeps
    | with_reducible apply issueOne_kept

theorem execCvdb_kept (h : Kept q s) (t : Thr) (g : Gd) (rd ra rb : BitVec 5) (md : BitVec 8) :
    OutKept q (execCvdb t g rd ra rb md s) := by
  unfold execCvdb
  repeat' first
    | with_reducible assumption | simp only [OutKept.next_iff] | with_reducible apply sylCvdb_keeps
    | with_reducible apply issueOne_kept

theorem execSto4_kept (h : Kept q s) (t : Thr) (g : Gd) (rd ra : BitVec 5) (imm : BitVec 13) :
    OutKept q (execSto4 t g rd ra imm s) := by
  unfold execSto4
  repeat' first
    | with_reducible assumption | simp only [OutKept.next_iff] | with_reducible apply sylSto_keeps
    | with_reducible apply issueOne_kept

theorem execExti_kept (h : Kept q s) (t : Thr) (g : Gd) (rd ra : BitVec 5) (imm : BitVec 13) :
    OutKept q (execExti t g rd ra imm s) := by
  unfold execExti
  repeat' first
    | with_reducible assumption | simp only [OutKept.next_iff] | with_reducible apply sylExti_keeps
    | with_reducible apply issueOne_kept

theorem execSari_kept (h : Kept q s) (t : Thr) (g : Gd) (rd ra : BitVec 5) (imm : BitVec 13) :
    OutKept q (execSari t g rd ra imm s) := by
  unfold execSari
  repeat' first
    | with_reducible assumption | simp only [OutKept.next_iff] | with_reducible apply sylSari_keeps
    | with_reducible apply issueOne_kept

theorem execXor__kept (h : Kept q s) (t : Thr) (g : Gd) (rd ra rb : BitVec 5) (md : BitVec 8) :
    OutKept q (execXor_ t g rd ra rb md s) := by
  unfold execXor_
  repeat' first
    | with_reducible assumption | simp only [OutKept.next_iff] | with_reducible apply sylXor_keeps
    | with_reducible apply issueOne_kept

theorem execLuhnx_kept (h : Kept q s) (t : Thr) (g : Gd) (rd ra rb : BitVec 5) (md : BitVec 8) :
    OutKept q (execLuhnx t g rd ra rb md s) := by
  unfold execLuhnx
  repeat' first
    | with_reducible assumption | simp only [OutKept.next_iff] | with_reducible apply raisedDoubts_kept | with_reducible apply noDoubts_kept
    | with_reducible apply sylLuhnx_keeps | with_reducible apply issueOne_kept

theorem execShli_kept (h : Kept q s) (t : Thr) (g : Gd) (rd ra : BitVec 5) (imm : BitVec 13) :
    OutKept q (execShli t g rd ra imm s) := by
  unfold execShli
  repeat' first
    | with_reducible assumption | simp only [OutKept.next_iff] | with_reducible apply sylShli_keeps
    | with_reducible apply issueOne_kept

theorem execFld_kept (h : Kept q s) (t : Thr) (g : Gd) (rd ra rb : BitVec 5) (md : BitVec 8) :
    OutKept q (execFld t g rd ra rb md s) := by
  unfold execFld
  repeat' first
    | with_reducible assumption | simp only [OutKept.next_iff] | with_reducible apply sylFld_keeps
    | with_reducible apply issueOne_kept

theorem execAndn_kept (h : Kept q s) (t : Thr) (g : Gd) (rd ra rb : BitVec 5) (md : BitVec 8) :
    OutKept q (execAndn t g rd ra rb md s) := by
  unfold execAndn
  repeat' first
    | with_reducible assumption | simp only [OutKept.next_iff] | with_reducible apply sylAndn_keeps
    | with_reducible apply issueOne_kept

theorem execChw_kept (h : Kept q s) (t : Thr) (g : Gd) (rd ra rb : BitVec 5) (md : BitVec 8) :
    OutKept q (execChw t g rd ra rb md s) := by
  unfold execChw
  repeat' first
    | with_reducible assumption | simp only [OutKept.next_iff] | with_reducible apply sylChw_keeps
    | with_reducible apply issueOne_kept

theorem execFst_kept (h : Kept q s) (t : Thr) (g : Gd) (rd ra rb : BitVec 5) (md : BitVec 8) :
    OutKept q (execFst t g rd ra rb md s) := by
  unfold execFst
  repeat' first
    | with_reducible assumption | simp only [OutKept.next_iff] | with_reducible apply sylFst_keeps
    | with_reducible apply issueOne_kept

theorem execDchk_kept (h : Kept q s) (t : Thr) (g : Gd) (rd ra rb : BitVec 5) (md : BitVec 8) :
    OutKept q (execDchk t g rd ra rb md s) := by
  unfold execDchk
  repeat' first
    | with_reducible assumption | simp only [OutKept.next_iff] | with_reducible apply sylDchk_keeps
    | with_reducible apply issueOne_kept

theorem execTlvnext_kept (h : Kept q s) (t : Thr) (g : Gd) (rd ra rb : BitVec 5) (md : BitVec 8) :
    OutKept q (execTlvnext t g rd ra rb md s) := by
  unfold execTlvnext
  repeat' first
    | with_reducible assumption | simp only [OutKept.next_iff] | with_reducible apply sylTlvnext_keeps
    | with_reducible apply issueOne_kept

theorem execUnlockReq_kept (h : Kept q s) (t : Thr) (g : Gd) (rd ra rb : BitVec 5) (md : BitVec 8) :
    OutKept q (execUnlockReq t g rd ra rb md s) := by
  unfold execUnlockReq
  repeat' first
    | with_reducible assumption | simp only [OutKept.next_iff] | with_reducible apply sylUnlock_keeps
    | with_reducible apply issueOne_kept

theorem execAdd_kept (h : Kept q s) (t : Thr) (g : Gd) (rd ra rb : BitVec 5) (md : BitVec 8) :
    OutKept q (execAdd t g rd ra rb md s) := by
  unfold execAdd
  repeat' first
    | with_reducible assumption | simp only [OutKept.next_iff] | with_reducible apply sylAdd_keeps
    | with_reducible apply issueOne_kept

theorem execSel_kept (h : Kept q s) (t : Thr) (g : Gd) (rd ra rb : BitVec 5) (md : BitVec 8) :
    OutKept q (execSel t g rd ra rb md s) := by
  unfold execSel
  repeat' first
    | with_reducible assumption | simp only [OutKept.next_iff] | with_reducible apply sylSel_keeps
    | with_reducible apply issueOne_kept

theorem execLdo2_kept (h : Kept q s) (t : Thr) (g : Gd) (rd ra : BitVec 5) (imm : BitVec 13) :
    OutKept q (execLdo2 t g rd ra imm s) := by
  unfold execLdo2
  repeat' first
    | with_reducible assumption | simp only [OutKept.next_iff] | with_reducible apply sylLdo_keeps
    | with_reducible apply issueOne_kept

theorem execSignalEv_kept (h : Kept q s) (t : Thr) (g : Gd) (rd ra rb : BitVec 5) (md : BitVec 8) :
    OutKept q (execSignalEv t g rd ra rb md s) := by
  unfold execSignalEv
  repeat' first
    | with_reducible assumption | simp only [OutKept.next_iff] | with_reducible apply sylSignal_keeps
    | with_reducible apply issueOne_kept

theorem execPostTask_kept (h : Kept q s) (t : Thr) (g : Gd) (rd ra rb : BitVec 5) (md : BitVec 8) :
    OutKept q (execPostTask t g rd ra rb md s) := by
  unfold execPostTask
  repeat' first
    | with_reducible assumption | simp only [OutKept.next_iff] | with_reducible apply sylPost_keeps
    | with_reducible apply issueOne_kept

theorem execChpost_kept (h : Kept q s) (t : Thr) (g : Gd) (rd ra rb : BitVec 5) (md : BitVec 8) :
    OutKept q (execChpost t g rd ra rb md s) := by
  unfold execChpost
  repeat' first
    | with_reducible assumption | simp only [OutKept.next_iff] | with_reducible apply sylChpost_keeps
    | with_reducible apply issueOne_kept

theorem execRol_kept (h : Kept q s) (t : Thr) (g : Gd) (rd ra rb : BitVec 5) (md : BitVec 8) :
    OutKept q (execRol t g rd ra rb md s) := by
  unfold execRol
  repeat' first
    | with_reducible assumption | simp only [OutKept.next_iff] | with_reducible apply sylRol_keeps
    | with_reducible apply issueOne_kept

theorem execMfsr_kept (h : Kept q s) (t : Thr) (g : Gd) (rd ra rb : BitVec 5) (md : BitVec 8) :
    OutKept q (execMfsr t g rd ra rb md s) := by
  unfold execMfsr
  repeat' first
    | with_reducible assumption | simp only [OutKept.next_iff] | with_reducible apply sylMfsr_keeps
    | with_reducible apply issueOne_kept

theorem execLuhn_kept (h : Kept q s) (t : Thr) (g : Gd) (rd ra rb : BitVec 5) (md : BitVec 8) :
    OutKept q (execLuhn t g rd ra rb md s) := by
  unfold execLuhn
  repeat' first
    | with_reducible assumption | simp only [OutKept.next_iff] | with_reducible apply sylLuhn_keeps
    | with_reducible apply issueOne_kept

theorem execNop_kept (h : Kept q s) (t : Thr) (g : Gd) : OutKept q (execNop t g s) := by
  unfold execNop
  repeat' first
    | with_reducible assumption | simp only [OutKept.next_iff] | with_reducible apply sylNop_keeps
    | with_reducible apply issueOne_kept

theorem execBmwalk_kept (h : Kept q s) (t : Thr) (g : Gd) (rd ra rb : BitVec 5) (md : BitVec 8) :
    OutKept q (execBmwalk t g rd ra rb md s) := by
  unfold execBmwalk
  repeat' first
    | with_reducible assumption | simp only [OutKept.next_iff] | with_reducible apply sylBmwalk_keeps
    | with_reducible apply issueOne_kept

theorem execBcnt_kept (h : Kept q s) (t : Thr) (g : Gd) (rd ra rb : BitVec 5) (md : BitVec 8) :
    OutKept q (execBcnt t g rd ra rb md s) := by
  unfold execBcnt
  repeat' first
    | with_reducible assumption | simp only [OutKept.next_iff] | with_reducible apply sylBcnt_keeps
    | with_reducible apply issueOne_kept

theorem execSt_kept (h : Kept q s) (t : Thr) (g : Gd) (rd ra : BitVec 5) (imm : BitVec 13) :
    OutKept q (execSt t g rd ra imm s) := by
  unfold execSt
  repeat' first
    | with_reducible assumption | simp only [OutKept.next_iff] | with_reducible apply sylSt_keeps
    | with_reducible apply issueOne_kept

theorem execCmplti_kept (h : Kept q s) (t : Thr) (g : Gd) (rd ra : BitVec 5) (imm : BitVec 13) :
    OutKept q (execCmplti t g rd ra imm s) := by
  unfold execCmplti
  repeat' first
    | with_reducible assumption | simp only [OutKept.next_iff] | with_reducible apply sylCmplti_keeps
    | with_reducible apply issueOne_kept

theorem execMul_kept (h : Kept q s) (t : Thr) (g : Gd) (rd ra rb : BitVec 5) (md : BitVec 8) :
    OutKept q (execMul t g rd ra rb md s) := by
  unfold execMul
  repeat' first
    | with_reducible assumption | simp only [OutKept.next_iff] | with_reducible apply sylMul_keeps
    | with_reducible apply issueOne_kept

theorem execSto2_kept (h : Kept q s) (t : Thr) (g : Gd) (rd ra : BitVec 5) (imm : BitVec 13) :
    OutKept q (execSto2 t g rd ra imm s) := by
  unfold execSto2
  repeat' first
    | with_reducible assumption | simp only [OutKept.next_iff] | with_reducible apply sylSto_keeps
    | with_reducible apply issueOne_kept

theorem execCmpeqi_kept (h : Kept q s) (t : Thr) (g : Gd) (rd ra : BitVec 5) (imm : BitVec 13) :
    OutKept q (execCmpeqi t g rd ra imm s) := by
  unfold execCmpeqi
  repeat' first
    | with_reducible assumption | simp only [OutKept.next_iff] | with_reducible apply sylCmpeqi_keeps
    | with_reducible apply issueOne_kept

theorem execBr_kept (h : Kept q s) (t : Thr) (g : Gd) (rd ra rb : BitVec 5) (md : BitVec 8) :
    OutKept q (execBr t g rd ra rb md s) := by
  unfold execBr
  repeat' first
    | with_reducible assumption | simp only [OutKept.next_iff] | with_reducible apply sylBr_keeps
    | with_reducible apply issueOne_kept

theorem execHostDone_kept (h : Kept q s) (t : Thr) (g : Gd) (rd ra rb : BitVec 5) (md : BitVec 8) :
    OutKept q (execHostDone t g rd ra rb md s) := by
  unfold execHostDone
  repeat' first
    | with_reducible assumption | simp only [OutKept.next_iff] | with_reducible apply sylDone_keeps
    | with_reducible apply issueOne_kept

theorem execAnd__kept (h : Kept q s) (t : Thr) (g : Gd) (rd ra rb : BitVec 5) (md : BitVec 8) :
    OutKept q (execAnd_ t g rd ra rb md s) := by
  unfold execAnd_
  repeat' first
    | with_reducible assumption | simp only [OutKept.next_iff] | with_reducible apply sylAnd_keeps
    | with_reducible apply issueOne_kept

theorem execCmp_kept (h : Kept q s) (t : Thr) (g : Gd) (rd ra rb : BitVec 5) (md : BitVec 8) :
    OutKept q (execCmp t g rd ra rb md s) := by
  unfold execCmp
  repeat' first
    | with_reducible assumption | simp only [OutKept.next_iff] | with_reducible apply sylCmp_keeps
    | with_reducible apply issueOne_kept

theorem execLil_kept (h : Kept q s) (t : Thr) (g : Gd) (rd : BitVec 5) (imm : BitVec 18) :
    OutKept q (execLil t g rd imm s) := by
  unfold execLil
  repeat' first
    | with_reducible assumption | simp only [OutKept.next_iff] | with_reducible apply sylLil_keeps
    | with_reducible apply issueOne_kept

theorem execBrev_kept (h : Kept q s) (t : Thr) (g : Gd) (rd ra rb : BitVec 5) (md : BitVec 8) :
    OutKept q (execBrev t g rd ra rb md s) := by
  unfold execBrev
  repeat' first
    | with_reducible assumption | simp only [OutKept.next_iff] | with_reducible apply sylBrev_keeps
    | with_reducible apply issueOne_kept

theorem execDeferTask_kept (h : Kept q s) (t : Thr) (g : Gd) (rd ra rb : BitVec 5) (md : BitVec 8) :
    OutKept q (execDeferTask t g rd ra rb md s) := by
  unfold execDeferTask
  repeat' first
    | with_reducible assumption | simp only [OutKept.next_iff] | with_reducible apply issueOne_kept
    | with_reducible apply sylDefer_keeps

theorem execBmove_kept (h : Kept q s) (t : Thr) (g : Gd) (rd ra rb : BitVec 5) (md : BitVec 8) :
    OutKept q (execBmove t g rd ra rb md s) := by
  unfold execBmove
  repeat' first
    | with_reducible assumption | simp only [OutKept.next_iff] | with_reducible apply sylBmove_keeps
    | with_reducible apply raisedDoubts_kept | with_reducible apply noDoubts_kept | with_reducible apply issueOne_kept

theorem execUnlockw_kept (h : Kept q s) (t : Thr) (g : Gd) (rd ra rb : BitVec 5) (md : BitVec 8) :
    OutKept q (execUnlockw t g rd ra rb md s) := by
  unfold execUnlockw
  repeat' first
    | with_reducible assumption | simp only [OutKept.next_iff] | with_reducible apply sylUnlockw_keeps
    | with_reducible apply issueOne_kept

theorem execXlat_kept (h : Kept q s) (t : Thr) (g : Gd) (rd ra rb : BitVec 5) (md : BitVec 8) :
    OutKept q (execXlat t g rd ra rb md s) := by
  unfold execXlat
  repeat' first
    | with_reducible assumption | simp only [OutKept.next_iff] | with_reducible apply sylXlat_keeps
    | with_reducible apply issueOne_kept

theorem execShl_kept (h : Kept q s) (t : Thr) (g : Gd) (rd ra rb : BitVec 5) (md : BitVec 8) :
    OutKept q (execShl t g rd ra rb md s) := by
  unfold execShl
  repeat' first
    | with_reducible assumption | simp only [OutKept.next_iff] | with_reducible apply sylShl_keeps
    | with_reducible apply issueOne_kept

theorem execLdo1_kept (h : Kept q s) (t : Thr) (g : Gd) (rd ra : BitVec 5) (imm : BitVec 13) :
    OutKept q (execLdo1 t g rd ra imm s) := by
  unfold execLdo1
  repeat' first
    | with_reducible assumption | simp only [OutKept.next_iff] | with_reducible apply sylLdo_keeps
    | with_reducible apply issueOne_kept

theorem execFmov_kept (h : Kept q s) (t : Thr) (g : Gd) (rd ra rb : BitVec 5) (md : BitVec 8) :
    OutKept q (execFmov t g rd ra rb md s) := by
  unfold execFmov
  repeat' first
    | with_reducible assumption | simp only [OutKept.next_iff] | with_reducible apply sylFmov_keeps
    | with_reducible apply issueOne_kept

theorem execPrd_kept (h : Kept q s) (t : Thr) (g : Gd) (rd ra rb : BitVec 5) (md : BitVec 8) :
    OutKept q (execPrd t g rd ra rb md s) := by
  unfold execPrd
  repeat' first
    | with_reducible assumption | simp only [OutKept.next_iff] | with_reducible apply sylPrd_keeps
    | with_reducible apply issueOne_kept

theorem execReadTime_kept (h : Kept q s) (t : Thr) (g : Gd) (rd ra rb : BitVec 5) (md : BitVec 8) :
    OutKept q (execReadTime t g rd ra rb md s) := by
  unfold execReadTime
  repeat' first
    | with_reducible assumption | simp only [OutKept.next_iff] | with_reducible apply sylTime_keeps
    | with_reducible apply issueOne_kept

theorem execAddi_kept (h : Kept q s) (t : Thr) (g : Gd) (rd ra : BitVec 5) (imm : BitVec 13) :
    OutKept q (execAddi t g rd ra imm s) := by
  unfold execAddi
  repeat' first
    | with_reducible assumption | simp only [OutKept.next_iff] | with_reducible apply sylAddi_keeps
    | with_reducible apply issueOne_kept

theorem execMtsr_kept (h : Kept q s) (t : Thr) (g : Gd) (rd ra rb : BitVec 5) (md : BitVec 8) :
    OutKept q (execMtsr t g rd ra rb md s) := by
  unfold execMtsr
  repeat' first
    | with_reducible assumption | simp only [OutKept.next_iff] | with_reducible apply sylMtsr_keeps
    | with_reducible apply issueOne_kept

theorem execChrd_kept (h : Kept q s) (t : Thr) (g : Gd) (rd ra rb : BitVec 5) (md : BitVec 8) :
    OutKept q (execChrd t g rd ra rb md s) := by
  unfold execChrd
  repeat' first
    | with_reducible assumption | simp only [OutKept.next_iff] | with_reducible apply sylChrd_keeps
    | with_reducible apply issueOne_kept

theorem execOri_kept (h : Kept q s) (t : Thr) (g : Gd) (rd ra : BitVec 5) (imm : BitVec 13) :
    OutKept q (execOri t g rd ra imm s) := by
  unfold execOri
  repeat' first
    | with_reducible assumption | simp only [OutKept.next_iff] | with_reducible apply sylOri_keeps
    | with_reducible apply issueOne_kept

theorem execPar_kept (h : Kept q s) (t : Thr) (g : Gd) (rd ra rb : BitVec 5) (md : BitVec 8) :
    OutKept q (execPar t g rd ra rb md s) := by
  unfold execPar
  repeat' first
    | with_reducible assumption | simp only [OutKept.next_iff] | with_reducible apply sylPar_keeps
    | with_reducible apply issueOne_kept

theorem execOr__kept (h : Kept q s) (t : Thr) (g : Gd) (rd ra rb : BitVec 5) (md : BitVec 8) :
    OutKept q (execOr_ t g rd ra rb md s) := by
  unfold execOr_
  repeat' first
    | with_reducible assumption | simp only [OutKept.next_iff] | with_reducible apply sylOr_keeps
    | with_reducible apply issueOne_kept

end Sys2Proof.Machine
end

