-- ==== Sys2Proof/Laws/State.lean ====
section
/-! SUPPORT. The named updates of State: for each, every field it leaves alone, true by definition, and what is read back after it.
A proof about a command cites these and unfolds no record update. -/

namespace Sys2Proof.Machine

variable (s : State)

/-! A write of a device register changes the registers only (20 R403). -/
@[simp] theorem wrDev_pending (o v : Nat) : (wrDev s o v).pending = s.pending := rfl
@[simp] theorem wrDev_fresh (o v : Nat) : (wrDev s o v).fresh = s.fresh := rfl
@[simp] theorem wrDev_seq (o v : Nat) : (wrDev s o v).seq = s.seq := rfl
@[simp] theorem wrDev_now (o v : Nat) : (wrDev s o v).now = s.now := rfl
@[simp] theorem wrDev_mem (o v : Nat) : (wrDev s o v).mem = s.mem := rfl
@[simp] theorem wrDev_thr (o v : Nat) : (wrDev s o v).thr = s.thr := rfl
@[simp] theorem wrDev_hlt (o v : Nat) : (wrDev s o v).hlt = s.hlt := rfl
@[simp] theorem wrDev_hsp (o v : Nat) : (wrDev s o v).hsp = s.hsp := rfl
@[simp] theorem wrDev_buf (o v : Nat) : (wrDev s o v).buf = s.buf := rfl
@[simp] theorem wrDev_egr (o v : Nat) : (wrDev s o v).egr = s.egr := rfl
@[simp] theorem wrDev_prt (o v : Nat) : (wrDev s o v).prt = s.prt := rfl
@[simp] theorem wrDev_par (o v : Nat) : (wrDev s o v).par = s.par := rfl
@[simp] theorem wrDev_stf (o v : Nat) : (wrDev s o v).stf = s.stf := rfl
@[simp] theorem wrDev_src (o v : Nat) : (wrDev s o v).src = s.src := rfl
@[simp] theorem wrDev_tbl (o v : Nat) : (wrDev s o v).tbl = s.tbl := rfl
@[simp] theorem wrDev_cry (o v : Nat) : (wrDev s o v).cry = s.cry := rfl
@[simp] theorem wrDev_jnl (o v : Nat) : (wrDev s o v).jnl = s.jnl := rfl
@[simp] theorem wrDev_gpl (o v : Nat) : (wrDev s o v).gpl = s.gpl := rfl
@[simp] theorem wrDev_hbm (o v : Nat) : (wrDev s o v).hbm = s.hbm := rfl
@[simp] theorem wrDev_hkc (o v : Nat) : (wrDev s o v).hkc = s.hkc := rfl
@[simp] theorem wrDev_far (o v : Nat) : (wrDev s o v).far = s.far := rfl
@[simp] theorem wrDev_dbg (o v : Nat) : (wrDev s o v).dbg = s.dbg := rfl
@[simp] theorem wrDev_tb (o v : Nat) : (wrDev s o v).tb = s.tb := rfl
@[simp] theorem wrDev_flash (o v : Nat) : (wrDev s o v).flash = s.flash := rfl
@[simp] theorem wrDev_pins (o v : Nat) : (wrDev s o v).pins = s.pins := rfl
@[simp] theorem wrDev_out (o v : Nat) : (wrDev s o v).out = s.out := rfl

/-! A write of a partition register changes the registers only (20 Table 20-1). -/
@[simp] theorem wrPart_pending (p o v : Nat) : (wrPart s p o v).pending = s.pending := rfl
@[simp] theorem wrPart_fresh (p o v : Nat) : (wrPart s p o v).fresh = s.fresh := rfl
@[simp] theorem wrPart_seq (p o v : Nat) : (wrPart s p o v).seq = s.seq := rfl
@[simp] theorem wrPart_now (p o v : Nat) : (wrPart s p o v).now = s.now := rfl
@[simp] theorem wrPart_mem (p o v : Nat) : (wrPart s p o v).mem = s.mem := rfl
@[simp] theorem wrPart_thr (p o v : Nat) : (wrPart s p o v).thr = s.thr := rfl
@[simp] theorem wrPart_hlt (p o v : Nat) : (wrPart s p o v).hlt = s.hlt := rfl
@[simp] theorem wrPart_hsp (p o v : Nat) : (wrPart s p o v).hsp = s.hsp := rfl
@[simp] theorem wrPart_buf (p o v : Nat) : (wrPart s p o v).buf = s.buf := rfl
@[simp] theorem wrPart_egr (p o v : Nat) : (wrPart s p o v).egr = s.egr := rfl
@[simp] theorem wrPart_prt (p o v : Nat) : (wrPart s p o v).prt = s.prt := rfl
@[simp] theorem wrPart_par (p o v : Nat) : (wrPart s p o v).par = s.par := rfl
@[simp] theorem wrPart_stf (p o v : Nat) : (wrPart s p o v).stf = s.stf := rfl
@[simp] theorem wrPart_src (p o v : Nat) : (wrPart s p o v).src = s.src := rfl
@[simp] theorem wrPart_tbl (p o v : Nat) : (wrPart s p o v).tbl = s.tbl := rfl
@[simp] theorem wrPart_cry (p o v : Nat) : (wrPart s p o v).cry = s.cry := rfl
@[simp] theorem wrPart_jnl (p o v : Nat) : (wrPart s p o v).jnl = s.jnl := rfl
@[simp] theorem wrPart_gpl (p o v : Nat) : (wrPart s p o v).gpl = s.gpl := rfl
@[simp] theorem wrPart_hbm (p o v : Nat) : (wrPart s p o v).hbm = s.hbm := rfl
@[simp] theorem wrPart_hkc (p o v : Nat) : (wrPart s p o v).hkc = s.hkc := rfl
@[simp] theorem wrPart_far (p o v : Nat) : (wrPart s p o v).far = s.far := rfl
@[simp] theorem wrPart_dbg (p o v : Nat) : (wrPart s p o v).dbg = s.dbg := rfl
@[simp] theorem wrPart_tb (p o v : Nat) : (wrPart s p o v).tb = s.tb := rfl
@[simp] theorem wrPart_flash (p o v : Nat) : (wrPart s p o v).flash = s.flash := rfl
@[simp] theorem wrPart_pins (p o v : Nat) : (wrPart s p o v).pins = s.pins := rfl
@[simp] theorem wrPart_out (p o v : Nat) : (wrPart s p o v).out = s.out := rfl

/-! A write of a ring's configuration changes the registers only (14 Table 14-16). -/
@[simp] theorem wrRing_pending (r w v : Nat) : (wrRing s r w v).pending = s.pending := rfl
@[simp] theorem wrRing_fresh (r w v : Nat) : (wrRing s r w v).fresh = s.fresh := rfl
@[simp] theorem wrRing_seq (r w v : Nat) : (wrRing s r w v).seq = s.seq := rfl
@[simp] theorem wrRing_now (r w v : Nat) : (wrRing s r w v).now = s.now := rfl
@[simp] theorem wrRing_mem (r w v : Nat) : (wrRing s r w v).mem = s.mem := rfl
@[simp] theorem wrRing_thr (r w v : Nat) : (wrRing s r w v).thr = s.thr := rfl
@[simp] theorem wrRing_hlt (r w v : Nat) : (wrRing s r w v).hlt = s.hlt := rfl
@[simp] theorem wrRing_hsp (r w v : Nat) : (wrRing s r w v).hsp = s.hsp := rfl
@[simp] theorem wrRing_buf (r w v : Nat) : (wrRing s r w v).buf = s.buf := rfl
@[simp] theorem wrRing_egr (r w v : Nat) : (wrRing s r w v).egr = s.egr := rfl
@[simp] theorem wrRing_prt (r w v : Nat) : (wrRing s r w v).prt = s.prt := rfl
@[simp] theorem wrRing_par (r w v : Nat) : (wrRing s r w v).par = s.par := rfl
@[simp] theorem wrRing_stf (r w v : Nat) : (wrRing s r w v).stf = s.stf := rfl
@[simp] theorem wrRing_src (r w v : Nat) : (wrRing s r w v).src = s.src := rfl
@[simp] theorem wrRing_tbl (r w v : Nat) : (wrRing s r w v).tbl = s.tbl := rfl
@[simp] theorem wrRing_cry (r w v : Nat) : (wrRing s r w v).cry = s.cry := rfl
@[simp] theorem wrRing_jnl (r w v : Nat) : (wrRing s r w v).jnl = s.jnl := rfl
@[simp] theorem wrRing_gpl (r w v : Nat) : (wrRing s r w v).gpl = s.gpl := rfl
@[simp] theorem wrRing_hbm (r w v : Nat) : (wrRing s r w v).hbm = s.hbm := rfl
@[simp] theorem wrRing_hkc (r w v : Nat) : (wrRing s r w v).hkc = s.hkc := rfl
@[simp] theorem wrRing_far (r w v : Nat) : (wrRing s r w v).far = s.far := rfl
@[simp] theorem wrRing_dbg (r w v : Nat) : (wrRing s r w v).dbg = s.dbg := rfl
@[simp] theorem wrRing_tb (r w v : Nat) : (wrRing s r w v).tb = s.tb := rfl
@[simp] theorem wrRing_flash (r w v : Nat) : (wrRing s r w v).flash = s.flash := rfl
@[simp] theorem wrRing_pins (r w v : Nat) : (wrRing s r w v).pins = s.pins := rfl
@[simp] theorem wrRing_out (r w v : Nat) : (wrRing s r w v).out = s.out := rfl

/-! A write of a monitor's configuration changes the registers only (17 Table 17-3). -/
@[simp] theorem wrGait_pending (m w v : Nat) : (wrGait s m w v).pending = s.pending := rfl
@[simp] theorem wrGait_fresh (m w v : Nat) : (wrGait s m w v).fresh = s.fresh := rfl
@[simp] theorem wrGait_seq (m w v : Nat) : (wrGait s m w v).seq = s.seq := rfl
@[simp] theorem wrGait_now (m w v : Nat) : (wrGait s m w v).now = s.now := rfl
@[simp] theorem wrGait_mem (m w v : Nat) : (wrGait s m w v).mem = s.mem := rfl
@[simp] theorem wrGait_thr (m w v : Nat) : (wrGait s m w v).thr = s.thr := rfl
@[simp] theorem wrGait_hlt (m w v : Nat) : (wrGait s m w v).hlt = s.hlt := rfl
@[simp] theorem wrGait_hsp (m w v : Nat) : (wrGait s m w v).hsp = s.hsp := rfl
@[simp] theorem wrGait_buf (m w v : Nat) : (wrGait s m w v).buf = s.buf := rfl
@[simp] theorem wrGait_egr (m w v : Nat) : (wrGait s m w v).egr = s.egr := rfl
@[simp] theorem wrGait_prt (m w v : Nat) : (wrGait s m w v).prt = s.prt := rfl
@[simp] theorem wrGait_par (m w v : Nat) : (wrGait s m w v).par = s.par := rfl
@[simp] theorem wrGait_stf (m w v : Nat) : (wrGait s m w v).stf = s.stf := rfl
@[simp] theorem wrGait_src (m w v : Nat) : (wrGait s m w v).src = s.src := rfl
@[simp] theorem wrGait_tbl (m w v : Nat) : (wrGait s m w v).tbl = s.tbl := rfl
@[simp] theorem wrGait_cry (m w v : Nat) : (wrGait s m w v).cry = s.cry := rfl
@[simp] theorem wrGait_jnl (m w v : Nat) : (wrGait s m w v).jnl = s.jnl := rfl
@[simp] theorem wrGait_gpl (m w v : Nat) : (wrGait s m w v).gpl = s.gpl := rfl
@[simp] theorem wrGait_hbm (m w v : Nat) : (wrGait s m w v).hbm = s.hbm := rfl
@[simp] theorem wrGait_hkc (m w v : Nat) : (wrGait s m w v).hkc = s.hkc := rfl
@[simp] theorem wrGait_far (m w v : Nat) : (wrGait s m w v).far = s.far := rfl
@[simp] theorem wrGait_dbg (m w v : Nat) : (wrGait s m w v).dbg = s.dbg := rfl
@[simp] theorem wrGait_tb (m w v : Nat) : (wrGait s m w v).tb = s.tb := rfl
@[simp] theorem wrGait_flash (m w v : Nat) : (wrGait s m w v).flash = s.flash := rfl
@[simp] theorem wrGait_pins (m w v : Nat) : (wrGait s m w v).pins = s.pins := rfl
@[simp] theorem wrGait_out (m w v : Nat) : (wrGait s m w v).out = s.out := rfl

/-! A counter's addition changes the registers only (20 R403). -/
@[simp] theorem cntAdd_pending (o n : Nat) : (cntAdd s o n).pending = s.pending := rfl
@[simp] theorem cntAdd_fresh (o n : Nat) : (cntAdd s o n).fresh = s.fresh := rfl
@[simp] theorem cntAdd_seq (o n : Nat) : (cntAdd s o n).seq = s.seq := rfl
@[simp] theorem cntAdd_now (o n : Nat) : (cntAdd s o n).now = s.now := rfl
@[simp] theorem cntAdd_mem (o n : Nat) : (cntAdd s o n).mem = s.mem := rfl
@[simp] theorem cntAdd_thr (o n : Nat) : (cntAdd s o n).thr = s.thr := rfl
@[simp] theorem cntAdd_hlt (o n : Nat) : (cntAdd s o n).hlt = s.hlt := rfl
@[simp] theorem cntAdd_hsp (o n : Nat) : (cntAdd s o n).hsp = s.hsp := rfl
@[simp] theorem cntAdd_buf (o n : Nat) : (cntAdd s o n).buf = s.buf := rfl
@[simp] theorem cntAdd_egr (o n : Nat) : (cntAdd s o n).egr = s.egr := rfl
@[simp] theorem cntAdd_prt (o n : Nat) : (cntAdd s o n).prt = s.prt := rfl
@[simp] theorem cntAdd_par (o n : Nat) : (cntAdd s o n).par = s.par := rfl
@[simp] theorem cntAdd_stf (o n : Nat) : (cntAdd s o n).stf = s.stf := rfl
@[simp] theorem cntAdd_src (o n : Nat) : (cntAdd s o n).src = s.src := rfl
@[simp] theorem cntAdd_tbl (o n : Nat) : (cntAdd s o n).tbl = s.tbl := rfl
@[simp] theorem cntAdd_cry (o n : Nat) : (cntAdd s o n).cry = s.cry := rfl
@[simp] theorem cntAdd_jnl (o n : Nat) : (cntAdd s o n).jnl = s.jnl := rfl
@[simp] theorem cntAdd_gpl (o n : Nat) : (cntAdd s o n).gpl = s.gpl := rfl
@[simp] theorem cntAdd_hbm (o n : Nat) : (cntAdd s o n).hbm = s.hbm := rfl
@[simp] theorem cntAdd_hkc (o n : Nat) : (cntAdd s o n).hkc = s.hkc := rfl
@[simp] theorem cntAdd_far (o n : Nat) : (cntAdd s o n).far = s.far := rfl
@[simp] theorem cntAdd_dbg (o n : Nat) : (cntAdd s o n).dbg = s.dbg := rfl
@[simp] theorem cntAdd_tb (o n : Nat) : (cntAdd s o n).tb = s.tb := rfl
@[simp] theorem cntAdd_flash (o n : Nat) : (cntAdd s o n).flash = s.flash := rfl
@[simp] theorem cntAdd_pins (o n : Nat) : (cntAdd s o n).pins = s.pins := rfl
@[simp] theorem cntAdd_out (o n : Nat) : (cntAdd s o n).out = s.out := rfl

/-! A write of core local memory changes the memories only. -/
@[simp] theorem setClm_pending (k w : Nat) (v : W36) : (setClm s k w v).pending = s.pending := rfl
@[simp] theorem setClm_fresh (k w : Nat) (v : W36) : (setClm s k w v).fresh = s.fresh := rfl
@[simp] theorem setClm_seq (k w : Nat) (v : W36) : (setClm s k w v).seq = s.seq := rfl
@[simp] theorem setClm_now (k w : Nat) (v : W36) : (setClm s k w v).now = s.now := rfl
@[simp] theorem setClm_regs (k w : Nat) (v : W36) : (setClm s k w v).regs = s.regs := rfl
@[simp] theorem setClm_thr (k w : Nat) (v : W36) : (setClm s k w v).thr = s.thr := rfl
@[simp] theorem setClm_hlt (k w : Nat) (v : W36) : (setClm s k w v).hlt = s.hlt := rfl
@[simp] theorem setClm_hsp (k w : Nat) (v : W36) : (setClm s k w v).hsp = s.hsp := rfl
@[simp] theorem setClm_buf (k w : Nat) (v : W36) : (setClm s k w v).buf = s.buf := rfl
@[simp] theorem setClm_egr (k w : Nat) (v : W36) : (setClm s k w v).egr = s.egr := rfl
@[simp] theorem setClm_prt (k w : Nat) (v : W36) : (setClm s k w v).prt = s.prt := rfl
@[simp] theorem setClm_par (k w : Nat) (v : W36) : (setClm s k w v).par = s.par := rfl
@[simp] theorem setClm_stf (k w : Nat) (v : W36) : (setClm s k w v).stf = s.stf := rfl
@[simp] theorem setClm_src (k w : Nat) (v : W36) : (setClm s k w v).src = s.src := rfl
@[simp] theorem setClm_tbl (k w : Nat) (v : W36) : (setClm s k w v).tbl = s.tbl := rfl
@[simp] theorem setClm_cry (k w : Nat) (v : W36) : (setClm s k w v).cry = s.cry := rfl
@[simp] theorem setClm_jnl (k w : Nat) (v : W36) : (setClm s k w v).jnl = s.jnl := rfl
@[simp] theorem setClm_gpl (k w : Nat) (v : W36) : (setClm s k w v).gpl = s.gpl := rfl
@[simp] theorem setClm_hbm (k w : Nat) (v : W36) : (setClm s k w v).hbm = s.hbm := rfl
@[simp] theorem setClm_hkc (k w : Nat) (v : W36) : (setClm s k w v).hkc = s.hkc := rfl
@[simp] theorem setClm_far (k w : Nat) (v : W36) : (setClm s k w v).far = s.far := rfl
@[simp] theorem setClm_dbg (k w : Nat) (v : W36) : (setClm s k w v).dbg = s.dbg := rfl
@[simp] theorem setClm_tb (k w : Nat) (v : W36) : (setClm s k w v).tb = s.tb := rfl
@[simp] theorem setClm_flash (k w : Nat) (v : W36) : (setClm s k w v).flash = s.flash := rfl
@[simp] theorem setClm_pins (k w : Nat) (v : W36) : (setClm s k w v).pins = s.pins := rfl
@[simp] theorem setClm_out (k w : Nat) (v : W36) : (setClm s k w v).out = s.out := rfl

/-! A write of cluster shared memory changes the memories only. -/
@[simp] theorem setCsm_pending (k w : Nat) (v : W36) : (setCsm s k w v).pending = s.pending := rfl
@[simp] theorem setCsm_fresh (k w : Nat) (v : W36) : (setCsm s k w v).fresh = s.fresh := rfl
@[simp] theorem setCsm_seq (k w : Nat) (v : W36) : (setCsm s k w v).seq = s.seq := rfl
@[simp] theorem setCsm_now (k w : Nat) (v : W36) : (setCsm s k w v).now = s.now := rfl
@[simp] theorem setCsm_regs (k w : Nat) (v : W36) : (setCsm s k w v).regs = s.regs := rfl
@[simp] theorem setCsm_thr (k w : Nat) (v : W36) : (setCsm s k w v).thr = s.thr := rfl
@[simp] theorem setCsm_hlt (k w : Nat) (v : W36) : (setCsm s k w v).hlt = s.hlt := rfl
@[simp] theorem setCsm_hsp (k w : Nat) (v : W36) : (setCsm s k w v).hsp = s.hsp := rfl
@[simp] theorem setCsm_buf (k w : Nat) (v : W36) : (setCsm s k w v).buf = s.buf := rfl
@[simp] theorem setCsm_egr (k w : Nat) (v : W36) : (setCsm s k w v).egr = s.egr := rfl
@[simp] theorem setCsm_prt (k w : Nat) (v : W36) : (setCsm s k w v).prt = s.prt := rfl
@[simp] theorem setCsm_par (k w : Nat) (v : W36) : (setCsm s k w v).par = s.par := rfl
@[simp] theorem setCsm_stf (k w : Nat) (v : W36) : (setCsm s k w v).stf = s.stf := rfl
@[simp] theorem setCsm_src (k w : Nat) (v : W36) : (setCsm s k w v).src = s.src := rfl
@[simp] theorem setCsm_tbl (k w : Nat) (v : W36) : (setCsm s k w v).tbl = s.tbl := rfl
@[simp] theorem setCsm_cry (k w : Nat) (v : W36) : (setCsm s k w v).cry = s.cry := rfl
@[simp] theorem setCsm_jnl (k w : Nat) (v : W36) : (setCsm s k w v).jnl = s.jnl := rfl
@[simp] theorem setCsm_gpl (k w : Nat) (v : W36) : (setCsm s k w v).gpl = s.gpl := rfl
@[simp] theorem setCsm_hbm (k w : Nat) (v : W36) : (setCsm s k w v).hbm = s.hbm := rfl
@[simp] theorem setCsm_hkc (k w : Nat) (v : W36) : (setCsm s k w v).hkc = s.hkc := rfl
@[simp] theorem setCsm_far (k w : Nat) (v : W36) : (setCsm s k w v).far = s.far := rfl
@[simp] theorem setCsm_dbg (k w : Nat) (v : W36) : (setCsm s k w v).dbg = s.dbg := rfl
@[simp] theorem setCsm_tb (k w : Nat) (v : W36) : (setCsm s k w v).tb = s.tb := rfl
@[simp] theorem setCsm_flash (k w : Nat) (v : W36) : (setCsm s k w v).flash = s.flash := rfl
@[simp] theorem setCsm_pins (k w : Nat) (v : W36) : (setCsm s k w v).pins = s.pins := rfl
@[simp] theorem setCsm_out (k w : Nat) (v : W36) : (setCsm s k w v).out = s.out := rfl

/-! A write of an instruction store changes the memories only. -/
@[simp] theorem setIst_pending (k w : Nat) (v : W36) : (setIst s k w v).pending = s.pending := rfl
@[simp] theorem setIst_fresh (k w : Nat) (v : W36) : (setIst s k w v).fresh = s.fresh := rfl
@[simp] theorem setIst_seq (k w : Nat) (v : W36) : (setIst s k w v).seq = s.seq := rfl
@[simp] theorem setIst_now (k w : Nat) (v : W36) : (setIst s k w v).now = s.now := rfl
@[simp] theorem setIst_regs (k w : Nat) (v : W36) : (setIst s k w v).regs = s.regs := rfl
@[simp] theorem setIst_thr (k w : Nat) (v : W36) : (setIst s k w v).thr = s.thr := rfl
@[simp] theorem setIst_hlt (k w : Nat) (v : W36) : (setIst s k w v).hlt = s.hlt := rfl
@[simp] theorem setIst_hsp (k w : Nat) (v : W36) : (setIst s k w v).hsp = s.hsp := rfl
@[simp] theorem setIst_buf (k w : Nat) (v : W36) : (setIst s k w v).buf = s.buf := rfl
@[simp] theorem setIst_egr (k w : Nat) (v : W36) : (setIst s k w v).egr = s.egr := rfl
@[simp] theorem setIst_prt (k w : Nat) (v : W36) : (setIst s k w v).prt = s.prt := rfl
@[simp] theorem setIst_par (k w : Nat) (v : W36) : (setIst s k w v).par = s.par := rfl
@[simp] theorem setIst_stf (k w : Nat) (v : W36) : (setIst s k w v).stf = s.stf := rfl
@[simp] theorem setIst_src (k w : Nat) (v : W36) : (setIst s k w v).src = s.src := rfl
@[simp] theorem setIst_tbl (k w : Nat) (v : W36) : (setIst s k w v).tbl = s.tbl := rfl
@[simp] theorem setIst_cry (k w : Nat) (v : W36) : (setIst s k w v).cry = s.cry := rfl
@[simp] theorem setIst_jnl (k w : Nat) (v : W36) : (setIst s k w v).jnl = s.jnl := rfl
@[simp] theorem setIst_gpl (k w : Nat) (v : W36) : (setIst s k w v).gpl = s.gpl := rfl
@[simp] theorem setIst_hbm (k w : Nat) (v : W36) : (setIst s k w v).hbm = s.hbm := rfl
@[simp] theorem setIst_hkc (k w : Nat) (v : W36) : (setIst s k w v).hkc = s.hkc := rfl
@[simp] theorem setIst_far (k w : Nat) (v : W36) : (setIst s k w v).far = s.far := rfl
@[simp] theorem setIst_dbg (k w : Nat) (v : W36) : (setIst s k w v).dbg = s.dbg := rfl
@[simp] theorem setIst_tb (k w : Nat) (v : W36) : (setIst s k w v).tb = s.tb := rfl
@[simp] theorem setIst_flash (k w : Nat) (v : W36) : (setIst s k w v).flash = s.flash := rfl
@[simp] theorem setIst_pins (k w : Nat) (v : W36) : (setIst s k w v).pins = s.pins := rfl
@[simp] theorem setIst_out (k w : Nat) (v : W36) : (setIst s k w v).out = s.out := rfl

/-! A store of a thread changes the threads only. -/
@[simp] theorem setThr_pending (t : Nat) (x : Thread) : (setThr s t x).pending = s.pending := rfl
@[simp] theorem setThr_fresh (t : Nat) (x : Thread) : (setThr s t x).fresh = s.fresh := rfl
@[simp] theorem setThr_seq (t : Nat) (x : Thread) : (setThr s t x).seq = s.seq := rfl
@[simp] theorem setThr_now (t : Nat) (x : Thread) : (setThr s t x).now = s.now := rfl
@[simp] theorem setThr_regs (t : Nat) (x : Thread) : (setThr s t x).regs = s.regs := rfl
@[simp] theorem setThr_mem (t : Nat) (x : Thread) : (setThr s t x).mem = s.mem := rfl
@[simp] theorem setThr_hlt (t : Nat) (x : Thread) : (setThr s t x).hlt = s.hlt := rfl
@[simp] theorem setThr_hsp (t : Nat) (x : Thread) : (setThr s t x).hsp = s.hsp := rfl
@[simp] theorem setThr_buf (t : Nat) (x : Thread) : (setThr s t x).buf = s.buf := rfl
@[simp] theorem setThr_egr (t : Nat) (x : Thread) : (setThr s t x).egr = s.egr := rfl
@[simp] theorem setThr_prt (t : Nat) (x : Thread) : (setThr s t x).prt = s.prt := rfl
@[simp] theorem setThr_par (t : Nat) (x : Thread) : (setThr s t x).par = s.par := rfl
@[simp] theorem setThr_stf (t : Nat) (x : Thread) : (setThr s t x).stf = s.stf := rfl
@[simp] theorem setThr_src (t : Nat) (x : Thread) : (setThr s t x).src = s.src := rfl
@[simp] theorem setThr_tbl (t : Nat) (x : Thread) : (setThr s t x).tbl = s.tbl := rfl
@[simp] theorem setThr_cry (t : Nat) (x : Thread) : (setThr s t x).cry = s.cry := rfl
@[simp] theorem setThr_jnl (t : Nat) (x : Thread) : (setThr s t x).jnl = s.jnl := rfl
@[simp] theorem setThr_gpl (t : Nat) (x : Thread) : (setThr s t x).gpl = s.gpl := rfl
@[simp] theorem setThr_hbm (t : Nat) (x : Thread) : (setThr s t x).hbm = s.hbm := rfl
@[simp] theorem setThr_hkc (t : Nat) (x : Thread) : (setThr s t x).hkc = s.hkc := rfl
@[simp] theorem setThr_far (t : Nat) (x : Thread) : (setThr s t x).far = s.far := rfl
@[simp] theorem setThr_dbg (t : Nat) (x : Thread) : (setThr s t x).dbg = s.dbg := rfl
@[simp] theorem setThr_tb (t : Nat) (x : Thread) : (setThr s t x).tb = s.tb := rfl
@[simp] theorem setThr_flash (t : Nat) (x : Thread) : (setThr s t x).flash = s.flash := rfl
@[simp] theorem setThr_pins (t : Nat) (x : Thread) : (setThr s t x).pins = s.pins := rfl
@[simp] theorem setThr_out (t : Nat) (x : Thread) : (setThr s t x).out = s.out := rfl

/-! A change of a thread changes the threads only. -/
@[simp] theorem updThr_pending (t : Nat) (f : Thread → Thread) : (updThr s t f).pending = s.pending := rfl
@[simp] theorem updThr_fresh (t : Nat) (f : Thread → Thread) : (updThr s t f).fresh = s.fresh := rfl
@[simp] theorem updThr_seq (t : Nat) (f : Thread → Thread) : (updThr s t f).seq = s.seq := rfl
@[simp] theorem updThr_now (t : Nat) (f : Thread → Thread) : (updThr s t f).now = s.now := rfl
@[simp] theorem updThr_regs (t : Nat) (f : Thread → Thread) : (updThr s t f).regs = s.regs := rfl
@[simp] theorem updThr_mem (t : Nat) (f : Thread → Thread) : (updThr s t f).mem = s.mem := rfl
@[simp] theorem updThr_hlt (t : Nat) (f : Thread → Thread) : (updThr s t f).hlt = s.hlt := rfl
@[simp] theorem updThr_hsp (t : Nat) (f : Thread → Thread) : (updThr s t f).hsp = s.hsp := rfl
@[simp] theorem updThr_buf (t : Nat) (f : Thread → Thread) : (updThr s t f).buf = s.buf := rfl
@[simp] theorem updThr_egr (t : Nat) (f : Thread → Thread) : (updThr s t f).egr = s.egr := rfl
@[simp] theorem updThr_prt (t : Nat) (f : Thread → Thread) : (updThr s t f).prt = s.prt := rfl
@[simp] theorem updThr_par (t : Nat) (f : Thread → Thread) : (updThr s t f).par = s.par := rfl
@[simp] theorem updThr_stf (t : Nat) (f : Thread → Thread) : (updThr s t f).stf = s.stf := rfl
@[simp] theorem updThr_src (t : Nat) (f : Thread → Thread) : (updThr s t f).src = s.src := rfl
@[simp] theorem updThr_tbl (t : Nat) (f : Thread → Thread) : (updThr s t f).tbl = s.tbl := rfl
@[simp] theorem updThr_cry (t : Nat) (f : Thread → Thread) : (updThr s t f).cry = s.cry := rfl
@[simp] theorem updThr_jnl (t : Nat) (f : Thread → Thread) : (updThr s t f).jnl = s.jnl := rfl
@[simp] theorem updThr_gpl (t : Nat) (f : Thread → Thread) : (updThr s t f).gpl = s.gpl := rfl
@[simp] theorem updThr_hbm (t : Nat) (f : Thread → Thread) : (updThr s t f).hbm = s.hbm := rfl
@[simp] theorem updThr_hkc (t : Nat) (f : Thread → Thread) : (updThr s t f).hkc = s.hkc := rfl
@[simp] theorem updThr_far (t : Nat) (f : Thread → Thread) : (updThr s t f).far = s.far := rfl
@[simp] theorem updThr_dbg (t : Nat) (f : Thread → Thread) : (updThr s t f).dbg = s.dbg := rfl
@[simp] theorem updThr_tb (t : Nat) (f : Thread → Thread) : (updThr s t f).tb = s.tb := rfl
@[simp] theorem updThr_flash (t : Nat) (f : Thread → Thread) : (updThr s t f).flash = s.flash := rfl
@[simp] theorem updThr_pins (t : Nat) (f : Thread → Thread) : (updThr s t f).pins = s.pins := rfl
@[simp] theorem updThr_out (t : Nat) (f : Thread → Thread) : (updThr s t f).out = s.out := rfl

/-! A change of a thread's context changes the threads only. -/
@[simp] theorem updCtx_pending (t : Nat) (f : Ctx → Ctx) : (updCtx s t f).pending = s.pending := rfl
@[simp] theorem updCtx_fresh (t : Nat) (f : Ctx → Ctx) : (updCtx s t f).fresh = s.fresh := rfl
@[simp] theorem updCtx_seq (t : Nat) (f : Ctx → Ctx) : (updCtx s t f).seq = s.seq := rfl
@[simp] theorem updCtx_now (t : Nat) (f : Ctx → Ctx) : (updCtx s t f).now = s.now := rfl
@[simp] theorem updCtx_regs (t : Nat) (f : Ctx → Ctx) : (updCtx s t f).regs = s.regs := rfl
@[simp] theorem updCtx_mem (t : Nat) (f : Ctx → Ctx) : (updCtx s t f).mem = s.mem := rfl
@[simp] theorem updCtx_hlt (t : Nat) (f : Ctx → Ctx) : (updCtx s t f).hlt = s.hlt := rfl
@[simp] theorem updCtx_hsp (t : Nat) (f : Ctx → Ctx) : (updCtx s t f).hsp = s.hsp := rfl
@[simp] theorem updCtx_buf (t : Nat) (f : Ctx → Ctx) : (updCtx s t f).buf = s.buf := rfl
@[simp] theorem updCtx_egr (t : Nat) (f : Ctx → Ctx) : (updCtx s t f).egr = s.egr := rfl
@[simp] theorem updCtx_prt (t : Nat) (f : Ctx → Ctx) : (updCtx s t f).prt = s.prt := rfl
@[simp] theorem updCtx_par (t : Nat) (f : Ctx → Ctx) : (updCtx s t f).par = s.par := rfl
@[simp] theorem updCtx_stf (t : Nat) (f : Ctx → Ctx) : (updCtx s t f).stf = s.stf := rfl
@[simp] theorem updCtx_src (t : Nat) (f : Ctx → Ctx) : (updCtx s t f).src = s.src := rfl
@[simp] theorem updCtx_tbl (t : Nat) (f : Ctx → Ctx) : (updCtx s t f).tbl = s.tbl := rfl
@[simp] theorem updCtx_cry (t : Nat) (f : Ctx → Ctx) : (updCtx s t f).cry = s.cry := rfl
@[simp] theorem updCtx_jnl (t : Nat) (f : Ctx → Ctx) : (updCtx s t f).jnl = s.jnl := rfl
@[simp] theorem updCtx_gpl (t : Nat) (f : Ctx → Ctx) : (updCtx s t f).gpl = s.gpl := rfl
@[simp] theorem updCtx_hbm (t : Nat) (f : Ctx → Ctx) : (updCtx s t f).hbm = s.hbm := rfl
@[simp] theorem updCtx_hkc (t : Nat) (f : Ctx → Ctx) : (updCtx s t f).hkc = s.hkc := rfl
@[simp] theorem updCtx_far (t : Nat) (f : Ctx → Ctx) : (updCtx s t f).far = s.far := rfl
@[simp] theorem updCtx_dbg (t : Nat) (f : Ctx → Ctx) : (updCtx s t f).dbg = s.dbg := rfl
@[simp] theorem updCtx_tb (t : Nat) (f : Ctx → Ctx) : (updCtx s t f).tb = s.tb := rfl
@[simp] theorem updCtx_flash (t : Nat) (f : Ctx → Ctx) : (updCtx s t f).flash = s.flash := rfl
@[simp] theorem updCtx_pins (t : Nat) (f : Ctx → Ctx) : (updCtx s t f).pins = s.pins := rfl
@[simp] theorem updCtx_out (t : Nat) (f : Ctx → Ctx) : (updCtx s t f).out = s.out := rfl

/-! A save slot filled changes the threads only. -/
@[simp] theorem putSlot_pending (k : Nat) (x : Saved) : (putSlot s k x).pending = s.pending := rfl
@[simp] theorem putSlot_fresh (k : Nat) (x : Saved) : (putSlot s k x).fresh = s.fresh := rfl
@[simp] theorem putSlot_seq (k : Nat) (x : Saved) : (putSlot s k x).seq = s.seq := rfl
@[simp] theorem putSlot_now (k : Nat) (x : Saved) : (putSlot s k x).now = s.now := rfl
@[simp] theorem putSlot_regs (k : Nat) (x : Saved) : (putSlot s k x).regs = s.regs := rfl
@[simp] theorem putSlot_mem (k : Nat) (x : Saved) : (putSlot s k x).mem = s.mem := rfl
@[simp] theorem putSlot_hlt (k : Nat) (x : Saved) : (putSlot s k x).hlt = s.hlt := rfl
@[simp] theorem putSlot_hsp (k : Nat) (x : Saved) : (putSlot s k x).hsp = s.hsp := rfl
@[simp] theorem putSlot_buf (k : Nat) (x : Saved) : (putSlot s k x).buf = s.buf := rfl
@[simp] theorem putSlot_egr (k : Nat) (x : Saved) : (putSlot s k x).egr = s.egr := rfl
@[simp] theorem putSlot_prt (k : Nat) (x : Saved) : (putSlot s k x).prt = s.prt := rfl
@[simp] theorem putSlot_par (k : Nat) (x : Saved) : (putSlot s k x).par = s.par := rfl
@[simp] theorem putSlot_stf (k : Nat) (x : Saved) : (putSlot s k x).stf = s.stf := rfl
@[simp] theorem putSlot_src (k : Nat) (x : Saved) : (putSlot s k x).src = s.src := rfl
@[simp] theorem putSlot_tbl (k : Nat) (x : Saved) : (putSlot s k x).tbl = s.tbl := rfl
@[simp] theorem putSlot_cry (k : Nat) (x : Saved) : (putSlot s k x).cry = s.cry := rfl
@[simp] theorem putSlot_jnl (k : Nat) (x : Saved) : (putSlot s k x).jnl = s.jnl := rfl
@[simp] theorem putSlot_gpl (k : Nat) (x : Saved) : (putSlot s k x).gpl = s.gpl := rfl
@[simp] theorem putSlot_hbm (k : Nat) (x : Saved) : (putSlot s k x).hbm = s.hbm := rfl
@[simp] theorem putSlot_hkc (k : Nat) (x : Saved) : (putSlot s k x).hkc = s.hkc := rfl
@[simp] theorem putSlot_far (k : Nat) (x : Saved) : (putSlot s k x).far = s.far := rfl
@[simp] theorem putSlot_dbg (k : Nat) (x : Saved) : (putSlot s k x).dbg = s.dbg := rfl
@[simp] theorem putSlot_tb (k : Nat) (x : Saved) : (putSlot s k x).tb = s.tb := rfl
@[simp] theorem putSlot_flash (k : Nat) (x : Saved) : (putSlot s k x).flash = s.flash := rfl
@[simp] theorem putSlot_pins (k : Nat) (x : Saved) : (putSlot s k x).pins = s.pins := rfl
@[simp] theorem putSlot_out (k : Nat) (x : Saved) : (putSlot s k x).out = s.out := rfl

/-! A save slot emptied changes the threads only. -/
@[simp] theorem delSlot_pending (k : Nat) : (delSlot s k).pending = s.pending := rfl
@[simp] theorem delSlot_fresh (k : Nat) : (delSlot s k).fresh = s.fresh := rfl
@[simp] theorem delSlot_seq (k : Nat) : (delSlot s k).seq = s.seq := rfl
@[simp] theorem delSlot_now (k : Nat) : (delSlot s k).now = s.now := rfl
@[simp] theorem delSlot_regs (k : Nat) : (delSlot s k).regs = s.regs := rfl
@[simp] theorem delSlot_mem (k : Nat) : (delSlot s k).mem = s.mem := rfl
@[simp] theorem delSlot_hlt (k : Nat) : (delSlot s k).hlt = s.hlt := rfl
@[simp] theorem delSlot_hsp (k : Nat) : (delSlot s k).hsp = s.hsp := rfl
@[simp] theorem delSlot_buf (k : Nat) : (delSlot s k).buf = s.buf := rfl
@[simp] theorem delSlot_egr (k : Nat) : (delSlot s k).egr = s.egr := rfl
@[simp] theorem delSlot_prt (k : Nat) : (delSlot s k).prt = s.prt := rfl
@[simp] theorem delSlot_par (k : Nat) : (delSlot s k).par = s.par := rfl
@[simp] theorem delSlot_stf (k : Nat) : (delSlot s k).stf = s.stf := rfl
@[simp] theorem delSlot_src (k : Nat) : (delSlot s k).src = s.src := rfl
@[simp] theorem delSlot_tbl (k : Nat) : (delSlot s k).tbl = s.tbl := rfl
@[simp] theorem delSlot_cry (k : Nat) : (delSlot s k).cry = s.cry := rfl
@[simp] theorem delSlot_jnl (k : Nat) : (delSlot s k).jnl = s.jnl := rfl
@[simp] theorem delSlot_gpl (k : Nat) : (delSlot s k).gpl = s.gpl := rfl
@[simp] theorem delSlot_hbm (k : Nat) : (delSlot s k).hbm = s.hbm := rfl
@[simp] theorem delSlot_hkc (k : Nat) : (delSlot s k).hkc = s.hkc := rfl
@[simp] theorem delSlot_far (k : Nat) : (delSlot s k).far = s.far := rfl
@[simp] theorem delSlot_dbg (k : Nat) : (delSlot s k).dbg = s.dbg := rfl
@[simp] theorem delSlot_tb (k : Nat) : (delSlot s k).tb = s.tb := rfl
@[simp] theorem delSlot_flash (k : Nat) : (delSlot s k).flash = s.flash := rfl
@[simp] theorem delSlot_pins (k : Nat) : (delSlot s k).pins = s.pins := rfl
@[simp] theorem delSlot_out (k : Nat) : (delSlot s k).out = s.out := rfl

/-! A task stored changes the threads only. -/
@[simp] theorem putTask_pending (k : Nat) (x : TaskSt) : (putTask s k x).pending = s.pending := rfl
@[simp] theorem putTask_fresh (k : Nat) (x : TaskSt) : (putTask s k x).fresh = s.fresh := rfl
@[simp] theorem putTask_seq (k : Nat) (x : TaskSt) : (putTask s k x).seq = s.seq := rfl
@[simp] theorem putTask_now (k : Nat) (x : TaskSt) : (putTask s k x).now = s.now := rfl
@[simp] theorem putTask_regs (k : Nat) (x : TaskSt) : (putTask s k x).regs = s.regs := rfl
@[simp] theorem putTask_mem (k : Nat) (x : TaskSt) : (putTask s k x).mem = s.mem := rfl
@[simp] theorem putTask_hlt (k : Nat) (x : TaskSt) : (putTask s k x).hlt = s.hlt := rfl
@[simp] theorem putTask_hsp (k : Nat) (x : TaskSt) : (putTask s k x).hsp = s.hsp := rfl
@[simp] theorem putTask_buf (k : Nat) (x : TaskSt) : (putTask s k x).buf = s.buf := rfl
@[simp] theorem putTask_egr (k : Nat) (x : TaskSt) : (putTask s k x).egr = s.egr := rfl
@[simp] theorem putTask_prt (k : Nat) (x : TaskSt) : (putTask s k x).prt = s.prt := rfl
@[simp] theorem putTask_par (k : Nat) (x : TaskSt) : (putTask s k x).par = s.par := rfl
@[simp] theorem putTask_stf (k : Nat) (x : TaskSt) : (putTask s k x).stf = s.stf := rfl
@[simp] theorem putTask_src (k : Nat) (x : TaskSt) : (putTask s k x).src = s.src := rfl
@[simp] theorem putTask_tbl (k : Nat) (x : TaskSt) : (putTask s k x).tbl = s.tbl := rfl
@[simp] theorem putTask_cry (k : Nat) (x : TaskSt) : (putTask s k x).cry = s.cry := rfl
@[simp] theorem putTask_jnl (k : Nat) (x : TaskSt) : (putTask s k x).jnl = s.jnl := rfl
@[simp] theorem putTask_gpl (k : Nat) (x : TaskSt) : (putTask s k x).gpl = s.gpl := rfl
@[simp] theorem putTask_hbm (k : Nat) (x : TaskSt) : (putTask s k x).hbm = s.hbm := rfl
@[simp] theorem putTask_hkc (k : Nat) (x : TaskSt) : (putTask s k x).hkc = s.hkc := rfl
@[simp] theorem putTask_far (k : Nat) (x : TaskSt) : (putTask s k x).far = s.far := rfl
@[simp] theorem putTask_dbg (k : Nat) (x : TaskSt) : (putTask s k x).dbg = s.dbg := rfl
@[simp] theorem putTask_tb (k : Nat) (x : TaskSt) : (putTask s k x).tb = s.tb := rfl
@[simp] theorem putTask_flash (k : Nat) (x : TaskSt) : (putTask s k x).flash = s.flash := rfl
@[simp] theorem putTask_pins (k : Nat) (x : TaskSt) : (putTask s k x).pins = s.pins := rfl
@[simp] theorem putTask_out (k : Nat) (x : TaskSt) : (putTask s k x).out = s.out := rfl

/-! A store of a lock changes Hasp only. -/
@[simp] theorem setLock_pending (k : Nat) (x : Lock) : (setLock s k x).pending = s.pending := rfl
@[simp] theorem setLock_fresh (k : Nat) (x : Lock) : (setLock s k x).fresh = s.fresh := rfl
@[simp] theorem setLock_seq (k : Nat) (x : Lock) : (setLock s k x).seq = s.seq := rfl
@[simp] theorem setLock_now (k : Nat) (x : Lock) : (setLock s k x).now = s.now := rfl
@[simp] theorem setLock_regs (k : Nat) (x : Lock) : (setLock s k x).regs = s.regs := rfl
@[simp] theorem setLock_mem (k : Nat) (x : Lock) : (setLock s k x).mem = s.mem := rfl
@[simp] theorem setLock_thr (k : Nat) (x : Lock) : (setLock s k x).thr = s.thr := rfl
@[simp] theorem setLock_hlt (k : Nat) (x : Lock) : (setLock s k x).hlt = s.hlt := rfl
@[simp] theorem setLock_buf (k : Nat) (x : Lock) : (setLock s k x).buf = s.buf := rfl
@[simp] theorem setLock_egr (k : Nat) (x : Lock) : (setLock s k x).egr = s.egr := rfl
@[simp] theorem setLock_prt (k : Nat) (x : Lock) : (setLock s k x).prt = s.prt := rfl
@[simp] theorem setLock_par (k : Nat) (x : Lock) : (setLock s k x).par = s.par := rfl
@[simp] theorem setLock_stf (k : Nat) (x : Lock) : (setLock s k x).stf = s.stf := rfl
@[simp] theorem setLock_src (k : Nat) (x : Lock) : (setLock s k x).src = s.src := rfl
@[simp] theorem setLock_tbl (k : Nat) (x : Lock) : (setLock s k x).tbl = s.tbl := rfl
@[simp] theorem setLock_cry (k : Nat) (x : Lock) : (setLock s k x).cry = s.cry := rfl
@[simp] theorem setLock_jnl (k : Nat) (x : Lock) : (setLock s k x).jnl = s.jnl := rfl
@[simp] theorem setLock_gpl (k : Nat) (x : Lock) : (setLock s k x).gpl = s.gpl := rfl
@[simp] theorem setLock_hbm (k : Nat) (x : Lock) : (setLock s k x).hbm = s.hbm := rfl
@[simp] theorem setLock_hkc (k : Nat) (x : Lock) : (setLock s k x).hkc = s.hkc := rfl
@[simp] theorem setLock_far (k : Nat) (x : Lock) : (setLock s k x).far = s.far := rfl
@[simp] theorem setLock_dbg (k : Nat) (x : Lock) : (setLock s k x).dbg = s.dbg := rfl
@[simp] theorem setLock_tb (k : Nat) (x : Lock) : (setLock s k x).tb = s.tb := rfl
@[simp] theorem setLock_flash (k : Nat) (x : Lock) : (setLock s k x).flash = s.flash := rfl
@[simp] theorem setLock_pins (k : Nat) (x : Lock) : (setLock s k x).pins = s.pins := rfl
@[simp] theorem setLock_out (k : Nat) (x : Lock) : (setLock s k x).out = s.out := rfl

/-! A store of a channel slot changes Hasp only. -/
@[simp] theorem setChSlot_pending (i : Nat) (x : ChSlot) : (setChSlot s i x).pending = s.pending := rfl
@[simp] theorem setChSlot_fresh (i : Nat) (x : ChSlot) : (setChSlot s i x).fresh = s.fresh := rfl
@[simp] theorem setChSlot_seq (i : Nat) (x : ChSlot) : (setChSlot s i x).seq = s.seq := rfl
@[simp] theorem setChSlot_now (i : Nat) (x : ChSlot) : (setChSlot s i x).now = s.now := rfl
@[simp] theorem setChSlot_regs (i : Nat) (x : ChSlot) : (setChSlot s i x).regs = s.regs := rfl
@[simp] theorem setChSlot_mem (i : Nat) (x : ChSlot) : (setChSlot s i x).mem = s.mem := rfl
@[simp] theorem setChSlot_thr (i : Nat) (x : ChSlot) : (setChSlot s i x).thr = s.thr := rfl
@[simp] theorem setChSlot_hlt (i : Nat) (x : ChSlot) : (setChSlot s i x).hlt = s.hlt := rfl
@[simp] theorem setChSlot_buf (i : Nat) (x : ChSlot) : (setChSlot s i x).buf = s.buf := rfl
@[simp] theorem setChSlot_egr (i : Nat) (x : ChSlot) : (setChSlot s i x).egr = s.egr := rfl
@[simp] theorem setChSlot_prt (i : Nat) (x : ChSlot) : (setChSlot s i x).prt = s.prt := rfl
@[simp] theorem setChSlot_par (i : Nat) (x : ChSlot) : (setChSlot s i x).par = s.par := rfl
@[simp] theorem setChSlot_stf (i : Nat) (x : ChSlot) : (setChSlot s i x).stf = s.stf := rfl
@[simp] theorem setChSlot_src (i : Nat) (x : ChSlot) : (setChSlot s i x).src = s.src := rfl
@[simp] theorem setChSlot_tbl (i : Nat) (x : ChSlot) : (setChSlot s i x).tbl = s.tbl := rfl
@[simp] theorem setChSlot_cry (i : Nat) (x : ChSlot) : (setChSlot s i x).cry = s.cry := rfl
@[simp] theorem setChSlot_jnl (i : Nat) (x : ChSlot) : (setChSlot s i x).jnl = s.jnl := rfl
@[simp] theorem setChSlot_gpl (i : Nat) (x : ChSlot) : (setChSlot s i x).gpl = s.gpl := rfl
@[simp] theorem setChSlot_hbm (i : Nat) (x : ChSlot) : (setChSlot s i x).hbm = s.hbm := rfl
@[simp] theorem setChSlot_hkc (i : Nat) (x : ChSlot) : (setChSlot s i x).hkc = s.hkc := rfl
@[simp] theorem setChSlot_far (i : Nat) (x : ChSlot) : (setChSlot s i x).far = s.far := rfl
@[simp] theorem setChSlot_dbg (i : Nat) (x : ChSlot) : (setChSlot s i x).dbg = s.dbg := rfl
@[simp] theorem setChSlot_tb (i : Nat) (x : ChSlot) : (setChSlot s i x).tb = s.tb := rfl
@[simp] theorem setChSlot_flash (i : Nat) (x : ChSlot) : (setChSlot s i x).flash = s.flash := rfl
@[simp] theorem setChSlot_pins (i : Nat) (x : ChSlot) : (setChSlot s i x).pins = s.pins := rfl
@[simp] theorem setChSlot_out (i : Nat) (x : ChSlot) : (setChSlot s i x).out = s.out := rfl

/-! A store of a ticket changes Halter only. -/
@[simp] theorem setTicket_pending (i : Nat) (x : Ticket) : (setTicket s i x).pending = s.pending := rfl
@[simp] theorem setTicket_fresh (i : Nat) (x : Ticket) : (setTicket s i x).fresh = s.fresh := rfl
@[simp] theorem setTicket_seq (i : Nat) (x : Ticket) : (setTicket s i x).seq = s.seq := rfl
@[simp] theorem setTicket_now (i : Nat) (x : Ticket) : (setTicket s i x).now = s.now := rfl
@[simp] theorem setTicket_regs (i : Nat) (x : Ticket) : (setTicket s i x).regs = s.regs := rfl
@[simp] theorem setTicket_mem (i : Nat) (x : Ticket) : (setTicket s i x).mem = s.mem := rfl
@[simp] theorem setTicket_thr (i : Nat) (x : Ticket) : (setTicket s i x).thr = s.thr := rfl
@[simp] theorem setTicket_hsp (i : Nat) (x : Ticket) : (setTicket s i x).hsp = s.hsp := rfl
@[simp] theorem setTicket_buf (i : Nat) (x : Ticket) : (setTicket s i x).buf = s.buf := rfl
@[simp] theorem setTicket_egr (i : Nat) (x : Ticket) : (setTicket s i x).egr = s.egr := rfl
@[simp] theorem setTicket_prt (i : Nat) (x : Ticket) : (setTicket s i x).prt = s.prt := rfl
@[simp] theorem setTicket_par (i : Nat) (x : Ticket) : (setTicket s i x).par = s.par := rfl
@[simp] theorem setTicket_stf (i : Nat) (x : Ticket) : (setTicket s i x).stf = s.stf := rfl
@[simp] theorem setTicket_src (i : Nat) (x : Ticket) : (setTicket s i x).src = s.src := rfl
@[simp] theorem setTicket_tbl (i : Nat) (x : Ticket) : (setTicket s i x).tbl = s.tbl := rfl
@[simp] theorem setTicket_cry (i : Nat) (x : Ticket) : (setTicket s i x).cry = s.cry := rfl
@[simp] theorem setTicket_jnl (i : Nat) (x : Ticket) : (setTicket s i x).jnl = s.jnl := rfl
@[simp] theorem setTicket_gpl (i : Nat) (x : Ticket) : (setTicket s i x).gpl = s.gpl := rfl
@[simp] theorem setTicket_hbm (i : Nat) (x : Ticket) : (setTicket s i x).hbm = s.hbm := rfl
@[simp] theorem setTicket_hkc (i : Nat) (x : Ticket) : (setTicket s i x).hkc = s.hkc := rfl
@[simp] theorem setTicket_far (i : Nat) (x : Ticket) : (setTicket s i x).far = s.far := rfl
@[simp] theorem setTicket_dbg (i : Nat) (x : Ticket) : (setTicket s i x).dbg = s.dbg := rfl
@[simp] theorem setTicket_tb (i : Nat) (x : Ticket) : (setTicket s i x).tb = s.tb := rfl
@[simp] theorem setTicket_flash (i : Nat) (x : Ticket) : (setTicket s i x).flash = s.flash := rfl
@[simp] theorem setTicket_pins (i : Nat) (x : Ticket) : (setTicket s i x).pins = s.pins := rfl
@[simp] theorem setTicket_out (i : Nat) (x : Ticket) : (setTicket s i x).out = s.out := rfl

/-! A store of an ordering domain changes Halter only. -/
@[simp] theorem setOrder_pending (d : Nat) (x : List Nat) : (setOrder s d x).pending = s.pending := rfl
@[simp] theorem setOrder_fresh (d : Nat) (x : List Nat) : (setOrder s d x).fresh = s.fresh := rfl
@[simp] theorem setOrder_seq (d : Nat) (x : List Nat) : (setOrder s d x).seq = s.seq := rfl
@[simp] theorem setOrder_now (d : Nat) (x : List Nat) : (setOrder s d x).now = s.now := rfl
@[simp] theorem setOrder_regs (d : Nat) (x : List Nat) : (setOrder s d x).regs = s.regs := rfl
@[simp] theorem setOrder_mem (d : Nat) (x : List Nat) : (setOrder s d x).mem = s.mem := rfl
@[simp] theorem setOrder_thr (d : Nat) (x : List Nat) : (setOrder s d x).thr = s.thr := rfl
@[simp] theorem setOrder_hsp (d : Nat) (x : List Nat) : (setOrder s d x).hsp = s.hsp := rfl
@[simp] theorem setOrder_buf (d : Nat) (x : List Nat) : (setOrder s d x).buf = s.buf := rfl
@[simp] theorem setOrder_egr (d : Nat) (x : List Nat) : (setOrder s d x).egr = s.egr := rfl
@[simp] theorem setOrder_prt (d : Nat) (x : List Nat) : (setOrder s d x).prt = s.prt := rfl
@[simp] theorem setOrder_par (d : Nat) (x : List Nat) : (setOrder s d x).par = s.par := rfl
@[simp] theorem setOrder_stf (d : Nat) (x : List Nat) : (setOrder s d x).stf = s.stf := rfl
@[simp] theorem setOrder_src (d : Nat) (x : List Nat) : (setOrder s d x).src = s.src := rfl
@[simp] theorem setOrder_tbl (d : Nat) (x : List Nat) : (setOrder s d x).tbl = s.tbl := rfl
@[simp] theorem setOrder_cry (d : Nat) (x : List Nat) : (setOrder s d x).cry = s.cry := rfl
@[simp] theorem setOrder_jnl (d : Nat) (x : List Nat) : (setOrder s d x).jnl = s.jnl := rfl
@[simp] theorem setOrder_gpl (d : Nat) (x : List Nat) : (setOrder s d x).gpl = s.gpl := rfl
@[simp] theorem setOrder_hbm (d : Nat) (x : List Nat) : (setOrder s d x).hbm = s.hbm := rfl
@[simp] theorem setOrder_hkc (d : Nat) (x : List Nat) : (setOrder s d x).hkc = s.hkc := rfl
@[simp] theorem setOrder_far (d : Nat) (x : List Nat) : (setOrder s d x).far = s.far := rfl
@[simp] theorem setOrder_dbg (d : Nat) (x : List Nat) : (setOrder s d x).dbg = s.dbg := rfl
@[simp] theorem setOrder_tb (d : Nat) (x : List Nat) : (setOrder s d x).tb = s.tb := rfl
@[simp] theorem setOrder_flash (d : Nat) (x : List Nat) : (setOrder s d x).flash = s.flash := rfl
@[simp] theorem setOrder_pins (d : Nat) (x : List Nat) : (setOrder s d x).pins = s.pins := rfl
@[simp] theorem setOrder_out (d : Nat) (x : List Nat) : (setOrder s d x).out = s.out := rfl

/-! A store of a buffer's tag changes the buffers only. -/
@[simp] theorem setTag_pending (a : Nat) (x : BufTag) : (setTag s a x).pending = s.pending := rfl
@[simp] theorem setTag_fresh (a : Nat) (x : BufTag) : (setTag s a x).fresh = s.fresh := rfl
@[simp] theorem setTag_seq (a : Nat) (x : BufTag) : (setTag s a x).seq = s.seq := rfl
@[simp] theorem setTag_now (a : Nat) (x : BufTag) : (setTag s a x).now = s.now := rfl
@[simp] theorem setTag_regs (a : Nat) (x : BufTag) : (setTag s a x).regs = s.regs := rfl
@[simp] theorem setTag_mem (a : Nat) (x : BufTag) : (setTag s a x).mem = s.mem := rfl
@[simp] theorem setTag_thr (a : Nat) (x : BufTag) : (setTag s a x).thr = s.thr := rfl
@[simp] theorem setTag_hlt (a : Nat) (x : BufTag) : (setTag s a x).hlt = s.hlt := rfl
@[simp] theorem setTag_hsp (a : Nat) (x : BufTag) : (setTag s a x).hsp = s.hsp := rfl
@[simp] theorem setTag_egr (a : Nat) (x : BufTag) : (setTag s a x).egr = s.egr := rfl
@[simp] theorem setTag_prt (a : Nat) (x : BufTag) : (setTag s a x).prt = s.prt := rfl
@[simp] theorem setTag_par (a : Nat) (x : BufTag) : (setTag s a x).par = s.par := rfl
@[simp] theorem setTag_stf (a : Nat) (x : BufTag) : (setTag s a x).stf = s.stf := rfl
@[simp] theorem setTag_src (a : Nat) (x : BufTag) : (setTag s a x).src = s.src := rfl
@[simp] theorem setTag_tbl (a : Nat) (x : BufTag) : (setTag s a x).tbl = s.tbl := rfl
@[simp] theorem setTag_cry (a : Nat) (x : BufTag) : (setTag s a x).cry = s.cry := rfl
@[simp] theorem setTag_jnl (a : Nat) (x : BufTag) : (setTag s a x).jnl = s.jnl := rfl
@[simp] theorem setTag_gpl (a : Nat) (x : BufTag) : (setTag s a x).gpl = s.gpl := rfl
@[simp] theorem setTag_hbm (a : Nat) (x : BufTag) : (setTag s a x).hbm = s.hbm := rfl
@[simp] theorem setTag_hkc (a : Nat) (x : BufTag) : (setTag s a x).hkc = s.hkc := rfl
@[simp] theorem setTag_far (a : Nat) (x : BufTag) : (setTag s a x).far = s.far := rfl
@[simp] theorem setTag_dbg (a : Nat) (x : BufTag) : (setTag s a x).dbg = s.dbg := rfl
@[simp] theorem setTag_tb (a : Nat) (x : BufTag) : (setTag s a x).tb = s.tb := rfl
@[simp] theorem setTag_flash (a : Nat) (x : BufTag) : (setTag s a x).flash = s.flash := rfl
@[simp] theorem setTag_pins (a : Nat) (x : BufTag) : (setTag s a x).pins = s.pins := rfl
@[simp] theorem setTag_out (a : Nat) (x : BufTag) : (setTag s a x).out = s.out := rfl

/-! A store of a port changes the ports only. -/
@[simp] theorem setPort_pending (p : Nat) (x : Port) : (setPort s p x).pending = s.pending := rfl
@[simp] theorem setPort_fresh (p : Nat) (x : Port) : (setPort s p x).fresh = s.fresh := rfl
@[simp] theorem setPort_seq (p : Nat) (x : Port) : (setPort s p x).seq = s.seq := rfl
@[simp] theorem setPort_now (p : Nat) (x : Port) : (setPort s p x).now = s.now := rfl
@[simp] theorem setPort_regs (p : Nat) (x : Port) : (setPort s p x).regs = s.regs := rfl
@[simp] theorem setPort_mem (p : Nat) (x : Port) : (setPort s p x).mem = s.mem := rfl
@[simp] theorem setPort_thr (p : Nat) (x : Port) : (setPort s p x).thr = s.thr := rfl
@[simp] theorem setPort_hlt (p : Nat) (x : Port) : (setPort s p x).hlt = s.hlt := rfl
@[simp] theorem setPort_hsp (p : Nat) (x : Port) : (setPort s p x).hsp = s.hsp := rfl
@[simp] theorem setPort_buf (p : Nat) (x : Port) : (setPort s p x).buf = s.buf := rfl
@[simp] theorem setPort_egr (p : Nat) (x : Port) : (setPort s p x).egr = s.egr := rfl
@[simp] theorem setPort_par (p : Nat) (x : Port) : (setPort s p x).par = s.par := rfl
@[simp] theorem setPort_stf (p : Nat) (x : Port) : (setPort s p x).stf = s.stf := rfl
@[simp] theorem setPort_src (p : Nat) (x : Port) : (setPort s p x).src = s.src := rfl
@[simp] theorem setPort_tbl (p : Nat) (x : Port) : (setPort s p x).tbl = s.tbl := rfl
@[simp] theorem setPort_cry (p : Nat) (x : Port) : (setPort s p x).cry = s.cry := rfl
@[simp] theorem setPort_jnl (p : Nat) (x : Port) : (setPort s p x).jnl = s.jnl := rfl
@[simp] theorem setPort_gpl (p : Nat) (x : Port) : (setPort s p x).gpl = s.gpl := rfl
@[simp] theorem setPort_hbm (p : Nat) (x : Port) : (setPort s p x).hbm = s.hbm := rfl
@[simp] theorem setPort_hkc (p : Nat) (x : Port) : (setPort s p x).hkc = s.hkc := rfl
@[simp] theorem setPort_far (p : Nat) (x : Port) : (setPort s p x).far = s.far := rfl
@[simp] theorem setPort_dbg (p : Nat) (x : Port) : (setPort s p x).dbg = s.dbg := rfl
@[simp] theorem setPort_tb (p : Nat) (x : Port) : (setPort s p x).tb = s.tb := rfl
@[simp] theorem setPort_flash (p : Nat) (x : Port) : (setPort s p x).flash = s.flash := rfl
@[simp] theorem setPort_pins (p : Nat) (x : Port) : (setPort s p x).pins = s.pins := rfl
@[simp] theorem setPort_out (p : Nat) (x : Port) : (setPort s p x).out = s.out := rfl

/-! A store of a Hobble unit changes the ports only. -/
@[simp] theorem setHob_pending (u : Nat) (x : HobUnit) : (setHob s u x).pending = s.pending := rfl
@[simp] theorem setHob_fresh (u : Nat) (x : HobUnit) : (setHob s u x).fresh = s.fresh := rfl
@[simp] theorem setHob_seq (u : Nat) (x : HobUnit) : (setHob s u x).seq = s.seq := rfl
@[simp] theorem setHob_now (u : Nat) (x : HobUnit) : (setHob s u x).now = s.now := rfl
@[simp] theorem setHob_regs (u : Nat) (x : HobUnit) : (setHob s u x).regs = s.regs := rfl
@[simp] theorem setHob_mem (u : Nat) (x : HobUnit) : (setHob s u x).mem = s.mem := rfl
@[simp] theorem setHob_thr (u : Nat) (x : HobUnit) : (setHob s u x).thr = s.thr := rfl
@[simp] theorem setHob_hlt (u : Nat) (x : HobUnit) : (setHob s u x).hlt = s.hlt := rfl
@[simp] theorem setHob_hsp (u : Nat) (x : HobUnit) : (setHob s u x).hsp = s.hsp := rfl
@[simp] theorem setHob_buf (u : Nat) (x : HobUnit) : (setHob s u x).buf = s.buf := rfl
@[simp] theorem setHob_egr (u : Nat) (x : HobUnit) : (setHob s u x).egr = s.egr := rfl
@[simp] theorem setHob_par (u : Nat) (x : HobUnit) : (setHob s u x).par = s.par := rfl
@[simp] theorem setHob_stf (u : Nat) (x : HobUnit) : (setHob s u x).stf = s.stf := rfl
@[simp] theorem setHob_src (u : Nat) (x : HobUnit) : (setHob s u x).src = s.src := rfl
@[simp] theorem setHob_tbl (u : Nat) (x : HobUnit) : (setHob s u x).tbl = s.tbl := rfl
@[simp] theorem setHob_cry (u : Nat) (x : HobUnit) : (setHob s u x).cry = s.cry := rfl
@[simp] theorem setHob_jnl (u : Nat) (x : HobUnit) : (setHob s u x).jnl = s.jnl := rfl
@[simp] theorem setHob_gpl (u : Nat) (x : HobUnit) : (setHob s u x).gpl = s.gpl := rfl
@[simp] theorem setHob_hbm (u : Nat) (x : HobUnit) : (setHob s u x).hbm = s.hbm := rfl
@[simp] theorem setHob_hkc (u : Nat) (x : HobUnit) : (setHob s u x).hkc = s.hkc := rfl
@[simp] theorem setHob_far (u : Nat) (x : HobUnit) : (setHob s u x).far = s.far := rfl
@[simp] theorem setHob_dbg (u : Nat) (x : HobUnit) : (setHob s u x).dbg = s.dbg := rfl
@[simp] theorem setHob_tb (u : Nat) (x : HobUnit) : (setHob s u x).tb = s.tb := rfl
@[simp] theorem setHob_flash (u : Nat) (x : HobUnit) : (setHob s u x).flash = s.flash := rfl
@[simp] theorem setHob_pins (u : Nat) (x : HobUnit) : (setHob s u x).pins = s.pins := rfl
@[simp] theorem setHob_out (u : Nat) (x : HobUnit) : (setHob s u x).out = s.out := rfl

/-! A store of a queue group changes Egress only. -/
@[simp] theorem setGroup_pending (g : Nat) (x : Dwrr) : (setGroup s g x).pending = s.pending := rfl
@[simp] theorem setGroup_fresh (g : Nat) (x : Dwrr) : (setGroup s g x).fresh = s.fresh := rfl
@[simp] theorem setGroup_seq (g : Nat) (x : Dwrr) : (setGroup s g x).seq = s.seq := rfl
@[simp] theorem setGroup_now (g : Nat) (x : Dwrr) : (setGroup s g x).now = s.now := rfl
@[simp] theorem setGroup_regs (g : Nat) (x : Dwrr) : (setGroup s g x).regs = s.regs := rfl
@[simp] theorem setGroup_mem (g : Nat) (x : Dwrr) : (setGroup s g x).mem = s.mem := rfl
@[simp] theorem setGroup_thr (g : Nat) (x : Dwrr) : (setGroup s g x).thr = s.thr := rfl
@[simp] theorem setGroup_hlt (g : Nat) (x : Dwrr) : (setGroup s g x).hlt = s.hlt := rfl
@[simp] theorem setGroup_hsp (g : Nat) (x : Dwrr) : (setGroup s g x).hsp = s.hsp := rfl
@[simp] theorem setGroup_buf (g : Nat) (x : Dwrr) : (setGroup s g x).buf = s.buf := rfl
@[simp] theorem setGroup_prt (g : Nat) (x : Dwrr) : (setGroup s g x).prt = s.prt := rfl
@[simp] theorem setGroup_par (g : Nat) (x : Dwrr) : (setGroup s g x).par = s.par := rfl
@[simp] theorem setGroup_stf (g : Nat) (x : Dwrr) : (setGroup s g x).stf = s.stf := rfl
@[simp] theorem setGroup_src (g : Nat) (x : Dwrr) : (setGroup s g x).src = s.src := rfl
@[simp] theorem setGroup_tbl (g : Nat) (x : Dwrr) : (setGroup s g x).tbl = s.tbl := rfl
@[simp] theorem setGroup_cry (g : Nat) (x : Dwrr) : (setGroup s g x).cry = s.cry := rfl
@[simp] theorem setGroup_jnl (g : Nat) (x : Dwrr) : (setGroup s g x).jnl = s.jnl := rfl
@[simp] theorem setGroup_gpl (g : Nat) (x : Dwrr) : (setGroup s g x).gpl = s.gpl := rfl
@[simp] theorem setGroup_hbm (g : Nat) (x : Dwrr) : (setGroup s g x).hbm = s.hbm := rfl
@[simp] theorem setGroup_hkc (g : Nat) (x : Dwrr) : (setGroup s g x).hkc = s.hkc := rfl
@[simp] theorem setGroup_far (g : Nat) (x : Dwrr) : (setGroup s g x).far = s.far := rfl
@[simp] theorem setGroup_dbg (g : Nat) (x : Dwrr) : (setGroup s g x).dbg = s.dbg := rfl
@[simp] theorem setGroup_tb (g : Nat) (x : Dwrr) : (setGroup s g x).tb = s.tb := rfl
@[simp] theorem setGroup_flash (g : Nat) (x : Dwrr) : (setGroup s g x).flash = s.flash := rfl
@[simp] theorem setGroup_pins (g : Nat) (x : Dwrr) : (setGroup s g x).pins = s.pins := rfl
@[simp] theorem setGroup_out (g : Nat) (x : Dwrr) : (setGroup s g x).out = s.out := rfl

/-! A store of a lane changes the parser only. -/
@[simp] theorem setLane_pending (p : Nat) (x : List LaneEnt) : (setLane s p x).pending = s.pending := rfl
@[simp] theorem setLane_fresh (p : Nat) (x : List LaneEnt) : (setLane s p x).fresh = s.fresh := rfl
@[simp] theorem setLane_seq (p : Nat) (x : List LaneEnt) : (setLane s p x).seq = s.seq := rfl
@[simp] theorem setLane_now (p : Nat) (x : List LaneEnt) : (setLane s p x).now = s.now := rfl
@[simp] theorem setLane_regs (p : Nat) (x : List LaneEnt) : (setLane s p x).regs = s.regs := rfl
@[simp] theorem setLane_mem (p : Nat) (x : List LaneEnt) : (setLane s p x).mem = s.mem := rfl
@[simp] theorem setLane_thr (p : Nat) (x : List LaneEnt) : (setLane s p x).thr = s.thr := rfl
@[simp] theorem setLane_hlt (p : Nat) (x : List LaneEnt) : (setLane s p x).hlt = s.hlt := rfl
@[simp] theorem setLane_hsp (p : Nat) (x : List LaneEnt) : (setLane s p x).hsp = s.hsp := rfl
@[simp] theorem setLane_buf (p : Nat) (x : List LaneEnt) : (setLane s p x).buf = s.buf := rfl
@[simp] theorem setLane_egr (p : Nat) (x : List LaneEnt) : (setLane s p x).egr = s.egr := rfl
@[simp] theorem setLane_prt (p : Nat) (x : List LaneEnt) : (setLane s p x).prt = s.prt := rfl
@[simp] theorem setLane_stf (p : Nat) (x : List LaneEnt) : (setLane s p x).stf = s.stf := rfl
@[simp] theorem setLane_src (p : Nat) (x : List LaneEnt) : (setLane s p x).src = s.src := rfl
@[simp] theorem setLane_tbl (p : Nat) (x : List LaneEnt) : (setLane s p x).tbl = s.tbl := rfl
@[simp] theorem setLane_cry (p : Nat) (x : List LaneEnt) : (setLane s p x).cry = s.cry := rfl
@[simp] theorem setLane_jnl (p : Nat) (x : List LaneEnt) : (setLane s p x).jnl = s.jnl := rfl
@[simp] theorem setLane_gpl (p : Nat) (x : List LaneEnt) : (setLane s p x).gpl = s.gpl := rfl
@[simp] theorem setLane_hbm (p : Nat) (x : List LaneEnt) : (setLane s p x).hbm = s.hbm := rfl
@[simp] theorem setLane_hkc (p : Nat) (x : List LaneEnt) : (setLane s p x).hkc = s.hkc := rfl
@[simp] theorem setLane_far (p : Nat) (x : List LaneEnt) : (setLane s p x).far = s.far := rfl
@[simp] theorem setLane_dbg (p : Nat) (x : List LaneEnt) : (setLane s p x).dbg = s.dbg := rfl
@[simp] theorem setLane_tb (p : Nat) (x : List LaneEnt) : (setLane s p x).tb = s.tb := rfl
@[simp] theorem setLane_flash (p : Nat) (x : List LaneEnt) : (setLane s p x).flash = s.flash := rfl
@[simp] theorem setLane_pins (p : Nat) (x : List LaneEnt) : (setLane s p x).pins = s.pins := rfl
@[simp] theorem setLane_out (p : Nat) (x : List LaneEnt) : (setLane s p x).out = s.out := rfl

/-! A store of a slow path bucket changes the parser only. -/
@[simp] theorem setBucket_pending (p : Nat) (x : Bucket) : (setBucket s p x).pending = s.pending := rfl
@[simp] theorem setBucket_fresh (p : Nat) (x : Bucket) : (setBucket s p x).fresh = s.fresh := rfl
@[simp] theorem setBucket_seq (p : Nat) (x : Bucket) : (setBucket s p x).seq = s.seq := rfl
@[simp] theorem setBucket_now (p : Nat) (x : Bucket) : (setBucket s p x).now = s.now := rfl
@[simp] theorem setBucket_regs (p : Nat) (x : Bucket) : (setBucket s p x).regs = s.regs := rfl
@[simp] theorem setBucket_mem (p : Nat) (x : Bucket) : (setBucket s p x).mem = s.mem := rfl
@[simp] theorem setBucket_thr (p : Nat) (x : Bucket) : (setBucket s p x).thr = s.thr := rfl
@[simp] theorem setBucket_hlt (p : Nat) (x : Bucket) : (setBucket s p x).hlt = s.hlt := rfl
@[simp] theorem setBucket_hsp (p : Nat) (x : Bucket) : (setBucket s p x).hsp = s.hsp := rfl
@[simp] theorem setBucket_buf (p : Nat) (x : Bucket) : (setBucket s p x).buf = s.buf := rfl
@[simp] theorem setBucket_egr (p : Nat) (x : Bucket) : (setBucket s p x).egr = s.egr := rfl
@[simp] theorem setBucket_prt (p : Nat) (x : Bucket) : (setBucket s p x).prt = s.prt := rfl
@[simp] theorem setBucket_stf (p : Nat) (x : Bucket) : (setBucket s p x).stf = s.stf := rfl
@[simp] theorem setBucket_src (p : Nat) (x : Bucket) : (setBucket s p x).src = s.src := rfl
@[simp] theorem setBucket_tbl (p : Nat) (x : Bucket) : (setBucket s p x).tbl = s.tbl := rfl
@[simp] theorem setBucket_cry (p : Nat) (x : Bucket) : (setBucket s p x).cry = s.cry := rfl
@[simp] theorem setBucket_jnl (p : Nat) (x : Bucket) : (setBucket s p x).jnl = s.jnl := rfl
@[simp] theorem setBucket_gpl (p : Nat) (x : Bucket) : (setBucket s p x).gpl = s.gpl := rfl
@[simp] theorem setBucket_hbm (p : Nat) (x : Bucket) : (setBucket s p x).hbm = s.hbm := rfl
@[simp] theorem setBucket_hkc (p : Nat) (x : Bucket) : (setBucket s p x).hkc = s.hkc := rfl
@[simp] theorem setBucket_far (p : Nat) (x : Bucket) : (setBucket s p x).far = s.far := rfl
@[simp] theorem setBucket_dbg (p : Nat) (x : Bucket) : (setBucket s p x).dbg = s.dbg := rfl
@[simp] theorem setBucket_tb (p : Nat) (x : Bucket) : (setBucket s p x).tb = s.tb := rfl
@[simp] theorem setBucket_flash (p : Nat) (x : Bucket) : (setBucket s p x).flash = s.flash := rfl
@[simp] theorem setBucket_pins (p : Nat) (x : Bucket) : (setBucket s p x).pins = s.pins := rfl
@[simp] theorem setBucket_out (p : Nat) (x : Bucket) : (setBucket s p x).out = s.out := rfl

/-! A store of a connection changes the framer only. -/
@[simp] theorem setConn_pending (i : Nat) (x : Conn) : (setConn s i x).pending = s.pending := rfl
@[simp] theorem setConn_fresh (i : Nat) (x : Conn) : (setConn s i x).fresh = s.fresh := rfl
@[simp] theorem setConn_seq (i : Nat) (x : Conn) : (setConn s i x).seq = s.seq := rfl
@[simp] theorem setConn_now (i : Nat) (x : Conn) : (setConn s i x).now = s.now := rfl
@[simp] theorem setConn_regs (i : Nat) (x : Conn) : (setConn s i x).regs = s.regs := rfl
@[simp] theorem setConn_mem (i : Nat) (x : Conn) : (setConn s i x).mem = s.mem := rfl
@[simp] theorem setConn_thr (i : Nat) (x : Conn) : (setConn s i x).thr = s.thr := rfl
@[simp] theorem setConn_hlt (i : Nat) (x : Conn) : (setConn s i x).hlt = s.hlt := rfl
@[simp] theorem setConn_hsp (i : Nat) (x : Conn) : (setConn s i x).hsp = s.hsp := rfl
@[simp] theorem setConn_buf (i : Nat) (x : Conn) : (setConn s i x).buf = s.buf := rfl
@[simp] theorem setConn_egr (i : Nat) (x : Conn) : (setConn s i x).egr = s.egr := rfl
@[simp] theorem setConn_prt (i : Nat) (x : Conn) : (setConn s i x).prt = s.prt := rfl
@[simp] theorem setConn_par (i : Nat) (x : Conn) : (setConn s i x).par = s.par := rfl
@[simp] theorem setConn_src (i : Nat) (x : Conn) : (setConn s i x).src = s.src := rfl
@[simp] theorem setConn_tbl (i : Nat) (x : Conn) : (setConn s i x).tbl = s.tbl := rfl
@[simp] theorem setConn_cry (i : Nat) (x : Conn) : (setConn s i x).cry = s.cry := rfl
@[simp] theorem setConn_jnl (i : Nat) (x : Conn) : (setConn s i x).jnl = s.jnl := rfl
@[simp] theorem setConn_gpl (i : Nat) (x : Conn) : (setConn s i x).gpl = s.gpl := rfl
@[simp] theorem setConn_hbm (i : Nat) (x : Conn) : (setConn s i x).hbm = s.hbm := rfl
@[simp] theorem setConn_hkc (i : Nat) (x : Conn) : (setConn s i x).hkc = s.hkc := rfl
@[simp] theorem setConn_far (i : Nat) (x : Conn) : (setConn s i x).far = s.far := rfl
@[simp] theorem setConn_dbg (i : Nat) (x : Conn) : (setConn s i x).dbg = s.dbg := rfl
@[simp] theorem setConn_tb (i : Nat) (x : Conn) : (setConn s i x).tb = s.tb := rfl
@[simp] theorem setConn_flash (i : Nat) (x : Conn) : (setConn s i x).flash = s.flash := rfl
@[simp] theorem setConn_pins (i : Nat) (x : Conn) : (setConn s i x).pins = s.pins := rfl
@[simp] theorem setConn_out (i : Nat) (x : Conn) : (setConn s i x).out = s.out := rfl

/-! A store of a search bank changes the search unit only. -/
@[simp] theorem setBankEnts_pending (b : Nat) (x : Map SEntry) : (setBankEnts s b x).pending = s.pending := rfl
@[simp] theorem setBankEnts_fresh (b : Nat) (x : Map SEntry) : (setBankEnts s b x).fresh = s.fresh := rfl
@[simp] theorem setBankEnts_seq (b : Nat) (x : Map SEntry) : (setBankEnts s b x).seq = s.seq := rfl
@[simp] theorem setBankEnts_now (b : Nat) (x : Map SEntry) : (setBankEnts s b x).now = s.now := rfl
@[simp] theorem setBankEnts_regs (b : Nat) (x : Map SEntry) : (setBankEnts s b x).regs = s.regs := rfl
@[simp] theorem setBankEnts_mem (b : Nat) (x : Map SEntry) : (setBankEnts s b x).mem = s.mem := rfl
@[simp] theorem setBankEnts_thr (b : Nat) (x : Map SEntry) : (setBankEnts s b x).thr = s.thr := rfl
@[simp] theorem setBankEnts_hlt (b : Nat) (x : Map SEntry) : (setBankEnts s b x).hlt = s.hlt := rfl
@[simp] theorem setBankEnts_hsp (b : Nat) (x : Map SEntry) : (setBankEnts s b x).hsp = s.hsp := rfl
@[simp] theorem setBankEnts_buf (b : Nat) (x : Map SEntry) : (setBankEnts s b x).buf = s.buf := rfl
@[simp] theorem setBankEnts_egr (b : Nat) (x : Map SEntry) : (setBankEnts s b x).egr = s.egr := rfl
@[simp] theorem setBankEnts_prt (b : Nat) (x : Map SEntry) : (setBankEnts s b x).prt = s.prt := rfl
@[simp] theorem setBankEnts_par (b : Nat) (x : Map SEntry) : (setBankEnts s b x).par = s.par := rfl
@[simp] theorem setBankEnts_stf (b : Nat) (x : Map SEntry) : (setBankEnts s b x).stf = s.stf := rfl
@[simp] theorem setBankEnts_tbl (b : Nat) (x : Map SEntry) : (setBankEnts s b x).tbl = s.tbl := rfl
@[simp] theorem setBankEnts_cry (b : Nat) (x : Map SEntry) : (setBankEnts s b x).cry = s.cry := rfl
@[simp] theorem setBankEnts_jnl (b : Nat) (x : Map SEntry) : (setBankEnts s b x).jnl = s.jnl := rfl
@[simp] theorem setBankEnts_gpl (b : Nat) (x : Map SEntry) : (setBankEnts s b x).gpl = s.gpl := rfl
@[simp] theorem setBankEnts_hbm (b : Nat) (x : Map SEntry) : (setBankEnts s b x).hbm = s.hbm := rfl
@[simp] theorem setBankEnts_hkc (b : Nat) (x : Map SEntry) : (setBankEnts s b x).hkc = s.hkc := rfl
@[simp] theorem setBankEnts_far (b : Nat) (x : Map SEntry) : (setBankEnts s b x).far = s.far := rfl
@[simp] theorem setBankEnts_dbg (b : Nat) (x : Map SEntry) : (setBankEnts s b x).dbg = s.dbg := rfl
@[simp] theorem setBankEnts_tb (b : Nat) (x : Map SEntry) : (setBankEnts s b x).tb = s.tb := rfl
@[simp] theorem setBankEnts_flash (b : Nat) (x : Map SEntry) : (setBankEnts s b x).flash = s.flash := rfl
@[simp] theorem setBankEnts_pins (b : Nat) (x : Map SEntry) : (setBankEnts s b x).pins = s.pins := rfl
@[simp] theorem setBankEnts_out (b : Nat) (x : Map SEntry) : (setBankEnts s b x).out = s.out := rfl

/-! A store of the key store changes the crypto unit only. -/
@[simp] theorem setKeys_pending (x : Map KeyEnt) : (setKeys s x).pending = s.pending := rfl
@[simp] theorem setKeys_fresh (x : Map KeyEnt) : (setKeys s x).fresh = s.fresh := rfl
@[simp] theorem setKeys_seq (x : Map KeyEnt) : (setKeys s x).seq = s.seq := rfl
@[simp] theorem setKeys_now (x : Map KeyEnt) : (setKeys s x).now = s.now := rfl
@[simp] theorem setKeys_regs (x : Map KeyEnt) : (setKeys s x).regs = s.regs := rfl
@[simp] theorem setKeys_mem (x : Map KeyEnt) : (setKeys s x).mem = s.mem := rfl
@[simp] theorem setKeys_thr (x : Map KeyEnt) : (setKeys s x).thr = s.thr := rfl
@[simp] theorem setKeys_hlt (x : Map KeyEnt) : (setKeys s x).hlt = s.hlt := rfl
@[simp] theorem setKeys_hsp (x : Map KeyEnt) : (setKeys s x).hsp = s.hsp := rfl
@[simp] theorem setKeys_buf (x : Map KeyEnt) : (setKeys s x).buf = s.buf := rfl
@[simp] theorem setKeys_egr (x : Map KeyEnt) : (setKeys s x).egr = s.egr := rfl
@[simp] theorem setKeys_prt (x : Map KeyEnt) : (setKeys s x).prt = s.prt := rfl
@[simp] theorem setKeys_par (x : Map KeyEnt) : (setKeys s x).par = s.par := rfl
@[simp] theorem setKeys_stf (x : Map KeyEnt) : (setKeys s x).stf = s.stf := rfl
@[simp] theorem setKeys_src (x : Map KeyEnt) : (setKeys s x).src = s.src := rfl
@[simp] theorem setKeys_tbl (x : Map KeyEnt) : (setKeys s x).tbl = s.tbl := rfl
@[simp] theorem setKeys_jnl (x : Map KeyEnt) : (setKeys s x).jnl = s.jnl := rfl
@[simp] theorem setKeys_gpl (x : Map KeyEnt) : (setKeys s x).gpl = s.gpl := rfl
@[simp] theorem setKeys_hbm (x : Map KeyEnt) : (setKeys s x).hbm = s.hbm := rfl
@[simp] theorem setKeys_hkc (x : Map KeyEnt) : (setKeys s x).hkc = s.hkc := rfl
@[simp] theorem setKeys_far (x : Map KeyEnt) : (setKeys s x).far = s.far := rfl
@[simp] theorem setKeys_dbg (x : Map KeyEnt) : (setKeys s x).dbg = s.dbg := rfl
@[simp] theorem setKeys_tb (x : Map KeyEnt) : (setKeys s x).tb = s.tb := rfl
@[simp] theorem setKeys_flash (x : Map KeyEnt) : (setKeys s x).flash = s.flash := rfl
@[simp] theorem setKeys_pins (x : Map KeyEnt) : (setKeys s x).pins = s.pins := rfl
@[simp] theorem setKeys_out (x : Map KeyEnt) : (setKeys s x).out = s.out := rfl

/-! A store of a ring changes Gopol only. -/
@[simp] theorem setRing_pending (r : Nat) (x : Ring) : (setRing s r x).pending = s.pending := rfl
@[simp] theorem setRing_fresh (r : Nat) (x : Ring) : (setRing s r x).fresh = s.fresh := rfl
@[simp] theorem setRing_seq (r : Nat) (x : Ring) : (setRing s r x).seq = s.seq := rfl
@[simp] theorem setRing_now (r : Nat) (x : Ring) : (setRing s r x).now = s.now := rfl
@[simp] theorem setRing_regs (r : Nat) (x : Ring) : (setRing s r x).regs = s.regs := rfl
@[simp] theorem setRing_mem (r : Nat) (x : Ring) : (setRing s r x).mem = s.mem := rfl
@[simp] theorem setRing_thr (r : Nat) (x : Ring) : (setRing s r x).thr = s.thr := rfl
@[simp] theorem setRing_hlt (r : Nat) (x : Ring) : (setRing s r x).hlt = s.hlt := rfl
@[simp] theorem setRing_hsp (r : Nat) (x : Ring) : (setRing s r x).hsp = s.hsp := rfl
@[simp] theorem setRing_buf (r : Nat) (x : Ring) : (setRing s r x).buf = s.buf := rfl
@[simp] theorem setRing_egr (r : Nat) (x : Ring) : (setRing s r x).egr = s.egr := rfl
@[simp] theorem setRing_prt (r : Nat) (x : Ring) : (setRing s r x).prt = s.prt := rfl
@[simp] theorem setRing_par (r : Nat) (x : Ring) : (setRing s r x).par = s.par := rfl
@[simp] theorem setRing_stf (r : Nat) (x : Ring) : (setRing s r x).stf = s.stf := rfl
@[simp] theorem setRing_src (r : Nat) (x : Ring) : (setRing s r x).src = s.src := rfl
@[simp] theorem setRing_tbl (r : Nat) (x : Ring) : (setRing s r x).tbl = s.tbl := rfl
@[simp] theorem setRing_cry (r : Nat) (x : Ring) : (setRing s r x).cry = s.cry := rfl
@[simp] theorem setRing_jnl (r : Nat) (x : Ring) : (setRing s r x).jnl = s.jnl := rfl
@[simp] theorem setRing_hbm (r : Nat) (x : Ring) : (setRing s r x).hbm = s.hbm := rfl
@[simp] theorem setRing_hkc (r : Nat) (x : Ring) : (setRing s r x).hkc = s.hkc := rfl
@[simp] theorem setRing_far (r : Nat) (x : Ring) : (setRing s r x).far = s.far := rfl
@[simp] theorem setRing_dbg (r : Nat) (x : Ring) : (setRing s r x).dbg = s.dbg := rfl
@[simp] theorem setRing_tb (r : Nat) (x : Ring) : (setRing s r x).tb = s.tb := rfl
@[simp] theorem setRing_flash (r : Nat) (x : Ring) : (setRing s r x).flash = s.flash := rfl
@[simp] theorem setRing_pins (r : Nat) (x : Ring) : (setRing s r x).pins = s.pins := rfl
@[simp] theorem setRing_out (r : Nat) (x : Ring) : (setRing s r x).out = s.out := rfl

/-! A store of a partition's Bolt state changes the housekeeping core only. -/
@[simp] theorem setPbolt_pending (p : Nat) (x : PBolt) : (setPbolt s p x).pending = s.pending := rfl
@[simp] theorem setPbolt_fresh (p : Nat) (x : PBolt) : (setPbolt s p x).fresh = s.fresh := rfl
@[simp] theorem setPbolt_seq (p : Nat) (x : PBolt) : (setPbolt s p x).seq = s.seq := rfl
@[simp] theorem setPbolt_now (p : Nat) (x : PBolt) : (setPbolt s p x).now = s.now := rfl
@[simp] theorem setPbolt_regs (p : Nat) (x : PBolt) : (setPbolt s p x).regs = s.regs := rfl
@[simp] theorem setPbolt_mem (p : Nat) (x : PBolt) : (setPbolt s p x).mem = s.mem := rfl
@[simp] theorem setPbolt_thr (p : Nat) (x : PBolt) : (setPbolt s p x).thr = s.thr := rfl
@[simp] theorem setPbolt_hlt (p : Nat) (x : PBolt) : (setPbolt s p x).hlt = s.hlt := rfl
@[simp] theorem setPbolt_hsp (p : Nat) (x : PBolt) : (setPbolt s p x).hsp = s.hsp := rfl
@[simp] theorem setPbolt_buf (p : Nat) (x : PBolt) : (setPbolt s p x).buf = s.buf := rfl
@[simp] theorem setPbolt_egr (p : Nat) (x : PBolt) : (setPbolt s p x).egr = s.egr := rfl
@[simp] theorem setPbolt_prt (p : Nat) (x : PBolt) : (setPbolt s p x).prt = s.prt := rfl
@[simp] theorem setPbolt_par (p : Nat) (x : PBolt) : (setPbolt s p x).par = s.par := rfl
@[simp] theorem setPbolt_stf (p : Nat) (x : PBolt) : (setPbolt s p x).stf = s.stf := rfl
@[simp] theorem setPbolt_src (p : Nat) (x : PBolt) : (setPbolt s p x).src = s.src := rfl
@[simp] theorem setPbolt_tbl (p : Nat) (x : PBolt) : (setPbolt s p x).tbl = s.tbl := rfl
@[simp] theorem setPbolt_cry (p : Nat) (x : PBolt) : (setPbolt s p x).cry = s.cry := rfl
@[simp] theorem setPbolt_jnl (p : Nat) (x : PBolt) : (setPbolt s p x).jnl = s.jnl := rfl
@[simp] theorem setPbolt_gpl (p : Nat) (x : PBolt) : (setPbolt s p x).gpl = s.gpl := rfl
@[simp] theorem setPbolt_hbm (p : Nat) (x : PBolt) : (setPbolt s p x).hbm = s.hbm := rfl
@[simp] theorem setPbolt_far (p : Nat) (x : PBolt) : (setPbolt s p x).far = s.far := rfl
@[simp] theorem setPbolt_dbg (p : Nat) (x : PBolt) : (setPbolt s p x).dbg = s.dbg := rfl
@[simp] theorem setPbolt_tb (p : Nat) (x : PBolt) : (setPbolt s p x).tb = s.tb := rfl
@[simp] theorem setPbolt_flash (p : Nat) (x : PBolt) : (setPbolt s p x).flash = s.flash := rfl
@[simp] theorem setPbolt_pins (p : Nat) (x : PBolt) : (setPbolt s p x).pins = s.pins := rfl
@[simp] theorem setPbolt_out (p : Nat) (x : PBolt) : (setPbolt s p x).out = s.out := rfl

/-! A store of a spare changes Farrier only. -/
@[simp] theorem setSpare_pending (k : Nat) (x : Option Nat) : (setSpare s k x).pending = s.pending := rfl
@[simp] theorem setSpare_fresh (k : Nat) (x : Option Nat) : (setSpare s k x).fresh = s.fresh := rfl
@[simp] theorem setSpare_seq (k : Nat) (x : Option Nat) : (setSpare s k x).seq = s.seq := rfl
@[simp] theorem setSpare_now (k : Nat) (x : Option Nat) : (setSpare s k x).now = s.now := rfl
@[simp] theorem setSpare_regs (k : Nat) (x : Option Nat) : (setSpare s k x).regs = s.regs := rfl
@[simp] theorem setSpare_mem (k : Nat) (x : Option Nat) : (setSpare s k x).mem = s.mem := rfl
@[simp] theorem setSpare_thr (k : Nat) (x : Option Nat) : (setSpare s k x).thr = s.thr := rfl
@[simp] theorem setSpare_hlt (k : Nat) (x : Option Nat) : (setSpare s k x).hlt = s.hlt := rfl
@[simp] theorem setSpare_hsp (k : Nat) (x : Option Nat) : (setSpare s k x).hsp = s.hsp := rfl
@[simp] theorem setSpare_buf (k : Nat) (x : Option Nat) : (setSpare s k x).buf = s.buf := rfl
@[simp] theorem setSpare_egr (k : Nat) (x : Option Nat) : (setSpare s k x).egr = s.egr := rfl
@[simp] theorem setSpare_prt (k : Nat) (x : Option Nat) : (setSpare s k x).prt = s.prt := rfl
@[simp] theorem setSpare_par (k : Nat) (x : Option Nat) : (setSpare s k x).par = s.par := rfl
@[simp] theorem setSpare_stf (k : Nat) (x : Option Nat) : (setSpare s k x).stf = s.stf := rfl
@[simp] theorem setSpare_src (k : Nat) (x : Option Nat) : (setSpare s k x).src = s.src := rfl
@[simp] theorem setSpare_tbl (k : Nat) (x : Option Nat) : (setSpare s k x).tbl = s.tbl := rfl
@[simp] theorem setSpare_cry (k : Nat) (x : Option Nat) : (setSpare s k x).cry = s.cry := rfl
@[simp] theorem setSpare_jnl (k : Nat) (x : Option Nat) : (setSpare s k x).jnl = s.jnl := rfl
@[simp] theorem setSpare_gpl (k : Nat) (x : Option Nat) : (setSpare s k x).gpl = s.gpl := rfl
@[simp] theorem setSpare_hbm (k : Nat) (x : Option Nat) : (setSpare s k x).hbm = s.hbm := rfl
@[simp] theorem setSpare_hkc (k : Nat) (x : Option Nat) : (setSpare s k x).hkc = s.hkc := rfl
@[simp] theorem setSpare_dbg (k : Nat) (x : Option Nat) : (setSpare s k x).dbg = s.dbg := rfl
@[simp] theorem setSpare_tb (k : Nat) (x : Option Nat) : (setSpare s k x).tb = s.tb := rfl
@[simp] theorem setSpare_flash (k : Nat) (x : Option Nat) : (setSpare s k x).flash = s.flash := rfl
@[simp] theorem setSpare_pins (k : Nat) (x : Option Nat) : (setSpare s k x).pins = s.pins := rfl
@[simp] theorem setSpare_out (k : Nat) (x : Option Nat) : (setSpare s k x).out = s.out := rfl

/-! A store of a monitor changes the debug unit only. -/
@[simp] theorem setGait_pending (m : Nat) (x : Monitor) : (setGait s m x).pending = s.pending := rfl
@[simp] theorem setGait_fresh (m : Nat) (x : Monitor) : (setGait s m x).fresh = s.fresh := rfl
@[simp] theorem setGait_seq (m : Nat) (x : Monitor) : (setGait s m x).seq = s.seq := rfl
@[simp] theorem setGait_now (m : Nat) (x : Monitor) : (setGait s m x).now = s.now := rfl
@[simp] theorem setGait_regs (m : Nat) (x : Monitor) : (setGait s m x).regs = s.regs := rfl
@[simp] theorem setGait_mem (m : Nat) (x : Monitor) : (setGait s m x).mem = s.mem := rfl
@[simp] theorem setGait_thr (m : Nat) (x : Monitor) : (setGait s m x).thr = s.thr := rfl
@[simp] theorem setGait_hlt (m : Nat) (x : Monitor) : (setGait s m x).hlt = s.hlt := rfl
@[simp] theorem setGait_hsp (m : Nat) (x : Monitor) : (setGait s m x).hsp = s.hsp := rfl
@[simp] theorem setGait_buf (m : Nat) (x : Monitor) : (setGait s m x).buf = s.buf := rfl
@[simp] theorem setGait_egr (m : Nat) (x : Monitor) : (setGait s m x).egr = s.egr := rfl
@[simp] theorem setGait_prt (m : Nat) (x : Monitor) : (setGait s m x).prt = s.prt := rfl
@[simp] theorem setGait_par (m : Nat) (x : Monitor) : (setGait s m x).par = s.par := rfl
@[simp] theorem setGait_stf (m : Nat) (x : Monitor) : (setGait s m x).stf = s.stf := rfl
@[simp] theorem setGait_src (m : Nat) (x : Monitor) : (setGait s m x).src = s.src := rfl
@[simp] theorem setGait_tbl (m : Nat) (x : Monitor) : (setGait s m x).tbl = s.tbl := rfl
@[simp] theorem setGait_cry (m : Nat) (x : Monitor) : (setGait s m x).cry = s.cry := rfl
@[simp] theorem setGait_jnl (m : Nat) (x : Monitor) : (setGait s m x).jnl = s.jnl := rfl
@[simp] theorem setGait_gpl (m : Nat) (x : Monitor) : (setGait s m x).gpl = s.gpl := rfl
@[simp] theorem setGait_hbm (m : Nat) (x : Monitor) : (setGait s m x).hbm = s.hbm := rfl
@[simp] theorem setGait_hkc (m : Nat) (x : Monitor) : (setGait s m x).hkc = s.hkc := rfl
@[simp] theorem setGait_far (m : Nat) (x : Monitor) : (setGait s m x).far = s.far := rfl
@[simp] theorem setGait_tb (m : Nat) (x : Monitor) : (setGait s m x).tb = s.tb := rfl
@[simp] theorem setGait_flash (m : Nat) (x : Monitor) : (setGait s m x).flash = s.flash := rfl
@[simp] theorem setGait_pins (m : Nat) (x : Monitor) : (setGait s m x).pins = s.pins := rfl
@[simp] theorem setGait_out (m : Nat) (x : Monitor) : (setGait s m x).out = s.out := rfl

/-! What is read back: the value stored at the key it was stored at, and every other key as before. -/
@[simp] theorem bufTag_setTag (i k : Nat) (x : BufTag) : bufTag (setTag s i x) k = if k = i then x else bufTag s k := mget_mset _ _ _ _ _
@[simp] theorem portSt_setPort (i k : Nat) (x : Port) : portSt (setPort s i x) k = if k = i then x else portSt s k := mget_mset _ _ _ _ _
@[simp] theorem hobUnit_setHob (i k : Nat) (x : HobUnit) : hobUnit (setHob s i x) k = if k = i then x else hobUnit s k := mget_mset _ _ _ _ _
@[simp] theorem groupSt_setGroup (i k : Nat) (x : Dwrr) : groupSt (setGroup s i x) k = if k = i then x else groupSt s k := mget_mset _ _ _ _ _
@[simp] theorem conn_setConn (i k : Nat) (x : Conn) : conn (setConn s i x) k = if k = i then x else conn s k := mget_mset _ _ _ _ _
@[simp] theorem ringSt_setRing (i k : Nat) (x : Ring) : ringSt (setRing s i x) k = if k = i then x else ringSt s k := mget_mset _ _ _ _ _
@[simp] theorem pboltSt_setPbolt (i k : Nat) (x : PBolt) : pboltSt (setPbolt s i x) k = if k = i then x else pboltSt s k := mget_mset _ _ _ _ _
@[simp] theorem gaitSt_setGait (i k : Nat) (x : Monitor) : gaitSt (setGait s i x) k = if k = i then x else gaitSt s k := mget_mset _ _ _ _ _
@[simp] theorem ticket_setTicket (i k : Nat) (x : Ticket) : ticket (setTicket s i x) k = if k = i then x else ticket s k := mget_mset _ _ _ _ _
@[simp] theorem lock_setLock (i k : Nat) (x : Lock) : lock (setLock s i x) k = if k = i then x else lock s k := mget_mset _ _ _ _ _
@[simp] theorem chSlot_setChSlot (i k : Nat) (x : ChSlot) : chSlot (setChSlot s i x) k = if k = i then x else chSlot s k := mget_mset _ _ _ _ _
@[simp] theorem bucket_setBucket (i k : Nat) (x : Bucket) : bucket (setBucket s i x) k = if k = i then x else bucket s k := mget_mset _ _ _ _ _

/-! The configuration words read back as 32 bits. -/
@[simp] theorem rdDev_wrDev_self (o v : Nat) : rdDev (wrDev s o v) o = v % 2 ^ 32 := by
  simp [rdDev, wrDev, BitVec.toNat_ofNat]
theorem rdDev_wrDev_ne {s : State} {o k v : Nat} (h : k ≠ o) : rdDev (wrDev s o v) k = rdDev s k := by
  unfold rdDev wrDev mset
  split <;> simp [mget_mdel, mget_mput, h]
@[simp] theorem rdPart_wrPart_self (p o v : Nat) : rdPart (wrPart s p o v) p o = v % 2 ^ 32 := by
  simp [rdPart, wrPart, BitVec.toNat_ofNat]
@[simp] theorem rdRing_wrRing_self (r w v : Nat) : rdRing (wrRing s r w v) r w = v % 2 ^ 32 := by
  simp [rdRing, wrRing, BitVec.toNat_ofNat]
@[simp] theorem rdGait_wrGait_self (m w v : Nat) : rdGait (wrGait s m w v) m w = v % 2 ^ 32 := by
  simp [rdGait, wrGait, BitVec.toNat_ofNat]
@[simp] theorem rdCnt_cntAdd_self (o n : Nat) : rdCnt (cntAdd s o n) o = rdCnt s o + BitVec.ofNat 64 n := by
  simp [rdCnt, cntAdd]
@[simp] theorem clmWord_setClm_self (k w : Nat) (v : W36) : clmWord (setClm s k w v) k w = v := by
  simp [clmWord, setClm]
@[simp] theorem csmWord_setCsm_self (k w : Nat) (v : W36) : csmWord (setCsm s k w v) k w = v := by
  simp [csmWord, setCsm]
@[simp] theorem istWord_setIst_self (k w : Nat) (v : W36) : istWord (setIst s k w v) k w = v := by
  simp [istWord, setIst]

end Sys2Proof.Machine
end

