-- ==== Sys2Proof/WellFormed.lean ====
section
/-! DEFINITION. Which commands are well formed: those whose numbers name units and registers that the part has, and whose
parts agree. -/

namespace Sys2Proof

/-- Classes and indices of the wear sensors (16 R349, R352): cores, banks, ranks of a stack, packet SRAM rows, supply
rails. -/
def wearUnit (cls index : Nat) : Bool :=
  match cls with
  | 1 => index < 128
  | 2 => index < 64
  | 5 => index < 64 && index % 4 < 3
  | 7 => index < 524288
  | 8 => 1 ≤ index && index ≤ 12
  | _ => false

/-- Is a command well formed. A CRYPT row's operation word spells the row's operation (13 R275); an event names a unit
the part has; a register offset is a word's; a module's answer has the length asked for. -/
def Instr.wf : Instr → Bool
  | .lockWatchdog k => k.toNat < 16400
  | .modRead _ _ _ _ len _ answer => (answer.map (·.length)).all (· = len.toNat)
  | .sha256 _ _ _ opw => opw.toNat % 64 = 0x01
  | .hmacGen _ _ _ opw => opw.toNat % 64 = 0x02
  | .hmacVer _ _ _ opw => opw.toNat % 64 = 0x03
  | .cmacGen _ _ _ opw => opw.toNat % 64 = 0x04
  | .cmacVer _ _ _ opw => opw.toNat % 64 = 0x05
  | .gcmEnc _ _ _ opw => opw.toNat % 64 = 0x06
  | .gcmDec _ _ _ opw => opw.toNat % 64 = 0x07
  | .tdesEnc _ _ _ opw => opw.toNat % 64 = 0x08
  | .tdesDec _ _ _ opw => opw.toNat % 64 = 0x09
  | .mac3Gen _ _ _ opw => opw.toNat % 64 = 0x0A
  | .mac3Ver _ _ _ opw => opw.toNat % 64 = 0x0B
  | .kwrap _ _ _ opw => opw.toNat % 64 = 0x0C
  | .kunwrap _ _ _ opw => opw.toNat % 64 = 0x0D
  | .ecdsaVer _ _ _ opw => opw.toNat % 64 = 0x10
  | .ecdsaSign _ _ _ opw => opw.toNat % 64 = 0x11
  | .ed25519Ver _ _ _ opw => opw.toNat % 64 = 0x12
  | .rsaVer _ _ _ opw => opw.toNat % 64 = 0x13
  | .rsaSign _ _ _ opw => opw.toNat % 64 = 0x14
  | .random _ _ _ opw => opw.toNat % 64 = 0x18
  | .engineRequestComplete _ n => n.toNat < 3
  | .rankRetirement _ sid => sid.toNat < 3
  | .doubtSource code _ _ => 1 ≤ code.toNat && code.toNat ≤ 0x13
  | .supplyWarning rail _ => rail.toNat ≤ 12
  | .supplyResetLevel rail => rail.toNat ≤ 12
  | .wearSensorRead cls index _ => wearUnit cls.toNat index.toNat
  | .clockGeneratorSwitch i => i.toNat < 61
  | .dbgacc _ o _ => o.toNat % 4 = 0
  | .registerWrite _ o _ _ => o.toNat % 4 = 0
  | .onDieSensorReading n _ => n.toNat < 16
  | .nop .. | .bundleIssue .. | .add .. | .sub .. | .and_ .. => true
  | .or_ .. | .xor_ .. | .andn .. | .shl .. | .shr .. => true
  | .sar .. | .rol .. | .sel .. | .cmp .. | .plog .. => true
  | .prd .. | .pwr .. | .par .. | .brev .. | .orev .. => true
  | .bcnt .. | .addi .. | .andi .. | .ori .. | .xori .. => true
  | .shli .. | .shri .. | .sari .. | .roli .. | .exti .. => true
  | .depi .. | .cmpeqi .. | .cmpnei .. | .cmplti .. | .cmpltui .. => true
  | .lil .. | .lih .. | .dadd .. | .dsub .. | .dcmp .. => true
  | .dchk .. | .cvbd .. | .cvdb .. | .luhn .. | .ld .. => true
  | .st .. | .ldo1 .. | .ldo2 .. | .ldo4 .. | .sto1 .. => true
  | .sto2 .. | .sto4 .. | .ldd .. | .fld .. | .fst .. => true
  | .fmov .. | .farAccessComplete .. | .lockw .. | .unlockw .. | .xlat .. => true
  | .bmwalk .. | .tlvnext .. | .helperCompletion .. | .doneTicket .. | .hostDone .. => true
  | .dropTicket .. | .moveTicket .. | .splitTicket .. | .deferTask .. | .postTask .. => true
  | .getwork .. | .timerArm .. | .lockReq .. | .unlockReq .. | .chopen .. => true
  | .chw .. | .chpost .. | .chrd .. | .chnext .. | .signalEv .. => true
  | .waitev .. | .branch .. | .bl .. | .br .. | .mul .. => true
  | .crc .. | .mfsr .. | .mtsr .. | .readTime .. | .bmove .. => true
  | .bfill .. | .crcb .. | .xlatb .. | .luhnx .. | .asyncFault .. => true
  | .nopCommand .. | .tblExec .. | .insertEntry .. | .updateEntry .. | .deleteEntry .. => true
  | .lookupEntry .. | .insertOrUpdate .. | .deleteIfData .. | .dmaCopy .. | .dmaChunk .. => true
  | .absentTimeout .. | .srcInsert .. | .srcDelete .. | .srcSetad .. | .srcRead .. => true
  | .srcSearch .. | .srcFlush .. | .rebalance .. | .searchScrub .. | .bankSubstitution .. => true
  | .stfOpen .. | .stfResync .. | .stfQuery .. | .stfClose .. | .schPost .. => true
  | .hltFdrop .. | .hltQuery .. | .segWrite .. | .segPresent .. | .segRead .. => true
  | .taskResume .. | .taskRetry .. | .taskKill .. | .taskRecall .. | .hspAcquire .. => true
  | .acquireTimeout .. | .hspRelease .. | .hspQuery .. | .slotHoldExpiry .. | .bufAlloc .. => true
  | .bufShare .. | .bufDrop .. | .bufGive .. | .bufFree .. | .bufReclaim .. => true
  | .bufQuery .. | .keyLoad .. | .keyDelete .. | .keyQuery .. | .keyKekset .. => true
  | .jnlSeal .. | .jnlCert .. | .prgWrite .. | .prgRead .. | .mcsLoad .. => true
  | .modWrite .. | .serviceNop .. | .farTest .. | .farQuiesce .. | .farSwap .. => true
  | .farReport .. | .auditSet .. | .dbgUnlock .. | .debugUnlockExpiry .. | .rbgReseed .. => true
  | .rbgHealthFailure .. | .rbgStartupPass .. | .transmit .. | .frameReceive .. | .pauseRepeat .. => true
  | .pauseReceive .. | .hobbleHoldTimeout .. | .linkUp .. | .linkDown .. | .modulePresenceChange .. => true
  | .moduleInterrupt .. | .parseFrame .. | .graphWalk .. | .parseRecordRelease .. | .slowBucketRefill .. => true
  | .segmentFraming .. | .classify .. | .learn .. | .learnAgeFlush .. | .sweeperVisit .. => true
  | .ticketIssue .. | .dispatch .. | .ticketRelease .. | .latenessCheck .. | .deadlineKill .. => true
  | .delayEntryDue .. | .timerExpiry .. | .preemption .. | .partitionStall .. | .egressProcess .. => true
  | .frameTransmit .. | .transmitEnd .. | .egressTokenRefill .. | .hostDelivery .. | .completionWrite .. => true
  | .statusBlockWrite .. | .msixMessage .. | .gplNudge .. | .doorbellPoll .. | .doorbellFetch .. => true
  | .descriptorArrival .. | .serviceEvent .. | .journalRecordEntry .. | .sealTimer .. | .blockExport .. => true
  | .heartbeat .. | .hbmRead .. | .refresh .. | .temperatureReading .. | .caParityError .. => true
  | .retrainStep .. | .fullRetrain .. | .powerDownEntry .. | .selfRefreshEntry .. | .selfRefreshExit .. => true
  | .patrolScrub .. | .migrationUnitCopy .. | .rankSwitchover .. | .sealRecomputation .. | .forceBoltInput .. => true
  | .reinExit .. | .reinLimit .. | .coreSwap .. | .bistRotation .. | .bistComplete .. => true
  | .powerOnReset .. | .sysRstN .. | .warmReset .. | .presetPart .. | .partitionReset .. => true
  | .pcieLinkReady .. | .forceBolt .. | .clearBolt .. | .parSwap .. | .hobbleArm .. => true
  | .quadReconfigure .. | .ringKindChange .. | .gaitEnable .. | .gaitSnap .. | .gaitPsnap .. => true
  | .gaitWindowEnd .. | .gaitSample .. | .dbgHalt .. | .dbgRun .. | .dbgStep .. => true
  | .dbgTregWrite .. | .journalEnable .. | .clkTsetWrite .. | .clkTadjWrite .. | .clusterClockChange .. => true
  | .ppsInEdge .. | .clk10Loss .. | .timeSlewDone .. | .ppsOut .. | .firmwareUpdate .. => true
  | .configurationSave .. | .smbusBindingWrite .. | .smbusRegisterRead .. | .smbusAlertResponse .. | .pauseTimerExpiry .. => true
  | .inFlightTimeout .. | .inUseTimeout .. | .pcieCompletionTimeout .. | .ppsInLoss .. | .clk10InReturn .. => true
  | .vauxLoss .. | .vinValid .. | .flashWriteEnd .. | .perstNRelease .. => true

end Sys2Proof
end

