-- ==== Sys2Proof/Tests/Slice0.lean ====
section
/-! SUPPORT. The model's own tests: what the well-formedness check refuses, a few single steps whose result the spec states, and
for every obligation states that meet its hypotheses (the theorems named witness_). -/

set_option Elab.async false

namespace Sys2Proof.Tests

open Sys2Proof.Machine Sys2Proof.Claim

/-- Reset, with cluster 0 enabled for partition 0, and domain 2 and domain 3 its. -/
def started : State := wrDev (wrDev (wrDev State.reset 0x70040 3) 0x68010 3) 0x68018 3

/-- A task of partition 0 on thread 5. -/
def aTask : TaskSt := { part := 0, prio := 3, eprio := 4, tkw := 0x814009, entry := 16, loc := .thread 5 }

/-- The state with thread 5 running task 7 with a context. -/
def running (s : State) (c : Ctx) : State :=
  putTask (setThr s 5 { mode := .run, ctx := { c with task := some 7 } }) 7 aTask

/-- A context whose registers 1, 2 and 3 hold three words, selector 4 the window and selector 0 descriptor 0. -/
def regs (x a b : W36) : Ctx :=
  { regs := mset 0 (mset 0 (mset 0 [] 3 b) 2 a) 1 x, preds := 1, sels := [(4, 0x800), (5, 1), (6, 2), (7, 3)] }

/-- Thread 5 runs with three registers. -/
def work (x a b : W36) : State := running started (regs x a b)

/-- Ticket index 9 in use for partition 0 in domain 2, its word in register 2. -/
def ticketed (x b : W36) : State :=
  setOrder (setTicket (running started (regs x 0x814009 b)) 9 { inUse := true, gen := 5, dom := 2 }) 2 [9]


/-- A syllable runs when its guard predicate, or its complement, is true. -/
theorem witness_runs : Runs (work 5 3 4) 5 0 ∧ (0 : BitVec 8).toNat % 4 = 0 ∧ (1 : BitVec 8).toNat % 4 = 1 := by decide

theorem witness_runs_guard : Runs (running started { regs 1 2 3 with preds := 8 }) 5 3 ∧ Runs (work 1 2 3) 5 11 ∧
    ¬ Runs (work 1 2 3) 5 3 := by decide

/-- The codes of CMP: conditions 0 and 6, widths 36 and 32. -/
theorem witness_cmp : Runs (work 5 3 4) 5 0 ∧ (6 : BitVec 8).toNat / 8 % 4 < 2 ∧ (6 : BitVec 8).toNat % 8 ≠ 7 ∧
    (8 : BitVec 8).toNat / 8 % 4 < 2 ∧ (8 : BitVec 8).toNat % 8 ≠ 7 := by decide

theorem witness_decimal : let s := work 0 0x999999999 0x000000000
    Runs s 5 0 ∧ Decimal ((ctxNow s 5).g 2) ∧ Decimal ((ctxNow s 5).g 3) := by decide

theorem witness_dcmp : ∀ m ∈ [0, 2, 3], ∃ v : Bool, let s := work 0 0x999999999 0x999999999
    let a := decimalOf ((ctxNow s 5).g 2)
    let b := decimalOf ((ctxNow s 5).g 3)
    (m % 8 = 0 ∧ v = decide (a = b)) ∨ (m % 8 = 2 ∧ v = decide (a < b)) ∨ (m % 8 = 3 ∧ v = decide (a ≤ b)) := by decide

theorem witness_not_decimal : let s := work 0 0xA00000000 0x000000000
    Runs s 5 0 ∧ ¬ Decimal ((ctxNow s 5).g 2) ∧ ¬ (Decimal ((ctxNow s 5).g 2) ∧ Decimal ((ctxNow s 5).g 3)) := by decide


/-- Descriptors 0 to 3 of partition 0: CLM, CSM, the instruction store, and the space `sp`, each with every right and a
hundred units from 16 (from 0x4000010 for the space `sp`, where that is HBM). -/
def segmented (s : State) (sp : Nat) : State :=
  { s with mem := { s.mem with segs := [(0, ⟨16, 0, 99, 0x8F80⟩), (1, ⟨16, 0, 99, 0x8F90⟩), (2, ⟨16, 0, 99, 0x8FA0⟩),
    (3, ⟨if sp = 4 then 0x4000010 else 16, 0, 99, 0x8F80 + BitVec.ofNat 32 (16 * sp)⟩)] } }

theorem witness_near_clm : let s := segmented (work 0 99 0) 3
    Runs s 5 0 ∧ nearOffset (ctxNow s 5) 2 0 = 99 ∧ Grants s 5 0 ReadNeed 99 1 0 115 ∧ Grants s 5 0 WriteNeed 99 1 0 115 ∧
      WordGood s 5 0 115 := ⟨by decide, by decide, ⟨_, rfl, by decide⟩, ⟨_, rfl, by decide⟩, by decide⟩

theorem witness_near_csm : let s := segmented (work 0 0 0) 3
    Runs s 5 0 ∧ nearOffset (ctxNow s 5) 2 5120 = 0 ∧ Grants s 5 5 ReadNeed 0 1 1 16 ∧ Grants s 5 5 WriteNeed 0 1 1 16 ∧
      WordGood s 5 1 16 := ⟨by decide, by decide, ⟨_, rfl, by decide⟩, ⟨_, rfl, by decide⟩, by decide⟩

theorem witness_near_store : let s := segmented (work 0 0 0) 3
    Runs s 5 0 ∧ nearOffset (ctxNow s 5) 2 6144 = 0 ∧ Grants s 5 6 ReadNeed 0 1 2 16 ∧ WordGood s 5 2 16 :=
  ⟨by decide, by decide, ⟨_, rfl, by decide⟩, by decide⟩

theorem witness_near_window : let s := work 0 508 0
    Runs s 5 0 ∧ nearOffset (ctxNow s 5) 2 4096 = 508 ∧ nearOffset (ctxNow s 5) 2 4099 = 511 ∧
      Grants s 5 4 ReadNeed 508 4 6 508 ∧ Grants s 5 4 WriteNeed 508 4 6 508 ∧ Grants s 5 4 ReadNeed 511 1 6 511 ∧
      Grants s 5 4 WriteNeed 508 2 6 508 :=
  ⟨by decide, by decide, by decide, ⟨_, rfl, by decide⟩, ⟨_, rfl, by decide⟩, ⟨_, rfl, by decide⟩, ⟨_, rfl, by decide⟩⟩

theorem witness_ldd : let s := work 0 1015 0
    let n := nearOffset (ctxNow s 5) 2 4096
    Runs s 5 0 ∧ n = 1015 ∧ Grants s 5 4 ReadNeed (n / 2) ((n + 8) / 2 - n / 2 + 1) 6 (n / 2) :=
  ⟨by decide, by decide, ⟨_, rfl, by decide⟩⟩

theorem witness_xlat : let s := segmented (work 0 0 36) 3
    Runs s 5 0 ∧ Grants s 5 5 ReadNeed 36 64 1 52 ∧ (∀ w, w < 64 → WordGood s 5 1 (52 + w)) :=
  ⟨by decide, ⟨_, rfl, by decide⟩, by decide⟩

/-- The window of thread 5 begins with these octets. -/
def windowed (s : State) (l : List Octet) : State := updCtx s 5 (fun c => c.winWrite 0 l)

theorem witness_bmwalk : let s := windowed (work 0 5 0) [0x80, 0, 0, 0, 0, 0, 0, 0, 0, 0, 0, 0, 0, 0, 0, 1]
    let field := fun f => (mget 0 (ctxNow s 5).win (0 + (f - 1) / 8)).getLsbD (7 - (f - 1) % 8)
    Runs s 5 0 ∧ field 1 = true ∧ Grants s 5 4 ReadNeed 0 (128 / 8) 6 0 ∧ field 128 = true ∧
      ∀ f, f < 128 → 6 ≤ f → field f = false := ⟨by decide, by decide, ⟨_, rfl, by decide⟩, by decide, by decide⟩

theorem witness_bmwalk_none : let s := windowed (work 0 0 0) [0, 0, 0, 0, 0, 0, 0, 0]
    let field := fun f => (mget 0 (ctxNow s 5).win (0 + (f - 1) / 8)).getLsbD (7 - (f - 1) % 8)
    Runs s 5 0 ∧ field 1 = false ∧ Grants s 5 4 ReadNeed 0 (64 / 8) 6 0 ∧ ∀ f, f < 65 → field f = false :=
  ⟨by decide, by decide, ⟨_, rfl, by decide⟩, by decide⟩

theorem witness_tlv : let s := windowed (work 0 0 0) [0, 0xFF, 0x81, 0x01, 0x82, 1, 2]
    let o := fun i => (mget 0 (ctxNow s 5).win (0 + i)).toNat
    Runs s 5 0 ∧ (segOf s 5 ((ctxNow s 5).sel 4)).limit = 511 ∧ (∀ i, i < 1 → o i = 0) ∧
      (∀ i, i < 3 → (if i = 0 then o (1 + i) ≠ 0 ∧ (o (1 + i) % 32 = 31 ↔ 1 < 3) else (128 ≤ o (1 + i) ↔ i + 1 < 3))) ∧
      o 4 = 0x82 := by decide

theorem witness_tlv_short : let s := windowed (work 0 509 0) []
    let s := updCtx s 5 (fun c => c.winWrite 509 [0x05, 0x81, 0xFF])
    let o := fun i => (mget 0 (ctxNow s 5).win (509 + i)).toNat
    Runs s 5 0 ∧ o 0 ≠ 0 ∧ ¬ (o 0 % 32 = 31) ∧ o 1 = 0x81 ∧ 509 + 0 + 1 + 2 ≤ 511 + 1 := by decide

theorem witness_tlv_zeros : let s := work 0 0 0
    Runs s 5 0 ∧ ∀ i, (mget 0 (ctxNow s 5).win (0 + i)).toNat = 0 := ⟨by decide, fun _ => rfl⟩

theorem witness_refused_invalid : let s := work 0 0 0
    Runs s 5 0 ∧ thrPart s 5 = some 0 ∧ (segOf s 5 ((ctxNow s 5).sel 0)).valid = false ∧
      (segOf s 5 ((ctxNow s 5).sel 0)).space ≠ 2 := by decide

theorem witness_refused_rights : let s := segmented (work 0 0 0) 3
    Runs s 5 0 ∧ thrPart s 5 = some 0 ∧ (segOf s 5 ((ctxNow s 5).sel 7)).valid = true ∧
      (segOf s 5 ((ctxNow s 5).sel 7)).space = 3 := by decide

theorem witness_refused_bounds : let s := segmented (work 0 100 0) 3
    let v := segOf s 5 ((ctxNow s 5).sel 0)
    Runs s 5 0 ∧ thrPart s 5 = some 0 ∧ v.valid = true ∧ v.space < 2 ∧ v.r = true ∧ v.w = true ∧
      v.limit < nearOffset (ctxNow s 5) 2 0 := by decide

theorem witness_absent : let s := { work 0 99 0 with mem := { State.reset.mem with segs := [(0, ⟨16, 0, 99, 0x8F00⟩)] } }
    let v := segOf s 5 ((ctxNow s 5).sel 0)
    Runs s 5 0 ∧ thrPart s 5 = some 0 ∧ v.valid = true ∧ v.space < 2 ∧ v.r = true ∧ v.w = true ∧
      nearOffset (ctxNow s 5) 2 0 ≤ v.limit ∧ v.base + nearOffset (ctxNow s 5) 2 0 < spaceSize v.space ∧ v.p = false ∧
      thrTask s 5 = some 7 ∧ taskSt s 7 = some aTask ∧ freeSlot s 0 = some 0 := by decide

theorem witness_far : ∀ sp ∈ [3, 4, 5], let s := segmented (work 508 0 96) sp
    Runs s 5 0 ∧ thrPart s 5 = some 0 ∧ hasHost s 0 = true ∧ s.mem.poison = [] ∧ mfind (ctxNow s 5).tags 3 = none ∧
      ((ctxNow s 5).g 2).toNat + ((ctxNow s 5).g 3).toNat = 96 ∧
      (segOf s 5 ((ctxNow s 5).sel 7)).space = sp ∧ (segOf s 5 ((ctxNow s 5).sel 7)).limit = 99 := by decide

theorem witness_far_grants : let s := segmented (work 508 0 96) 4
    Grants s 5 7 ReadNeed 96 4 4 0x4000070 ∧ Grants s 5 7 WriteNeed 96 4 4 0x4000070 :=
  ⟨⟨_, rfl, by decide⟩, ⟨_, rfl, by decide⟩⟩

theorem witness_fmov : let s := segmented (work 448 36 64) 5
    Grants s 5 7 ReadNeed 36 64 5 52 ∧ Grants s 5 7 WriteNeed 36 64 5 52 ∧
      ((ctxNow s 5).g 3).toNat % 64 = 0 ∧ ((ctxNow s 5).g 1).toNat + 64 ≤ 512 :=
  ⟨⟨_, rfl, by decide⟩, ⟨_, rfl, by decide⟩, by decide⟩

theorem witness_word_lock : let s := wrDev (segmented (work 0 99 0) 3) 0x80040 1
    Runs s 5 0 ∧ thrPart s 5 = some 0 ∧ flag s 0x80040 0 = true ∧ mfind (ctxNow s 5).tags 0 = none ∧
      csmWord s 0 115 = 0 ∧ Grants s 5 5 { r := true, w := true } 99 1 1 115 ∧ Grants s 5 5 WriteNeed 99 1 1 115 :=
  ⟨by decide, by decide, by decide, by decide, by decide, ⟨_, rfl, by decide⟩, ⟨_, rfl, by decide⟩⟩

theorem witness_multiply : Runs (work 0 0xFFFFFFFFF 2) 5 0 ∧ (ctxNow (work 0 0xFFFFFFFFF 2) 5).late = [] := by decide

/-- The logical core's own polynomial, of 8 bits. -/
theorem witness_crc : let s := wrDev (wrDev (work 0 0 0) 0x70600 0x27) 0x70400 7
    Runs s 5 0 ∧ 7 ≤ rdDev s 0x70600 % 32 ∧ 8 = rdDev s 0x70600 % 32 + 1 ∧ rdDev s 0x70600 / 32 % 2 = 1 ∧
      ∀ i, i < 8 → Nat.testBit 0xE0 i = (rdDev s 0x70400).testBit (8 - 1 - i) := by decide

theorem witness_special : Runs (work 0 0 0) 5 0 ∧ thrTask (work 0 0 0) 5 = some 7 ∧ taskSt (work 0 0 0) 7 = some aTask := by
  decide

/-- 16 octets of the window from 496 on are the destination of the microcoded instructions. -/
theorem witness_microcoded : let s := segmented (work 16 496 0) 3
    Runs s 5 0 ∧ thrPart s 5 = some 0 ∧ (ctxNow s 5).pg.getLsbD 15 = false ∧ ((ctxNow s 5).g 1).toNat = 16 ∧
      s.mem.poison = [] ∧ Grants s 5 4 WriteNeed 496 16 6 496 ∧ Grants s 5 7 ReadNeed 0 16 3 16 ∧
      Grants s 5 4 { r := true, w := true } 496 16 6 496 ∧ Grants s 5 5 ReadNeed 0 64 1 16 ∧
      (∀ w, w < 64 → WordGood s 5 1 (16 + w)) ∧ (microStore s 5).mregs = [] ∧ (ctxNow s 5).late = [] ∧
      NoRecord s 16 ∧ NoRecord s 0x4000070 :=
  ⟨by decide, by decide, by decide, by decide, by decide, ⟨_, rfl, by decide⟩, ⟨_, rfl, by decide⟩, ⟨_, rfl, by decide⟩,
    ⟨_, rfl, by decide⟩, by decide, by decide, by decide, by decide, by decide⟩

/-- A patched core: its second match register sends ROM address 0x10 to a word whose sequencing field is reserved. -/
def patched : State :=
  { work 0 0 0 with far := { State.reset.far with
      patches := [(0, { mregs := [(0x11, 0x2001), (0x10, 0x2000), (0x10, 0x2001)], ram := [(0, BitVec.ofNat 112 (6 * 2 ^ 107))] })] } }

theorem witness_sequencer : let x := microStore patched 5
    x.mregs[1]? = some (0x10, 0x2000) ∧ (∀ j m, j < 1 → x.mregs[j]? = some m → m.1 ≠ 0x10) ∧ (∀ m ∈ x.mregs, m.1 ≠ 0x12) ∧
      thrPart patched 5 = some 0 ∧ microSeq (microFetched patched 5) 5 { upc := 0x10 } = none := by
  refine ⟨by decide, fun j m hj hm => ?_, by decide, by decide, by decide⟩
  obtain rfl : j = 0 := by omega
  obtain rfl := Option.some.inj hm
  decide

/-- Microwords of the codes 0, 1, 3 and 4, and a micro-stack that is full. -/
theorem witness_microwords : (∀ k ∈ [0, 1, 3, 4, 6, 7], mwSeq (BitVec.ofNat 112 (k * 2 ^ 107)) = k) ∧ 4 ≤ [1, 2, 3, 4].length ∧
    [1, 2, 3].length < 4 := by decide

theorem witness_luhnx : let s := windowed (work 19 0 19) (List.replicate 19 0x39)
    Runs s 5 0 ∧ thrPart s 5 = some 0 ∧ ((ctxNow s 5).g 3).toNat = 19 ∧ Grants s 5 4 ReadNeed 0 19 6 0 ∧
      (∀ i, i < 19 → 0x30 ≤ (octetAt s 5 0 6 (0 + i)).toNat ∧ (octetAt s 5 0 6 (0 + i)).toNat ≤ 0x39) :=
  ⟨by decide, by decide, by decide, ⟨_, rfl, by decide⟩, by decide⟩


/-- Pool 1 of partition 0 with 16 buffers of 2,048 octets from 0x10000, one of them owned by thread 5. -/
def buffered (s : State) : State :=
  setTag (wrDev (wrDev (wrDev s 0x90410 0x100) 0x90414 0x5800010) 0x90418 3) 0x10000
    { owner := 40, shares := 1, alloc := true }

/-- Ring 3 and egress queue 4 of partition 0. -/
def outlets (s : State) : State := wrDev (wrDev s 0xD400C 1) 0xA0020 3

theorem witness_ticket_ends : let s := outlets (buffered (ticketed 0x8020040 0x10000))
    Runs s 5 0 ∧ TaskOn s 5 7 aTask 0 ∧ OpenTicket s 0 9 ((ctxNow s 5).g 2) ∧ ptrValid s 0x10000 = true ∧
      (bufTag s 0x10000).alloc = true ∧ (bufTag s 0x10000).owner = thrAgent 5 ∧ queueOwner s 4 = some 0 := by decide

theorem witness_ticket_ends_host : let s := outlets (buffered (ticketed 0x18040 0x10000))
    Runs s 5 0 ∧ TaskOn s 5 7 aTask 0 ∧ OpenTicket s 0 9 ((ctxNow s 5).g 2) ∧ ptrValid s 0x10000 = true ∧
      (bufTag s 0x10000).alloc = true ∧ (bufTag s 0x10000).owner = thrAgent 5 ∧ ringOwner s 3 = some 0 := by decide

theorem witness_stale_ticket : let s := work 0 0x400000000 0
    Runs s 5 0 ∧ thrPart s 5 = some 0 ∧ ((ctxNow s 5).g 2).toNat / 2 ^ 34 ≠ 0 := by decide

theorem witness_stale_ticket_free : let s := work 0 9 0
    Runs s 5 0 ∧ thrPart s 5 = some 0 ∧ (ticket s 9).inUse = false := by decide

theorem witness_stale_ticket_gen : let s := running (ticketed 0 0) (regs 0 0x810009 0)
    Runs s 5 0 ∧ thrPart s 5 = some 0 ∧ ((ctxNow s 5).g 2).toNat / 2 ^ 14 % 16 ≠ (ticket s 9).gen.toNat := by decide

theorem witness_stale_ticket_domain : let s := running (ticketed 0 0) (regs 0 0xC14009 0)
    Runs s 5 0 ∧ thrPart s 5 = some 0 ∧ ((ctxNow s 5).g 2).toNat / 2 ^ 22 % 4096 ≠ (ticket s 9).dom := by decide

theorem witness_move : let s := ticketed 0 3
    Runs s 5 0 ∧ TaskOn s 5 7 aTask 0 ∧ (ctxNow s 5).late = [] ∧ OpenTicket s 0 9 ((ctxNow s 5).g 2) ∧
      ((ctxNow s 5).g 3).toNat % 4096 = 3 ∧ (ticket s 9).item.kind ≠ 1 ∧ flag s 0x68018 0 = true ∧ domOwner s 3 = some 0 ∧
      3 ≠ (ticket s 9).dom := by decide

theorem witness_split_two : let s := ticketed 0 2
    Runs s 5 0 ∧ TaskOn s 5 7 aTask 0 ∧ (ctxNow s 5).late = [] ∧ OpenTicket s 0 9 ((ctxNow s 5).g 2) ∧
      ((ctxNow s 5).g 3).toNat = 2 := by decide

theorem witness_split_eight : let s := ticketed 0 8
    Runs s 5 0 ∧ TaskOn s 5 7 aTask 0 ∧ (ctxNow s 5).late = [] ∧ OpenTicket s 0 9 ((ctxNow s 5).g 2) ∧
      ((ctxNow s 5).g 3).toNat = 8 := by decide

theorem witness_post : let s := work 0 0x105003 0x10000
    Runs s 5 0 ∧ TaskOn s 5 7 aTask 0 ∧ (ctxNow s 5).late = [] ∧ ((ctxNow s 5).g 2).toNat % 4096 = 3 ∧
      flag s 0x68018 0 = true ∧ domOwner s 3 = some 0 ∧ canIssue s 0 = true ∧ issueHeads s = [] ∧ (ticket s 0).inUse = false := by decide

theorem witness_getwork : let s := work 0 0xFF 0
    Runs s 5 0 ∧ TaskOn s 5 7 aTask 0 ∧ (ctxNow s 5).tags = [] ∧ ∀ k w, w ∈ (lock s k).waiters → w.who ≠ .task 7 :=
  ⟨by decide, by decide, by decide, fun _ _ h => nomatch h⟩

theorem witness_defer : let s := ticketed 0 10
    Runs s 5 0 ∧ TaskOn s 5 7 aTask 0 ∧ (ctxNow s 5).tags = [] ∧ OpenTicket s 0 9 ((ctxNow s 5).g 2) := by decide

theorem witness_waitev_set : let s := running started { regs 0 0x11 0 with ev := 0x19 }
    Runs s 5 0 ∧ TaskOn s 5 7 aTask 0 ∧ (ctxNow s 5).ev &&& (ctxNow s 5).g 2 ≠ 0 := by decide

theorem witness_waitev_none : Runs (work 0 0 0) 5 0 ∧ TaskOn (work 0 0 0) 5 7 aTask 0 ∧ (ctxNow (work 0 0 0) 5).g 2 = 0 := by
  decide

theorem witness_waitev_waits : let s := running started { regs 0 0x10 0 with ev := 0x9 }
    Runs s 5 0 ∧ TaskOn s 5 7 aTask 0 ∧ (ctxNow s 5).g 2 ≠ 0 ∧ (ctxNow s 5).ev &&& (ctxNow s 5).g 2 = 0 := by decide

theorem witness_signal : let s := work 0 48 0x12345
    Runs s 5 0 ∧ TaskOn s 5 7 aTask 0 ∧ ((ctxNow s 5).g 2).toNat % 2 ^ 16 = (6 : Thr).toNat * 8 ∧ thrPart s 6 = some 0 := by
  decide

/-- Lock group 0 enabled for partition 0, cluster 0 with the right to acquire. -/
def lockable (s : State) : State := wrDev (wrDev s 0x80800 3) 0x80804 1

theorem witness_lock_free : let s := setLock (lockable (work 0 255 0)) 255 { orphan := true }
    Runs s 5 0 ∧ TaskOn s 5 7 aTask 0 ∧ aTask.loc = .thread 5 ∧ flag s 0x80800 0 = true ∧ flag s 0x80800 1 = true ∧
      aTask.lockPend = none ∧ (lock s 255).waiters = [] ∧ flag s 0x80804 0 = true ∧ (lock s 255).holder = .free := by decide

theorem witness_lock_held : let s := setLock (lockable (work 0 0 0)) 0 { holder := .task 8 }
    Runs s 5 0 ∧ TaskOn s 5 7 aTask 0 ∧ flag s 0x80800 0 = true ∧ flag s 0x80800 1 = true ∧
      (lock s 0).waiters = [] ∧ flag s 0x80804 0 = true ∧ 8 ≠ 7 ∧ (lock s 0).holder = .task 8 := by decide

theorem witness_unlock : let s := setLock (lockable (work 0 0 0)) 0 { holder := .task 7 }
    Runs s 5 0 ∧ TaskOn s 5 7 aTask 0 ∧ flag s 0x80800 0 = true ∧ flag s 0x80800 1 = true ∧
      (lock s 0).waiters = [] ∧ (lock s 0).holder = .task 7 := by decide

/-- Channel 1 enabled for partition 0, one slot posted, one reserved by task 7. -/
def channelled (s : State) : State :=
  setChSlot (setChSlot (wrDev s 0x84004 3) 16 { st := .posted 3, gen := 1, words := [(2, 77)] }) 17
    { st := .reserved 7 0, gen := 4 }

theorem witness_chopen : let s := channelled (work 0 1 0)
    Runs s 5 0 ∧ TaskOn s 5 7 aTask 0 ∧ (ctxNow s 5).late = [] ∧ chanOwner s 1 = some 0 ∧ flag s 0x84004 0 = true ∧
      (chSlot s 18).st = .free ∧ ∀ j, j < 2 → (chSlot s (16 + j)).st ≠ .free := by decide

theorem witness_chw_chpost : let s := channelled (work 0 0x41001 5)
    Runs s 5 0 ∧ TaskOn s 5 7 aTask 0 ∧ (ctxNow s 5).late = [] ∧ chanOwner s 1 = some 0 ∧ flag s 0x84004 0 = true ∧
      ((ctxNow s 5).g 2).toNat % 4096 * 16 + ((ctxNow s 5).g 2).toNat / 4096 % 16 = 17 ∧
      (chSlot s 17).st = .reserved 7 0 ∧ (chSlot s 17).gen.toNat = ((ctxNow s 5).g 2).toNat / 2 ^ 16 % 16 := by decide

theorem witness_chrd_chnext : let s := channelled (work 0 1 0)
    Runs s 5 0 ∧ TaskOn s 5 7 aTask 0 ∧ (ctxNow s 5).late = [] ∧ chanOwner s 1 = some 0 ∧ flag s 0x84004 0 = true ∧
      (chSlot s 16).st = .posted 3 ∧ ∀ j m, j < 16 → (chSlot s (16 + j)).st = .posted m → j = 0 ∨ 3 < m := by
  have h : ∀ j, j < 16 → j = 0 ∨ (match (chSlot (channelled (work 0 1 0)) (16 + j)).st with
    | .posted _ => false
    | _ => true) = true := by decide
  refine ⟨by decide, by decide, by decide, by decide, by decide, by decide, fun j m hj e => ?_⟩
  rcases h j hj with h | h
  · exact .inl h
  · rw [e] at h; exact nomatch h


/-- A command of partition 0's ring 3, slot 2, tag 9. -/
def aCmd : CmdRef := { part := 0, ring := 3, slot := 2, tag := 9 }

/-- A packet of partition 0 for domain 2 in the buffer at 0x10000. -/
def anItem : Item := { kind := 0, part := 0, prio := 2, entry := 0x40, dom := 2, buf := 0x10000, len := 100, t0 := 500 }

theorem witness_ticket_issue : let s := { started with hlt := { started.hlt with issueQ := [(0, [anItem])] } }
    InService s 0 ∧ canIssue s 0 = true ∧ olderClaims s 0 anItem.arr < freeTickets s ∧ (ticket s 0).inUse = false ∧
      mget [] s.hlt.issueQ 0 = anItem :: [] ∧ domOwner s 2 = some 0 := by decide

/-- Partition 0's task is for a domain of no partition. -/
theorem witness_ticket_unassigned : let s := { started with hlt := { started.hlt with issueQ := [(0, [{ anItem with dom := 9 }])] } }
    mget [] s.hlt.issueQ 0 = { anItem with dom := 9 } :: [] ∧ domOwner s 9 ≠ some 0 := by decide

/-- One free index is left, and partition 1 has an older task. -/
def contended : State :=
  let s := wrDev (wrDev started 0x70044 7) 0x68020 7
  { s with hlt := { s.hlt with
      tickets := (List.range 16383).map (fun j => (j, { inUse := true, dom := 2 })),
      issueQ := [(0, [{ anItem with arr := 8 }]), (1, [{ anItem with part := 1, dom := 4, arr := 7 }])] } }

theorem witness_ticket_contended : let s := contended
    mget [] s.hlt.issueQ 0 = { anItem with arr := 8 } :: [] ∧ freeTickets s ≤ olderClaims s 0 8 := by decide +kernel

/-- The item's task on partition 0's ready list at level 2. -/
def aReady (k : Nat) : ReadyEnt := ⟨0, 2, .fresh 0x804009 { anItem with kind := k } 1000⟩

/-- Thread 5 waits for work. -/
def waiting (k : Nat) : State := { started with hlt := { started.hlt with ready := [aReady k], waiters := [5] } }

theorem witness_dispatch_packet : let s := waiting 0
    InService s 0 ∧ readyOf s 0 = aReady 0 :: [] ∧ waitersOf s 0 = 0 :: (waitersOf s 0).tail ∧ (thr s 0).mask = 0 := by
  decide +kernel

/-- The class of the item is audited, and its digest is due a nanosecond from now. -/
theorem witness_dispatch_digest :
    let e : ReadyEnt := ⟨0, 2, .fresh 0x804009 { anItem with audit := 1, digAt := 1 } 1000⟩
    let s := wrDev (wrDev { started with hlt := { started.hlt with ready := [e] } } 0xC0000 1) 0xC0020 2
    ∀ e ∈ readyAll s 0, digestDue s e = true := by decide

theorem witness_dispatch_posted : let s := waiting 3
    InService s 0 ∧ readyOf s 0 = aReady 3 :: [] ∧ waitersOf s 0 = 0 :: (waitersOf s 0).tail ∧ (thr s 0).mask = 0 := by
  decide +kernel

/-- Every thread of cluster 0 but thread 5 is taken off the queue by a debug halt; thread 5 runs a task that lets itself be
preempted, and a task of a higher level is ready. -/
def preemptible : State :=
  let s := putTask (running (wrDev started 0x60040 0x1000) {}) 7 { aTask with preempt := true }
  { s with
      thr := { s.thr with threads := (List.range 128).map (fun k => (k, if k = 5 then thr s 5 else { halted := true })) },
      hlt := { s.hlt with ready := [aReady 0] } }

theorem witness_preemption_state : let s := preemptible
    InService s 0 ∧ flag s 0x60040 12 = true ∧ readyOf s 0 = [aReady 0] ∧ waitersOf s 0 = [] ∧
      candidate s 0 5 (aReady 0) = true ∧ (thr s 5).ctx.task = some 7 ∧ freeSlot s 0 = some 0 ∧
      inBoundary s 5 = false ∧ ∀ v ∈ threadsOf s 0, v ≠ 5 → candidate s 0 v (aReady 0) = false := by decide +kernel

/-- The same with a routine under way on thread 5. -/
def routined : State := updThr preemptible 5 (fun x => { x with routine := some { upc := 0 } })

theorem witness_preemption_boundary : let s := routined
    InService s 0 ∧ flag s 0x60040 12 = true ∧ readyOf s 0 = [aReady 0] ∧ waitersOf s 0 = [] ∧
      candidate s 0 5 (aReady 0) = true ∧ (thr s 5).ctx.task = some 7 ∧ freeSlot s 0 = some 0 ∧
      inBoundary s 5 = true ∧ ∀ v ∈ threadsOf s 0, v ≠ 5 → candidate s 0 v (aReady 0) = false := by decide +kernel

/-- Task 7 waits in the delay list, due at tick 1,000. -/
def delayed (n : Nat) : State :=
  let s := putTask started 7 { aTask with loc := .deferred }
  { s with hlt := { s.hlt with ticks := n, delays := [⟨0, 1000, .redispatch 7 true⟩] } }

theorem witness_delay : let s := delayed 1000
    inReset s 0 = false ∧ s.hlt.delays = [⟨0, 1000, .redispatch 7 true⟩] ∧ taskSt s 7 = some { aTask with loc := .deferred } ∧
      1000 ≤ tickNow s := by decide

theorem witness_delay_early : let s := delayed 999
    inReset s 0 = false ∧ s.hlt.delays = [⟨0, 1000, .redispatch 7 true⟩] ∧ tickNow s < 1000 := by decide

/-- Thread 5's timer, armed by task 7, is due at tick 1,000. -/
def timed (n : Nat) (x : TaskSt) : State :=
  let s := putTask (setThr started 5 { mode := .run, timer := some ⟨1000, some 7⟩ }) 7 x
  putSlot { s with hlt := { s.hlt with ticks := n } } 3 { ctx := { task := some 7 }, agent := 40 }

theorem witness_timer : let s := timed 1000 aTask
    (thr s 5).timer = some ⟨1000, some 7⟩ ∧ taskSt s 7 = some aTask ∧ 1000 ≤ tickNow s ∧ aTask.loc = .thread 5 := by decide

theorem witness_timer_saved : let s := timed 1001 { aTask with loc := .slot 3 }
    (thr s 5).timer = some ⟨1000, some 7⟩ ∧ taskSt s 7 = some { aTask with loc := .slot 3 } ∧ 1000 ≤ tickNow s ∧
      slotSt s 3 = some { ctx := { task := some 7 }, agent := 40 } := by decide

theorem witness_timer_early : let s := timed 999 aTask
    (thr s 5).timer = some ⟨1000, some 7⟩ ∧ taskSt s 7 = some aTask ∧ tickNow s < 1000 := by decide

/-- Domain 2, with policy pass and kill latency 1, has ticket 9 of a packet at its head. -/
def headed (now : Nat) (r : Option Result) : State :=
  let s := putTask (wrDev started 0x68010 0x800023) 7 aTask
  setOrder (setTicket { s with now := now, tb := { s.tb with tai := now } } 9
    { inUse := true, gen := 15, dom := 2, item := anItem, res := r, deadline := 2000, task := some 7 }) 2 [9]

theorem witness_head_release : let s := headed 1000 (some { disp := .egress, buf := 0x10000, len := 64, dest := 4 })
    domOwner s 2 = some 0 ∧ InService s 0 ∧ domOrder s 2 = 9 :: [] ∧ (ticket s 9).dom = 2 ∧ (ticket s 9).part = 0 ∧
      (ticket s 9).subs = [] ∧ (ticket s 9).passed = false ∧ (ticket s 9).item.kind ≠ 1 ∧ (ticket s 9).inUse = true ∧
      s.stf.conns = [] ∧ s.gpl.waiting = [] ∧ jnlEn s = false ∧
      ((mget [] s.egr.queues 4).filter (·.resultEnd)).length + (s.hlt.egressIn.filter (fun x =>
        decide (releaseQueue s x.item x.res = 4))).length < maxDepth s 4 := by decide

theorem witness_head_late : let s := headed 2000 none
    domOwner s 2 = some 0 ∧ InService s 0 ∧ domOrder s 2 = 9 :: [] ∧ (ticket s 9).dom = 2 ∧ (ticket s 9).part = 0 ∧
      (ticket s 9).subs = [] ∧ (ticket s 9).passed = false ∧ (ticket s 9).item.kind ≠ 1 ∧ (ticket s 9).inUse = true ∧
      s.stf.conns = [] ∧ s.gpl.waiting = [] ∧ jnlEn s = false ∧ (ticket s 9).res = none ∧ (ticket s 9).deadline ≤ tai s ∧
      hltDom s 2 / 2 ^ 5 % 4 = 1 := by decide

theorem witness_head_early : (ticket (headed 1999 none) 9).res = none ∧ tai (headed 1999 none) < (ticket (headed 1999 none) 9).deadline :=
  by decide

theorem witness_head_kill : let s := headed 3000 none
    (ticket s 9).res = none ∧ (ticket s 9).killed = false ∧ hltDom s 2 / 2 ^ 23 % 2 ^ 8 = 1 ∧
      (ticket s 9).deadline + 1000 * 1 ≤ tai s ∧ (ticket s 9).task = some 7 ∧ taskSt s 7 = some aTask ∧
      aTask.loc = .thread 5 ∧ aTask.fault = none := by decide

theorem witness_sch_post : let s := started
    Accepted s aCmd 0x30 ∧ flag s 0x68010 0 = true ∧ domOwner s 2 = some 0 ∧ canIssue s 0 = true ∧ issueHeads s = [] ∧
      (ticket s 0).inUse = false := by decide

/-- Function 0 is bound: partition 0 is the supervisor. -/
def bound (s : State) : State := { s with flash := { s.flash with bindFunc := some 0 } }

theorem witness_fdrop : let s := bound (ticketed 0 0)
    Accepted s aCmd 0x31 ∧ isSup s 0 = true ∧ OpenTicket s (ticket s 9).part 9 0x814009 := by decide

theorem witness_fdrop_refused : Accepted (ticketed 0 0) aCmd 0x31 ∧ isSup (ticketed 0 0) 0 = false := by decide

theorem witness_hlt_query : let s := ticketed 0 0
    Accepted s aCmd 0x32 ∧ flag s 0x68010 0 = true ∧ domOwner s 2 = some 0 ∧ hasHost s 0 = true ∧
      flag s (0x68000 + 8 * 9) 0 = false := by decide

/-- Partition 0 has the range 0x4000000 to 0x40FFFFF. -/
def ranged : State := wrDev (wrDev (wrDev started 0x71000 0x80040000) 0x71004 0x40FFF) 0xC0004 15

theorem witness_seg_write : let s := ranged
    let desc : BitVec 128 := 0x0400000000000000_000FFFFF000083C0
    let g : Seg := ⟨0x4000000, 0, 0xFFFFF, 0x83C0⟩
    isSup s 0 = false ∧ Accepted s aCmd 0x40 ∧ g = ⟨desc.extractLsb' 96 32, desc.extractLsb' 64 32, desc.extractLsb' 32 32,
      (desc.extractLsb' 0 16).zeroExtend 32⟩ ∧ g.w3.toNat / 16 % 8 = 4 ∧ g.w3.getLsbD 10 = false ∧
      g.w3.toNat / 2 ^ 12 % 8 = 0 ∧ memRange s 0 0 = some (0x4000000, 0x40FFFFF) ∧
      g.w0.toNat + (g.w2.toNat + g.w3.toNat % 16 * 2 ^ 32) = 0x40FFFFF ∧ 0x40FFFFF < jnlBase s ∧
      memRange (wrDev s 0xC0004 0) 0 0 = some (0x4000000, 0x40FFFFF) ∧ jnlBase (wrDev s 0xC0004 0) ≤ 0x40FFFFF ∧
      0x4000000 < jnlBase (wrDev s 0xC0004 0) + 2 ^ 30 := by decide

theorem witness_seg_present : let s := ranged
    isSup s 0 = false ∧ Accepted s aCmd 0x41 ∧ segInFlight s 0 1023 s.now = false := by decide

theorem witness_seg_read : let s := ranged
    isSup s 0 = false ∧ Accepted s aCmd 0x42 ∧ hasHost s 0 = true := by decide

/-- Thread 5 has an asynchronous fault pending. -/
def pended : State :=
  let s := running started (regs 1 2 3)
  setThr s 5 { thr s 5 with async := [(3, 0), (5, 0)] }

theorem witness_async_fault : let s := pended
    thrStopped s 5 = false ∧ (thr s 5).halted = false ∧ (thr s 5).haltReq = false ∧ (thr s 5).mode = .run ∧ inBoundary s 5 = false ∧
      (thr s 5).async = (3, 0) :: [(5, 0)] ∧ thrTask s 5 = some 7 ∧ taskSt s 7 = some aTask ∧ freeSlot s 0 = some 0 := by decide

/-- Task 7 stands inSlot in slot 18 of core 1. -/
def inSlot : State :=
  putSlot (putTask (setTicket started 9 { inUse := true, gen := 5, dom := 2 }) 7 { aTask with loc := .slot 18 }) 18
    { ctx := { task := some 7 }, agent := 40, fault := some ⟨1, 2, 0, 0, 0⟩ }

theorem witness_faulted : let s := inSlot
    slotSt s 18 = some { ctx := { task := some 7 }, agent := 40, fault := some ⟨1, 2, 0, 0, 0⟩ } ∧
      taskSt s 7 = some { aTask with loc := .slot 18 } ∧ (0x22 : BitVec 16).toNat = 18 / 16 * 32 + 18 % 16 ∧
      Accepted s aCmd 0x43 ∧ Accepted s aCmd 0x44 ∧ Accepted s aCmd 0x45 ∧ ticketDone s 7 = false := by decide

theorem witness_no_fault : slotSt started (0x22 / 32 % 128 * 16 + 0x22 % 16) = none ∧ Accepted started aCmd 0x43 ∧
    Accepted started aCmd 0x44 ∧ Accepted started aCmd 0x45 := by decide

theorem witness_recall : let s := bound (running started {})
    Accepted s aCmd 0x46 ∧ isSup s 0 = true ∧ (40 : BitVec 16).toNat = (5 : Thr).toNat * 8 ∧ thrTask s 5 = some 7 ∧
      (thr s 5).mode = .run := by decide


/-- Lock group 0 enabled for partition 0, whose host may acquire; its hold limit is 10 us. -/
def hostLocked (l : Lock) : State :=
  setLock (wrDev (wrDev (wrDev started 0x80800 3) 0x80804 0x10000) 0x80810 10) 255 l

theorem witness_host_locks : let s := hostLocked { forced := true }
    flag s 0x80800 0 = true ∧ flag s 0x80800 1 = true ∧ flag s 0x80804 16 = true ∧ (lock s 255).waiters = [] ∧
      Accepted s aCmd 0x50 ∧ (lock s 255).holder = .free := by decide

theorem witness_acquire_waits : let s := putTask (hostLocked { holder := .task 7 }) 7 aTask
    Accepted s aCmd 0x50 ∧ (lock s 255).holder = .task 7 ∧ (lock s 255).waiters = [] ∧ taskSt s 7 = some aTask ∧
      hostWaiters s < 2048 := by decide

/-- The command waits for lock 0, which task 7 holds, until 1,000 ns; lock 255 is free. -/
def lockWaiting (now : Nat) : State :=
  let s := setLock (hostLocked {}) 0 { holder := .task 7, waiters := [{ who := .host aCmd, prio := 1, deadline := some 1000 }] }
  { s with now := now }

theorem witness_acquire_timeout : let s := lockWaiting 1000
    Accepted s aCmd 0x50 ∧ (lock s 255).waiters = [] ∧
      hostWaitsOn s aCmd = some (0, { who := .host aCmd, prio := 1, deadline := some 1000 }) ∧ 1000 ≤ s.now := by decide

theorem witness_acquire_timeout_early :
    hostWaitsOn (lockWaiting 999) aCmd = some (0, { who := .host aCmd, prio := 1, deadline := some 1000 }) ∧
      (lockWaiting 999).now < 1000 := by decide

theorem witness_host_release : let s := hostLocked { holder := .host 0, orphan := true }
    Accepted s aCmd 0x51 ∧ Accepted s aCmd 0x52 ∧ hasHost s 0 = true ∧ (lock s 255).holder = .host 0 ∧
      (lock s 255).waiters = [] := by decide

theorem witness_lock_watchdog : let s := { hostLocked { holder := .host 0 } with tb := { tai := 10001 } }
    (lock s 255).holder = .host 0 ∧ (lock s 255).reported = false ∧ rdDev s 0x80810 % 2 ^ 20 = 10 ∧
      (lock s 255).since + 1000 * 10 < tai s ∧ s.gpl.svcq.length < 4096 := by decide

theorem witness_slot_hold : let s := { channelled (hostLocked {}) with now := 10000000 }
    (chSlot s 17).st = .reserved 7 0 ∧ 1000000 * max 1 (min 1000 (fld s 0x80000 9 0)) = 10000000 ∧ 0 + 10000000 ≤ s.now := by
  decide

/-- The buffer at 0x10800 of partition 0's pool 1 belongs to its host. -/
def hostBuffer (shares : Nat) : State :=
  setTag (buffered started) 0x10800 { owner := 0x4000, shares := shares, alloc := true }

theorem witness_pool : PoolFor (hostBuffer 0) 1 0 := by unfold PoolFor; decide

theorem witness_buf_alloc : let s := hostBuffer 0
    Accepted s aCmd 0x60 ∧ poolReserve s 1 < poolFree s 1 ∧ findBuf s 1 = some 0x11000 := by decide

theorem witness_buf_owned : let s := hostBuffer 0
    (ptrCheck s 0x10800).1 = .ok 1 ∧ (bufTag s 0x10800).alloc = true ∧ (bufTag s 0x10800).owner = 0x4000 ∧
      Accepted s aCmd 0x60 ∧ Accepted s aCmd 0x62 ∧ hasHost s 0 = true ∧ (bufTag s 0x10800).shares = 0 ∧
      (bufTag s 0x10800).origin = none := by decide

theorem witness_buf_owned_check : ptrCheck (hostBuffer 4094) 0x10800 = (.ok 1, hostBuffer 4094) := by decide +kernel

theorem witness_buf_shared : (bufTag (hostBuffer 4094) 0x10800).shares < 4095 ∧ 0 < (bufTag (hostBuffer 1) 0x10800).shares := by
  decide

theorem witness_buf_reclaim : Accepted (bound (hostBuffer 0)) aCmd 0x61 ∧ isSup (bound (hostBuffer 0)) 0 = true ∧
    Accepted (hostBuffer 0) aCmd 0x61 ∧ isSup (hostBuffer 0) 0 = false := by decide

theorem witness_thread_buffers : let s := buffered (work 0 0 0)
    Runs s 5 0 ∧ TaskOn s 5 7 aTask 0 ∧ mfind (ctxNow s 5).tags 3 = none ∧ poolReserve s 1 < poolFree s 1 ∧
      findBuf s 1 = some 0x10800 ∧ aTask.hold.length < 8 ∧ (ptrCheck s 0x10000).1 = .ok 1 ∧
      (bufTag s 0x10000).alloc = true ∧ (bufTag s 0x10000).owner = 40 ∧ (bufTag s 0x10000).origin = none := by decide


/-- Bank 2 and profile 3 of partition 0, 20-octet keys, the profile searching bank 2 alone; two entries, of handle indices 6
and 7, the second matching every key. -/
def searching : State :=
  let s := wrDev (wrDev (wrDev started 0x41108 0x211) 0x440C0 0x41) 0x440C4 4
  { s with src := { s.src with ents := [(8195, { v := 5, m := 0xFF, prio := 1, ad := 77, index := 6 }),
                                        (8200, { v := 0, m := 0, prio := 2, ad := 78, index := 7 })] } }

theorem witness_src_insert : let s := searching
    Accepted s aCmd 0x10 ∧ bankOk s 0 2 = true ∧ rebalDue s 2 = false ∧ mrising s.src.ents = true ∧
      fullGroup (bankEnts s 2) (bankSlots s 2) (holeInt s 2) = none ∧ (∀ jg ∈ bankEnts s 2, jg.1 < bankSlots s 2) ∧
      s.src.ents.length < 2 ^ 18 ∧ (bankEnts s 2).length < bankSlots s 2 - bankSlots s 2 / holeInt s 2 ∧
      ((bankEnts s 2).map (·.2)).Pairwise (fun x y => x.prio ≤ y.prio) := by decide +kernel

theorem witness_src_handle : let s := searching
    findHandle s 6 = some (8195, { v := 5, m := 0xFF, prio := 1, ad := 77, index := 6 }) ∧ bankOwner s (8195 / 4096) = some 0 ∧
      Accepted s aCmd 0x11 ∧ Accepted s aCmd 0x12 ∧ Accepted s aCmd 0x13 ∧ hasHost s 0 = true := by decide

theorem witness_src_bad_handle : findHandle searching 0x40006 = none ∧ findHandle searching (2 ^ 22) = none := by decide

theorem witness_src_flush :
    let s1 := { searching with gpl := { searching.gpl with waiting := [⟨aCmd, 0, .srcInsert 2 []⟩] } }
    Accepted searching aCmd 0x15 ∧ bankOk searching 0 2 = true ∧ searching.gpl.waiting.any (waitsBank 2) = false ∧
      Accepted s1 aCmd 0x15 ∧ bankOk s1 0 2 = true ∧ s1.gpl.waiting.any (waitsBank 2) = true := by decide

theorem witness_src_search_thread : let s := running searching (regs 0 0 0)
    Runs s 5 0 ∧ thrPart s 5 = some 0 ∧ profOk s 0 3 = true ∧ (∀ e ∈ s.src.ents, e.2.bad = false) ∧
      mfind (ctxNow s 5).tags 0 = none ∧ 492 + profOctets s 3 ≤ 512 ∧ 480 + 32 ≤ 512 := by decide

theorem witness_src_search : let s := searching
    let mask := profWord s 3 1 + profWord s 3 2 * 2 ^ 32
    Accepted s aCmd 0x14 ∧ hasHost s 0 = true ∧ mrising s.src.ents = true ∧ profOk s 0 3 = true ∧
      ∀ b, b < 64 → mask / 2 ^ b % 2 = 1 → bankOk s 0 (b * 4096 / 4096) = true ∧
        widthCode (srcBank s (b * 4096 / 4096)) = widthCode (profWord s 3 0) := by decide

theorem witness_rebalance : let s := { searching with src := { searching.src with rebal := [2] } }
    rebalDue s 2 = true ∧ rebalDue s 3 = false ∧ mrising s.src.ents = true ∧ s.gpl.waiting = [] := by decide

theorem witness_search_scrub : let s := searching
    mfind s.src.ents (2 * 4096 + 3) = some { v := 5, m := 0xFF, prio := 1, ad := 77, index := 6 } ∧ bankOwner s 2 = some 0 := by
  decide

/-- Host memory holding octets from an address. -/
def hosting (s : State) (a : Nat) (l : List Nat) : State := hostWrite s 0 a (l.map (BitVec.ofNat 8))

/-- The flow table enabled with 2^10 buckets, and a request block for the flow key 1, 2, ..., 40 at 0x1000. -/
def tabled (op : Nat) (present : Bool) : State :=
  let s := hosting (wrDev started 0x50000 0x15) 0x1000
    ([op, 0, 0, 0] ++ (List.range 40).map (· + 1) ++ (List.range 20).map (· + 100))
  let key := (List.range 40).map (fun i => BitVec.ofNat 8 (i + 1))
  let data := (List.range 20).map (fun i => BitVec.ofNat 8 (i + 100))
  let b := ((TKey.flow key).buckets s 0).1
  if present then { s with tbl := { s.tbl with flow := [(4 * b, { key := key, part := 0, data := data, h := true, a := true, static := true })] } }
  else s

theorem witness_table_absent : let s := tabled 1 false
    let k := TKey.flow ((hostRead s 0 0x1000 64).drop 4 |>.take 40)
    Accepted s aCmd 0x01 ∧ hasHost s 0 = true ∧ flag s 0x50000 0 = true ∧ tblPoison s 0 k = false ∧
      oct (hostRead s 0 0x1000 64) 1 = 0 ∧ oct (hostRead s 0 0x1000 64) 3 = 0 ∧ oct (hostRead s 0 0x1000 64) 0 = 1 ∧
      tFind s 0 k = none ∧ overQuota s 0 k = false ∧
      (placeSlot s.tbl.flow (k.buckets s 0).1 (k.buckets s 0).2).isSome = true := by decide +kernel

theorem witness_table_present : let s := tabled 6 true
    let k := TKey.flow ((hostRead s 0 0x1000 64).drop 4 |>.take 40)
    Accepted s aCmd 0x01 ∧ hasHost s 0 = true ∧ flag s 0x50000 0 = true ∧ tblPoison s 0 k = false ∧
      oct (hostRead s 0 0x1000 64) 1 = 0 ∧ oct (hostRead s 0 0x1000 64) 3 = 0 ∧ oct (hostRead s 0 0x1000 64) 0 = 6 ∧
      (tFind s 0 k).map (fun v => v.loc) = some (.flow (4 * (k.buckets s 0).1)) ∧
      (tFind s 0 k).map (fun v => v.data) = (mfind s.tbl.flow (4 * (k.buckets s 0).1)).map (fun e => e.data) ∧
      (mfind s.tbl.flow (4 * (k.buckets s 0).1)).map (fun e => e.data.length) = some 20 := by decide +kernel

/-- An address to learn, with the L2 table enabled at 2^10 buckets, its sweep on, and entries. -/
def learning (l : Map L2Ent) : State :=
  let s := wrDev started 0x50004 0x4B15
  { s with tbl := { s.tbl with l2 := l, learnQ := [⟨0, 5, 0x112233, 9⟩] } }

/-- The first bucket of that address. -/
def learnBucket : Nat := ((TKey.l2 5 0x112233).buckets (learning []) 0).1

/-- Its entry at a port. -/
def learned (port : Nat) (h a static hd : Bool) : L2Ent :=
  { part := 0, vid := 5, mac := 0x112233, port := port, h := h, a := a, static := static, hd := hd, ltime := 0 }

theorem witness_learn_new : let s := learning []
    flag s 0x50004 18 = false ∧ inReset s 0 = false ∧ flag s 0x50004 0 = true ∧ overQuota s 0 (.l2 5 0x112233) = false ∧
      (placeSlot s.tbl.l2 ((TKey.l2 5 0x112233).buckets s 0).1 ((TKey.l2 5 0x112233).buckets s 0).2).isSome = true := by
  decide +kernel

theorem witness_learn_known : let s := learning [(4 * learnBucket, learned 9 false true false false)]
    mfind s.tbl.l2 (4 * learnBucket) = some (learned 9 false true false false) ∧
      4 * learnBucket / 4 = ((TKey.l2 5 0x112233).buckets s 0).1 ∧ inReset s 0 = false ∧ flag s 0x50004 0 = true := by
  decide +kernel

theorem witness_learn_moved : let s := learning [(4 * learnBucket, learned 8 false true false false)]
    mfind s.tbl.l2 (4 * learnBucket) = some (learned 8 false true false false) ∧
      4 * learnBucket / 4 = ((TKey.l2 5 0x112233).buckets s 0).1 := by decide +kernel

theorem witness_sweep : let s := learning [(0, learned 9 true false false false)]
    fld s 0x50004 17 6 ≠ 0 ∧ sweepNext s true = (0, 0) ∧ 0 ≤ s.now ∧ 1 ≠ (sweepNext s true).1 ∧
      mfind s.tbl.l2 0 = some (learned 9 true false false false) := by decide

/-- The second bucket's turn comes later. -/
theorem witness_sweep_early : let s := { learning [] with tbl := { (learning []).tbl with sweepPos := [(1, 1)] } }
    1 = (sweepNext s true).1 ∧ s.now < (sweepNext s true).2 := by decide


/-- Connections exist up to STIX 7; domain 2, domain 3 and queue 4 are partition 0's; service 63 frames by rule 2; STIX 7
holds the connection. -/
def framing (k : Conn) : State :=
  let s := wrDev (wrDev (outlets started) 0x40000 (2 * 7 + 1)) (0x40100 + 16 * 63) 2
  { s with stf := { s.stf with conns := mset {} s.stf.conns 7 k } }

theorem witness_stf_open : let s := framing {}
    7 ≤ fld s 0x40000 22 1 ∧ Accepted s aCmd 0x20 ∧ (conn s 7).state = 0 ∧ 1 ≤ svcRule s 63 ∧ svcRule s 63 ≤ 5 ∧
      (0x3000400000000 : Nat) / 2 ^ 48 % 2 ^ 16 = 3 ∧ (0x3000400000000 : Nat) / 2 ^ 32 % 2 ^ 16 = 4 ∧ flag s 0x68018 0 = true ∧ domOwner s 3 = some 0 ∧
      queueEn s 4 = true ∧ queueOwner s 4 = some 0 := by decide

theorem witness_stf_closed : let s := framing {}
    (conn s 7).state = 0 ∧ Accepted s aCmd 0x21 ∧ Accepted s aCmd 0x22 ∧ Accepted s aCmd 0x23 := by decide

theorem witness_stf_resync : let s := framing { state := 2, slowRsn := 0x22, d0 := { expSeq := 5, delta := 3 } }
    let k := conn s 7
    k.part = 0 ∧ k.tls = false ∧ k.d0.asm = none ∧ k.d1.asm = none ∧ k.rws = [] ∧ Accepted s aCmd 0x21 ∧ k.state = 2 ∧
      k.d0.infl = 0 ∧ k.d1.infl = 0 ∧ Accepted s aCmd 0x23 ∧ Accepted s aCmd 0x22 ∧ k.d0.inRec = false ∧
      k.d1.inRec = false ∧ hasHost s 0 = true := by decide

theorem witness_stf_in_flight : let s := framing { state := 1, d0 := { infl := 1 } }
    Accepted s aCmd 0x23 ∧ 0 < (conn s 7).state ∧ (conn s 7).part = 0 ∧ 0 < (conn s 7).d0.infl ∧ s.gpl.waiting = [] := by
  decide


/-- A UDP packet in an Ethernet frame of 60 octets, with `n` VLAN tags. -/
def udpFrame (n : Nat) : List Octet :=
  let l := [2, 0, 0, 0, 0, 1, 2, 0, 0, 0, 0, 2] ++ (List.replicate n [0x81, 0, 0, 5]).flatten ++ [8, 0, 0x45, 0, 0, 32, 0, 0, 0, 0, 64, 17,
    0, 0, 10, 0, 0, 1, 10, 0, 0, 2, 0, 7, 0, 9, 0, 12, 0, 0, 1, 2, 3, 4]
  (l ++ List.replicate (60 - l.length) 0).map (BitVec.ofNat 8)

/-- The frame of port 127 in the buffer at 0x10000, with its FCS 64 octets long. -/
def aFrame : RxFrame := { port := 127, buf := 0x10000, len := 64, ts := 33 }

/-- Port 127's frame stands before the parser; fixed profile 63 is the one for its signature. -/
def parsing (n : Nat) (gen : Bool) : State :=
  let s := devWrite (buffered started) 0x10000 (udpFrame n)
  { s with
      par := { s.par with rx := [(127, [aFrame])] },
      regs := { s.regs with parActive := [(0x303FC, if gen then 0x10000 else 0),
        (0x307F0, BitVec.ofNat 32 (sigOf (udpFrame 0)).bits), (0x307F4, 0xFFFFFFFF), (0x307F8, 1)] } }

theorem witness_parse_fixed : let s := parsing 0 false
    let d := devRead s 0x10000 60
    let sig := (sigOf d).bits
    mget [] s.par.rx 127 = aFrame :: [] ∧ laneFull (laneOf s 127) = false ∧ d = udpFrame 0 ∧ rdPar s (0x30408 + 16 * 63) % 2 = 1 ∧
      sig &&& rdPar s (0x30404 + 16 * 63) = rdPar s (0x30400 + 16 * 63) &&& rdPar s (0x30404 + 16 * 63) ∧
      (∀ j, j < 63 → ¬ rdPar s (0x30408 + 16 * j) % 2 = 1) ∧ tagCount d < 3 := by decide +kernel

theorem witness_parse_tagged : ∀ g ∈ [true, false], let s := parsing 3 g
    let d := devRead s 0x10000 60
    mget [] s.par.rx 127 = aFrame :: [] ∧ laneFull (laneOf s 127) = false ∧ tagCount d = 3 ∧
      (rdPar s (0x30200 + 4 * 127)).testBit 16 = g := by decide +kernel

theorem witness_parse_none : let s := { parsing 0 true with regs := { (parsing 0 true).regs with parActive := [] } }
    mget [] s.par.rx 127 = aFrame :: [] ∧ laneFull (laneOf s 127) = false ∧
      (∀ k, k < 64 → ¬ rdPar s (0x30408 + 16 * k) % 2 = 1) ∧ (rdPar s (0x30200 + 4 * 127)).testBit 16 = false := by
  decide +kernel

theorem witness_graph_walk : let s := parsing 0 true
    let s := { s with par := { s.par with walks := [(15, [127])], lane := [(127, [⟨aFrame, none, false⟩])] } }
    mget [] s.par.walks 15 = 127 :: [] ∧ laneOf s 127 = [] ++ ⟨aFrame, none, false⟩ :: [] := by decide

theorem witness_release_waits : ∀ g r w more, laneOf (parsing 0 true) 127 ≠ ⟨g, some r, w⟩ :: more := by
  intro g r w more h; exact nomatch h

/-- Port 127's oldest frame has this record; profile 0 is partition 0's. -/
def parsed (r : List Octet) : State :=
  let s := wrDev (parsing 0 true) 0x44000 0x41
  { s with par := { s.par with rx := [], lane := [(127, [⟨aFrame, some r, false⟩])] } }

theorem witness_release : let r := octs (udpFrame 0) 0 0 ++ zeros 64
    laneOf (parsed r) 127 = ⟨aFrame, some r, false⟩ :: [] ∧ oct r 1 = 0 := by decide

theorem witness_release_slow : let r := [0xFF, 1] ++ zeros 62
    let s := parsed r
    laneOf s 127 = ⟨aFrame, some r, false⟩ :: [] ∧ oct r 1 ≠ 0 ∧ jnlFull s = false ∧ aFrame.port = 127 ∧ defaultPart s 127 = some 0 ∧
      inBolt s 0 = false ∧ inReset s 0 = false ∧ excWaiting s 0 < 256 ∧ 1000 ≤ (bucket s 0).pkt ∧
      8 * fieldBe r 6 2 ≤ (bucket s 0).bit ∧ r.length = 64 := by decide

theorem witness_swap : let s := bound State.reset
    supBound s = true ∧ inReset s 0 = false ∧ parSwapping s = false ∧ (∀ l, mget [] s.par.walks l = []) ∧
      parSwapping { s with par := { s.par with swapAt := some 0 } } = true := by
  exact ⟨by decide, by decide, by decide, fun _ => rfl, by decide⟩

/-- A TCP segment whose flags octet is given, with no payload. -/
def tcpFrame (flags : Nat) : List Octet :=
  ([2, 0, 0, 0, 0, 1, 2, 0, 0, 0, 0, 2, 8, 0, 0x45, 0, 0, 40, 0, 0, 0, 0, 64, 6,
    0, 0, 10, 0, 0, 1, 10, 0, 0, 2, 0, 7, 0, 9, 0, 0, 1, 0, 0, 0, 2, 0, 0x50, flags, 1, 0, 0, 0, 0, 0] ++ List.replicate 6 0).map
    (BitVec.ofNat 8)

/-- Its parse record: class 3, an IP packet with TCP, its header at 34, its payload at 54 of length 0. -/
def tcpRecord : List Octet :=
  ([3, 0, 0, 7, 127, 0, 0, 60] ++ List.replicate 8 0 ++ [0, 14, 0, 34, 0, 54, 0, 0] ++ (List.range 40).map (· + 1)).map (BitVec.ofNat 8)

/-- Class 3 looks flows up for profile 5 of partition 0; its flow's entry names STIX 7, which is framed. -/
def framed (flags : Nat) : State :=
  let s := wrDev (wrDev (wrDev (wrDev (framing { state := 1, d0 := { odom := 2, delta := 3 } }) 0x44140 0x41) 0x50000 0x15)
    0x51060 0x1403) 0x51064 0x10009CC
  let s := devWrite (buffered s) 0x10000 (tcpFrame flags)
  let key := flowKey s 3 tcpRecord
  let b := ((TKey.flow key).buckets s 0).1
  { s with
      tbl := { s.tbl with flow := [(4 * b,
        { key := key, part := 0, data := [0x80, 0, 0, 7] ++ zeros 16, h := true, a := true, static := true })] },
      par := { s.par with parsed := [⟨aFrame, tcpRecord⟩] } }

theorem witness_unframed : framedEntry (framed 0x10) (zeros 64) = none := by decide +kernel

theorem witness_framed : ∀ fl ∈ [0x10, 0x11], let s := framed fl
    ((framedEntry s tcpRecord).map (fun e => (e.1, fieldBe e.2.data 0 4))) = some (0, 0x80000007) ∧
      jnlEn s = false ∧ noService s 0 = false ∧
      flag s 0x40000 0 = true ∧ 7 ≤ fld s 0x40000 22 1 ∧ (conn s 7).state = 1 ∧ (conn s 7).part = 0 ∧
      s.mem.poison = [] ∧ (conn s 7).rws = [] ∧ fieldBe tcpRecord 18 2 = 34 ∧
      oct (devRead s 0x10000 60) 47 % 8 = fl % 2 ∧ (oct (devRead s 0x10000 60) 47).testBit 5 = false ∧
      fieldBe tcpRecord 22 2 = 0 := by decide +kernel


/-- The oldest task before the classifier has class `c` in its record. -/
def classing (s : State) (c : Nat) : State :=
  { s with par := { s.par with toClassify := [⟨{ anItem with precd := BitVec.ofNat 8 c :: zeros 63, port := 127 }⟩] } }

theorem witness_classify_no_class : let s := classing started 128
    s.par.toClassify = [⟨{ anItem with precd := 128 :: zeros 63, port := 127 }⟩] ∧ (anItem).kind = 0 ∧ jnlEn s = false ∧
      127 < oct (128 :: zeros 63) 0 ∧ defaultPart s 127 = none := by decide

theorem witness_classify_no_profile : let s := classing (wrDev started 0x51FE0 1) 127
    oct (127 :: zeros 63) 0 = 127 ∧ rdDev s (0x51000 + 32 * 127) % 2 = 1 ∧ profWord s 0 0 % 2 = 0 ∧ jnlEn s = false ∧
      defaultPart s 127 = none := by decide

/-- Class 3 is decided by profile 3 with this default action; the partition's issue queue holds `n` items. -/
def profiled (n : Nat) : State :=
  let s := wrDev (wrDev (wrDev searching 0x51060 0x40C01) 0x51078 0x40023000) 0x5107C 0x40050000
  classing { s with hlt := { s.hlt with issueQ := [(0, List.replicate n anItem)] } } 3

theorem witness_classify : ∀ n ∈ [511, 512], let s := profiled n
    let w0 := rdDev s (0x51000 + 32 * 3)
    w0 % 2 = 1 ∧ w0 / 2 ^ 10 % 256 = 3 ∧ profWord s 3 0 % 2 = 1 ∧ profOwner s 3 = some 0 ∧ w0 / 2 % 2 = 0 ∧ w0 / 16 % 8 = 0 ∧
      w0 / 2 ^ 9 % 2 = 0 ∧ w0.testBit 18 = true ∧ noService s 0 = false ∧ mget [] s.hlt.holdQ 0 = [] ∧
      (mget [] s.hlt.issueQ 0).length = n := by decide +kernel

/-- The search makes a hit: entry 7 matches every key. No entry: a miss. -/
theorem witness_classify_search : let s := profiled 0
    (runSearch s 0 0x8005 3 (zeros 20)).2.1 = false ∧ oct (runSearch s 0 0x8005 3 (zeros 20)).1 1 % 2 = 1 ∧
      (let s := { s with src := { s.src with ents := [] } }
       (runSearch s 0 0x8005 3 (zeros 20)).2.1 = false ∧ oct (runSearch s 0 0x8005 3 (zeros 20)).1 1 % 2 = 0) := by
  decide +kernel

/-- The oldest released result of the Halter: an item of a kind, its buffer at 0x10000 holding a UDP packet. -/
def released (it : Item) (eflags len dest : Nat) : State :=
  let s := setTag (devWrite (buffered (outlets started)) 0x10000 (udpFrame 0)) 0x10000 { owner := halterAgent, alloc := true }
  { s with hlt := { s.hlt with
      egressIn := [{ item := it, res := { disp := .egress, buf := 0x10000, len := len, dest := dest, eflags := eflags }, ticket := 0 }] } }

theorem witness_egress : ∀ e ∈ [0, 4], let s := released anItem e 60 4
    audited s anItem.audit = false ∧ (bufTag s 0x10000).alloc = true ∧ (bufTag s 0x10000).owner = halterAgent ∧
      (findHdrs (devRead s 0x10000 60)).ip = some (14, true) ∧ 1 < oct (devRead s 0x10000 60) (14 + 8) ∧
      s.mem.poison = [] ∧ (bufTag s 0x10000).shares = 0 := by decide +kernel

theorem witness_egress_ttl : let s := devWrite (released anItem 4 60 4) (0x10000 + 22) [1]
    (findHdrs (devRead s 0x10000 60)).ip = some (14, true) ∧ oct (devRead s 0x10000 60) (14 + 8) ≤ 1 := by decide +kernel

/-- A message of 50 octets on STIX 7, segments of at most 20 octets. -/
def sending : State :=
  let s := released { anItem with kind := 1, stix := 7 } 0 50 0
  { s with stf := { s.stf with conns := [(7, { state := 1, d0 := { mss := 20, eq := 4 } })] } }

theorem witness_egress_message : let s := sending
    s.hlt.egressIn.map (·.tls) = [false] ∧ 0 < 50 ∧ 0 < ((conn s 7).dir 0).mss := by decide

/-- Port 127 enabled, at 8,000 octets at most, its link up. -/
def openPort (x : Port) : State :=
  let s := wrDev (wrDev (buffered started) 0x1FF00 (0x7D01)) 0x1FF04 0xFFFFF
  setPort (wrDev (wrDev (wrDev (wrDev s 0x903FC 2) 0x90420 0x200) 0x90424 0xC000040) 0x90428 1) 127 { x with linkUp := true }

/-- A frame of egress queue 4064 + i of port 127, from the buffer at 0x10000. -/
def aQFrame : QFrame := { part := 0, addr := 0x10000, plen := 70, buf := some 0x10000 }

/-- Queue 4064 + i of port 127 holds one frame, whose buffer is the egress agent's. -/
def queued (x : Port) (i : Nat) : State :=
  let s := wrDev (openPort x) (0xA0000 + 8 * (4064 + i)) 1
  let s := setTag s 0x10000 { owner := egressAgent, alloc := true }
  { s with egr := { s.egr with queues := [(4064 + i, [aQFrame])] } }

theorem witness_transmit : let s := queued {} 31
    s.gpl.waiting = [] ∧ hobArmed s 255 = false ∧ (hobUnit s 255).held = none ∧ txUp s 127 = true ∧ s.hkc.rein = none ∧
      (portSt s 127).tx = none ∧ portPaused s 127 = false ∧ pRate s 127 = 0 ∧ (∀ j, j < 32 → qRate s (4064 + j) = 0) ∧
      queueOf s 4095 = [aQFrame] ∧ queueEligible s 4095 = true ∧ (∀ j, j < 31 → queueOf s (4064 + j) = []) ∧
      frameLen aQFrame ≤ maxLen s 127 ∧ (prtCfg s 127).testBit 18 = false ∧ (groupSt s 511).ptr < 8 := by decide

theorem witness_transmit_down : let s := setPort (queued {} 0) 127 {}
    s.gpl.waiting = [] ∧ hobArmed s 255 = false ∧ (hobUnit s 255).held = none ∧ txUp s 127 = false ∧
      mrising s.egr.queues = true := by decide

/-- The frame port 127 is sending. -/
def aTx : TxFrame := { octets := zeros 70, queue := 4095, q := aQFrame, ts := 0 }

theorem witness_transmit_busy : let s := queued { tx := some aTx } 0
    let s1 := queued { pauseUntil := some 1 } 0
    s.gpl.waiting = [] ∧ txUp s 127 = true ∧ (portSt s 127).tx ≠ none ∧ txUp s1 127 = true ∧ portPaused s1 127 = true := by decide

theorem witness_transmit_end : let s := queued { tx := some aTx } 0
    hobArmed s 255 = false ∧ (hobUnit s 255).held = none ∧ (portSt s 127).tx = some aTx ∧ aTx.loop = false ∧ s.gpl.waiting = [] ∧
      aTx.q.tx = none ∧ aTx.q.kind ≠ 4 ∧ aTx.q.resultEnd = true ∧ framePoisoned s aTx.q = false ∧
      (bufTag s 0x10000).alloc = true ∧ (bufTag s 0x10000).owner = egressAgent ∧ (bufTag s 0x10000).shares = 0 ∧
      (bufTag s 0x10000).origin = none := by decide

theorem witness_refill : mrising (wrDev (wrDev started 0xABFFC 0xFFFF0001) 0xB01FC 0x10001).regs.dev = true := by decide

theorem witness_reception : let s := openPort {}
    portEn s 127 = true ∧ (portSt s 127).linkUp = true ∧ portLoop s 127 = false ∧ s.hkc.dbolt = false ∧
      bitsOf (prtCfg s 127) 17 16 = 0 ∧ hobArmed s 254 = false ∧ (hobUnit s 254).held = none ∧
      admitRun s 127 = .run 0x20000 ∧ (udpFrame 0).length = 60 ∧ 64 ≤ maxLen s 127 ∧ fieldBe (udpFrame 0) 12 2 ≠ 0x8808 ∧
      s.mem.poison = [] := by decide +kernel

theorem witness_reception_closed : ¬ (portEn started 127 = true ∧ (portSt started 127).linkUp = true) := by decide

theorem witness_reception_refused : let s := wrDev (openPort {}) 0x90428 0
    portEn s 127 = true ∧ (portSt s 127).linkUp = true ∧ admitRun s 127 = .refused false ∧ s.hkc.dbolt = false ∧
      hobArmed s 254 = false ∧ (hobUnit s 254).held = none := by decide +kernel

/-- A PAUSE, and a PFC for class 7, of 5 quanta. -/
def pauseFrames : List (List Octet) :=
  [[1, 0x80, 0xC2, 0, 0, 1, 2, 0, 0, 0, 0, 2, 0x88, 8, 0, 1, 0, 5] ++ zeros 42,
   [1, 0x80, 0xC2, 0, 0, 1, 2, 0, 0, 0, 0, 2, 0x88, 8, 1, 1, 0, 0x80] ++ zeros 14 ++ [0, 5] ++ zeros 26]

theorem witness_pause : ∀ d ∈ pauseFrames, 60 ≤ d.length ∧ d.length + 4 ≤ maxLen (openPort {}) 127 ∧ fieldBe d 12 2 = 0x8808 ∧
    portEn (openPort {}) 127 = true ∧ portLoop (openPort {}) 127 = false ∧
    (fieldBe d 14 2 = 1 ∧ fieldBe d 16 2 = 5 ∨
      fieldBe d 14 2 = 0x101 ∧ fieldBe d (18 + 2 * 7) 2 = 5 ∧ (fieldBe d 16 2).testBit 7 = true) := by decide

theorem witness_pause_expiry : (portSt (openPort { pauseUntil := some 0 }) 127).pauseUntil = some 0 ∧
    mfind (portSt (openPort { pfcUntil := [(7, 1)] }) 127).pfcUntil 7 = some 1 := by decide

theorem witness_pause_repeat : let s := openPort { xoff := [(8, true)] }
    let s1 := wrDev s 0x1FF00 0x17D01
    (portSt s 127).linkUp = true ∧ s.hkc.dbolt = false ∧ (portSt s 127).xoff = [(8, true)] ∧ bitsOf (prtCfg s 127) 17 16 ≠ 1 ∧
      (portSt s1 127).linkUp = true ∧ s1.hkc.dbolt = false ∧ (portSt s1 127).xoff = [(8, true)] ∧
      bitsOf (prtCfg s1 127) 17 16 = 1 ∧ portLoop s1 127 = false := by decide

/-- MODE, FEC and the mode the link comes up in. -/
theorem witness_link : ∀ m ∈ [(1, 3, 1), (2, 0, 2), (2, 1, 3), (2, 2, 2), (3, 0, 4), (3, 1, 5), (3, 2, 6), (3, 3, 4)],
    let s := wrDev (openPort {}) 0x1007C (m.1 + 4 * m.2.1)
    portEn s 127 = true ∧ fld s (0x10000 + 4 * (127 / 4)) 1 0 = m.1 ∧ fld s (0x10000 + 4 * (127 / 4)) 3 2 = m.2.1 ∧
      m.2.2 < 16 ∧ s.hkc.dbolt = false := by decide

theorem witness_link_down : let s := bound (openPort {})
    (∀ j, j / 4 = 31 → (portSt s j).tx = none ∧ (hobUnit s (2 * j)).held = none ∧ (hobUnit s (2 * j + 1)).held = none) ∧
      supBound s = true ∧ inReset s 0 = false ∧ auditLocked s = false ∧ s.gpl.svcq.length < 4096 ∧ s.gpl.waiting = [] ∧
      (let w : Waiting := ⟨aCmd, 5, .outside 0xC1 (some 31)⟩
       ({ s with gpl := { s.gpl with waiting := [w] } } : State).gpl.waiting = [w]) := by
  refine ⟨fun j h => ?_, by decide⟩
  obtain rfl | rfl | rfl | rfl : j = 124 ∨ j = 125 ∨ j = 126 ∨ j = 127 := by omega
  all_goals decide

theorem witness_hobble_arm : let s := wrDev (bound started) 0x27F98 7
    supBound s = true ∧ inReset s 0 = false ∧ auditLocked s = false ∧ (hobUnit s 255).held = none ∧ hobReg s 255 0x18 ≠ 0 ∧
      jnlEn s = false ∧ hobArmed s 255 = false := by decide

/-- Ingress unit 254 armed, holding a frame since 10 ns. -/
def holding (now : Nat) : State :=
  let s := wrDev (openPort {}) 0x27F00 1
  { setHob s 254 { held := some { octets := udpFrame 0, buf := 0x20000, ts := 9 }, heldAt := 10 } with now := now }

theorem witness_hobble_hold : ∀ now ∈ [1000009, 1000010], let s := holding now
    hobArmed s 254 = true ∧ (hobUnit s 254).held = some { octets := udpFrame 0, buf := 0x20000, ts := 9 } ∧
      (hobUnit s 254).passed = 0 ∧ (hobUnit s 254).heldAt = 10 ∧ s.now = now ∧
      ({ octets := udpFrame 0, buf := 0x20000, ts := 9 } : HobFrame).fcsOk = true := by decide

/-- The instruction store of cluster 0 holds the words at 16 and 17; descriptor 0 of partition 0 grants them. -/
def fetching (a b : W36) (pc : Nat) : State :=
  let s := running started { regs 0 5 7 with pc := BitVec.ofNat 16 pc }
  { s with mem := { s.mem with
      ist := mset 0 (mset 0 [] 17 b) 16 a, segs := [(0, ⟨16, 0, 1, 0x8FA0⟩)] } }

theorem witness_issue : MayIssue (work 1 2 3) 5 ∧ (work 1 2 3).hkc.raised = [] ∧ thrPart (work 1 2 3) 5 = some 0 ∧
    ((ctxNow (work 1 2 3) 5).pd ((1 : Gd).toNat % 8) != bitOf (1 : Gd).toNat 3) = false := by decide

theorem witness_fetch : ∀ pc ∈ [16, 17], let s := fetching 0x800840000 0xA00000000 pc
    MayIssue s 5 ∧ s.hkc.raised = [] ∧ thrPart s 5 = some 0 ∧ Fetches s 0 pc 1 := by unfold Fetches; decide

theorem witness_fetch_pair : let s := fetching 0x844300 0xA01100000 16
    MayIssue s 5 ∧ Fetches s 0 16 2 ∧ istWord s 0 16 = BitVec.ofNat 36 (1 * 2 ^ 23 + (1 * 2 ^ 18 + 2 * 2 ^ 13 + 3 * 2 ^ 8)) := by
  unfold Fetches; decide

theorem witness_fetch_refused : let s := fetching 0x800000000 0 16
    let s := { s with mem := { s.mem with segs := [(0, ⟨17, 0, 1, 0x8FA0⟩)] } }
    MayIssue s 5 ∧ thrPart s 5 = some 0 ∧ 16 < ((segEnt s 0 0).view 0 0).base ∧ istWord s 0 16 = BitVec.ofNat 36 (2 ^ 35) := by
  decide


/-- Ring 3 of partition 0, of a kind, enabled, completing to ring 8; its W3. -/
def ringed (s : State) (kind w3 : Nat) : State :=
  let s := wrDev (wrDev s 0xD400C 1) 0xD4020 1
  wrRing (wrRing (wrRing s 3 2 (kind * 16 + 0x100 + 8 * 0x800)) 8 2 0x190) 3 3 w3

theorem witness_nop : Accepted (ringed started 2 0) aCmd 0x00 ∧ Accepted (ringed (bound started) 3 0) aCmd 0xC3 ∧
    InService started 0 ∧ opcRefused (ringed started 2 0) aCmd 0xC3 = true ∧ opcRefused (ringed started 3 0) aCmd 0x00 = true := by
  decide

/-- Partition 0 is held in reset. -/
def resetting : State := { started with hkc := { started.hkc with inReset := [0] } }

/-- Partition 0 is in Bolt. -/
def bolted : State := { started with hkc := { started.hkc with pbolt := [(0, { on := true })] } }

theorem witness_reset_bolt : inReset resetting 0 = true ∧ inReset bolted 0 = false ∧ inBolt bolted 0 = true := by decide

theorem witness_dma : let s := ringed ranged 2 0
    Accepted s aCmd 2 ∧ s.gpl.dma = [] ∧ s.gpl.waiting = [] ∧ funcOf s 0 < 8 ∧ 512 ≤ 512 - (0x1000 : BitVec 64).toNat % 512 ∧ 1 ≤ 512 - (511 : BitVec 64).toNat % 512 ∧
      MayReach s 0 0x4000000 512 ∧ MayReach s 0 0x40FFFFF 1 ∧ s.mem.poison = [] ∧ hasHost s 0 = true ∧
      ¬ MayReach s 0 0x40FFFFF 2 ∧ ¬ MayReach s 0 0 (2 ^ 24) := by decide +kernel

/-- A copy to an absent segment, paused at 7 ns. -/
def pausedCopy : Dma := { cmd := aCmd, mode := 0, raw := false, sel := 3, doff := 0, addr := 0x1000, len := 16, paused := some 7 }

/-- The state with that copy. -/
def pausing (now : Nat) : State :=
  { ringed (wrDev started 0xD0000 1) 2 0 with
      now := now, gpl := { started.gpl with dma := [pausedCopy] },
      mem := { started.mem with segs := [(3, ⟨0x4000010, 0, 99, 0x8F40⟩)] } }

theorem witness_absent_timeout : ∀ now ∈ [100006, 100007], let s := pausing now
    s.gpl.dma = [pausedCopy] ∧ pausedCopy.cmd = aCmd ∧ pausedCopy.paused = some 7 ∧
      dmaSides s pausedCopy pausedCopy.moved (chunkLen pausedCopy) = .absent ∧ inReset s 0 = false ∧
      100000 * max 1 (rdDev s 0xD0000 % 128) = 100000 ∧ s.now = now := by decide +kernel

theorem witness_transmit_command : let s := ringed (buffered (outlets started)) 2 1
    InService s 0 ∧ hasHost s 0 = true ∧ queueEn s 4 = true ∧ queueOwner s 4 = some 0 ∧ s.gpl.waiting = [] ∧
      queueDepth s 4 + egressPending s 4 < maxDepth s 4 ∧ (bufAlloc s (dmaAgent s 0) (rdRing s 3 3 % 64) false false).1 = 0 ∧
      (bufAlloc s (dmaAgent s 0) (rdRing s 3 3 % 64) false false).2.1 = 0x10800 ∧ s.mem.poison = [] ∧
      queueEn s 5 = false := by decide +kernel

/-- A delivery of a frame to ring 3, whose oldest buffer holds 64 octets. -/
def delivering (n : Nat) : State :=
  let s := ringed started 4 0
  let s := setRing s 3 { supply := [⟨0x3000, 64, 77, 5⟩] }
  { s with gpl := { s.gpl with deliv := [{ kind := .rx, part := 0, ring := 3, octets := List.replicate n 0xAB }] } }

theorem witness_delivery : ∀ n ∈ [0, 64], let s := delivering n
    let d : Deliv := { kind := .rx, part := 0, ring := 3, octets := List.replicate n 0xAB }
    s.gpl.deliv = [d] ∧ delivRing s d = some 3 ∧ InService s 0 ∧ hasHost s 0 = true ∧ cqUsable s 3 = true ∧ 0 < cqFree s 8 ∧
      ringCq s 3 = 8 ∧ (ringSt s 3).supply = ⟨0x3000, 64, 77, 5⟩ :: [] ∧ d.octets.length ≤ 64 := by decide

theorem witness_flush : ∀ now ∈ [99999, 100000],
    let s := setRing (ringed started 7 0x64) 3 { supply := [⟨0x3000, 64, 77, 5⟩], la := [1, 2] }
    let s := { s with now := now }
    (ringSt s 3).la ≠ [] ∧ (ringSt s 3).supply = ⟨0x3000, 64, 77, 5⟩ :: [] ∧ ringCq s 3 = 8 ∧
      (ringSt s 3).laFirst + 1000 * max 1 (rdRing s 3 3 % 1024) = 100000 := by decide

/-- An entry of completion ring 8. -/
def anEntry : Compl := { status := 0, kind := 3, ring := 3, tag := 77, slot := 5, len := 64 }

/-- Completion ring 8 at the end of its first and of its second round. -/
theorem witness_completion : ∀ i ∈ [63, 127], let s := setRing (ringed started 2 0) 8 { compl := [anEntry], pidx := i, resv := 1 }
    (ringSt s 8).compl = anEntry :: [] ∧ ringOwner s 8 = some 0 ∧ inReset s 0 = false ∧ hasHost s 0 = true ∧ ringKind s 8 = 9 ∧
      anEntry.reserved = true ∧ (ringSt s 8).pidx < 2 * ringSize s 8 := by decide

theorem witness_status_block : ∀ now ∈ [1009, 1010],
    let s := { setRing (ringed started 2 0) 8 { sbDirty := true, sbAt := some 10 } with now := now }
    ringOwner s 8 = some 0 ∧ (ringSt s 8).sbDirty = true ∧ (ringSt s 8).sbAt = some 10 ∧ s.now = now := by decide

theorem witness_msix : ∀ n ∈ [1, 2], let s := wrRing (setRing (ringed started 2 0) 8 { msiCount := n, msiFirst := some 10 }) 8 3 0x2040F
    ringOwner s 8 = some 0 ∧ ringKind s 8 = 9 ∧ (ringSt s 8).sbDirty = false ∧ (ringSt s 8).msiFirst = some 10 ∧
      max 1 (rdRing s 8 3 / 2 ^ 9 % 256) = 2 ∧ (mget ({} : MsixEnt) s.gpl.msix 15).masked = true := by decide

theorem witness_nudge : let s := wrPart (ringed started 2 0) 0 4 1
    hasHost s 0 = true ∧ inReset s 0 = false ∧ 0 ∉ s.gpl.fetching ∧ rdPart s 0 4 % 2 = 1 := by decide

theorem witness_poll : let s := { wrPart (ringed started 2 0) 0 4 0xC8 with now := 100000 }
    rdPart s 0 4 % 2 = 0 ∧ mget 0 s.gpl.polledAt 0 + 1000 * max 1 (min 100 (rdPart s 0 4 / 2 % 128)) = 100000 := by decide

/-- A doorbell fetch is under way; ring 3 supplies buffers and the host's index for it is 64. -/
def belling : State :=
  let s := hosting (ringed started 4 0) 12 [64, 0, 0, 0]
  { s with gpl := { s.gpl with fetching := [0] } }

theorem witness_doorbell : let s := belling
    hasHost s 0 = true ∧ inReset s 0 = false ∧ s.gpl.fetching = [0] ∧ s.gpl.fetchMore = [] ∧
      (∀ j ∈ ringsOf s 0, (ringSt s j).inflight = none) ∧ 3 ∈ ringsOf s 0 ∧ ringEn s 3 = true ∧ ringKind s 3 = 4 ∧
      cqUsable s 3 = true ∧ inBolt s 0 = false ∧ leNat (hostRead s 0 12 4) = 64 := by decide

theorem witness_arrival : let s := setRing (ringed started 4 0) 3 { inflight := some (127, 2) }
    (ringSt s 3).inflight = some (127, 2) ∧ ringOwner s 3 = some 0 ∧ ringKind s 3 = 4 := by decide

theorem witness_arrival_command : let s := setRing (ringed started 2 0) 3 { inflight := some (127, 1) }
    (ringSt s 3).inflight = some (127, 1) ∧ ringOwner s 3 = some 0 ∧ ringKind s 3 = 2 ∧ (ringSt s 3).fetched = [] ∧
      InService s 0 ∧ ringCq s 3 = 8 ∧ oct (hostRead s 0 (ringBase s 3 + 64 * 63) 64) 0 = 0 ∧
      oct (hostRead s 0 (ringBase s 3 + 64 * 63) 64) 1 = 0 := by decide

theorem witness_service_event : let s := ringed started 3 0
    let s := { s with gpl := { s.gpl with svcq := [{ code := 1, lost := 3 }] } }
    s.gpl.svcq = { code := 1, lost := 3 } :: [] ∧ supRing s 3 = some 3 ∧ cqUsable s 3 = true ∧ 0 < cqFree s 8 ∧
      inReset s 0 = false := by decide

theorem witness_in_use : ∀ now ∈ [999999, 1000000], let w : Waiting := ⟨aCmd, 0, .segPresent 0 1023⟩
    let s := { ringed started 2 0 with now := now, gpl := { started.gpl with waiting := [w] } }
    s.gpl.waiting = [w] ∧ inReset s 0 = false ∧ (segEnt s 0 1023).w3.getLsbD 7 = false ∧ s.now = now := by decide

theorem witness_ring_kind : let s := wrPart (wrRing (ringed started 4 5) 3 2 0x40) 0 8 3
    rdPart s 0 8 % 4096 = 3 ∧ ringOwner s 3 = some 0 ∧ ringEn s 3 = false ∧ ringBusy s 3 = false ∧
      (0x70 : BitVec 32).getLsbD 8 = false ∧ ringKind s 3 ≠ (0x70 : BitVec 32).toNat / 16 % 16 := by decide

/-- Partition 0 has a ticket, every thread of its cluster waits for work, and the stall began at 0 ns. -/
def stalling (now : Nat) (since : Map Nat) : State :=
  let s := wrDev (setTicket started 9 { inUse := true, gen := 5, dom := 2 }) 0x60040 0x5
  { s with
      now := now, hlt := { s.hlt with stallSince := since },
      thr := { s.thr with threads := (List.range 128).map (fun k => (k, { mode := .getwork })) } }

theorem witness_stall : stalled (stalling 100000 [(0, 0)]) 0 = true ∧ stalled (stalling 7 []) 0 = true ∧
    flag (stalling 7 []) 0x60040 0 = true ∧ rdDev (stalling 7 []) 0x60040 / 4 % 1024 = 1 := by decide +kernel


theorem witness_program_words : ∀ sp ∈ [0, 1], let s := ringed started 2 0
    sp ≤ 1 ∧ 0 < 4096 ∧ 65536 - 4096 + 4096 ≤ (if sp = 0 then 65536 else 262144) ∧ clusterOwner s 0 = some 0 ∧
      Accepted s aCmd 0x80 ∧ Accepted s aCmd 0x81 ∧ hasHost s 0 = true ∧ s.mem.csmBad = [] := by decide

theorem witness_program_foreign : let s := wrDev (ringed started 2 0) 0x7007C 7
    clusterOwner s 15 = some 1 ∧ 1 ≠ 0 ∧ Accepted s aCmd 0x80 ∧ Accepted s aCmd 0x81 := by decide

theorem witness_mcs_load : let s := ringed (bound started) 3 0
    inReset s 0 = false ∧ opcRefused s aCmd 0xC0 = false ∧ inBolt s 0 = false ∧ isSup s 0 = true ∧
      isSup (ringed started 3 0) 0 = false ∧ inBolt (ringed bolted 3 0) 0 = true ∧ s.far.load = none ∧
      ({ s with far := { s.far with load := some { cmd := aCmd, patch := {} } } } : State).far.load.isSome = true ∧
      (hostRead s 0 0x1000 (min 95 7521)).length < 96 := by decide

/-- A module is in cage 31. -/
def plugged : State := let s := ringed (bound started) 3 0
  { s with prt := { s.prt with modules := [(31, true)] } }

theorem witness_module : let s := plugged
    s.gpl.waiting = [] ∧ Accepted s aCmd 0xC1 ∧ Accepted s aCmd 0xC2 ∧ mget false s.prt.modules 31 = true ∧ hasHost s 0 = true ∧
      mget false (ringed started 3 0).prt.modules 31 = false := by decide

theorem witness_plain_register : let s := bound started
    SupReaches s ∧ (0xABFFC : Nat) % 4 = 0 ∧ (match regFind 0xABFFC with
      | some a => decide (a.d.reg ∈ plainRegs)
      | none => false) = true ∧ isParseReg 0xABFFC = false ∧ parSwapping s = false := by decide

theorem witness_register_refused : SupReaches (bound started) ∧ (7 : BitVec 4) ≠ 15 ∧ regFind ((0xFFFFD : Nat) / 4 * 4) = none ∧
    ¬ SupReaches started := by decide

theorem witness_part_window : inReset resetting 0 = true ∧ inReset started 0 = false ∧ hasHost started 0 = true ∧
    isSup started 0 = false ∧ supBound started = false ∧ (0x10000 : Nat) ≤ (0xFFFFC : BitVec 20).toNat := by decide

theorem witness_firmware : let s := wrDev (bound started) 0x18 8
    SupReaches s ∧ s.hkc.updBusy = none ∧ s.pins.flashWpN = true ∧ rdDev s 0x18 % 2 ^ 24 = 8 ∧ s.hkc.imageB = false ∧
      rdDev (bound started) 0x18 % 2 ^ 24 = 0 ∧ sealedCopy s = none := by decide

theorem witness_smbus : State.reset.pins.vaux = true ∧ State.reset.hkc.updBusy = none ∧ State.reset.pins.flashWpN = true ∧
    sealedCopy State.reset = none ∧ State.reset.hkc.warmPend = false := by decide

theorem witness_flash_write : let s := { started with hkc := { started.hkc with updBusy := some 0 } }
    s.hkc.warmPend = false ∧ s.hkc.updBusy = some 0 ∧ s.hkc.imageB = false := by decide

/-- Key slots 0 to 65,535 are partition 0's, and the KBPK of partition 0 is 32 zero octets. -/
def keyed (s : State) : State :=
  let s := wrDev (wrDev (ringed s 2 0) 0xC0080 0x10000) 0xC0084 0x10000
  { s with cry := { s.cry with kbpk := [(0, zeros 32)] } }

/-- A key block: D0, A, both modes, the 16-octet key 00 11 22 ... FF under that KBPK. -/
def aBlock : List Octet :=
  ascii "D0112D0AB00E0000" ++
    ascii "B0F625741001A497E955CBFCE4C3CB63A6695805D76C559B52035F4D3A4BE28436E21FDD6CC0C7D30DBF2ECD78432B92"

theorem witness_key_block : (match openBlock (zeros 32) aBlock with
    | some b => match classifyBlock b with
      | .ok x => b.opts.isEmpty && decide (x.span = 1)
      | _ => false
    | none => false) = true := by decide +kernel

theorem witness_key_load : let s := hostWrite (keyed started) 0 0x1000 aBlock
    Accepted s aCmd 0x70 ∧ keyOwner s 65535 = some 0 ∧ mfind s.cry.kbpk 0 = some (zeros 32) ∧
      hostRead s 0 0x1000 112 = aBlock ∧ 65535 % 1 = 0 ∧ spanMine s 0 65535 1 = true ∧ keysIn s 65535 1 = [] := by decide +kernel

theorem witness_key_load_bad : openBlock (zeros 32) (zeros 112) = none ∧ mfind (ringed started 2 0).cry.kbpk 0 = none := by
  unfold openBlock; decide

/-- The key of slot 9. -/
def aKey : KeyEnt := { part := 0, usage := 0x34, alg := 1, span := 1, ver := [48, 48], kcv := [1, 2, 3, 4, 5], loaded := 7,
                       mat := (List.range 16).map (BitVec.ofNat 8) }

/-- The key store with one key, at slot 9. -/
def keying (s : State) (k : KeyEnt) : State := { keyed s with cry := { (keyed s).cry with keys := [(9, k)] } }

theorem witness_key : let s := keying started aKey
    keyOwner s 9 = some 0 ∧ mfind s.cry.keys 9 = some aKey ∧ Accepted s aCmd 0x71 ∧ Accepted s aCmd 0x72 ∧ hasHost s 0 = true ∧
      keysIn s 9 1 ≠ [] ∧ mfind s.cry.keys 10 = none ∧ keyCovering s 10 = none ∧ keyOwner (ringed started 2 0) 0 ≠ some 0 := by
  decide

/-- The random bit generator runs. -/
def generating (s : State) : State := { s with cry := { s.cry with rbgRun := true } }

/-- The generator of P-256, as a public key in host memory. -/
theorem witness_kekset : let s := hostWrite (generating (ringed (bound started) 2 0)) 0 0x1000 (beOctets 32 p256G.1 ++ beOctets 32 p256G.2)
    Accepted s aCmd 0x73 ∧ isSup s 0 = true ∧ s.cry.rbgRun = true ∧ p256Read (hostRead s 0 0x1000 64) = some p256G ∧
      isSup (ringed started 2 0) 0 = false := by decide +kernel

/-- A control block at 448: 16 octets of data at 0 of the window, 16 octets of output at 64. -/
def controlled (sel : Nat) : State :=
  updCtx (work 0 448 0) 5 (fun c => c.winWrite 448 (([0, 0, 0, 9, sel, 4, 0, 16] ++ [0, 0, 0, 0, 0] ++ [0, 0, 0, 0, 64]).map
    (BitVec.ofNat 8) ++ zeros 46))

/-- What a check of a reference answers, as an option. -/
def passes (f : Option RefCheck) : Bool :=
  match f with
  | none => true
  | some f => match f.chk with
    | .ok _ _ => true
    | _ => false

theorem witness_engine : let s := controlled 4
    let b := (ctxNow s 5).winRead 448 64
    MayIssue s 5 ∧ mfind (ctxNow s 5).tags 0 = none ∧ 448 + 64 ≤ 512 ∧
      ∀ op ∈ [0x01, 0x02, 0x04, 0x06, 0x08, 0x0C, 0x11, 0x18],
        passes (dataRef (turned s 5) 5 op b) = true ∧ passes (outRef (turned s 5) 5 op b) = true := by decide +kernel

theorem witness_engine_refused : let s := controlled 0
    let b := (ctxNow s 5).winRead 448 64
    thrPart s 5 = some 0 ∧ (match dataRef (turned s 5) 5 1 b with
      | some f => match f.chk with
        | .bad _ => true
        | _ => false
      | none => false) = true := by decide +kernel

/-- A queued request of thread 5, its output at 64 of the window. -/
def aRequest (op len : Nat) : EngReq :=
  { pk := decide (0x10 ≤ op ∧ op ≤ 0x14), prio := 3, task := none, thread := 5, tag := 2, op := op, part := 0,
    block := ([op, 0, 0, 9, 4, 4, 0, len] ++ [0, 0, 0, 0, 0] ++ [0, 0, 0, 0, 64]).map (BitVec.ofNat 8) ++ zeros 46,
    blockOff := 448, data := (List.range len).map (BitVec.ofNat 8), sig := zeros 64, poison := false, outAddr := 64, outWin := true }

/-- The engines' queue holds that request and slot 9 that key. -/
def enqueued (r : EngReq) (k : KeyEnt) : State :=
  let s := keying (running (generating started) { regs 0 0 0 with tags := [(2, { kind := .crypt })] }) k
  { s with cry := { s.cry with queue := [r] } }

theorem witness_engine_complete : ∀ op ∈ [0x01, 0x02, 0x04, 0x06, 0x08, 0x0C, 0x10, 0x11, 0x12, 0x18], let r := aRequest op 16
    let s := enqueued r aKey
    s.cry.queue = r :: [] ∧ 2 ≤ (enginesOf s r.pk).length ∧ r.task = none ∧ r.outWin = true ∧ r.poison = false ∧ r.part < 8 ∧ s.cry.rbgRun = true ∧
      mfind (thr s r.thread).ctx.tags r.tag = some { kind := .crypt } ∧ lengthOk r.op r.block = true ∧
      fieldBe r.block 2 2 = 9 ∧ keyOwner s 9 = some r.part ∧ mfind s.cry.keys 9 = some aKey := by decide +kernel

/-- One public-key engine is left in service; slot 9 is in error. -/
theorem witness_engine_none : let r := aRequest 0x10 16
    let s := enqueued r aKey
    let s1 := { s with cry := { s.cry with pkRetired := List.range 25 } }
    let s2 := { s with cry := { s.cry with keys := [], badSlots := [9] } }
    s1.cry.queue = r :: [] ∧ r.pk = true ∧ (enginesOf s1 true).length < 2 ∧ keyOwner s2 9 = some r.part ∧
      mfind s2.cry.keys 9 = none ∧ 9 ∈ s2.cry.badSlots ∧ opKey r.op ≠ none := by decide +kernel

theorem witness_engine_usage : aKey.usage.testBit 4 = true ∧ aKey.alg ∈ [1, 2] ∧ opKey 0x06 = some (4, [1, 2]) ∧
    aKey.usage.testBit 3 = false ∧ opKey 0x05 = some (3, [1, 2]) := by decide

theorem witness_reseed : 65536 ≤ ({ started with cry := { started.cry with rbgCount := 65536 } }).cry.rbgCount ∧
    started.cry.rbgSince + 1000000000 ≤ ({ started with now := 1000000000 }).now ∧ started.cry.rbgCount < 65536 := by decide

/-- The journal is enabled; its open block holds `n` records, and one waits in the intake. -/
def journaling (n now : Nat) (intake : List JPend) : State :=
  let s := wrDev (ringed (bound started) 2 0) 0xC0000 0x205
  { s with now := now, jnl := { s.jnl with opened := List.replicate n [7], intake := intake } }

theorem witness_journal_entry : ∀ n ∈ [0, 1022, 1023], let s := journaling n 0 [{ octets := [9] }]
    rdDev s 0xC0000 % 2 = 1 ∧ s.jnl.intake = { octets := [9] } :: [] ∧ entryFree s { octets := [9] } = true ∧
      s.jnl.sealed.length < 16320 ∧ s.jnl.opened.length = n ∧ s.mem.poison = [] := by decide +kernel

/-- A record of domain 2 waits for an earlier release of its domain that egress still holds. -/
theorem witness_journal_order : let r : JPend := { octets := [9], place := some (2, 5) }
    let s := wrDev (journaling 0 0 [r]) 0xC0020 2
    let x : Released := { item := { anItem with audit := 1 }, res := { disp := .egress, buf := 0x10000, len := 60 }, ticket := 0, place := (2, 4) }
    let s := { s with hlt := { s.hlt with egressIn := [x] } }
    ∀ x ∈ s.jnl.intake, entryFree s x = false := by decide

theorem witness_seal : ∀ now ∈ [999999, 1000000], let s := journaling 1 now []
    s.jnl.opened ≠ [] ∧ rdDev s 0xC0000 % 2 = 1 ∧ Accepted s aCmd 0x74 ∧ isSup s 0 = true ∧
      s.jnl.firstAt + 1000000 * max 1 (min 100 (rdDev s 0xC0000 / 4 % 128)) = 1000000 ∧ s.now = now := by decide

theorem witness_seal_refused : let s := ringed started 2 0
    Accepted s aCmd 0x74 ∧ isSup s 0 = false ∧ isSup (bound s) 0 = true ∧ ¬ rdDev (bound s) 0xC0000 % 2 = 1 := by decide

theorem witness_certificate : Accepted (ringed started 2 0) aCmd 0x75 ∧ hasHost (ringed started 2 0) 0 = true := by decide

theorem witness_heartbeat : let s := journaling 0 100000000 []
    rdDev s 0xC0000 % 2 = 1 ∧ s.jnl.intake = [] ∧
      s.jnl.lastEntry + 100000000 * max 1 (min 1000 (rdDev s 0xC0000 / 2 ^ 9 % 1024)) ≤ s.now := by decide

theorem witness_journal_enable : let s := bound started
    SupReaches s ∧ auditLocked s = false ∧ ¬ rdDev s 0xC0000 % 2 = 1 := by decide

/-- One sealed block, and the supervisor's ring 3 of kind 8 that names no completion ring in use. -/
def exporting : State :=
  let s := wrRing (ringed (bound started) 8 0) 8 2 0
  { s with jnl := { s.jnl with sealed := [{ no := 4, header := [1], recs := [[2], [3]] }] } }

theorem witness_export : let s := exporting
    s.jnl.sealed = { no := 4, header := [1], recs := [[2], [3]] } :: [] ∧ s.jnl.inExport = 0 ∧ supRing s 8 = some 3 ∧
      isSup s 0 = true ∧ inReset s 0 = false ∧ cqUsable s 3 = false ∧ s.gpl.deliv = [] := by decide


/-- The HBM controller in a state of its own. -/
def hbmed (h : Hbm) : State := { started with hbm := h }

/-- The last address of HBM: channel 15, SID 1. -/
theorem witness_hbm_read : let s := hbmed {}
    s.hbm.selfRef = false ∧ fld s 0xD8000 30 26 ≠ 0 ∧ devPoisoned s 0x3FFFFFFE0 32 = false ∧ NoMigration s ∧
      (∀ x ∈ s.hbm.retired, x.1 ≠ 15) ∧ hbmChannel 0x3FFFFFFFF = 15 ∧ hbmSid 0x3FFFFFFFF = 1 ∧
      fld (wrDev s 0xD8000 0) 0xD8000 30 26 = 0 := by decide

/-- Addresses of packet SRAM. -/
theorem witness_sram : ∀ b ∈ [0x800000000, 0x807FFFFFF], 0x800000000 ≤ (BitVec.ofNat 36 b).toNat ∧
    (BitVec.ofNat 36 b).toNat < 0x808000000 := by decide

theorem witness_hbm_poisoned : let s := { started with mem := { started.mem with poison := [0x3FFFFFFE0 / 32] } }
    s.hbm.selfRef = false ∧ devPoisoned s 0x3FFFFFFE0 32 = true := by decide

theorem witness_hbm_migrating : let s := hbmed { migr := some { ch := 3, sid := 1 } }
    s.hbm.selfRef = false ∧ s.hbm.migr = some { ch := 3, sid := 1 } ∧ s.hbm.migQ = [] ∧ 3 ≠ 15 ∧
      (∀ x ∈ s.hbm.retired, x.1 ≠ 15) := by decide

theorem witness_hbm_used : let s := hbmed { retired := [(15, 0)] }
    NoMigration s ∧ (∃ x ∈ s.hbm.retired, x.1 = 15) ∧ 15 ∉ s.hbm.regained := by decide

theorem witness_hbm_parity : mfind (hbmed {}).hbm.parity 15 ≠ some 5 ∧
    mfind (hbmed { parity := [(15, 5)] }).hbm.parity 15 = some 5 ∧ NoMigration (hbmed { parity := [(15, 5)] }) := by decide

theorem witness_switchover : let m : Migration := { ch := 15, sid := 1, why := 3, next := 2 ^ 23 }
    let s := hbmed { migr := some m }
    s.hbm.migr = some m ∧ 2 ^ 23 ≤ m.next ∧ s.hbm.migQ = [] ∧ s.gpl.waiting = [] ∧ s.gpl.svcq.length < 4090 := by decide

theorem witness_refresh : let s := hbmed { owed := [(31, 4)], doubled := true }
    s.hbm.selfRef = false ∧ 0 < mget 0 s.hbm.owed 31 ∧ 4 ≤ mget 0 s.hbm.owed 31 ∧ 3 < 4 := by decide

theorem witness_temperature : (hbmed {}).hbm.doubled = false ∧ (hbmed { doubled := true }).hbm.doubled = true := by decide

theorem witness_training : let s := hbmed {}
    s.hbm.selfRef = false ∧ s.hbm.lastStep = 0 ∧ max 1 (min 63 (fld s 0xD8008 7 0)) < 255 := by decide

theorem witness_lanes : (0 : BitVec 8).toNat ≤ Config.hbmLanes 15 % 16 - mget 0 (hbmed {}).hbm.lanes 15 ∧
    Config.hbmLanes 15 % 16 - mget 0 (hbmed {}).hbm.lanes 15 < (255 : BitVec 8).toNat := by
  refine ⟨Nat.zero_le _, ?_⟩
  have h := Nat.mod_lt (Config.hbmLanes 15) (y := 16) (by decide)
  have : (255 : BitVec 8).toNat = 255 := rfl
  omega

theorem witness_power_down : let s := { wrDev (hbmed {}) 0xD8000 0x0001FF00 with now := 1000000 }
    s.hbm.selfRef = false ∧ fld s 0xD8000 15 8 = 255 ∧ s.hbm.lastReq + 100 * 255 ≤ s.now ∧ mget 0 s.hbm.owed 30 = 0 ∧
      mget 0 s.hbm.owed 31 = 0 ∧ 15 ∉ s.hbm.pdown ∧ min 1000 (fld s 0xD8000 25 16) = 1 ∧ s.hbm.lastReq + 1000000 * 1 ≤ s.now ∧
      s.hbm.migr = none ∧ fld (wrDev s 0xD8000 0) 0xD8000 15 8 = 0 ∧ fld (wrDev s 0xD8000 0) 0xD8000 25 16 = 0 := by decide

theorem witness_self_refresh : (hbmed { selfRef := true }).hbm.selfRef = true ∧
    (hbmed { selfRef := true, heldReq := true }).hbm.heldReq = true := by decide

/-- The supervisor's service ring. -/
def serving (s : State) : State := ringed (bound s) 3 0

theorem witness_rein : let s := serving started
    let s := { s with hkc := { s.hkc with rein := some ⟨0, 9000, 0⟩ } }
    s.gpl.waiting = [] ∧ s.hkc.rein.isSome = true ∧ Accepted s aCmd 0xC8 ∧ Accepted s aCmd 0xC9 ∧ Accepted s aCmd 0xCA := by
  decide

theorem witness_farrier : let s := serving started
    s.gpl.waiting = [] ∧ s.hkc.rein = none ∧ Accepted s aCmd 0xC8 ∧ Accepted s aCmd 0xC9 ∧ Accepted s aCmd 0xCA ∧
      Accepted s aCmd 0xCB ∧ hasHost s 0 = true ∧ NoMigration s ∧ s.far.bist = [] ∧ spareOf s 15 = some 143 ∧
      (∀ i, i % 4 < 2 → (i / 4, i % 4) ∉ s.hbm.retired) ∧ hasSpareRank s 15 = true ∧ portEn (openPort {}) 127 = true := by
  refine ⟨by decide, by decide, by decide, by decide, by decide, by decide, by decide, by decide, by decide, by decide,
    fun i _ => ?_, by decide, by decide⟩
  exact List.not_mem_nil

/-- No swap and no load is under way, no routine runs, and a bank has more correctable errors than the threshold. -/
theorem witness_farrier_free : let s := serving (wrDev (wrDev started 0x412FC 101) 0x108 0x5A0064)
    s.far.draining = [] ∧ s.far.load = none ∧ (∀ t, (thr s t).routine = none) ∧ fld s 0x108 15 0 < rdDev s (0x41200 + 4 * 63) ∧
      flag s 0x100 10 = true ∧ s.src.spares ≠ 0 ∧
      ¬ (fld s 0x108 15 0 < rdDev s (0x41200 + 4 * 62)) := by
  exact ⟨by decide, by decide, fun _ => rfl, by decide, by decide, by decide, by decide⟩

/-- A swap of core 0 drains; a routine under BOUNDARY runs on core 0. -/
theorem witness_farrier_held : let s := serving started
    let s1 := { s with far := { s.far with draining := [(0, .worn)] } }
    let s2 := updThr s 5 (fun x => { x with mode := .run, routine := some { upc := 0 } })
    clusterHeld s1 0 = true ∧ coreDrained s2 0 = false ∧ spareOf s2 0 = some 8 ∧ s2.far.draining = [] ∧ s2.far.load = none := by
  decide

/-- Rank 61, of channel 15, is quiesced and has passed its test. -/
theorem witness_quiesced : let s := serving (hbmed { retired := [(15, 1)], quiesced := [(61, true)] })
    (61, true) ∈ s.hbm.quiesced ∧ (15, 1) ∈ s.hbm.retired ∧ NoMigration s ∧ 61 % 4 < 3 ∧ hasSpareRank s 15 = false := by decide

theorem witness_spares : let s := serving { started with src := { started.src with spares := 0 } }
    s.src.spares = 0 ∧ started.src.spares ≠ 0 ∧
      spareOf { started with far := { spare := [(15, none)] } } 15 = none ∧
      bistOf { started with far := { spare := [(15, none)], bist := [(15, 140)] } } 15 = some 140 := by decide

theorem witness_core_swap : let s := { started with far := { spare := [(0, none)] } }
    s.hkc.rein = none ∧ spareOf s 0 = none ∧ bistOf s 0 = none ∧ s.hkc.dbolt = false ∧ clusterOwner s 0 = some 0 ∧
      (pboltSt s 0).on = false ∧ clusterOwner { started with far := { spare := [(15, none)] } } 15 = none := by decide

theorem witness_rotation : let s := wrDev started 0x100 0x41F
    fld s 0x100 4 0 ≠ 0 ∧ spareOf s 15 = some 143 ∧ mget 0 s.far.rotIdx 15 < 8 ∧ flag s 0x100 10 = true ∧
      fld (wrDev started 0x100 0) 0x100 4 0 = 0 ∧ flag (wrDev started 0x100 0) 0x100 10 = false := by decide

theorem witness_wear : let s := wrDev (wrDev started 0x100 0x41F) 0x108 0x5A0064
    s.hkc.rein = none ∧ flag s 0x100 10 = true ∧ fld s 0x108 23 16 = 90 ∧ fld s 0x108 15 0 = 100 ∧ spareOf s (127 / 8) = some 143 ∧
      s.src.spares ≠ 0 ∧ NoMigration s ∧ hasSpareRank s (61 / 4) = true ∧ rowSpares s (524287 / 512) ≠ 0 ∧
      mget 0 s.far.phases 12 < 2 ∧ 2 ≤ mget 0 ({ s with far := { s.far with phases := [(12, 2)] } } : State).far.phases 12 := by
  decide

theorem witness_clock_generator : mget 0 started.far.clkGens 60 = 0 ∧
    2 ≤ mget 0 ({ started with far := { started.far with clkGens := [(60, 2)] } } : State).far.clkGens 60 := by decide


/-- Partition 0 is the supervisor, partition 3 has cluster 15. -/
def quiet : State := wrDev (bound started) 0x7007C 0xF

theorem witness_bolt : let s := quiet
    Quiet s ∧ s.hkc.dbolt = false ∧ s.hkc.booted = true ∧ SupReaches s ∧ clusterOwner s 15 = some 3 ∧ (pboltSt s 3).on = false ∧
      clusterOwner s 7 = none := by decide

theorem witness_device_bolt : let s := { quiet with hkc := { quiet.hkc with dbolt := true } }
    Quiet s ∧ s.hkc.dbolt = true := by decide

/-- Partition 3 is in Bolt for a cause. -/
def bolting (gone : Bool) (later : List Doubt) : State :=
  { quiet with hkc := { quiet.hkc with pbolt := [(3, { on := true, cause := ⟨2, 120, gone⟩, later := later })] } }

theorem witness_partition_bolt : let s := bolting false []
    Quiet s ∧ SupReaches s ∧ s.hkc.dbolt = false ∧ (pboltSt s 3).on = true ∧ (pboltSt s 3).cause.gone = false ∧
      clusterOwner s 15 = some 3 := by decide

theorem witness_clear_bolt : let s := bolting true [⟨1, 15, true⟩]
    Quiet s ∧ SupReaches s ∧ (pboltSt s 3).on = true ∧ (pboltSt s 3).cause.gone = true ∧
      ∀ x ∈ (pboltSt s 3).later, x.gone = true := by decide

theorem witness_clear_bolt_later : let s := bolting true [⟨1, 15, false⟩]
    (pboltSt s 3).cause.gone = true ∧ (pboltSt s 3).later = ⟨1, 15, false⟩ :: [] ∧ (⟨1, 15, false⟩ : Doubt).gone = false := by decide

theorem witness_unbooted : ({ started with hkc := { started.hkc with booted := false } } : State).hkc.booted = false ∧
    ¬ SupReaches started := by decide

theorem witness_supply : let s := quiet
    s.hkc.rein = none ∧ s.hkc.dbolt = false ∧ jnlEn s = false ∧ 10599 < 10600 ∧ 100 * 759 < 95 * 800 := by decide

/-- The device is in Rein since 5 ns; the last low reading came at 7 ns. -/
def reined (now : Nat) (bad : Bool) : State :=
  { quiet with now := now, hkc := { quiet.hkc with rein := some ⟨5, 9000, 7⟩ }, par := { quiet.par with badStore := bad } }

theorem witness_rein_exit : ∀ now ∈ [20006, 20007], ∀ b ∈ [true, false], let s := reined now b
    s.hkc.rein = some ⟨5, 9000, 7⟩ ∧ s.par.badStore = b ∧ jnlEn s = false ∧ s.now = now := by decide

theorem witness_rein_limit : let s := reined 2000005 false
    s.hkc.rein = some ⟨5, 9000, 7⟩ ∧ 5 + 100000 * max 1 (min 100 (fld s 0x44 6 0)) = 2000005 ∧ s.now = 2000005 ∧
      s.hkc.dbolt = false ∧ s.pins.vaux = true := by decide

theorem witness_boot : let s := { started with flash := { started.flash with imgA := true, imgB := true } }
    BootsBare s ∧ s.pins.vinOk = true ∧ s.pins.vaux = true ∧ s.hkc.booted = true ∧ s.flash.imgA = true ∧ s.flash.imgB = true ∧
      s.hkc.rbgBad = false := by decide

theorem witness_boot_fails : let s := { started with flash := { started.flash with imgA := false, imgB := false } }
    s.flash.imgA = false ∧ s.flash.imgB = false ∧ ({ s with hkc := { s.hkc with rbgBad := true } } : State).hkc.rbgBad = true ∧
      ({ s with hkc := { s.hkc with hbmBad := true } } : State).hkc.hbmBad = true ∧
      ({ s with pins := { s.pins with vinOk := false } } : State).pins.vinOk = false ∧
      ({ s with hkc := { s.hkc with booted := false } } : State).hkc.booted = false := by decide

theorem witness_warm : let s := bound started
    SupReaches s ∧ s.hkc.updBusy = none ∧ BootsBare s ∧
      ({ s with hkc := { s.hkc with updBusy := some 1 } } : State).hkc.updBusy.isSome = true := by decide

/-- A task, a key, a descriptor and a CLM word of partitions 0 and 3. -/
def populated : State :=
  let s := putTask (putTask quiet 7 aTask) 8 { aTask with part := 3, loc := .thread 1920 }
  { s with
      cry := { s.cry with keys := [(3, aKey), (9, { aKey with part := 3 })] },
      mem := { s.mem with clm := [(5, 7), (15 * 131072 + 3, 8)], segs := [(1, ⟨1, 0, 0, 0⟩), (3 * 1024, ⟨2, 0, 0, 0⟩)] } }

theorem witness_partition_reset : let s := populated
    Quiet s ∧ s.hsp.slots = [] ∧ s.hlt.tickets = [] ∧ s.buf.tags = [] ∧ s.stf.conns = [] ∧ s.par.toClassify = [] ∧
      s.gpl.deliv = [] ∧ mget [] s.hlt.issueQ 3 = [] ∧ mget [] s.hlt.holdQ 3 = [] ∧
      (∀ kx ∈ s.thr.tasks, kx.2.lockPend = none) ∧ SupReaches s ∧ clusterOwner s 15 = some 3 := by decide

theorem witness_perst : let s := { quiet with hkc := { quiet.hkc with inReset := [6, 1] } }
    let ports := ([2 * 3, 2 * 3 + 1].filter (funcExists s)).map (partOfFunc s)
    (∃ q ∈ ports, q ∈ s.hkc.inReset) ∧ (∀ q ∈ ([2 * 2, 2 * 2 + 1].filter (funcExists s)).map (partOfFunc s), q ∉ s.hkc.inReset) ∧
      s.hkc.booted = true ∧ s.hkc.smbOnly = false := by decide

/-- DBG_TSEL names thread 5, DBG_TIDX the word `n`. -/
def selecting (y : Thread) (n : Nat) : State := setThr (wrDev (wrDev (bound started) 0xE0000 40) 0xE0010 n) 5 y

theorem witness_debug : let s := selecting { halted := true } 31
    SupReaches s ∧ ¬ (s.dbg.locked = true ∧ s.dbg.unlockUntil = none) ∧ rdDev s 0xE0000 = 8 * 5 ∧ 5 < 2048 ∧
      clusterOwner s (5 / 128) = some 0 ∧ (thr s 5).halted = true ∧ rdDev s 0xE0010 = 31 := by decide

theorem witness_debug_running : (thr (selecting { mode := .run } 0) 5).halted = false ∧
    (thr (selecting { mode := .run } 0) 5).mode = .run ∧ (thr (selecting { mode := .run } 0) 5).inWait = false ∧
    (thr (selecting { mode := .run } 0) 5).routine = none ∧
    (thr (selecting {} 0) 5).mode = .getwork ∧ (thr (selecting { mode := .run, inWait := true } 0) 5).inWait = true := by decide

theorem witness_debug_words : ∀ n ∈ [33, 45, 46, 48, 256, 767], rdDev (selecting { halted := true } n) 0xE0010 = n := by decide

/-- The audit lock is set. -/
def locking (s : State) : State := { s with dbg := { s.dbg with locked := true } }

theorem witness_debug_locked : let s := locking (selecting {} 0)
    SupReaches s ∧ s.dbg.locked = true ∧ s.dbg.unlockUntil = none ∧ s.hkc.booted = true ∧ dbgaccReach 0xE0000 = true ∧
      dbgaccReach 0x44 = false ∧ rdDev (selecting {} 0) 0xE0000 < 65536 ∧ ¬ SupReaches started := by decide

theorem witness_audit : let s := serving started
    Accepted s aCmd 0xE0 ∧ Accepted s aCmd 0xE1 ∧ s.dbg.locked = false ∧ (locking s).dbg.locked = true := by decide

theorem witness_audit_hobble : ∀ j, j < 256 → flag (serving started) (0x20000 + 0x80 * j) 0 = false := by decide +kernel

theorem witness_unlock_expiry : let s := { started with tb := { tai := 7 }, dbg := { started.dbg with unlockUntil := some 7 } }
    s.dbg.unlockUntil = some 7 ∧ 7 ≤ tai s ∧
      tai ({ started with tb := { tai := 6 }, dbg := { started.dbg with unlockUntil := some 7 } }) < 7 := by decide

/-- Monitor 255 is partition 0's; its words 0 to 2. -/
def monitored (w0 w1 w2 : Nat) : State :=
  wrGait (wrGait (wrGait (wrDev started 0xE07FC 1) 255 0 w0) 255 1 w1) 255 2 w2

theorem witness_gait : let s := monitored 1 0 0
    monOwner s 255 = some 0 ∧ inReset s 0 = false ∧ (rdGait s 255 0).testBit 28 = false ∧
      (0x10000801 : BitVec 32).getLsbD 28 = true ∧ gaitForeign s 0 0x10000801 = false ∧ gaitForeign s 0 0x10000001 = true := by
  decide

theorem witness_gait_on : let s := { monitored 0x18000001 4 2 with tb := { tai := 2000 } }
    monOwner s 255 = some 0 ∧ (rdGait s 255 0).testBit 28 = true ∧ (rdGait s 255 0).testBit 27 = true ∧
      (gaitSt s 255).live.tstart + 1000 * max 1 (rdGait s 255 2 % 2 ^ 20) = 2000 ∧ tai s = 2000 ∧ rdGait s 255 0 % 16 = 1 ∧
      (gaitSt s 255).due = [] := by decide

/-- An event of two that wait for a monitor, and levels of a queue, the temperature and VIN, whose period is over. -/
theorem witness_gait_samples : let s := monitored 0x18000001 4 2
    let s := { s with dbg := { s.dbg with gait := [(255, { due := [77, 78] })] } }
    (gaitSt s 255).due = 77 :: [78] ∧ rdGait s 255 0 % 16 = 1 ∧
      ∀ w ∈ [2, 3, 5, 6 + 16 * 2 ^ 10, 7, 7 + 2 ^ 10], ∀ now ∈ [99, 1000],
        let s := { monitored (0x18000000 + w) 4 2 with now := now }
        (rdGait s 255 0).testBit 28 = true ∧ rdGait s 255 0 % 16 = w % 16 ∧ (gaitSt s 255).levelAt = 0 ∧
          (now = 1000 → (gaitSt s 255).levelAt + (if w % 16 = 5 then 100 else if w = 7 then 0 else 1000) ≤ s.now) ∧
          (now = 99 → w ≠ 7 → s.now < (gaitSt s 255).levelAt + (if w % 16 = 5 then 100 else 1000)) := by decide +kernel

theorem witness_gait_snap : let s := wrPart (monitored 0 0 0) 0 0x100 255
    inReset s 0 = false ∧ rdPart s 0 0x100 % 256 = 255 ∧ monOwner s 255 = some 0 ∧ monOwner s 254 ≠ some 0 ∧
      inReset resetting 0 = true := by decide

theorem witness_time : let s := bound started
    SupReaches s ∧ jnlEn s = false ∧ jnlEn (wrDev s 0xC0000 1) = true ∧ rdDev s (0xC0 + 4 * 15) < 4 ∧ flag s 0x80 2 = false ∧
      flag (wrDev s 0x80 4) 0x80 2 = true ∧ fld (wrDev s 0x80 1) 0x80 1 0 = 1 ∧ ¬ fld s 0x80 1 0 = 1 ∧ s.tb.slewLeft = 0 ∧
      s.hkc.booted = true := by decide

theorem witness_pps_loss : started.now < started.tb.lastPps + 1100000000 ∧
    started.tb.lastPps + 1100000000 ≤ ({ started with now := 1100000000 } : State).now := by decide

theorem witness_step : let s := { started with pending := [Instr.forceBoltInput, .warmReset] }
    s.pending = .forceBoltInput :: [.warmReset] ∧ started.pending = [] ∧ BlockInvariant s := by decide


/-! What the well-formedness check refuses: one ill-formed command for each of its checks. -/

theorem ill_lock : (Instr.lockWatchdog 16400).wf = false ∧ (Instr.lockWatchdog 16399).wf = true := by decide

theorem ill_module_answer : (Instr.modRead aCmd 0 0 0 2 0 (some [1])).wf = false ∧
    (Instr.modRead aCmd 0 0 0 1 0 (some [1])).wf = true := by decide

theorem ill_engine_operations : ∀ i ∈ [Instr.sha256 5 0 0 2, .hmacGen 5 0 0 1, .hmacVer 5 0 0 1, .cmacGen 5 0 0 1,
    .cmacVer 5 0 0 1, .gcmEnc 5 0 0 1, .gcmDec 5 0 0 1, .tdesEnc 5 0 0 1, .tdesDec 5 0 0 1, .mac3Gen 5 0 0 1, .mac3Ver 5 0 0 1,
    .kwrap 5 0 0 1, .kunwrap 5 0 0 1, .ecdsaVer 5 0 0 1, .ecdsaSign 5 0 0 1, .ed25519Ver 5 0 0 1, .rsaVer 5 0 0 1,
    .rsaSign 5 0 0 1, .random 5 0 0 1], i.wf = false := by decide

theorem ill_self_checks : (Instr.engineRequestComplete true 3).wf = false ∧ (Instr.engineRequestComplete true 2).wf = true := by
  decide

theorem ill_rank : (Instr.rankRetirement 15 3).wf = false ∧ (Instr.rankRetirement 15 2).wf = true := by decide

theorem ill_doubt : (Instr.doubtSource 0 none 0).wf = false ∧ (Instr.doubtSource 0x14 none 0).wf = false ∧
    (Instr.doubtSource 0x13 none 0).wf = true := by decide

theorem ill_rail : (Instr.supplyWarning 13 0).wf = false ∧ (Instr.supplyResetLevel 13).wf = false ∧
    (Instr.supplyResetLevel 12).wf = true := by decide

theorem ill_wear : (Instr.wearSensorRead 3 0 0).wf = false ∧ (Instr.wearSensorRead 1 128 0).wf = false ∧
    (Instr.wearSensorRead 5 63 0).wf = false ∧ (Instr.wearSensorRead 8 12 0).wf = true := by decide

theorem ill_clock_generator : (Instr.clockGeneratorSwitch 61).wf = false ∧ (Instr.clockGeneratorSwitch 60).wf = true := by decide

theorem ill_offsets : (Instr.dbgacc true 0xE0002 0).wf = false ∧ (Instr.registerWrite .device 0x45 15 0).wf = false ∧
    (Instr.registerWrite .device 0x44 15 0).wf = true := by decide

theorem ill_sensor : (Instr.onDieSensorReading 16 0).wf = false ∧ (Instr.onDieSensorReading 15 0).wf = true := by decide

/-! Single steps, with what the rules say of them; the results are worked out by hand. -/

/-- The state after a command, when it answers one. -/
def after (i : Instr) (s : State) : State :=
  match step { s with pending := [i] } with
  | .next u => u
  | _ => s

/-- Register `r` of thread 5. -/
def reg5 (s : State) (r : Nat) : W36 := (thr s 5).ctx.g r

/-- 09 R187: 36-bit addition wraps and its carry sets P[CP]; the destination is also the source. -/
theorem test_add_wraps : let u := after (.add 5 0 2 2 3 4) (work 0 0xFFFFFFFFF 2)
    reg5 u 2 = 1 ∧ (thr u 5).ctx.pd 1 = true ∧ (thr u 5).ctx.pc = 1 := by decide

/-- 09 R187: at width 32 bits [35:32] come from ra, and a borrow sets P[CP]. -/
theorem test_sub_32 : let u := after (.sub 5 0 1 2 3 5) (work 0 0xA00000000 1)
    reg5 u 1 = 0xAFFFFFFFF ∧ (thr u 5).ctx.pd 1 = true := by decide

/-- 09 R187: a right shift of a negative number by 40 leaves the sign in every bit. -/
theorem test_sar_far : reg5 (after (.sar 5 0 1 2 3 0) (work 0 0x800000000 40)) 1 = 0xFFFFFFFFF := by decide

/-- 09 R190: 999999999 + 1 is 0 with a carry. -/
theorem test_dadd_carry : let u := after (.dadd 5 0 1 2 3 4) (work 0 0x999999999 1)
    reg5 u 1 = 0 ∧ (thr u 5).ctx.pd 1 = true := by decide

/-- 09 R191: the Luhn sum of 18 is 1 * 2 + 8 = 10, a valid number. -/
theorem test_luhn : let u := after (.luhn 5 0 1 2 3 0x12) (work 0 0x18 0)
    reg5 u 1 = 0 ∧ (thr u 5).ctx.pd 1 = true := by decide

/-- 09 R201: the check value of CRC-32 over 123456789, begun at all ones and inverted at the end, is 0xCBF43926; the last octet
is fed here. -/
theorem test_crc_last : ~~~ (thr (after (.crc 5 0 0 2 0 0) (running started { regs 0 0x39 0 with ca := 0x651F2550 })) 5).ctx.ca
    = 0xCBF43926 := by decide

/-- 09 R200: -1 times 2, signed, is -2 over 72 bits, in MQ at the second turn. -/
theorem test_mul_signed : (thr (after (.mul 5 0 0 2 3 1) (work 0 0xFFFFFFFFF 2)) 5).ctx.turn.turn.mq = -2 := by decide

/-- 09 R185: a syllable whose guard is false only moves PC. -/
theorem test_guard_off : let u := after (.add 5 8 1 2 3 0) (work 9 2 3)
    reg5 u 1 = 9 ∧ (thr u 5).ctx.pc = 1 := by decide

/-- 09 R192: four octets of the window, the first most significant, and zeros above. -/
theorem test_ldo4 : reg5 (after (.ldo4 5 0 1 2 4096) (windowed (work 0 1 0) [9, 1, 2, 3, 4])) 1 = 0x01020304 := by decide

/-- 08 R168: an offset past the limit writes nothing and counts BOUNDS (kind 3). -/
theorem test_store_bounds : let u := after (.st 5 0 1 2 0) (segmented (work 7 100 0) 3)
    u.mem.clm = [] ∧ rdCnt u 0xE0818 = 1 := by decide

/-- 11 R229: a free lock goes to the task that asks. -/
theorem test_lock : (lock (after (.lockReq 5 0 1 2 3 0) (lockable (work 0 255 0))) 255).holder = .task 7 := by decide

/-- 06 Table 06-6: a lookup of a key that is not in the table answers NOT_FOUND, 0x50. -/
theorem test_lookup_miss : hostOctet (after (.lookupEntry (.host aCmd) 0x1000) (tabled 4 false)) 0 0x1000 = 0x50 := by decide +kernel

/-- FIPS 180-4: SHA-256 of the three octets abc begins ba7816bf and ends f20015ad. -/
theorem test_sha256 : (sha256 [0x61, 0x62, 0x63]).take 4 = [0xBA, 0x78, 0x16, 0xBF] ∧
    (sha256 [0x61, 0x62, 0x63]).drop 28 = [0xF2, 0x00, 0x15, 0xAD] := by decide +kernel

/-- FIPS 197, appendix C.1: AES-128 of 00112233445566778899aabbccddeeff under 000102...0f. -/
theorem test_aes : aesEncK (aesKeys ((List.range 16).map (BitVec.ofNat 8))) ((List.range 16).map (fun i => BitVec.ofNat 8 (17 * i)))
    = [0x69, 0xC4, 0xE0, 0xD8, 0x6A, 0x7B, 0x04, 0x30, 0xD8, 0xCD, 0xB7, 0x80, 0x70, 0xB4, 0xC5, 0x5A] := by decide +kernel

/-- 15 Table 15-3: a reading of 95 degrees puts the device into Bolt, 16 R343 with BOLT_N low. -/
theorem test_hot_stack : let u := after (.temperatureReading 95) started
    u.hkc.dbolt = true ∧ u.pins.boltN = false := by decide +kernel

/-- 16 R347: a VIN reading of 10,599 mV enters Rein and 10,600 mV does not. -/
theorem test_rein : (after (.supplyWarning 0 10599) started).hkc.rein = some ⟨0, 10599, 0⟩ ∧
    (after (.supplyWarning 0 10600) started).hkc.rein = none := by decide +kernel

/-- 20 R403: a SETUP register takes no part of a word. -/
theorem test_partial_write : let u := after (.registerWrite .device 0x44 7 0x64) (bound started)
    rdDev u 0x44 = 0x14 ∧ rdCnt u 0xE0838 = 1 := by decide +kernel

/-- 18 R382: a correction of 100,001 ns forward is a step, one of 100,000 ns a slew. -/
theorem test_time_step : (after (.clkTadjWrite 100001) (bound started)).tb.tai = 100001 ∧
    (after (.clkTadjWrite 100000) (bound started)).tb.tai = 0 ∧
    (after (.clkTadjWrite 100000) (bound started)).tb.slewLeft = 100000 := by decide +kernel

/-- With no command waiting a nanosecond passes, and no command is decoded from a word. -/
theorem test_idle : (match step started with
    | .next u => decide (u.now = 1)
    | _ => false) = true ∧ decodeTableWord 32 5 = none ∧ started.withFetchWord 32 5 = started := by decide +kernel

end Sys2Proof.Tests
end

section
/-! PROOFS. The ports' shared operations (02): what counters, device writes, flow control and the buffer a frame stands in
read back after each operation. -/

namespace Sys2Proof.Machine

variable {s : State}

/-! ### Counters -/

theorem rdCnt_cntAdd (s : State) (o n k : Nat) :
    rdCnt (cntAdd s o n) k = if k = o then rdCnt s o + BitVec.ofNat 64 n else rdCnt s k := mget_mset _ _ _ _ _

theorem rdCnt_portCnt_self (s : State) (p k n : Nat) :
    rdCnt (portCnt s p k n) (0x18080 + 0x100 * p + 8 * k) = rdCnt s (0x18080 + 0x100 * p + 8 * k) + BitVec.ofNat 64 n :=
  rdCnt_cntAdd_self s _ n

theorem rdCnt_portCnt_ne {p k n j : Nat} (h : j ≠ k) :
    rdCnt (portCnt s p k n) (0x18080 + 0x100 * p + 8 * j) = rdCnt s (0x18080 + 0x100 * p + 8 * j) := by
  have hne : 0x18080 + 0x100 * p + 8 * j ≠ 0x18080 + 0x100 * p + 8 * k := by omega
  rw [portCnt, rdCnt_cntAdd, if_neg hne]

/-! A port counter changes the registers only. -/
section
variable (s : State) (p k n : Nat)
@[simp] theorem portCnt_mem : (portCnt s p k n).mem = s.mem := rfl
@[simp] theorem portCnt_buf : (portCnt s p k n).buf = s.buf := rfl
@[simp] theorem portCnt_par : (portCnt s p k n).par = s.par := rfl
@[simp] theorem portCnt_out : (portCnt s p k n).out = s.out := rfl
end

/-! ### Device memory without poison -/

/-- A write of device octets changes the memories and the registers only. -/
theorem devWrite_frame (s : State) (a : Nat) (l : List Octet) :
    devWrite s a l = { s with mem := (devWrite s a l).mem, regs := (devWrite s a l).regs } := by
  unfold devWrite; dsimp only; split <;> rfl

@[simp] theorem devWrite_par (s : State) (a : Nat) (l : List Octet) : (devWrite s a l).par = s.par := by
  rw [devWrite_frame]

@[simp] theorem devWrite_prt (s : State) (a : Nat) (l : List Octet) : (devWrite s a l).prt = s.prt := by
  rw [devWrite_frame]

/-- Where no half is poisoned, every octet is written and no counter counts (15 R325). -/
theorem devWrite_of_clean (h : s.mem.poison = []) (a : Nat) (l : List Octet) :
    devWrite s a l = { s with mem := { s.mem with dev := putOctets (fun _ => false) s.mem.dev a l } } := by
  simp [devWrite, h]

theorem devOct_devWrite (h : s.mem.poison = []) (a : Nat) (l : List Octet) (y : Nat) :
    devOct (devWrite s a l) y = if a ≤ y ∧ y < a + l.length then l.getD (y - a) 0 else devOct s y := by
  have hput := mget_putOctets (fun _ => false) l s.mem.dev a y
  simpa [devWrite_of_clean h, devOct] using hput

/-- What was written is read back. -/
theorem devRead_devWrite (h : s.mem.poison = []) (a : Nat) (l : List Octet) :
    devRead (devWrite s a l) a l.length = l := by
  refine List.ext_getElem (by simp [devRead]) fun i _ hi => ?_
  simp [devRead, devOct_devWrite h, hi]

/-! ### Flow control that is off -/

/-- Without flow control a change of ingress usage sends nothing (02 R31, Table 02-5). -/
theorem pauseCheck_of_none {p : Nat} (h : bitsOf (prtCfg s p) 17 16 = 0) : pauseCheck s p = s := by
  simp [pauseCheck, h]

/-- The tag of a frame's run from its admission on: the port's, with the cells reserved for PRT_CFG.MAXLEN (02 R30). -/
def admittedTag (s : State) (p : Nat) (d : List Octet) : BufTag :=
  { owner := portAgent p, run := admitCells s p, alloc := true, origin := some (p, frameClass s p d) }

/-- Freeing a buffer of a port without flow control changes its tag only (12 R255). -/
theorem freeBuf_of_none {p c a : Nat} (ho : (bufTag s a).origin = some (p, c)) (h : bitsOf (prtCfg s p) 17 16 = 0) :
    freeBuf s a = setTag s a { quar := (bufTag s a).quar } := by
  have hfc : bitsOf (prtCfg (setTag s a { quar := (bufTag s a).quar }) p) 17 16 = 0 := h
  simp only [freeBuf, ho]
  exact pauseCheck_of_none hfc

end Sys2Proof.Machine
end

section
/-! PROOFS. Reception (02 R29-R32, R35, R43, R415): what an open port makes of a frame, and a closed one. -/

namespace Sys2Proof.Machine

variable {s : State} {p : Nat} {d : List Octet}

/-- A port that takes frames: enabled, its link up, not in loopback (02 R34, R415). -/
def PortOpen (s : State) (p : Nat) : Prop := portEn s p = true ∧ (portSt s p).linkUp = true ∧ portLoop s p = false

/-- A port outside Bolt, without flow control, whose ingress unit is neither armed nor holds a frame. -/
def IngressCalm (s : State) (p : Nat) : Prop :=
  s.hkc.dbolt = false ∧ bitsOf (prtCfg s p) 17 16 = 0 ∧ hobArmed s (2 * p) = false ∧ (hobUnit s (2 * p)).held = none

/-- A frame, given without its FCS, of a length that the port takes (02 R29). -/
def LengthOk (s : State) (p : Nat) (d : List Octet) : Prop := 60 ≤ d.length ∧ d.length + 4 ≤ maxLen s p

/-- A MAC control frame of the PAUSE or of the PFC opcode. -/
def MacControl (d : List Octet) : Prop := fieldBe d 12 2 = 0x8808 ∧ (fieldBe d 14 2 = 1 ∨ fieldBe d 14 2 = 0x101)

theorem isMacControl_iff : isMacControl d = true ↔ MacControl d := by simp [isMacControl, MacControl]

theorem isMacControl_of_not (h : ¬ MacControl d) : isMacControl d = false :=
  Bool.eq_false_iff.mpr fun e => h (isMacControl_iff.mp e)

theorem portOpen_iff : (portEn s p && (portSt s p).linkUp && !portLoop s p) = true ↔ PortOpen s p := by
  simp [PortOpen, and_assoc]

theorem frameReceive_of_open (h : PortOpen s p) (d : List Octet) (ok : Bool) : frameReceive s p d ok = rxFrame s p d ok :=
  if_pos (portOpen_iff.mpr h)

theorem frameReceive_of_closed (h : ¬ PortOpen s p) (d : List Octet) (ok : Bool) : frameReceive s p d ok = s :=
  if_neg fun e => h (portOpen_iff.mp e)

theorem pauseFrame_of_closed (h : ¬ PortOpen s p) (d : List Octet) : pauseFrame s p d = s :=
  if_neg fun e => h (portOpen_iff.mp (Bool.and_eq_true_iff.mp e).1)

theorem pauseFrame_of_not_macControl (h : ¬ MacControl d) : pauseFrame s p d = s :=
  if_neg fun e => h (isMacControl_iff.mp (Bool.and_eq_true_iff.mp e).2)

theorem pauseFrame_of_macControl (ho : PortOpen s p) (h : MacControl d) : pauseFrame s p d = pauseReceive s p d :=
  if_pos (Bool.and_eq_true_iff.mpr ⟨portOpen_iff.mpr ho, isMacControl_iff.mpr h⟩)

/-! ### The tests of R29 -/

/-- The counter of the first test of R29 that a frame fails. -/
def firstFailed (s : State) (p : Nat) (d : List Octet) (ok : Bool) : Option Nat :=
  if d.length + 4 < 64 then some 5 else if maxLen s p < d.length + 4 then some 6 else if !ok then some 4 else none

theorem firstFailed_of_good (h : LengthOk s p d) : firstFailed s p d true = none := by
  obtain ⟨hmin, hmax⟩ := h
  simp [firstFailed, show ¬ d.length + 4 < 64 by omega, Nat.not_lt.mpr hmax]

theorem firstFailed_of_badFcs (h : LengthOk s p d) : firstFailed s p d false = some 4 := by
  obtain ⟨hmin, hmax⟩ := h
  simp [firstFailed, show ¬ d.length + 4 < 64 by omega, Nat.not_lt.mpr hmax]

theorem firstFailed_of_short (h : d.length < 60) (ok : Bool) : firstFailed s p d ok = some 5 := by
  simp [firstFailed, show d.length + 4 < 64 by omega]

theorem firstFailed_of_long (hmin : 60 ≤ d.length) (h : maxLen s p < d.length + 4) (ok : Bool) :
    firstFailed s p d ok = some 6 := by
  simp [firstFailed, show ¬ d.length + 4 < 64 by omega, h]

/-- A good PAUSE or PFC frame is acted on at the port (02 R29). -/
theorem rxFrame_of_macControl (hg : LengthOk s p d) (h : MacControl d) : rxFrame s p d true = pauseReceive s p d := by
  have hcond : ((firstFailed s p d true).isNone && isMacControl d) = true := by
    simp [firstFailed_of_good hg, isMacControl_iff.mpr h]
  exact if_pos hcond

/-- A frame that fails a test of R29 changes its counter, and the tags of buffers. -/
theorem rxFrame_of_failed {ok : Bool} {k a : Nat} (hc : IngressCalm s p) (ha : admitRun s p = .run a)
    (hk : firstFailed s p d ok = some k) :
    ∃ t, rxFrame s p d ok = portCnt (setTag (setTag s a (admittedTag s p d)) a t) p k 1 := by
  obtain ⟨hbolt, hfc, -, -⟩ := hc
  have hfc' : bitsOf (prtCfg (setTag s a (admittedTag s p d)) p) 17 16 = 0 := hfc
  have horigin : (bufTag (setTag s a (admittedTag s p d)) a).origin = some (p, frameClass s p d) := by simp [admittedTag]
  have hfreed : rxFrame s p d ok = portCnt (freeBuf (pauseCheck (setTag s a (admittedTag s p d)) p) a) p k 1 := by
    unfold firstFailed at hk
    simp only [rxFrame, hk, hbolt, ha, Option.isNone_some, Bool.false_and, Bool.false_eq_true, if_false]
    rfl
  rw [hfreed, pauseCheck_of_none hfc', freeBuf_of_none horigin hfc']
  exact ⟨_, rfl⟩

/-- A good frame that is not admitted counts as an admission drop, and as one for want of a fitting run (02 R30). -/
theorem rxFrame_of_refused {b : Bool} (hb : s.hkc.dbolt = false) (ha : admitRun s p = .refused b) (hg : LengthOk s p d)
    (hm : ¬ MacControl d) :
    rxFrame s p d true = if b then portCnt (portCnt s p 7 1) p 14 1 else portCnt s p 7 1 := by
  have hk := firstFailed_of_good hg
  unfold firstFailed at hk
  simp only [rxFrame, hk, hb, ha, isMacControl_of_not hm, Bool.and_false, Bool.false_eq_true, if_false]

/-! ### Delivery -/

theorem rxRelease_of_not_held (h : (hobUnit s (2 * p)).held = none) : rxRelease s p = s := by simp [rxRelease, hobDue, h]

/-- Past a unit that is not armed a good frame is counted and goes to the parser (02 R29). -/
theorem rxHobble_of_disarmed {f : HobFrame} (hu : hobArmed s (2 * p) = false) (hh : (hobUnit s (2 * p)).held = none) :
    rxHobble s p f = rxDeliver (portCnt (portCnt s p 0 1) p 1 (f.octets.length + 4)) p f := by
  simp [rxHobble, rxRelease_of_not_held hh, hu]

/-- A frame as the parser finds it (03 R46). -/
def HobFrame.delivered (f : HobFrame) (p : Nat) : RxFrame :=
  { port := p, buf := f.buf, len := f.octets.length + 4, ts := f.ts, hobble := f.flag }

/-- A frame with a good FCS is written to its buffer and joins its port's frames. -/
theorem rxDeliver_of_ok {f : HobFrame} (h : f.fcsOk = true) :
    rxDeliver s p f = { devWrite s f.buf f.octets with
      par := { s.par with rx := mset [] s.par.rx p (mget [] s.par.rx p ++ [f.delivered p]) } } := by
  simp [rxDeliver, h, HobFrame.delivered]

/-- A good frame as its port takes it in, with its ingress timestamp (02 R35). -/
def admittedFrame (s : State) (p : Nat) (d : List Octet) (a : Nat) : HobFrame :=
  { octets := d, buf := a, ts := tslat s p 15 0 }

/-- The tag of an admitted frame's run once the frame has ended: the cells it does not use are returned (02 R30). -/
def endedTag (s : State) (p : Nat) (d : List Octet) : BufTag :=
  { admittedTag s p d with run := cdiv (d.length + 4) 256 }

/-- The state in which an admitted frame is delivered: its run is cut to its length, and its port has counted it. -/
def admittedState (s : State) (p : Nat) (d : List Octet) (a : Nat) : State :=
  portCnt (portCnt (setTag (setTag s a (admittedTag s p d)) a (endedTag s p d)) p 0 1) p 1 (d.length + 4)

@[simp] theorem admittedState_mem (s : State) (p : Nat) (d : List Octet) (a : Nat) : (admittedState s p d a).mem = s.mem := by
  simp [admittedState]

theorem bufTag_admittedState (s : State) (p : Nat) (d : List Octet) (a : Nat) :
    bufTag (admittedState s p d a) a = endedTag s p d :=
  (bufTag_setTag _ a a _).trans (if_pos rfl)

/-- Counter 0 counts the frame (02 Table 02-7). -/
theorem rdCnt_admittedState (s : State) (p : Nat) (d : List Octet) (a : Nat) :
    rdCnt (admittedState s p d a) (0x18080 + 0x100 * p + 8 * 0) = rdCnt s (0x18080 + 0x100 * p + 8 * 0) + 1 :=
  (rdCnt_portCnt_ne (by decide)).trans (rdCnt_portCnt_self (setTag _ a _) p 0 1)

/-- A good frame that is admitted is delivered. -/
theorem rxFrame_of_admitted {a : Nat} (hc : IngressCalm s p) (ha : admitRun s p = .run a) (hg : LengthOk s p d)
    (hm : ¬ MacControl d) : rxFrame s p d true = rxDeliver (admittedState s p d a) p (admittedFrame s p d a) := by
  obtain ⟨hbolt, hfc, harm, hheld⟩ := hc
  have hfc1 : ∀ t, pauseCheck (setTag s a t) p = setTag s a t := fun _ => pauseCheck_of_none hfc
  have hfc2 : ∀ t t', pauseCheck (setTag (setTag s a t) a t') p = setTag (setTag s a t) a t' :=
    fun _ _ => pauseCheck_of_none hfc
  have hk := firstFailed_of_good hg
  unfold firstFailed at hk
  simp only [rxFrame, hk, hbolt, ha, isMacControl_of_not hm, hfc1, hfc2, Bool.and_false, Bool.false_eq_true, if_false]
  exact rxHobble_of_disarmed harm hheld

/-! ### PAUSE and PFC received -/

/-- One class of a PFC frame: its time takes effect when the frame's enable vector names it. -/
def pfcClass (p : Nat) (d : List Octet) (s : State) (c : Nat) : State :=
  if bitOf (fieldBe d 16 2) c then pauseAct s p (some c) (fieldBe d (18 + 2 * c) 2) else s

theorem pauseReceive_of_pause (h : fieldBe d 14 2 = 1) :
    pauseReceive s p d = portCnt (pauseAct s p none (fieldBe d 16 2)) p 9 1 := by
  simp [pauseReceive, h]

theorem pauseReceive_of_pfc (h : fieldBe d 14 2 = 0x101) :
    pauseReceive s p d = portCnt ((List.range 8).foldl (pfcClass p d) s) p 9 1 := by
  simp only [pauseReceive, h]; rfl

/-- A class's time changes the ports only. -/
theorem pfcClass_frame (s : State) (p : Nat) (d : List Octet) (c : Nat) :
    pfcClass p d s c = { s with prt := (pfcClass p d s c).prt } := by
  unfold pfcClass; split <;> rfl

theorem foldl_pfcClass_frame (p : Nat) (d : List Octet) (l : List Nat) (s : State) :
    l.foldl (pfcClass p d) s = { s with prt := (l.foldl (pfcClass p d) s).prt } := by
  induction l generalizing s with
  | nil => rfl
  | cons c l ih => rw [List.foldl_cons, ih, pfcClass_frame s]

theorem portSt_pfcClass_pauseUntil (s : State) (p : Nat) (d : List Octet) (c : Nat) :
    (portSt (pfcClass p d s c) p).pauseUntil = (portSt s p).pauseUntil := by
  unfold pfcClass; split <;> simp [pauseAct]

theorem portSt_foldl_pfcClass_pauseUntil (p : Nat) (d : List Octet) (l : List Nat) (s : State) :
    (portSt (l.foldl (pfcClass p d) s) p).pauseUntil = (portSt s p).pauseUntil := by
  induction l generalizing s with
  | nil => rfl
  | cons c l ih => rw [List.foldl_cons, ih, portSt_pfcClass_pauseUntil]

/-- Until when class `c` is paused after a PFC frame that names it: zero quanta end the pause (02 R32). -/
def pfcEnd (s : State) (p : Nat) (d : List Octet) (c : Nat) : Option Nat :=
  if fieldBe d (18 + 2 * c) 2 = 0 then none else some (s.now + pauseNs s p (fieldBe d (18 + 2 * c) 2))

theorem pfcEnd_pfcClass (s : State) (p : Nat) (d : List Octet) (k c : Nat) :
    pfcEnd (pfcClass p d s k) p d c = pfcEnd s p d c := by
  rw [pfcClass_frame]; rfl

theorem mfind_pfcUntil_pfcClass (s : State) (p : Nat) (d : List Octet) (k c : Nat) :
    mfind (portSt (pfcClass p d s k) p).pfcUntil c =
      if c = k ∧ (fieldBe d 16 2).testBit c = true then pfcEnd s p d c else mfind (portSt s p).pfcUntil c := by
  unfold pfcClass
  rw [bitOf_eq]
  by_cases hk : c = k
  · subst hk
    cases hb : (fieldBe d 16 2).testBit c
    · simp
    · simp only [if_true, pauseAct, portSt_setPort, pfcEnd]
      split <;> simp
  · split
    · simp only [pauseAct, portSt_setPort, if_true, hk, false_and, if_false]
      split <;> simp [mfind_mdel_ne, mfind_mput_ne, hk]
    · simp [hk]

/-- After the classes of a list, each that stands in it and is named by the frame has its new time. -/
theorem mfind_pfcUntil_foldl_pfcClass (p : Nat) (d : List Octet) (c : Nat) (l : List Nat) (s : State) :
    mfind (portSt (l.foldl (pfcClass p d) s) p).pfcUntil c =
      if c ∈ l ∧ (fieldBe d 16 2).testBit c = true then pfcEnd s p d c else mfind (portSt s p).pfcUntil c := by
  induction l generalizing s with
  | nil => simp
  | cons k l ih =>
    rw [List.foldl_cons, ih, pfcEnd_pfcClass, mfind_pfcUntil_pfcClass]
    cases hb : (fieldBe d 16 2).testBit c
    · simp
    · by_cases hl : c ∈ l
      · simp [hl]
      · simp [hl]

/-- A received PAUSE or PFC frame touches the port's pause times and counters, and no frame, memory or buffer. -/
theorem pauseReceive_frame (s : State) (p : Nat) (d : List Octet) :
    ∃ x, pauseReceive s p d = portCnt { s with prt := x } p 9 1 := by
  unfold pauseReceive
  split
  · exact ⟨_, rfl⟩
  · exact ⟨_, congrArg (portCnt · p 9 1) (foldl_pfcClass_frame p d (List.range 8) s)⟩

end Sys2Proof.Machine
end

section
/-! PROOFS. The statement on reception and pause (02 R29-R32, R34, R35, R43, R415), clause by clause. -/

namespace Sys2Proof.Machine

variable {s : State} {port : BitVec 7} {d : List Octet}

/-- Between two states a port counter counts one. -/
def CountedOnce (s u : State) (p k : Nat) : Prop :=
  rdCnt u (0x18080 + 0x100 * p + 8 * k) = rdCnt s (0x18080 + 0x100 * p + 8 * k) + 1

theorem countedOnce_portCnt (s : State) (p k : Nat) : CountedOnce s (portCnt s p k 1) p k := rdCnt_portCnt_self s p k 1

/-- A port that is down, disabled or in loopback takes no frame (02 R34, R415). -/
theorem exec_receive_of_closed (h : ¬ PortOpen s port.toNat) (ok : Bool) :
    exec (.frameReceive port d ok) s = .next s ∧ exec (.pauseReceive port d) s = .next s :=
  ⟨congrArg Host.Outcome.next (frameReceive_of_closed h d ok), congrArg Host.Outcome.next (pauseFrame_of_closed h d)⟩

/-- A good frame that is admitted stands in its run of cells and joins its port's frames in order (02 R30, R35). -/
theorem exec_frameReceive_of_admitted {a : Nat} (ho : PortOpen s port.toNat) (hc : IngressCalm s port.toNat)
    (ha : admitRun s port.toNat = .run a) (hg : LengthOk s port.toNat d) (hm : ¬ MacControl d) (hp : s.mem.poison = []) :
    ∃ u f, exec (.frameReceive port d true) s = .next u ∧
      mget [] u.par.rx port.toNat = mget [] s.par.rx port.toNat ++ [f] ∧
      (∀ j, j ≠ port.toNat → mget [] u.par.rx j = mget [] s.par.rx j) ∧ f.port = port.toNat ∧ f.buf = a ∧
      f.len = d.length + 4 ∧ f.ts = tslat s port.toNat 15 0 ∧ f.hobble = false ∧ devRead u a d.length = d ∧
      (∀ y, y < a ∨ a + d.length ≤ y → devOct u y = devOct s y) ∧ (bufTag u a).alloc = true ∧
      (bufTag u a).owner = portAgent port.toNat ∧ (bufTag u a).run = cdiv (d.length + 4) 256 ∧
      CountedOnce s u port.toNat 0 := by
  set p := port.toNat
  set t := admittedState s p d a
  have hpt : t.mem.poison = [] := by rw [admittedState_mem, hp]
  have hu : frameReceive s p d true = { devWrite t a d with
      par := { t.par with rx := mset [] t.par.rx p (mget [] t.par.rx p ++ [(admittedFrame s p d a).delivered p]) } } := by
    rw [frameReceive_of_open ho, rxFrame_of_admitted hc ha hg hm, rxDeliver_of_ok rfl]; rfl
  have htag : bufTag (devWrite t a d) a = endedTag s p d := by
    rw [devWrite_of_clean hpt]; exact bufTag_admittedState s p d a
  have helse : ∀ y, y < a ∨ a + d.length ≤ y → devOct (devWrite t a d) y = devOct s y := fun y hy => by
    rw [devOct_devWrite hpt, if_neg (by omega), devOct, devOct, admittedState_mem]
  have hcnt : CountedOnce s (devWrite t a d) p 0 := by
    rw [devWrite_of_clean hpt]; exact rdCnt_admittedState s p d a
  exact ⟨_, (admittedFrame s p d a).delivered p, congrArg Host.Outcome.next hu, mget_mset_self _ _ _ _,
    fun j hj => mget_mset_ne hj, rfl, rfl, rfl, rfl, rfl, devRead_devWrite hpt a d, helse, congrArg BufTag.alloc htag,
    congrArg BufTag.owner htag, congrArg BufTag.run htag, hcnt⟩

/-- A frame that fails R29 is counted in the counter of its first failed test, and goes nowhere. -/
theorem exec_frameReceive_of_failed {ok : Bool} {a k : Nat} (ho : PortOpen s port.toNat) (hc : IngressCalm s port.toNat)
    (ha : admitRun s port.toNat = .run a) (hk : firstFailed s port.toNat d ok = some k) :
    ∃ u, exec (.frameReceive port d ok) s = .next u ∧ u.par = s.par ∧ u.mem = s.mem ∧ CountedOnce s u port.toNat k := by
  obtain ⟨t, ht⟩ := rxFrame_of_failed hc ha hk
  refine ⟨_, congrArg Host.Outcome.next ((frameReceive_of_open ho d ok).trans ht), by simp, by simp, ?_⟩
  exact rdCnt_portCnt_self _ _ k 1

/-- A good frame that is not admitted counts as an admission drop (02 R30). -/
theorem exec_frameReceive_of_refused {b : Bool} (ho : PortOpen s port.toNat) (hb : s.hkc.dbolt = false)
    (ha : admitRun s port.toNat = .refused b) (hg : LengthOk s port.toNat d) (hm : ¬ MacControl d) :
    ∃ u, exec (.frameReceive port d true) s = .next u ∧ u.par = s.par ∧ u.mem = s.mem ∧ u.buf = s.buf ∧
      CountedOnce s u port.toNat 7 := by
  have hu : frameReceive s port.toNat d true =
      if b then portCnt (portCnt s port.toNat 7 1) port.toNat 14 1 else portCnt s port.toNat 7 1 := by
    rw [frameReceive_of_open ho, rxFrame_of_refused hb ha hg hm]
  cases b with
  | false =>
    rw [if_neg Bool.false_ne_true] at hu
    exact ⟨_, congrArg Host.Outcome.next hu, by simp, by simp, by simp, countedOnce_portCnt s _ 7⟩
  | true =>
    rw [if_pos rfl] at hu
    refine ⟨_, congrArg Host.Outcome.next hu, by simp, by simp, by simp, ?_⟩
    exact (rdCnt_portCnt_ne (by decide)).trans (countedOnce_portCnt s _ 7)

/-- Both commands that bring a good PAUSE or PFC frame act on it at the port. -/
theorem exec_macControl (ho : PortOpen s port.toNat) (hg : LengthOk s port.toNat d) (hm : MacControl d) :
    ∀ j ∈ [Instr.frameReceive port d true, .pauseReceive port d], exec j s = .next (pauseReceive s port.toNat d) := by
  have hframe : frameReceive s port.toNat d true = pauseReceive s port.toNat d :=
    (frameReceive_of_open ho d true).trans (rxFrame_of_macControl hg hm)
  intro j hj
  rcases List.mem_pair.mp hj with rfl | rfl
  · exact congrArg Host.Outcome.next hframe
  · exact congrArg Host.Outcome.next (pauseFrame_of_macControl ho hm)

/-- A PAUSE stops the port for its quanta, and zero quanta end the pause (02 R32). -/
theorem pauseUntil_pauseReceive_of_pause {p : Nat} (h : fieldBe d 14 2 = 1) :
    (portSt (pauseReceive s p d) p).pauseUntil =
      if fieldBe d 16 2 = 0 then none else some (s.now + pauseNs s p (fieldBe d 16 2)) := by
  have hst : portSt (pauseReceive s p d) p = portSt (pauseAct s p none (fieldBe d 16 2)) p := by
    rw [pauseReceive_of_pause h]; rfl
  simp [hst, pauseAct]

/-- A PFC frame leaves the port's pause alone (02 R32). -/
theorem pauseUntil_pauseReceive_of_pfc {p : Nat} (h : fieldBe d 14 2 = 0x101) :
    (portSt (pauseReceive s p d) p).pauseUntil = (portSt s p).pauseUntil := by
  rw [pauseReceive_of_pfc h]
  exact portSt_foldl_pfcClass_pauseUntil p d (List.range 8) s

/-- A PFC frame stops the classes its enable vector names, and no other (02 R32). -/
theorem pfcUntil_pauseReceive_of_pfc {p c : Nat} (h : fieldBe d 14 2 = 0x101) (hc : c < 8) :
    mfind (portSt (pauseReceive s p d) p).pfcUntil c =
      if (fieldBe d 16 2).testBit c then pfcEnd s p d c else mfind (portSt s p).pfcUntil c := by
  have hfold := mfind_pfcUntil_foldl_pfcClass p d c (List.range 8) s
  rw [pauseReceive_of_pfc h]
  exact hfold.trans (by simp [hc])

/-! ### Pause times and repeats -/

theorem pauseExpire_port {p t : Nat} (h : (portSt s p).pauseUntil = some t) :
    pauseExpire s p none = if t ≤ s.now then setPort s p { portSt s p with pauseUntil := none } else s := by
  simp [pauseExpire, h]

theorem pauseExpire_class {p c t : Nat} (h : mfind (portSt s p).pfcUntil c = some t) :
    pauseExpire s p (some c) =
      if t ≤ s.now then setPort s p { portSt s p with pfcUntil := mdel (portSt s p).pfcUntil c } else s := by
  simp [pauseExpire, h]

/-- With PAUSE alone asserted, PAUSE_REPEAT looks at it alone (02 R31). -/
theorem pauseRepeat_of_pause {p : Nat} (hl : (portSt s p).linkUp = true) (hb : s.hkc.dbolt = false)
    (hx : (portSt s p).xoff = [(8, true)]) :
    pauseRepeat s p =
      if pauseInUse s p 8 && decide (mget 0 (portSt s p).lastPause 8 + pauseNs s p 0x7FFF ≤ s.now) then
        pauseSend s p 8 0xFFFF else s := by
  simp [pauseRepeat, hl, hb, hx]

/-- PAUSE is in use exactly with FC = 01 (02 Table 02-5). -/
theorem pauseInUse_pause_iff {p : Nat} : pauseInUse s p 8 = true ↔ bitsOf (prtCfg s p) 17 16 = 1 := by
  unfold pauseInUse; split <;> simp_all

/-- Out of loopback a PAUSE goes to the link partner (02 R31, R415). -/
theorem pauseSend_pause_frame {p quanta : Nat} (hl : portLoop s p = false) :
    (pauseSend s p 8 quanta).par = s.par ∧ (pauseSend s p 8 quanta).out = s.out ++ [.pause p none quanta] := by
  have hl' : ∀ x, portLoop (portCnt (setPort s p x) p 10 1) p = false := fun _ => hl
  simp [pauseSend, hl']

/-- PAUSE is repeated every 0x7FFF quanta while PRT_CFG.FC calls for it (02 R31). -/
theorem exec_pauseRepeat_of_pause (hl : (portSt s port.toNat).linkUp = true) (hb : s.hkc.dbolt = false)
    (hfc : bitsOf (prtCfg s port.toNat) 17 16 = 1) (hloop : portLoop s port.toNat = false)
    (hx : (portSt s port.toNat).xoff = [(8, true)]) :
    ∃ u, exec (.pauseRepeat port) s = .next u ∧ u.par = s.par ∧
      u.out = s.out ++ (if mget 0 (portSt s port.toNat).lastPause 8 + pauseNs s port.toNat 0x7FFF ≤ s.now then
        [.pause port.toNat none 0xFFFF] else []) := by
  refine ⟨_, congrArg Host.Outcome.next (pauseRepeat_of_pause hl hb hx), ?_⟩
  rw [pauseInUse_pause_iff.mpr hfc, Bool.true_and]
  by_cases hdue : mget 0 (portSt s port.toNat).lastPause 8 + pauseNs s port.toNat 0x7FFF ≤ s.now
  · simp only [hdue, decide_true, if_true]
    exact pauseSend_pause_frame hloop
  · simp [hdue]

theorem exec_pauseRepeat_of_not_pause (hl : (portSt s port.toNat).linkUp = true) (hb : s.hkc.dbolt = false)
    (hfc : bitsOf (prtCfg s port.toNat) 17 16 ≠ 1) (hx : (portSt s port.toNat).xoff = [(8, true)]) :
    exec (.pauseRepeat port) s = .next s := by
  have hoff : pauseInUse s port.toNat 8 = false := Bool.eq_false_iff.mpr fun h => hfc (pauseInUse_pause_iff.mp h)
  have hu : pauseRepeat s port.toNat = s := by simp [pauseRepeat_of_pause hl hb hx, hoff]
  exact congrArg Host.Outcome.next hu

/-- Settles O36: each clause is the lemma above about the command it names. -/
theorem portReception : Obligations.PortReception := by
  unfold Obligations.PortReception
  intro s port d ok a quanta cl p x open_ calm good count mac quantum
  refine ⟨fun h => exec_receive_of_closed h ok, ?_, ?_, ?_, ?_, ?_, ?_, ?_, ?_⟩
  · exact fun h => congrArg Host.Outcome.next (pauseFrame_of_not_macControl h)
  · intro ho hc ha
    refine ⟨fun hg hm hp => exec_frameReceive_of_admitted ho hc ha hg hm hp, ?_, ?_, ?_⟩
    · rintro hg rfl
      exact exec_frameReceive_of_failed ho hc ha (firstFailed_of_badFcs hg)
    · exact fun h => exec_frameReceive_of_failed ho hc ha (firstFailed_of_short h ok)
    · exact fun h1 h2 => exec_frameReceive_of_failed ho hc ha (firstFailed_of_long h1 h2 ok)
  · exact fun ho hc b ha hg hm => exec_frameReceive_of_refused ho hc.1 ha hg hm
  · intro ho hg hm j hj
    obtain ⟨y, hy⟩ := pauseReceive_frame s p d
    have hsame : (pauseReceive s p d).par = s.par ∧ (pauseReceive s p d).mem = s.mem ∧ (pauseReceive s p d).buf = s.buf ∧
        count (pauseReceive s p d) 9 := by
      rw [hy]; exact ⟨rfl, rfl, rfl, countedOnce_portCnt _ p 9⟩
    obtain ⟨hpar, hmem, hbuf, hcnt⟩ := hsame
    refine ⟨_, exec_macControl ho hg hm j hj, hpar, hmem, hbuf, hcnt, ?_, ?_⟩
    · rintro hop rfl
      exact pauseUntil_pauseReceive_of_pause hop
    · rintro hop rfl
      exact ⟨pauseUntil_pauseReceive_of_pfc hop, pfcUntil_pauseReceive_of_pfc hop cl.isLt⟩
  · exact fun t h => congrArg Host.Outcome.next (pauseExpire_port h)
  · exact fun t h => congrArg Host.Outcome.next (pauseExpire_class h)
  · exact fun hl hb hfc hx => exec_pauseRepeat_of_not_pause hl hb hfc hx
  · exact fun hl hb hfc hloop hx => exec_pauseRepeat_of_pause hl hb hfc hloop hx

end Sys2Proof.Machine
end

section
/-! PROOFS. Links (02 R26, R28, R34, R41, R43): which mode a link comes up in, and what one that goes down leaves alone. -/

namespace Sys2Proof.Machine

variable {s : State} {p : Nat}

/-! ### Link up -/

/-- The mode a quad's MODE and FEC bring up (02 Tables 02-1, 02-2, 02-6). -/
def QuadFits (qm fec m : Nat) : Prop :=
  (qm = 1 ∧ m = 1) ∨ (qm = 2 ∧ m = if fec = 1 then 3 else 2) ∨ (qm = 3 ∧ m = if fec = 3 then 4 else 4 + fec)

theorem modeFits_iff {m : Nat} :
    modeFits s p m = true ↔ QuadFits (fld s (0x10000 + 4 * (p / 4)) 1 0) (fld s (0x10000 + 4 * (p / 4)) 3 2) m := by
  unfold modeFits quadFec quadMode QuadFits
  split
  case h_1 h => simp [h]
  case h_2 h => simp only [h, decide_eq_true_eq]; split <;> simp
  case h_3 h => simp only [h, decide_eq_true_eq]; split <;> simp
  case h_4 h1 h2 h3 =>
    refine iff_of_false Bool.false_ne_true ?_
    rintro (⟨h, -⟩ | ⟨h, -⟩ | ⟨h, -⟩)
    · exact h1 h
    · exact h2 h
    · exact h3 h

theorem linkUpNow_of_fits {m : Nat} (he : portEn s p = true) (hm : modeFits s p m = true) (hb : s.hkc.dbolt = false) :
    linkUpNow s p m =
      setPort s p { portSt s p with linkUp := true, fecLock := decide (m = 3 ∨ m = 5 ∨ m = 6), negMode := m } := by
  simp [linkUpNow, he, hm, hb]

theorem linkUpNow_of_not {m : Nat} (h : portEn s p = false ∨ ¬ modeFits s p m = true ∨ s.hkc.dbolt = true) :
    linkUpNow s p m = s := by
  rcases h with h | h | h <;> simp [linkUpNow, h]

/-! ### Link down -/

/-- A port that sends no frame and whose Hobble units hold none. -/
def PortClear (s : State) (p : Nat) : Prop :=
  (portSt s p).tx = none ∧ (hobUnit s (2 * p)).held = none ∧ (hobUnit s (2 * p + 1)).held = none

/-- A port once its link is down (02 R34). -/
def Port.down (x : Port) : Port :=
  { x with linkUp := false, fecLock := false, negMode := 0, pauseUntil := none, pfcUntil := [], xoff := [], tx := none }

theorem hobDiscard_of_not_held {u : Nat} (h : (hobUnit s u).held = none) : hobDiscard s u = s := by simp [hobDiscard, h]

/-- The link of a clear port goes down: nothing but the port changes. -/
theorem linkDownNow_of_clear (h : PortClear s p) : linkDownNow s p = setPort s p (portSt s p).down := by
  obtain ⟨htx, hin, hout⟩ := h
  simp only [linkDownNow, htx, hobDiscard_of_not_held hin, hobDiscard_of_not_held hout]
  rfl

theorem portClear_setPort_down {j : Nat} (h : PortClear s j) (k : Nat) : PortClear (setPort s k (portSt s k).down) j := by
  obtain ⟨htx, hin, hout⟩ := h
  refine ⟨?_, hin, hout⟩
  rw [portSt_setPort]
  split
  · rfl
  · exact htx

/-- The links of several ports go down, one after the other. -/
def linksDown (s : State) (l : List Nat) : State := l.foldl linkDownNow s

theorem linksDown_cons {k : Nat} (h : PortClear s k) (l : List Nat) :
    linksDown s (k :: l) = linksDown (setPort s k (portSt s k).down) l :=
  congrArg (linksDown · l) (linkDownNow_of_clear h)

/-- Clear ports whose links go down: those ports change, and nothing else does. -/
theorem linksDown_frame (l : List Nat) (s : State) (h : ∀ j ∈ l, PortClear s j) :
    linksDown s l = { s with prt := { s.prt with ports := (linksDown s l).prt.ports } } := by
  induction l generalizing s with
  | nil => rfl
  | cons k l ih =>
    have hrest : ∀ j ∈ l, PortClear (setPort s k (portSt s k).down) j := fun j hj =>
      portClear_setPort_down (h j (List.mem_cons_of_mem k hj)) k
    rw [linksDown_cons (h k List.mem_cons_self), ih _ hrest]; rfl

theorem portSt_linksDown (l : List Nat) (s : State) (h : ∀ j ∈ l, PortClear s j) (hl : l.Nodup) (j : Nat) :
    portSt (linksDown s l) j = if j ∈ l then (portSt s j).down else portSt s j := by
  induction l generalizing s with
  | nil => rfl
  | cons k l ih =>
    obtain ⟨hk, hl⟩ := List.nodup_cons.mp hl
    have hrest : ∀ j ∈ l, PortClear (setPort s k (portSt s k).down) j := fun j hj =>
      portClear_setPort_down (h j (List.mem_cons_of_mem k hj)) k
    rw [linksDown_cons (h k List.mem_cons_self), ih _ hrest hl, portSt_setPort]
    by_cases hj : j = k
    · subst hj; simp [hk]
    · simp [hj]

/-! ### The four ports of a quad -/

/-- The ports of a quad (02 R27). -/
def quadPorts (q : Nat) : List Nat := (List.range 4).map (4 * q + ·)

theorem mem_quadPorts {q j : Nat} : j ∈ quadPorts q ↔ j / 4 = q := by
  simp only [quadPorts, List.mem_map, List.mem_range]
  constructor
  · rintro ⟨i, hi, rfl⟩; omega
  · intro h; exact ⟨j % 4, by omega, by omega⟩

theorem nodup_quadPorts (q : Nat) : (quadPorts q).Nodup :=
  List.nodup_range.map fun i j h => by simpa using h

theorem foldl_linkDownNow_quad (s : State) (q : Nat) :
    (List.range 4).foldl (fun s i => linkDownNow s (4 * q + i)) s = linksDown s (quadPorts q) := List.foldl_map.symm

/-- The links of a clear quad go down: its four ports change, and nothing else does (02 R41). -/
theorem quadDown_of_clear {q : Nat} (h : ∀ j, j / 4 = q → PortClear s j) :
    linksDown s (quadPorts q) = { s with prt := { s.prt with ports := (linksDown s (quadPorts q)).prt.ports } } ∧
      (∀ j, j / 4 = q → portSt (linksDown s (quadPorts q)) j = (portSt s j).down) ∧
      ∀ j, j / 4 ≠ q → portSt (linksDown s (quadPorts q)) j = portSt s j := by
  have hclear : ∀ j ∈ quadPorts q, PortClear s j := fun j hj => h j (mem_quadPorts.mp hj)
  have hst := portSt_linksDown (quadPorts q) s hclear (nodup_quadPorts q)
  exact ⟨linksDown_frame _ s hclear, fun j hj => (hst j).trans (if_pos (mem_quadPorts.mpr hj)),
    fun j hj => (hst j).trans (if_neg fun e => hj (mem_quadPorts.mp e))⟩

end Sys2Proof.Machine
end

section
/-! PROOFS. The device window's rows of the ports and of Hobble (20 Table 20-3): a write of PRT_QCFG or HOB_CFG reaches the
operation that the register starts. -/

namespace Sys2Proof.Machine

variable {s : State}

/-- Where the last block of a row ends. -/
def RegDef.ends (d : RegDef) : Nat := d.base + d.s1 * (d.n1 - 1) + max (4 * d.words) (d.n2 * d.s2)

/-- A row whose last block ends below an offset does not hold it. -/
theorem locate_of_past {d : RegDef} {o : Nat} (hs : 0 < d.s2) (h : d.ends ≤ o) : d.locate o = none := by
  have hend : ¬ ((o - d.base) / d.s1 < d.n1 ∧ (o - d.base) % d.s1 < max (4 * d.words) (d.n2 * d.s2)) := by
    rintro ⟨hi, hr⟩
    have hblock : d.s1 * ((o - d.base) / d.s1) ≤ d.s1 * (d.n1 - 1) := Nat.mul_le_mul_left _ (by omega)
    have hsplit := Nat.div_add_mod (o - d.base) d.s1
    unfold RegDef.ends at h
    omega
  have hplace : ((o - d.base) % d.s1 < 4 * d.words ∨ (o - d.base) % d.s1 < d.n2 * d.s2) →
      (o - d.base) % d.s1 < max (4 * d.words) (d.n2 * d.s2) := lt_max_iff.mpr
  unfold RegDef.locate
  dsimp only
  split
  · rfl
  · refine if_neg ?_
    rintro ⟨hi, hj, -, hw⟩
    refine hend ⟨hi, hplace ?_⟩
    by_cases hn : d.n2 = 1
    · rw [if_pos hn] at hw; exact .inl (by omega)
    · rw [if_neg hn] at hj; exact .inr ((Nat.div_lt_iff_lt_mul hs).mp hj)

/-- A row with one place per block holds the first word of each block. -/
theorem locate_of_block {d : RegDef} {i : Nat} (hs : 0 < d.s1) (hn : d.n2 = 1) (hw : 0 < d.words) (hi : i < d.n1) :
    d.locate (d.base + d.s1 * i) = some ⟨d, i, 0, 0⟩ := by
  have hb : ¬ d.base + d.s1 * i < d.base := by omega
  simp [RegDef.locate, hb, hn, Nat.mul_div_cancel_left _ hs, hi, hw]

/-- The register at the start of a block, when every earlier row of the map ends before its row begins. -/
theorem regFind_of_block {k i : Nat} {d : RegDef} (hk : devMap[k]? = some d)
    (hpast : ∀ x ∈ devMap.take k, 0 < x.s2 ∧ x.ends ≤ d.base) (hs : 0 < d.s1) (hn : d.n2 = 1)
    (hw : 0 < d.words) (hi : i < d.n1) : regFind (d.base + d.s1 * i) = some ⟨d, i, 0, 0⟩ := by
  obtain ⟨hlen, hget⟩ := List.getElem?_eq_some_iff.mp hk
  have hnone : (devMap.take k).findSome? (fun x => x.locate (d.base + d.s1 * i)) = none :=
    List.findSome?_eq_none_iff.mpr fun x hx => locate_of_past (hpast x hx).1 (by have := (hpast x hx).2; omega)
  rw [regFind, ← List.take_append_drop k devMap, List.findSome?_append, hnone, Option.none_or,
    List.drop_eq_getElem_cons hlen, hget, List.findSome?_cons, locate_of_block hs hn hw hi]

/-- The row of PRT_QCFG, one word per quad (02 Table 02-4). -/
def prtQcfgRow : RegDef := ⟨.prtQcfg, 0x10000, 32, 4, 1, 4, 1, [0], [0xff]⟩

/-- The row of HOB_CFG, one word per unit (02 Table 02-8). -/
def hobCfgRow : RegDef := ⟨.hobCfg, 0x20000, 256, 0x80, 1, 4, 1, [0], [0x7f]⟩

theorem regFind_prtQcfg {q : Nat} (hq : q < 32) : regFind (0x10000 + 4 * q) = some ⟨prtQcfgRow, q, 0, 0⟩ :=
  regFind_of_block (k := 19) (d := prtQcfgRow) rfl (by decide) (by decide) rfl (by decide) hq

theorem regFind_hobCfg {u : Nat} (hu : u < 256) : regFind (0x20000 + 0x80 * u) = some ⟨hobCfgRow, u, 0, 0⟩ :=
  regFind_of_block (k := 28) (d := hobCfgRow) rfl (by decide) (by decide) rfl (by decide) hu

theorem devRegWrite_prtQcfg {q : Nat} (hq : q < 32) (agent v : Nat) :
    devRegWrite s agent (0x10000 + 4 * q) v = quadWrite s q v := by
  have hpar : isParseReg (0x10000 + 4 * q) = false := by
    simp [isParseReg, show ¬ 0x30200 ≤ 0x10000 + 4 * q by omega, show ¬ 0x31000 ≤ 0x10000 + 4 * q by omega]
  have hreg : prtQcfgRow.reg = .prtQcfg := rfl
  have hhbm : isHbmReg .prtQcfg = false := rfl
  have hhob : isHobble .prtQcfg = false := rfl
  simp [devRegWrite, regFind_prtQcfg hq, hreg, hpar, hhbm, hhob]

/-- Without the audit lock (02 R45). -/
theorem devRegWrite_hobCfg {u : Nat} (hu : u < 256) (ha : auditLocked s = false) (agent v : Nat) :
    devRegWrite s agent (0x20000 + 0x80 * u) v = hobbleWrite s u v := by
  have hpar : isParseReg (0x20000 + 0x80 * u) = false := by
    simp [isParseReg, show ¬ 0x30200 ≤ 0x20000 + 0x80 * u by omega, show ¬ 0x31000 ≤ 0x20000 + 0x80 * u by omega]
  have hreg : hobCfgRow.reg = .hobCfg := rfl
  have hhbm : isHbmReg .hobCfg = false := rfl
  simp [devRegWrite, regFind_hobCfg hu, hreg, hpar, ha, hhbm]

theorem supWrite_of_reach (hb : supBound s = true) (hr : inReset s 0 = false) (o v : Nat) :
    supWrite s o v = devRegWrite s (hostAgent 0) o v := by
  simp [supWrite, supReach, hb, hr]

end Sys2Proof.Machine
end

section
/-! PROOFS. What a link that goes down in any state leaves alone: the commands that wait and the modules in the cages. Each
operation it may start, from the end of a frame to the flow control that its buffer's cells call for, says so once. -/

namespace Sys2Proof.Machine

/-- The same commands wait and the same modules are present. -/
structure SameCages (s u : State) : Prop where
  waiting : u.gpl.waiting = s.gpl.waiting
  modules : u.prt.modules = s.prt.modules

variable {s u v : State}

theorem SameCages.refl (s : State) : SameCages s s := ⟨rfl, rfl⟩

theorem SameCages.trans (h1 : SameCages s u) (h2 : SameCages u v) : SameCages s v :=
  ⟨h2.waiting.trans h1.waiting, h2.modules.trans h1.modules⟩

theorem SameCages.ite {c : Prop} [Decidable c] (h1 : SameCages s u) (h2 : SameCages s v) :
    SameCages s (if c then u else v) := by
  split
  · exact h1
  · exact h2

theorem SameCages.foldl {β : Type} {f : State → β → State} (hf : ∀ s x, SameCages s (f s x)) (l : List β) (s : State) :
    SameCages s (l.foldl f s) := by
  induction l generalizing s with
  | nil => exact .refl s
  | cons x l ih => exact (hf s x).trans (ih (f s x))

theorem sameCages_pauseSend (s : State) (p key quanta : Nat) : SameCages s (pauseSend s p key quanta) := by
  unfold pauseSend
  exact .ite ⟨rfl, rfl⟩ ⟨rfl, rfl⟩

theorem sameCages_pauseKey (s : State) (p key : Nat) : SameCages s (pauseKey s p key) := by
  unfold pauseKey
  exact .ite (.ite (sameCages_pauseSend ..) (.refl s)) (.ite (sameCages_pauseSend ..) (.refl s))

theorem sameCages_pauseCheck (s : State) (p : Nat) : SameCages s (pauseCheck s p) := by
  unfold pauseCheck
  refine .ite (.refl s) ?_
  split
  · exact sameCages_pauseKey s p 8
  · exact .foldl (fun s c => sameCages_pauseKey s p c) _ s
  · exact .refl s

theorem sameCages_setTag (s : State) (a : Nat) (t : BufTag) : SameCages s (setTag s a t) := ⟨rfl, rfl⟩

theorem sameCages_freeBuf (s : State) (a : Nat) : SameCages s (freeBuf s a) := by
  have htag := sameCages_setTag s a { quar := (bufTag s a).quar }
  unfold freeBuf
  dsimp only
  split
  · exact htag.trans (sameCages_pauseCheck ..)
  · exact htag

theorem sameCages_dropShareOf (s : State) (a : Nat) : SameCages s (dropShareOf s a) := by
  unfold dropShareOf
  exact .ite ((sameCages_setTag ..).trans (sameCages_freeBuf ..)) (sameCages_setTag ..)

theorem sameCages_bufCntPool (s : State) (agent pool k : Nat) : SameCages s (bufCntPool s agent pool k) := by
  unfold bufCntPool
  split
  · exact ⟨rfl, rfl⟩
  · split
    · exact ⟨rfl, rfl⟩
    · exact .refl s

/-- A pointer's check changes at most the tag of its buffer (12 R250). -/
theorem sameCages_ptrCheck (s : State) (a : Nat) : SameCages s (ptrCheck s a).2 := by
  unfold ptrCheck
  repeat' split
  all_goals exact ⟨rfl, rfl⟩

theorem sameCages_intBufOp {may : BufTag → Bool} {op : State → State} (hop : ∀ t, SameCages t (op t)) (s : State)
    (agent a k : Nat) : SameCages s (intBufOp s agent a k may op) := by
  have hchk := sameCages_ptrCheck s a
  unfold intBufOp
  cases hc : ptrCheck s a with
  | mk c t =>
    rw [hc] at hchk
    cases c with
    | ok j => exact hchk.trans (.ite (hop t) (sameCages_bufCntPool ..))
    | quarantined j => exact hchk.trans (sameCages_bufCntPool ..)
    | bad =>
      refine hchk.trans ?_
      dsimp only
      split
      · exact sameCages_bufCntPool ..
      · exact .refl _

theorem sameCages_endUse (s : State) (agent a : Nat) : SameCages s (endUse s agent a) :=
  sameCages_intBufOp (fun t => .ite (sameCages_freeBuf t a) (sameCages_setTag ..)) s agent a 3

theorem sameCages_dropShare (s : State) (a : Nat) : SameCages s (dropShare s a) :=
  sameCages_intBufOp (fun t => sameCages_dropShareOf t a) s framerAgent a 4

/-- A completion queues its entry and leaves the waiting commands alone (14 R309). -/
theorem sameCages_complete (s : State) (c : CmdRef) (status kind result len : Nat) (detail : List Octet) :
    SameCages s (complete s c status kind result len detail) := by
  unfold complete
  exact .ite (.refl s) ⟨rfl, rfl⟩

theorem sameCages_finish (s : State) (c : CmdRef) (opc status result len : Nat) :
    SameCages s (finish s c opc status result len) := sameCages_complete ..

theorem sameCages_txDone (s : State) (f : QFrame) (status ts len q : Nat) : SameCages s (txDone s f status ts len q) := by
  unfold txDone
  split
  · exact sameCages_complete ..
  · exact .refl s

theorem sameCages_frameEnd (s : State) (f : QFrame) : SameCages s (frameEnd s f) := by
  unfold frameEnd
  split
  · exact .ite (.ite (sameCages_dropShare ..) (sameCages_endUse ..)) (.refl s)
  · exact .refl s

theorem sameCages_frameDiscard (s : State) (q : Nat) (f : QFrame) (status : Nat) :
    SameCages s (frameDiscard s q f status) := (sameCages_txDone ..).trans (sameCages_frameEnd ..)

theorem sameCages_hobDiscard (s : State) (k : Nat) : SameCages s (hobDiscard s k) := by
  have htake : SameCages s (hobCnt (hobTake s k) k 6) := ⟨rfl, rfl⟩
  unfold hobDiscard
  split
  · exact .refl s
  · dsimp only
    split
    · exact htake.trans (sameCages_frameDiscard ..)
    · exact htake.trans (sameCages_endUse ..)

theorem sameCages_linkDownNow (s : State) (p : Nat) : SameCages s (linkDownNow s p) := by
  have hcnt : SameCages s (portCnt s p 8 1) := ⟨rfl, rfl⟩
  have hdown : ∀ t x, SameCages t (setPort t p x) := fun _ _ => ⟨rfl, rfl⟩
  unfold linkDownNow
  dsimp only
  split
  · exact ((hcnt.trans (sameCages_frameDiscard ..)).trans
      ((sameCages_hobDiscard ..).trans (sameCages_hobDiscard ..))).trans (hdown _ _)
  · exact ((sameCages_hobDiscard ..).trans (sameCages_hobDiscard ..)).trans (hdown _ _)

theorem sameCages_linksDown (l : List Nat) (s : State) : SameCages s (linksDown s l) :=
  .foldl sameCages_linkDownNow l s

end Sys2Proof.Machine
end

section
/-! PROOFS. Cages (02 R39): service events of modules, and the module accesses that wait on a cage. -/

namespace Sys2Proof.Machine

variable {s : State}

/-- The detail of a module event: its cage and its kind (14 Table 14-11). -/
theorem moduleDetail_eq (cage : BitVec 5) (kind : Nat) :
    beOctets 1 cage.toNat ++ beOctets 1 kind = [cage.setWidth 8, BitVec.ofNat 8 kind] := by
  simp [beOctets, BitVec.ofNat_toNat]

/-- A service event changes the service ring's queue and its count of lost events only (14 R315). -/
theorem sendEvent_frame (s : State) (code result : Nat) (detail : List Octet) :
    sendEvent s code result detail =
      { s with gpl := { s.gpl with
          svcq := (sendEvent s code result detail).gpl.svcq, svcLost := (sendEvent s code result detail).gpl.svcLost } } := by
  unfold sendEvent; split <;> rfl

theorem sendEvent_svcq (code result : Nat) (detail : List Octet) (h : s.gpl.svcq.length < 4096) :
    (sendEvent s code result detail).gpl.svcq =
      s.gpl.svcq ++ [{ code := code, result := result, detail := fit 12 detail, lost := s.gpl.svcLost }] := by
  simp [sendEvent, h]

/-- The service event of a cage. -/
def moduleEvent (s : State) (cage : BitVec 5) (kind : Nat) : State :=
  sendEvent s 0x01 0 (beOctets 1 cage.toNat ++ beOctets 1 kind)

theorem moduleEvent_svcq (cage : BitVec 5) (kind : Nat) (h : s.gpl.svcq.length < 4096) :
    (moduleEvent s cage kind).gpl.svcq = s.gpl.svcq ++
      [{ code := 1, result := 0, detail := fit 12 [cage.setWidth 8, BitVec.ofNat 8 kind], lost := s.gpl.svcLost }] := by
  rw [moduleEvent, sendEvent_svcq _ _ _ h, moduleDetail_eq]

@[simp] theorem moduleEvent_prt (s : State) (cage : BitVec 5) (kind : Nat) : (moduleEvent s cage kind).prt = s.prt := by
  rw [moduleEvent, sendEvent_frame]

@[simp] theorem moduleEvent_mem (s : State) (cage : BitVec 5) (kind : Nat) : (moduleEvent s cage kind).mem = s.mem := by
  rw [moduleEvent, sendEvent_frame]

@[simp] theorem moduleEvent_waiting (s : State) (cage : BitVec 5) (kind : Nat) :
    (moduleEvent s cage kind).gpl.waiting = s.gpl.waiting := by
  rw [moduleEvent, sendEvent_frame]

/-- A cage with its module present or absent. -/
def setModule (s : State) (cage : Nat) (present : Bool) : State :=
  { s with prt := { s.prt with modules := mset false s.prt.modules cage present } }

theorem modules_setModule (s : State) (cage : Nat) (present : Bool) :
    mget false (setModule s cage present).prt.modules cage = present :=
  mget_mset_self false s.prt.modules cage present

theorem moduleChange_present (cage : BitVec 5) :
    moduleChange s cage.toNat true = moduleEvent (setModule s cage.toNat true) cage 1 := rfl

theorem moduleChange_absent (cage : BitVec 5) :
    moduleChange s cage.toNat false =
      moduleEvent (moduleGone (linksDown (setModule s cage.toNat false) (quadPorts cage.toNat)) cage.toNat) cage 2 := by
  simp only [moduleChange, Bool.false_eq_true, if_false, foldl_linkDownNow_quad]
  rfl

/-- The module is noted absent, whatever else its quad's links going down starts. -/
theorem modules_linksDown_setModule (s : State) (cage : Nat) (present : Bool) (l : List Nat) :
    mget false (linksDown (setModule s cage present) l).prt.modules cage = present := by
  rw [(sameCages_linksDown l _).modules, modules_setModule]

theorem moduleGone_of_no_waiting {cage : Nat} (h : s.gpl.waiting = []) : moduleGone s cage = s := by
  have hnone : { s with gpl := { s.gpl with waiting := [] } } = s := by
    calc { s with gpl := { s.gpl with waiting := [] } }
      _ = { s with gpl := { s.gpl with waiting := s.gpl.waiting } } := by rw [h]
      _ = s := rfl
  rw [moduleGone, h]
  exact hnone

theorem sameCages_foldl_finish (cage : Nat) (l : List Waiting) (s : State) :
    SameCages s (l.foldl (fun s w => finish s w.cmd ((accessOf cage w).getD 0) 0xC9 0 0) s) :=
  .foldl (fun _ _ => sameCages_finish ..) l s

/-- The accesses of a cage whose module is gone wait no longer (02 R39). -/
theorem waiting_moduleGone (s : State) (cage : Nat) :
    (moduleGone s cage).gpl.waiting = s.gpl.waiting.filter (fun w => (accessOf cage w).isNone) := by
  unfold moduleGone
  exact (sameCages_foldl_finish _ _ _).waiting

theorem modules_moduleGone (s : State) (cage : Nat) : (moduleGone s cage).prt.modules = s.prt.modules := by
  unfold moduleGone
  exact (sameCages_foldl_finish _ _ _).modules

end Sys2Proof.Machine
end

section
/-! PROOFS. Hobble (02 R42-R44): a write of HOB_CFG, and the frame that an ingress unit holds. -/

namespace Sys2Proof.Machine

variable {s : State} {k : Nat}

theorem hobArmed_wrDev (s : State) (k v : Nat) :
    hobArmed (wrDev s (0x20000 + 0x80 * k) (v % 128)) k = v.testBit 0 := by
  have hreg : hobReg (wrDev s (0x20000 + 0x80 * k) (v % 128)) k 0 = v % 128 % 2 ^ 32 := rdDev_wrDev_self s _ _
  simp [hobArmed, hreg, bitOf_eq, Nat.testBit_zero]

/-- A write of HOB_CFG leaves the unit's other registers. -/
theorem hobReg_wrDev_ne {o v : Nat} (h : o ≠ 0) : hobReg (wrDev s (0x20000 + 0x80 * k) v) k o = hobReg s k o :=
  rdDev_wrDev_ne (by omega)

/-- No HOB_CFG stands where the journal's EN does. -/
theorem jnlEn_wrDev_hobCfg (hk : k < 256) (v : Nat) : jnlEn (wrDev s (0x20000 + 0x80 * k) v) = jnlEn s := by
  rw [jnlEn, jnlEn, flag, flag, rdDev_wrDev_ne (by omega)]

theorem jnlEvent_of_off (h : jnlEn s = false) (disp part flags port : Nat) (detail : List Octet) :
    jnlEvent s disp part flags port detail = s := by
  simp [jnlEvent, jnlPut, h]

/-- A unit as arming it leaves it: it numbers from 1, and its generator begins with the seed (02 R42). -/
def HobUnit.rearmed (x : HobUnit) (seed : W32) : HobUnit := { x with count := 0, burst := 0, draws := 0, seed := seed }

theorem hobCfgWrite_of_same {v : Nat} (h : hobArmed s k = v.testBit 0) :
    hobCfgWrite s k v = wrDev s (0x20000 + 0x80 * k) (v % 128) := by
  simp [hobCfgWrite, hobArmed_wrDev, h]

theorem hobCfgWrite_of_arming {v : Nat} (hk : k < 256) (ha : hobArmed s k = false) (hv : v.testBit 0 = true)
    (hj : jnlEn s = false) (hs : hobReg s k 0x18 ≠ 0) :
    hobCfgWrite s k v = setHob (wrDev s (0x20000 + 0x80 * k) (v % 128)) k
      ((hobUnit s k).rearmed (BitVec.ofNat 32 (hobReg s k 0x18))) := by
  have hj' : jnlEn (wrDev s (0x20000 + 0x80 * k) (v % 128)) = false := (jnlEn_wrDev_hobCfg hk _).trans hj
  have hs' : hobReg (wrDev s (0x20000 + 0x80 * k) (v % 128)) k 0x18 = hobReg s k 0x18 := hobReg_wrDev_ne (by decide)
  simp only [hobCfgWrite, hobArmed_wrDev, ha, hv, jnlEvent_of_off hj', hs', hs, false_and, if_false, if_true,
    Bool.false_eq_true]
  rfl

theorem hobCfgWrite_of_disarming {v : Nat} (hk : k < 256) (ha : hobArmed s k = true) (hv : v.testBit 0 = false)
    (hj : jnlEn s = false) :
    hobCfgWrite s k v = setHob (wrDev s (0x20000 + 0x80 * k) (v % 128)) k { hobUnit s k with passed := 256 } := by
  have hj' : jnlEn (wrDev s (0x20000 + 0x80 * k) (v % 128)) = false := (jnlEn_wrDev_hobCfg hk _).trans hj
  simp only [hobCfgWrite, hobArmed_wrDev, ha, hv, jnlEvent_of_off hj', if_false, Bool.true_eq_false, Bool.false_eq_true]
  rfl

/-- What a write of HOB_CFG makes of its unit, with the journal off and a seed in HOB_SEED. -/
def armedUnit (s : State) (k v : Nat) : HobUnit :=
  if hobArmed s k = v.testBit 0 then hobUnit s k
  else if v.testBit 0 then (hobUnit s k).rearmed (BitVec.ofNat 32 (hobReg s k 0x18))
  else { hobUnit s k with passed := 256 }

theorem hobCfgWrite_effect {v : Nat} (hk : k < 256) (hj : jnlEn s = false) (hs : hobReg s k 0x18 ≠ 0) :
    ∃ x, hobCfgWrite s k v = { wrDev s (0x20000 + 0x80 * k) (v % 128) with prt := { s.prt with hob := x } } ∧
      hobUnit (hobCfgWrite s k v) k = armedUnit s k v := by
  by_cases hsame : hobArmed s k = v.testBit 0
  · rw [hobCfgWrite_of_same hsame, armedUnit, if_pos hsame]
    exact ⟨_, rfl, rfl⟩
  · rw [armedUnit, if_neg hsame]
    cases hv : v.testBit 0 with
    | true =>
      rw [hobCfgWrite_of_arming hk (by simpa [hv] using hsame) hv hj hs]
      exact ⟨_, rfl, by simp⟩
    | false =>
      rw [hobCfgWrite_of_disarming hk (by simpa [hv] using hsame) hv hj]
      exact ⟨_, rfl, by simp⟩

theorem armedUnit_held (s : State) (k v : Nat) : (armedUnit s k v).held = (hobUnit s k).held := by
  unfold armedUnit
  split
  · rfl
  · split <;> rfl

/-- A write of HOB_CFG of a unit that holds no frame releases none. -/
theorem hobbleWrite_of_not_held {v : Nat} (hk : k < 256) (hj : jnlEn s = false) (hs : hobReg s k 0x18 ≠ 0)
    (hh : (hobUnit s k).held = none) : hobbleWrite s k v = hobCfgWrite s k v := by
  have hheld : (hobUnit (hobCfgWrite s k v) k).held = none := by
    obtain ⟨-, -, hu⟩ := hobCfgWrite_effect (v := v) hk hj hs
    rw [hu, armedUnit_held, hh]
  unfold hobbleWrite
  dsimp only
  split
  · exact rxRelease_of_not_held (by rwa [show 2 * (k / 2) = k by omega])
  · rfl

/-! ### The hold of 1 ms -/

theorem hobDue_of_not_held (h : (hobUnit s k).held = none) : hobDue s k = false := by simp [hobDue, h]

theorem hobTimeout_of_not_due (h : hobDue s k = false) : hobTimeout s k = s := by
  unfold hobTimeout
  split
  · rw [rxRelease, show 2 * (k / 2) = k by omega, h]; rfl
  · rw [h]; rfl

/-- While no later frame has passed, an armed unit's frame is due when its 1 ms has gone (02 R42). -/
theorem hobDue_iff {f : HobFrame} (hh : (hobUnit s k).held = some f) (ha : hobArmed s k = true)
    (hp : (hobUnit s k).passed = 0) : hobDue s k = true ↔ (hobUnit s k).heldAt + 1000000 ≤ s.now := by
  simp [hobDue, hh, ha, hp]

/-- A due frame of an ingress unit is taken out of the unit and delivered. -/
theorem hobTimeout_of_due {f : HobFrame} (he : k % 2 = 0) (hh : (hobUnit s k).held = some f) (hd : hobDue s k = true) :
    hobTimeout s k = rxDeliver (hobTake s k) (k / 2) f := by
  rw [hobTimeout, if_pos he, rxRelease, show 2 * (k / 2) = k by omega, hd, if_pos rfl, hh]

end Sys2Proof.Machine
end

section
/-! PROOFS. The statement on links, cages and Hobble (02 R26, R34, R39-R44; 16 R341), clause by clause. -/

namespace Sys2Proof.Machine

variable {s : State}

/-- The service event of a module's cage joins the supervisor's queue when that has room (14 R315). -/
def ModuleReported (s u : State) (cage : BitVec 5) (kind : Nat) : Prop :=
  s.gpl.svcq.length < 4096 → u.gpl.svcq = s.gpl.svcq ++
    [{ code := 1, result := 0, detail := fit 12 [cage.setWidth 8, BitVec.ofNat 8 kind], lost := s.gpl.svcLost }]

/-- The supervisor's host reaches the device window, and the audit lock is not set (00 R5, 02 R45). -/
def SupUnlocked (s : State) : Prop := supBound s = true ∧ inReset s 0 = false ∧ auditLocked s = false

/-- The link of a clear port goes down: that port changes, and nothing else does. -/
theorem exec_linkDown_of_clear {port : BitVec 7} (h : PortClear s port.toNat) :
    ∃ u, exec (.linkDown port) s = .next u ∧ portSt u port.toNat = (portSt s port.toNat).down ∧
      (∀ j, j ≠ port.toNat → portSt u j = portSt s j) ∧ u = { s with prt := u.prt } ∧ u.prt.hob = s.prt.hob := by
  refine ⟨_, congrArg Host.Outcome.next (linkDownNow_of_clear h), ?_, fun j hj => ?_, rfl, rfl⟩
  · rw [portSt_setPort, if_pos rfl]
  · rw [portSt_setPort, if_neg hj]

/-- A write of PRT_QCFG takes the links of the quad's four ports down (02 R41). -/
theorem exec_quadReconfigure_of_clear {quad : BitVec 5} {v : BitVec 32} (hr : SupUnlocked s)
    (h : ∀ j, j / 4 = quad.toNat → PortClear s j) :
    ∃ u, exec (.quadReconfigure quad v) s = .next u ∧ rdDev u (0x10000 + 4 * quad.toNat) = v.toNat % 256 ∧
      (∀ j, j / 4 = quad.toNat → portSt u j = (portSt s j).down) ∧
      (∀ j, j / 4 ≠ quad.toNat → portSt u j = portSt s j) ∧ u.mem = s.mem := by
  obtain ⟨hbound, hreset, -⟩ := hr
  obtain ⟨hframe, hin, hout⟩ := quadDown_of_clear h
  have hu : supWrite s (0x10000 + 4 * quad.toNat) v.toNat =
      wrDev (linksDown s (quadPorts quad.toNat)) (0x10000 + 4 * quad.toNat) (v.toNat % 256) := by
    rw [supWrite_of_reach hbound hreset, devRegWrite_prtQcfg quad.isLt, ← foldl_linkDownNow_quad]; rfl
  have hst : ∀ t o x j, portSt (wrDev t o x) j = portSt t j := fun _ _ _ _ => rfl
  refine ⟨_, congrArg Host.Outcome.next hu, ?_, fun j hj => (hst _ _ _ j).trans (hin j hj),
    fun j hj => (hst _ _ _ j).trans (hout j hj), ?_⟩
  · rw [rdDev_wrDev_self]; omega
  · rw [wrDev_mem, hframe]

/-- An inserted module is noted and reported (02 R39). -/
theorem exec_modulePresenceChange_present (s : State) (cage : BitVec 5) :
    ∃ u, exec (.modulePresenceChange cage true) s = .next u ∧ mget false u.prt.modules cage.toNat = true ∧
      ModuleReported s u cage 1 ∧ u.prt.ports = s.prt.ports ∧ u.mem = s.mem := by
  refine ⟨_, congrArg Host.Outcome.next (moduleChange_present cage), ?_, ?_, ?_, ?_⟩
  · rw [moduleEvent_prt, modules_setModule]
  · exact moduleEvent_svcq (s := setModule s cage.toNat true) cage 1
  · rw [moduleEvent_prt]; rfl
  · rw [moduleEvent_mem]; rfl

/-- A removed module takes its quad's links down and is reported (02 R39). -/
theorem exec_modulePresenceChange_absent {cage : BitVec 5} (h : ∀ j, j / 4 = cage.toNat → PortClear s j)
    (hw : s.gpl.waiting = []) :
    ∃ u, exec (.modulePresenceChange cage false) s = .next u ∧ mget false u.prt.modules cage.toNat = false ∧
      ModuleReported s u cage 2 ∧ (∀ j, j / 4 = cage.toNat → portSt u j = (portSt s j).down) ∧
      (∀ j, j / 4 ≠ cage.toNat → portSt u j = portSt s j) ∧ u.mem = s.mem := by
  obtain ⟨hframe, hin, hout⟩ := quadDown_of_clear (s := setModule s cage.toNat false) h
  set t := linksDown (setModule s cage.toNat false) (quadPorts cage.toNat)
  have hgpl : t.gpl = s.gpl := by rw [hframe]; rfl
  have hu : moduleChange s cage.toNat false = moduleEvent t cage 2 := by
    rw [moduleChange_absent, moduleGone_of_no_waiting]
    exact (congrArg Gopol.waiting hgpl).trans hw
  have hst : ∀ j, portSt (moduleEvent t cage 2) j = portSt t j := fun j => by rw [portSt, moduleEvent_prt]; rfl
  refine ⟨_, congrArg Host.Outcome.next hu, ?_, ?_, fun j hj => (hst j).trans (hin j hj),
    fun j hj => (hst j).trans (hout j hj), ?_⟩
  · rw [moduleEvent_prt]; exact modules_linksDown_setModule s _ false _
  · have hev := moduleEvent_svcq (s := t) cage 2
    rwa [hgpl] at hev
  · rw [moduleEvent_mem, hframe]; rfl

/-- The one access that waits on the cage of a removed module waits no longer, whatever its ports do (02 R39). -/
theorem exec_modulePresenceChange_access {cage : BitVec 5} {c : CmdRef} {opc since : Nat}
    (hw : s.gpl.waiting = [⟨c, since, .outside opc (some cage.toNat)⟩]) :
    ∃ u, exec (.modulePresenceChange cage false) s = .next u ∧ u.gpl.waiting = [] ∧
      mget false u.prt.modules cage.toNat = false := by
  refine ⟨_, congrArg Host.Outcome.next (moduleChange_absent cage), ?_, ?_⟩
  · have hdown : (linksDown (setModule s cage.toNat false) (quadPorts cage.toNat)).gpl.waiting = s.gpl.waiting :=
      (sameCages_linksDown _ _).waiting
    rw [moduleEvent_waiting, waiting_moduleGone, hdown, hw]
    simp [accessOf]
  · rw [moduleEvent_prt, modules_moduleGone]
    exact modules_linksDown_setModule s _ false _

/-- A module's interrupt is reported, and changes no port and no memory (02 R39). -/
theorem exec_moduleInterrupt_reported (s : State) (cage : BitVec 5) :
    ∃ u, exec (.moduleInterrupt cage) s = .next u ∧ ModuleReported s u cage 3 ∧ u.prt = s.prt ∧ u.mem = s.mem :=
  ⟨moduleEvent s cage 3, rfl, moduleEvent_svcq cage 3, moduleEvent_prt s cage 3, moduleEvent_mem s cage 3⟩

/-- HOBBLE_ARM stores HOB_CFG; it restarts the unit when it arms it, and leaves it alone when it stays armed (02 R42). -/
theorem exec_hobbleArm_of_not_held {un : BitVec 8} {v : BitVec 32} (hr : SupUnlocked s)
    (hh : (hobUnit s un.toNat).held = none) (hs : hobReg s un.toNat 0x18 ≠ 0) (hj : jnlEn s = false) :
    ∃ u, exec (.hobbleArm un v) s = .next u ∧ rdDev u (0x20000 + 0x80 * un.toNat) = v.toNat % 128 ∧
      u.prt.ports = s.prt.ports ∧ u.mem = s.mem ∧
      (hobArmed s un.toNat = false → v.getLsbD 0 = true →
        hobUnit u un.toNat = (hobUnit s un.toNat).rearmed (BitVec.ofNat 32 (hobReg s un.toNat 0x18))) ∧
      (hobArmed s un.toNat = true → v.getLsbD 0 = true → hobUnit u un.toNat = hobUnit s un.toNat) := by
  obtain ⟨hbound, hreset, hlock⟩ := hr
  obtain ⟨x, hx, hunit⟩ := hobCfgWrite_effect (v := v.toNat) un.isLt hj hs
  have hu : supWrite s (0x20000 + 0x80 * un.toNat) v.toNat = hobCfgWrite s un.toNat v.toNat := by
    rw [supWrite_of_reach hbound hreset, devRegWrite_hobCfg un.isLt hlock, hobbleWrite_of_not_held un.isLt hj hs hh]
  have hstored : rdDev (hobCfgWrite s un.toNat v.toNat) (0x20000 + 0x80 * un.toNat) = v.toNat % 128 := by
    rw [hx]
    exact (rdDev_wrDev_self s _ _).trans (by omega)
  refine ⟨_, congrArg Host.Outcome.next hu, hstored, by rw [hx], by rw [hx]; rfl, fun ha hv => ?_, fun ha hv => ?_⟩
  · have hv' : v.toNat.testBit 0 = true := hv
    rw [hunit, armedUnit, ha, hv', if_neg Bool.false_ne_true, if_pos rfl]
  · have hv' : v.toNat.testBit 0 = true := hv
    rw [hunit, armedUnit, ha, hv', if_pos rfl]

/-- A frame that the ingress unit has held for 1 ms leaves it for the parser (02 R42). -/
theorem exec_hobbleHoldTimeout_of_due {un : BitVec 8} {f : HobFrame} (he : un.toNat % 2 = 0)
    (hh : (hobUnit s un.toNat).held = some f) (hok : f.fcsOk = true) (hd : hobDue s un.toNat = true) :
    ∃ u x, exec (.hobbleHoldTimeout un) s = .next u ∧ hobUnit u un.toNat = { hobUnit s un.toNat with held := none } ∧
      mget [] u.par.rx (un.toNat / 2) = mget [] s.par.rx (un.toNat / 2) ++ [x] ∧ x.buf = f.buf ∧
      x.len = f.octets.length + 4 ∧ x.hobble = f.flag ∧ x.ts = f.ts := by
  have hu := (hobTimeout_of_due he hh hd).trans (rxDeliver_of_ok hok)
  refine ⟨_, f.delivered (un.toNat / 2), congrArg Host.Outcome.next hu, ?_, mget_mset_self _ _ _ _, rfl, rfl, rfl, rfl⟩
  have htake : hobUnit (devWrite (hobTake s un.toNat) f.buf f.octets) un.toNat = hobUnit (hobTake s un.toNat) un.toNat := by
    rw [hobUnit, devWrite_prt]; rfl
  exact htake.trans (by simp [hobTake])

/-- Settles O37: each clause is the lemma above about the command it names. -/
theorem linksAndCages : Obligations.LinksAndCages := by
  unfold Obligations.LinksAndCages
  intro s port mode cage quad un v held p x m qm fec fits down clear event reach k reg
  refine ⟨?_, ?_, exec_linkDown_of_clear, exec_quadReconfigure_of_clear, exec_modulePresenceChange_present s cage,
    exec_modulePresenceChange_absent, fun _ _ _ => exec_modulePresenceChange_access,
    exec_moduleInterrupt_reported s cage, exec_hobbleArm_of_not_held, ?_, ?_⟩
  · exact fun he hf hb => congrArg Host.Outcome.next (linkUpNow_of_fits he (modeFits_iff.mpr hf) hb)
  · intro h
    have hnot : portEn s p = false ∨ ¬ modeFits s p m = true ∨ s.hkc.dbolt = true :=
      h.imp_right (.imp_left modeFits_iff.not.mpr)
    exact congrArg Host.Outcome.next (linkUpNow_of_not hnot)
  · exact fun h => congrArg Host.Outcome.next (hobTimeout_of_not_due (hobDue_of_not_held h))
  · intro he ha hh hp hok
    have hdue := hobDue_iff hh ha hp
    refine ⟨fun ht => exec_hobbleHoldTimeout_of_due he hh hok (hdue.mpr ht), fun ht => ?_⟩
    have hnot : hobDue s k = false := Bool.eq_false_iff.mpr fun e => by have := hdue.mp e; omega
    exact congrArg Host.Outcome.next (hobTimeout_of_not_due hnot)

end Sys2Proof.Machine
end

section
/-! PROOFS. The parse record (03 R56, Table 03-3): which fields each way of parsing gives it. -/

namespace Sys2Proof.Machine

variable {s : State} {f : RxFrame} {d : List Octet}

/-! ### Fields of Table 03-3 -/

theorem oct_parseRecord_class (f : RxFrame) (c reason tags steps l3 l4 pay n : Nat) (x : PSt) :
    oct (parseRecord f c reason tags steps l3 l4 pay n x) 0 = c % 256 := by
  simp [parseRecord, beOctets, oct]

theorem oct_parseRecord_reason (f : RxFrame) (c reason tags steps l3 l4 pay n : Nat) (x : PSt) :
    oct (parseRecord f c reason tags steps l3 l4 pay n x) 1 = reason % 256 := by
  simp [parseRecord, beOctets, oct]

theorem oct_parseRecord_port (f : RxFrame) (c reason tags steps l3 l4 pay n : Nat) (x : PSt) :
    oct (parseRecord f c reason tags steps l3 l4 pay n x) 4 = f.port % 256 := by
  simp [parseRecord, beOctets, oct]

theorem fieldBe_parseRecord_l3 (f : RxFrame) (c reason tags steps l3 l4 pay n : Nat) (x : PSt) :
    fieldBe (parseRecord f c reason tags steps l3 l4 pay n x) 16 2 = l3 % 65536 := by
  calc fieldBe (parseRecord f c reason tags steps l3 l4 pay n x) 16 2
    _ = l3 / 256 % 256 * 256 + l3 % 256 := by simp [parseRecord, beOctets, fieldBe, octs, beNat, zeros]
    _ = l3 % 65536 := by omega

/-! ### Ways of parsing -/

/-- The record of the fixed path has its profile as class, no steps, and L3OFF as the signature has it (03 R51). -/
theorem parseFixed_eq (s : State) (f : RxFrame) (d : List Octet) (g : Sig) (k : Nat) :
    ∃ reason pay n x, parseFixed s f d g k = parseRecord f k reason g.tags 0 g.l3 g.l4 pay n x := ⟨_, _, _, _, rfl⟩

/-- However a walk ends, the record is one of its frame (03 R53). -/
theorem parseGraph_eq (s : State) (f : RxFrame) (d : List Octet) (g : Sig) :
    ∃ c reason steps l3 l4 pay n x, parseGraph s f d g = parseRecord f c reason g.tags steps l3 l4 pay n x := by
  unfold parseGraph
  dsimp only
  split <;> exact ⟨_, _, _, _, _, _, _, _, rfl⟩

theorem sigOf_l3 (d : List Octet) : (sigOf d).l3 = 14 + 4 * tagCount d := Nat.add_right_comm 12 (4 * tagCount d) 2

theorem tagCount_le (d : List Octet) : tagCount d ≤ 3 := by
  unfold tagCount
  dsimp only
  repeat' split
  all_goals decide

theorem parseFixed_class {k : Nat} (hk : k < 64) : oct (parseFixed s f d (sigOf d) k) 0 = k := by
  obtain ⟨reason, pay, n, x, h⟩ := parseFixed_eq s f d (sigOf d) k
  rw [h, oct_parseRecord_class]
  omega

theorem parseFixed_port (g : Sig) (k : Nat) : oct (parseFixed s f d g k) 4 = f.port % 256 := by
  obtain ⟨reason, pay, n, x, h⟩ := parseFixed_eq s f d g k
  rw [h, oct_parseRecord_port]

theorem parseFixed_l3 (k : Nat) : fieldBe (parseFixed s f d (sigOf d) k) 16 2 = 14 + 4 * tagCount d := by
  obtain ⟨reason, pay, n, x, h⟩ := parseFixed_eq s f d (sigOf d) k
  have htags := tagCount_le d
  rw [h, fieldBe_parseRecord_l3, sigOf_l3]
  omega

theorem parseGraph_port (g : Sig) : oct (parseGraph s f d g) 4 = f.port % 256 := by
  obtain ⟨c, reason, steps, l3, l4, pay, n, x, h⟩ := parseGraph_eq s f d g
  rw [h, oct_parseRecord_port]

theorem parseNone_class (reason : Nat) : oct (parseNone f d reason) 0 = 0xFF := oct_parseRecord_class ..

theorem parseNone_reason {reason : Nat} (h : reason < 256) : oct (parseNone f d reason) 1 = reason :=
  (oct_parseRecord_reason ..).trans (Nat.mod_eq_of_lt h)

/-! ### The fixed profiles -/

/-- A fixed profile that is enabled and whose VALUE the signature has under its MASK (03 R50). -/
def ProfileMatches (s : State) (sig k : Nat) : Prop :=
  rdPar s (0x30408 + 16 * k) % 2 = 1 ∧
    sig &&& rdPar s (0x30404 + 16 * k) = rdPar s (0x30400 + 16 * k) &&& rdPar s (0x30404 + 16 * k)

/-- The model's test of profile `k` of a signature. -/
theorem profileTest_iff {sig k : Nat} :
    (bitOf (rdPar s (0x30400 + 16 * k + 8)) 0 && decide (sig &&& rdPar s (0x30400 + 16 * k + 4) =
      rdPar s (0x30400 + 16 * k) &&& rdPar s (0x30400 + 16 * k + 4))) = true ↔ ProfileMatches s sig k := by
  have hen : 0x30400 + 16 * k + 8 = 0x30408 + 16 * k := by omega
  have hmask : 0x30400 + 16 * k + 4 = 0x30404 + 16 * k := by omega
  simp [bitOf, ProfileMatches, hen, hmask]

/-- The lowest profile that matches a frame of at most two tags takes it (03 R50). -/
theorem fixedProfile_of_lowest {g : Sig} {k : Nat} (hk : k < 64) (hm : ProfileMatches s g.bits k)
    (hlow : ∀ j, j < k → ¬ ProfileMatches s g.bits j) (ht : g.tags < 3) : fixedProfile s g = some k := by
  rw [fixedProfile, if_neg (by omega), lowest, List.find?_range_eq_some]
  refine ⟨profileTest_iff.mpr hm, List.mem_range.mpr hk, fun j hj => ?_⟩
  rw [Bool.not_eq_true']
  exact Bool.eq_false_iff.mpr fun h => hlow j hj (profileTest_iff.mp h)

/-- No profile takes a frame that none matches, or one of three tags (03 R50). -/
theorem fixedProfile_of_no_match {g : Sig} (h : (∀ k, k < 64 → ¬ ProfileMatches s g.bits k) ∨ g.tags = 3) :
    fixedProfile s g = none := by
  unfold fixedProfile
  split
  · rfl
  · rename_i ht
    rw [lowest, List.find?_range_eq_none]
    intro k hk
    rw [Bool.not_eq_true']
    exact Bool.eq_false_iff.mpr fun hm => h.resolve_right ht k hk (profileTest_iff.mp hm)

end Sys2Proof.Machine
end

section
/-! PROOFS. The parser's lanes (03 R46-R50, R53, R63): what a frame that is taken, a walk and a read of the parse stores
leave behind. -/

namespace Sys2Proof.Machine

variable {s u : State} {p : Nat} {f : RxFrame} {rest : List RxFrame}

theorem laneOf_setLane (s : State) (p j : Nat) (l : List LaneEnt) :
    laneOf (setLane s p l) j = if j = p then l else laneOf s j := mget_mset _ _ _ _ _

/-! ### Reads of the parse stores -/

/-- A read of the parse stores leaves the lanes and the frames that wait. -/
theorem storeRead_par (s : State) (found : MemError) :
    (storeRead s found).par = { s.par with badStore := (storeRead s found).par.badStore } := by
  cases found <;> rfl

@[simp] theorem laneOf_storeRead (s : State) (found : MemError) (j : Nat) : laneOf (storeRead s found) j = laneOf s j := by
  rw [laneOf, storeRead_par]; rfl

/-- A corrected error counts in PAR_CTL.CECNT, up to 255 (03 R63). -/
theorem fld_storeRead_correctable (s : State) :
    fld (storeRead s .correctable) 0x30000 15 8 = min 255 (fld s 0x30000 15 8 + 1) := by
  set n := min 255 (fld s 0x30000 15 8 + 1)
  have hn : n < 256 := by omega
  have hword : setBits (rdDev s 0x30000) 15 8 n < 2 ^ 32 := by
    have hlt : rdDev s 0x30000 < 2 ^ 32 := BitVec.isLt _
    rw [setBits_eq (by decide)]
    omega
  have hstored : rdDev (storeRead s .correctable) 0x30000 = setBits (rdDev s 0x30000) 15 8 n :=
    (rdDev_wrDev_self s _ _).trans (Nat.mod_eq_of_lt hword)
  rw [fld, hstored, bitsOf_setBits (by decide)]
  exact Nat.mod_eq_of_lt hn

/-! ### Taking a frame -/

/-- Only the parser differs, and in it neither another port's lane nor what has left the lanes. -/
def OnlyParser (s u : State) (p : Nat) : Prop :=
  u = { s with par := u.par } ∧ (∀ j, j ≠ p → laneOf u j = laneOf s j) ∧ u.par.parsed = s.par.parsed ∧
    u.par.toClassify = s.par.toClassify

/-- A port's frames with the oldest taken out. -/
def rxTaken (s : State) (p : Nat) (rest : List RxFrame) : State :=
  { s with par := { s.par with rx := mset [] s.par.rx p rest } }

/-- A lane with a frame joined to it: it holds a place of the release queue when one before it has no record (03 R48). -/
def joinedLane (l : List LaneEnt) (f : RxFrame) (r : Option (List Octet)) : List LaneEnt :=
  l ++ [⟨f, r, l.any (fun e => e.precd.isNone)⟩]

/-- A port's frame joins its lane. -/
def laneJoined (s : State) (p : Nat) (f : RxFrame) (r : Option (List Octet)) : State :=
  setLane s p (joinedLane (laneOf s p) f r)

/-- A port's frame waits for the walker of its lane (03 R47). -/
def walkQueued (s : State) (p : Nat) : State :=
  { s with par := { s.par with walks := mset [] s.par.walks (p / 8) (mget [] s.par.walks (p / 8) ++ [p]) } }

/-- A port's oldest frame has gone to its lane, and nothing else has. -/
def FrameTaken (s u : State) (p : Nat) (f : RxFrame) (rest : List RxFrame) (r : Option (List Octet)) : Prop :=
  OnlyParser s u p ∧ mget [] u.par.rx p = rest ∧ laneOf u p = joinedLane (laneOf s p) f r

theorem laneOf_laneJoined (s : State) (p : Nat) (f : RxFrame) (r : Option (List Octet)) :
    laneOf (laneJoined s p f r) p = joinedLane (laneOf s p) f r := (laneOf_setLane ..).trans (if_pos rfl)

theorem rx_laneJoined_storeRead (s : State) (p : Nat) (f : RxFrame) (rest : List RxFrame) (r : Option (List Octet))
    (found : MemError) : mget [] (laneJoined (storeRead (rxTaken s p rest) found) p f r).par.rx p = rest := by
  have hrx : (storeRead (rxTaken s p rest) found).par.rx = mset [] s.par.rx p rest := by rw [storeRead_par]; rfl
  exact (congrArg (mget [] · p) hrx).trans (mget_mset_self ..)

theorem lane_laneJoined_storeRead (s : State) (p : Nat) (f : RxFrame) (rest : List RxFrame) (r : Option (List Octet))
    (found : MemError) :
    laneOf (laneJoined (storeRead (rxTaken s p rest) found) p f r) p = joinedLane (laneOf s p) f r := by
  rw [laneOf_laneJoined, laneOf_storeRead]; rfl

/-- Unless a corrected error is counted, taking a frame changes the parser only. -/
theorem frameTaken_laneJoined {found : MemError} (hf : found ≠ .correctable) (s : State) (p : Nat) (f : RxFrame)
    (rest : List RxFrame) (r : Option (List Octet)) :
    FrameTaken s (laneJoined (storeRead (rxTaken s p rest) found) p f r) p f rest r := by
  refine ⟨⟨?_, fun j hj => ?_, ?_, ?_⟩, rx_laneJoined_storeRead .., lane_laneJoined_storeRead ..⟩
  · cases found
    · rfl
    · exact absurd rfl hf
    · rfl
  · rw [laneJoined, laneOf_setLane, if_neg hj, laneOf_storeRead]; rfl
  · cases found <;> rfl
  · cases found <;> rfl

theorem FrameTaken.walkQueued {r : Option (List Octet)} (h : FrameTaken s u p f rest r) :
    FrameTaken s (walkQueued u p) p f rest r := by
  obtain ⟨⟨heq, hlanes, hparsed, hclass⟩, hrx, hlane⟩ := h
  refine ⟨⟨?_, hlanes, hparsed, hclass⟩, hrx, hlane⟩
  rw [heq]; rfl

/-! ### PARSE_FRAME -/

theorem parseFrame_of_none (h : mget [] s.par.rx p = []) (found : MemError) : parseFrame s p found = s := by
  rw [parseFrame, h]

/-- What a lane makes of a frame of a port as it takes it in: its record, or none when the frame waits for a walk
(03 R50, R63). -/
def frameResult (s : State) (p : Nat) (f : RxFrame) (found : MemError) : Option (List Octet) :=
  if found = .uncorrectable then some (parseNone f (rxOctets s f) 0x0D)
  else match fixedProfile s (sigOf (rxOctets s f)) with
    | some k => some (parseFixed s f (rxOctets s f) (sigOf (rxOctets s f)) k)
    | none => if bitOf (rdPar s (0x30200 + 4 * p)) 16 then none else some (parseNone f (rxOctets s f) 1)

/-- What the lane makes of a frame does not depend on the reads of the parse stores that it counts. -/
theorem frameResult_storeRead (s : State) (p : Nat) (f : RxFrame) (rest : List RxFrame) (found : MemError) :
    frameResult (storeRead (rxTaken s p rest) found) p f found = frameResult s p f found := by
  cases found <;> rfl

/-- The state in which a port's oldest frame has joined its lane with what the lane made of it. -/
def frameJoined (s : State) (p : Nat) (f : RxFrame) (rest : List RxFrame) (found : MemError) : State :=
  laneJoined (storeRead (rxTaken s p rest) found) p f (frameResult s p f found)

/-- The lane takes the frame, and one without a record waits for its walk. -/
theorem parseFrame_of_frame (hr : mget [] s.par.rx p = f :: rest) (hl : laneFull (laneOf s p) = false) (found : MemError) :
    parseFrame s p found =
      if (frameResult s p f found).isNone then walkQueued (frameJoined s p f rest found) p
      else frameJoined s p f rest found := by
  simp only [parseFrame, hr, hl, Bool.false_eq_true, if_false, frameJoined, ← frameResult_storeRead s p f rest found, rxTaken]
  generalize storeRead { s with par := { s.par with rx := mset [] s.par.rx p rest } } found = t
  unfold frameResult
  split
  · rfl
  · cases fixedProfile t (sigOf (rxOctets t f)) with
    | some k => rfl
    | none => dsimp only; split <;> rfl

/-- A frame that is parsed at once stands in its lane with its record. -/
theorem parseFrame_of_record {found : MemError} {r : List Octet} (hr : mget [] s.par.rx p = f :: rest)
    (hl : laneFull (laneOf s p) = false) (h : frameResult s p f found = some r) :
    parseFrame s p found = laneJoined (storeRead (rxTaken s p rest) found) p f (some r) := by
  rw [parseFrame_of_frame hr hl, frameJoined, h]; rfl

/-- A frame that no profile takes waits for its walk. -/
theorem parseFrame_of_walk {found : MemError} (hr : mget [] s.par.rx p = f :: rest)
    (hl : laneFull (laneOf s p) = false) (h : frameResult s p f found = none) :
    parseFrame s p found = walkQueued (laneJoined (storeRead (rxTaken s p rest) found) p f none) p := by
  rw [parseFrame_of_frame hr hl, frameJoined, h]; rfl

theorem frameResult_of_uncorrectable (s : State) (p : Nat) (f : RxFrame) :
    frameResult s p f .uncorrectable = some (parseNone f (rxOctets s f) 0x0D) := if_pos rfl

theorem frameResult_of_profile {k : Nat} (h : fixedProfile s (sigOf (rxOctets s f)) = some k) :
    frameResult s p f .clean = some (parseFixed s f (rxOctets s f) (sigOf (rxOctets s f)) k) := by
  simp [frameResult, h]

/-- PAR_PORT.GEN sends a frame that no profile takes to the walker (03 R50). -/
theorem frameResult_of_no_profile (h : fixedProfile s (sigOf (rxOctets s f)) = none) :
    frameResult s p f .clean =
      if (rdPar s (0x30200 + 4 * p)).testBit 16 then none else some (parseNone f (rxOctets s f) 1) := by
  simp [frameResult, h, bitOf_eq]

/-! ### GRAPH_WALK -/

/-- The first frame of a lane without a record is given one. -/
theorem finishWalk_append {b : Bool} (rec_ : LaneEnt → List Octet) (pre post : List LaneEnt)
    (h : ∀ x ∈ pre, x.precd.isSome = true) :
    finishWalk rec_ (pre ++ ⟨f, none, b⟩ :: post) = pre ++ ⟨f, some (rec_ ⟨f, none, b⟩), b⟩ :: post := by
  induction pre with
  | nil => rfl
  | cons x pre ih =>
    have hx : x.precd.isNone = false := by simpa using h x List.mem_cons_self
    rw [List.cons_append, finishWalk, hx, if_neg Bool.false_ne_true, ih fun y hy => h y (List.mem_cons_of_mem x hy),
      List.cons_append]

/-- The walk queue of a lane with its oldest entry taken out. -/
def walkTaken (s : State) (lane : Nat) (more : List Nat) : State :=
  { s with par := { s.par with walks := mset [] s.par.walks lane more } }

/-- The record that a walk gives a frame (03 R53, R63). -/
def walkRecord (s : State) (f : RxFrame) (found : MemError) : List Octet :=
  if found = .uncorrectable then parseNone f (rxOctets s f) 0x0D
  else parseGraph s f (rxOctets s f) (sigOf (rxOctets s f))

/-- The frame that has waited longest is given its record. -/
theorem graphWalk_of_queued {lane : Nat} {more : List Nat} {pre post : List LaneEnt} {b : Bool}
    (hw : mget [] s.par.walks lane = p :: more) (hl : laneOf s p = pre ++ ⟨f, none, b⟩ :: post)
    (hpre : ∀ x ∈ pre, x.precd.isSome = true) (found : MemError) :
    graphWalk s lane found = storeRead (setLane (walkTaken s lane more) p
      (pre ++ ⟨f, some (walkRecord (walkTaken s lane more) f found), b⟩ :: post)) found := by
  have hl' : laneOf (walkTaken s lane more) p = pre ++ ⟨f, none, b⟩ :: post := hl
  rw [graphWalk, hw, ← finishWalk_append (fun e => walkRecord (walkTaken s lane more) e.frame found) pre post hpre, ← hl']
  rfl

/-- Unless a corrected error is counted, a walk changes its port's lane and the walk queue only. -/
theorem onlyParser_walked {found : MemError} (hf : found ≠ .correctable) (s : State) (p lane : Nat) (more : List Nat)
    (l : List LaneEnt) : OnlyParser s (storeRead (setLane (walkTaken s lane more) p l) found) p := by
  refine ⟨?_, fun j hj => ?_, ?_, ?_⟩
  · cases found
    · rfl
    · exact absurd rfl hf
    · rfl
  · rw [laneOf_storeRead, laneOf_setLane, if_neg hj]; rfl
  · cases found <;> rfl
  · cases found <;> rfl

theorem laneOf_walked (s : State) (p lane : Nat) (more : List Nat) (l : List LaneEnt) (found : MemError) :
    laneOf (storeRead (setLane (walkTaken s lane more) p l) found) p = l := by
  rw [laneOf_storeRead, laneOf_setLane, if_pos rfl]

end Sys2Proof.Machine
end

section
/-! PROOFS. The slow path (03 R57-R61): what a diverted frame's partition is charged, and the exception delivery it becomes. -/

namespace Sys2Proof.Machine

variable {s u v : State} {q : Nat} {it : Item}

/-! ### Handing a buffer on -/

/-- Parser, memories and rings are the same, and so are the counters below those of the buffers (12 Table 12-10). -/
structure SameBelowBuffers (s u : State) : Prop where
  par : u.par = s.par
  mem : u.mem = s.mem
  gpl : u.gpl = s.gpl
  cnt : ∀ o, o < 0x90800 → rdCnt u o = rdCnt s o

theorem SameBelowBuffers.refl (s : State) : SameBelowBuffers s s := ⟨rfl, rfl, rfl, fun _ _ => rfl⟩

theorem SameBelowBuffers.trans (h1 : SameBelowBuffers s u) (h2 : SameBelowBuffers u v) : SameBelowBuffers s v :=
  ⟨h2.par.trans h1.par, h2.mem.trans h1.mem, h2.gpl.trans h1.gpl, fun o ho => (h2.cnt o ho).trans (h1.cnt o ho)⟩

theorem sameBelowBuffers_setTag (s : State) (a : Nat) (t : BufTag) : SameBelowBuffers s (setTag s a t) :=
  ⟨rfl, rfl, rfl, fun _ _ => rfl⟩

theorem sameBelowBuffers_bufCnt (s : State) (p k : Nat) : SameBelowBuffers s (bufCnt s p k) := by
  refine ⟨rfl, rfl, rfl, fun o ho => ?_⟩
  rw [bufCnt, pcnt, rdCnt_cntAdd, if_neg (by omega)]

theorem sameBelowBuffers_bufCntPool (s : State) (agent pool k : Nat) : SameBelowBuffers s (bufCntPool s agent pool k) := by
  unfold bufCntPool
  split
  · exact sameBelowBuffers_bufCnt ..
  · split
    · exact sameBelowBuffers_bufCnt ..
    · exact .refl s

/-- A pointer's check changes at most the tag of its buffer (12 R250). -/
theorem sameBelowBuffers_ptrCheck (s : State) (a : Nat) : SameBelowBuffers s (ptrCheck s a).2 := by
  unfold ptrCheck
  repeat' split
  all_goals exact ⟨rfl, rfl, rfl, fun _ _ => rfl⟩

theorem sameBelowBuffers_intBufOp {may : BufTag → Bool} {op : State → State} (hop : ∀ t, SameBelowBuffers t (op t))
    (s : State) (agent a k : Nat) : SameBelowBuffers s (intBufOp s agent a k may op) := by
  have hchk := sameBelowBuffers_ptrCheck s a
  unfold intBufOp
  cases hc : ptrCheck s a with
  | mk c t =>
    rw [hc] at hchk
    refine hchk.trans ?_
    cases c with
    | ok j =>
      dsimp only
      split
      · exact hop t
      · exact sameBelowBuffers_bufCntPool ..
    | quarantined j => exact sameBelowBuffers_bufCntPool ..
    | bad =>
      dsimp only
      split
      · exact sameBelowBuffers_bufCntPool ..
      · exact .refl t

theorem sameBelowBuffers_passBuf (s : State) (a from_ to_ : Nat) : SameBelowBuffers s (passBuf s a from_ to_) :=
  sameBelowBuffers_intBufOp (fun t => sameBelowBuffers_setTag t a _) s from_ a 4

/-! ### The exception queue -/

/-- The delivery of a frame diverted for a reason (14 R311). -/
def excDeliv (s : State) (it : Item) (reason : Nat) (aux : List Octet) : Deliv :=
  { kind := .exception, part := it.part, ring := 0, octets := fit 64 it.precd ++ devRead s it.buf it.len ++ aux,
    result := fieldBe it.precd 8 8,
    detail := beOctets 4 it.flow ++ beOctets 1 reason ++ beOctets 1 it.port ++ beOctets 2 aux.length,
    buf := some it.buf, jitem := some it, reason := reason }

/-- A frame joins an exception queue that has room, and its buffer goes to the DMA engine (14 R312). -/
theorem toException_of_room (h : excWaiting s it.part < 256) (agent reason : Nat) (aux : List Octet) :
    toException s it agent reason aux =
      queueDeliv (passBuf s it.buf agent (dmaAgent s it.part)) (excDeliv s it reason aux) := by
  have hread : devRead (passBuf s it.buf agent (dmaAgent s it.part)) it.buf it.len = devRead s it.buf it.len := by
    simp only [devRead, devOct, (sameBelowBuffers_passBuf s it.buf agent (dmaAgent s it.part)).mem]
  rw [toException, if_neg (by omega), excDeliv, ← hread]

/-! ### The buckets -/

/-- A partition charged for a diverted frame of `n` octets: one packet and its bits, counted with its reason (03 R60). -/
def slowCharged (s : State) (q reason n : Nat) : State :=
  slowCnt (slowCnt (setBucket (cntAdd s (0x30C00 + 8 * reason) 1) q
    ⟨(bucket s q).pkt - 1000, (bucket s q).bit - 8 * n⟩) q 0 1) q 1 n

/-- A frame that its port's default partition takes, and whose buckets hold enough, goes to its exception queue
(03 R58, R60). -/
theorem slowPath_of_enough {reason : Nat} (hd : defaultPart s it.port = some q) (hb : inBolt s q = false)
    (hr : inReset s q = false) (hp : 1000 ≤ (bucket s q).pkt)
    (hn : 8 * fieldBe (slowItem s it reason none q).precd 6 2 ≤ (bucket s q).bit) (agent : Nat) (aux : List Octet) :
    slowPath s it agent reason none aux =
      toException (slowCharged s q reason (fieldBe (slowItem s it reason none q).precd 6 2))
        (slowItem s it reason none q) agent reason aux := by
  have hd' : defaultPart (cntAdd s (0x30C00 + 8 * reason) 1) it.port = some q := hd
  have htakes : ¬ (inBolt s q || inReset s q) = true := by simp [hb, hr]
  simp only [slowPath, Option.orElse_none, hd', Option.isSome_none, Bool.false_eq_true, if_false]
  exact (if_neg htakes).trans (if_pos ⟨hp, hn⟩)

/-! What a charge leaves alone: the frames of the parser, the memories and the rings. -/
section
variable (s : State) (q reason n : Nat)
theorem slowCharged_par : (slowCharged s q reason n).par = { s.par with
    buckets := mset bucketReset s.par.buckets q ⟨(bucket s q).pkt - 1000, (bucket s q).bit - 8 * n⟩ } := by
  simp only [slowCharged, slowCnt, pcnt, cntAdd_par, setBucket]
@[simp] theorem slowCharged_mem : (slowCharged s q reason n).mem = s.mem := by simp [slowCharged, slowCnt, pcnt]
@[simp] theorem slowCharged_gpl : (slowCharged s q reason n).gpl = s.gpl := by simp [slowCharged, slowCnt, pcnt]
end

/-- The counters of the slow path's buckets end below those of its reasons (20 Table 20-3). -/
theorem rdCnt_slowCharged (hq : q < 8) (reason n : Nat) :
    rdCnt (slowCharged s q reason n) (0x30C00 + 8 * reason) = rdCnt s (0x30C00 + 8 * reason) + 1 := by
  have hpkt : 0x30C00 + 8 * reason ≠ 0x30800 + q * 0x20 + 0 * 8 := by omega
  have hbit : 0x30C00 + 8 * reason ≠ 0x30800 + q * 0x20 + 1 * 8 := by omega
  have hbucket : ∀ t x o, rdCnt (setBucket t q x) o = rdCnt t o := fun _ _ _ => rfl
  simp only [slowCharged, slowCnt, pcnt, rdCnt_cntAdd, if_neg hbit, if_neg hpkt, hbucket, if_true]
  rfl

/-! ### The record of a diverted frame -/

theorem fit_of_length {n : Nat} {l : List Octet} (h : l.length = n) : fit n l = l := by
  simp [fit, octs, zeros, ← h]

/-- A whole record that has its reason is the record of the diverted frame (03 R56). -/
theorem precd_slowItem (s : State) (it : Item) (q : Nat) (h : it.precd.length = 64) :
    (slowItem s it (oct it.precd 1) none q).precd = it.precd := by
  have hone : 1 < it.precd.length := by omega
  have hoct : BitVec.ofNat 8 (oct it.precd 1) = it.precd[1] := by simp [oct, hone]
  rw [slowItem, fit_of_length h, hoct, List.set_getElem_self]

theorem excDeliv_congr (h : u.mem = s.mem) (it : Item) (reason : Nat) (aux : List Octet) :
    excDeliv u it reason aux = excDeliv s it reason aux := by
  simp only [excDeliv, devRead, devOct, h]

/-- A frame of `n` octets has gone to the exception queue of partition `q`, which was charged for it. -/
structure Diverted (s u : State) (q reason n : Nat) (x : Deliv) : Prop where
  par : u.par = { s.par with
    buckets := mset bucketReset s.par.buckets q ⟨(bucket s q).pkt - 1000, (bucket s q).bit - 8 * n⟩ }
  mem : u.mem = s.mem
  deliv : u.gpl.deliv = s.gpl.deliv ++ [x]
  cnt : rdCnt u (0x30C00 + 8 * reason) = rdCnt s (0x30C00 + 8 * reason) + 1

theorem Diverted.laneOf {reason n : Nat} {x : Deliv} (h : Diverted s u q reason n x) (p : Nat) :
    laneOf u p = Machine.laneOf s p := by
  rw [Machine.laneOf, h.par]; rfl

theorem Diverted.parsed {reason n : Nat} {x : Deliv} (h : Diverted s u q reason n x) : u.par.parsed = s.par.parsed := by
  rw [h.par]

theorem Diverted.bucket {reason n : Nat} {x : Deliv} (h : Diverted s u q reason n x) :
    bucket u q = ⟨(Machine.bucket s q).pkt - 1000, (Machine.bucket s q).bit - 8 * n⟩ := by
  simp only [Machine.bucket, h.par, mget_mset_self]

/-- A charged partition's frame joins its exception queue when that has room. -/
theorem diverted_toException {reason n : Nat} (hpart : it.part = q) (hq : q < 8) (hw : excWaiting s q < 256)
    (hreason : reason < 256) (agent : Nat) (aux : List Octet) :
    Diverted s (toException (slowCharged s q reason n) it agent reason aux) q reason n (excDeliv s it reason aux) := by
  have hcnt := rdCnt_slowCharged (s := s) hq reason n
  have hpar := slowCharged_par s q reason n
  have hmem := slowCharged_mem s q reason n
  have hgpl := slowCharged_gpl s q reason n
  generalize slowCharged s q reason n = c at hcnt hpar hmem hgpl
  have hroom : excWaiting c it.part < 256 := by rwa [excWaiting, hgpl, hpart]
  have hpass := sameBelowBuffers_passBuf c it.buf agent (dmaAgent c it.part)
  rw [toException_of_room hroom, excDeliv_congr hmem]
  generalize passBuf c it.buf agent (dmaAgent c it.part) = v at hpass
  refine ⟨hpass.par.trans hpar, hpass.mem.trans hmem, ?_, (hpass.cnt _ (by omega)).trans hcnt⟩
  rw [← hgpl, ← hpass.gpl]; rfl

/-- A whole record that has its reason goes to the exception queue of its port's default partition, when the buckets hold
enough and the queue has room (03 R58-R60). -/
theorem diverted_slowPath {r : List Octet} (hrec : it.precd = r) (hd : defaultPart s it.port = some q) (hq : q < 8)
    (hb : inBolt s q = false) (hr : inReset s q = false) (hw : excWaiting s q < 256) (hp : 1000 ≤ (bucket s q).pkt)
    (hn : 8 * fieldBe r 6 2 ≤ (bucket s q).bit) (hlen : r.length = 64) (agent : Nat) (aux : List Octet) :
    Diverted s (slowPath s it agent (oct r 1) none aux) q (oct r 1) (fieldBe r 6 2)
      (excDeliv s (slowItem s it (oct r 1) none q) (oct r 1) aux) := by
  subst hrec
  have hprecd := precd_slowItem s it q hlen
  have hpart : (slowItem s it (oct it.precd 1) none q).part = q := rfl
  have hreason : oct it.precd 1 < 256 := BitVec.isLt _
  rw [slowPath_of_enough hd hb hr hp (by rwa [hprecd]), hprecd]
  exact diverted_toException hpart hq hw hreason agent aux

/-- The delivery of a frame with a whole record: the record, then the frame without its FCS (14 R311). -/
theorem excDeliv_octets {r : List Octet} (hrec : it.precd = r) (hlen : r.length = 64) (q : Nat) (aux : List Octet) :
    (excDeliv s (slowItem s it (oct r 1) none q) (oct r 1) aux).octets = r ++ devRead s it.buf it.len ++ aux := by
  subst hrec
  rw [excDeliv, precd_slowItem s it q hlen, fit_of_length hlen]; rfl

end Sys2Proof.Machine
end

section
/-! PROOFS. PARSE_RECORD_RELEASE, SLOW_BUCKET_REFILL and SWAP (03 R48, R59-R62). -/

namespace Sys2Proof.Machine

variable {s : State} {p : Nat} {f : RxFrame} {r : List Octet} {b : Bool} {more : List LaneEnt}

/-! ### Release -/

/-- A lane whose oldest record is not complete releases none. -/
theorem recordRelease_of_incomplete (h : ∀ g r w more, laneOf s p ≠ ⟨g, some r, w⟩ :: more) :
    recordRelease s p = s := by
  unfold recordRelease
  split
  · rename_i g r w more he; exact absurd he (h g r w more)
  · rfl

/-- A record without a reason goes to the framer (03 R48). -/
theorem recordRelease_of_no_reason (hl : laneOf s p = ⟨f, some r, b⟩ :: more) (hr : oct r 1 = 0) :
    recordRelease s p =
      { setLane s p more with par := { (setLane s p more).par with parsed := s.par.parsed ++ [⟨f, r⟩] } } := by
  simp [recordRelease, hl, hr, setLane]

/-- A record with a reason goes to the slow path, unless the journal holds it (03 R59, 13 R291). -/
theorem recordRelease_of_reason (hl : laneOf s p = ⟨f, some r, b⟩ :: more) (hr : oct r 1 ≠ 0) (hj : jnlFull s = false) :
    recordRelease s p = slowPath (setLane s p more) (parsedItem s f r) (portAgent p) (oct r 1) none [] := by
  simp [recordRelease, hl, hr, slowHolds, hj]

/-! ### Refill -/

/-- A partition's buckets after one refill (03 R60, R61). -/
def refilled (s : State) (k : Nat) : Bucket :=
  ⟨min (pktBurst s k) ((bucket s k).pkt + fld s (0x30100 + 4 * k) 15 0),
    min (bitBurst s k) ((bucket s k).bit + fld s (0x30120 + 4 * k) 15 0)⟩

theorem refillBucket_eq (s : State) (k : Nat) : refillBucket s k = setBucket s k (refilled s k) := rfl

/-- The first `n` partitions are refilled, and nothing else changes. -/
theorem foldl_refillBucket (s : State) (n : Nat) :
    (List.range n).foldl refillBucket s =
        { s with par := { s.par with buckets := ((List.range n).foldl refillBucket s).par.buckets } } ∧
      ∀ k, bucket ((List.range n).foldl refillBucket s) k = if k < n then refilled s k else bucket s k := by
  induction n with
  | zero => exact ⟨rfl, fun k => by simp⟩
  | succ n ih =>
    obtain ⟨hframe, hbuckets⟩ := ih
    rw [List.range_succ, List.foldl_append, List.foldl_cons, List.foldl_nil, refillBucket_eq]
    generalize (List.range n).foldl refillBucket s = t at hframe hbuckets
    have hsame : bucket t n = bucket s n := by simpa using hbuckets n
    have hn : refilled t n = refilled s n := by
      unfold refilled
      rw [hsame, hframe]; rfl
    refine ⟨by rw [hframe]; rfl, fun k => ?_⟩
    rw [bucket_setBucket, hn, hbuckets]
    by_cases hk : k = n
    · simp [hk]
    · simp [hk, show k < n + 1 ↔ k < n by omega]

theorem fld_high (s : State) (o : Nat) : fld s o 31 16 = rdDev s o / 65536 := by
  have hlt : rdDev s o < 2 ^ 32 := BitVec.isLt _
  simp only [fld, bitsOf]
  omega

theorem fld_low (s : State) (o : Nat) : fld s o 15 0 = rdDev s o % 65536 := by simp [fld, bitsOf]

theorem refilled_eq (s : State) (k : Nat) : refilled s k =
    ⟨min (1000 * (rdDev s (0x30100 + 4 * k) / 65536)) ((bucket s k).pkt + rdDev s (0x30100 + 4 * k) % 65536),
      min (8192 * max 9 (rdDev s (0x30120 + 4 * k) / 65536)) ((bucket s k).bit + rdDev s (0x30120 + 4 * k) % 65536)⟩ := by
  simp only [refilled, pktBurst, bitBurst, fld_high, fld_low]

/-! ### The bank swap -/

/-- The row of PAR_CTL (03 Table 03-9). -/
def parCtlRow : RegDef := ⟨.parCtl, 0x30000, 1, 4, 1, 4, 1, [0], [0]⟩

theorem regFind_parCtl : regFind 0x30000 = some ⟨parCtlRow, 0, 0, 0⟩ :=
  regFind_of_block (k := 36) (d := parCtlRow) (i := 0) rfl (by decide) (by decide) rfl (by decide) (by decide)

/-- PAR_CTL acts on its SWAP bit alone, and stands outside the banks itself (03 R62). -/
theorem devRegWrite_parCtl (s : State) (agent v : Nat) :
    devRegWrite s agent 0x30000 v = if bitOf v 0 then parSwapNow s else s := by
  have hreg : parCtlRow.reg = .parCtl := rfl
  have hhbm : isHbmReg .parCtl = false := rfl
  have hhob : isHobble .parCtl = false := rfl
  have hpar : isParseReg 0x30000 = false := by decide
  simp [devRegWrite, regFind_parCtl, hreg, hhbm, hhob, hpar]

theorem parSwapNow_of_swapping (h : parSwapping s = true) : parSwapNow s = s := if_pos h

/-- The shadow bank copied over the active one, at the time of the write. -/
def bankSwapped (s : State) : State :=
  { s with
    regs := { s.regs with parActive := mkeep (fun o _ => isParseReg o) s.regs.dev }
    par := { s.par with swapAt := some s.now } }

/-- With no walk under way the banks change at once (03 R62). -/
theorem parSwapNow_of_no_walk (h : parSwapping s = false) (hw : ∀ l, mget [] s.par.walks l = []) :
    parSwapNow s = bankSwapped s := by
  have hwalks : (List.range 16).foldl (fun s l => (mget [] s.par.walks l).foldl (fun s _ => graphWalk s l .clean) s) s = s :=
    List.foldl_fixed' (fun l => by rw [hw l]; rfl) _
  rw [parSwapNow, if_neg (Bool.eq_false_iff.mp h), hwalks]
  rfl

theorem rdPar_bankSwapped {o : Nat} (h : isParseReg o = true) : rdPar (bankSwapped s) o = rdDev s o := by
  have hkept := mget_mkeep (devReset o) isParseReg s.regs.dev o
  rw [if_pos h] at hkept
  exact congrArg BitVec.toNat hkept

/-- SWAP reads 1 at the time it is written (03 R62). -/
theorem parSwapping_bankSwapped (s : State) : parSwapping (bankSwapped s) = true :=
  decide_eq_true (Nat.lt_add_of_pos_right (by decide))

end Sys2Proof.Machine
end

section
/-! PROOFS. The statement on the parser's stages (03 R46-R56, R59-R63), clause by clause. -/

namespace Sys2Proof.Machine

variable {s : State} {port : BitVec 7} {f : RxFrame} {rest : List RxFrame}

/-! ### PARSE_FRAME -/

section
variable (hr : mget [] s.par.rx port.toNat = f :: rest) (hl : laneFull (laneOf s port.toNat) = false)
include hr hl

/-- An uncorrectable error of the parse stores ends the parse with reason PARSE_ECC (03 R63). -/
theorem exec_parseFrame_uncorrectable :
    ∃ u r, exec (.parseFrame port .uncorrectable) s = .next u ∧ FrameTaken s u port.toNat f rest (some r) ∧
      u.par.badStore = true ∧ oct r 0 = 0xFF ∧ oct r 1 = 0x0D :=
  ⟨_, _, congrArg Host.Outcome.next (parseFrame_of_record hr hl (frameResult_of_uncorrectable ..)),
    frameTaken_laneJoined (by decide) .., rfl, parseNone_class _, parseNone_reason (by decide)⟩

/-- A corrected error is counted, and the frame is parsed as without it (03 R63). -/
theorem exec_parseFrame_correctable :
    ∃ u r, exec (.parseFrame port .correctable) s = .next u ∧ mget [] u.par.rx port.toNat = rest ∧
      laneOf u port.toNat = joinedLane (laneOf s port.toNat) f r ∧ u.par.badStore = s.par.badStore ∧
      fld u 0x30000 15 8 = min 255 (fld s 0x30000 15 8 + 1) := by
  set p := port.toNat
  have hcount : fld (storeRead (rxTaken s p rest) .correctable) 0x30000 15 8 = min 255 (fld s 0x30000 15 8 + 1) :=
    fld_storeRead_correctable (rxTaken s p rest)
  cases h : frameResult s p f .correctable with
  | some r => exact ⟨_, some r, congrArg Host.Outcome.next (parseFrame_of_record hr hl h), rx_laneJoined_storeRead ..,
      lane_laneJoined_storeRead .., rfl, hcount⟩
  | none => exact ⟨_, none, congrArg Host.Outcome.next (parseFrame_of_walk hr hl h),
      rx_laneJoined_storeRead s p f rest none .correctable, lane_laneJoined_storeRead s p f rest none .correctable, rfl,
      hcount⟩

/-- The lowest profile that matches gives the record its class and L3OFF (03 R50, R51). -/
theorem exec_parseFrame_of_profile {k : Nat} (hk : k < 64)
    (hm : ProfileMatches s (sigOf (rxOctets s f)).bits k)
    (hlow : ∀ j, j < k → ¬ ProfileMatches s (sigOf (rxOctets s f)).bits j) (ht : tagCount (rxOctets s f) < 3) :
    ∃ u r, exec (.parseFrame port .clean) s = .next u ∧ FrameTaken s u port.toNat f rest (some r) ∧ oct r 0 = k ∧
      oct r 4 = f.port % 256 ∧ u.par.walks = s.par.walks ∧ fieldBe r 16 2 = 14 + 4 * tagCount (rxOctets s f) := by
  have hres := frameResult_of_profile (p := port.toNat) (fixedProfile_of_lowest hk hm hlow ht)
  exact ⟨_, _, congrArg Host.Outcome.next (parseFrame_of_record hr hl hres), frameTaken_laneJoined (by decide) ..,
    parseFixed_class hk, parseFixed_port _ _, rfl, parseFixed_l3 k⟩

/-- A frame that no profile takes waits for the walker when PAR_PORT.GEN is set (03 R50). -/
theorem exec_parseFrame_of_gen
    (h : (∀ k, k < 64 → ¬ ProfileMatches s (sigOf (rxOctets s f)).bits k) ∨ tagCount (rxOctets s f) = 3)
    (hg : (rdPar s (0x30200 + 4 * port.toNat)).testBit 16 = true) :
    ∃ u, exec (.parseFrame port .clean) s = .next u ∧ FrameTaken s u port.toNat f rest none ∧
      mget [] u.par.walks (port.toNat / 8) = mget [] s.par.walks (port.toNat / 8) ++ [port.toNat] := by
  have hres : frameResult s port.toNat f .clean = none :=
    (frameResult_of_no_profile (fixedProfile_of_no_match h)).trans (if_pos hg)
  exact ⟨_, congrArg Host.Outcome.next (parseFrame_of_walk hr hl hres),
    (frameTaken_laneJoined (by decide) s _ f rest none).walkQueued, mget_mset_self ..⟩

/-- With PAR_PORT.GEN clear its record has reason NO_PROFILE (03 R50). -/
theorem exec_parseFrame_of_no_gen
    (h : (∀ k, k < 64 → ¬ ProfileMatches s (sigOf (rxOctets s f)).bits k) ∨ tagCount (rxOctets s f) = 3)
    (hg : (rdPar s (0x30200 + 4 * port.toNat)).testBit 16 = false) :
    ∃ u r, exec (.parseFrame port .clean) s = .next u ∧ FrameTaken s u port.toNat f rest (some r) ∧
      u.par.walks = s.par.walks ∧ oct r 0 = 0xFF ∧ oct r 1 = 1 := by
  have hres : frameResult s port.toNat f .clean = some (parseNone f (rxOctets s f) 1) :=
    (frameResult_of_no_profile (fixedProfile_of_no_match h)).trans (if_neg (Bool.eq_false_iff.mp hg))
  exact ⟨_, _, congrArg Host.Outcome.next (parseFrame_of_record hr hl hres), frameTaken_laneJoined (by decide) .., rfl,
    parseNone_class _, parseNone_reason (by decide)⟩
end

/-! ### GRAPH_WALK -/

section
variable {lane : BitVec 4} {p : Nat} {more : List Nat} {pre post : List LaneEnt} {b : Bool}
variable (hw : mget [] s.par.walks lane.toNat = p :: more) (hl : laneOf s p = pre ++ ⟨f, none, b⟩ :: post)
variable (hpre : ∀ x ∈ pre, x.precd.isSome = true)
include hw hl hpre

/-- The walker completes the record of the frame that has waited longest (03 R47, R53). -/
theorem exec_graphWalk_clean :
    ∃ u r, exec (.graphWalk lane .clean) s = .next u ∧ OnlyParser s u p ∧ u.par.rx = s.par.rx ∧
      mget [] u.par.walks lane.toNat = more ∧ laneOf u p = pre ++ ⟨f, some r, b⟩ :: post ∧ oct r 4 = f.port % 256 :=
  ⟨_, _, congrArg Host.Outcome.next (graphWalk_of_queued hw hl hpre .clean), onlyParser_walked (by decide) .., rfl,
    mget_mset_self .., laneOf_walked .., parseGraph_port _⟩

/-- A walk that meets an uncorrectable error ends with reason PARSE_ECC (03 R63). -/
theorem exec_graphWalk_uncorrectable :
    ∃ u r, exec (.graphWalk lane .uncorrectable) s = .next u ∧ OnlyParser s u p ∧ u.par.badStore = true ∧
      laneOf u p = pre ++ ⟨f, some r, b⟩ :: post ∧ oct r 0 = 0xFF ∧ oct r 1 = 0x0D :=
  ⟨_, _, congrArg Host.Outcome.next (graphWalk_of_queued hw hl hpre .uncorrectable), onlyParser_walked (by decide) .., rfl,
    laneOf_walked .., parseNone_class _, parseNone_reason (by decide)⟩
end

/-! ### PARSE_RECORD_RELEASE -/

section
variable {r : List Octet} {b : Bool} {more : List LaneEnt}

/-- A record without a reason leaves its lane for the framer (03 R48). -/
theorem exec_parseRecordRelease_of_no_reason (hl : laneOf s port.toNat = ⟨f, some r, b⟩ :: more) (hr : oct r 1 = 0) :
    ∃ u, exec (.parseRecordRelease port) s = .next u ∧ laneOf u port.toNat = more ∧
      u.par.parsed = s.par.parsed ++ [⟨f, r⟩] ∧ u = { s with par := u.par } ∧ u.par.rx = s.par.rx :=
  ⟨_, congrArg Host.Outcome.next (recordRelease_of_no_reason hl hr), mget_mset_self .., rfl, rfl, rfl⟩

/-- A record with a reason leaves its lane for the exception queue of the default profile's owner, at the cost of a packet
and its bits (03 R58-R60). -/
theorem exec_parseRecordRelease_of_reason {q : Nat} (hl : laneOf s port.toNat = ⟨f, some r, b⟩ :: more) (hr : oct r 1 ≠ 0)
    (hj : jnlFull s = false) (hd : defaultPart s f.port = some q) (hq : q < 8) (hb : inBolt s q = false)
    (hi : inReset s q = false) (hw : excWaiting s q < 256) (hp : 1000 ≤ (bucket s q).pkt)
    (hn : 8 * fieldBe r 6 2 ≤ (bucket s q).bit) (hlen : r.length = 64) :
    ∃ u x, exec (.parseRecordRelease port) s = .next u ∧ laneOf u port.toNat = more ∧ u.par.parsed = s.par.parsed ∧
      u.gpl.deliv = s.gpl.deliv ++ [x] ∧ x.kind = .exception ∧ x.part = q ∧ x.reason = oct r 1 ∧
      x.octets = r ++ rxOctets s f ∧ x.buf = some f.buf ∧ u.mem = s.mem ∧
      bucket u q = ⟨(bucket s q).pkt - 1000, (bucket s q).bit - 8 * fieldBe r 6 2⟩ ∧
      rdCnt u (0x30C00 + 8 * oct r 1) = rdCnt s (0x30C00 + 8 * oct r 1) + 1 := by
  set p := port.toNat
  set t := setLane s p more
  have hprecd : (parsedItem s f r).precd = r := rfl
  have hrelease : recordRelease s p = slowPath t (parsedItem s f r) (portAgent p) (oct r 1) none [] :=
    recordRelease_of_reason hl hr hj
  have hdiv := diverted_slowPath (s := t) hprecd hd hq hb hi hw hp hn hlen (portAgent p) []
  have hoctets := (excDeliv_octets (s := t) hprecd hlen q []).trans (List.append_nil _)
  have hlane : laneOf t p = more := (laneOf_setLane s p p more).trans (if_pos rfl)
  exact ⟨_, _, congrArg Host.Outcome.next hrelease, (hdiv.laneOf p).trans hlane, hdiv.parsed, hdiv.deliv, rfl, rfl, rfl,
    hoctets, rfl, hdiv.mem, hdiv.bucket, hdiv.cnt⟩

end

/-! ### SLOW_BUCKET_REFILL and SWAP -/

theorem exec_slowBucketRefill (s : State) :
    ∃ u, exec .slowBucketRefill s = .next u ∧ u = { s with par := { s.par with buckets := u.par.buckets } } ∧
      ∀ k, k < 8 → bucket u k = refilled s k := by
  obtain ⟨hframe, hbuckets⟩ := foldl_refillBucket s 8
  exact ⟨_, rfl, hframe, fun k hk => (hbuckets k).trans (if_pos hk)⟩

/-- SWAP does nothing while it reads 1 (03 R62). -/
theorem exec_parSwap_of_swapping (h : parSwapping s = true) : exec .parSwap s = .next s := by
  have hu : supWrite s 0x30000 1 = s := by
    unfold supWrite
    split
    · exact (devRegWrite_parCtl s _ 1).trans (parSwapNow_of_swapping h)
    · rfl
  exact congrArg Host.Outcome.next hu

/-- SWAP by the supervisor makes the shadow bank active (03 R62). -/
theorem exec_parSwap_of_no_walk (hb : supBound s = true) (hr : inReset s 0 = false) (h : parSwapping s = false)
    (hw : ∀ l, mget [] s.par.walks l = []) : exec .parSwap s = .next (bankSwapped s) := by
  have hu : supWrite s 0x30000 1 = bankSwapped s := by
    rw [supWrite_of_reach hb hr, devRegWrite_parCtl]
    exact parSwapNow_of_no_walk h hw
  exact congrArg Host.Outcome.next hu

/-- Settles O31: each clause is the lemma above about the command it names. -/
theorem parserStages : Obligations.ParserStages := by
  unfold Obligations.ParserStages
  intro s port lane f rest b q p d sig matches_ gen onlyParser taken
  refine ⟨?_, ?_, ?_, ?_, ?_, ?_, exec_parSwap_of_swapping, ?_⟩
  · exact fun h ecc => congrArg Host.Outcome.next (parseFrame_of_none h ecc)
  · exact fun hr hl => ⟨exec_parseFrame_uncorrectable hr hl, exec_parseFrame_correctable hr hl,
      fun k hk hm hlow ht => exec_parseFrame_of_profile hr hl hk hm hlow ht, exec_parseFrame_of_gen hr hl,
      exec_parseFrame_of_no_gen hr hl⟩
  · exact fun more pre post hw hl hpre => ⟨exec_graphWalk_clean hw hl hpre, exec_graphWalk_uncorrectable hw hl hpre⟩
  · exact fun h => congrArg Host.Outcome.next (recordRelease_of_incomplete h)
  · intro r more hl
    refine ⟨exec_parseRecordRelease_of_no_reason hl, fun hr hj hp hd hq hb hi hw hpkt hbit hlen => ?_⟩
    exact exec_parseRecordRelease_of_reason hl hr hj (hp ▸ hd) hq hb hi hw hpkt hbit hlen
  · obtain ⟨u, hu, hframe, hbuckets⟩ := exec_slowBucketRefill s
    exact ⟨u, hu, hframe, fun k hk => (hbuckets k hk).trans (refilled_eq s k)⟩
  · intro hb hr h hw
    refine ⟨_, exec_parSwap_of_no_walk hb hr h hw, parSwapping_bankSwapped s, rfl, fun o ho => rdPar_bankSwapped ?_⟩
    simpa [isParseReg] using ho

end Sys2Proof.Machine
end

section
/-! PROOFS. What a host command goes through (14 R306, R309, R316): an accepted one runs, and its completion is one entry more on
its completion ring. -/

namespace Sys2Proof.Machine

open Sys2Proof.Claim

variable {s t u : State} {c : CmdRef} {opc status result len : Nat}

theorem hostCmd_of_accepted (h : Accepted s c opc) (run : State → State) : hostCmd s c opc run = run s := by
  obtain ⟨hreset, hbolt, hring⟩ := h
  simp [hostCmd, hreset, hbolt, hring]

/-- A completion changes the rings only (14 R309). -/
theorem finish_frame (s : State) (c : CmdRef) (opc status result len : Nat) :
    finish s c opc status result len =
      { s with gpl := { s.gpl with rings := (finish s c opc status result len).gpl.rings } } := by
  unfold finish complete
  dsimp only
  split <;> rfl

section
variable (s : State) (c : CmdRef) (opc status result len : Nat)
@[simp] theorem finish_mem : (finish s c opc status result len).mem = s.mem := by rw [finish_frame]
@[simp] theorem finish_stf : (finish s c opc status result len).stf = s.stf := by rw [finish_frame]
@[simp] theorem finish_waiting : (finish s c opc status result len).gpl.waiting = s.gpl.waiting := by rw [finish_frame]
end

/-- The entry that completes a command of a COMMAND or SERVICE ring (14 Tables 14-9, 14-10). -/
def finishEntry (s : State) (c : CmdRef) (opc status result len : Nat) : Compl :=
  { status := status, kind := if ringKind s c.ring.toNat = 3 then 0x09 else 0x01, ring := c.ring.toNat, tag := c.tag.toNat,
    slot := c.slot.toNat, result := result, len := len, detail := fit 12 (beOctets 1 opc),
    reserved := (ringSt s c.ring.toNat).outst.contains c.slot.toNat }

theorem completed_finish (h : inReset s c.part.toNat = false) :
    Completed s (finish s c opc status result len) c opc status result len := by
  have hpush : finish s c opc status result len = cqPush s c.ring.toNat (finishEntry s c opc status result len) := by
    rw [finish, complete, if_neg (by simp [h]), finishEntry]
  refine ⟨finishEntry s c opc status result len, ?_, rfl, rfl, rfl, rfl, rfl, rfl, ?_⟩
  · rw [hpush, cqPush, ringSt_setRing, if_pos rfl]
  · simp [finishEntry, fit, octs, beOctets]

/-- A completion is one as seen from any state with the same rings and ring configuration. -/
theorem completed_of_same_rings (h : Completed t u c opc status result len) (hrings : t.gpl.rings = s.gpl.rings)
    (hregs : t.regs = s.regs) : Completed s u c opc status result len := by
  have hcq : ringCq t c.ring.toNat = ringCq s c.ring.toNat := by simp only [ringCq, rdRing, hregs]
  have hst : ∀ r, ringSt t r = ringSt s r := fun r => by simp only [ringSt, hrings]
  obtain ⟨e, hcompl, hrest⟩ := h
  exact ⟨e, by rw [← hst, ← hcq]; exact hcompl, hrest⟩

end Sys2Proof.Machine
end

section
/-! PROOFS. Octet strings and host memory: a number read from the octets that spell it (00 Table 00-2), and what host memory reads
after a write of it. -/

namespace Sys2Proof.Machine

open Sys2Proof.Claim

@[simp] theorem length_beOctets (n v : Nat) : (beOctets n v).length = n := by
  induction n with
  | zero => rfl
  | succ n ih => simp [beOctets, ih]

@[simp] theorem length_octs (l : List Octet) (off n : Nat) : (octs l off n).length = n := by
  simp [octs, zeros]

@[simp] theorem length_fit (n : Nat) (l : List Octet) : (fit n l).length = n := length_octs l 0 n

/-- The octets of a number, read on from `acc`. -/
theorem foldl_beOctets (n v acc : Nat) :
    (beOctets n v).foldl (fun a o => a * 256 + o.toNat) acc = acc * 256 ^ n + v % 256 ^ n := by
  induction n generalizing acc with
  | zero => simp [beOctets, Nat.mod_one]
  | succ n ih =>
    have hsplit : v % 256 ^ (n + 1) = v / 256 ^ n % 256 * 256 ^ n + v % 256 ^ n := by
      rw [pow_succ, Nat.mod_mul]; ring
    rw [beOctets, List.foldl_cons, ih, hsplit]
    simp only [BitVec.toNat_ofNat, Nat.reducePow]
    ring

theorem beNat_beOctets (n v : Nat) : beNat (beOctets n v) = v % 256 ^ n := by
  simp [beNat, foldl_beOctets]

theorem octs_append (x y z : List Octet) : octs (x ++ (y ++ z)) x.length y.length = y := by
  simp [octs, zeros]

/-- A number's octets in the middle of a string read as the number. -/
theorem fieldBe_append_beOctets (x z : List Octet) (n v : Nat) :
    fieldBe (x ++ (beOctets n v ++ z)) x.length n = v % 256 ^ n := by
  have hmid := octs_append x (beOctets n v) z
  rw [length_beOctets] at hmid
  rw [fieldBe, hmid, beNat_beOctets]

/-- The front of a filled string is the string's. -/
theorem take_fit {m n : Nat} {l : List Octet} (hn : m ≤ n) (hl : m ≤ l.length) : (fit n l).take m = l.take m := by
  simp [fit, octs, List.take_append, List.take_take, hn, hl]

/-- A field of an operand, as a word. -/
theorem ofNat_bitsOf {n : Nat} (d : BitVec n) {hi lo w : Nat} (h : hi + 1 - lo = w) :
    BitVec.ofNat w (bitsOf d.toNat hi lo) = d.extractLsb' lo w := by
  apply BitVec.eq_of_toNat_eq
  simp [bitsOf, h, Nat.shiftRight_eq_div_pow]

/-! ### Host memory -/

/-- What a partition's host memory reads after octets are put at wrapping addresses (14 R298). -/
theorem mget_putHost (p q b : Nat) (hb : b < 2 ^ 64) (l : List Octet) (m : Map Octet) (a : Nat) (hl : l.length ≤ 2 ^ 64) :
    mget 0 (putHost p m a l) (q * 2 ^ 64 + b) =
      if q = p ∧ (b + 2 ^ 64 - a % 2 ^ 64) % 2 ^ 64 < l.length then l.getD ((b + 2 ^ 64 - a % 2 ^ 64) % 2 ^ 64) 0
      else mget 0 m (q * 2 ^ 64 + b) := by
  induction l generalizing m a with
  | nil => simp [putHost]
  | cons o l ih =>
    rw [List.length_cons] at hl
    rw [putHost, ih _ _ (by omega), mget_mset]
    by_cases hq : q = p
    · by_cases hat : b = a % 2 ^ 64
      · have hlast : (b + 2 ^ 64 - (a + 1) % 2 ^ 64) % 2 ^ 64 = 2 ^ 64 - 1 := by omega
        have hzero : (b + 2 ^ 64 - a % 2 ^ 64) % 2 ^ 64 = 0 := by omega
        rw [hlast, hzero, if_neg (by omega), if_pos (by omega), if_pos ⟨hq, Nat.succ_pos _⟩]; rfl
      · have hnext : (b + 2 ^ 64 - a % 2 ^ 64) % 2 ^ 64 = (b + 2 ^ 64 - (a + 1) % 2 ^ 64) % 2 ^ 64 + 1 := by omega
        have hmiss : q * 2 ^ 64 + b ≠ p * 2 ^ 64 + a % 2 ^ 64 := by omega
        rw [if_neg hmiss, hnext, List.getD_cons_succ, List.length_cons]
        simp only [Nat.add_lt_add_iff_right]
    · have hmiss : q * 2 ^ 64 + b ≠ p * 2 ^ 64 + a % 2 ^ 64 := by omega
      rw [if_neg hmiss, if_neg (fun h => hq h.1), if_neg (fun h => hq h.1)]

/-- A write of host memory by a partition that has a host puts its octets there (14 R298, R316). -/
theorem hostPut_hostWrite {s : State} {p a : Nat} {l : List Octet} (hr : inReset s p = false) (hh : hasHost s p = true)
    (ha : a < 2 ^ 64) (hl : l.length ≤ 2 ^ 64) : HostPut s (hostWrite s p a l) p a l := by
  intro q b hb
  have hput := mget_putHost p q b hb l s.mem.host a hl
  rw [Nat.mod_eq_of_lt ha] at hput
  have hwrites : ¬ (inReset s p || !hasHost s p) = true := by simp [hr, hh]
  rw [hostOctet, hostOctet, hostWrite, if_neg hwrites, Nat.mod_eq_of_lt hb]
  exact hput

/-- A write of host memory changes host memory only. -/
theorem hostWrite_frame (s : State) (p a : Nat) (l : List Octet) :
    hostWrite s p a l = { s with mem := { s.mem with host := (hostWrite s p a l).mem.host } } := by
  unfold hostWrite
  split <;> rfl

end Sys2Proof.Machine
end

section
/-! PROOFS. The commands of the stream framer (04 R75, R76, Table 04-4): what each makes of the one connection it names. -/

namespace Sys2Proof.Machine

open Sys2Proof.Claim

variable {s t u : State} {c : CmdRef} {i : Nat} {k k' : Conn}

/-! ### One connection changes -/

/-- Connection `i` has become `k`, and nothing else has changed. -/
structure ConnSet (s u : State) (i : Nat) (k : Conn) : Prop where
  frame : u = { s with stf := u.stf }
  self : conn u i = k
  other : ∀ j, j ≠ i → conn u j = conn s j

theorem connSet_setConn (s : State) (i : Nat) (k : Conn) : ConnSet s (setConn s i k) i k :=
  ⟨rfl, by simp, fun j hj => by simp [hj]⟩

theorem ConnSet.trans (h1 : ConnSet s t i k) (h2 : ConnSet t u i k') : ConnSet s u i k' where
  frame := by rw [h2.frame, h1.frame]
  self := h2.self
  other j hj := (h2.other j hj).trans (h1.other j hj)

/-- A connection without assembly: both directions cleared. -/
def Conn.cleared (k : Conn) : Conn := { k with d0 := k.d0.clear, d1 := k.d1.clear }

/-- Directions without an assembly buffer are cleared, and no buffer is freed. -/
theorem connSet_freeAsm (h0 : (conn s i).d0.asm = none) (h1 : (conn s i).d1.asm = none) :
    ConnSet s (freeAsm (freeAsm s i 0) i 1) i (conn s i).cleared := by
  have hfirst : freeAsm s i 0 = setConn s i { conn s i with d0 := (conn s i).d0.clear } := by
    simp [freeAsm, setStfDir, Conn.dir, Conn.setDir, h0]
  have hset := connSet_setConn s i { conn s i with d0 := (conn s i).d0.clear }
  have hsecond : freeAsm (freeAsm s i 0) i 1 = setConn (freeAsm s i 0) i (conn s i).cleared := by
    rw [hfirst, freeAsm, setStfDir]
    simp [hset.self, Conn.dir, Conn.setDir, h1, Conn.cleared]
  rw [hsecond, hfirst]
  exact hset.trans (connSet_setConn ..)

/-- A connection without rewrite records has none to free. -/
theorem connSet_freeRws (h : (conn s i).rws = []) : ConnSet s (freeRws s i) i (conn s i) := by
  have hsame : { conn s i with rws := [] } = conn s i := by rw [← h]
  have heq : freeRws s i = setConn s i (conn s i) := by simp [freeRws, h, hsame]
  rw [heq]
  exact connSet_setConn ..

/-- A connection with no assembly and no rewrite records closes (04 Table 04-4). -/
theorem connSet_closeConn (h0 : (conn s i).d0.asm = none) (h1 : (conn s i).d1.asm = none) (hr : (conn s i).rws = []) :
    ConnSet s (closeConn s i) i { (conn s i).cleared with state := 0, tls := false } := by
  have hasm := connSet_freeAsm h0 h1
  have hrws := connSet_freeRws (s := freeAsm (freeAsm s i 0) i 1) (i := i) (by rw [hasm.self]; exact hr)
  rw [hasm.self] at hrws
  rw [closeConn, hrws.self]
  exact (hasm.trans hrws).trans (connSet_setConn ..)

/-- The connection that a resynchronization with FLAGS 0 leaves. -/
def Conn.resynced (k : Conn) (x0 x1 : SyncDir) : Conn :=
  { k with state := 1, slowRsn := 0, slowDir := 0,
           d0 := Machine.resynced k.tls k.d0.clear 0 x0, d1 := Machine.resynced k.tls k.d1.clear 0 x1 }

theorem connSet_resyncNow (h0 : (conn s i).d0.asm = none) (h1 : (conn s i).d1.asm = none) (x0 x1 : SyncDir) :
    ConnSet s (resyncNow s i 0 x0 x1) i ((conn s i).resynced x0 x1) := by
  have hasm := connSet_freeAsm h0 h1
  have heq : resyncNow s i 0 x0 x1 = setConn (freeAsm (freeAsm s i 0) i 1) i ((conn s i).resynced x0 x1) := by
    simp [resyncNow, bitOf, hasm.self, Conn.cleared, Conn.resynced]
  rw [heq]
  exact hasm.trans (connSet_setConn ..)

/-- A command that has set its connection completes, and keeps every other connection and the memories. -/
theorem ConnSet.finish {opc status : Nat} (h : ConnSet s u i k) (hr : inReset s c.part.toNat = false) :
    Completed s (finish u c opc status 0 0) c opc status 0 0 ∧
      (∀ j, j ≠ i → conn (finish u c opc status 0 0) j = conn s j) ∧ (finish u c opc status 0 0).mem = s.mem ∧
      conn (finish u c opc status 0 0) i = k := by
  have hconn : ∀ j, conn (Machine.finish u c opc status 0 0) j = conn u j := fun j => by simp only [conn, finish_stf]
  have hreset : inReset u c.part.toNat = false := by rw [h.frame]; exact hr
  refine ⟨completed_of_same_rings (completed_finish hreset) (by rw [h.frame]) (by rw [h.frame]), fun j hj => ?_, ?_, ?_⟩
  · rw [hconn, h.other j hj]
  · rw [finish_mem, h.frame]
  · rw [hconn, h.self]

/-! ### The connection a command names -/

theorem stixFor_of_closed {p : Nat} (h : (conn s i).state = 0) : stixFor s p i = (false, s) := by
  simp [stixFor, h]

theorem stixFor_of_mine (hi : i ≤ fld s 0x40000 22 1) (hs : 0 < (conn s i).state) : stixFor s (conn s i).part i = (true, s) := by
  simp [stixFor, Nat.not_lt.mpr hi, Nat.pos_iff_ne_zero.mp hs]

theorem inFlight_of_none (h0 : (conn s i).d0.infl = 0) (h1 : (conn s i).d1.infl = 0) : inFlight s i = false := by
  simp [inFlight, h0, h1]

theorem inFlight_of_first (h : 0 < (conn s i).d0.infl) : inFlight s i = true := by
  simp [inFlight]; omega

end Sys2Proof.Machine
end

section
/-! PROOFS. The statement on the framer's commands (04 R75, R76, Table 04-4), clause by clause. -/

namespace Sys2Proof.Machine

open Sys2Proof.Claim

variable {s : State} {c : CmdRef} {stix : BitVec 32} {v flags : BitVec 8} {d0 d1 : BitVec 128} {addr : BitVec 64}

/-! ### STF_OPEN -/

/-- A direction's operand names a domain and a queue that are enabled and the partition's. -/
theorem targetOk_of_enabled {p d : Nat} (h : d / 2 ^ 48 % 2 ^ 16 < 4096 ∧
    flag s (0x68000 + 8 * (d / 2 ^ 48 % 2 ^ 16)) 0 = true ∧ domOwner s (d / 2 ^ 48 % 2 ^ 16) = some p ∧
    d / 2 ^ 32 % 2 ^ 16 < 4096 ∧ queueEn s (d / 2 ^ 32 % 2 ^ 16) = true ∧
    queueOwner s (d / 2 ^ 32 % 2 ^ 16) = some p) : targetOk s p (openDir d) = true := by
  obtain ⟨hdom, hdomEn, hdomOwner, hq, hqEn, hqOwner⟩ := h
  have hodom : (openDir d).odom = d / 2 ^ 48 % 2 ^ 16 := rfl
  have heq : (openDir d).eq = d / 2 ^ 32 % 2 ^ 16 := rfl
  have hen : bitOf (hltDom s (d / 2 ^ 48 % 2 ^ 16)) 0 = true := hdomEn
  simp only [targetOk, hodom, heq, Bool.and_eq_true, decide_eq_true_eq]
  exact ⟨⟨⟨⟨⟨hdom, hq⟩, hen⟩, hdomOwner⟩, hqEn⟩, hqOwner⟩

/-- The connection that STF_OPEN without TLS leaves (04 Table 04-4). -/
def Conn.opened (k : Conn) (p v d0 d1 : Nat) : Conn :=
  { k with
    state := 1, tls := false, service := v, slowRsn := 0, slowDir := 0, part := p,
    d0 := Machine.opened k.d0 (openDir d0), d1 := Machine.opened k.d1 (openDir d1), rws := [] }

theorem stfOpen_of_closed {i v flags d0 d1 : Nat} (hi : i ≤ fld s 0x40000 22 1) (hk : (conn s i).state = 0) (hv : v < 64)
    (hmin : 1 ≤ svcRule s v) (hmax : svcRule s v ≤ 5) (hf : bitOf flags 0 = false)
    (h0 : targetOk s c.part.toNat (openDir d0) = true) (h1 : targetOk s c.part.toNat (openDir d1) = true) :
    stfOpen s c i v flags d0 d1 = finish (setConn s i ((conn s i).opened c.part.toNat v d0 d1)) c 0x20 0 0 0 := by
  have hservice : ¬ (63 < v ∨ svcRule s v = 0 ∨ 6 ≤ svcRule s v) := by omega
  simp [stfOpen, Nat.not_lt.mpr hi, hk, hservice, hf, h0, h1, Conn.opened]

theorem exec_stfOpen_of_closed (hi : stix.toNat ≤ fld s 0x40000 22 1) (ha : Accepted s c 0x20)
    (hk : (conn s stix.toNat).state = 0) (hv : v.toNat < 64) (hmin : 1 ≤ svcRule s v.toNat)
    (hmax : svcRule s v.toNat ≤ 5) (hf : flags.getLsbD 0 = false)
    (h0 : targetOk s c.part.toNat (openDir d0.toNat) = true) (h1 : targetOk s c.part.toNat (openDir d1.toNat) = true) :
    exec (.stfOpen c stix v flags d0 d1) s =
      .next (finish (setConn s stix.toNat ((conn s stix.toNat).opened c.part.toNat v.toNat d0.toNat d1.toNat)) c 0x20 0 0 0) := by
  have hflag : bitOf flags.toNat 0 = false := (bitOf_eq _ _).trans hf
  exact congrArg Host.Outcome.next
    ((hostCmd_of_accepted ha _).trans (stfOpen_of_closed hi hk hv hmin hmax hflag h0 h1))

/-! ### A closed STIX -/

/-- A command on a connection that is closed completes NOT_OPEN. -/
theorem completed_notOpen {opc : Nat} (ha : Accepted s c opc) :
    Completed s (finish s c opc 0x30 0 0) c opc 0x30 0 0 ∧ (finish s c opc 0x30 0 0).stf = s.stf ∧
      (finish s c opc 0x30 0 0).mem = s.mem := ⟨completed_finish ha.1, finish_stf .., finish_mem ..⟩

theorem exec_stfResync_of_closed (ha : Accepted s c 0x21) (hk : (conn s stix.toNat).state = 0) :
    exec (.stfResync c stix flags d0 d1) s = .next (finish s c 0x21 0x30 0 0) := by
  refine congrArg Host.Outcome.next ((hostCmd_of_accepted ha _).trans ?_)
  rw [stfResync, stixFor_of_closed hk]

theorem exec_stfQuery_of_closed (ha : Accepted s c 0x22) (hk : (conn s stix.toNat).state = 0) :
    exec (.stfQuery c stix addr) s = .next (finish s c 0x22 0x30 0 0) := by
  refine congrArg Host.Outcome.next ((hostCmd_of_accepted ha _).trans ?_)
  rw [stfQuery, stixFor_of_closed hk]

theorem exec_stfClose_of_closed (ha : Accepted s c 0x23) (hk : (conn s stix.toNat).state = 0) :
    exec (.stfClose c stix) s = .next (finish s c 0x23 0x30 0 0) := by
  refine congrArg Host.Outcome.next ((hostCmd_of_accepted ha _).trans ?_)
  rw [stfClose, stixFor_of_closed hk]

/-! ### STF_RESYNC and STF_CLOSE -/

/-- A resynchronization of a slow connection with no message in flight and FLAGS 0 commits at once (04 R76). -/
theorem stfResync_of_slow {i : Nat} {ops : List Octet} (hi : i ≤ fld s 0x40000 22 1)
    (hp : (conn s i).part = c.part.toNat) (hk : (conn s i).state = 2) (h0 : (conn s i).d0.infl = 0)
    (h1 : (conn s i).d1.infl = 0) (hf : oct ops 0 = 0) :
    stfResync s c i ops =
      finish (resyncNow s i 0 (syncDir (fieldBe ops 1 16)) (syncDir (fieldBe ops 17 16))) c 0x21 0 0 0 := by
  have hnew : bitOf 0 2 = false := rfl
  rw [stfResync, ← hp, stixFor_of_mine hi (by omega)]
  simp [hf, hk, hnew, inFlight_of_none h0 h1]

section
variable (hi : stix.toNat ≤ fld s 0x40000 22 1) (hp : (conn s stix.toNat).part = c.part.toNat)
include hi hp

theorem exec_stfResync_of_slow (ha : Accepted s c 0x21) (hk : (conn s stix.toNat).state = 2)
    (h0 : (conn s stix.toNat).d0.infl = 0) (h1 : (conn s stix.toNat).d1.infl = 0) :
    exec (.stfResync c stix 0 d0 d1) s =
      .next (finish (resyncNow s stix.toNat 0 (syncDir d0.toNat) (syncDir d1.toNat)) c 0x21 0 0 0) := by
  refine congrArg Host.Outcome.next ((hostCmd_of_accepted ha _).trans ?_)
  have hx0 : fieldBe ((0 : Octet) :: beOctets 16 d0.toNat ++ beOctets 16 d1.toNat) 1 16 = d0.toNat :=
    (fieldBe_append_beOctets [0] (beOctets 16 d1.toNat) 16 d0.toNat).trans (Nat.mod_eq_of_lt d0.isLt)
  have hx1 : fieldBe ((0 : Octet) :: beOctets 16 d0.toNat ++ beOctets 16 d1.toNat) 17 16 = d1.toNat := by
    have h := fieldBe_append_beOctets (0 :: beOctets 16 d0.toNat) [] 16 d1.toNat
    rw [List.append_nil, List.length_cons, length_beOctets] at h
    exact h.trans (Nat.mod_eq_of_lt d1.isLt)
  rw [stfResync_of_slow hi hp hk h0 h1 rfl, hx0, hx1]

theorem exec_stfClose_of_idle (ha : Accepted s c 0x23) (hk : 0 < (conn s stix.toNat).state)
    (h0 : (conn s stix.toNat).d0.infl = 0) (h1 : (conn s stix.toNat).d1.infl = 0) :
    exec (.stfClose c stix) s = .next (finish (closeConn s stix.toNat) c 0x23 0 0 0) := by
  refine congrArg Host.Outcome.next ((hostCmd_of_accepted ha _).trans ?_)
  rw [stfClose, ← hp, stixFor_of_mine hi hk]
  simp [inFlight_of_none h0 h1]

theorem exec_stfClose_of_inFlight (ha : Accepted s c 0x23) (hk : 0 < (conn s stix.toNat).state)
    (h : inFlight s stix.toNat = true) :
    exec (.stfClose c stix) s = .next (stfWait s c (.stfClose stix.toNat)) := by
  refine congrArg Host.Outcome.next ((hostCmd_of_accepted ha _).trans ?_)
  rw [stfClose, ← hp, stixFor_of_mine hi hk]
  simp [h]

end

/-! ### STF_QUERY -/

theorem StfDir.length_image (x : StfDir) : x.image.length = 96 := length_fit ..

/-- EXPSEQ stands first in its direction (04 Table 04-1). -/
theorem StfDir.image_expSeq (x : StfDir) : x.image.take 4 = beOctets 4 x.expSeq.toNat := by
  rw [StfDir.image, take_fit (by omega) (by simp)]
  simp

/-- The state record is a head of 64 octets and the two directions (04 Table 04-1). -/
theorem Conn.image_eq (k : Conn) : ∃ h, h.length = 64 ∧ k.image = h ++ k.d0.image ++ k.d1.image ∧
    h.getD 0 0 = BitVec.ofNat 8 (k.state + 4 * b2n k.tls) :=
  ⟨_, by simp [zeros], rfl, by simp [beOctets]⟩

/-- With no record in progress there is no plaintext of one. -/
theorem recPlain_of_none {x : StfDir} (h : x.inRec = false) : recPlain s x = [] := by
  unfold recPlain
  split
  · simp [recCipher, h, gcmCrypt, xorOctets]
  · rfl

theorem asmOctets_of_none {x : StfDir} (h : x.asm = none) : asmOctets s x = [] := by simp [asmOctets, h]

theorem Conn.length_image (k : Conn) : k.image.length = 256 := by
  obtain ⟨h, hlen, hk, -⟩ := k.image_eq
  simp [hk, hlen, StfDir.length_image]

theorem Conn.image_state {k : Conn} (h : k.tls = false) : (k.image.getD 0 0).toNat = k.state % 256 := by
  obtain ⟨l, hlen, hk, hstate⟩ := k.image_eq
  have hfront : k.image.getD 0 0 = l.getD 0 0 := by
    rw [hk, List.append_assoc, List.getD_append _ _ _ _ (by omega)]
  rw [hfront, hstate, h]
  simp [b2n]

theorem Conn.image_d0 (k : Conn) : (k.image.drop 64).take 4 = beOctets 4 k.d0.expSeq.toNat := by
  obtain ⟨l, hlen, hk, -⟩ := k.image_eq
  rw [hk, List.append_assoc, List.drop_left' hlen, List.take_append_of_le_length (by simp [StfDir.length_image]),
    StfDir.image_expSeq]

theorem Conn.image_d1 (k : Conn) : (k.image.drop 160).take 4 = beOctets 4 k.d1.expSeq.toNat := by
  obtain ⟨l, hlen, hk, -⟩ := k.image_eq
  rw [hk, List.drop_left' (by simp [hlen, StfDir.length_image]), StfDir.image_expSeq]

theorem exec_stfQuery_of_open (hi : stix.toNat ≤ fld s 0x40000 22 1) (hp : (conn s stix.toNat).part = c.part.toNat)
    (ha : Accepted s c 0x22) (hk : 0 < (conn s stix.toNat).state) (h0 : (conn s stix.toNat).d0.asm = none)
    (h1 : (conn s stix.toNat).d1.asm = none) (hr0 : (conn s stix.toNat).d0.inRec = false)
    (hr1 : (conn s stix.toNat).d1.inRec = false) :
    exec (.stfQuery c stix addr) s =
      .next (finish (hostWrite s c.part.toNat addr.toNat (conn s stix.toNat).image) c 0x22 0 0 256) := by
  refine congrArg Host.Outcome.next ((hostCmd_of_accepted ha _).trans ?_)
  have hmine : stixFor s c.part.toNat stix.toNat = (true, s) := hp ▸ stixFor_of_mine hi hk
  rw [stfQuery, hmine]
  simp only [asmOctets_of_none h0, asmOctets_of_none h1, recPlain_of_none hr0, recPlain_of_none hr1, List.append_nil,
    Conn.length_image]

/-- STF_QUERY puts the state record into its partition's host memory, and changes no other memory (04 Table 04-4). -/
theorem stfQuery_effect {l : List Octet} (hl : l.length = 256) (ha : Accepted s c 0x22)
    (hh : hasHost s c.part.toNat = true) :
    let u := finish (hostWrite s c.part.toNat addr.toNat l) c 0x22 0 0 256
    Completed s u c 0x22 0 0 256 ∧ OnlyHost s u ∧ u.stf = s.stf ∧ HostPut s u c.part.toNat addr.toNat l := by
  have hframe := hostWrite_frame s c.part.toNat addr.toNat l
  have hput := hostPut_hostWrite ha.1 hh addr.isLt (l := l) (by omega)
  have hreset : inReset (hostWrite s c.part.toNat addr.toNat l) c.part.toNat = false := by rw [hframe]; exact ha.1
  refine ⟨completed_of_same_rings (completed_finish hreset) (by rw [hframe]) (by rw [hframe]), ?_, ?_, fun q b hb => ?_⟩
  · rw [OnlyHost, finish_mem, hframe]
  · rw [finish_stf, hframe]
  · rw [← hput q b hb, hostOctet, hostOctet, finish_mem]

/-! ### A close that waits -/

/-- Before its 1 ms has passed a close waits on (04 R76). -/
theorem inFlightTimeout_of_early {w : Waiting} {i : Nat} (hw : s.gpl.waiting = [w]) (hwhat : w.what = .stfClose i)
    (ht : s.now < w.since + 1000000) : inFlightTimeout s w.cmd = s := by
  simp [inFlightTimeout, hw, hwhat, ht]

/-- After 1 ms a close with messages still in flight completes IN_FLIGHT (04 R76). -/
theorem inFlightTimeout_of_due {w : Waiting} {i : Nat} (hw : s.gpl.waiting = [w]) (hwhat : w.what = .stfClose i)
    (ht : w.since + 1000000 ≤ s.now) (hf : inFlight s i = true) :
    inFlightTimeout s w.cmd = finish { s with gpl := { s.gpl with waiting := [] } } w.cmd 0x23 0x33 0 0 := by
  simp [inFlightTimeout, hw, hwhat, Nat.not_lt.mpr ht, stfReady, hf, waitingEnd]

/-- The close that waits is left alone until 1 ms has passed, and then completes IN_FLIGHT (04 R76). -/
theorem exec_inFlightTimeout_of_close (ha : Accepted s c 0x23) (hw : s.gpl.waiting = [])
    (hf : inFlight s stix.toNat = true) :
    let u := stfWait s c (.stfClose stix.toNat)
    exec (.inFlightTimeout c) { u with now := s.now + 999999 } = .next { u with now := s.now + 999999 } ∧
      ∃ w, exec (.inFlightTimeout c) { u with now := s.now + 1000000 } = .next w ∧ Completed u w c 0x23 0x33 0 0 ∧
        w.gpl.waiting = [] ∧ w.stf = s.stf := by
  intro u
  have hu : u.gpl.waiting = [⟨c, s.now, .stfClose stix.toNat⟩] := by simp [u, stfWait, hw]
  have hlate : exec (.inFlightTimeout c) { u with now := s.now + 1000000 } = .next
      (finish { u with now := s.now + 1000000, gpl := { u.gpl with waiting := [] } } c 0x23 0x33 0 0) :=
    congrArg Host.Outcome.next
      (inFlightTimeout_of_due (s := { u with now := s.now + 1000000 }) (w := ⟨c, s.now, _⟩) hu rfl le_rfl hf)
  refine ⟨congrArg Host.Outcome.next (inFlightTimeout_of_early (s := { u with now := s.now + 999999 })
    (w := ⟨c, s.now, _⟩) hu rfl (by simp)), _, hlate, ?_, finish_waiting .., finish_stf ..⟩
  have hreset : inReset { u with now := s.now + 1000000, gpl := { u.gpl with waiting := [] } } c.part.toNat = false := ha.1
  exact completed_of_same_rings (completed_finish hreset) rfl rfl

/-- Settles O30: each clause is the lemma above about the command it names. -/
theorem framerCommands : Obligations.FramerCommands := by
  unfold Obligations.FramerCommands
  intro s c stix v flags d0 d1 addr p i k others hi
  refine ⟨?open_, ?closed, ?idle, ?waits⟩
  case open_ =>
    intro ha hk hv hmin hmax hf htargets
    have h0 := targetOk_of_enabled (htargets d0.toNat (by simp))
    have h1 := targetOk_of_enabled (htargets d1.toNat (by simp))
    obtain ⟨hdone, hothers, hmem, hconn⟩ :=
      (connSet_setConn s i (k.opened p v.toNat d0.toNat d1.toNat)).finish (opc := 0x20) (status := 0) ha.1
    refine ⟨_, exec_stfOpen_of_closed hi ha hk hv hmin hmax hf h0 h1, hdone, hothers, hmem, ?_⟩
    rw [hconn]
    refine ⟨rfl, rfl, rfl, rfl, rfl, fun b hb => ?_⟩
    simp only [List.mem_cons, List.not_mem_nil, or_false] at hb
    rcases hb with rfl | rfl <;> exact ⟨rfl, rfl, rfl, rfl, rfl⟩
  case closed =>
    intro hk j hj ha
    simp only [List.mem_cons, List.not_mem_nil, or_false] at hj
    rcases hj with rfl | rfl | rfl
    · exact ⟨_, exec_stfResync_of_closed ha hk, completed_notOpen ha⟩
    · exact ⟨_, exec_stfQuery_of_closed ha hk, completed_notOpen ha⟩
    · exact ⟨_, exec_stfClose_of_closed ha hk, completed_notOpen ha⟩
  case idle =>
    intro hp htls h0 h1 hrws
    refine ⟨?_, ?_, ?_⟩
    · rintro ha hk hf0 hf1 rfl
      obtain ⟨hdone, hothers, hmem, hconn⟩ :=
        (connSet_resyncNow h0 h1 (syncDir d0.toNat) (syncDir d1.toNat)).finish (opc := 0x21) (status := 0) ha.1
      refine ⟨_, exec_stfResync_of_slow hi hp ha hk hf0 hf1, hdone, hothers, hmem, ?_⟩
      rw [hconn]
      exact ⟨rfl, rfl, ofNat_bitsOf d0 rfl, ofNat_bitsOf d0 rfl, ofNat_bitsOf d1 rfl, ofNat_bitsOf d1 rfl⟩
    · intro ha hk hf0 hf1
      obtain ⟨hdone, hothers, hmem, hconn⟩ :=
        (connSet_closeConn h0 h1 hrws).finish (opc := 0x23) (status := 0) ha.1
      exact ⟨_, exec_stfClose_of_idle hi hp ha hk hf0 hf1, hdone, hothers, hmem, by rw [hconn]⟩
    · intro ha hk hr0 hr1 hh
      obtain ⟨hdone, hhost, hstf, hput⟩ := stfQuery_effect (addr := addr) (Conn.length_image k) ha hh
      exact ⟨_, _, exec_stfQuery_of_open hi hp ha hk h0 h1 hr0 hr1, hdone, hhost, hstf, hput, Conn.length_image k,
        Conn.image_state htls, Conn.image_d0 k, Conn.image_d1 k⟩
  case waits =>
    intro ha hk hp hf hw
    have hflight := inFlight_of_first hf
    refine ⟨_, exec_stfClose_of_inFlight hi hp ha hk hflight, rfl, ?_, exec_inFlightTimeout_of_close ha hw hflight⟩
    simp [stfWait, hw, i]

end Sys2Proof.Machine
end

section
/-! PROOFS. What a diversion to the slow path leaves alone, whatever becomes of the frame (03 R57-R60; 12 R252): the memories, the
framer's connections, and the frames that the parser and the framer hold. -/

namespace Sys2Proof.Machine

variable {s u v : State}

/-- Only registers, buffers, ports, the journal, the rings, the slow path's buckets and the wires differ. -/
def OnlySlowPath (s u : State) : Prop :=
  u = { s with regs := u.regs, buf := u.buf, prt := u.prt, jnl := u.jnl, gpl := u.gpl, out := u.out,
               par := { s.par with buckets := u.par.buckets } }

theorem OnlySlowPath.refl (s : State) : OnlySlowPath s s := rfl

theorem OnlySlowPath.trans (h1 : OnlySlowPath s u) (h2 : OnlySlowPath u v) : OnlySlowPath s v := by
  unfold OnlySlowPath at *
  rw [h2, h1]

theorem OnlySlowPath.ite {p : Prop} [Decidable p] (h1 : OnlySlowPath s u) (h2 : OnlySlowPath s v) :
    OnlySlowPath s (if p then u else v) := by
  split
  · exact h1
  · exact h2

theorem OnlySlowPath.foldl {β : Type} {f : State → β → State} (hf : ∀ s x, OnlySlowPath s (f s x)) (l : List β)
    (s : State) : OnlySlowPath s (l.foldl f s) := by
  induction l generalizing s with
  | nil => exact .refl s
  | cons x l ih => exact (hf s x).trans (ih (f s x))

theorem OnlySlowPath.conn (h : OnlySlowPath s u) (j : Nat) : conn u j = Machine.conn s j := by
  rw [h]; rfl

/-! ### The buffer a frame stands in -/

theorem onlySlowPath_setTag (s : State) (a : Nat) (t : BufTag) : OnlySlowPath s (setTag s a t) := rfl

theorem onlySlowPath_setPort (s : State) (p : Nat) (x : Port) : OnlySlowPath s (setPort s p x) := rfl

theorem onlySlowPath_cntAdd (s : State) (o n : Nat) : OnlySlowPath s (cntAdd s o n) := rfl

theorem onlySlowPath_pauseSend (s : State) (p key quanta : Nat) : OnlySlowPath s (pauseSend s p key quanta) := by
  have hsent : ∀ x, OnlySlowPath s (portCnt (setPort s p x) p 10 1) :=
    fun x => (onlySlowPath_setPort s p x).trans (onlySlowPath_cntAdd ..)
  have hout : ∀ t l, OnlySlowPath t { t with out := l } := fun _ _ => rfl
  unfold pauseSend
  refine .ite ?looped ((hsent _).trans (hout ..))
  case looped => exact ((hsent _).trans (onlySlowPath_setPort ..)).trans (onlySlowPath_cntAdd ..)

theorem onlySlowPath_pauseKey (s : State) (p key : Nat) : OnlySlowPath s (pauseKey s p key) := by
  unfold pauseKey
  exact .ite (.ite (onlySlowPath_pauseSend ..) (.refl s)) (.ite (onlySlowPath_pauseSend ..) (.refl s))

theorem onlySlowPath_pauseCheck (s : State) (p : Nat) : OnlySlowPath s (pauseCheck s p) := by
  unfold pauseCheck
  refine .ite (.refl s) ?_
  split
  · exact onlySlowPath_pauseKey s p 8
  · exact .foldl (fun s c => onlySlowPath_pauseKey s p c) _ s
  · exact .refl s

theorem onlySlowPath_freeBuf (s : State) (a : Nat) : OnlySlowPath s (freeBuf s a) := by
  have htag := onlySlowPath_setTag s a { quar := (bufTag s a).quar }
  unfold freeBuf
  dsimp only
  split
  · exact htag.trans (onlySlowPath_pauseCheck ..)
  · exact htag

theorem onlySlowPath_bufCntPool (s : State) (agent pool k : Nat) : OnlySlowPath s (bufCntPool s agent pool k) := by
  unfold bufCntPool
  repeat' split
  all_goals rfl

/-- A pointer's check changes at most the tag of its buffer (12 R250). -/
theorem onlySlowPath_ptrCheck (s : State) (a : Nat) : OnlySlowPath s (ptrCheck s a).2 := by
  unfold ptrCheck
  repeat' split
  all_goals rfl

theorem onlySlowPath_intBufOp {may : BufTag → Bool} {op : State → State} (hop : ∀ t, OnlySlowPath t (op t)) (s : State)
    (agent a k : Nat) : OnlySlowPath s (intBufOp s agent a k may op) := by
  have hchk := onlySlowPath_ptrCheck s a
  unfold intBufOp
  generalize ptrCheck s a = r at hchk
  obtain ⟨chk, t⟩ := r
  refine hchk.trans ?_
  cases chk with
  | ok j => exact .ite (hop t) (onlySlowPath_bufCntPool ..)
  | quarantined j => exact onlySlowPath_bufCntPool ..
  | bad =>
    dsimp only
    split
    · exact onlySlowPath_bufCntPool ..
    · exact .refl t

theorem onlySlowPath_endUse (s : State) (agent a : Nat) : OnlySlowPath s (endUse s agent a) :=
  onlySlowPath_intBufOp (fun t => .ite (onlySlowPath_freeBuf t a) (onlySlowPath_setTag ..)) s agent a 3

theorem onlySlowPath_passBuf (s : State) (a from_ to_ : Nat) : OnlySlowPath s (passBuf s a from_ to_) :=
  onlySlowPath_intBufOp (fun t => onlySlowPath_setTag t a _) s from_ a 4

/-! ### The frame's end -/

theorem onlySlowPath_jnlItem (s : State) (it : Item) (disp dest ticket : Nat) (slow : Bool) (reason : Nat)
    (result : Option (List Octet)) : OnlySlowPath s (jnlItem s it disp dest ticket slow reason result) := by
  unfold jnlItem jnlItemAt jnlPut
  exact .ite (.ite (.ite rfl rfl) (.refl s)) (.refl s)

theorem onlySlowPath_slowDrop (s : State) (it : Item) (agent reason : Nat) : OnlySlowPath s (slowDrop s it agent reason) :=
  (onlySlowPath_jnlItem ..).trans (onlySlowPath_endUse ..)

theorem onlySlowPath_noServiceDrop (s : State) (it : Item) (agent reason : Nat) :
    OnlySlowPath s (noServiceDrop s it agent reason) := by
  unfold noServiceDrop
  dsimp only
  refine OnlySlowPath.trans ?counted ((onlySlowPath_jnlItem ..).trans (onlySlowPath_endUse ..))
  case counted => rfl

theorem onlySlowPath_toException (s : State) (it : Item) (agent reason : Nat) (aux : List Octet) :
    OnlySlowPath s (toException s it agent reason aux) := by
  have hcnt : OnlySlowPath s (gplCnt s it.part 5 1) := rfl
  have hqueue : ∀ t d, OnlySlowPath t (queueDeliv t d) := fun _ _ => rfl
  unfold toException
  exact .ite (hcnt.trans (onlySlowPath_slowDrop ..)) ((onlySlowPath_passBuf ..).trans (hqueue _ _))

/-- A frame diverted to the slow path is delivered, dropped or refused, and none of these reaches the framer (03 R57-R60). -/
theorem onlySlowPath_slowPath (s : State) (it : Item) (agent reason : Nat) (part : Option Nat) (aux : List Octet) :
    OnlySlowPath s (slowPath s it agent reason part aux) := by
  have hbucket : ∀ t p b, OnlySlowPath t (setBucket t p b) := fun _ _ _ => rfl
  have hcnt : ∀ t p k n, OnlySlowPath t (slowCnt t p k n) := fun t _ _ _ => onlySlowPath_cntAdd t _ _
  unfold slowPath
  refine (onlySlowPath_cntAdd s (0x30C00 + 8 * reason) 1).trans ?_
  dsimp only
  split
  · exact (onlySlowPath_cntAdd ..).trans (onlySlowPath_endUse ..)
  · refine .ite (onlySlowPath_noServiceDrop ..) (.ite ?_ ?_)
    · exact (((hbucket ..).trans (hcnt ..)).trans (hcnt ..)).trans (onlySlowPath_toException ..)
    · exact (hcnt ..).trans (onlySlowPath_slowDrop ..)

/-- A segment diverted by the framer is counted and goes to the slow path (04 R69). -/
theorem onlySlowPath_segDivert (s : State) (g : Segmt) (reason : Nat) (aux : List Octet) :
    OnlySlowPath s (segDivert s g reason aux) := by
  have hcnt : OnlySlowPath s (stfCnt s g.item.part 3 1) := rfl
  unfold segDivert
  exact hcnt.trans (onlySlowPath_slowPath ..)

end Sys2Proof.Machine
end

section
/-! PROOFS. The framer takes a frame (04 R65, R69, R72, R73): which frame it takes, which are segments of a fast connection, and what
a control segment and a pure acknowledgment do to it. -/

namespace Sys2Proof.Machine

variable {s t : State} {x : Parsed} {rest : List Parsed} {f : RxFrame} {r : List Octet} {g : Segmt} {p : Nat} {v : TView}

/-! ### The frame that is taken -/

theorem noDoubts_of_none (h : s.hkc.raised = []) : noDoubts s = s := by
  rw [noDoubts, ← h]

/-- Where no doubt source has been met, none is handed on (16 R338). -/
theorem raisedDoubts_of_none (h : s.hkc.raised = []) : raisedDoubts s = s := by
  rw [raisedDoubts, h, List.foldl_nil, noDoubts_of_none h]

/-- The state once the framer has taken its oldest frame and only `rest` stand before it. -/
def frameTaken (s : State) (rest : List Parsed) : State := { noDoubts s with par := { s.par with parsed := rest } }

/-- A frame at the head is taken when it need not wait: no partition is held back before it. -/
theorem framingFirst_of_head (h : frameOne { s with par := { s.par with parsed := rest } } x = some t) :
    framingFirst s (x :: rest) [] [] = t := by
  unfold framingFirst
  simp only [List.nil_append]
  split <;> simp [h]

theorem exec_segmentFraming_of_none (hp : s.par.parsed = []) : exec .segmentFraming s = .next (noDoubts s) := by
  have hfirst : segmentFraming (noDoubts s) = noDoubts s := by
    have hn : (noDoubts s).par.parsed = [] := hp
    rw [segmentFraming, hn, framingFirst]
  refine congrArg Host.Outcome.next ?_
  rw [hfirst]
  exact raisedDoubts_of_none rfl

theorem exec_segmentFraming_of_head (hp : s.par.parsed = x :: rest) (h : frameOne (frameTaken s rest) x = some t)
    (ht : t.hkc.raised = []) : exec .segmentFraming s = .next t := by
  have hfirst : segmentFraming (noDoubts s) = t := by
    have hn : (noDoubts s).par.parsed = x :: rest := hp
    rw [segmentFraming, hn]
    exact framingFirst_of_head h
  refine congrArg Host.Outcome.next ?_
  rw [hfirst]
  exact raisedDoubts_of_none ht

/-! ### A frame of no framed connection, and a segment of one -/

/-- The lookup of the flow entry reads registers, tables and memories only (04 R65). -/
theorem framedEntry_frameTaken (s : State) (rest : List Parsed) (r : List Octet) :
    framedEntry (frameTaken s rest) r = framedEntry s r := rfl

theorem frameOne_of_unframed (h : framedEntry s r = none) :
    frameOne s ⟨f, r⟩ = some (toClassifier s (parsedItem s f r)) := by
  simp [frameOne, h]

/-- The segment that a frame of flow entry `v` of partition `p` is (04 R65). -/
def frameSegment (s : State) (f : RxFrame) (r : List Octet) (p : Nat) (v : TView) : Segmt :=
  segmtOf { parsedItem s f r with part := p, flow := v.index } (rxOctets s f) (fieldBe v.data 0 4)

/-- Without the journal no segment waits for it (13 R291). -/
theorem frameOne_of_framed (h : framedEntry s r = some (p, v)) (hj : jnlEn s = false) :
    frameOne s ⟨f, r⟩ = some (framedSegment (tTouch s v.loc) (frameSegment s f r p v)) := by
  have hfull : jnlFull s = false := by simp [jnlFull, hj]
  simp [frameOne, h, hfull, frameSegment]

/-- `t` is `s` with its oldest frame taken: no doubt source waits, and the hit of its flow entry is noted. -/
structure SegmentTaken (s t : State) (rest : List Parsed) : Prop where
  frame : t = { s with par := { s.par with parsed := rest }, tbl := t.tbl, hkc := { s.hkc with raised := [] } }

theorem segmentTaken_tTouch (s : State) (rest : List Parsed) (loc : TLoc) :
    SegmentTaken s (tTouch (frameTaken s rest) loc) rest := ⟨rfl⟩

theorem SegmentTaken.conn (h : SegmentTaken s t rest) (i : Nat) : conn t i = Machine.conn s i := by
  rw [h.frame]; rfl

/-- Connection `g.stix` frames segments of partition `g.item.part`, which is in service (04 R69). -/
structure FastConn (s : State) (g : Segmt) : Prop where
  service : noService s g.item.part = false
  enabled : flag s 0x40000 0 = true
  stix : g.stix ≤ fld s 0x40000 22 1
  clean : s.mem.poison = []
  framed : (conn s g.stix).state = 1
  mine : (conn s g.stix).part = g.item.part

theorem framedSegment_of_fast (h : FastConn s g) : framedSegment s g = fastSegment s g := by
  have hclean : devPoisoned s (stateAddr s g.stix) 256 = false := by simp [devPoisoned, h.clean]
  simp [framedSegment, h.service, h.enabled, Nat.not_lt.mpr h.stix, hclean, h.framed, h.mine]

/-! ### A control segment -/

theorem fastSegment_of_control (h : g.flags % 8 ≠ 0) : fastSegment s g = segSlow s g 0x22 [] := if_pos h

/-- A segment that marks its connection slow changes the connection, and else what a diversion may (04 R73). -/
theorem onlySlowPath_segSlow (s : State) (g : Segmt) (reason : Nat) (aux : List Octet) :
    OnlySlowPath (markState s g.stix 2 reason g.dir) (segSlow s g reason aux) := onlySlowPath_segDivert ..

/-! ### A pure acknowledgment -/

theorem Conn.setDir_dir (c : Conn) (d : Nat) : c.setDir d (c.dir d) = c := by
  unfold Conn.setDir Conn.dir
  split <;> rfl

theorem Conn.dir_setDir (c : Conn) (d : Nat) (x : StfDir) : (c.setDir d x).dir d = x := by
  unfold Conn.setDir Conn.dir
  split <;> rfl

theorem Conn.setDir_state (c : Conn) (d : Nat) (x : StfDir) : (c.setDir d x).state = c.state := by
  unfold Conn.setDir
  split <;> rfl

theorem Conn.setDir_rws (c : Conn) (d : Nat) (x : StfDir) : (c.setDir d x).rws = c.rws := by
  unfold Conn.setDir
  split <;> rfl

/-- A connection without rewrite records has none to retire (04 R83). -/
theorem connSet_retire {i : Nat} (h : (conn s i).rws = []) (d : Nat) (a : BitVec 32) :
    ConnSet s (retire s i d a) i (conn s i) := by
  have hsame : { conn s i with rws := [] } = conn s i := by rw [← h]
  have heq : retire s i d a = setConn s i (conn s i) := by
    simpa [retire, h, hsame] using congrArg (setConn s i) (Conn.setDir_dir (conn s i) d)
  rw [heq]
  exact connSet_setConn ..

/-- The connection once a segment's acknowledgment and window are taken in (04 R69, R84). -/
def Conn.acked (c : Conn) (g : Segmt) : Conn :=
  c.setDir g.dir { c.dir g.dir with rack := translateAck c g.dir g.ack, rwin := g.win }

theorem connSet_takeAck (h : (conn s g.stix).rws = []) :
    ConnSet s (takeAck s g).2 g.stix ((conn s g.stix).acked g) := by
  have hset := connSet_setConn s g.stix ((conn s g.stix).acked g)
  have hretire := connSet_retire (s := setConn s g.stix ((conn s g.stix).acked g)) (i := g.stix)
    (by rw [hset.self, Conn.acked, Conn.setDir_rws, h]) (1 - g.dir) g.ack
  rw [hset.self] at hretire
  exact hset.trans hretire

/-- A segment without control flags, URG and payload is an acknowledgment and nothing else (04 R72). -/
theorem fastSegment_of_pureAck (hc : g.flags % 8 = 0) (hu : bitOf g.flags 5 = false) (hp : g.pay = []) :
    fastSegment s g = ackTask (takeAck s g).2 g := by
  simp [fastSegment, hc, hu, hp]

/-- The ACK task of a segment: its item, on its direction's domain (04 R72). -/
def ackItem (g : Segmt) (k : Conn) : Item := { g.item with kind := 2, dom := (k.dir g.dir).odom }

/-- An ACK task goes to classification, and only its counter changes besides (04 R72). -/
theorem ackTask_frame (s : State) (g : Segmt) :
    ackTask s g = { s with
      regs := (ackTask s g).regs,
      par := { s.par with toClassify := s.par.toClassify ++ [⟨ackItem g (conn s g.stix)⟩] } } := rfl

theorem conn_ackTask (s : State) (g : Segmt) (j : Nat) : conn (ackTask s g) j = conn s j := rfl

theorem ackItem_acked (g : Segmt) (k : Conn) : ackItem g (k.acked g) = ackItem g k := by
  simp only [ackItem, Conn.acked, Conn.dir_setDir]

end Sys2Proof.Machine
end

section
/-! PROOFS. The statement on SEGMENT_FRAMING (04 R65, R69, R72, R73), clause by clause. -/

namespace Sys2Proof.Machine

variable {s : State} {f : RxFrame} {r : List Octet} {rest : List Parsed} {p : Nat} {v : TView}

/-- A frame whose flow entry is not framed goes to classification as one packet (04 R65). -/
theorem exec_segmentFraming_of_unframed (hp : s.par.parsed = ⟨f, r⟩ :: rest) (h : framedEntry s r = none) :
    exec .segmentFraming s = .next (toClassifier (frameTaken s rest) (parsedItem (frameTaken s rest) f r)) :=
  exec_segmentFraming_of_head hp (frameOne_of_unframed ((framedEntry_frameTaken s rest r).trans h)) rfl

section
variable (hp : s.par.parsed = ⟨f, r⟩ :: rest) (hf : framedEntry s r = some (p, v)) (hj : jnlEn s = false)
  (hfast : FastConn (tTouch (frameTaken s rest) v.loc) (frameSegment (frameTaken s rest) f r p v))
include hp hf hj hfast

/-- A segment of a framed connection that is in service takes the way that Table 04-3 gives it. -/
theorem exec_segmentFraming_of_fast {g : Segmt} (hg : frameSegment (frameTaken s rest) f r p v = g) :
    ∃ t, SegmentTaken s t rest ∧
      ((fastSegment t g).hkc.raised = [] → exec .segmentFraming s = .next (fastSegment t g)) := by
  refine ⟨_, segmentTaken_tTouch s rest v.loc, exec_segmentFraming_of_head hp ?_⟩
  rw [frameOne_of_framed ((framedEntry_frameTaken s rest r).trans hf) hj, framedSegment_of_fast hfast, hg]

/-- A segment with FIN, SYN or RST marks its connection slow with reason 0x22 (04 R69, R73). -/
theorem exec_segmentFraming_of_control {g : Segmt} (hg : frameSegment (frameTaken s rest) f r p v = g)
    (hc : g.flags % 8 ≠ 0) :
    ∃ u, exec .segmentFraming s = .next u ∧ u.par.parsed = rest ∧ u.mem = s.mem ∧
      conn u g.stix = { conn s g.stix with state := 2, slowRsn := 0x22, slowDir := g.dir } ∧
      (∀ j, j ≠ g.stix → conn u j = conn s j) ∧ u.par.toClassify = s.par.toClassify := by
  obtain ⟨t, ht, hexec⟩ := exec_segmentFraming_of_fast hp hf hj hfast hg
  have hslow := onlySlowPath_segSlow t g 0x22 []
  have hmark : ConnSet t (markState t g.stix 2 0x22 g.dir) g.stix _ := connSet_setConn ..
  rw [fastSegment_of_control hc] at hexec
  rw [ht.conn] at hmark
  generalize segSlow t g 0x22 [] = u at hslow hexec
  generalize markState t g.stix 2 0x22 g.dir = w at hslow hmark
  have hothers : ∀ j, j ≠ g.stix → conn u j = conn s j := fun j hj => by
    rw [hslow.conn, hmark.other j hj, ht.conn]
  refine ⟨u, hexec ?_, ?_, ?_, (hslow.conn _).trans hmark.self, hothers, ?_⟩ <;>
    rw [hslow, hmark.frame, ht.frame]

/-- A pure acknowledgment becomes an ACK task of its direction's domain, and its acknowledgment and window are taken in
(04 R69, R72, R84). -/
theorem exec_segmentFraming_of_pureAck {g : Segmt} (hg : frameSegment (frameTaken s rest) f r p v = g)
    (hc : g.flags % 8 = 0) (hu : bitOf g.flags 5 = false) (hpay : g.pay = []) (hrws : (conn s g.stix).rws = []) :
    ∃ u, exec .segmentFraming s = .next u ∧ u.par.parsed = rest ∧ u.mem = s.mem ∧ u.gpl = s.gpl ∧
      u.par.toClassify = s.par.toClassify ++ [⟨ackItem g (conn s g.stix)⟩] ∧
      conn u g.stix = (conn s g.stix).acked g ∧ ∀ j, j ≠ g.stix → conn u j = conn s j := by
  obtain ⟨t, ht, hexec⟩ := exec_segmentFraming_of_fast hp hf hj hfast hg
  have hack := connSet_takeAck (s := t) (g := g) (by rw [ht.conn, hrws])
  rw [fastSegment_of_pureAck hc hu hpay] at hexec
  rw [ht.conn] at hack
  generalize (takeAck t g).2 = w at hack hexec
  have hw := ackTask_frame w g
  rw [hack.self, ackItem_acked] at hw
  have hconn := conn_ackTask w g
  generalize ackTask w g = u at hw hconn hexec
  have hothers : ∀ j, j ≠ g.stix → conn u j = conn s j := fun j hj => by
    rw [hconn, hack.other j hj, ht.conn]
  refine ⟨u, hexec ?_, ?_, ?_, ?_, ?_, (hconn _).trans hack.self, hothers⟩ <;>
    rw [hw, hack.frame, ht.frame]

end

end Sys2Proof.Machine

namespace Sys2Proof

open Sys2Proof.Machine

/-- Settles O32: each clause is the lemma above about the frame it names. -/
theorem segmentFraming : Obligations.SegmentFraming := by
  unfold Obligations.SegmentFraming
  intro s f r rest p v d fw i k dir l4
  refine ⟨exec_segmentFraming_of_none, fun hp => ⟨fun hnone => ?unframed, ?framed⟩⟩
  case unframed =>
    exact ⟨_, parsedItem (frameTaken s rest) f r, exec_segmentFraming_of_unframed hp hnone, rfl, rfl, rfl, rfl, rfl, rfl, rfl,
      rfl⟩
  case framed =>
    intro hf hj hservice hen hi hstate hpart hclean
    have hfast : FastConn (tTouch (frameTaken s rest) v.loc) (frameSegment (frameTaken s rest) f r p v) :=
      ⟨hservice, hen, hi, hclean, hstate, hpart⟩
    refine ⟨fun hc => exec_segmentFraming_of_control hp hf hj hfast rfl hc, fun hc hu hpay hrws => ?_⟩
    have hflag : bitOf (oct d (l4 + 13)) 5 = false := (bitOf_eq _ _).trans hu
    have hnopay : octs d (fieldBe r 20 2) (fieldBe r 22 2) = [] := by rw [hpay]; rfl
    obtain ⟨u, hexec, hparsed, hmem, hgpl, htask, hconn, hothers⟩ :=
      exec_segmentFraming_of_pureAck hp hf hj hfast rfl hc hflag hnopay hrws
    have hstix : conn u i = k.acked (frameSegment (frameTaken s rest) f r p v) := hconn
    refine ⟨u, _, hexec, hparsed, hmem, hgpl, htask, rfl, rfl, rfl, rfl, rfl, rfl, ?_, ?_, ?_, hothers⟩
    · rw [hstix, Conn.acked, Conn.setDir_state, hstate]
    · rw [hstix, Conn.acked]
      exact congrArg StfDir.rack (Conn.dir_setDir ..)
    · rw [hstix, Conn.acked]
      exact congrArg StfDir.rwin (Conn.dir_setDir ..)

end Sys2Proof
end

section
/-! PROOFS. Maps in rising order: a rising map is known by what its keys read, and what a write of a new key makes of it. -/

namespace Sys2Proof.Machine

variable {α : Type} {m n : Map α} {k : Nat} {v : α}

theorem mrising_iff_pairwise : mrising m = true ↔ m.Pairwise (fun x y => x.1 < y.1) := by
  induction m with
  | nil => simp [mrising]
  | cons kv m ih => rw [mrising_cons, List.pairwise_cons, ih]; rfl

theorem mem_of_mfind (h : mfind m k = some v) : (k, v) ∈ m := by
  induction m with
  | nil => simp at h
  | cons kv m ih =>
    rw [mfind] at h
    split at h
    · exact List.mem_cons.mpr (.inl (Prod.ext ‹_› (Option.some.inj h).symm))
    · exact List.mem_cons_of_mem _ (ih h)

theorem mfind_eq_none_iff : mfind m k = none ↔ ∀ kv ∈ m, kv.1 ≠ k := by
  induction m with
  | nil => simp
  | cons kv m ih =>
    rw [mfind, List.forall_mem_cons]
    split
    · simp_all
    · rw [ih]; exact ⟨fun h => ⟨Ne.symm ‹_›, h⟩, fun h => h.2⟩

theorem mfind_eq_some_iff (hm : mrising m = true) : mfind m k = some v ↔ (k, v) ∈ m := by
  refine ⟨mem_of_mfind, fun h => ?_⟩
  induction m with
  | nil => simp at h
  | cons kv m ih =>
    obtain ⟨ha, hm⟩ := mrising_cons.mp hm
    rw [mfind]
    rcases List.mem_cons.mp h with rfl | h
    · simp
    · have hlt := ha _ h
      rw [if_neg (by simp only at hlt; omega), ih hm h]

/-- Two rising maps that read the same at every key are one. -/
theorem eq_of_mfind_eq (hm : mrising m = true) (hn : mrising n = true) (h : ∀ k, mfind m k = mfind n k) : m = n := by
  have nodup : ∀ {l : Map α}, mrising l = true → l.Nodup := fun hl =>
    (mrising_iff_pairwise.mp hl).imp (fun hlt heq => by simp [heq] at hlt)
  have hperm : m.Perm n := (List.perm_ext_iff_of_nodup (nodup hm) (nodup hn)).mpr fun x => by
    rw [← mfind_eq_some_iff hm, ← mfind_eq_some_iff hn, h]
  exact hperm.eq_of_pairwise (fun _ _ _ _ h1 h2 => absurd h1 (Nat.lt_asymm h2)) (mrising_iff_pairwise.mp hm)
    (mrising_iff_pairwise.mp hn)

theorem mput_eq_append (hm : mrising m = true) (k : Nat) (v : α) :
    mput m k v = m.filter (fun x => decide (x.1 < k)) ++ (k, v) :: m.filter (fun x => decide (k < x.1)) := by
  induction m with
  | nil => rfl
  | cons kv m ih =>
    obtain ⟨ha, hm⟩ := mrising_cons.mp hm
    have above : ∀ j, j ≤ kv.1 → m.filter (fun x => decide (x.1 < j)) = [] ∧ m.filter (fun x => decide (j < x.1)) = m :=
      fun j hj => ⟨List.filter_eq_nil_iff.mpr fun x hx => by have := ha x hx; simp only [decide_eq_true_eq]; omega,
        List.filter_eq_self.mpr fun x hx => by have := ha x hx; simp only [decide_eq_true_eq]; omega⟩
    rw [mput]
    by_cases hlt : k < kv.1
    · simp [hlt, Nat.not_lt.mpr hlt.le, above k hlt.le]
    · by_cases heq : k = kv.1
      · subst heq
        simp [above kv.1 le_rfl]
      · simp [hlt, heq, ih hm, show kv.1 < k by omega]

end Sys2Proof.Machine
end

section
/-! PROOFS. The entries of a search bank (05 R88, R91): what a bank's list reads, and what the array reads once it is replaced. -/

namespace Sys2Proof.Machine

variable {s : State} {b : Nat} {l : Map SEntry}

/-- The list of a bank's entries in canonical form: slots rising, and slots of a bank. -/
def BankForm (l : Map SEntry) : Prop := mrising l = true ∧ ∀ kv ∈ l, kv.1 < 4096

theorem mfind_bankEnts (s : State) (b j : Nat) :
    mfind (bankEnts s b) j = if j < 4096 then mfind s.src.ents (b * 4096 + j) else none := by
  unfold bankEnts
  induction s.src.ents with
  | nil => simp
  | cons kv m ih =>
    by_cases hb : kv.1 / 4096 = b
    · rw [List.filter_cons_of_pos (by simpa using hb), List.map_cons, mfind, mfind, ih]
      by_cases hj : j = kv.1 % 4096
      · rw [if_pos hj, if_pos (by omega), if_pos (by omega)]
      · rw [if_neg hj]
        split
        · rw [if_neg (by omega)]
        · rfl
    · rw [List.filter_cons_of_neg (by simpa using hb), ih, mfind]
      split
      · rw [if_neg (by omega)]
      · rfl

theorem mem_bankEnts {kv : Nat × SEntry} : kv ∈ bankEnts s b ↔ kv.1 < 4096 ∧ (b * 4096 + kv.1, kv.2) ∈ s.src.ents := by
  simp only [bankEnts, List.mem_map, List.mem_filter, decide_eq_true_eq]
  constructor
  · rintro ⟨x, ⟨hx, rfl⟩, rfl⟩
    exact ⟨Nat.mod_lt _ (by norm_num), by rwa [Nat.div_add_mod' x.1 4096]⟩
  · rintro ⟨hlt, hmem⟩
    exact ⟨_, ⟨hmem, by omega⟩, Prod.ext (by simp only; omega) rfl⟩

theorem bankForm_bankEnts (h : mrising s.src.ents = true) (b : Nat) : BankForm (bankEnts s b) := by
  refine ⟨mrising_iff_pairwise.mpr ?_, fun kv hkv => (mem_bankEnts.mp hkv).1⟩
  rw [bankEnts, List.pairwise_map]
  refine ((mrising_iff_pairwise.mp h).filter _).imp_of_mem fun hx hy hlt => ?_
  have hbx := of_decide_eq_true (List.mem_filter.mp hx).2
  have hby := of_decide_eq_true (List.mem_filter.mp hy).2
  simp only
  omega

theorem mfind_foldl_mput (hl : BankForm l) (m : Map SEntry) (b k : Nat) :
    mfind (l.foldl (fun m kv => mput m (b * 4096 + kv.1) kv.2) m) k =
      if k / 4096 = b then (mfind l (k % 4096)).or (mfind m k) else mfind m k := by
  induction l generalizing m with
  | nil => simp
  | cons kv l ih =>
    obtain ⟨hrise, hlt⟩ := hl
    obtain ⟨ha, hrise⟩ := mrising_cons.mp hrise
    obtain ⟨hkv, hlt⟩ := List.forall_mem_cons.mp hlt
    have hfresh : mfind l kv.1 = none := mfind_eq_none_iff.mpr fun x hx => (ha x hx).ne'
    rw [List.foldl_cons, ih ⟨hrise, hlt⟩, mfind_mput, mfind]
    by_cases hb : k / 4096 = b
    · rw [if_pos hb, if_pos hb]
      by_cases hk : k % 4096 = kv.1
      · rw [if_pos (by omega), if_pos hk, hk, hfresh]; rfl
      · rw [if_neg (by omega), if_neg hk]
    · rw [if_neg hb, if_neg hb, if_neg (by omega)]

theorem mfind_setBankEnts (hl : BankForm l) (s : State) (b k : Nat) :
    mfind (setBankEnts s b l).src.ents k = if k / 4096 = b then mfind l (k % 4096) else mfind s.src.ents k := by
  have hrest := mfind_mkeep (fun j => decide (j / 4096 ≠ b)) s.src.ents k
  rw [setBankEnts, mfind_foldl_mput hl]
  simp only [mkeep] at hrest
  rw [hrest]
  by_cases hb : k / 4096 = b <;> simp [hb]

theorem mrising_setBankEnts (h : mrising s.src.ents = true) (b : Nat) (l : Map SEntry) :
    mrising (setBankEnts s b l).src.ents = true := by
  have hfold : ∀ (l m : Map SEntry), mrising m = true →
      mrising (l.foldl (fun m kv => mput m (b * 4096 + kv.1) kv.2) m) = true := fun l => by
    induction l with
    | nil => exact fun _ hm => hm
    | cons kv l ih => exact fun m hm => ih _ (mrising_mput hm)
  exact hfold l _ (mrising_mkeep (p := fun j _ => decide (j / 4096 ≠ b)) h)

theorem bankEnts_setBankEnts_self (h : mrising s.src.ents = true) (hl : BankForm l) (b : Nat) :
    bankEnts (setBankEnts s b l) b = l := by
  refine eq_of_mfind_eq (bankForm_bankEnts (mrising_setBankEnts h b l) b).1 hl.1 fun j => ?_
  rw [mfind_bankEnts, mfind_setBankEnts hl]
  by_cases hj : j < 4096
  · rw [if_pos hj, if_pos (by omega), show (b * 4096 + j) % 4096 = j by omega]
  · rw [if_neg hj, mfind_eq_none_iff.mpr fun kv hkv => by have := hl.2 kv hkv; omega]

theorem bankEnts_setBankEnts_ne (h : mrising s.src.ents = true) (hl : BankForm l) {b' : Nat} (hb : b' ≠ b) :
    bankEnts (setBankEnts s b l) b' = bankEnts s b' := by
  refine eq_of_mfind_eq (bankForm_bankEnts (mrising_setBankEnts h b l) b').1 (bankForm_bankEnts h b').1 fun j => ?_
  rw [mfind_bankEnts, mfind_bankEnts, mfind_setBankEnts hl]
  by_cases hj : j < 4096
  · rw [if_pos hj, if_pos hj, if_neg (by omega)]
  · rw [if_neg hj, if_neg hj]

/-- The lists of two arrays that list the same entries are the same. -/
theorem bankEnts_congr {t : State} (h : t.src.ents = s.src.ents) (b : Nat) : bankEnts t b = bankEnts s b := by
  rw [bankEnts, h, bankEnts]

end Sys2Proof.Machine
end

section
/-! PROOFS. Moves inside a bank (05 R92-R94): shifts towards a free slot, and rebalances made of them, keep the order. -/

namespace Sys2Proof.Machine

variable {l : Map SEntry} {lo hi : Nat}

/-- A list of a bank's entries whose slots changed and whose entries did not, neither in number nor in order. -/
def Reslotted (l l' : Map SEntry) : Prop := BankForm l' ∧ l'.map (·.2) = l.map (·.2)

theorem slotFree_iff {i : Nat} : slotFree l i = true ↔ ∀ kv ∈ l, kv.1 ≠ i := by
  rw [slotFree, Option.isNone_iff_eq_none, mfind_eq_none_iff]

/-- New slots in the order of the old ones. -/
theorem reslotted_map (hl : BankForm l) {g : Nat → Nat} (hlt : ∀ kv ∈ l, g kv.1 < 4096)
    (hg : ∀ x ∈ l, ∀ y ∈ l, x.1 < y.1 → g x.1 < g y.1) : Reslotted l (l.map (fun kv => (g kv.1, kv.2))) := by
  refine ⟨⟨mrising_iff_pairwise.mpr (List.pairwise_map.mpr ?_), ?_⟩, by simp⟩
  · exact (mrising_iff_pairwise.mp hl.1).imp_of_mem fun hx hy h => hg _ hx _ hy h
  · exact List.forall_mem_map.mpr hlt

/-- The slot an entry has after a shift up of [lo, hi). -/
def upSlot (lo hi k : Nat) : Nat := if lo ≤ k ∧ k < hi then k + 1 else k

/-- The slot an entry has after a shift down of (lo, hi). -/
def downSlot (lo hi k : Nat) : Nat := if lo < k ∧ k < hi then k - 1 else k

theorem shiftUp_eq (l : Map SEntry) (lo hi : Nat) : shiftUp l lo hi = l.map (fun kv => (upSlot lo hi kv.1, kv.2)) :=
  List.map_congr_left fun kv _ => by unfold upSlot; split <;> rfl

theorem shiftDown_eq (l : Map SEntry) (lo hi : Nat) : shiftDown l lo hi = l.map (fun kv => (downSlot lo hi kv.1, kv.2)) :=
  List.map_congr_left fun kv _ => by unfold downSlot; split <;> rfl

/-- A shift up towards a free slot. -/
theorem reslotted_shiftUp (hl : BankForm l) (hhi : hi < 4096) (hfree : slotFree l hi = true) :
    Reslotted l (shiftUp l lo hi) := by
  rw [shiftUp_eq]
  refine reslotted_map hl (fun kv hkv => ?_) (fun x hx y hy hlt => ?_)
  · have := hl.2 kv hkv
    unfold upSlot; split <;> omega
  · have := slotFree_iff.mp hfree y hy
    unfold upSlot; split <;> split <;> omega

/-- A shift down towards a free slot. -/
theorem reslotted_shiftDown (hl : BankForm l) (hfree : slotFree l lo = true) : Reslotted l (shiftDown l lo hi) := by
  rw [shiftDown_eq]
  refine reslotted_map hl (fun kv hkv => ?_) (fun x hx y hy hlt => ?_)
  · have := hl.2 kv hkv
    unfold downSlot; split <;> omega
  · have := slotFree_iff.mp hfree x hx
    unfold downSlot; split <;> split <;> omega

/-! ### Rebalancing -/

theorem reslotted_rebalanceShift {slots : Nat} (hl : BankForm l) (hs : slots ≤ 4096) (grp g : Nat) (up : Bool) :
    Reslotted l (rebalanceShift l slots grp g up) := by
  unfold rebalanceShift
  dsimp only
  split
  · split
    case h_1 i hi =>
      have hrange := List.mem_range.mp (List.mem_of_find?_eq_some hi)
      have hfree := List.find?_some hi
      exact reslotted_shiftUp hl (by omega) hfree
    case h_2 => exact ⟨hl, rfl⟩
  · split
    case h_1 i hi =>
      have hfree := List.find?_some hi
      exact reslotted_shiftDown hl hfree
    case h_2 => exact ⟨hl, rfl⟩

theorem reslotted_rebalanceRun {slots : Nat} (hl : BankForm l) (hs : slots ≤ 4096) (grp : Nat) (up : Bool) (fuel : Nat) :
    Reslotted l (rebalanceRun slots grp up fuel l) := by
  induction fuel generalizing l with
  | zero => exact ⟨hl, rfl⟩
  | succ fuel ih =>
    rw [rebalanceRun]
    cases fullGroup l slots grp with
    | none => exact ⟨hl, rfl⟩
    | some g =>
      obtain ⟨hform, hsame⟩ := reslotted_rebalanceShift hl hs grp g up
      obtain ⟨hform', hsame'⟩ := ih hform
      exact ⟨hform', hsame'.trans hsame⟩

/-! ### Placing a new entry -/

theorem filter_map_values (g : Nat → Nat) (q q' : Nat → Bool) (h : ∀ kv ∈ l, q (g kv.1) = q' kv.1) :
    ((l.map (fun kv => (g kv.1, kv.2))).filter (fun kv => q kv.1)).map (·.2) =
      (l.filter (fun kv => q' kv.1)).map (·.2) := by
  rw [List.filter_map, List.map_map]
  exact congrArg _ (List.filter_congr h)

/-- The new entry stands between the entries that were below `p` and those that were not. -/
theorem values_placeEntry {p f : Nat} (e : SEntry) (hl : BankForm l) (hf : f < 4096) (hfree : slotFree l f = true) :
    (placeEntry l p f e).map (·.2) = (l.filter (fun kv => decide (kv.1 < p))).map (·.2) ++
      e :: (l.filter (fun kv => decide (p ≤ kv.1))).map (·.2) := by
  have hne := slotFree_iff.mp hfree
  unfold placeEntry
  split
  · rw [mput_eq_append (reslotted_shiftUp hl hf hfree).1.1, shiftUp_eq, List.map_append, List.map_cons,
      filter_map_values _ (fun k => decide (k < p)) (fun k => decide (k < p)),
      filter_map_values _ (fun k => decide (p < k)) (fun k => decide (p ≤ k))]
    all_goals
      intro kv hkv
      have := hne kv hkv
      refine decide_eq_decide.mpr ?_
      unfold upSlot
      split <;> omega
  · rw [mput_eq_append (reslotted_shiftDown hl hfree).1.1, shiftDown_eq, List.map_append, List.map_cons,
      filter_map_values _ (fun k => decide (k < p - 1)) (fun k => decide (k < p)),
      filter_map_values _ (fun k => decide (p - 1 < k)) (fun k => decide (p ≤ k))]
    all_goals
      intro kv hkv
      have := hne kv hkv
      refine decide_eq_decide.mpr ?_
      unfold downSlot
      split <;> omega

theorem bankForm_mput (hl : BankForm l) {k : Nat} (hk : k < 4096) (e : SEntry) : BankForm (mput l k e) := by
  refine ⟨mrising_mput hl.1, fun kv hkv => ?_⟩
  rcases mput_mem hkv with rfl | hkv
  · exact hk
  · exact hl.2 kv hkv

theorem bankForm_placeEntry {p f : Nat} (e : SEntry) (hl : BankForm l) (hp : p ≤ 4096) (hf : f < 4096)
    (hfree : slotFree l f = true) : BankForm (placeEntry l p f e) := by
  unfold placeEntry
  split
  · exact bankForm_mput (reslotted_shiftUp hl hf hfree).1 (by omega) e
  · exact bankForm_mput (reslotted_shiftDown hl hfree).1 (by omega) e

/-! ### The place of an insertion -/

theorem insertPoint_le {slots : Nat} (h : ∀ kv ∈ l, kv.1 < slots) (prio : Nat) : insertPoint l prio ≤ slots := by
  unfold insertPoint
  split
  case h_1 kv hkv => exact (h kv (List.mem_of_find?_eq_some hkv)).le
  case h_2 =>
    split
    case h_1 kv hkv => exact h kv (List.mem_of_getLast? hkv)
    case h_2 => exact Nat.zero_le _

/-- In a bank whose entries stand in the order of their priorities, those below the place of an insertion are the ones whose
priority is up to its own (05 R91). -/
theorem lt_insertPoint_iff (hl : mrising l = true) (hsorted : l.Pairwise (fun x y => x.2.prio ≤ y.2.prio)) (prio : Nat) :
    ∀ kv ∈ l, (kv.1 < insertPoint l prio ↔ kv.2.prio ≤ prio) := by
  have hrise := mrising_iff_pairwise.mp hl
  unfold insertPoint
  split
  case h_1 x hx =>
    obtain ⟨hprio, below, above, rfl, hbelow⟩ := List.find?_eq_some_iff_append.mp hx
    simp only [decide_eq_true_eq, Bool.not_eq_true', decide_eq_false_iff_not, Nat.not_lt] at hprio hbelow
    obtain ⟨-, hrise, hcross⟩ := List.pairwise_append.mp hrise
    obtain ⟨-, hsorted, -⟩ := List.pairwise_append.mp hsorted
    intro kv hkv
    rcases List.mem_append.mp hkv with hkv | hkv
    · exact iff_of_true (hcross kv hkv x (List.mem_cons_self ..)) (hbelow kv hkv)
    · rcases List.mem_cons.mp hkv with rfl | hkv
      · omega
      · have hslot := (List.pairwise_cons.mp hrise).1 kv hkv
        have hle := (List.pairwise_cons.mp hsorted).1 kv hkv
        omega
  case h_2 hnone =>
    have hall : ∀ kv ∈ l, kv.2.prio ≤ prio := fun kv hkv => by simpa using List.find?_eq_none.mp hnone kv hkv
    intro kv hkv
    refine iff_of_true ?_ (hall kv hkv)
    split
    case h_1 x hx =>
      obtain ⟨below, rfl⟩ := List.getLast?_eq_some_iff.mp hx
      rcases List.mem_append.mp hkv with hkv | hkv
      · have := (List.pairwise_append.mp hrise).2.2 kv hkv x (List.mem_singleton_self x)
        omega
      · rw [List.mem_singleton.mp hkv]; exact Nat.lt_succ_self _
    case h_2 hx => simp [List.getLast?_eq_none_iff.mp hx] at hkv

theorem filter_values (l : Map SEntry) (q : Nat × SEntry → Bool) (q' : SEntry → Bool) (h : ∀ kv ∈ l, q kv = q' kv.2) :
    (l.filter q).map (·.2) = (l.map (·.2)).filter q' := by
  rw [List.filter_map]
  exact congrArg _ (List.filter_congr h)

section
variable {slots f : Nat} {e : SEntry} (hl : BankForm l) (hf : f < 4096) (hfree : slotFree l f = true)
include hl hf hfree

/-- An insertion adds the entry to those the bank has. -/
theorem perm_placeEntry (p : Nat) : ((placeEntry l p f e).map (·.2)).Perm (e :: l.map (·.2)) := by
  have hsplit : (l.filter (fun kv => decide (kv.1 < p)) ++ l.filter (fun kv => decide (p ≤ kv.1))).Perm l := by
    simpa only [← decide_not, Nat.not_lt] using List.filter_append_perm (fun kv : Nat × SEntry => decide (kv.1 < p)) l
  rw [values_placeEntry e hl hf hfree]
  refine List.perm_middle.trans (.cons e ?_)
  rw [← List.map_append]
  exact hsplit.map _

/-- An insertion comes after every entry whose priority is up to its own and before every other (05 R91). -/
theorem sorted_placeEntry (hsorted : (l.map (·.2)).Pairwise (fun x y => x.prio ≤ y.prio)) :
    (placeEntry l (insertPoint l e.prio) f e).map (·.2) =
      (l.map (·.2)).filter (fun x => decide (x.prio ≤ e.prio)) ++
        e :: (l.map (·.2)).filter (fun x => decide (e.prio < x.prio)) := by
  rw [List.pairwise_map] at hsorted
  have hiff := lt_insertPoint_iff hl.1 hsorted e.prio
  rw [values_placeEntry e hl hf hfree, filter_values l _ (fun x => decide (x.prio ≤ e.prio)),
    filter_values l _ (fun x => decide (e.prio < x.prio))]
  · exact fun kv hkv => decide_eq_decide.mpr (by have := hiff kv hkv; omega)
  · exact fun kv hkv => decide_eq_decide.mpr (hiff kv hkv)
end

end Sys2Proof.Machine
end

section
/-! PROOFS. What the commands of the search array reach (05 R88-R107): the array itself, free values, and what is counted and
logged. A command that reaches no more completes and leaves the other units as they were. -/

namespace Sys2Proof.Machine

open Sys2Proof.Claim

variable {s t u : State} {c : CmdRef} {opc status result len : Nat}

/-- Only the search array, free values, counters, the violation log and service events differ. -/
def OnlySearch (s u : State) : Prop :=
  u = { s with fresh := u.fresh, src := u.src, dbg := u.dbg, regs := { s.regs with cnt := u.regs.cnt },
               gpl := { s.gpl with svcq := u.gpl.svcq, svcLost := u.gpl.svcLost } }

theorem OnlySearch.refl (s : State) : OnlySearch s s := rfl

theorem OnlySearch.trans (h1 : OnlySearch s t) (h2 : OnlySearch t u) : OnlySearch s u := by
  unfold OnlySearch at *
  rw [h2, h1]

theorem OnlySearch.ite {p : Prop} [Decidable p] (h1 : OnlySearch s t) (h2 : OnlySearch s u) :
    OnlySearch s (if p then t else u) := by
  split
  · exact h1
  · exact h2

theorem OnlySearch.foldl {β : Type} {f : State → β → State} (hf : ∀ s x, OnlySearch s (f s x)) (l : List β) (s : State) :
    OnlySearch s (l.foldl f s) := by
  induction l generalizing s with
  | nil => exact .refl s
  | cons x l ih => exact (hf s x).trans (ih (f s x))

theorem onlySearch_srcCnt (s : State) (p k n : Nat) : OnlySearch s (srcCnt s p k n) := rfl

theorem onlySearch_setBankEnts (s : State) (b : Nat) (l : Map SEntry) : OnlySearch s (setBankEnts s b l) := rfl

theorem onlySearch_deleteEnt (s : State) (k : Nat) (e : SEntry) : OnlySearch s (deleteEnt s k e) := rfl

theorem onlySearch_sendEvent (s : State) (code result : Nat) (detail : List Octet) :
    OnlySearch s (sendEvent s code result detail) := by
  rw [sendEvent_frame]; rfl

theorem onlySearch_violate (s : State) (p kind agent res offset : Nat) : OnlySearch s (violate s p kind agent res offset) := by
  have hcount : OnlySearch s (cntAdd s (0xE0800 + p * 0x80 + 8 * kind) 1) := rfl
  have hnote : ∀ t d, OnlySearch t { t with dbg := d } := fun _ _ => rfl
  exact hcount.trans (.ite (.refl _) ((hnote _ _).trans (onlySearch_sendEvent ..)))

theorem onlySearch_foreignIf (s : State) (p agent res : Nat) (b : Bool) : OnlySearch s (foreignIf s p agent res b) :=
  .ite (onlySearch_violate ..) (.refl s)

theorem violate_src (s : State) (p kind agent res offset : Nat) : (violate s p kind agent res offset).src = s.src := by
  unfold violate
  dsimp only
  split
  · rfl
  · rw [sendEvent_frame]; rfl

@[simp] theorem foreignIf_src (s : State) (p agent res : Nat) (b : Bool) : (foreignIf s p agent res b).src = s.src := by
  unfold foreignIf
  split
  · exact violate_src ..
  · rfl

@[simp] theorem finish_src (s : State) (c : CmdRef) (opc status result len : Nat) :
    (finish s c opc status result len).src = s.src := by rw [finish_frame]

@[simp] theorem deleteEnt_ents (s : State) (k : Nat) (e : SEntry) : (deleteEnt s k e).src.ents = mdel s.src.ents k := rfl

theorem handleGen_congr (h : t.src = s.src) (i : Nat) : handleGen t i = handleGen s i := by rw [handleGen, h, handleGen]

theorem handleOf_congr (h : t.src = s.src) (e : SEntry) : handleOf t e = handleOf s e := by
  rw [handleOf, handleGen_congr h, handleOf]

theorem OnlySearch.noneElse (h : OnlySearch s t) : NoneElse s t := by
  rw [h]; exact ⟨rfl, rfl, rfl, rfl, rfl⟩

theorem OnlySearch.inReset (h : OnlySearch s t) (p : Nat) : inReset t p = Machine.inReset s p := by
  rw [h]; rfl

theorem OnlySearch.hasHost (h : OnlySearch s t) (p : Nat) : hasHost t p = Machine.hasHost s p := by
  rw [h]; rfl

/-- A completion is one as seen from any state with the same rings, configured alike. -/
theorem completed_of_rings (h : Completed t u c opc status result len) (hrings : t.gpl.rings = s.gpl.rings)
    (hrcfg : t.regs.rcfg = s.regs.rcfg) : Completed s u c opc status result len := by
  have hcq : ringCq t c.ring.toNat = ringCq s c.ring.toNat := by simp only [ringCq, rdRing, hrcfg]
  have hst : ∀ r, ringSt t r = ringSt s r := fun r => by simp only [ringSt, hrings]
  obtain ⟨e, hcompl, hrest⟩ := h
  exact ⟨e, by rw [← hst, ← hcq]; exact hcompl, hrest⟩

/-- A command that reached the search array alone completes, and changed nothing else. -/
theorem OnlySearch.finish (h : OnlySearch s t) (hr : Machine.inReset s c.part.toNat = false) :
    Completed s (finish t c opc status result len) c opc status result len ∧
      NoneElse s (finish t c opc status result len) := by
  have hdone := completed_finish (s := t) (opc := opc) (status := status) (result := result) (len := len)
    ((h.inReset c.part.toNat).trans hr)
  refine ⟨completed_of_rings hdone (by rw [h]) (by rw [h]), ?_⟩
  rw [finish_frame]
  exact h.noneElse

/-- A command that reached the search array, and then put octets into host memory, completes, and changed no other memory. -/
theorem OnlySearch.finish_hostWrite {addr : BitVec 64} {l : List Octet} (h : OnlySearch s t)
    (hr : Machine.inReset s c.part.toNat = false) (hh : Machine.hasHost s c.part.toNat = true) (hl : l.length ≤ 2 ^ 64) :
    let u := Machine.finish (hostWrite t c.part.toNat addr.toNat l) c opc status result len
    Completed s u c opc status result len ∧ OnlyHost s u ∧ HostPut s u c.part.toNat addr.toNat l ∧ u.src = t.src := by
  have hframe := hostWrite_frame t c.part.toNat addr.toNat l
  have hmem : t.mem = s.mem := h.noneElse.1
  have hput := hostPut_hostWrite ((h.inReset _).trans hr) ((h.hasHost _).trans hh) addr.isLt hl
  have hreset : Machine.inReset (hostWrite t c.part.toNat addr.toNat l) c.part.toNat = false := by
    rw [hframe]; exact (h.inReset _).trans hr
  refine ⟨completed_of_rings (completed_finish hreset) (by rw [hframe, h]) (by rw [hframe, h]), ?_, fun q b hb => ?_, ?_⟩
  · rw [OnlyHost, finish_mem, hframe, ← hmem]
  · have hold : hostOctet s q b = hostOctet t q b := by rw [hostOctet, hostOctet, hmem]
    rw [hold, ← hput q b hb, hostOctet, hostOctet, finish_mem]
  · rw [finish_src, hframe]

end Sys2Proof.Machine
end

section
/-! PROOFS. SRC_INSERT into a bank with room (05 R90-R92, R101): the free slot, the free handle, and the entry in its place. -/

namespace Sys2Proof.Machine

variable {s : State} {b : Nat} {l : Map SEntry}

/-! ### The free slot -/

theorem holeInt_eq (s : State) (b : Nat) : ∃ i, i ≤ 7 ∧ holeInt s b = 2 ^ i := by
  unfold holeInt
  dsimp only
  split
  · exact ⟨3 + bitsOf (srcBank s b) 5 3, by omega, (pow_add 2 3 _).symm⟩
  · exact ⟨5, by norm_num, rfl⟩

theorem widthCode_le (v : Nat) : widthCode v ≤ 2 := by
  have := bitsOf_lt v 2 1
  unfold widthCode
  dsimp only
  split <;> omega

theorem bankSlots_eq (s : State) (b : Nat) : ∃ j, 10 ≤ j ∧ j ≤ 12 ∧ bankSlots s b = 2 ^ j := by
  have hw := widthCode_le (srcBank s b)
  refine ⟨12 - widthCode (srcBank s b), by omega, by omega, ?_⟩
  rw [bankSlots, ← Nat.pow_div (by omega) (by norm_num)]

theorem bankSlots_le (s : State) (b : Nat) : bankSlots s b ≤ 4096 := by
  obtain ⟨j, -, hj, h⟩ := bankSlots_eq s b
  rw [h]
  exact Nat.pow_le_pow_right (n := 2) (by norm_num) hj

theorem bankSlots_pos (s : State) (b : Nat) : 0 < bankSlots s b := by
  obtain ⟨j, -, -, h⟩ := bankSlots_eq s b
  rw [h]
  exact Nat.two_pow_pos j

theorem holeInt_dvd (s : State) (b : Nat) : holeInt s b ∣ bankSlots s b := by
  obtain ⟨i, hi, h⟩ := holeInt_eq s b
  obtain ⟨j, hj, -, h'⟩ := bankSlots_eq s b
  rw [h, h']
  exact pow_dvd_pow 2 (by omega)

theorem holeInt_pos (s : State) (b : Nat) : 0 < holeInt s b := by
  obtain ⟨i, -, h⟩ := holeInt_eq s b
  rw [h]
  exact Nat.two_pow_pos i

/-- Keeping the better of each pair, one of the candidates is left. -/
theorem exists_foldl_best (better : Nat → Nat → Prop) [∀ f b, Decidable (better f b)] (l : List Nat) (a : Nat) :
    ∃ f ∈ a :: l, l.foldl (fun best f => match best with
      | none => some f
      | some b => if better f b then some f else some b) (some a) = some f := by
  induction l generalizing a with
  | nil => exact ⟨a, List.mem_cons_self .., rfl⟩
  | cons x l ih =>
    rw [List.foldl_cons]
    dsimp only
    split
    · obtain ⟨f, hf, h⟩ := ih x
      exact ⟨f, List.mem_cons_of_mem _ hf, h⟩
    · obtain ⟨f, hf, h⟩ := ih a
      exact ⟨f, by simp only [List.mem_cons] at hf ⊢; tauto, h⟩

theorem exists_chooseFree {slots grp p i : Nat} (hi : i < grp)
    (hfree : slotFree l (min p (slots - 1) / grp * grp + i) = true) :
    ∃ f, chooseFree l slots grp p = some f ∧ slotFree l f = true ∧ f < min p (slots - 1) / grp * grp + grp := by
  have hmem : min p (slots - 1) / grp * grp + i ∈
      ((List.range grp).map (min p (slots - 1) / grp * grp + ·)).filter (slotFree l) :=
    List.mem_filter.mpr ⟨List.mem_map_of_mem (List.mem_range.mpr hi), hfree⟩
  unfold chooseFree
  dsimp only
  generalize hcands : ((List.range grp).map (min p (slots - 1) / grp * grp + ·)).filter (slotFree l) = cands at hmem
  cases cands with
  | nil => simp at hmem
  | cons a rest =>
    obtain ⟨f, hf, h⟩ := exists_foldl_best
      (fun f b => movesTo p f < movesTo p b ∨ (movesTo p f = movesTo p b ∧ p ≤ f ∧ b < p)) rest a
    rw [← hcands, List.mem_filter, List.mem_map] at hf
    obtain ⟨⟨j, hj, rfl⟩, hf⟩ := hf
    exact ⟨_, h, hf, by have := List.mem_range.mp hj; omega⟩

/-- Where every group has a free slot, an insertion finds one (05 R90, R92). -/
theorem chooseFree_of_no_fullGroup (h : fullGroup l (bankSlots s b) (holeInt s b) = none) (p : Nat) :
    ∃ f, chooseFree l (bankSlots s b) (holeInt s b) p = some f ∧ slotFree l f = true ∧ f < bankSlots s b := by
  obtain ⟨groups, hgroups⟩ := holeInt_dvd s b
  have hpos := bankSlots_pos s b
  have hgrp := holeInt_pos s b
  generalize bankSlots s b = slots at *
  generalize holeInt s b = grp at *
  have hcount : slots / grp = groups := by rw [hgroups, Nat.mul_div_cancel_left _ hgrp]
  have hg : min p (slots - 1) / grp < groups := Nat.div_lt_of_lt_mul (by omega)
  have hopen := List.find?_eq_none.mp h (min p (slots - 1) / grp) (List.mem_range.mpr (hcount ▸ hg))
  simp only [decide_eq_true_eq, groupFree, List.length_eq_zero_iff, List.filter_eq_nil_iff, not_forall, not_not] at hopen
  obtain ⟨i, hi, hfree⟩ := hopen
  obtain ⟨f, hf, hff, hlt⟩ := exists_chooseFree (List.mem_range.mp hi) hfree
  refine ⟨f, hf, hff, hlt.trans_le ?_⟩
  calc min p (slots - 1) / grp * grp + grp
    _ = grp * (min p (slots - 1) / grp + 1) := by ring
    _ ≤ grp * groups := Nat.mul_le_mul_left _ hg
    _ = slots := hgroups.symm

/-! ### The free handle -/

/-- Of more candidates in a row than indices in use, one is not in use. -/
theorem exists_unused (k : Nat) {used : List Nat} (h : used.length < 2 ^ 18) :
    ∃ j ∈ List.range (used.length + 1), (k + j) % 262144 ∉ used := by
  by_contra hall
  push Not at hall
  have hnodup : ((List.range (used.length + 1)).map (fun j => (k + j) % 262144)).Nodup := by
    refine List.Nodup.map_on (fun i hi j hj hij => ?_) List.nodup_range
    rw [List.mem_range] at hi hj
    omega
  have hlen := (List.subperm_of_subset hnodup (List.forall_mem_map.mpr hall)).length_le
  simp at hlen

/-- An array that is not full has an index that none of its entries has, and the next entry gets one (05 R101). -/
theorem freeHandle_unused (h : s.src.ents.length < 2 ^ 18) : ∀ kv ∈ s.src.ents, kv.2.index ≠ (freeHandle s).1 := by
  have hlen : (s.src.ents.map (fun kv => kv.2.index)).length < 2 ^ 18 := by rwa [List.length_map]
  unfold freeHandle drawFree
  dsimp only
  generalize Config.freeNat s.fresh % 262144 = k
  generalize hused : s.src.ents.map (fun kv => kv.2.index) = used at hlen
  have hsome : ((List.range (used.length + 1)).find? (fun j => !used.contains ((k + j) % 262144))).isSome := by
    obtain ⟨j, hj, hunused⟩ := exists_unused k hlen
    exact List.find?_isSome.mpr ⟨j, hj, by simpa using hunused⟩
  obtain ⟨i, hi⟩ := Option.isSome_iff_exists.mp hsome
  have hfree := List.find?_some hi
  rw [hi]
  intro kv hkv heq
  have hmem : kv.2.index ∈ used := hused ▸ List.mem_map_of_mem hkv
  simp only [Bool.not_eq_true', List.contains_eq_mem, decide_eq_false_iff_not] at hfree
  exact hfree (heq ▸ hmem)

/-! ### The entry -/

/-- The entry that SRC_INSERT makes of an image (05 R89, Table 05-3). -/
def newEntry (s : State) (b : Nat) (img : List Octet) : SEntry :=
  let w := bankOctets s b
  let m := fieldBe img (20 + w) w
  { v := fieldBe img 20 w &&& m, m := m, prio := fieldBe img 0 4, ad := fieldBe img 4 16, index := (freeHandle s).1 }

/-- The entries of a bank with the new one among them, in slot `f` or where the entries up to it moved from (05 R92). -/
def entryPlaced (s : State) (b : Nat) (img : List Octet) (f : Nat) : Map SEntry :=
  placeEntry (bankEnts s b) (insertPoint (bankEnts s b) (newEntry s b img).prio) f (newEntry s b img)

/-- An insertion changes the bank's entries, and whether the bank waits for its rebalance (05 R92, R94). -/
theorem insertImage_of_room {f : Nat} {img : List Octet} (p : Nat)
    (hroom : (bankEnts s b).length < bankSlots s b - bankSlots s b / holeInt s b)
    (hf : chooseFree (bankEnts s b) (bankSlots s b) (holeInt s b) (insertPoint (bankEnts s b) (newEntry s b img).prio) =
      some f) :
    ∃ t, insertImage s p b img = (0, handleOf s (newEntry s b img), t) ∧ OnlySearch s t ∧
      t.src.ents = (setBankEnts s b (entryPlaced s b img f)).src.ents := by
  unfold insertImage
  dsimp only
  have hf' : chooseFree (bankEnts s b) (bankSlots s b) (holeInt s b) (insertPoint (bankEnts s b) (fieldBe img 0 4)) =
    some f := hf
  rw [if_neg (by omega), hf']
  dsimp only
  refine ⟨_, rfl, ?_, ?_⟩ <;> split <;> rfl

theorem length_hostRead (s : State) (p a n : Nat) : (hostRead s p a n).length = n := by simp [hostRead]

theorem octs_eq_of_le {l : List Octet} {off n : Nat} (h : off + n ≤ l.length) : octs l off n = (l.drop off).take n := by
  have hlen : ((l.drop off).take n).length = n := by simp; omega
  simp [octs, zeros, hlen]

end Sys2Proof.Machine
end

section
/-! PROOFS. The commands on entries (05 R89-R94, R101, Table 05-2): insertion, update, deletion, read and flush. -/

namespace Sys2Proof.Machine

open Sys2Proof.Claim

variable {s : State} {c : CmdRef} {bank : BitVec 8} {addr raddr : BitVec 64} {handle : BitVec 32} {ad : BitVec 128}
  {k : Nat} {e : SEntry}

/-! ### SRC_INSERT -/

theorem exec_srcInsert (ha : Accepted s c 0x10) (hb : bankOk s c.part.toNat bank.toNat = true)
    (hd : rebalDue s bank.toNat = false) {img : List Octet}
    (himg : hostRead s c.part.toNat addr.toNat (20 + 2 * bankOctets s bank.toNat) = img) {st h : Nat} {t : State}
    (hins : insertImage s c.part.toNat bank.toNat img = (st, h, t)) :
    exec (.srcInsert c bank addr) s = .next (finish t c 0x10 st h 0) := by
  refine congrArg Host.Outcome.next ((hostCmd_of_accepted ha _).trans ?_)
  simp [srcInsert, hb, hd, imageLen, himg, hins]

theorem newEntry_fields {b : Nat} {img : List Octet} (hlen : img.length = 20 + 2 * bankOctets s b) :
    (newEntry s b img).prio = beNat (img.take 4) ∧ (newEntry s b img).ad = beNat ((img.drop 4).take 16) ∧
      (newEntry s b img).m = beNat (img.drop (20 + bankOctets s b)) ∧
      (newEntry s b img).v = beNat ((img.drop 20).take (bankOctets s b)) &&& (newEntry s b img).m := by
  have hmask : (img.drop (20 + bankOctets s b)).take (bankOctets s b) = img.drop (20 + bankOctets s b) :=
    List.take_of_length_le (by rw [List.length_drop]; omega)
  simp only [newEntry, fieldBe]
  rw [octs_eq_of_le (off := 0) (by omega), octs_eq_of_le (off := 4) (by omega), octs_eq_of_le (off := 20) (by omega),
    octs_eq_of_le (off := 20 + bankOctets s b) (by omega), hmask]
  exact ⟨rfl, rfl, rfl, rfl⟩

section
variable {b f : Nat} {img : List Octet} (hrise : mrising s.src.ents = true) (hfree : slotFree (bankEnts s b) f = true)
  (hf : f < bankSlots s b) (hslots : ∀ kv ∈ bankEnts s b, kv.1 < bankSlots s b)
include hrise hfree hf hslots

theorem bankForm_entryPlaced : BankForm (entryPlaced s b img f) :=
  bankForm_placeEntry _ (bankForm_bankEnts hrise b) ((insertPoint_le hslots _).trans (bankSlots_le s b))
    (hf.trans_le (bankSlots_le s b)) hfree

/-- What an insertion makes of the banks: its own has the entry in the place of its priority, and no other changes (05 R91). -/
theorem bankEnts_of_entryPlaced {u : State} (hu : u.src.ents = (setBankEnts s b (entryPlaced s b img f)).src.ents) :
    ((bankEnts u b).map (·.2)).Perm (newEntry s b img :: (bankEnts s b).map (·.2)) ∧
      (((bankEnts s b).map (·.2)).Pairwise (fun x y => x.prio ≤ y.prio) →
        (bankEnts u b).map (·.2) =
          ((bankEnts s b).map (·.2)).filter (fun x => decide (x.prio ≤ (newEntry s b img).prio)) ++
            newEntry s b img :: ((bankEnts s b).map (·.2)).filter (fun x => decide ((newEntry s b img).prio < x.prio))) ∧
      ∀ b', b' ≠ b → bankEnts u b' = bankEnts s b' := by
  have hform := bankForm_entryPlaced (img := img) hrise hfree hf hslots
  have hlt := hf.trans_le (bankSlots_le s b)
  rw [bankEnts_congr hu b, bankEnts_setBankEnts_self hrise hform]
  exact ⟨perm_placeEntry (bankForm_bankEnts hrise b) hlt hfree _, sorted_placeEntry (bankForm_bankEnts hrise b) hlt hfree,
    fun b' hb => (bankEnts_congr hu b').trans (bankEnts_setBankEnts_ne hrise hform hb)⟩
end

/-! ### Handles -/

theorem handleFor_of_own {p h : Nat} (hk : findHandle s h = some (k, e)) (ho : bankOwner s (k / 4096) = some p) (agent : Nat) :
    handleFor s p agent h = (some (k, e), s) := by
  simp [handleFor, hk, ho]

theorem handleFor_of_none {h : Nat} (hk : findHandle s h = none) (p agent : Nat) : handleFor s p agent h = (none, s) := by
  simp [handleFor, hk]

/-- The array with another entry at a place. -/
def entrySet (s : State) (k : Nat) (e : SEntry) : State := { s with src := { s.src with ents := mput s.src.ents k e } }

theorem onlySearch_entrySet (s : State) (k : Nat) (e : SEntry) : OnlySearch s (entrySet s k e) := rfl

theorem mfind_entrySet (s : State) (k : Nat) (e : SEntry) :
    mfind (entrySet s k e).src.ents k = some e ∧ ∀ j, j ≠ k → mfind (entrySet s k e).src.ents j = mfind s.src.ents j :=
  ⟨mfind_mput_self .., fun _ => mfind_mput_ne⟩

theorem mfind_deleteEnt (s : State) (k : Nat) (e : SEntry) :
    mfind (deleteEnt s k e).src.ents k = none ∧
      ∀ j, j ≠ k → mfind (deleteEnt s k e).src.ents j = mfind s.src.ents j :=
  ⟨mfind_mdel_self .., fun _ => mfind_mdel_ne⟩

theorem handleGen_deleteEnt (s : State) (k : Nat) (e : SEntry) :
    handleGen (deleteEnt s k e) e.index = handleGen s e.index + 1 := mget_mset_self ..

/-- SRC_SETAD of a host completes with the status of the replacement. -/
theorem exec_srcSetad_host (ha : Accepted s c 0x12) {st : Nat} {t : State}
    (h : setAd s c.part.toNat (hostAgent c.part.toNat) handle.toNat ad.toNat = (st, t)) :
    exec (.srcSetad (.host c) handle ad raddr) s = .next (finish t c 0x12 st 0 0) := by
  have hrun : hostCmd s c 0x12 (fun s =>
      let r := setAd s c.part.toNat (hostAgent c.part.toNat) handle.toNat ad.toNat
      finish r.2 c 0x12 r.1 0 0) = finish t c 0x12 st 0 0 := by
    rw [hostCmd_of_accepted ha, h]
  exact congrArg Host.Outcome.next hrun

section
variable (hk : findHandle s handle.toNat = some (k, e)) (ho : bankOwner s (k / 4096) = some c.part.toNat)
include hk ho

theorem exec_srcSetad_of_own (ha : Accepted s c 0x12) :
    exec (.srcSetad (.host c) handle ad raddr) s =
      .next (finish (entrySet s k { e with ad := ad.toNat, bad := false }) c 0x12 0 0 0) :=
  exec_srcSetad_host ha (by rw [setAd, handleFor_of_own hk ho]; rfl)

theorem exec_srcDelete_of_own (ha : Accepted s c 0x11) :
    exec (.srcDelete c handle) s = .next (finish (deleteEnt s k e) c 0x11 0 0 0) := by
  refine congrArg Host.Outcome.next ((hostCmd_of_accepted ha _).trans ?_)
  rw [srcDelete, handleFor_of_own hk ho]

theorem exec_srcRead_of_own (ha : Accepted s c 0x13) {w : Nat} (hw : bankOctets s (k / 4096) = w) :
    exec (.srcRead c handle addr) s =
      .next (finish (hostWrite s c.part.toNat addr.toNat (beOctets 4 e.prio ++ beOctets 16 e.ad ++ beOctets w e.v ++
        beOctets w e.m ++ beOctets 4 k)) c 0x13 0 0 (24 + 2 * w)) := by
  refine congrArg Host.Outcome.next ((hostCmd_of_accepted ha _).trans ?_)
  have hlen : (beOctets 4 e.prio ++ beOctets 16 e.ad ++ beOctets w e.v ++ beOctets w e.m ++ beOctets 4 k).length =
      24 + 2 * w := by
    simp only [List.length_append, length_beOctets]; omega
  rw [srcRead, handleFor_of_own hk ho]
  dsimp only
  rw [hw, hlen]
end

/-! ### A handle of no entry -/

section
variable (hk : findHandle s handle.toNat = none)
include hk

theorem exec_srcSetad_of_none (ha : Accepted s c 0x12) :
    exec (.srcSetad (.host c) handle ad raddr) s = .next (finish s c 0x12 0x42 0 0) :=
  exec_srcSetad_host ha (by rw [setAd, handleFor_of_none hk])

theorem exec_srcDelete_of_none (ha : Accepted s c 0x11) :
    exec (.srcDelete c handle) s = .next (finish s c 0x11 0x42 0 0) := by
  refine congrArg Host.Outcome.next ((hostCmd_of_accepted ha _).trans ?_)
  rw [srcDelete, handleFor_of_none hk]

theorem exec_srcRead_of_none (ha : Accepted s c 0x13) :
    exec (.srcRead c handle addr) s = .next (finish s c 0x13 0x42 0 0) := by
  refine congrArg Host.Outcome.next ((hostCmd_of_accepted ha _).trans ?_)
  rw [srcRead, handleFor_of_none hk]
end

/-! ### SRC_FLUSH -/

theorem perm_insertBy {α : Type} (key : α → Nat) (x : α) (l : List α) : (insertBy key x l).Perm (x :: l) := by
  induction l with
  | nil => exact .refl _
  | cons y l ih =>
    rw [insertBy]
    split
    · exact .refl _
    · exact (ih.cons y).trans (.swap x y l)

theorem perm_sortBy {α : Type} (key : α → Nat) (l : List α) : (sortBy key l).Perm l := by
  have hfold : ∀ acc, (l.foldl (fun acc x => insertBy key x acc) acc).Perm (l ++ acc) := by
    induction l with
    | nil => exact fun _ => .refl _
    | cons x l ih => exact fun acc => (ih _).trans (((perm_insertBy key x acc).append_left l).trans List.perm_middle)
  simpa [sortBy] using hfold []

/-- The array without the entries of a bank that a list names. -/
def entriesDeleted (s : State) (b : Nat) (l : Map SEntry) : State :=
  l.foldl (fun s kv => deleteEnt s (b * 4096 + kv.1) kv.2) s

theorem onlySearch_entriesDeleted (s : State) (b : Nat) (l : Map SEntry) : OnlySearch s (entriesDeleted s b l) :=
  .foldl (fun _ _ => onlySearch_deleteEnt ..) l s

theorem mfind_entriesDeleted (s : State) (b : Nat) (l : Map SEntry) (j : Nat) :
    mfind (entriesDeleted s b l).src.ents j =
      if ∃ kv ∈ l, j = b * 4096 + kv.1 then none else mfind s.src.ents j := by
  unfold entriesDeleted
  induction l generalizing s with
  | nil => simp
  | cons kv l ih =>
    rw [List.foldl_cons, ih, deleteEnt_ents, mfind_mdel]
    by_cases hl : ∃ x ∈ l, j = b * 4096 + x.1
    · rw [if_pos hl, if_pos (by obtain ⟨x, hx, rfl⟩ := hl; exact ⟨x, List.mem_cons_of_mem _ hx, rfl⟩)]
    · rw [if_neg hl]
      by_cases hj : j = b * 4096 + kv.1
      · rw [if_pos hj, if_pos ⟨kv, List.mem_cons_self .., hj⟩]
      · rw [if_neg hj, if_neg]
        rintro ⟨x, hx, h⟩
        rcases List.mem_cons.mp hx with rfl | hx
        · exact hj h
        · exact hl ⟨x, hx, h⟩

/-- The entries of a bank in handle order (05 Table 05-2). -/
def bankByHandle (s : State) (b : Nat) : Map SEntry := sortBy (fun kv => handleOf s kv.2) (bankEnts s b)

/-- Deleting all of a bank's entries, in whatever order, empties the bank and no other. -/
theorem mfind_flushed (s : State) (b j : Nat) :
    mfind (entriesDeleted s b (bankByHandle s b)).src.ents j = if j / 4096 = b then none else mfind s.src.ents j := by
  have hmem : ∀ {kv}, kv ∈ bankByHandle s b ↔ kv.1 < 4096 ∧ (b * 4096 + kv.1, kv.2) ∈ s.src.ents := fun {kv} =>
    (perm_sortBy _ _).mem_iff.trans mem_bankEnts
  rw [mfind_entriesDeleted]
  by_cases hb : j / 4096 = b
  · rw [if_pos hb]
    split
    · rfl
    case isFalse hnone =>
      refine mfind_eq_none_iff.mpr fun kv hkv heq => hnone ⟨(j % 4096, kv.2), hmem.mpr ⟨Nat.mod_lt _ (by norm_num), ?_⟩, ?_⟩
      · rwa [show (b * 4096 + j % 4096, kv.2) = kv from Prod.ext (by simp only; omega) rfl]
      · simp only; omega
  · rw [if_neg hb, if_neg]
    rintro ⟨kv, hkv, rfl⟩
    have := (hmem.mp hkv).1
    omega

theorem exec_srcFlush_of_waiting (ha : Accepted s c 0x15) (hb : bankOk s c.part.toNat bank.toNat = true)
    (hw : s.gpl.waiting.any (waitsBank bank.toNat) = true) :
    exec (.srcFlush c bank) s =
      .next { s with gpl := { s.gpl with waiting := s.gpl.waiting ++ [⟨c, s.now, .srcFlush bank.toNat⟩] } } := by
  refine congrArg Host.Outcome.next ((hostCmd_of_accepted ha _).trans ?_)
  simp only [srcFlush, hb, hw, Bool.not_true, Bool.false_eq_true, if_false, if_true]

theorem exec_srcFlush_of_free (ha : Accepted s c 0x15) (hb : bankOk s c.part.toNat bank.toNat = true)
    (hw : s.gpl.waiting.any (waitsBank bank.toNat) = false) :
    exec (.srcFlush c bank) s = .next (finish (entriesDeleted s bank.toNat (bankByHandle s bank.toNat)) c 0x15 0
      (bankEnts s bank.toNat).length 0) := by
  refine congrArg Host.Outcome.next ((hostCmd_of_accepted ha _).trans ?_)
  simp only [srcFlush, hb, hw, Bool.not_true, Bool.false_eq_true, if_false, flushBank]
  rw [(perm_sortBy _ _).length_eq]
  rfl

/-! ### The statement -/

theorem searchEntries : Claim.searchEntries := by
  intro s c bank addr raddr handle ad k e p b w img
  refine ⟨?insert, fun _ hk ho => ⟨?setad, ?delete, ?read⟩, ?none, ?waits, ?flush⟩
  case insert =>
    intro ha hb hd hrise hfull hslots hlen hroom
    have hslots' : ∀ kv ∈ bankEnts s b, kv.1 < bankSlots s b := fun kv => hslots kv.1 kv.2
    obtain ⟨f, hf, hfree, hlt⟩ := chooseFree_of_no_fullGroup hfull (insertPoint (bankEnts s b) (newEntry s b img).prio)
    obtain ⟨t, hins, honly, hents⟩ := insertImage_of_room p hroom hf
    obtain ⟨hdone, hnone⟩ := honly.finish (c := c) (opc := 0x10) (status := 0) (len := 0) ha.1
    obtain ⟨hprio, had, hm, hv⟩ := newEntry_fields (s := s) (length_hostRead s p addr.toNat _)
    obtain ⟨hperm, hsorted, hothers⟩ :=
      bankEnts_of_entryPlaced hrise hfree hlt hslots' ((congrArg Search.ents (finish_src ..)).trans hents)
    exact ⟨_, newEntry s b img, _, exec_srcInsert ha hb hd rfl hins, hdone, hprio, had, hm, hv,
      fun j g => freeHandle_unused hlen (j, g), rfl, hperm, hsorted, hothers, hnone⟩
  case setad =>
    intro ha
    obtain ⟨hdone, hnone⟩ := (onlySearch_entrySet ..).finish (opc := 0x12) (status := 0) (result := 0) (len := 0) ha.1
    exact ⟨_, exec_srcSetad_of_own hk ho ha, hdone, by rw [finish_src]; exact (mfind_entrySet ..).1,
      by rw [finish_src]; exact (mfind_entrySet ..).2, hnone⟩
  case delete =>
    intro ha
    obtain ⟨hdone, hnone⟩ := (onlySearch_deleteEnt s k e).finish (opc := 0x11) (status := 0) (result := 0) (len := 0) ha.1
    exact ⟨_, exec_srcDelete_of_own hk ho ha, hdone, by rw [finish_src]; exact (mfind_deleteEnt ..).1,
      by rw [finish_src]; exact (mfind_deleteEnt ..).2,
      (handleGen_congr (finish_src ..) _).trans (handleGen_deleteEnt ..), hnone⟩
  case read =>
    intro ha hh
    have hw := widthCode_le (srcBank s (k / 4096))
    have hoctets : bankOctets s (k / 4096) ≤ 80 :=
      Nat.mul_le_mul_left 20 (Nat.pow_le_pow_right (n := 2) (by norm_num) hw)
    obtain ⟨hdone, hhost, hput, hsrc⟩ := (OnlySearch.refl s).finish_hostWrite (c := c) (opc := 0x13) (status := 0)
      (result := 0) (len := 24 + 2 * bankOctets s (k / 4096)) (addr := addr) (l := beOctets 4 e.prio ++ beOctets 16 e.ad ++
        beOctets (bankOctets s (k / 4096)) e.v ++ beOctets (bankOctets s (k / 4096)) e.m ++ beOctets 4 k) ha.1 hh
      (by simp only [List.length_append, length_beOctets]; omega)
    exact ⟨_, exec_srcRead_of_own hk ho ha rfl, hdone, hhost, hsrc, hput⟩
  case none =>
    intro hk i hi ha
    have hdone : ∀ opc, Completed s (finish s c opc 0x42 0 0) c opc 0x42 0 0 ∧ (finish s c opc 0x42 0 0).src = s.src ∧
        (finish s c opc 0x42 0 0).mem = s.mem := fun _ => ⟨completed_finish ha.1, finish_src .., finish_mem ..⟩
    simp only [List.mem_cons, List.not_mem_nil, or_false] at hi
    rcases hi with rfl | rfl | rfl
    · exact ⟨_, exec_srcDelete_of_none hk ha, hdone _⟩
    · exact ⟨_, exec_srcSetad_of_none hk ha, hdone _⟩
    · exact ⟨_, exec_srcRead_of_none hk ha, hdone _⟩
  case waits => exact fun ha hb hw => ⟨_, exec_srcFlush_of_waiting ha hb hw, rfl, rfl, rfl, rfl, rfl, rfl, rfl⟩
  case flush =>
    intro ha hb hw
    obtain ⟨hdone, hnone⟩ := (onlySearch_entriesDeleted s b (bankByHandle s b)).finish (opc := 0x15) (status := 0)
      (result := (bankEnts s b).length) (len := 0) ha.1
    refine ⟨_, exec_srcFlush_of_free ha hb hw, hdone, fun j hj => ?_, fun j hj => ?_, hnone⟩
    · rw [finish_src, mfind_flushed, if_pos hj]
    · rw [finish_src, mfind_flushed, if_neg hj]

end Sys2Proof.Machine
end

section
/-! PROOFS. A search (05 R89, R97, R98, Table 05-4): the banks it goes to, the entries it hits, and the record it answers. -/

namespace Sys2Proof.Machine

variable {s : State} {p agent k : Nat} {key : List Octet} {loc : Nat} {e : SEntry}

/-- The entries that a search of profile `k` hits, lowest location first (05 R97). -/
def searchHits (s : State) (p k : Nat) (key : List Octet) : Map SEntry :=
  s.src.ents.filter (fun kv => decide (bankUse s p k (kv.1 / 4096) = .search) &&
    entMatches (beNat (fit (profOctets s k) key)) kv.2)

/-- Banks that a search skips for their width (05 R98). -/
def widthSkips (s : State) (p k : Nat) : Nat := ((List.range 64).filter (fun b => decide (bankUse s p k b = .width))).length

/-- The state in which a search of `n` hits has been counted, and the foreign banks it named logged (05 R98, Table 05-9). -/
def searchCounted (s : State) (p agent k : Nat) (hits : Map SEntry) : State :=
  let s' := (List.range 64).foldl (fun t b => foreignIf t p agent b (decide (bankUse t p k b = .foreign))) s
  let s' := srcCnt (srcCnt s' p 0 1) p 3 (widthSkips s p k)
  let s' := if hits = [] then s' else srcCnt s' p 1 1
  if 2 ≤ hits.length then srcCnt s' p 2 1 else s'

/-- FLAGS of a search result (05 Table 05-4). -/
def searchFlags (hits : Map SEntry) (skips : Nat) : Nat :=
  b2n (hits ≠ []) + 2 * b2n (decide (2 ≤ hits.length)) + 4 * min 7 hits.length + 32 * b2n (decide (0 < skips))

/-- The record of a search that hit (05 Table 05-4). -/
def foundRecord (flags handle loc : Nat) (e : SEntry) : List Octet :=
  zeros 1 ++ beOctets 1 flags ++ zeros 2 ++ beOctets 4 handle ++ beOctets 4 loc ++ beOctets 4 e.prio ++ beOctets 16 e.ad

theorem onlySearch_searchCounted (s : State) (p agent k : Nat) (hits : Map SEntry) :
    OnlySearch s (searchCounted s p agent k hits) := by
  have hforeign := OnlySearch.foldl (fun (t : State) b =>
    onlySearch_foreignIf t p agent b (decide (bankUse t p k b = .foreign))) (List.range 64) s
  have hsearch := (hforeign.trans (onlySearch_srcCnt _ p 0 1)).trans (onlySearch_srcCnt _ p 3 (widthSkips s p k))
  have hhit := OnlySearch.ite (p := hits = []) hsearch (hsearch.trans (onlySearch_srcCnt _ p 1 1))
  exact .ite (hhit.trans (onlySearch_srcCnt ..)) hhit

theorem foldl_foreignIf_src (f : State → Nat → Bool) (l : List Nat) (t : State) :
    (l.foldl (fun t b => foreignIf t p agent b (f t b)) t).src = t.src := by
  induction l generalizing t with
  | nil => rfl
  | cons b l ih => rw [List.foldl_cons, ih, foreignIf_src]

theorem searchCounted_src (s : State) (p agent k : Nat) (hits : Map SEntry) :
    (searchCounted s p agent k hits).src = s.src := by
  have hsrc : ∀ t i n, (srcCnt t p i n).src = t.src := fun _ _ _ => rfl
  unfold searchCounted
  dsimp only
  split <;> split <;> simp only [hsrc, foldl_foreignIf_src (fun t b => decide (bankUse t p k b = .foreign))]

theorem runSearch_of_miss (h : searchHits s p k key = []) :
    runSearch s p agent k key = (zeros 1 ++ beOctets 1 (searchFlags [] (widthSkips s p k)) ++ zeros 30, false,
      searchCounted s p agent k []) := by
  unfold searchHits at h
  unfold runSearch
  dsimp only
  rw [h]
  rfl

theorem runSearch_of_hit (h : (searchHits s p k key).head? = some (loc, e)) (hbad : e.bad = false) :
    runSearch s p agent k key =
      (foundRecord (searchFlags (searchHits s p k key) (widthSkips s p k)) (handleOf s e) loc e, false,
        searchCounted s p agent k (searchHits s p k key)) := by
  have hhandle := handleOf_congr (searchCounted_src s p agent k (searchHits s p k key)) e
  rw [← hhandle]
  unfold searchHits at *
  unfold runSearch
  dsimp only
  rw [h]
  simp only [hbad, Bool.false_eq_true, if_false]
  rfl

theorem length_foundRecord (flags handle loc : Nat) (e : SEntry) : (foundRecord flags handle loc e).length = 32 := by
  simp [foundRecord, zeros]

/-- A search that meets no entry in error answers a record of 32 octets, and leaves the array alone (05 R97, R105). -/
theorem runSearch_of_sound (hsound : ∀ kv ∈ s.src.ents, kv.2.bad = false) (p agent k : Nat) (key : List Octet) :
    ∃ l t, runSearch s p agent k key = (l, false, t) ∧ l.length = 32 ∧ OnlySearch s t ∧ t.src = s.src := by
  have heffect := fun hits => And.intro (onlySearch_searchCounted s p agent k hits) (searchCounted_src s p agent k hits)
  cases hhits : searchHits s p k key with
  | nil => exact ⟨_, _, runSearch_of_miss hhits, by simp [zeros], heffect _⟩
  | cons kv rest =>
    have hmem : kv ∈ searchHits s p k key := hhits ▸ List.mem_cons_self ..
    exact ⟨_, _, runSearch_of_hit (by rw [hhits]; rfl) (hsound kv (List.mem_filter.mp hmem).1), length_foundRecord ..,
      heffect _⟩

end Sys2Proof.Machine
end

section
/-! PROOFS. SRC_SEARCH of a host and of a thread (05 R97, R99, R102). -/

namespace Sys2Proof.Machine

open Sys2Proof.Claim

variable {s : State}

/-! ### A host -/

section
variable {c : CmdRef} {prof : BitVec 8} {kaddr raddr : BitVec 64} {l : List Octet} {t : State}

/-- A host's search completes with its record in host memory, and changes no other memory and no entry (05 R102). -/
theorem exec_srcSearch_host (ha : Accepted s c 0x14) (hh : hasHost s c.part.toNat = true)
    (hprof : profOk s c.part.toNat prof.toNat = true)
    (hrun : runSearch (noDoubts s) c.part.toNat (hostAgent c.part.toNat) prof.toNat
      (hostRead (noDoubts s) c.part.toNat kaddr.toNat (profOctets (noDoubts s) prof.toNat)) = (l, false, t))
    (hl : l.length = 32) (honly : OnlySearch (noDoubts s) t) (hsrc : t.src = s.src) :
    ∃ u, exec (.srcSearch (.host c) prof kaddr raddr) s = .next u ∧ Completed s u c 0x14 0 0 32 ∧ OnlyHost s u ∧
      HostPut s u c.part.toNat raddr.toNat l ∧ u.src = s.src := by
  have ha' : Accepted (noDoubts s) c 0x14 := ha
  have hprof' : profOk (noDoubts s) c.part.toNat prof.toNat = true := hprof
  have hhost : srcSearchHost (noDoubts s) c prof.toNat kaddr.toNat raddr.toNat =
      finish (hostWrite t c.part.toNat raddr.toNat l) c 0x14 0 0 32 := by
    simp only [srcSearchHost, hprof', hrun, if_true, Bool.false_eq_true, if_false]
  have hsearch : srcSearch (noDoubts s) (.host c) prof.toNat kaddr.toNat raddr.toNat = _ :=
    (hostCmd_of_accepted ha' (srcSearchHost · c prof.toNat kaddr.toNat raddr.toNat)).trans hhost
  have hraised : (finish (hostWrite t c.part.toNat raddr.toNat l) c 0x14 0 0 32).hkc.raised = [] := by
    rw [finish_frame, hostWrite_frame, honly]; rfl
  obtain ⟨hdone, honlyHost, hput, hsame⟩ := honly.finish_hostWrite (c := c) (opc := 0x14) (status := 0) (result := 0)
    (len := 32) (addr := raddr) ha'.1 hh (by rw [hl]; norm_num)
  refine ⟨_, ?_, hdone, honlyHost, hput, hsame.trans hsrc⟩
  exact congrArg Host.Outcome.next ((congrArg raisedDoubts hsearch).trans (raisedDoubts_of_none hraised))
end

/-! ### A thread -/

/-- A range inside the window passes its check (08 R167, R168). -/
theorem winCheck_of_inside {l : List WinArg} (h : ∀ a ∈ l, a.off + a.size ≤ 512) : winCheck l = none := by
  induction l with
  | nil => rfl
  | cons a l ih =>
    obtain ⟨ha, hl⟩ := List.forall_mem_cons.mp h
    have hlimit : ¬ 511 < a.off + a.size - 1 := by omega
    have hok : segCheck winView [spWin] { r := !a.write, w := a.write, h := true } a.off a.size = .ok 6 (0 + a.off) := by
      simp [segCheck, winView, spWin, hlimit]
    rw [winCheck, hok]
    exact ih hl

theorem helperSyl_fx_of_free {t : Thr} {g : Gd} {tag : Nat} {kind : HelperKind} {args : State → Ctx → List WinArg}
    {run : Ctx → State → State} (htag : tagBusy s t.toNat tag = false)
    (hargs : ∀ a ∈ args s (thr s t.toNat).ctx, a.off + a.size ≤ 512) :
    (helperSyl t g false tag kind args run).fx s = { run := run (thr s t.toNat).ctx } := by
  simp [helperSyl, htag, winCheck_of_inside hargs]

theorem ev_startTag (s : State) (t : Nat) (tag : BitVec 2) (x : Tag) :
    (thr (startTag s t tag.toNat x) t).ctx.ev.getLsbD tag.toNat = false := by
  rw [startTag, thr_updCtx, if_pos rfl]
  simp only [Ctx.clrEv, BitVec.getLsbD_and, BitVec.getLsbD_not, BitVec.getLsbD_ofNat, Nat.testBit_two_pow_self]
  simp [show tag.toNat < 36 by omega]

theorem tag_startTag (s : State) (t tag : Nat) (x : Tag) :
    mfind (thr (startTag s t tag x) t).ctx.tags tag = some { x with issued := s.now } := by
  simp [startTag]

theorem srchStart_of_sound {u : State} {t tag roff k p : Nat} {key : List Octet} (hp : thrP u t = p)
    (hprof : profOk u p k = true) (hsound : ∀ kv ∈ u.src.ents, kv.2.bad = false) :
    ∃ w x, srchStart t tag roff k key u = startTag w t tag x ∧ x.search = some (k, u.seq) ∧ w.src = u.src ∧
      w.mem = u.mem ∧ w.hkc = u.hkc := by
  obtain ⟨l, v, hrun, -, honly, hsrc⟩ := runSearch_of_sound hsound p (thrAgent t) k key
  have hseq : v.seq = u.seq := by rw [honly]
  rw [srchStart, searchFor, hp, if_pos hprof, hrun]
  exact ⟨_, _, rfl, by simp only [hseq], hsrc, by rw [honly], by rw [honly]⟩

/-- The SRCH syllable of a thread's SEARCH (05 R102). -/
def searchSyl (t : Thr) (tag roff prof koff : Nat) : Syl :=
  helperSyl t 0 false tag .srch (fun s _ => [⟨koff, profOctets s prof, false⟩, ⟨roff, 32, true⟩])
    (fun c s => srchStart t.toNat tag roff prof (c.winRead koff (profOctets s prof)) s)

theorem srcSearch_thread (s : State) (t : Thr) (tag : BitVec 2) (rd : BitVec 5) (prof koff roff : Nat) :
    srcSearch s (.thread t tag rd) prof koff roff = issueOne s t (searchSyl t tag.toNat roff prof koff) := rfl

/-- A thread's search takes its tag until its helper completes, and the searches of a profile are numbered in issue order
(05 R99; 08 R172). -/
theorem exec_srcSearch_thread {t : Thr} {tag : BitVec 2} {rd : BitVec 5} {prof : BitVec 8} {kaddr raddr : BitVec 64} {p : Nat}
    (hruns : Runs s t 0) (hp : thrPart s t.toNat = some p) (hprof : profOk s p prof.toNat = true)
    (hsound : ∀ kv ∈ s.src.ents, kv.2.bad = false) (htag : mfind (ctxNow s t).tags tag.toNat = none)
    (hkey : kaddr.toNat + profOctets s prof.toNat ≤ 512) (hrec : raddr.toNat + 32 ≤ 512) :
    ∃ u x, exec (.srcSearch (.thread t tag rd) prof kaddr raddr) s = .next u ∧
      (thr u t.toNat).ctx.ev.getLsbD tag.toNat = false ∧ mfind (thr u t.toNat).ctx.tags tag.toNat = some x ∧
      x.search = some (prof.toNat, s.seq) ∧ u.src = s.src ∧ u.mem = s.mem := by
  obtain ⟨⟨hissue, hbreak, hstep, -⟩, hguard⟩ := hruns
  obtain ⟨m, hm⟩ := issuing_threads (noDoubts s) t.toNat 1
  have hfree : tagBusy (updCtx (noDoubts s) t.toNat (fun c => c.turn)) t.toNat tag.toNat = false := by
    rw [tagBusy, thr_updCtx, if_pos rfl]
    exact (congrArg Option.isSome htag).trans rfl
  have hfx := helperSyl_fx_of_free (g := 0) (kind := .srch)
    (args := fun s _ => [⟨kaddr.toNat, profOctets s prof.toNat, false⟩, ⟨raddr.toNat, 32, true⟩])
    (run := fun c s => srchStart t.toNat tag.toNat raddr.toNat prof.toNat
      (c.winRead kaddr.toNat (profOctets s prof.toNat)) s) hfree (by
        simp only [List.forall_mem_cons, List.not_mem_nil, false_implies, implies_true, and_true]
        exact ⟨hkey, hrec⟩)
  have hrun := issueOne_run (s := noDoubts s) (x := searchSyl t tag.toNat raddr.toNat prof.toNat kaddr.toNat)
    hissue hbreak hstep rfl hguard hfx rfl rfl
  obtain ⟨w, x, hstart, hsearch, hsrc, hmem, hhkc⟩ := srchStart_of_sound (u := issuing (noDoubts s) t.toNat 1)
    (t := t.toNat) (tag := tag.toNat) (roff := raddr.toNat) (k := prof.toNat) (p := p)
    (key := (thr (updCtx (noDoubts s) t.toNat (fun c => c.turn)) t.toNat).ctx.winRead kaddr.toNat
      (profOctets (issuing (noDoubts s) t.toNat 1) prof.toNat))
    (by rw [hm]; exact congrArg (fun o => o.getD 8) hp) (by rw [hm]; exact hprof) (by rw [hm]; exact hsound)
  have hraised : (startTag w t.toNat tag.toNat x).hkc.raised = [] := by
    change w.hkc.raised = []
    rw [hhkc, hm]; rfl
  refine ⟨startTag w t.toNat tag.toNat x, _, ?_, ev_startTag .., tag_startTag .., ?_, ?_, ?_⟩
  · exact congrArg Host.Outcome.next
      ((congrArg raisedDoubts ((srcSearch_thread ..).trans (hrun.trans hstart))).trans (raisedDoubts_of_none hraised))
  · rw [hsearch, hm]; rfl
  · exact hsrc.trans (by rw [hm]; rfl)
  · exact hmem.trans (by rw [hm]; rfl)

end Sys2Proof.Machine
end

section
/-! PROOFS. The array's own work (05 R94, R105): a rebalance, and the scrubber's visit to a row that it does not lose. -/

namespace Sys2Proof.Machine

open Sys2Proof.Claim

variable {s : State} {b : Nat}

/-! ### REBALANCE -/

/-- Which way a rebalance goes is drawn, and the draw changes nothing else (05 R94). -/
theorem rebalanceUp_frame (s : State) (l : Map SEntry) (slots grp : Nat) :
    (rebalanceUp s l slots grp).2 = { s with fresh := (rebalanceUp s l slots grp).2.fresh } := by
  unfold rebalanceUp
  split <;> rfl

/-- The entries of a bank after a rebalance in one direction. -/
def entsRebalanced (s : State) (b : Nat) (up : Bool) : Map SEntry :=
  rebalanceRun (bankSlots s b) (holeInt s b) up (bankSlots s b / holeInt s b) (bankEnts s b)

/-- The array after a rebalance: the bank's entries have their new slots, and the bank is due no more. -/
def bankRebalanced (s : State) (b : Nat) (up : Bool) : State :=
  let t := setBankEnts s b (entsRebalanced s b up)
  { t with src := { t.src with rebal := t.src.rebal.filter (· ≠ b) } }

theorem rebalance_of_not_due (hd : rebalDue s b = false) : rebalance s b = s := by
  rw [rebalance, if_neg (by simp [hd])]

theorem rebalance_of_due (hd : rebalDue s b = true) (hw : s.gpl.waiting = []) :
    ∃ up fresh, rebalance s b = { bankRebalanced s b up with fresh := fresh } := by
  have hframe := rebalanceUp_frame s (bankEnts s b) (bankSlots s b) (holeInt s b)
  rw [rebalance, if_pos hd]
  dsimp only
  generalize rebalanceUp s (bankEnts s b) (bankSlots s b) (holeInt s b) = r at hframe
  obtain ⟨up, t⟩ := r
  dsimp only at hframe ⊢
  have hnone : t.gpl.waiting.length = 0 := by rw [hframe, hw]; rfl
  refine ⟨up, t.fresh, ?_⟩
  change resumeInserts t.gpl.waiting.length _ b = _
  rw [hnone, hframe]
  rfl

theorem rebalDue_bankRebalanced (s : State) (b : Nat) (up : Bool) : rebalDue (bankRebalanced s b up) b = false := by
  simp [rebalDue, bankRebalanced]

/-- A rebalance keeps a bank's entries in their order, and every other bank as it was (05 R94). -/
theorem bankEnts_bankRebalanced (h : mrising s.src.ents = true) (b : Nat) (up : Bool) :
    (bankEnts (bankRebalanced s b up) b).map (·.2) = (bankEnts s b).map (·.2) ∧
      ∀ b', b' ≠ b → bankEnts (bankRebalanced s b up) b' = bankEnts s b' := by
  have hslots : Reslotted (bankEnts s b) (entsRebalanced s b up) :=
    reslotted_rebalanceRun (bankForm_bankEnts h b) (bankSlots_le s b) _ _ _
  obtain ⟨hform, hvalues⟩ := hslots
  have hents : (bankRebalanced s b up).src.ents = (setBankEnts s b (entsRebalanced s b up)).src.ents := rfl
  constructor
  · rw [bankEnts_congr hents, bankEnts_setBankEnts_self h hform]
    exact hvalues
  · exact fun b' hb => (bankEnts_congr hents b').trans (bankEnts_setBankEnts_ne h hform hb)

theorem exec_rebalance_of_due {bank : BitVec 6} (hd : rebalDue s bank.toNat = true) (hw : s.gpl.waiting = []) :
    ∃ up fresh, exec (.rebalance bank) s = .next { bankRebalanced s bank.toNat up with fresh := fresh } := by
  obtain ⟨up, fresh, h⟩ := rebalance_of_due hd hw
  exact ⟨up, fresh, congrArg Host.Outcome.next h⟩

/-! ### SEARCH_SCRUB -/

section
variable {bank : BitVec 6} {slot : BitVec 12} {e : SEntry}

theorem exec_searchScrub_of_empty (h : mfind s.src.ents (bank.toNat * 4096 + slot.toNat) = none) (found : ScrubFind) :
    exec (.searchScrub bank slot found) s = .next s := by
  refine congrArg Host.Outcome.next ?_
  rw [h]
  simp [searchScrub, h]

theorem exec_searchScrub_next (s : State) (bank : BitVec 6) (slot : BitVec 12) (found : ScrubFind) :
    ∃ u, exec (.searchScrub bank slot found) s = .next u := ⟨_, rfl⟩

theorem exec_searchScrub_clean (s : State) (bank : BitVec 6) (slot : BitVec 12) :
    exec (.searchScrub bank slot .clean) s = .next s := by
  cases h : mfind s.src.ents (bank.toNat * 4096 + slot.toNat) with
  | none => exact exec_searchScrub_of_empty h .clean
  | some e =>
    refine congrArg Host.Outcome.next ?_
    rw [h]
    simp [searchScrub, h]

variable (h : mfind s.src.ents (bank.toNat * 4096 + slot.toNat) = some e)
include h

theorem exec_searchScrub_correctable : exec (.searchScrub bank slot .correctable) s =
    .next (wrDev s (0x41200 + 4 * bank.toNat) (min 65535 (rdDev s (0x41200 + 4 * bank.toNat) + 1))) := by
  refine congrArg Host.Outcome.next ?_
  rw [h]
  simp [searchScrub, h]

theorem exec_searchScrub_missed : exec (.searchScrub bank slot .missed) s =
    .next (entrySet s (bank.toNat * 4096 + slot.toNat) { e with bad := true }) := by
  refine congrArg Host.Outcome.next ?_
  rw [h]
  simp [searchScrub, h, entrySet]

theorem exec_searchScrub_uncorrectable : exec (.searchScrub bank slot .uncorrectable) s =
    .next (doubt s 0x03 none (bank.toNat * 4096 + slot.toNat)) := by
  refine congrArg Host.Outcome.next ?_
  rw [h]
end

end Sys2Proof.Machine
end

section
/-! PROOFS. The statement on the commands of the search array (05 R89-R105): those on entries, and those that search, rebalance
and scrub. -/

namespace Sys2Proof.Machine

open Sys2Proof.Claim

theorem searchCompletes : Claim.searchCompletes := by
  refine ⟨?host, ?thread, ?rebalance, ?scrub⟩
  case host =>
    intro s c prof kaddr raddr p ha hh hprof hsound
    obtain ⟨l, t, hrun, hl, honly, hsrc⟩ := runSearch_of_sound (s := noDoubts s) hsound p (hostAgent p) prof.toNat
      (hostRead (noDoubts s) p kaddr.toNat (profOctets (noDoubts s) prof.toNat))
    obtain ⟨u, hexec, hdone, hhost, hput, hsame⟩ :=
      exec_srcSearch_host (raddr := raddr) ha hh hprof hrun hl honly hsrc
    exact ⟨u, l, hexec, hdone, hl, hput, hhost, hsame⟩
  case thread =>
    exact fun s t tag rd prof kaddr raddr p hruns hp hprof hsound htag hkey hrec =>
      exec_srcSearch_thread hruns hp hprof hsound htag hkey hrec
  case rebalance =>
    intro s bank hd hw
    obtain ⟨up, fresh, hexec⟩ := exec_rebalance_of_due hd hw
    exact ⟨_, hexec, rebalDue_bankRebalanced s bank.toNat up, rfl, rfl⟩
  case scrub =>
    intro s bank slot found
    obtain ⟨u, hexec⟩ := exec_searchScrub_next s bank slot found
    refine ⟨u, hexec, fun h => ?_⟩
    rcases h with rfl | hempty
    · exact Host.Outcome.next.inj (hexec.symm.trans (exec_searchScrub_clean s bank slot))
    · exact Host.Outcome.next.inj (hexec.symm.trans (exec_searchScrub_of_empty hempty found))

/-- Settles O27: the statement on entries and the one on searches, each from the lemmas about its commands. -/
theorem searchCommands : Obligations.SearchCommands := ⟨searchEntries, searchCompletes⟩

end Sys2Proof.Machine
end

section
/-! PROOFS. The statement on search lookups (05 R89, R97, R98): which entries a search hits, and what its record says of them. -/

namespace Sys2Proof.Machine

open Sys2Proof.Claim

variable {s : State} {p k : Nat} {key : List Octet} {loc : Nat} {e : SEntry}

/-! ### Hits -/

theorem inMask_iff (v b : Nat) : bitOf v b = true ↔ v / 2 ^ b % 2 = 1 := by simp [bitOf]

/-- A bank is searched when the mask names it and it is the partition's, enabled and of the profile's width (05 R97). -/
theorem bankUse_search_iff {b : Nat} : bankUse s p k b = .search ↔
    (profWord s k 1 + profWord s k 2 * 2 ^ 32) / 2 ^ b % 2 = 1 ∧ bankOk s p b = true ∧
      widthCode (srcBank s b) = widthCode (profWord s k 0) := by
  have hforeign : bankOk s p b = true → bankForeign s p b = false := fun h => by
    simp only [bankOk, Bool.and_eq_true, decide_eq_true_eq] at h
    simp [bankForeign, h.1.2]
  rw [← inMask_iff, bankUse]
  cases hm : bitOf (profWord s k 1 + profWord s k 2 * 2 ^ 32) b
  · simp
  · cases hok : bankOk s p b
    · cases hf : bankForeign s p b <;> simp
    · by_cases hw : widthCode (srcBank s b) = widthCode (profWord s k 0) <;> simp [hforeign hok, hw]

theorem mrising_searchHits (h : mrising s.src.ents = true) : mrising (searchHits s p k key) = true :=
  mrising_mkeep (p := fun j e => decide (bankUse s p k (j / 4096) = .search) &&
    entMatches (beNat (fit (profOctets s k) key)) e) h

theorem mem_searchHits (h : mrising s.src.ents = true) (hlen : key.length = profOctets s k) :
    (loc, e) ∈ searchHits s p k key ↔
      mfind s.src.ents loc = some e ∧ bankUse s p k (loc / 4096) = .search ∧ (beNat key ^^^ e.v) &&& e.m = 0 := by
  rw [searchHits, List.mem_filter, mfind_eq_some_iff h, fit_of_length hlen]
  simp [entMatches]

/-- The hit of the lowest location is the first (05 R97). -/
theorem searchHits_eq_cons (h : mrising s.src.ents = true) (hmem : (loc, e) ∈ searchHits s p k key)
    (hlow : ∀ x ∈ searchHits s p k key, loc ≤ x.1) : ∃ rest, searchHits s p k key = (loc, e) :: rest := by
  have hrise := mrising_searchHits (p := p) (k := k) (key := key) h
  generalize searchHits s p k key = hits at hmem hlow hrise
  cases hits with
  | nil => simp at hmem
  | cons x rest =>
    rcases List.mem_cons.mp hmem with rfl | hmem
    · exact ⟨rest, rfl⟩
    · have hlt := (mrising_cons.mp hrise).1 _ hmem
      have hle := hlow x (List.mem_cons_self ..)
      exact absurd hlt (Nat.not_lt.mpr hle)

/-- Hits besides the first are at other locations. -/
theorem two_le_length_iff {hits rest : Map SEntry} (hrise : mrising hits = true) (h : hits = (loc, e) :: rest) :
    2 ≤ hits.length ↔ ∃ x ∈ hits, x.1 ≠ loc := by
  subst h
  have habove := (mrising_cons.mp hrise).1
  cases rest with
  | nil => simp
  | cons y rest =>
    exact iff_of_true (by simp) ⟨y, by simp, (habove y (List.mem_cons_self ..)).ne'⟩

/-! ### The record -/

theorem widthSkips_of_searched (h : ∀ b, (profWord s k 1 + profWord s k 2 * 2 ^ 32) / 2 ^ b % 2 = 1 → b < 64 →
    bankUse s p k b = .search) : widthSkips s p k = 0 := by
  rw [widthSkips, List.length_eq_zero_iff, List.filter_eq_nil_iff]
  intro b hb
  rw [decide_eq_true_eq]
  cases hm : bitOf (profWord s k 1 + profWord s k 2 * 2 ^ 32) b
  · rw [bankUse, hm]; simp
  · simp [h b ((inMask_iff ..).mp hm) (List.mem_range.mp hb)]

theorem foundRecord_eq (flags handle loc : Nat) (e : SEntry) : foundRecord flags handle loc e =
    [0, BitVec.ofNat 8 flags, 0, 0] ++ (beOctets 4 handle ++ beOctets 4 loc ++ beOctets 4 e.prio ++ beOctets 16 e.ad) := by
  simp [foundRecord, zeros, beOctets, List.replicate]

/-- FLAGS of a search that skipped no bank: HIT, and MULTI where it hit two or more (05 Table 05-4). -/
theorem searchFlags_bits {hits : Map SEntry} (h : hits ≠ []) :
    (BitVec.ofNat 8 (searchFlags hits 0)).getLsbD 0 = true ∧
      ((BitVec.ofNat 8 (searchFlags hits 0)).getLsbD 1 = true ↔ 2 ≤ hits.length) := by
  have hflags : searchFlags hits 0 = 1 + 2 * b2n (decide (2 ≤ hits.length)) + 4 * min 7 hits.length := by
    simp [searchFlags, h, b2n]
  rw [hflags, BitVec.getLsbD_ofNat, BitVec.getLsbD_ofNat, Nat.testBit_eq_decide_div_mod_eq,
    Nat.testBit_eq_decide_div_mod_eq]
  simp only [Bool.and_eq_true, decide_eq_true_eq]
  by_cases h2 : 2 ≤ hits.length
  · simp only [h2, decide_true, b2n, if_true, iff_true]; omega
  · simp only [h2, decide_false, b2n, Bool.false_eq_true, if_false, iff_false]; omega

theorem foundRecord_flags (flags handle loc : Nat) (e : SEntry) :
    (foundRecord flags handle loc e).getD 1 0 = BitVec.ofNat 8 flags := by
  rw [foundRecord_eq]; rfl

theorem foundRecord_fields (flags handle loc : Nat) (e : SEntry) : (foundRecord flags handle loc e).drop 4 =
    beOctets 4 handle ++ beOctets 4 loc ++ beOctets 4 e.prio ++ beOctets 16 e.ad := by
  rw [foundRecord_eq]; rfl

/-! ### SRC_SEARCH of a host -/

section
variable {c : CmdRef} {prof : BitVec 8} {kaddr raddr : BitVec 64} (ha : Accepted s c 0x14)
  (hh : hasHost s c.part.toNat = true) (hprof : profOk s c.part.toNat prof.toNat = true)
  (hkey : hostRead s c.part.toNat kaddr.toNat (profOctets s prof.toNat) = key)
include ha hh hprof hkey

theorem exec_srcSearch_of_miss (hhits : searchHits s c.part.toNat prof.toNat key = [])
    (hskips : widthSkips s c.part.toNat prof.toNat = 0) :
    ∃ u, exec (.srcSearch (.host c) prof kaddr raddr) s = .next u ∧ Completed s u c 0x14 0 0 32 ∧ OnlyHost s u ∧
      HostPut s u c.part.toNat raddr.toNat (zeros 32) ∧ u.src = s.src := by
  have hrun := runSearch_of_miss (s := noDoubts s) (agent := hostAgent c.part.toNat) hhits
  have hrecord : zeros 1 ++ beOctets 1 (searchFlags [] (widthSkips (noDoubts s) c.part.toNat prof.toNat)) ++ zeros 30 =
      zeros 32 := by
    rw [show widthSkips (noDoubts s) c.part.toNat prof.toNat = 0 from hskips]; rfl
  rw [hrecord, ← hkey] at hrun
  exact exec_srcSearch_host ha hh hprof hrun (by simp [zeros]) (onlySearch_searchCounted ..) (searchCounted_src ..)

theorem exec_srcSearch_of_hit {rest : Map SEntry}
    (hhits : searchHits s c.part.toNat prof.toNat key = (loc, e) :: rest) (hbad : e.bad = false)
    (hskips : widthSkips s c.part.toNat prof.toNat = 0) :
    ∃ u, exec (.srcSearch (.host c) prof kaddr raddr) s = .next u ∧ Completed s u c 0x14 0 0 32 ∧ OnlyHost s u ∧
      HostPut s u c.part.toNat raddr.toNat
        (foundRecord (searchFlags ((loc, e) :: rest) 0) (handleOf s e) loc e) ∧ u.src = s.src := by
  have hhits' : searchHits (noDoubts s) c.part.toNat prof.toNat key = (loc, e) :: rest := hhits
  have hrun := runSearch_of_hit (agent := hostAgent c.part.toNat) (congrArg List.head? hhits') hbad
  rw [hhits', show widthSkips (noDoubts s) c.part.toNat prof.toNat = 0 from hskips, ← hkey] at hrun
  exact exec_srcSearch_host ha hh hprof hrun (length_foundRecord ..) (onlySearch_searchCounted ..) (searchCounted_src ..)
end

theorem searchLookup : Claim.searchLookup := by
  intro s c prof kaddr raddr p n key inMask searched hit ha hh hrise hprof hmask
  have hlen : (hostRead s p kaddr.toNat (profOctets s n)).length = profOctets s n := length_hostRead ..
  have hhit : ∀ j, hit j ↔ ∃ e, (j, e) ∈ searchHits s p n (hostRead s p kaddr.toNat (profOctets s n)) := fun j =>
    exists_congr fun e => by rw [mem_searchHits hrise hlen, bankUse_search_iff]
  have hmem : ∀ j e, (j, e) ∈ searchHits s p n (hostRead s p kaddr.toNat (profOctets s n)) → mfind s.src.ents j = some e :=
    fun j e h => ((mem_searchHits hrise hlen).mp h).1
  have hhits := mrising_searchHits (p := p) (k := n) (key := hostRead s p kaddr.toNat (profOctets s n)) hrise
  have hskips : widthSkips s p n = 0 := widthSkips_of_searched fun b hb hlt => by
    obtain ⟨hb', hok, hw⟩ := hmask b hb hlt
    rw [Nat.mul_div_cancel b (by norm_num)] at hok hw
    exact bankUse_search_iff.mpr ⟨hb, hok, hw⟩
  refine ⟨fun hmiss => ?miss, fun j e hj hlow he hbad => ?found⟩
  case miss =>
    exact exec_srcSearch_of_miss ha hh hprof rfl
      (List.eq_nil_iff_forall_not_mem.mpr fun x hx => hmiss x.1 ((hhit x.1).mpr ⟨x.2, hx⟩)) hskips
  case found =>
    obtain ⟨e', hje⟩ := (hhit j).mp hj
    obtain rfl : e = e' := Option.some.inj (he.symm.trans (hmem j e' hje))
    obtain ⟨rest, hcons⟩ := searchHits_eq_cons hrise hje fun x hx => hlow x.1 ((hhit x.1).mpr ⟨x.2, hx⟩)
    obtain ⟨u, hexec, hdone, hhost, hput, hsame⟩ :=
      exec_srcSearch_of_hit (raddr := raddr) ha hh hprof rfl hcons hbad hskips
    obtain ⟨hfound, hmulti⟩ := searchFlags_bits (List.cons_ne_nil (j, e) rest)
    have hothers : (∃ x ∈ (j, e) :: rest, x.1 ≠ j) ↔ ∃ j', j' ≠ j ∧ hit j' := by
      simp only [hhit, hcons]
      exact ⟨fun ⟨x, hx, hne⟩ => ⟨x.1, hne, x.2, hx⟩, fun ⟨j', hne, e', hx⟩ => ⟨(j', e'), hx, hne⟩⟩
    refine ⟨u, _, hexec, hdone, hhost, hput, hsame, length_foundRecord .., foundRecord_fields .., ?_, ?_⟩
    · rw [foundRecord_flags]; exact hfound
    · rw [foundRecord_flags, hmulti, two_le_length_iff (hcons ▸ hhits) rfl, hothers]

end Sys2Proof.Machine
end

section
/-! PROOFS. What an entry to Bolt leaves alone (16 R338, R341): whatever frames, commands and records it ends, the search array and
the state of Bolt itself are as they were. Each operation that it may start says so once. -/

namespace Sys2Proof.Machine

variable {s u v : State}

/-- The search array and the housekeeping core are the same. -/
structure SameArray (s u : State) : Prop where
  src : u.src = s.src
  hkc : u.hkc = s.hkc

theorem SameArray.refl (s : State) : SameArray s s := ⟨rfl, rfl⟩

theorem SameArray.trans (h1 : SameArray s u) (h2 : SameArray u v) : SameArray s v :=
  ⟨h2.src.trans h1.src, h2.hkc.trans h1.hkc⟩

theorem SameArray.ite {c : Prop} [Decidable c] (h1 : SameArray s u) (h2 : SameArray s v) :
    SameArray s (if c then u else v) := by
  split
  · exact h1
  · exact h2

theorem SameArray.foldl {β : Type} {f : State → β → State} (hf : ∀ s x, SameArray s (f s x)) (l : List β) (s : State) :
    SameArray s (l.foldl f s) := by
  induction l generalizing s with
  | nil => exact .refl s
  | cons x l ih => exact (hf s x).trans (ih (f s x))

theorem SameArray.foldl_pair {α β : Type} {f : α × State → β → α × State} (hf : ∀ a x, SameArray a.2 (f a x).2) (l : List β)
    (a : α × State) : SameArray a.2 (l.foldl f a).2 := by
  induction l generalizing a with
  | nil => exact .refl a.2
  | cons x l ih => exact (hf a x).trans (ih (f a x))

theorem OnlySlowPath.sameArray (h : OnlySlowPath s u) : SameArray s u := by
  rw [h]; exact ⟨rfl, rfl⟩

theorem SameArray.inBolt (h : SameArray s u) (p : Nat) : inBolt u p = Machine.inBolt s p := by
  rw [Machine.inBolt, h.hkc, Machine.inBolt]

/-! ### Frames and their buffers -/

theorem sameArray_endUse (s : State) (agent a : Nat) : SameArray s (endUse s agent a) := (onlySlowPath_endUse ..).sameArray

theorem onlySlowPath_dropShare (s : State) (a : Nat) : OnlySlowPath s (dropShare s a) := by
  refine onlySlowPath_intBufOp (fun t => ?_) s framerAgent a 4
  unfold dropShareOf
  exact .ite ((onlySlowPath_setTag ..).trans (onlySlowPath_freeBuf ..)) (onlySlowPath_setTag ..)

theorem sameArray_complete (s : State) (c : CmdRef) (status kind result len : Nat) (detail : List Octet) :
    SameArray s (complete s c status kind result len detail) := by
  unfold complete
  exact .ite (.refl s) ⟨rfl, rfl⟩

theorem sameArray_finish (s : State) (c : CmdRef) (opc status result len : Nat) :
    SameArray s (finish s c opc status result len) := sameArray_complete ..

theorem sameArray_frameDiscard (s : State) (q : Nat) (f : QFrame) (status : Nat) :
    SameArray s (frameDiscard s q f status) := by
  have hdone : SameArray s (txDone s f status 0 f.plen q) := by
    unfold txDone
    split
    · exact sameArray_complete ..
    · exact .refl s
  unfold frameDiscard frameEnd
  refine hdone.trans ?_
  split
  · exact .ite (.ite (onlySlowPath_dropShare ..).sameArray (sameArray_endUse ..)) (.refl _)
  · exact .refl _

theorem sameArray_txAbort (s : State) (p status : Nat) : SameArray s (txAbort s p status) := by
  unfold txAbort
  split
  · exact .refl s
  · refine SameArray.trans ?_ (sameArray_frameDiscard ..)
    exact .ite ⟨rfl, rfl⟩ ⟨rfl, rfl⟩

theorem sameArray_hobDiscard (s : State) (k : Nat) : SameArray s (hobDiscard s k) := by
  have htake : SameArray s (hobCnt (hobTake s k) k 6) := ⟨rfl, rfl⟩
  unfold hobDiscard
  split
  · exact .refl s
  · dsimp only
    split
    · exact htake.trans (sameArray_frameDiscard ..)
    · exact htake.trans (sameArray_endUse ..)

/-! ### The journal -/

theorem sameArray_jnlPut (s : State) (r : JRec) : SameArray s (jnlPut s r) := by
  unfold jnlPut
  exact .ite (.ite ⟨rfl, rfl⟩ ⟨rfl, rfl⟩) (.refl s)

theorem sameArray_devWrite (s : State) (a : Nat) (l : List Octet) : SameArray s (devWrite s a l) := by
  unfold devWrite
  exact .ite ⟨rfl, rfl⟩ ⟨rfl, rfl⟩

theorem sameArray_sealBlock (s : State) (reason : Nat) : SameArray s (sealBlock s reason) := by
  have hnote : ∀ t j, SameArray t (jnlCnt { t with jnl := j } 1 1) := fun _ _ => ⟨rfl, rfl⟩
  unfold sealBlock
  exact .ite (.refl s) ((sameArray_devWrite ..).trans (hnote _ _))

theorem sameArray_jnlDiscard (s : State) : SameArray s (jnlDiscard s) := by
  unfold jnlDiscard
  split
  · exact ⟨rfl, rfl⟩
  · exact .refl s

theorem sameArray_jnlAppend (s : State) (r : List Octet) : SameArray s (jnlAppend s r).2 := by
  have hnote : ∀ t j, SameArray t (jnlCnt { t with jnl := j } 0 1) := fun _ _ => ⟨rfl, rfl⟩
  unfold jnlAppend
  split
  · exact .refl s
  · exact (SameArray.ite (sameArray_jnlDiscard s) (.refl s)).trans ((sameArray_devWrite ..).trans (hnote _ _))

theorem sameArray_latReach (s : State) (x : Lat) (k t : Nat) : SameArray s (latReach s x k t) := by
  rw [latReach, gaitYield_eq]
  exact ⟨rfl, rfl⟩

/-- The latency point that a record's entry is to its task. -/
theorem sameArray_entryReach (s : State) (x : JPend) : SameArray s (match x.lat with
    | some l => latReach s l 6 (tai s)
    | none => s) := by
  cases x.lat with
  | some l => exact sameArray_latReach ..
  | none => exact .refl s

theorem sameArray_journalEntry (s : State) : SameArray s (journalEntry s) := by
  have hcount : ∀ t, SameArray t (jnlCnt t 7 1) := fun _ => ⟨rfl, rfl⟩
  have hseal : ∀ t (x : JPend), SameArray t (if x.bolt then jnlCnt (sealBlock t 3) 7 1
      else if t.jnl.opened.length = 1024 then sealBlock t 1 else t) := fun t _ =>
    .ite ((sameArray_sealBlock ..).trans (hcount _)) (.ite (sameArray_sealBlock ..) (.refl t))
  unfold journalEntry
  split
  · exact .refl s
  case h_2 x _ =>
    have happend := sameArray_jnlAppend s x.octets
    generalize jnlAppend s x.octets = r at happend
    obtain ⟨ok, t⟩ := r
    refine .ite (.refl s) (.ite happend ?_)
    have htaken : SameArray s { t with jnl := { t.jnl with intake := t.jnl.intake.erase x } } := happend.trans ⟨rfl, rfl⟩
    exact htaken.trans ((sameArray_entryReach _ x).trans (hseal _ x))

theorem sameArray_journalDrain (n : Nat) (s : State) : SameArray s (journalDrain n s) := by
  induction n generalizing s with
  | zero => exact .refl s
  | succ n ih => exact (sameArray_journalEntry s).trans (ih _)

theorem sameArray_jnlBolt (s : State) (part : Option Nat) (code : Nat) : SameArray s (jnlBolt s part code) := by
  unfold jnlBolt
  exact .ite (.refl s) ((sameArray_jnlPut ..).trans (sameArray_journalDrain ..))

/-! ### Results on their way -/

theorem sameArray_egressJournal (s : State) (x : Released) (q disp : Nat) (d : List Octet) :
    SameArray s (egressJournal s x q disp d) := by
  unfold egressJournal jnlItemAt
  exact .ite (sameArray_jnlPut ..) (.refl s)

theorem sameArray_pushQueue (s : State) (q : Nat) (f : QFrame) : SameArray s (pushQueue s q f) := ⟨rfl, rfl⟩

theorem sameArray_egressFrame (s : State) (x : Released) (q : Nat) (plan : EditPlan) (d : List Octet) :
    SameArray s (egressFrame s x q plan d) := by
  have hport : ∀ t p k n, SameArray t (portCnt t p k n) := fun _ _ _ _ => ⟨rfl, rfl⟩
  have hbuf : ∀ t p k, SameArray t (bufCnt t p k) := fun _ _ _ => ⟨rfl, rfl⟩
  have hedits : ∀ t a es, SameArray t (writeEdits t a es) := fun t _ es => .foldl (fun _ _ => sameArray_devWrite ..) es t
  have hput : ∀ t a d, SameArray t (egressFrame.putOn x q t a d) := fun t a d =>
    (sameArray_egressJournal t x q 1 d).trans (sameArray_pushQueue ..)
  unfold egressFrame
  dsimp only
  split
  · exact ((sameArray_egressJournal ..).trans (hport ..)).trans (sameArray_endUse ..)
  · exact (hbuf ..).trans (hput ..)
  · exact (hedits ..).trans (hput ..)

theorem sameArray_tlsSeal (s : State) (slot : Nat) (seq : BitVec 64) (m : List Octet) :
    SameArray s (tlsSeal s slot seq m).2 := by
  unfold tlsSeal
  dsimp only
  split <;> exact ⟨rfl, rfl⟩

theorem sameArray_tlsSealAll (s : State) (stix dir slot : Nat) (ms : List (List Octet)) :
    SameArray s (tlsSealAll s stix dir slot ms).2 := by
  have hconn : ∀ t i k, SameArray t (setConn t i k) := fun _ _ _ => ⟨rfl, rfl⟩
  refine SameArray.foldl_pair (fun acc m => ?_) ms ([], s)
  exact (sameArray_tlsSeal acc.2 slot _ m).trans (hconn ..)

theorem sameArray_queueSegments (s : State) (q : Nat) (h : SegHdr) (w : WireSrc) (seq ack : BitVec 32) (mss : Nat)
    (last : Bool) (it : Item) : SameArray s (queueSegments s q h w seq ack mss last it) := by
  unfold queueSegments
  refine SameArray.foldl (fun _ _ => ?_) _ s
  exact ⟨rfl, rfl⟩

theorem sameArray_egressMessage (s : State) (x : Released) : SameArray s (egressMessage s x) := by
  have hseal : ∀ t m a b c d, SameArray t (if x.tls then tlsSealAll t a b c d else (m, t)).2 := fun t m a b c d => by
    split
    · exact sameArray_tlsSealAll ..
    · exact .refl t
  unfold egressMessage
  dsimp only
  refine (sameArray_egressJournal ..).trans (.ite (sameArray_endUse ..) ?_)
  exact (hseal ..).trans (sameArray_queueSegments ..)

theorem sameArray_egressProcess (s : State) : SameArray s (egressProcess s) := by
  unfold egressProcess
  split
  · exact .refl s
  case h_2 x rest _ =>
    have htaken : SameArray s { s with hlt := { s.hlt with egressIn := rest } } := ⟨rfl, rfl⟩
    have hpassed := htaken.trans (onlySlowPath_passBuf _ x.res.buf halterAgent egressAgent).sameArray
    refine .ite (.refl s) (hpassed.trans ?_)
    exact .ite (sameArray_egressMessage ..) (.ite (sameArray_egressFrame ..) (sameArray_egressFrame ..))

/-- A partition in Bolt: its results on their way are queued (16 R341). -/
def boltResults (s : State) (p : Nat) : State :=
  let mine := fun (x : Released) => decide (x.item.part = p)
  let t := { s with hlt := { s.hlt with egressIn := s.hlt.egressIn.filter mine } }
  let t := (s.hlt.egressIn.filter mine).foldl (fun t _ => egressProcess t) t
  { t with hlt := { t.hlt with egressIn := t.hlt.egressIn ++ s.hlt.egressIn.filter (fun x => !mine x) } }

/-- A partition in Bolt: its frames in transmission are ended (16 R341). -/
def boltFrames (s : State) (p : Nat) : State :=
  (s.prt.ports.map (·.1)).foldl (fun t port =>
    match (portSt t port).tx with
    | some x => if queueOwner t x.queue = some p then txAbort t port 0xC4 else t
    | none => t) s

/-- One egress queue is emptied, and each of its results counted (16 R341). -/
def boltQueue (s : State) (q : Nat) : State :=
  (queueOf s q).foldl (fun t f => frameDiscard (if f.resultEnd then farCnt t 7 1 else t) q f 0xC4)
    { s with egr := { s.egr with queues := mdel s.egr.queues q } }

/-- A partition in Bolt: its egress queues are emptied (16 R341). -/
def boltQueues (s : State) (p : Nat) : State :=
  ((s.egr.queues.map (·.1)).filter (fun q => decide (queueOwner s q = some p))).foldl boltQueue s

theorem boltEgress_eq (s : State) (p : Nat) : boltEgress s p = boltQueues (boltFrames (boltResults s p) p) p := rfl

theorem sameArray_boltResults (s : State) (p : Nat) : SameArray s (boltResults s p) := by
  have htake : ∀ l, SameArray s { s with hlt := { s.hlt with egressIn := l } } := fun _ => ⟨rfl, rfl⟩
  have hrun : ∀ (l : List Released) t, SameArray t (l.foldl (fun t _ => egressProcess t) t) :=
    fun l t => .foldl (fun t _ => sameArray_egressProcess t) l t
  exact ((htake _).trans (hrun _ _)).trans ⟨rfl, rfl⟩

theorem sameArray_boltFrames (s : State) (p : Nat) : SameArray s (boltFrames s p) := by
  unfold boltFrames
  refine SameArray.foldl (fun t port => ?_) _ s
  split
  · exact .ite (sameArray_txAbort ..) (.refl t)
  · exact .refl t

theorem sameArray_boltQueue (s : State) (q : Nat) : SameArray s (boltQueue s q) := by
  have htake : SameArray s { s with egr := { s.egr with queues := mdel s.egr.queues q } } := ⟨rfl, rfl⟩
  refine htake.trans (SameArray.foldl (fun t f => ?_) _ _)
  have hcount : SameArray t (if f.resultEnd then farCnt t 7 1 else t) := .ite ⟨rfl, rfl⟩ (.refl t)
  exact hcount.trans (sameArray_frameDiscard ..)

theorem sameArray_boltQueues (s : State) (p : Nat) : SameArray s (boltQueues s p) := by
  unfold boltQueues
  exact .foldl sameArray_boltQueue _ s

theorem sameArray_boltEgress (s : State) (p : Nat) : SameArray s (boltEgress s p) := by
  rw [boltEgress_eq]
  exact ((sameArray_boltResults s p).trans (sameArray_boltFrames ..)).trans (sameArray_boltQueues ..)

/-! ### Commands that wait -/

theorem sameArray_setEff (s : State) (id e : Nat) : SameArray s (setEff s id e) := by
  unfold setEff updTask
  dsimp only
  split <;> exact ⟨rfl, rfl⟩

theorem sameArray_truncated (s : State) (w : LockWho) : SameArray s (truncated s w) := by
  unfold truncated
  split
  · exact ⟨rfl, rfl⟩
  · exact .refl s

theorem sameArray_propagate (n : Nat) (s : State) (id : Nat) : SameArray s (propagate n s id) := by
  have hlock : ∀ t k l, SameArray t (setLock t k l) := fun _ _ _ => ⟨rfl, rfl⟩
  induction n generalizing s id with
  | zero =>
    unfold propagate
    split
    · exact .refl s
    · exact .ite (.refl s) (sameArray_setEff ..)
  | succ n ih =>
    unfold propagate
    split
    · exact .refl s
    case h_2 x _ =>
      have heff := sameArray_setEff s id (effPrio s id x.prio)
      refine .ite (.refl s) (heff.trans ?_)
      generalize setEff s id (effPrio s id x.prio) = t
      dsimp only
      split
      · exact .refl t
      case h_2 k _ _ =>
        have hholder : ∀ t, SameArray t (match (lock t k).holder with
            | .task h => propagate n t h
            | _ => t) := fun t => by
          split
          · exact ih ..
          · exact .refl t
        split
        · exact .refl t
        case h_2 w _ =>
          have hset : ∀ l, SameArray t (setLock (setLock t k ((lock t k).without w.who)) k l) := fun l =>
            (hlock t k _).trans (hlock _ k l)
          exact .ite (hset _) (.ite ((hset _).trans (sameArray_truncated ..)) ((hset _).trans (hholder _)))

theorem sameArray_withdraw (s : State) (k : Nat) (who : LockWho) : SameArray s (withdraw s k who) := by
  have htask : ∀ t id f, SameArray t (updTask t id f) := fun t id f => by
    unfold updTask
    split <;> exact ⟨rfl, rfl⟩
  have hrequest : ∀ t, SameArray t (match who with
      | .task id => updTask t id (fun x => { x with lockPend := none })
      | .host _ => t) := fun t => by
    cases who with
    | task id => exact htask ..
    | host c => exact .refl t
  have hlock : SameArray s (setLock s k ((lock s k).without who)) := ⟨rfl, rfl⟩
  have hholder : ∀ t, SameArray t (match (lock t k).holder with
      | .task h => propagate 8 t h
      | _ => t) := fun t => by
    split
    · exact sameArray_propagate ..
    · exact .refl t
  exact hlock.trans ((hrequest _).trans (hholder _))

theorem sameArray_descBolted (s : State) (p r : Nat) (d : Desc) : SameArray s (descBolted s p r d) := by
  unfold descBolted
  exact .ite (sameArray_complete ..) (sameArray_finish ..)

theorem sameArray_waitingEnd (s : State) (w : Waiting) (status : Nat) : SameArray s (waitingEnd s w status) := by
  unfold waitingEnd
  split <;> exact sameArray_complete ..

/-- One ring of a partition in Bolt: its fetched descriptors complete BOLTED (14 R317). -/
def boltRing (p : Nat) (s : State) (r : Nat) : State :=
  (ringSt s r).fetched.foldl (fun t d => descBolted t p r d) (setRing s r { ringSt s r with fetched := [] })

/-- A partition in Bolt: its commands that wait complete BOLTED (14 R317). -/
def boltWaiting (s : State) (p : Nat) : State :=
  (s.gpl.waiting.filter (fun w => decide (w.cmd.part.toNat = p))).foldl (fun t w => waitingEnd t w 0xC4)
    { s with gpl := { s.gpl with waiting := s.gpl.waiting.filter (fun w => decide (w.cmd.part.toNat ≠ p)) } }

/-- A partition in Bolt: its queued lock requests are withdrawn (14 R317). -/
def boltLocks (s : State) (p : Nat) : State :=
  (hostRequests s p).foldl (fun t kc => finish (withdraw t kc.1 (.host kc.2)) kc.2 0x50 0xC4 0 0) s

/-- A partition in Bolt: its paused copies end (14 R317). -/
def boltCopies (s : State) (p : Nat) : State :=
  (s.gpl.dma.filter (fun d => decide (d.cmd.part.toNat = p) && d.paused.isSome)).foldl
    (fun t d => finish t d.cmd 0x02 0xC4 0 d.moved)
    { s with gpl := { s.gpl with
        dma := s.gpl.dma.filter (fun d => !(decide (d.cmd.part.toNat = p) && d.paused.isSome)) } }

theorem boltHost_eq (s : State) (p : Nat) : boltHost s p = boltCopies (boltLocks (boltWaiting
    (((s.gpl.rings.map (·.1)).filter (fun r => decide (ringOwner s r = some p))).foldl (boltRing p) s) p) p) p := rfl

theorem sameArray_boltRing (p : Nat) (s : State) (r : Nat) : SameArray s (boltRing p s r) := by
  have htake : SameArray s (setRing s r { ringSt s r with fetched := [] }) := ⟨rfl, rfl⟩
  exact htake.trans (.foldl (fun t d => sameArray_descBolted t p r d) _ _)

theorem sameArray_boltWaiting (s : State) (p : Nat) : SameArray s (boltWaiting s p) := by
  have htake : ∀ l, SameArray s { s with gpl := { s.gpl with waiting := l } } := fun _ => ⟨rfl, rfl⟩
  exact (htake _).trans (.foldl (fun t w => sameArray_waitingEnd t w 0xC4) _ _)

theorem sameArray_boltLocks (s : State) (p : Nat) : SameArray s (boltLocks s p) := by
  refine SameArray.foldl (fun t kc => ?_) _ s
  exact (sameArray_withdraw ..).trans (sameArray_finish ..)

theorem sameArray_boltCopies (s : State) (p : Nat) : SameArray s (boltCopies s p) := by
  have htake : ∀ l, SameArray s { s with gpl := { s.gpl with dma := l } } := fun _ => ⟨rfl, rfl⟩
  exact (htake _).trans (.foldl (fun t (d : Dma) => sameArray_finish t d.cmd 0x02 0xC4 0 d.moved) _ _)

theorem sameArray_boltHost (s : State) (p : Nat) : SameArray s (boltHost s p) := by
  have hrings : ∀ l : List Nat, SameArray s (l.foldl (boltRing p) s) := fun l => .foldl (sameArray_boltRing p) l s
  rw [boltHost_eq]
  exact (((hrings _).trans (sameArray_boltWaiting ..)).trans (sameArray_boltLocks ..)).trans (sameArray_boltCopies ..)

theorem sameArray_msixSend (s : State) (p vec : Nat) : SameArray s (msixSend s p vec) := by
  unfold msixSend
  exact .ite (.refl s) (.ite ⟨rfl, rfl⟩ ⟨rfl, rfl⟩)

/-! ### Bolt -/

theorem sameArray_boltParts (s : State) (ps : List Nat) : SameArray s (boltParts s ps) := by
  unfold boltParts boltPorts
  refine SameArray.trans (.foldl (fun t p => ?_) ps s) (.foldl (fun t k => .ite (sameArray_hobDiscard ..) (.refl t)) _ _)
  exact ((sameArray_boltEgress t p).trans (sameArray_boltHost ..)).trans (sameArray_msixSend ..)

theorem sameArray_sendEvent (s : State) (code result : Nat) (detail : List Octet) :
    SameArray s (sendEvent s code result detail) := by
  rw [sendEvent_frame]; exact ⟨rfl, rfl⟩

theorem sameArray_boltTold (s : State) (who code : Nat) (more : List Octet) : SameArray s (boltTold s who code more) :=
  SameArray.trans (u := farCnt s 6 1) ⟨rfl, rfl⟩ (sameArray_sendEvent ..)

theorem sameArray_doubtOnly (s : State) (code res : Nat) : SameArray s (doubtOnly s code res) :=
  SameArray.trans (u := farCnt s 8 1) ⟨rfl, rfl⟩ (sameArray_sendEvent ..)

theorem inBolt_setPbolt {x : PBolt} (hx : x.on = true) (p : Nat) : inBolt (setPbolt s p x) p = true := by
  simp [inBolt, setPbolt, hx]

/-- A doubt source of a partition leaves it in Bolt, whether it was there before or not, and the search array alone
(16 R338, R345). -/
theorem boltPartition_inBolt (s : State) (p code res : Nat) (more : List Octet) :
    inBolt (boltPartition s p code res more) p = true ∧ (boltPartition s p code res more).src = s.src := by
  have honly : ∀ x, SameArray (setPbolt s p x) (doubtOnly (setPbolt s p x) code res) := fun _ => sameArray_doubtOnly ..
  have hentry : ∀ x, SameArray (setPbolt s p x)
      (boltTold (jnlBolt (boltParts (setPbolt s p x) [p]) (some p) code) p code more) := fun _ =>
    ((sameArray_boltParts ..).trans (sameArray_jnlBolt ..)).trans (sameArray_boltTold ..)
  unfold boltPartition
  dsimp only
  split
  case isTrue hon =>
    refine ⟨((honly _).inBolt p).trans (inBolt_setPbolt ?_ p), (honly _).src⟩
    exact hon
  · split
    case isTrue hdev =>
      have hsame := sameArray_doubtOnly s code res
      exact ⟨(hsame.inBolt p).trans (by simp [inBolt, hdev]), hsame.src⟩
    · exact ⟨((hentry _).inBolt p).trans (inBolt_setPbolt rfl p), (hentry _).src⟩

/-- An uncorrectable error of a row deletes its entry, and puts the bank's owner into Bolt (05 R105; 16 Table 16-1). -/
theorem doubt_of_row {b slot q : Nat} {e : SEntry} (hb : b < 64) (hslot : slot < 4096)
    (he : mfind s.src.ents (b * 4096 + slot) = some e) (ho : bankOwner s b = some q) :
    (doubt s 0x03 none (b * 4096 + slot)).src = (deleteEnt s (b * 4096 + slot) e).src ∧
      inBolt (doubt s 0x03 none (b * 4096 + slot)) q = true := by
  have hscope : doubtScope s 0x03 none (b * 4096 + slot) = .parts [q] := by
    rw [doubtScope, show (b * 4096 + slot) / 4096 % 64 = b by omega, ho]; rfl
  have hrepair : doubtRepair s 0x03 (b * 4096 + slot) =
      (beOctets 4 (handleOf s e), deleteEnt s (b * 4096 + slot) e) := by
    rw [doubtRepair, Nat.mod_eq_of_lt (by omega), he]
  have hbolt := boltPartition_inBolt (deleteEnt s (b * 4096 + slot) e) q 0x03 (b * 4096 + slot) (beOctets 4 (handleOf s e))
  rw [doubt, if_neg (by decide), hscope, hrepair]
  exact ⟨hbolt.2, hbolt.1⟩

end Sys2Proof.Machine
end

section
/-! PROOFS. The statement on the search array's own work (05 R94, R104, R105), and the one on search lookups beside it. -/

namespace Sys2Proof.Machine

open Sys2Proof.Claim

theorem searchMaintenance : Claim.searchMaintenance := by
  intro s bank slot e b k
  refine ⟨fun hd => ?notDue, fun hd hrise hw => ?due, exec_searchScrub_clean s bank slot,
    fun he => ⟨?correctable, ?missed, fun q ho => ?uncorrectable⟩⟩
  case notDue => exact congrArg Host.Outcome.next (rebalance_of_not_due hd)
  case due =>
    obtain ⟨up, fresh, hexec⟩ := exec_rebalance_of_due hd hw
    obtain ⟨hvalues, hothers⟩ := bankEnts_bankRebalanced hrise b up
    exact ⟨_, hexec, rebalDue_bankRebalanced s b up, hvalues, hothers, rfl, rfl⟩
  case correctable =>
    refine ⟨_, exec_searchScrub_correctable he, rfl, ?_⟩
    rw [rdDev_wrDev_self]
    exact Nat.mod_eq_of_lt (by omega)
  case missed =>
    obtain ⟨hself, hothers⟩ := mfind_entrySet s k { e with bad := true }
    exact ⟨_, exec_searchScrub_missed he, hself, hothers, rfl, rfl, rfl, rfl, rfl⟩
  case uncorrectable =>
    obtain ⟨hsrc, hbolt⟩ := doubt_of_row bank.isLt slot.isLt he ho
    obtain ⟨hself, hothers⟩ := mfind_deleteEnt s k e
    exact ⟨_, exec_searchScrub_uncorrectable he, by rw [hsrc]; exact hself, by rw [hsrc]; exact hothers, hbolt⟩

/-- Settles O28: the statement on lookups and the one on the array's own work, each clause by clause. -/
theorem searchMachine : Obligations.SearchMachine := ⟨searchLookup, searchMaintenance⟩

end Sys2Proof.Machine
end

section
/-! PROOFS. The slots of the lookup tables (06 R108, R113): where a new entry is placed, and which entry a search of two buckets
finds after a change of one slot. -/

namespace Sys2Proof.Machine

variable {α : Type} {m : Map α} {b1 b2 i n : Nat} {ovf : Option Nat} {hit : α → Bool} {e : α}

/-- A new entry's slot is one of its two buckets'. -/
theorem placeSlot_bucket (h : placeSlot m b1 b2 = some n) : n / 4 = b1 ∨ n / 4 = b2 := by
  unfold placeSlot lowest at h
  obtain ⟨j, hj, rfl⟩ := Option.map_eq_some_iff.mp h
  have hlt : j < 4 := List.mem_range.mp (List.mem_of_find?_eq_some hj)
  split
  · left; omega
  · right; omega

/-- Changing what one key holds changes what that key answers alone. -/
theorem mfind_map_at (f : α → α) (m : Map α) (i j : Nat) :
    mfind (m.map (fun kv => if kv.1 = i then (kv.1, f kv.2) else kv)) j = if j = i then (mfind m i).map f else mfind m j := by
  induction m with
  | nil => simp
  | cons kv m ih =>
    obtain ⟨k, v⟩ := kv
    by_cases hk : k = i
    · subst hk
      by_cases hj : j = k <;> simp [mfind, hj, ih]
    · by_cases hj : j = k
      · subst hj; simp [mfind, hk]
      · by_cases hji : j = i
        · subst hji; simp [mfind, hj, hk, ih]
        · simp [mfind, hj, hk, hji, ih]

theorem findIn_eq_none (h : ∀ j x, (j, x) ∈ m → j / 4 = b1 ∨ j / 4 = b2 → hit x = false) : findIn m b1 b2 none hit = none := by
  refine List.find?_eq_none.mpr fun kv hkv => ?_
  have hmiss := h kv.1 kv.2 hkv
  simpa using hmiss

/-- The one entry of the two buckets that the search fits is found. -/
theorem findIn_of_unique (hi : mfind m i = some e) (hb : i / 4 = b1 ∨ i / 4 = b2) (he : hit e = true)
    (honly : ∀ j x, (j, x) ∈ m → j / 4 = b1 ∨ j / 4 = b2 → hit x = true → j = i) : findIn m b1 b2 none hit = some (i, e) := by
  induction m with
  | nil => cases hi
  | cons kv m ih =>
    obtain ⟨k, x⟩ := kv
    by_cases hk : i = k
    · subst hk
      obtain rfl : x = e := by simpa [mfind] using hi
      simp [findIn, hb, he]
    · have hmiss : ¬ ((k / 4 = b1 ∨ k / 4 = b2) ∧ hit x = true) := fun hx =>
        hk (honly k x List.mem_cons_self hx.1 hx.2).symm
      rw [mfind, if_neg hk] at hi
      rw [findIn, List.find?_cons_of_neg (by simpa using hmiss)]
      exact ih hi fun j y hy => honly j y (List.mem_cons_of_mem _ hy)

/-- An entry that is put where none was found is the one found. -/
theorem findIn_mput (hnone : findIn m b1 b2 ovf hit = none) (hb : n / 4 = b1 ∨ n / 4 = b2) (he : hit e = true) :
    findIn (mput m n e) b1 b2 ovf hit = some (n, e) := by
  have hput : (n, e) ∈ mput m n e := mem_of_mfind (mfind_mput_self m n e)
  have hfits : (findIn (mput m n e) b1 b2 ovf hit).isSome := List.find?_isSome.mpr ⟨_, hput, by simp [hb, he]⟩
  obtain ⟨kv, hkv⟩ := Option.isSome_iff_exists.mp hfits
  rcases mput_mem (List.mem_of_find?_eq_some hkv) with rfl | hold
  · exact hkv
  · exact absurd (List.find?_some hkv) (List.find?_eq_none.mp hnone kv hold)

end Sys2Proof.Machine
end

section
/-! PROOFS. L2 learning (06 R115, R129, Table 06-4): what a learn makes of its address's entry while no learning is reported. -/

namespace Sys2Proof.Machine

variable {s : State} {q : LearnReq} {rest : List LearnReq} {i : Nat} {e : L2Ent}

/-- The L2 table with an entry at slot `i`. -/
def l2Put (s : State) (i : Nat) (e : L2Ent) : State := { s with tbl := { s.tbl with l2 := mput s.tbl.l2 i e } }

/-- The learn queue once its head is taken. -/
def learnTaken (s : State) (rest : List LearnReq) : State := { s with tbl := { s.tbl with learnQ := rest } }

/-- The entry of the address that `q` learns (06 R114). -/
def learnFind (s : State) (q : LearnReq) : Option (Nat × L2Ent) :=
  findIn s.tbl.l2 ((TKey.l2 q.vid q.mac).buckets s q.part).1 ((TKey.l2 q.vid q.mac).buckets s q.part).2 none
    (fun e => decide (e.part = q.part ∧ e.vid = q.vid ∧ e.mac = q.mac))

/-- A new entry as it is learned (06 Table 06-4). -/
def learnEntry (s : State) (q : LearnReq) : L2Ent :=
  { part := q.part, vid := q.vid, mac := q.mac, port := q.port, h := true, a := false, static := false, hd := true,
    ltime := taiUs s }

/-- An entry as a learn on another port leaves it (06 Table 06-4). -/
def learnMoved (s : State) (q : LearnReq) (e : L2Ent) : L2Ent :=
  { e with port := q.port, h := true, a := false, hd := true, ltime := taiUs s }

theorem l2Report_of_off (h : flag s 0x50004 18 = false) (p kind port oldPort index mac vid : Nat) :
    l2Report s p kind port oldPort index mac vid = s := by
  rw [l2Report, if_neg (by simp [h])]

theorem exec_learn_of_served (hq : s.tbl.learnQ = q :: rest) (hr : inReset s q.part = false) (hen : flag s 0x50004 0 = true) :
    exec .learn s = .next (learnNow (learnTaken s rest) q) := by
  have hserved : (inReset (learnTaken s rest) q.part || !flag (learnTaken s rest) 0x50004 0) = false := by
    change (inReset s q.part || !flag s 0x50004 0) = false
    simp [hr, hen]
  have hone : learnOne s = learnNow (learnTaken s rest) q := by
    rw [learnOne, hq]
    exact if_neg (by rw [Bool.not_eq_true]; exact hserved)
  exact congrArg Host.Outcome.next hone

theorem learnNow_of_new (hoff : flag s 0x50004 18 = false) (hfind : learnFind s q = none)
    (hquota : overQuota s q.part (.l2 q.vid q.mac) = false)
    (hslot : placeSlot s.tbl.l2 ((TKey.l2 q.vid q.mac).buckets s q.part).1 ((TKey.l2 q.vid q.mac).buckets s q.part).2 = some i) :
    learnNow s q = tblCnt (l2Put s i (learnEntry s q)) q.part 3 := by
  unfold learnFind at hfind
  simp only [learnNow, hfind, hquota, hslot, Bool.false_eq_true, if_false]
  exact l2Report_of_off (s := tblCnt (l2Put s i (learnEntry s q)) q.part 3) hoff ..

theorem learnNow_of_same_port (hfind : learnFind s q = some (i, e)) (hport : e.port = q.port) :
    learnNow s q = l2Put s i { e with h := true } := by
  unfold learnFind at hfind
  simp only [learnNow, hfind, hport, if_true]
  rfl

theorem learnNow_of_static (hoff : flag s 0x50004 18 = false) (hfind : learnFind s q = some (i, e)) (hport : e.port ≠ q.port)
    (hstatic : e.static = true) : learnNow s q = tblCnt s q.part 5 := by
  unfold learnFind at hfind
  simp only [learnNow, hfind, hport, hstatic, if_false, Bool.true_or, if_true]
  exact l2Report_of_off (s := tblCnt s q.part 5) hoff ..

theorem learnNow_of_moved (hoff : flag s 0x50004 18 = false) (hfind : learnFind s q = some (i, e)) (hport : e.port ≠ q.port)
    (hstatic : e.static = false) (hhd : e.hd = false) :
    learnNow s q = tblCnt (l2Put s i (learnMoved s q e)) q.part 4 := by
  have hfree : (e.static || e.hd && !holdOver s e) = false := by simp [hstatic, hhd]
  unfold learnFind at hfind
  simp only [learnNow, hfind, hport, hfree, Bool.false_eq_true, if_false]
  exact l2Report_of_off (s := tblCnt (l2Put s i (learnMoved s q e)) q.part 4) hoff ..

end Sys2Proof.Machine
end

section
/-! PROOFS. The L2 sweeper (06 R128): when a visit does anything, and what it does to the one entry of its bucket. -/

namespace Sys2Proof.Machine

variable {s : State} {i b due : Nat} {e : L2Ent}

/-- The L2 table without the entry at slot `i`. -/
def l2Del (s : State) (i : Nat) : State := { s with tbl := { s.tbl with l2 := mdel s.tbl.l2 i } }

theorem exec_sweeperVisit_of_not_due (hb : b < 2 ^ 32) (h : b ≠ (sweepNext s true).1 ∨ s.now < (sweepNext s true).2) :
    exec (.sweeperVisit true (BitVec.ofNat 32 b)) s = .next s := by
  have hbits : (BitVec.ofNat 32 b).toNat = b := Nat.mod_eq_of_lt hb
  have hskip : sweepTime s true = 0 ∨ s.now < (sweepNext s true).2 ∨ b ≠ sweepNumber s true (sweepNext s true).1 := by
    have hnumber : sweepNumber s true (sweepNext s true).1 = (sweepNext s true).1 := if_pos (.inl rfl)
    rw [hnumber]
    exact .inr h.symm
  have hvisit : sweeperVisit s true b = s := if_pos hskip
  refine congrArg Host.Outcome.next ?_
  rw [hbits, hvisit]

/-- A visit in its turn comes to each of the bucket's four slots. -/
theorem exec_sweeperVisit_of_due (hsweep : fld s 0x50004 17 6 ≠ 0) (hb : b < 2 ^ 32) (hnext : sweepNext s true = (b, due))
    (hdue : due ≤ s.now) :
    exec (.sweeperVisit true (BitVec.ofNat 32 b)) s =
      .next (((List.range 4).map (4 * b + ·)).foldl sweepL2 (sweepOn s true)) := by
  have hbits : (BitVec.ofNat 32 b).toNat = b := Nat.mod_eq_of_lt hb
  have htime : sweepTime s true ≠ 0 := by
    have : sweepTime s true = 1000000000 * min 3600 (fld s 0x50004 17 6) := rfl
    omega
  have hrun : ¬ (sweepTime s true = 0 ∨ s.now < due ∨ b ≠ sweepNumber s true b) := by
    have hnumber : sweepNumber s true b = b := if_pos (.inl rfl)
    rw [hnumber]
    simp [htime, hdue]
  have hvisit : sweeperVisit s true b = ((List.range 4).map (4 * b + ·)).foldl sweepL2 (sweepOn s true) := by
    rw [sweeperVisit, hnext, List.foldl_map]
    exact if_neg hrun
  refine congrArg Host.Outcome.next ?_
  rw [hbits, hvisit]

theorem foldl_sweepL2_of_none {l : List Nat} (h : ∀ k ∈ l, mfind s.tbl.l2 k = none) : l.foldl sweepL2 s = s := by
  induction l with
  | nil => rfl
  | cons k l ih =>
    obtain ⟨hk, hl⟩ := List.forall_mem_cons.mp h
    have hstay : sweepL2 s k = s := by rw [sweepL2, hk]
    rw [List.foldl_cons, hstay, ih hl]

/-- A visit to a bucket of one entry is a visit to that entry, when it changes no other. -/
theorem foldl_sweepL2_of_one (hb : i / 4 = b) (hnone : ∀ j, j / 4 = b → j ≠ i → mfind s.tbl.l2 j = none)
    (hkept : ∀ j, j ≠ i → mfind (sweepL2 s i).tbl.l2 j = mfind s.tbl.l2 j) :
    ((List.range 4).map (4 * b + ·)).foldl sweepL2 s = sweepL2 s i := by
  have hbucket : ∀ k ∈ (List.range 4).map (4 * b + ·), k / 4 = b := by
    intro k hk
    obtain ⟨j, hj, rfl⟩ := List.mem_map.mp hk
    have := List.mem_range.mp hj
    omega
  have hmem : i ∈ (List.range 4).map (4 * b + ·) :=
    List.mem_map.mpr ⟨i % 4, List.mem_range.mpr (Nat.mod_lt _ (by omega)), by omega⟩
  have hnodup : ((List.range 4).map (4 * b + ·)).Nodup := List.nodup_range.map fun x y h => Nat.add_left_cancel h
  obtain ⟨pre, post, hsplit⟩ := List.append_of_mem hmem
  rw [hsplit] at hnodup hbucket ⊢
  obtain ⟨-, hpost, hpre⟩ := List.nodup_append.mp hnodup
  have hbefore : pre.foldl sweepL2 s = s := foldl_sweepL2_of_none fun k hk =>
    hnone k (hbucket k (by simp [hk])) (hpre k hk i (by simp))
  have hafter : post.foldl sweepL2 (sweepL2 s i) = sweepL2 s i := foldl_sweepL2_of_none fun k hk => by
    have hk' : k ≠ i := fun h => (List.nodup_cons.mp hpost).1 (h ▸ hk)
    rw [hkept k hk']
    exact hnone k (hbucket k (by simp [hk])) hk'
  rw [List.foldl_append, hbefore, List.foldl_cons, hafter]

theorem sweepL2_of_hit (hi : mfind s.tbl.l2 i = some e) (hhd : e.hd = false) (hstatic : e.static = false) (hh : e.h = true) :
    sweepL2 s i = l2Put s i { e with h := false, a := false } := by
  simp only [sweepL2, hi, hhd, hstatic, hh, Bool.false_and, Bool.false_eq_true, if_false, if_true]
  rfl

theorem sweepL2_of_young (hi : mfind s.tbl.l2 i = some e) (hhd : e.hd = false) (hstatic : e.static = false) (hh : e.h = false)
    (ha : e.a = false) : sweepL2 s i = l2Put s i { e with a := true } := by
  simp only [sweepL2, hi, hhd, hstatic, hh, ha, Bool.false_and, Bool.false_eq_true, Bool.not_false, if_false, if_true]
  rfl

theorem sweepL2_of_aged (hoff : flag s 0x50004 18 = false) (hi : mfind s.tbl.l2 i = some e) (hhd : e.hd = false)
    (hstatic : e.static = false) (hh : e.h = false) (ha : e.a = true) : sweepL2 s i = l2Del s i := by
  simp only [sweepL2, hi, hhd, hstatic, hh, ha, Bool.false_and, Bool.false_eq_true, Bool.not_true, if_false]
  exact l2Report_of_off (s := l2Del s i) hoff ..

end Sys2Proof.Machine
end

section
/-! PROOFS. The statement on L2 learning and ageing (06 R115, R128, R129, Table 06-4), clause by clause. -/

namespace Sys2Proof.Machine

variable {s : State} {q : LearnReq} {rest : List LearnReq} {i b due : Nat} {e : L2Ent}

theorem learnFind_eq_none
    (h : ∀ j x, (j, x) ∈ s.tbl.l2 →
      j / 4 = ((TKey.l2 q.vid q.mac).buckets s q.part).1 ∨ j / 4 = ((TKey.l2 q.vid q.mac).buckets s q.part).2 →
      ¬ (x.part = q.part ∧ x.vid = q.vid ∧ x.mac = q.mac)) : learnFind s q = none :=
  findIn_eq_none fun j x hx hb => decide_eq_false (h j x hx hb)

theorem learnFind_of_unique (hi : mfind s.tbl.l2 i = some e)
    (hb : i / 4 = ((TKey.l2 q.vid q.mac).buckets s q.part).1 ∨ i / 4 = ((TKey.l2 q.vid q.mac).buckets s q.part).2)
    (he : e.part = q.part ∧ e.vid = q.vid ∧ e.mac = q.mac)
    (honly : ∀ j x, (j, x) ∈ s.tbl.l2 →
      j / 4 = ((TKey.l2 q.vid q.mac).buckets s q.part).1 ∨ j / 4 = ((TKey.l2 q.vid q.mac).buckets s q.part).2 →
      x.part = q.part ∧ x.vid = q.vid ∧ x.mac = q.mac → j = i) : learnFind s q = some (i, e) :=
  findIn_of_unique hi hb (decide_eq_true he) fun j x hx hjb hx' => honly j x hx hjb (of_decide_eq_true hx')

theorem exec_sweeperVisit_of_one {t : State} (hsweep : fld s 0x50004 17 6 ≠ 0) (hb : b < 2 ^ 32)
    (hnext : sweepNext s true = (b, due)) (hdue : due ≤ s.now) (hi : i / 4 = b)
    (hnone : ∀ j, j / 4 = b → j ≠ i → mfind s.tbl.l2 j = none) (ht : sweepL2 (sweepOn s true) i = t)
    (hkept : ∀ j, j ≠ i → mfind t.tbl.l2 j = mfind s.tbl.l2 j) :
    exec (.sweeperVisit true (BitVec.ofNat 32 b)) s = .next t := by
  subst ht
  rw [exec_sweeperVisit_of_due hsweep hb hnext hdue, foldl_sweepL2_of_one (s := sweepOn s true) hi hnone hkept]

theorem learnAndAge : Claim.learnAndAge := by
  intro s q rest i b e k mine inBuckets hoff
  refine ⟨fun hq hr hen => ⟨fun hnew hquota hslot => ?learnNew, fun hi hbucket hmine honly => ⟨fun hport => ?samePort,
    fun hport hstatic => ?static, fun hport hstatic hhd => ?moved⟩⟩, fun hb h => exec_sweeperVisit_of_not_due hb h,
    fun hsweep hb due hnext hdue hhd hstatic hnone hi hbucket => ?sweep⟩
  case learnNew =>
    have hlearn := learnNow_of_new (s := learnTaken s rest) hoff (learnFind_eq_none (s := learnTaken s rest) hnew) hquota hslot
    refine ⟨_, (exec_learn_of_served hq hr hen).trans (congrArg _ hlearn), rfl, rfl, fun j hj => mfind_mput_ne hj, ?_⟩
    exact mfind_mput_self ..
  case samePort =>
    have hlearn := learnNow_of_same_port (learnFind_of_unique (s := learnTaken s rest) hi hbucket hmine honly) hport
    exact ⟨_, (exec_learn_of_served hq hr hen).trans (congrArg _ hlearn), rfl, mfind_mput_self ..,
      fun j hj => mfind_mput_ne hj, rfl⟩
  case static =>
    have hlearn := learnNow_of_static (s := learnTaken s rest) hoff
      (learnFind_of_unique (s := learnTaken s rest) hi hbucket hmine honly) hport hstatic
    exact ⟨_, (exec_learn_of_served hq hr hen).trans (congrArg _ hlearn), rfl⟩
  case moved =>
    have hlearn := learnNow_of_moved (s := learnTaken s rest) hoff
      (learnFind_of_unique (s := learnTaken s rest) hi hbucket hmine honly) hport hstatic hhd
    exact ⟨_, (exec_learn_of_served hq hr hen).trans (congrArg _ hlearn), fun j hj => mfind_mput_ne hj, mfind_mput_self ..⟩
  case sweep =>
    have hi' : mfind (sweepOn s true).tbl.l2 i = some e := hi
    refine ⟨fun hh => ?hit, fun hh ha => ?young, fun hh ha => ?aged⟩
    case hit =>
      have hkept := fun j (hj : j ≠ i) => mfind_mput_ne (m := s.tbl.l2) (v := { e with h := false, a := false }) hj
      exact ⟨_, exec_sweeperVisit_of_one hsweep hb hnext hdue hbucket hnone (sweepL2_of_hit hi' hhd hstatic hh) hkept,
        mfind_mput_self .., hkept⟩
    case young =>
      have hkept := fun j (hj : j ≠ i) => mfind_mput_ne (m := s.tbl.l2) (v := { e with a := true }) hj
      exact ⟨_, exec_sweeperVisit_of_one hsweep hb hnext hdue hbucket hnone (sweepL2_of_young hi' hhd hstatic hh ha) hkept,
        mfind_mput_self .., hkept⟩
    case aged =>
      have hkept := fun j (hj : j ≠ i) => mfind_mdel_ne (m := s.tbl.l2) hj
      exact ⟨_, exec_sweeperVisit_of_one hsweep hb hnext hdue hbucket hnone
        (sweepL2_of_aged (s := sweepOn s true) hoff hi' hhd hstatic hh ha) hkept, mfind_mdel_self .., hkept⟩

end Sys2Proof.Machine
end

section
/-! PROOFS. Request and result blocks of a table command (06 Tables 06-6 and 06-7): the fields that a command on a flow key reads,
and what it answers. -/

namespace Sys2Proof.Machine

variable {blk : List Octet} {op st n off : Nat}

/-- A request block with the operation `op` (06 Table 06-6). -/
def withOp (blk : List Octet) (op : Nat) : List Octet := beOctets 1 op ++ blk.drop 1

theorem oct_withOp_zero (h : op < 256) : oct (withOp blk op) 0 = op := by
  simp [oct, withOp, beOctets, Nat.mod_eq_of_lt h]

theorem oct_withOp_succ (blk : List Octet) (op n : Nat) : oct (withOp blk op) (n + 1) = oct blk (n + 1) := by
  simp [oct, withOp, beOctets]

theorem octs_withOp (blk : List Octet) (op off n : Nat) : octs (withOp blk op) (off + 1) n = octs blk (off + 1) n := by
  simp [octs, withOp, beOctets]

/-- A block that holds the operation already is the block with it. -/
theorem withOp_self (h : oct blk 0 = op) (hlen : blk.length = 64) : withOp blk op = blk := by
  cases blk with
  | nil => cases hlen
  | cons o l =>
    subst h
    simp [withOp, beOctets, oct]

@[simp] theorem length_resultBlock (blk : List Octet) (st : Nat) (v : Option TView) (found : Bool) (len : Nat)
    (old : List Octet) : (resultBlock blk st v found len old).length = 64 := by
  simp [resultBlock]

theorem oct_resultBlock_zero (h : st < 256) (blk : List Octet) (v : Option TView) (found : Bool) (len : Nat)
    (old : List Octet) : oct (resultBlock blk st v found len old) 0 = st := by
  simp [resultBlock, oct, beOctets, Nat.mod_eq_of_lt h]

/-- The entry's data end a result block (06 Table 06-7). -/
theorem drop_resultBlock (blk : List Octet) (st : Nat) (v : Option TView) (found : Bool) (len : Nat) (old : List Octet) :
    (resultBlock blk st v found len old).drop 44 = fit 20 old := by
  unfold resultBlock
  exact List.drop_left' (by simp)

end Sys2Proof.Machine
end

section
/-! PROOFS. Operations on a flow key (06 R126, Table 06-8): one equation for each operation and each thing it finds. -/

namespace Sys2Proof.Machine

variable {s t : State} {p agent n i : Nat} {blk : List Octet} {k : TKey} {v : TView} {e : FlowEnt}

/-- The flow entry that an insertion creates (06 Table 06-8). -/
def flowEntry (p : Nat) (key data : List Octet) : FlowEnt :=
  { key := fit 40 key, part := p, data := fit 20 data, h := true, a := false, static := false }

/-- The flow table with an entry at slot `n`. -/
def flowPut (s : State) (n : Nat) (e : FlowEnt) : State := { s with tbl := { s.tbl with flow := mput s.tbl.flow n e } }

/-- Only the tables and counters differ. -/
def OnlyTables (s u : State) : Prop := u = { s with tbl := u.tbl, regs := { s.regs with cnt := u.regs.cnt } }

theorem OnlyTables.trans {u : State} (h1 : OnlyTables s t) (h2 : OnlyTables t u) : OnlyTables s u := by
  unfold OnlyTables at *
  rw [h2, h1]

theorem onlyTables_tblCnt (s : State) (p k : Nat) : OnlyTables s (tblCnt s p k) := rfl

theorem onlyTables_flowPut (s : State) (n : Nat) (e : FlowEnt) : OnlyTables s (flowPut s n e) := rfl

theorem onlyTables_tUpdate (s : State) (loc : TLoc) (data : List Octet) (static : Bool) :
    OnlyTables s (tUpdate s loc data static) := rfl

theorem onlyTables_tRemove (s : State) (loc : TLoc) : OnlyTables s (tRemove s loc) := rfl

@[simp] theorem tblCnt_tbl (s : State) (p k : Nat) : (tblCnt s p k).tbl = s.tbl := rfl

@[simp] theorem tblPoison_tblCnt (s : State) (q j p : Nat) (k : TKey) : tblPoison (tblCnt s q j) p k = tblPoison s p k := rfl

@[simp] theorem tFind_tblCnt (s : State) (q j p : Nat) (k : TKey) : tFind (tblCnt s q j) p k = tFind s p k := rfl

/-- A command that names one of the six operations on the enabled flow table comes to the operation. -/
theorem tblCommand_flow (hop : 1 ≤ oct blk 0 ∧ oct blk 0 ≤ 6) (htable : oct blk 1 = 0) (hen : flag s 0x50000 0 = true) :
    tblCommand s p agent blk =
      if oct blk 0 = 4 then tblLookup (tblCnt s p 0) p blk (.flow (octs blk 4 40))
      else tblChange (tblCnt s p 0) p blk (.flow (octs blk 4 40)) := by
  have hknown : ¬ (oct blk 0 = 0 ∨ 6 < oct blk 0) := by omega
  have htableOk : tableOk (tblCnt s p 0) p agent (oct blk 1) = (true, tblCnt s p 0) := by
    rw [htable]
    exact Prod.ext hen rfl
  have hkey : blockKey (tblCnt s p 0) blk = .inl (.flow (octs blk 4 40)) := by simp only [blockKey, htable]
  rw [tblCommand, if_neg hknown]
  simp only [htableOk, hkey, Bool.not_true, Bool.false_eq_true, if_false]

/-! ### LOOKUP -/

theorem tblLookup_of_none (hfl : oct blk 3 = 0) (hp : tblPoison s p k = false) (hf : tFind s p k = none) :
    tblLookup s p blk k = (resultBlock blk 0x50 none false 0 [], tblCnt s p 1) := by
  have hseek : tblSeek (tblCnt s p 1) p false k = .miss := by
    simp [tblSeek, hp, hf]
  have hbit : bitOf (oct blk 3) 1 = false := by rw [hfl]; rfl
  simp only [tblLookup, hbit, hseek]

theorem tblLookup_of_some (hfl : oct blk 3 = 0) (hp : tblPoison s p k = false) (hf : tFind s p k = some v) :
    tblLookup s p blk k = (resultBlock blk 0 (some v) true k.len v.data, tblCnt (tblCnt s p 1) p 2) := by
  have hseek : tblSeek (tblCnt s p 1) p false k = .hit v k.len := by
    simp [tblSeek, hp, hf]
  have hbit : ∀ j, bitOf (oct blk 3) j = false := fun j => by rw [hfl]; simp [bitOf]
  simp only [tblLookup, hbit, hseek, Bool.false_eq_true, if_false]

/-! ### Changes of an absent key -/

theorem tblChange_of_none (hp : tblPoison s p k = false) (hf : tFind s p k = none) (hop : ¬ (oct blk 0 = 1 ∨ oct blk 0 = 5)) :
    tblChange s p blk k = (resultBlock blk 0x50 none false 0 [], s) := by
  simp only [tblChange, hp, hf, hop, Bool.false_eq_true, if_false]

theorem tblChange_insert {key : List Octet} (hfl : oct blk 3 = 0) (hp : tblPoison s p (.flow key) = false)
    (hf : tFind s p (.flow key) = none) (hop : oct blk 0 = 1 ∨ oct blk 0 = 5) (hquota : overQuota s p (.flow key) = false)
    (hslot : placeSlot s.tbl.flow ((TKey.flow key).buckets s p).1 ((TKey.flow key).buckets s p).2 = some n) :
    ∃ w, tblChange s p blk (.flow key) =
      (resultBlock blk 0 (some w) false 0 [], flowPut s n (flowEntry p key (octs blk 44 20))) := by
  have hbit : bitOf (oct blk 3) 2 = false := by rw [hfl]; rfl
  simp only [tblChange, hp, hf, hop, hbit, tInsert, hquota, hslot, blockData, Bool.false_eq_true, if_false, if_true]
  exact ⟨_, rfl⟩

/-- The entry that a flow key matches, with its slot (06 R111). -/
def flowFind (s : State) (p : Nat) (key : List Octet) : Option (Nat × FlowEnt) :=
  findIn s.tbl.flow ((TKey.flow key).buckets s p).1 ((TKey.flow key).buckets s p).2 (some ovfBase)
    (fun e => decide (e.part = p ∧ e.key = fit 40 key))

/-- A flow entry as a table command sees it. -/
def flowView (ie : Nat × FlowEnt) : TView :=
  { loc := .flow ie.1, index := ie.1, data := ie.2.data, ovf := decide (ovfBase ≤ ie.1), static := ie.2.static }

theorem tFind_flow (s : State) (p : Nat) (key : List Octet) : tFind s p (.flow key) = (flowFind s p key).map flowView := rfl

/-- The entry that was put in one of its key's buckets is what the key finds then. -/
theorem tFind_flowPut {key data : List Octet} (hf : tFind s p (.flow key) = none)
    (hslot : placeSlot s.tbl.flow ((TKey.flow key).buckets s p).1 ((TKey.flow key).buckets s p).2 = some n)
    (hflow : t.tbl.flow = mput s.tbl.flow n (flowEntry p key data)) (hdev : t.regs.dev = s.regs.dev) :
    ∃ w, tFind t p (.flow key) = some w ∧ w.data = fit 20 data ∧ w.index = n := by
  have hbuckets : (TKey.flow key).buckets t p = (TKey.flow key).buckets s p := by
    simp only [TKey.buckets, flowNB, fld, rdDev, hdev]
  have hnone : flowFind s p key = none := Option.map_eq_none_iff.mp hf
  have hfound : flowFind t p key = some (n, flowEntry p key data) := by
    rw [flowFind, hbuckets, hflow]
    exact findIn_mput hnone (placeSlot_bucket hslot) (by simp [flowEntry])
  exact ⟨flowView (n, flowEntry p key data), by rw [tFind_flow, hfound]; rfl, rfl, rfl⟩

/-! ### Changes of a present key -/

theorem tblChange_insert_of_some (hp : tblPoison s p k = false) (hf : tFind s p k = some v) (hop : oct blk 0 = 1) :
    tblChange s p blk k = (resultBlock blk 0x51 (some v) true k.len v.data, s) := by
  simp only [tblChange, hp, hf, hop, Bool.false_eq_true, if_false]

theorem tblChange_delete_of_some (hp : tblPoison s p k = false) (hf : tFind s p k = some v) (hop : oct blk 0 = 3) :
    tblChange s p blk k = (resultBlock blk 0 (some v) true k.len v.data, tRemove s v.loc) := by
  simp only [tblChange, hp, hf, hop, Bool.false_eq_true, if_false]

theorem tblChange_deleteIfData_of_some (hp : tblPoison s p k = false) (hf : tFind s p k = some v) (hop : oct blk 0 = 6) :
    tblChange s p blk k =
      if v.data = blockData blk k then (resultBlock blk 0 (some v) true k.len v.data, tRemove s v.loc)
      else (resultBlock blk 0x54 (some v) true k.len v.data, s) := by
  simp only [tblChange, hp, hf, hop, Bool.false_eq_true, if_false]

theorem tblChange_update_of_some {key : List Octet} (hfl : oct blk 3 = 0) (hp : tblPoison s p (.flow key) = false)
    (hf : tFind s p (.flow key) = some v) (hop : oct blk 0 = 2 ∨ oct blk 0 = 5) :
    ∃ w, tblChange s p blk (.flow key) =
      (resultBlock blk 0 (some w) true 0 v.data, tUpdate s v.loc (octs blk 44 20) false) := by
  have hbit : bitOf (oct blk 3) 2 = false := by rw [hfl]; rfl
  refine ⟨{ v with static := false }, ?_⟩
  rcases hop with hop | hop <;>
    simp only [tblChange, hp, hf, hop, hbit, Bool.false_eq_true, if_false] <;> rfl

/-- An update of a flow entry replaces its data and STATIC, sets H and clears A (06 Table 06-8). -/
theorem mfind_tUpdate_flow (s : State) (i j : Nat) (data : List Octet) :
    mfind (tUpdate s (.flow i) data false).tbl.flow j =
      if j = i then (mfind s.tbl.flow i).map (fun e => { e with data := fit 20 data, static := false, h := true, a := false })
      else mfind s.tbl.flow j :=
  mfind_map_at (fun e : FlowEnt => { e with data := fit 20 data, static := false, h := true, a := false }) s.tbl.flow i j

end Sys2Proof.Machine
end

section
/-! PROOFS. A table command of a host (06 R125; 14 R306): it runs on the block in host memory, writes its result block there and
completes. -/

namespace Sys2Proof.Machine

open Sys2Proof.Claim

variable {s t u : State} {c : CmdRef} {addr : BitVec 64} {op st : Nat} {r : List Octet}

/-- The request block of a host's table command. -/
def requestBlock (s : State) (c : CmdRef) (addr : BitVec 64) : List Octet := hostRead s c.part.toNat addr.toNat 64

/-- The state after operation `op` of a host on the block at `addr`. -/
def tableRun (s : State) (c : CmdRef) (addr : BitVec 64) (op : Nat) : State := tblRequest s (.host c) op addr.toNat

/-- A table command of `c` on the block at `addr` has completed between `s` and `u`, with result block `r`; the tables of `t` are
those it left. -/
structure TableDone (s u t : State) (c : CmdRef) (addr : BitVec 64) (r : List Octet) : Prop where
  completed : Completed s u c 0x01 (oct r 0) 0 64
  onlyHost : OnlyHost s u
  put : HostPut s u c.part.toNat addr.toNat r
  tables : u.tbl = t.tbl
  setup : u.regs.dev = s.regs.dev

theorem tableDone_of_tblCommand (ha : Accepted s c 0x01) (hh : hasHost s c.part.toNat = true)
    (hrun : tblCommand s c.part.toNat (hostAgent c.part.toNat) (withOp (requestBlock s c addr) op) = (r, t))
    (honly : OnlyTables s t) (hlen : r.length = 64) :
    TableDone s (tableRun s c addr op) t c addr r := by
  have hrequest : tableRun s c addr op =
      finish (hostWrite t c.part.toNat addr.toNat r) c 0x01 (oct r 0) 0 64 := by
    refine (hostCmd_of_accepted ha fun s => tblExec s c addr.toNat (some op)).trans ?_
    unfold withOp requestBlock at hrun
    simp only [tblExec, hrun]
  have hframe := hostWrite_frame t c.part.toNat addr.toNat r
  have hreset : inReset t c.part.toNat = false := by rw [honly]; exact ha.1
  have hhost : hasHost t c.part.toNat = true := by rw [honly]; exact hh
  have hreset' : inReset (hostWrite t c.part.toNat addr.toNat r) c.part.toNat = false := by rw [hframe]; exact hreset
  have hmem : t.mem = s.mem := by rw [honly]
  have hput := hostPut_hostWrite (l := r) hreset hhost addr.isLt (by rw [hlen]; norm_num)
  rw [hrequest]
  refine ⟨completed_of_rings (completed_finish hreset') (by rw [hframe, honly]) (by rw [hframe, honly]), ?_,
    fun q b hb => ?_, ?_, ?_⟩
  · rw [OnlyHost, finish_mem, hframe, ← hmem]
  · have hold : hostOctet s q b = hostOctet t q b := by rw [hostOctet, hostOctet, hmem]
    rw [hold, ← hput q b hb, hostOctet, hostOctet, finish_mem]
  · rw [finish_frame, hframe]
  · rw [finish_frame, hframe, honly]

/-- What the result block of a completed command says in its octet 0 is its completion status (06 Table 06-7). -/
theorem TableDone.answer {blk : List Octet} {v : Option TView} {found : Bool} {len : Nat} {old : List Octet}
    (h : TableDone s u t c addr (resultBlock blk st v found len old)) (hst : st < 256) :
    Completed s u c 0x01 st 0 64 ∧ OnlyHost s u ∧ hostOctet u c.part.toNat addr.toNat = BitVec.ofNat 8 st := by
  have hstatus := oct_resultBlock_zero hst blk v found len old
  refine ⟨hstatus ▸ h.completed, h.onlyHost, ?_⟩
  have hput := h.put c.part.toNat addr.toNat addr.isLt
  have hfirst : (addr.toNat + 2 ^ 64 - addr.toNat) % 2 ^ 64 = 0 := by simp
  rw [hfirst, if_pos ⟨rfl, by simp⟩] at hput
  rw [hput]
  apply BitVec.eq_of_toNat_eq
  rw [BitVec.toNat_ofNat, Nat.mod_eq_of_lt hst]
  exact hstatus

/-- The data of the entry stand at the end of the result block in host memory. -/
theorem TableDone.data {blk : List Octet} {v : Option TView} {found : Bool} {len : Nat} {old : List Octet}
    (h : TableDone s u t c addr (resultBlock blk st v found len old)) (hold : old.length = 20) :
    (List.range 20).map (fun n => hostOctet u c.part.toNat (addr.toNat + 44 + n)) = old := by
  have hfit : fit 20 old = old := by rw [fit, octs_eq_of_le (by omega)]; simp [← hold]
  have hoctet : ∀ n, n < 20 → hostOctet u c.part.toNat (addr.toNat + 44 + n) = old.getD n 0 := by
    intro n hn
    have hput := h.put c.part.toNat ((addr.toNat + 44 + n) % 2 ^ 64) (Nat.mod_lt _ (by norm_num))
    have haddr := addr.isLt
    have hplace : ((addr.toNat + 44 + n) % 2 ^ 64 + 2 ^ 64 - addr.toNat) % 2 ^ 64 = 44 + n := by omega
    rw [hplace, if_pos ⟨rfl, by rw [length_resultBlock]; omega⟩] at hput
    have hsame : hostOctet u c.part.toNat (addr.toNat + 44 + n) =
        hostOctet u c.part.toNat ((addr.toNat + 44 + n) % 2 ^ 64) := by
      rw [hostOctet, hostOctet, Nat.mod_mod]
    have hdata := congrArg (·.getD n 0) (drop_resultBlock blk st v found len old)
    rw [hsame, hput]
    simpa [hfit] using hdata
  apply List.ext_getElem
  · simp [hold]
  · intro n hn hn'
    have hn20 : n < 20 := by simpa using hn
    simp [hoctet n hn20, hn']

end Sys2Proof.Machine
end

section
/-! PROOFS. The statement on table commands (06 R111, R125-R127, Tables 06-7 and 06-8), clause by clause. -/

namespace Sys2Proof.Machine

open Sys2Proof.Claim

variable {s t : State} {c : CmdRef} {addr : BitVec 64} {op n i : Nat} {r : List Octet} {v : TView} {e : FlowEnt}

/-- The flow key of a request block (06 Table 06-6). -/
def requestKey (s : State) (c : CmdRef) (addr : BitVec 64) : List Octet := ((requestBlock s c addr).drop 4).take 40

/-- The data of a request block. -/
def requestData (s : State) (c : CmdRef) (addr : BitVec 64) : List Octet := (requestBlock s c addr).drop 44

/-- A command that is carried out on a block in host memory, which names the enabled flow table and no flag; its key's buckets can be
read. -/
structure FlowRequest (s : State) (c : CmdRef) (addr : BitVec 64) : Prop where
  accepted : Accepted s c 0x01
  hosted : hasHost s c.part.toNat = true
  enabled : flag s 0x50000 0 = true
  sound : tblPoison s c.part.toNat (.flow (requestKey s c addr)) = false
  table : oct (requestBlock s c addr) 1 = 0
  flags : oct (requestBlock s c addr) 3 = 0

/-- The state once the command has been counted (06 Table 06-15). -/
def counted (s : State) (c : CmdRef) : State := tblCnt s c.part.toNat 0

theorem onlyTables_counted (s : State) (c : CmdRef) : OnlyTables s (counted s c) := onlyTables_tblCnt ..

theorem counted_tbl (s : State) (c : CmdRef) : (counted s c).tbl = s.tbl := rfl

theorem FlowRequest.sound_counted (h : FlowRequest s c addr) :
    tblPoison (counted s c) c.part.toNat (.flow (requestKey s c addr)) = false := h.sound

theorem tFind_counted (s : State) (c : CmdRef) (p : Nat) (k : TKey) : tFind (counted s c) p k = tFind s p k := rfl

theorem length_requestBlock (s : State) (c : CmdRef) (addr : BitVec 64) : (requestBlock s c addr).length = 64 :=
  length_hostRead ..

theorem octs_requestKey (s : State) (c : CmdRef) (addr : BitVec 64) (op : Nat) :
    octs (withOp (requestBlock s c addr) op) 4 40 = requestKey s c addr :=
  (octs_withOp _ op 3 40).trans (octs_eq_of_le (by rw [length_requestBlock]; norm_num))

theorem octs_requestData (s : State) (c : CmdRef) (addr : BitVec 64) (op : Nat) :
    octs (withOp (requestBlock s c addr) op) 44 20 = requestData s c addr := by
  rw [octs_withOp _ op 43 20, octs_eq_of_le (by rw [length_requestBlock])]
  exact List.take_of_length_le (by simp [length_requestBlock])

theorem length_requestData (s : State) (c : CmdRef) (addr : BitVec 64) : (requestData s c addr).length = 20 := by
  simp [requestData, length_requestBlock]

theorem fit_requestData (s : State) (c : CmdRef) (addr : BitVec 64) : fit 20 (requestData s c addr) = requestData s c addr := by
  rw [fit, octs_eq_of_le (by rw [length_requestData])]
  exact List.take_of_length_le (length_requestData s c addr).le

theorem FlowRequest.op_flags (h : FlowRequest s c addr) (op : Nat) : oct (withOp (requestBlock s c addr) op) 3 = 0 :=
  (oct_withOp_succ _ op 2).trans h.flags

/-- A request with operation `op` comes to that operation on its key. -/
theorem FlowRequest.tblCommand_eq (h : FlowRequest s c addr) (hop : 1 ≤ op ∧ op ≤ 6) (agent : Nat) :
    tblCommand s c.part.toNat agent (withOp (requestBlock s c addr) op) =
      if op = 4 then
        tblLookup (counted s c) c.part.toNat (withOp (requestBlock s c addr) op) (.flow (requestKey s c addr))
      else tblChange (counted s c) c.part.toNat (withOp (requestBlock s c addr) op) (.flow (requestKey s c addr)) := by
  have hzero : oct (withOp (requestBlock s c addr) op) 0 = op := oct_withOp_zero (by omega)
  have hrun := tblCommand_flow (s := s) (p := c.part.toNat) (agent := agent) (blk := withOp (requestBlock s c addr) op)
    (by rw [hzero]; exact hop) ((oct_withOp_succ _ op 0).trans h.table) h.enabled
  rwa [hzero, octs_requestKey] at hrun

theorem FlowRequest.lookup (h : FlowRequest s c addr)
    (hrun : tblLookup (counted s c) c.part.toNat (withOp (requestBlock s c addr) 4) (.flow (requestKey s c addr)) = (r, t))
    (honly : OnlyTables s t) (hlen : r.length = 64) : TableDone s (tableRun s c addr 4) t c addr r :=
  tableDone_of_tblCommand h.accepted h.hosted ((h.tblCommand_eq (by decide) _).trans hrun) honly hlen

theorem FlowRequest.change (h : FlowRequest s c addr) (hop : 1 ≤ op ∧ op ≤ 6 ∧ op ≠ 4)
    (hrun : tblChange (counted s c) c.part.toNat (withOp (requestBlock s c addr) op) (.flow (requestKey s c addr)) = (r, t))
    (honly : OnlyTables s t) (hlen : r.length = 64) : TableDone s (tableRun s c addr op) t c addr r := by
  obtain ⟨hlow, hhigh, hother⟩ := hop
  exact tableDone_of_tblCommand h.accepted h.hosted ((h.tblCommand_eq ⟨hlow, hhigh⟩ _).trans ((if_neg hother).trans hrun)) honly hlen

/-- TBL_EXEC runs the operation that its block names (06 R125). -/
theorem exec_tblExec (ha : Accepted s c 0x01) (hop : oct (requestBlock s c addr) 0 = op) :
    exec (.tblExec c addr) s = .next (tableRun s c addr op) := by
  have hblock := withOp_self hop (length_requestBlock s c addr)
  have hrun : tblExec s c addr.toNat none = tblExec s c addr.toNat (some op) := by
    unfold withOp requestBlock at hblock
    simp only [tblExec, hblock]
  refine congrArg Host.Outcome.next ?_
  exact (hostCmd_of_accepted ha fun s => tblExec s c addr.toNat none).trans
    (hrun.trans (hostCmd_of_accepted ha fun s => tblExec s c addr.toNat (some op)).symm)

/-- Only slot `i` of the flow table differs among the tables. -/
abbrev OnlyFlowSlot (s u : State) (i : Nat) : Prop :=
  u.tbl = { s.tbl with flow := u.tbl.flow } ∧ ∀ j, j ≠ i → mfind u.tbl.flow j = mfind s.tbl.flow j

/-! ### An absent key -/

/-- What the statement calls an answer: the command completes with `st`, which its result block says too. -/
abbrev Answered (s u : State) (c : CmdRef) (addr : BitVec 64) (st : Nat) : Prop :=
  Completed s u c 0x01 st 0 64 ∧ OnlyHost s u ∧ hostOctet u c.part.toNat addr.toNat = BitVec.ofNat 8 st

section
variable (h : FlowRequest s c addr) (hf : tFind s c.part.toNat (.flow (requestKey s c addr)) = none)
include h hf

theorem FlowRequest.lookup_of_none :
    Answered s (tableRun s c addr 4) c addr 0x50 ∧ (tableRun s c addr 4).tbl = s.tbl := by
  have hdone := h.lookup (tblLookup_of_none (h.op_flags 4) h.sound_counted ((tFind_counted ..).trans hf))
    ((onlyTables_counted s c).trans (onlyTables_tblCnt ..)) (length_resultBlock ..)
  exact ⟨hdone.answer (by decide), hdone.tables⟩

theorem FlowRequest.change_of_none (hop : op = 2 ∨ op = 3 ∨ op = 6) :
    Answered s (tableRun s c addr op) c addr 0x50 ∧ (tableRun s c addr op).tbl = s.tbl := by
  have hother : ¬ (oct (withOp (requestBlock s c addr) op) 0 = 1 ∨ oct (withOp (requestBlock s c addr) op) 0 = 5) := by
    rw [oct_withOp_zero (by omega)]
    omega
  have hdone := h.change (by omega) (tblChange_of_none h.sound_counted ((tFind_counted ..).trans hf) hother)
    (onlyTables_counted s c) (length_resultBlock ..)
  exact ⟨hdone.answer (by decide), hdone.tables⟩

theorem FlowRequest.insert_of_none (hop : op = 1 ∨ op = 5)
    (hquota : overQuota s c.part.toNat (.flow (requestKey s c addr)) = false)
    (hslot : placeSlot s.tbl.flow ((TKey.flow (requestKey s c addr)).buckets s c.part.toNat).1
      ((TKey.flow (requestKey s c addr)).buckets s c.part.toNat).2 = some n) :
    Answered s (tableRun s c addr op) c addr 0 ∧
      (∃ w, tFind (tableRun s c addr op) c.part.toNat (.flow (requestKey s c addr)) = some w ∧ w.data = requestData s c addr ∧
        w.index = n) ∧ OnlyFlowSlot s (tableRun s c addr op) n := by
  have hinsert : oct (withOp (requestBlock s c addr) op) 0 = 1 ∨ oct (withOp (requestBlock s c addr) op) 0 = 5 := by
    rwa [oct_withOp_zero (by omega)]
  obtain ⟨v, hrun⟩ := tblChange_insert (h.op_flags op) h.sound_counted ((tFind_counted ..).trans hf) hinsert hquota hslot
  rw [octs_requestData] at hrun
  have hdone := h.change (by omega) hrun ((onlyTables_counted s c).trans (onlyTables_flowPut ..)) (length_resultBlock ..)
  have htbl : (tableRun s c addr op).tbl = { s.tbl with
      flow := mput s.tbl.flow n (flowEntry c.part.toNat (requestKey s c addr) (requestData s c addr)) } := hdone.tables
  obtain ⟨w, hfound, hdata, hindex⟩ := tFind_flowPut hf hslot (congrArg Tables.flow htbl) hdone.setup
  refine ⟨hdone.answer (by decide), ⟨w, hfound, hdata.trans (fit_requestData s c addr), hindex⟩, ?_⟩
  rw [OnlyFlowSlot, htbl]
  exact ⟨rfl, fun j hj => mfind_mput_ne hj⟩

end

/-! ### A present key -/

/-- A command that removed the entry at slot `i` removed that alone. -/
theorem TableDone.removed {u : State} (hdone : TableDone s u (tRemove (counted s c) (.flow i)) c addr r) :
    OnlyFlowSlot s u i ∧ mfind u.tbl.flow i = none := by
  have htbl : u.tbl = { s.tbl with flow := mdel s.tbl.flow i } := hdone.tables
  rw [OnlyFlowSlot, htbl]
  exact ⟨⟨rfl, fun j hj => mfind_mdel_ne hj⟩, mfind_mdel_self ..⟩

section
variable (h : FlowRequest s c addr) (hf : tFind s c.part.toNat (.flow (requestKey s c addr)) = some v)
include h hf

theorem FlowRequest.lookup_of_some (hlen : v.data.length = 20) :
    Answered s (tableRun s c addr 4) c addr 0 ∧ (tableRun s c addr 4).tbl = s.tbl ∧
      (List.range 20).map (fun n => hostOctet (tableRun s c addr 4) c.part.toNat (addr.toNat + 44 + n)) = v.data := by
  have hcounts := (onlyTables_counted s c).trans ((onlyTables_tblCnt _ c.part.toNat 1).trans (onlyTables_tblCnt _ c.part.toNat 2))
  have hdone := h.lookup (tblLookup_of_some (h.op_flags 4) h.sound_counted ((tFind_counted ..).trans hf)) hcounts
    (length_resultBlock ..)
  refine ⟨hdone.answer (by decide), ?_, hdone.data hlen⟩
  rw [hdone.tables, tblCnt_tbl, tblCnt_tbl, counted_tbl]

theorem FlowRequest.insert_of_some :
    Answered s (tableRun s c addr 1) c addr 0x51 ∧ (tableRun s c addr 1).tbl = s.tbl := by
  have hdone := h.change (by decide) (tblChange_insert_of_some h.sound_counted ((tFind_counted ..).trans hf)
    (oct_withOp_zero (by decide))) (onlyTables_counted s c) (length_resultBlock ..)
  exact ⟨hdone.answer (by decide), hdone.tables⟩

theorem FlowRequest.update_of_some (hloc : v.loc = .flow i) (he : mfind s.tbl.flow i = some e) (hop : op = 2 ∨ op = 5) :
    Answered s (tableRun s c addr op) c addr 0 ∧ OnlyFlowSlot s (tableRun s c addr op) i ∧
      mfind (tableRun s c addr op).tbl.flow i =
        some { e with data := requestData s c addr, static := false, h := true, a := false } := by
  have hupdate : oct (withOp (requestBlock s c addr) op) 0 = 2 ∨ oct (withOp (requestBlock s c addr) op) 0 = 5 := by
    rwa [oct_withOp_zero (by omega)]
  obtain ⟨w, hrun⟩ := tblChange_update_of_some (h.op_flags op) h.sound_counted ((tFind_counted ..).trans hf) hupdate
  rw [octs_requestData, hloc] at hrun
  have hdone := h.change (by omega) hrun ((onlyTables_counted s c).trans (onlyTables_tUpdate ..)) (length_resultBlock ..)
  have hfind := mfind_tUpdate_flow s i (data := requestData s c addr)
  have hflow : (tableRun s c addr op).tbl.flow = (tUpdate s (.flow i) (requestData s c addr) false).tbl.flow :=
    congrArg Tables.flow hdone.tables
  refine ⟨hdone.answer (by decide), ⟨?_, fun j hj => ?_⟩, ?_⟩
  · rw [hdone.tables]
    rfl
  · rw [hflow, hfind, if_neg hj]
  · rw [hflow, hfind, if_pos rfl, he, Option.map_some, fit_requestData]

theorem FlowRequest.delete_of_some (hloc : v.loc = .flow i) :
    Answered s (tableRun s c addr 3) c addr 0 ∧ OnlyFlowSlot s (tableRun s c addr 3) i ∧
      mfind (tableRun s c addr 3).tbl.flow i = none := by
  have hrun := tblChange_delete_of_some h.sound_counted ((tFind_counted ..).trans hf)
    (oct_withOp_zero (blk := requestBlock s c addr) (op := 3) (by decide))
  rw [hloc] at hrun
  have hdone := h.change (by decide) hrun ((onlyTables_counted s c).trans (onlyTables_tRemove ..)) (length_resultBlock ..)
  exact ⟨hdone.answer (by decide), hdone.removed⟩

theorem FlowRequest.deleteIfData_of_some (hloc : v.loc = .flow i) :
    if v.data = requestData s c addr then
      Answered s (tableRun s c addr 6) c addr 0 ∧ OnlyFlowSlot s (tableRun s c addr 6) i ∧
        mfind (tableRun s c addr 6).tbl.flow i = none
    else Answered s (tableRun s c addr 6) c addr 0x54 ∧ (tableRun s c addr 6).tbl = s.tbl := by
  have hrun := tblChange_deleteIfData_of_some h.sound_counted ((tFind_counted ..).trans hf)
    (oct_withOp_zero (blk := requestBlock s c addr) (op := 6) (by decide))
  have hdata : blockData (withOp (requestBlock s c addr) 6) (.flow (requestKey s c addr)) = requestData s c addr :=
    octs_requestData ..
  rw [hloc, hdata] at hrun
  split
  case isTrue hsame =>
    rw [if_pos hsame] at hrun
    have hdone := h.change (by decide) hrun ((onlyTables_counted s c).trans (onlyTables_tRemove ..)) (length_resultBlock ..)
    exact ⟨hdone.answer (by decide), hdone.removed⟩
  case isFalse hother =>
    rw [if_neg hother] at hrun
    have hdone := h.change (by decide) hrun (onlyTables_counted s c) (length_resultBlock ..)
    exact ⟨hdone.answer (by decide), hdone.tables⟩

end

theorem tableCommands : Claim.tableCommands := by
  intro s c addr i e v p blk key data k answer only ha hh hen hsound htable hflags
  have hreq : FlowRequest s c addr := ⟨ha, hh, hen, hsound, htable, hflags⟩
  refine ⟨fun o j hj ho => ?exec, fun hf => ⟨?absent, fun hquota n hslot => ?inserted⟩,
    fun hf hloc he hdata hlen => ⟨?found, ⟨_, rfl, hreq.insert_of_some hf⟩, ?updated,
      ⟨_, rfl, hreq.delete_of_some hf hloc⟩, ⟨_, rfl, hdata ▸ hreq.deleteIfData_of_some hf hloc⟩⟩⟩
  case exec =>
    have hrun := exec_tblExec (op := o) ha ho
    simp only [List.mem_cons, Prod.mk.injEq, List.not_mem_nil, or_false] at hj
    rcases hj with ⟨rfl, rfl⟩ | ⟨rfl, rfl⟩ | ⟨rfl, rfl⟩ | ⟨rfl, rfl⟩ | ⟨rfl, rfl⟩ | ⟨rfl, rfl⟩ <;> exact hrun
  case absent =>
    simp only [List.forall_mem_cons, List.not_mem_nil, false_implies, implies_true, and_true]
    have hchange := fun o (ho : o = 2 ∨ o = 3 ∨ o = 6) => hreq.change_of_none hf ho
    exact ⟨⟨_, rfl, hchange 2 (by decide)⟩, ⟨_, rfl, hchange 3 (by decide)⟩, ⟨_, rfl, hreq.lookup_of_none hf⟩,
      ⟨_, rfl, hchange 6 (by decide)⟩⟩
  case inserted =>
    have hinsert : ∀ o, o = 1 ∨ o = 5 → ∀ j, exec j s = .next (tableRun s c addr o) → ∃ u w, exec j s = .next u ∧ answer u 0 ∧
        tFind u p k = some w ∧ w.data = data ∧ w.index = n ∧ (∀ m, m ≠ n → mfind u.tbl.flow m = mfind s.tbl.flow m) ∧
        u.tbl = { s.tbl with flow := u.tbl.flow } := by
      intro o ho j hj
      obtain ⟨hanswer, ⟨w, hfound, hdata, hindex⟩, htbl, hothers⟩ := hreq.insert_of_none hf ho hquota hslot
      exact ⟨_, w, hj, hanswer, hfound, hdata, hindex, hothers, htbl⟩
    simp only [List.forall_mem_cons, List.not_mem_nil, false_implies, implies_true, and_true]
    exact ⟨hinsert 1 (.inl rfl) _ rfl, hinsert 5 (.inr rfl) _ rfl⟩
  case found =>
    obtain ⟨hanswer, htbl, hoctets⟩ := hreq.lookup_of_some hf (by rw [hdata]; exact hlen)
    exact ⟨_, rfl, hanswer, htbl, hoctets.trans hdata⟩
  case updated =>
    simp only [List.forall_mem_cons, List.not_mem_nil, false_implies, implies_true, and_true]
    exact ⟨⟨_, rfl, hreq.update_of_some hf hloc he (.inl rfl)⟩, ⟨_, rfl, hreq.update_of_some hf hloc he (.inr rfl)⟩⟩

/-- Settles O29: the statement on table commands and the one on learning and ageing, each clause by clause. -/
theorem tableMachine : Obligations.TableMachine := ⟨tableCommands, learnAndAge⟩

end Sys2Proof.Machine
end

section
/-! PROOFS. The classifier (06 R122, R123): a task whose action word names another partition's order domain reaches the Halter, and
its violation reaches the service queue besides (01 R17, 17 R365). -/

namespace Sys2Proof.Machine

/-- A packet of parse class 0. -/
def classZeroPacket : Item := { precd := zeros 64 }

/-- Cluster 0 is partition 0's. Class 0 is decided by profile 0, which is partition 0's and searches no bank; the class's default
action names order domain 5, which is partition 1's. A packet of the class waits. -/
def foreignDomainTask : State :=
  let s := wrDev State.reset 0x70040 3
  let s := wrDev (wrDev (wrDev s 0x51000 0x40001) 0x51018 0x50000) 0x44000 0x41
  let s := wrDev s 0x68028 7
  { s with par := { s.par with toClassify := [⟨classZeroPacket⟩] } }

/-- The same state as the classifier has it once it has taken the packet. -/
def foreignDomainTaken : State :=
  { noDoubts foreignDomainTask with par := { foreignDomainTask.par with toClassify := [] } }

/-- The search that decides the packet's class. -/
def foreignDomainSearch : List Octet × Bool × State :=
  runSearch foreignDomainTaken 0 0x8005 0
    (buildKey foreignDomainTaken 0 classZeroPacket.precd (zeros 20) (itemPayload foreignDomainTask classZeroPacket))

/-- CLASSIFY of that packet counts a violation of kind 6, and a service event reports it (14 R315, 17 R365). -/
theorem classify_foreignDomainTask : ∃ u, exec .classify foreignDomainTask = .next u ∧
    u.gpl.svcq = [{ code := 0x28, detail := fit 12 (beOctets 1 0 ++ beOctets 1 6) }] := by
  refine ⟨raisedDoubts (classifyNow (noDoubts foreignDomainTask)), rfl, ?_⟩
  decide +kernel

/-- The class, its profile and its partition meet what the statement asks of them: no table lookup, a sound search that
misses, and a default action that names the Halter and order domain 5. -/
theorem foreignDomainTask_setup :
    let s := foreignDomainTask
    let c := oct classZeroPacket.precd 0
    let w0 := rdDev s (0x51000 + 32 * c)
    let k := w0 / 2 ^ 10 % 256
    c ≤ 127 ∧ w0 % 2 = 1 ∧ profWord s k 0 % 2 = 1 ∧ profOwner s k = some 0 ∧ w0 / 2 % 2 = 0 ∧ w0 / 16 % 8 = 0 ∧
      w0 / 2 ^ 9 % 2 = 0 ∧ w0.testBit 18 = true ∧ noService s 0 = false ∧ foreignDomainSearch.2.1 = false ∧
      ¬ oct foreignDomainSearch.1 1 % 2 = 1 ∧
      5 * 2 ^ 48 = rdDev s (0x51018 + 32 * c) * 2 ^ 32 + rdDev s (0x5101C + 32 * c) := by
  decide +kernel

/-- Refutes O33: the action word of a class may name an order domain of another partition. The task goes on to the Halter, but the
violation is captured and sends a service event, so the host interface does not stay as it was. -/
theorem not_classifier : ¬ Obligations.Classifier := by
  unfold Obligations.Classifier
  intro h
  obtain ⟨-, hhead⟩ := h foreignDomainTask classZeroPacket []
  obtain ⟨-, htask⟩ := hhead rfl rfl
  obtain ⟨hclass, hen, hprof, howner, hflow, hl2, hdec, hdefault, hserve, hsound, hmiss, hact⟩ := foreignDomainTask_setup
  have hsearch : foreignDomainSearch = (foreignDomainSearch.1, false, foreignDomainSearch.2.2) :=
    Prod.ext rfl (Prod.ext hsound rfl)
  obtain ⟨u, -, hexec, -, -, hgpl, -⟩ := htask 0 _ _ hclass hen hprof howner hflow hl2 hdec hsearch (.inr hdefault)
    (5 * 2 ^ 48) (fun hhit => absurd hhit hmiss) (fun _ => hact) (by decide) hserve
  obtain ⟨v, hexec', hevent⟩ := classify_foreignDomainTask
  obtain rfl : u = v := Host.Outcome.next.inj (hexec.symm.trans hexec')
  rw [hgpl] at hevent
  exact absurd hevent (by decide)

end Sys2Proof.Machine
end

section
/-! PROOFS. Tickets (07 R132-R147): what a ticket, an order domain and the Halter's counters read after each operation. -/

namespace Sys2Proof.Machine

open Sys2Proof.Claim

variable {s t u : State} {p i : Nat}

/-! ### What only the Halter changes -/

/-- Only the Halter, its counters, the monitors and the free values differ. -/
def OnlyHalter (s u : State) : Prop :=
  u = { s with fresh := u.fresh, seq := u.seq, hlt := u.hlt, dbg := u.dbg, regs := { s.regs with cnt := u.regs.cnt } }

theorem OnlyHalter.trans (h1 : OnlyHalter s t) (h2 : OnlyHalter t u) : OnlyHalter s u := by
  unfold OnlyHalter at *
  rw [h2, h1]

theorem OnlyHalter.mem (h : OnlyHalter s u) : u.mem = s.mem := by rw [h]
theorem OnlyHalter.thr (h : OnlyHalter s u) : u.thr = s.thr := by rw [h]
theorem OnlyHalter.buf (h : OnlyHalter s u) : u.buf = s.buf := by rw [h]

theorem onlyHalter_setTicket (s : State) (i : Nat) (x : Ticket) : OnlyHalter s (setTicket s i x) := rfl

theorem onlyHalter_cntAdd (s : State) (o n : Nat) : OnlyHalter s (cntAdd s o n) := rfl

theorem onlyHalter_ticketReach (s : State) (i : Nat) (sub : Option Nat) (k : Nat) : OnlyHalter s (ticketReach s i sub k) := by
  rw [ticketReach_eq]; rfl

theorem onlyHalter_freeTicket (s : State) (i : Nat) : OnlyHalter s (freeTicket s i) := rfl

theorem onlyHalter_pushReady (s : State) (p level : Nat) (x : ReadyWhat) : OnlyHalter s (pushReady s p level x) := rfl

/-! ### Counters -/

@[simp] theorem hltCount_hltCnt (s : State) (p k : Nat) : hltCount (hltCnt s p k) p k = hltCount s p k + 1 :=
  rdCnt_cntAdd_self s _ 1

@[simp] theorem schCount_schCnt (s : State) (p k : Nat) : schCount (schCnt s p k) p k = schCount s p k + 1 :=
  rdCnt_cntAdd_self s _ 1

/-! A count of the Halter or of the scheduler changes the registers only. -/
section
variable (s : State) (p k : Nat)
@[simp] theorem hltCnt_mem : (hltCnt s p k).mem = s.mem := rfl
@[simp] theorem hltCnt_thr : (hltCnt s p k).thr = s.thr := rfl
@[simp] theorem hltCnt_hlt : (hltCnt s p k).hlt = s.hlt := rfl
@[simp] theorem hltCnt_buf : (hltCnt s p k).buf = s.buf := rfl
@[simp] theorem ticket_hltCnt : ticket (hltCnt s p k) i = ticket s i := rfl
@[simp] theorem schCnt_mem : (schCnt s p k).mem = s.mem := rfl
@[simp] theorem schCnt_thr : (schCnt s p k).thr = s.thr := rfl
@[simp] theorem schCnt_hlt : (schCnt s p k).hlt = s.hlt := rfl
end

/-! ### A latency point of a ticket -/

section
variable (s : State) (i : Nat) (sub : Option Nat) (k : Nat)
@[simp] theorem ticketReach_mem : (ticketReach s i sub k).mem = s.mem := by rw [ticketReach_eq]
@[simp] theorem ticketReach_regs : (ticketReach s i sub k).regs = s.regs := by rw [ticketReach_eq]
@[simp] theorem ticketReach_buf : (ticketReach s i sub k).buf = s.buf := by rw [ticketReach_eq]
@[simp] theorem ticketReach_thr : (ticketReach s i sub k).thr = s.thr := by rw [ticketReach_eq]
@[simp] theorem domOrder_ticketReach (d : Nat) : domOrder (ticketReach s i sub k) d = domOrder s d := by
  rw [ticketReach_eq]; rfl
end

/-- A whole ticket that reaches a latency point notes the time (17 R362). -/
theorem ticket_ticketReach (s : State) (i k j : Nat) : ticket (ticketReach s i none k) j =
    if j = i then { ticket s i with pts := mput (ticket s i).pts k (tai s) } else ticket s j := by
  unfold ticketReach latReach
  dsimp only
  rw [gaitYield_eq, ticket_setTicket]
  rfl

theorem ticketWord_ticketReach (s : State) (i k j : Nat) : ticketWord (ticketReach s i none k) j = ticketWord s j := by
  unfold ticketWord
  rw [ticket_ticketReach]
  split
  · next h => rw [h]
  · rfl

/-! ### The order of a domain -/

theorem domOrder_setOrder (s : State) (d e : Nat) (l : List Nat) :
    domOrder (setOrder s d l) e = if e = d then l else domOrder s e := mget_mset _ _ _ _ _

@[simp] theorem ticket_setOrder (s : State) (d : Nat) (l : List Nat) (j : Nat) : ticket (setOrder s d l) j = ticket s j := rfl

/-- An index that frees advances its GEN (07 R135). -/
theorem ticket_freeTicket (s : State) (i j : Nat) :
    ticket (freeTicket s i) j = if j = i then { gen := (ticket s i).gen + 1 } else ticket s j := by
  unfold freeTicket
  rw [ticket_setOrder, ticket_setTicket]

theorem domOrder_freeTicket (s : State) (i d : Nat) : domOrder (freeTicket s i) d =
    if d = (ticket s i).dom then (domOrder s d).filter (· ≠ i) else domOrder s d := by
  unfold freeTicket
  rw [domOrder_setOrder]
  split
  · next h => rw [h]
  · rfl

/-! ### Completion of a whole ticket -/

theorem settlePassed_of_unpassed (h : (ticket s i).passed = false) (fuel : Nat) : settlePassed fuel s i = s := by
  cases fuel with
  | zero => rfl
  | succ n => simp [settlePassed, h]

/-- The state in which a ticket that was not passed is complete with a result (07 R137). -/
theorem completeTicket_of_unpassed (h : (ticket s i).passed = false) (r : Result) : completeTicket s ⟨i, none⟩ r =
    ticketReach (setTicket (if r.disp = .drop then hltCnt s (ticket s i).part 2 else s) i
      { ticket s i with res := some r }) i none 3 := by
  unfold completeTicket
  dsimp only
  rw [settlePassed_of_unpassed]
  rw [ticket_ticketReach, if_pos rfl, ticket_setTicket, if_pos rfl]
  exact h

theorem onlyHalter_completeTicket (h : (ticket s i).passed = false) (r : Result) :
    OnlyHalter s (completeTicket s ⟨i, none⟩ r) := by
  rw [completeTicket_of_unpassed h]
  refine OnlyHalter.trans ?_ (onlyHalter_ticketReach ..)
  split <;> rfl

theorem ticket_completeTicket (h : (ticket s i).passed = false) (r : Result) (j : Nat) :
    ticket (completeTicket s ⟨i, none⟩ r) j =
      if j = i then { ticket s i with res := some r, pts := mput (ticket s i).pts 3 (tai s) } else ticket s j := by
  rw [completeTicket_of_unpassed h, ticket_ticketReach, ticket_setTicket, ticket_setTicket, if_pos rfl]
  split
  · split <;> rfl
  · split <;> rfl

/-- A DROP is counted (07 Table 07-14). -/
theorem hltCount_completeTicket_drop (h : (ticket s i).passed = false) {r : Result} (hr : r.disp = .drop) :
    hltCount (completeTicket s ⟨i, none⟩ r) (ticket s i).part 2 = hltCount s (ticket s i).part 2 + 1 := by
  rw [completeTicket_of_unpassed h, if_pos hr, ← hltCount_hltCnt]
  simp only [hltCount, rdCnt, ticketReach_regs, setTicket_regs]

/-! ### A ticket word that names an open ticket -/

theorem ticketNamed_of_open {w : W36} (h : OpenTicket s p i w) : ticketNamed s w = some ⟨i, none⟩ := by
  obtain ⟨hi, huse, hdom, -, -, -, -, -, hw⟩ := h
  have hgen := (ticket s i).gen.isLt
  have hidx : w.toNat % 16384 = i := by omega
  have hbits : bitsOf w.toNat 35 34 = 0 ∧ bitsOf w.toNat 17 14 = (ticket s i).gen.toNat ∧
      bitsOf w.toNat 33 22 = (ticket s i).dom := by unfold bitsOf; omega
  have hwhole : bitOf w.toNat 21 = false := by
    rw [bitOf, beq_eq_false_iff_ne]
    omega
  obtain ⟨hhigh, hg, hd⟩ := hbits
  simp [ticketNamed, hidx, hhigh, hg, hd, huse, hwhole]

theorem ticketCheck_of_open {w : W36} (h : OpenTicket s p i w) : ticketCheck s p w = .ok ⟨i, none⟩ := by
  have hn := ticketNamed_of_open h
  obtain ⟨-, -, -, hown, -, hsubs, hres, -, -⟩ := h
  simp [ticketCheck, hn, hown, stillOpen, hsubs, hres]

theorem ticketWord_of_open {w : W36} (h : OpenTicket s p i w) : ticketWord s i = w := by
  obtain ⟨-, -, -, -, -, -, -, -, hw⟩ := h
  rw [ticketWord, ← hw, BitVec.ofNat_toNat, BitVec.setWidth_eq]

end Sys2Proof.Machine
end

section
/-! PROOFS. Issue of tickets (07 R133, R134, R144): the index that is drawn, the ticket it becomes, and the task that joins the
ready list with it. -/

namespace Sys2Proof.Machine

open Sys2Proof.Claim

variable {s t u : State} {p dom dl j : Nat} {it : Item}

/-- An index of the pool is free. -/
def HasFreeIndex (s : State) : Prop := ∃ j, j < 2 ^ 14 ∧ (ticket s j).inUse = false

/-- Where the pool has a free index, the search that wraps round it finds one. -/
theorem freeIndexFrom_free (h : HasFreeIndex s) (i : Nat) :
    freeIndexFrom s i < 2 ^ 14 ∧ (ticket s (freeIndexFrom s i)).inUse = false := by
  obtain ⟨j, hj, hfree⟩ := h
  have hoff : (i + (j + 16384 - i % 16384) % 16384) % 16384 = j := by omega
  unfold freeIndexFrom
  cases hfind : (List.range 16384).find? (fun j => !(ticket s ((i + j) % 16384)).inUse) with
  | none =>
    have hused := List.find?_eq_none.mp hfind ((j + 16384 - i % 16384) % 16384)
      (List.mem_range.mpr (Nat.mod_lt _ (by decide)))
    rw [hoff, hfree] at hused
    exact absurd rfl hused
  | some n =>
    have hn := List.find?_some hfind
    exact ⟨Nat.mod_lt _ (by decide), by simpa using hn⟩

/-- Between `s` and `u` index `j` was drawn for item `it` of partition `p`, at the tail of domain `dom` (07 R133). -/
structure Issued (s u : State) (j dom p : Nat) (it : Item) (dl : Nat) : Prop where
  lt : j < 2 ^ 14
  free : (ticket s j).inUse = false
  halter : OnlyHalter s u
  same : ∃ pts arr, ticket u j = {
    inUse := true, gen := (ticket s j).gen, dom := dom, part := p, deadline := dl, item := { it with arr := arr }, pts := pts }
  others : ∀ k, k ≠ j → ticket u k = ticket s k
  order : ∀ d, domOrder u d = if d = dom then domOrder s dom ++ [j] else domOrder s d
  count : hltCount u p 0 = hltCount s p 0 + 1

theorem issued_issueTicket (h : HasFreeIndex s) (dom p : Nat) (it : Item) (dl : Nat) :
    Issued s (issueTicket s dom p it dl).2 (issueTicket s dom p it dl).1 dom p it dl := by
  have hdraw : drawIndex s = (freeIndexFrom (drawFree s 16384).2 (drawFree s 16384).1, (drawFree s 16384).2) := rfl
  obtain ⟨hlt, hfree⟩ := freeIndexFrom_free (s := (drawFree s 16384).2) h (drawFree s 16384).1
  unfold issueTicket
  rw [hdraw]
  generalize freeIndexFrom (drawFree s 16384).2 (drawFree s 16384).1 = j at hlt hfree
  dsimp only
  refine ⟨hlt, hfree, rfl, ⟨[(0, it.tEnd)], s.seq, ?_⟩, fun k hk => ?_, fun d => ?_, rdCnt_cntAdd_self _ _ 1⟩
  · rw [ticket_hltCnt, ticket_setOrder, ticket_setTicket, if_pos rfl]
    rfl
  · rw [ticket_hltCnt, ticket_setOrder, ticket_setTicket, if_neg hk]
    rfl
  · exact domOrder_setOrder ..

/-- A ticket that is issued for a task, which joins the ready list of its priority (07 R148): the index, and the state. -/
def issueReady (s : State) (dom p : Nat) (it : Item) (dl : Nat) : Nat × State :=
  let r := issueTicket s dom p it dl
  let u := ticketReach r.2 r.1 none 1
  (r.1, pushReady u p it.prio (.fresh (ticketWord u r.1) it dl))

theorem issued_issueReady (h : HasFreeIndex s) (dom p : Nat) (it : Item) (dl : Nat) :
    Issued s (issueReady s dom p it dl).2 (issueReady s dom p it dl).1 dom p it dl := by
  obtain ⟨hlt, hfree, hhalter, ⟨pts, arr, hsame⟩, hothers, horder, hcount⟩ := issued_issueTicket h dom p it dl
  unfold issueReady
  generalize issueTicket s dom p it dl = r at *
  obtain ⟨j, v⟩ := r
  refine ⟨hlt, hfree, (hhalter.trans (onlyHalter_ticketReach ..)).trans (onlyHalter_pushReady ..),
    ⟨mput pts 1 (tai v), arr, ?_⟩,
    fun k hk => ?_, fun d => ?_, ?_⟩
  · exact (ticket_ticketReach v j 1 j).trans ((if_pos rfl).trans (by rw [hsame]))
  · exact ((ticket_ticketReach v j 1 k).trans (if_neg hk)).trans (hothers k hk)
  · exact (domOrder_ticketReach v j none 1 d).trans (horder d)
  · rw [← hcount]
    simp only [hltCount, rdCnt, pushReady, unstall, ticketReach_regs]

/-- The task stands at the tail of the ready list, under the word of its ticket. -/
theorem ready_issueReady (s : State) (dom p : Nat) (it : Item) (dl : Nat) :
    (issueReady s dom p it dl).2.hlt.ready = s.hlt.ready ++ [⟨p, it.prio,
      .fresh (ticketWord (issueReady s dom p it dl).2 (issueReady s dom p it dl).1) it dl⟩] := by
  have hready : (issueTicket s dom p it dl).2.hlt.ready = s.hlt.ready := rfl
  rw [← hready]
  unfold issueReady
  generalize issueTicket s dom p it dl = r
  simp only [pushReady, unstall]
  rw [ticketReach_eq]
  rfl

end Sys2Proof.Machine
end

section
/-! PROOFS. TICKET_ISSUE (07 R133, R134, R144): the head of a partition's issue queue waits, or becomes a ready task. -/

namespace Sys2Proof.Machine

open Sys2Proof.Claim

variable {s : State} {p : Nat} {it : Item} {rest : List Item}

/-- In a list of values found under their keys, the value found first under a key is the key's. -/
theorem find?_filterMap_key {β : Type} {f : Nat → Option (Nat × β)} (hf : ∀ a x, f a = some x → x.1 = a) (p : Nat)
    (l : List Nat) : (l.filterMap f).find? (fun x => decide (x.1 = p)) = if p ∈ l then f p else none := by
  induction l with
  | nil => rfl
  | cons a l ih =>
    rw [List.filterMap_cons]
    by_cases hap : a = p
    · subst hap
      cases hfa : f a with
      | none => simp [ih, hfa]
      | some x => simp [hf a x hfa]
    · cases hfa : f a with
      | none => simp [ih, Ne.symm hap]
      | some x =>
        have hx : x.1 ≠ p := fun h => hap ((hf a x hfa).symm.trans h)
        simp [hx, ih, Ne.symm hap]

/-- The head of a partition's issue queue may draw a ticket (07 R134; 01 R15). -/
structure MayDraw (s : State) (p : Nat) (it : Item) : Prop where
  bolt : inBolt s p = false
  reset : inReset s p = false
  issue : canIssue s p = true
  own : domOwner s it.dom = some p

theorem issueHead_key (a : Nat) (x : Nat × Item) (h : (if inBolt s a || inReset s a || !canIssue s a then none
    else ((mget [] s.hlt.issueQ a).head?.filter (fun it => decide (domOwner s it.dom = some a))).map (fun it => (a, it))) =
      some x) : x.1 = a := by
  split at h
  · cases h
  · obtain ⟨it, -, rfl⟩ := Option.map_eq_some_iff.mp h
    rfl

theorem issueHeads_find (hp : p < 8) (hq : mget [] s.hlt.issueQ p = it :: rest) :
    (MayDraw s p it → (issueHeads s).find? (fun x => decide (x.1 = p)) = some (p, it)) ∧
    (¬ MayDraw s p it → (issueHeads s).find? (fun x => decide (x.1 = p)) = none) := by
  unfold issueHeads
  rw [find?_filterMap_key issueHead_key, if_pos (List.mem_range.mpr hp), hq]
  constructor
  · rintro ⟨hbolt, hreset, hissue, hown⟩
    simp [hbolt, hreset, hissue, hown]
  · intro h
    by_cases hdraw : inBolt s p = false ∧ inReset s p = false ∧ canIssue s p = true
    · obtain ⟨hbolt, hreset, hissue⟩ := hdraw
      have hown : domOwner s it.dom ≠ some p := fun hown => h ⟨hbolt, hreset, hissue, hown⟩
      simp [hbolt, hreset, hissue, hown]
    · rw [if_pos]
      simpa [imp_iff_not_or, or_assoc] using hdraw

theorem ticketIssueNow_of_waiting (hp : p < 8) (hq : mget [] s.hlt.issueQ p = it :: rest) (h : ¬ MayDraw s p it) :
    ticketIssueNow s p = s := by
  unfold ticketIssueNow
  rw [(issueHeads_find hp hq).2 h]

/-- The state in which the head of a partition's issue queue has been taken out of it. -/
def headTaken (s : State) (p : Nat) (it : Item) : State :=
  messageTicketed (refillIssue { s with hlt := { s.hlt with
    issueQ := mset [] s.hlt.issueQ p ((mget [] s.hlt.issueQ p).drop 1) } } p) it

/-- Taking the head touches the queues of the Halter, and the framer's count for a message. -/
theorem headTaken_frame (s : State) (p : Nat) (it : Item) : headTaken s p it = { s with
    stf := (headTaken s p it).stf,
    hlt := { s.hlt with issueQ := (headTaken s p it).hlt.issueQ, holdQ := (headTaken s p it).hlt.holdQ } } := by
  unfold headTaken messageTicketed
  split <;> rfl

theorem ticketIssueNow_of_claimed (hp : p < 8) (hq : mget [] s.hlt.issueQ p = it :: rest)
    (h : freeTickets s ≤ olderClaims s p it.arr) : ticketIssueNow s p = s := by
  by_cases hd : MayDraw s p it
  · unfold ticketIssueNow
    rw [(issueHeads_find hp hq).1 hd]
    exact if_pos h
  · exact ticketIssueNow_of_waiting hp hq hd

theorem deadlineOf_congr {v : State} (h : v.regs = s.regs) (dom t0 : Nat) : deadlineOf v dom t0 = deadlineOf s dom t0 := by
  unfold deadlineOf hltDom rdDev
  rw [h]

theorem ticketIssueNow_of_head (hp : p < 8) (hq : mget [] s.hlt.issueQ p = it :: rest) (hd : MayDraw s p it)
    (h : olderClaims s p it.arr < freeTickets s) :
    ticketIssueNow s p = (issueReady (headTaken s p it) it.dom p it (deadlineOf s it.dom it.t0)).2 := by
  unfold ticketIssueNow
  rw [(issueHeads_find hp hq).1 hd]
  dsimp only
  rw [if_neg (Nat.not_le.mpr h), deadlineOf_congr (v := refillIssue _ p) rfl]
  rfl

/-- Settles O17: the head waits unless it may draw and an index is left to it; else `issued_issueReady`. -/
theorem ticketIssue : Obligations.TicketIssue := by
  unfold Obligations.TicketIssue
  intro s part it rest hq
  have hp : part.toNat < 8 := part.isLt
  refine ⟨fun hown => ?foreign, fun hclaimed => ?claimed, fun hserve hissue hown hleft hfree => ?issued⟩
  case foreign => exact congrArg Host.Outcome.next (ticketIssueNow_of_waiting hp hq fun hd => hown hd.own)
  case claimed => exact congrArg Host.Outcome.next (ticketIssueNow_of_claimed hp hq hclaimed)
  case issued =>
    obtain ⟨hreset, hbolt⟩ := hserve
    have hframe := headTaken_frame s part.toNat it
    have hticket : ∀ k, ticket (headTaken s part.toNat it) k = ticket s k := fun k => by rw [hframe]; rfl
    have hready := ready_issueReady (headTaken s part.toNat it) it.dom part.toNat it (deadlineOf s it.dom it.t0)
    obtain ⟨hlt, hunused, hhalter, ⟨pts, arr, hsame⟩, hothers, horder, hcount⟩ :=
      issued_issueReady (s := headTaken s part.toNat it) (by simpa [HasFreeIndex, hticket] using hfree) it.dom part.toNat it
        (deadlineOf s it.dom it.t0)
    have hrun := ticketIssueNow_of_head hp hq ⟨hbolt, hreset, hissue, hown⟩ hleft
    rw [hticket] at hunused hsame
    refine ⟨_, _, _, congrArg Host.Outcome.next hrun, hlt, hunused, by rw [hsame], fun k hk => (hothers k hk).trans (hticket k),
      ?_, rfl, by rw [hsame], by rw [hsame], ?_, ?_, ?_, ?_, ?_⟩
    · rw [horder, if_pos rfl, hframe]; rfl
    · rw [hsame]; rfl
    · rw [hready, hsame, hframe]
    · rw [hcount, hframe]; rfl
    · rw [hhalter.mem, hframe]
    · rw [hhalter.thr, hframe]

end Sys2Proof.Machine
end

section
/-! PROOFS. Delay lists and thread timers (07 R151, R152): what falls due, and what stays before its time. -/

namespace Sys2Proof.Machine

variable {s : State} {p t due id : Nat} {x : TaskSt} {d : DelayEnt}

/-! ### The delay list -/

/-- The only entry of the delay lists is due once its tick has come. -/
theorem dueEntry_of_one (hone : s.hlt.delays = [d]) (hpart : d.part = p) :
    dueEntry s p = if d.due ≤ tickNow s then some d else none := by
  unfold dueEntry
  rw [hone]
  by_cases h : d.due ≤ tickNow s <;> simp [hpart, h, sortBy, insertBy]

/-- The deferred task of the only entry joins its ready level. -/
theorem delayDue_of_due (hreset : inReset s p = false) (hone : s.hlt.delays = [d]) (hpart : d.part = p)
    (hwhat : d.what = .redispatch id true) (htask : taskSt s id = some x) (hdue : d.due ≤ tickNow s) :
    delayDue s p = pushReady { s with hlt := { s.hlt with delays := [] } } p x.eprio (.redispatch id true) := by
  have hlevel : ∀ l, taskSt { s with hlt := { s.hlt with delays := l } } id = some x := fun _ => htask
  simp [delayDue, hreset, dueEntry_of_one hone hpart, hdue, hone, hwhat, hlevel]

theorem delayDue_of_early (hone : s.hlt.delays = [d]) (hpart : d.part = p) (hearly : tickNow s < d.due) : delayDue s p = s := by
  simp [delayDue, dueEntry_of_one hone hpart, Nat.not_le.mpr hearly]

/-! ### The timer of a thread -/

/-- A thread whose timer has run out, as its partition counts it. -/
def timerEnded (s : State) (t : Nat) : State :=
  let u := updThr s t (fun x => { x with timer := none })
  match thrPart s t with
  | some p => schCnt u p 5
  | none => u

@[simp] theorem timerEnded_thr (s : State) (t : Nat) : (timerEnded s t).thr = (updThr s t (fun x => { x with timer := none })).thr := by
  unfold timerEnded
  dsimp only
  split <;> rfl

@[simp] theorem timerEnded_mem (s : State) (t : Nat) : (timerEnded s t).mem = s.mem := by
  unfold timerEnded
  dsimp only
  split <;> rfl

theorem thr_timerEnded (s : State) (t k : Nat) :
    thr (timerEnded s t) k = if k = t then { thr s t with timer := none } else thr s k := by
  rw [thr, timerEnded_thr]
  exact thr_updThr ..

theorem taskSt_timerEnded (s : State) (t k : Nat) : taskSt (timerEnded s t) k = taskSt s k := by
  rw [taskSt, timerEnded_thr]; rfl

theorem slotSt_timerEnded (s : State) (t k : Nat) : slotSt (timerEnded s t) k = slotSt s k := by
  rw [slotSt, timerEnded_thr]; rfl

theorem timerDue_of_early (htimer : (thr s t).timer = some ⟨due, some id⟩) (hearly : tickNow s < due) : timerDue s t = s := by
  simp [timerDue, htimer, hearly]

/-- A task waits in a save slot. -/
def isSaved (s : State) (id : Nat) : Bool :=
  match taskSt s id with
  | some x => (match x.loc with
    | .slot _ => true
    | _ => false)
  | none => false

theorem timerDue_of_due (htimer : (thr s t).timer = some ⟨due, some id⟩) (hdue : due ≤ tickNow s) : timerDue s t =
    if isSaved (timerEnded s t) id then taskEv (timerEnded s t) id 0x80
    else updCtx (timerEnded s t) t (fun c => c.setEv 0x80) := by
  unfold timerDue
  rw [htimer]
  exact if_neg (Nat.not_lt.mpr hdue)

/-- The task that armed the timer still runs on the thread. -/
theorem timerDue_of_running {v : Nat} (htimer : (thr s t).timer = some ⟨due, some id⟩) (htask : taskSt s id = some x)
    (hloc : x.loc = .thread v) (hdue : due ≤ tickNow s) : timerDue s t = updCtx (timerEnded s t) t (fun c => c.setEv 0x80) := by
  simp [timerDue_of_due htimer hdue, isSaved, taskSt_timerEnded, htask, hloc]

/-- The task that armed the timer waits in a save slot. -/
theorem timerDue_of_saved {k : Nat} (htimer : (thr s t).timer = some ⟨due, some id⟩) (htask : taskSt s id = some x)
    (hloc : x.loc = .slot k) (hdue : due ≤ tickNow s) : timerDue s t = taskEv (timerEnded s t) id 0x80 := by
  simp [timerDue_of_due htimer hdue, isSaved, taskSt_timerEnded, htask, hloc]

/-- An event for a task in a save slot is set there. -/
theorem taskEv_of_saved {k m : Nat} {sv : Saved} (htask : taskSt s id = some x) (hloc : x.loc = .slot k)
    (hslot : slotSt s k = some sv) : taskEv s id m = putSlot s k { sv with ctx := sv.ctx.setEv m } := by
  simp [taskEv, updTaskCtx, htask, hloc, hslot]

/-- Settles O20: the delay list by `delayDue_of_due`, the timer by the place of the task that armed it. -/
theorem delaysAndTimers : Obligations.DelaysAndTimers := by
  unfold Obligations.DelaysAndTimers
  intro s p t due id x d
  refine ⟨fun hreset hone hpart hwhat htask => ⟨fun hdue => ?delay, fun hearly => ?delayEarly⟩,
    fun htimer htask => ⟨fun hdue hloc => ?running, fun hdue k sv hloc hslot => ?saved, fun hearly => ?timerEarly⟩⟩
  case delay =>
    exact ⟨_, congrArg Host.Outcome.next (delayDue_of_due hreset hone hpart hwhat htask hdue), rfl, rfl, rfl, rfl⟩
  case delayEarly => exact congrArg Host.Outcome.next (delayDue_of_early hone hpart hearly)
  case running =>
    refine ⟨_, congrArg Host.Outcome.next (timerDue_of_running htimer htask hloc hdue), ?_, ?_, ?_, fun k hk => ?_⟩
    · simp [thr_timerEnded]
    · simp
    · simp [thr_timerEnded, Ctx.setEv]
    · simp [thr_timerEnded, hk]
  case saved =>
    have hrun := taskEv_of_saved (m := 0x80) ((taskSt_timerEnded s t.toNat id).trans htask) hloc
      ((slotSt_timerEnded s t.toNat k).trans hslot)
    refine ⟨_, _, congrArg Host.Outcome.next ((timerDue_of_saved htimer htask hloc hdue).trans hrun), ?_,
      (slotSt_putSlot ..).trans (if_pos rfl), rfl, ?_⟩
    · rw [thr_putSlot, thr_timerEnded, if_pos rfl]
    · rw [thr_putSlot, thr_timerEnded, if_pos rfl]
  case timerEarly => exact congrArg Host.Outcome.next (timerDue_of_early htimer hearly)

end Sys2Proof.Machine
end

section
/-! PROOFS. The host's commands on the Halter (07 R157, Tables 07-8 and 07-9): SCH_POST, HLT_FDROP and HLT_QUERY. -/

namespace Sys2Proof.Machine

open Sys2Proof.Claim

variable {s t : State} {p dom prio entry buf len : Nat} {preempt : Bool} {arg : W36} {c : CmdRef}

/-! ### SCH_POST -/

/-- The item of a posted task (07 Table 07-6). -/
def postedItem (s : State) (p dom prio entry : Nat) (preempt : Bool) (buf len : Nat) (arg : W36) : Item :=
  { kind := 3, part := p, prio := prio % 16, entry := entry, preempt := preempt, dom := dom, buf := buf, len := len, arg := arg,
    t0 := tai s, tEnd := tai s, flow := 0x1FFFFFF, port := 0xFF }

/-- The index and the state of a task posted without delay into a domain. -/
def posted (s : State) (p dom prio entry : Nat) (preempt : Bool) (buf len : Nat) (arg : W36) : Nat × State :=
  issueReady s dom p (postedItem s p dom prio entry preempt buf len arg) (deadlineOf s dom (tai s))

theorem issueWaiting_of_none (h : issueHeads s = []) (fuel : Nat) : issueWaiting fuel s = s := by
  cases fuel with
  | zero => rfl
  | succ n => simp [issueWaiting, h, sortBy]

/-- A post that no earlier task precedes gets its ticket at once, when its partition may draw one (07 R133, R134). -/
theorem postTask_of_issued (hdom : dom < 4096) (hen : flag s (0x68000 + 8 * dom) 0 = true) (hown : domOwner s dom = some p)
    (hissue : canIssue s p = true) (hnone : issueHeads s = []) (agent : Nat) :
    postTask s p agent dom prio entry preempt buf len arg 0 =
      let r := posted s p dom prio entry preempt buf len arg
      (0, ticketWord r.2 r.1, r.2) := by
  unfold postTask
  rw [if_neg (by simp [hdom, hen, hown]), issueWaiting_of_none hnone]
  dsimp only
  rw [if_neg (by simp [hissue])]
  unfold posted issueReady postedItem
  generalize issueTicket s dom p _ _ = r
  obtain ⟨j, v⟩ := r
  rfl

theorem exec_schPost_of_issued {dom entry len : BitVec 16} {prio flags : BitVec 8} {buf arg : BitVec 40}
    (ha : Accepted s c 0x30) (hdom : dom.toNat < 4096) (hen : flag s (0x68000 + 8 * dom.toNat) 0 = true)
    (hown : domOwner s dom.toNat = some c.part.toNat) (hissue : canIssue s c.part.toNat = true) (hnone : issueHeads s = []) :
    let r := posted s c.part.toNat dom.toNat prio.toNat entry.toNat (bitOf flags.toNat 0) (buf.toNat % 2 ^ 36) len.toNat
      (BitVec.ofNat 36 arg.toNat)
    exec (.schPost c dom prio flags entry 0 buf len arg) s = .next (finish r.2 c 0x30 0 (ticketWord r.2 r.1).toNat 0) := by
  refine congrArg Host.Outcome.next ((hostCmd_of_accepted ha _).trans ?_)
  unfold schPost
  dsimp only
  rw [show (0 : BitVec 32).toNat = 0 from rfl, postTask_of_issued hdom hen hown hissue hnone]

/-- A command that reached the Halter alone completes. -/
theorem OnlyHalter.completed {opc status result len : Nat} (h : OnlyHalter s t) (hr : inReset s c.part.toNat = false) :
    Completed s (finish t c opc status result len) c opc status result len :=
  completed_of_rings (completed_finish (by rw [h]; exact hr)) (by rw [h]) (by rw [h])

@[simp] theorem finish_hlt (s : State) (c : CmdRef) (opc status result len : Nat) :
    (finish s c opc status result len).hlt = s.hlt := by rw [finish_frame]

/-! ### HLT_FDROP -/

theorem dropTicketAll_of_open {i : Nat} {w : W36} (h : OpenTicket s p i w) :
    dropTicketAll s i = completeTicket s ⟨i, none⟩ { disp := .drop } := by
  obtain ⟨-, -, -, -, -, hsubs, hres, -, -⟩ := h
  simp [dropTicketAll, hsubs, hres]

theorem hltFdrop_of_open {i w : Nat} (hsup : isSup s c.part.toNat = true) (hw : w < 2 ^ 36)
    (h : OpenTicket s p i (BitVec.ofNat 36 w)) :
    hltFdrop s c w = finish (completeTicket s ⟨i, none⟩ { disp := .drop }) c 0x31 0 0 0 := by
  have hopen : (ticket s i).complete = false := by
    obtain ⟨-, -, -, -, -, hsubs, hres, -, -⟩ := h
    simp [Ticket.complete, hsubs, hres]
  unfold hltFdrop
  rw [if_neg (by simp [hsup]), if_neg (Nat.not_le.mpr hw), ticketNamed_of_open h]
  dsimp only
  rw [hopen, if_neg (by decide), dropTicketAll_of_open h]

theorem hltFdrop_of_not_sup {w : Nat} (hsup : isSup s c.part.toNat = false) : hltFdrop s c w = finish s c 0x31 0x63 0 0 := by
  simp [hltFdrop, hsup]

/-! ### HLT_QUERY -/

/-- The state in which a query of a domain has been refused: one of another partition's domain is a violation (01 R17). -/
def queryRefused (s : State) (c : CmdRef) (d : Nat) : State :=
  if decide (d < 4096) && (domOwner s d).isSome && decide (domOwner s d ≠ some c.part.toNat) then
    violate s c.part.toNat 6 (hostAgent c.part.toNat) d 0
  else s

theorem onlySearch_queryRefused (s : State) (c : CmdRef) (d : Nat) : OnlySearch s (queryRefused s c d) :=
  .ite (onlySearch_violate ..) (.refl s)

theorem hltQuery_of_disabled {d addr : Nat} (hoff : flag s (0x68000 + 8 * d) 0 = false) :
    hltQuery s c d addr = finish (queryRefused s c d) c 0x32 0x61 0 0 := by
  unfold hltQuery
  dsimp only
  rw [if_neg (by simp [mayQueryDom, hoff])]
  rfl

theorem hltQuery_of_own {d addr : Nat} (hd : d < 4096) (hon : flag s (0x68000 + 8 * d) 0 = true)
    (hown : domOwner s d = some c.part.toNat) :
    hltQuery s c d addr = finish (hostWrite s c.part.toNat addr (domQuery s d)) c 0x32 0 0 16 := by
  unfold hltQuery
  dsimp only
  rw [if_pos (by simp [mayQueryDom, hd, hon, hown])]

theorem length_domQuery (s : State) (d : Nat) : (domQuery s d).length = 16 := by
  simp [domQuery, length_beOctets, zeros]

theorem toNat_nullTicket : nullTicket.toNat = 2 ^ 36 - 1 := by simp [nullTicket]

/-- The oldest ticket of a domain, which a query answers first. -/
theorem take_domQuery (s : State) (d : Nat) : (domQuery s d).take 5 =
    beOctets 5 (((domOrder s d).head?.map (fun i => (ticketWord s i).toNat)).getD (2 ^ 36 - 1)) := by
  have hmap := Option.getD_map BitVec.toNat nullTicket ((domOrder s d).head?.map (ticketWord s))
  rw [Option.map_map] at hmap
  rw [← toNat_nullTicket]
  refine Eq.trans ?_ (congrArg (beOctets 5) hmap.symm)
  unfold domQuery
  simp only [List.append_assoc]
  exact List.take_left' (length_beOctets ..)

/-- The number of tickets of a domain, which a query answers next. -/
theorem drop_domQuery (s : State) (d : Nat) : ((domQuery s d).drop 5).take 2 = beOctets 2 (domOrder s d).length := by
  simp [domQuery, List.append_assoc, length_beOctets]

/-- Settles O22: SCH_POST by `exec_schPost_of_issued`, HLT_FDROP by `hltFdrop_of_open`, HLT_QUERY by `hltQuery_of_own`. -/
theorem halterCommands : Obligations.HalterCommands := by
  unfold Obligations.HalterCommands
  intro s c dom prio flags entry buf arg tk len addr i
  refine ⟨fun ha hdom hen hown hissue hnone hfree => ?post, fun ha hsup hopen htk => ?fdrop, fun ha hsup => ?foreign,
    fun ha hoff => ?disabled, fun ha hdom hen hown hhost => ?query⟩
  case post =>
    let it := postedItem s c.part.toNat dom.toNat prio.toNat entry.toNat (bitOf flags.toNat 0) (buf.toNat % 2 ^ 36) len.toNat
      (BitVec.ofNat 36 arg.toNat)
    have hrun := exec_schPost_of_issued (prio := prio) (flags := flags) (entry := entry) (len := len) (buf := buf) (arg := arg)
      ha hdom hen hown hissue hnone
    obtain ⟨-, hunused, hhalter, ⟨pts, arr, hsame⟩, -, horder, -⟩ := issued_issueReady hfree dom.toNat c.part.toNat it (deadlineOf s dom.toNat (tai s))
    have hready := ready_issueReady s dom.toNat c.part.toNat it (deadlineOf s dom.toNat (tai s))
    have hticket : ∀ v r k, ticket (finish v c 0x30 0 r 0) k = ticket v k := fun v r k => by rw [ticket, finish_hlt]; rfl
    have hword : ∀ v r k, ticketWord (finish v c 0x30 0 r 0) k = ticketWord v k := fun v r k => by
      rw [ticketWord, hticket]; rfl
    refine ⟨_, _, it, deadlineOf s dom.toNat (tai s), hrun, ?_, hunused, ?_, ?_, rfl, rfl, rfl, rfl, ?_, ?_⟩
    · rw [hword]
      exact hhalter.completed ha.1
    · rw [hticket]
      exact congrArg Ticket.inUse hsame
    · rw [domOrder, finish_hlt]
      exact (horder _).trans (if_pos rfl)
    · rw [hword, finish_hlt]
      exact hready
    · rw [finish_mem, ← hhalter.mem]
      rfl
  case fdrop =>
    have hpass : (ticket s i).passed = false := by
      obtain ⟨-, -, -, -, -, -, -, hpass, -⟩ := hopen
      exact hpass
    have hticket : ∀ v k, ticket (finish v c 0x31 0 0 0) k = ticket v k := fun v k => by rw [ticket, finish_hlt]; rfl
    refine ⟨_, congrArg Host.Outcome.next ((hostCmd_of_accepted ha _).trans (hltFdrop_of_open hsup htk hopen)),
      (onlyHalter_completeTicket hpass _).completed ha.1, ?_, fun j hj => ?_⟩
    · rw [hticket, ticket_completeTicket hpass, if_pos rfl]
    · rw [hticket, ticket_completeTicket hpass, if_neg hj]
  case foreign =>
    exact ⟨_, congrArg Host.Outcome.next ((hostCmd_of_accepted ha _).trans (hltFdrop_of_not_sup hsup)), completed_finish ha.1,
      finish_hlt ..⟩
  case disabled =>
    have hsearch := onlySearch_queryRefused s c dom.toNat
    refine ⟨_, congrArg Host.Outcome.next ((hostCmd_of_accepted ha _).trans (hltQuery_of_disabled hoff)),
      (hsearch.finish ha.1).1, ?_, ?_⟩
    · rw [finish_hlt, hsearch]
    · rw [finish_mem, hsearch]
  case query =>
    have hlen : (domQuery s dom.toNat).length ≤ 2 ^ 64 := by rw [length_domQuery]; decide
    obtain ⟨hdone, honly, hput, -⟩ := (OnlySearch.refl s).finish_hostWrite (c := c) (opc := 0x32) (status := 0) (result := 0)
      (len := 16) (addr := addr) ha.1 hhost hlen
    exact ⟨_, _, congrArg Host.Outcome.next ((hostCmd_of_accepted ha _).trans (hltQuery_of_own hdom hen hown)), hdone, hput,
      honly, length_domQuery .., take_domQuery .., drop_domQuery ..⟩

end Sys2Proof.Machine
end

section
/-! PROOFS. Issue of an M-unit syllable (08 R160, R161; 09 Table 09-6): its effect runs on the state `issuing`, whose other
parts are as before. -/

namespace Sys2Proof.Machine

open Sys2Proof.Claim

variable {s u : State} {t : Thr} {g : Gd} {p i : Nat} {w : W36}

/-- A syllable whose guard lets it execute runs its effect past its bundle. -/
theorem issueOne_of_runs {x : Syl} {f : Fx} (h : Runs s t g) (hguard : x.guard = g) (hdef : x.undef = false)
    (hfx : x.fx (updCtx s t.toNat (fun c => c.turn)) = f) (hstall : f.stall = false) (hfault : f.fault = none) :
    issueOne s t x = f.run (f.pre (issuing s t.toNat 1)) := by
  obtain ⟨⟨hissue, hbreak, hstep, -⟩, hon⟩ := h
  exact issueOne_run hissue hbreak hstep hdef (by rw [hguard]; exact hon) hfx hstall hfault

theorem ctx_turned (s : State) (t : Thr) : (thr (updCtx s t.toNat (fun c => c.turn)) t.toNat).ctx = ctxNow s t := by
  rw [thr_updCtx, if_pos rfl, ctxNow]

theorem issueOne_mSyl (h : Runs s t g) (run : Ctx → State → State) :
    issueOne s t (mSyl t g run) = run (ctxNow s t) (issuing s t.toNat 1) := by
  rw [issueOne_of_runs h (x := mSyl t g run) rfl rfl rfl rfl rfl]
  exact congrArg (fun c => run c _) (ctx_turned s t)

theorem issueOne_lateSyl (h : Runs s t g) (rd : BitVec 5) (run : Ctx → State → W36 × State) :
    issueOne s t (lateSyl t g false rd run) =
      let r := run (ctxNow s t) (issuing s t.toNat 1)
      updCtx r.2 t.toNat (fun c => c.addLate 3 (.reg rd.toNat r.1)) := by
  rw [issueOne_of_runs h (x := lateSyl t g false rd run) rfl rfl rfl rfl rfl]
  rw [← ctx_turned]
  rfl

/-! ### The state `issuing` -/

theorem issuing_frame (s : State) (t : Thr) : issuing s t.toNat 1 = { s with
    thr := { s.thr with threads := (issuing s t.toNat 1).thr.threads }, dbg := (firstBundle s t.toNat).dbg,
    hlt := { s.hlt with
      stallSince := mdel s.hlt.stallSince (thrP s t.toNat), tickets := (firstBundle s t.toNat).hlt.tickets } } :=
  (issuing_threads s t.toNat 1).eq

/-- Only the Halter and the thread that issues differ, and the monitors. -/
theorem thr_issued (s : State) (t : Thr) : thr (issuing s t.toNat 1) t.toNat = { thr s t.toNat with
    ctx := { ctxNow s t with pc := (ctxNow s t).pc + 1 }, inWait := false, skipBp := false, routine := none } := by
  rw [thr_issuing, ctxNow, Ctx.turn_pc]
  rfl

section
variable (s : State) (t : Thr)
@[simp] theorem issuing_mem : (issuing s t.toNat 1).mem = s.mem := by rw [issuing_frame]
@[simp] theorem issuing_regs : (issuing s t.toNat 1).regs = s.regs := by rw [issuing_frame]
@[simp] theorem issuing_buf : (issuing s t.toNat 1).buf = s.buf := by rw [issuing_frame]
@[simp] theorem issuing_tasks : (issuing s t.toNat 1).thr.tasks = s.thr.tasks := by rw [issuing_frame]
@[simp] theorem issuing_ready : (issuing s t.toNat 1).hlt.ready = s.hlt.ready := by rw [issuing_frame]
@[simp] theorem issuing_delays : (issuing s t.toNat 1).hlt.delays = s.hlt.delays := by rw [issuing_frame]
@[simp] theorem tai_issuing : tai (issuing s t.toNat 1) = tai s := by rw [issuing_frame]; rfl
@[simp] theorem taskSt_issuing (k : Nat) : taskSt (issuing s t.toNat 1) k = taskSt s k := by rw [taskSt, issuing_tasks]; rfl
@[simp] theorem thrPart_issuing (k : Nat) : thrPart (issuing s t.toNat 1) k = thrPart s k := by rw [issuing_frame]; rfl
@[simp] theorem thrP_issuing (k : Nat) : thrP (issuing s t.toNat 1) k = thrP s k := by rw [thrP, thrPart_issuing]; rfl
@[simp] theorem domOwner_issuing (d : Nat) : domOwner (issuing s t.toNat 1) d = domOwner s d := by rw [issuing_frame]; rfl
@[simp] theorem domOrder_issuing (d : Nat) : domOrder (issuing s t.toNat 1) d = domOrder s d := by rw [issuing_frame]; rfl
@[simp] theorem bufTag_issuing (a : Nat) : bufTag (issuing s t.toNat 1) a = bufTag s a := by rw [bufTag, issuing_buf]; rfl
theorem ticket_issuing (j : Nat) : ticket (issuing s t.toNat 1) j = ticketAt s t j := by rw [issuing_frame]; rfl
@[simp] theorem hltCount_issuing (q k : Nat) : hltCount (issuing s t.toNat 1) q k = hltCount s q k := by
  simp only [hltCount, rdCnt, issuing_regs]
@[simp] theorem schCount_issuing (q k : Nat) : schCount (issuing s t.toNat 1) q k = schCount s q k := by
  simp only [schCount, rdCnt, issuing_regs]

@[simp] theorem thrTask_issuing : thrTask (issuing s t.toNat 1) t.toNat = thrTask s t.toNat := by
  rw [thrTask, thr_issued]
  exact Ctx.turn_task _
end

theorem thrP_of_part {k : Nat} (h : thrPart s k = some p) : thrP s k = p := by rw [thrP, h]; rfl

/-- The first bundle marks a ticket's second latency point; the rest of each ticket is as before (17 R362). -/
theorem ticketAt_eq (s : State) (t : Thr) (j : Nat) : ticketAt s t j = { ticket s j with pts := (ticketAt s t j).pts } := by
  unfold ticketAt firstBundle
  split
  · split
    · dsimp only
      split
      · rw [ticket_ticketReach]
        split
        · next h => rw [h]
        · rfl
      · rfl
    · rfl
  · rfl

theorem ticketWord_issuing (s : State) (t : Thr) (j : Nat) : ticketWord (issuing s t.toNat 1) j = ticketWord s j := by
  unfold ticketWord
  rw [ticket_issuing, ticketAt_eq]

theorem openTicket_issuing (h : OpenTicket s p i w) : OpenTicket (issuing s t.toNat 1) p i w := by
  unfold OpenTicket
  rw [ticket_issuing, ticketAt_eq, domOwner_issuing]
  exact h

/-- A ticket word names after an issue what it named before. -/
theorem ticketNamed_issuing (s : State) (t : Thr) (w : W36) : ticketNamed (issuing s t.toNat 1) w = ticketNamed s w := by
  unfold ticketNamed
  dsimp only
  rw [ticket_issuing, ticketAt_eq]

/-- A thread whose context the operation does not touch has passed its bundle. -/
theorem passed_of_ctx (h : (thr u t.toNat).ctx = (thr (issuing s t.toNat 1) t.toNat).ctx) : Passed s u t := by
  unfold Passed
  rw [h, thr_issued]
  exact ⟨rfl, rfl, rfl⟩

/-- A result still to land leaves the registers. -/
theorem passed_addLate (h : Passed s u t) (n : Nat) (l : LateTarget) :
    Passed s (updCtx u t.toNat (fun c => c.addLate n l)) t := by
  unfold Passed
  rw [thr_updCtx, if_pos rfl]
  exact h

end Sys2Proof.Machine
end

section
/-! PROOFS. The commands that complete a ticket (07 R136-R139): DROP, DONE and HOST of an open ticket, and an operation on a
word that names none. -/

namespace Sys2Proof.Machine

open Sys2Proof.Claim

variable {s v : State} {t : Thr} {g : Gd} {rd ra rb : BitVec 5} {md : BitVec 8} {p i a id dest len eflags : Nat} {x : TaskSt}
  {host : Bool} {w : W36}

/-! ### A buffer passes to the Halter -/

/-- A pointer to the front of a buffer of pool `k` that is neither quarantined nor in error (12 R249, R250). -/
def SoundPtr (s : State) (a k : Nat) : Prop :=
  poolAt s a = some k ∧ (a - poolBase s k) % poolSize s k = 0 ∧ insideRun s k a = false ∧ (bufTag s a).quar = false ∧
    tagBad s k a = false

theorem ptrCheck_of_sound {k : Nat} (h : SoundPtr s a k) : ptrCheck s a = (.ok k, s) := by
  obtain ⟨hpool, hcell, hrun, hquar, hbad⟩ := h
  simp [ptrCheck, hpool, hcell, hrun, hquar, hbad]

theorem ptrValid_iff : ptrValid s a = true ↔ ∃ k, SoundPtr s a k := by
  refine ⟨fun h => ?_, fun ⟨k, h⟩ => by rw [ptrValid, ptrCheck_of_sound h]⟩
  unfold ptrValid ptrCheck at h
  cases hpool : poolAt s a with
  | none => simp [hpool] at h
  | some k =>
    rw [hpool] at h
    dsimp only at h
    refine ⟨k, hpool, ?_⟩
    by_cases hcell : (a - poolBase s k) % poolSize s k = 0
    · cases hrun : insideRun s k a <;> cases hquar : (bufTag s a).quar <;> cases hbad : tagBad s k a <;>
        simp_all
    · simp [hcell] at h

/-- The validity of a pointer is read from the buffers, the registers and the memories. -/
theorem ptrValid_issuing (s : State) (t : Thr) (a : Nat) : ptrValid (issuing s t.toNat 1) a = true ↔ ptrValid s a = true := by
  rw [ptrValid_iff, ptrValid_iff, issuing_frame]
  rfl

theorem not_isInternal_thrAgent (t : Thr) : isInternal (thrAgent t.toNat) = false := by
  have ht := t.isLt
  rw [isInternal, decide_eq_false_iff_not, thrAgent]
  omega

/-- A thread gives the Halter a buffer that it owns (07 R139). -/
theorem giveHalter_of_owner (hvalid : ptrValid s a = true) (halloc : (bufTag s a).alloc = true)
    (howner : (bufTag s a).owner = thrAgent t.toNat) :
    giveHalter s t.toNat a = (true, setTag s a { bufTag s a with owner := halterAgent }) := by
  obtain ⟨k, hsound⟩ := ptrValid_iff.mp hvalid
  have hk := ptrCheck_of_sound hsound
  have hgive : mayGive s (thrAgent t.toNat) k halterAgent = true := by
    rw [mayGive, if_pos (by decide), not_isInternal_thrAgent]
    decide
  simp [giveHalter, bufGive, hk, halloc, howner, hgive]

/-- The state in which the buffer has passed from the thread's task to the Halter. -/
def resultTaken (s : State) (a id : Nat) : State :=
  loseSeg (unhold (setTag s a { bufTag s a with owner := halterAgent }) (some id) a) (some id) a

theorem updTask_frame (s : State) (k : Nat) (f : TaskSt → TaskSt) :
    updTask s k f = { s with thr := { s.thr with tasks := (updTask s k f).thr.tasks } } := by
  unfold updTask
  split <;> rfl

theorem taskSt_updTask (s : State) (k j : Nat) (f : TaskSt → TaskSt) :
    taskSt (updTask s k f) j = if j = k then (taskSt s k).map f else taskSt s j := by
  unfold updTask
  cases h : taskSt s k with
  | none =>
    dsimp only
    split
    · next hj => rw [hj, h]; rfl
    · rfl
  | some x => exact taskSt_putTask ..

theorem resultTaken_frame (s : State) (a id : Nat) : resultTaken s a id = { s with
    buf := (setTag s a { bufTag s a with owner := halterAgent }).buf,
    thr := { s.thr with tasks := (resultTaken s a id).thr.tasks } } := by
  unfold resultTaken loseSeg unhold
  dsimp only
  rw [updTask_frame, updTask_frame]
  rfl

section
variable (s : State) (a id : Nat)
@[simp] theorem resultTaken_mem : (resultTaken s a id).mem = s.mem := by rw [resultTaken_frame]
@[simp] theorem tai_resultTaken : tai (resultTaken s a id) = tai s := by rw [resultTaken_frame]; rfl
@[simp] theorem ticket_resultTaken (j : Nat) : ticket (resultTaken s a id) j = ticket s j := by rw [resultTaken_frame]; rfl
@[simp] theorem thr_resultTaken (k : Nat) : thr (resultTaken s a id) k = thr s k := by rw [resultTaken_frame]; rfl
theorem bufTag_resultTaken (b : Nat) : bufTag (resultTaken s a id) b =
    if b = a then { bufTag s a with owner := halterAgent } else bufTag s b := by
  rw [resultTaken_frame]
  exact bufTag_setTag ..
end

/-- The hold list of the task loses the buffer (12 R253). -/
theorem hold_resultTaken (h : taskSt s id = some x) : ∃ y, taskSt (resultTaken s a id) id = some y ∧ a ∉ y.hold := by
  have hset : taskSt (setTag s a { bufTag s a with owner := halterAgent }) id = some x := h
  unfold resultTaken loseSeg unhold
  dsimp only
  rw [taskSt_updTask, if_pos rfl, taskSt_updTask, if_pos rfl, hset]
  refine ⟨_, rfl, ?_⟩
  dsimp only
  split
  · split <;> simp
  · simp

/-- DONE and HOST of a ticket complete it with the result when queue or ring, and buffer, are theirs (07 R137-R139). -/
theorem finishResult_of_own (hdest : if host then ringOwner s dest = some p else queueOwner s dest = some p)
    (hvalid : ptrValid s a = true) (halloc : (bufTag s a).alloc = true) (howner : (bufTag s a).owner = thrAgent t.toNat)
    (htask : thrTask s t.toNat = some id) :
    finishResult s t.toNat p ⟨i, none⟩ host a len dest eflags = completeTicket (resultTaken s a id) ⟨i, none⟩
      { disp := if host then .host else .egress, buf := a, len := len, dest := dest, eflags := eflags } := by
  have hown : (if host then ringOwner s dest else queueOwner s dest) = some p := by
    cases host <;> exact hdest
  unfold finishResult
  simp only [hown, decide_true, Bool.true_or, if_true, htask, giveHalter_of_owner hvalid halloc howner, Bool.and_true]
  rfl

/-! ### A word that names no ticket -/

/-- A word names no ticket in use: a reserved bit, an index that is free, another GEN or another DOM (07 R136). -/
def NamesNone (s : State) (w : Nat) : Prop :=
  let k := ticket s (w % 2 ^ 14)
  w / 2 ^ 34 ≠ 0 ∨ k.inUse = false ∨ w / 2 ^ 14 % 16 ≠ k.gen.toNat ∨ w / 2 ^ 22 % 4096 ≠ k.dom

theorem ticketNamed_of_namesNone (h : NamesNone s w.toNat) : ticketNamed s w = none := by
  have hw := w.isLt
  have hhigh : bitsOf w.toNat 35 34 = w.toNat / 2 ^ 34 := by unfold bitsOf; omega
  unfold NamesNone at h
  rw [← hhigh] at h
  exact if_pos (by simpa [bitsOf] using h)

theorem ticketCheck_issuing_of_namesNone (h : NamesNone s w.toNat) : ticketCheck (issuing s t.toNat 1) p w = .stale := by
  rw [ticketCheck, ticketNamed_issuing, ticketNamed_of_namesNone h]

/-- A stale word counts in HLT_CNT 7. -/
structure CountsStale (s v : State) (t : Thr) (p : Nat) : Prop where
  passed : Passed s v t
  ticket : ∀ j, ticket v j = ticketAt s t j
  buf : v.buf = s.buf
  mem : v.mem = s.mem
  count : hltCount v p 7 = hltCount s p 7 + 1

theorem countsStale_hltCnt (s : State) (t : Thr) (p : Nat) : CountsStale s (hltCnt (issuing s t.toNat 1) p 7) t p where
  passed := passed_of_ctx (by rw [thr, hltCnt_thr, ← thr])
  ticket := fun j => by rw [ticket_hltCnt, ticket_issuing]
  buf := by rw [hltCnt_buf, issuing_buf]
  mem := by rw [hltCnt_mem, issuing_mem]
  count := by rw [hltCount_hltCnt, hltCount_issuing]

theorem CountsStale.addLate (h : CountsStale s v t p) (n : Nat) (l : LateTarget) :
    CountsStale s (updCtx v t.toNat (fun c => c.addLate n l)) t p where
  passed := passed_addLate h.passed n l
  ticket := h.ticket
  buf := h.buf
  mem := h.mem
  count := h.count

/-- Every operation on a stale word ends with the count. -/
theorem stale_of_namesNone (hruns : Runs s t g) (hpart : thrPart s t.toNat = some p)
    (hnone : NamesNone s ((ctxNow s t).g ra.toNat).toNat) :
    ∀ i ∈ [Instr.doneTicket t g rd ra rb md, .hostDone t g rd ra rb md, .dropTicket t g rd ra rb md,
      .deferTask t g rd ra rb md, .splitTicket t g rd ra rb md], ∃ u, exec i s = .next u ∧ CountsStale s u t p := by
  have hp : thrP (issuing s t.toNat 1) t.toNat = p := by rw [thrP_issuing, thrP_of_part hpart]
  have hstale := ticketCheck_issuing_of_namesNone (t := t) (p := p) hnone
  have hcount := countsStale_hltCnt s t p
  simp only [List.forall_mem_cons, List.not_mem_nil, false_implies, implies_true, and_true]
  refine ⟨⟨_, congrArg Host.Outcome.next ((issueOne_mSyl hruns _).trans ?_), hcount⟩,
    ⟨_, congrArg Host.Outcome.next ((issueOne_mSyl hruns _).trans ?_), hcount⟩,
    ⟨_, congrArg Host.Outcome.next ((issueOne_mSyl hruns _).trans ?_), hcount⟩,
    ⟨_, congrArg Host.Outcome.next ((issueOne_mSyl hruns _).trans ?_), hcount⟩,
    ⟨_, congrArg Host.Outcome.next ((issueOne_lateSyl hruns rd _).trans ?_), hcount.addLate 3 (.reg rd.toNat nullTicket)⟩⟩
  · simp only [endTicket, rg, hp, hstale, refuseTicket]
  · simp only [endTicket, rg, hp, hstale, refuseTicket]
  · simp only [dropOp, rg, hp, hstale, refuseTicket]
  · simp only [deferOp, rg, hp, hstale, refuseTicket]
  · simp only [splitOp, rg, hp, hstale, refuseTicket]

theorem staleTicket_holds : staleTicket := by
  intro s t g rd ra rb md p hruns hpart w k hnone i hi
  obtain ⟨u, hexec, hpassed, hticket, hbuf, hmem, hcount⟩ :=
    stale_of_namesNone (rd := rd) (rb := rb) (md := md) hruns hpart hnone i hi
  exact ⟨u, hexec, hpassed, hticket, hbuf, hmem, hcount⟩

/-! ### An open ticket -/

theorem exec_dropTicket (hruns : Runs s t g) (hpart : thrPart s t.toNat = some p)
    (hopen : OpenTicket s p i ((ctxNow s t).g ra.toNat)) : exec (.dropTicket t g rd ra rb md) s =
      .next (completeTicket (issuing s t.toNat 1) ⟨i, none⟩ { disp := .drop }) := by
  refine congrArg Host.Outcome.next ((issueOne_mSyl hruns _).trans ?_)
  rw [thrP_issuing, thrP_of_part hpart, dropOp, rg, ticketCheck_of_open (openTicket_issuing hopen)]

theorem exec_endTicket (hruns : Runs s t g) (hpart : thrPart s t.toNat = some p)
    (hopen : OpenTicket s p i ((ctxNow s t).g ra.toNat)) (host : Bool) :
    exec (if host then .hostDone t g rd ra rb md else .doneTicket t g rd ra rb md) s =
      .next (finishResult (issuing s t.toNat 1) t.toNat p ⟨i, none⟩ host ((ctxNow s t).g rb.toNat).toNat
        (((ctxNow s t).g rd.toNat).toNat % 2 ^ 15) (((ctxNow s t).g rd.toNat).toNat / 2 ^ 15 % 4096)
        (((ctxNow s t).g rd.toNat).toNat / 2 ^ 27)) := by
  have hrw := ((ctxNow s t).g rd.toNat).isLt
  have hflags : bitsOf ((ctxNow s t).g rd.toNat).toNat 35 27 = ((ctxNow s t).g rd.toNat).toNat / 2 ^ 27 := by
    unfold bitsOf; omega
  have hlen : bitsOf ((ctxNow s t).g rd.toNat).toNat 14 0 = ((ctxNow s t).g rd.toNat).toNat % 2 ^ 15 := by simp [bitsOf]
  have hexec : exec (if host then .hostDone t g rd ra rb md else .doneTicket t g rd ra rb md) s =
      .next (issueOne s t (sylDone host t g rd ra rb md)) := by cases host <;> rfl
  rw [hexec]
  refine congrArg Host.Outcome.next ((issueOne_mSyl hruns _).trans ?_)
  rw [thrP_issuing, thrP_of_part hpart, endTicket, rg, ticketCheck_of_open (openTicket_issuing hopen)]
  dsimp only
  rw [rg, rg, hflags, hlen]
  rfl

theorem ticketEnds_holds : ticketEnds := by
  intro s t g rd ra rb md id x p i hruns hon c a rw' dest hopen
  obtain ⟨htask, hst, hpart, -⟩ := hon
  have hpass : (ticket (issuing s t.toNat 1) i).passed = false := by
    obtain ⟨-, -, -, -, -, -, -, hpass, -⟩ := openTicket_issuing (t := t) hopen
    exact hpass
  have hown : (ticket (issuing s t.toNat 1) i).part = p := by
    obtain ⟨-, -, -, -, hown, -⟩ := openTicket_issuing (t := t) hopen
    exact hown
  refine ⟨?drop, fun hvalid halloc howner host hdest => ?result⟩
  case drop =>
    have honly := onlyHalter_completeTicket hpass { disp := .drop }
    refine ⟨_, exec_dropTicket hruns hpart hopen, passed_of_ctx ?_, ?_, ?_, fun j hj => ?_, ?_, ?_⟩
    · rw [thr, honly.thr]; rfl
    · rw [honly.mem, issuing_mem]
    · rw [ticket_completeTicket hpass, if_pos rfl, ticket_issuing, tai_issuing]
    · rw [ticket_completeTicket hpass, if_neg hj, ticket_issuing]
    · have hcount := hltCount_completeTicket_drop hpass (r := { disp := .drop }) rfl
      rw [hown] at hcount
      rw [hcount, hltCount_issuing]
    · rw [honly.buf, issuing_buf]
  case result =>
    have hdest' : if host then ringOwner (issuing s t.toNat 1) dest = some p
        else queueOwner (issuing s t.toNat 1) dest = some p := by
      rw [ringOwner, queueOwner, rdDev, rdDev, issuing_regs]; exact hdest
    have hrun := (exec_endTicket (rd := rd) (rb := rb) (md := md) hruns hpart hopen host).trans
      (congrArg Host.Outcome.next (finishResult_of_own (i := i) hdest' ((ptrValid_issuing ..).mpr hvalid)
        (by rw [bufTag_issuing]; exact halloc) (by rw [bufTag_issuing]; exact howner)
        ((thrTask_issuing s t).trans htask)))
    have hpass' : (ticket (resultTaken (issuing s t.toNat 1) a id) i).passed = false := by
      rw [ticket_resultTaken]; exact hpass
    have hbuf := bufTag_resultTaken (issuing s t.toNat 1) a id
    rw [bufTag_issuing] at hbuf
    have honly := onlyHalter_completeTicket hpass' {
      disp := if host then .host else .egress, buf := a, len := rw' % 2 ^ 15, dest := dest, eflags := rw' / 2 ^ 27 }
    refine ⟨_, hrun, passed_of_ctx ?_, ?_, fun j hj => ?_, ?_, fun b hb => ?_, ?_, ?_⟩
    · rw [thr, honly.thr, ← thr, thr_resultTaken]
    · rw [honly.mem, resultTaken_mem, issuing_mem]
    · rw [ticket_completeTicket hpass', if_neg hj, ticket_resultTaken, ticket_issuing]
    · rw [bufTag, honly.buf]
      exact (hbuf a).trans (if_pos rfl)
    · rw [bufTag, honly.buf]
      exact ((hbuf b).trans (if_neg hb)).trans (bufTag_issuing ..)
    · rw [ticket_completeTicket hpass', if_pos rfl, ticket_resultTaken, ticket_issuing, tai_resultTaken, tai_issuing]
    · rw [taskSt, honly.thr]
      exact hold_resultTaken ((taskSt_issuing s t id).trans hst)

/-- Settles O16: `ticketEnds_holds` of an open ticket, `staleTicket_holds` of a word that names none. -/
theorem ticketCompletion : Obligations.TicketCompletion := ⟨ticketEnds_holds, staleTicket_holds⟩

end Sys2Proof.Machine
end

section
/-! PROOFS. POST with a full quota (07 R133, R136, 17 R362). The mark of a task's first bundle writes the task's ticket at its
place in key order; in a map of tickets that is not in key order it lists the ticket a second time, which counts against the
quota of its partition, so that the POST of that bundle finds the quota full. -/

namespace Sys2Proof.Machine

open Sys2Proof.Claim

/-- Partition 0 owns cluster 0 and order domain 2, with a quota of two tickets. -/
def quotaOfTwo : State := wrDev (wrDev (wrDev State.reset 0x70040 3) 0x68010 3) 0x60020 (2 * 2 ^ 13)

/-- Thread 5 runs task 7, of ticket index 3, with POST's operands in registers 1 to 4: domain 2, and zeros. -/
def posterRuns : State :=
  putTask (setThr quotaOfTwo 5 { mode := .run, ctx := { regs := [(1, 2)], preds := 1, task := some 7 } }) 7
    { part := 0, prio := 3, eprio := 3, tkw := 3, entry := 16, loc := .thread 5 }

/-- The ticket map lists index 5, which is free, before index 3, which is the task's and has not seen its first bundle. -/
def unorderedTickets : State :=
  { posterRuns with hlt := { posterRuns.hlt with tickets := [(5, {}), (3, { inUse := true, task := some 7 })] } }

/-- Every hypothesis of the clause for POST holds: one of two tickets is in use. -/
theorem unorderedTickets_post :
    Runs unorderedTickets 5 0 ∧ TaskOn unorderedTickets 5 7
      { part := 0, prio := 3, eprio := 3, tkw := 3, entry := 16, loc := .thread 5 } 0 ∧
    (ctxNow unorderedTickets 5).late = [] ∧ flag unorderedTickets (0x68000 + 8 * 2) 0 = true ∧
    domOwner unorderedTickets 2 = some 0 ∧ canIssue unorderedTickets 0 = true ∧ issueHeads unorderedTickets = [] ∧
    (ticket unorderedTickets 0).inUse = false ∧ ((ctxNow unorderedTickets 5).g 1).toNat = 2 := by decide +kernel

/-- The number of tasks on the ready list after a command. -/
def readyAfter : Host.Outcome State Fault Refusal → Nat
  | .next u => u.hlt.ready.length
  | _ => 0

/-- The POST draws no ticket: the ready list stays empty. -/
theorem readyAfter_post : readyAfter (exec (.postTask 5 0 6 1 2 0) unorderedTickets) = 0 := by decide +kernel

/-- Refutes O12: its clause for POST takes `canIssue` of the state before the bundle, and at `unorderedTickets` the mark of the
first bundle, which lists the task's ticket a second time, fills the quota before the POST. The map of that state is not in key
order; in a map that is, the mark replaces the ticket in place. -/
theorem not_ticketMoves : ¬ Obligations.TicketMoves := by
  unfold Obligations.TicketMoves
  intro h
  obtain ⟨hruns, hon, hlate, hflag, hown, hissue, hheads, hfree, hdom⟩ := unorderedTickets_post
  obtain ⟨-, -, hpost⟩ := h unorderedTickets 5 0 6 1 2 0 7 _ 0 3 hruns hon (by decide) hlate
  obtain ⟨u, _, _, _, hexec, -, -, -, -, -, hready, -⟩ :=
    hpost 2 (congrArg (· % 4096) hdom).symm (by decide) hflag hown hissue hheads ⟨0, by decide, hfree⟩
  have hnone := readyAfter_post
  rw [hexec, readyAfter, hready, List.length_append] at hnone
  exact absurd hnone (Nat.succ_ne_zero _)

end Sys2Proof.Machine
end

section
/-! PROOFS. The head of an order domain (07 R135, R138, R145-R147): release, lateness, and the deadline kill. -/

namespace Sys2Proof.Machine

open Sys2Proof.Claim

variable {s t : State} {dom p i : Nat} {rest : List Nat} {r : Result}

/-! ### Routines and asynchronous events -/

/-- A count of the sequencers changes counters alone. -/
theorem mcsThr_frame (s : State) (t k : Nat) :
    mcsThr s t k = { s with regs := { s.regs with cnt := (mcsThr s t k).regs.cnt } } := by
  unfold mcsThr
  split <;> rfl

@[simp] theorem thr_mcsThr (s : State) (t k j : Nat) : thr (mcsThr s t k) j = thr s j := by rw [mcsThr_frame]; rfl

/-- A deferral is noted on the thread's routine, and counted. -/
theorem noteDeferral_frame (s : State) (t : Nat) : noteDeferral s t = { s with
    thr := { s.thr with threads := (noteDeferral s t).thr.threads },
    regs := { s.regs with cnt := (noteDeferral s t).regs.cnt } } := by
  unfold noteDeferral
  split
  · split
    · rw [mcsThr_frame]; rfl
    · rfl
  · rfl

theorem thr_noteDeferral (s : State) (t k : Nat) :
    thr (noteDeferral s t) k = { thr s k with routine := (thr (noteDeferral s t) k).routine } := by
  unfold noteDeferral
  split
  · split
    · rw [thr_mcsThr, thr_updThr]
      split
      · next h => rw [h]
      · rfl
    · rfl
  · rfl

theorem pendFault_frame (s : State) (t kind tag : Nat) : pendFault s t kind tag = { s with
    thr := { s.thr with threads := (pendFault s t kind tag).thr.threads },
    regs := { s.regs with cnt := (pendFault s t kind tag).regs.cnt } } := by
  rw [pendFault, noteDeferral_frame]
  rfl

theorem ctx_pendFault (s : State) (t kind tag : Nat) : (thr (pendFault s t kind tag) t).ctx = (thr s t).ctx := by
  rw [pendFault, thr_noteDeferral, thr_updThr, if_pos rfl]

theorem async_pendFault (s : State) (t kind tag : Nat) : (kind, tag) ∈ (thr (pendFault s t kind tag) t).async := by
  rw [pendFault, thr_noteDeferral, thr_updThr, if_pos rfl]
  exact (perm_insertBy _ _ _).mem_iff.mpr List.mem_cons_self

/-! ### The head of a domain -/

/-- The domain is in service, with a whole, unpassed packet's ticket at its head and no passed ticket behind; nothing waits for
the framer, and the journal is off. -/
structure AtHead (s : State) (dom p i : Nat) (rest : List Nat) : Prop where
  owner : domOwner s dom = some p
  bolt : inBolt s p = false
  unpassed : ∀ j ∈ rest, (ticket s j).passed = false
  order : domOrder s dom = i :: rest
  dom : (ticket s i).dom = dom
  part : (ticket s i).part = p
  subs : (ticket s i).subs = []
  fresh : (ticket s i).passed = false
  packet : (ticket s i).item.kind ≠ 1
  journal : jnlEn s = false

namespace AtHead
variable (h : AtHead s dom p i rest)
include h

theorem head : domHead s dom = some i := by
  simp [domHead, h.order, h.fresh]

theorem complete : (ticket s i).complete = (ticket s i).res.isSome := by
  rw [Ticket.complete, if_pos h.subs]

/-- No passed ticket waits, so that the settling of passed tickets changes nothing. -/
theorem settled : (domOrder s dom).foldl (fun s i => settlePassed 9 s i) s = s := by
  have hall : ∀ j ∈ domOrder s dom, (ticket s j).passed = false := by
    rw [h.order]
    exact List.forall_mem_cons.mpr ⟨h.fresh, h.unpassed⟩
  generalize domOrder s dom = l at hall
  induction l with
  | nil => rfl
  | cons j l ih =>
    rw [List.foldl_cons, settlePassed_of_unpassed (hall j List.mem_cons_self)]
    exact ih fun k hk => hall k (List.mem_cons_of_mem j hk)

theorem unheld (it : Item) : jnlHolds s it = false := by
  simp [jnlHolds, audited, h.journal]

theorem ticketRelease_eq : ticketRelease s dom = match (ticket s i).res with
    | some r => if releaseRoom s (ticket s i).item r then
        freeTicket (hltCnt (releaseResult s i none r 0 true) p 1) i
      else holdRelease s i [r]
    | none => s := by
  have hcomplete := h.complete
  unfold ticketRelease
  rw [h.owner]
  dsimp only
  rw [if_neg (by rw [h.bolt]; decide), h.settled, h.head]
  dsimp only
  rw [releaseDue, if_pos (Or.inr h.subs), h.unheld, hcomplete, if_neg h.packet, if_pos h.subs]
  cases (ticket s i).res <;> rfl

end AtHead

/-- An egress result of a packet joins egress in order, under its ticket's word. -/
theorem releaseResult_egress (hr : r.disp = .egress) (seq : BitVec 32) (last : Bool) : ∃ x,
    releaseResult s i none r seq last = { ticketReach s i none 4 with
      jnl := (releaseResult s i none r seq last).jnl,
      hlt := { (ticketReach s i none 4).hlt with egressIn := (ticketReach s i none 4).hlt.egressIn ++ [x] } } ∧
    x.item = (ticket s i).item ∧ x.res = r ∧ x.ticket = ticketWord s i := by
  unfold releaseResult
  simp only [hr]
  refine ⟨_, rfl, ?_, rfl, ticketWord_ticketReach ..⟩
  rw [ticket_ticketReach, if_pos rfl]

theorem releaseRoom_of_room {it : Item} (hkind : it.kind ≠ 1) (hr : r.disp = .egress)
    (hroom : queueDepth s r.dest + egressPending s r.dest < maxDepth s r.dest) : releaseRoom s it r = true := by
  simp [releaseRoom, hr, releaseQueue, hkind, hroom]

/-- Between `s` and `u` the head ticket of its domain left it with an egress result (07 R135, R138). -/
theorem ticketRelease_of_egress (h : AtHead s dom p i rest) (hres : (ticket s i).res = some r) (hr : r.disp = .egress)
    (hroom : queueDepth s r.dest + egressPending s r.dest < maxDepth s r.dest) :
    ticketRelease s dom = freeTicket (hltCnt (releaseResult s i none r 0 true) p 1) i := by
  rw [h.ticketRelease_eq, hres]
  exact if_pos (releaseRoom_of_room h.packet hr hroom)

theorem stfSettle_of_none (h : s.gpl.waiting = []) : stfSettle s = s := by
  unfold stfSettle
  simp only [h, List.filter_nil, List.foldl_nil]
  rw [← h]

/-- A whole packet's ticket is passed: it waits for its result, if that is still to come (07 R145). -/
theorem passTicket_of_open (hkind : (ticket s i).item.kind ≠ 1) (hsubs : (ticket s i).subs = [])
    (hres : (ticket s i).res = none) (pol : Nat) : passTicket s i pol =
      hltCnt (ticketReach (setTicket s i { ticket s i with passed := true, passPolicy := pol }) i none 4)
        (ticket s i).part 5 := by
  unfold passTicket
  dsimp only
  rw [passedSubs, if_pos hsubs, List.foldl_cons, List.foldl_nil, if_neg hkind]
  generalize hv : hltCnt _ (ticket s i).part 5 = v
  have hticket : (ticket v i).subs = [] ∧ (ticket v i).res = none := by
    rw [← hv, ticket_hltCnt, ticket_ticketReach, if_pos rfl, ticket_setTicket, if_pos rfl]
    exact ⟨hsubs, hres⟩
  obtain ⟨hsubs', hres'⟩ := hticket
  simp [settlePassed, hsubs', hres']

/-- A packet's head ticket is passed under a policy of pass (07 R145). -/
theorem latenessCheck_of_late (h : AtHead s dom p i rest) (hres : (ticket s i).res = none)
    (hlate : (ticket s i).deadline ≤ tai s) (hpol : domPolicy s dom = 1) : latenessCheck s dom =
      hltCnt (ticketReach (setTicket s i { ticket s i with passed := true, passPolicy := 1 }) i none 4)
        (ticket s i).part 5 := by
  have hcomplete := h.complete
  rw [hres] at hcomplete
  unfold latenessCheck
  rw [h.owner, h.head]
  dsimp only
  rw [if_neg (by simp [h.bolt, Nat.not_lt.mpr hlate, hcomplete, hpol]), if_neg (by simp [hpol]), hpol]
  exact passTicket_of_open h.packet h.subs hres 1

theorem latenessCheck_of_early (h : AtHead s dom p i rest) (hearly : tai s < (ticket s i).deadline) :
    latenessCheck s dom = s := by
  unfold latenessCheck
  rw [h.owner, h.head]
  exact if_pos (Or.inr (Or.inl hearly))

/-- The kill of a late ticket's task, which runs on a thread (07 R147). -/
theorem deadlineKill_of_running {id th : Nat} {x : TaskSt} (huse : (ticket s i).inUse = true)
    (hkilled : (ticket s i).killed = false) (hcomplete : (ticket s i).complete = false)
    (hkill : bitsOf (hltDom s (ticket s i).dom) 30 23 ≠ 0)
    (hlate : (ticket s i).deadline + 1000 * bitsOf (hltDom s (ticket s i).dom) 30 23 ≤ tai s)
    (htask : (ticket s i).task = some id) (hst : taskSt s id = some x) (hloc : x.loc = .thread th) (hfault : x.fault = none) :
    deadlineKill s i = setTicket (pendFault s th 4 0) i { ticket s i with killed := true } := by
  have hticket : ticket (pendFault s th 4 0) i = ticket s i := by rw [pendFault_frame]; rfl
  unfold deadlineKill
  dsimp only
  rw [if_neg (by simp [huse, hkilled, hcomplete, hkill, Nat.not_lt.mpr hlate]), htask]
  dsimp only
  rw [hst]
  dsimp only
  rw [hloc]
  dsimp only
  rw [if_neg (by simp [hfault]), hticket, htask]

/-- Settles O21: `ticketRelease_of_egress`, `latenessCheck_of_late` and `deadlineKill_of_running`, each at a head that
`AtHead` describes. -/
theorem ticketHead : Obligations.TicketHead := by
  unfold Obligations.TicketHead
  intro s dom p i rest howner hserve hi _ hrest horder hdom hpart hsubs hpassed hkind huse _ hwait hjnl
  have h : AtHead s dom.toNat p i rest := ⟨howner, hserve.2, hrest, horder, hdom, hpart, hsubs, hpassed, hkind, hjnl⟩
  refine ⟨fun r hres hr hroom => ?egress, fun hres => ?incomplete, fun hres hlate hpol => ?late, fun hearly => ?early,
    fun hres hkilled hkill hlate id x th htask hst hloc hfault => ?kill⟩
  case egress =>
    obtain ⟨x, hrelease, hitem, hresult, hword⟩ := releaseResult_egress (s := s) (i := i) hr 0 true
    have hticket : ∀ j, ticket (releaseResult s i none r 0 true) j = ticket (ticketReach s i none 4) j := fun j => by
      rw [hrelease]; rfl
    have horder' : ∀ d, domOrder (releaseResult s i none r 0 true) d = domOrder s d := fun d => by
      rw [hrelease]; exact domOrder_ticketReach ..
    have hsettle : (freeTicket (hltCnt (releaseResult s i none r 0 true) p 1) i).gpl.waiting = [] := by
      change (releaseResult s i none r 0 true).gpl.waiting = []
      rw [hrelease, ticketReach_eq]
      exact hwait
    have hrun := ticketRelease_of_egress h hres hr hroom
    refine ⟨_, x, congrArg Host.Outcome.next ((congrArg stfSettle hrun).trans (stfSettle_of_none hsettle)), ?_, hitem, hresult,
      hword, ?_, ?_, ?_, fun j hj => ?_, ?_, ?_⟩
    · change (releaseResult s i none r 0 true).hlt.egressIn = _
      rw [hrelease, ticketReach_eq]
    · rw [domOrder_freeTicket, ticket_hltCnt, hticket, ticket_ticketReach, if_pos rfl, if_pos hdom.symm]
      change (domOrder (releaseResult s i none r 0 true) _).filter _ = _
      rw [horder', horder]
      simp
    · rw [ticket_freeTicket, if_pos rfl]
    · rw [ticket_freeTicket, if_pos rfl, ticket_hltCnt, hticket, ticket_ticketReach, if_pos rfl]
    · rw [ticket_freeTicket, if_neg hj, ticket_hltCnt, hticket, ticket_ticketReach, if_neg hj]
    · change (releaseResult s i none r 0 true).mem = _
      rw [hrelease, ticketReach_mem]
    · change hltCount (hltCnt (releaseResult s i none r 0 true) p 1) p 1 = _
      rw [hltCount_hltCnt, hrelease]
      simp only [hltCount, rdCnt, ticketReach_regs]
  case incomplete =>
    refine congrArg Host.Outcome.next ?_
    rw [h.ticketRelease_eq, hres]
    exact stfSettle_of_none hwait
  case late =>
    have hrun := latenessCheck_of_late h hres hlate (by
      have hbits : bitsOf (hltDom s dom.toNat) 6 5 = 1 := hpol
      simp [domPolicy, hbits])
    generalize hv : setTicket s i { ticket s i with passed := true, passPolicy := 1 } = v at hrun
    have hsettle : (hltCnt (ticketReach v i none 4) (ticket s i).part 5).gpl.waiting = [] := by
      change (ticketReach v i none 4).gpl.waiting = []
      rw [ticketReach_eq, ← hv]
      exact hwait
    refine ⟨_, congrArg Host.Outcome.next ((congrArg stfSettle hrun).trans (stfSettle_of_none hsettle)), ?_, fun j hj => ?_,
      ?_, ?_, ?_⟩
    · rw [ticket_hltCnt, ticket_ticketReach, if_pos rfl, ← hv, ticket_setTicket, if_pos rfl]
      rfl
    · rw [ticket_hltCnt, ticket_ticketReach, if_neg hj, ← hv, ticket_setTicket, if_neg hj]
    · change domOrder (ticketReach v i none 4) _ = _
      rw [domOrder_ticketReach, ← hv]
      rfl
    · rw [hltCnt_mem, ticketReach_mem, ← hv]
      rfl
    · rw [hpart, hltCount_hltCnt, ← hv]
      simp only [hltCount, rdCnt, ticketReach_regs, setTicket_regs]
  case early =>
    refine congrArg Host.Outcome.next ?_
    rw [latenessCheck_of_early h hearly]
    exact stfSettle_of_none hwait
  case kill =>
    have hidx : (BitVec.ofNat 14 i).toNat = i := by rw [BitVec.toNat_ofNat, Nat.mod_eq_of_lt hi]
    have hcomplete : (ticket s i).complete = false := by rw [h.complete, hres]; rfl
    have hrun := deadlineKill_of_running huse hkilled hcomplete (by rw [hdom]; exact hkill) (by rw [hdom]; exact hlate) htask
      hst hloc hfault
    refine ⟨_, congrArg Host.Outcome.next ((congrArg (deadlineKill s) hidx).trans hrun), ?_, ?_, ?_, ?_, ?_⟩
    · rw [ticket_setTicket, if_pos rfl]
    · exact async_pendFault s th 4 0
    · exact ctx_pendFault s th 4 0
    · rw [setTicket_mem, pendFault_frame]
    · rw [setTicket_thr, pendFault_frame]

end Sys2Proof.Machine
end

section
/-! PROOFS. DISPATCH (07 R148, R149, Table 07-5; 08 R164): the digest an audited task waits for, and the context of a task that a
thread is given. -/

namespace Sys2Proof.Machine

open Sys2Proof.Claim

variable {s t : State} {p level th : Nat} {w : W36} {it : Item} {dl : Nat} {more : List ReadyEnt} {ws : List Nat}

/-! ### The input digest -/

/-- A wait for a digest is noted on its ticket, and counted (13 Table 13-17). -/
theorem noteDigest_frame (s : State) (p : Nat) : noteDigest s p = { s with
    hlt := { s.hlt with tickets := (noteDigest s p).hlt.tickets },
    regs := { s.regs with cnt := (noteDigest s p).regs.cnt } } := by
  unfold noteDigest
  split
  · dsimp only
    split <;> rfl
  · rfl

theorem rdCnt_noteDigest (s : State) (p o : Nat) (h : o ≠ 0xC0130) : rdCnt (noteDigest s p) o = rdCnt s o := by
  unfold noteDigest
  split
  · dsimp only
    split
    · exact (rdCnt_cntAdd ..).trans (if_neg h)
    · rfl
  · rfl

section
variable (s : State) (p : Nat)
@[simp] theorem noteDigest_thr : (noteDigest s p).thr = s.thr := by rw [noteDigest_frame]
@[simp] theorem noteDigest_mem : (noteDigest s p).mem = s.mem := by rw [noteDigest_frame]
@[simp] theorem noteDigest_seq : (noteDigest s p).seq = s.seq := by rw [noteDigest_frame]
@[simp] theorem noteDigest_ready : (noteDigest s p).hlt.ready = s.hlt.ready := by rw [noteDigest_frame]
theorem readyOf_noteDigest : readyOf (noteDigest s p) p = readyOf s p := by rw [noteDigest_frame]; rfl
theorem waitersOf_noteDigest : waitersOf (noteDigest s p) p = waitersOf s p := by rw [noteDigest_frame]; rfl
end

theorem dispatchOne_of_none (h : readyOf s p = []) : dispatchOne s p = s ∨ dispatchOne s p = noteDigest s p := by
  unfold dispatchOne
  split
  · exact Or.inl rfl
  · dsimp only
    rw [readyOf_noteDigest, h]
    exact Or.inr rfl

/-! ### The window of a dispatched task -/

theorem getD_zeros (n i : Nat) : (zeros n).getD i 0 = 0 := by
  rw [zeros, List.getD_eq_getElem?_getD, List.getElem?_replicate]
  split <;> rfl

theorem getD_fit (n : Nat) (l : List Octet) (i : Nat) : (fit n l).getD i 0 = if i < n then l.getD i 0 else 0 := by
  change (l.take n ++ zeros (n - (l.take n).length)).getD i 0 = _
  by_cases hl : i < (l.take n).length
  · have hi : i < n := by rw [List.length_take] at hl; omega
    rw [List.getD_append _ _ _ _ hl, if_pos hi, List.getD_eq_getElem?_getD, List.getElem?_take_of_lt hi,
      ← List.getD_eq_getElem?_getD]
  · rw [List.getD_append_right _ _ _ _ (Nat.not_lt.mp hl), getD_zeros]
    rw [List.length_take] at hl
    split
    · rw [List.getD_eq_default _ _ (by omega)]
    · rfl

theorem getD_devRead (s : State) (a n i : Nat) : (devRead s a n).getD i 0 = if i < n then mget 0 s.mem.dev (a + i) else 0 := by
  unfold devRead devOct
  by_cases h : i < n <;> simp [List.getD_eq_getElem?_getD, h]

/-- The packet window of a new task: its records, and the front of its buffer (07 Table 07-5, 08 R164). -/
def freshWindow (s : State) (it : Item) : List Octet :=
  (if it.kind = 3 then zeros 128 else fit 64 it.precd ++ fit 64 it.cls) ++
    (if it.kind = 3 ∧ !ptrValid s it.buf then zeros 384 else windowBody s it.buf it.len)

theorem mget_windowMap (l : List Octet) (hl : l.length = 512) (i : Nat) (hi : i < 512) : mget 0 (windowMap l) i = l.getD i 0 := by
  rw [windowMap, List.take_of_length_le (le_of_eq hl), mget_putOctets, if_pos ⟨Nat.zero_le i, by omega, rfl⟩]
  rfl

theorem length_freshWindow (s : State) (it : Item) : (freshWindow s it).length = 512 := by
  have hzeros : ∀ n, (zeros n).length = n := fun n => List.length_replicate
  unfold freshWindow windowBody
  rw [List.length_append, apply_ite List.length, apply_ite List.length, List.length_append, length_fit, length_fit, length_fit,
    hzeros, hzeros, ite_self, ite_self]

/-- The front of a packet's buffer stands behind its records. -/
theorem freshWindow_body (hkind : it.kind ≠ 3) (i : Nat) (hi : i < 384) : (freshWindow s it).getD (128 + i) 0 =
    if i < it.len then mget 0 s.mem.dev (it.buf + i) else 0 := by
  have hfront : (fit 64 it.precd ++ fit 64 it.cls).length = 128 := by simp
  unfold freshWindow
  rw [if_neg hkind, if_neg (fun h => hkind h.1), List.getD_append_right _ _ _ _ (by omega), hfront, Nat.add_sub_cancel_left,
    windowBody, getD_fit, if_pos hi, getD_devRead]
  by_cases h : i < it.len
  · rw [if_pos (by omega), if_pos h]
  · rw [if_neg (by omega), if_neg h]

/-- A posted task has no records. -/
theorem freshWindow_front (hkind : it.kind = 3) (i : Nat) (hi : i < 128) : (freshWindow s it).getD i 0 = 0 := by
  unfold freshWindow
  rw [if_pos hkind, List.getD_append _ _ _ _ (by rwa [zeros, List.length_replicate])]
  exact getD_zeros 128 i

/-! ### The context of a dispatched task -/

/-- The record of a new task on thread `th` (08 Table 08-2). -/
def freshTask (s : State) (th : Nat) (w : W36) (it : Item) (dl : Nat) : TaskSt where
  part := it.part
  prio := it.prio
  eprio := it.prio
  tkw := w
  entry := it.entry
  recG := dispatchRegs s w it dl
  recWin := if it.kind = 3 then zeros 128 else fit 64 it.precd ++ fit 64 it.cls
  loc := .thread th
  agent := thrAgent th
  preempt := it.preempt
  seg := taskSeg s it.buf
  dispSeq := s.seq

/-- The state in which a new task has its record, its buffer and its ticket. -/
def freshTaken (s : State) (th : Nat) (w : W36) (it : Item) (dl : Nat) : State :=
  let u := takeG3 (putTask { s with seq := s.seq + 1 } s.seq (freshTask s th w it dl)) th s.seq it.part it.buf
  match ticketNamed u w with
  | some n => setTicket u n.idx { ticket u n.idx with dispatched := true, task := some s.seq }
  | none => u

/-- The context of a new task. -/
def freshCtx (s : State) (c : Ctx) (w : W36) (it : Item) (dl : Nat) : Ctx :=
  dispatchCtx c s.seq (dispatchRegs s w it dl) it.entry w (freshWindow s it)

theorem dispatchFresh_eq (s : State) (th : Nat) (w : W36) (it : Item) (dl : Nat) : dispatchFresh s th w it dl =
    schCnt (startThread (unstall (freshTaken s th w it dl) it.part) th (fun c => freshCtx s c w it dl)) it.part 0 := rfl

theorem unholdAll_frame (s : State) (a : Nat) : unholdAll s a = { s with
    thr := { s.thr with tasks := (unholdAll s a).thr.tasks } } := by
  unfold unholdAll
  generalize s.thr.tasks = l
  induction l generalizing s with
  | nil => rfl
  | cons x l ih =>
    rw [List.foldl_cons]
    split
    · rw [ih, updTask_frame]
    · exact ih s

theorem takeG3_frame (s : State) (th id p a : Nat) : takeG3 s th id p a = { s with
    buf := (takeG3 s th id p a).buf, thr := { s.thr with tasks := (takeG3 s th id p a).thr.tasks } } := by
  unfold takeG3
  split
  · rfl
  · dsimp only
    rw [updTask_frame]
    split
    · rw [unholdAll_frame]; rfl
    · rfl

theorem freshTaken_frame (s : State) (th : Nat) (w : W36) (it : Item) (dl : Nat) : freshTaken s th w it dl = { s with
    seq := s.seq + 1, buf := (freshTaken s th w it dl).buf,
    thr := { s.thr with tasks := (freshTaken s th w it dl).thr.tasks },
    hlt := { s.hlt with tickets := (freshTaken s th w it dl).hlt.tickets } } := by
  unfold freshTaken
  dsimp only
  split
  · rw [takeG3_frame]; rfl
  · rw [takeG3_frame]; rfl

section
variable (s : State) (th : Nat) (w : W36) (it : Item) (dl : Nat)
theorem freshTaken_mem : (freshTaken s th w it dl).mem = s.mem := by rw [freshTaken_frame]
theorem freshTaken_ready : (freshTaken s th w it dl).hlt.ready = s.hlt.ready := by rw [freshTaken_frame]
theorem thr_freshTaken (k : Nat) : thr (freshTaken s th w it dl) k = thr s k := by rw [freshTaken_frame]; rfl
theorem schCount_freshTaken (q k : Nat) : schCount (freshTaken s th w it dl) q k = schCount s q k := by
  rw [freshTaken_frame]; rfl
end

@[simp] theorem thr_leaveWaiters (s : State) (th k : Nat) : thr (leaveWaiters s th) k = thr s k := rfl

/-- A thread that starts a task runs, and waits for work no longer. -/
theorem thr_startThread (s : State) (th k : Nat) (f : Ctx → Ctx) : thr (startThread s th f) k =
    if k = th then { thr s th with
      ctx := f (thr s th).ctx, mode := .run, inWait := false, fetchStop := false, stepping := false, skipBp := false,
      async := [], routine := none }
    else thr s k := by
  rw [startThread, thr_leaveWaiters, thr_updThr]

/-- The kind of a task record stands in its low four bits, which LATE does not touch. -/
theorem toNat_withLate_mod (n : Nat) (late : Bool) : (withLate (BitVec.ofNat 36 n) late).toNat % 16 = n % 16 := by
  have hmod : n % 2 ^ 36 % 2 ^ 4 = n % 2 ^ 4 := Nat.mod_mod_of_dvd n (by decide)
  cases late with
  | false => exact hmod
  | true =>
    rw [withLate, if_pos rfl, BitVec.toNat_or, BitVec.toNat_ofNat, show 16 = 2 ^ 4 from rfl, Nat.or_mod_two_pow, hmod]
    exact Nat.or_zero _

@[simp] theorem thr_schCnt (s : State) (q j k : Nat) : thr (schCnt s q j) k = thr s k := rfl

@[simp] theorem schCount_startThread (s : State) (th : Nat) (f : Ctx → Ctx) (q k : Nat) :
    schCount (startThread s th f) q k = schCount s q k := rfl

@[simp] theorem startThread_mem (s : State) (th : Nat) (f : Ctx → Ctx) : (startThread s th f).mem = s.mem := rfl

@[simp] theorem startThread_ready (s : State) (th : Nat) (f : Ctx → Ctx) : (startThread s th f).hlt.ready = s.hlt.ready := rfl

@[simp] theorem unstall_mem (s : State) (p : Nat) : (unstall s p).mem = s.mem := rfl

@[simp] theorem unstall_ready (s : State) (p : Nat) : (unstall s p).hlt.ready = s.hlt.ready := rfl

@[simp] theorem schCount_unstall (s : State) (p q k : Nat) : schCount (unstall s p) q k = schCount s q k := rfl

section
variable (s : State) (c : Ctx) (w : W36) (it : Item) (dl : Nat)
theorem task_freshCtx : (freshCtx s c w it dl).task = some s.seq := rfl
theorem tk_freshCtx : (freshCtx s c w it dl).tk = w := rfl
theorem pg_freshCtx : (freshCtx s c w it dl).pg = 0 := rfl
theorem tags_freshCtx : (freshCtx s c w it dl).tags = [] := rfl
theorem win_freshCtx : (freshCtx s c w it dl).win = windowMap (freshWindow s it) := rfl
theorem pc_freshCtx : (freshCtx s c w it dl).pc.toNat = it.entry % 2 ^ 16 := BitVec.toNat_ofNat ..
end

/-- Selectors 6 and 7 name the window and the task's descriptor (08 Table 08-2). -/
theorem sel_freshCtx (s : State) (c : Ctx) (w : W36) (it : Item) (dl : Nat) :
    (freshCtx s c w it dl).sel 6 = 0x800 ∧ (freshCtx s c w it dl).sel 7 = 0x801 := by
  unfold freshCtx dispatchCtx Ctx.sel
  dsimp only
  constructor
  · rw [mget_mset, if_neg (by decide), mget_mset_self]
    rfl
  · rw [mget_mset_self]
    rfl

/-- The first eight registers of a dispatched task (07 Table 07-5). -/
theorem g_freshCtx (s : State) (c : Ctx) (w : W36) (it : Item) (dl : Nat) :
    (freshCtx s c w it dl).g 2 = w ∧ (freshCtx s c w it dl).g 3 = BitVec.ofNat 36 it.buf ∧
      (freshCtx s c w it dl).g 4 = BitVec.ofNat 36 it.len ∧ (freshCtx s c w it dl).g 5 = it.arg ∧
      ((freshCtx s c w it dl).g 1).toNat % 16 = it.kind % 16 := by
  have hg : ∀ r, (freshCtx s c w it dl).g r =
      ((dispatchRegs s w it dl).zipIdx.foldl (fun (c : Ctx) vi => c.setG (vi.2 + 1) vi.1) c).g r := fun _ => rfl
  simp only [hg, dispatchRegs, List.zipIdx_cons, List.zipIdx_nil, List.foldl_cons, List.foldl_nil, Ctx.g_setG]
  norm_num [toNat_withLate_mod]
  omega

/-! ### The choice of task and thread -/

/-- The first ready task goes to the thread that has waited longest, when that thread takes every task (07 R148). -/
theorem dispatchOne_of_fresh (hserve : InService s p) (hready : readyOf s p = ⟨p, level, .fresh w it dl⟩ :: more)
    (hwait : waitersOf s p = th :: ws) (hmask : (thr s th).mask = 0) : dispatchOne s p =
      dispatchFresh { noteDigest s p with hlt := { (noteDigest s p).hlt with
        ready := s.hlt.ready.erase ⟨p, level, .fresh w it dl⟩ } } th w it dl := by
  obtain ⟨hreset, hbolt⟩ := hserve
  have haccepts : accepts (noteDigest s p) th ⟨p, level, .fresh w it dl⟩ = true := by
    have hmask' : (thr (noteDigest s p) th).mask = 0 := by rw [thr, noteDigest_thr]; exact hmask
    simp [accepts, hmask']
  unfold dispatchOne
  rw [if_neg (by simp [hreset, hbolt])]
  dsimp only
  rw [readyOf_noteDigest, waitersOf_noteDigest, hready, hwait, noteDigest_ready, List.findSome?_cons,
    List.find?_cons_of_pos (by exact haccepts)]
  rfl

/-- Settles O18: no task is ready before its digest, and `dispatchOne_of_fresh` with the context `freshCtx` after it. -/
theorem dispatch : Obligations.Dispatch := by
  unfold Obligations.Dispatch
  refine ⟨fun s p hdue => ?digest, fun s p w it dl level th more ws hserve hpart _ hready hwait hmask => ?fresh⟩
  case digest =>
    have hnone : readyOf s p.toNat = [] := by simpa [readyOf, List.filter_eq_nil_iff] using hdue
    obtain h | h := dispatchOne_of_none hnone
    · exact ⟨_, congrArg Host.Outcome.next h, rfl, rfl, rfl⟩
    · exact ⟨_, congrArg Host.Outcome.next h, noteDigest_thr .., noteDigest_ready .., noteDigest_mem ..⟩
  case fresh =>
    have hrun := dispatchOne_of_fresh hserve hready hwait hmask
    generalize hv : { noteDigest s p.toNat with hlt := { (noteDigest s p.toNat).hlt with
        ready := s.hlt.ready.erase ⟨p.toNat, level, .fresh w it dl⟩ } } = v at hrun
    have hthr : v.thr = s.thr := by rw [← hv]; exact noteDigest_thr ..
    have hmem : v.mem = s.mem := by rw [← hv]; exact noteDigest_mem ..
    have hseq : v.seq = s.seq := by rw [← hv]; exact noteDigest_seq ..
    have hlist : v.hlt.ready = s.hlt.ready.erase ⟨p.toNat, level, .fresh w it dl⟩ := by rw [← hv]
    have hcount : schCount v p.toNat 0 = schCount s p.toNat 0 := by
      rw [← hv]
      exact rdCnt_noteDigest s p.toNat _ (by omega)
    rw [dispatchFresh_eq, hpart] at hrun
    have hother : ∀ k, thr (unstall (freshTaken v th w it dl) p.toNat) k = thr s k := fun k => by
      rw [thr_unstall, thr_freshTaken, thr, hthr]
      rfl
    have hnow := fun k => (thr_schCnt _ p.toNat 0 k).trans (thr_startThread (unstall (freshTaken v th w it dl) p.toNat) th k
      (fun c => freshCtx v c w it dl))
    simp only [hother] at hnow
    have hself := (hnow th).trans (if_pos rfl)
    obtain ⟨hg2, hg3, hg4, hg5, hg1⟩ := g_freshCtx v (thr s th).ctx w it dl
    obtain ⟨hsel6, hsel7⟩ := sel_freshCtx v (thr s th).ctx w it dl
    have hwin := fun i hi => mget_windowMap (freshWindow v it) (length_freshWindow v it) i hi
    refine ⟨_, freshCtx v (thr s th).ctx w it dl, congrArg Host.Outcome.next hrun, congrArg Thread.ctx hself,
      congrArg Thread.mode hself, (task_freshCtx ..).trans (congrArg some hseq), pc_freshCtx .., hg2,
      tk_freshCtx .., hg1, hg3, hg4, hg5, pg_freshCtx .., tags_freshCtx .., hsel6, hsel7, fun hkind i hi => ?_, fun hkind i hi => ?_, ?_, ?_, ?_, fun k hk => (hnow k).trans (if_neg hk), ?_⟩
    · rw [← hmem, win_freshCtx]
      exact (hwin (128 + i) (by omega)).trans (freshWindow_body hkind i hi)
    · rw [win_freshCtx]
      exact (hwin i (by omega)).trans (freshWindow_front hkind i hi)
    · rw [schCnt_hlt, startThread_ready, unstall_ready, freshTaken_ready, hlist]
    · simp [startThread, leaveWaiters]
    · rw [schCnt_mem, startThread_mem, unstall_mem, freshTaken_mem, hmem]
    · rw [schCount_schCnt, schCount_startThread, schCount_unstall, schCount_freshTaken, hcount]

end Sys2Proof.Machine
end

section
/-! PROOFS. PREEMPTION (07 R153, R154; 10 R216): the running task that is chosen, and where its context goes. -/

namespace Sys2Proof.Machine

open Sys2Proof.Claim

variable {s : State} {p t k id : Nat} {e : ReadyEnt} {x : TaskSt}

/-! ### The least urgent candidate -/

/-- The rank of a thread's task: its effective priority, then its dispatch (07 R153). -/
def taskRank (s : State) (t : Nat) : Nat × Nat :=
  match (thr s t).ctx.task.bind (taskSt s) with
  | some y => (y.eprio, y.dispSeq)
  | none => (0, 0)

/-- The less urgent of two threads. -/
def lessUrgent (rank : Nat → Nat × Nat) (best : Option Nat) (t : Nat) : Option Nat :=
  match best with
  | none => some t
  | some b => if (rank b).1 < (rank t).1 ∨ ((rank b).1 = (rank t).1 ∧ (rank b).2 < (rank t).2) then some t else some b

theorem pickCandidate_eq (s : State) (ts : List Nat) : pickCandidate s ts = ts.foldl (lessUrgent (taskRank s)) none := rfl

/-- A thread whose task has the greatest priority number of all is the one that is picked. -/
theorem foldl_lessUrgent {rank : Nat → Nat × Nat} (ts : List Nat) (best : Option Nat)
    (hbest : ∀ b, best = some b → b = t ∨ (rank b).1 < (rank t).1) (hts : ∀ v ∈ ts, v = t ∨ (rank v).1 < (rank t).1)
    (hmem : best = some t ∨ t ∈ ts) : ts.foldl (lessUrgent rank) best = some t := by
  induction ts generalizing best with
  | nil => simpa using hmem
  | cons v ts ih =>
    rw [List.foldl_cons]
    have hrest : ∀ w ∈ ts, w = t ∨ (rank w).1 < (rank t).1 := fun w hw => hts w (List.mem_cons_of_mem v hw)
    have hv := hts v List.mem_cons_self
    have hpick : lessUrgent rank best v = some v ∨ lessUrgent rank best v = best ∧ best ≠ none := by
      cases best with
      | none => exact Or.inl rfl
      | some b =>
        unfold lessUrgent
        dsimp only
        split
        · exact Or.inl rfl
        · exact Or.inr ⟨rfl, by simp⟩
    refine ih _ (fun b hb => ?_) hrest ?_
    · obtain h | ⟨h, -⟩ := hpick
      · rw [h] at hb
        exact Option.some.inj hb ▸ hv
      · exact hbest b (h ▸ hb)
    · by_cases hvt : v = t
      · left
        subst hvt
        cases best with
        | none => rfl
        | some b =>
          obtain hb | hb := hbest b rfl
          · subst hb
            simp [lessUrgent]
          · simp [lessUrgent, hb]
      · obtain h | h := hmem
        · left
          subst h
          have hlt := hv.resolve_left hvt
          unfold lessUrgent
          exact if_neg (by omega)
        · exact Or.inr ((List.mem_cons.mp h).resolve_left (Ne.symm hvt))

/-- A thread that runs is listed among its partition's. -/
theorem mem_threadsOf (hmode : (thr s t).mode = .run) (hpart : thrPart s t = some p) : t ∈ threadsOf s p := by
  have hlisted : ∃ kv ∈ s.thr.threads, kv.1 = t := by
    by_contra hnone
    rw [thr, mget_eq_mfind, mfind_eq_none_iff.mpr fun kv hkv h => hnone ⟨kv, hkv, h⟩] at hmode
    cases hmode
  obtain ⟨kv, hkv, rfl⟩ := hlisted
  exact List.mem_filter.mpr ⟨List.mem_map_of_mem hkv, decide_eq_true hpart⟩

theorem candidate_runs (h : candidate s p t e = true) :
    (thr s t).mode = .run ∧ thrPart s t = some p ∧ ∃ y, (thr s t).ctx.task.bind (taskSt s) = some y := by
  unfold candidate at h
  simp only [Bool.and_eq_true, decide_eq_true_eq] at h
  obtain ⟨⟨⟨⟨⟨⟨⟨hmode, -⟩, -⟩, -⟩, hpart⟩, htask⟩, -⟩, -⟩ := h
  refine ⟨hmode, hpart, ?_⟩
  cases hy : (thr s t).ctx.task.bind (taskSt s) with
  | none => simp [hy] at htask
  | some y => exact ⟨y, rfl⟩

/-- The thread `t` runs task `id`, the least urgent that entry `e`, the only ready one, may preempt, and slot `k` is free for
its context. -/
structure Preempts (s : State) (p t k id : Nat) (x : TaskSt) (e : ReadyEnt) : Prop where
  serve : InService s p
  enabled : flag s (0x60040 + 4 * p) 12 = true
  ready : readyOf s p = [e]
  waiters : waitersOf s p = []
  candidate : candidate s p t e = true
  task : (thr s t).ctx.task = some id
  record : taskSt s id = some x
  least : ∀ v ∈ threadsOf s p, v ≠ t → Machine.candidate s p v e = true → ∀ y,
    (thr s v).ctx.task.bind (taskSt s) = some y → y.eprio < x.eprio
  slot : freeSlot s (t / 16) = some k

namespace Preempts
variable (h : Preempts s p t k id x e)
include h

theorem bound : (thr s t).ctx.task.bind (taskSt s) = some x := by
  rw [h.task, Option.bind_some, h.record]

theorem picked : pickCandidate s (((threadsOf s p).filter (fun v => Machine.candidate s p v e)).filter
    (fun v => (freeSlot s (v / 16)).isSome)) = some t := by
  obtain ⟨hmode, hpart, -⟩ := candidate_runs h.candidate
  have hrank : (taskRank s t).1 = x.eprio := by rw [taskRank, h.bound]
  rw [pickCandidate_eq]
  refine foldl_lessUrgent _ none (fun b hb => by cases hb) (fun v hv => ?_) (Or.inr ?_)
  · obtain ⟨hv, -⟩ := List.mem_filter.mp hv
    obtain ⟨hthread, hcand⟩ := List.mem_filter.mp hv
    refine or_iff_not_imp_left.mpr fun hne => ?_
    obtain ⟨-, -, y, hy⟩ := candidate_runs hcand
    have hlt := h.least v hthread hne hcand y hy
    rw [hrank, taskRank, hy]
    exact hlt
  · refine List.mem_filter.mpr ⟨List.mem_filter.mpr ⟨mem_threadsOf hmode hpart, h.candidate⟩, ?_⟩
    rw [h.slot]
    rfl

theorem preemptOne_eq : preemptOne s p = if inBoundary s t then noteDeferral s t
    else schCnt (pushReady (saveCtx (abandonRoutine s t) t k none) p x.eprio (.saved k)) p 1 := by
  have hserve : ¬ (inBolt s p || inReset s p || !flag s (0x60040 + 4 * p) 12) = true := by
    simp [h.serve.1, h.serve.2, h.enabled]
  unfold preemptOne
  rw [if_neg hserve]
  dsimp only
  rw [h.ready, h.waiters]
  simp only [List.any_nil, Bool.not_false, List.filter_cons, List.filter_nil, if_true, List.findSome?_cons, h.picked, h.slot,
    h.bound, Option.map_some, Option.getD_some]

end Preempts

/-! ### The context in its save slot -/

theorem abandonRoutine_frame (s : State) (t : Nat) : abandonRoutine s t = { s with
    thr := { s.thr with threads := (abandonRoutine s t).thr.threads },
    regs := { s.regs with cnt := (abandonRoutine s t).regs.cnt } } := by
  unfold abandonRoutine
  split
  · rw [mcsThr_frame]; rfl
  · rfl

theorem thr_abandonRoutine (s : State) (t j : Nat) :
    thr (abandonRoutine s t) j = { thr s j with routine := (thr (abandonRoutine s t) j).routine } := by
  unfold abandonRoutine
  split
  · rw [thr_mcsThr, thr_updThr]
    split
    · next h => rw [h]
    · rfl
  · rfl

/-- A count of the sequencers is none of the scheduler's. -/
theorem schCount_mcsThr (s : State) (t j : Nat) (hp : p < 8) (n : Nat) (hn : n < 8) :
    schCount (mcsThr s t j) p n = schCount s p n := by
  unfold mcsThr
  split
  · exact (rdCnt_cntAdd ..).trans (if_neg (by omega))
  · rfl

theorem schCount_abandonRoutine (s : State) (t : Nat) (hp : p < 8) (n : Nat) (hn : n < 8) :
    schCount (abandonRoutine s t) p n = schCount s p n := by
  unfold abandonRoutine
  split
  · rw [schCount_mcsThr _ _ _ hp n hn]; rfl
  · rfl

/-- The context of a thread's task in a save slot, where its late results land (08 R161). -/
def savedCtx (s : State) (t : Nat) : Saved :=
  { ctx := (thr s t).ctx.landAll, agent := thrAgent t, fault := none, async := (thr s t).async }

theorem saveCtx_of_task (htask : (thr s t).ctx.task = some id) (hx : taskSt s id = some x) : saveCtx s t k none =
    enterGetwork (putTask (putSlot s k (savedCtx s t)) id { x with loc := .slot k, fault := none }) t := by
  have hput : taskSt (putSlot s k (savedCtx s t)) id = some x := hx
  unfold saveCtx
  dsimp only
  rw [htask]
  dsimp only
  change enterGetwork (updTask (putSlot s k (savedCtx s t)) id _) t = _
  rw [updTask, hput]

@[simp] theorem thr_joinWaiters (s : State) (t j : Nat) : thr (joinWaiters s t) j = thr s j := rfl

theorem thr_enterGetwork_self (s : State) (t : Nat) : thr (enterGetwork s t) t = { thr s t with
    mode := .getwork, inWait := false, fetchStop := false, stepping := false, async := [], haltReq := false, routine := none,
    ctx := { (thr s t).ctx.landAll with task := none, tags := [], micro := none } } := by
  rw [enterGetwork, thr_joinWaiters, thr_updThr, if_pos rfl]

/-! A thread that waits for work, a task that is ready, and a count of the scheduler: what each leaves. -/
section
variable (s : State) (t p level j n : Nat) (r : ReadyWhat)
@[simp] theorem taskSt_enterGetwork : taskSt (enterGetwork s t) j = taskSt s j := rfl
@[simp] theorem slotSt_enterGetwork : slotSt (enterGetwork s t) j = slotSt s j := rfl
@[simp] theorem enterGetwork_mem : (enterGetwork s t).mem = s.mem := rfl
@[simp] theorem enterGetwork_ready : (enterGetwork s t).hlt.ready = s.hlt.ready := rfl
@[simp] theorem enterGetwork_waiters : (enterGetwork s t).hlt.waiters = s.hlt.waiters.filter (· ≠ t) ++ [t] := rfl
@[simp] theorem schCount_enterGetwork : schCount (enterGetwork s t) p n = schCount s p n := rfl
@[simp] theorem thr_pushReady : thr (pushReady s p level r) j = thr s j := rfl
@[simp] theorem taskSt_pushReady : taskSt (pushReady s p level r) j = taskSt s j := rfl
@[simp] theorem slotSt_pushReady : slotSt (pushReady s p level r) j = slotSt s j := rfl
@[simp] theorem pushReady_mem : (pushReady s p level r).mem = s.mem := rfl
@[simp] theorem pushReady_ready : (pushReady s p level r).hlt.ready = s.hlt.ready ++ [⟨p, level, r⟩] := rfl
@[simp] theorem pushReady_waiters : (pushReady s p level r).hlt.waiters = s.hlt.waiters := rfl
@[simp] theorem schCount_pushReady : schCount (pushReady s p level r) p n = schCount s p n := rfl
@[simp] theorem taskSt_schCnt : taskSt (schCnt s p n) j = taskSt s j := rfl
@[simp] theorem slotSt_schCnt : slotSt (schCnt s p n) j = slotSt s j := rfl
end

/-- Settles O19: the choice by `Preempts.preemptOne_eq`, the save by `saveCtx_of_task`. -/
theorem preemption : Obligations.Preemption := by
  unfold Obligations.Preemption
  intro s p e t k id x hserve _ hen hready hwait hcand htask hx hleast hslot
  have h : Preempts s p.toNat t k id x e := ⟨hserve, hen, hready, hwait, hcand, htask, hx, hleast, hslot⟩
  have hrun := h.preemptOne_eq
  refine ⟨fun hbound => ?boundary, fun hbound => ?saved⟩
  case boundary =>
    rw [if_pos hbound] at hrun
    obtain ⟨hmode, -, -⟩ := candidate_runs hcand
    refine ⟨_, congrArg Host.Outcome.next hrun, ?_, ?_, ?_, ?_⟩
    · rw [noteDeferral_frame]
    · rw [thr_noteDeferral]
    · rw [thr_noteDeferral]; exact hmode
    · rw [noteDeferral_frame]
  case saved =>
    rw [if_neg (by simp [hbound])] at hrun
    have hctx : (thr (abandonRoutine s t) t).ctx = (thr s t).ctx := by rw [thr_abandonRoutine]
    have hst : taskSt (abandonRoutine s t) id = some x := by rw [abandonRoutine_frame]; exact hx
    have hcount := schCount_abandonRoutine s t p.isLt 1 (by decide)
    rw [saveCtx_of_task (hctx ▸ htask) hst] at hrun
    have hlist : (abandonRoutine s t).hlt = s.hlt := by rw [abandonRoutine_frame]
    have hmem : (abandonRoutine s t).mem = s.mem := by rw [abandonRoutine_frame]
    generalize abandonRoutine s t = v at *
    refine ⟨_, congrArg Host.Outcome.next hrun, ⟨savedCtx v t, ?_, ?_, rfl⟩, ?_, ?_, ?_, ?_, ?_,
      ⟨{ x with loc := .slot k, fault := none }, ?_, rfl⟩, ?_⟩
    · rw [slotSt_schCnt, slotSt_pushReady, slotSt_enterGetwork, slotSt_putTask, slotSt_putSlot, if_pos rfl]
    · rw [savedCtx, hctx]
    · rw [schCnt_hlt, pushReady_ready, enterGetwork_ready, ← hlist]
      rfl
    · rw [thr_schCnt, thr_pushReady, thr_enterGetwork_self]
    · rw [thr_schCnt, thr_pushReady, thr_enterGetwork_self]
    · rw [schCnt_hlt, pushReady_waiters, enterGetwork_waiters, List.getLast?_concat]
    · rw [schCnt_mem, pushReady_mem, enterGetwork_mem, ← hmem]
      rfl
    · rw [taskSt_schCnt, taskSt_pushReady, taskSt_enterGetwork, taskSt_putTask, if_pos rfl]
    · rw [schCount_schCnt, schCount_pushReady, schCount_enterGetwork, ← hcount]
      rfl

end Sys2Proof.Machine
end

section
/-! PROOFS. The end of a task in the lock unit (11 R229-R234, R242): a task that ends and waits for no lock gains none, gives up
every lock that it holds, and leaves the acceptance masks of the threads alone. -/

namespace Sys2Proof.Machine

variable {s t u v : State} {id k : Nat}

/-! ### What a task does not gain -/

/-- Between `s` and `u` task `id` gained no lock and queued no request, and the threads kept their acceptance masks. -/
structure GainsNone (id : Nat) (s u : State) : Prop where
  mask : ∀ j, (thr u j).mask = (thr s j).mask
  holder : ∀ k, (lock u k).holder = .task id → (lock s k).holder = .task id
  waits : ∀ k w, w ∈ (lock u k).waiters → w.who = .task id → ∃ x ∈ (lock s k).waiters, x.who = .task id

theorem GainsNone.refl (id : Nat) (s : State) : GainsNone id s s := ⟨fun _ => rfl, fun _ h => h, fun _ w hw hid => ⟨w, hw, hid⟩⟩

theorem GainsNone.trans (h1 : GainsNone id s t) (h2 : GainsNone id t u) : GainsNone id s u where
  mask j := (h2.mask j).trans (h1.mask j)
  holder k h := h1.holder k (h2.holder k h)
  waits k w hw hid := by
    obtain ⟨x, hx, hxid⟩ := h2.waits k w hw hid
    exact h1.waits k x hx hxid

theorem GainsNone.ite {c : Prop} [Decidable c] (h1 : GainsNone id s t) (h2 : GainsNone id s u) :
    GainsNone id s (if c then t else u) := by
  split
  · exact h1
  · exact h2

theorem GainsNone.foldl {α : Type} {f : State → α → State} (hf : ∀ s x, GainsNone id s (f s x)) (l : List α) (s : State) :
    GainsNone id s (l.foldl f s) := by
  induction l generalizing s with
  | nil => exact .refl id s
  | cons x l ih => exact (hf s x).trans (ih _)

/-- Where threads and locks are as before, nothing is gained. -/
theorem GainsNone.of_same (hthr : u.thr.threads = s.thr.threads) (hlocks : u.hsp.locks = s.hsp.locks) : GainsNone id s u where
  mask j := by rw [thr, thr, hthr]
  holder k h := by rwa [lock, hlocks] at h
  waits k w hw hid := ⟨w, by rwa [lock, hlocks] at hw, hid⟩

theorem gainsNone_setLock {l : Lock} (hholder : l.holder = .task id → (lock s k).holder = .task id)
    (hwaits : ∀ w ∈ l.waiters, w.who = .task id → ∃ x ∈ (lock s k).waiters, x.who = .task id) :
    GainsNone id s (setLock s k l) where
  mask _ := rfl
  holder j h := by
    rw [lock_setLock] at h
    split at h
    · next hj => exact hj ▸ hholder h
    · exact h
  waits j w hw hid := by
    rw [lock_setLock] at hw
    split at hw
    · next hj => exact hj ▸ hwaits w hw hid
    · exact ⟨w, hw, hid⟩

theorem gainsNone_updTask (s : State) (i : Nat) (f : TaskSt → TaskSt) : GainsNone id s (updTask s i f) := by
  rw [updTask_frame]
  exact .of_same rfl rfl

theorem gainsNone_updCtx (s : State) (i : Nat) (f : Ctx → Ctx) : GainsNone id s (updCtx s i f) where
  mask j := by
    rw [thr_updCtx]
    split
    · next h => rw [h]
    · rfl
  holder _ h := h
  waits _ w hw hid := ⟨w, hw, hid⟩

theorem gainsNone_updTaskCtx (s : State) (i : Nat) (f : Ctx → Ctx) : GainsNone id s (updTaskCtx s i f) := by
  unfold updTaskCtx
  split
  · split
    · exact gainsNone_updCtx ..
    · split
      · exact .of_same rfl rfl
      · exact .refl id s
    · exact .refl id s
  · exact .refl id s

theorem gainsNone_setEff (s : State) (i e : Nat) : GainsNone id s (setEff s i e) :=
  (gainsNone_updTask s i _).trans (.of_same rfl rfl)

theorem gainsNone_truncated (s : State) (w : LockWho) : GainsNone id s (truncated s w) := by
  unfold truncated
  split
  · exact .of_same rfl rfl
  · exact .refl id s

theorem gainsNone_hspCntOpt (s : State) (p : Option Nat) (n : Nat) : GainsNone id s (hspCntOpt s p n) := by
  unfold hspCntOpt
  split
  · exact .of_same rfl rfl
  · exact .refl id s

theorem gainsNone_without (s : State) (k : Nat) (who : LockWho) : GainsNone id s (setLock s k ((lock s k).without who)) :=
  gainsNone_setLock (fun h => h) fun w hw hid => ⟨w, List.mem_of_mem_filter hw, hid⟩

/-- A waiter that is queued again under another priority is the waiter it was. -/
theorem gainsNone_requeue {w w' : LockWaiter} (hw : w ∈ (lock s k).waiters) (hwho : w'.who = w.who) :
    GainsNone id s (setLock (setLock s k ((lock s k).without w.who)) k
      (enqueue (lock (setLock s k ((lock s k).without w.who)) k) w')) := by
  have hbare : lock (setLock s k ((lock s k).without w.who)) k = (lock s k).without w.who := by rw [lock_setLock, if_pos rfl]
  have hlock : GainsNone id s (setLock s k (enqueue ((lock s k).without w.who) w')) := by
    refine gainsNone_setLock (fun h => h) fun x hx hid => ?_
    obtain rfl | hx := List.mem_cons.mp ((perm_insertBy _ _ _).mem_iff.mp hx)
    · exact ⟨w, hw, hwho ▸ hid⟩
    · exact ⟨x, List.mem_of_mem_filter hx, hid⟩
  rw [hbare]
  refine ⟨hlock.mask, fun j h => hlock.holder j ?_, fun j x hx => hlock.waits j x ?_⟩
  · rw [lock_setLock] at h ⊢
    split at h
    · next hj => rw [if_pos hj]; exact h
    · next hj => rw [lock_setLock, if_neg hj] at h; rw [if_neg hj]; exact h
  · rw [lock_setLock] at hx ⊢
    split at hx
    · next hj => rw [if_pos hj]; exact hx
    · next hj => rw [lock_setLock, if_neg hj] at hx; rw [if_neg hj]; exact hx

/-- A change of priority that passes along the holders moves waiters, and nothing else (11 R232). -/
theorem gainsNone_propagate (n : Nat) (s : State) (i : Nat) : GainsNone id s (propagate n s i) := by
  induction n generalizing s i with
  | zero =>
    unfold propagate
    split
    · exact .refl id s
    · exact .ite (.refl id s) (gainsNone_setEff ..)
  | succ n ih =>
    unfold propagate
    split
    · exact .refl id s
    case h_2 x _ =>
      refine .ite (.refl id s) ((gainsNone_setEff s i (effPrio s i x.prio)).trans ?_)
      generalize setEff s i (effPrio s i x.prio) = t
      dsimp only
      split
      · exact .refl id t
      case h_2 k _ _ =>
        have hholder : ∀ t, GainsNone id t (match (lock t k).holder with
            | .task h => propagate n t h
            | _ => t) := fun t => by
          split
          · exact ih ..
          · exact .refl id t
        split
        · exact .refl id t
        case h_2 w hfind =>
          have hw : w ∈ (lock t k).waiters := List.mem_of_find?_eq_some hfind
          refine .ite (gainsNone_requeue hw rfl) (.ite (.trans ?_ (gainsNone_truncated ..)) (.trans ?_ (hholder _)))
          · exact gainsNone_requeue hw rfl
          · exact gainsNone_requeue hw rfl

theorem gainsNone_propagateHolder (n : Nat) (s : State) (h : Holder) : GainsNone id s (match h with
    | .task i => propagate n s i
    | _ => s) := by
  split
  · exact gainsNone_propagate ..
  · exact .refl id s

theorem gainsNone_withdraw (s : State) (k : Nat) (who : LockWho) : GainsNone id s (withdraw s k who) := by
  have hrequest : ∀ t, GainsNone id t (match who with
      | .task i => updTask t i (fun x => { x with lockPend := none })
      | .host _ => t) := fun t => by
    cases who with
    | task i => exact gainsNone_updTask ..
    | host c => exact .refl id t
  exact ((gainsNone_without s k who).trans (hrequest _)).trans (gainsNone_propagateHolder ..)

theorem gainsNone_noteLost (s : State) (k : Nat) (h : Holder) (gone : Bool) : GainsNone id s (noteLost s k h gone) := by
  cases h with
  | free => exact .refl id s
  | task i => exact gainsNone_updTask ..
  | host p => exact .of_same rfl rfl

theorem gainsNone_tellGrant (s : State) (who : LockWho) (word : Nat) : GainsNone id s (tellGrant s who word) := by
  cases who with
  | task i =>
    unfold tellGrant
    dsimp only
    split
    · exact (gainsNone_updTaskCtx ..).trans (gainsNone_updTask ..)
    · exact .refl id s
  | host c =>
    rw [tellGrant, finish_frame]
    exact .of_same rfl rfl

/-- A lock whose waiters change what they signalled. -/
theorem gainsNone_signals (s : State) (k : Nat) (f : LockWaiter → Option Nat) : GainsNone id s
    (setLock s k { lock s k with waiters := (lock s k).waiters.map (fun w => { w with gave := f w }) }) := by
  refine gainsNone_setLock (fun h => h) fun w hw hid => ?_
  obtain ⟨x, hx, rfl⟩ := List.mem_map.mp hw
  exact ⟨x, hx, hid⟩

theorem gainsNone_resignal (s : State) (k : Nat) : GainsNone id s (resignal s k) := by
  unfold resignal
  split
  · exact (gainsNone_signals s k _).trans (gainsNone_propagate ..)
  · exact gainsNone_signals s k _

theorem gainsNone_grantLock {who : LockWho} (hwho : who ≠ .task id) (s : State) (k : Nat) (contended : Bool) :
    GainsNone id s (grantLock s k who contended) := by
  have hholder : who.holder ≠ .task id := by
    cases who with
    | task i => exact fun h => hwho (by injection h with h; rw [h])
    | host c => exact fun h => by cases h
  unfold grantLock
  dsimp only
  refine GainsNone.trans ?_ (gainsNone_resignal ..)
  refine GainsNone.trans ?_ (gainsNone_tellGrant ..)
  refine GainsNone.trans ?_ (gainsNone_noteLost ..)
  have hset : GainsNone id s (setLock s k { lock s k with
      holder := who.holder, orphan := false, forced := false, since := tai s, reported := false }) :=
    gainsNone_setLock (fun h => absurd h hholder) fun w hw hid => ⟨w, hw, hid⟩
  exact .ite ((hset.trans (gainsNone_hspCntOpt ..)).trans (gainsNone_hspCntOpt ..)) (hset.trans (gainsNone_hspCntOpt ..))

/-! ### The end of a task -/

/-- Task `id` waits for no lock. -/
def NoRequest (id : Nat) (s : State) : Prop := ∀ k w, w ∈ (lock s k).waiters → w.who ≠ .task id

theorem NoRequest.of_gainsNone (hs : NoRequest id s) (h : GainsNone id s u) : NoRequest id u := fun k w hw hid => by
  obtain ⟨x, hx, hxid⟩ := h.waits k w hw hid
  exact hs k x hx hxid

/-- A lock whose holder has ended, before it is handed over (11 R234). -/
def lockOrphaned (s : State) (k : Nat) : State :=
  setLock s k { lock s k with
    holder := .free, orphan := (lock s k).orphan || decide (RelMode.orphan = .orphan),
    forced := (lock s k).forced || decide (RelMode.orphan = .forced),
    waiters := (lock s k).waiters.map (fun w => { w with gave := none }) }

/-- A lock passes to its head waiter (11 R229). -/
def handedOver (s : State) (k : Nat) : State :=
  match (lock s k).waiters with
  | [] => s
  | w :: rest => grantLock (setLock s k { lock s k with waiters := rest }) k w.who true

theorem releaseLock_orphan (s : State) (k : Nat) : ∃ part former, releaseLock s k .orphan =
    let u := handedOver (hspCntOpt (match (lock s k).holder with
      | .task h => propagate 8 (lockOrphaned s k) h
      | _ => lockOrphaned s k) part 2) k
    sendEvent u 0x03 0 (beOctets 2 (k % 16384) ++ beOctets 2 former ++ beOctets 2 (holderAgent u (lock u k))) :=
  ⟨_, _, rfl⟩

theorem gainsNone_sendEvent (s : State) (code result : Nat) (detail : List Octet) :
    GainsNone id s (sendEvent s code result detail) := by
  rw [sendEvent_frame]
  exact .of_same rfl rfl

theorem gainsNone_lockOrphaned (s : State) (k : Nat) : GainsNone id s (lockOrphaned s k) := by
  refine gainsNone_setLock (fun h => by cases h) fun w hw hid => ?_
  obtain ⟨x, hx, rfl⟩ := List.mem_map.mp hw
  exact ⟨x, hx, hid⟩

theorem gainsNone_handedOver (hs : NoRequest id s) (k : Nat) : GainsNone id s (handedOver s k) := by
  unfold handedOver
  split
  · exact .refl id s
  · next w rest hw =>
    have hrest : GainsNone id s (setLock s k { lock s k with waiters := rest }) :=
      gainsNone_setLock (fun h => h) fun x hx hid => ⟨x, hw ▸ List.mem_cons_of_mem w hx, hid⟩
    exact hrest.trans (gainsNone_grantLock (hs k w (hw ▸ List.mem_cons_self)) ..)

/-- A lock that is released as an orphan is not the task's, unless the task waited for it (11 R234). -/
theorem orphaned_releaseLock (hs : NoRequest id s) (k : Nat) :
    GainsNone id s (releaseLock s k .orphan) ∧ (lock (releaseLock s k .orphan) k).holder ≠ .task id := by
  have hfree := gainsNone_lockOrphaned (id := id) s k
  have hrelease : GainsNone id (lockOrphaned s k) (releaseLock s k .orphan) := by
    obtain ⟨part, former, hrun⟩ := releaseLock_orphan s k
    rw [hrun]
    have hcount := (gainsNone_propagateHolder (id := id) 8 (lockOrphaned s k) (lock s k).holder).trans
      (gainsNone_hspCntOpt _ part 2)
    exact hcount.trans ((gainsNone_handedOver (hs.of_gainsNone (hfree.trans hcount)) k).trans (gainsNone_sendEvent ..))
  refine ⟨hfree.trans hrelease, fun hheld => ?_⟩
  have hnow := hrelease.holder k hheld
  rw [lockOrphaned, lock_setLock, if_pos rfl] at hnow
  cases hnow

/-- Locks that are released one after the other are all given up. -/
theorem orphaned_foldl (l : List Nat) (hs : NoRequest id s) :
    GainsNone id s (l.foldl (fun s k => releaseLock s k .orphan) s) ∧
      ∀ k ∈ l, (lock (l.foldl (fun s k => releaseLock s k .orphan) s) k).holder ≠ .task id := by
  induction l generalizing s with
  | nil => exact ⟨.refl id s, fun k hk => by cases hk⟩
  | cons k l ih =>
    obtain ⟨hgain, hfree⟩ := orphaned_releaseLock hs k
    obtain ⟨hrest, hall⟩ := ih (hs.of_gainsNone hgain)
    rw [List.foldl_cons]
    refine ⟨hgain.trans hrest, fun j hj => ?_⟩
    obtain rfl | hj := List.mem_cons.mp hj
    · exact fun h => hfree (hrest.holder j h)
    · exact hall j hj

theorem mem_heldBy (h : (lock s k).holder = .task id) : k ∈ heldBy s (.task id) := by
  have hfind : mfind s.hsp.locks k = some (lock s k) := by
    cases hm : mfind s.hsp.locks k with
    | none =>
      rw [lock, mget_eq_mfind, hm] at h
      cases h
    | some l => rw [lock, mget_eq_mfind, hm]; rfl
  exact List.mem_map.mpr ⟨(k, lock s k), List.mem_filter.mpr ⟨mem_of_mfind hfind, decide_eq_true h⟩, rfl⟩

/-- The task holds no lock once its locks are orphaned. -/
theorem released_orphanAll (hs : NoRequest id s) :
    GainsNone id s (orphanAll s (.task id)) ∧ ∀ k, (lock (orphanAll s (.task id)) k).holder ≠ .task id := by
  obtain ⟨hgain, hall⟩ := orphaned_foldl (heldBy s (.task id)) hs
  exact ⟨hgain, fun k h => hall k (mem_heldBy (hgain.holder k h)) h⟩

theorem gainsNone_freeChSlot (s : State) (i : Nat) : GainsNone id s (freeChSlot s i) := by
  unfold freeChSlot wakeArmed
  refine GainsNone.trans (t := setChSlot s i { gen := (chSlot s i).gen }) (.of_same rfl rfl) (.foldl (fun s kx => ?_) _ _)
  exact .ite ((gainsNone_updTaskCtx ..).trans (gainsNone_updTask ..)) (.refl id s)

theorem gainsNone_releaseHold (s : State) (i : Nat) (keep : Option Nat) : GainsNone id s (releaseHold s i keep) := by
  have hend : ∀ u agent a, GainsNone id u (endUse u agent a) := fun u agent a => by
    have h := onlySlowPath_endUse u agent a
    exact .of_same (by rw [h]) (by rw [h])
  have hcount : ∀ u p n, GainsNone id u (bufCnt u p n) := fun u p n => .of_same rfl rfl
  unfold releaseHold
  split
  · exact .refl id s
  · refine GainsNone.trans (.foldl (fun u a => .ite (.refl id u) ?_) _ _) (gainsNone_updTask ..)
    exact .ite ((hcount u _ 5).trans (hend ..)) (hcount u _ 5)

/-- The state in which a task's pending request is withdrawn, and its locks counted when GETWORK finds them (11 R231). -/
def requestWithdrawn (s : State) (id : Nat) (x : TaskSt) (getwork : Bool) : State :=
  let u := match x.lockPend with
    | some (k, _) => withdraw s k (.task id)
    | none => s
  if getwork then (heldBy u (.task id)).foldl (fun s _ => hspCnt s x.part 5) u else u

theorem gainsNone_requestWithdrawn (s : State) (x : TaskSt) (getwork : Bool) :
    GainsNone id s (requestWithdrawn s id x getwork) := by
  have hwithdraw : GainsNone id s (match x.lockPend with
      | some (k, _) => withdraw s k (.task id)
      | none => s) := by
    split
    · exact gainsNone_withdraw ..
    · exact .refl id s
  exact .ite (hwithdraw.trans (.foldl (f := fun s _ => hspCnt s x.part 5) (fun _ _ => .of_same rfl rfl) _ _)) hwithdraw

/-- The state in which a task's channel slots are freed (11 R242). -/
def slotsVoided (s : State) (id : Nat) (x : TaskSt) : State :=
  (reservedBy s id).foldl (fun s i => freeChSlot (chnCnt s x.part 4) i) s

theorem gainsNone_slotsVoided (s : State) (i : Nat) (x : TaskSt) : GainsNone id s (slotsVoided s i x) :=
  .foldl (fun s j => GainsNone.trans (t := chnCnt s x.part 4) (.of_same rfl rfl) (gainsNone_freeChSlot _ j)) _ _

/-- The state in which an ended task's locks, slots and buffers are dealt with. -/
def taskReleased (s : State) (id : Nat) (x : TaskSt) (getwork : Bool) : State :=
  releaseHold (slotsVoided (orphanAll (requestWithdrawn s id x getwork) (.task id)) id x) id none

theorem endTask_of_task {x : TaskSt} (hx : taskSt s id = some x) (getwork : Bool) : endTask s id getwork =
    { taskReleased s id x getwork with
      thr := { (taskReleased s id x getwork).thr with tasks := mdel (taskReleased s id x getwork).thr.tasks id } } := by
  unfold endTask haspTaskEnd
  rw [hx]
  rfl

/-- A task that ends holds no lock (11 R231, R234). -/
theorem released_endTask {x : TaskSt} (hs : NoRequest id s) (hx : taskSt s id = some x) (getwork : Bool) :
    GainsNone id s (endTask s id getwork) ∧ ∀ k, (lock (endTask s id getwork) k).holder ≠ .task id := by
  have hstart := gainsNone_requestWithdrawn (id := id) s x getwork
  obtain ⟨hgain, hfree⟩ := released_orphanAll (hs.of_gainsNone hstart)
  have hrest : GainsNone id (orphanAll (requestWithdrawn s id x getwork) (.task id)) (taskReleased s id x getwork) :=
    (gainsNone_slotsVoided _ id x).trans (gainsNone_releaseHold _ id none)
  have hend : GainsNone id (taskReleased s id x getwork) (endTask s id getwork) := by
    rw [endTask_of_task hx]
    exact .of_same rfl rfl
  exact ⟨(hstart.trans (hgain.trans hrest)).trans hend, fun k h => hfree k (hrest.holder k (hend.holder k h))⟩

end Sys2Proof.Machine
end

section
/-! PROOFS. How a task waits and wakes (07 R142, R152; 09 R198; 11 R245): GETWORK, DEFER, TIMER, WAITEV and SIGNAL. -/

namespace Sys2Proof.Machine

open Sys2Proof.Claim

variable {s u : State} {t : Thr} {g : Gd} {rd ra rb : BitVec 5} {md : BitVec 8} {id p i : Nat} {x : TaskSt}

/-! ### GETWORK -/

/-- A thread whose helpers are done ends its task and waits for work (07 R142). -/
theorem getworkOp_of_idle (hidle : (thr s t.toNat).ctx.tags = []) (htask : thrTask s t.toNat = some id) (mask : Nat) :
    getworkOp s t.toNat mask = enterGetwork (endTask
      (updThr s t.toNat (fun x => { x with mode := .drainGetwork, mask := BitVec.ofNat 16 mask })) id true) t.toNat := by
  have hidle' : tagsIdle (thr (updThr s t.toNat (fun x => { x with
      mode := .drainGetwork, mask := BitVec.ofNat 16 mask })) t.toNat) = true := by
    rw [thr_updThr, if_pos rfl, tagsIdle, hidle]
    rfl
  have htask' : thrTask (updThr s t.toNat (fun x => { x with
      mode := .drainGetwork, mask := BitVec.ofNat 16 mask })) t.toNat = some id := by
    rw [thrTask, thr_updThr, if_pos rfl]
    exact htask
  unfold getworkOp drainDone
  rw [if_pos hidle', thr_updThr, if_pos rfl]
  dsimp only
  rw [getworkNow, htask']

theorem taskSt_endTask_self (s : State) (id : Nat) (getwork : Bool) : taskSt (endTask s id getwork) id = none :=
  mfind_mdel_self _ _

@[simp] theorem lock_enterGetwork (s : State) (j k : Nat) : lock (enterGetwork s j) k = lock s k := rfl

/-- The locks are untouched by an issue. -/
@[simp] theorem lock_issuing (s : State) (t : Thr) (k : Nat) : lock (issuing s t.toNat 1) k = lock s k := by
  rw [issuing_frame]; rfl

theorem exec_getwork (hruns : Runs s t g) (htags : (ctxNow s t).tags = []) (htask : thrTask s t.toNat = some id) :
    exec (.getwork t g rd ra rb md) s = .next (enterGetwork (endTask (updThr (issuing s t.toNat 1) t.toNat (fun x => { x with
      mode := .drainGetwork, mask := BitVec.ofNat 16 (((ctxNow s t).g ra.toNat).toNat % 65536) })) id true) t.toNat) := by
  refine congrArg Host.Outcome.next ((issueOne_mSyl hruns _).trans ?_)
  refine getworkOp_of_idle ?_ ((thrTask_issuing s t).trans htask) _
  rw [thr_issued]
  exact htags

/-! A change of a thread leaves what is not a thread's. -/
section
variable (s : State) (j : Nat) (f : Thread → Thread)
@[simp] theorem updThr_delays : (updThr s j f).hlt.delays = s.hlt.delays := rfl
@[simp] theorem unstall_delays (q : Nat) : (unstall s q).hlt.delays = s.hlt.delays := rfl
@[simp] theorem lock_updThr (k : Nat) : lock (updThr s j f) k = lock s k := rfl
@[simp] theorem dueAt_updThr (d : Nat) : dueAt (updThr s j f) d = dueAt s d := rfl
@[simp] theorem schCount_updThr (q k : Nat) : schCount (updThr s j f) q k = schCount s q k := rfl
end

/-! ### DEFER -/

theorem dueAt_congr {v : State} (hregs : v.regs = s.regs) (hnow : v.now = s.now) (hticks : v.hlt.ticks = s.hlt.ticks)
    (hat : v.hlt.ticksAt = s.hlt.ticksAt) (d : Nat) : dueAt v d = dueAt s d := by
  unfold dueAt tickNow tickNs fld rdDev
  rw [hregs, hnow, hticks, hat]

theorem dueAt_issuing (s : State) (t : Thr) (d : Nat) : dueAt (issuing s t.toNat 1) d = dueAt s d :=
  dueAt_congr (issuing_regs s t) (by rw [issuing_frame]) (by rw [issuing_frame]) (by rw [issuing_frame]) d

/-- A thread that may issue with no routine under way has nothing asynchronous pending (08 R160). -/
theorem async_of_mayIssue (h : MayIssue s t) : (thr s t.toNat).async = [] := by
  obtain ⟨hissue, -, -, hroutine⟩ := h
  have hbound : inBoundary s t.toNat = false := by rw [inBoundary, hroutine]; rfl
  simp only [canIssueBundle, hbound, Bool.or_false, Bool.false_and, Bool.and_eq_true] at hissue
  obtain ⟨⟨⟨-, ⟨-, hasync⟩, -⟩, -⟩, -⟩ := hissue
  exact List.isEmpty_iff.mp hasync

/-- The state in which a task has left its thread for the delay list (07 R152). -/
def deferred (s : State) (t id : Nat) (x : TaskSt) (delay : Nat) : State :=
  let u := updThr (putTask s id { x with loc := .deferred, deferred := true, pend := [] }) t
    (fun y => { y with mode := .run, async := [], ctx := { y.ctx with task := none } })
  schCnt (pushDelay u x.part (dueAt u delay) (.redispatch id true)) x.part 4

/-- What a DEFER leaves of its thread and its task. -/
structure IsDeferred (s u : State) (t id : Nat) (x : TaskSt) (delay : Nat) : Prop where
  task : thrTask u t = none
  mem : u.mem = s.mem
  delays : u.hlt.delays = s.hlt.delays ++ [⟨x.part, dueAt s delay, .redispatch id true⟩]
  record : taskSt u id = some { x with loc := .deferred, deferred := true, pend := [] }
  count : schCount u x.part 4 = schCount s x.part 4 + 1

@[simp] theorem thr_pushDelay (s : State) (p due k : Nat) (r : ReadyWhat) : thr (pushDelay s p due r) k = thr s k := rfl

theorem isDeferred_deferred (s : State) (t id : Nat) (x : TaskSt) (delay : Nat) :
    IsDeferred s (deferred s t id x delay) t id x delay where
  task := by
    unfold deferred
    rw [thrTask, thr_schCnt, thr_pushDelay, thr_updThr, if_pos rfl]
  mem := rfl
  delays := rfl
  record := (taskSt_putTask ..).trans (if_pos rfl)
  count := schCount_schCnt ..

theorem deferNow_of_task (htask : thrTask s t.toNat = some id) (hx : taskSt s id = some x)
    (hasync : (thr s t.toNat).async = []) (delay : Nat) : deferNow s t.toNat delay = deferred s t.toNat id x delay := by
  unfold deferNow
  rw [htask]
  dsimp only
  rw [hx]
  dsimp only
  rw [hasync, updTask, hx]
  rfl

theorem IsDeferred.of_issue {f : Thread → Thread} {delay : Nat}
    (h : IsDeferred (updThr (issuing s t.toNat 1) t.toNat f) u t.toNat id x delay) : IsDeferred s u t.toNat id x delay where
  task := h.task
  mem := h.mem.trans (issuing_mem s t)
  delays := by rw [h.delays, updThr_delays, issuing_delays, dueAt_updThr, dueAt_issuing]
  record := h.record
  count := by rw [h.count, schCount_updThr, schCount_issuing]

/-- DEFER of a task whose helpers are done takes it to the delay list (07 R152). -/
theorem exec_deferTask (hruns : Runs s t g) (hon : TaskOn s t id x p) (htags : (ctxNow s t).tags = [])
    (hopen : OpenTicket s p i ((ctxNow s t).g ra.toNat)) : ∃ u, exec (.deferTask t g rd ra rb md) s = .next u ∧
      IsDeferred s u t.toNat id x ((ctxNow s t).g rb.toNat).toNat := by
  obtain ⟨htask, hx, hpart, -⟩ := hon
  have hsubs : (ticket (issuing s t.toNat 1) i).subs = [] := by
    obtain ⟨-, -, -, -, -, hsubs, -⟩ := openTicket_issuing (t := t) hopen
    exact hsubs
  have hasync := async_of_mayIssue hruns.1
  have hcheck := ticketCheck_of_open (openTicket_issuing (t := t) hopen)
  have hstate : taskSt (issuing s t.toNat 1) id = some x := (taskSt_issuing ..).trans hx
  have hnow := thr_issued s t
  have hthrTask := (thrTask_issuing s t).trans htask
  refine ⟨_, congrArg Host.Outcome.next ((issueOne_mSyl hruns _).trans ?_),
    (isDeferred_deferred (updThr (issuing s t.toNat 1) t.toNat (fun x => { x with
      mode := .drainDefer ((ctxNow s t).g ra.toNat) ((ctxNow s t).g rb.toNat).toNat })) ..).of_issue⟩
  rw [thrP_issuing, thrP_of_part hpart, rg, rg]
  generalize issuing s t.toNat 1 = v at *
  unfold deferOp drainDone
  rw [hcheck]
  dsimp only
  rw [if_neg (by simp [hsubs]), thr_updThr, if_pos rfl, if_pos (by simp [tagsIdle, hnow, htags])]
  dsimp only
  refine deferNow_of_task ?_ ?_ ?_ _
  · rw [thrTask, thr_updThr, if_pos rfl]
    exact hthrTask
  · rw [taskSt_updThr, hstate]
  · rw [thr_updThr, if_pos rfl, hnow]
    exact hasync

/-! ### WAITEV -/

/-- A syllable that stalls leaves the turn that has passed, and a thread that waits when it says so (09 R198). -/
theorem issueOne_stalled {y : Syl} {f : Fx} (h : Runs s t g) (hguard : y.guard = g) (hdef : y.undef = false)
    (hfx : y.fx (updCtx s t.toNat (fun c => c.turn)) = f) (hstall : f.stall = true) :
    issueOne s t y = updThr (updCtx s t.toNat (fun c => c.turn)) t.toNat (fun x => { x with inWait := f.wait }) := by
  obtain ⟨⟨hissue, hbreak, -, -⟩, hon⟩ := h
  have heval : y.eval (updCtx s t.toNat (fun c => c.turn)) t.toNat = f := by
    rw [Syl.eval_run hdef (by rw [hguard, ctx_turned]; exact hon), hfx]
  unfold issueOne turnWith
  simp only [hissue, Bool.not_true, Bool.false_eq_true, if_false, breakpoint_turn, hbreak]
  simp [issueSyls, heval, hstall]

/-- A thread's bundle that leaves the context `c`, and nothing else but what an issue does. -/
theorem leaves_of_threads {c : Ctx} (hissue : MayIssue s t) (hthreads : ThreadsOf s u t.toNat (thrP s t.toNat))
    (hself : thr u t.toNat = { thr s t.toNat with ctx := c, inWait := false, skipBp := false, routine := none })
    (hothers : ∀ k, k ≠ t.toNat → thr u k = thr s k) : Leaves s u t c s.mem := by
  obtain ⟨-, -, -, hroutine⟩ := hissue
  exact ⟨hthreads.eq, by rw [hself, ← hroutine], hothers⟩

/-- The events a WAITEV returns above bit 3 are those its result holds there. -/
theorem ofNat_high (v : W36) : BitVec.ofNat 36 (v.toNat / 16 * 16) = v >>> 4 <<< 4 := by
  have hv := v.isLt
  apply BitVec.eq_of_toNat_eq
  rw [BitVec.toNat_ofNat, BitVec.toNat_shiftLeft, BitVec.toNat_ushiftRight, Nat.shiftRight_eq_div_pow, Nat.shiftLeft_eq]

/-- The context a completed WAITEV leaves. -/
def waited (c : Ctx) (rd : BitVec 5) (v : W36) : Ctx :=
  (wg { c with pc := c.pc + 1 } rd v).clrEv (v.toNat / 16 * 16)

theorem waited_eq (c : Ctx) (rd : BitVec 5) (v : W36) : waited c rd v =
    { c with pc := c.pc + 1, regs := (waited c rd v).regs, ev := c.ev &&& ~~~(v >>> 4 <<< 4) } := by
  rw [waited, wg, Ctx.setG_eq, Ctx.clrEv, ofNat_high]

theorem g_waited (c : Ctx) (rd : BitVec 5) (v : W36) (r : Nat) :
    (waited c rd v).g r = if r = rd.toNat ∧ r ≠ 0 then v else c.g r := by
  have hg := Ctx.g_setG { c with pc := c.pc + 1 } rd.toNat r v
  refine hg.trans (if_congr ?_ rfl rfl)
  exact and_congr_right fun h => by rw [h]

theorem exec_waitev_done (hruns : Runs s t g)
    (hdone : (ctxNow s t).g ra.toNat = 0 ∨ (ctxNow s t).ev &&& (ctxNow s t).g ra.toNat ≠ 0) :
    ∃ u, exec (.waitev t g rd ra rb md) s = .next u ∧
      Leaves s u t (waited (ctxNow s t) rd ((ctxNow s t).ev &&& (ctxNow s t).g ra.toNat)) s.mem := by
  have hnot : ¬ ((ctxNow s t).g ra.toNat ≠ 0 ∧ (ctxNow s t).ev &&& (ctxNow s t).g ra.toNat = 0) := by tauto
  have hfx : (sylWaitev t g rd ra rb md).fx (updCtx s t.toNat (fun c => c.turn)) = { run := fun u => updCtx u t.toNat (fun c =>
      (wg c rd ((ctxNow s t).ev &&& (ctxNow s t).g ra.toNat)).clrEv
        (((ctxNow s t).ev &&& (ctxNow s t).g ra.toNat).toNat / 16 * 16)) } := by
    unfold sylWaitev
    dsimp only
    rw [ctx_turned]
    exact if_neg hnot
  refine ⟨updCtx (issuing s t.toNat 1) t.toNat (fun c => (wg c rd ((ctxNow s t).ev &&& (ctxNow s t).g ra.toNat)).clrEv
      (((ctxNow s t).ev &&& (ctxNow s t).g ra.toNat).toNat / 16 * 16)),
    congrArg Host.Outcome.next (issueOne_of_runs hruns rfl rfl hfx rfl rfl),
    leaves_of_threads hruns.1 ((issuing_threads s t.toNat 1).updThr _ _) ?_ fun k hk => ?_⟩
  · rw [thr_updCtx, if_pos rfl, thr_issued]
    rfl
  · rw [thr_updCtx, if_neg hk, thr_issuing_ne hk]

/-! ### TIMER and SIGNAL -/

/-- TIMER arms the thread's timer, or disarms it (07 R152). -/
theorem thr_timerOp (s : State) (t delay : Nat) : thr (timerOp s t delay) t = { thr s t with
    timer := if delay = 0 then none else some { due := dueAt s delay, task := (thr s t).ctx.task } } := by
  rw [timerOp, thr_updThr, if_pos rfl, thr_unstall]

/-- A signal to another thread of the partition sets its events (11 R245). -/
theorem signalOp_of_same {v : Thr} (hv : thrPart s v.toNat = some p) (ht : thrPart s t.toNat = some p) (bits : Nat) :
    signalOp s t.toNat (v.toNat * 8) bits = updCtx s v.toNat (fun c => c.setEv (bits % 2 ^ 20 * 2 ^ 16 + 0x100)) := by
  have hlt := v.isLt
  have hthread : v.toNat * 8 / 8 = v.toNat := Nat.mul_div_cancel _ (by decide)
  unfold signalOp
  dsimp only
  rw [hthread, if_neg (by omega), if_pos (by simp [hv, ht])]

/-- Settles O13: GETWORK by `released_endTask`, DEFER by `exec_deferTask`, WAITEV by `exec_waitev_done` and `issueOne_stalled`. -/
theorem taskWaits : Obligations.TaskWaits := by
  unfold Obligations.TaskWaits
  intro s t g rd ra rb md id x p hruns hon c a tickNs due
  obtain ⟨htask, hx, hpart, hxpart⟩ := hon
  refine ⟨fun htags hwaits => ?getwork, fun htags i hopen => ?defer, ?timer, fun hdone => ?waited, fun hmask hnone => ?stalled,
    fun v hv hagent hvpart => ?signal⟩
  case getwork =>
    have hrun := exec_getwork (rd := rd) (ra := ra) (rb := rb) (md := md) hruns htags htask
    generalize hw : updThr (issuing s t.toNat 1) t.toNat _ = w at hrun
    have hlock : ∀ k, lock w k = lock s k := fun k => by rw [← hw, lock_updThr, lock_issuing]
    have hno : NoRequest id w := fun k y hy => hwaits k y (hlock k ▸ hy)
    have hmask : (thr w t.toNat).mask = BitVec.ofNat 16 (a.toNat % 65536) := by
      rw [← hw, thr_updThr, if_pos rfl]
    obtain ⟨hgain, hfree⟩ := released_endTask hno (x := x) (by rw [← hw, taskSt_updThr, taskSt_issuing, hx]) true
    have hself := thr_enterGetwork_self (endTask w id true) t.toNat
    refine ⟨_, hrun, congrArg (fun y => y.ctx.task) hself, taskSt_endTask_self .., congrArg Thread.mode hself, ?_, ?_, hfree⟩
    · rw [hself]
      dsimp only
      rw [hgain.mask, hmask, BitVec.toNat_ofNat]
      omega
    · rw [enterGetwork_waiters, List.getLast?_concat]
  case defer =>
    obtain ⟨u, hexec, h⟩ := exec_deferTask (rd := rd) (rb := rb) (md := md) hruns ⟨htask, hx, hpart, hxpart⟩ htags hopen
    have hlist := h.delays
    have hcount := h.count
    rw [hxpart] at hlist hcount
    exact ⟨u, hexec, h.task, h.mem, hlist, ⟨_, h.record, rfl, rfl⟩, hcount⟩
  case timer =>
    refine ⟨_, congrArg Host.Outcome.next (issueOne_mSyl hruns _), passed_of_ctx ?_, ?_, ?_, ?_⟩
    · rw [thr_timerOp]
    · rw [timerOp, updThr_mem, unstall_mem, issuing_mem]
    · rw [timerOp, updThr_delays, unstall_delays, issuing_delays]
    · have hself : (thr (issuing s t.toNat 1) t.toNat).ctx.task = some id := (thrTask_issuing s t).trans htask
      rw [thr_timerOp, hself, dueAt_issuing]
      rfl
  case waited =>
    obtain ⟨u, hexec, hleaves⟩ := exec_waitev_done (rd := rd) (rb := rb) (md := md) hruns hdone
    exact ⟨u, _, hexec, hleaves, waited_eq .., g_waited _ rd _⟩
  case stalled =>
    have hfx : (sylWaitev t g rd ra rb md).fx (updCtx s t.toNat (fun c => c.turn)) = { stall := true, wait := true } := by
      unfold sylWaitev
      dsimp only
      rw [ctx_turned]
      exact if_pos ⟨hmask, hnone⟩
    have hrun := issueOne_stalled hruns rfl rfl hfx rfl
    refine ⟨_, congrArg Host.Outcome.next hrun, ?_, ?_, by rw [updThr_mem, updCtx, updThr_mem], fun k hk => ?_⟩
    · rw [thr_updThr, if_pos rfl]
      exact ctx_turned s t
    · rw [thr_updThr, if_pos rfl]
    · rw [thr_updThr, if_neg hk, thr_updCtx, if_neg hk]
  case signal =>
    have hne : v.toNat ≠ t.toNat := fun h => hv (BitVec.eq_of_toNat_eq h)
    have hrun := signalOp_of_same (s := issuing s t.toNat 1) (t := t) ((thrPart_issuing s t v.toNat).trans hvpart)
      ((thrPart_issuing s t t.toNat).trans hpart) ((c.g rb.toNat).toNat % 2 ^ 20)
    rw [← hagent] at hrun
    refine ⟨_, congrArg Host.Outcome.next ((issueOne_mSyl hruns _).trans hrun), passed_of_ctx ?_, ?_, ?_⟩
    · rw [thr_updCtx, if_neg hne.symm]
    · rw [updCtx, updThr_mem, issuing_mem]
    · rw [thr_updCtx, if_pos rfl, thr_issuing_ne hne, Nat.mod_mod]
      rfl

end Sys2Proof.Machine
end

section
/-! PROOFS. Partition resets (07 R158, 08 R416, 13 R280, 14 R298, R316, 16 R344, 18 R384, R388): what a reset clears in a quiet
part, the release of PERST_N, and the training of a port's link. -/

namespace Sys2Proof.Machine

open Sys2Proof.Claim

variable {s u : State} {p k : Nat}

/-! ### Units with nothing under way -/

/-- With no lock and no slot, the end of a task that waits for no lock changes nothing. -/
theorem haspTaskEnd_of_idle (hlocks : s.hsp.locks = []) (hslots : s.hsp.slots = [])
    (hpend : ∀ kx ∈ s.thr.tasks, kx.2.lockPend = none) (id : Nat) : haspTaskEnd s id false = s := by
  unfold haspTaskEnd
  cases hx : taskSt s id with
  | none => rfl
  | some x =>
    have hnone : x.lockPend = none := hpend (id, x) (mem_of_mfind hx)
    dsimp only
    rw [hnone]
    simp [orphanAll, heldBy, reservedBy, hlocks, hslots]

theorem foldl_id {α : Type} {f : State → α → State} (l : List α) (h : ∀ x ∈ l, f s x = s) : l.foldl f s = s := by
  induction l with
  | nil => rfl
  | cons x l ih =>
    rw [List.foldl_cons, h x List.mem_cons_self]
    exact ih fun y hy => h y (List.mem_cons_of_mem x hy)

theorem haspReset_of_idle (hlocks : s.hsp.locks = []) (hslots : s.hsp.slots = [])
    (hpend : ∀ kx ∈ s.thr.tasks, kx.2.lockPend = none) (p : Nat) :
    haspReset s p = { s with hsp := (haspReset s p).hsp } := by
  have hhosts : hostRequests s p = [] := by simp [hostRequests, hlocks]
  have hrequests : requestsReset s p = s := by
    unfold requestsReset
    dsimp only
    generalize hf : List.foldl _ s s.thr.tasks = f
    have hpending : f = s := hf.symm.trans (foldl_id _ fun kx hkx => by rw [hpend kx hkx])
    rw [hpending, hhosts]
    rfl
  have htasks : (tasksOf s p).foldl (fun s id => haspTaskEnd s id false) s = s :=
    foldl_id _ fun id _ => haspTaskEnd_of_idle hlocks hslots hpend id
  have hhost : orphanAll s (.host p) = s := by simp [orphanAll, heldBy, hlocks]
  unfold haspReset
  rw [hrequests]
  dsimp only
  rw [htasks, hhost]

theorem egressReset_of_idle (hin : s.hlt.egressIn = []) (hqueues : s.egr.queues = []) (p : Nat) : egressReset s p = s := by
  unfold egressReset
  simp only [hin, hqueues, List.filter_nil, List.foldl_nil, List.map_nil, List.append_nil]
  rw [← hin]

theorem haltReset_of_idle (hissue : mget [] s.hlt.issueQ p = []) (hhold : mget [] s.hlt.holdQ p = [])
    (htickets : s.hlt.tickets = []) : haltReset s p = { s with
      thr := { s.thr with tasks := mkeep (fun _ x => decide (x.part ≠ p)) s.thr.tasks }, hlt := (haltReset s p).hlt } := by
  unfold haltReset
  simp only [hissue, hhold, ticketsOf, htickets, List.append_nil, List.foldl_nil, List.filter_nil, List.map_nil]

theorem framerReset_of_idle (hclassify : s.par.toClassify = []) (hconns : s.stf.conns = []) (p : Nat) :
    framerReset s p = s := by
  unfold framerReset
  simp only [hclassify, hconns, List.filter_nil, List.foldl_nil, List.map_nil]
  rw [← hclassify]

theorem buffersReset_of_idle (htags : s.buf.tags = []) (p : Nat) : buffersReset s p = s := by
  simp [buffersReset, htags]

/-- With no delivery under way, Gopol's reset stays within its unit and the registers that are not the device window's. -/
theorem gopolReset_of_idle (hdeliv : s.gpl.deliv = []) (p : Nat) (func : Bool) : gopolReset s p func = { s with
    gpl := (gopolReset s p func).gpl, dbg := (gopolReset s p func).dbg, tbl := (gopolReset s p func).tbl,
    jnl := (gopolReset s p func).jnl, regs := { (gopolReset s p func).regs with dev := s.regs.dev } } := by
  unfold gopolReset
  simp only [hdeliv, List.filter_nil, List.foldl_nil]

/-! ### What a reset clears -/

/-- Between `s` and `u` partition `p` was reset: its tasks, threads, memories, segment table and keys are cleared, and the rest
of them, the device window, the pools and the host memories are as before. -/
structure ResetOf (s u : State) (p : Nat) : Prop where
  tasks : u.thr.tasks = mkeep (fun _ x => decide (x.part ≠ p)) s.thr.tasks
  threads : u.thr.threads = mkeep (fun t _ => !(clustersOf s p).contains (t / 128)) s.thr.threads
  clm : u.mem.clm = mkeep (fun a _ => !(clustersOf s p).contains (a / 131072)) s.mem.clm
  csm : u.mem.csm = mkeep (fun a _ => !(clustersOf s p).contains (a / 262144)) s.mem.csm
  ist : u.mem.ist = mkeep (fun a _ => !(clustersOf s p).contains (a / 65536)) s.mem.ist
  segs : u.mem.segs = mkeep (fun k _ => decide (k / 1024 ≠ p)) s.mem.segs
  keys : u.cry.keys = mkeep (fun _ k => decide (k.part ≠ p)) s.cry.keys
  dev : u.mem.dev = s.mem.dev
  host : u.mem.host = s.mem.host
  regs : u.regs.dev = s.regs.dev
  hkc : ∃ inReset, u.hkc = { s.hkc with inReset := inReset, pbolt := u.hkc.pbolt }
  bolt : (pboltSt u p).on = (pboltSt s p).on
  bolts : ∀ q, q ≠ p → pboltSt u q = pboltSt s q

/-- Nothing of partition `p` is under way outside its threads. -/
structure Calm (s : State) (p : Nat) : Prop where
  egressIn : s.hlt.egressIn = []
  queues : s.egr.queues = []
  locks : s.hsp.locks = []
  slots : s.hsp.slots = []
  tickets : s.hlt.tickets = []
  tags : s.buf.tags = []
  conns : s.stf.conns = []
  classify : s.par.toClassify = []
  deliv : s.gpl.deliv = []
  issueQ : mget [] s.hlt.issueQ p = []
  holdQ : mget [] s.hlt.holdQ p = []
  pend : ∀ kx ∈ s.thr.tasks, kx.2.lockPend = none

/-- The state in which a partition is held in reset. -/
def heldInReset (s : State) (p : Nat) : State := { s with hkc := { s.hkc with inReset := p :: s.hkc.inReset.filter (· ≠ p) } }

theorem clustersOf_congr {v : State} (h : v.regs.dev = s.regs.dev) (p : Nat) : clustersOf v p = clustersOf s p := by
  unfold clustersOf clusterOwner rdDev
  rw [h]

/-- A cause that has gone is noted on the Bolt record of the partition alone (16 R345). -/
theorem doubtGone_frame (s : State) (p : Nat) (t : Doubt → Bool) :
    doubtGone s p t = { s with hkc := { s.hkc with pbolt := (doubtGone s p t).hkc.pbolt } } := rfl

theorem pboltSt_doubtGone (s : State) (p : Nat) (t : Doubt → Bool) (q : Nat) : pboltSt (doubtGone s p t) q = if q = p then
    { pboltSt s p with
      cause := if (pboltSt s p).on then (if t (pboltSt s p).cause then { (pboltSt s p).cause with gone := true }
        else (pboltSt s p).cause) else (pboltSt s p).cause,
      later := (pboltSt s p).later.map (fun d => if t d then { d with gone := true } else d) }
    else pboltSt s q := pboltSt_setPbolt ..

theorem resetOf_partitionReset (h : Calm s p) (func : Bool) : ResetOf s (partitionReset s p func) p ∧
    (partitionReset s p func).hkc.inReset = p :: s.hkc.inReset.filter (· ≠ p) := by
  have hhasp := haspReset_of_idle (s := heldInReset s p) h.locks h.slots h.pend p
  generalize hv : haspReset (heldInReset s p) p = v at hhasp
  have hegress : egressReset v p = v := egressReset_of_idle (by rw [hhasp]; exact h.egressIn) (by rw [hhasp]; exact h.queues) p
  have hhalt := haltReset_of_idle (s := v) (p := p) (by rw [hhasp]; exact h.issueQ) (by rw [hhasp]; exact h.holdQ)
    (by rw [hhasp]; exact h.tickets)
  generalize hw : haltReset v p = w at hhalt
  have hframer : framerReset (threadsReset w p) p = threadsReset w p :=
    framerReset_of_idle (by rw [hhalt, hhasp]; exact h.classify) (by rw [hhalt, hhasp]; exact h.conns) p
  have hgopol := gopolReset_of_idle (s := threadsReset w p) (by rw [hhalt, hhasp]; exact h.deliv) p func
  generalize hg : gopolReset (threadsReset w p) p func = g at hgopol
  have hbuffers : buffersReset g p = g := buffersReset_of_idle (by rw [hgopol, hhalt, hhasp]; exact h.tags) p
  have hrun : partitionReset s p func = doubtGone (memReset (cryptoReset g p) p) p (fun d => decide (d.code = 0x01)) := by
    unfold partitionReset
    change doubtGone (memReset (cryptoReset (buffersReset (gopolReset (framerReset (threadsReset (haltReset (egressReset
      (haspReset (heldInReset s p) p) p) p) p) p) p func) p) p) p) p _ = _
    rw [hv, hegress, hw, hframer, hg, hbuffers]
  have hwthr : w.thr = { s.thr with tasks := mkeep (fun _ x => decide (x.part ≠ p)) s.thr.tasks } := by
    rw [hhalt, hhasp]; rfl
  have hwregs : w.regs = s.regs := by rw [hhalt, hhasp]; rfl
  have hwmem : w.mem = s.mem := by rw [hhalt, hhasp]; rfl
  have hwcry : w.cry = s.cry := by rw [hhalt, hhasp]; rfl
  have hwhkc : w.hkc = (heldInReset s p).hkc := by rw [hhalt, hhasp]
  have hgthr : g.thr = (threadsReset w p).thr := by rw [hgopol]
  have hgregs : g.regs.dev = s.regs.dev := by rw [hgopol, ← hwregs]; rfl
  have hgmem : g.mem = s.mem := by rw [hgopol, ← hwmem]; rfl
  have hgcry : g.cry = s.cry := by rw [hgopol, ← hwcry]; rfl
  have hghkc : g.hkc = (heldInReset s p).hkc := by rw [hgopol, ← hwhkc]; rfl
  have hcw : clustersOf w p = clustersOf s p := clustersOf_congr (by rw [hwregs]) p
  have hcg : clustersOf (cryptoReset g p) p = clustersOf s p := clustersOf_congr hgregs p
  have hgbolt : ∀ q, pboltSt g q = pboltSt s q := fun q => by rw [pboltSt, hghkc]; rfl
  have hend := doubtGone_frame (memReset (cryptoReset g p) p) p (fun d => decide (d.code = 0x01))
  have hpbolt := pboltSt_doubtGone (memReset (cryptoReset g p) p) p (fun d => decide (d.code = 0x01))
  rw [← hrun] at hend hpbolt
  generalize partitionReset s p func = u at hend hpbolt
  have hmhkc : (memReset (cryptoReset g p) p).hkc = (heldInReset s p).hkc := hghkc
  have hbolt : ∀ q, pboltSt (memReset (cryptoReset g p) p) q = pboltSt s q := hgbolt
  refine ⟨⟨?_, ?_, ?_, ?_, ?_, ?_, ?_, ?_, ?_, ?_, ⟨p :: s.hkc.inReset.filter (· ≠ p), ?_⟩, ?_, fun q hq => ?_⟩, ?_⟩
  · rw [hend]; exact (congrArg Threads.tasks hgthr).trans (congrArg Threads.tasks hwthr)
  · rw [hend, ← hcw]; exact (congrArg Threads.threads hgthr).trans (by rw [threadsReset, hwthr])
  · rw [hend, ← hcg, ← hgmem]; rfl
  · rw [hend, ← hcg, ← hgmem]; rfl
  · rw [hend, ← hcg, ← hgmem]; rfl
  · rw [hend, ← hgmem]; rfl
  · rw [hend, ← hgcry]; rfl
  · rw [hend, ← hgmem]; rfl
  · rw [hend, ← hgmem]; rfl
  · rw [hend]; exact hgregs
  · rw [hend]; dsimp only; rw [hmhkc]; rfl
  · rw [hpbolt, if_pos rfl, hbolt]
  · rw [hpbolt, if_neg hq, hbolt]
  · rw [hend]; dsimp only; rw [hmhkc]; rfl

end Sys2Proof.Machine
end

section
/-! PROOFS. What the memories, threads and keys read after a partition's reset, and the port that serves it: the release of
PERST_N and the training of its link (14 R316, 18 R384, R388). -/

namespace Sys2Proof.Machine

open Sys2Proof.Claim

variable {s u : State} {p k : Nat}

/-! ### Reading what a reset cleared -/

theorem contains_clustersOf (s : State) (p c : Nat) :
    (clustersOf s p).contains c = true ↔ clusterOwner s c = some p ∧ c < 16 := by
  simp [clustersOf, and_comm]

/-- What a map reads whose keys of a partition's clusters are gone. -/
theorem mget_clustersGone {α : Type} (d : α) (m : Map α) (s : State) (p size a : Nat) :
    mget d (mkeep (fun a _ => !(clustersOf s p).contains (a / size)) m) a =
      if clusterOwner s (a / size) = some p ∧ a / size < 16 then d else mget d m a := by
  rw [mget_mkeep d (fun a => !(clustersOf s p).contains (a / size))]
  by_cases h : clusterOwner s (a / size) = some p ∧ a / size < 16
  · rw [if_pos h, if_neg (by simp only [(contains_clustersOf s p _).mpr h]; decide)]
  · have hout : (clustersOf s p).contains (a / size) = false := by
      rw [← Bool.not_eq_true]
      exact fun hc => h ((contains_clustersOf s p _).mp hc)
    rw [if_neg h, if_pos (by rw [hout]; rfl)]

/-- A pair is kept when its value is another partition's. -/
theorem mem_mkeep_value {α : Type} (f : α → Nat) (p : Nat) (m : Map α) (j : Nat) (x : α) :
    (j, x) ∈ mkeep (fun _ x => decide (f x ≠ p)) m ↔ (j, x) ∈ m ∧ f x ≠ p := by
  simp [mkeep, List.mem_filter]

namespace ResetOf
variable (h : ResetOf s u p)
include h

theorem thr_eq (t : Nat) : thr u t = if clusterOwner s (t / 128) = some p ∧ t / 128 < 16 then {} else thr s t := by
  rw [thr, h.threads]
  exact mget_clustersGone {} s.thr.threads s p 128 t

theorem clm_eq (a : Nat) : mget 0 u.mem.clm a =
    if clusterOwner s (a / 131072) = some p ∧ a / 131072 < 16 then 0 else mget 0 s.mem.clm a := by
  rw [h.clm, mget_clustersGone]

theorem csm_eq (a : Nat) : mget 0 u.mem.csm a =
    if clusterOwner s (a / 262144) = some p ∧ a / 262144 < 16 then 0 else mget 0 s.mem.csm a := by
  rw [h.csm, mget_clustersGone]

theorem ist_eq (a : Nat) : mget 0 u.mem.ist a =
    if clusterOwner s (a / 65536) = some p ∧ a / 65536 < 16 then 0 else mget 0 s.mem.ist a := by
  rw [h.ist, mget_clustersGone]

theorem segs_eq (j : Nat) : mget ({} : Seg) u.mem.segs j = if j / 1024 = p then {} else mget {} s.mem.segs j := by
  rw [h.segs, mget_mkeep ({} : Seg) (fun k => decide (k / 1024 ≠ p))]
  by_cases hj : j / 1024 = p <;> simp [hj]

theorem mem_tasks (id : Nat) (x : TaskSt) : (id, x) ∈ u.thr.tasks ↔ (id, x) ∈ s.thr.tasks ∧ x.part ≠ p := by
  rw [h.tasks]
  exact mem_mkeep_value TaskSt.part p _ id x

theorem mem_keys (j : Nat) (e : KeyEnt) : (j, e) ∈ u.cry.keys ↔ (j, e) ∈ s.cry.keys ∧ e.part ≠ p := by
  rw [h.keys]
  exact mem_mkeep_value KeyEnt.part p _ j e

theorem inReset_eq (q : Nat) : inReset u q = (u.hkc.inReset.contains q || !s.hkc.booted || s.hkc.smbOnly) := by
  obtain ⟨l, hl⟩ := h.hkc
  have hbooted : u.hkc.booted = s.hkc.booted := by rw [hl]
  have hsmb : u.hkc.smbOnly = s.hkc.smbOnly := by rw [hl]
  rw [inReset, hbooted, hsmb]

end ResetOf

/-- A partition that leaves reset is all that a release changes. -/
theorem ResetOf.partRelease (h : ResetOf s u p) (q : Nat) : ResetOf s (partRelease u q) p := by
  obtain ⟨htasks, hthreads, hclm, hcsm, hist, hsegs, hkeys, hdev, hhost, hregs, ⟨l, hl⟩, hbolt, hbolts⟩ := h
  exact ⟨htasks, hthreads, hclm, hcsm, hist, hsegs, hkeys, hdev, hhost, hregs, ⟨_, by rw [Machine.partRelease, hl]⟩, hbolt, hbolts⟩

/-- A partition that was held in reset is held again after its reset. -/
theorem contains_held {l : List Nat} (hin : l.contains p = true) (q : Nat) :
    (p :: l.filter (· ≠ p)).contains q = l.contains q := by
  by_cases hq : q = p
  · rw [hq, hin]; simp
  · simp [hq]

/-- A partition that was not held in reset is released after its reset. -/
theorem contains_released {l : List Nat} (hin : ¬ l.contains p = true) (q : Nat) :
    ((p :: l.filter (· ≠ p)).filter (· ≠ p)).contains q = l.contains q := by
  by_cases hq : q = p
  · rw [hq, Bool.eq_false_of_not_eq_true hin]; simp
  · simp [hq]

theorem presetNow_eq (s : State) (p : Nat) : presetNow s p =
    if s.hkc.inReset.contains p then partitionReset s p false else partRelease (partitionReset s p false) p := rfl

/-- RST_CTL.PRESET leaves every partition as much in reset as it was (18 R384). -/
theorem resetOf_presetNow (h : Calm s p) : ResetOf s (presetNow s p) p ∧ ∀ q, inReset (presetNow s p) q = inReset s q := by
  obtain ⟨hreset, hheld⟩ := resetOf_partitionReset h false
  rw [presetNow_eq]
  generalize partitionReset s p false = u at hreset hheld
  split
  · next hin => exact ⟨hreset, fun q => by rw [hreset.inReset_eq, hheld, contains_held hin, inReset]⟩
  · next hin =>
    have hfree := hreset.partRelease p
    have hlist : (partRelease u p).hkc.inReset = u.hkc.inReset.filter (· ≠ p) := rfl
    exact ⟨hfree, fun q => by rw [hfree.inReset_eq, hlist, hheld, contains_released hin, inReset]⟩

/-! ### PERST_N and the link of a port -/

/-- Partitions leave reset one after the other. -/
theorem foldl_partRelease (l : List Nat) (s : State) : l.foldl partRelease s =
    { s with hkc := { s.hkc with inReset := s.hkc.inReset.filter (fun q => !l.contains q) } } := by
  induction l generalizing s with
  | nil => simp
  | cons q l ih =>
    rw [List.foldl_cons, ih]
    simp [partRelease, List.filter_filter, Bool.and_comm]

/-- The partitions of a port that are held in reset. -/
def portHeld (s : State) (k : Nat) : List Nat := (portParts s k).filter (fun p => s.hkc.inReset.contains p)

theorem portHeld_eq_nil (h : ∀ q ∈ portParts s k, q ∉ s.hkc.inReset) : portHeld s k = [] := by
  simpa [portHeld, List.filter_eq_nil_iff] using h

theorem portHeld_ne_nil (h : ∃ q ∈ portParts s k, q ∈ s.hkc.inReset) : portHeld s k ≠ [] := by
  obtain ⟨q, hq, hin⟩ := h
  exact List.ne_nil_of_mem (List.mem_filter.mpr ⟨hq, by simpa using hin⟩)

/-- What GPL_PORT shows of a port of one or of two links, from the free values of width and rate (18 R388). -/
def portWord (two : Bool) (w0 r0 w1 r1 : Nat) : Nat :=
  1 + (w0 + 1) * 4 + (r0 + 1) * 32 + if two then 256 + (w1 + 1) * 512 + (r1 + 1) * 4096 else 0

theorem portWord_up (two : Bool) (w0 r0 w1 r1 : Nat) : portWord two w0 r0 w1 r1 % 2 = 1 := by
  unfold portWord
  split <;> omega

theorem portWord_second {w0 r0 : Nat} (hw : w0 < 3) (hr : r0 < 5) (w1 r1 : Nat) : portWord true w0 r0 w1 r1 / 256 % 2 = 1 := by
  unfold portWord
  rw [if_pos rfl]
  omega

/-- The link of a port whose partitions have left reset trains (18 R388). -/
theorem linkReady_of_released (hbooted : s.hkc.booted = true) (hsmb : s.hkc.smbOnly = false)
    (hfree : ∀ q ∈ portParts s k, q ∉ s.hkc.inReset) : ∃ w0 r0 w1 r1 fresh,
      (bitOf s.flash.bifur k = true → w0 < 3) ∧ r0 < 5 ∧ linkReady s k = { s with
        fresh := fresh,
        gpl := { s.gpl with links := mset 0 s.gpl.links k (portWord (bitOf s.flash.bifur k) w0 r0 w1 r1) } } := by
  have hnone : ¬ (!s.hkc.booted || s.hkc.smbOnly || (portParts s k).any (fun p => s.hkc.inReset.contains p)) = true := by
    simpa [hbooted, hsmb] using hfree
  unfold linkReady
  rw [if_neg hnone]
  cases htwo : bitOf s.flash.bifur k with
  | true => exact ⟨Config.freeNat s.fresh % 3, Config.freeNat (s.fresh + 1) % 5, Config.freeNat (s.fresh + 2) % 3,
      Config.freeNat (s.fresh + 3) % 5, s.fresh + 4, fun _ => Nat.mod_lt _ (by decide), Nat.mod_lt _ (by decide), rfl⟩
  | false => exact ⟨Config.freeNat s.fresh % 4, Config.freeNat (s.fresh + 1) % 5, 0, 0, s.fresh + 2,
      Bool.noConfusion, Nat.mod_lt _ (by decide), rfl⟩

theorem linkReady_of_held (h : ∃ q ∈ portParts s k, q ∈ s.hkc.inReset) : linkReady s k = s := by
  obtain ⟨q, hq, hin⟩ := h
  have hany : (portParts s k).any (fun p => s.hkc.inReset.contains p) = true :=
    List.any_eq_true.mpr ⟨q, hq, by simpa using hin⟩
  unfold linkReady
  rw [if_pos (by rw [hany, Bool.or_true])]

/-- Settles O54: `resetOf_partitionReset` and `resetOf_presetNow` of a calm partition, `foldl_partRelease` of the port's, and
`linkReady_of_released` of its link. -/
theorem partitionResets : Obligations.PartitionResets := by
  unfold Obligations.PartitionResets
  intro s part port p k mine calm cleared ports
  have hcalm : calm → Calm s p := fun h => by
    obtain ⟨⟨hin, hqueues, -, -, -, -, -, hlocks, -, -⟩, hslots, htickets, htags, hconns, hclassify, hdeliv, hissue, hhold,
      hpend⟩ := h
    exact ⟨hin, hqueues, hlocks, hslots, htickets, htags, hconns, hclassify, hdeliv, hissue, hhold, hpend⟩
  have hcleared : ∀ u, ResetOf s u p → cleared u := fun u h =>
    ⟨h.mem_tasks, h.thr_eq, h.clm_eq, h.csm_eq, h.ist_eq, h.segs_eq, h.mem_keys, h.dev, h.host, h.regs, h.bolt, h.bolts⟩
  refine ⟨fun h => ?reset, fun hsup h => ?preset, fun hsup => ?refused, fun h => ?released, fun h => ?none,
    fun hbooted hsmb hfree => ?trained, fun h => ?untrained⟩
  case reset =>
    obtain ⟨hreset, hheld⟩ := resetOf_partitionReset (hcalm h) true
    refine ⟨_, rfl, hcleared _ hreset, ?_, fun q hq => ?_⟩
    · rw [hreset.inReset_eq, hheld]; simp
    · rw [hreset.inReset_eq, hheld, inReset]; simp [hq]
  case preset =>
    obtain ⟨hsup, hup⟩ := hsup
    obtain ⟨hreset, hin⟩ := resetOf_presetNow (hcalm h)
    exact ⟨_, congrArg Host.Outcome.next (if_pos (by simp [hsup, hup])), hcleared _ hreset, hin⟩
  case refused =>
    refine congrArg Host.Outcome.next (if_neg fun h => hsup ?_)
    simpa using h
  case released =>
    have hrun : exec (.perstNRelease port) s = .next ((portHeld s k).foldl partRelease
        { s with gpl := { s.gpl with links := mdel s.gpl.links k } }) :=
      congrArg Host.Outcome.next (if_neg (portHeld_ne_nil h))
    rw [foldl_partRelease] at hrun
    refine ⟨_, hrun, fun q => ?_, ?_, fun j hj => ?_, rfl, rfl⟩
    · change q ∈ s.hkc.inReset.filter _ ↔ q ∈ s.hkc.inReset ∧ q ∉ portParts s k
      rw [List.mem_filter]
      refine and_congr_right fun hq => ?_
      simp [portHeld, hq]
    · exact (mget_mdel ..).trans (if_pos rfl)
    · exact (mget_mdel ..).trans (if_neg hj)
  case none => exact congrArg Host.Outcome.next (if_pos (portHeld_eq_nil h))
  case trained =>
    obtain ⟨w0, r0, w1, r1, fresh, hw, hr, hrun⟩ := linkReady_of_released (k := k) hbooted hsmb hfree
    have hself : mget 0 (linkReady s k).gpl.links k = portWord (bitOf s.flash.bifur k) w0 r0 w1 r1 := by
      rw [hrun]; exact mget_mset_self ..
    refine ⟨_, rfl, ?_, fun htwo => ?_, ?_, fun j hj => ?_⟩
    · exact (congrArg (· % 2) hself).trans (portWord_up ..)
    · rw [← bitOf_eq] at htwo
      refine (congrArg (· / 256 % 2) hself).trans ?_
      rw [htwo]
      exact portWord_second (hw htwo) hr w1 r1
    · change linkReady s k = { s with
        fresh := (linkReady s k).fresh, gpl := { s.gpl with links := (linkReady s k).gpl.links } }
      rw [hrun]
    · change mget 0 (linkReady s k).gpl.links j = _
      rw [hrun]
      exact mget_mset_ne hj
  case untrained => exact congrArg Host.Outcome.next (linkReady_of_held h)

end Sys2Proof.Machine
end

section
/-! PROOFS. The host's segment commands (08 R170, R176, Table 08-11; 13 R292): SEG_WRITE, SEG_PRESENT and SEG_READ. -/

namespace Sys2Proof.Machine

open Sys2Proof.Claim

variable {s : State} {c : CmdRef} {p i : Nat} {g : Seg}

/-! ### One descriptor of a table -/

/-- A descriptor is stored in a partition's segment table. -/
def setSeg (s : State) (p i : Nat) (g : Seg) : State :=
  { s with mem := { s.mem with segs := mset {} s.mem.segs (p * 1024 + i) g } }

theorem segEnt_setSeg {q k : Nat} (hi : i < 1024) (hk : k < 1024) (g : Seg) :
    segEnt (setSeg s p i g) q k = if q = p ∧ k = i then g else segEnt s q k := by
  have hplace : q * 1024 + k = p * 1024 + i ↔ q = p ∧ k = i := by omega
  exact (mget_mset ..).trans (if_congr hplace rfl rfl)

@[simp] theorem segEnt_finish (s : State) (c : CmdRef) (opc status result len q k : Nat) :
    segEnt (finish s c opc status result len) q k = segEnt s q k := by rw [segEnt, finish_mem, segEnt]

/-- A command that stores a descriptor completes as one seen from before. -/
theorem completed_setSeg {opc status result len : Nat} (hreset : inReset s c.part.toNat = false) (p i : Nat) (g : Seg) :
    Completed s (finish (setSeg s p i g) c opc status result len) c opc status result len :=
  completed_of_rings (completed_finish (s := setSeg s p i g) hreset) rfl rfl

/-- A partition that is not the supervisor names its own table (08 R176). -/
theorem segPart_of_partition (h : isSup s c.part.toNat = false) (part : Nat) : segPart s c part = c.part.toNat := by
  simp [segPart, h]

/-! ### SEG_WRITE -/

/-- The descriptor that a 16-octet image spells; bits [31:16] of its last word are reserved (08 Table 08-8). -/
def segOfImage (d : BitVec 128) : Seg :=
  ⟨d.extractLsb' 96 32, d.extractLsb' 64 32, d.extractLsb' 32 32, (d.extractLsb' 0 16).zeroExtend 32⟩

/-- The four words of the image, as SEG_WRITE takes them. -/
theorem segOfImage_eq (d : BitVec 128) : segOfImage d =
    ⟨BitVec.ofNat 32 (d.toNat / 2 ^ 96 % 2 ^ 32), BitVec.ofNat 32 (d.toNat / 2 ^ 64 % 2 ^ 32),
      BitVec.ofNat 32 (d.toNat / 2 ^ 32 % 2 ^ 32), BitVec.ofNat 32 (d.toNat / 2 ^ 0 % 2 ^ 32 % 65536)⟩ := by
  have hword : ∀ n : Nat, BitVec.ofNat 32 (d.toNat / 2 ^ n % 2 ^ 32) = d.extractLsb' n 32 := fun n => by
    apply BitVec.eq_of_toNat_eq
    simp [Nat.shiftRight_eq_div_pow]
  have hlast : BitVec.ofNat 32 (d.toNat / 2 ^ 0 % 2 ^ 32 % 65536) = (d.extractLsb' 0 16).zeroExtend 32 := by
    apply BitVec.eq_of_toNat_eq
    simp
  rw [segOfImage, hword, hword, hword, hlast]

/-- SEG_WRITE of a partition's host stores an accepted descriptor, and refuses any other; one over the journal region
counts as a violation too (13 R292). -/
theorem segWrite_of_partition (hsup : isSup s c.part.toNat = false) {index : Nat} (hindex : index < 1024) (part : Nat)
    (d : BitVec 128) : segWrite s c part index d.toNat =
      let v := (segOfImage d).view c.part.toNat index
      if segAccepted s false c.part.toNat (segOfImage d) then
        finish (setSeg s c.part.toNat index (segOfImage d)) c 0x40 0 0 0
      else finish (if v.space = 4 ∧ meetsJournal s v.base (v.base + v.limit) then hostViolate s c.part.toNat 7 index else s)
        c 0x40 0x70 0 0 := by
  have hp : ¬ 7 < c.part.toNat := by have := c.part.isLt; omega
  unfold segWrite
  dsimp only
  rw [segPart_of_partition hsup, if_neg hp, if_neg (by omega), hsup, ← segOfImage_eq]
  rfl

/-- A descriptor of HBM, without X, for its table's own partition (08 Table 08-8). -/
structure HbmSeg (g : Seg) (p lo hi : Nat) : Prop where
  space : g.w3.toNat / 16 % 8 = 4
  execute : g.w3.getLsbD 10 = false
  own : g.w3.toNat / 2 ^ 12 % 8 = p
  high : g.w1.toNat < 16
  first : g.w0.toNat + g.w1.toNat * 2 ^ 32 = lo
  last : lo + (g.w2.toNat + g.w3.toNat % 16 * 2 ^ 32) = hi

theorem HbmSeg.view_eq {lo hi : Nat} (h : HbmSeg g p lo hi) (q i : Nat) :
    (g.view q i).space = 4 ∧ (g.view q i).x = false ∧ (g.view q i).base = lo ∧ lo + (g.view q i).limit = hi := by
  have hlimit : (g.view q i).limit = g.w2.toNat + g.w3.toNat % 16 * 2 ^ 32 := by simp [Seg.view, bitsOf]
  refine ⟨h.space, ?_, h.first, by rw [hlimit]; exact h.last⟩
  exact (bitOf_eq ..).trans ((BitVec.testBit_toNat _).trans h.execute)

/-- A descriptor over a whole range of CORE_MEMRNG is accepted unless it meets the journal region (08 R170; 13 R292). -/
theorem HbmSeg.segAccepted_eq {lo hi n : Nat} (h : HbmSeg g p lo hi) (hhi : hi < 0x400000000) (hn : n < 16)
    (hrange : memRange s p n = some (lo, hi)) : segAccepted s false p g = !meetsJournal s lo hi := by
  obtain ⟨hspace, hx, hbase, hlast⟩ := h.view_eq p 0
  have hown : bitsOf g.w3.toNat 14 12 = p := h.own
  have hhigh : g.w1.toNat / 16 = 0 := Nat.div_eq_of_lt h.high
  have hin : inRange s p lo hi = true := by
    refine List.any_eq_true.mpr ⟨n, List.mem_range.mpr hn, ?_⟩
    rw [hrange]
    simp
  unfold segAccepted
  simp [hspace, hx, hbase, hlast, hown, hhigh, hin, hhi]

/-! ### SEG_PRESENT -/

/-- A descriptor with its P bit set to `on` (08 R170). -/
def withPresent (g : Seg) (on : Bool) : Seg := { g with w3 := BitVec.ofNat 32 (setBit g.w3.toNat 7 on) }

theorem getLsbD_withPresent (g : Seg) (on : Bool) {b : Nat} (hb : b < 32) :
    (withPresent g on).w3.getLsbD b = if b = 7 then on else g.w3.getLsbD b := by
  have hbit := testBit_setBit g.w3.toNat 7 b on
  rw [withPresent, BitVec.getLsbD_ofNat, hbit, BitVec.testBit_toNat]
  simp [hb]

/-- SEG_PRESENT of a partition's host that has no access to wait for completes at once (08 Table 08-11). -/
theorem segPresent_of_settled (hsup : isSup s c.part.toNat = false) {index : Nat} (hindex : index < 1024) (part : Nat)
    (pv : BitVec 8) (hsettled : pv.getLsbD 0 = true ∨ segInFlight s c.part.toNat index s.now = false) :
    segPresent s c part index pv.toNat =
      finish (setSeg s c.part.toNat index (withPresent (segEnt s c.part.toNat index) (pv.getLsbD 0))) c 0x41 0 0 0 := by
  have hp : ¬ 7 < c.part.toNat := by have := c.part.isLt; omega
  have hon : bitOf pv.toNat 0 = pv.getLsbD 0 := (bitOf_eq ..).trans (BitVec.testBit_toNat _)
  unfold segPresent
  dsimp only
  rw [segPart_of_partition hsup, if_neg hp, if_neg (by omega), hon]
  have hquiet : ¬ (!pv.getLsbD 0 && segInFlight s c.part.toNat index s.now) = true := by
    obtain hset | hidle := hsettled
    · rw [hset]; exact Bool.noConfusion
    · rw [hidle, Bool.and_false]; exact Bool.noConfusion
  exact if_neg hquiet

/-! ### The statement -/

/-- Settles O23: SEG_WRITE by `segWrite_of_partition`, SEG_PRESENT by `segPresent_of_settled`; SEG_READ puts the image in host
memory. -/
theorem segmentCommands : Obligations.SegmentCommands := by
  unfold Obligations.SegmentCommands
  intro s c part index desc pv addr g lo hi n p d hsup hindex
  refine ⟨fun hacc hg hspace hx hown hhigh hlo hhi hlt hn hrange => ?write, fun hacc hsettled => ?present,
    fun hacc hhost => ?read⟩
  case write =>
    have hreset : inReset s p = false := hacc.1
    have himage : segOfImage desc = g := hg.symm
    have hseg : HbmSeg g p lo hi := ⟨hspace, hx, hown, hhigh, hlo, hhi⟩
    obtain ⟨hview, -, hbase, hlast⟩ := hseg.view_eq p index.toNat
    have hrun : exec (.segWrite c part index desc) s = _ := congrArg Host.Outcome.next
      ((hostCmd_of_accepted hacc fun s => segWrite s c part.toNat index.toNat desc.toNat).trans
        (segWrite_of_partition hsup hindex part.toNat desc))
    dsimp only at hrun
    rw [himage, hseg.segAccepted_eq hlt hn hrange, hview, hbase, hlast] at hrun
    refine ⟨fun hclear => ?_, fun hend hstart => ?_⟩
    · have hmeets : meetsJournal s lo hi = false := decide_eq_false (by omega)
      rw [hmeets] at hrun
      rw [Bool.not_false, if_pos rfl] at hrun
      refine ⟨_, hrun, completed_setSeg hreset .., fun q k hk => ?_, ?_⟩
      · exact (segEnt_finish ..).trans (segEnt_setSeg hindex hk g)
      · rw [finish_mem]; rfl
    · have hmeets : meetsJournal s lo hi = true := decide_eq_true ⟨hstart, hend⟩
      have hlog := onlySearch_violate s p 7 (hostAgent p) index.toNat 0
      rw [hmeets, Bool.not_true, if_neg Bool.false_ne_true, if_pos ⟨rfl, rfl⟩] at hrun
      obtain ⟨hdone, hmem, -⟩ := hlog.finish (c := c) (opc := 0x40) (status := 0x70) (result := 0) (len := 0) hreset
      exact ⟨_, hrun, hdone, hmem⟩
  case present =>
    have hrun : exec (.segPresent c part index pv) s = _ := congrArg Host.Outcome.next
      ((hostCmd_of_accepted hacc fun s => segPresent s c part.toNat index.toNat pv.toNat).trans
        (segPresent_of_settled hsup hindex part.toNat pv hsettled))
    have hread : ∀ q k, k < 1024 → segEnt (finish (setSeg s p index.toNat (withPresent d (pv.getLsbD 0))) c 0x41 0 0 0) q k =
        if q = p ∧ k = index.toNat then withPresent d (pv.getLsbD 0) else segEnt s q k := fun q k hk =>
      (segEnt_finish ..).trans (segEnt_setSeg hindex hk _)
    have hself := (hread p index.toNat hindex).trans (if_pos ⟨rfl, rfl⟩)
    refine ⟨_, hrun, completed_setSeg hacc.1 .., fun q k hk hne => ?_, ?_, fun b hb hne => ?_, ?_⟩
    · exact (hread q k hk).trans (if_neg hne)
    · exact (congrArg (fun x : Seg => x.w3.getLsbD 7) hself).trans (getLsbD_withPresent d _ (by decide))
    · exact (congrArg (fun x : Seg => x.w3.getLsbD b) hself).trans ((getLsbD_withPresent d _ hb).trans (if_neg hne))
    · exact ⟨(congrArg Seg.w0 hself :), (congrArg Seg.w1 hself :), (congrArg Seg.w2 hself :)⟩
  case read =>
    have hp : ¬ 7 < p := by have := c.part.isLt; omega
    have hrun : hostCmd s c 0x42 (fun s => segRead s c part.toNat index.toNat addr.toNat) =
        finish (hostWrite s p addr.toNat d.image) c 0x42 0 0 16 := by
      rw [hostCmd_of_accepted hacc, segRead, segPart_of_partition hsup, if_neg hp, if_neg (by omega)]
    obtain ⟨hdone, honly, hput, -⟩ := (OnlySearch.refl s).finish_hostWrite (c := c) (opc := 0x42) (status := 0) (result := 0)
      (len := 16) (addr := addr) (l := d.image) hacc.1 hhost (by simp [Seg.image])
    exact ⟨_, congrArg Host.Outcome.next hrun, hdone, honly, hput⟩

end Sys2Proof.Machine
end

section
/-! PROOFS. A task takes a fault on its thread (08 R174, R175): its context goes to a free save slot, and the thread goes back to
GETWORK. A syllable that faults at issue takes one, and does nothing else. -/

namespace Sys2Proof.Machine

open Sys2Proof.Claim

variable {s u : State} {t k id : Nat} {x : TaskSt}

/-- Between `s` and `u` the task on thread `t` took fault `f` and left the thread for save slot `k`. -/
structure FaultTaken (s u : State) (t k : Nat) (f : FaultRec) : Prop where
  slot : slotSt u k = some { ctx := (thr s t).ctx.landAll, agent := thrAgent t, fault := some f, async := (thr s t).async }
  task : thrTask u t = none
  mode : (thr u t).mode = .getwork
  mem : u.mem = s.mem

@[simp] theorem slotSt_updTask (s : State) (id j : Nat) (f : TaskSt → TaskSt) : slotSt (updTask s id f) j = slotSt s j := by
  rw [updTask_frame]; rfl

@[simp] theorem updTask_mem (s : State) (id : Nat) (f : TaskSt → TaskSt) : (updTask s id f).mem = s.mem := by
  rw [updTask_frame]

/-- The record of a task changes where its context is saved, and nothing else does (07 R154, 08 R175). -/
theorem saveCtx_eq (s : State) (t k : Nat) (fault : Option FaultRec) : ∃ v, saveCtx s t k fault = enterGetwork v t ∧
    slotSt v k = some { ctx := (thr s t).ctx.landAll, agent := thrAgent t, fault := fault, async := (thr s t).async } ∧
    v.mem = s.mem := by
  have hput := slotSt_putSlot s k k
    { ctx := (thr s t).ctx.landAll, agent := thrAgent t, fault := fault, async := (thr s t).async }
  rw [if_pos rfl] at hput
  unfold saveCtx
  dsimp only
  split
  · exact ⟨_, rfl, (slotSt_updTask ..).trans hput, updTask_mem ..⟩
  · exact ⟨_, rfl, hput, rfl⟩

/-- A fault of a task whose core has a free save slot (08 R175, Table 08-10). -/
theorem faultTaken_takeFault (htask : thrTask s t = some id) (hx : taskSt s id = some x)
    (hslot : freeSlot s (t / 16) = some k) (kind flags sel offset : Nat) :
    FaultTaken s (takeFault s t kind flags sel offset) t k ⟨kind, flags, sel, offset, tai s⟩ := by
  obtain ⟨v, hsave, hv, hmem⟩ := saveCtx_eq (coreCnt (unstall s x.part) x.part (kind - 1)) t k
    (some ⟨kind, flags, sel, offset, tai s⟩)
  have hself := thr_enterGetwork_self v t
  have hslot' : freeSlot (coreCnt (unstall s x.part) x.part (kind - 1)) (t / 16) = some k := hslot
  have hrun : takeFault s t kind flags sel offset = reportFault (enterGetwork v t) x (thr s t).ctx
      ⟨kind, flags, sel, offset, tai s⟩ (thrAgent t) (faultId false k) := by
    rw [← hsave]
    unfold takeFault
    rw [htask]
    dsimp only
    rw [hx]
    dsimp only
    rw [hslot']
    rfl
  rw [hrun]
  exact ⟨hv, congrArg (fun y => y.ctx.task) hself, congrArg Thread.mode hself, hmem⟩

/-- A syllable that faults at issue leaves the turn that has passed, in which its task takes the fault (08 R174). -/
theorem issueOne_faulted {y : Syl} {f : Fx} {T : Thr} {g : Gd} {kind sel off : Nat} (h : Runs s T g) (hguard : y.guard = g)
    (hdef : y.undef = false) (hfx : y.fx (updCtx s T.toNat (fun c => c.turn)) = f) (hstall : f.stall = false)
    (hfault : f.fault = some (kind, sel, off)) (hkind : kind ≠ 6) :
    issueOne s T y = takeFault (updCtx s T.toNat (fun c => c.turn)) T.toNat kind 2 sel off := by
  obtain ⟨⟨hissue, hbreak, -, -⟩, hon⟩ := h
  have heval : y.eval (updCtx s T.toNat (fun c => c.turn)) T.toNat = f := by
    rw [Syl.eval_run hdef (by rw [hguard, ctx_turned]; exact hon), hfx]
  unfold issueOne turnWith
  simp only [hissue, Bool.not_true, Bool.false_eq_true, if_false, breakpoint_turn, hbreak]
  simp [issueSyls, heval, hstall, hfault, hkind]

end Sys2Proof.Machine
end

section
/-! PROOFS. LD and ST of a word that their descriptor does not grant (08 R168, R169, Table 08-9). -/

namespace Sys2Proof.Machine

open Sys2Proof.Claim

variable {s : State} {t : Thr} {g : Gd} {rd ra : BitVec 5} {imm : BitVec 13} {p off kind : Nat} {v : SegView} {need : Need}
  {spaces : List Nat}

/-! ### The check of a near access -/

/-- A descriptor refuses an access to a word of CLM or CSM: it is invalid, of another space or without the right, or the word is
past its limit (08 R168). -/
def Refused (v : SegView) (off kind : Nat) : Prop :=
  (kind = 1 ∧ v.valid = false) ∨ (kind = 2 ∧ v.valid = true ∧ (1 < v.space ∨ v.r = false ∧ v.w = false)) ∨
    (kind = 3 ∧ v.valid = true ∧ v.space < 2 ∧ v.r = true ∧ v.w = true ∧ v.limit < off)

/-- The spaces of a near word access, the instruction store apart. -/
def CoreSpaces (spaces : List Nat) : Prop := ∀ x, x ≠ 2 → (x ∈ spaces ↔ x < 2)

/-- An access that reads or writes, and needs no other right. -/
def ReadsOrWrites (n : Need) : Prop := (n.r = true ∨ n.w = true) ∧ n.x = false ∧ n.h = false

theorem segCheck_of_refused (hspaces : CoreSpaces spaces) (hneed : ReadsOrWrites need) (h : Refused v off kind)
    (hspace : v.space ≠ 2) : segCheck v spaces need off 1 = .bad kind := by
  have hin := hspaces v.space hspace
  obtain ⟨hrw, hx, hh⟩ := hneed
  unfold segCheck
  obtain ⟨rfl, hinvalid⟩ | ⟨rfl, hvalid, hbad⟩ | ⟨rfl, hvalid, hlt, hr, hw, hlimit⟩ := h
  · simp [hinvalid]
  · by_cases hlt : v.space < 2
    · obtain ⟨hr, hw⟩ := hbad.resolve_left (by omega)
      simp [hvalid, hin, hlt, hr, hw, hrw]
    · simp [hvalid, hin, hlt]
  · simp [hvalid, hin, hlt, hr, hw, hx, hh, hlimit]

theorem segCheck_of_absent (hspaces : CoreSpaces spaces) (hneed : ReadsOrWrites need) (hvalid : v.valid = true)
    (hspace : v.space < 2) (hr : v.r = true) (hw : v.w = true) (hoff : off ≤ v.limit) (hmem : v.base + off < spaceSize v.space)
    (hp : v.p = false) : segCheck v spaces need off 1 = .absent := by
  have hin := hspaces v.space (by omega)
  obtain ⟨-, hx, hh⟩ := hneed
  have hlimit : ¬ v.limit < off := by omega
  have hend : ¬ spaceSize v.space ≤ v.base + off := by omega
  simp [segCheck, hvalid, hin, hspace, hr, hw, hx, hh, hp, hlimit, hend]

/-- A thread's turn leaves the descriptors that its selectors name. -/
theorem segOf_turned (s : State) (t : Thr) (sel : Nat) :
    segOf (updCtx s t.toNat (fun c => c.turn)) t.toNat sel = segOf s t.toNat sel := by
  have htask : thrTask (updCtx s t.toNat (fun c => c.turn)) t.toNat = thrTask s t.toNat := by
    rw [thrTask, ctx_turned, ctxNow, Ctx.turn_task]; rfl
  unfold segOf
  rw [htask]
  rfl

/-- The offset of a near operand (09 R188). -/
theorem nearOffset_eq (c : Ctx) (ra : BitVec 5) (imm : BitVec 13) : (rg c ra + nearOff imm).toNat = nearOffset c ra imm := by
  rw [nearOffset, rg, nearOff, BitVec.toNat_add, BitVec.signExtend, BitVec.toNat_ofInt]
  omega

/-- What a near access answers at issue, by the check of its descriptor. -/
theorem nearSyl_fx (s : State) (t : Thr) (g : Gd) (ra : BitVec 5) (imm : BitVec 13) (spaces : List Nat) (need : Need)
    (size : Nat) (zero : Ctx → Ctx) (ok : State → Nat → Nat → Nat → Nat → Fx) :
    let sel := (ctxNow s t).sel (imm.toNat / 1024)
    let off := nearOffset (ctxNow s t) ra imm
    (nearSyl t g ra imm spaces need size zero ok).fx (updCtx s t.toNat (fun c => c.turn)) =
      nearFx t sel off (segCheck (segOf s t.toNat sel) spaces need off size) zero
        (ok (updCtx s t.toNat (fun c => c.turn)) sel off) := by
  unfold nearSyl accessCheck
  dsimp only
  rw [ctx_turned, nearOffset_eq, segOf_turned]
  rfl

/-! ### A violation -/

theorem rdCnt_violate (s : State) (p kind agent res offset : Nat) :
    rdCnt (violate s p kind agent res offset) (0xE0800 + p * 0x80 + 8 * kind) =
      rdCnt s (0xE0800 + p * 0x80 + 8 * kind) + 1 := by
  have hcount := rdCnt_cntAdd_self s (0xE0800 + p * 0x80 + 8 * kind) 1
  unfold violate
  dsimp only
  split
  · exact hcount
  · rw [sendEvent_frame]; exact hcount

theorem thrViolate_of_part {k : Nat} (h : thrPart s k = some p) (kind res offset : Nat) :
    thrViolate s k kind res offset = violate s p kind (thrAgent k) res offset := by
  unfold thrViolate
  rw [h]

theorem wrote_nothing (c : Ctx) : Wrote c { c with pc := c.pc + 1 } [] [] := by
  refine ⟨rfl, fun r => ?_, fun i _ => ?_⟩
  · by_cases hr : r = 0 <;> simp [Ctx.g, hr]
  · by_cases hi : i = 0 <;> simp [Ctx.pd, hi]

theorem lookup_singleton (i r : Nat) (v : W36) : List.lookup r [(i, v)] = if r = i then some v else none := by
  rw [List.lookup_cons]
  by_cases h : r = i
  · rw [if_pos h, beq_iff_eq.mpr h]
  · rw [if_neg h, beq_eq_false_iff_ne.mpr h]; rfl

theorem wrote_wg (c : Ctx) (rd : BitVec 5) (v : W36) : Wrote c (wg { c with pc := c.pc + 1 } rd v) [(rd.toNat, v)] [] := by
  refine ⟨?_, fun r => ?_, fun i _ => ?_⟩
  · rw [wg, Ctx.setG_eq]
  · have hg : Ctx.g { c with pc := c.pc + 1 } r = c.g r := rfl
    rw [wg, Ctx.g_setG, lookup_singleton, hg]
    by_cases hr : r = 0
    · subst hr
      exact if_neg fun h => h.2 h.1.symm
    · by_cases hrd : r = rd.toNat
      · rw [if_pos ⟨hrd, hrd ▸ hr⟩, if_neg hr, if_pos hrd]; rfl
      · rw [if_neg (fun h => hrd h.1), if_neg hr, if_neg hrd]; rfl
  · rw [wg, Ctx.pd_setG]
    by_cases hi : i = 0 <;> simp [Ctx.pd, hi]

/-- A near access that violates is counted, and leaves the context that `zero` makes of it (08 R169). -/
theorem issueOne_nearSyl_of_refused {zero : Ctx → Ctx} {gs : List (Nat × W36)} {size : Nat} (hruns : Runs s t g)
    (hpart : thrPart s t.toNat = some p)
    (hbad : segCheck (segOf s t.toNat ((ctxNow s t).sel (imm.toNat / 1024))) spaces need (nearOffset (ctxNow s t) ra imm) size =
      .bad kind) (hzero : Wrote (ctxNow s t) (zero { ctxNow s t with pc := (ctxNow s t).pc + 1 }) gs [])
    (ok : State → Nat → Nat → Nat → Nat → Fx) :
    ∃ u c', issueOne s t (nearSyl t g ra imm spaces need size zero ok) = u ∧ (thr u t.toNat).ctx = c' ∧
      Wrote (ctxNow s t) c' gs [] ∧ u.mem = s.mem ∧
      rdCnt u (0xE0800 + p * 0x80 + 8 * kind) = rdCnt s (0xE0800 + p * 0x80 + 8 * kind) + 1 := by
  have hfx := nearSyl_fx s t g ra imm spaces need size zero ok
  dsimp only at hfx
  rw [hbad] at hfx
  generalize (ctxNow s t).sel (imm.toNat / 1024) = sel at hfx
  generalize nearOffset (ctxNow s t) ra imm = off at hfx
  have hpart' := (thrPart_issuing s t t.toNat).trans hpart
  have hrun : issueOne s t (nearSyl t g ra imm spaces need size zero ok) =
      updCtx (violate (issuing s t.toNat 1) p kind (thrAgent t.toNat) sel off) t.toNat zero := by
    rw [← thrViolate_of_part hpart']
    exact issueOne_of_runs hruns rfl rfl hfx rfl rfl
  have hlog := onlySearch_violate (issuing s t.toNat 1) p kind (thrAgent t.toNat) sel off
  have hself : thr (violate (issuing s t.toNat 1) p kind (thrAgent t.toNat) sel off) t.toNat =
      thr (issuing s t.toNat 1) t.toNat := by rw [hlog]; rfl
  refine ⟨_, _, hrun, rfl, ?_, hlog.noneElse.1.trans (issuing_mem s t), ?_⟩
  · rw [thr_updCtx, if_pos rfl, hself, thr_issued]
    exact hzero
  · exact (rdCnt_violate ..).trans (by rw [rdCnt, issuing_regs, rdCnt])

/-! ### An absent segment -/

/-- A near access to a segment that is not present changes nothing but for the fault that its task takes (08 R169, R174). -/
theorem issueOne_nearSyl_of_absent {zero : Ctx → Ctx} {size id k : Nat} {x : TaskSt} (hruns : Runs s t g)
    (habsent : segCheck (segOf s t.toNat ((ctxNow s t).sel (imm.toNat / 1024))) spaces need
      (nearOffset (ctxNow s t) ra imm) size = .absent)
    (htask : thrTask s t.toNat = some id) (hx : taskSt s id = some x) (hslot : freeSlot s (t.toNat / 16) = some k)
    (ok : State → Nat → Nat → Nat → Nat → Fx) :
    FaultTaken (updCtx s t.toNat (fun c => c.turn)) (issueOne s t (nearSyl t g ra imm spaces need size zero ok)) t.toNat k
      ⟨1, 2, (ctxNow s t).sel (imm.toNat / 1024), nearOffset (ctxNow s t) ra imm, tai s⟩ := by
  have hfx := nearSyl_fx s t g ra imm spaces need size zero ok
  dsimp only at hfx
  rw [habsent] at hfx
  have htask' : thrTask (updCtx s t.toNat (fun c => c.turn)) t.toNat = some id := by
    rw [thrTask, ctx_turned, ctxNow, Ctx.turn_task]
    exact htask
  rw [issueOne_faulted hruns rfl rfl hfx rfl rfl (by decide)]
  exact faultTaken_takeFault htask' hx hslot ..

/-! ### The statement -/

theorem coreSpaces_ld : CoreSpaces [spClm, spCsm, spIst] := fun x hx => by
  simp only [spClm, spCsm, spIst, List.mem_cons, List.not_mem_nil, or_false]; omega

theorem coreSpaces_st : CoreSpaces [spClm, spCsm] := fun x _ => by
  simp only [spClm, spCsm, List.mem_cons, List.not_mem_nil, or_false]; omega

/-- Settles O6: a violation by `issueOne_nearSyl_of_refused`, an absent segment by `issueOne_nearSyl_of_absent`. -/
theorem accessRefused : Obligations.AccessRefused := by
  unfold Obligations.AccessRefused
  intro s t g rd ra imm p hruns hpart c v off
  have hread : ReadsOrWrites ReadNeed := ⟨Or.inl rfl, rfl, rfl⟩
  have hwrite : ReadsOrWrites WriteNeed := ⟨Or.inr rfl, rfl, rfl⟩
  refine ⟨fun kind hkind hspace => ⟨?load, ?store⟩, fun id x n hvalid hspace hr hw hoff hend hp htask hx hslot => ?absent⟩
  case load =>
    obtain ⟨u, c', hrun, hrest⟩ := issueOne_nearSyl_of_refused (zero := fun c => wg c rd 0) hruns hpart
      (segCheck_of_refused coreSpaces_ld hread hkind hspace) (wrote_wg c rd 0) _
    exact ⟨u, c', congrArg Host.Outcome.next hrun, hrest⟩
  case store =>
    obtain ⟨u, c', hrun, hrest⟩ := issueOne_nearSyl_of_refused (zero := id) hruns hpart
      (segCheck_of_refused coreSpaces_st hwrite hkind hspace) (wrote_nothing c) _
    exact ⟨u, c', congrArg Host.Outcome.next hrun, hrest⟩
  case absent =>
    have hctx : (thr (updCtx s t.toNat (fun c => c.turn)) t.toNat).ctx.landAll = c.landAll := by rw [ctx_turned]
    have hfault : ∀ u, FaultTaken (updCtx s t.toNat (fun c => c.turn)) u t.toNat n
        ⟨1, 2, c.sel (imm.toNat / 1024), off, tai s⟩ → ∃ sv f,
        slotSt u n = some sv ∧ sv.ctx = c.landAll ∧ sv.fault = some f ∧
          f.kind = 1 ∧ f.sel = c.sel (imm.toNat / 1024) ∧ f.offset = off ∧ f.time = tai s ∧ thrTask u t.toNat = none ∧
          u.mem = s.mem := fun u h =>
      ⟨_, _, h.slot, hctx, rfl, rfl, rfl, rfl, rfl, h.task, h.mem⟩
    have habsent : ∀ spaces need, CoreSpaces spaces → ReadsOrWrites need → segCheck v spaces need off 1 = .absent :=
      fun spaces need hspaces hneed => segCheck_of_absent hspaces hneed hvalid hspace hr hw hoff hend hp
    simp only [List.forall_mem_cons, List.not_mem_nil, false_implies, implies_true, and_true]
    refine ⟨?_, ?_⟩
    · obtain ⟨sv, f, h⟩ := hfault _ (issueOne_nearSyl_of_absent hruns (habsent _ _ coreSpaces_ld hread) htask hx hslot _)
      exact ⟨_, sv, f, rfl, h⟩
    · obtain ⟨sv, f, h⟩ := hfault _ (issueOne_nearSyl_of_absent hruns (habsent _ _ coreSpaces_st hwrite) htask hx hslot _)
      exact ⟨_, sv, f, rfl, h⟩

end Sys2Proof.Machine
end

section
/-! PROOFS. Operations on a tag (08 R172): what one that starts holds of its thread, and what its completion writes. -/

namespace Sys2Proof.Machine

open Sys2Proof.Claim

variable {s u v : State} {t : Thr} {tag : Nat} {x : Tag}

/-! ### The start -/

/-- Between `s` and `u` thread `t` issued a bundle that started operation `x` on `tag`: its event is clear and the tag is held. -/
structure Starts (s u : State) (t : Thr) (tag : Nat) (x : Tag) : Prop where
  ctx : (thr u t.toNat).ctx = { ctxNow s t with
    pc := (ctxNow s t).pc + 1, ev := ((ctxNow s t).clrEv (2 ^ tag)).ev, tags := mput (ctxNow s t).tags tag x }
  mode : (thr u t.toNat).mode = .run

theorem mode_of_mayIssue (h : MayIssue s t) : (thr s t.toNat).mode = .run := by
  obtain ⟨hissue, -, -, -⟩ := h
  simp only [canIssueBundle, Bool.and_eq_true, decide_eq_true_eq] at hissue
  obtain ⟨⟨⟨⟨hmode, -⟩, -⟩, -⟩, -⟩ := hissue
  exact hmode

/-- An operation starts on a state whose threads are those of the issue. -/
theorem starts_startTag (h : MayIssue s t) (hthr : v.thr = (issuing s t.toNat 1).thr) (tag : Nat) (x : Tag) :
    Starts s (startTag v t.toNat tag x) t tag { x with issued := v.now } := by
  have hself : thr v t.toNat = thr (issuing s t.toNat 1) t.toNat := by rw [thr, hthr, thr]
  rw [thr_issued] at hself
  refine ⟨?_, ?_⟩
  · rw [startTag, thr_updCtx, if_pos rfl, hself]
    rfl
  · rw [startTag, thr_updCtx, if_pos rfl, hself]
    exact mode_of_mayIssue h

theorem getLsbD_event {i : Nat} (h : i < 36) : (BitVec.ofNat 36 (2 ^ i)).getLsbD i = true := by
  rw [BitVec.getLsbD_ofNat, Nat.testBit_two_pow]
  simp [h]

namespace Starts
variable (h : Starts s u t tag x)
include h

theorem event_clear (htag : tag < 36) : (thr u t.toNat).ctx.ev.getLsbD tag = false := by
  rw [h.ctx]
  change ((ctxNow s t).ev &&& ~~~(BitVec.ofNat 36 (2 ^ tag))).getLsbD tag = false
  rw [BitVec.getLsbD_and, BitVec.getLsbD_not, getLsbD_event htag, Bool.not_true, Bool.and_false, Bool.and_false]

theorem find_tag : mfind (thr u t.toNat).ctx.tags tag = some x := by
  rw [h.ctx]
  exact mfind_mput_self ..

theorem regs_eq : (thr u t.toNat).ctx.regs = (ctxNow s t).regs := by rw [h.ctx]
theorem win_eq : (thr u t.toNat).ctx.win = (ctxNow s t).win := by rw [h.ctx]

end Starts

/-! ### The completion -/

/-- A context with the register and the window octets of an operation written. -/
def Tag.land (x : Tag) (c : Ctx) : Ctx :=
  x.win.foldl (fun c ol => c.winWrite ol.1 ol.2) (match x.rd with
    | some (rd, v) => c.setG rd v
    | none => c)

theorem winWrites_eq (l : List (Nat × List Octet)) (c : Ctx) : l.foldl (fun c ol => c.winWrite ol.1 ol.2) c =
    { c with win := (l.foldl (fun c ol => c.winWrite ol.1 ol.2) c).win } := by
  induction l generalizing c with
  | nil => rfl
  | cons x l ih => rw [List.foldl_cons, ih]; rfl

/-- What lands writes registers and window, and nothing else. -/
theorem land_eq (x : Tag) (c : Ctx) : x.land c = { c with regs := (x.land c).regs, win := (x.land c).win } := by
  unfold Tag.land
  rw [winWrites_eq]
  split
  · rw [Ctx.setG_eq]
  · rfl

/-- The context that a completed operation leaves: what it delivers is written, then its event is set, and its tag is free. -/
def Tag.done (x : Tag) (tag : Nat) (c : Ctx) : Ctx :=
  { (x.land c).setEv (2 ^ tag) with tags := mdel (x.land c).tags tag }

theorem helperSample_frame (s : State) (r : CtxRef) (x : Tag) :
    helperSample s r x = { s with dbg := (helperSample s r x).dbg } := by
  unfold helperSample
  split
  · exact gaitYield_eq ..
  · rfl

theorem completeTag_of_run (hfind : mfind (thr u t.toNat).ctx.tags tag = some x) (hmode : (thr u t.toNat).mode = .run) :
    completeTag u ⟨false, t⟩ tag 0 = updCtx (helperSample u ⟨false, t⟩ x) t.toNat (x.done tag) := by
  have hself : thr (helperSample u ⟨false, t⟩ x) t.toNat = thr u t.toNat := by rw [helperSample_frame]; rfl
  have hfind' : mfind (ctxAt u ⟨false, t⟩).tags tag = some x := hfind
  have hrun : (thr (updCtx (helperSample u ⟨false, t⟩ x) t.toNat (x.done tag)) t.toNat).mode = .run := by
    rw [thr_updCtx, if_pos rfl, hself]
    exact hmode
  have hdrain : drainDone (updCtx (helperSample u ⟨false, t⟩ x) t.toNat (x.done tag)) t.toNat =
      updCtx (helperSample u ⟨false, t⟩ x) t.toNat (x.done tag) := by
    unfold drainDone
    rw [hrun]
    exact ite_self _
  unfold completeTag
  rw [hfind']
  exact hdrain

theorem segSettle_frame (s : State) : segSettle s = { s with gpl := (segSettle s).gpl } := by
  have hfinish : ∀ (l : List Waiting) (s : State), l.foldl (fun s w => finish s w.cmd 0x41 0 0 0) s =
      { s with gpl := (l.foldl (fun s w => finish s w.cmd 0x41 0 0 0) s).gpl } := fun l => by
    induction l with
    | nil => intro s; rfl
    | cons w l ih => intro s; rw [List.foldl_cons, ih, finish_frame]
  unfold segSettle
  dsimp only
  rw [hfinish]

/-- A far access in order that delivers to the register `rd` and to the window octets `win`. -/
structure FarTag (x : Tag) (rd : Option (Nat × W36)) (win : List (Nat × List Octet)) : Prop where
  kind : x.kind = .far
  good : x.fault = 0
  rd : x.rd = rd
  win : x.win = win

/-- A far access of a thread that runs completes: what it delivers is in its context, and no memory changes (08 R172). -/
theorem exec_farAccessComplete {rd : Option (Nat × W36)} {win : List (Nat × List Octet)}
    (hfind : mfind (thr u t.toNat).ctx.tags tag = some x) (hmode : (thr u t.toNat).mode = .run) (htag : tag < 4)
    (hfar : FarTag x rd win) : ∃ v, exec (.farAccessComplete ⟨false, t⟩ tag false) u = .next v ∧ v.mem = u.mem ∧
      (thr v t.toNat).ctx = x.done tag (thr u t.toNat).ctx := by
  have hname : ((tag : BitVec 2)).toNat = tag := by simp; omega
  have hself : thr (helperSample u ⟨false, t⟩ x) t.toNat = thr u t.toNat := by rw [helperSample_frame]; rfl
  have hfind' : mfind (ctxAt u ⟨false, t⟩).tags tag = some x := hfind
  have hrun : farComplete u ⟨false, t⟩ tag false = updCtx (helperSample u ⟨false, t⟩ x) t.toNat (x.done tag) := by
    rw [← completeTag_of_run hfind hmode]
    unfold farComplete
    rw [hfind']
    simp [hfar.kind, hfar.good]
  refine ⟨segSettle (farComplete u ⟨false, t⟩ (tag : BitVec 2).toNat false), rfl, ?_, ?_⟩
  · rw [segSettle_frame, hname, hrun, helperSample_frame]
    rfl
  · rw [segSettle_frame, hname, hrun]
    change (thr (updCtx _ _ _) _).ctx = _
    rw [thr_updCtx, if_pos rfl, hself]

/-- An event that is cleared and then set. -/
theorem clear_or_self (e m : W36) : (e &&& ~~~m) ||| m = e ||| m := by
  ext i hi
  simp only [BitVec.getElem_or, BitVec.getElem_and, BitVec.getElem_not]
  cases m[i] <;> simp

/-- Between `u` and `v` a far access that thread `t` had started completed: its tag is free, its event set, and `land` is the
context with what it delivers. -/
structure Completes (s u v : State) (t : Thr) (tag : Nat) (land : Ctx) : Prop where
  mem : v.mem = u.mem
  free : mfind (thr v t.toNat).ctx.tags tag = none
  event : (thr v t.toNat).ctx.ev = (ctxNow s t).ev ||| BitVec.ofNat 36 (2 ^ tag)
  regs : (thr v t.toNat).ctx.regs = land.regs
  win : (thr v t.toNat).ctx.win = land.win

/-- A far access that started completes, with what it delivers (08 R172). -/
theorem Starts.completes {rd : Option (Nat × W36)} {win : List (Nat × List Octet)} (h : Starts s u t tag x) (htag : tag < 4)
    (hfar : FarTag x rd win) : ∃ v, exec (.farAccessComplete ⟨false, t⟩ tag false) u = .next v ∧
      Completes s u v t tag (x.land (thr u t.toNat).ctx) := by
  obtain ⟨v, hexec, hmem, hctx⟩ := exec_farAccessComplete h.find_tag h.mode htag hfar
  refine ⟨v, hexec, hmem, ?_, ?_, ?_, ?_⟩
  · rw [hctx]
    exact mfind_mdel_self ..
  · rw [hctx, Tag.done, land_eq, h.ctx]
    exact clear_or_self ..
  · rw [hctx]; rfl
  · rw [hctx]; rfl

/-- A far access that answers in a register: its register reads the answer, G0 zero, and every other as before. -/
theorem Starts.completes_reg {rd : Nat} {w : W36} (h : Starts s u t tag x) (htag : tag < 4)
    (hfar : FarTag x (some (rd, w)) []) : ∃ v, exec (.farAccessComplete ⟨false, t⟩ tag false) u = .next v ∧
      Completes s u v t tag ((thr u t.toNat).ctx.setG rd w) ∧
      ∀ r, (thr v t.toNat).ctx.g r = if r = rd ∧ r ≠ 0 then w else (ctxNow s t).g r := by
  obtain ⟨v, hexec, hdone⟩ := h.completes htag hfar
  have hland : x.land (thr u t.toNat).ctx = (thr u t.toNat).ctx.setG rd w := by rw [Tag.land, hfar.rd, hfar.win]; rfl
  rw [hland] at hdone
  refine ⟨v, hexec, hdone, fun r => ?_⟩
  have hold : (thr u t.toNat).ctx.g r = (ctxNow s t).g r := by rw [Ctx.g, h.regs_eq, Ctx.g]
  rw [Ctx.g, hdone.regs, ← Ctx.g, Ctx.g_setG, hold]
  exact if_congr (and_congr_right fun hr => by rw [hr]) rfl rfl

/-- A far access that delivers octets of the window: they read what it delivers, and every other as before. -/
theorem Starts.completes_win {o : Nat} {l : List Octet} (h : Starts s u t tag x) (htag : tag < 4)
    (hfar : FarTag x none [(o, l)]) : ∃ v, exec (.farAccessComplete ⟨false, t⟩ tag false) u = .next v ∧
      Completes s u v t tag ((thr u t.toNat).ctx.winWrite o l) ∧
      ∀ b, b < 512 → mget 0 (thr v t.toNat).ctx.win b =
        if o ≤ b ∧ b < o + l.length then l.getD (b - o) 0 else mget 0 (ctxNow s t).win b := by
  obtain ⟨v, hexec, hdone⟩ := h.completes htag hfar
  have hland : x.land (thr u t.toNat).ctx = (thr u t.toNat).ctx.winWrite o l := by rw [Tag.land, hfar.rd, hfar.win]; rfl
  rw [hland] at hdone
  refine ⟨v, hexec, hdone, fun b hb => ?_⟩
  have hput := mget_putOctets (fun a => decide (512 ≤ a)) l (thr u t.toNat).ctx.win o b
  rw [hdone.win, Ctx.winWrite, hput, h.win_eq]
  exact if_congr (by simp [hb]) rfl rfl

end Sys2Proof.Machine
end

section
/-! PROOFS. The word locks of CSM (11 R238, Table 09-5): LOCKW and UNLOCKW of a partition in word-lock mode. -/

namespace Sys2Proof.Machine

open Sys2Proof.Claim

variable {s : State} {t : Thr} {g : Gd} {rd ra rb : BitVec 5} {md : BitVec 8} {k off n sp a p : Nat} {need : Need}

/-! ### A granted access on a free tag -/

/-- The check of an access that a selector grants (08 R168). -/
theorem segCheck_of_grants {spaces : List Nat} (h : Grants s t k need off n sp a) (hsp : sp ∈ spaces) :
    segCheck (segOf s t.toNat ((ctxNow s t).sel k)) spaces need off n = .ok sp a := by
  obtain ⟨v, hv, hvalid, hp, hr, hw, hx, hh, hn, hlimit, hspace, haddr, hend⟩ := h
  have hneed : ((need.r && !v.r) || (need.w && !v.w) || (need.x && !v.x) || (need.h && !v.h)) = false := by
    simpa using ⟨⟨⟨hr, hw⟩, hx⟩, hh⟩
  have hsize : ¬ v.limit < off + n - 1 := by omega
  have hfits : ¬ (sp < 3 ∧ spaceSize sp < v.base + off + n) := by
    rintro ⟨hlt, hover⟩
    have := hend hlt
    omega
  subst hspace
  rw [hv, segCheck, hneed]
  simp [hvalid, hp, hsp, hsize, hfits, haddr]

theorem tagBusy_turned {tag : Nat} (h : mfind (ctxNow s t).tags tag = none) :
    tagBusy (updCtx s t.toNat (fun c => c.turn)) t.toNat tag = false := by
  rw [tagBusy, ctx_turned, h]
  rfl

/-! ### Words of CSM -/

theorem csmWord_setCsm {cl w : Nat} (ha : a < 262144) (hw : w < 262144) (v : W36) (k : Nat) :
    csmWord (setCsm s cl a v) k w = if k = cl ∧ w = a then v else csmWord s k w := by
  have hplace : k * 262144 + w = cl * 262144 + a ↔ k = cl ∧ w = a := by omega
  exact (mget_mset ..).trans (if_congr hplace rfl rfl)

theorem csmWord_issuing (s : State) (t : Thr) (k w : Nat) : csmWord (issuing s t.toNat 1) k w = csmWord s k w := by
  rw [csmWord, issuing_mem, csmWord]

@[simp] theorem startTag_mem (s : State) (t tag : Nat) (x : Tag) : (startTag s t tag x).mem = s.mem := rfl

theorem csmWord_startTag (s : State) (t tag : Nat) (x : Tag) (k w : Nat) :
    csmWord (startTag s t tag x) k w = csmWord s k w := rfl

/-- What a word-lock operation leaves: its tag's operation has started, and the word holds what it makes of it. -/
structure LocksWord (s u : State) (t : Thr) (tag a : Nat) (rd : Option Nat) (r : Nat × Nat) : Prop where
  starts : ∃ x, Starts s u t tag x ∧ FarTag x (rd.map (fun d => (d, BitVec.ofNat 36 r.2))) []
  csm : ∀ k w, w < 262144 → csmWord u k w =
    if k = t.toNat / 128 ∧ w = a then BitVec.ofNat 36 r.1 else csmWord s k w

theorem locksWord_wordLockSyl (hruns : Runs s t g) (hpart : thrPart s t.toNat = some p)
    (hon : flag s (0x80040 + 4 * p) 0 = true) (hidle : mfind (ctxNow s t).tags (md.toNat / 32 % 4) = none)
    (hgrant : Grants s t (md.toNat % 8) need ((ctxNow s t).g ra.toNat).toNat 1 1 a) (rd : Option Nat)
    (f : Ctx → Nat → Nat × Nat) :
    LocksWord s (issueOne s t (wordLockSyl t g ra md need rd f)) t (md.toNat / 32 % 4) a rd
      (f (ctxNow s t) (csmWord s (t.toNat / 128) a).toNat) := by
  have hmode : wlockOn (updCtx s t.toNat (fun c => c.turn)) t.toNat = true := by
    unfold wlockOn
    rw [thrPart_updCtx, hpart]
    exact hon
  have hcheck := segCheck_of_grants (spaces := [spCsm, spSram, spHbm]) hgrant (by decide)
  obtain ⟨v, hv, -, -, -, -, -, -, -, -, hspace, -, hend⟩ := hgrant
  rw [hv] at hcheck
  have ha : a < 262144 := hend (by decide)
  have hfx : (wordLockSyl t g ra md need rd f).fx (updCtx s t.toNat (fun c => c.turn)) = {
      run := fun u =>
        let r := f (ctxNow s t) (csmWord u (t.toNat / 128) a).toNat
        startTag (setCsm u (t.toNat / 128) a (BitVec.ofNat 36 r.1)) t.toNat (md.toNat / 32 % 4)
          { kind := .far, rd := rd.map (fun d => (d, BitVec.ofNat 36 r.2)), segs := v.table.toList, issued := u.now } } := by
    unfold wordLockSyl
    dsimp only
    rw [hmode, Bool.not_true, if_neg Bool.false_ne_true, show tagOf md = md.toNat / 32 % 4 from rfl, tagBusy_turned hidle,
      if_neg Bool.false_ne_true, ctx_turned, segOf_turned, hv, hspace, if_pos rfl, rg, hcheck]
    rfl
  have hrun := issueOne_of_runs hruns rfl rfl hfx rfl rfl
  dsimp only [id] at hrun
  rw [csmWord_issuing] at hrun
  rw [hrun]
  generalize f (ctxNow s t) (csmWord s (t.toNat / 128) a).toNat = r
  have hstart := starts_startTag (v := setCsm (issuing s t.toNat 1) (t.toNat / 128) a (BitVec.ofNat 36 r.1)) hruns.1 rfl
    (md.toNat / 32 % 4)
  refine ⟨⟨_, hstart _, ⟨rfl, rfl, rfl, rfl⟩⟩, fun k w hw => ?_⟩
  rw [csmWord_startTag, csmWord_setCsm ha hw, csmWord_issuing]

/-- What LOCKW stores: rb, or 1 for an rb of zero (11 R238). -/
theorem ofNat_max_one (b : W36) : BitVec.ofNat 36 (max 1 b.toNat) = if b = 0 then 1 else b := by
  by_cases h : b = 0
  · rw [if_pos h, h]; rfl
  · have hpos : 1 ≤ b.toNat := Nat.one_le_iff_ne_zero.mpr fun hz => h (BitVec.eq_of_toNat_eq hz)
    rw [if_neg h, max_eq_right hpos, BitVec.ofNat_toNat, BitVec.setWidth_eq]

/-- The word of CSM and the answer that LOCKW makes of a word (11 R238). -/
def lockwWord (c : Ctx) (rb : BitVec 5) (m : Nat) : Nat × Nat := if m = 0 then (max 1 (rg c rb).toNat, 0) else (m, 1)

theorem lockwWord_eq (c : Ctx) (rb : BitVec 5) (m : W36) :
    BitVec.ofNat 36 (lockwWord c rb m.toNat).1 = (if m = 0 then (if c.g rb.toNat = 0 then 1 else c.g rb.toNat) else m) ∧
      BitVec.ofNat 36 (lockwWord c rb m.toNat).2 = if m = 0 then 0 else 1 := by
  unfold lockwWord
  by_cases h : m = 0
  · subst h
    exact ⟨ofNat_max_one _, rfl⟩
  · have hne : m.toNat ≠ 0 := fun hz => h (BitVec.eq_of_toNat_eq hz)
    rw [if_neg hne, if_neg h, if_neg h]
    exact ⟨by rw [BitVec.ofNat_toNat, BitVec.setWidth_eq], rfl⟩

/-- A tag in its 2-bit field. -/
theorem tag_lt (md : BitVec 8) : md.toNat / 32 % 4 < 4 := Nat.mod_lt _ (by decide)

theorem wordLocks_holds : wordLocks := by
  intro s t g rd ra rb md a p hruns hpart hon c tag cl m ref hidle
  refine ⟨fun hgrant => ?lock, fun hgrant => ?unlock⟩
  case lock =>
    obtain ⟨⟨x, hstart, hfar⟩, hcsm⟩ := locksWord_wordLockSyl hruns hpart hon hidle hgrant (some rd.toNat)
      (fun c m => lockwWord c rb m)
    obtain ⟨hword, hanswer⟩ := lockwWord_eq c rb m
    obtain ⟨v, hexec, hdone, hregs⟩ := hstart.completes_reg (tag_lt md) hfar
    have hevent : tag < 36 := by have := tag_lt md; omega
    refine ⟨_, v, rfl, hstart.event_clear hevent, fun k w hw => ?_, hexec, hdone.mem, ?_, fun r => ?_⟩
    · refine (hcsm k w hw).trans ?_
      by_cases hat : k = cl ∧ w = a
      · obtain ⟨rfl, rfl⟩ := hat
        refine (if_pos ⟨rfl, rfl⟩).trans (hword.trans ?_)
        simp only [true_and]
        rfl
      · exact (if_neg hat).trans (if_neg fun h => hat ⟨h.1, h.2.1⟩).symm
    · rw [hdone.event, BitVec.getLsbD_or, getLsbD_event hevent, Bool.or_true]
    · exact (hregs r).trans (by rw [hanswer])
  case unlock =>
    obtain ⟨⟨x, hstart, -⟩, hcsm⟩ := locksWord_wordLockSyl hruns hpart hon hidle hgrant none (fun _ _ => (0, 0))
    exact ⟨_, rfl, hstart.regs_eq, hcsm⟩

end Sys2Proof.Machine
end

section
/-! PROOFS. Far memory (08 R163, R171): the octets that a granted far access reads at issue, and those that it stores. -/

namespace Sys2Proof.Machine

open Sys2Proof.Claim

variable {s u : State} {t : Thr} {g : Gd} {sp a n p : Nat} {l : List Octet}

/-! ### Strings of octets -/

/-- The number a string of octets spells, the first most significant. -/
theorem beNat_map_range (f : Nat → Octet) (n : Nat) : beNat ((List.range n).map f) = spelled f n := by
  induction n with
  | zero => rfl
  | succ n ih =>
    have hlast : spelled f (n + 1) = spelled f n * 256 + (f n).toNat := by
      have hterm : ∀ i ∈ List.range n, (f i).toNat * 256 ^ (n + 1 - 1 - i) = (f i).toNat * 256 ^ (n - 1 - i) * 256 := by
        intro i hi
        have hlt := List.mem_range.mp hi
        rw [show n + 1 - 1 - i = n - 1 - i + 1 by omega, pow_succ, Nat.mul_assoc]
      rw [spelled, List.range_succ, List.map_append, List.sum_append, List.map_congr_left hterm, List.sum_map_mul_right]
      simp [spelled]
    rw [hlast, ← ih, List.range_succ, List.map_append, beNat, List.foldl_append]
    rfl

theorem getD_beOctets (v : Nat) {n i : Nat} (h : i < n) : (beOctets n v).getD i 0 = octetOf v n i := by
  induction n generalizing i with
  | zero => omega
  | succ n ih =>
    cases i with
    | zero => rfl
    | succ i =>
      rw [beOctets, List.getD_cons_succ, ih (by omega), octetOf, octetOf]
      congr 3
      omega

theorem getD_winRead (c : Ctx) (off : Nat) {n i : Nat} (h : i < n) : (c.winRead off n).getD i 0 = mget 0 c.win (off + i) := by
  simp [Ctx.winRead, h]

/-! ### Reads -/

/-- The place is one a far access may name: packet SRAM or HBM without poison, or the memory of a partition that has a host. -/
structure FarPlace (s : State) (t : Thr) (sp p : Nat) : Prop where
  low : 3 ≤ sp
  high : sp ≤ 5
  clean : sp < 5 → s.mem.poison = []
  part : thrPart s t.toNat = some p
  host : hasHost s p = true
  reset : inReset s p = false

/-- A thread that may issue is of a partition that is not in reset (16 R341). -/
theorem inReset_of_mayIssue (h : MayIssue s t) (hpart : thrPart s t.toNat = some p) : inReset s p = false := by
  obtain ⟨hissue, -, -, hroutine⟩ := h
  have hbound : inBoundary s t.toNat = false := by rw [inBoundary, hroutine]; rfl
  simp only [canIssueBundle, hbound, Bool.or_false, Bool.false_and, Bool.and_eq_true, Bool.not_eq_true', thrStopped,
    thrOff, hpart, Bool.or_eq_false_iff] at hissue
  obtain ⟨-, ⟨-, hreset⟩, -⟩ := hissue
  exact hreset

/-- What an issue leaves as it was, for the octets of far memory: only threads, memories, the Halter and monitors differ. -/
def OnlyFar (s u : State) : Prop := u = { s with thr := u.thr, mem := u.mem, hlt := u.hlt, dbg := u.dbg }

theorem OnlyFar.recordAt (h : OnlyFar s u) (b : Nat) : recordAt u b = Machine.recordAt s b := by
  rw [h]; rfl

theorem onlyFar_issuing (s : State) (t : Thr) : OnlyFar s (issuing s t.toNat 1) := by
  unfold OnlyFar
  rw [issuing_frame]

theorem OnlyFar.octetAt (h : OnlyFar s u) (hmem : u.mem = s.mem) (hsp : sp ≠ 6) (b : Nat) :
    octetAt u t p sp b = Claim.octetAt s t p sp b := by
  unfold Claim.octetAt viewOct devOct
  rw [h.recordAt, hmem, if_neg hsp, if_neg hsp]

theorem readOcts_of_far (h : FarPlace s t sp p) (a n : Nat) :
    readOcts s t.toNat sp a n = (List.range n).map (fun i => octetAt s t p sp (a + i)) := by
  have hsp : sp ≠ 6 := by have := h.high; omega
  unfold readOcts octetAt
  by_cases h5 : sp = 5
  · simp [h5, hostRead, h.part]
  · simp [h5, hsp, viewRead]

/-- An issue leaves far memory where it is. -/
theorem FarPlace.issuing (h : FarPlace s t sp p) : FarPlace (Machine.issuing s t.toNat 1) t sp p :=
  ⟨h.low, h.high, fun hlt => by rw [issuing_mem]; exact h.clean hlt, (thrPart_issuing ..).trans h.part,
    by rw [issuing_frame]; exact h.host, by rw [issuing_frame]; exact h.reset⟩

theorem farData_of_far (h : FarPlace s t sp p) (a n : Nat) : farData (issuing s t.toNat 1) t.toNat sp a n =
    ((List.range n).map (fun i => octetAt s t p sp (a + i)), false, issuing s t.toNat 1) := by
  have hplace := h.issuing
  have hgood : octsBad (issuing s t.toNat 1) sp a n = false := by
    have hclean := hplace.clean
    unfold octsBad devPoisoned
    by_cases h5 : sp = 5
    · simp [h5]
    · rw [hclean (by have := h.high; omega)]
      simp
  have hsp : sp ≠ 6 := by have := h.high; omega
  rw [farData, hgood, readOcts_of_far hplace]
  simp only [(onlyFar_issuing s t).octetAt (issuing_mem s t) hsp]
  rfl

/-! ### Stores -/

/-- The state in which a far store has put its octets. -/
def farStored (s : State) (sp p a : Nat) (l : List Octet) : State :=
  { s with mem := { s.mem with
      dev := if sp = 5 then s.mem.dev else putOctets (fun _ => false) s.mem.dev a l,
      host := if sp = 5 then putHost p s.mem.host a l else s.mem.host } }

theorem writeOcts_of_far (h : FarPlace s t sp p) (a : Nat) (l : List Octet) :
    writeOcts s t.toNat sp a l = farStored s sp p a l := by
  have hsp : sp ≠ 6 := by have := h.high; omega
  unfold writeOcts farStored
  by_cases h5 : sp = 5
  · rw [if_pos h5, if_pos h5, if_pos h5, hostWrite, h.part]
    exact if_neg (by simp [h.host, h.reset])
  · rw [if_neg h5, if_neg hsp, if_neg h5, if_neg h5, devWrite_of_clean (h.clean (by have := h.high; omega))]

/-- What host memory reads after a far store below 2^64 (14 R298). -/
theorem octetAt_host_farStored (hu : u.mem = (farStored s sp p a l).mem) (hend : a + l.length ≤ 2 ^ 64) (hpos : 0 < l.length)
    (q : Nat) {b : Nat} (hb : b < 2 ^ 64) : octetAt u t q 5 b =
      if sp = 5 ∧ q = p ∧ a ≤ b ∧ b < a + l.length then l.getD (b - a) 0 else octetAt s t q 5 b := by
  have hread : ∀ w : State, octetAt w t q 5 b = mget 0 w.mem.host (q * 2 ^ 64 + b) := fun w => by
    rw [octetAt, if_neg (by decide), if_pos rfl, Nat.mod_eq_of_lt hb]
  rw [hread, hread, hu]
  unfold farStored
  dsimp only
  by_cases h5 : sp = 5
  · rw [if_pos h5, mget_putHost p q b hb l s.mem.host a (by omega),
      Nat.mod_eq_of_lt (show a < 2 ^ 64 by omega)]
    by_cases hin : a ≤ b ∧ b < a + l.length
    · have hoff : (b + 2 ^ 64 - a) % 2 ^ 64 = b - a := by omega
      rw [hoff]
      exact if_congr (by simp [h5, hin]; omega) rfl rfl
    · have hout : ¬ (b + 2 ^ 64 - a) % 2 ^ 64 < l.length := by omega
      rw [if_neg fun h => hout h.2, if_neg fun h => hin h.2.2]
  · rw [if_neg h5, if_neg fun h => h5 h.1]

/-- What a device address reads: the record that stands there, or what was written (06 R111). -/
theorem viewOct_of_noRecord (h : NoRecord s a) : viewOct s a = devOct s a := by
  unfold viewOct
  split
  · next hhbm => rw [h hhbm]; rfl
  · rfl

/-- What HBM and packet SRAM read after a far store: a record that stands at an address is read there still. -/
theorem viewOct_farStored (hu : u.mem = (farStored s sp p a l).mem) (honly : OnlyFar s u) (b : Nat) :
    viewOct u b = if sp ≠ 5 ∧ NoRecord s b ∧ a ≤ b ∧ b < a + l.length then l.getD (b - a) 0 else viewOct s b := by
  by_cases hnone : NoRecord s b
  · have hnone' : NoRecord u b := fun hhbm => (honly.recordAt b).trans (hnone hhbm)
    have hput := mget_putOctets (fun _ => false) l s.mem.dev a b
    rw [viewOct_of_noRecord hnone', viewOct_of_noRecord hnone, devOct, hu, farStored]
    dsimp only
    by_cases h5 : sp = 5
    · rw [if_pos h5, if_neg fun h => h.1 h5, devOct]
    · rw [if_neg h5, hput]
      exact if_congr ⟨fun ⟨hlo, hhi, _⟩ => ⟨h5, hnone, hlo, hhi⟩, fun ⟨_, _, hlo, hhi⟩ => ⟨hlo, hhi, rfl⟩⟩ rfl rfl
  · rw [if_neg fun h => hnone h.2.1]
    unfold viewOct
    rw [honly.recordAt]
    cases hrec : recordAt s b with
    | none => exact absurd (fun _ => hrec) hnone
    | some o =>
      have hhbm : isHbm b = true := by
        by_contra hno
        exact hnone fun h => absurd h hno
      rw [hhbm]; rfl

end Sys2Proof.Machine
end

section
/-! PROOFS. FLD, FST and FMOV of the octets that their segment grants (08 R171, R172), and the statement with the word locks. -/

namespace Sys2Proof.Machine

open Sys2Proof.Claim

variable {s u : State} {t : Thr} {g : Gd} {rd ra rb : BitVec 5} {md : BitVec 8} {k tag off sp a n p : Nat}
  {l : List Octet} {need : Need}

/-- A granted far access on a free tag runs its effect past the bundle (08 R171, R172). -/
theorem issueOne_farSyl_of_granted {y : Syl} {undef : Bool} {spaces : List Nat} {offOf size : Ctx → Nat} {zero : Ctx → Tag}
    {ok : State → Nat → Nat → Option (Nat × Nat) → State → State}
    (hy : y = farSyl t g undef tag k spaces need offOf size zero ok) (hruns : Runs s t g) (hdef : undef = false)
    (hidle : mfind (ctxNow s t).tags tag = none) (hsp : sp ∈ spaces)
    (hgrant : Grants s t k need (offOf (ctxNow s t)) (size (ctxNow s t)) sp a) :
    ∃ tab, issueOne s t y = ok (updCtx s t.toNat (fun c => c.turn)) sp a tab (issuing s t.toNat 1) := by
  have hfx : (farSyl t g undef tag k spaces need offOf size zero ok).fx (updCtx s t.toNat (fun c => c.turn)) =
      { run := ok (updCtx s t.toNat (fun c => c.turn)) sp a (segOf s t.toNat ((ctxNow s t).sel k)).table } := by
    unfold farSyl
    dsimp only
    rw [tagBusy_turned hidle, if_neg Bool.false_ne_true, ctx_turned, segOf_turned, segCheck_of_grants hgrant hsp]
  rw [hy]
  exact ⟨_, issueOne_of_runs hruns rfl hdef hfx rfl rfl⟩

theorem mem_farSpaces (h : FarPlace s t sp p) : sp ∈ [spSram, spHbm, spHost] := by
  have hlow := h.low
  have hhigh := h.high
  simp only [spSram, spHbm, spHost, List.mem_cons, List.not_mem_nil, or_false]
  omega

/-! ### FLD and FST -/

/-- A size that FLD and FST know (09 R188). -/
theorem farSize_defined (h : md.toNat / 8 % 4 < 3) : decide (bitsOf md.toNat 4 3 = 3) = false :=
  decide_eq_false fun h3 => by
    have : md.toNat / 8 % 4 = 3 := h3
    omega

/-- What a granted FLD leaves: it has started, for the number that the octets spell, and no memory changed (08 R171). -/
theorem starts_fld (hruns : Runs s t g) (hplace : FarPlace s t sp p) (hidle : mfind (ctxNow s t).tags (md.toNat / 32 % 4) = none)
    (hsize : md.toNat / 8 % 4 < 3) (hgrant : Grants s t (md.toNat % 8) ReadNeed
      ((((ctxNow s t).g ra.toNat).toNat + ((ctxNow s t).g rb.toNat).toNat) % 2 ^ 36) (2 ^ (md.toNat / 8 % 4)) sp a) :
    ∃ x, Starts s (issueOne s t (sylFld t g rd ra rb md)) t (md.toNat / 32 % 4) x ∧
      FarTag x (some (rd.toNat, BitVec.ofNat 36 (spelled (fun i => octetAt s t p sp (a + i)) (2 ^ (md.toNat / 8 % 4))))) [] ∧
      (issueOne s t (sylFld t g rd ra rb md)).mem = s.mem := by
  obtain ⟨tab, hrun⟩ := issueOne_farSyl_of_granted (sylFld.eq_1 t g rd ra rb md) hruns (farSize_defined hsize) hidle
    (mem_farSpaces hplace) (by rw [rg, rg, BitVec.toNat_add]; exact hgrant)
  rw [farData_of_far hplace] at hrun
  dsimp only at hrun
  rw [beNat_map_range] at hrun
  rw [hrun]
  exact ⟨_, starts_startTag hruns.1 rfl _ _, ⟨rfl, rfl, rfl, rfl⟩, issuing_mem s t⟩

/-- Between `s` and `u` thread `t` started a far access on `tag` that stored the octets `l` at `a` of space `sp`. -/
structure StartsStore (s u : State) (t : Thr) (tag sp p a : Nat) (l : List Octet) : Prop where
  starts : ∃ x, Starts s u t tag x
  mem : u.mem = (farStored s sp p a l).mem
  only : OnlyFar s u

theorem startsStore_startTag (hruns : Runs s t g) (hplace : FarPlace s t sp p) (a : Nat) (l : List Octet) (tag : Nat) (x : Tag) :
    StartsStore s (startTag (writeOcts (issuing s t.toNat 1) t.toNat sp a l) t.toNat tag x) t tag sp p a l := by
  rw [writeOcts_of_far hplace.issuing]
  refine ⟨⟨_, starts_startTag (v := farStored (issuing s t.toNat 1) sp p a l) hruns.1 rfl tag x⟩, ?_, ?_⟩
  · rw [startTag_mem, farStored, farStored, issuing_mem]
  · rw [OnlyFar, issuing_frame]
    rfl

/-- A granted FST stores its octets at issue (08 R171). -/
theorem startsStore_fst (hruns : Runs s t g) (hplace : FarPlace s t sp p)
    (hidle : mfind (ctxNow s t).tags (md.toNat / 32 % 4) = none) (hsize : md.toNat / 8 % 4 < 3)
    (hgrant : Grants s t (md.toNat % 8) WriteNeed
      ((((ctxNow s t).g ra.toNat).toNat + ((ctxNow s t).g rb.toNat).toNat) % 2 ^ 36) (2 ^ (md.toNat / 8 % 4)) sp a) :
    StartsStore s (issueOne s t (sylFst t g rd ra rb md)) t (md.toNat / 32 % 4) sp p a
      (beOctets (2 ^ (md.toNat / 8 % 4)) ((ctxNow s t).g rd.toNat).toNat) := by
  obtain ⟨tab, hrun⟩ := issueOne_farSyl_of_granted (sylFst.eq_1 t g rd ra rb md) hruns (farSize_defined hsize) hidle
    (mem_farSpaces hplace) (by rw [rg, rg, BitVec.toNat_add]; exact hgrant)
  rw [ctx_turned] at hrun
  rw [hrun]
  exact startsStore_startTag hruns hplace a _ _ _

/-! ### FMOV -/

/-- The octets of the window that an FMOV moves lie in the window (09 Table 09-5). -/
theorem segCheck_window {off n : Nat} (hend : off + n ≤ 512) (r w : Bool) :
    segCheck winView [spWin] { r := r, w := w } off n = .ok 6 off := by
  have hlimit : ¬ 511 < off + n - 1 := by omega
  simp [segCheck, winView, spWin, hlimit]

theorem fmovLen_pos (c : Ctx) (rb : BitVec 5) : 0 < fmovLen c rb := by
  rw [fmovLen]
  split <;> omega

theorem bitOf_seven (md : BitVec 8) : bitOf md.toNat 7 = decide (128 ≤ md.toNat) := by
  have hlt := md.isLt
  rw [Bool.eq_iff_iff, decide_eq_true_iff, bitOf, beq_iff_eq]
  omega

/-- What a granted FMOV to the window leaves: it has started, for the octets at its address, and no memory changed. -/
theorem starts_fmov (hruns : Runs s t g) (hplace : FarPlace s t sp p) (hin : md.toNat < 128)
    (hidle : mfind (ctxNow s t).tags (md.toNat / 32 % 4) = none)
    (hend : ((ctxNow s t).g rd.toNat).toNat + fmovLen (ctxNow s t) rb ≤ 512)
    (hgrant : Grants s t (md.toNat % 8) ReadNeed ((ctxNow s t).g ra.toNat).toNat (fmovLen (ctxNow s t) rb) sp a) :
    ∃ x, Starts s (issueOne s t (sylFmov t g rd ra rb md)) t (md.toNat / 32 % 4) x ∧
      FarTag x none [(((ctxNow s t).g rd.toNat).toNat,
        (List.range (fmovLen (ctxNow s t) rb)).map (fun i => octetAt s t p sp (a + i)))] ∧
      (issueOne s t (sylFmov t g rd ra rb md)).mem = s.mem := by
  have hmode : bitOf md.toNat 7 = false := by rw [bitOf_seven, decide_eq_false (by omega)]
  have hgrant' : Grants s t (md.toNat % 8) { r := !bitOf md.toNat 7, w := bitOf md.toNat 7 }
      ((ctxNow s t).g ra.toNat).toNat (fmovLen (ctxNow s t) rb) sp a := by rw [hmode]; exact hgrant
  obtain ⟨tab, hrun⟩ := issueOne_farSyl_of_granted (sylFmov.eq_1 t g rd ra rb md) hruns rfl hidle
    (mem_farSpaces hplace) hgrant'
  dsimp only at hrun
  rw [ctx_turned, rg, segCheck_window hend, hmode, farData_of_far hplace] at hrun
  rw [hrun]
  exact ⟨_, starts_startTag hruns.1 rfl _ _, ⟨rfl, rfl, rfl, rfl⟩, issuing_mem s t⟩

/-- A granted FMOV to far memory stores the octets of the window at issue. -/
theorem startsStore_fmov (hruns : Runs s t g) (hplace : FarPlace s t sp p) (hout : 128 ≤ md.toNat)
    (hidle : mfind (ctxNow s t).tags (md.toNat / 32 % 4) = none)
    (hend : ((ctxNow s t).g rd.toNat).toNat + fmovLen (ctxNow s t) rb ≤ 512)
    (hgrant : Grants s t (md.toNat % 8) WriteNeed ((ctxNow s t).g ra.toNat).toNat (fmovLen (ctxNow s t) rb) sp a) :
    StartsStore s (issueOne s t (sylFmov t g rd ra rb md)) t (md.toNat / 32 % 4) sp p a
      ((ctxNow s t).winRead ((ctxNow s t).g rd.toNat).toNat (fmovLen (ctxNow s t) rb)) := by
  have hmode : bitOf md.toNat 7 = true := by rw [bitOf_seven, decide_eq_true hout]
  have hgrant' : Grants s t (md.toNat % 8) { r := !bitOf md.toNat 7, w := bitOf md.toNat 7 }
      ((ctxNow s t).g ra.toNat).toNat (fmovLen (ctxNow s t) rb) sp a := by rw [hmode]; exact hgrant
  obtain ⟨tab, hrun⟩ := issueOne_farSyl_of_granted (sylFmov.eq_1 t g rd ra rb md) hruns rfl hidle
    (mem_farSpaces hplace) hgrant'
  dsimp only at hrun
  rw [ctx_turned, rg, segCheck_window hend, hmode] at hrun
  rw [hrun]
  exact startsStore_startTag hruns hplace a _ _ _

/-! ### What a store leaves -/

namespace StartsStore
variable (h : StartsStore s u t tag sp p a l)
include h

theorem mem_frame : u.mem = { s.mem with dev := u.mem.dev, host := u.mem.host } := by rw [h.mem, farStored]

/-- Host memory after a store of far octets below 2^64 (14 R298). -/
theorem host_octet {v : Nat → Octet} (hend : a + l.length ≤ 2 ^ 64) (hpos : 0 < l.length)
    (hl : ∀ i, i < l.length → l.getD i 0 = v i) (q : Nat) {b : Nat} (hb : b < 2 ^ 64) : octetAt u t q 5 b =
      if sp = 5 ∧ q = p ∧ a ≤ b ∧ b < a + l.length then v (b - a) else octetAt s t q 5 b := by
  rw [octetAt_host_farStored h.mem hend hpos q hb]
  exact ite_congr rfl (fun hin => hl _ (by omega)) fun _ => rfl

/-- HBM and packet SRAM after a store of far octets: a record that stands at an address is read there still (06 R111). -/
theorem view_octet {v : Nat → Octet} (hl : ∀ i, i < l.length → l.getD i 0 = v i) (b : Nat) : viewOct u b =
    if sp ≠ 5 ∧ NoRecord s b ∧ a ≤ b ∧ b < a + l.length then v (b - a) else viewOct s b := by
  rw [viewOct_farStored h.mem h.only b]
  exact ite_congr rfl (fun hin => hl _ (by omega)) fun _ => rfl

end StartsStore

/-! ### The statements -/

theorem octetAt_view (hlow : 3 ≤ sp) (hhigh : sp < 5) (s : State) (t : Thr) (p b : Nat) : octetAt s t p sp b = viewOct s b := by
  rw [octetAt, if_neg (by omega), if_neg (by omega)]

theorem length_winRead (c : Ctx) (off n : Nat) : (c.winRead off n).length = n := by
  rw [Ctx.winRead, List.length_map, List.length_range]

/-- FLD, FST and FMOV as their segment grants them (08 R171, R172). -/
theorem farAccess_holds : farAccess := by
  intro s t g rd ra rb md sp a n p hruns hpart hhost c tag w ref hlow hhigh hclean hidle
  have hplace : FarPlace s t sp p := ⟨hlow, hhigh, hclean, hpart, hhost, inReset_of_mayIssue hruns.1 hpart⟩
  have htag : tag < 4 := tag_lt md
  refine ⟨fun off hoff hsize hn => ?_, fun hn hend => ?_⟩
  · subst hoff hn
    have hpos : 0 < 2 ^ (md.toNat / 8 % 4) := by positivity
    have hlen := length_beOctets (2 ^ (md.toNat / 8 % 4)) w
    refine ⟨fun hgrant => ?_, fun hgrant => ?_⟩
    · obtain ⟨x, hstart, hfar, hmem⟩ := starts_fld (rd := rd) hruns hplace hidle hsize hgrant
      obtain ⟨v, hexec, hdone, hreg⟩ := hstart.completes_reg htag hfar
      exact ⟨_, v, rfl, hstart.event_clear (by omega), by rw [hstart.find_tag]; exact Option.some_ne_none x, hmem, hexec,
        hdone.mem.trans hmem, hdone.event, hdone.free, hreg⟩
    · have hstore := startsStore_fst (rd := rd) hruns hplace hidle hsize hgrant
      obtain ⟨x, hstart⟩ := hstore.starts
      have hl : ∀ i, i < (beOctets (2 ^ (md.toNat / 8 % 4)) w).length → _ := fun i hi => getD_beOctets w (hlen ▸ hi)
      refine ⟨_, rfl, hstart.event_clear (by omega), hstart.regs_eq, by rw [hstart.find_tag]; exact Option.some_ne_none x,
        hstore.mem_frame, fun hfits q b hb => ?_, fun b => ?_⟩
      · have hoct := hstore.host_octet (hlen.symm ▸ hfits) (hlen.symm ▸ hpos) hl q hb
        rwa [hlen] at hoct
      · have hoct := hstore.view_octet hl b
        rw [hlen] at hoct
        rwa [octetAt_view (by decide) (by decide), octetAt_view (by decide) (by decide)]
  · replace hn : n = fmovLen c rb := hn
    subst hn
    have hlen := length_winRead c w (fmovLen c rb)
    refine ⟨fun hin hgrant => ?_, fun hout hgrant => ?_⟩
    · obtain ⟨x, hstart, hfar, hmem⟩ := starts_fmov (rd := rd) hruns hplace hin hidle hend hgrant
      obtain ⟨v, hexec, hdone, hwin⟩ := hstart.completes_win htag hfar
      refine ⟨_, v, rfl, hstart.win_eq, hmem, hexec, hdone.regs.trans hstart.regs_eq, hdone.event, fun b hb => ?_⟩
      rw [hwin b hb, List.length_map, List.length_range]
      refine ite_congr rfl (fun hin => ?_) fun _ => rfl
      have hlt : b - ((ctxNow s t).g rd.toNat).toNat < fmovLen (ctxNow s t) rb := show b - w < fmovLen c rb by omega
      simp [hlt, w, c]
    · have hstore := startsStore_fmov (rd := rd) hruns hplace hout hidle hend hgrant
      obtain ⟨x, hstart⟩ := hstore.starts
      have hl : ∀ i, i < (c.winRead w (fmovLen c rb)).length → _ := fun i hi => getD_winRead c w (hlen ▸ hi)
      refine ⟨_, rfl, hstart.win_eq, fun hfits b hb => ?_⟩
      rcases Nat.lt_or_ge sp 5 with hdev | hhostsp
      · have hoct := hstore.view_octet hl b
        rw [hlen] at hoct
        rw [octetAt_view hlow hdev, octetAt_view hlow hdev, hoct]
        exact if_congr (by simp [Nat.ne_of_lt hdev]) rfl rfl
      · have h5 : sp = 5 := by omega
        have hoct := hstore.host_octet (hlen.symm ▸ hfits) (hlen.symm ▸ fmovLen_pos c rb) hl p hb
        rw [hlen] at hoct
        subst h5
        rw [hoct]
        exact if_congr (by simp) rfl rfl

/-- Settles O9: FLD, FST and FMOV by `farAccess_holds`, each from its issue to its completion, and the word locks by
`wordLocks_holds`. -/
theorem farAccessAndLocks : Obligations.FarAccessAndLocks := by
  unfold Obligations.FarAccessAndLocks
  exact ⟨farAccess_holds, wordLocks_holds⟩

end Sys2Proof.Machine
end

section
/-! PROOFS. What dealing with a faulted task's locks, slots, buffers and ticket leaves alone (08 R176): no context is saved by it,
every task stays known, and rings and resets are as they were. Each operation that it may start says so once. -/

namespace Sys2Proof.Machine

variable {s t u v : State}

/-- Between `s` and `u` no context was saved and no task forgotten; rings are configured, and partitions in reset, as
they were. -/
structure SavesNone (s u : State) : Prop where
  rcfg : u.regs.rcfg = s.regs.rcfg
  hkc : u.hkc = s.hkc
  slot : ∀ k, slotSt s k = none → slotSt u k = none
  task : ∀ id, (taskSt s id).isSome = true → (taskSt u id).isSome = true

theorem SavesNone.refl (s : State) : SavesNone s s := ⟨rfl, rfl, fun _ h => h, fun _ h => h⟩

theorem SavesNone.trans (h1 : SavesNone s t) (h2 : SavesNone t u) : SavesNone s u :=
  ⟨h2.rcfg.trans h1.rcfg, h2.hkc.trans h1.hkc, fun k h => h2.slot k (h1.slot k h), fun id h => h2.task id (h1.task id h)⟩

theorem SavesNone.ite {c : Prop} [Decidable c] (h1 : SavesNone s t) (h2 : SavesNone s u) :
    SavesNone s (if c then t else u) := by
  split
  · exact h1
  · exact h2

theorem SavesNone.foldl {α : Type} {f : State → α → State} (hf : ∀ s x, SavesNone s (f s x)) (l : List α) (s : State) :
    SavesNone s (l.foldl f s) := by
  induction l generalizing s with
  | nil => exact .refl s
  | cons x l ih => exact (hf s x).trans (ih _)

/-- Where threads, ring configuration and resets are as before, no context is saved. -/
theorem SavesNone.of_same (hthr : u.thr = s.thr) (hrcfg : u.regs.rcfg = s.regs.rcfg) (hhkc : u.hkc = s.hkc) : SavesNone s u :=
  ⟨hrcfg, hhkc, fun k h => by rwa [slotSt, hthr], fun id h => by rwa [taskSt, hthr]⟩

/-! ### Tasks and their contexts -/

theorem savesNone_updTask (s : State) (id : Nat) (f : TaskSt → TaskSt) : SavesNone s (updTask s id f) := by
  refine ⟨by rw [updTask_frame], by rw [updTask_frame], fun k h => (slotSt_updTask ..).trans h, fun j h => ?_⟩
  rw [taskSt_updTask]
  split
  · next hj => rwa [Option.isSome_map, ← hj]
  · exact h

theorem savesNone_putSlot {k : Nat} {sv : Saved} (h : slotSt s k = some sv) (x : Saved) : SavesNone s (putSlot s k x) := by
  refine ⟨rfl, rfl, fun j hj => ?_, fun _ hid => hid⟩
  have hne : j ≠ k := fun e => by rw [e, h] at hj; cases hj
  rw [slotSt_putSlot, if_neg hne, hj]

theorem savesNone_updTaskCtx (s : State) (id : Nat) (f : Ctx → Ctx) : SavesNone s (updTaskCtx s id f) := by
  unfold updTaskCtx
  split
  · split
    · exact ⟨rfl, rfl, fun _ h => h, fun _ h => h⟩
    · split
      · next hslot => exact savesNone_putSlot hslot _
      · exact .refl s
    · exact .refl s
  · exact .refl s

/-! ### Locks (11 R229-R234) -/

theorem savesNone_setLock (s : State) (k : Nat) (l : Lock) : SavesNone s (setLock s k l) := .of_same rfl rfl rfl

theorem savesNone_setEff (s : State) (id e : Nat) : SavesNone s (setEff s id e) :=
  (savesNone_updTask s id _).trans (.of_same rfl rfl rfl)

theorem savesNone_hspCntOpt (s : State) (p : Option Nat) (k : Nat) : SavesNone s (hspCntOpt s p k) := by
  unfold hspCntOpt
  split
  · exact .of_same rfl rfl rfl
  · exact .refl s

theorem savesNone_truncated (s : State) (w : LockWho) : SavesNone s (truncated s w) := by
  unfold truncated
  split
  · exact .of_same rfl rfl rfl
  · exact .refl s

theorem savesNone_propagate (n : Nat) (s : State) (id : Nat) : SavesNone s (propagate n s id) := by
  induction n generalizing s id with
  | zero =>
    unfold propagate
    split
    · exact .refl s
    · exact .ite (.refl s) (savesNone_setEff ..)
  | succ n ih =>
    have hholder : ∀ (s : State) (h : Holder), SavesNone s (match h with
        | .task i => propagate n s i
        | _ => s) := fun s h => by
      split
      · exact ih ..
      · exact .refl s
    unfold propagate
    split
    · exact .refl s
    · next x _ =>
      refine .ite (.refl s) ((savesNone_setEff s id (effPrio s id x.prio)).trans ?_)
      dsimp only
      split
      · exact .refl _
      · split
        · exact .refl _
        · have hqueued := fun (s : State) k l l' => (savesNone_setLock s k l).trans (savesNone_setLock _ k l')
          exact .ite (hqueued ..) (.ite ((hqueued ..).trans (savesNone_truncated ..)) ((hqueued ..).trans (hholder ..)))

theorem savesNone_propagateHolder (s : State) (h : Holder) : SavesNone s (match h with
    | .task i => propagate 8 s i
    | _ => s) := by
  split
  · exact savesNone_propagate ..
  · exact .refl s

theorem savesNone_withdraw (s : State) (k id : Nat) : SavesNone s (withdraw s k (.task id)) :=
  ((savesNone_setLock s k _).trans (savesNone_updTask ..)).trans (savesNone_propagateHolder ..)

theorem savesNone_noteLost (s : State) (k : Nat) (h : Holder) (gone : Bool) : SavesNone s (noteLost s k h gone) := by
  cases h with
  | free => exact .refl s
  | task i => exact savesNone_updTask ..
  | host p => exact .of_same rfl rfl rfl

theorem savesNone_tellGrant (s : State) (who : LockWho) (word : Nat) : SavesNone s (tellGrant s who word) := by
  cases who with
  | task i =>
    unfold tellGrant
    dsimp only
    split
    · exact (savesNone_updTaskCtx ..).trans (savesNone_updTask ..)
    · exact .refl s
  | host c =>
    rw [tellGrant, finish_frame]
    exact .of_same rfl rfl rfl

theorem savesNone_resignal (s : State) (k : Nat) : SavesNone s (resignal s k) := by
  unfold resignal
  split
  · exact (savesNone_setLock ..).trans (savesNone_propagate ..)
  · exact savesNone_setLock ..

theorem savesNone_grantLock (s : State) (k : Nat) (who : LockWho) (contended : Bool) :
    SavesNone s (grantLock s k who contended) := by
  have hset := fun l => (savesNone_setLock s k l).trans (savesNone_hspCntOpt _ (whoPart s who) 0)
  unfold grantLock
  dsimp only
  refine SavesNone.trans ?_ (savesNone_resignal ..)
  refine SavesNone.trans ?_ (savesNone_tellGrant ..)
  refine SavesNone.trans ?_ (savesNone_noteLost ..)
  exact .ite ((hset _).trans (savesNone_hspCntOpt ..)) (hset _)

theorem savesNone_handedOver (s : State) (k : Nat) : SavesNone s (handedOver s k) := by
  unfold handedOver
  split
  · exact .refl s
  · exact (savesNone_setLock ..).trans (savesNone_grantLock ..)

theorem savesNone_releaseLock (s : State) (k : Nat) : SavesNone s (releaseLock s k .orphan) := by
  obtain ⟨part, former, hrun⟩ := releaseLock_orphan s k
  have hfree := (savesNone_setLock s k _).trans (savesNone_propagateHolder (lockOrphaned s k) (lock s k).holder)
  rw [hrun]
  dsimp only
  rw [sendEvent_frame]
  exact ((hfree.trans (savesNone_hspCntOpt _ part 2)).trans (savesNone_handedOver ..)).trans (.of_same rfl rfl rfl)

/-! ### The end of a task's use of locks, slots and buffers (08 R176, 11 R242) -/

theorem savesNone_freeChSlot (s : State) (i : Nat) : SavesNone s (freeChSlot s i) := by
  unfold freeChSlot wakeArmed
  refine SavesNone.trans (t := setChSlot s i { gen := (chSlot s i).gen }) (.of_same rfl rfl rfl) (.foldl (fun s kx => ?_) _ _)
  exact .ite ((savesNone_updTaskCtx ..).trans (savesNone_updTask ..)) (.refl s)

theorem savesNone_slotsVoided (s : State) (id : Nat) (x : TaskSt) : SavesNone s (slotsVoided s id x) :=
  .foldl (fun s j => SavesNone.trans (t := chnCnt s x.part 4) (.of_same rfl rfl rfl) (savesNone_freeChSlot _ j)) _ _

theorem savesNone_requestWithdrawn (s : State) (id : Nat) (x : TaskSt) : SavesNone s (requestWithdrawn s id x false) := by
  unfold requestWithdrawn
  dsimp only
  rw [if_neg Bool.false_ne_true]
  split
  · exact savesNone_withdraw ..
  · exact .refl s

theorem savesNone_haspTaskEnd (s : State) (id : Nat) : SavesNone s (haspTaskEnd s id false) := by
  cases hx : taskSt s id with
  | none =>
    unfold haspTaskEnd
    rw [hx]
    exact .refl s
  | some x =>
    have hrun : haspTaskEnd s id false = slotsVoided (orphanAll (requestWithdrawn s id x false) (.task id)) id x := by
      unfold haspTaskEnd
      rw [hx]
      rfl
    rw [hrun]
    exact ((savesNone_requestWithdrawn s id x).trans (.foldl (fun s k => savesNone_releaseLock s k) _ _)).trans
      (savesNone_slotsVoided ..)

/-- A buffer that is freed may end a pause of its port (12 R256): ring configuration is none of it. -/
theorem savesNone_pauseKey (s : State) (p key : Nat) : SavesNone s (pauseKey s p key) := by
  have hsend : ∀ q, SavesNone s (pauseSend s p key q) := fun q => by
    unfold pauseSend
    exact .ite (.of_same rfl rfl rfl) (.of_same rfl rfl rfl)
  unfold pauseKey
  exact .ite (.ite (hsend _) (.refl s)) (.ite (hsend _) (.refl s))

theorem savesNone_freeBuf (s : State) (a : Nat) : SavesNone s (freeBuf s a) := by
  have hpause : ∀ (s : State) p, SavesNone s (pauseCheck s p) := fun s p => by
    unfold pauseCheck
    refine .ite (.refl s) ?_
    split
    · exact savesNone_pauseKey s p 8
    · exact .foldl (fun s c => savesNone_pauseKey s p c) _ s
    · exact .refl s
  have htag : SavesNone s (setTag s a { quar := (bufTag s a).quar }) := .of_same rfl rfl rfl
  unfold freeBuf
  dsimp only
  split
  · exact htag.trans (hpause ..)
  · exact htag

theorem savesNone_bufCntPool (s : State) (agent pool k : Nat) : SavesNone s (bufCntPool s agent pool k) := by
  unfold bufCntPool
  repeat' split
  all_goals exact .of_same rfl rfl rfl

theorem savesNone_ptrCheck (s : State) (a : Nat) : SavesNone s (ptrCheck s a).2 := by
  unfold ptrCheck
  repeat' split
  all_goals exact .of_same rfl rfl rfl

theorem savesNone_endUse (s : State) (agent a : Nat) : SavesNone s (endUse s agent a) := by
  have hchk := savesNone_ptrCheck s a
  unfold endUse intBufOp
  generalize ptrCheck s a = r at hchk
  obtain ⟨chk, t⟩ := r
  refine hchk.trans ?_
  cases chk with
  | ok j => exact .ite (.ite (savesNone_freeBuf ..) (.of_same rfl rfl rfl)) (savesNone_bufCntPool ..)
  | quarantined j => exact savesNone_bufCntPool ..
  | bad =>
    dsimp only
    split
    · exact savesNone_bufCntPool ..
    · exact .refl t

theorem savesNone_releaseHold (s : State) (id : Nat) (keep : Option Nat) : SavesNone s (releaseHold s id keep) := by
  have hcount : ∀ (s : State) p n, SavesNone s (bufCnt s p n) := fun _ _ _ => .of_same rfl rfl rfl
  unfold releaseHold
  split
  · exact .refl s
  · refine SavesNone.trans (.foldl (fun s a => .ite (.refl s) ?_) _ _) (savesNone_updTask ..)
    exact .ite ((hcount ..).trans (savesNone_endUse ..)) (hcount ..)

/-! ### The drop of a ticket (07 R137) -/

theorem OnlyHalter.savesNone (h : OnlyHalter s u) : SavesNone s u := by
  rw [h]
  exact .of_same rfl rfl rfl

theorem savesNone_hltCnt (s : State) (p k : Nat) : SavesNone s (hltCnt s p k) := .of_same rfl rfl rfl

theorem savesNone_setTicket (s : State) (i : Nat) (x : Ticket) : SavesNone s (setTicket s i x) := .of_same rfl rfl rfl

theorem savesNone_jnlTicket (s : State) (i : Nat) (sub : Option Nat) (disp dest : Nat) (result : Option (List Octet)) :
    SavesNone s (jnlTicket s i sub disp dest result) := by
  have hput : ∀ (s : State) r, SavesNone s (jnlPut s r) := fun s r => by
    unfold jnlPut
    exact .ite (.ite (.of_same rfl rfl rfl) (.of_same rfl rfl rfl)) (.refl s)
  have hplace : SavesNone s (nextPlace s (ticket s i).dom).2 := .of_same rfl rfl rfl
  unfold jnlTicket jnlItemAt
  exact hplace.trans (.ite (hput ..) (.refl _))

theorem savesNone_discardResult (s : State) (r : Result) : SavesNone s (discardResult s r) := by
  unfold discardResult
  exact .ite (.refl s) (savesNone_endUse ..)

theorem savesNone_lateResult (s : State) (i : Nat) (sub : Option Nat) (r : Result) : SavesNone s (lateResult s i sub r) := by
  have hlost := fun disp dest => ((savesNone_jnlTicket s i sub disp dest none).trans
    (savesNone_hltCnt _ (ticket s i).part 6)).trans (savesNone_discardResult _ r)
  unfold lateResult
  dsimp only
  split
  · exact savesNone_jnlTicket ..
  · exact .ite (hlost ..) (.ite ((savesNone_jnlTicket ..).trans (.of_same rfl rfl rfl)) (hlost ..))

theorem savesNone_settlePassed (n : Nat) (s : State) (i : Nat) : SavesNone s (settlePassed n s i) := by
  have hfree : ∀ (s : State), SavesNone s (freeTicket s i) := fun s => (onlyHalter_freeTicket s i).savesNone
  induction n generalizing s with
  | zero => exact .refl s
  | succ n ih =>
    unfold settlePassed
    refine .ite (.refl s) (.ite ?_ ?_)
    · split
      · exact (savesNone_lateResult ..).trans (hfree _)
      · exact .refl s
    · split
      · exact hfree s
      · dsimp only
        split
        · exact .refl s
        · exact ((savesNone_lateResult ..).trans (savesNone_setTicket ..)).trans (ih _)

theorem savesNone_completeTicket (s : State) (n : TkName) (r : Result) : SavesNone s (completeTicket s n r) := by
  have hcount : SavesNone s (if r.disp = .drop then hltCnt s (ticket s n.idx).part 2 else s) :=
    .ite (savesNone_hltCnt ..) (.refl s)
  have hreach : ∀ (s : State) sub, SavesNone s (settlePassed 9 (ticketReach s n.idx sub 3) n.idx) := fun s sub =>
    (onlyHalter_ticketReach s n.idx sub 3).savesNone.trans (savesNone_settlePassed ..)
  obtain ⟨i, sub⟩ := n
  cases sub with
  | none => exact (hcount.trans (savesNone_setTicket ..)).trans (hreach ..)
  | some k => exact (hcount.trans (savesNone_setTicket ..)).trans (hreach ..)

theorem savesNone_dropTicketAll (s : State) (i : Nat) : SavesNone s (dropTicketAll s i) := by
  unfold dropTicketAll
  refine .ite (.ite (savesNone_completeTicket ..) (.refl s)) (.foldl (fun s k => ?_) _ _)
  exact .ite (savesNone_completeTicket ..) (.refl s)

end Sys2Proof.Machine
end

section
/-! PROOFS. A task's faults (08 R174-R177): taking one, and the host's commands on a task that has one. -/

namespace Sys2Proof.Machine

open Sys2Proof.Claim

variable {s u v : State} {t : Thr} {c : CmdRef} {fid agent : BitVec 16} {kind tag id k opc : Nat} {x : TaskSt} {sv : Saved}
  {more : List (Nat × Nat)}

/-! ### The pending fault of a thread (08 R174) -/

/-- The thread runs a task, may take a fault at this boundary, and the first of those pending is of the kind and the tag. -/
structure TakesFault (s : State) (t kind tag : Nat) (more : List (Nat × Nat)) : Prop where
  stopped : thrStopped s t = false
  halted : (thr s t).halted = false
  haltReq : (thr s t).haltReq = false
  mode : (thr s t).mode = .run
  boundary : inBoundary s t = false
  async : (thr s t).async = (kind, tag) :: more

/-- The state in which the first pending fault of a thread is taken off its list, and its routine is abandoned. -/
def faultUnpended (s : State) (t : Nat) (more : List (Nat × Nat)) : State :=
  abandonRoutine (updThr s t (fun x => { x with async := more })) t

theorem thr_faultUnpended (s : State) (t : Nat) (more : List (Nat × Nat)) :
    (thr (faultUnpended s t more) t).async = more ∧ (thr (faultUnpended s t more) t).ctx = (thr s t).ctx := by
  unfold faultUnpended
  rw [thr_abandonRoutine, thr_updThr, if_pos rfl]
  exact ⟨rfl, rfl⟩

theorem faultUnpended_frame (s : State) (t : Nat) (more : List (Nat × Nat)) : faultUnpended s t more = { s with
    thr := { s.thr with threads := (faultUnpended s t more).thr.threads },
    regs := { s.regs with cnt := (faultUnpended s t more).regs.cnt } } := by
  unfold faultUnpended
  rw [abandonRoutine_frame]
  rfl

theorem asyncTake_of_takes {t : Nat} (h : TakesFault s t kind tag more) (htask : thrTask s t = some id) :
    asyncTake s t = takeFault (faultUnpended s t more) t kind (asyncFlags (thr s t).ctx tag) 0 0 := by
  have hself : thr (updThr s t (fun x => { x with async := more })) t = { thr s t with async := more } := by
    rw [thr_updThr, if_pos rfl]
  have htask' : thrTask (updThr s t (fun x => { x with async := more })) t = some id := by
    rw [thrTask, hself]
    exact htask
  unfold asyncTake
  simp only [h.stopped, h.halted, h.haltReq, h.mode, h.boundary, h.async, htask', hself, Bool.or_false, Bool.false_eq_true,
    if_false, ne_eq, not_true_eq_false, decide_false, Option.isNone_some]
  rfl

/-- The task on the thread takes the fault that is first pending, and leaves for a free slot of its core (08 R174, R175). -/
theorem faultTaken_asyncTake {t : Nat} (h : TakesFault s t kind tag more) (htask : thrTask s t = some id)
    (hx : taskSt s id = some x) (hslot : freeSlot s (t / 16) = some k) :
    FaultTaken (faultUnpended s t more) (asyncTake s t) t k ⟨kind, asyncFlags (thr s t).ctx tag, 0, 0, tai s⟩ := by
  have hframe := faultUnpended_frame s t more
  obtain ⟨-, hctx⟩ := thr_faultUnpended s t more
  have htask' : thrTask (faultUnpended s t more) t = some id := by rw [thrTask, hctx]; exact htask
  have hx' : taskSt (faultUnpended s t more) id = some x := by rw [hframe]; exact hx
  have hslot' : freeSlot (faultUnpended s t more) (t / 16) = some k := by rw [hframe]; exact hslot
  have htai : tai (faultUnpended s t more) = tai s := by rw [hframe]; rfl
  rw [asyncTake_of_takes h htask, ← htai]
  exact faultTaken_takeFault htask' hx' hslot' ..

/-! ### The task that a FID names (08 R176) -/

/-- The FID names the faulted task `id` of save slot `k`, and its partition issued the command. -/
structure NamesSaved (s : State) (c : CmdRef) (fid k id : Nat) (sv : Saved) (x : TaskSt) : Prop where
  slot : slotSt s k = some sv
  low : k < 2048
  task : sv.ctx.task = some id
  known : taskSt s id = some x
  part : x.part = c.part.toNat
  fault : sv.fault.isSome = true
  fid : fid = k / 16 * 32 + k % 16

theorem bitOf_four (n : Nat) : bitOf n 4 = decide (n / 16 % 2 = 1) := by
  rw [Bool.eq_iff_iff, decide_eq_true_iff, bitOf, beq_iff_eq]
  exact Iff.rfl

theorem faulted_of_names {f : Nat} (h : NamesSaved s c f k id sv x) : faulted s c.part.toNat f = some (.slot k, id) := by
  have hlow := h.low
  have hplace : f / 32 % 128 * 16 + f % 16 = k := by rw [h.fid]; omega
  have hsaved : bitOf f 4 = false := by
    rw [bitOf_four, h.fid]
    exact decide_eq_false (by omega)
  have hsmall : ¬ 4096 ≤ f := by rw [h.fid]; omega
  unfold faulted
  simp [hplace, hsaved, hsmall, h.slot, h.task, h.known, h.part, h.fault]

theorem faulted_of_empty {p f : Nat} (hsaved : f / 16 % 2 = 0) (hslot : slotSt s (f / 32 % 128 * 16 + f % 16) = none) :
    faulted s p f = none := by
  have hbit : bitOf f 4 = false := by
    rw [bitOf_four]
    exact decide_eq_false (by omega)
  unfold faulted
  simp [hbit, hslot]

theorem onFaulted_of_names {f : Nat} (h : NamesSaved s c f k id sv x) (opc : Nat) (run : State → TaskLoc → Nat → State) :
    onFaulted s c opc f run = run s (.slot k) id := by
  rw [onFaulted, faulted_of_names h]

/-! ### TASK_RESUME (08 R176, R177) -/

/-- The task's fault is gone, and its slot joins the tail of its level. -/
theorem taskResume_of_names {f : Nat} (h : NamesSaved s c f k id sv x) : taskResume s (.slot k) id =
    pushReady (putSlot (updTask s id (fun y => { y with fault := none })) k { sv with fault := none }) x.part x.eprio
      (.saved k) := by
  unfold taskResume
  rw [h.known]
  dsimp only
  rw [slotSt_updTask, h.slot]

theorem exec_taskResume (hacc : Accepted s c 0x43) (h : NamesSaved s c fid.toNat k id sv x) :
    ∃ u y, exec (.taskResume c fid) s = .next u ∧ Completed s u c 0x43 0 0 0 ∧ taskSt u id = some y ∧ y.fault = none ∧
      u.hlt.ready = s.hlt.ready ++ [⟨x.part, x.eprio, .saved k⟩] ∧ u.mem = s.mem := by
  have hrun : exec (.taskResume c fid) s = .next (finish (taskResume s (.slot k) id) c 0x43 0 0 0) :=
    congrArg Host.Outcome.next ((hostCmd_of_accepted hacc _).trans (onFaulted_of_names h ..))
  have hresume := taskResume_of_names h
  have hreset : inReset (taskResume s (.slot k) id) c.part.toNat = false := by
    rw [hresume, updTask_frame]
    exact hacc.1
  refine ⟨_, { x with fault := none }, hrun, ?_, ?_, rfl, ?_, ?_⟩
  · refine completed_of_rings (completed_finish hreset) ?_ ?_
    · rw [hresume, updTask_frame]; rfl
    · rw [hresume, updTask_frame]; rfl
  · rw [finish_frame, hresume]
    change taskSt (updTask s id _) id = _
    rw [taskSt_updTask, if_pos rfl, h.known]
    rfl
  · rw [finish_frame, hresume, updTask_frame]; rfl
  · rw [finish_frame, hresume, updTask_frame]; rfl

/-! ### TASK_RETRY and TASK_KILL (08 R176) -/

/-- A command whose operation left rings and resets alone completes last (14 R309). -/
theorem last_finish (hrcfg : u.regs.rcfg = s.regs.rcfg) (hhkc : u.hkc = s.hkc) (hreset : inReset s c.part.toNat = false)
    (opc : Nat) :
    ∃ e, (ringSt (finish u c opc 0 0 0) (ringCq s c.ring.toNat)).compl.getLast? = some e ∧ e.status = 0 ∧
      e.slot = c.slot.toNat := by
  have hreset' : inReset u c.part.toNat = false := by
    rw [inReset, hhkc]
    exact hreset
  have hcq : ringCq s c.ring.toNat = ringCq u c.ring.toNat := by simp only [ringCq, rdRing, hrcfg]
  obtain ⟨e, hcompl, hstatus, -, -, -, hslot, -⟩ :=
    completed_finish (opc := opc) (status := 0) (result := 0) (len := 0) hreset'
  exact ⟨e, by rw [hcq, hcompl, List.getLast?_concat], hstatus, hslot⟩

theorem slotSt_finish (c : CmdRef) (opc status result len k : Nat) :
    slotSt (finish u c opc status result len) k = slotSt u k := by
  rw [finish_frame]; rfl

theorem taskSt_finish (c : CmdRef) (opc status result len id : Nat) :
    taskSt (finish u c opc status result len) id = taskSt u id := by
  rw [finish_frame]; rfl

/-- What a retry makes of the task's record. -/
def TaskSt.retried (y : TaskSt) : TaskSt :=
  { y with loc := .deferred, fault := none, deferred := false, lockPend := none, armData := none, armSpace := none,
           lost := [], eprio := y.prio, pend := [] }

/-- The state in which a retry has released what the task held. -/
def retryReleased (s : State) (k id : Nat) (x : TaskSt) : State :=
  releaseHold (haspTaskEnd (delSlot s k) id false) id (some (x.recG.getD 2 0).toNat)

theorem savesNone_retryReleased (s : State) (k id : Nat) (x : TaskSt) : SavesNone (delSlot s k) (retryReleased s k id x) :=
  (savesNone_haspTaskEnd ..).trans (savesNone_releaseHold ..)

theorem slotSt_delSlot_self (s : State) (k : Nat) : slotSt (delSlot s k) k = none := by rw [slotSt_delSlot, if_pos rfl]

theorem taskRetry_of_known (hx : taskSt s id = some x) : taskRetry s (.slot k) id =
    pushReady (updTask (retryReleased s k id x) id TaskSt.retried) x.part x.prio (.redispatch id false) := by
  unfold taskRetry
  rw [hx]
  rfl

theorem exec_taskRetry (hacc : Accepted s c 0x44) (hopen : ticketDone s id = false) (h : NamesSaved s c fid.toNat k id sv x) :
    ∃ u y, exec (.taskRetry c fid) s = .next u ∧
      (∃ e, (ringSt u (ringCq s c.ring.toNat)).compl.getLast? = some e ∧ e.status = 0 ∧ e.slot = c.slot.toNat) ∧
      slotSt u k = none ∧ taskSt u id = some y ∧ y.fault = none ∧ y.loc = .deferred := by
  have hrun : exec (.taskRetry c fid) s = .next (finish (taskRetry s (.slot k) id) c 0x44 0 0 0) := by
    refine congrArg Host.Outcome.next ((hostCmd_of_accepted hacc _).trans ((onFaulted_of_names h ..).trans ?_))
    rw [hopen, if_neg Bool.false_ne_true]
  have hrel := savesNone_retryReleased s k id x
  obtain ⟨y, hy⟩ := Option.isSome_iff_exists.mp (hrel.task id (congrArg Option.isSome h.known))
  have hretry := taskRetry_of_known (k := k) h.known
  refine ⟨_, y.retried, hrun, last_finish ?_ ?_ hacc.1 _, ?_, ?_, rfl, rfl⟩
  · rw [hretry, updTask_frame]; exact hrel.rcfg
  · rw [hretry, updTask_frame]; exact hrel.hkc
  · rw [slotSt_finish, hretry, slotSt_pushReady, slotSt_updTask]
    exact hrel.slot k (slotSt_delSlot_self s k)
  · rw [taskSt_finish, hretry, taskSt_pushReady, taskSt_updTask, if_pos rfl, hy]
    rfl

/-- The state in which a killed task's ticket is dropped. -/
def ticketGone (s : State) (x : TaskSt) : State :=
  match ticketNamed s x.tkw with
  | some n => dropTicketAll s n.idx
  | none => s

theorem savesNone_ticketGone (s : State) (x : TaskSt) : SavesNone s (ticketGone s x) := by
  unfold ticketGone
  split
  · exact savesNone_dropTicketAll ..
  · exact .refl s

theorem taskKill_of_known (hx : taskSt s id = some x) :
    taskKill s (.slot k) id = endTask (ticketGone (delSlot s k) x) id false := by
  unfold taskKill
  rw [hx]
  rfl

/-- The state in which a killed task's locks, slots and buffers are released too. -/
theorem savesNone_killReleased (s : State) (k id : Nat) (x : TaskSt) :
    SavesNone (delSlot s k) (releaseHold (haspTaskEnd (ticketGone (delSlot s k) x) id false) id none) :=
  ((savesNone_ticketGone ..).trans (savesNone_haspTaskEnd ..)).trans (savesNone_releaseHold ..)

theorem exec_taskKill (hacc : Accepted s c 0x45) (h : NamesSaved s c fid.toNat k id sv x) :
    ∃ u, exec (.taskKill c fid) s = .next u ∧
      (∃ e, (ringSt u (ringCq s c.ring.toNat)).compl.getLast? = some e ∧ e.status = 0 ∧ e.slot = c.slot.toNat) ∧
      slotSt u k = none ∧ taskSt u id = none := by
  have hrun : exec (.taskKill c fid) s = .next (finish (taskKill s (.slot k) id) c 0x45 0 0 0) :=
    congrArg Host.Outcome.next ((hostCmd_of_accepted hacc _).trans (onFaulted_of_names h ..))
  have hrel := savesNone_killReleased s k id x
  have hkill := taskKill_of_known (k := k) h.known
  refine ⟨_, hrun, last_finish ?_ ?_ hacc.1 _, ?_, ?_⟩
  · rw [hkill]; exact hrel.rcfg
  · rw [hkill]; exact hrel.hkc
  · rw [slotSt_finish, hkill]
    exact hrel.slot k (slotSt_delSlot_self s k)
  · rw [taskSt_finish, hkill, taskSt_endTask_self]

/-! ### A FID that names no faulted task -/

/-- The command answers NO_TASK, and threads and the Halter are as they were (08 Table 08-12). -/
theorem exec_of_noTask {i : Instr} {run : State → TaskLoc → Nat → State}
    (hexec : exec i s = .next (hostCmd s c opc (fun s => onFaulted s c opc fid.toNat run))) (hacc : Accepted s c opc)
    (hnone : faulted s c.part.toNat fid.toNat = none) :
    ∃ u, exec i s = .next u ∧ Completed s u c opc 0x72 0 0 ∧ u.thr = s.thr ∧ u.hlt = s.hlt := by
  have hrun : exec i s = .next (finish s c opc 0x72 0 0) := by
    rw [hexec, hostCmd_of_accepted hacc, onFaulted, hnone]
  exact ⟨_, hrun, completed_finish hacc.1, by rw [finish_frame], by rw [finish_frame]⟩

/-! ### TASK_RECALL (08 Table 08-11) -/

theorem agentThr_of_thread (h : agent.toNat = t.toNat * 8) : agentThr agent.toNat = some t.toNat := by
  have hlt := t.isLt
  rw [agentThr, h, if_pos (by omega)]
  exact congrArg some (by omega)

theorem exec_taskRecall (hacc : Accepted s c 0x46) (hsup : isSup s c.part.toNat = true) (hagent : agent.toNat = t.toNat * 8)
    (htask : thrTask s t.toNat = some id) (hmode : (thr s t.toNat).mode = .run) :
    ∃ u, exec (.taskRecall c agent) s = .next u ∧ Completed s u c 0x46 0 0 0 ∧ (5, 0) ∈ (thr u t.toNat).async ∧
      (thr u t.toNat).ctx = (thr s t.toNat).ctx ∧ u.mem = s.mem := by
  have hrun : exec (.taskRecall c agent) s = .next (finish (pendFault s t.toNat 5 0) c 0x46 0 0 0) := by
    refine congrArg Host.Outcome.next ((hostCmd_of_accepted hacc _).trans ?_)
    unfold taskRecall
    simp [hsup, agentThr_of_thread hagent, htask, hmode]
  have hreset : inReset (pendFault s t.toNat 5 0) c.part.toNat = false := by
    rw [pendFault_frame]
    exact hacc.1
  have hthr : thr (finish (pendFault s t.toNat 5 0) c 0x46 0 0 0) t.toNat = thr (pendFault s t.toNat 5 0) t.toNat := by
    rw [finish_frame]; rfl
  refine ⟨_, hrun, completed_of_rings (completed_finish hreset) ?_ ?_, ?_, ?_, ?_⟩
  · rw [pendFault_frame]
  · rw [pendFault_frame]
  · rw [hthr]
    exact async_pendFault ..
  · rw [hthr]
    exact ctx_pendFault ..
  · rw [finish_mem, pendFault_frame]

/-- Settles O24: ASYNC_FAULT by `faultTaken_asyncTake`; the commands on a saved task by `exec_taskResume`, `exec_taskRetry` and
`exec_taskKill`, where `SavesNone` is what the release of its locks, buffers and ticket leaves; `exec_taskRecall`. -/
theorem taskFaults : Obligations.TaskFaults := by
  unfold Obligations.TaskFaults
  intro s t c fid agent kind tag id k x sv more
  refine ⟨fun hstop hhalt hreq hmode hbound hasync htask hx hslot _ _ => ?_,
    fun hslot hlow htask hx hpart hfault _ hfid => ?_, fun hsaved hslot => ?_, exec_taskRecall⟩
  · have hfault := faultTaken_asyncTake ⟨hstop, hhalt, hreq, hmode, hbound, hasync⟩ htask hx hslot
    obtain ⟨hmore, hctx⟩ := thr_faultUnpended s t.toNat more
    exact ⟨_, _, _, rfl, hfault.slot, congrArg Ctx.landAll hctx, rfl, rfl, rfl, hmore, hfault.task, hfault.mode,
      hfault.mem.trans (by rw [faultUnpended_frame])⟩
  · have hnames : NamesSaved s c fid.toNat k id sv x := ⟨hslot, hlow, htask, hx, hpart, hfault, hfid⟩
    exact ⟨fun hacc => exec_taskResume hacc hnames, fun hacc hopen => exec_taskRetry hacc hopen hnames,
      fun hacc => exec_taskKill hacc hnames⟩
  · have hnone := faulted_of_empty (p := c.part.toNat) hsaved hslot
    simp only [List.forall_mem_cons, List.not_mem_nil, false_implies, implies_true, and_true]
    exact ⟨(exec_of_noTask rfl · hnone), (exec_of_noTask rfl · hnone), (exec_of_noTask rfl · hnone)⟩

end Sys2Proof.Machine
end

section
/-! PROOFS. A syllable that computes on its thread's context alone (09 R180, R184): what it writes to the registers and the
predicates says all that it does. -/

namespace Sys2Proof.Machine

open Sys2Proof.Claim

variable {s : State} {t : Thr} {g : Gd} {c c' : Ctx} {gs : List (Nat × W36)} {ps : List (Nat × Bool)}

/-! ### What a context wrote -/

theorem lookup_cons_getD {α : Type} (k i : Nat) (v d : α) (l : List (Nat × α)) :
    (List.lookup k ((i, v) :: l)).getD d = if k = i then v else (l.lookup k).getD d := by
  rw [List.lookup_cons]
  by_cases h : k = i
  · rw [if_pos h, beq_iff_eq.mpr h]; rfl
  · rw [if_neg h, beq_eq_false_iff_ne.mpr h]

theorem wrote_setG (h : Wrote c c' gs ps) (i : Nat) (v : W36) : Wrote c (c'.setG i v) ((i, v) :: gs) ps := by
  obtain ⟨hctx, hg, hp⟩ := h
  refine ⟨?_, fun r => ?_, fun k hk => ?_⟩
  · rw [Ctx.setG_eq, hctx]
  · rw [Ctx.g_setG, hg r, lookup_cons_getD]
    by_cases h0 : r = 0
    · rw [if_neg (by omega), if_pos h0, if_pos h0]
    · by_cases hr : r = i
      · subst hr; simp [h0]
      · simp [h0, hr]
  · rw [Ctx.pd_setG]
    exact hp k hk

theorem wrote_setP (h : Wrote c c' gs ps) (i : Nat) (b : Bool) : Wrote c (c'.setP i b) gs ((i, b) :: ps) := by
  obtain ⟨hctx, hg, hp⟩ := h
  refine ⟨?_, fun r => ?_, fun k hk => ?_⟩
  · rw [Ctx.setP_eq, hctx]
  · rw [Ctx.g_setP]
    exact hg r
  · rw [Ctx.pd_setP _ _ _ _ hk, hp k hk, lookup_cons_getD]
    by_cases h0 : k = 0
    · rw [if_neg (by omega), if_pos h0, if_pos h0]
    · by_cases hr : k = i
      · subst hr; simp [h0]
      · simp [h0, hr]

/-- Two lists of writes that leave the same predicates. -/
theorem wrote_congr_preds {qs : List (Nat × Bool)} (h : Wrote c c' gs ps)
    (hps : ∀ i, i < 8 → i ≠ 0 → (qs.lookup i).getD (c.pd i) = (ps.lookup i).getD (c.pd i)) : Wrote c c' gs qs := by
  obtain ⟨hctx, hg, hp⟩ := h
  refine ⟨hctx, hg, fun i hi => (hp i hi).trans ?_⟩
  by_cases h0 : i = 0
  · simp [h0]
  · rw [if_neg h0, if_neg h0, hps i hi h0]

/-- Two lists of writes that leave the same registers. -/
theorem wrote_congr_regs {hs : List (Nat × W36)} (h : Wrote c c' gs ps)
    (hgs : ∀ r, r ≠ 0 → (hs.lookup r).getD (c.g r) = (gs.lookup r).getD (c.g r)) : Wrote c c' hs ps := by
  obtain ⟨hctx, hg, hp⟩ := h
  refine ⟨hctx, fun r => (hg r).trans ?_, hp⟩
  by_cases h0 : r = 0
  · simp [h0]
  · rw [if_neg h0, if_neg h0, hgs r h0]

/-- The predicates a compare writes (09 R186). -/
theorem wrote_setSpec (h : Wrote c c' gs []) (rd : BitVec 5) (b nb : Bool) :
    Wrote c (setSpec c' rd.toNat b nb) gs (specWrites rd b nb) := by
  unfold setSpec specWrites
  dsimp only
  split
  · refine wrote_congr_preds (wrote_setP (wrote_setP h _ b) (rd.toNat % 8 + 1) nb) fun i _ _ => ?_
    simp only [lookup_cons_getD]
    by_cases hi : i = rd.toNat % 8
    · rw [if_pos hi, if_neg (by omega), if_pos hi]
    · simp only [if_neg hi]
  · exact wrote_setP h _ b

/-! ### What its issue answers -/

/-- A syllable of the context alone leaves what its function makes of the context past the bundle. -/
theorem exec_ctxSyl {i : Instr} {u : Nat} {undef : Bool} {f : Ctx → Ctx → Ctx} (hruns : Runs s t g)
    (hexec : exec i s = .next (issueOne s t (ctxSyl t u g undef f))) (hdef : undef = false) :
    ∃ v, exec i s = .next v ∧
      Leaves s v t (f (ctxNow s t) { ctxNow s t with pc := (ctxNow s t).pc + 1 }) s.mem := by
  subst hdef
  obtain ⟨⟨hissue, hbreak, hstep, hroutine⟩, hon⟩ := hruns
  obtain ⟨hthreads, hself, hothers⟩ := issueOne_ctx (u := u) (f := f) hissue hbreak hstep hon
  exact ⟨_, hexec, leaves_of_threads ⟨hissue, hbreak, hstep, hroutine⟩ hthreads hself hothers⟩

/-- A syllable of the context alone answers what its function writes. -/
theorem answers_ctxSyl {i : Instr} {u : Nat} {undef : Bool} {f : Ctx → Ctx → Ctx} (hruns : Runs s t g)
    (hexec : exec i s = .next (issueOne s t (ctxSyl t u g undef f))) (hdef : undef = false)
    (hwrote : Wrote (ctxNow s t) (f (ctxNow s t) { ctxNow s t with pc := (ctxNow s t).pc + 1 }) gs ps) :
    Answers i s t gs ps := by
  obtain ⟨v, hv, hleaves⟩ := exec_ctxSyl hruns hexec hdef
  exact ⟨v, _, hv, hleaves, hwrote⟩

/-- The same, of a function whose value is known. -/
theorem answers_of_eq {i : Instr} {u : Nat} {undef : Bool} {f : Ctx → Ctx → Ctx} (hruns : Runs s t g)
    (hexec : exec i s = .next (issueOne s t (ctxSyl t u g undef f))) (hdef : undef = false)
    (heq : f (ctxNow s t) { ctxNow s t with pc := (ctxNow s t).pc + 1 } = c') (hwrote : Wrote (ctxNow s t) c' gs ps) :
    Answers i s t gs ps := answers_ctxSyl hruns hexec hdef (heq ▸ hwrote)

/-- One that writes one register. -/
theorem answers_wg {i : Instr} {u : Nat} {undef : Bool} {f : Ctx → W36} {rd : BitVec 5} {v : W36} (hruns : Runs s t g)
    (hexec : exec i s = .next (issueOne s t (ctxSyl t u g undef (fun c0 c => wg c rd (f c0))))) (hdef : undef = false)
    (hv : f (ctxNow s t) = v) : Answers i s t [(rd.toNat, v)] [] :=
  answers_ctxSyl hruns hexec hdef (hv ▸ wrote_wg _ rd _)

/-- One that writes the predicates of a compare. -/
theorem answers_setSpec {i : Instr} {u : Nat} {undef : Bool} {f h : Ctx → Bool} {rd : BitVec 5} {b nb : Bool}
    (hruns : Runs s t g)
    (hexec : exec i s = .next (issueOne s t (ctxSyl t u g undef (fun c0 c => setSpec c rd.toNat (f c0) (h c0)))))
    (hdef : undef = false) (hb : f (ctxNow s t) = b) (hnb : h (ctxNow s t) = nb) : Answers i s t [] (specWrites rd b nb) :=
  answers_ctxSyl hruns hexec hdef (hb ▸ hnb ▸ wrote_setSpec (wrote_nothing _) rd _ _)

end Sys2Proof.Machine
end

section
/-! PROOFS. Compares, predicate logic, select, and reading and writing the predicates (09 R186, R189, Table 09-3). -/

namespace Sys2Proof.Machine

open Sys2Proof.Claim

variable {s : State} {t : Thr} {g : Gd} {c c' : Ctx} {rd ra rb : BitVec 5} {md : BitVec 8} {imm : BitVec 13}

/-! ### Signed readings -/

/-- The top bit of a number tells whether it reaches half its range. -/
theorem bitOf_top {k m : Nat} (h : m < 2 ^ (k + 1)) : bitOf m k = decide (2 ^ (k + 1) ≤ 2 * m) := by
  have hpow : (2 : Nat) ^ (k + 1) = 2 * 2 ^ k := by rw [pow_succ, Nat.mul_comm]
  rw [hpow] at h ⊢
  have hdiv : m / 2 ^ k < 2 := Nat.div_lt_of_lt_mul (by omega)
  have hle := Nat.le_div_iff_mul_le (x := 1) (y := m) (show 0 < 2 ^ k by positivity)
  rw [bitOf, Nat.mod_eq_of_lt hdiv, Bool.eq_iff_iff, beq_iff_eq, decide_eq_true_iff]
  omega

theorem signedOf_eq_signedAt {w : Nat} (hw : 0 < w) (v : Nat) : signedOf w v = signedAt w v := by
  obtain ⟨k, rfl⟩ := Nat.exists_eq_succ_of_ne_zero hw.ne'
  have htop := bitOf_top (k := k) (Nat.mod_lt v (show 0 < 2 ^ (k + 1) by positivity))
  unfold signedOf signedAt
  dsimp only
  rw [Nat.succ_eq_add_one, Nat.add_sub_cancel, htop]
  by_cases h : 2 * (v % 2 ^ (k + 1)) < 2 ^ (k + 1)
  · rw [if_neg (by simpa using h), if_pos h]
  · rw [if_pos (by simpa using h), if_neg h]

/-- A word's signed value is the reading of its 36 bits. -/
theorem signedAt_toNat (a : W36) : signedAt 36 a.toNat = a.toInt := by
  have hlt := a.isLt
  rw [signedAt, BitVec.toInt_eq_toNat_cond, Nat.mod_eq_of_lt hlt]
  rfl

theorem lowBits_all (a : W36) : lowBits 36 a = a.toNat := Nat.mod_eq_of_lt a.isLt

theorem signedAt_mod (w v : Nat) : signedAt w (v % 2 ^ w) = signedAt w v := by
  unfold signedAt
  rw [Nat.mod_mod]

/-! ### The predicates as a word -/

theorem preds_word (c : Ctx) :
    c.preds.toNat / 2 * 2 + 1 = ((List.range 8).map (fun k => if c.pd k then 2 ^ k else 0)).sum := by
  have hlt := c.preds.isLt
  have hbit : ∀ k, (if c.pd (k + 1) then 2 ^ (k + 1) else 0) = c.preds.toNat / 2 ^ (k + 1) % 2 * 2 ^ (k + 1) := fun k => by
    unfold Ctx.pd
    rcases Nat.mod_two_eq_zero_or_one (c.preds.toNat / 2 ^ (k + 1)) with h | h <;> simp [h]
  simp only [List.range, List.range.loop, List.map_cons, List.map_nil, List.sum_cons, List.sum_nil]
  rw [hbit 0, hbit 1, hbit 2, hbit 3, hbit 4, hbit 5, hbit 6, Ctx.pd_zero, if_pos rfl]
  omega

/-- Writing some of the predicates, each that a mask names, one after another. -/
theorem wrote_masked {gs : List (Nat × W36)} {ps : List (Nat × Bool)} (m v : Nat → Bool) (l : List Nat) (h : Wrote c c' gs ps) :
    ∃ qs, Wrote c (l.foldl (fun (c : Ctx) i => if m i then c.setP i (v i) else c) c') gs qs ∧
      ∀ i d, (qs.lookup i).getD d = if i ∈ l ∧ m i then v i else (ps.lookup i).getD d := by
  induction l generalizing c' ps with
  | nil => exact ⟨ps, h, fun i d => by simp⟩
  | cons k l ih =>
    by_cases hk : m k = true
    · obtain ⟨qs, hw, hq⟩ := ih (wrote_setP h k (v k))
      refine ⟨qs, by rw [List.foldl_cons, if_pos hk]; exact hw, fun i d => ?_⟩
      rw [hq, lookup_cons_getD]
      by_cases hi : i = k
      · subst hi; simp [hk]
      · simp [hi]
    · obtain ⟨qs, hw, hq⟩ := ih h
      refine ⟨qs, by rw [List.foldl_cons, if_neg hk]; exact hw, fun i d => ?_⟩
      rw [hq]
      by_cases hi : i = k
      · subst hi; simp [hk]
      · simp [hi]

theorem lookup_map_getD (f : Nat → Bool) (l : List Nat) (i : Nat) (d : Bool) :
    (List.lookup i (l.map (fun k => (k, f k)))).getD d = if i ∈ l then f i else d := by
  induction l with
  | nil => rfl
  | cons k l ih =>
    rw [List.map_cons, lookup_cons_getD, ih]
    by_cases hi : i = k
    · subst hi; simp
    · simp [hi]

/-! ### The statement -/

/-- The outcome of a compare at a width (09 Table 09-3). -/
theorem cmpW_eq {w cond : Nat} {a b : W36} {v : Bool} (hv : v = (match cond with
      | 0 => decide (a.toNat % 2 ^ w = b.toNat % 2 ^ w)
      | 1 => decide (a.toNat % 2 ^ w ≠ b.toNat % 2 ^ w)
      | 2 => decide (signedAt w (a.toNat % 2 ^ w) < signedAt w (b.toNat % 2 ^ w))
      | 3 => decide (signedAt w (a.toNat % 2 ^ w) ≤ signedAt w (b.toNat % 2 ^ w))
      | 4 => decide (a.toNat % 2 ^ w < b.toNat % 2 ^ w)
      | 5 => decide (a.toNat % 2 ^ w ≤ b.toNat % 2 ^ w)
      | _ => decide (a.toNat % 2 ^ w &&& b.toNat % 2 ^ w ≠ 0)))
    (hw : 0 < w) (hcond : cond ≠ 7) (hlt : cond < 8) : cmpW cond w a b = some v := by
  have hsigned := signedOf_eq_signedAt hw
  unfold cmpW lowBits
  dsimp only
  rw [hsigned, hsigned, hv]
  clear hv
  match cond, hcond, hlt with
  | 0, _, _ | 1, _, _ | 2, _, _ | 3, _, _ | 4, _, _ | 5, _, _ | 6, _, _ => rfl
  | 7, h, _ => exact absurd rfl h

/-- Settles O1: each operation's function of the context by the lemmas above. -/
theorem predicates : Obligations.Predicates := by
  unfold Obligations.Predicates
  intro s t g rd ra rb md imm hruns c a b w x y p q i
  have hi : simm13 imm = i := rfl
  have hcmpi : ∀ cond v nv n, exec n s = .next (issueOne s t (sylCmpi t 0 g rd ra imm cond)) → cmpW cond 36 a i = some v →
      (!v) = nv → Answers n s t [] (specWrites rd v nv) := fun cond v nv n hexec hv hnv => by
    subst hnv
    refine answers_ctxSyl hruns hexec rfl ?_
    dsimp only
    rw [show rg (ctxNow s t) ra = a from rfl, hi, hv]
    exact wrote_setSpec (wrote_nothing _) rd v (!v)
  have hsigned : ∀ v : W36, signedOf 36 v.toNat = v.toInt := fun v =>
    (signedOf_eq_signedAt (by decide) _).trans (signedAt_toNat v)
  refine ⟨fun hw hcond v hv => ?cmp, ?eqi, ?nei, ?lti, ?ltui, fun v hv => ?plog, ?sel, ?prd, ?pwr⟩
  case cmp =>
    have hpos : 0 < w := by unfold w; split <;> decide
    have hdef : (decide (md.toNat % 8 = 7) || decide (2 ≤ bitsOf md.toNat 4 3)) = false := by
      simp only [Bool.or_eq_false_iff, decide_eq_false_iff_not]
      exact ⟨hcond, Nat.not_le.mpr hw⟩
    refine answers_ctxSyl hruns rfl hdef ?_
    have hout : cmpW (md.toNat % 8) w (rg (ctxNow s t) ra) (rg (ctxNow s t) rb) = some v :=
      cmpW_eq hv hpos hcond (Nat.mod_lt _ (by decide))
    dsimp only
    rw [show (if bitsOf md.toNat 4 3 = 1 then 32 else 36) = w from rfl, hout]
    exact wrote_setSpec (wrote_nothing _) rd _ _
  case eqi => exact hcmpi 0 _ _ _ rfl (by simp [cmpW, lowBits_all, BitVec.toNat_inj]) (by simp)
  case nei => exact hcmpi 1 _ _ _ rfl (by simp [cmpW, lowBits_all, BitVec.toNat_inj]) (by simp)
  case lti => exact hcmpi 2 _ _ _ rfl (by simp [cmpW, lowBits_all, hsigned]) (by simp [← decide_not])
  case ltui => exact hcmpi 4 _ _ _ rfl (by simp [cmpW, lowBits_all]) (by simp [← decide_not])
  case plog => exact answers_setSpec hruns rfl rfl hv.symm (congrArg (!·) hv.symm)
  case sel => exact answers_wg hruns rfl rfl rfl
  case prd => 
    refine answers_wg hruns rfl rfl ?_
    rw [← preds_word c]
  case pwr =>
    obtain ⟨qs, hwrote, hqs⟩ := wrote_masked (fun k => bitOf b.toNat k) (fun k => bitOf a.toNat k) [1, 2, 3, 4, 5, 6, 7]
      (wrote_nothing c)
    refine answers_ctxSyl hruns rfl rfl (wrote_congr_preds hwrote fun k hk h0 => ?_)
    have hin : k ∈ [1, 2, 3, 4, 5, 6, 7] := by simp; omega
    rw [hqs, lookup_map_getD, if_pos hin, bitOf_eq, bitOf_eq]
    simp only [hin, BitVec.getLsbD, true_and]
    rfl

end Sys2Proof.Machine
end

section
/-! PROOFS. Addition, subtraction, logic, shifts and rotates of the width modes (09 R187). -/

namespace Sys2Proof.Machine

open Sys2Proof.Claim

variable {s : State} {t : Thr} {g : Gd} {rd ra rb : BitVec 5} {md : BitVec 8}

theorem wmResult_eq_atWidth (w : Nat) (a : W36) (v : Nat) : wmResult w a v = atWidth w a v := by
  rw [wmResult, atWidth, Nat.add_comm]

/-- A result counts modulo its width. -/
theorem atWidth_congr {w v v' : Nat} (a : W36) (h : v % 2 ^ w = v' % 2 ^ w) : atWidth w a v = atWidth w a v' := by
  rw [atWidth, atWidth, h]

theorem badWm_eq_false (h : md.toNat % 4 < 2) : badWm md = false := decide_eq_false (Nat.not_le.mpr h)

theorem wmWidth_pos (md : BitVec 8) : 0 < wmWidth md := by
  unfold wmWidth
  split <;> decide

/-! ### The carries -/

/-- A sum or a difference with its carry or borrow. -/
theorem answers_carry {i : Instr} {u v : Nat} {f : Nat → W36 → W36 → Nat × Bool} {b : Bool} (hruns : Runs s t g)
    (hmode : md.toNat % 4 < 2)
    (hexec : exec i s = .next (issueOne s t (ctxSyl t u g (badWm md) (fun c0 c =>
      (wg c rd (wmResult (wmWidth md) (rg c0 ra) (f (wmWidth md) (rg c0 ra) (rg c0 rb)).1)).setP (cpOf md)
        (f (wmWidth md) (rg c0 ra) (rg c0 rb)).2))))
    (hv : (f (wmWidth md) ((ctxNow s t).g ra.toNat) ((ctxNow s t).g rb.toNat)).1 = v % 2 ^ wmWidth md)
    (hb : (f (wmWidth md) ((ctxNow s t).g ra.toNat) ((ctxNow s t).g rb.toNat)).2 = b) :
    Answers i s t [(rd.toNat, atWidth (wmWidth md) ((ctxNow s t).g ra.toNat) v)] [(md.toNat / 4 % 8, b)] := by
  refine answers_ctxSyl hruns hexec (badWm_eq_false hmode) ?_
  have hres := congrArg (wmResult (wmWidth md) ((ctxNow s t).g ra.toNat)) hv
  rw [wmResult_eq_atWidth, wmResult_eq_atWidth, atWidth_congr _ (Nat.mod_mod ..)] at hres
  rw [← hres, ← wmResult_eq_atWidth, ← hb]
  exact wrote_setP (wrote_wg _ rd _) _ _

theorem addSubCarry_holds : addSubCarry := by
  intro s t g rd ra rb md hruns hmode w a b x y
  exact ⟨answers_carry (f := addW) hruns hmode rfl rfl rfl, answers_carry (f := subW) hruns hmode rfl rfl rfl⟩

/-! ### Logic, shifts and rotates -/

/-- A bitwise operation or a shift of the width mode. -/
theorem answers_sylWide {i : Instr} {f : Nat → W36 → W36 → Nat} {v : Nat} (hruns : Runs s t g) (hmode : md.toNat % 4 < 2)
    (hexec : exec i s = .next (issueOne s t (sylWide t 0 g rd ra rb md f)))
    (hv : f (wmWidth md) ((ctxNow s t).g ra.toNat) ((ctxNow s t).g rb.toNat) % 2 ^ wmWidth md = v % 2 ^ wmWidth md) :
    Answers i s t [(rd.toNat, atWidth (wmWidth md) ((ctxNow s t).g ra.toNat) v)] [] := by
  refine answers_wg hruns hexec (badWm_eq_false hmode) ?_
  rw [← atWidth_congr _ hv, ← wmResult_eq_atWidth]
  rfl

theorem shlW_eq (w : Nat) (a : W36) (n : Nat) :
    shlW w a n % 2 ^ w = (if n < w then a.toNat % 2 ^ w * 2 ^ n else 0) % 2 ^ w := by
  unfold shlW lowBits
  by_cases h : n < w
  · rw [if_neg (Nat.not_le.mpr h), if_pos h, Nat.mod_mod]
  · rw [if_pos (Nat.not_lt.mp h), if_neg h]

theorem shrW_eq (w : Nat) (a : W36) (n : Nat) : shrW w a n = if n < w then a.toNat % 2 ^ w / 2 ^ n else 0 := by
  unfold shrW lowBits
  by_cases h : n < w
  · rw [if_neg (Nat.not_le.mpr h), if_pos h]
  · rw [if_pos (Nat.not_lt.mp h), if_neg h]

/-- A quotient of a number that lies about zero is its sign. -/
theorem ediv_of_range {m z : Int} (hlo : -m ≤ z) (hhi : z < m) : z / m = if z < 0 then -1 else 0 := by
  have hm : 0 < m := by omega
  have hle := Int.le_ediv_iff_mul_le (a := -1) (b := z) hm
  have hlt := Int.ediv_lt_iff_lt_mul (a := z) (b := 0) hm
  by_cases h : z < 0
  · rw [if_pos h]
    omega
  · rw [if_neg h, Int.ediv_eq_zero_of_lt (by omega) hhi]

theorem signedAt_bounds (k v : Nat) : -(2 : Int) ^ k ≤ signedAt (k + 1) v ∧ signedAt (k + 1) v < 2 ^ k := by
  have hlt : v % 2 ^ (k + 1) < 2 ^ (k + 1) := Nat.mod_lt _ (by positivity)
  have hpow : (2 : Nat) ^ (k + 1) = 2 * 2 ^ k := by rw [pow_succ, Nat.mul_comm]
  have hpow' : (2 : Int) ^ (k + 1) = 2 * 2 ^ k := by rw [pow_succ, Int.mul_comm]
  have hcast : ((2 ^ k : Nat) : Int) = 2 ^ k := by norm_cast
  unfold signedAt
  rw [hpow', ← hcast]
  rw [hpow] at hlt ⊢
  split <;> omega

/-- A shift with the sign by the width gives what a shift by one bit less gives: the sign in every bit. -/
theorem signedAt_shift {w : Nat} (hw : 0 < w) (v n : Nat) :
    signedAt w v / 2 ^ min n w = signedAt w v / 2 ^ min n (w - 1) := by
  by_cases hn : n < w
  · rw [min_eq_left hn.le, min_eq_left (by omega)]
  · obtain ⟨k, rfl⟩ := Nat.exists_eq_succ_of_ne_zero hw.ne'
    obtain ⟨hlo, hhi⟩ := signedAt_bounds k v
    have hpow : (2 : Int) ^ (k + 1) = 2 * 2 ^ k := by rw [pow_succ, Int.mul_comm]
    rw [min_eq_right (Nat.not_lt.mp hn), min_eq_right (by omega), Nat.succ_eq_add_one, Nat.add_sub_cancel,
      ediv_of_range hlo hhi, ediv_of_range (by omega) (by omega)]

theorem sarW_eq {w : Nat} (hw : 0 < w) (a : W36) (n : Nat) :
    (sarW w a n : Int) = signedAt w (a.toNat % 2 ^ w) / 2 ^ min n (w - 1) % 2 ^ w := by
  unfold sarW wrapInt
  rw [signedOf_eq_signedAt hw, signedAt_mod, signedAt_shift hw, Int.toNat_of_nonneg (Int.emod_nonneg _ (by positivity))]

theorem logicAndShift_holds : logicAndShift := by
  intro s t g rd ra rb md hruns hmode w a b x n
  have hw : 0 < w := wmWidth_pos md
  exact ⟨answers_sylWide hruns hmode rfl rfl, answers_sylWide hruns hmode rfl rfl, answers_sylWide hruns hmode rfl rfl,
    answers_sylWide hruns hmode rfl rfl, answers_sylWide hruns hmode rfl (shlW_eq ..),
    answers_sylWide hruns hmode rfl (congrArg (· % 2 ^ w) (shrW_eq ..)),
    ⟨sarW w a n, sarW_eq hw a n, answers_sylWide hruns hmode rfl rfl⟩, answers_sylWide hruns hmode rfl rfl⟩

/-- Settles O2: the carries by `answers_carry`, the rest by `answers_sylWide`. -/
theorem integerOps : Obligations.IntegerOps := by
  unfold Obligations.IntegerOps
  exact ⟨addSubCarry_holds, logicAndShift_holds⟩

end Sys2Proof.Machine
end

section
/-! PROOFS. The immediate operations on 36 bits (09 R184, R189). -/

namespace Sys2Proof.Machine

open Sys2Proof.Claim

variable {s : State} {t : Thr} {g : Gd} {rd ra rb : BitVec 5} {md : BitVec 8} {imm : BitVec 13}

/-- An operation with an immediate. -/
theorem answers_sylImm {i : Instr} {f : W36 → W36} {v : W36} (hruns : Runs s t g)
    (hexec : exec i s = .next (issueOne s t (sylImm t 0 g rd ra f))) (hv : f ((ctxNow s t).g ra.toNat) = v) :
    Answers i s t [(rd.toNat, v)] [] := answers_wg hruns hexec rfl hv

theorem ofNat_shlW (a : W36) (n : Nat) : BitVec.ofNat 36 (shlW 36 a n) = a <<< n := by
  apply BitVec.eq_of_toNat_eq
  rw [BitVec.toNat_ofNat, shlW_eq, BitVec.toNat_shiftLeft, Nat.shiftLeft_eq, Nat.mod_eq_of_lt a.isLt]
  by_cases h : n < 36
  · rw [if_pos h]
  · obtain ⟨k, rfl⟩ := Nat.exists_eq_add_of_le (Nat.not_lt.mp h)
    rw [if_neg h, pow_add, Nat.mul_left_comm, Nat.mul_mod_right, Nat.zero_mod]

theorem ofNat_shrW (a : W36) (n : Nat) : BitVec.ofNat 36 (shrW 36 a n) = a >>> n := by
  have ha := a.isLt
  apply BitVec.eq_of_toNat_eq
  rw [BitVec.toNat_ofNat, shrW_eq, BitVec.toNat_ushiftRight, Nat.shiftRight_eq_div_pow, Nat.mod_eq_of_lt ha]
  by_cases h : n < 36
  · rw [if_pos h, Nat.mod_eq_of_lt (lt_of_le_of_lt (Nat.div_le_self ..) ha)]
  · rw [if_neg h, Nat.div_eq_of_lt (lt_of_lt_of_le ha (Nat.pow_le_pow_right (by decide) (Nat.not_lt.mp h)))]

/-- Every shift past the width gives the sign in every bit. -/
theorem toInt_shift (a : W36) (n : Nat) : a.toInt / 2 ^ min n 36 = a.toInt >>> n := by
  rw [Int.shiftRight_eq_div_pow]
  push_cast
  rcases Nat.lt_or_ge n 36 with h | h
  · rw [min_eq_left h.le]
  · have hlt := BitVec.two_mul_toInt_lt (x := a)
    have hle := BitVec.le_two_mul_toInt (x := a)
    have hpow : (2 : Int) ^ 36 ≤ 2 ^ n := pow_le_pow_right₀ (by decide) h
    rw [min_eq_right h, ediv_of_range (by omega) (by omega), ediv_of_range (by omega) (by omega)]

theorem ofNat_sarW (a : W36) (n : Nat) : BitVec.ofNat 36 (sarW 36 a n) = a.sshiftRight n := by
  apply BitVec.eq_of_toNat_eq
  rw [sarW, signedOf_eq_signedAt (by decide), signedAt_toNat, toInt_shift, BitVec.sshiftRight, BitVec.toNat_ofInt, wrapInt,
    BitVec.toNat_ofNat]
  push_cast
  omega

theorem rolW_eq_or {w k x : Nat} (hk : k < w) (hx : x < 2 ^ w) :
    x * 2 ^ k % 2 ^ w + x / 2 ^ (w - k) = x <<< k % 2 ^ w ||| x >>> (w - k) := by
  have hpow : 2 ^ w = 2 ^ (w - k) * 2 ^ k := by rw [← pow_add]; congr 1; omega
  have hlow : x / 2 ^ (w - k) < 2 ^ k := Nat.div_lt_of_lt_mul (by rw [← hpow]; exact hx)
  rw [Nat.shiftLeft_eq, Nat.shiftRight_eq_div_pow, hpow, Nat.mul_mod_mul_right, ← Nat.shiftLeft_eq,
    Nat.shiftLeft_add_eq_or_of_lt hlow]

theorem ofNat_rolW (a : W36) (n : Nat) : BitVec.ofNat 36 (rolW 36 a n) = a.rotateLeft n := by
  have hrol : rolW 36 a n = (a.rotateLeft n).toNat := by
    rw [BitVec.toNat_rotateLeft, ← rolW_eq_or (Nat.mod_lt _ (by decide)) a.isLt, rolW, lowBits_all]
  rw [hrol, BitVec.ofNat_toNat, BitVec.setWidth_eq]

theorem immediates_holds : immediates := by
  intro s t g rd ra imm i18 hruns c a n z
  have hz : zimm13 imm = z := (BitVec.ofNat_toNat ..).symm
  refine ⟨answers_sylImm hruns rfl ?addi, answers_sylImm hruns rfl ?andi, answers_sylImm hruns rfl ?ori,
    answers_sylImm hruns rfl ?xori, answers_sylImm hruns rfl (ofNat_shlW ..), answers_sylImm hruns rfl (ofNat_shrW ..),
    answers_sylImm hruns rfl (ofNat_sarW ..), answers_sylImm hruns rfl (ofNat_rolW ..),
    answers_wg hruns rfl rfl (BitVec.ofNat_toNat ..).symm, answers_wg hruns rfl rfl rfl⟩
  case addi => rw [BitVec.ofInt_add, BitVec.ofInt_toInt]; rfl
  all_goals rw [hz]

end Sys2Proof.Machine
end

section
/-! PROOFS. Bit fields, parity, reversals and counts (09 R189), bit by bit. -/

namespace Sys2Proof.Machine

open Sys2Proof.Claim

variable {s : State} {t : Thr} {g : Gd} {rd ra rb : BitVec 5} {md : BitVec 8} {imm : BitVec 13}

/-! ### EXTI and DEPI -/

theorem testBit_field (v pos n k : Nat) : (v / 2 ^ pos % 2 ^ n).testBit k = (decide (k < n) && v.testBit (pos + k)) := by
  rw [Nat.testBit_mod_two_pow, Nat.testBit_div_two_pow, Nat.add_comm k pos]

/-- A negative field of `n` bits, extended to 36 with ones. -/
theorem getLsbD_ofInt_neg {n f k : Nat} (hn : n ≤ 36) (hf : f < 2 ^ n) (hk : k < 36) :
    (BitVec.ofInt 36 ((f : Int) - 2 ^ n)).getLsbD k = if k < n then f.testBit k else true := by
  have hpow : 2 ^ n * 2 ^ (36 - n) = 2 ^ 36 := by rw [← pow_add]; congr 1; omega
  have hword : BitVec.ofInt 36 ((f : Int) - 2 ^ n) = BitVec.ofNat 36 (2 ^ n * (2 ^ (36 - n) - 1) + f) := by
    apply BitVec.eq_of_toNat_eq
    rw [BitVec.toNat_ofInt, BitVec.toNat_ofNat, Nat.mul_sub_one, hpow]
    push_cast
    have hcast : ((2 ^ n : Nat) : Int) = 2 ^ n := by norm_cast
    have hle : 2 ^ n ≤ 2 ^ 36 := Nat.pow_le_pow_right (by decide) hn
    rw [← hcast]
    omega
  rw [hword, BitVec.getLsbD_ofNat, Nat.testBit_two_pow_mul_add _ hf, Nat.testBit_two_pow_sub_one]
  simp only [hk, decide_true, Bool.true_and]
  split
  · rfl
  · exact decide_eq_true (by omega)

theorem getLsbD_extOf (a : W36) (pos : Nat) {n : Nat} (hn : 0 < n) (sign : Bool) {k : Nat} (hk : k < 36) :
    (extOf a pos n sign).getLsbD k = if k < n then a.getLsbD (pos + k) else sign && a.getLsbD (pos + n - 1) := by
  have htop : (a.toNat / 2 ^ pos % 2 ^ n).testBit (n - 1) = a.getLsbD (pos + n - 1) := by
    rw [testBit_field, decide_eq_true (by omega), Bool.true_and, ← Nat.add_sub_assoc hn]
    rfl
  have hlt : a.toNat / 2 ^ pos % 2 ^ n < 2 ^ n := Nat.mod_lt _ (by positivity)
  unfold extOf
  dsimp only
  rw [bitOf_eq, htop]
  by_cases hneg : (sign && a.getLsbD (pos + n - 1)) = true
  · have hin : pos + n - 1 < 36 := by
      by_contra h
      rw [BitVec.getLsbD_of_ge _ _ (Nat.not_lt.mp h), Bool.and_false] at hneg
      exact Bool.false_ne_true hneg
    have hsigned : signedOf n (a.toNat / 2 ^ pos % 2 ^ n) = ((a.toNat / 2 ^ pos % 2 ^ n : Nat) : Int) - 2 ^ n := by
      unfold signedOf
      dsimp only
      rw [Nat.mod_mod, bitOf_eq, htop, if_pos (Bool.and_eq_true_iff.mp hneg).2]
    rw [if_pos hneg, hsigned, getLsbD_ofInt_neg (by omega) hlt hk, testBit_field, hneg]
    split
    · next h => rw [decide_eq_true h, Bool.true_and]; rfl
    · rfl
  · rw [if_neg hneg, BitVec.getLsbD_ofNat, testBit_field, decide_eq_true hk, Bool.true_and, Bool.eq_false_iff.mpr hneg]
    split
    · next h => rw [decide_eq_true h, Bool.true_and]; rfl
    · next h => rw [decide_eq_false h, Bool.false_and]

theorem getLsbD_depOf (d a : W36) (pos n : Nat) {k : Nat} (hk : k < 36) :
    (depOf d a pos n).getLsbD k = if pos ≤ k ∧ k < pos + n then a.getLsbD (k - pos) else d.getLsbD k := by
  have hmask : (BitVec.ofNat 36 ((2 ^ n - 1) * 2 ^ pos)).getLsbD k = decide (pos ≤ k ∧ k < pos + n) := by
    rw [BitVec.getLsbD_ofNat, Nat.testBit_mul_two_pow, Nat.testBit_two_pow_sub_one, Bool.eq_iff_iff]
    simp only [Bool.and_eq_true, decide_eq_true_eq]
    omega
  have hfield : (BitVec.ofNat 36 (a.toNat % 2 ^ n * 2 ^ pos)).getLsbD k =
      (decide (pos ≤ k) && (decide (k - pos < n) && a.getLsbD (k - pos))) := by
    rw [BitVec.getLsbD_ofNat, Nat.testBit_mul_two_pow, Nat.testBit_mod_two_pow, decide_eq_true hk, Bool.true_and]
    rfl
  unfold depOf
  dsimp only
  rw [BitVec.getLsbD_or, BitVec.getLsbD_and, BitVec.getLsbD_and, BitVec.getLsbD_not, hmask, hfield]
  by_cases h : pos ≤ k ∧ k < pos + n
  · have hin : k - pos < n := by omega
    simp [h, hin]
  · simp [h, hk]

/-! ### Counts of bits -/

theorem popcount_eq_countP (n v : Nat) : popcount n v = (List.range n).countP (fun k => v.testBit k) := by
  induction n generalizing v with
  | zero => rfl
  | succ n ih =>
    rw [popcount, ih, List.range_succ_eq_map, List.countP_cons, List.countP_map, Nat.add_comm]
    congr 1
    · refine List.countP_congr fun k _ => ?_
      rw [Function.comp_apply, Nat.succ_eq_add_one, Nat.testBit_add_one]
    · rw [Nat.testBit_zero]
      rcases Nat.mod_two_eq_zero_or_one v with h | h <;> simp [h]

theorem parOf_word (a : W36) : parOf a false = if (List.range 36).countP (fun k => a.getLsbD k) % 2 = 1 then 1 else 0 := by
  rw [parOf, if_neg Bool.false_ne_true, popcount_eq_countP]
  change BitVec.ofNat 36 ((List.range 36).countP (fun k => a.getLsbD k) % 2) = _
  rcases Nat.mod_two_eq_zero_or_one ((List.range 36).countP (fun k => a.getLsbD k)) with h | h <;> rw [h] <;> rfl

theorem parOf_octets (a : W36) : parOf a true = BitVec.ofNat 36 (((List.range 4).map (fun k =>
    if (List.range 8).countP (fun j => a.getLsbD (8 * k + j)) % 2 = 0 then 2 ^ k else 0)).sum) := by
  have hoctet : ∀ k, (1 - popcount 8 (a.toNat / 256 ^ k) % 2) * 2 ^ k =
      if (List.range 8).countP (fun j => a.getLsbD (8 * k + j)) % 2 = 0 then 2 ^ k else 0 := fun k => by
    have hcount : popcount 8 (a.toNat / 256 ^ k) = (List.range 8).countP (fun j => a.getLsbD (8 * k + j)) := by
      rw [popcount_eq_countP]
      refine List.countP_congr fun j _ => ?_
      rw [show (256 : Nat) ^ k = 2 ^ (8 * k) by rw [pow_mul]; rfl, Nat.testBit_div_two_pow, Nat.add_comm j]
      rfl
    rw [hcount]
    rcases Nat.mod_two_eq_zero_or_one ((List.range 8).countP (fun j => a.getLsbD (8 * k + j))) with h | h <;> simp [h]
  rw [parOf, if_pos rfl]
  simp only [hoctet]
  rw [List.sum_eq_foldl, List.foldl_map]

/-! ### Reversals -/

theorem bitReverse_lt (n v : Nat) : bitReverse n v < 2 ^ n := by
  induction n generalizing v with
  | zero => exact Nat.one_pos
  | succ n ih =>
    have h := ih (v / 2)
    have hbit := Nat.mod_lt v (show 0 < 2 by decide)
    have hle : v % 2 * 2 ^ n ≤ 1 * 2 ^ n := Nat.mul_le_mul_right _ (by omega)
    rw [bitReverse, pow_succ]
    omega

theorem testBit_bitReverse (n v k : Nat) : (bitReverse n v).testBit k = (decide (k < n) && v.testBit (n - 1 - k)) := by
  induction n generalizing v with
  | zero => simp [bitReverse]
  | succ n ih =>
    rw [bitReverse, Nat.mul_comm, Nat.testBit_two_pow_mul_add _ (bitReverse_lt n _), ih, Nat.add_sub_cancel]
    rcases lt_trichotomy k n with h | rfl | h
    · obtain ⟨j, rfl⟩ := Nat.exists_eq_add_of_lt h
      rw [if_pos h, decide_eq_true h, decide_eq_true (by omega), show k + j + 1 - k = k + j + 1 - 1 - k + 1 by omega,
        Nat.testBit_add_one]
    · rw [if_neg (lt_irrefl k), Nat.sub_self, decide_eq_true (Nat.lt_succ_self k), Bool.true_and, Nat.testBit_zero,
        Nat.testBit_zero, Nat.mod_mod]
    · rw [if_neg (by omega), decide_eq_false (by omega), Bool.false_and]
      refine Nat.testBit_lt_two_pow (lt_of_lt_of_le (Nat.mod_lt _ (by decide)) ?_)
      exact Nat.pow_le_pow_right (n := 2) (by decide) (show 1 ≤ k - n by omega)

theorem orevOf_eq (a : W36) (halves : Bool) : orevOf a halves = BitVec.ofNat 36
    (if halves then a.toNat / 256 ^ 2 % 256 * 256 ^ 3 + a.toNat / 256 ^ 3 % 256 * 256 ^ 2 + a.toNat / 256 ^ 0 % 256 * 256 +
        a.toNat / 256 ^ 1 % 256
      else a.toNat / 256 ^ 0 % 256 * 256 ^ 3 + a.toNat / 256 ^ 1 % 256 * 256 ^ 2 + a.toNat / 256 ^ 2 % 256 * 256 +
        a.toNat / 256 ^ 3 % 256) := by
  unfold orevOf
  cases halves <;> simp [beOctets, beNat] <;> ring_nf

/-! ### Leading zeros -/

theorem leadZeros_spec (a : W36) : leadZeros a ≤ 36 ∧ (∀ k, k < leadZeros a → a.getLsbD (35 - k) = false) ∧
    (leadZeros a < 36 → a.getLsbD (35 - leadZeros a) = true) := by
  unfold leadZeros
  by_cases h0 : a.toNat = 0
  · have ha : a = 0 := BitVec.eq_of_toNat_eq h0
    rw [if_pos h0, ha]
    exact ⟨le_refl _, fun k _ => BitVec.getLsbD_zero, fun h => absurd h (lt_irrefl _)⟩
  · have hlog : a.toNat.log2 < 36 := (Nat.log2_lt h0).mpr a.isLt
    have htop : 36 - (a.toNat.log2 + 1) = 35 - a.toNat.log2 := by omega
    rw [if_neg h0, htop]
    refine ⟨by omega, fun k hk => ?_, fun _ => ?_⟩
    · exact Nat.testBit_lt_two_pow ((Nat.log2_lt h0).mp (by omega))
    · rw [show 35 - (35 - a.toNat.log2) = a.toNat.log2 by omega]
      exact Nat.testBit_log2 h0

/-! ### The statement -/

theorem fields_holds : fields := by
  intro s t g rd ra rb md imm hruns c a pos n o w
  have hmode : bitOf md.toNat 0 = md.getLsbD 0 := bitOf_eq ..
  have hsign : bitOf imm.toNat 12 = imm.getLsbD 12 := bitOf_eq ..
  refine ⟨⟨_, fun k hk => ?exti, answers_sylImm hruns rfl rfl⟩, ⟨_, fun k hk => ?depi, answers_wg hruns rfl rfl rfl⟩,
    ⟨parOf a (bitOf md.toNat 0), ?par, answers_wg hruns rfl rfl rfl⟩,
    ⟨BitVec.ofNat 36 (bitReverse w a.toNat), fun k hk => ?brev, answers_wg hruns rfl rfl rfl⟩, answers_wg hruns rfl rfl ?orev,
    ⟨if bitOf md.toNat 0 then popcount 36 a.toNat else leadZeros a, ?bcnt, answers_wg hruns rfl rfl rfl⟩⟩
  case exti =>
    rw [← hsign]
    exact getLsbD_extOf a pos (n := n) (Nat.succ_pos _) _ hk
  case depi => exact getLsbD_depOf _ a pos n hk
  case par =>
    rw [hmode]
    cases md.getLsbD 0
    · exact parOf_word a
    · exact parOf_octets a
  case brev =>
    rw [BitVec.getLsbD_ofNat, testBit_bitReverse, decide_eq_true hk, Bool.true_and]
    rfl
  case orev =>
    rw [← hmode]
    exact orevOf_eq ..
  case bcnt =>
    rw [hmode]
    cases md.getLsbD 0
    · exact leadZeros_spec a
    · exact popcount_eq_countP ..

/-- Settles O3: the immediates by `immediates_holds`, the fields by `fields_holds`. -/
theorem immediatesAndFields : Obligations.ImmediatesAndFields := by
  unfold Obligations.ImmediatesAndFields
  exact ⟨immediates_holds, fields_holds⟩

end Sys2Proof.Machine
end

section
/-! PROOFS. Packed decimal operations and the Luhn step (09 R190, R191, Table 09-4). -/

namespace Sys2Proof.Machine

open Sys2Proof.Claim

variable {s : State} {t : Thr} {g : Gd} {rd ra rb : BitVec 5} {md : BitVec 8}

/-! ### Packed digits -/

theorem bcdOk_iff (a : W36) : bcdOk a = true ↔ Decimal a := by
  rw [bcdOk, List.all_eq_true]
  exact forall_congr' fun i => imp_congr List.mem_range decide_eq_true_iff

theorem decOf_eq (a : W36) : decOf a = decimalOf a := by
  rw [decOf, decimalOf, List.sum_eq_foldl, List.foldl_map]
  rfl

/-- Digits below `B` at rising places: what each place reads. -/
theorem packed_lt {B : Nat} {f : Nat → Nat} (hf : ∀ i, f i < B) (n : Nat) :
    (List.range n).foldl (fun a i => a + f i * B ^ i) 0 < B ^ n := by
  induction n with
  | zero => exact Nat.one_pos
  | succ n ih =>
    have hle : (f n + 1) * B ^ n ≤ B * B ^ n := Nat.mul_le_mul_right _ (hf n)
    rw [List.range_succ, List.foldl_append, List.foldl_cons, List.foldl_nil, pow_succ, Nat.mul_comm _ B]
    rw [Nat.succ_mul] at hle
    omega

theorem packed_digit {B : Nat} {f : Nat → Nat} (hf : ∀ i, f i < B) {n i : Nat} (hi : i < n) :
    (List.range n).foldl (fun a i => a + f i * B ^ i) 0 / B ^ i % B = f i := by
  have hB : 0 < B := lt_of_le_of_lt (Nat.zero_le _) (hf 0)
  induction n with
  | zero => exact absurd hi (Nat.not_lt_zero _)
  | succ n ih =>
    rw [List.range_succ, List.foldl_append, List.foldl_cons, List.foldl_nil]
    rcases Nat.lt_succ_iff_lt_or_eq.mp hi with h | rfl
    · obtain ⟨j, rfl⟩ := Nat.exists_eq_add_of_lt h
      have hmul : f (i + j + 1) * B ^ (i + j + 1) = f (i + j + 1) * B ^ j * B * B ^ i := by ring
      rw [hmul, Nat.add_mul_div_right _ _ (by positivity), Nat.add_mul_mod_self_right, ih h]
    · rw [Nat.add_mul_div_right _ _ (by positivity), Nat.div_eq_of_lt (packed_lt hf i), Nat.zero_add,
        Nat.mod_eq_of_lt (hf i)]

theorem spellsDecimal_bcdOf (v : Nat) : SpellsDecimal (bcdOf v) v := fun i hi => by
  have hf : ∀ k, v / 10 ^ k % 10 < 16 := fun k => lt_trans (Nat.mod_lt _ (by decide)) (by decide)
  have hlt : bcdN 9 v < 2 ^ 36 := packed_lt hf 9
  rw [bcdOf, BitVec.toNat_ofNat, Nat.mod_eq_of_lt hlt]
  exact packed_digit hf hi

/-! ### The operations -/

theorem wrote_wg_setP (c : Ctx) (rd : BitVec 5) (v : W36) (k : Nat) (b : Bool) :
    Wrote c ((wg { c with pc := c.pc + 1 } rd v).setP k b) [(rd.toNat, v)] [(k, b)] := wrote_setP (wrote_wg c rd v) k b

theorem decimalOps_holds : decimalOps := by
  intro s t g rd ra rb md hruns a b cp w
  have hspec := fun (x y : Bool) => wrote_setSpec (wrote_nothing (ctxNow s t)) rd x y
  rw [← decOf_eq a, ← decOf_eq b]
  refine ⟨fun ha hb => ?both, fun hbad => ?bad, fun ha => ?one, fun ha => ?none, fun hmode => ?cvbd⟩
  case both =>
    have hok : (bcdOk a && bcdOk b) = true := Bool.and_eq_true_iff.mpr ⟨(bcdOk_iff a).mpr ha, (bcdOk_iff b).mpr hb⟩
    refine ⟨⟨_, spellsDecimal_bcdOf _, answers_of_eq hruns rfl rfl (if_pos hok) (wrote_wg_setP ..)⟩,
      ⟨_, spellsDecimal_bcdOf _, answers_of_eq hruns rfl rfl (if_pos hok) (wrote_wg_setP ..)⟩, fun v hv => ?_⟩
    have hdef : decide (md.toNat % 8 ≠ 0 ∧ md.toNat % 8 ≠ 2 ∧ md.toNat % 8 ≠ 3) = false := decide_eq_false (by omega)
    have hcond : (if md.toNat % 8 = 0 then decide (decOf a = decOf b) else if md.toNat % 8 = 2 then decide (decOf a < decOf b)
        else decide (decOf a ≤ decOf b)) = v := by
      obtain ⟨h, rfl⟩ | ⟨h, rfl⟩ | ⟨h, rfl⟩ := hv <;> simp [h]
    have hwrote := hspec v (!v)
    rw [← hcond] at hwrote ⊢
    exact answers_of_eq hruns rfl hdef (if_pos hok) hwrote
  case bad =>
    have hno : ¬ (bcdOk a && bcdOk b) = true := fun h => hbad (by
      rw [Bool.and_eq_true, bcdOk_iff, bcdOk_iff] at h
      exact h)
    refine ⟨answers_of_eq hruns rfl rfl (if_neg hno) (wrote_wg_setP ..),
      answers_of_eq hruns rfl rfl (if_neg hno) (wrote_wg_setP ..), fun hcond => ?_⟩
    exact answers_of_eq hruns rfl (decide_eq_false (by omega)) (if_neg hno) (hspec _ _)
  case one =>
    have hok := (bcdOk_iff a).mpr ha
    exact ⟨answers_setSpec hruns rfl rfl hok (congrArg (!·) hok),
      answers_of_eq hruns rfl rfl (if_pos hok) (wrote_wg_setP ..)⟩
  case none =>
    have hno := Bool.eq_false_iff.mpr (mt (bcdOk_iff a).mp ha)
    exact ⟨answers_setSpec hruns rfl rfl hno (congrArg (!·) hno),
      answers_of_eq hruns rfl rfl (if_neg (Bool.eq_false_iff.mp hno)) (wrote_wg_setP ..)⟩
  case cvbd =>
    exact ⟨_, spellsDecimal_bcdOf _, answers_ctxSyl hruns rfl (badWm_eq_false hmode) (wrote_wg_setP ..)⟩

/-! ### LUHN -/

theorem luhnDigit_eq : luhnDigit = luhnStep := by
  funext st d
  have hdigit : (if st.2.1 then (if 9 < 2 * (if 9 < d then 0 else d) then 2 * (if 9 < d then 0 else d) - 9
      else 2 * (if 9 < d then 0 else d)) else (if 9 < d then 0 else d)) =
      if 9 < d then 0 else if st.2.1 then (if 4 < d then 2 * d - 9 else 2 * d) else d := by
    split_ifs <;> omega
  unfold luhnDigit luhnStep
  dsimp only
  rw [hdigit]

theorem luhn_holds : luhn := by
  intro s t g rd ra rb md hruns a b n st
  have hst : luhnFold b ((List.range n).map (fun k => nib ((ctxNow s t).g ra.toNat) k)) = st := by
    unfold luhnFold
    rw [luhnDigit_eq, bitOf_eq, bitOf_eq]
    rfl
  have hword : luhnWord st = BitVec.ofNat 36 (st.1 + (if st.2.1 then 16 else 0) + (if st.2.2 then 32 else 0)) := by
    unfold luhnWord b2n
    congr 1
    split_ifs <;> omega
  rw [← hword, ← hst]
  exact answers_ctxSyl hruns rfl rfl (wrote_wg_setP ..)

/-- Settles O4: the packed decimal operations by `decimalOps_holds`, the Luhn step by `luhn_holds`. -/
theorem decimalArithmetic : Obligations.DecimalArithmetic := by
  unfold Obligations.DecimalArithmetic
  exact ⟨decimalOps_holds, luhn_holds⟩

end Sys2Proof.Machine
end

section
/-! PROOFS. Near loads and stores that their segment grants (08 R168; 09 R192, Table 09-5). -/

namespace Sys2Proof.Machine

open Sys2Proof.Claim

variable {s : State} {t : Thr} {g : Gd} {rd ra : BitVec 5} {imm : BitVec 13} {need : Need} {spaces : List Nat}
  {k off n sp a : Nat} {gs : List (Nat × W36)} {ps : List (Nat × Bool)}

/-! ### What an issue leaves -/

/-- An effect on the context alone leaves what it makes of the context past the bundle. -/
theorem leaves_updCtx (h : MayIssue s t) (f : Ctx → Ctx) : Leaves s (updCtx (issuing s t.toNat 1) t.toNat f) t
    (f { ctxNow s t with pc := (ctxNow s t).pc + 1 }) s.mem := by
  refine leaves_of_threads h ((issuing_threads s t.toNat 1).updThr _ _) ?_ fun k hk => ?_
  · rw [thr_updCtx, if_pos rfl, thr_issued]
  · rw [thr_updCtx, if_neg hk, thr_issuing_ne hk]

/-- An effect on the memories alone leaves the context past the bundle. -/
theorem leaves_mems (h : MayIssue s t) (m : Mems) : Leaves s { issuing s t.toNat 1 with mem := m } t
    { ctxNow s t with pc := (ctxNow s t).pc + 1 } m := by
  obtain ⟨-, -, -, hroutine⟩ := h
  refine ⟨?_, ?_, fun k hk => thr_issuing_ne hk⟩
  · conv_lhs => rw [issuing_frame]
    rfl
  · exact (thr_issued s t).trans (by rw [← hroutine])

theorem answers_updCtx {i : Instr} {f : Ctx → Ctx} (hruns : Runs s t g)
    (hexec : exec i s = .next (updCtx (issuing s t.toNat 1) t.toNat f))
    (hwrote : Wrote (ctxNow s t) (f { ctxNow s t with pc := (ctxNow s t).pc + 1 }) gs ps) : Answers i s t gs ps :=
  ⟨_, _, hexec, leaves_updCtx hruns.1 f, hwrote⟩

/-- A granted near access runs its effect past the bundle. -/
theorem issueOne_nearSyl_of_granted {zero : Ctx → Ctx} {ok : State → Nat → Nat → Nat → Nat → Fx} {f : State → State}
    (hruns : Runs s t g) (hgrant : Grants s t (imm.toNat / 1024) need (nearOffset (ctxNow s t) ra imm) n sp a)
    (hsp : sp ∈ spaces) (hok : ok (updCtx s t.toNat (fun c => c.turn)) ((ctxNow s t).sel (imm.toNat / 1024))
      (nearOffset (ctxNow s t) ra imm) sp a = { run := f }) :
    issueOne s t (nearSyl t g ra imm spaces need n zero ok) = f (issuing s t.toNat 1) := by
  have hfx := nearSyl_fx s t g ra imm spaces need n zero ok
  dsimp only at hfx
  rw [segCheck_of_grants hgrant hsp, nearFx, hok] at hfx
  exact issueOne_of_runs hruns rfl rfl hfx rfl rfl

/-! ### Words -/

theorem wordBad_of_good (h : WordGood s t sp a) : wordBad s t.toNat sp a = false := by
  obtain ⟨hclm, hcsm⟩ := h
  match sp with
  | 0 => simpa [wordBad] using hclm rfl
  | 1 => simpa [wordBad] using hcsm rfl
  | _ + 2 => rfl

theorem readWord_eq_wordAt (s : State) (t : Thr) (sp a : Nat) : readWord s t.toNat sp a = Claim.wordAt s t sp a := by
  match sp with
  | 0 | 1 | _ + 2 => rfl

theorem clmWord_setClm {core w : Nat} (ha : a < 16384) (hw : w < 16384) (v : W36) (k : Nat) :
    clmWord (setClm s core a v) k w = if k = core ∧ w = a then v else clmWord s k w := by
  have hplace : k * 16384 + w = core * 16384 + a ↔ k = core ∧ w = a := by omega
  exact (mget_mset ..).trans (if_congr hplace rfl rfl)

theorem answers_ld (hruns : Runs s t g) (hsp : sp < 3)
    (hgrant : Grants s t (imm.toNat / 1024) ReadNeed (nearOffset (ctxNow s t) ra imm) 1 sp a) (hgood : WordGood s t sp a) :
    Answers (.ld t g rd ra imm) s t [(rd.toNat, Claim.wordAt s t sp a)] [] := by
  have hin : sp ∈ [spClm, spCsm, spIst] := by
    simp only [spClm, spCsm, spIst, List.mem_cons, List.not_mem_nil, or_false]
    omega
  have hbad : ¬ wordBad (updCtx s t.toNat (fun c => c.turn)) t.toNat sp a = true := Bool.eq_false_iff.mp (wordBad_of_good hgood)
  have hrun : issueOne s t (sylLd t g rd ra imm) =
      updCtx (issuing s t.toNat 1) t.toNat (fun c => wg c rd (readWord s t.toNat sp a)) :=
    issueOne_nearSyl_of_granted (f := fun u => updCtx u t.toNat (fun c => wg c rd (readWord s t.toNat sp a)))
      hruns hgrant hin (if_neg hbad)
  rw [← readWord_eq_wordAt]
  exact answers_updCtx hruns (congrArg Host.Outcome.next hrun) (wrote_wg ..)

/-- A store of a word writes the memories alone. -/
theorem writeWord_issuing (s : State) (t : Thr) (sp a : Nat) (v : W36) : writeWord (issuing s t.toNat 1) t.toNat sp a v =
    { issuing s t.toNat 1 with mem := (writeWord s t.toNat sp a v).mem } := by
  match sp with
  | 0 => rw [writeWord, writeWord, setClm, setClm, issuing_mem]
  | _ + 1 => rw [writeWord, writeWord, setCsm, setCsm, issuing_mem] <;> exact Nat.succ_ne_zero _

/-- What CLM and CSM hold after a store of a word of one of them (08 Table 08-3). -/
theorem clmWord_writeWord {v : W36} (hsp : sp < 2) (hend : a < spaceSize sp) (core : Nat) {w : Nat} (hw : w < 16384) :
    clmWord (writeWord s t.toNat sp a v) core w =
      if sp = 0 ∧ core = t.toNat / 16 ∧ w = a then v else clmWord s core w := by
  obtain rfl | rfl : sp = 0 ∨ sp = 1 := by omega
  · exact (clmWord_setClm hend hw v core).trans (if_congr (by simp) rfl rfl)
  · rfl

theorem csmWord_writeWord {v : W36} (hsp : sp < 2) (hend : a < spaceSize sp) (cl : Nat) {w : Nat} (hw : w < 262144) :
    csmWord (writeWord s t.toNat sp a v) cl w =
      if sp = 1 ∧ cl = t.toNat / 128 ∧ w = a then v else csmWord s cl w := by
  obtain rfl | rfl : sp = 0 ∨ sp = 1 := by omega
  · rfl
  · exact (csmWord_setCsm hend hw v cl).trans (if_congr (by simp) rfl rfl)

theorem writeWord_mem_eq (s : State) (t : Thr) (sp a : Nat) (v : W36) : (writeWord s t.toNat sp a v).mem = { s.mem with
    clm := (writeWord s t.toNat sp a v).mem.clm, csm := (writeWord s t.toNat sp a v).mem.csm,
    clmBad := (writeWord s t.toNat sp a v).mem.clmBad, csmBad := (writeWord s t.toNat sp a v).mem.csmBad } := by
  match sp with
  | 0 | _ + 1 => rfl

theorem exec_st (hruns : Runs s t g) (hsp : sp < 2)
    (hgrant : Grants s t (imm.toNat / 1024) WriteNeed (nearOffset (ctxNow s t) ra imm) 1 sp a) :
    exec (.st t g rd ra imm) s = .next { issuing s t.toNat 1 with
      mem := (writeWord s t.toNat sp a ((ctxNow s t).g rd.toNat)).mem } := by
  have hin : sp ∈ [spClm, spCsm] := by
    simp only [spClm, spCsm, List.mem_cons, List.not_mem_nil, or_false]
    omega
  have hrun : issueOne s t (sylSt t g rd ra imm) =
      writeWord (issuing s t.toNat 1) t.toNat sp a (rg (thr (updCtx s t.toNat (fun c => c.turn)) t.toNat).ctx rd) :=
    issueOne_nearSyl_of_granted (f := fun u => writeWord u t.toNat sp a _) hruns hgrant hin rfl
  rw [ctx_turned, writeWord_issuing] at hrun
  exact congrArg Host.Outcome.next hrun

/-! ### Octets of the window -/

theorem answers_ldo {i : Instr} (hruns : Runs s t g) (hexec : exec i s = .next (issueOne s t (sylLdo t g rd ra imm n)))
    (hgrant : Grants s t (imm.toNat / 1024) ReadNeed (nearOffset (ctxNow s t) ra imm) n 6 a) :
    Answers i s t [(rd.toNat, BitVec.ofNat 36 (spelled (fun i => mget 0 (ctxNow s t).win (a + i)) n))] [] := by
  have hrun : issueOne s t (sylLdo t g rd ra imm n) = updCtx (issuing s t.toNat 1) t.toNat (fun c =>
      wg c rd (BitVec.ofNat 36 (beNat ((thr (updCtx s t.toNat (fun c => c.turn)) t.toNat).ctx.winRead a n)))) :=
    issueOne_nearSyl_of_granted (f := fun u => updCtx u t.toNat (fun c => wg c rd _)) hruns hgrant (by decide) rfl
  rw [ctx_turned, Ctx.winRead, beNat_map_range] at hrun
  exact answers_updCtx hruns (hexec.trans (congrArg Host.Outcome.next hrun)) (wrote_wg ..)

/-- Octets of the window after a write of octets below 512. -/
theorem mget_winWrite (c : Ctx) (off : Nat) (l : List Octet) {b : Nat} (hb : b < 512) :
    mget 0 (c.winWrite off l).win b = if off ≤ b ∧ b < off + l.length then l.getD (b - off) 0 else mget 0 c.win b := by
  rw [Ctx.winWrite, mget_putOctets]
  exact if_congr (by simp [hb]) rfl rfl

theorem exec_sto {i : Instr} (hruns : Runs s t g) (hexec : exec i s = .next (issueOne s t (sylSto t g rd ra imm n)))
    (hgrant : Grants s t (imm.toNat / 1024) WriteNeed (nearOffset (ctxNow s t) ra imm) n 6 a) :
    ∃ u c', exec i s = .next u ∧ Leaves s u t c' s.mem ∧ c' = { ctxNow s t with pc := (ctxNow s t).pc + 1, win := c'.win } ∧
      ∀ b, b < 512 → mget 0 c'.win b =
        if a ≤ b ∧ b < a + n then octetOf ((ctxNow s t).g rd.toNat).toNat n (b - a) else mget 0 (ctxNow s t).win b := by
  have hrun : issueOne s t (sylSto t g rd ra imm n) = updCtx (issuing s t.toNat 1) t.toNat (fun c =>
      c.winWrite a (beOctets n (rg (thr (updCtx s t.toNat (fun c => c.turn)) t.toNat).ctx rd).toNat)) :=
    issueOne_nearSyl_of_granted (f := fun u => updCtx u t.toNat (fun c => c.winWrite a _)) hruns hgrant (by decide) rfl
  rw [ctx_turned] at hrun
  refine ⟨_, _, hexec.trans (congrArg Host.Outcome.next hrun), leaves_updCtx hruns.1 _, rfl, fun b hb => ?_⟩
  rw [mget_winWrite _ _ _ hb, length_beOctets]
  exact ite_congr rfl (fun h => getD_beOctets _ (by omega)) fun _ => rfl

/-! ### The statement -/

/-- Settles O5: words by `answers_ld` and `exec_st`, octets of the window by `answers_ldo` and `exec_sto`. -/
theorem nearAccess : Obligations.NearAccess := by
  unfold Obligations.NearAccess
  intro s t g rd ra imm sp a hruns c k off
  refine ⟨fun hsp hgrant hgood => answers_ld hruns hsp hgrant hgood, fun hsp hgrant => ?st, fun n => ⟨fun hgrant => ?ldo,
    fun hgrant i hi h1 h2 h4 => ?sto⟩⟩
  case st =>
    have hexec := exec_st (rd := rd) hruns hsp hgrant
    obtain ⟨v, -, -, -, -, -, -, -, -, -, -, -, hend⟩ := hgrant
    have hin : a < spaceSize sp := hend (by omega)
    exact ⟨_, _, hexec, leaves_mems hruns.1 _, wrote_nothing c, fun core w hw => clmWord_writeWord hsp hin core hw,
      fun cl w hw => csmWord_writeWord hsp hin cl hw, writeWord_mem_eq ..⟩
  case ldo =>
    refine ⟨?_, ?_, ?_⟩ <;>
      · rintro rfl
        exact answers_ldo hruns rfl hgrant
  case sto =>
    simp only [List.mem_cons, List.not_mem_nil, or_false] at hi
    obtain rfl | rfl | rfl := hi
    · obtain rfl := h1 rfl
      exact exec_sto hruns rfl hgrant
    · obtain rfl := h2 rfl
      exact exec_sto hruns rfl hgrant
    · obtain rfl := h4 rfl
      exact exec_sto hruns rfl hgrant

end Sys2Proof.Machine
end

section
/-! PROOFS. LDD, XLAT and BMWALK on segments that grant them (09 R193 to R195). -/

namespace Sys2Proof.Machine

open Sys2Proof.Claim

variable {s : State} {t : Thr} {g : Gd} {rd ra rb : BitVec 5} {md : BitVec 8} {imm : BitVec 13} {need : Need}
  {spaces : List Nat} {k off n m sp a : Nat}

/-! ### A checked access -/

/-- The check of an access once the turn has passed. -/
theorem accessCheck_turned (s : State) (t : Thr) (k : Nat) (spaces : List Nat) (need : Need) (off n : Nat) :
    accessCheck (updCtx s t.toNat (fun c => c.turn)) t.toNat k spaces need off n =
      ((ctxNow s t).sel k, segCheck (segOf s t.toNat ((ctxNow s t).sel k)) spaces need off n) := by
  unfold accessCheck
  dsimp only
  rw [ctx_turned, segOf_turned]

theorem accessCheck_of_grants (h : Grants s t k need off n sp a) (hsp : sp ∈ spaces) :
    accessCheck (updCtx s t.toNat (fun c => c.turn)) t.toNat k spaces need off n = ((ctxNow s t).sel k, .ok sp a) := by
  rw [accessCheck_turned, segCheck_of_grants h hsp]

/-- A segment that grants units grants the first of them. -/
theorem grants_of_le (h : Grants s t k need off n sp a) (hpos : 0 < m) (hle : m ≤ n) : Grants s t k need off m sp a := by
  obtain ⟨v, hv, hvalid, hp, hr, hw, hx, hh, hn, hlimit, hspace, haddr, hend⟩ := h
  exact ⟨v, hv, hvalid, hp, hr, hw, hx, hh, hpos, by omega, hspace, haddr, fun hlt => by have := hend hlt; omega⟩

/-- A syllable whose effect is on the context alone. -/
theorem answers_of_fx {i : Instr} {y : Syl} {f : Ctx → Ctx} {gs : List (Nat × W36)} {ps : List (Nat × Bool)}
    (hruns : Runs s t g) (hexec : exec i s = .next (issueOne s t y)) (hguard : y.guard = g) (hdef : y.undef = false)
    (hfx : y.fx (updCtx s t.toNat (fun c => c.turn)) = { run := fun u => updCtx u t.toNat f })
    (hwrote : Wrote (ctxNow s t) (f { ctxNow s t with pc := (ctxNow s t).pc + 1 }) gs ps) : Answers i s t gs ps :=
  answers_updCtx hruns (hexec.trans (congrArg Host.Outcome.next (issueOne_of_runs hruns hguard hdef hfx rfl rfl))) hwrote

/-- One that writes a register. -/
theorem answers_fx_wg {i : Instr} {y : Syl} {v : W36} (hruns : Runs s t g) (hexec : exec i s = .next (issueOne s t y))
    (hguard : y.guard = g) (hdef : y.undef = false)
    (hfx : y.fx (updCtx s t.toNat (fun c => c.turn)) = { run := fun u => updCtx u t.toNat (fun c => wg c rd v) }) :
    Answers i s t [(rd.toNat, v)] [] := answers_of_fx hruns hexec hguard hdef hfx (wrote_wg ..)

/-! ### LDD -/

/-- Nibbles strung together, the first the highest. -/
theorem horner_eq_sum (B : Nat) (f : Nat → Nat) (n : Nat) :
    (List.range n).foldl (fun a i => a * B + f i) 0 = ((List.range n).map (fun i => f i * B ^ (n - 1 - i))).sum := by
  induction n with
  | zero => rfl
  | succ n ih =>
    have hterm : ∀ i ∈ List.range n, f i * B ^ (n + 1 - 1 - i) = f i * B ^ (n - 1 - i) * B := fun i hi => by
      have hlt := List.mem_range.mp hi
      rw [show n + 1 - 1 - i = n - 1 - i + 1 by omega, pow_succ, Nat.mul_assoc]
    rw [List.range_succ, List.foldl_append, ih, List.map_append, List.sum_append, List.map_congr_left hterm,
      List.sum_map_mul_right]
    simp

theorem answers_ldd (hruns : Runs s t g) (hgrant : Grants s t (imm.toNat / 1024) ReadNeed (nearOffset (ctxNow s t) ra imm / 2)
    ((nearOffset (ctxNow s t) ra imm + 8) / 2 - nearOffset (ctxNow s t) ra imm / 2 + 1) 6 a) :
    Answers (.ldd t g rd ra imm) s t [(rd.toNat, BitVec.ofNat 36
      (((List.range 9).map (fun i => winNib (ctxNow s t) (nearOffset (ctxNow s t) ra imm + i) * 16 ^ (8 - i))).sum))] [] := by
  rw [← horner_eq_sum 16 _ 9]
  refine answers_fx_wg (y := sylLdd t g rd ra imm) hruns rfl rfl rfl ?_
  unfold sylLdd
  dsimp only
  rw [ctx_turned, nearOffset_eq, show nearSel imm = imm.toNat / 1024 from rfl, accessCheck_of_grants hgrant (by decide)]
  rfl

/-! ### XLAT -/

theorem xlatEntry_eq (s : State) (t : Thr) (sp base i : Nat) :
    xlatEntry s t.toNat sp base i = (Claim.wordAt s t sp (base + i / 4)).toNat / 2 ^ (24 - 8 * (i % 4)) % 256 := by
  have hpow : 256 ^ (3 - i % 4) = 2 ^ (24 - 8 * (i % 4)) := by
    rw [show 24 - 8 * (i % 4) = 8 * (3 - i % 4) by omega, pow_mul]
    rfl
  rw [xlatEntry, readWord_eq_wordAt, hpow]

theorem answers_xlat (hruns : Runs s t g) (hsp : sp < 2)
    (hgrant : Grants s t (md.toNat % 8) ReadNeed ((ctxNow s t).g rb.toNat).toNat 64 sp a)
    (hgood : ∀ w, w < 64 → WordGood s t sp (a + w)) :
    Answers (.xlat t g rd ra rb md) s t [(rd.toNat, BitVec.ofNat 36 ((List.range 4).foldl (fun n k =>
      n + xlatEntry s t.toNat sp a (((ctxNow s t).g ra.toNat).toNat / 256 ^ k % 256) * 256 ^ k) 0))] [] := by
  have hin : sp ∈ [spClm, spCsm] := by
    simp only [spClm, spCsm, List.mem_cons, List.not_mem_nil, or_false]
    omega
  have hclean : (List.range 4).any (fun k => wordBad (updCtx s t.toNat (fun c => c.turn)) t.toNat sp
      (a + ((ctxNow s t).g ra.toNat).toNat / 256 ^ k % 256 / 4)) = false :=
    List.any_eq_false.mpr fun k _ => Bool.eq_false_iff.mp (wordBad_of_good (hgood _ (by omega)))
  refine answers_fx_wg (y := sylXlat t g rd ra rb md) hruns rfl rfl rfl ?_
  unfold sylXlat
  dsimp only
  rw [ctx_turned, rg, accessCheck_of_grants hgrant hin]
  exact if_neg (Bool.eq_false_iff.mp hclean)

/-! ### BMWALK -/

/-- A field of a bitmap in the window (09 R195): bit 7 of the first octet is field 1. -/
def winField (c : Ctx) (a f : Nat) : Bool := (mget 0 c.win (a + (f - 1) / 8)).getLsbD (7 - (f - 1) % 8)

theorem bmBit_winRead (c : Ctx) (a : Nat) {f n : Nat} (hf : (f - 1) / 8 < n) : bmBit (c.winRead a n) f = winField c a f := by
  rw [bmBit, oct, getD_winRead c a hf, bitOf_eq]
  rfl

/-- The walk stops at the first field that is present. -/
theorem bmNext_of_first {l : List Octet} {last from_ f : Nat} (hlast : last ≤ 128) (hpos : 0 < f) (hfrom : from_ ≤ f)
    (hle : f ≤ last) (hbit : bmBit l f = true) (hfirst : ∀ i, from_ ≤ i → i < f → 0 < i → bmBit l i = false) :
    bmNext l last from_ = f := by
  obtain ⟨f, rfl⟩ := Nat.exists_eq_succ_of_ne_zero hpos.ne'
  have hfind : (List.range 128).find? (fun f => decide (from_ ≤ f + 1 ∧ f + 1 ≤ last) && bmBit l (f + 1)) = some f := by
    rw [List.find?_range_eq_some]
    refine ⟨by simp [hfrom, hle, hbit], List.mem_range.mpr (by omega), fun j hj => ?_⟩
    by_cases hj' : from_ ≤ j + 1
    · rw [hfirst (j + 1) hj' (by omega) (by omega), Bool.and_false]
      rfl
    · simp [hj']
  rw [bmNext, hfind]
  rfl

theorem bmNext_of_none {l : List Octet} {last from_ : Nat} (hnone : ∀ i, from_ ≤ i → i ≤ last → bmBit l i = false) :
    bmNext l last from_ = 0 := by
  have hfind : (List.range 128).find? (fun f => decide (from_ ≤ f + 1 ∧ f + 1 ≤ last) && bmBit l (f + 1)) = none := by
    rw [List.find?_eq_none]
    intro j _ hj
    simp only [Bool.and_eq_true, decide_eq_true_eq] at hj
    obtain ⟨⟨hlo, hhi⟩, hbit⟩ := hj
    rw [hnone _ hlo hhi] at hbit
    exact Bool.false_ne_true hbit
  rw [bmNext, hfind]
  rfl

theorem answers_bmwalk (hruns : Runs s t g) (hgrant : Grants s t (md.toNat / 8 % 8) ReadNeed ((ctxNow s t).g rb.toNat).toNat
    ((if winField (ctxNow s t) a 1 then 128 else 64) / 8) 6 a) {f : Nat}
    (hf : bmNext ((ctxNow s t).winRead a 16) (if winField (ctxNow s t) a 1 then 128 else 64)
      (max ((ctxNow s t).g ra.toNat).toNat 1 + 1) = f) :
    Answers (.bmwalk t g rd ra rb md) s t [(rd.toNat, BitVec.ofNat 36 f)] [(md.toNat % 8, decide (f ≠ 0))] := by
  have hsize : (if winField (ctxNow s t) a 1 then 128 else 64) / 8 = if winField (ctxNow s t) a 1 then 16 else 8 := by
    split <;> rfl
  rw [hsize] at hgrant
  have hfirst := grants_of_le (m := 8) hgrant (by decide) (by split <;> decide)
  refine answers_of_fx (y := sylBmwalk t g rd ra rb md)
    (f := fun c => (wg c rd (BitVec.ofNat 36 f)).setP (md.toNat % 8) (decide (f ≠ 0))) hruns rfl rfl rfl ?_ (wrote_wg_setP ..)
  unfold sylBmwalk
  dsimp only
  rw [ctx_turned, show bitsOf md.toNat 5 3 = md.toNat / 8 % 8 from rfl, rg, accessCheck_of_grants hfirst (by decide)]
  dsimp only [nearFx]
  rw [bmBit_winRead _ _ (by decide), accessCheck_of_grants hgrant (by decide)]
  dsimp only [nearFx]
  rw [rg, hf]

/-! ### The statement -/

theorem windowWords_holds : windowWords := by
  intro s t g rd ra rb md imm sp a hruns c nibAddr nibble off field from_ last
  refine ⟨fun hgrant => answers_ldd hruns hgrant, fun hsp hgrant hgood => ?xlat, fun hgrant => ⟨?found, ?none⟩⟩
  case xlat =>
    have hentry := fun k => xlatEntry_eq s t sp a ((c.g ra.toNat).toNat / 256 ^ k % 256)
    have hlt : ∀ k, xlatEntry s t.toNat sp a ((c.g ra.toNat).toNat / 256 ^ k % 256) < 256 := fun k => Nat.mod_lt _ (by decide)
    have hsum := packed_lt hlt 4
    have hword : ∀ x, x < 256 ^ 4 → (BitVec.ofNat 36 x).toNat = x := fun x hx => by
      rw [BitVec.toNat_ofNat, Nat.mod_eq_of_lt (lt_trans hx (by decide))]
    refine ⟨_, fun k hk => ?_, ?_, answers_xlat hruns hsp hgrant hgood⟩
    · rw [hword _ hsum]
      exact (packed_digit hlt hk).trans (hentry k)
    · rw [hword _ hsum]
      exact hsum
  case found =>
    intro f hfrom hle hbit hfirst
    have hlast : last ≤ 128 := by
      unfold last
      split <;> decide
    have hpos : 1 < from_ := by omega
    have hf := bmNext_of_first (l := c.winRead a 16) hlast (by omega) hfrom hle
      ((bmBit_winRead c a (by omega)).trans hbit) fun i hi hlt hi0 => (bmBit_winRead c a (by omega)).trans (hfirst i hi hlt)
    have := answers_bmwalk (rd := rd) hruns hgrant hf
    rwa [decide_eq_true (by omega)] at this
  case none =>
    intro hnone
    have hlast : last ≤ 128 := by
      unfold last
      split <;> decide
    have hf := bmNext_of_none (l := c.winRead a 16) fun i hi hle =>
      (bmBit_winRead c a (show (i - 1) / 8 < 16 by omega)).trans (hnone i hi hle)
    exact answers_bmwalk hruns hgrant hf

end Sys2Proof.Machine
end

section
/-! PROOFS. TLVNEXT (09 R196): zeros before the tag are passed, then a tag of one to three octets and a length of one to
three are read. -/

namespace Sys2Proof.Machine

open Sys2Proof.Claim

variable {s : State} {t : Thr} {g : Gd} {rd ra rb : BitVec 5} {md : BitVec 8} {c : Ctx} {off z tl ll m n limit : Nat}

/-! ### Octets of the window as a list -/

theorem winRead_succ (c : Ctx) (off n : Nat) : c.winRead off (n + 1) = mget 0 c.win off :: c.winRead (off + 1) n := by
  rw [Ctx.winRead, List.range_succ_eq_map, List.map_cons, List.map_map]
  refine congrArg₂ List.cons rfl (List.map_congr_left fun i _ => ?_)
  rw [Function.comp_apply, show off + i.succ = off + 1 + i by omega]

theorem winRead_add (c : Ctx) (off m n : Nat) : c.winRead off (m + n) = c.winRead off m ++ c.winRead (off + m) n := by
  induction m generalizing off with
  | zero => rw [Nat.zero_add]; rfl
  | succ m ih =>
    rw [show m + 1 + n = m + n + 1 by omega, winRead_succ, winRead_succ, ih, List.cons_append,
      show off + 1 + m = off + (m + 1) by omega]

/-- The zeros at the head of the octets are counted (09 R196). -/
theorem takeWhile_winRead (hzero : ∀ i, i < z → mget 0 c.win (off + i) = 0) (hnext : n = 0 ∨ mget 0 c.win (off + z) ≠ 0) :
    ((c.winRead off (z + n)).takeWhile (· = 0)).length = z := by
  rw [winRead_add, List.takeWhile_append_of_pos fun o ho => ?_, List.length_append, length_winRead]
  · obtain rfl | hne := hnext
    · rfl
    · cases n with
      | zero => rfl
      | succ n => rw [winRead_succ, List.takeWhile_cons_of_neg (by simpa using hne)]; rfl
  · obtain ⟨i, hi, rfl⟩ := List.mem_map.mp ho
    exact decide_eq_true (hzero i (List.mem_range.mp hi))

theorem drop_winRead (c : Ctx) (off m n : Nat) : (c.winRead off (m + n)).drop m = c.winRead (off + m) n := by
  rw [winRead_add, List.drop_left' (length_winRead ..)]

/-! ### The tag and the length -/

/-- A tag of `tl` octets continues as the rule says: the first octet with 11111 below, a further one with its top bit set
(09 R196). -/
structure TagAt (c : Ctx) (p tl : Nat) : Prop where
  first : (mget 0 c.win p).toNat % 32 = 31 ↔ 1 < tl
  further : ∀ i, 0 < i → i < tl → (128 ≤ (mget 0 c.win (p + i)).toNat ↔ i + 1 < tl)
  low : 1 ≤ tl
  high : tl ≤ 3

/-- A length of `ll` octets in one of its three forms (09 R196). -/
def LenAt (c : Ctx) (p ll : Nat) : Prop :=
  (ll = 1 ∧ (mget 0 c.win p).toNat < 128) ∨ (ll = 2 ∧ (mget 0 c.win p).toNat = 0x81) ∨
    (ll = 3 ∧ (mget 0 c.win p).toNat = 0x82)

/-- The number that the length octets at a place give. -/
def headerLen (c : Ctx) (p ll : Nat) : Nat :=
  if ll = 1 then (mget 0 c.win p).toNat else if ll = 2 then (mget 0 c.win (p + 1)).toNat
  else (mget 0 c.win (p + 1)).toNat * 256 + (mget 0 c.win (p + 2)).toNat

theorem tlvTag_one {a : Octet} (ha : a.toNat % 32 ≠ 31) (r : List Octet) : tlvTag (a :: r) = some [a] := if_pos ha

theorem tlvTag_two {a b : Octet} (ha : a.toNat % 32 = 31) (hb : b.toNat < 128) (r : List Octet) :
    tlvTag (a :: b :: r) = some [a, b] := (if_neg (not_not_intro ha)).trans (if_pos hb)

theorem tlvTag_three {a b o : Octet} (ha : a.toNat % 32 = 31) (hb : 128 ≤ b.toNat) (ho : o.toNat < 128) (r : List Octet) :
    tlvTag (a :: b :: o :: r) = some [a, b, o] :=
  (if_neg (not_not_intro ha)).trans ((if_neg (Nat.not_lt.mpr hb)).trans (if_pos ho))

theorem tlvTag_winRead {p : Nat} (h : TagAt c p tl) : tlvTag (c.winRead p (tl + n)) = some (c.winRead p tl) := by
  obtain ⟨hfirst, hfurther, hlo, hhi⟩ := h
  rw [winRead_add]
  obtain rfl | rfl | rfl : tl = 1 ∨ tl = 2 ∨ tl = 3 := by omega
  · exact tlvTag_one (mt hfirst.mp (by decide)) _
  · have hlast := hfurther 1 (by decide) (by decide)
    exact tlvTag_two (hfirst.mpr (by decide)) (Nat.lt_of_not_le (mt hlast.mp (by decide))) _
  · have hmid := hfurther 1 (by decide) (by decide)
    have hlast := hfurther 2 (by decide) (by decide)
    exact tlvTag_three (hfirst.mpr (by decide)) (hmid.mpr (by decide)) (Nat.lt_of_not_le (mt hlast.mp (by decide))) _

theorem tlvLen_winRead {p : Nat} (h : LenAt c p ll) : tlvLen (c.winRead p (ll + n)) = some (headerLen c p ll, ll) := by
  rw [winRead_add]
  obtain ⟨rfl, h0⟩ | ⟨rfl, h0⟩ | ⟨rfl, h0⟩ := h
  · exact if_pos h0
  · have hlong : ¬ (mget 0 c.win (p + 0)).toNat < 128 := by rw [Nat.add_zero]; omega
    exact (if_neg hlong).trans (if_pos h0)
  · have hlong : ¬ (mget 0 c.win (p + 0)).toNat < 128 := by rw [Nat.add_zero]; omega
    have hother : ¬ (mget 0 c.win (p + 0)).toNat = 0x81 := by rw [Nat.add_zero]; omega
    exact (if_neg hlong).trans ((if_neg hother).trans (if_pos h0))

/-! ### The header -/

/-- A header: zeros, a tag and a length (09 R196). -/
structure HeaderAt (c : Ctx) (off z tl ll : Nat) : Prop where
  zeros : ∀ i, i < z → mget 0 c.win (off + i) = 0
  start : mget 0 c.win (off + z) ≠ 0
  tag : TagAt c (off + z) tl
  len : LenAt c (off + z + tl) ll

theorem tlvResult_header (h : HeaderAt c off z tl ll) (n : Nat) : tlvResult off (c.winRead off (z + (tl + (ll + n)))) =
    (spelled (fun i => mget 0 c.win (off + z + i)) tl + (tl - 1) * 2 ^ 24 + (mget 0 c.win (off + z)).toNat / 32 % 2 * 2 ^ 26,
      headerLen c (off + z + tl) ll + (off + z + tl + ll) * 2 ^ 16, true) := by
  have hne : c.winRead (off + z) (tl + (ll + n)) ≠ [] := by
    rw [← List.length_pos_iff, length_winRead]
    have := h.tag.low
    omega
  have hbit : b2n (bitOf (oct (c.winRead (off + z) tl) 0) 5) = (mget 0 c.win (off + z)).toNat / 32 % 2 := by
    rw [oct, getD_winRead _ _ (show 0 < tl from h.tag.low), Nat.add_zero, bitOf, b2n]
    have := Nat.mod_lt ((mget 0 c.win (off + z)).toNat / 32) (show 0 < 2 by decide)
    split <;> simp_all
  unfold tlvResult
  rw [takeWhile_winRead h.zeros (Or.inr h.start)]
  dsimp only
  rw [drop_winRead, if_neg hne, tlvTag_winRead h.tag]
  dsimp only
  rw [length_winRead, drop_winRead, tlvLen_winRead h.len]
  dsimp only
  rw [hbit, Ctx.winRead, beNat_map_range]

theorem tlvResult_zeros (h : ∀ i, i < n → mget 0 c.win (off + i) = 0) : tlvResult off (c.winRead off n) = (0, 2 ^ 34, false) := by
  have hcount := takeWhile_winRead (n := 0) h (Or.inl rfl)
  unfold tlvResult
  rw [Nat.add_zero] at hcount
  rw [hcount]
  exact if_pos (List.drop_eq_nil_of_le (length_winRead ..).le)

/-! ### The statement -/

theorem answers_tlvnext {x y : Nat} {ok : Bool} (hruns : Runs s t g) (hrd : rd.toNat < 31)
    (hseg : ∃ v, segOf s t.toNat ((ctxNow s t).sel (md.toNat / 8 % 8)) = v ∧ v.valid = true ∧ v.p = true ∧ v.r = true ∧
      v.space = 6 ∧ v.base = 0 ∧ v.limit = limit ∧ limit < 512)
    (hres : tlvResult ((ctxNow s t).g ra.toNat).toNat ((ctxNow s t).winRead ((ctxNow s t).g ra.toNat).toNat
      (limit + 1 - ((ctxNow s t).g ra.toNat).toNat)) = (x, y, ok)) :
    Answers (.tlvnext t g rd ra rb md) s t [(rd.toNat, BitVec.ofNat 36 x), (rd.toNat + 1, BitVec.ofNat 36 y)]
      [(md.toNat % 8, ok)] := by
  obtain ⟨v, hv, hvalid, hp, hr, hspace, hbase, rfl, hlimit⟩ := hseg
  have hwrote := wrote_setP (wrote_setG (wrote_wg (ctxNow s t) rd (BitVec.ofNat 36 x)) (rd.toNat + 1) (BitVec.ofNat 36 y))
    (md.toNat % 8) ok
  have hcheck : segCheck v [spWin] { r := true } 0 1 = .ok 6 0 := by
    simp [segCheck, hvalid, hp, hr, hspace, hbase, spWin]
  have hocts : (if v.limit < ((ctxNow s t).g ra.toNat).toNat then []
      else (ctxNow s t).winRead ((ctxNow s t).g ra.toNat).toNat (v.limit + 1 - ((ctxNow s t).g ra.toNat).toNat)) =
      (ctxNow s t).winRead ((ctxNow s t).g ra.toNat).toNat (v.limit + 1 - ((ctxNow s t).g ra.toNat).toNat) := by
    split
    · rw [Nat.sub_eq_zero_of_le (by omega)]; rfl
    · rfl
  refine answers_of_fx (y := sylTlvnext t g rd ra rb md) (f := fun c =>
    ((wg c rd (BitVec.ofNat 36 x)).setG (rd.toNat + 1) (BitVec.ofNat 36 y)).setP (md.toNat % 8) ok) hruns rfl rfl
    (decide_eq_false (by omega)) ?_ (wrote_congr_regs hwrote fun r _ => ?_)
  · unfold sylTlvnext
    dsimp only
    rw [ctx_turned, show bitsOf md.toNat 5 3 = md.toNat / 8 % 8 from rfl, segOf_turned, hv, hcheck]
    dsimp only [nearFx]
    rw [rg, hocts, hres]
  · simp only [lookup_cons_getD]
    by_cases h : r = rd.toNat
    · rw [if_pos h, if_neg (by omega), if_pos h]
    · rw [if_neg h, if_neg h]

theorem tlvHeader_holds : tlvHeader := by
  intro s t g rd ra rb md z tl ll limit hruns hrd c off o hseg
  refine ⟨fun hzero htag hlo hhi hlen hend => ?header, fun hzero => ?zeros⟩
  case header =>
    have hplace : ∀ i, o (z + i) = (mget 0 c.win (off + z + i)).toNat := fun i => by rw [Nat.add_assoc]
    simp only [hplace, Nat.add_assoc z] at htag hlen ⊢
    have hfirst := htag 0 hlo
    rw [if_pos rfl, Nat.add_zero] at hfirst
    have hheader : HeaderAt c off z tl ll := by
      refine ⟨fun i hi => BitVec.eq_of_toNat_eq (hzero i hi), fun h0 => hfirst.1 (congrArg BitVec.toNat h0),
        ⟨hfirst.2, fun i hpos hi => ?_, hlo, hhi⟩, hlen⟩
      have h := htag i hi
      rwa [if_neg hpos.ne'] at h
    have hcount : limit + 1 - off = z + (tl + (ll + (limit + 1 - (off + z + tl + ll)))) := by omega
    have hres := tlvResult_header hheader (limit + 1 - (off + z + tl + ll))
    rw [← hcount] at hres
    exact answers_tlvnext hruns hrd hseg hres
  case zeros =>
    refine answers_tlvnext (x := 0) hruns hrd hseg (tlvResult_zeros fun i (hi : i < limit + 1 - off) => ?_)
    exact BitVec.eq_of_toNat_eq (hzero i (by omega))

/-- Settles O8: the words of the window by `windowWords_holds`, the header by `tlvHeader_holds`. -/
theorem windowAccess : Obligations.WindowAccess := by
  unfold Obligations.WindowAccess
  exact ⟨windowWords_holds, tlvHeader_holds⟩

end Sys2Proof.Machine
end

section
/-! PROOFS. Branches, the multiplier and its accumulator, and the CRC step (09 R200, R201, Tables 09-7 and 09-9). -/

namespace Sys2Proof.Machine

open Sys2Proof.Claim

variable {s : State} {t : Thr} {g : Gd} {rd ra rb : BitVec 5} {md : BitVec 8} {c : Ctx}

/-! ### The multiplier -/

/-- The product of the unsigned and the signed mode, with the addend of ACC (09 R200). -/
theorem mulValue_eq {mode : Nat} {a b : W36} {on : Bool} {m v : BitVec 72}
    (hv : (mode = 0 ∧ v.toNat = (a.toNat * b.toNat + (if on then m.toNat else 0)) % 2 ^ 72) ∨
      (mode = 1 ∧ v = BitVec.ofInt 72 (a.toInt * b.toInt + (if on then m.toNat else 0 : Nat)))) :
    mulValue mode a b (if on then some m else none) = v := by
  have hacc : (if on then some m else none).getD 0 = BitVec.ofNat 72 (if on then m.toNat else 0) := by
    cases on
    · rfl
    · exact (BitVec.ofNat_toNat 72 m).trans (BitVec.setWidth_eq m) |>.symm
  obtain ⟨rfl, hv⟩ | ⟨rfl, hv⟩ := hv
  · rw [mulValue, hacc, ← BitVec.ofNat_add]
    exact BitVec.eq_of_toNat_eq ((BitVec.toNat_ofNat ..).trans hv.symm)
  · rw [mulValue, hacc, hv, BitVec.ofInt_add, BitVec.ofInt_natCast]

/-- A context with a product under way: it lands in MQ at the second turn, and is the addend of the next multiply. -/
def multiplied (c : Ctx) (v : BitVec 72) : Ctx := { c.addLate 2 (.mq v) with macc := v }

theorem turn_multiplied (hlate : c.late = []) (v : BitVec 72) :
    (multiplied c v).turn = { c with macc := v, late := [⟨1, .mq v⟩] } := by
  rw [multiplied, Ctx.addLate, hlate]
  rfl

theorem branchAndMultiply_holds : branchAndMultiply := by
  intro s t g rd ra rb md target hruns c a b acc
  refine ⟨exec_ctxSyl (f := fun _ c => { c with pc := target }) hruns rfl rfl, ?br, ?bl, fun hlate v hv => ?mul⟩
  case br =>
    rw [BitVec.ofNat_toNat]
    exact exec_ctxSyl (f := fun c0 c => { c with pc := (rg c0 ra).truncate 16 }) hruns rfl rfl
  case bl =>
    obtain ⟨u, hexec, hleaves⟩ := exec_ctxSyl (i := .bl t g target) hruns rfl rfl
    refine ⟨u, _, hexec, hleaves, ?_, fun r => ?_⟩
    · rw [Ctx.setG_eq]
    · have hlink : (c.pc + BitVec.ofNat 16 1).zeroExtend 36 = BitVec.ofNat 36 ((c.pc.toNat + 1) % 2 ^ 16) := by
        rw [BitVec.zeroExtend, ← BitVec.ofNat_toNat, BitVec.toNat_add]
        rfl
      refine (Ctx.g_setG { c with pc := c.pc + 1 } 31 r _).trans ?_
      rw [hlink]
      exact if_congr (by simp) rfl rfl
  case mul =>
    have hdef : decide (md.toNat % 4 = 3) = false := decide_eq_false (by omega)
    have hvalue : mulValue (md.toNat % 4) a b (if bitOf md.toNat 2 then some c.macc else none) = v := by
      rw [bitOf_eq]
      exact mulValue_eq hv
    obtain ⟨u, hexec, hleaves⟩ := exec_ctxSyl (i := .mul t g rd ra rb md) (f := fun c0 c => multiplied c (mulValue
      (md.toNat % 4) (c0.g ra.toNat) (c0.g rb.toNat) (if bitOf md.toNat 2 then some c0.macc else none))) hruns rfl hdef
    dsimp only at hleaves
    rw [hvalue] at hleaves
    have hturn := turn_multiplied (c := { c with pc := c.pc + 1 }) hlate v
    refine ⟨u, _, hexec, hleaves, ?_, ?_, rfl, rfl⟩
    · exact (congrArg Ctx.mq hturn :)
    · exact (congrArg (fun c => c.turn.mq) hturn :)

/-! ### The CRC step -/

theorem beOctets_eq_map (n v : Nat) : beOctets n v = (List.range n).map (octetOf v n) := by
  refine List.ext_getElem (by simp) fun i hi _ => ?_
  have hlt : i < n := by simpa using hi
  have h := getD_beOctets v hlt
  rw [List.getD_eq_getElem _ _ hi] at h
  rw [h, List.getElem_map, List.getElem_range]

/-- A reflected bit step keeps within the width. -/
theorem crcBit_lt {w k ca : Nat} (hk : k < 2 ^ w) (hca : ca < 2 ^ w) : crcBit w true k ca < 2 ^ w := by
  have hhalf : ca / 2 < 2 ^ w := lt_of_le_of_lt (Nat.div_le_self ..) hca
  unfold crcBit
  rw [if_pos rfl]
  split
  · exact Nat.xor_lt_two_pow hhalf hk
  · exact hhalf

theorem iterate_crcBit_lt {w k : Nat} (hk : k < 2 ^ w) (n : Nat) {ca : Nat} (hca : ca < 2 ^ w) :
    (crcBit w true k)^[n] ca < 2 ^ w := by
  induction n generalizing ca with
  | zero => exact hca
  | succ n ih => exact ih (crcBit_lt hk hca)

theorem crcReflOctet_eq {w k ca : Nat} (hw : 8 ≤ w) (hk : k < 2 ^ w) (hca : ca < 2 ^ w) (o : Octet) :
    crcReflOctet k ca o % 2 ^ w = crcOctet w true k ca o ∧ crcOctet w true k ca o < 2 ^ w := by
  have ho : o.toNat < 2 ^ w := lt_of_lt_of_le o.isLt (Nat.pow_le_pow_right (by decide) hw)
  have hlt := iterate_crcBit_lt hk 8 (Nat.xor_lt_two_pow hca ho)
  have heq : crcReflOctet k ca o = crcOctet w true k ca o := List.foldl_const (crcBit w true k) _ (List.range 8)
  exact ⟨by rw [heq]; exact Nat.mod_eq_of_lt hlt, hlt⟩

theorem crcFwdOctet_eq (w k ca : Nat) (o : Octet) : crcFwdOctet w k ca o = crcOctet w false k ca o := by
  have hbit : (fun c (_ : Nat) => if bitOf c (w - 1) then ((c * 2) ^^^ k) % 2 ^ w else c * 2 % 2 ^ w) =
      fun c _ => crcBit w false k c := by
    funext c _
    rw [crcBit, if_neg Bool.false_ne_true, Nat.mul_comm]
    exact if_congr (by simp [bitOf]) rfl rfl
  rw [crcFwdOctet, hbit, List.foldl_const]
  rfl

/-- The steps over a string of octets (09 R201). -/
theorem crcSteps_eq {w k : Nat} {refl : Bool} (hw : 8 ≤ w) (hk : refl = true → k < 2 ^ w) (ca : Nat) (l : List Octet) :
    crcSteps ⟨w, refl, k⟩ ca l = l.foldl (crcOctet w refl k) (ca % 2 ^ w) := by
  have hca : ca % 2 ^ w < 2 ^ w := Nat.mod_lt _ (by positivity)
  unfold crcSteps
  generalize ca % 2 ^ w = c at hca
  cases refl with
  | false =>
    dsimp only
    simp only [crcFwdOctet_eq, Bool.false_eq_true, if_false]
  | true =>
    induction l generalizing c with
    | nil => rfl
    | cons o l ih =>
      obtain ⟨heq, hlt⟩ := crcReflOctet_eq hw (hk rfl) hca o
      rw [List.foldl_cons, List.foldl_cons, ← ih _ hlt]
      exact congrArg (l.foldl _) heq

/-- The form of the CRC that a code names on a logical core (09 R201, Table 09-9). -/
def FormIs (s : State) (core poly w : Nat) (refl : Bool) (k : Nat) : Prop :=
  (poly = 0 ∧ w = 32 ∧ refl = true ∧ k = 0xEDB88320) ∨ (poly = 1 ∧ w = 32 ∧ refl = true ∧ k = 0x82F63B78) ∨
    (poly = 2 ∧ w = 16 ∧ refl = false ∧ k = 0x1021) ∨
    (poly = 3 ∧ 7 ≤ rdDev s (0x70600 + 4 * core) % 32 ∧ w = rdDev s (0x70600 + 4 * core) % 32 + 1 ∧
      refl = decide (rdDev s (0x70600 + 4 * core) / 32 % 2 = 1) ∧
      if refl then k < 2 ^ w ∧ ∀ i, i < w → k.testBit i = (rdDev s (0x70400 + 4 * core)).testBit (w - 1 - i)
      else k = rdDev s (0x70400 + 4 * core) % 2 ^ w)

theorem bitReverse_eq_of_testBit {w p k : Nat} (hk : k < 2 ^ w) (hbits : ∀ i, i < w → k.testBit i = p.testBit (w - 1 - i)) :
    bitReverse w (p % 2 ^ w) = k := by
  refine Nat.eq_of_testBit_eq fun i => ?_
  rw [testBit_bitReverse, Nat.testBit_mod_two_pow]
  by_cases h : i < w
  · rw [decide_eq_true h, decide_eq_true (by omega), Bool.true_and, Bool.true_and, hbits i h]
  · rw [decide_eq_false h, Bool.false_and]
    exact (Nat.testBit_lt_two_pow (lt_of_lt_of_le hk (Nat.pow_le_pow_right (by decide) (Nat.not_lt.mp h)))).symm

theorem crcForm_eq {core poly w k : Nat} {refl : Bool} (h : FormIs s core poly w refl k) :
    crcForm s core poly = ⟨w, refl, k⟩ ∧ 8 ≤ w ∧ (refl = true → k < 2 ^ w) := by
  obtain ⟨rfl, rfl, rfl, rfl⟩ | ⟨rfl, rfl, rfl, rfl⟩ | ⟨rfl, rfl, rfl, rfl⟩ | ⟨rfl, hwd, rfl, hrefl, hk⟩ := h
  · exact ⟨rfl, by decide, fun _ => by decide⟩
  · exact ⟨rfl, by decide, fun _ => by decide⟩
  · exact ⟨rfl, by decide, fun h => absurd h (by decide)⟩
  · have hwidth : max 7 (bitsOf (rdDev s (0x70600 + 4 * core)) 4 0) = rdDev s (0x70600 + 4 * core) % 32 := by
      rw [bitsOf, pow_zero, Nat.div_one]
      exact max_eq_right hwd
    have hmode : bitOf (rdDev s (0x70600 + 4 * core)) 5 = refl := by
      rw [hrefl, bitOf, Bool.eq_iff_iff, beq_iff_eq, decide_eq_true_iff]
      rfl
    unfold crcForm
    dsimp only
    rw [hwidth, hmode]
    cases refl with
    | false => exact ⟨by rw [hk]; rfl, by omega, fun h => absurd h (by decide)⟩
    | true =>
      obtain ⟨hlt, hbits⟩ := hk
      exact ⟨by rw [bitReverse_eq_of_testBit hlt hbits]; rfl, by omega, fun _ => hlt⟩

theorem crcStep_holds : crcStep := by
  intro s t g rd ra rb md w refl k hruns hsize c core poly wd p hform n octets ca
  obtain ⟨hcrc, hw, hk⟩ := crcForm_eq hform
  have hca : crcSteps (crcForm s core poly) c.ca.toNat (beOctets n (c.g ra.toNat).toNat) = ca := by
    rw [hcrc, crcSteps_eq hw hk, beOctets_eq_map]
  have hfx : (sylCrc t g rd ra rb md).fx (updCtx s t.toNat (fun c => c.turn)) =
      { run := fun u => updCtx u t.toNat (fun c => { c with ca := BitVec.ofNat 32 ca }) } := by
    rw [← hca]
    unfold sylCrc
    dsimp only
    rw [ctx_turned]
    rfl
  exact ⟨_, congrArg Host.Outcome.next (issueOne_of_runs hruns rfl (decide_eq_false (by omega)) hfx rfl rfl),
    leaves_updCtx hruns.1 (fun c => { c with ca := BitVec.ofNat 32 ca })⟩

/-- Settles O10: `branchAndMultiply_holds` and `crcStep_holds`. -/
theorem branchMultiplyCrc : Obligations.BranchMultiplyCrc := by
  unfold Obligations.BranchMultiplyCrc
  exact ⟨branchAndMultiply_holds, crcStep_holds⟩

end Sys2Proof.Machine
end

section
/-! PROOFS. What the operations of a thread keep of the state of housekeeping: a syllable that is no routine changes nothing
there, so that it meets no doubt source (16 R338). One lemma per operation, in the order of the model. -/

namespace Sys2Proof.Machine

theorem foldl_hkc {α : Type} {f : State → α → State} (hf : ∀ s x, (f s x).hkc = s.hkc) (l : List α) (s : State) :
    (l.foldl f s).hkc = s.hkc := by
  induction l generalizing s with
  | nil => rfl
  | cons x l ih => exact (ih _).trans (hf s x)

theorem hkc_of_pair {α : Type} {s u : State} {x : α × State} {a : α} (h : x = (a, u)) (hx : x.2.hkc = s.hkc) :
    u.hkc = s.hkc := by
  rw [← hx, h]

@[simp] theorem drawFree_hkc (s : State) (n : Nat) : (drawFree s n).2.hkc = s.hkc := rfl

@[simp] theorem sendEvent_hkc (s : State) (code result : Nat) (detail : List Octet) :
    (sendEvent s code result detail).hkc = s.hkc := by
  unfold sendEvent
  split <;> simp

@[simp] theorem violate_hkc (s : State) (p kind agent res offset : Nat) :
    (violate s p kind agent res offset).hkc = s.hkc := by
  unfold violate
  dsimp only
  split <;> simp

@[simp] theorem thrViolate_hkc (s : State) (t kind res offset : Nat) :
    (thrViolate s t kind res offset).hkc = s.hkc := by
  unfold thrViolate
  split <;> simp

@[simp] theorem devWrite_hkc (s : State) (a : Nat) (l : List Octet) : (devWrite s a l).hkc = s.hkc := by
  unfold devWrite
  dsimp only
  split <;> simp

@[simp] theorem hostWrite_hkc (s : State) (p a : Nat) (l : List Octet) : (hostWrite s p a l).hkc = s.hkc := by
  unfold hostWrite
  split <;> simp

@[simp] theorem gaitQueue_hkc (s : State) (m v : Nat) : (gaitQueue s m v).hkc = s.hkc := rfl

@[simp] theorem gaitGive_hkc (p : Nat) (val : Nat → Option Nat) (s : State) (mw : Nat × Nat) :
    (gaitGive p val s mw).hkc = s.hkc := by
  unfold gaitGive
  (repeat' split) <;> simp

@[simp] theorem gaitYield_hkc (s : State) (p : Nat) (val : Nat → Option Nat) : (gaitYield s p val).hkc = s.hkc :=
  foldl_hkc (gaitGive_hkc p val) _ s

@[simp] theorem latReach_hkc (s : State) (x : Lat) (k t : Nat) : (latReach s x k t).hkc = s.hkc := by simp [latReach]

@[simp] theorem jnlPut_hkc (s : State) (r : JRec) : (jnlPut s r).hkc = s.hkc := by
  unfold jnlPut
  dsimp only
  (repeat' split) <;> simp

@[simp] theorem jnlItemAt_hkc (s : State) (time : Option Nat) (place : Option (Nat × Nat)) (lat : Option Lat) (it : Item)
    (disp dest ticket : Nat) (slow : Bool) (reason : Nat) (result : Option (List Octet)) :
    (jnlItemAt s time place lat it disp dest ticket slow reason result).hkc = s.hkc := by
  unfold jnlItemAt
  split <;> simp

@[simp] theorem cqPush_hkc (s : State) (r : Nat) (e : Compl) : (cqPush s r e).hkc = s.hkc := rfl

@[simp] theorem complete_hkc (s : State) (c : CmdRef) (status kind result len : Nat) (detail : List Octet) :
    (complete s c status kind result len detail).hkc = s.hkc := by
  unfold complete
  split <;> simp

@[simp] theorem finish_hkc (s : State) (c : CmdRef) (opc status result len : Nat) :
    (finish s c opc status result len).hkc = s.hkc :=
  by simp [finish]

@[simp] theorem quarantine_hkc (s : State) (a : Nat) : (quarantine s a).hkc = s.hkc := rfl

@[simp] theorem ptrCheck_hkc (s : State) (a : Nat) : (ptrCheck s a).2.hkc = s.hkc := by
  unfold ptrCheck
  (repeat' split) <;> simp

@[simp] theorem bufCnt_hkc (s : State) (p k : Nat) : (bufCnt s p k).hkc = s.hkc := rfl

@[simp] theorem bufCntAgent_hkc (s : State) (agent k : Nat) : (bufCntAgent s agent k).hkc = s.hkc := by
  unfold bufCntAgent
  split <;> simp

@[simp] theorem bufCntPool_hkc (s : State) (agent pool k : Nat) : (bufCntPool s agent pool k).hkc = s.hkc := by
  unfold bufCntPool
  (repeat' split) <;> simp

@[simp] theorem agentViolate_hkc (s : State) (agent kind res : Nat) : (agentViolate s agent kind res).hkc = s.hkc := by
  unfold agentViolate
  split <;> simp

@[simp] theorem portCnt_hkc (s : State) (p k n : Nat) : (portCnt s p k n).hkc = s.hkc := rfl

@[simp] theorem pauseAct_hkc (s : State) (p : Nat) (cls : Option Nat) (quanta : Nat) :
    (pauseAct s p cls quanta).hkc = s.hkc :=
  rfl

@[simp] theorem pauseSend_hkc (s : State) (p key quanta : Nat) : (pauseSend s p key quanta).hkc = s.hkc := by
  unfold pauseSend
  dsimp only
  split <;> simp

@[simp] theorem pauseKey_hkc (s : State) (p key : Nat) : (pauseKey s p key).hkc = s.hkc := by
  unfold pauseKey
  dsimp only
  (repeat' split) <;> simp

@[simp] theorem pauseCheck_hkc (s : State) (p : Nat) : (pauseCheck s p).hkc = s.hkc := by
  unfold pauseCheck
  split
  · rfl
  · split
    · simp
    · exact foldl_hkc (fun s c => pauseKey_hkc s p c) _ s
    · rfl

@[simp] theorem freeBuf_hkc (s : State) (a : Nat) : (freeBuf s a).hkc = s.hkc := by
  unfold freeBuf
  dsimp only
  split <;> simp

theorem intBufOp_hkc {op : State → State} (hop : ∀ s, (op s).hkc = s.hkc) (s : State) (agent a k : Nat)
    (may : BufTag → Bool) : (intBufOp s agent a k may op).hkc = s.hkc := by
  unfold intBufOp
  have hkept {x : PtrCheck} {u : State} (h : ptrCheck s a = (x, u)) : u.hkc = s.hkc := hkc_of_pair h (ptrCheck_hkc s a)
  split
  · next h =>
    split
    · exact (hop _).trans (hkept h)
    · simp [hkept h]
  · next h => simp [hkept h]
  · next h => split <;> simp [hkept h]

@[simp] theorem endUse_hkc (s : State) (agent a : Nat) : (endUse s agent a).hkc = s.hkc := by
  refine intBufOp_hkc (fun s => ?_) s _ _ _ _
  split <;> simp

@[simp] theorem badPointer_hkc (s : State) (agent : Nat) (chk : PtrCheck) (free : Bool) :
    (badPointer s agent chk free).2.hkc = s.hkc := by
  unfold badPointer
  split <;> simp

@[simp] theorem notOwner_hkc (s : State) (agent k a : Nat) : (notOwner s agent k a).2.hkc = s.hkc := by
  unfold notOwner
  split <;> simp

@[simp] theorem bufGive_hkc (s : State) (agent a target : Nat) (full : Bool) :
    (bufGive s agent a target full).2.hkc = s.hkc := by
  unfold bufGive
  have hkept {x : PtrCheck} {u : State} (h : ptrCheck s a = (x, u)) : u.hkc = s.hkc := hkc_of_pair h (ptrCheck_hkc s a)
  split
  · next h =>
    dsimp only
    (repeat' split) <;> simp [hkept h]
  · next h => simp [hkept h]

@[simp] theorem updTask_hkc (s : State) (id : Nat) (f : TaskSt → TaskSt) : (updTask s id f).hkc = s.hkc := by
  unfold updTask
  split <;> simp

@[simp] theorem updTaskCtx_hkc (s : State) (id : Nat) (f : Ctx → Ctx) : (updTaskCtx s id f).hkc = s.hkc := by
  unfold updTaskCtx
  (repeat' split) <;> simp

@[simp] theorem taskEv_hkc (s : State) (id m : Nat) : (taskEv s id m).hkc = s.hkc := by simp [taskEv]

@[simp] theorem hspCnt_hkc (s : State) (p k : Nat) : (hspCnt s p k).hkc = s.hkc := rfl

@[simp] theorem chnCnt_hkc (s : State) (p k : Nat) : (chnCnt s p k).hkc = s.hkc := rfl

@[simp] theorem hltCnt_hkc (s : State) (p k : Nat) : (hltCnt s p k).hkc = s.hkc := rfl

@[simp] theorem schCnt_hkc (s : State) (p k : Nat) : (schCnt s p k).hkc = s.hkc := rfl

@[simp] theorem coreCnt_hkc (s : State) (p k : Nat) : (coreCnt s p k).hkc = s.hkc := rfl

@[simp] theorem unstall_hkc (s : State) (p : Nat) : (unstall s p).hkc = s.hkc := rfl

@[simp] theorem setEff_hkc (s : State) (id e : Nat) : (setEff s id e).hkc = s.hkc := by simp [setEff]

@[simp] theorem truncated_hkc (s : State) (w : LockWho) : (truncated s w).hkc = s.hkc := by
  unfold truncated
  split <;> simp

@[simp] theorem propagate_hkc (n : Nat) (s : State) (id : Nat) : (propagate n s id).hkc = s.hkc := by
  induction n generalizing s id with
  | zero =>
    unfold propagate
    dsimp only
    (repeat' split) <;> simp
  | succ n ih =>
    unfold propagate
    dsimp only
    (repeat' split) <;> simp [ih]

@[simp] theorem queueWaiter_hkc (s : State) (k : Nat) (w : LockWaiter) : (queueWaiter s k w).hkc = s.hkc := by
  unfold queueWaiter
  dsimp only
  split <;> simp

@[simp] theorem withdraw_hkc (s : State) (k : Nat) (who : LockWho) : (withdraw s k who).hkc = s.hkc := by
  unfold withdraw
  dsimp only
  split <;> split <;> simp

@[simp] theorem lockViolate_hkc (s : State) (p agent k : Nat) : (lockViolate s p agent k).hkc = s.hkc :=
  by simp [lockViolate]

@[simp] theorem hspCntOpt_hkc (s : State) (p : Option Nat) (k : Nat) : (hspCntOpt s p k).hkc = s.hkc := by
  unfold hspCntOpt
  split <;> simp

@[simp] theorem tellGrant_hkc (s : State) (who : LockWho) (word : Nat) : (tellGrant s who word).hkc = s.hkc := by
  unfold tellGrant
  (repeat' split) <;> simp

@[simp] theorem resignal_hkc (s : State) (k : Nat) : (resignal s k).hkc = s.hkc := by
  unfold resignal
  split <;> simp

@[simp] theorem noteLost_hkc (s : State) (k : Nat) (h : Holder) (gone : Bool) : (noteLost s k h gone).hkc = s.hkc := by
  unfold noteLost
  dsimp only
  split <;> simp

@[simp] theorem grantLock_hkc (s : State) (k : Nat) (who : LockWho) (contended : Bool) :
    (grantLock s k who contended).hkc = s.hkc := by
  unfold grantLock
  split <;> simp

@[simp] theorem releaseLock_hkc (s : State) (k : Nat) (mode : RelMode) : (releaseLock s k mode).hkc = s.hkc := by
  unfold releaseLock
  extract_lets l agent part freed lent told noted counted _ granted
  have hlent : lent.hkc = s.hkc := by
    unfold lent
    split <;> simp [freed]
  have htold : told.hkc = s.hkc := by
    unfold told
    split <;> simp [hlent]
  have hnoted : noted.hkc = s.hkc := by
    unfold noted
    split <;> simp [htold]
  have hcounted : counted.hkc = s.hkc := by
    unfold counted
    split <;> simp [hnoted]
  have hgranted : granted.hkc = s.hkc := by
    unfold granted
    split <;> simp [hcounted]
  split <;> simp [hgranted]

@[simp] theorem lockOp_hkc (s : State) (t id rd k : Nat) : (lockOp s t id rd k).hkc = s.hkc := by
  unfold lockOp
  dsimp only
  (repeat' split) <;> simp

@[simp] theorem unlockOp_hkc (s : State) (t id arg : Nat) : (unlockOp s t id arg).hkc = s.hkc := by
  unfold unlockOp
  dsimp only
  (repeat' split) <;> simp

@[simp] theorem wakeArmed_hkc (s : State) (ch : Nat) (data : Bool) : (wakeArmed s ch data).hkc = s.hkc := by
  refine foldl_hkc (fun s x => ?_) _ s
  (repeat' split) <;> simp

@[simp] theorem freeChSlot_hkc (s : State) (i : Nat) : (freeChSlot s i).hkc = s.hkc := by simp [freeChSlot]

@[simp] theorem chanViolate_hkc (s : State) (t ch : Nat) : (chanViolate s t ch).hkc = s.hkc := by simp [chanViolate]

@[simp] theorem chOpen_hkc (s : State) (t id ch : Nat) : (chOpen s t id ch).2.hkc = s.hkc := by
  unfold chOpen
  (repeat' split) <;> simp

@[simp] theorem chWrite_hkc (s : State) (h w : Nat) (v : W36) : (chWrite s h w v).hkc = s.hkc := rfl

@[simp] theorem chPost_hkc (s : State) (t h : Nat) : (chPost s t h).hkc = s.hkc := by
  unfold chPost
  dsimp only
  split <;> simp

@[simp] theorem chRead_hkc (s : State) (t id ch w : Nat) : (chRead s t id ch w).2.hkc = s.hkc := by
  unfold chRead
  (repeat' split) <;> simp

@[simp] theorem chNext_hkc (s : State) (t ch : Nat) : (chNext s t ch).hkc = s.hkc := by
  unfold chNext
  (repeat' split) <;> simp

@[simp] theorem signalOp_hkc (s : State) (t agent bits : Nat) : (signalOp s t agent bits).hkc = s.hkc := by
  unfold signalOp
  dsimp only
  (repeat' split) <;> simp

@[simp] theorem orphanAll_hkc (s : State) (h : Holder) : (orphanAll s h).hkc = s.hkc :=
  foldl_hkc (fun s k => releaseLock_hkc s k .orphan) _ s

@[simp] theorem haspTaskEnd_hkc (s : State) (id : Nat) (getwork : Bool) : (haspTaskEnd s id getwork).hkc = s.hkc := by
  unfold haspTaskEnd
  split
  · rfl
  · next x _ =>
    extract_lets left counted orphaned
    have hleft : left.hkc = s.hkc := by
      unfold left
      split <;> simp
    have hcounted : counted.hkc = s.hkc := by
      unfold counted
      split
      · exact (foldl_hkc (fun s _ => hspCnt_hkc s x.part 5) _ _).trans hleft
      · exact hleft
    refine (foldl_hkc (fun s i => ?_) _ _).trans ?_
    · simp
    · simp [orphaned, hcounted]

@[simp] theorem stfCnt_hkc (s : State) (p k n : Nat) : (stfCnt s p k n).hkc = s.hkc := rfl

@[simp] theorem issueTicket_hkc (s : State) (dom p : Nat) (it : Item) (deadline : Nat) :
    (issueTicket s dom p it deadline).2.hkc = s.hkc :=
  rfl

@[simp] theorem freeTicket_hkc (s : State) (i : Nat) : (freeTicket s i).hkc = s.hkc := rfl

@[simp] theorem ticketReach_hkc (s : State) (i : Nat) (sub : Option Nat) (k : Nat) :
    (ticketReach s i sub k).hkc = s.hkc :=
  by simp [ticketReach]

@[simp] theorem refuseTicket_hkc (s : State) (t p : Nat) (w : W36) (c : TkCheck) :
    (refuseTicket s t p w c).hkc = s.hkc := by
  unfold refuseTicket
  split <;> simp

@[simp] theorem queueDeliv_hkc (s : State) (d : Deliv) : (queueDeliv s d).hkc = s.hkc := rfl

@[simp] theorem discardResult_hkc (s : State) (r : Result) : (discardResult s r).hkc = s.hkc := by
  unfold discardResult
  split <;> simp

@[simp] theorem jnlTicket_hkc (s : State) (i : Nat) (sub : Option Nat) (disp dest : Nat) (result : Option (List Octet)) :
    (jnlTicket s i sub disp dest result).hkc = s.hkc := jnlItemAt_hkc ..

@[simp] theorem lateResult_hkc (s : State) (i : Nat) (sub : Option Nat) (r : Result) :
    (lateResult s i sub r).hkc = s.hkc := by
  unfold lateResult
  dsimp only
  (repeat' split) <;> simp

@[simp] theorem settlePassed_hkc (n : Nat) (s : State) (i : Nat) : (settlePassed n s i).hkc = s.hkc := by
  induction n generalizing s i with
  | zero => rfl
  | succ n ih =>
    unfold settlePassed
    dsimp only
    (repeat' split) <;> simp [ih]

@[simp] theorem completeTicket_hkc (s : State) (n : TkName) (r : Result) : (completeTicket s n r).hkc = s.hkc := by
  unfold completeTicket
  dsimp only
  split <;> split <;> simp

@[simp] theorem giveHalter_hkc (s : State) (t a : Nat) : (giveHalter s t a).2.hkc = s.hkc := by simp [giveHalter]

@[simp] theorem unhold_hkc (s : State) (id : Option Nat) (a : Nat) : (unhold s id a).hkc = s.hkc := by
  unfold unhold
  split <;> simp

@[simp] theorem loseSeg_hkc (s : State) (id : Option Nat) (a : Nat) : (loseSeg s id a).hkc = s.hkc := by
  unfold loseSeg
  split <;> simp

@[simp] theorem finishResult_hkc (s : State) (t p : Nat) (n : TkName) (host : Bool) (a len dest eflags : Nat) :
    (finishResult s t p n host a len dest eflags).hkc = s.hkc := by
  unfold finishResult
  dsimp only
  (repeat' split) <;> simp

@[simp] theorem endTicket_hkc (s : State) (t p : Nat) (host : Bool) (w : W36) (a rw : Nat) :
    (endTicket s t p host w a rw).hkc = s.hkc := by
  unfold endTicket
  split <;> simp

@[simp] theorem dropOp_hkc (s : State) (t p : Nat) (w : W36) : (dropOp s t p w).hkc = s.hkc := by
  unfold dropOp
  split <;> simp

@[simp] theorem moveOp_hkc (s : State) (t p : Nat) (w : W36) (dom : Nat) : (moveOp s t p w dom).2.hkc = s.hkc := by
  unfold moveOp
  dsimp only
  (repeat' split) <;> simp

@[simp] theorem splitOp_hkc (s : State) (t p : Nat) (w : W36) (n : Nat) : (splitOp s t p w n).2.hkc = s.hkc := by
  unfold splitOp
  (repeat' split) <;> simp

@[simp] theorem updStfDir_hkc (s : State) (i d : Nat) (f : StfDir → StfDir) : (updStfDir s i d f).hkc = s.hkc := rfl

@[simp] theorem messageTicketed_hkc (s : State) (it : Item) : (messageTicketed s it).hkc = s.hkc := by
  unfold messageTicketed
  split <;> simp

@[simp] theorem refillIssue_hkc (s : State) (p : Nat) : (refillIssue s p).hkc = s.hkc := rfl

@[simp] theorem pushReady_hkc (s : State) (p level : Nat) (x : ReadyWhat) : (pushReady s p level x).hkc = s.hkc := rfl

@[simp] theorem ticketIssueNow_hkc (s : State) (p : Nat) : (ticketIssueNow s p).hkc = s.hkc := by
  unfold ticketIssueNow
  (repeat' split) <;> simp

@[simp] theorem issueWaiting_hkc (n : Nat) (s : State) : (issueWaiting n s).hkc = s.hkc := by
  induction n generalizing s with
  | zero => rfl
  | succ n ih =>
    unfold issueWaiting
    split
    · rfl
    · exact (ih _).trans (ticketIssueNow_hkc s _)

@[simp] theorem pushDelay_hkc (s : State) (p due : Nat) (x : ReadyWhat) : (pushDelay s p due x).hkc = s.hkc := rfl

@[simp] theorem postTask_hkc (s : State) (p agent dom prio entry : Nat) (preempt : Bool) (buf len : Nat) (arg : W36)
    (delay : Nat) : (postTask s p agent dom prio entry preempt buf len arg delay).2.2.hkc = s.hkc := by
  unfold postTask
  dsimp only
  (repeat' split) <;> simp

@[simp] theorem enterGetwork_hkc (s : State) (t : Nat) : (enterGetwork s t).hkc = s.hkc := rfl

@[simp] theorem releaseHold_hkc (s : State) (id : Nat) (keep : Option Nat) : (releaseHold s id keep).hkc = s.hkc := by
  unfold releaseHold
  split
  · rfl
  · next x _ =>
    refine (updTask_hkc _ id _).trans (foldl_hkc (fun s a => ?_) _ s)
    dsimp only
    (repeat' split) <;> simp

@[simp] theorem endTask_hkc (s : State) (id : Nat) (getwork : Bool) : (endTask s id getwork).hkc = s.hkc :=
  by simp [endTask]

@[simp] theorem getworkNow_hkc (s : State) (t : Nat) : (getworkNow s t).hkc = s.hkc := by
  unfold getworkNow
  split <;> simp

@[simp] theorem timerOp_hkc (s : State) (t delay : Nat) : (timerOp s t delay).hkc = s.hkc := rfl

@[simp] theorem saveCtx_hkc (s : State) (t k : Nat) (fault : Option FaultRec) : (saveCtx s t k fault).hkc = s.hkc := by
  unfold saveCtx
  dsimp only
  split <;> simp

@[simp] theorem reportFault_hkc (s : State) (x : TaskSt) (c : Ctx) (f : FaultRec) (agent fid : Nat) :
    (reportFault s x c f agent fid).hkc = s.hkc :=
  rfl

@[simp] theorem takeFault_hkc (s : State) (t kind flags sel offset : Nat) :
    (takeFault s t kind flags sel offset).hkc = s.hkc := by
  unfold takeFault
  dsimp only
  (repeat' split) <;> simp

@[simp] theorem faultDeferred_hkc (s : State) (id : Nat) (x : TaskSt) (kind : Nat) (rest : List (Nat × Nat)) :
    (faultDeferred s id x kind rest).hkc = s.hkc := by
  unfold faultDeferred
  split <;> simp

@[simp] theorem deferNow_hkc (s : State) (t : Nat) (delay : Nat) : (deferNow s t delay).hkc = s.hkc := by
  unfold deferNow
  dsimp only
  (repeat' split) <;> simp

@[simp] theorem drainDone_hkc (s : State) (t : Nat) : (drainDone s t).hkc = s.hkc := by
  unfold drainDone
  (repeat' split) <;> simp

@[simp] theorem getworkOp_hkc (s : State) (t mask : Nat) : (getworkOp s t mask).hkc = s.hkc := by simp [getworkOp]

@[simp] theorem deferOp_hkc (s : State) (t p : Nat) (w : W36) (delay : Nat) : (deferOp s t p w delay).hkc = s.hkc := by
  unfold deferOp
  (repeat' split) <;> simp

@[simp] theorem writeWord_hkc (s : State) (t space a : Nat) (v : W36) : (writeWord s t space a v).hkc = s.hkc := by
  unfold writeWord
  split <;> simp

@[simp] theorem writeOcts_hkc (s : State) (t space a : Nat) (l : List Octet) :
    (writeOcts s t space a l).hkc = s.hkc := by
  unfold writeOcts
  (repeat' split) <;> simp

@[simp] theorem haltThread_hkc (s : State) (t why bp : Nat) : (haltThread s t why bp).hkc = s.hkc := rfl

@[simp] theorem firstBundle_hkc (s : State) (t : Nat) : (firstBundle s t).hkc = s.hkc := by
  unfold firstBundle
  dsimp only
  (repeat' split) <;> simp

@[simp] theorem startTag_hkc (s : State) (t tag : Nat) (x : Tag) : (startTag s t tag x).hkc = s.hkc := rfl

@[simp] theorem farData_hkc (s : State) (t sp a n : Nat) : (farData s t sp a n).2.2.hkc = s.hkc := by
  unfold farData
  split <;> simp

@[simp] theorem moveRun_hkc (t rd : Nat) (w : W36) (dom : Nat) (s : State) : (moveRun t rd w dom s).hkc = s.hkc :=
  by simp [moveRun]

@[simp] theorem postRun_hkc (t : Nat) (c : Ctx) (ra : Nat) (s : State) : (postRun t c ra s).2.hkc = s.hkc :=
  by simp [postRun]

end Sys2Proof.Machine
end

section
/-! PROOFS. A syllable that is no routine meets no doubt source: its effect keeps the state of housekeeping (16 R338), and so
does its issue. -/

namespace Sys2Proof.Machine

/-- An effect keeps the state of housekeeping. -/
structure Fx.KeepsHkc (f : Fx) : Prop where
  run : ∀ s, (f.run s).hkc = s.hkc
  pre : ∀ s, (f.pre s).hkc = s.hkc

/-- A syllable keeps the state of housekeeping, whatever state it is evaluated in. -/
structure Syl.KeepsHkc (x : Syl) : Prop where
  fx : ∀ s, (x.fx s).KeepsHkc

theorem Fx.KeepsHkc.of_run {a b : Bool} {c : Option (Nat × Nat × Nat)} {r : State → State}
    (h : ∀ s, (r s).hkc = s.hkc) : Fx.KeepsHkc ⟨a, b, c, id, r⟩ := ⟨h, fun _ => rfl⟩

/-- An effect that waits, stalls or faults, and no more. -/
theorem Fx.KeepsHkc.still {a b : Bool} {c : Option (Nat × Nat × Nat)} : Fx.KeepsHkc ⟨a, b, c, id, id⟩ :=
  ⟨fun _ => rfl, fun _ => rfl⟩

theorem undefFx_keepsHkc (t : Nat) : (undefFx t).KeepsHkc := .of_run fun s => thrViolate_hkc s t 5 0 0

theorem Fx.KeepsHkc.updCtx (t : Nat) (f : Ctx → Ctx) : Fx.KeepsHkc { run := fun s => updCtx s t f } :=
  .of_run fun _ => rfl

theorem Fx.KeepsHkc.ite {p : Prop} [Decidable p] {x y : Fx} (hx : x.KeepsHkc) (hy : y.KeepsHkc) :
    (if p then x else y).KeepsHkc := by
  split <;> assumption

/-! ### Issue -/

theorem Syl.eval_keepsHkc {x : Syl} (h : x.KeepsHkc) (s : State) (t : Nat) : (x.eval s t).KeepsHkc := by
  unfold Syl.eval
  split
  · exact undefFx_keepsHkc t
  · split
    · exact h.fx s
    · exact .still

theorem foldl_run_hkc {l : List Fx} (h : ∀ f ∈ l, f.KeepsHkc) (s : State) :
    (l.foldl (fun s f => f.run s) s).hkc = s.hkc := by
  induction l generalizing s with
  | nil => rfl
  | cons f l ih => exact (ih (fun g hg => h g (List.mem_cons_of_mem _ hg)) _).trans ((h f List.mem_cons_self).run s)

theorem foldl_pre_hkc {l : List Fx} (h : ∀ f ∈ l, f.KeepsHkc) (s : State) :
    (l.foldl (fun s f => f.pre s) s).hkc = s.hkc := by
  induction l generalizing s with
  | nil => rfl
  | cons f l ih => exact (ih (fun g hg => h g (List.mem_cons_of_mem _ hg)) _).trans ((h f List.mem_cons_self).pre s)

theorem issueSyls_hkc {l : List Syl} (h : ∀ x ∈ l, x.KeepsHkc) (s : State) (t n : Nat) :
    (issueSyls s t n l).hkc = s.hkc := by
  have hfx : ∀ f ∈ l.map (fun x => x.eval s t), f.KeepsHkc := by
    intro f hf
    obtain ⟨x, hx, rfl⟩ := List.mem_map.mp hf
    exact Syl.eval_keepsHkc (h x hx) s t
  unfold issueSyls
  extract_lets fxs stepping first past freed ran
  split
  · rfl
  · split
    · next k sel off _ => exact (takeFault_hkc _ t k 2 sel off).trans (by split <;> [split; skip] <;> simp)
    · have hfreed : freed.hkc = s.hkc := by
        unfold freed
        split <;> simp [past, first]
      have hran : ran.hkc = s.hkc := (foldl_run_hkc hfx _).trans ((foldl_pre_hkc hfx _).trans hfreed)
      split <;> simp [hran]

theorem turnWith_hkc {f : State → State} (h : ∀ s, (f s).hkc = s.hkc) (s : State) (t : Nat) :
    (turnWith s t f).hkc = s.hkc := by
  unfold turnWith
  dsimp only
  split
  · rfl
  · split <;> simp [h]

/-- Issue of a syllable keeps what the syllable keeps. -/
theorem issueOne_hkc {x : Syl} (h : x.KeepsHkc) (s : State) (t : Thr) : (issueOne s t x).hkc = s.hkc :=
  turnWith_hkc (fun s => issueSyls_hkc (by simpa using h) s t.toNat 1) s t.toNat

/-! ### The shapes of syllables -/

variable (t : Thr) (g : Gd)

theorem ctxSyl_keepsHkc (u : Nat) (undef : Bool) (f : Ctx → Ctx → Ctx) : (ctxSyl t u g undef f).KeepsHkc :=
  ⟨fun _ => .updCtx ..⟩

theorem sylNop_keepsHkc (u : Nat) : (sylNop u g).KeepsHkc := ⟨fun _ => .still⟩

theorem nearFx_keepsHkc (sel off : Nat) (chk : Chk) (zero : Ctx → Ctx) {ok : Nat → Nat → Fx}
    (h : ∀ sp a, (ok sp a).KeepsHkc) : (nearFx t sel off chk zero ok).KeepsHkc := by
  unfold nearFx
  split
  · exact h _ _
  · next k => exact .of_run fun s => thrViolate_hkc s t.toNat k sel off
  · exact .still

theorem nearSyl_keepsHkc (ra : BitVec 5) (imm : BitVec 13) (spaces : List Nat) (n : Need) (size : Nat) (zero : Ctx → Ctx)
    {ok : State → Nat → Nat → Nat → Nat → Fx} (h : ∀ s sel off sp a, (ok s sel off sp a).KeepsHkc) :
    (nearSyl t g ra imm spaces n size zero ok).KeepsHkc :=
  ⟨fun s => nearFx_keepsHkc t _ _ _ zero (h s _ _)⟩

theorem farSyl_keepsHkc (undef : Bool) (tag sel : Nat) (spaces : List Nat) (n : Need) (offOf size : Ctx → Nat)
    (zero : Ctx → Tag) {ok : State → Nat → Nat → Option (Nat × Nat) → State → State}
    (h : ∀ s0 sp a tab s, (ok s0 sp a tab s).hkc = s.hkc) :
    (farSyl t g undef tag sel spaces n offOf size zero ok).KeepsHkc := by
  refine ⟨fun s => ?_⟩
  unfold farSyl
  dsimp only
  split
  · exact .still
  · split
    · exact .of_run (h s _ _ _)
    · exact .of_run fun s => by simp
    · exact .still

theorem mSyl_keepsHkc {run : Ctx → State → State} (h : ∀ c s, (run c s).hkc = s.hkc) : (mSyl t g run).KeepsHkc :=
  ⟨fun _ => .of_run (h _)⟩

theorem lateSyl_keepsHkc (undef : Bool) (rd : BitVec 5) {run : Ctx → State → W36 × State}
    (h : ∀ c s, (run c s).2.hkc = s.hkc) : (lateSyl t g undef rd run).KeepsHkc :=
  ⟨fun _ => .of_run fun s => h _ s⟩

theorem slotSyl_keepsHkc (ra : BitVec 5) {run : Ctx → Nat → State → State} (h : ∀ c k s, (run c k s).hkc = s.hkc) :
    (slotSyl t g ra run).KeepsHkc := ⟨fun _ => .ite (.of_run (h _ _)) .still⟩

theorem wordLockSyl_keepsHkc (ra : BitVec 5) (md : BitVec 8) (n : Need) (rd : Option Nat) (f : Ctx → Nat → Nat × Nat) :
    (wordLockSyl t g ra md n rd f).KeepsHkc := by
  refine ⟨fun s => ?_⟩
  unfold wordLockSyl
  dsimp only
  split
  · exact undefFx_keepsHkc _
  · split
    · exact .still
    · split
      · exact .of_run fun s => by simp
      · exact .still
      · split
        · exact .of_run fun s => by simp
        · split
          · exact .of_run fun s => by simp
          · exact .of_run fun s => by split <;> simp

/-! ### The syllables of unit M -/

variable (rd ra rb : BitVec 5) (im : BitVec 13) (md : BitVec 8)

theorem sylLd_keepsHkc : (sylLd t g rd ra im).KeepsHkc :=
  nearSyl_keepsHkc t g _ _ _ _ _ _ fun _ _ _ _ _ => .ite .still (.updCtx ..)

theorem sylSt_keepsHkc : (sylSt t g rd ra im).KeepsHkc := nearSyl_keepsHkc t g _ _ _ _ _ _ fun _ _ _ sp a =>
  .of_run fun u => writeWord_hkc u t.toNat sp a _

theorem sylLdo_keepsHkc (n : Nat) : (sylLdo t g rd ra im n).KeepsHkc :=
  nearSyl_keepsHkc t g _ _ _ _ _ _ fun _ _ _ _ _ => .updCtx ..

theorem sylSto_keepsHkc (n : Nat) : (sylSto t g rd ra im n).KeepsHkc :=
  nearSyl_keepsHkc t g _ _ _ _ _ _ fun _ _ _ _ _ => .updCtx ..

theorem sylLdd_keepsHkc : (sylLdd t g rd ra im).KeepsHkc :=
  ⟨fun _ => nearFx_keepsHkc t _ _ _ _ fun _ _ => .updCtx ..⟩

theorem sylFld_keepsHkc : (sylFld t g rd ra rb md).KeepsHkc := by
  unfold sylFld
  refine farSyl_keepsHkc t g _ _ _ _ _ _ _ _ fun _ _ _ _ _ => ?_
  simp

theorem sylFst_keepsHkc : (sylFst t g rd ra rb md).KeepsHkc := by
  unfold sylFst
  refine farSyl_keepsHkc t g _ _ _ _ _ _ _ _ fun _ _ _ _ _ => ?_
  simp

theorem sylFmov_keepsHkc : (sylFmov t g rd ra rb md).KeepsHkc := by
  unfold sylFmov
  refine farSyl_keepsHkc t g _ _ _ _ _ _ _ _ fun _ _ _ _ _ => ?_
  dsimp only
  split
  · simp
  · split <;> simp

theorem sylXlat_keepsHkc : (sylXlat t g rd ra rb md).KeepsHkc :=
  ⟨fun _ => nearFx_keepsHkc t _ _ _ _ fun _ _ => .ite .still (.updCtx ..)⟩

theorem sylBmwalk_keepsHkc : (sylBmwalk t g rd ra rb md).KeepsHkc :=
  ⟨fun _ => nearFx_keepsHkc t _ _ _ _ fun _ _ => nearFx_keepsHkc t _ _ _ _ fun _ _ => .updCtx ..⟩

theorem sylTlvnext_keepsHkc : (sylTlvnext t g rd ra rb md).KeepsHkc :=
  ⟨fun _ => nearFx_keepsHkc t _ _ _ _ fun _ _ => .updCtx ..⟩

theorem sylMove_keepsHkc : (sylMove t g rd ra rb md).KeepsHkc :=
  mSyl_keepsHkc t g fun _ s => moveRun_hkc t.toNat rd.toNat _ _ s

theorem sylPost_keepsHkc : (sylPost t g rd ra rb md).KeepsHkc :=
  lateSyl_keepsHkc t g _ rd fun c s => postRun_hkc t.toNat c ra.toNat s

theorem sylLock_keepsHkc : (sylLock t g rd ra rb md).KeepsHkc :=
  ⟨fun _ => .ite .still (.of_run fun s => lockOp_hkc s _ _ _ _)⟩

theorem sylWaitev_keepsHkc : (sylWaitev t g rd ra rb md).KeepsHkc := ⟨fun _ => .ite .still (.updCtx ..)⟩

/-! ### The syllables of unit X -/

theorem sylMtsr_keepsHkc : (sylMtsr t g rd ra rb md).KeepsHkc :=
  ⟨fun _ => .ite ⟨fun _ => rfl, fun _ => rfl⟩ (.updCtx ..)⟩

end Sys2Proof.Machine
end

section
/-! PROOFS. The words of a bundle (09 R180-R184): the fields of a syllable, and the command each syllable issues as. -/

namespace Sys2Proof.Machine

open Sys2Proof.Claim

/-! ### The fields of a word -/

/-- A syllable's word: the stop bit, unit, guard, opcode and operands (Tables 09-1, 09-2). -/
def sylWord (stop : Bool) (g : Gd) (unit opc low : Nat) : W36 :=
  BitVec.ofNat 36 (stop.toNat * 2 ^ 35 + unit * 2 ^ 33 + g.toNat * 2 ^ 29 + opc * 2 ^ 23 + low)

/-- The operands of the formats R, I, L and B (Table 09-2). -/
def operandsR (rd ra rb : BitVec 5) (md : BitVec 8) : Nat :=
  rd.toNat * 2 ^ 18 + ra.toNat * 2 ^ 13 + rb.toNat * 2 ^ 8 + md.toNat
def operandsI (rd ra : BitVec 5) (im : BitVec 13) : Nat := rd.toNat * 2 ^ 18 + ra.toNat * 2 ^ 13 + im.toNat
def operandsL (rd : BitVec 5) (i18 : BitVec 18) : Nat := rd.toNat * 2 ^ 18 + i18.toNat
def operandsB (target : BitVec 16) : Nat := target.toNat * 2 ^ 7

section
variable {stop : Bool} {g : Gd} {unit opc low : Nat} (hunit : unit < 4) (hopc : opc < 64) (hlow : low < 0x800000)
include hunit hopc hlow

theorem toNat_sylWord :
    (sylWord stop g unit opc low).toNat = stop.toNat * 2 ^ 35 + unit * 2 ^ 33 + g.toNat * 2 ^ 29 + opc * 2 ^ 23 + low := by
  have hg := g.isLt
  have hs := stop.toNat_le
  rw [sylWord, BitVec.toNat_ofNat, Nat.mod_eq_of_lt (by omega)]

@[simp] theorem syUnit_sylWord : syUnit (sylWord stop g unit opc low) = unit := by
  have hg := g.isLt
  have hs := stop.toNat_le
  rw [syUnit, BitVec.extractLsb_toNat, toNat_sylWord hunit hopc hlow, Nat.shiftRight_eq_div_pow]
  omega

@[simp] theorem syGuard_sylWord : syGuard (sylWord stop g unit opc low) = g := by
  have hg := g.isLt
  have hs := stop.toNat_le
  apply BitVec.eq_of_toNat_eq
  rw [syGuard, BitVec.extractLsb_toNat, toNat_sylWord hunit hopc hlow, Nat.shiftRight_eq_div_pow]
  omega

@[simp] theorem syOpc_sylWord : syOpc (sylWord stop g unit opc low) = opc := by
  have hg := g.isLt
  have hs := stop.toNat_le
  rw [syOpc, BitVec.extractLsb_toNat, toNat_sylWord hunit hopc hlow, Nat.shiftRight_eq_div_pow]
  omega

theorem stop_sylWord : (sylWord stop g unit opc low).getLsbD 35 = stop := by
  have hg := g.isLt
  have hs := stop.toNat_le
  rw [BitVec.getLsbD, toNat_sylWord hunit hopc hlow, Nat.testBit_eq_decide_div_mod_eq]
  have hbit : (stop.toNat * 2 ^ 35 + unit * 2 ^ 33 + g.toNat * 2 ^ 29 + opc * 2 ^ 23 + low) / 2 ^ 35 % 2 = stop.toNat := by
    omega
  rw [hbit]
  cases stop <;> rfl

end

section
variable {stop : Bool} {g : Gd} {unit opc : Nat} (rd ra rb : BitVec 5) (md : BitVec 8) (im : BitVec 13) (i18 : BitVec 18)
  (target : BitVec 16) (hunit : unit < 4) (hopc : opc < 64)

theorem operandsR_lt : operandsR rd ra rb md < 0x800000 := by unfold operandsR; omega
theorem operandsI_lt : operandsI rd ra im < 0x800000 := by unfold operandsI; omega
theorem operandsL_lt : operandsL rd i18 < 0x800000 := by unfold operandsL; omega
theorem operandsB_lt : operandsB target < 0x800000 := by unfold operandsB; omega

include hunit hopc

@[simp] theorem syRd_operandsR : syRd (sylWord stop g unit opc (operandsR rd ra rb md)) = rd := by
  have hs := stop.toNat_le
  have h := toNat_sylWord (stop := stop) (g := g) hunit hopc (operandsR_lt rd ra rb md)
  unfold operandsR at h
  apply BitVec.eq_of_toNat_eq
  rw [syRd, BitVec.extractLsb_toNat, operandsR, h, Nat.shiftRight_eq_div_pow]
  omega

@[simp] theorem syRa_operandsR : syRa (sylWord stop g unit opc (operandsR rd ra rb md)) = ra := by
  have hs := stop.toNat_le
  have h := toNat_sylWord (stop := stop) (g := g) hunit hopc (operandsR_lt rd ra rb md)
  unfold operandsR at h
  apply BitVec.eq_of_toNat_eq
  rw [syRa, BitVec.extractLsb_toNat, operandsR, h, Nat.shiftRight_eq_div_pow]
  omega

@[simp] theorem syRb_operandsR : syRb (sylWord stop g unit opc (operandsR rd ra rb md)) = rb := by
  have hs := stop.toNat_le
  have h := toNat_sylWord (stop := stop) (g := g) hunit hopc (operandsR_lt rd ra rb md)
  unfold operandsR at h
  apply BitVec.eq_of_toNat_eq
  rw [syRb, BitVec.extractLsb_toNat, operandsR, h, Nat.shiftRight_eq_div_pow]
  omega

@[simp] theorem syMod_operandsR : syMod (sylWord stop g unit opc (operandsR rd ra rb md)) = md := by
  have hs := stop.toNat_le
  have h := toNat_sylWord (stop := stop) (g := g) hunit hopc (operandsR_lt rd ra rb md)
  unfold operandsR at h
  apply BitVec.eq_of_toNat_eq
  rw [syMod, BitVec.extractLsb_toNat, operandsR, h, Nat.shiftRight_eq_div_pow]
  omega

@[simp] theorem syRd_operandsI : syRd (sylWord stop g unit opc (operandsI rd ra im)) = rd := by
  have hs := stop.toNat_le
  have h := toNat_sylWord (stop := stop) (g := g) hunit hopc (operandsI_lt rd ra im)
  unfold operandsI at h
  apply BitVec.eq_of_toNat_eq
  rw [syRd, BitVec.extractLsb_toNat, operandsI, h, Nat.shiftRight_eq_div_pow]
  omega

@[simp] theorem syRa_operandsI : syRa (sylWord stop g unit opc (operandsI rd ra im)) = ra := by
  have hs := stop.toNat_le
  have h := toNat_sylWord (stop := stop) (g := g) hunit hopc (operandsI_lt rd ra im)
  unfold operandsI at h
  apply BitVec.eq_of_toNat_eq
  rw [syRa, BitVec.extractLsb_toNat, operandsI, h, Nat.shiftRight_eq_div_pow]
  omega

@[simp] theorem syImm_operandsI : syImm (sylWord stop g unit opc (operandsI rd ra im)) = im := by
  have hs := stop.toNat_le
  have h := toNat_sylWord (stop := stop) (g := g) hunit hopc (operandsI_lt rd ra im)
  unfold operandsI at h
  apply BitVec.eq_of_toNat_eq
  rw [syImm, BitVec.extractLsb_toNat, operandsI, h, Nat.shiftRight_eq_div_pow]
  omega

@[simp] theorem syRd_operandsL : syRd (sylWord stop g unit opc (operandsL rd i18)) = rd := by
  have hs := stop.toNat_le
  have h := toNat_sylWord (stop := stop) (g := g) hunit hopc (operandsL_lt rd i18)
  unfold operandsL at h
  apply BitVec.eq_of_toNat_eq
  rw [syRd, BitVec.extractLsb_toNat, operandsL, h, Nat.shiftRight_eq_div_pow]
  omega

@[simp] theorem syImm18_operandsL : syImm18 (sylWord stop g unit opc (operandsL rd i18)) = i18 := by
  have hs := stop.toNat_le
  have h := toNat_sylWord (stop := stop) (g := g) hunit hopc (operandsL_lt rd i18)
  unfold operandsL at h
  apply BitVec.eq_of_toNat_eq
  rw [syImm18, BitVec.extractLsb_toNat, operandsL, h, Nat.shiftRight_eq_div_pow]
  omega

@[simp] theorem syTarget_operandsB : syTarget (sylWord stop g unit opc (operandsB target)) = target := by
  have hs := stop.toNat_le
  have h := toNat_sylWord (stop := stop) (g := g) hunit hopc (operandsB_lt target)
  unfold operandsB at h
  apply BitVec.eq_of_toNat_eq
  rw [syTarget, BitVec.extractLsb_toNat, operandsB, h, Nat.shiftRight_eq_div_pow]
  omega

end

/-! ### Rows: the command a decoded syllable is -/

/-- The command `i` issues the syllable `x`, of guard `g`, which is undefined only in a form that `forms` lists. -/
structure IssuesAs (t : Thr) (g : Gd) (forms : List (Prop × Instr)) (i : Instr) (x : Syl) : Prop where
  exec : ∀ s, s.hkc.raised = [] → exec i s = .next (raisedDoubts (issueOne s t x))
  guard : x.guard = g
  undef : x.undef = true → ∃ f ∈ forms, f.2 = i ∧ f.1

variable {t : Thr} {g : Gd} {forms : List (Prop × Instr)} {i : Instr} {s : State} {x y : Syl}

/-- The unit of a syllable does not matter to its issue. -/
theorem issueOne_unit (k : Nat) : issueOne s t { x with unit := k } = issueOne s t x := rfl

/-- A syllable that is no routine. -/
theorem issuesAs_of_keepsHkc (hkeeps : x.KeepsHkc) (hexec : ∀ s, exec i s = .next (issueOne s t x)) (hguard : x.guard = g)
    (hundef : x.undef = true → ∃ f ∈ forms, f.2 = i ∧ f.1) : IssuesAs t g forms i x :=
  ⟨fun s hs => by rw [hexec, raisedDoubts_of_none (by rw [issueOne_hkc hkeeps, hs])], hguard, hundef⟩

theorem issuesAs_defined (hkeeps : x.KeepsHkc) (hexec : ∀ s, exec i s = .next (issueOne s t x)) (hguard : x.guard = g)
    (hdef : x.undef = false) : IssuesAs t g forms i x :=
  issuesAs_of_keepsHkc hkeeps hexec hguard (by simp [hdef])

/-- One whose form is undefined under a condition. -/
theorem issuesAs_undefinedIf (p : Prop) (hkeeps : x.KeepsHkc) (hexec : ∀ s, exec i s = .next (issueOne s t x))
    (hguard : x.guard = g) (hform : (p, i) ∈ forms) (hundef : x.undef = true → p) : IssuesAs t g forms i x :=
  issuesAs_of_keepsHkc hkeeps hexec hguard fun h => ⟨_, hform, rfl, hundef h⟩

/-- A syllable of the context alone, in any unit. -/
theorem issuesAs_ctxSyl (k : Nat) {u : Nat} {undef : Bool} {f : Ctx → Ctx → Ctx}
    (hexec : ∀ s, exec i s = .next (issueOne s t (ctxSyl t k g undef f)))
    (hundef : undef = true → ∃ f ∈ forms, f.2 = i ∧ f.1) : IssuesAs t g forms i (ctxSyl t u g undef f) :=
  issuesAs_of_keepsHkc (ctxSyl_keepsHkc t g u undef f) (fun s => (hexec s).trans (by rw [← issueOne_unit u]; rfl)) rfl
    hundef

theorem issuesAs_nop (u : Nat) : IssuesAs t g forms (.nop t g) (sylNop u g) :=
  issuesAs_defined (sylNop_keepsHkc g u) (fun _ => rfl) rfl rfl

/-- A routine. -/
theorem issuesAs_micro (hexec : ∀ s, exec i s = .next (raisedDoubts (issueOne (noDoubts s) t x))) (hguard : x.guard = g)
    (hdef : x.undef = false) : IssuesAs t g forms i x :=
  ⟨fun s hs => by rw [hexec, noDoubts_of_none hs], hguard, by simp [hdef]⟩

section
variable (t g) (rd ra rb : BitVec 5) (md : BitVec 8) (im : BitVec 13) (i18 : BitVec 18) (target : BitVec 16)

theorem sylDecode_alu {stop : Bool} {len u opc low : Nat} (hu : u < 2) (hopc : opc < 64) (hlow : low < 0x800000) :
    sylDecode t len (sylWord stop g u opc low) = aluDecode t u (sylWord stop g u opc low) := by
  obtain rfl | rfl : u = 0 ∨ u = 1 := by omega
  · simp [sylDecode, hopc, hlow]
  · simp [sylDecode, hopc, hlow]

/-- The operands of a row of units A0 and A1. -/
def aluOperands (opc : Nat) : Nat :=
  if opc < 20 then operandsR rd ra rb md else if opc < 34 then operandsI rd ra im else operandsL rd i18

theorem aluOperands_lt (opc : Nat) : aluOperands rd ra rb md im i18 opc < 0x800000 := by
  unfold aluOperands
  split
  · exact operandsR_lt ..
  · split
    · exact operandsI_lt ..
    · exact operandsL_lt ..

theorem aluRows_issue {u : Nat} (hu : u < 2) : ∀ x ∈ aluRows t g rd ra rb md im i18,
    IssuesAs t g (undefinedForms t g rd ra rb md) x.2
      (sylDecode t 1 (sylWord true g u x.1 (aluOperands rd ra rb md im i18 x.1))) := by
  have hunit : u < 4 := by omega
  have hwidth : bitsOf md.toNat 4 3 = md.toNat / 8 % 4 := rfl
  unfold aluRows
  simp only [List.cons_append, List.nil_append, List.forall_mem_cons, List.not_mem_nil, false_implies, implies_true,
    and_true]
  and_intros
  all_goals
    rw [sylDecode_alu t g hu (by decide) (aluOperands_lt ..)]
    simp only [aluDecode, aluOperands, hunit, operandsR_lt, operandsI_lt, operandsL_lt, syOpc_sylWord, syGuard_sylWord,
      syRd_operandsR, syRa_operandsR, syRb_operandsR, syMod_operandsR, syRd_operandsI, syRa_operandsI, syImm_operandsI,
      syRd_operandsL, syImm18_operandsL, Nat.reduceLT, if_true, if_false, sylWide, sylAnd, sylOr, sylXor, sylAndn, sylShl,
      sylShr, sylSar, sylRol, sylCmp, sylBrev, sylImm, sylAddi, sylAndi, sylOri, sylXori, sylShli, sylShri, sylSari,
      sylRoli, sylExti, sylCmpi, sylCmpeqi, sylCmpnei, sylCmplti, sylCmpltui]
  · exact issuesAs_nop u
  all_goals
    refine issuesAs_ctxSyl 0 ?_ ?_
    · exact fun _ => rfl
    · simp [undefinedForms, badWm, hwidth]

theorem decimalRows_issue : ∀ x ∈ decimalRows t g rd ra rb md,
    IssuesAs t g (undefinedForms t g rd ra rb md) x.2 (sylDecode t 1 (sylWord true g 1 x.1 (operandsR rd ra rb md))) := by
  unfold decimalRows
  simp only [List.forall_mem_cons, List.not_mem_nil, false_implies, implies_true, and_true]
  and_intros
  all_goals
    rw [sylDecode_alu t g (by decide) (by decide) (operandsR_lt ..)]
    simp only [aluDecode, decDecode, operandsR_lt, syOpc_sylWord, syGuard_sylWord, syRd_operandsR, syRa_operandsR,
      syRb_operandsR, syMod_operandsR, Nat.reduceLT, if_true, sylDcmp]
    refine issuesAs_ctxSyl 1 ?_ ?_
    · exact fun _ => rfl
    · simp [undefinedForms, badWm]

theorem sylDecode_mem {opc low : Nat} (hopc : opc < 64) (hlow : low < 0x800000) :
    sylDecode t 1 (sylWord true g 2 opc low) = memDecode t (sylWord true g 2 opc low) := by
  simp [sylDecode, hopc, hlow]

/-- The operands of a row of unit M. -/
def memOperands (opc : Nat) : Nat := if 1 ≤ opc ∧ opc ≤ 9 then operandsI rd ra im else operandsR rd ra rb md

theorem memOperands_lt (opc : Nat) : memOperands rd ra rb md im opc < 0x800000 := by
  unfold memOperands
  split
  · exact operandsI_lt ..
  · exact operandsR_lt ..

theorem memoryRows_issue : ∀ x ∈ memoryRows t g rd ra rb md im,
    IssuesAs t g (undefinedForms t g rd ra rb md) x.2
      (sylDecode t 1 (sylWord true g 2 x.1 (memOperands rd ra rb md im x.1))) := by
  unfold memoryRows
  simp only [List.cons_append, List.nil_append, List.forall_mem_cons, List.not_mem_nil, false_implies, implies_true,
    and_true]
  and_intros
  all_goals
    rw [sylDecode_mem t g (by decide) (memOperands_lt ..)]
    simp only [memDecode, helpDecode, memOperands, operandsR_lt, operandsI_lt, syOpc_sylWord, syGuard_sylWord,
      syRd_operandsR, syRa_operandsR, syRb_operandsR, syMod_operandsR, syRd_operandsI, syRa_operandsI, syImm_operandsI,
      Nat.reduceLT, Nat.reduceLeDiff, and_self, and_true, and_false, if_true, if_false]
  · exact issuesAs_nop 2
  · exact issuesAs_defined (sylLd_keepsHkc ..) (fun _ => rfl) rfl rfl
  · exact issuesAs_defined (sylSt_keepsHkc ..) (fun _ => rfl) rfl rfl
  · exact issuesAs_defined (sylLdo_keepsHkc ..) (fun _ => rfl) rfl rfl
  · exact issuesAs_defined (sylLdo_keepsHkc ..) (fun _ => rfl) rfl rfl
  · exact issuesAs_defined (sylLdo_keepsHkc ..) (fun _ => rfl) rfl rfl
  · exact issuesAs_defined (sylSto_keepsHkc ..) (fun _ => rfl) rfl rfl
  · exact issuesAs_defined (sylSto_keepsHkc ..) (fun _ => rfl) rfl rfl
  · exact issuesAs_defined (sylSto_keepsHkc ..) (fun _ => rfl) rfl rfl
  · exact issuesAs_defined (sylLdd_keepsHkc ..) (fun _ => rfl) rfl rfl
  · exact issuesAs_undefinedIf (md.toNat / 8 % 4 = 3) (sylFld_keepsHkc ..) (fun _ => rfl) rfl (by simp [undefinedForms])
      of_decide_eq_true
  · exact issuesAs_undefinedIf (md.toNat / 8 % 4 = 3) (sylFst_keepsHkc ..) (fun _ => rfl) rfl (by simp [undefinedForms])
      of_decide_eq_true
  · exact issuesAs_defined (sylFmov_keepsHkc ..) (fun _ => rfl) rfl rfl
  · exact issuesAs_defined (wordLockSyl_keepsHkc ..) (fun _ => rfl) rfl rfl
  · exact issuesAs_defined (wordLockSyl_keepsHkc ..) (fun _ => rfl) rfl rfl
  · exact issuesAs_defined (sylXlat_keepsHkc ..) (fun _ => rfl) rfl rfl
  · exact issuesAs_defined (sylBmwalk_keepsHkc ..) (fun _ => rfl) rfl rfl
  · exact issuesAs_undefinedIf (rd.toNat = 31) (sylTlvnext_keepsHkc ..) (fun _ => rfl) rfl (by simp [undefinedForms])
      of_decide_eq_true
  · exact issuesAs_defined (mSyl_keepsHkc t g fun _ s => endTicket_hkc s ..) (fun _ => rfl) rfl rfl
  · exact issuesAs_defined (mSyl_keepsHkc t g fun _ s => endTicket_hkc s ..) (fun _ => rfl) rfl rfl
  · exact issuesAs_defined (mSyl_keepsHkc t g fun _ s => dropOp_hkc s ..) (fun _ => rfl) rfl rfl
  · exact issuesAs_defined (sylMove_keepsHkc ..) (fun _ => rfl) rfl rfl
  · exact issuesAs_defined (lateSyl_keepsHkc t g _ rd fun _ s => splitOp_hkc s ..) (fun _ => rfl) rfl rfl
  · exact issuesAs_defined (mSyl_keepsHkc t g fun _ s => deferOp_hkc s ..) (fun _ => rfl) rfl rfl
  · exact issuesAs_undefinedIf (28 < ra.toNat) (sylPost_keepsHkc ..) (fun _ => rfl) rfl (by simp [undefinedForms])
      of_decide_eq_true
  · exact issuesAs_defined (mSyl_keepsHkc t g fun _ s => getworkOp_hkc s ..) (fun _ => rfl) rfl rfl
  · exact issuesAs_defined (mSyl_keepsHkc t g fun _ s => timerOp_hkc s ..) (fun _ => rfl) rfl rfl
  · exact issuesAs_defined (sylLock_keepsHkc ..) (fun _ => rfl) rfl rfl
  · exact issuesAs_defined (mSyl_keepsHkc t g fun _ s => unlockOp_hkc s ..) (fun _ => rfl) rfl rfl
  · exact issuesAs_defined (lateSyl_keepsHkc t g _ rd fun _ s => chOpen_hkc s ..) (fun _ => rfl) rfl rfl
  · exact issuesAs_defined (slotSyl_keepsHkc t g ra fun _ _ s => chWrite_hkc s ..) (fun _ => rfl) rfl rfl
  · exact issuesAs_defined (slotSyl_keepsHkc t g ra fun _ _ s => chPost_hkc s ..) (fun _ => rfl) rfl rfl
  · exact issuesAs_defined (lateSyl_keepsHkc t g _ rd fun _ s => chRead_hkc s ..) (fun _ => rfl) rfl rfl
  · exact issuesAs_defined (mSyl_keepsHkc t g fun _ s => chNext_hkc s ..) (fun _ => rfl) rfl rfl
  · exact issuesAs_defined (mSyl_keepsHkc t g fun _ s => signalOp_hkc s ..) (fun _ => rfl) rfl rfl
  · exact issuesAs_defined (sylWaitev_keepsHkc ..) (fun _ => rfl) rfl rfl

theorem sylDecode_x {opc low : Nat} (hopc : opc < 64) (hlow : low < 0x800000) :
    sylDecode t 1 (sylWord true g 3 opc low) = xDecode t 1 (sylWord true g 3 opc low) := by
  simp [sylDecode, hopc, hlow]

/-- The operands of a row of unit X. -/
def branchOperands (opc : Nat) : Nat := if opc = 1 ∨ opc = 2 then operandsB target else operandsR rd ra rb md

theorem branchOperands_lt (opc : Nat) : branchOperands rd ra rb md target opc < 0x800000 := by
  unfold branchOperands
  split
  · exact operandsB_lt ..
  · exact operandsR_lt ..

theorem branchRows_issue : ∀ x ∈ branchRows t g rd ra rb md target,
    IssuesAs t g (undefinedForms t g rd ra rb md) x.2
      (sylDecode t 1 (sylWord true g 3 x.1 (branchOperands rd ra rb md target x.1))) := by
  unfold branchRows
  simp only [List.forall_mem_cons, List.not_mem_nil, false_implies, implies_true, and_true]
  and_intros
  all_goals
    rw [sylDecode_x t g (by decide) (branchOperands_lt ..)]
    simp only [xDecode, branchOperands, operandsR_lt, operandsB_lt, syOpc_sylWord, syGuard_sylWord, syRd_operandsR,
      syRa_operandsR, syRb_operandsR, syMod_operandsR, syTarget_operandsB, Nat.reduceLT, Nat.reduceEqDiff, or_self, or_true,
      true_or, if_true, if_false]
  · exact issuesAs_nop 3
  · exact issuesAs_defined (ctxSyl_keepsHkc ..) (fun _ => rfl) rfl rfl
  · exact issuesAs_defined (ctxSyl_keepsHkc ..) (fun _ => rfl) rfl rfl
  · exact issuesAs_defined (ctxSyl_keepsHkc ..) (fun _ => rfl) rfl rfl
  · exact issuesAs_undefinedIf (md.toNat % 4 = 3) ⟨fun _ => .updCtx ..⟩ (fun _ => rfl) rfl (by simp [undefinedForms])
      of_decide_eq_true
  · exact issuesAs_undefinedIf (md.toNat % 4 = 3) ⟨fun _ => .updCtx ..⟩ (fun _ => rfl) rfl (by simp [undefinedForms])
      of_decide_eq_true
  · exact issuesAs_defined ⟨fun _ => .updCtx ..⟩ (fun _ => rfl) rfl rfl
  · exact issuesAs_defined (sylMtsr_keepsHkc ..) (fun _ => rfl) rfl rfl
  · exact issuesAs_defined ⟨fun _ => .of_run fun _ => rfl⟩ (fun _ => rfl) rfl rfl
  all_goals exact issuesAs_micro (fun _ => rfl) rfl rfl

end
end Sys2Proof.Machine
end

section
/-! PROOFS. The forms without effect and the undefined forms (09 R181, R185). -/

namespace Sys2Proof.Machine

open Sys2Proof.Claim

variable {s : State} {t : Thr} {g : Gd} {x : Syl}

/-- A thread that may issue issues a syllable by the effect it evaluates to. -/
theorem issueOne_of_eval {f : Fx} (hissue : MayIssue s t)
    (heval : x.eval (updCtx s t.toNat (fun c => c.turn)) t.toNat = f) (hstall : f.stall = false) (hfault : f.fault = none) :
    issueOne s t x = f.run (f.pre (issuing s t.toNat 1)) := by
  obtain ⟨hmay, hbreak, hstep, -⟩ := hissue
  unfold issueOne turnWith
  simp only [hmay, Bool.not_true, Bool.false_eq_true, if_false, breakpoint_turn, hbreak]
  rw [issueSyls_one (by rw [heval]; exact hstall) (by rw [heval]; exact hfault) (by simpa using hstep) 1, heval,
    thrPart_updCtx]
  rfl

theorem issueOne_nop (hissue : MayIssue s t) (u : Nat) : issueOne s t (sylNop u g) = issuing s t.toNat 1 := by
  refine issueOne_of_eval (f := {}) hissue ?_ rfl rfl
  unfold Syl.eval
  simp [sylNop]

/-- A syllable that is guarded off has no effect. -/
theorem issueOne_guardedOff (hissue : MayIssue s t) (hoff : guardOn (ctxNow s t) x.guard = false) (hdef : x.undef = false) :
    issueOne s t x = issuing s t.toNat 1 := by
  refine issueOne_of_eval (f := {}) hissue ?_ rfl rfl
  unfold Syl.eval
  unfold ctxNow at hoff
  simp [hdef, hoff]

/-- An undefined form has the effect of a violation, whatever its guard. -/
theorem issueOne_undef (hissue : MayIssue s t) (hundef : x.undef = true) :
    issueOne s t x = thrViolate (issuing s t.toNat 1) t.toNat 5 0 0 :=
  issueOne_of_eval (f := undefFx t.toNat) hissue (by simp [Syl.eval, hundef]) rfl rfl

theorem leaves_issuing (hissue : MayIssue s t) :
    Leaves s (issuing s t.toNat 1) t { ctxNow s t with pc := (ctxNow s t).pc + 1 } s.mem :=
  leaves_of_threads hissue (issuing_threads s t.toNat 1) (thr_issued s t) fun _ hk => thr_issuing_ne hk

theorem answers_nop (hissue : MayIssue s t) : Answers (.nop t g) s t [] [] := by
  have hexec : exec (.nop t g) s = .next (issueOne s t (sylNop 0 g)) := rfl
  rw [issueOne_nop hissue] at hexec
  exact ⟨_, _, hexec, leaves_issuing hissue, wrote_nothing _⟩

/-- A command whose syllable is guarded off acts as NOP, if its form is defined. -/
theorem exec_guardedOff {forms : List (Prop × Instr)} {i : Instr} (h : IssuesAs t g forms i x) (hissue : MayIssue s t)
    (hraised : s.hkc.raised = []) (hoff : guardOn (ctxNow s t) g = false) (hdef : ∀ f ∈ forms, f.2 = i → ¬ f.1) :
    exec i s = exec (.nop t g) s := by
  obtain ⟨hexec, hguard, hundef⟩ := h
  have hx : x.undef = false := by
    by_contra hx
    obtain ⟨f, hf, hi, hform⟩ := hundef (by simpa using hx)
    exact hdef f hf hi hform
  have hnop : exec (.nop t g) s = .next (issueOne s t (sylNop 0 g)) := rfl
  have hkept : (issueOne s t (sylNop 0 g)).hkc.raised = [] := by rw [issueOne_hkc (sylNop_keepsHkc g 0), hraised]
  rw [hexec s hraised, issueOne_guardedOff hissue (by rw [hguard]; exact hoff) hx, hnop, issueOne_nop hissue,
    raisedDoubts_of_none (by rwa [issueOne_nop hissue] at hkept)]

/-- The rows of every unit are the commands of decoded syllables. -/
theorem rows_issue (t : Thr) (g : Gd) (rd ra rb : BitVec 5) (md : BitVec 8) (im : BitVec 13) (i18 : BitVec 18)
    (target : BitVec 16) (r : Nat × Instr) (hr : r ∈ aluRows t g rd ra rb md im i18 ++ decimalRows t g rd ra rb md ++
      memoryRows t g rd ra rb md im ++ branchRows t g rd ra rb md target) :
    ∃ x, IssuesAs t g (undefinedForms t g rd ra rb md) r.2 x := by
  simp only [List.mem_append] at hr
  obtain ((hr | hr) | hr) | hr := hr
  · exact ⟨_, aluRows_issue t g rd ra rb md im i18 (u := 0) (by decide) r hr⟩
  · exact ⟨_, decimalRows_issue t g rd ra rb md r hr⟩
  · exact ⟨_, memoryRows_issue t g rd ra rb md im r hr⟩
  · exact ⟨_, branchRows_issue t g rd ra rb md target r hr⟩

/-- Every undefined form issues a syllable that is undefined. -/
theorem undefinedForms_issue (t : Thr) (g : Gd) (rd ra rb : BitVec 5) (md : BitVec 8) :
    ∀ f ∈ undefinedForms t g rd ra rb md, f.1 →
      ∃ x : Syl, x.undef = true ∧ ∀ s, exec f.2 s = .next (issueOne s t x) := by
  unfold undefinedForms
  simp only [List.forall_mem_cons, List.not_mem_nil, false_implies, implies_true, and_true]
  refine ⟨fun h => ⟨sylAdd t 0 g rd ra rb md, decide_eq_true h, fun _ => rfl⟩,
    fun h => ⟨sylSub t 0 g rd ra rb md, decide_eq_true h, fun _ => rfl⟩,
    fun h => ⟨sylAnd t 0 g rd ra rb md, decide_eq_true h, fun _ => rfl⟩,
    fun h => ⟨sylOr t 0 g rd ra rb md, decide_eq_true h, fun _ => rfl⟩,
    fun h => ⟨sylXor t 0 g rd ra rb md, decide_eq_true h, fun _ => rfl⟩,
    fun h => ⟨sylAndn t 0 g rd ra rb md, decide_eq_true h, fun _ => rfl⟩,
    fun h => ⟨sylShl t 0 g rd ra rb md, decide_eq_true h, fun _ => rfl⟩,
    fun h => ⟨sylShr t 0 g rd ra rb md, decide_eq_true h, fun _ => rfl⟩,
    fun h => ⟨sylSar t 0 g rd ra rb md, decide_eq_true h, fun _ => rfl⟩,
    fun h => ⟨sylRol t 0 g rd ra rb md, decide_eq_true h, fun _ => rfl⟩,
    fun h => ⟨sylCvbd t 1 g rd ra rb md, decide_eq_true h, fun _ => rfl⟩,
    fun h => ⟨sylCmp t 0 g rd ra rb md, ?_, fun _ => rfl⟩,
    fun h => ⟨sylDcmp t 1 g rd ra rb md, decide_eq_true (by simpa using h), fun _ => rfl⟩,
    fun h => ⟨sylMul t g rd ra rb md, decide_eq_true h, fun _ => rfl⟩,
    fun h => ⟨sylCrc t g rd ra rb md, decide_eq_true h, fun _ => rfl⟩,
    fun h => ⟨sylFld t g rd ra rb md, decide_eq_true h, fun _ => rfl⟩,
    fun h => ⟨sylFst t g rd ra rb md, decide_eq_true h, fun _ => rfl⟩,
    fun h => ⟨sylTlvnext t g rd ra rb md, decide_eq_true h, fun _ => rfl⟩,
    fun h => ⟨sylPost t g rd ra rb md, decide_eq_true h, fun _ => rfl⟩⟩
  exact (Bool.or_eq_true _ _).mpr (h.imp decide_eq_true decide_eq_true)

/-- What a violation of the thread's partition leaves as its issue found it, and what it counts. -/
theorem undef_issued {p : Nat} (hpart : thrPart s t.toNat = some p) :
    let u := thrViolate (issuing s t.toNat 1) t.toNat 5 0 0
    (thr u t.toNat).ctx = { ctxNow s t with pc := (ctxNow s t).pc + 1 } ∧ u.mem = s.mem ∧
      (∀ k, k ≠ t.toNat → thr u k = thr s k) ∧ u.hsp = s.hsp ∧ u.thr.tasks = s.thr.tasks ∧
      rdCnt u (0xE0800 + p * 0x80 + 8 * 5) = rdCnt s (0xE0800 + p * 0x80 + 8 * 5) + 1 := by
  have hpart' : thrPart (issuing s t.toNat 1) t.toNat = some p := by
    rw [issuing_frame]; exact hpart
  intro u
  have hu : u = violate (issuing s t.toNat 1) p 5 (thrAgent t.toNat) 0 0 := thrViolate_of_part hpart' 5 0 0
  have honly : OnlySearch (issuing s t.toNat 1) u := hu ▸ onlySearch_violate ..
  have hthr : u.thr = (issuing s t.toNat 1).thr := by rw [honly]
  have hcnt : rdCnt u (0xE0800 + p * 0x80 + 8 * 5) = rdCnt (issuing s t.toNat 1) (0xE0800 + p * 0x80 + 8 * 5) + 1 :=
    hu ▸ rdCnt_violate ..
  refine ⟨?_, ?_, fun k hk => ?_, ?_, ?_, ?_⟩
  · show (mget _ u.thr.threads _).ctx = _
    rw [hthr]
    exact congrArg Thread.ctx (thr_issued s t)
  · rw [honly, issuing_frame]
  · show mget _ u.thr.threads _ = _
    rw [hthr]
    exact thr_issuing_ne hk
  · rw [honly, issuing_frame]
  · rw [hthr, issuing_frame]
  · rw [hcnt, issuing_frame]
    rfl

theorem nopForms_holds : nopForms := by
  intro s t g rd ra rb md im i18 target hissue hraised
  refine ⟨answers_nop hissue, fun hoff r hr hdef => ?_, fun p hpart f hf hform => ?_⟩
  · obtain ⟨x, hx⟩ := rows_issue t g rd ra rb md im i18 target r hr
    exact exec_guardedOff hx hissue hraised hoff hdef
  · obtain ⟨x, hundef, hexec⟩ := undefinedForms_issue t g rd ra rb md f hf hform
    exact ⟨_, (hexec s).trans (by rw [issueOne_undef hissue hundef]), undef_issued hpart⟩

end Sys2Proof.Machine
end

section
/-! PROOFS. The fetch of a bundle (09 R180-R184; 08 R168, R169). -/

namespace Sys2Proof.Machine

open Sys2Proof.Claim

variable {s : State} {t : Thr} {p : Nat}

/-! ### The words of a bundle, and their fetch -/

theorem fetchChk_of_fetches {pc n k : Nat} (h : Fetches s p pc n) (hk : k < n) :
    fetchChk s p ((pc + k) % 65536) = .ok 2 (pc + k) := by
  unfold Fetches at h
  dsimp only at h
  unfold fetchChk segCheck
  generalize (segEnt s p 0).view p 0 = v at h ⊢
  obtain ⟨hvalid, hspace, hx, hp, hbase, hlimit, hend⟩ := h
  have hsize : spaceSize v.space = 65536 := by rw [hspace]; rfl
  have haddr : v.base + (pc + k - v.base) = pc + k := by omega
  rw [Nat.mod_eq_of_lt (by omega)]
  dsimp only
  rw [if_neg (by omega), if_neg (by simp [hvalid]), if_neg (by simp [hspace, spIst]), if_neg (by simp [hx]),
    if_neg (by omega), if_neg (by omega), if_neg (by simp [hp]), hspace, haddr]

/-- A fetch that descriptor 0 does not grant. -/
theorem fetchChk_of_not {pc : Nat} (h : let v := (segEnt s p 0).view p 0
      v.valid = false ∨ pc < v.base ∨ v.space ≠ 2 ∨ v.x = false) : ∃ kind, fetchChk s p pc = .bad kind := by
  dsimp only at h
  unfold fetchChk segCheck
  generalize (segEnt s p 0).view p 0 = v at h ⊢
  dsimp only
  by_cases hbase : pc < v.base
  · rw [if_pos hbase]
    split <;> exact ⟨_, rfl⟩
  · rw [if_neg hbase]
    by_cases hvalid : v.valid = false
    · exact ⟨1, if_pos (by simp [hvalid])⟩
    · rw [if_neg (by simpa using hvalid)]
      by_cases hspace : v.space = 2
      · exact ⟨2, by rw [if_neg (by simp [hspace, spIst]), if_pos (by simp_all)]⟩
      · exact ⟨2, if_pos (by simpa [spIst] using hspace)⟩

/-- A bundle whose words descriptor 0 grants issues its syllables. -/
theorem bundleGo_of_words {ws : List W36} {pc : Nat} (hpart : thrPart s t.toNat = some p)
    (hpc : (thr s t.toNat).ctx.pc.toNat = pc) (hfetch : Fetches s p pc ws.length) (hwords : bundleWords s t.toNat 4 pc = ws)
    (hdef : bundleUndef ws (ws.map (sylDecode t ws.length)) = false) :
    bundleGo t s = issueSyls s t.toNat ws.length (ws.map (sylDecode t ws.length)) := by
  have hgrants : ∀ c ∈ (List.range ws.length).map (fun k => (fetchChk s p ((pc + k) % 65536), (pc + k) % 65536)),
      ∃ a, c.1 = .ok 2 a := by
    intro c hc
    obtain ⟨k, hk, rfl⟩ := List.mem_map.mp hc
    exact ⟨_, fetchChk_of_fetches hfetch (List.mem_range.mp hk)⟩
  unfold bundleGo
  dsimp only
  rw [hpart]
  dsimp only
  rw [hpc, hwords]
  split
  · next h => exact absurd (hgrants _ (List.mem_of_find?_eq_some h)) (by simp)
  · next c _ _ h =>
    obtain ⟨b, rfl⟩ : ∃ b, c = .ok 2 b := hgrants _ (List.mem_of_find?_eq_some h)
    exact absurd (List.find?_some h) Bool.false_ne_true
  · rw [hdef]
    rfl

theorem bundleGo_one {w : W36} {pc : Nat} (hpart : thrPart s t.toNat = some p) (hpc : (thr s t.toNat).ctx.pc.toNat = pc)
    (hfetch : Fetches s p pc 1) (hword : istWord s (t.toNat / 128) pc = w) (hstop : w.getLsbD 35 = true) :
    bundleGo t s = issueSyls s t.toNat 1 [sylDecode t 1 w] := by
  refine bundleGo_of_words (ws := [w]) hpart hpc hfetch ?_ ?_
  · unfold bundleWords
    dsimp only
    rw [hword, if_pos hstop]
  · simp [bundleUndef, unitsAscend, hstop]

/-- A bundle of two words, whose units ascend and of which neither is a routine's. -/
theorem bundleGo_two {w x : W36} {pc : Nat} (hpart : thrPart s t.toNat = some p)
    (hpc : (thr s t.toNat).ctx.pc.toNat = pc) (hfetch : Fetches s p pc 2) (hfirst : istWord s (t.toNat / 128) pc = w)
    (hsecond : istWord s (t.toNat / 128) (pc + 1) = x) (hgoes : w.getLsbD 35 = false) (hstop : x.getLsbD 35 = true)
    (hunits : syUnit w < syUnit x) (hw : (sylDecode t 2 w).micro = false) (hx : (sylDecode t 2 x).micro = false) :
    bundleGo t s = issueSyls s t.toNat 2 [sylDecode t 2 w, sylDecode t 2 x] := by
  have hnext : (pc + 1) % 65536 = pc + 1 := by
    obtain ⟨-, -, -, -, -, -, hend⟩ := hfetch
    omega
  refine bundleGo_of_words (ws := [w, x]) hpart hpc hfetch ?_ ?_
  · simp only [bundleWords, hfirst, hgoes, hnext, hsecond, hstop, Bool.false_eq_true, if_false, if_true]
  · simp [bundleUndef, unitsAscend, hunits, hstop, hw, hx]

/-! ### BUNDLE_ISSUE -/

/-- The state in which late results have landed. -/
def turned (s : State) (t : Thr) : State := updCtx s t.toNat (fun c => c.turn)

theorem ctx_turned_eq (s : State) (t : Thr) : (thr (turned s t) t.toNat).ctx = ctxNow s t := by
  simp [turned, ctxNow]

theorem turnWith_of_mayIssue (hissue : MayIssue s t) (f : State → State) : turnWith s t.toNat f = f (turned s t) := by
  obtain ⟨hmay, hbreak, -, -⟩ := hissue
  unfold turnWith
  simp only [hmay, Bool.not_true, Bool.false_eq_true, if_false, breakpoint_turn, hbreak]
  rfl

theorem exec_bundleIssue (hissue : MayIssue s t) (hraised : s.hkc.raised = []) :
    exec (.bundleIssue t) s = .next (raisedDoubts (bundleGo t (turned s t))) := by
  have hexec : exec (.bundleIssue t) s = .next (raisedDoubts (turnWith (noDoubts s) t.toNat (bundleGo t))) := rfl
  rw [hexec, noDoubts_of_none hraised, turnWith_of_mayIssue hissue]

/-- A bundle of one word issues its syllable. -/
theorem exec_bundleIssue_one {w : W36} (hissue : MayIssue s t) (hraised : s.hkc.raised = [])
    (hpart : thrPart s t.toNat = some p) (hfetch : Fetches s p (ctxNow s t).pc.toNat 1)
    (hword : istWord s (t.toNat / 128) (ctxNow s t).pc.toNat = w) (hstop : w.getLsbD 35 = true) :
    exec (.bundleIssue t) s = .next (raisedDoubts (issueOne s t (sylDecode t 1 w))) := by
  have hgo : bundleGo t (turned s t) = issueSyls (turned s t) t.toNat 1 [sylDecode t 1 w] :=
    bundleGo_one ((thrPart_updCtx ..).trans hpart) (congrArg (fun c => c.pc.toNat) (ctx_turned_eq s t)) hfetch hword hstop
  rw [exec_bundleIssue hissue hraised, hgo, issueOne, turnWith_of_mayIssue hissue]

theorem sylWord_true (g : Gd) (unit opc low : Nat) : sylWord true g unit opc low =
    BitVec.ofNat 36 (2 ^ 35 + unit * 2 ^ 33 + g.toNat * 2 ^ 29 + opc * 2 ^ 23 + low) := by
  rw [sylWord, Bool.toNat_true, Nat.one_mul]

/-- A word of the stop bit issues as the command whose syllable it decodes to. -/
theorem exec_bundleIssue_row {g : Gd} {unit opc low : Nat} {forms : List (Prop × Instr)} {i : Instr}
    (hissue : MayIssue s t) (hraised : s.hkc.raised = []) (hpart : thrPart s t.toNat = some p)
    (hfetch : Fetches s p (ctxNow s t).pc.toNat 1) (hunit : unit < 4) (hopc : opc < 64) (hlow : low < 0x800000)
    (hrow : IssuesAs t g forms i (sylDecode t 1 (sylWord true g unit opc low)))
    (hword : istWord s (t.toNat / 128) (ctxNow s t).pc.toNat =
      BitVec.ofNat 36 (2 ^ 35 + unit * 2 ^ 33 + g.toNat * 2 ^ 29 + opc * 2 ^ 23 + low)) :
    exec (.bundleIssue t) s = exec i s := by
  rw [hrow.exec s hraised]
  exact exec_bundleIssue_one hissue hraised hpart hfetch (hword.trans (sylWord_true ..).symm)
    (stop_sylWord hunit hopc hlow)

/-! ### An opcode of no syllable -/

theorem sylDecode_undef {g : Gd} {unit opc low : Nat} (hopc : opc < 64) (hlow : low < 0x800000)
    (h : unit = 0 ∧ 36 ≤ opc ∨ unit = 1 ∧ opc ∈ [36, 37, 38, 39, 47, 63] ∨
      unit = 2 ∧ opc ∈ [18, 23, 28, 43, 53, 63] ∨ unit = 3 ∧ opc ∈ [9, 15, 21, 63]) :
    sylDecode t 1 (sylWord true g unit opc low) = sylUndef (sylWord true g unit opc low) := by
  obtain ⟨rfl, hopc'⟩ | ⟨rfl, hopc'⟩ | ⟨rfl, hopc'⟩ | ⟨rfl, hopc'⟩ := h
  · have hop : syOpc (sylWord true g 0 opc low) = opc := syOpc_sylWord (by decide) hopc hlow
    rw [sylDecode_alu t g (by decide) hopc hlow]
    unfold aluDecode
    dsimp only
    split
    case h_37 => rfl
    all_goals omega
  · rw [sylDecode_alu t g (by decide) hopc hlow]
    simp only [List.mem_cons, List.not_mem_nil, or_false] at hopc'
    obtain rfl | rfl | rfl | rfl | rfl | rfl := hopc' <;> simp [aluDecode, decDecode, hlow]
  · rw [sylDecode_mem t g hopc hlow]
    simp only [List.mem_cons, List.not_mem_nil, or_false] at hopc'
    obtain rfl | rfl | rfl | rfl | rfl | rfl := hopc' <;> simp [memDecode, helpDecode, hlow]
  · rw [sylDecode_x t g hopc hlow]
    simp only [List.mem_cons, List.not_mem_nil, or_false] at hopc'
    obtain rfl | rfl | rfl | rfl := hopc' <;> simp [xDecode, hlow]

/-- An opcode of no syllable counts a violation and is passed (09 R181). -/
theorem exec_bundleIssue_undef {w : W36} (hissue : MayIssue s t) (hraised : s.hkc.raised = [])
    (hpart : thrPart s t.toNat = some p) (hfetch : Fetches s p (ctxNow s t).pc.toNat 1)
    (hword : istWord s (t.toNat / 128) (ctxNow s t).pc.toNat = w) (hstop : w.getLsbD 35 = true)
    (hdecode : sylDecode t 1 w = sylUndef w) :
    exec (.bundleIssue t) s = .next (thrViolate (issuing s t.toNat 1) t.toNat 5 0 0) := by
  have hkeeps : (sylUndef w).KeepsHkc := ⟨fun _ => .still⟩
  have hkept : (issueOne s t (sylUndef w)).hkc.raised = [] := by rw [issueOne_hkc hkeeps, hraised]
  rw [exec_bundleIssue_one hissue hraised hpart hfetch hword hstop, hdecode, raisedDoubts_of_none hkept,
    issueOne_undef hissue rfl]

/-! ### Two syllables of one bundle -/

/-- Two syllables that neither stall nor fault run in turn, on what both evaluate to in the state before. -/
theorem issueSyls_two {x y : Syl} {f g : Fx} (hx : x.eval s t.toNat = f) (hy : y.eval s t.toNat = g)
    (hf : f.stall = false ∧ f.fault = none) (hg : g.stall = false ∧ g.fault = none) 
    (hstep : (thr s t.toNat).stepping = false) (n : Nat) :
    issueSyls s t.toNat n [x, y] = g.run (f.run (g.pre (f.pre (unstall (updThr (firstBundle s t.toNat) t.toNat
      (fun x => { x with
      inWait := false, skipBp := false, routine := none, ctx := { x.ctx with pc := x.ctx.pc + BitVec.ofNat 16 n } }))
      ((thrPart s t.toNat).getD 8))))) := by
  obtain ⟨hfstall, hffault⟩ := hf
  obtain ⟨hgstall, hgfault⟩ := hg
  unfold issueSyls
  simp [hx, hy, hfstall, hgstall, hffault, hgfault, hstep]

section
variable (t : Thr) (u : Nat) (g : Gd) (rd ra rb : BitVec 5)

theorem sylDecode_add {stop : Bool} {len : Nat} {md : BitVec 8} (hu : u < 2) :
    sylDecode t len (sylWord stop g u 1 (operandsR rd ra rb md)) = sylAdd t u g rd ra rb md := by
  rw [sylDecode_alu t g hu (by decide) (operandsR_lt ..)]
  simp [aluDecode, operandsR_lt, show u < 4 by omega]

theorem sylDecode_sub {stop : Bool} {len : Nat} {md : BitVec 8} (hu : u < 2) :
    sylDecode t len (sylWord stop g u 2 (operandsR rd ra rb md)) = sylSub t u g rd ra rb md := by
  rw [sylDecode_alu t g hu (by decide) (operandsR_lt ..)]
  simp [aluDecode, operandsR_lt, show u < 4 by omega]

theorem sylAdd_zero : sylAdd t u g rd ra rb 0 = ctxSyl t u g false (fun c0 c => wg c rd (rg c0 ra + rg c0 rb)) := by
  have hsum (a b : W36) : wmResult 36 a (addW 36 a b).1 = a + b := by
    apply BitVec.eq_of_toNat_eq
    simp only [wmResult, addW, lowBits, BitVec.toNat_ofNat, BitVec.toNat_add]
    omega
  have hmode : badWm 0 = false ∧ wmWidth 0 = 36 ∧ cpOf 0 = 0 := by decide
  obtain ⟨hbad, hwidth, hcp⟩ := hmode
  simp only [sylAdd, hbad, hwidth, hcp, hsum, Ctx.setP, if_true]

theorem sylSub_zero : sylSub t u g rd ra rb 0 = ctxSyl t u g false (fun c0 c => wg c rd (rg c0 ra - rg c0 rb)) := by
  have hdiff (a b : W36) : wmResult 36 a (subW 36 a b).1 = a - b := by
    apply BitVec.eq_of_toNat_eq
    simp only [wmResult, subW, lowBits, BitVec.toNat_ofNat, BitVec.toNat_sub]
    omega
  have hmode : badWm 0 = false ∧ wmWidth 0 = 36 ∧ cpOf 0 = 0 := by decide
  obtain ⟨hbad, hwidth, hcp⟩ := hmode
  simp only [sylSub, hbad, hwidth, hcp, hdiff, Ctx.setP, if_true]

end

/-- A syllable of the context alone under guard 0 evaluates to the change of the context. -/
theorem eval_ctxSyl_zero (s : State) (u : Nat) (f : Ctx → Ctx → Ctx) :
    (ctxSyl t u 0 false f).eval s t.toNat = { run := fun s' => updCtx s' t.toNat (f (thr s t.toNat).ctx) } :=
  Syl.eval_run rfl (by simp [ctxSyl, guardOn, Ctx.pd, bitOf])

/-- Two syllables of the context alone in one bundle both read the context before either writes. -/
theorem issueSyls_ctxSyls (f h : Ctx → Ctx → Ctx) (u v : Nat) (hissue : MayIssue s t) :
    let w := issueSyls (turned s t) t.toNat 2 [ctxSyl t u 0 false f, ctxSyl t v 0 false h]
    let c := ctxNow s t
    Leaves s w t (h c (f c { c with pc := c.pc + 2 })) s.mem := by
  intro w c
  have hstep : (thr (turned s t) t.toNat).stepping = false := by
    obtain ⟨-, -, hstep, -⟩ := hissue
    simpa [turned] using hstep
  have hw : w = updCtx (updCtx (issuing s t.toNat 2) t.toNat (f c)) t.toNat (h c) := by
    refine (issueSyls_two (eval_ctxSyl_zero ..) (eval_ctxSyl_zero ..) ⟨rfl, rfl⟩ ⟨rfl, rfl⟩ hstep 2).trans ?_
    rw [ctx_turned_eq, show thrPart (turned s t) t.toNat = thrPart s t.toNat from thrPart_updCtx ..]
    rfl
  refine leaves_of_threads hissue ?_ ?_ fun k hk => ?_
  · rw [hw]
    exact ((issuing_threads s t.toNat 2).updThr _ _).updThr _ _
  · rw [hw, thr_updCtx, if_pos rfl, thr_updCtx, if_pos rfl, thr_issuing, ← Ctx.turn_pc]
    rfl
  · rw [hw, thr_updCtx, if_neg hk, thr_updCtx, if_neg hk, thr_issuing_ne hk]

theorem leaves_hkc {u : State} {c : Ctx} {m : Mems} (h : Leaves s u t c m) : u.hkc = s.hkc := by
  obtain ⟨hu, -, -⟩ := h
  rw [hu]

theorem setG_setG_eq (c : Ctx) (i j : Nat) (v w : W36) :
    (c.setG i v).setG j w = { c with regs := ((c.setG i v).setG j w).regs } := by
  unfold Ctx.setG
  split <;> split <;> rfl

/-- A bundle of an addition and a subtraction. -/
theorem exec_bundleIssue_two (hissue : MayIssue s t) (hraised : s.hkc.raised = []) (hpart : thrPart s t.toNat = some p)
    (rd ra rb rd2 ra2 rb2 : BitVec 5) (hfetch : Fetches s p (ctxNow s t).pc.toNat 2)
    (hfirst : istWord s (t.toNat / 128) (ctxNow s t).pc.toNat = sylWord false 0 0 1 (operandsR rd ra rb 0))
    (hsecond : istWord s (t.toNat / 128) ((ctxNow s t).pc.toNat + 1) = sylWord true 0 1 2 (operandsR rd2 ra2 rb2 0)) :
    ∃ u c', exec (.bundleIssue t) s = .next u ∧ Leaves s u t c' s.mem ∧
      c' = { ctxNow s t with pc := (ctxNow s t).pc + 2, regs := c'.regs } ∧
      ∀ k, c'.g k = if k = 0 then 0 else if k = rd2.toNat then (ctxNow s t).g ra2.toNat - (ctxNow s t).g rb2.toNat
        else if k = rd.toNat then (ctxNow s t).g ra.toNat + (ctxNow s t).g rb.toNat else (ctxNow s t).g k := by
  have hlow1 := operandsR_lt rd ra rb 0
  have hlow2 := operandsR_lt rd2 ra2 rb2 0
  have hstop1 : (sylWord false 0 0 1 (operandsR rd ra rb 0)).getLsbD 35 = false :=
    stop_sylWord (by decide) (by decide) hlow1
  have hstop2 : (sylWord true 0 1 2 (operandsR rd2 ra2 rb2 0)).getLsbD 35 = true :=
    stop_sylWord (by decide) (by decide) hlow2
  have hdecode1 : sylDecode t 2 (sylWord false 0 0 1 (operandsR rd ra rb 0)) = sylAdd t 0 0 rd ra rb 0 :=
    sylDecode_add t 0 0 rd ra rb (by decide)
  have hdecode2 : sylDecode t 2 (sylWord true 0 1 2 (operandsR rd2 ra2 rb2 0)) = sylSub t 1 0 rd2 ra2 rb2 0 :=
    sylDecode_sub t 1 0 rd2 ra2 rb2 (by decide)
  have hunits : syUnit (sylWord false 0 0 1 (operandsR rd ra rb 0)) <
      syUnit (sylWord true 0 1 2 (operandsR rd2 ra2 rb2 0)) := by
    rw [syUnit_sylWord (by decide) (by decide) hlow1, syUnit_sylWord (by decide) (by decide) hlow2]
    decide
  have hgo : bundleGo t (turned s t) = issueSyls (turned s t) t.toNat 2
      [ctxSyl t 0 0 false (fun c0 c => wg c rd (rg c0 ra + rg c0 rb)),
        ctxSyl t 1 0 false (fun c0 c => wg c rd2 (rg c0 ra2 - rg c0 rb2))] := by
    rw [← sylAdd_zero, ← sylSub_zero, ← hdecode1, ← hdecode2]
    exact bundleGo_two (p := p) ((thrPart_updCtx ..).trans hpart) (congrArg (fun c => c.pc.toNat) (ctx_turned_eq s t))
      hfetch hfirst hsecond hstop1 hstop2 hunits (by rw [hdecode1]; rfl) (by rw [hdecode2]; rfl)
  have hleaves := issueSyls_ctxSyls (fun c0 c => wg c rd (rg c0 ra + rg c0 rb))
    (fun c0 c => wg c rd2 (rg c0 ra2 - rg c0 rb2)) 0 1 hissue
  rw [← hgo] at hleaves
  refine ⟨_, _, ?_, hleaves, ?_, fun k => ?_⟩
  · rw [exec_bundleIssue hissue hraised, raisedDoubts_of_none (by rw [leaves_hkc hleaves, hraised])]
  · exact setG_setG_eq ..
  · simp only [wg, rg, Ctx.g_setG]
    by_cases hk : k = 0
    · rw [if_neg (by omega), if_neg (by omega), if_pos hk, hk]
      rfl
    · simp only [if_neg hk]
      by_cases h2 : k = rd2.toNat
      · rw [if_pos ⟨h2, by omega⟩, if_pos h2]
      · rw [if_neg (fun h => h2 h.1), if_neg h2]
        by_cases h1 : k = rd.toNat
        · rw [if_pos ⟨h1, by omega⟩, if_pos h1]
        · rw [if_neg (fun h => h1 h.1), if_neg h1]
          rfl

/-! ### A fetch that fails -/

/-- The fetch of a word that descriptor 0 does not grant keeps the turn's state, but for the violation and the stop. -/
theorem bundleGo_of_not {w : W36} {pc kind : Nat} (hpart : thrPart s t.toNat = some p)
    (hpc : (thr s t.toNat).ctx.pc.toNat = pc) (hword : istWord s (t.toNat / 128) pc = w) (hstop : w.getLsbD 35 = true)
    (hchk : fetchChk s p pc = .bad kind) : bundleGo t s = fetchFail s t.toNat p pc := by
  have hlt : pc % 65536 = pc := by
    rw [← hpc]
    exact Nat.mod_eq_of_lt (BitVec.isLt _)
  have hwords : bundleWords s t.toNat 4 pc = [w] := by
    unfold bundleWords
    dsimp only
    rw [hword, if_pos hstop]
  have hchks : (List.range 1).map (fun k => (fetchChk s p ((pc + k) % 65536), (pc + k) % 65536)) = [(.bad kind, pc)] := by
    rw [List.range_one, List.map_singleton, Nat.add_zero, hlt, hchk]
  unfold bundleGo
  dsimp only
  rw [hpart]
  dsimp only
  rw [hpc, hwords, List.length_singleton, hchks]
  rfl

theorem fetchFail_leaves (hpart : thrPart s t.toNat = some p) (hp : p < 8) (pc : Nat) :
    let u := fetchFail s t.toNat p pc
    (thr u t.toNat).ctx = (thr s t.toNat).ctx ∧ (thr u t.toNat).fetchStop = true ∧ u.mem = s.mem ∧ u.hkc = s.hkc ∧
      (∀ k, k ≠ t.toNat → thr u k = thr s k) ∧
      rdCnt u (0xE0800 + p * 0x80 + 8 * 4) = rdCnt s (0xE0800 + p * 0x80 + 8 * 4) + 1 := by
  have honly : OnlySearch s (violate s p 4 (thrAgent t.toNat) 0 pc) := onlySearch_violate ..
  have hthr (k : Nat) : thr (violate s p 4 (thrAgent t.toNat) 0 pc) k = thr s k := by
    rw [honly]
    rfl
  have hmem : (violate s p 4 (thrAgent t.toNat) 0 pc).mem = s.mem := by rw [honly]
  have hfail (k : Nat) : thr (fetchFail s t.toNat p pc) k =
      thr (updThr (thrViolate s t.toNat 4 0 pc) t.toNat (fun x => { x with fetchStop := true })) k := rfl
  rw [thrViolate_of_part hpart] at hfail
  refine ⟨?_, ?_, ?_, ?_, fun k hk => ?_, ?_⟩
  · rw [hfail, thr_updThr, if_pos rfl, hthr]
  · rw [hfail, thr_updThr, if_pos rfl]
  · show (thrViolate s t.toNat 4 0 pc).mem = _
    rw [thrViolate_of_part hpart, hmem]
  · show (thrViolate s t.toNat 4 0 pc).hkc = _
    exact thrViolate_hkc ..
  · rw [hfail, thr_updThr, if_neg hk, hthr]
  · have hne : 0xE0800 + p * 0x80 + 8 * 4 ≠ 0x70A00 + p * 0x40 + 7 * 8 := by omega
    unfold fetchFail coreCnt pcnt
    rw [rdCnt_cntAdd, if_neg hne, ← rdCnt_violate s p 4 (thrAgent t.toNat) 0 pc, thrViolate_of_part hpart]
    rfl

theorem exec_bundleIssue_not {w : W36} (hissue : MayIssue s t) (hraised : s.hkc.raised = [])
    (hpart : thrPart s t.toNat = some p) (hp : p < 8)
    (hword : istWord s (t.toNat / 128) (ctxNow s t).pc.toNat = w) (hstop : w.getLsbD 35 = true)
    (hnot : let v := (segEnt s p 0).view p 0
      v.valid = false ∨ (ctxNow s t).pc.toNat < v.base ∨ v.space ≠ 2 ∨ v.x = false) :
    ∃ u, exec (.bundleIssue t) s = .next u ∧ (thr u t.toNat).ctx = ctxNow s t ∧ (thr u t.toNat).fetchStop = true ∧
      u.mem = s.mem ∧ (∀ k, k ≠ t.toNat → thr u k = thr s k) ∧
      rdCnt u (0xE0800 + p * 0x80 + 8 * 4) = rdCnt s (0xE0800 + p * 0x80 + 8 * 4) + 1 := by
  obtain ⟨kind, hchk⟩ := fetchChk_of_not hnot
  have hpart' : thrPart (turned s t) t.toNat = some p := (thrPart_updCtx ..).trans hpart
  have hgo : bundleGo t (turned s t) = fetchFail (turned s t) t.toNat p (ctxNow s t).pc.toNat :=
    bundleGo_of_not hpart' (congrArg (fun c => c.pc.toNat) (ctx_turned_eq s t)) hword hstop hchk
  obtain ⟨hctx, hstopped, hmem, hhkc, hothers, hcnt⟩ := fetchFail_leaves hpart' hp (ctxNow s t).pc.toNat
  refine ⟨_, ?_, hctx.trans (ctx_turned_eq s t), hstopped, hmem, fun k hk => (hothers k hk).trans ?_, hcnt⟩
  · rw [exec_bundleIssue hissue hraised, hgo, raisedDoubts_of_none (by rw [hhkc]; exact hraised)]
  · simp [turned, hk]

/-! ### The statement -/

theorem opcode_lt_of_all {l : List (Nat × Instr)} (h : l.all (fun x => decide (x.1 < 64)) = true) {x : Nat × Instr}
    (hx : x ∈ l) : x.1 < 64 := of_decide_eq_true (List.all_eq_true.mp h x hx)

theorem bundleFetch_holds : bundleFetch := by
  intro s t p g rd ra rb rd2 ra2 rb2 md im i18 target low c pc word r i l at_ runs hissue hraised hpart hp
  refine ⟨fun hfetch => ⟨fun x hx unit hunit hword => ?_, fun x hx hword => ?_, fun x hx hword => ?_,
    fun x hx hword => ?_, fun unit opc hundef hopc hword => ?_⟩, fun hfetch hg hmd hfirst hsecond => ?_, fun hnot hword => ?_⟩
  · exact exec_bundleIssue_row hissue hraised hpart hfetch (by omega) (opcode_lt_of_all rfl hx) (aluOperands_lt ..)
      (aluRows_issue t g rd ra rb md im i18 hunit x hx) hword
  · exact exec_bundleIssue_row hissue hraised hpart hfetch (by decide) (opcode_lt_of_all rfl hx) (operandsR_lt ..)
      (decimalRows_issue t g rd ra rb md x hx) hword
  · exact exec_bundleIssue_row hissue hraised hpart hfetch (by decide) (opcode_lt_of_all rfl hx) (memOperands_lt ..)
      (memoryRows_issue t g rd ra rb md im x hx) hword
  · exact exec_bundleIssue_row hissue hraised hpart hfetch (by decide) (opcode_lt_of_all rfl hx) (branchOperands_lt ..)
      (branchRows_issue t g rd ra rb md target x hx) hword
  · have hword' : at_ pc = sylWord true g unit opc low.toNat := hword.trans (sylWord_true ..).symm
    have hexec := exec_bundleIssue_undef hissue hraised hpart hfetch hword' (stop_sylWord (by omega) hopc low.isLt)
      (sylDecode_undef hopc low.isLt hundef)
    obtain ⟨hctx, hmem, -, -, -, hcnt⟩ := undef_issued hpart
    exact ⟨_, hexec, hctx, hmem, hcnt⟩
  · subst hg hmd
    refine exec_bundleIssue_two hissue hraised hpart rd ra rb rd2 ra2 rb2 hfetch (hfirst.trans ?_) (hsecond.trans ?_)
    · exact congrArg (BitVec.ofNat 36) (by simp [r, operandsR])
    · exact congrArg (BitVec.ofNat 36) (by simp [operandsR]; omega)
  · exact exec_bundleIssue_not hissue hraised hpart hp (hword.trans (sylWord_true ..).symm)
      (stop_sylWord (by decide) (by decide) (by decide)) hnot

/-- Settles O38: every row's word decodes to the syllable of its command, and a syllable that is no routine meets no doubt
source. -/
theorem bundleMachine : Obligations.BundleMachine := ⟨nopForms_holds, bundleFetch_holds⟩

end Sys2Proof.Machine
end

section
/-! PROOFS. Within a routine (10 R211 to R219): what its commands leave as it was when it began, so that each of them finds
the same segments, the same records and the same registers. -/

namespace Sys2Proof.Machine

open Sys2Proof.Claim

variable {s u v : State} {t : Thr} {g : Gd} {k off n sp a : Nat} {need : Need} {spaces : List Nat}

/-- Only what the commands of a routine touch differs: threads, packet SRAM and HBM, the free draws, the register file, the
Halter and monitors. -/
def OnlyRoutine (s u : State) : Prop :=
  ∃ fresh regs dev threads hlt dbg, u = { s with
    fresh := fresh, regs := regs, mem := { s.mem with dev := dev }, thr := { s.thr with threads := threads },
    hlt := hlt, dbg := dbg }

theorem OnlyRoutine.refl (s : State) : OnlyRoutine s s := ⟨_, _, _, _, _, _, rfl⟩

theorem OnlyRoutine.trans (h1 : OnlyRoutine s u) (h2 : OnlyRoutine u v) : OnlyRoutine s v := by
  obtain ⟨_, _, _, _, _, _, rfl⟩ := h1
  obtain ⟨_, _, _, _, _, _, rfl⟩ := h2
  exact ⟨_, _, _, _, _, _, rfl⟩

/-- MCS_STAT of the thread's core, where a fetch of a microword counts the errors it corrects (10 R210). -/
def errorReg (t : Thr) : Nat := 0x70800 + 4 * (t.toNat / 16)

/-- From `u`, thread `t` has changed only what a routine changes of itself. -/
structure Moved (t : Thr) (u v : State) : Prop where
  only : OnlyRoutine u v
  dev : ∀ o, o ≠ errorReg t → rdDev v o = rdDev u o
  self : thr v t.toNat = { thr u t.toNat with
    ctx := (thr v t.toNat).ctx, inWait := (thr v t.toNat).inWait, skipBp := (thr v t.toNat).skipBp,
    routine := (thr v t.toNat).routine }
  ctx : (thr v t.toNat).ctx = { (thr u t.toNat).ctx with
    pc := (thr v t.toNat).ctx.pc, pg := (thr v t.toNat).ctx.pg, win := (thr v t.toNat).ctx.win,
    ca := (thr v t.toNat).ctx.ca, micro := (thr v t.toNat).ctx.micro }

theorem Moved.refl (t : Thr) (u : State) : Moved t u u := ⟨.refl u, fun _ _ => rfl, rfl, rfl⟩

theorem Moved.trans (h1 : Moved t s u) (h2 : Moved t u v) : Moved t s v := by
  obtain ⟨honly1, hdev1, hself1, hctx1⟩ := h1
  obtain ⟨honly2, hdev2, hself2, hctx2⟩ := h2
  refine ⟨honly1.trans honly2, fun o ho => (hdev2 o ho).trans (hdev1 o ho), ?_, ?_⟩
  · rw [hself1] at hself2
    exact hself2
  · rw [hctx1] at hctx2
    exact hctx2

/-! ### What each step of a command moves -/

theorem Ctx.turn_of_late {c : Ctx} (h : c.late = []) : c.turn = c := by
  unfold Ctx.turn
  rw [h]
  obtain ⟨_, _, _, _, _, _, _, _, _, _, _, _, _, _, _⟩ := c
  exact congrArg (Ctx.mk _ _ _ _ _ _ _ _ _ _ _ · _ _ _) h.symm

/-- Issue, once the turn has passed. -/
theorem moved_issuing (s : State) (t : Thr) : Moved t (turned s t) (issuing s t.toNat 1) := by
  refine ⟨⟨_, _, _, _, _, _, issuing_frame s t⟩, fun o _ => ?_, ?_, ?_⟩
  · rw [issuing_frame]
    rfl
  · simp [thr_issued, turned, ctxNow]
  · rw [thr_issued, ctx_turned_eq]

/-- A thread without late results finds itself as it was when its turn has passed. -/
theorem moved_turned (h : (thr u t.toNat).ctx.late = []) : Moved t u (turned u t) := by
  have hctx : (thr (turned u t) t.toNat).ctx = (thr u t.toNat).ctx := by
    rw [ctx_turned_eq, ctxNow, Ctx.turn_of_late h]
  refine ⟨⟨_, _, _, _, _, _, rfl⟩, fun _ _ => rfl, ?_, ?_⟩
  · simp [turned]
  · rw [hctx]

theorem moved_microFetched (u : State) (t : Thr) : Moved t u (microFetched u t.toNat) :=
  ⟨⟨_, _, _, _, _, _, rfl⟩, fun _ ho => rdDev_wrDev_ne ho, rfl, rfl⟩

theorem moved_mcsThr (u : State) (t : Thr) (k : Nat) : Moved t u (mcsThr u t.toNat k) := by
  refine ⟨⟨_, _, _, _, _, _, mcsThr_frame ..⟩, fun o _ => ?_, ?_, ?_⟩
  · rw [mcsThr_frame]
    rfl
  · rw [thr_mcsThr]
  · rw [thr_mcsThr]

/-- A change of the thread's own context and routine. -/
theorem moved_updThr {f : Thread → Thread} {c : Ctx} {r : Option MicroRun}
    (hf : f (thr u t.toNat) = { thr u t.toNat with ctx := c, routine := r })
    (hc : c = { (thr u t.toNat).ctx with pc := c.pc, pg := c.pg, win := c.win, ca := c.ca, micro := c.micro }) :
    Moved t u (updThr u t.toNat f) := by
  have hself : thr (updThr u t.toNat f) t.toNat = { thr u t.toNat with ctx := c, routine := r } := by
    rw [thr_updThr, if_pos rfl, hf]
  refine ⟨⟨_, _, _, _, _, _, rfl⟩, fun _ _ => rfl, ?_, ?_⟩
  · rw [hself]
  · rw [hself]
    exact hc

theorem moved_devWrite (h : u.mem.poison = []) (a : Nat) (l : List Octet) : Moved t u (devWrite u a l) := by
  rw [devWrite_of_clean h]
  exact ⟨⟨_, _, _, _, _, _, rfl⟩, fun _ _ => rfl, rfl, rfl⟩

/-! ### What a routine's later commands find -/

section
variable (h : Moved t u v)
include h

theorem Moved.regs : (thr v t.toNat).ctx.regs = (thr u t.toNat).ctx.regs := by rw [h.ctx]
theorem Moved.sels : (thr v t.toNat).ctx.sels = (thr u t.toNat).ctx.sels := by rw [h.ctx]
theorem Moved.preds : (thr v t.toNat).ctx.preds = (thr u t.toNat).ctx.preds := by rw [h.ctx]
theorem Moved.late : (thr v t.toNat).ctx.late = (thr u t.toNat).ctx.late := by rw [h.ctx]
theorem Moved.task : (thr v t.toNat).ctx.task = (thr u t.toNat).ctx.task := by rw [h.ctx]

theorem Moved.raised : v.hkc = u.hkc := by
  obtain ⟨_, _, _, _, _, _, hv⟩ := h.only
  rw [hv]

theorem Moved.poison : v.mem.poison = u.mem.poison := by
  obtain ⟨_, _, _, _, _, _, hv⟩ := h.only
  rw [hv]

theorem Moved.clusterOwner : clusterOwner v (t.toNat / 128) = clusterOwner u (t.toNat / 128) := by
  have ht := t.isLt
  rw [Machine.clusterOwner, Machine.clusterOwner, h.dev _ (by unfold errorReg; omega)]

theorem Moved.thrPart : thrPart v t.toNat = thrPart u t.toNat := h.clusterOwner

theorem Moved.segOf (sel : Nat) : segOf v t.toNat sel = segOf u t.toNat sel := by
  have htask : thrTask v t.toNat = thrTask u t.toNat := h.task
  have hpart := h.thrPart
  obtain ⟨_, _, _, _, _, _, hv⟩ := h.only
  have htaskSt : taskSt v = taskSt u := by rw [hv]; rfl
  have hsegs : segEnt v = segEnt u := by rw [hv]; rfl
  unfold Machine.segOf
  rw [htask, hpart, htaskSt, hsegs]

theorem Moved.accessCheck (k : Nat) (spaces : List Nat) (need : Need) (off n : Nat) :
    accessCheck v t.toNat k spaces need off n = accessCheck u t.toNat k spaces need off n := by
  unfold Machine.accessCheck Ctx.sel
  dsimp only
  rw [h.sels, h.segOf]

theorem Moved.recordAt (a : Nat) : recordAt v a = recordAt u a := by
  have hbase : ∀ o, o < 0x60000 → hbmBase v o = hbmBase u o := fun o ho => by
    rw [hbmBase, hbmBase, fld, fld, h.dev o (by unfold errorReg; omega)]
  obtain ⟨_, _, _, _, _, _, hv⟩ := h.only
  have htbl : v.tbl = u.tbl := by rw [hv]
  have hstf : v.stf = u.stf := by rw [hv]
  have hshort : shortEntry v = shortEntry u := by rw [hv]; rfl
  have hring : ringRecord v = ringRecord u := by rw [hv]; rfl
  have hroutes : List.range 4 = [0, 1, 2, 3] := rfl
  unfold Machine.recordAt
  simp only [hroutes, List.findSome?_cons, List.findSome?_nil, htbl, hstf, hring, hshort, hbase 0x50010 (by decide),
    hbase 0x50014 (by decide), hbase 0x50018 (by decide), hbase 0x5001C (by decide), hbase 0x50020 (by decide),
    hbase 0x40004 (by decide), hbase 0x40008 (by decide), hbase (0x50050 + 4 * 0) (by decide),
    hbase (0x50050 + 4 * 1) (by decide), hbase (0x50050 + 4 * 2) (by decide), hbase (0x50050 + 4 * 3) (by decide)]

theorem Moved.mregs : (microStore v t.toNat).mregs = (microStore u t.toNat).mregs := by
  obtain ⟨_, _, _, _, _, _, hv⟩ := h.only
  rw [hv]
  rfl

theorem Moved.thrLive : thrLive v t.toNat = thrLive u t.toNat := by
  have ht := t.isLt
  rw [Machine.thrLive, Machine.thrLive, h.clusterOwner, clusterEn, clusterEn, flag, flag,
    h.dev _ (by unfold errorReg; omega)]

theorem Moved.thrStopped : thrStopped v t.toNat = thrStopped u t.toNat := by
  have hinReset : inReset v = inReset u := by
    unfold inReset
    rw [h.raised]
  have hinBolt : inBolt v = inBolt u := by
    unfold inBolt
    rw [h.raised]
  unfold Machine.thrStopped thrOff
  rw [h.thrLive, h.thrPart, hinReset, hinBolt]

/-- A thread that may issue outside a routine may issue the next command of one. -/
theorem Moved.canIssueBundle (hissue : canIssueBundle u t.toNat = true) (hroutine : (thr u t.toNat).routine = none) :
    canIssueBundle v t.toNat = true := by
  have hself := h.self
  have hstopped := h.thrStopped
  have hheld : coreHeld v = coreHeld u := by
    obtain ⟨_, _, _, _, _, _, hv⟩ := h.only
    rw [hv]
    rfl
  have hbound : inBoundary u t.toNat = false := by
    unfold inBoundary
    rw [hroutine]
    rfl
  unfold Machine.canIssueBundle at hissue ⊢
  rw [hbound] at hissue
  rw [hself, hstopped, hheld]
  simp only [Bool.or_false, Bool.false_and, Bool.and_eq_true] at hissue ⊢
  obtain ⟨⟨⟨⟨hmode, hhalted⟩, hasync⟩, hfetch⟩, hstop⟩ := hissue
  simp [hmode, hhalted, hasync, hfetch, hstop]

end

end Sys2Proof.Machine
end

section
/-! PROOFS. A routine from its first command to its last (10 R211 to R219): a chunk of at most 512 units at each command. -/

namespace Sys2Proof.Machine

open Sys2Proof.Claim

variable {s u v b : State} {t : Thr} {g : Gd} {p : MicroPlan} {pc : BitVec 16} {r : MicroRun} {d n : Nat}

/-! ### PG -/

theorem toNat_pgWord (hd : d < 32768) (pc : BitVec 16) : (pgWord d pc).toNat = d + 2 ^ 15 + pc.toNat * 2 ^ 16 := by
  have hpc := pc.isLt
  rw [pgWord, BitVec.toNat_ofNat, Nat.mod_eq_of_lt (by omega)]

/-- PG names the bundle at `pc`, and the units done. -/
theorem pgWord_names (hd : d < 32768) (pc : BitVec 16) : bitOf (pgWord d pc).toNat 15 = true ∧
    bitsOf (pgWord d pc).toNat 31 16 = pc.toNat ∧ (pgWord d pc).toNat % 32768 = d := by
  have hpc := pc.isLt
  rw [toNat_pgWord hd]
  refine ⟨?_, ?_, ?_⟩
  · rw [bitOf_eq, Nat.testBit_eq_decide_div_mod_eq, decide_eq_true_iff]
    omega
  · unfold bitsOf
    omega
  · omega

/-! ### One chunk -/

/-- The microwords of a core that redirects nothing sequence without error (10 R219; log entry 108). -/
theorem microSeq_of_rom (h : (microStore s t.toNat).mregs = []) (r : MicroRun) :
    ∃ r', microSeq s t.toNat r = some r' ∧ r'.down = r.down := by
  unfold microSeq
  dsimp only
  split
  · exact ⟨_, rfl, rfl⟩
  · exact ⟨_, rfl, rfl⟩
  · exact ⟨_, if_pos h, rfl⟩

/-- The state a chunk leaves: the routine completes, or PG and PC stand for the next command. -/
def chunkEnd (p : MicroPlan) (t : Thr) (pc : BitVec 16) (r : MicroRun) (d : Nat) (v : State) : State :=
  if p.len ≤ d then microDone v t.toNat
  else updThr v t.toNat (fun x => { x with routine := some r, ctx := { x.ctx with pg := pgWord d pc, pc := pc } })

theorem microChunk_of_ok {l : List (Nat × Nat)} (hmregs : (microStore b t.toNat).mregs = [])
    (hcheck : microCheck (microFetched b t.toNat) t.toNat
      (if r.down then p.len - d - min 512 (p.len - d) else d) (min 512 (p.len - d)) p.accs = .ok l)
    (hgood : p.bad (microFetched b t.toNat) l (min 512 (p.len - d)) = false) :
    ∃ r', r'.down = r.down ∧ microChunk p t.toNat pc r d b =
      chunkEnd p t pc r' (d + min 512 (p.len - d)) (p.commit (microFetched b t.toNat) l (min 512 (p.len - d))) := by
  obtain ⟨r', hseq, hdown⟩ := microSeq_of_rom (s := microFetched b t.toNat) hmregs r
  refine ⟨r', hdown, ?_⟩
  rw [← hdown] at hcheck
  unfold microChunk
  dsimp only
  rw [hseq]
  dsimp only
  rw [hcheck]
  dsimp only
  rw [hgood]
  rfl

/-- What a chunk commits: octets of the window, packet SRAM or HBM, or the CRC accumulator. -/
structure Commits (t : Thr) (b v : State) : Prop where
  moved : Moved t b v
  self : thr v t.toNat = { thr b t.toNat with
    ctx := { (thr b t.toNat).ctx with win := (thr v t.toNat).ctx.win, ca := (thr v t.toNat).ctx.ca } }

/-- The data a routine works on are the same. -/
structure SameData (t : Thr) (u v : State) : Prop where
  dev : v.mem.dev = u.mem.dev
  win : (thr v t.toNat).ctx.win = (thr u t.toNat).ctx.win
  ca : (thr v t.toNat).ctx.ca = (thr u t.toNat).ctx.ca

/-- A chunk of the routine that thread `t` began in `s` is due: `d` units are done. -/
structure Under (s : State) (t : Thr) (m : Option Micro) (down : Bool) (d : Nat) (u : State) : Prop where
  moved : Moved t (turned s t) u
  pc : (thr u t.toNat).ctx.pc = (ctxNow s t).pc
  pg : (thr u t.toNat).ctx.pg = pgWord d (ctxNow s t).pc
  micro : (thr u t.toNat).ctx.micro = m
  routine : ∃ r, (thr u t.toNat).routine = some r ∧ r.down = down

/-- The routine is complete: PG is 0 and PC is past the bundle. -/
structure Completed (s : State) (t : Thr) (u : State) : Prop where
  moved : Moved t (turned s t) u
  pc : (thr u t.toNat).ctx.pc = (ctxNow s t).pc + 1
  pg : (thr u t.toNat).ctx.pg = 0
  routine : (thr u t.toNat).routine = none

theorem thr_microDone (v : State) (t : Thr) : thr (microDone v t.toNat) t.toNat =
    { thr v t.toNat with routine := none, ctx := { (thr v t.toNat).ctx with pg := 0, micro := none } } := by
  rw [microDone, thr_mcsThr, thr_updThr, if_pos rfl]

theorem moved_microDone (v : State) (t : Thr) : Moved t v (microDone v t.toNat) :=
  (moved_updThr rfl rfl).trans (moved_mcsThr ..)

theorem moved_chunkEnd (p : MicroPlan) (t : Thr) (pc : BitVec 16) (r : MicroRun) (d : Nat) (v : State) :
    Moved t v (chunkEnd p t pc r d v) := by
  unfold chunkEnd
  split
  · exact moved_microDone v t
  · exact moved_updThr rfl rfl

theorem sameData_chunkEnd (p : MicroPlan) (t : Thr) (pc : BitVec 16) (r : MicroRun) (d : Nat) (v : State) :
    SameData t v (chunkEnd p t pc r d v) := by
  unfold chunkEnd
  split
  · refine ⟨?_, ?_, ?_⟩
    · rw [microDone, mcsThr_frame]
      rfl
    · rw [thr_microDone]
    · rw [thr_microDone]
  · exact ⟨rfl, by rw [thr_updThr, if_pos rfl], by rw [thr_updThr, if_pos rfl]⟩

theorem sameData_microFetched (u : State) (t : Thr) : SameData t u (microFetched u t.toNat) := ⟨rfl, rfl, rfl⟩

/-- The thread stands past the bundle, and a chunk is about to run. -/
structure Ready (s : State) (t : Thr) (m : Option Micro) (w : State) : Prop where
  moved : Moved t (turned s t) w
  pc : (thr w t.toNat).ctx.pc = (ctxNow s t).pc + 1
  micro : (thr w t.toNat).ctx.micro = m
  routine : (thr w t.toNat).routine = none

theorem under_chunkEnd {m : Option Micro} (hmoved : Moved t (turned s t) v) (hmicro : (thr v t.toNat).ctx.micro = m)
    (hlt : d < p.len) : Under s t m r.down d (chunkEnd p t (ctxNow s t).pc r d v) := by
  have hself : thr (chunkEnd p t (ctxNow s t).pc r d v) t.toNat = { thr v t.toNat with
      routine := some r, ctx := { (thr v t.toNat).ctx with pg := pgWord d (ctxNow s t).pc, pc := (ctxNow s t).pc } } := by
    rw [chunkEnd, if_neg (by omega), thr_updThr, if_pos rfl]
  refine ⟨hmoved.trans (moved_chunkEnd ..), ?_, ?_, ?_, r, ?_, rfl⟩
  · rw [hself]
  · rw [hself]
  · rw [hself]
    exact hmicro
  · rw [hself]

theorem completed_chunkEnd {m : Option Micro} (hready : Ready s t m v) (hle : p.len ≤ d) :
    Completed s t (chunkEnd p t pc r d v) := by
  have hself : thr (chunkEnd p t pc r d v) t.toNat =
      { thr v t.toNat with routine := none, ctx := { (thr v t.toNat).ctx with pg := 0, micro := none } } := by
    rw [chunkEnd, if_pos hle, thr_microDone]
  refine ⟨hready.moved.trans (moved_chunkEnd ..), ?_, ?_, ?_⟩
  · rw [hself]
    exact hready.pc
  · rw [hself]
  · rw [hself]

theorem Ready.fetched {m : Option Micro} (h : Ready s t m u) : Ready s t m (microFetched u t.toNat) :=
  ⟨h.moved.trans (moved_microFetched u t), h.pc, h.micro, h.routine⟩

theorem Ready.commits {m : Option Micro} (h : Ready s t m u) (hc : Commits t u v) : Ready s t m v := by
  obtain ⟨hmoved, hself⟩ := hc
  refine ⟨h.moved.trans hmoved, ?_, ?_, ?_⟩
  · rw [hself]
    exact h.pc
  · rw [hself]
    exact h.micro
  · rw [hself]
    exact h.routine

/-- What a routine does to the data, a chunk at a time: `P d` says where the data stand when `d` units are done. -/
structure Works (s : State) (t : Thr) (p : MicroPlan) (down : Bool) (P : Nat → State → Prop) : Prop where
  pos : 0 < p.len
  max : p.len ≤ 16384
  begins : P 0 (turned s t)
  same : ∀ d u v, Moved t u v → SameData t u v → P d u → P d v
  chunk : ∀ d b, d < p.len → Moved t (turned s t) b → P d b →
    ∃ l, microCheck b t.toNat (if down then p.len - d - min 512 (p.len - d) else d) (min 512 (p.len - d)) p.accs = .ok l ∧
      p.bad b l (min 512 (p.len - d)) = false ∧ Commits t b (p.commit b l (min 512 (p.len - d))) ∧
      P (d + min 512 (p.len - d)) (p.commit b l (min 512 (p.len - d)))

/-- The command `i` runs the chunks of the plan `p` for thread `t`, beginning in `s`. -/
structure RunsChunks (s : State) (t : Thr) (i : Instr) (p : MicroPlan) (m : Option Micro) (down : Bool) : Prop where
  first : ∃ r w, exec i s = .next (raisedDoubts (microChunk p t.toNat (ctxNow s t).pc r 0 w)) ∧ r.down = down ∧
    Ready s t m w ∧ SameData t (turned s t) w
  later : ∀ d u, d < 16384 → Under s t m down d u →
    ∃ r w, exec i u = .next (raisedDoubts (microChunk p t.toNat (ctxNow s t).pc r d w)) ∧ r.down = down ∧
      Ready s t m w ∧ Moved t u w ∧ SameData t u w

section
variable {i : Instr} {m : Option Micro} {down : Bool} {P : Nat → State → Prop} (hworks : Works s t p down P)
  (hmregs : (microStore s t.toNat).mregs = []) (hraised : s.hkc.raised = [])
include hworks hmregs hraised

/-- A chunk does its part of the work. -/
theorem chunk_of_ready (hready : Ready s t m b) (hP : P d b) (hdown : r.down = down) (hlt : d < p.len) :
    ∃ v, raisedDoubts (microChunk p t.toNat (ctxNow s t).pc r d b) = v ∧
      (p.len ≤ d + 512 → Completed s t v ∧ P p.len v) ∧
      (d + 512 < p.len → Under s t m down (d + 512) v ∧ P (d + 512) v) := by
  have hfetched := hready.fetched
  obtain ⟨l, hcheck, hgood, hcommits, hP'⟩ := hworks.chunk d _ hlt hfetched.moved
    (hworks.same d _ _ (moved_microFetched b t) (sameData_microFetched b t) hP)
  subst hdown
  obtain ⟨r', hdown', hchunk⟩ := microChunk_of_ok (pc := (ctxNow s t).pc) (hready.moved.mregs.trans hmregs) hcheck hgood
  have hready' := hfetched.commits hcommits
  refine ⟨_, rfl, ?_⟩
  rw [hchunk]
  have hend := moved_chunkEnd p t (ctxNow s t).pc r' (d + min 512 (p.len - d))
    (p.commit (microFetched b t.toNat) l (min 512 (p.len - d)))
  have hPend := hworks.same _ _ _ hend (sameData_chunkEnd ..) hP'
  rw [raisedDoubts_of_none (by rw [(hready'.moved.trans hend).raised]; exact hraised)]
  refine ⟨fun hlast => ?_, fun hmore => ?_⟩
  · have hall : d + min 512 (p.len - d) = p.len := by omega
    rw [hall] at hPend ⊢
    exact ⟨completed_chunkEnd hready' (le_refl _), hPend⟩
  · have hall : d + min 512 (p.len - d) = d + 512 := by omega
    rw [hall] at hPend ⊢
    rw [← hdown']
    exact ⟨under_chunkEnd hready'.moved hready'.micro hmore, hPend⟩

/-- From a command on, the routine takes one command for each 512 units left. -/
theorem times_of_under (hruns : RunsChunks s t i p m down) (k : Nat) :
    ∀ d u, Under s t m down d u → P d u → d < p.len → (p.len - d + 511) / 512 = k →
      ∃ v, Times i k u v ∧ Completed s t v ∧ P p.len v := by
  induction k with
  | zero =>
    intro d u _ _ hlt hk
    omega
  | succ k ih =>
    intro d u hunder hP hlt hk
    have hmax := hworks.max
    obtain ⟨r, w, hexec, hdown, hready, hmoved, hsame⟩ := hruns.later d u (by omega) hunder
    obtain ⟨v, hv, hlast, hmore⟩ :=
      chunk_of_ready hworks hmregs hraised hready (hworks.same d _ _ hmoved hsame hP) hdown hlt
    rw [hv] at hexec
    by_cases hend : p.len ≤ d + 512
    · obtain rfl : k = 0 := by omega
      exact ⟨v, ⟨v, hexec, rfl⟩, hlast hend⟩
    · obtain ⟨hunder', hP'⟩ := hmore (by omega)
      obtain ⟨x, htimes, hx⟩ := ih (d + 512) v hunder' hP' (by omega) (by omega)
      exact ⟨x, ⟨v, hexec, htimes⟩, hx⟩

/-- A routine completes after one command for each 512 units. -/
theorem times_of_runsChunks (hruns : RunsChunks s t i p m down) :
    ∃ v, Times i ((p.len + 511) / 512) s v ∧ Completed s t v ∧ P p.len v := by
  have hpos := hworks.pos
  obtain ⟨r, w, hexec, hdown, hready, hsame⟩ := hruns.first
  obtain ⟨v, hv, hlast, hmore⟩ :=
    chunk_of_ready hworks hmregs hraised hready (hworks.same 0 _ _ hready.moved hsame hworks.begins) hdown hpos
  rw [hv] at hexec
  obtain ⟨k, hk⟩ : ∃ k, (p.len + 511) / 512 = k + 1 := ⟨(p.len + 511) / 512 - 1, by omega⟩
  rw [hk]
  by_cases hend : p.len ≤ 512
  · obtain rfl : k = 0 := by omega
    exact ⟨v, ⟨v, hexec, rfl⟩, hlast (by omega)⟩
  · obtain ⟨hunder, hP⟩ := hmore (by omega)
    obtain ⟨x, htimes, hx⟩ := times_of_under hworks hmregs hraised hruns k (0 + 512) v hunder hP (by omega) (by omega)
    exact ⟨x, ⟨v, hexec, htimes⟩, hx⟩

end

/-! ### The commands of a routine's syllable -/

section
variable {op : Nat} {plan : State → Bool → MicroPlan} {begin_ : State → Ctx → Ctx} {i : Instr} {m : Option Micro}
  {down : Bool} {l : List (Nat × Nat)}

/-- A routine that PG does not name begins once its whole range is granted. -/
theorem fx_microSyl_begin (hroutine : (thr u t.toNat).routine = none) (hpg : (thr u t.toNat).ctx.pg.getLsbD 15 = false)
    (hplan : plan u false = p) (hlen : p.len ≠ 0) (hmax : p.len ≤ 16384)
    (hcheck : microCheck u t.toNat 0 p.len p.accs = .ok l) :
    (microSyl t g op plan begin_).fx u =
      { run := fun w => microChunk p t.toNat (thr u t.toNat).ctx.pc { upc := Config.microEntry op, down := p.down l } 0
          (updCtx w t.toNat (begin_ u)) } := by
  have hbit : bitOf (thr u t.toNat).ctx.pg.toNat 15 = false := (bitOf_eq _ _).trans hpg
  unfold microSyl
  dsimp only
  rw [hbit, Bool.false_and, hplan, if_neg hlen, if_neg (by omega), hroutine]
  dsimp only
  rw [hcheck]
  rfl

/-- A routine that is under way goes on from what PG says is done. -/
theorem fx_microSyl_again (hroutine : (thr u t.toNat).routine = some r)
    (hpg : (thr u t.toNat).ctx.pg = pgWord d (thr u t.toNat).ctx.pc) (hd : d < 16384) (hplan : plan u true = p)
    (hlen : p.len ≠ 0) (hmax : p.len ≤ 16384) :
    (microSyl t g op plan begin_).fx u = { run := microChunk p t.toNat (thr u t.toNat).ctx.pc r d } := by
  obtain ⟨hbit, hbundle, hdone⟩ := pgWord_names (show d < 32768 by omega) (thr u t.toNat).ctx.pc
  unfold microSyl
  dsimp only
  rw [hpg, hbit, hbundle, decide_eq_true rfl, Bool.true_and, hplan, if_neg hlen, if_neg (by omega), hroutine, if_pos rfl,
    hdone]

theorem canIssueBundle_turned (s : State) (t : Thr) : canIssueBundle (turned s t) t.toNat = canIssueBundle s t.toNat := by
  have hself : thr (turned s t) t.toNat = { thr s t.toNat with ctx := ctxNow s t } := by simp [turned, ctxNow]
  unfold canIssueBundle inBoundary
  rw [hself]
  rfl

/-- The commands of a routine's bundle run its chunks. -/
theorem runsChunks_of_microSyl
    (hexec : ∀ u, exec i u = .next (raisedDoubts (issueOne (noDoubts u) t (microSyl t g op plan begin_))))
    (hruns : Runs s t g) (hraised : s.hkc.raised = []) (hpg : (ctxNow s t).pg.getLsbD 15 = false)
    (hlate : (ctxNow s t).late = []) (hlen : p.len ≠ 0) (hmax : p.len ≤ 16384) (hfirst : plan (turned s t) false = p)
    (hlater : ∀ u, Moved t (turned s t) u → (thr u t.toNat).ctx.micro = m → plan u true = p)
    (hbegin : ∀ c, c.micro = (ctxNow s t).micro → begin_ (turned s t) c = { c with micro := m })
    (hcheck : microCheck (turned s t) t.toNat 0 p.len p.accs = .ok l) (hdown : p.down l = down) :
    RunsChunks s t i p m down := by
  obtain ⟨⟨hissue, hbreak, hstep, hroutine⟩, hon⟩ := hruns
  have hctx := ctx_turned_eq s t
  refine ⟨?_, fun d u hd hunder => ?_⟩
  · have hfx := fx_microSyl_begin (t := t) (g := g) (op := op) (begin_ := begin_) (u := turned s t)
      (by simpa [turned] using hroutine) (by rw [hctx]; exact hpg) hfirst hlen hmax hcheck
    have hrun := issueOne_run (x := microSyl t g op plan begin_) hissue hbreak hstep rfl hon hfx rfl rfl
    rw [hctx] at hrun
    have hbegun : begin_ (turned s t) (thr (issuing s t.toNat 1) t.toNat).ctx =
        { (thr (issuing s t.toNat 1) t.toNat).ctx with micro := m } := hbegin _ (by rw [thr_issued])
    have hself : thr (updCtx (issuing s t.toNat 1) t.toNat (begin_ (turned s t))) t.toNat =
        { thr (issuing s t.toNat 1) t.toNat with ctx := { (thr (issuing s t.toNat 1) t.toNat).ctx with micro := m } } := by
      rw [thr_updCtx, if_pos rfl, hbegun]
    refine ⟨{ upc := Config.microEntry op, down := p.down l },
      updCtx (issuing s t.toNat 1) t.toNat (begin_ (turned s t)), ?_, hdown, ⟨?_, ?_, ?_, ?_⟩, ⟨?_, ?_, ?_⟩⟩
    · rw [hexec, noDoubts_of_none hraised, hrun]
      rfl
    · exact (moved_issuing s t).trans (moved_updThr (r := (thr (issuing s t.toNat 1) t.toNat).routine)
        (congrArg (fun c => { thr (issuing s t.toNat 1) t.toNat with ctx := c }) hbegun) rfl)
    · rw [hself, thr_issued]
    · rw [hself]
    · rw [hself, thr_issued]
    · rw [show (updCtx (issuing s t.toNat 1) t.toNat (begin_ (turned s t))).mem = (issuing s t.toNat 1).mem from rfl,
        issuing_mem]
      rfl
    · rw [hself, thr_issued, hctx]
    · rw [hself, thr_issued, hctx]
  · obtain ⟨hmoved, hpc, hpg', hmicro, r, hr, hrdown⟩ := hunder
    have hlate' : (thr u t.toNat).ctx.late = [] := by rw [hmoved.late, hctx, hlate]
    have hturned : ctxNow u t = (thr u t.toNat).ctx := by rw [ctxNow, Ctx.turn_of_late hlate']
    have hmoved' := moved_turned (t := t) hlate'
    have hself : thr (turned u t) t.toNat = { thr u t.toNat with ctx := (thr u t.toNat).ctx } := by
      simp [turned, Ctx.turn_of_late hlate']
    have hctx' : (thr (turned u t) t.toNat).ctx = (thr u t.toNat).ctx := by rw [hself]
    have hissue' : canIssueBundle u t.toNat = true :=
      hmoved.canIssueBundle (by rw [canIssueBundle_turned, hissue]) (by simpa [turned] using hroutine)
    have hbreak' : breakpoint u t.toNat = none := by
      unfold breakpoint
      rw [hr, Option.isSome_some, Bool.or_true, if_pos rfl]
    have hstep' : (thr u t.toNat).stepping = false := by
      rw [hmoved.self]
      simpa [turned] using hstep
    have hon' : guardOn (ctxNow u t) g = true := by
      rw [hturned, guardOn, Ctx.pd, hmoved.preds, hctx]
      exact hon
    have hfx := fx_microSyl_again (t := t) (g := g) (op := op) (plan := plan) (begin_ := begin_) (u := turned u t)
      (r := r) (d := d) (p := p) (by rw [hself]; exact hr) (by rw [hctx', hpg', hpc]) hd
      (hlater _ (hmoved.trans hmoved') (by rw [hctx', hmicro])) hlen hmax
    have hrun := issueOne_run (x := microSyl t g op plan begin_) hissue' hbreak' hstep' rfl hon' hfx rfl rfl
    rw [hctx', hpc] at hrun
    refine ⟨r, issuing u t.toNat 1, ?_, hrdown, ⟨?_, ?_, ?_, ?_⟩, ?_, ⟨?_, ?_, ?_⟩⟩
    · rw [hexec, noDoubts_of_none (by rw [hmoved.raised]; exact hraised), hrun]
      rfl
    · exact hmoved.trans (hmoved'.trans (moved_issuing u t))
    · rw [thr_issued, hturned, hpc]
    · rw [thr_issued, hturned, hmicro]
    · rw [thr_issued]
    · exact hmoved'.trans (moved_issuing u t)
    · rw [issuing_mem]
    · rw [thr_issued, hturned]
    · rw [thr_issued, hturned]

end

end Sys2Proof.Machine
end

section
/-! PROOFS. The octets a routine reads and writes: the window, packet SRAM and HBM (09 R203). -/

namespace Sys2Proof.Machine

open Sys2Proof.Claim

variable {s u v b : State} {t : Thr} {d m n lo k off sp sq a p : Nat} {need : Need} {l : List Octet} {F : Nat → Octet}
  {down w : Bool}

/-- An octet of the window of thread `t`, or of packet SRAM or HBM as it reads it. -/
def cell (u : State) (t : Thr) (w : Bool) (x : Nat) : Octet := if w then mget 0 (thr u t.toNat).ctx.win x else viewOct u x

/-- The octet spaces of these statements: packet SRAM, HBM and the window. -/
abbrev OctetSpace (sp : Nat) : Prop := sp = 3 ∨ sp = 4 ∨ sp = 6

theorem octetAt_eq_cell (h : OctetSpace sp) (u : State) (p x : Nat) :
    octetAt u t p sp x = cell u t (decide (sp = 6)) x := by
  unfold octetAt cell
  by_cases h6 : sp = 6
  · simp [h6]
  · have h5 : sp ≠ 5 := by omega
    simp [h6, h5]

theorem cell_turned (s : State) (t : Thr) (w : Bool) (x : Nat) : cell (turned s t) t w x = cell s t w x := by
  unfold cell
  rw [ctx_turned_eq, ctxNow, Ctx.turn_win]
  rfl

theorem noRecord_moved (h : Moved t u v) (x : Nat) : NoRecord v x ↔ NoRecord u x := by
  unfold NoRecord
  rw [h.recordAt]

theorem viewOct_moved (h : Moved t u v) (x : Nat) (hdev : devOct v x = devOct u x) : viewOct v x = viewOct u x := by
  unfold viewOct
  rw [h.recordAt, hdev]

/-- A record that stands at an address is read there still. -/
theorem viewOct_of_record (h : Moved t u v) {x : Nat} (hrecord : ¬ NoRecord u x) : viewOct v x = viewOct u x := by
  unfold NoRecord at hrecord
  rw [Classical.not_imp] at hrecord
  obtain ⟨hhbm, hsome⟩ := hrecord
  obtain ⟨o, ho⟩ := Option.ne_none_iff_exists'.mp hsome
  unfold viewOct
  rw [h.recordAt, if_pos hhbm, ho]
  rfl

theorem cell_sameData (h : Moved t u v) (hsame : SameData t u v) (w : Bool) (x : Nat) : cell v t w x = cell u t w x := by
  unfold cell
  rw [hsame.win, viewOct_moved h x (by rw [devOct, hsame.dev]; rfl)]

theorem readOcts_eq_cells (h : OctetSpace sp) (u : State) (a n : Nat) :
    readOcts u t.toNat sp a n = (List.range n).map (fun i => cell u t (decide (sp = 6)) (a + i)) := by
  unfold readOcts cell
  by_cases h6 : sp = 6
  · simp [h6, Ctx.winRead]
  · have h5 : sp ≠ 5 := by omega
    simp [h6, h5, viewRead]

theorem octsBad_of_clean (h : u.mem.poison = []) (sp a n : Nat) : octsBad u sp a n = false := by
  simp [octsBad, devPoisoned, h]

/-! ### A store of octets -/

theorem commits_writeOcts (h : OctetSpace sp) (hclean : b.mem.poison = []) (a : Nat) (l : List Octet) :
    Commits t b (writeOcts b t.toNat sp a l) := by
  unfold writeOcts
  by_cases h6 : sp = 6
  · have hself : thr (updCtx b t.toNat (fun c => c.winWrite a l)) t.toNat =
        { thr b t.toNat with ctx := (thr b t.toNat).ctx.winWrite a l } := by rw [thr_updCtx, if_pos rfl]
    rw [if_neg (by omega), if_pos h6]
    exact ⟨moved_updThr (r := (thr b t.toNat).routine) rfl rfl, by rw [hself]; rfl⟩
  · rw [if_neg (by omega), if_neg h6, devWrite_of_clean hclean]
    refine ⟨?_, rfl⟩
    rw [← devWrite_of_clean hclean]
    exact moved_devWrite hclean a l

/-- What reads back after a store: a record of HBM that stands at an address is read there still. -/
theorem cell_writeOcts (h : OctetSpace sp) (hclean : b.mem.poison = []) (hend : sp = 6 → a + l.length ≤ 512) (w : Bool)
    (x : Nat) : cell (writeOcts b t.toNat sp a l) t w x =
      if w = decide (sp = 6) ∧ (w = true ∨ NoRecord b x) ∧ a ≤ x ∧ x < a + l.length then l.getD (x - a) 0
      else cell b t w x := by
  have hmoved := (commits_writeOcts (t := t) h hclean a l).moved
  cases w with
  | true =>
    by_cases h6 : sp = 6
    · have hwin : (thr (writeOcts b t.toNat sp a l) t.toNat).ctx = (thr b t.toNat).ctx.winWrite a l := by
        unfold writeOcts
        rw [if_neg (by omega), if_pos h6, thr_updCtx, if_pos rfl]
      have hput := mget_putOctets (fun a => decide (512 ≤ a)) l (thr b t.toNat).ctx.win a x
      unfold cell
      rw [hwin, if_pos rfl, if_pos rfl]
      refine hput.trans (if_congr ?_ rfl rfl)
      have := hend h6
      simp only [h6, decide_true, decide_eq_false_iff_not, true_or, true_and]
      omega
    · have hwin : (thr (writeOcts b t.toNat sp a l) t.toNat).ctx.win = (thr b t.toNat).ctx.win := by
        unfold writeOcts
        rw [if_neg (by omega), if_neg h6, devWrite_of_clean hclean]
        rfl
      unfold cell
      rw [if_pos rfl, if_pos rfl, hwin, if_neg (by simp [h6])]
  | false =>
    have hdev : devOct (writeOcts b t.toNat sp a l) x =
        if sp ≠ 6 ∧ a ≤ x ∧ x < a + l.length then l.getD (x - a) 0 else devOct b x := by
      unfold writeOcts
      rw [if_neg (show sp ≠ 5 by omega)]
      by_cases h6 : sp = 6
      · rw [if_pos h6, if_neg (fun hn => hn.1 h6)]
        rfl
      · rw [if_neg h6, devOct_devWrite hclean]
        exact if_congr (by simp [h6]) rfl rfl
    unfold cell
    simp only [Bool.false_eq_true, if_false, false_or]
    by_cases hnone : NoRecord b x
    · rw [viewOct_of_noRecord ((noRecord_moved hmoved x).mpr hnone), viewOct_of_noRecord hnone, hdev]
      refine if_congr ?_ rfl rfl
      rw [eq_comm, decide_eq_false_iff_not]
      exact and_congr_right fun _ => (and_iff_right hnone).symm
    · rw [if_neg (fun hn => hnone hn.2.1)]
      exact viewOct_of_record hmoved hnone

/-! ### The accesses of a chunk -/

/-- A segment that grants units grants any run of them. -/
theorem grants_sub (h : Grants s t k need off n sp a) (hpos : 0 < m) (hle : lo + m ≤ n) :
    Grants s t k need (off + lo) m sp (a + lo) := by
  obtain ⟨v, hv, hvalid, hp, hr, hw, hx, hh, hn, hlimit, hspace, haddr, hend⟩ := h
  exact ⟨v, hv, hvalid, hp, hr, hw, hx, hh, hpos, by omega, hspace, by omega, fun hlt => by have := hend hlt; omega⟩

theorem accessCheck_moved {spaces : List Nat} (hmoved : Moved t (turned s t) b) (h : Grants s t k need off n sp a)
    (hsp : sp ∈ spaces) : accessCheck b t.toNat k spaces need off n = ((ctxNow s t).sel k, .ok sp a) :=
  (hmoved.accessCheck k spaces need off n).trans (accessCheck_of_grants h hsp)

theorem mem_microSpaces (h : OctetSpace sp) : sp ∈ microSpaces := by
  simp only [microSpaces, spWin, spSram, spHbm, List.mem_cons, List.not_mem_nil, or_false]
  omega

/-- The check of an access to octets, over a run of its units. -/
theorem microCheck_octAcc {accs : List MicroAcc} {r : List (Nat × Nat)} (hmoved : Moved t (turned s t) b)
    (h : Grants s t k need off n sp a) (hsp : OctetSpace sp) (hpos : 0 < m) (hle : lo + m ≤ n)
    (hrest : microCheck b t.toNat lo m accs = .ok r) :
    microCheck b t.toNat lo m (octAcc k need off :: accs) = .ok ((sp, a + lo) :: r) := by
  unfold microCheck octAcc
  dsimp only
  rw [accessCheck_moved hmoved (grants_sub h hpos hle) (mem_microSpaces hsp)]
  dsimp only
  rw [hrest]

/-! ### A range rewritten -/

/-- The units of a range at `a` that are done: from its end when the routine goes down, else from its start. -/
def doneAt (down : Bool) (a n d x : Nat) : Prop := if down then a + n - d ≤ x ∧ x < a + n else a ≤ x ∧ x < a + d

/-- The first unit of the chunk that follows `d` units. -/
def chunkLo (down : Bool) (n d : Nat) : Nat := if down then n - d - min 512 (n - d) else d

theorem chunkLo_le (down : Bool) (n d : Nat) (hlt : d < n) : chunkLo down n d + min 512 (n - d) ≤ n := by
  unfold chunkLo
  split <;> omega

theorem doneAt_zero (down : Bool) (a n x : Nat) : ¬ doneAt down a n 0 x := by
  unfold doneAt
  split <;> omega

theorem doneAt_all (down : Bool) (a n x : Nat) : doneAt down a n n x ↔ a ≤ x ∧ x < a + n := by
  unfold doneAt
  split <;> omega

theorem doneAt_chunk (down : Bool) (a : Nat) (hlt : d < n) (x : Nat) : doneAt down a n (d + min 512 (n - d)) x ↔
    a + chunkLo down n d ≤ x ∧ x < a + chunkLo down n d + min 512 (n - d) ∨ doneAt down a n d x := by
  unfold doneAt chunkLo
  cases down
  · simp only [Bool.false_eq_true, if_false]
    omega
  · simp only [if_true]
    omega

theorem not_doneAt_of_chunk (down : Bool) (a : Nat) (hlt : d < n) {j : Nat} (hj : j < min 512 (n - d)) :
    ¬ doneAt down a n d (a + chunkLo down n d + j) := by
  unfold doneAt chunkLo
  cases down
  · simp only [Bool.false_eq_true, if_false]
    omega
  · simp only [if_true]
    omega

/-- Of the `n` octets at `a` of space `sp`, those done hold `F`; every other octet is as it was in `s`. -/
def Rewritten (s : State) (t : Thr) (sp a n : Nat) (down : Bool) (F : Nat → Octet) (d : Nat) (u : State) : Prop :=
  ∀ w x, (w = decide (sp = 6) ∧ (w = true ∨ NoRecord s x) ∧ doneAt down a n d x → cell u t w x = F x) ∧
    (¬ (w = decide (sp = 6) ∧ (w = true ∨ NoRecord s x) ∧ doneAt down a n d x) → cell u t w x = cell s t w x)

theorem rewritten_turned (s : State) (t : Thr) (sp a n : Nat) (down : Bool) (F : Nat → Octet) :
    Rewritten s t sp a n down F 0 (turned s t) :=
  fun w x => ⟨fun h => absurd h.2.2 (doneAt_zero down a n x), fun _ => cell_turned s t w x⟩

theorem rewritten_sameData (h : Moved t u v) (hsame : SameData t u v) (hu : Rewritten s t sp a n down F d u) :
    Rewritten s t sp a n down F d v := by
  intro w x
  rw [cell_sameData h hsame]
  exact hu w x

/-- A chunk that stores its part of `F` rewrites the next units. -/
theorem rewritten_writeOcts (hsp : OctetSpace sp) (hclean : b.mem.poison = []) (hmoved : Moved t (turned s t) b)
    (hend : sp = 6 → a + n ≤ 512) (hlt : d < n) (hb : Rewritten s t sp a n down F d b)
    (hlen : l.length = min 512 (n - d)) (hl : ∀ j, j < min 512 (n - d) → l.getD j 0 = F (a + chunkLo down n d + j)) :
    Rewritten s t sp a n down F (d + min 512 (n - d)) (writeOcts b t.toNat sp (a + chunkLo down n d) l) := by
  have hle := chunkLo_le down n d hlt
  intro w x
  have hrecord : NoRecord s x ↔ NoRecord b x := (noRecord_moved hmoved x).symm
  have hx := hb w x
  rw [hrecord] at hx ⊢
  rw [cell_writeOcts hsp hclean (fun h6 => by have := hend h6; omega), hlen, doneAt_chunk down a hlt]
  by_cases hin : w = decide (sp = 6) ∧ (w = true ∨ NoRecord b x) ∧ a + chunkLo down n d ≤ x ∧
      x < a + chunkLo down n d + min 512 (n - d)
  · obtain ⟨hw, hrec, hlo, hhi⟩ := hin
    rw [if_pos ⟨hw, hrec, hlo, hhi⟩]
    refine ⟨fun _ => ?_, fun hno => absurd ⟨hw, hrec, .inl ⟨hlo, hhi⟩⟩ hno⟩
    rw [hl _ (by omega)]
    congr 1
    omega
  · rw [if_neg hin]
    exact ⟨fun ⟨hw, hrec, hdone⟩ => hx.1 ⟨hw, hrec, hdone.resolve_left fun hnew => hin ⟨hw, hrec, hnew⟩⟩,
      fun hno => hx.2 fun ⟨hw, hrec, hdone⟩ => hno ⟨hw, hrec, .inr hdone⟩⟩

end Sys2Proof.Machine
end

section
/-! PROOFS. BMOVE, BFILL and XLATB over their whole range (09 R203). -/

namespace Sys2Proof.Machine

open Sys2Proof.Claim

variable {s u v b : State} {t : Thr} {g : Gd} {rd ra rb : BitVec 5} {md : BitVec 8} {d m n sp sq a e off src p : Nat}
  {l : List Octet} {F : Nat → Octet}

/-- A routine may begin: the thread may issue it, on a core that redirects nothing, in memory without poison; PG names no
bundle, and no result is still to land. -/
structure MayBegin (s : State) (t : Thr) (g : Gd) : Prop where
  runs : Runs s t g
  raised : s.hkc.raised = []
  mregs : (microStore s t.toNat).mregs = []
  pg : (ctxNow s t).pg.getLsbD 15 = false
  late : (ctxNow s t).late = []
  clean : s.mem.poison = []

theorem rg_moved (h : Moved t (turned s t) u) (r : BitVec 5) : rg (thr u t.toNat).ctx r = (ctxNow s t).g r.toNat := by
  rw [rg, Ctx.g, h.regs, ctx_turned_eq]
  rfl

theorem rg_turned (s : State) (t : Thr) (r : BitVec 5) : rg (thr (turned s t) t.toNat).ctx r = (ctxNow s t).g r.toNat :=
  rg_moved (Moved.refl t _) r

theorem clean_of_moved (h : Moved t (turned s t) b) (hclean : s.mem.poison = []) : b.mem.poison = [] :=
  h.poison.trans hclean

/-- A routine of one plan, which its registers alone give, completes as its chunks say. -/
theorem times_of_plan {i : Instr} {op : Nat} {plan : Ctx → MicroPlan} {q : MicroPlan} {r : List (Nat × Nat)} {down : Bool}
    {P : Nat → State → Prop} (hbegin : MayBegin s t g)
    (hexec : ∀ u, exec i u = .next (raisedDoubts (issueOne (noDoubts u) t
      (microSyl t g op (fun s _ => plan (thr s t.toNat).ctx) (fun _ c => c)))))
    (hplan : ∀ u, Moved t (turned s t) u → plan (thr u t.toNat).ctx = q) (hworks : Works s t q down P)
    (hcheck : microCheck (turned s t) t.toNat 0 q.len q.accs = .ok r) (hdown : q.down r = down) :
    ∃ v, Times i ((q.len + 511) / 512) s v ∧ Completed s t v ∧ P q.len v := by
  have hpos := hworks.pos
  obtain ⟨hruns, hraised, hmregs, hpg, hlate, -⟩ := hbegin
  exact times_of_runsChunks hworks hmregs hraised (runsChunks_of_microSyl (m := (ctxNow s t).micro) hexec hruns hraised hpg
    hlate (by omega) hworks.max (hplan _ (Moved.refl t _)) (fun u hu _ => hplan u hu) (fun c hc => by rw [← hc])
    hcheck hdown)

/-- What a completed routine leaves of its thread's registers. -/
theorem Completed.regs (h : Completed s t u) : (thr u t.toNat).ctx.regs = (ctxNow s t).regs := by
  rw [h.moved.regs, ctx_turned_eq]

/-- What a whole range rewritten reads. -/
theorem octetAt_of_rewritten {down : Bool} (h : Rewritten s t sp a n down F n u) {q : Nat} (hq : OctetSpace q)
    {i : Nat} (hi : q = 6 ∨ NoRecord s i) : octetAt u t p q i =
      if (q = 6 ↔ sp = 6) ∧ a ≤ i ∧ i < a + n then F i else octetAt s t p q i := by
  have hx := h (decide (q = 6)) i
  rw [doneAt_all] at hx
  have hspace : decide (q = 6) = decide (sp = 6) ↔ (q = 6 ↔ sp = 6) := decide_eq_decide
  rw [octetAt_eq_cell hq, octetAt_eq_cell hq]
  by_cases hin : (q = 6 ↔ sp = 6) ∧ a ≤ i ∧ i < a + n
  · rw [if_pos hin]
    exact hx.1 ⟨hspace.mpr hin.1, hi.imp_left decide_eq_true, hin.2⟩
  · rw [if_neg hin]
    exact hx.2 fun hno => hin ⟨hspace.mp hno.1, hno.2.2⟩

/-! ### BFILL -/

/-- The plan of BFILL: `n` octets from offset `off`, of the low octet of `x`. -/
def bfillPlan (t : Thr) (md : BitVec 8) (n off : Nat) (x : W36) : MicroPlan :=
  { len := n, accs := [octAcc (md.toNat % 8) { w := true } off], down := fun _ => false, bad := fun _ _ _ => false,
    commit := fun s l n => match l with
      | [d] => writeOcts s t.toNat d.1 d.2 (List.replicate n (x.truncate 8))
      | _ => s }

theorem works_bfill (hclean : s.mem.poison = []) (hpos : 0 < n) (hmax : n ≤ 16384) (hsp : OctetSpace sp)
    (hend : sp = 6 → a + n ≤ 512) (hgrant : Grants s t (md.toNat % 8) WriteNeed off n sp a) (x : W36) :
    Works s t (bfillPlan t md n off x) false (Rewritten s t sp a n false (fun _ => x.truncate 8)) := by
  refine ⟨hpos, hmax, rewritten_turned s t sp a n false _, fun d u v => rewritten_sameData, fun d b hlt hmoved hP => ?_⟩
  have hle := chunkLo_le false n d hlt
  have hclean' := clean_of_moved hmoved hclean
  refine ⟨_, microCheck_octAcc hmoved hgrant hsp (by omega) hle rfl, rfl, commits_writeOcts hsp hclean' .., ?_⟩
  exact rewritten_writeOcts hsp hclean' hmoved hend hlt hP (List.length_replicate ..) fun j hj =>
    List.getD_replicate _ hj

theorem times_bfill (hbegin : MayBegin s t g) (hn : ((ctxNow s t).g rd.toNat).toNat = n) (hpos : 0 < n) (hmax : n ≤ 16384)
    (hsp : OctetSpace sp) (hend : sp = 6 → a + n ≤ 512)
    (hgrant : Grants s t (md.toNat % 8) WriteNeed ((ctxNow s t).g ra.toNat).toNat n sp a) :
    ∃ u, Times (.bfill t g rd ra rb md) ((n + 511) / 512) s u ∧ Completed s t u ∧
      Rewritten s t sp a n false (fun _ => ((ctxNow s t).g rb.toNat).truncate 8) n u := by
  refine times_of_plan (op := 17) (q := bfillPlan t md n ((ctxNow s t).g ra.toNat).toNat ((ctxNow s t).g rb.toNat))
    (plan := fun c => bfillPlan t md (rg c rd).toNat (rg c ra).toNat (rg c rb)) hbegin (fun _ => rfl) (fun u hu => ?_)
    (works_bfill hbegin.clean hpos hmax hsp hend hgrant _)
    (microCheck_octAcc (Moved.refl t _) hgrant hsp hpos (Nat.zero_add _).le rfl) rfl
  simp only [rg_moved hu, hn]

/-! ### BMOVE -/

/-- The plan of BMOVE: `n` octets to offset `dst` from offset `src`. -/
def bmovePlan (t : Thr) (md : BitVec 8) (n dst src : Nat) : MicroPlan :=
  { len := n,
    accs := [octAcc (md.toNat % 8) { w := true } dst, octAcc (bitsOf md.toNat 5 3) { r := true } src],
    down := fun l => match l with
      | [d, r] => decide ((d.1 = 6 ↔ r.1 = 6) ∧ r.2 < d.2 ∧ d.2 < r.2 + n)
      | _ => false,
    bad := fun s l n => match l with
      | [_, r] => octsBad s r.1 r.2 n
      | _ => false,
    commit := fun s l n => match l with
      | [d, r] => writeOcts s t.toNat d.1 d.2 (readOcts s t.toNat r.1 r.2 n)
      | _ => s }

/-- Does BMOVE copy from the end: the destination begins within the source (09 R203). -/
def bmoveDown (sp a sq e n : Nat) : Bool := decide ((sp = 6 ↔ sq = 6) ∧ e < a ∧ a < e + n)

/-- The octets that a chunk reads are not among those already written. -/
theorem not_doneAt_source (hlt : d < n) (hspace : sp = 6 ↔ sq = 6) {j : Nat} (hj : j < min 512 (n - d)) :
    ¬ doneAt (bmoveDown sp a sq e n) a n d (e + chunkLo (bmoveDown sp a sq e n) n d + j) := by
  unfold doneAt chunkLo
  by_cases hdown : e < a ∧ a < e + n
  · have hd : bmoveDown sp a sq e n = true := decide_eq_true ⟨hspace, hdown⟩
    rw [hd]
    simp only [if_true]
    omega
  · have hd : bmoveDown sp a sq e n = false := decide_eq_false fun h => hdown h.2
    rw [hd]
    simp only [Bool.false_eq_true, if_false]
    omega

theorem works_bmove (hclean : s.mem.poison = []) (hpos : 0 < n) (hmax : n ≤ 16384) (hsp : OctetSpace sp)
    (hend : sp = 6 → a + n ≤ 512) (hgrant : Grants s t (md.toNat % 8) WriteNeed off n sp a) (hsq : OctetSpace sq)
    (hsource : Grants s t (md.toNat / 8 % 8) ReadNeed src n sq e) :
    Works s t (bmovePlan t md n off src) (bmoveDown sp a sq e n)
      (Rewritten s t sp a n (bmoveDown sp a sq e n) (fun x => cell s t (decide (sq = 6)) (e + (x - a)))) := by
  refine ⟨hpos, hmax, rewritten_turned s t sp a n _ _, fun d u v => rewritten_sameData, fun d b hlt hmoved hP => ?_⟩
  have hle := chunkLo_le (bmoveDown sp a sq e n) n d hlt
  have hclean' := clean_of_moved hmoved hclean
  have hm : 0 < min 512 (n - d) := by
    have : d < n := hlt
    omega
  refine ⟨_, microCheck_octAcc hmoved hgrant hsp hm hle (microCheck_octAcc hmoved hsource hsq hm hle rfl),
    octsBad_of_clean hclean' .., commits_writeOcts hsp hclean' .., ?_⟩
  refine rewritten_writeOcts hsp hclean' hmoved hend hlt hP ?_ fun j hj => ?_
  · rw [readOcts_eq_cells hsq]
    simp [bmovePlan]
  · have hcopied : cell b t (decide (sq = 6)) (e + chunkLo (bmoveDown sp a sq e n) n d + j) =
        cell s t (decide (sq = 6)) (e + chunkLo (bmoveDown sp a sq e n) n d + j) :=
      (hP _ _).2 fun hno => not_doneAt_source hlt (decide_eq_decide.mp hno.1).symm hj hno.2.2
    rw [readOcts_eq_cells hsq, List.getD_eq_getElem _ _ (by simpa [bmovePlan] using hj), List.getElem_map,
      List.getElem_range]
    refine hcopied.trans ?_
    congr 1
    omega

theorem times_bmove (hbegin : MayBegin s t g) (hn : ((ctxNow s t).g rd.toNat).toNat = n) (hpos : 0 < n) (hmax : n ≤ 16384)
    (hsp : OctetSpace sp) (hend : sp = 6 → a + n ≤ 512)
    (hgrant : Grants s t (md.toNat % 8) WriteNeed ((ctxNow s t).g ra.toNat).toNat n sp a) (hsq : OctetSpace sq)
    (hsource : Grants s t (md.toNat / 8 % 8) ReadNeed ((ctxNow s t).g rb.toNat).toNat n sq e) :
    ∃ u, Times (.bmove t g rd ra rb md) ((n + 511) / 512) s u ∧ Completed s t u ∧
      ∃ down, Rewritten s t sp a n down (fun x => cell s t (decide (sq = 6)) (e + (x - a))) n u := by
  obtain ⟨u, htimes, hdone, hdata⟩ := times_of_plan (op := 16) (i := .bmove t g rd ra rb md)
    (q := bmovePlan t md n ((ctxNow s t).g ra.toNat).toNat ((ctxNow s t).g rb.toNat).toNat)
    (plan := fun c => bmovePlan t md (rg c rd).toNat (rg c ra).toNat (rg c rb).toNat) hbegin (fun _ => rfl)
    (fun u hu => by simp only [rg_moved hu, hn]) (works_bmove hbegin.clean hpos hmax hsp hend hgrant hsq hsource)
    (microCheck_octAcc (Moved.refl t _) hgrant hsp hpos (Nat.zero_add _).le
      (microCheck_octAcc (Moved.refl t _) hsource hsq hpos (Nat.zero_add _).le rfl)) rfl
  exact ⟨u, htimes, hdone, _, hdata⟩

/-! ### XLATB -/

/-- The access to the 64 words of XLATB's table, at every chunk. -/
def tableAcc (md : BitVec 8) (tab : Nat) : MicroAcc :=
  { sel := bitsOf md.toNat 5 3, spaces := [spClm, spCsm], need := { r := true }, off := fun _ _ => tab,
    size := fun _ _ => 64 }

/-- The plan of XLATB: `n` octets at offset `off`, through the table at offset `tab`. -/
def xlatbPlan (t : Thr) (md : BitVec 8) (n off tab : Nat) : MicroPlan :=
  { len := n,
    accs := [octAcc (md.toNat % 8) { r := true, w := true } off, tableAcc md tab],
    down := fun _ => false,
    bad := fun s l n => match l with
      | [d, r] => octsBad s d.1 d.2 n ||
          (readOcts s t.toNat d.1 d.2 n).any (fun o => wordBad s t.toNat r.1 (r.2 + o.toNat / 4))
      | _ => false,
    commit := fun s l n => match l with
      | [d, r] => writeOcts s t.toNat d.1 d.2 ((readOcts s t.toNat d.1 d.2 n).map (fun o =>
          BitVec.ofNat 8 (xlatEntry s t.toNat r.1 r.2 o.toNat)))
      | _ => s }

/-- The octet that a table of words at `e` gives for `o` (09 R194). -/
def tableOctet (s : State) (t : Thr) (sq e : Nat) (o : Octet) : Octet := BitVec.ofNat 8 (xlatEntry s t.toNat sq e o.toNat)

theorem tableOctet_moved (h : Moved t (turned s t) b) (sq e : Nat) (o : Octet) :
    tableOctet b t sq e o = tableOctet s t sq e o := by
  obtain ⟨_, _, _, _, _, _, hb⟩ := h.only
  rw [hb]
  rfl

theorem wordBad_moved (h : Moved t (turned s t) b) (sq w : Nat) : wordBad b t.toNat sq w = wordBad s t.toNat sq w := by
  obtain ⟨_, _, _, _, _, _, hb⟩ := h.only
  rw [hb]
  rfl

theorem microCheck_table {tab lo : Nat} (hmoved : Moved t (turned s t) b) (hsq : sq < 2)
    (htable : Grants s t (md.toNat / 8 % 8) ReadNeed tab 64 sq e) :
    microCheck b t.toNat lo m [tableAcc md tab] = .ok [(sq, e)] := by
  have hin : sq ∈ [spClm, spCsm] := by
    simp only [spClm, spCsm, List.mem_cons, List.not_mem_nil, or_false]
    omega
  unfold microCheck tableAcc
  dsimp only
  rw [show bitsOf md.toNat 5 3 = md.toNat / 8 % 8 from rfl, accessCheck_moved hmoved htable hin]
  rfl

theorem works_xlatb {tab : Nat} (hclean : s.mem.poison = []) (hpos : 0 < n) (hmax : n ≤ 16384) (hsp : OctetSpace sp)
    (hend : sp = 6 → a + n ≤ 512) (hgrant : Grants s t (md.toNat % 8) { r := true, w := true } off n sp a) (hsq : sq < 2)
    (htable : Grants s t (md.toNat / 8 % 8) ReadNeed tab 64 sq e) (hgood : ∀ w, w < 64 → WordGood s t sq (e + w)) :
    Works s t (xlatbPlan t md n off tab) false
      (Rewritten s t sp a n false (fun x => tableOctet s t sq e (cell s t (decide (sp = 6)) x))) := by
  refine ⟨hpos, hmax, rewritten_turned s t sp a n _ _, fun d u v => rewritten_sameData, fun d b hlt hmoved hP => ?_⟩
  have hle := chunkLo_le false n d hlt
  have hclean' := clean_of_moved hmoved hclean
  have hm : 0 < min 512 (n - d) := by
    have : d < n := hlt
    omega
  refine ⟨_, microCheck_octAcc hmoved hgrant hsp hm hle (microCheck_table hmoved hsq htable), ?_,
    commits_writeOcts hsp hclean' .., ?_⟩
  · refine Bool.or_eq_false_iff.mpr ⟨octsBad_of_clean hclean' .., List.any_eq_false.mpr fun o _ => ?_⟩
    have ho := o.isLt
    rw [wordBad_moved hmoved]
    exact Bool.eq_false_iff.mp (wordBad_of_good (hgood _ (by omega)))
  · refine rewritten_writeOcts hsp hclean' hmoved hend hlt hP ?_ fun j hj => ?_
    · rw [readOcts_eq_cells hsp]
      simp [xlatbPlan]
    · have hread : cell b t (decide (sp = 6)) (a + chunkLo false n d + j) =
          cell s t (decide (sp = 6)) (a + chunkLo false n d + j) :=
        (hP _ _).2 fun hno => not_doneAt_of_chunk false a hlt hj hno.2.2
      rw [readOcts_eq_cells hsp, List.map_map, List.getD_eq_getElem _ _ (by simpa [xlatbPlan] using hj),
        List.getElem_map, List.getElem_range]
      exact (tableOctet_moved hmoved sq e _).trans (congrArg _ hread)

theorem times_xlatb (hbegin : MayBegin s t g) (hn : ((ctxNow s t).g rd.toNat).toNat = n) (hpos : 0 < n) (hmax : n ≤ 16384)
    (hsp : OctetSpace sp) (hend : sp = 6 → a + n ≤ 512)
    (hgrant : Grants s t (md.toNat % 8) { r := true, w := true } ((ctxNow s t).g ra.toNat).toNat n sp a) (hsq : sq < 2)
    (htable : Grants s t (md.toNat / 8 % 8) ReadNeed ((ctxNow s t).g rb.toNat).toNat 64 sq e)
    (hgood : ∀ w, w < 64 → WordGood s t sq (e + w)) :
    ∃ u, Times (.xlatb t g rd ra rb md) ((n + 511) / 512) s u ∧ Completed s t u ∧
      Rewritten s t sp a n false (fun x => tableOctet s t sq e (cell s t (decide (sp = 6)) x)) n u :=
  times_of_plan (op := 19)
    (q := xlatbPlan t md n ((ctxNow s t).g ra.toNat).toNat ((ctxNow s t).g rb.toNat).toNat)
    (plan := fun c => xlatbPlan t md (rg c rd).toNat (rg c ra).toNat (rg c rb).toNat) hbegin (fun _ => rfl)
    (fun u hu => by simp only [rg_moved hu, hn]) (works_xlatb hbegin.clean hpos hmax hsp hend hgrant hsq htable hgood)
    (microCheck_octAcc (Moved.refl t _) hgrant hsp hpos (Nat.zero_add _).le
      (microCheck_table (Moved.refl t _) hsq htable)) rfl

end Sys2Proof.Machine
end

section
/-! PROOFS. CRCB and LUHNX over their whole range (09 R203). -/

namespace Sys2Proof.Machine

open Sys2Proof.Claim

variable {s u v b : State} {t : Thr} {g : Gd} {rd ra rb : BitVec 5} {md : BitVec 8} {d m n sp a off : Nat} {l : List Octet}

/-! ### CRCB -/

/-- The CRC-32 register after the octets (09 R201). -/
abbrev crcSum (ca : Nat) (l : List Octet) : Nat := l.foldl (crcOctet 32 true 0xEDB88320) ca

theorem crcSum_lt {ca : Nat} (hca : ca < 2 ^ 32) (l : List Octet) : crcSum ca l < 2 ^ 32 := by
  induction l generalizing ca with
  | nil => exact hca
  | cons o l ih => exact ih (crcReflOctet_eq (by decide) (by decide) hca o).2

/-- The octets of the range at `a`, as they were when the routine began. -/
def rangeOcts (s : State) (t : Thr) (sp a n : Nat) : List Octet :=
  (List.range n).map (fun i => cell s t (decide (sp = 6)) (a + i))

theorem rangeOcts_add (s : State) (t : Thr) (sp a d m : Nat) :
    rangeOcts s t sp a (d + m) = rangeOcts s t sp a d ++ rangeOcts s t sp (a + d) m := by
  simp [rangeOcts, List.range_add, Nat.add_assoc]

/-- The octets fed into CA by the form `f`. -/
def fedCrc (f : CrcForm) (s : State) (t : Thr) (l : List Octet) : State :=
  updCtx s t.toNat (fun c => { c with ca := BitVec.ofNat 32 (crcSteps f c.ca.toNat l) })

/-- The plan of CRCB: `n` octets at offset `off`, by the form `f`. -/
def crcbPlan (t : Thr) (md : BitVec 8) (n off : Nat) (f : CrcForm) : MicroPlan :=
  { len := n, accs := [octAcc (md.toNat % 8) { r := true } off], down := fun _ => false,
    bad := fun s l n => match l with
      | [d] => octsBad s d.1 d.2 n
      | _ => false,
    commit := fun s l n => match l with
      | [d] => fedCrc f s t (readOcts s t.toNat d.1 d.2 n)
      | _ => s }

/-- The form of CRC-32 (09 Table 09-9). -/
def form32 : CrcForm := ⟨32, true, 0xEDB88320⟩

/-- CA holds the CRC of the first `d` octets, and no octet has changed. -/
structure Summed (s : State) (t : Thr) (sp a d : Nat) (u : State) : Prop where
  dev : u.mem.dev = s.mem.dev
  cells : ∀ w x, cell u t w x = cell s t w x
  ca : (thr u t.toNat).ctx.ca.toNat = crcSum (ctxNow s t).ca.toNat (rangeOcts s t sp a d)

theorem summed_turned (s : State) (t : Thr) (sp a : Nat) : Summed s t sp a 0 (turned s t) :=
  ⟨rfl, cell_turned s t, by rw [ctx_turned_eq]; rfl⟩

theorem summed_sameData (hmoved : Moved t u v) (hsame : SameData t u v) (h : Summed s t sp a d u) : Summed s t sp a d v :=
  ⟨hsame.dev.trans h.dev, fun w x => (cell_sameData hmoved hsame w x).trans (h.cells w x), by rw [hsame.ca, h.ca]⟩

theorem thr_fedCrc (f : CrcForm) (s : State) (t : Thr) (l : List Octet) : thr (fedCrc f s t l) t.toNat =
    { thr s t.toNat with ctx := { (thr s t.toNat).ctx with
      ca := BitVec.ofNat 32 (crcSteps f (thr s t.toNat).ctx.ca.toNat l) } } := by
  rw [fedCrc, thr_updCtx, if_pos rfl]

theorem commits_fedCrc (f : CrcForm) (b : State) (t : Thr) (l : List Octet) : Commits t b (fedCrc f b t l) := by
  refine ⟨?_, by rw [thr_fedCrc]⟩
  unfold fedCrc
  exact moved_updThr (r := (thr b t.toNat).routine) rfl rfl

/-- A chunk feeds the next octets. -/
theorem summed_fedCrc (hsp : OctetSpace sp) (h : Summed s t sp a d b) (m : Nat) :
    Summed s t sp a (d + m) (fedCrc form32 b t (readOcts b t.toNat sp (a + d) m)) := by
  obtain ⟨hdev, hcells, hca⟩ := h
  have hread : readOcts b t.toNat sp (a + d) m = rangeOcts s t sp (a + d) m := by
    rw [readOcts_eq_cells hsp]
    exact List.map_congr_left fun i _ => hcells _ _
  have hstart : crcSum (ctxNow s t).ca.toNat (rangeOcts s t sp a d) < 2 ^ 32 := crcSum_lt (BitVec.isLt _) _
  refine ⟨hdev, fun w x => ?_, ?_⟩
  · rw [← hcells]
    unfold cell
    rw [thr_fedCrc]
    rfl
  · rw [thr_fedCrc, hread, hca, form32, crcSteps_eq (by decide) (fun _ => by decide), Nat.mod_eq_of_lt hstart,
      rangeOcts_add, crcSum, crcSum, List.foldl_append, BitVec.toNat_ofNat, Nat.mod_eq_of_lt (crcSum_lt hstart _)]

theorem works_crcb (hclean : s.mem.poison = []) (hpos : 0 < n) (hmax : n ≤ 16384) (hsp : OctetSpace sp)
    (hgrant : Grants s t (md.toNat % 8) ReadNeed off n sp a) :
    Works s t (crcbPlan t md n off form32) false (Summed s t sp a) := by
  refine ⟨hpos, hmax, summed_turned s t sp a, fun d u v => summed_sameData, fun d b hlt hmoved hP => ?_⟩
  have hm : 0 < min 512 (n - d) := by
    have : d < n := hlt
    omega
  exact ⟨_, microCheck_octAcc hmoved hgrant hsp hm (chunkLo_le false n d hlt) rfl,
    octsBad_of_clean (clean_of_moved hmoved hclean) .., commits_fedCrc .., summed_fedCrc hsp hP _⟩

theorem times_crcb (hbegin : MayBegin s t g) (hn : ((ctxNow s t).g rd.toNat).toNat = n) (hpos : 0 < n) (hmax : n ≤ 16384)
    (hpoly : md.toNat / 8 % 4 = 0) (hsp : OctetSpace sp)
    (hgrant : Grants s t (md.toNat % 8) ReadNeed ((ctxNow s t).g ra.toNat).toNat n sp a) :
    ∃ u, Times (.crcb t g rd ra rb md) ((n + 511) / 512) s u ∧ Completed s t u ∧ Summed s t sp a n u := by
  have hform : ∀ u, crcForm u (t.toNat / 16) (bitsOf md.toNat 4 3) = form32 := fun u => by
    rw [show bitsOf md.toNat 4 3 = 0 from hpoly]
    rfl
  obtain ⟨hruns, hraised, hmregs, hpg, hlate, hclean⟩ := hbegin
  refine times_of_runsChunks (works_crcb hclean hpos hmax hsp hgrant) hmregs hraised (runsChunks_of_microSyl (op := 18)
    (m := some { poly := 0xEDB88320, width := 32, refl := true }) (fun _ => rfl) hruns hraised hpg hlate
    (Nat.pos_iff_ne_zero.mp hpos) hmax ?_ (fun u hu hmicro => ?_) (fun c _ => ?_)
    (microCheck_octAcc (Moved.refl t _) hgrant hsp hpos (Nat.zero_add _).le rfl) rfl)
  · simp only [hform, rg_turned, hn]
    rfl
  · simp only [rg_moved hu, hn, hmicro]
    rfl
  · simp only [hform]
    rfl

/-- A completed routine that stores no octet leaves the memories as they were. -/
theorem Summed.mem (h : Summed s t sp a d u) (hdone : Completed s t u) : u.mem = s.mem := by
  obtain ⟨_, _, _, _, _, _, hu⟩ := hdone.moved.only
  have hdev := h.dev
  rw [hu] at hdev ⊢
  exact congrArg (fun x => { s.mem with dev := x }) hdev

end Sys2Proof.Machine
end

section
/-! PROOFS. LUHNX over its whole range (09 R203). -/

namespace Sys2Proof.Machine

open Sys2Proof.Claim

variable {s u v b : State} {t : Thr} {g : Gd} {rd ra rb : BitVec 5} {md : BitVec 8} {k m n sp a off : Nat} {l : List Octet}

/-- The octets that `k` digits take: packed two to an octet, or one by one. -/
def luhnxSize (md : BitVec 8) (k : Nat) : Nat := if md.getLsbD 3 then (k + 1) / 2 else k

/-- Digit `i` of the range at `a`: a packed nibble, the high one first, or an ASCII digit. -/
def rangeDigit (s : State) (t : Thr) (md : BitVec 8) (sp a i : Nat) : Nat :=
  if md.getLsbD 3 then
    (if i % 2 = 0 then (cell s t (decide (sp = 6)) (a + i / 2)).toNat / 16
     else (cell s t (decide (sp = 6)) (a + i / 2)).toNat % 16)
  else (cell s t (decide (sp = 6)) (a + i)).toNat - 0x30

/-- An octet that reads an ASCII digit. -/
def AsciiDigit (o : Octet) : Prop := 0x30 ≤ o.toNat ∧ o.toNat ≤ 0x39

theorem luhnxDigits_readOcts (hsp : OctetSpace sp)
    (hascii : md.getLsbD 3 = false → ∀ i, i < k → AsciiDigit (cell s t (decide (sp = 6)) (a + i))) :
    luhnxDigits (readOcts (turned s t) t.toNat sp a (luhnxSize md k)) k (md.getLsbD 3) =
      (List.range k).map (rangeDigit s t md sp a) := by
  rw [readOcts_eq_cells hsp]
  simp only [cell_turned]
  unfold luhnxDigits
  by_cases hbcd : md.getLsbD 3 = true
  · rw [if_pos hbcd]
    refine List.map_congr_left fun i hi => ?_
    have hlt : i / 2 < luhnxSize md k := by
      have := List.mem_range.mp hi
      rw [luhnxSize, if_pos hbcd]
      omega
    have hoct : oct ((List.range (luhnxSize md k)).map (fun i => cell s t (decide (sp = 6)) (a + i))) (i / 2) =
        (cell s t (decide (sp = 6)) (a + i / 2)).toNat := by
      simp [oct, hlt]
    rw [rangeDigit, if_pos hbcd, hoct]
  · rw [if_neg hbcd, luhnxSize, if_neg hbcd, List.map_map]
    refine List.map_congr_left fun i hi => ?_
    rw [rangeDigit, if_neg hbcd]
    exact if_pos (hascii (Bool.eq_false_iff.mpr hbcd) i (List.mem_range.mp hi))

/-- The fold reads the digits from the last. -/
theorem reverse_map_range (f : Nat → Nat) (k : Nat) :
    ((List.range k).map f).reverse = (List.range k).map (fun i => f (k - 1 - i)) := by
  refine List.ext_getElem (by simp) fun i hi _ => ?_
  simp [List.getElem_reverse]

/-- Decimal digits leave INV clear. -/
theorem foldl_luhnStep_valid (l : List Nat) (hl : ∀ d ∈ l, d ≤ 9) (st : Nat × Bool × Bool) (hst : st.2.2 = false) :
    (l.foldl luhnStep st).2.2 = false := by
  induction l generalizing st with
  | nil => exact hst
  | cons d l ih =>
    obtain ⟨hd, hl⟩ := List.forall_mem_cons.mp hl
    refine ih hl _ ?_
    rw [luhnStep, hst, Bool.false_or]
    exact decide_eq_false (by omega)

/-- What LUHNX writes for the fold `st`. -/
def luhnxWrites (rd : BitVec 5) (md : BitVec 8) (st : Nat × Bool × Bool) (c : Ctx) : Ctx :=
  (wg c rd (luhnWord st)).setP (bitsOf md.toNat 6 4) (decide (st.1 = 0) && !st.2.2)

/-- The end of LUHNX: its microwords, then its results. -/
def luhnxEnd (t : Thr) (rd : BitVec 5) (md : BitVec 8) (pc : BitVec 16) (st : Nat × Bool × Bool) (b : State) : State :=
  match microSeq (microFetched b t.toNat) t.toNat { upc := Config.microEntry 20 } with
  | none => seqError (microFetched b t.toNat) t.toNat pc
  | some _ => microDone (updCtx (microFetched b t.toNat) t.toNat (luhnxWrites rd md st)) t.toNat

/-- Its microwords sequence without error on a core that redirects nothing. -/
theorem luhnxEnd_of_rom (hmregs : (microStore b t.toNat).mregs = []) (pc : BitVec 16) (st : Nat × Bool × Bool) :
    ∃ v, luhnxEnd t rd md pc st b = v ∧ v.mem = b.mem ∧ v.hkc = b.hkc ∧
      (thr v t.toNat).ctx = { luhnxWrites rd md st (thr b t.toNat).ctx with pg := 0, micro := none } := by
  obtain ⟨r, hr, -⟩ := microSeq_of_rom (s := microFetched b t.toNat) (t := t) hmregs { upc := Config.microEntry 20 }
  have hend : luhnxEnd t rd md pc st b =
      microDone (updCtx (microFetched b t.toNat) t.toNat (luhnxWrites rd md st)) t.toNat := by
    unfold luhnxEnd
    rw [hr]
  refine ⟨_, hend, ?_, ?_, ?_⟩
  · rw [microDone, mcsThr_frame]
    rfl
  · rw [microDone, mcsThr_frame]
    rfl
  · rw [thr_microDone, thr_updCtx, if_pos rfl]
    rfl

section
variable (hk : ((ctxNow s t).g rb.toNat).toNat = k) (hsp : OctetSpace sp) (hpos : 1 ≤ k) (hmax : k ≤ 19)
  (hgrant : Grants s t (md.toNat % 8) ReadNeed ((ctxNow s t).g ra.toNat).toNat (luhnxSize md k) sp a)
include hk hsp hpos hmax hgrant

theorem fx_sylLuhnx (hclean : s.mem.poison = []) : (sylLuhnx t g rd ra rb md).fx (turned s t) =
    { run :=
        luhnxEnd t rd md (ctxNow s t).pc
          (luhnFold 0 (luhnxDigits (readOcts (turned s t) t.toNat sp a (luhnxSize md k)) k (md.getLsbD 3)).reverse) } := by
  have hbcd : bitOf md.toNat 3 = md.getLsbD 3 := bitOf_eq _ _
  unfold sylLuhnx
  dsimp only
  rw [ctx_turned_eq, rg, rg, hk, hbcd, if_neg (by omega), ← luhnxSize,
    accessCheck_moved (Moved.refl t _) hgrant (mem_microSpaces hsp)]
  dsimp only
  rw [if_neg (Bool.eq_false_iff.mp (octsBad_of_clean (u := turned s t) hclean ..))]
  rfl

/-- LUHNX ends in one command. -/
theorem exec_luhnx (hbegin : MayBegin s t g)
    (hascii : md.getLsbD 3 = false → ∀ i, i < k → AsciiDigit (cell s t (decide (sp = 6)) (a + i))) {st : Nat × Bool × Bool}
    (hst : ((List.range k).map (fun i => rangeDigit s t md sp a (k - 1 - i))).foldl luhnStep (0, false, false) = st) :
    ∃ u, exec (.luhnx t g rd ra rb md) s = .next u ∧ u.mem = s.mem ∧ (thr u t.toNat).ctx =
      { luhnxWrites rd md st { ctxNow s t with pc := (ctxNow s t).pc + 1 } with pg := 0, micro := none } := by
  obtain ⟨⟨⟨hissue, hbreak, hstep, -⟩, hon⟩, hraised, hmregs, -, -, hclean⟩ := hbegin
  have hfx := fx_sylLuhnx (g := g) (rd := rd) hk hsp hpos hmax hgrant hclean
  rw [luhnxDigits_readOcts hsp hascii, reverse_map_range] at hfx
  have hfold : luhnFold 0 ((List.range k).map (fun i => rangeDigit s t md sp a (k - 1 - i))) = st := by
    rw [← hst, luhnFold, luhnDigit_eq]
    rfl
  rw [hfold] at hfx
  have hrun : issueOne s t (sylLuhnx t g rd ra rb md) = luhnxEnd t rd md (ctxNow s t).pc st (issuing s t.toNat 1) :=
    issueOne_run (x := sylLuhnx t g rd ra rb md) hissue hbreak hstep rfl hon hfx rfl rfl
  obtain ⟨v, hend, hmem, hhkc, hctx⟩ := luhnxEnd_of_rom (rd := rd) (md := md)
    ((moved_issuing s t).mregs.trans hmregs) (ctxNow s t).pc st
  have hhkc' : v.hkc = s.hkc := hhkc.trans (moved_issuing s t).raised
  refine ⟨v, ?_, hmem.trans (issuing_mem ..), ?_⟩
  · change Host.Outcome.next (raisedDoubts (issueOne (noDoubts s) t (sylLuhnx t g rd ra rb md))) = _
    rw [noDoubts_of_none hraised, hrun, hend, raisedDoubts_of_none (by rw [hhkc']; exact hraised)]
  · rw [hctx, thr_issued]

end

/-- What LUHNX answers for decimal digits. -/
theorem luhnxWrites_wrote (c : Ctx) (rd : BitVec 5) (md : BitVec 8) {st : Nat × Bool × Bool} (hst : st.2.2 = false) :
    Wrote c (luhnxWrites rd md st { c with pc := c.pc + 1 }) [(rd.toNat, BitVec.ofNat 36 (st.1 + if st.2.1 then 16 else 0))]
      [(md.toNat / 16 % 8, decide (st.1 = 0))] := by
  have hword : luhnWord st = BitVec.ofNat 36 (st.1 + if st.2.1 then 16 else 0) := by
    unfold luhnWord b2n
    congr 1
    rw [hst]
    cases st.2.1 <;> simp [Nat.add_comm]
  have hzero : (decide (st.1 = 0) && !st.2.2) = decide (st.1 = 0) := by rw [hst, Bool.not_false, Bool.and_true]
  rw [← hword, ← hzero]
  exact wrote_wg_setP c rd (luhnWord st) (bitsOf md.toNat 6 4) _

end Sys2Proof.Machine
end

section
/-! PROOFS. The match registers and the sequencer of the micro-store (10 R208, R209). -/

namespace Sys2Proof.Machine

open Sys2Proof.Claim

variable {s b : State} {t : Thr} {x : Patch} {a i v d o : Nat} {w : BitVec 112} {st : List Nat}

/-! ### The match registers -/

/-- The lowest-numbered match register that holds a ROM address redirects it. -/
theorem redirect_of_first (hi : i < x.mregs.length) (hmatch : x.mregs[i]? = some (a, v))
    (hfirst : ∀ j m, j < i → x.mregs[j]? = some m → m.1 ≠ a) (ha : a < 0x2000) : x.redirect a = v := by
  have hfind : x.mregs.find? (fun m => decide (m.1 = a)) = some (a, v) := by
    rw [List.find?_eq_some_iff_getElem]
    refine ⟨decide_eq_true rfl, i, hi, Option.some.inj ((List.getElem?_eq_getElem hi).symm.trans hmatch), fun j hj => ?_⟩
    have hlt : j < x.mregs.length := hj.trans hi
    simpa using hfirst j x.mregs[j] hj (List.getElem?_eq_getElem hlt)
  rw [Patch.redirect, if_pos ha, hfind]
  rfl

/-- An address of patch RAM, or one that no match register holds, is not redirected. -/
theorem redirect_of_none (h : 0x2000 ≤ a ∨ ∀ m ∈ x.mregs, m.1 ≠ a) : x.redirect a = a := by
  unfold Patch.redirect
  split
  · have hfind : x.mregs.find? (fun m => decide (m.1 = a)) = none :=
      List.find?_eq_none.mpr fun m hm => by simpa using h.resolve_left (by omega) m hm
    rw [hfind]
    rfl
  · rfl

theorem word_of_beyond (h : 0x2200 ≤ a) : x.word a = none := by
  rw [Patch.word, if_neg (by omega), if_neg (by omega)]

/-! ### The sequencer -/

theorem microNext_eq_none_iff :
    microNext w a d st = none ↔ (mwSeq w = 3 ∧ 4 ≤ st.length) ∨ (mwSeq w = 4 ∧ st = []) ∨ 6 ≤ mwSeq w := by
  unfold microNext
  split
  case h_4 hseq => by_cases hfull : 4 ≤ st.length <;> simp [hseq, hfull]
  case h_5 hseq => cases st <;> simp [hseq]
  case h_7 h0 h1 h2 h3 h4 h5 =>
    rw [imp_false] at h0 h1 h2 h3 h4 h5
    exact iff_of_true rfl (.inr (.inr (by omega)))
  all_goals simp [*]

theorem microNext_call (hseq : mwSeq w = 3) (h : st.length < 4) :
    microNext w a d st = some (mwTarget w, (a + 1) :: st) := by
  unfold microNext
  rw [hseq]
  exact if_neg (by omega)

theorem microNext_return {r : Nat} {l : List Nat} (hseq : mwSeq w = 4) : microNext w a d (r :: l) = some (r, l) := by
  unfold microNext
  rw [hseq]
  rfl

/-- A routine whose microwords make a sequencing error raises a doubt source and goes no further. -/
theorem microChunk_of_error {p : MicroPlan} {pc : BitVec 16} {r : MicroRun} (hpart : thrPart s t.toNat = some o)
    (herror : microSeq (microFetched s t.toNat) t.toNat r = none) (done : Nat) :
    ∃ u, microChunk p t.toNat pc r done s = u ∧ u.mem = s.mem ∧
      u.hkc.raised = s.hkc.raised ++ [(0x02, some o, t.toNat / 16)] ∧ (thr u t.toNat).routine = none := by
  have howner : thrPart (microFetched s t.toNat) t.toNat = some o := (moved_microFetched s t).thrPart.trans hpart
  have hchunk : microChunk p t.toNat pc r done s = seqError (microFetched s t.toNat) t.toNat pc := by
    unfold microChunk
    dsimp only
    rw [herror]
  refine ⟨_, hchunk, rfl, ?_, ?_⟩
  · rw [seqError, howner]
    rfl
  · have hself : ∀ y p q, thr (raiseDoubt y p q (t.toNat / 16)) t.toNat = thr y t.toNat := fun _ _ _ => rfl
    rw [seqError, hself, thr_updThr, if_pos rfl]

theorem microSequencer_holds : microSequencer := by
  refine ⟨fun x a => ⟨fun i v => redirect_of_first, redirect_of_none, word_of_beyond⟩,
    fun w a d st => ⟨microNext_eq_none_iff, fun hseq => ?_, fun hseq => ?_, microNext_call, fun r l hseq hst => ?_⟩,
    fun s t p pc r done o hpart herror => ?_⟩
  · unfold microNext
    rw [hseq]
    rfl
  · unfold microNext
    rw [hseq]
    rfl
  · rw [hst, microNext_return hseq]
  · obtain ⟨u, rfl, h⟩ := microChunk_of_error hpart herror done
    exact h

end Sys2Proof.Machine
end

section
/-! PROOFS. The microcoded instructions over their whole range, whatever doubts the last command raised (09 R203). -/

namespace Sys2Proof.Machine

open Sys2Proof.Claim

variable {s u : State} {t : Thr} {g : Gd} {rd ra rb : BitVec 5} {md : BitVec 8} {i : Instr} {k : Nat}

/-- A command that drops the doubts of the last one issues alike when they are dropped already. -/
theorem times_of_noDoubts (hexec : exec i (noDoubts s) = exec i s) (hk : 0 < k)
    (h : Times i k (noDoubts s) u) : Times i k s u := by
  obtain ⟨j, rfl⟩ : ∃ j, k = j + 1 := ⟨k - 1, by omega⟩
  obtain ⟨v, hv, hrest⟩ := h
  exact ⟨v, hexec.symm.trans hv, hrest⟩

/-- An octet of a table of words. -/
theorem tableOctet_eq (s : State) (t : Thr) (sq b : Nat) (o : Octet) : tableOctet s t sq b o =
    BitVec.ofNat 8 ((Claim.wordAt s t sq (b + o.toNat / 4)).toNat / 2 ^ (24 - 8 * (o.toNat % 4))) := by
  rw [tableOctet, xlatEntry_eq]
  refine BitVec.eq_of_toNat_eq ?_
  rw [BitVec.toNat_ofNat, BitVec.toNat_ofNat, Nat.mod_mod]

/-- A register after the write of one. -/
theorem g_of_wrote_one {c c' : Ctx} {r : Nat} {v : W36} {ps : List (Nat × Bool)} (h : Wrote c c' [(r, v)] ps) (i : Nat) :
    c'.g i = if i = r ∧ i ≠ 0 then v else c.g i := by
  obtain ⟨-, hregs, -⟩ := h
  rw [hregs, lookup_cons_getD]
  by_cases hi : i = 0
  · simp [hi, Ctx.g]
  · simp [hi]

/-- A predicate after the write of one. -/
theorem pd_of_wrote_one {c c' : Ctx} {gs : List (Nat × W36)} {j : Nat} {b : Bool} (h : Wrote c c' gs [(j, b)]) {i : Nat}
    (hpos : 0 < i) (hlt : i < 8) : c'.pd i = if i = j then b else c.pd i := by
  obtain ⟨-, -, hpreds⟩ := h
  rw [hpreds i hlt, lookup_cons_getD, if_neg (by omega)]
  rfl

theorem microRoutines_holds : microRoutines := by
  intro s t g rd ra rb md sp a sq b p hruns hpart c n k x y hmregs hpg hlate hpos hmax hclean hsp hend
  have hbegin : MayBegin (noDoubts s) t g := ⟨hruns, rfl, hmregs, hpg, hlate, hclean⟩
  have hk : 0 < k := Nat.div_pos (by omega) (by decide)
  refine ⟨fun hgrant => ⟨fun ⟨hsq, hsource⟩ => ?bmove, ?bfill⟩, fun hgrant hpoly => ?crcb,
    fun hgrant ⟨hsq, htable, hgood⟩ => ?xlatb, ?luhnx⟩
  case bmove =>
    obtain ⟨u, htimes, hdone, down, hdata⟩ := times_bmove hbegin rfl hpos hmax hsp hend hgrant hsq hsource
    refine ⟨u, times_of_noDoubts rfl hk htimes, hdone.pg, hdone.regs, hdone.pc, hdone.routine, fun q hq i hi hrec => ?_⟩
    rw [octetAt_of_rewritten hdata (by omega) (hq.symm.imp_right hrec), ← octetAt_eq_cell hsq _ p]
    rfl
  case bfill =>
    obtain ⟨u, htimes, hdone, hdata⟩ := times_bfill hbegin rfl hpos hmax hsp hend hgrant
    refine ⟨u, times_of_noDoubts rfl hk htimes, hdone.pg, hdone.regs, hdone.pc, hdone.routine, fun q hq i hi hrec => ?_⟩
    exact octetAt_of_rewritten hdata (by omega) (hq.symm.imp_right hrec)
  case crcb =>
    obtain ⟨u, htimes, hdone, hdata⟩ := times_crcb hbegin rfl hpos hmax hpoly hsp hgrant
    refine ⟨u, times_of_noDoubts rfl hk htimes, hdone.pg, hdata.mem hdone, hdone.regs, hdone.pc, ?_⟩
    have hocts : rangeOcts s t sp a n = (List.range n).map (fun i => octetAt s t p sp (a + i)) :=
      List.map_congr_left fun i _ => (octetAt_eq_cell hsp s p (a + i)).symm
    rw [← hocts]
    exact hdata.ca
  case xlatb =>
    obtain ⟨u, htimes, hdone, hdata⟩ := times_xlatb hbegin rfl hpos hmax hsp hend hgrant hsq htable hgood
    refine ⟨u, times_of_noDoubts rfl hk htimes, hdone.pg, hdone.regs, hdone.pc, fun i hlo hhi hrec => ?_⟩
    rw [octetAt_of_rewritten hdata hsp hrec, if_pos ⟨Iff.rfl, hlo, hhi⟩, tableOctet_eq, ← octetAt_eq_cell hsp _ p]
    rfl
  case luhnx =>
    intro k size digit hlow hhigh hgrant hascii hvalid st
    have hdigit : ∀ i, rangeDigit s t md sp a i = digit i := fun i => by
      simp only [rangeDigit, ← octetAt_eq_cell hsp _ p]
      rfl
    have hst :
        ((List.range k).map (fun i => rangeDigit s t md sp a (k - 1 - i))).foldl luhnStep (0, false, false) = st := by
      simp only [hdigit]
      rfl
    obtain ⟨u, hexec, hmem, hctx⟩ := exec_luhnx (s := noDoubts s) (rd := rd) rfl hsp hlow hhigh hgrant hbegin
      (fun hbcd i hi => by rw [← octetAt_eq_cell hsp _ p]; exact hascii hbcd i hi) hst
    have hinv : st.2.2 = false := foldl_luhnStep_valid _ (fun d hd => by
      obtain ⟨i, hi, rfl⟩ := List.mem_map.mp hd
      have hlt := List.mem_range.mp hi
      exact hvalid _ (by omega)) _ rfl
    have hwrote := luhnxWrites_wrote (ctxNow s t) rd md hinv
    have hregs := g_of_wrote_one hwrote
    have hpreds := fun i hi hlt => pd_of_wrote_one hwrote (i := i) hi hlt
    exact ⟨u, _, hexec, hctx, hmem, rfl, hregs, hpreds⟩

/-- Settles O11: the routines by `microRoutines_holds`, an induction over the chunks of a range that its plan satisfies; the
match registers and the sequencer by `microSequencer_holds`. -/
theorem microcoded : Obligations.Microcoded := ⟨microRoutines_holds, microSequencer_holds⟩

end Sys2Proof.Machine
end
